-- ==== Sys2Proof/Word.lean ====
section
/-!
DEFINITION. The word types of the KD1 model and their plainest arithmetic (R4 of 00_scope.md: bit ranges [hi:lo],
bit 0 least significant, little-endian structures).
-/
namespace Sys2Proof

abbrev Byte := BitVec 8
abbrev Word16 := BitVec 16
abbrev Word32 := BitVec 32
abbrev Word64 := BitVec 64
/-- One 16-byte instruction, read as one little-endian value (R115, 06_instruction_reference.md). -/
abbrev Word128 := BitVec 128

/-- Bits [lo + w - 1 : lo] of a number. -/
def bitsOf (v lo w : Nat) : Nat := v / 2 ^ lo % 2 ^ w

/-- The number `v` with bits [lo + w - 1 : lo] replaced by the low `w` bits of `x`. -/
def setBits (v lo w x : Nat) : Nat :=
  v % 2 ^ lo + (x % 2 ^ w) * 2 ^ lo + v / 2 ^ (lo + w) * 2 ^ (lo + w)

/-- A saturating addition with ceiling `cap`. -/
def satAdd (cap a b : Nat) : Nat := Nat.min cap (a + b)

end Sys2Proof
end

