-- ==== Sys2Proof/Config.lean ====
section
/-!
DEFINITION. What the spec leaves to each package, and the values it leaves open: constants without a body, so that no
proof can see a value of them (log entry 3).
-/
namespace Sys2Proof.Config

/-- The next value of a source the spec leaves open: a nonce (R428), a session value (R193). Applied to the count of
values drawn so far. -/
opaque freeWord : Nat → Word64

/-- The fused package serial (R22, Table DEV-6). -/
opaque serial : Word64

/-- V_RATED of a compute die in mV, fused (Table PWR-7). -/
opaque vRated : Nat → Nat

/-- Fused management key slots, bit k for slot k (Table LNK-10). -/
opaque fusedKeys : Nat

/-- The key bytes of a fused management key slot (R192). -/
opaque mgtKey : Nat → List Byte

/-- MAC address and IPv6 interface identifier of the management port (R191). -/
opaque mgtMac : Nat
opaque mgtIid : Nat

/-- The public key of a fused churn-pack verification slot (R237). -/
opaque packKey : Nat → Nat × Nat

/-- Fused churn-pack verification keys, bit k for KEY_ID k (R237). -/
opaque packKeys : Nat

/-- The factory repairs held in fuses, each as its structure code, instance, bank and whether it uses a row (R314). -/
opaque fuseRepairs : List (Nat × Nat × Nat × Bool)

/-- Spare rows of a bank of a structure other than the scratchpad, by structure code: fixed in the boot image (R313). -/
opaque spareRows : Nat → Nat

/-- Post-package repair resources of a bank of a pseudo-channel: channel, then bank (R314). -/
opaque pprRows : Nat → Nat → Nat

/-- The hash of a connection key that picks one of `n` eligible ports (R177): key, then n. -/
opaque portHash : Nat → Nat → Nat

/-- Fabric frames carry an 802.1Q tag (R178); the spec names no register that enables it. -/
opaque fabricVlan : Bool

/-- PSN and TAG of an ACK or NACK, and TAG of a CONN frame, which the spec gives no value (Table LNK-5): 0 for the PSN, 1 for the TAG,
then the connection number. -/
opaque unsetField : Nat → Nat → Nat

/-- FW_VERSION of WSF records (Table QTN-6), by how many control-core firmware images have been applied since the factory. -/
opaque fwVersion : Nat → Word64

/-- Bytes of the engine register image that Etanavar's tools decode (R281): die, then offset. -/
opaque engineImage : Nat → Nat → Byte

/-- The PTP servo's filter, which the spec names and does not give (R34): the filtered offset before, and the new offset, ns. -/
opaque ptpFilter : Int → Int → Int

/-- Certificate bytes of slot 0, and measurement values by index (R167). -/
opaque certificate : Nat → Nat
opaque measurement : Nat → Nat

/-- Payload of a management EVENT whose layout the spec does not give, by the model's code of its cause: 1 a dropped
posted write (R171), 2 a failed connection (R183), 3 an uncorrectable error (R160, R161), 4 a beat event (R42), 5 a
PMBus error (R301), 6 the power limiter's floor (R304), 7 a later failure of the wake (R293), 8 a thermal
change (R337). -/
opaque eventPayload : Nat → List Byte

/-- What a vendor-only location holds on unlocked debug, after the accesses made there so far (R8), and whether reading it has
effects (R431). -/
opaque vendorWord : List (Nat × Option Word32) → Nat → Word32
opaque vendorEffect : Nat → Bool

/-- The package's fused debug key (R428). -/
opaque debugKey : List Byte

/-- What a byte holds after the contents of its region have become undefined: how often they have, and the physical byte
(R155, R226, R233, R273). -/
opaque undefByte : Nat → Nat → Byte

/-- What a byte of a faulted job holds, and how far the signals in flight at a fault raised a sync object: the count of values drawn
so far, and the physical byte or the object (R251). -/
opaque lostByte : Nat → Nat → Byte
opaque lostSync : Nat → Nat → Word64

/-- What a code makes of more errors than it is built to detect (Table MEM-4): 0 nothing seen, 1 corrected, else
uncorrectable. -/
opaque codeBeyond : Nat → Nat

/-- How far the local tick of MATCH-mode trace stamps (R421) has moved on, and the cycle counts and the NoC traffic that counters report (Table
TRC-3), by the count of values drawn so far. -/
opaque cycles : Nat → Nat

end Sys2Proof.Config
end

