-- ==== Sys2Proof/Machine/RegTable.lean ====
section
/-!
DEFINITION. The registers of control space, from the register tables of spec/ (each block names its table): addresses,
fields, access codes (Table SCP-2), reset values, the paths that may read and write, and the reset that restores them.
-/
namespace Sys2Proof.Machine

/-- Table SCP-2. -/
inductive Acc where
  | ro
  | rw
  | rw1c
  | wo
  | rwl
  deriving DecidableEq, Repr

/-- Which paths may read a register (R21, R154, R166, R172, R195, R214, R243, R262, R287, R307, R349, R390, R413,
R435). -/
inductive RdCls where
  | all
  | partition
  | pf0md
  | pf0mmd
  | queue
  | stack
  | port
  | fn
  | session
  | die
  | cluster
  | anyPfMd
  deriving DecidableEq, Repr

/-- Which paths may write a register. -/
inductive WrCls where
  | none
  | md
  | mmd
  | pf0md
  | resetControl
  | partition
  | queue
  | fn
  | session
  | die
  | cluster
  | anyPfMd
  | debugBlock
  | claExt
  | claRegion
  deriving DecidableEq, Repr

/-- The least reset that gives a register its reset value: loss of AON, a device reset, a reset of its partition. -/
inductive RstCls where
  | aon
  | dev
  | part
  deriving DecidableEq, Repr

structure FldDesc where
  lo : Nat
  width : Nat
  acc : Acc
  reset : Nat
  deriving DecidableEq, Repr

/-- A register, or an array of them: the address of the first, (count, stride) of each index. -/
structure RegDesc where
  base : Nat
  dims : List (Nat × Nat)
  rd : RdCls
  wr : WrCls
  rst : RstCls
  flds : List FldDesc
  deriving DecidableEq, Repr

/-- A field of a register: the register's control-space address, its low bit, its width. -/
structure Fld where
  addr : Nat
  lo : Nat
  width : Nat
  deriving DecidableEq, Repr

namespace Reg

-- SYS (R21-R24 01_the_device.md)
def sysId : Nat := 0x0
def sysIdVendor : Fld := ⟨sysId, 16, 16⟩
def sysIdProduct : Fld := ⟨sysId, 4, 12⟩
def sysStep : Nat := 0x4
def sysStepMajor : Fld := ⟨sysStep, 4, 4⟩
def sysStepMinor : Fld := ⟨sysStep, 0, 4⟩
def sysSku : Nat := 0x8
def sysSkuMatrixClk : Fld := ⟨sysSku, 20, 8⟩
def sysSkuHbmGib : Fld := ⟨sysSku, 12, 8⟩
def sysSkuSpares : Fld := ⟨sysSku, 8, 4⟩
def sysSkuClusters : Fld := ⟨sysSku, 0, 8⟩
def sysSerialLo : Nat := 0xC
def sysSerialLoSerial : Fld := ⟨sysSerialLo, 0, 32⟩
def sysSerialHi : Nat := 0x10
def sysSerialHiSerial : Fld := ⟨sysSerialHi, 0, 32⟩
def sysStrap : Nat := 0x14
def sysStrapPartModeBad : Fld := ⟨sysStrap, 31, 1⟩
def sysStrapClaSrc : Fld := ⟨sysStrap, 4, 2⟩
def sysStrapBistDeep : Fld := ⟨sysStrap, 3, 1⟩
def sysStrapWakeHold : Fld := ⟨sysStrap, 2, 1⟩
def sysStrapPartMode : Fld := ⟨sysStrap, 0, 2⟩
def sysPartCfg : Nat := 0x18
def sysPartCfgNextValid : Fld := ⟨sysPartCfg, 8, 1⟩
def sysPartCfgNext : Fld := ⟨sysPartCfg, 4, 2⟩
def sysPartCfgActive : Fld := ⟨sysPartCfg, 0, 2⟩
def sysStatus : Nat := 0x1C
def sysStatusPartsReduced : Fld := ⟨sysStatus, 8, 4⟩
def sysStatusPartsPresent : Fld := ⟨sysStatus, 4, 4⟩
def sysStatusBistDone : Fld := ⟨sysStatus, 3, 1⟩
def sysStatusFault : Fld := ⟨sysStatus, 2, 1⟩
def sysStatusSafe : Fld := ⟨sysStatus, 1, 1⟩
def sysStatusReady : Fld := ⟨sysStatus, 0, 1⟩
def sysCapDie : Nat := 0x20
def sysCapDieCd3 : Fld := ⟨sysCapDie, 24, 8⟩
def sysCapDieCd2 : Fld := ⟨sysCapDie, 16, 8⟩
def sysCapDieCd1 : Fld := ⟨sysCapDie, 8, 8⟩
def sysCapDieCd0 : Fld := ⟨sysCapDie, 0, 8⟩
-- PWR (R307 Table PWR-7 13_power_domains_and_wake.md)
def pwrCfg : Nat := 0x10000
def pwrCfgFaultOnFailed : Fld := ⟨pwrCfg, 1, 1⟩
def pwrCfgRstKeepHbm : Fld := ⟨pwrCfg, 0, 1⟩
def pwrDomStatus : Nat := 0x10004
def pwrDomStatusFailed : Fld := ⟨pwrDomStatus, 16, 12⟩
def pwrDomStatusOn : Fld := ⟨pwrDomStatus, 0, 12⟩
def pwrEvent : Nat := 0x10008
def pwrEventPmbErr : Fld := ⟨pwrEvent, 5, 1⟩
def pwrEventLimitFloor : Fld := ⟨pwrEvent, 4, 1⟩
def pwrEventSwitchRefused : Fld := ⟨pwrEvent, 3, 1⟩
def pwrEventWakeFail : Fld := ⟨pwrEvent, 2, 1⟩
def pwrEventPgoodLost : Fld := ⟨pwrEvent, 1, 1⟩
def pwrEventPwrFail : Fld := ⟨pwrEvent, 0, 1⟩
def pwrDomCtl : Nat := 0x1000C
def pwrDomCtlOff : Fld := ⟨pwrDomCtl, 16, 12⟩
def pwrDomCtlOn : Fld := ⟨pwrDomCtl, 0, 12⟩
def pwrWakeStatus : Nat := 0x10010
def pwrWakeStatusHeld : Fld := ⟨pwrWakeStatus, 8, 1⟩
def pwrWakeStatusDone : Fld := ⟨pwrWakeStatus, 4, 1⟩
def pwrWakeStatusStep : Fld := ⟨pwrWakeStatus, 0, 4⟩
def pwrWakeResult : Nat := 0x10014
def pwrWakeResultValid : Fld := ⟨pwrWakeResult, 31, 1⟩
def pwrWakeResultStep : Fld := ⟨pwrWakeResult, 12, 4⟩
def pwrWakeResultDomain : Fld := ⟨pwrWakeResult, 8, 4⟩
def pwrWakeResultReason : Fld := ⟨pwrWakeResult, 4, 4⟩
def pwrWakeResultAttempts : Fld := ⟨pwrWakeResult, 0, 2⟩
def pwrWakeCtl : Nat := 0x10018
def pwrWakeCtlGo : Fld := ⟨pwrWakeCtl, 0, 1⟩
def pwrLimitSust : Nat := 0x10020
def pwrLimitSustWatts : Fld := ⟨pwrLimitSust, 0, 16⟩
def pwrLimitPeak : Nat := 0x10024
def pwrLimitPeakBeats : Fld := ⟨pwrLimitPeak, 16, 16⟩
def pwrLimitPeakWatts : Fld := ⟨pwrLimitPeak, 0, 16⟩
def pwrEst : Nat := 0x10028
def pwrEstMax : Fld := ⟨pwrEst, 16, 16⟩
def pwrEstNow : Fld := ⟨pwrEst, 0, 16⟩
def pwrLimitStatus : Nat := 0x1002C
def pwrLimitStatusLimiting : Fld := ⟨pwrLimitStatus, 8, 1⟩
def pwrLimitStatusPercent : Fld := ⟨pwrLimitStatus, 0, 7⟩
def pwrVset (i : Nat) : Nat := 0x10040 + i * 0x4
def pwrVsetVRated (i : Nat) : Fld := ⟨pwrVset i, 16, 10⟩
def pwrVsetMv (i : Nat) : Fld := ⟨pwrVset i, 0, 10⟩
def pwrPmbCfg : Nat := 0x10080
def pwrPmbCfgPoll : Fld := ⟨pwrPmbCfg, 16, 16⟩
def pwrPmbCfgSpeed : Fld := ⟨pwrPmbCfg, 0, 2⟩
def pwrPmbMap (i : Nat) : Nat := 0x10100 + i * 0x8
def pwrPmbMapValid (i : Nat) : Fld := ⟨pwrPmbMap i, 31, 1⟩
def pwrPmbMapSetpoint (i : Nat) : Fld := ⟨pwrPmbMap i, 30, 1⟩
def pwrPmbMapRail (i : Nat) : Fld := ⟨pwrPmbMap i, 20, 4⟩
def pwrPmbMapDomain (i : Nat) : Fld := ⟨pwrPmbMap i, 16, 4⟩
def pwrPmbMapPage (i : Nat) : Fld := ⟨pwrPmbMap i, 8, 8⟩
def pwrPmbMapAddr (i : Nat) : Fld := ⟨pwrPmbMap i, 0, 7⟩
def pwrPmbTlm (i : Nat) : Nat := 0x10104 + i * 0x8
def pwrPmbTlmIout (i : Nat) : Fld := ⟨pwrPmbTlm i, 16, 16⟩
def pwrPmbTlmVout (i : Nat) : Fld := ⟨pwrPmbTlm i, 0, 16⟩
-- CLK (R307 Table PWR-8 13_power_domains_and_wake.md)
def clkStatus : Nat := 0x20000
def clkStatusPll : Fld := ⟨clkStatus, 16, 12⟩
def clkStatusAonPll : Fld := ⟨clkStatus, 1, 1⟩
def clkStatusOscOk : Fld := ⟨clkStatus, 0, 1⟩
def clkMatrixLimit : Nat := 0x20004
def clkMatrixLimitMhz : Fld := ⟨clkMatrixLimit, 0, 12⟩
def clkDie (i : Nat) : Nat := 0x20010 + i * 0x4
def clkDieSrc (i : Nat) : Fld := ⟨clkDie i, 12, 4⟩
def clkDieMhz (i : Nat) : Fld := ⟨clkDie i, 0, 12⟩
-- BEAT (R46 Table BEAT-4 02_the_beat.md)
def beatCtl : Nat := 0x28000
def beatCtlRenum : Fld := ⟨beatCtl, 9, 1⟩
def beatCtlOutFree : Fld := ⟨beatCtl, 8, 1⟩
def beatCtlOutEn : Fld := ⟨beatCtl, 7, 1⟩
def beatCtlNumSrc : Fld := ⟨beatCtl, 4, 2⟩
def beatCtlSrc : Fld := ⟨beatCtl, 1, 1⟩
def beatStatus : Nat := 0x28004
def beatStatusHoldCount : Fld := ⟨beatStatus, 16, 14⟩
def beatStatusNumValid : Fld := ⟨beatStatus, 7, 1⟩
def beatStatusPtpLock : Fld := ⟨beatStatus, 6, 1⟩
def beatStatusSlewing : Fld := ⟨beatStatus, 5, 1⟩
def beatStatusState : Fld := ⟨beatStatus, 0, 2⟩
def beatEvent : Nat := 0x28008
def beatEventAmbig : Fld := ⟨beatEvent, 7, 1⟩
def beatEventSlip : Fld := ⟨beatEvent, 6, 1⟩
def beatEventGlitch : Fld := ⟨beatEvent, 5, 1⟩
def beatEventJump : Fld := ⟨beatEvent, 4, 1⟩
def beatEventReturn : Fld := ⟨beatEvent, 3, 1⟩
def beatEventLost : Fld := ⟨beatEvent, 2, 1⟩
def beatEventLoss : Fld := ⟨beatEvent, 1, 1⟩
def beatEventAcquired : Fld := ⟨beatEvent, 0, 1⟩
def beatComp : Nat := 0x2800C
def beatCompDelay : Fld := ⟨beatComp, 0, 15⟩
def beatNumLo : Nat := 0x28010
def beatNumLoNumLo : Fld := ⟨beatNumLo, 0, 32⟩
def beatNumHi : Nat := 0x28014
def beatNumHiNumHi : Fld := ⟨beatNumHi, 0, 32⟩
def beatPhase : Nat := 0x28018
def beatPhasePhase : Fld := ⟨beatPhase, 0, 16⟩
def beatPeriod : Nat := 0x2801C
def beatPeriodPeriod : Fld := ⟨beatPeriod, 0, 24⟩
def beatEpochLo : Nat := 0x28020
def beatEpochLoEpochLo : Fld := ⟨beatEpochLo, 0, 32⟩
def beatEpochHi : Nat := 0x28024
def beatEpochHiEpochHi : Fld := ⟨beatEpochHi, 0, 16⟩
def beatPtp : Nat := 0x28028
def beatPtpIp6 : Fld := ⟨beatPtp, 16, 1⟩
def beatPtpDomain : Fld := ⟨beatPtp, 0, 8⟩
def beatEdgeOfs : Nat := 0x2802C
def beatEdgeOfsOfs : Fld := ⟨beatEdgeOfs, 0, 32⟩
def beatSlipDiff : Nat := 0x28030
def beatSlipDiffDiff : Fld := ⟨beatSlipDiff, 0, 32⟩
def beatHoldMax : Nat := 0x28034
def beatHoldMaxMax : Fld := ⟨beatHoldMax, 0, 14⟩
def beatJumpLo : Nat := 0x28038
def beatJumpLoJumpLo : Fld := ⟨beatJumpLo, 0, 32⟩
def beatJumpHi : Nat := 0x2803C
def beatJumpHiJumpHi : Fld := ⟨beatJumpHi, 0, 32⟩
-- THM (R338 Table THM-5 15_thermal_management.md)
def thmCtl : Nat := 0x30000
def thmCtlResume : Fld := ⟨thmCtl, 0, 1⟩
def thmStatus : Nat := 0x30004
def thmStatusTripSensor : Fld := ⟨thmStatus, 24, 8⟩
def thmStatusShutdowns : Fld := ⟨thmStatus, 16, 8⟩
def thmStatusTripped : Fld := ⟨thmStatus, 5, 1⟩
def thmStatusFast : Fld := ⟨thmStatus, 4, 1⟩
def thmStatusThrottling : Fld := ⟨thmStatus, 2, 1⟩
def thmStatusState : Fld := ⟨thmStatus, 0, 2⟩
def thmEvent : Nat := 0x30008
def thmEventCfgRefused : Fld := ⟨thmEvent, 9, 1⟩
def thmEventResumeRefused : Fld := ⟨thmEvent, 8, 1⟩
def thmEventTc1Late : Fld := ⟨thmEvent, 7, 1⟩
def thmEventSensorFail : Fld := ⟨thmEvent, 6, 1⟩
def thmEventImmediate : Fld := ⟨thmEvent, 5, 1⟩
def thmEventTrip : Fld := ⟨thmEvent, 4, 1⟩
def thmEventShutdown : Fld := ⟨thmEvent, 3, 1⟩
def thmEventThrottle : Fld := ⟨thmEvent, 2, 1⟩
def thmEventWarn : Fld := ⟨thmEvent, 1, 1⟩
def thmEventFastRise : Fld := ⟨thmEvent, 0, 1⟩
def thmLimitWarn : Nat := 0x30010
def thmLimitWarnHbm : Fld := ⟨thmLimitWarn, 8, 8⟩
def thmLimitWarnDie : Fld := ⟨thmLimitWarn, 0, 8⟩
def thmLimitThrottle : Nat := 0x30014
def thmLimitThrottleHbm : Fld := ⟨thmLimitThrottle, 8, 8⟩
def thmLimitThrottleDie : Fld := ⟨thmLimitThrottle, 0, 8⟩
def thmLimitShutdown : Nat := 0x30018
def thmLimitShutdownHbm : Fld := ⟨thmLimitShutdown, 8, 8⟩
def thmLimitShutdownDie : Fld := ⟨thmLimitShutdown, 0, 8⟩
def thmHyst : Nat := 0x3001C
def thmHystHbm : Fld := ⟨thmHyst, 4, 4⟩
def thmHystDie : Fld := ⟨thmHyst, 0, 4⟩
def thmGain : Nat := 0x30020
def thmGainG : Fld := ⟨thmGain, 0, 7⟩
def thmStopBudget : Nat := 0x30024
def thmStopBudgetBeats : Fld := ⟨thmStopBudget, 0, 16⟩
def thmDevMax : Nat := 0x30030
def thmDevMaxSensor : Fld := ⟨thmDevMax, 16, 8⟩
def thmDevMaxTemp : Fld := ⟨thmDevMax, 0, 16⟩
def thmDomMax (i : Nat) : Nat := 0x30040 + i * 0x4
def thmDomMaxPeak (i : Nat) : Fld := ⟨thmDomMax i, 16, 16⟩
def thmDomMaxNow (i : Nat) : Fld := ⟨thmDomMax i, 0, 16⟩
def thmLevel : Nat := 0x30074
def thmLevelLevel : Fld := ⟨thmLevel, 0, 26⟩
def thmClkPct : Nat := 0x30078
def thmClkPctCd3 : Fld := ⟨thmClkPct, 24, 8⟩
def thmClkPctCd2 : Fld := ⟨thmClkPct, 16, 8⟩
def thmClkPctCd1 : Fld := ⟨thmClkPct, 8, 8⟩
def thmClkPctCd0 : Fld := ⟨thmClkPct, 0, 8⟩
def thmTc1Late : Nat := 0x3007C
def thmTc1LateCount : Fld := ⟨thmTc1Late, 0, 32⟩
def thmSensor (i : Nat) : Nat := 0x30100 + i * 0x4
def thmSensorFail (i : Nat) : Fld := ⟨thmSensor i, 31, 1⟩
def thmSensorTemp (i : Nat) : Fld := ⟨thmSensor i, 0, 16⟩
-- EVR (R349 Table EVR-4 16_event_recorder_and_status_panel.md)
def evrStatus : Nat := 0x40000
def evrStatusTripMark : Fld := ⟨evrStatus, 2, 1⟩
def evrStatusPrevUnclean : Fld := ⟨evrStatus, 1, 1⟩
def evrStatusWriting : Fld := ⟨evrStatus, 0, 1⟩
def evrSeq : Nat := 0x40004
def evrSeqSeq : Fld := ⟨evrSeq, 0, 32⟩
def evrOldest : Nat := 0x40008
def evrOldestSeq : Fld := ⟨evrOldest, 0, 32⟩
def evrEvent : Nat := 0x4000C
def evrEventSlotBad : Fld := ⟨evrEvent, 2, 1⟩
def evrEventDropped : Fld := ⟨evrEvent, 1, 1⟩
def evrEventWritten : Fld := ⟨evrEvent, 0, 1⟩
def evrCtl : Nat := 0x40010
def evrCtlFlush : Fld := ⟨evrCtl, 0, 1⟩
def evrWinBase : Nat := 0x40014
def evrWinBaseBase : Fld := ⟨evrWinBase, 12, 8⟩
-- PNL (R357 Table EVR-8 16_event_recorder_and_status_panel.md)
def pnlCfg : Nat := 0x48000
def pnlCfgMinGap : Fld := ⟨pnlCfg, 16, 16⟩
def pnlCfgSclkDiv : Fld := ⟨pnlCfg, 8, 8⟩
def pnlCfgFull : Fld := ⟨pnlCfg, 1, 1⟩
def pnlCfgEn : Fld := ⟨pnlCfg, 0, 1⟩
def pnlStatus : Nat := 0x48004
def pnlStatusFailed : Fld := ⟨pnlStatus, 6, 1⟩
def pnlStatusNoScript : Fld := ⟨pnlStatus, 5, 1⟩
def pnlStatusOpen : Fld := ⟨pnlStatus, 4, 1⟩
def pnlStatusStep : Fld := ⟨pnlStatus, 0, 3⟩
def pnlSeq : Nat := 0x48008
def pnlSeqSeq : Fld := ⟨pnlSeq, 0, 32⟩
def pnlEvent : Nat := 0x4800C
def pnlEventBadOp : Fld := ⟨pnlEvent, 3, 1⟩
def pnlEventAborted : Fld := ⟨pnlEvent, 2, 1⟩
def pnlEventTimeout : Fld := ⟨pnlEvent, 1, 1⟩
def pnlEventDone : Fld := ⟨pnlEvent, 0, 1⟩
def pnlCtl : Nat := 0x48010
def pnlCtlClearFailed : Fld := ⟨pnlCtl, 1, 1⟩
def pnlCtlUpdate : Fld := ⟨pnlCtl, 0, 1⟩
-- BIST (R323 Table BIST-6 14_power_up_self_test_and_repair.md)
def bistStatus : Nat := 0x50000
def bistStatusListFull : Fld := ⟨bistStatus, 31, 1⟩
def bistStatusDeep : Fld := ⟨bistStatus, 30, 1⟩
def bistStatusResult : Fld := ⟨bistStatus, 24, 4⟩
def bistStatusState : Fld := ⟨bistStatus, 16, 2⟩
def bistStatusDone : Fld := ⟨bistStatus, 8, 8⟩
def bistStatusRun : Fld := ⟨bistStatus, 0, 8⟩
def bistGroups : Nat := 0x50004
def bistGroupsSkip : Fld := ⟨bistGroups, 16, 8⟩
def bistGroupsUnrep : Fld := ⟨bistGroups, 8, 8⟩
def bistGroupsFound : Fld := ⟨bistGroups, 0, 8⟩
def bistTime : Nat := 0x50008
def bistTimeMs : Fld := ⟨bistTime, 0, 16⟩
def bistPwrMax : Nat := 0x5000C
def bistPwrMaxWatts : Fld := ⟨bistPwrMax, 0, 16⟩
def bistRepairs : Nat := 0x50010
def bistRepairsNew : Fld := ⟨bistRepairs, 16, 16⟩
def bistRepairsLoaded : Fld := ⟨bistRepairs, 0, 16⟩
def bistLogCount : Nat := 0x50014
def bistLogCountCount : Fld := ⟨bistLogCount, 0, 16⟩
def bistListUsed : Nat := 0x50018
def bistListUsedCount : Fld := ⟨bistListUsed, 0, 13⟩
def bistEvent : Nat := 0x5001C
def bistEventUnrep : Fld := ⟨bistEvent, 1, 1⟩
def bistEventAborted : Fld := ⟨bistEvent, 0, 1⟩
-- HNG (R287 Table HNG-9 12_hangs_fencing_and_recovery.md)
def hngCfg : Nat := 0x60000
def hngCfgAuto : Fld := ⟨hngCfg, 12, 1⟩
def hngCfgCc2Policy : Fld := ⟨hngCfg, 8, 2⟩
def hngCfgDbgExempt : Fld := ⟨hngCfg, 4, 1⟩
def hngCfgEngEsc : Fld := ⟨hngCfg, 0, 1⟩
def hngStatus : Nat := 0x60004
def hngStatusAutoCount : Fld := ⟨hngStatus, 14, 2⟩
def hngStatusAlive : Fld := ⟨hngStatus, 8, 4⟩
def hngStatusDbgHalt : Fld := ⟨hngStatus, 5, 1⟩
def hngStatusActiveRmg : Fld := ⟨hngStatus, 4, 1⟩
def hngStatusTakeover : Fld := ⟨hngStatus, 3, 1⟩
def hngStatusRecovering : Fld := ⟨hngStatus, 2, 1⟩
def hngEvent : Nat := 0x60008
def hngEventEvqFull : Fld := ⟨hngEvent, 11, 1⟩
def hngEventCapDamaged : Fld := ⟨hngEvent, 10, 1⟩
def hngEventCapLost : Fld := ⟨hngEvent, 9, 1⟩
def hngEventFenceOverrun : Fld := ⟨hngEvent, 8, 1⟩
def hngEventEscalated : Fld := ⟨hngEvent, 7, 1⟩
def hngEventEngStall : Fld := ⟨hngEvent, 6, 1⟩
def hngEventAutoRecovery : Fld := ⟨hngEvent, 5, 1⟩
def hngEventTakeoverDone : Fld := ⟨hngEvent, 4, 1⟩
def hngEventHbMiss : Fld := ⟨hngEvent, 0, 4⟩
def hngHb (i : Nat) : Nat := 0x60010 + i * 0x4
def hngHbCount (i : Nat) : Fld := ⟨hngHb i, 0, 32⟩
def hngHbDeadline : Nat := 0x60020
def hngHbDeadlineBeats : Fld := ⟨hngHbDeadline, 0, 16⟩
def hngEngDeadline : Nat := 0x60024
def hngEngDeadlineRepeat : Fld := ⟨hngEngDeadline, 16, 16⟩
def hngEngDeadlineBeats : Fld := ⟨hngEngDeadline, 0, 16⟩
def hngFenceBudget : Nat := 0x60028
def hngFenceBudgetPhase : Fld := ⟨hngFenceBudget, 0, 32⟩
def hngRmgGen : Nat := 0x60030
def hngRmgGenGen : Fld := ⟨hngRmgGen, 0, 32⟩
def hngRmgEvq : Nat := 0x60034
def hngRmgEvqPending : Fld := ⟨hngRmgEvq, 0, 13⟩
def hngRmgAck : Nat := 0x60038
def hngRmgAckGen : Fld := ⟨hngRmgAck, 0, 32⟩
def rstCtl : Nat := 0x61000
def rstCtlGo : Fld := ⟨rstCtl, 31, 1⟩
def rstCtlDomain : Fld := ⟨rstCtl, 16, 2⟩
def rstCtlPart : Fld := ⟨rstCtl, 12, 2⟩
def rstCtlEngine : Fld := ⟨rstCtl, 8, 3⟩
def rstCtlRegion : Fld := ⟨rstCtl, 0, 3⟩
def rstStatus : Nat := 0x61004
def rstStatusBusy : Fld := ⟨rstStatus, 31, 1⟩
def rstStatusPhase : Fld := ⟨rstStatus, 16, 4⟩
def rstStatusPart : Fld := ⟨rstStatus, 12, 2⟩
def rstStatusDomain : Fld := ⟨rstStatus, 8, 2⟩
def rstLast : Nat := 0x61008
def rstLastCause : Fld := ⟨rstLast, 24, 8⟩
def rstLastDomain : Fld := ⟨rstLast, 16, 2⟩
def rstLastPart : Fld := ⟨rstLast, 12, 2⟩
def rstLastEngine : Fld := ⟨rstLast, 8, 3⟩
def rstAbsorbed : Nat := 0x6100C
def rstAbsorbedCount : Fld := ⟨rstAbsorbed, 0, 32⟩
def rstPartCount (i : Nat) : Nat := 0x61010 + i * 0x4
def rstPartCountCount (i : Nat) : Fld := ⟨rstPartCount i, 0, 16⟩
def hngFenceStat (i : Nat) : Nat := 0x61020 + i * 0x4
def hngFenceStatLate (i : Nat) : Fld := ⟨hngFenceStat i, 16, 16⟩
def hngFenceStatLeft (i : Nat) : Fld := ⟨hngFenceStat i, 0, 16⟩
def hngCapCfg (i : Nat) : Nat := 0x62000 + i * 0x10
def hngCapCfgStateEn (i : Nat) : Fld := ⟨hngCapCfg i, 31, 1⟩
def hngCapCfgSampleEn (i : Nat) : Fld := ⟨hngCapCfg i, 30, 1⟩
def hngCapCfgWindowKib (i : Nat) : Fld := ⟨hngCapCfg i, 16, 7⟩
def hngCapWin (i : Nat) : Nat := 0x62004 + i * 0x10
def hngCapWinOfs (i : Nat) : Fld := ⟨hngCapWin i, 6, 13⟩
def hngCapStatus (i : Nat) : Nat := 0x62008 + i * 0x10
def hngCapStatusCopied (i : Nat) : Fld := ⟨hngCapStatus i, 8, 8⟩
def hngCapStatusDamaged (i : Nat) : Fld := ⟨hngCapStatus i, 2, 1⟩
def hngCapStatusLost (i : Nat) : Fld := ⟨hngCapStatus i, 1, 1⟩
def hngCapStatusBuf (i : Nat) : Fld := ⟨hngCapStatus i, 0, 1⟩
def hngCapSeq (i : Nat) : Nat := 0x6200C + i * 0x10
def hngCapSeqSeq (i : Nat) : Fld := ⟨hngCapSeq i, 0, 32⟩
-- JOB (R262 Table JOB-6 11_job_faults_checkpoint_restart.md)
def jobId (i : Nat) (j : Nat) : Nat := 0x68000 + i * 0x1000 + j * 0x100
def jobIdValid (i : Nat) (j : Nat) : Fld := ⟨jobId i j, 31, 1⟩
def jobIdJob (i : Nat) (j : Nat) : Fld := ⟨jobId i j, 0, 16⟩
def jobState (i : Nat) (j : Nat) : Nat := 0x68004 + i * 0x1000 + j * 0x100
def jobStateFaultCount (i : Nat) (j : Nat) : Fld := ⟨jobState i j, 8, 8⟩
def jobStateCkLock (i : Nat) (j : Nat) : Fld := ⟨jobState i j, 7, 1⟩
def jobStateCleanSet (i : Nat) (j : Nat) : Fld := ⟨jobState i j, 6, 1⟩
def jobStateNewestValid (i : Nat) (j : Nat) : Fld := ⟨jobState i j, 5, 1⟩
def jobStateNewestB (i : Nat) (j : Nat) : Fld := ⟨jobState i j, 4, 1⟩
def jobStateQuiet (i : Nat) (j : Nat) : Fld := ⟨jobState i j, 3, 1⟩
def jobStateState (i : Nat) (j : Nat) : Fld := ⟨jobState i j, 0, 2⟩
def jobFaultInfo (i : Nat) (j : Nat) : Nat := 0x68008 + i * 0x1000 + j * 0x100
def jobFaultInfoOrigin (i : Nat) (j : Nat) : Fld := ⟨jobFaultInfo i j, 8, 19⟩
def jobFaultInfoCause (i : Nat) (j : Nat) : Fld := ⟨jobFaultInfo i j, 0, 8⟩
def jobFaultSeq (i : Nat) (j : Nat) : Nat := 0x6800C + i * 0x1000 + j * 0x100
def jobFaultSeqSeq (i : Nat) (j : Nat) : Fld := ⟨jobFaultSeq i j, 0, 32⟩
def jobFaultBeatLo (i : Nat) (j : Nat) : Nat := 0x68010 + i * 0x1000 + j * 0x100
def jobFaultBeatLoNum (i : Nat) (j : Nat) : Fld := ⟨jobFaultBeatLo i j, 0, 32⟩
def jobFaultBeatHi (i : Nat) (j : Nat) : Nat := 0x68014 + i * 0x1000 + j * 0x100
def jobFaultBeatHiNum (i : Nat) (j : Nat) : Fld := ⟨jobFaultBeatHi i j, 0, 32⟩
def jobFaultPhase (i : Nat) (j : Nat) : Nat := 0x68018 + i * 0x1000 + j * 0x100
def jobFaultPhasePhase (i : Nat) (j : Nat) : Fld := ⟨jobFaultPhase i j, 0, 16⟩
def jobFaultUnit (i : Nat) (j : Nat) : Nat := 0x6801C + i * 0x1000 + j * 0x100
def jobFaultUnitUnit (i : Nat) (j : Nat) : Fld := ⟨jobFaultUnit i j, 0, 32⟩
def jobCleanLimitLo (i : Nat) (j : Nat) : Nat := 0x68020 + i * 0x1000 + j * 0x100
def jobCleanLimitLoStep (i : Nat) (j : Nat) : Fld := ⟨jobCleanLimitLo i j, 0, 32⟩
def jobCleanLimitHi (i : Nat) (j : Nat) : Nat := 0x68024 + i * 0x1000 + j * 0x100
def jobCleanLimitHiStep (i : Nat) (j : Nat) : Fld := ⟨jobCleanLimitHi i j, 0, 32⟩
def jobCkBaseLo (i : Nat) (j : Nat) : Nat := 0x68030 + i * 0x1000 + j * 0x100
def jobCkBaseLoBase (i : Nat) (j : Nat) : Fld := ⟨jobCkBaseLo i j, 12, 20⟩
def jobCkBaseHi (i : Nat) (j : Nat) : Nat := 0x68034 + i * 0x1000 + j * 0x100
def jobCkBaseHiBase (i : Nat) (j : Nat) : Fld := ⟨jobCkBaseHi i j, 0, 32⟩
def jobCkSize (i : Nat) (j : Nat) : Nat := 0x68038 + i * 0x1000 + j * 0x100
def jobCkSizeMib (i : Nat) (j : Nat) : Fld := ⟨jobCkSize i j, 0, 16⟩
def jobMembersLo (i : Nat) (j : Nat) : Nat := 0x68040 + i * 0x1000 + j * 0x100
def jobMembersLoAddr (i : Nat) (j : Nat) : Fld := ⟨jobMembersLo i j, 2, 30⟩
def jobMembersHi (i : Nat) (j : Nat) : Nat := 0x68044 + i * 0x1000 + j * 0x100
def jobMembersHiAddr (i : Nat) (j : Nat) : Fld := ⟨jobMembersHi i j, 0, 32⟩
def jobSealCfg (i : Nat) (j : Nat) : Nat := 0x68048 + i * 0x1000 + j * 0x100
def jobSealCfgTimeout (i : Nat) (j : Nat) : Fld := ⟨jobSealCfg i j, 0, 16⟩
def jobSealEvent (i : Nat) (j : Nat) : Nat := 0x6804C + i * 0x1000 + j * 0x100
def jobSealEventTimeout (i : Nat) (j : Nat) : Fld := ⟨jobSealEvent i j, 2, 1⟩
def jobSealEventFailed (i : Nat) (j : Nat) : Fld := ⟨jobSealEvent i j, 1, 1⟩
def jobSealEventSealed (i : Nat) (j : Nat) : Fld := ⟨jobSealEvent i j, 0, 1⟩
def jobSlotA (i : Nat) (j : Nat) : Nat := 0x68050 + i * 0x1000 + j * 0x100
def jobSlotAState (i : Nat) (j : Nat) : Fld := ⟨jobSlotA i j, 0, 3⟩
def jobSlotAStepLo (i : Nat) (j : Nat) : Nat := 0x68054 + i * 0x1000 + j * 0x100
def jobSlotAStepLoStep (i : Nat) (j : Nat) : Fld := ⟨jobSlotAStepLo i j, 0, 32⟩
def jobSlotAStepHi (i : Nat) (j : Nat) : Nat := 0x68058 + i * 0x1000 + j * 0x100
def jobSlotAStepHiStep (i : Nat) (j : Nat) : Fld := ⟨jobSlotAStepHi i j, 0, 32⟩
def jobSlotB (i : Nat) (j : Nat) : Nat := 0x68060 + i * 0x1000 + j * 0x100
def jobSlotBState (i : Nat) (j : Nat) : Fld := ⟨jobSlotB i j, 0, 3⟩
def jobSlotBStepLo (i : Nat) (j : Nat) : Nat := 0x68064 + i * 0x1000 + j * 0x100
def jobSlotBStepLoStep (i : Nat) (j : Nat) : Fld := ⟨jobSlotBStepLo i j, 0, 32⟩
def jobSlotBStepHi (i : Nat) (j : Nat) : Nat := 0x68068 + i * 0x1000 + j * 0x100
def jobSlotBStepHiStep (i : Nat) (j : Nat) : Fld := ⟨jobSlotBStepHi i j, 0, 32⟩
def jobRestartStepLo (i : Nat) (j : Nat) : Nat := 0x68070 + i * 0x1000 + j * 0x100
def jobRestartStepLoStep (i : Nat) (j : Nat) : Fld := ⟨jobRestartStepLo i j, 0, 32⟩
def jobRestartStepHi (i : Nat) (j : Nat) : Nat := 0x68074 + i * 0x1000 + j * 0x100
def jobRestartStepHiStep (i : Nat) (j : Nat) : Fld := ⟨jobRestartStepHi i j, 0, 32⟩
def jobRestartBeatLo (i : Nat) (j : Nat) : Nat := 0x68078 + i * 0x1000 + j * 0x100
def jobRestartBeatLoNum (i : Nat) (j : Nat) : Fld := ⟨jobRestartBeatLo i j, 0, 32⟩
def jobRestartBeatHi (i : Nat) (j : Nat) : Nat := 0x6807C + i * 0x1000 + j * 0x100
def jobRestartBeatHiNum (i : Nat) (j : Nat) : Fld := ⟨jobRestartBeatHi i j, 0, 32⟩
def jobRestartCtl (i : Nat) (j : Nat) : Nat := 0x68080 + i * 0x1000 + j * 0x100
def jobRestartCtlGo (i : Nat) (j : Nat) : Fld := ⟨jobRestartCtl i j, 31, 1⟩
def jobRestartCtlForce (i : Nat) (j : Nat) : Fld := ⟨jobRestartCtl i j, 16, 1⟩
def jobRestartCtlCount (i : Nat) (j : Nat) : Fld := ⟨jobRestartCtl i j, 8, 8⟩
def jobRestartCtlSlotB (i : Nat) (j : Nat) : Fld := ⟨jobRestartCtl i j, 0, 1⟩
def jobRestartResult (i : Nat) (j : Nat) : Nat := 0x68084 + i * 0x1000 + j * 0x100
def jobRestartResultResult (i : Nat) (j : Nat) : Fld := ⟨jobRestartResult i j, 0, 8⟩
def jobRestarts (i : Nat) (j : Nat) : Nat := 0x68088 + i * 0x1000 + j * 0x100
def jobRestartsCount (i : Nat) (j : Nat) : Fld := ⟨jobRestarts i j, 0, 32⟩
def jobCtl (i : Nat) (j : Nat) : Nat := 0x6808C + i * 0x1000 + j * 0x100
def jobCtlDeclare (i : Nat) (j : Nat) : Fld := ⟨jobCtl i j, 1, 1⟩
def jobCtlRelease (i : Nat) (j : Nat) : Fld := ⟨jobCtl i j, 0, 1⟩
-- SCR (R214 Table SCR-5 09_shadow_screening.md)
def scrEvent : Nat := 0x80000
def scrEventLogWrap : Fld := ⟨scrEvent, 2, 1⟩
def scrEventArbTimeout : Fld := ⟨scrEvent, 1, 1⟩
def scrEventMismatch : Fld := ⟨scrEvent, 0, 1⟩
def scrSlotWait : Nat := 0x80004
def scrSlotWaitBeats : Fld := ⟨scrSlotWait, 0, 8⟩
def scrArbTimeout : Nat := 0x80008
def scrArbTimeoutBeats : Fld := ⟨scrArbTimeout, 0, 8⟩
def scrLogProd : Nat := 0x8000C
def scrLogProdSeq : Fld := ⟨scrLogProd, 0, 16⟩
def scrLogCons : Nat := 0x80010
def scrLogConsSeq : Fld := ⟨scrLogCons, 0, 16⟩
def scrPartCtl (i : Nat) : Nat := 0x80100 + i * 0x40
def scrPartCtlStride (i : Nat) : Fld := ⟨scrPartCtl i, 16, 8⟩
def scrPartCtlVfraction (i : Nat) : Fld := ⟨scrPartCtl i, 4, 3⟩
def scrPartCtlFraction (i : Nat) : Fld := ⟨scrPartCtl i, 0, 3⟩
def scrPartStatus (i : Nat) : Nat := 0x80104 + i * 0x40
def scrPartStatusNoPartner (i : Nat) : Fld := ⟨scrPartStatus i, 2, 1⟩
def scrPartStatusSameDie (i : Nat) : Fld := ⟨scrPartStatus i, 1, 1⟩
def scrPartStatusStarved (i : Nat) : Fld := ⟨scrPartStatus i, 0, 1⟩
def scrPartWheel (i : Nat) : Nat := 0x80108 + i * 0x40
def scrPartWheelS (i : Nat) : Fld := ⟨scrPartWheel i, 0, 32⟩
def scrPartSelected (i : Nat) : Nat := 0x8010C + i * 0x40
def scrPartSelectedCount (i : Nat) : Fld := ⟨scrPartSelected i, 0, 32⟩
def scrPartMismatch (i : Nat) : Nat := 0x80110 + i * 0x40
def scrPartMismatchCount (i : Nat) : Fld := ⟨scrPartMismatch i, 0, 32⟩
def scrPartUnscreened (i : Nat) : Nat := 0x80114 + i * 0x40
def scrPartUnscreenedCount (i : Nat) : Fld := ⟨scrPartUnscreened i, 0, 32⟩
def scrPartStarved (i : Nat) : Nat := 0x80118 + i * 0x40
def scrPartStarvedCount (i : Nat) : Fld := ⟨scrPartStarved i, 0, 32⟩
-- QTN (R243 Table QTN-10 10_quarantine_spares_and_fleet.md)
def qtnEpoch : Nat := 0x88000
def qtnEpochEpoch : Fld := ⟨qtnEpoch, 0, 32⟩
def qtnEvent : Nat := 0x88004
def qtnEventMapLost : Fld := ⟨qtnEvent, 5, 1⟩
def qtnEventPackReject : Fld := ⟨qtnEvent, 4, 1⟩
def qtnEventChurnDone : Fld := ⟨qtnEvent, 3, 1⟩
def qtnEventSparesOut : Fld := ⟨qtnEvent, 2, 1⟩
def qtnEventDisagree : Fld := ⟨qtnEvent, 1, 1⟩
def qtnEventChange : Fld := ⟨qtnEvent, 0, 1⟩
def qtnSpares : Nat := 0x88008
def qtnSparesCd3 : Fld := ⟨qtnSpares, 24, 8⟩
def qtnSparesCd2 : Fld := ⟨qtnSpares, 16, 8⟩
def qtnSparesCd1 : Fld := ⟨qtnSpares, 8, 8⟩
def qtnSparesCd0 : Fld := ⟨qtnSpares, 0, 8⟩
def qtnCfg : Nat := 0x8800C
def qtnCfgFaultOnReduced : Fld := ⟨qtnCfg, 0, 1⟩
def qtnDisagreeCount : Nat := 0x88010
def qtnDisagreeCountCount : Fld := ⟨qtnDisagreeCount, 0, 32⟩
def qtnChurnStatus : Nat := 0x88014
def qtnChurnStatusAborted : Fld := ⟨qtnChurnStatus, 31, 1⟩
def qtnChurnStatusLastPass : Fld := ⟨qtnChurnStatus, 30, 1⟩
def qtnChurnStatusProgress : Fld := ⟨qtnChurnStatus, 16, 8⟩
def qtnChurnStatusDies : Fld := ⟨qtnChurnStatus, 8, 4⟩
def qtnChurnStatusFull : Fld := ⟨qtnChurnStatus, 2, 1⟩
def qtnChurnStatusState : Fld := ⟨qtnChurnStatus, 0, 2⟩
def qtnChurnFails : Nat := 0x88018
def qtnChurnFailsCount : Fld := ⟨qtnChurnFails, 0, 16⟩
def qtnPackId : Nat := 0x8801C
def qtnPackIdId : Fld := ⟨qtnPackId, 0, 32⟩
def qtnPackVersion : Nat := 0x88020
def qtnPackVersionVersion : Fld := ⟨qtnPackVersion, 0, 32⟩
def qtnPackStatus : Nat := 0x88024
def qtnPackStatusCandidate : Fld := ⟨qtnPackStatus, 4, 1⟩
def qtnPackStatusKeyId : Fld := ⟨qtnPackStatus, 2, 2⟩
def qtnPackStatusValid : Fld := ⟨qtnPackStatus, 0, 1⟩
def qtnWsfSeq : Nat := 0x88028
def qtnWsfSeqSeq : Fld := ⟨qtnWsfSeq, 0, 32⟩
def qtnCmdLast : Nat := 0x8802C
def qtnCmdLastCode : Fld := ⟨qtnCmdLast, 16, 16⟩
def qtnCmdLastResult : Fld := ⟨qtnCmdLast, 0, 8⟩
-- TRC (R435 Table TRC-4 19_trace_counters_and_debug.md)
def trcDrainSrc (i : Nat) : Nat := 0xA0100 + i * 0x400
def trcDrainSrcOfs (i : Nat) : Fld := ⟨trcDrainSrc i, 0, 28⟩
def trcDrainDstLo (i : Nat) : Nat := 0xA0104 + i * 0x400
def trcDrainDstLoAddr (i : Nat) : Fld := ⟨trcDrainDstLo i, 6, 26⟩
def trcDrainDstHi (i : Nat) : Nat := 0xA0108 + i * 0x400
def trcDrainDstHiAddr (i : Nat) : Fld := ⟨trcDrainDstHi i, 0, 32⟩
def trcDrainLen (i : Nat) : Nat := 0xA010C + i * 0x400
def trcDrainLenLen (i : Nat) : Fld := ⟨trcDrainLen i, 0, 28⟩
def trcDrainCtl (i : Nat) : Nat := 0xA0110 + i * 0x400
def trcDrainCtlGo (i : Nat) : Fld := ⟨trcDrainCtl i, 31, 1⟩
def trcDrainStatus (i : Nat) : Nat := 0xA0114 + i * 0x400
def trcDrainStatusBusy (i : Nat) : Fld := ⟨trcDrainStatus i, 31, 1⟩
def trcDrainStatusResult (i : Nat) : Fld := ⟨trcDrainStatus i, 0, 8⟩
def trcWinBase (i : Nat) : Nat := 0xA0118 + i * 0x400
def trcWinBaseBase (i : Nat) : Fld := ⟨trcWinBase i, 0, 22⟩
def trcChCtl (i : Nat) (j : Nat) : Nat := 0xA0140 + i * 0x400 + j * 0x40
def trcChCtlEn (i : Nat) (j : Nat) : Fld := ⟨trcChCtl i j, 31, 1⟩
def trcChCtlMode (i : Nat) (j : Nat) : Fld := ⟨trcChCtl i j, 30, 1⟩
def trcChCtlWrap (i : Nat) (j : Nat) : Fld := ⟨trcChCtl i j, 29, 1⟩
def trcChCtlSrc (i : Nat) (j : Nat) : Fld := ⟨trcChCtl i j, 0, 13⟩
def trcChFilter (i : Nat) (j : Nat) : Nat := 0xA0144 + i * 0x400 + j * 0x40
def trcChFilterJob (i : Nat) (j : Nat) : Fld := ⟨trcChFilter i j, 16, 16⟩
def trcChFilterAnyJob (i : Nat) (j : Nat) : Fld := ⟨trcChFilter i j, 15, 1⟩
def trcChFilterRoleMask (i : Nat) (j : Nat) : Fld := ⟨trcChFilter i j, 8, 4⟩
def trcChFilterTcMask (i : Nat) (j : Nat) : Fld := ⟨trcChFilter i j, 0, 4⟩
def trcChBase (i : Nat) (j : Nat) : Nat := 0xA0148 + i * 0x400 + j * 0x40
def trcChBaseBase (i : Nat) (j : Nat) : Fld := ⟨trcChBase i j, 0, 18⟩
def trcChSize (i : Nat) (j : Nat) : Nat := 0xA014C + i * 0x400 + j * 0x40
def trcChSizeSize (i : Nat) (j : Nat) : Fld := ⟨trcChSize i j, 0, 19⟩
def trcChWptr (i : Nat) (j : Nat) : Nat := 0xA0150 + i * 0x400 + j * 0x40
def trcChWptrIndex (i : Nat) (j : Nat) : Fld := ⟨trcChWptr i j, 0, 29⟩
def trcChStatus (i : Nat) (j : Nat) : Nat := 0xA0154 + i * 0x400 + j * 0x40
def trcChStatusCfgErr (i : Nat) (j : Nat) : Fld := ⟨trcChStatus i j, 3, 1⟩
def trcChStatusWrapped (i : Nat) (j : Nat) : Fld := ⟨trcChStatus i j, 2, 1⟩
def trcChStatusFull (i : Nat) (j : Nat) : Fld := ⟨trcChStatus i j, 1, 1⟩
def trcChStatusStopped (i : Nat) (j : Nat) : Fld := ⟨trcChStatus i j, 0, 1⟩
def trcChLost (i : Nat) (j : Nat) : Nat := 0xA0158 + i * 0x400 + j * 0x40
def trcChLostCount (i : Nat) (j : Nat) : Fld := ⟨trcChLost i j, 0, 32⟩
def trcChBeatHi (i : Nat) (j : Nat) : Nat := 0xA015C + i * 0x400 + j * 0x40
def trcChBeatHiHi (i : Nat) (j : Nat) : Fld := ⟨trcChBeatHi i j, 0, 16⟩
-- CNT (R435 Table TRC-4 19_trace_counters_and_debug.md)
def cntCtl : Nat := 0xA8000
def cntCtlClear : Fld := ⟨cntCtl, 4, 4⟩
def cntCtlFreeze : Fld := ⟨cntCtl, 0, 4⟩
def cntSampleCfg : Nat := 0xA8004
def cntSampleCfgEn : Fld := ⟨cntSampleCfg, 31, 1⟩
def cntSampleCfgMode : Fld := ⟨cntSampleCfg, 30, 1⟩
def cntSampleCfgDies : Fld := ⟨cntSampleCfg, 24, 4⟩
def cntSampleCfgChannel : Fld := ⟨cntSampleCfg, 20, 3⟩
def cntSampleCfgPart : Fld := ⟨cntSampleCfg, 18, 2⟩
def cntSampleCfgPeriod : Fld := ⟨cntSampleCfg, 0, 16⟩
def cntSampleMarkLo : Nat := 0xA8008
def cntSampleMarkLoNum : Fld := ⟨cntSampleMarkLo, 0, 32⟩
def cntSampleMarkHi : Nat := 0xA800C
def cntSampleMarkHiNum : Fld := ⟨cntSampleMarkHi, 0, 32⟩
def cntEvent : Nat := 0xA8010
def cntEventSampleLost : Fld := ⟨cntEvent, 0, 1⟩
def cntEsCtl (i : Nat) : Nat := 0xA9000 + i * 0x400
def cntEsCtlJob (i : Nat) : Fld := ⟨cntEsCtl i, 16, 16⟩
def cntEsCtlAnyJob (i : Nat) : Fld := ⟨cntEsCtl i, 15, 1⟩
def cntEsCtlRoleMask (i : Nat) : Fld := ⟨cntEsCtl i, 8, 4⟩
def cntEsOvfLo (i : Nat) : Nat := 0xA9004 + i * 0x400
def cntEsOvfLoOvf (i : Nat) : Fld := ⟨cntEsOvfLo i, 0, 32⟩
def cntEsOvfHi (i : Nat) : Nat := 0xA9008 + i * 0x400
def cntEsOvfHiOvf (i : Nat) : Fld := ⟨cntEsOvfHi i, 0, 32⟩
def cntEsSel (i : Nat) (j : Nat) : Nat := 0xA9040 + i * 0x400 + j * 0x4
def cntEsSelE3 (i : Nat) (j : Nat) : Fld := ⟨cntEsSel i j, 24, 8⟩
def cntEsSelE2 (i : Nat) (j : Nat) : Fld := ⟨cntEsSel i j, 16, 8⟩
def cntEsSelE1 (i : Nat) (j : Nat) : Fld := ⟨cntEsSel i j, 8, 8⟩
def cntEsSelE0 (i : Nat) (j : Nat) : Fld := ⟨cntEsSel i j, 0, 8⟩
def cntEsLo (i : Nat) (j : Nat) : Nat := 0xA9100 + i * 0x400 + j * 0x8
def cntEsLoCount (i : Nat) (j : Nat) : Fld := ⟨cntEsLo i j, 0, 32⟩
def cntEsHi (i : Nat) (j : Nat) : Nat := 0xA9104 + i * 0x400 + j * 0x8
def cntEsHiCount (i : Nat) (j : Nat) : Fld := ⟨cntEsHi i j, 0, 16⟩
-- DBG (R436 Table TRC-6 19_trace_counters_and_debug.md)
def dbgStatus : Nat := 0xC0000
def dbgStatusLevel : Fld := ⟨dbgStatus, 16, 2⟩
def dbgStatusFails : Fld := ⟨dbgStatus, 8, 4⟩
def dbgStatusLockout : Fld := ⟨dbgStatus, 4, 1⟩
def dbgStatusDisabled : Fld := ⟨dbgStatus, 3, 1⟩
def dbgCtl : Nat := 0xC0004
def dbgCtlLock : Fld := ⟨dbgCtl, 31, 1⟩
def dbgCtlPeek : Fld := ⟨dbgCtl, 8, 1⟩
def dbgCtlHalt : Fld := ⟨dbgCtl, 4, 4⟩
def dbgCtlResume : Fld := ⟨dbgCtl, 0, 4⟩
def dbgCfg : Nat := 0xC0008
def dbgCfgDisable : Fld := ⟨dbgCfg, 0, 1⟩
def dbgChal (i : Nat) : Nat := 0xC0010 + i * 0x4
def dbgChalNonce (i : Nat) : Fld := ⟨dbgChal i, 0, 32⟩
def dbgScope : Nat := 0xC0020
def dbgScopeLevel : Fld := ⟨dbgScope, 0, 2⟩
def dbgResp (i : Nat) : Nat := 0xC0030 + i * 0x4
def dbgRespR (i : Nat) : Fld := ⟨dbgResp i, 0, 32⟩
def dbgEvent : Nat := 0xC0040
def dbgEventLockBroken : Fld := ⟨dbgEvent, 3, 1⟩
def dbgEventHaltDeferred : Fld := ⟨dbgEvent, 2, 1⟩
def dbgEventUnlockFail : Fld := ⟨dbgEvent, 1, 1⟩
def dbgEventUnlocked : Fld := ⟨dbgEvent, 0, 1⟩
def dbgCore : Nat := 0xC0044
def dbgCoreDeferring : Fld := ⟨dbgCore, 8, 4⟩
def dbgCoreHalted : Fld := ⟨dbgCore, 0, 4⟩
def dbgBroken : Nat := 0xC0048
def dbgBrokenKind : Fld := ⟨dbgBroken, 8, 4⟩
def dbgBrokenCore : Fld := ⟨dbgBroken, 0, 4⟩
-- QUE (R111 Table ENG-6 05_engines_queues_and_command_lists.md; R68 Table TAG-7 03_tags_classes_and_admission.md)
def queCtl (i : Nat) : Nat := 0x100000 + i * 0x1000
def queCtlDevEnq (i : Nat) : Fld := ⟨queCtl i, 1, 1⟩
def queCtlEn (i : Nat) : Fld := ⟨queCtl i, 0, 1⟩
def queStatus (i : Nat) : Nat := 0x100004 + i * 0x1000
def queStatusRunning (i : Nat) : Fld := ⟨queStatus i, 16, 8⟩
def queStatusConsBad (i : Nat) : Fld := ⟨queStatus i, 8, 1⟩
def queStatusDbIgnored (i : Nat) : Fld := ⟨queStatus i, 7, 1⟩
def queStatusDbBad (i : Nat) : Fld := ⟨queStatus i, 6, 1⟩
def queStatusCplDrop (i : Nat) : Fld := ⟨queStatus i, 5, 1⟩
def queStatusCplStall (i : Nat) : Fld := ⟨queStatus i, 4, 1⟩
def queStatusCfgErr (i : Nat) : Fld := ⟨queStatus i, 3, 1⟩
def queStatusFenced (i : Nat) : Fld := ⟨queStatus i, 2, 1⟩
def queStatusState (i : Nat) : Fld := ⟨queStatus i, 0, 2⟩
def queBind (i : Nat) : Nat := 0x100008 + i * 0x1000
def queBindJob (i : Nat) : Fld := ⟨queBind i, 0, 16⟩
def queRingBaseLo (i : Nat) : Nat := 0x100010 + i * 0x1000
def queRingBaseLoBase (i : Nat) : Fld := ⟨queRingBaseLo i, 6, 26⟩
def queRingBaseHi (i : Nat) : Nat := 0x100014 + i * 0x1000
def queRingBaseHiBase (i : Nat) : Fld := ⟨queRingBaseHi i, 0, 32⟩
def queRingSize (i : Nat) : Nat := 0x100018 + i * 0x1000
def queRingSizeLog2 (i : Nat) : Fld := ⟨queRingSize i, 0, 5⟩
def queDoorbell (i : Nat) : Nat := 0x100020 + i * 0x1000
def queDoorbellTail (i : Nat) : Fld := ⟨queDoorbell i, 0, 17⟩
def queTail (i : Nat) : Nat := 0x100024 + i * 0x1000
def queTailTail (i : Nat) : Fld := ⟨queTail i, 0, 17⟩
def queHead (i : Nat) : Nat := 0x100028 + i * 0x1000
def queHeadHead (i : Nat) : Fld := ⟨queHead i, 0, 17⟩
def queCplBaseLo (i : Nat) : Nat := 0x100030 + i * 0x1000
def queCplBaseLoBase (i : Nat) : Fld := ⟨queCplBaseLo i, 6, 26⟩
def queCplBaseHi (i : Nat) : Nat := 0x100034 + i * 0x1000
def queCplBaseHiBase (i : Nat) : Fld := ⟨queCplBaseHi i, 0, 32⟩
def queCplSize (i : Nat) : Nat := 0x100038 + i * 0x1000
def queCplSizeLog2 (i : Nat) : Fld := ⟨queCplSize i, 0, 5⟩
def queCplCons (i : Nat) : Nat := 0x10003C + i * 0x1000
def queCplConsIndex (i : Nat) : Fld := ⟨queCplCons i, 0, 17⟩
def queCplProd (i : Nat) : Nat := 0x100040 + i * 0x1000
def queCplProdIndex (i : Nat) : Fld := ⟨queCplProd i, 0, 17⟩
def queIrqCfg (i : Nat) : Nat := 0x100048 + i * 0x1000
def queIrqCfgEn (i : Nat) : Fld := ⟨queIrqCfg i, 31, 1⟩
def queIrqCfgCount (i : Nat) : Fld := ⟨queIrqCfg i, 16, 8⟩
def queIrqCfgVector (i : Nat) : Fld := ⟨queIrqCfg i, 0, 11⟩
def queIrqTimeout (i : Nat) : Nat := 0x10004C + i * 0x1000
def queIrqTimeoutBeats (i : Nat) : Fld := ⟨queIrqTimeout i, 0, 16⟩
def queLastErr (i : Nat) : Nat := 0x100050 + i * 0x1000
def queLastErrDetail (i : Nat) : Fld := ⟨queLastErr i, 16, 16⟩
def queLastErrDescStatus (i : Nat) : Fld := ⟨queLastErr i, 0, 16⟩
def queAdmCfg (i : Nat) : Nat := 0x100100 + i * 0x1000
def queAdmCfgHard (i : Nat) : Fld := ⟨queAdmCfg i, 16, 1⟩
def queAdmCfgWeight (i : Nat) : Fld := ⟨queAdmCfg i, 8, 8⟩
def queAdmCfgClass (i : Nat) : Fld := ⟨queAdmCfg i, 0, 2⟩
def queAdmQuota (i : Nat) : Nat := 0x100104 + i * 0x1000
def queAdmQuotaCredits (i : Nat) : Fld := ⟨queAdmQuota i, 0, 24⟩
def queAdmWindow (i : Nat) : Nat := 0x100108 + i * 0x1000
def queAdmWindowBeats (i : Nat) : Fld := ⟨queAdmWindow i, 0, 16⟩
def queAdmCredit (i : Nat) : Nat := 0x10010C + i * 0x1000
def queAdmCreditLeft (i : Nat) : Fld := ⟨queAdmCredit i, 0, 24⟩
def queAdmDeferred (i : Nat) : Nat := 0x100110 + i * 0x1000
def queAdmDeferredCount (i : Nat) : Fld := ⟨queAdmDeferred i, 0, 32⟩
def queAdmRefused (i : Nat) : Nat := 0x100114 + i * 0x1000
def queAdmRefusedCount (i : Nat) : Fld := ⟨queAdmRefused i, 8, 24⟩
def queAdmRefusedLast (i : Nat) : Fld := ⟨queAdmRefused i, 0, 8⟩
def queAdmCtl (i : Nat) : Nat := 0x100118 + i * 0x1000
def queAdmCtlClrRef (i : Nat) : Fld := ⟨queAdmCtl i, 1, 1⟩
def queAdmCtlClrDef (i : Nat) : Fld := ⟨queAdmCtl i, 0, 1⟩
-- HBM (R166 Table MEM-6 07_memory_and_addressing.md)
def hbmStatus (i : Nat) : Nat := 0x300000 + i * 0x10000
def hbmStatusRemapUsed (i : Nat) : Fld := ⟨hbmStatus i, 8, 8⟩
def hbmStatusDegraded (i : Nat) : Fld := ⟨hbmStatus i, 1, 1⟩
def hbmStatusTrained (i : Nat) : Fld := ⟨hbmStatus i, 0, 1⟩
def hbmEvent (i : Nat) : Nat := 0x300004 + i * 0x10000
def hbmEventRemapFull (i : Nat) : Fld := ⟨hbmEvent i, 4, 1⟩
def hbmEventRetire (i : Nat) : Fld := ⟨hbmEvent i, 3, 1⟩
def hbmEventHole (i : Nat) : Fld := ⟨hbmEvent i, 2, 1⟩
def hbmEventUe (i : Nat) : Fld := ⟨hbmEvent i, 1, 1⟩
def hbmEventCe (i : Nat) : Fld := ⟨hbmEvent i, 0, 1⟩
def hbmCeTotal (i : Nat) : Nat := 0x300008 + i * 0x10000
def hbmCeTotalCount (i : Nat) : Fld := ⟨hbmCeTotal i, 0, 32⟩
def hbmUeTotal (i : Nat) : Nat := 0x30000C + i * 0x10000
def hbmUeTotalCount (i : Nat) : Fld := ⟨hbmUeTotal i, 0, 32⟩
def hbmUeAddrLo (i : Nat) : Nat := 0x300010 + i * 0x10000
def hbmUeAddrLoAddr (i : Nat) : Fld := ⟨hbmUeAddrLo i, 0, 32⟩
def hbmUeAddrHi (i : Nat) : Nat := 0x300014 + i * 0x10000
def hbmUeAddrHiAddr (i : Nat) : Fld := ⟨hbmUeAddrHi i, 0, 32⟩
def hbmUeLoc (i : Nat) : Nat := 0x300018 + i * 0x10000
def hbmUeLocScrub (i : Nat) : Fld := ⟨hbmUeLoc i, 13, 1⟩
def hbmUeLocRegion (i : Nat) : Fld := ⟨hbmUeLoc i, 12, 1⟩
def hbmUeLocBank (i : Nat) : Fld := ⟨hbmUeLoc i, 6, 6⟩
def hbmUeLocCh (i : Nat) : Fld := ⟨hbmUeLoc i, 0, 6⟩
def hbmUeRow (i : Nat) : Nat := 0x30001C + i * 0x10000
def hbmUeRowRow (i : Nat) : Fld := ⟨hbmUeRow i, 0, 18⟩
def hbmRetireCfg (i : Nat) : Nat := 0x300020 + i * 0x10000
def hbmRetireCfgCeThresh (i : Nat) : Fld := ⟨hbmRetireCfg i, 0, 8⟩
def hbmScrubCfg (i : Nat) : Nat := 0x300024 + i * 0x10000
def hbmScrubCfgEn (i : Nat) : Fld := ⟨hbmScrubCfg i, 31, 1⟩
def hbmScrubCfgInterval (i : Nat) : Fld := ⟨hbmScrubCfg i, 0, 16⟩
def hbmScrubPass (i : Nat) : Nat := 0x300028 + i * 0x10000
def hbmScrubPassCount (i : Nat) : Fld := ⟨hbmScrubPass i, 0, 32⟩
def hbmCeCh (i : Nat) (j : Nat) : Nat := 0x300100 + i * 0x10000 + j * 0x4
def hbmCeChCount (i : Nat) (j : Nat) : Fld := ⟨hbmCeCh i j, 0, 16⟩
def hbmPartLimit (i : Nat) : Nat := 0x300200 + i * 0x10000
def hbmPartLimitGranules (i : Nat) : Fld := ⟨hbmPartLimit i, 0, 27⟩
def hbmPartCapture (i : Nat) : Nat := 0x300204 + i * 0x10000
def hbmPartCaptureBase (i : Nat) : Fld := ⟨hbmPartCapture i, 0, 27⟩
def hbmPartTrace (i : Nat) : Nat := 0x300208 + i * 0x10000
def hbmPartTraceBase (i : Nat) : Fld := ⟨hbmPartTrace i, 0, 27⟩
def hbmPartChannels (i : Nat) : Nat := 0x30020C + i * 0x10000
def hbmPartChannelsP (i : Nat) : Fld := ⟨hbmPartChannels i, 0, 10⟩
def hbmRsvNext (i : Nat) : Nat := 0x300210 + i * 0x10000
def hbmRsvNextTrace64m (i : Nat) : Fld := ⟨hbmRsvNext i, 0, 9⟩
-- FABP (Table LNK-10, R195 08_links_host_fabric_management.md)
def fabPortCfg (i : Nat) : Nat := 0x400000 + i * 0x10000
def fabPortCfgMedia (i : Nat) : Fld := ⟨fabPortCfg i, 3, 1⟩
def fabPortCfgMode (i : Nat) : Fld := ⟨fabPortCfg i, 1, 2⟩
def fabPortCfgEn (i : Nat) : Fld := ⟨fabPortCfg i, 0, 1⟩
def fabPortStatus (i : Nat) : Nat := 0x400004 + i * 0x10000
def fabPortStatusLaneQ (i : Nat) : Fld := ⟨fabPortStatus i, 4, 8⟩
def fabPortStatusUp (i : Nat) : Fld := ⟨fabPortStatus i, 0, 4⟩
def fabPortEvent (i : Nat) : Nat := 0x400008 + i * 0x10000
def fabPortEventLaneFault (i : Nat) : Fld := ⟨fabPortEvent i, 2, 1⟩
def fabPortEventFecUncorr (i : Nat) : Fld := ⟨fabPortEvent i, 1, 1⟩
def fabPortEventLinkDown (i : Nat) : Fld := ⟨fabPortEvent i, 0, 1⟩
def fabFecCorr (i : Nat) : Nat := 0x40000C + i * 0x10000
def fabFecCorrCount (i : Nat) : Fld := ⟨fabFecCorr i, 0, 32⟩
def fabFecUncorr (i : Nat) : Nat := 0x400010 + i * 0x10000
def fabFecUncorrCount (i : Nat) : Fld := ⟨fabFecUncorr i, 0, 32⟩
def fabPortGwLo (i : Nat) : Nat := 0x400018 + i * 0x10000
def fabPortGwLoMac (i : Nat) : Fld := ⟨fabPortGwLo i, 0, 32⟩
def fabPortGwHi (i : Nat) : Nat := 0x40001C + i * 0x10000
def fabPortGwHiMac (i : Nat) : Fld := ⟨fabPortGwHi i, 0, 16⟩
def fabPortPeer (i : Nat) (j : Nat) : Nat := 0x400020 + i * 0x10000 + j * 0x4
def fabPortPeerValid (i : Nat) (j : Nat) : Fld := ⟨fabPortPeer i j, 31, 1⟩
def fabPortPeerId (i : Nat) (j : Nat) : Fld := ⟨fabPortPeer i j, 0, 17⟩
-- FAB (Table LNK-10, R195 08_links_host_fabric_management.md)
def fabDevId : Nat := 0x408000
def fabDevIdValid : Fld := ⟨fabDevId, 31, 1⟩
def fabDevIdId : Fld := ⟨fabDevId, 0, 17⟩
def fabKftCfg : Nat := 0x408004
def fabKftCfgIp6 : Fld := ⟨fabKftCfg, 17, 1⟩
def fabKftCfgUdp : Fld := ⟨fabKftCfg, 16, 1⟩
def fabKftCfgUdpPort : Fld := ⟨fabKftCfg, 0, 16⟩
def fabKftRto : Nat := 0x408008
def fabKftRtoRetry : Fld := ⟨fabKftRto, 16, 4⟩
def fabKftRtoBeats : Fld := ⟨fabKftRto, 0, 16⟩
def fabKftIdle : Nat := 0x40800C
def fabKftIdleBeats : Fld := ⟨fabKftIdle, 0, 16⟩
def fabEcn : Nat := 0x408010
def fabEcnThresh : Fld := ⟨fabEcn, 0, 16⟩
def fabJfCfg : Nat := 0x408014
def fabJfCfgHops : Fld := ⟨fabJfCfg, 0, 5⟩
def fabBeatAnn : Nat := 0x408018
def fabBeatAnnEn : Fld := ⟨fabBeatAnn, 0, 1⟩
def fabRouteIdx : Nat := 0x40801C
def fabRouteIdxDev : Fld := ⟨fabRouteIdx, 0, 17⟩
def fabRouteData : Nat := 0x408020
def fabRouteDataMask : Fld := ⟨fabRouteData, 0, 16⟩
def fabIp4Prefix : Nat := 0x408024
def fabIp4PrefixPrefix : Fld := ⟨fabIp4Prefix, 0, 32⟩
def fabIp6PrefixLo : Nat := 0x408028
def fabIp6PrefixLoPrefix : Fld := ⟨fabIp6PrefixLo, 0, 32⟩
def fabIp6PrefixHi : Nat := 0x40802C
def fabIp6PrefixHiPrefix : Fld := ⟨fabIp6PrefixHi, 0, 32⟩
def fabRxReject : Nat := 0x408030
def fabRxRejectJob : Fld := ⟨fabRxReject, 24, 8⟩
def fabRxRejectFenced : Fld := ⟨fabRxReject, 16, 8⟩
def fabRxRejectAbsent : Fld := ⟨fabRxReject, 8, 8⟩
def fabRxRejectTag : Fld := ⟨fabRxReject, 0, 8⟩
def fabTxRejected : Nat := 0x408034
def fabTxRejectedCount : Fld := ⟨fabTxRejected, 0, 32⟩
def fabConnFail : Nat := 0x408038
def fabConnFailCount : Fld := ⟨fabConnFail, 0, 32⟩
def fabConnWait : Nat := 0x40803C
def fabConnWaitCount : Fld := ⟨fabConnWait, 0, 32⟩
def fabRxCrc : Nat := 0x408040
def fabRxCrcCount : Fld := ⟨fabRxCrc, 0, 32⟩
def fabConnUsed : Nat := 0x408044
def fabConnUsedCount : Fld := ⟨fabConnUsed, 0, 16⟩
def fabEvent : Nat := 0x408048
def fabEventJfSeen : Fld := ⟨fabEvent, 2, 1⟩
def fabEventConnFail : Fld := ⟨fabEvent, 1, 1⟩
def fabEventBeatDisagree : Fld := ⟨fabEvent, 0, 1⟩
def fabBeatPeer : Nat := 0x40804C
def fabBeatPeerSubport : Fld := ⟨fabBeatPeer, 0, 6⟩
-- HIF (Table LNK-2, R172 08_links_host_fabric_management.md)
def hifStatus (i : Nat) : Nat := 0x500000 + i * 0x1000
def hifStatusWidth (i : Nat) : Fld := ⟨hifStatus i, 4, 4⟩
def hifStatusRate (i : Nat) : Fld := ⟨hifStatus i, 1, 3⟩
def hifStatusUp (i : Nat) : Fld := ⟨hifStatus i, 0, 1⟩
def hifEvent (i : Nat) : Nat := 0x500004 + i * 0x1000
def hifEventDegraded (i : Nat) : Fld := ⟨hifEvent i, 4, 1⟩
def hifEventMsiLost (i : Nat) : Fld := ⟨hifEvent i, 3, 1⟩
def hifEventFlr (i : Nat) : Fld := ⟨hifEvent i, 2, 1⟩
def hifEventLinkDown (i : Nat) : Fld := ⟨hifEvent i, 1, 1⟩
def hifEventPostedDrop (i : Nat) : Fld := ⟨hifEvent i, 0, 1⟩
def hifPostedDrop (i : Nat) : Nat := 0x500008 + i * 0x1000
def hifPostedDropCount (i : Nat) : Fld := ⟨hifPostedDrop i, 0, 32⟩
def hifCfg (i : Nat) : Nat := 0x50000C + i * 0x1000
def hifCfgBar2Tc (i : Nat) : Fld := ⟨hifCfg i, 0, 2⟩
def hifEvtCfg (i : Nat) : Nat := 0x500010 + i * 0x1000
def hifEvtCfgEn (i : Nat) : Fld := ⟨hifEvtCfg i, 31, 1⟩
def hifEvtCfgVector (i : Nat) : Fld := ⟨hifEvtCfg i, 0, 11⟩
-- MGT (Table LNK-10, R195 08_links_host_fabric_management.md)
def mgtNetCfg : Nat := 0x580000
def mgtNetCfgPort : Fld := ⟨mgtNetCfg, 16, 16⟩
def mgtNetCfgSlaac : Fld := ⟨mgtNetCfg, 2, 1⟩
def mgtNetCfgIp6 : Fld := ⟨mgtNetCfg, 1, 1⟩
def mgtNetCfgDhcp4 : Fld := ⟨mgtNetCfg, 0, 1⟩
def mgtIp4 : Nat := 0x580004
def mgtIp4Addr : Fld := ⟨mgtIp4, 0, 32⟩
def mgtIp6 (i : Nat) : Nat := 0x580010 + i * 0x4
def mgtIp6Addr (i : Nat) : Fld := ⟨mgtIp6 i, 0, 32⟩
def mgtCollector : Nat := 0x580020
def mgtCollectorAddr : Fld := ⟨mgtCollector, 0, 32⟩
def mgtCollector6 (i : Nat) : Nat := 0x580030 + i * 0x4
def mgtCollector6Addr (i : Nat) : Fld := ⟨mgtCollector6 i, 0, 32⟩
def mgtColPort : Nat := 0x580040
def mgtColPortPort : Fld := ⟨mgtColPort, 0, 16⟩
def mgtKeyCfg : Nat := 0x580044
def mgtKeyCfgFused : Fld := ⟨mgtKeyCfg, 8, 8⟩
def mgtKeyCfgActive : Fld := ⟨mgtKeyCfg, 0, 8⟩
def mgtRptCfg : Nat := 0x580048
def mgtRptCfgRetry : Fld := ⟨mgtRptCfg, 0, 16⟩
def mgtRptPending : Nat := 0x58004C
def mgtRptPendingCount : Fld := ⟨mgtRptPending, 0, 32⟩
def mgtRptDrop : Nat := 0x580050
def mgtRptDropCount : Fld := ⟨mgtRptDrop, 0, 32⟩
def mgtRxReject : Nat := 0x580054
def mgtRxRejectCount : Fld := ⟨mgtRxReject, 0, 32⟩
-- MED (R413 Table MED-8 18_media_engine.md)
def medStatus : Nat := 0x600000
def medStatusOpen : Fld := ⟨medStatus, 16, 9⟩
def medStatusReady : Fld := ⟨medStatus, 0, 1⟩
def medEvent : Nat := 0x600004
def medEventCfgRefused : Fld := ⟨medEvent, 3, 1⟩
def medEventOpenRefused : Fld := ⟨medEvent, 2, 1⟩
def medEventHalted : Fld := ⟨medEvent, 1, 1⟩
def medEventConcealed : Fld := ⟨medEvent, 0, 1⟩
def medDecPics : Nat := 0x600008
def medDecPicsCount : Fld := ⟨medDecPics, 0, 32⟩
def medEncPics : Nat := 0x60000C
def medEncPicsCount : Fld := ⟨medEncPics, 0, 32⟩
def medPartCfg (i : Nat) : Nat := 0x600040 + i * 0x4
def medPartCfgSlots (i : Nat) : Fld := ⟨medPartCfg i, 24, 6⟩
def medPartCfgSessCount (i : Nat) : Fld := ⟨medPartCfg i, 8, 9⟩
def medPartCfgSessFirst (i : Nat) : Fld := ⟨medPartCfg i, 0, 8⟩
def medSessDescLo (i : Nat) : Nat := 0x601000 + i * 0x20
def medSessDescLoAddr (i : Nat) : Fld := ⟨medSessDescLo i, 6, 26⟩
def medSessDescHi (i : Nat) : Nat := 0x601004 + i * 0x20
def medSessDescHiAddr (i : Nat) : Fld := ⟨medSessDescHi i, 0, 32⟩
def medSessCtl (i : Nat) : Nat := 0x601008 + i * 0x20
def medSessCtlForceKey (i : Nat) : Fld := ⟨medSessCtl i, 2, 1⟩
def medSessCtlClose (i : Nat) : Fld := ⟨medSessCtl i, 1, 1⟩
def medSessCtlOpen (i : Nat) : Fld := ⟨medSessCtl i, 0, 1⟩
def medSessStatus (i : Nat) : Nat := 0x60100C + i * 0x20
def medSessStatusResult (i : Nat) : Fld := ⟨medSessStatus i, 8, 8⟩
def medSessStatusBusy (i : Nat) : Fld := ⟨medSessStatus i, 2, 1⟩
def medSessStatusState (i : Nat) : Fld := ⟨medSessStatus i, 0, 2⟩
def medSessRelSeq (i : Nat) : Nat := 0x601010 + i * 0x20
def medSessRelSeqSeq (i : Nat) : Fld := ⟨medSessRelSeq i, 0, 32⟩
def medSessErrors (i : Nat) : Nat := 0x601014 + i * 0x20
def medSessErrorsCount (i : Nat) : Fld := ⟨medSessErrors i, 0, 32⟩
def medSessPics (i : Nat) : Nat := 0x601018 + i * 0x20
def medSessPicsCount (i : Nat) : Fld := ⟨medSessPics i, 0, 32⟩
-- CLA (R390 Table CLA-10 17_configurable_logic_array.md)
def claCtl : Nat := 0x700000
def claCtlGoLocal : Fld := ⟨claCtl, 1, 1⟩
def claCtlReleaseDone : Fld := ⟨claCtl, 0, 1⟩
def claStatus : Nat := 0x700004
def claStatusGo : Fld := ⟨claStatus, 31, 1⟩
def claStatusDriving : Fld := ⟨claStatus, 30, 1⟩
def claStatusLine : Fld := ⟨claStatus, 29, 1⟩
def claStatusLoaded : Fld := ⟨claStatus, 28, 1⟩
def claStatusSrc : Fld := ⟨claStatus, 24, 2⟩
def claStatusErr : Fld := ⟨claStatus, 16, 8⟩
def claStatusRunning : Fld := ⟨claStatus, 0, 8⟩
def claEvent : Nat := 0x700008
def claEventCfgRefused : Fld := ⟨claEvent, 7, 1⟩
def claEventTgtTimeout : Fld := ⟨claEvent, 6, 1⟩
def claEventGo : Fld := ⟨claEvent, 5, 1⟩
def claEventFrameUe : Fld := ⟨claEvent, 4, 1⟩
def claEventDoneTimeout : Fld := ⟨claEvent, 3, 1⟩
def claEventBadCrc : Fld := ⟨claEvent, 2, 1⟩
def claEventStreamErr : Fld := ⟨claEvent, 1, 1⟩
def claEventLoadDone : Fld := ⟨claEvent, 0, 1⟩
def claDoneTimeout : Nat := 0x70000C
def claDoneTimeoutBeats : Fld := ⟨claDoneTimeout, 0, 32⟩
def claBusCfg : Nat := 0x700010
def claBusCfgPreMs : Fld := ⟨claBusCfg, 16, 8⟩
def claBusCfgRepeat : Fld := ⟨claBusCfg, 0, 8⟩
def claId : Nat := 0x700014
def claIdId : Fld := ⟨claId, 0, 32⟩
def claCfgStat : Nat := 0x700018
def claCfgStatErr : Fld := ⟨claCfgStat, 8, 8⟩
def claCfgStatIdOk : Fld := ⟨claCfgStat, 3, 1⟩
def claCfgStatCheckOk : Fld := ⟨claCfgStat, 2, 1⟩
def claCfgStatArmed : Fld := ⟨claCfgStat, 1, 1⟩
def claCfgStatSynced : Fld := ⟨claCfgStat, 0, 1⟩
def claExtAddrLo : Nat := 0x700020
def claExtAddrLoAddr : Fld := ⟨claExtAddrLo, 0, 32⟩
def claExtAddrHi : Nat := 0x700024
def claExtAddrHiAddr : Fld := ⟨claExtAddrHi, 0, 32⟩
def claExtLen : Nat := 0x700028
def claExtLenBytes : Fld := ⟨claExtLen, 0, 28⟩
def claExtCtl : Nat := 0x70002C
def claExtCtlGo : Fld := ⟨claExtCtl, 31, 1⟩
def claExtCtlPart : Fld := ⟨claExtCtl, 12, 2⟩
def claExtCtlFull : Fld := ⟨claExtCtl, 8, 1⟩
def claExtCtlRegion : Fld := ⟨claExtCtl, 0, 3⟩
def claExtStatus : Nat := 0x700030
def claExtStatusBusy : Fld := ⟨claExtStatus, 31, 1⟩
def claExtStatusResult : Fld := ⟨claExtStatus, 0, 8⟩
def claRegion (i : Nat) : Nat := 0x700040 + i * 0x4
def claRegionState (i : Nat) : Fld := ⟨claRegion i, 16, 3⟩
def claRegionPart (i : Nat) : Fld := ⟨claRegion i, 12, 2⟩
def claRegionHold (i : Nat) : Fld := ⟨claRegion i, 0, 1⟩
def claTapCfg : Nat := 0x700060
def claTapCfgIsoDrop : Fld := ⟨claTapCfg, 16, 16⟩
def claTapCfgFabEn : Fld := ⟨claTapCfg, 0, 16⟩
def claNocCfg : Nat := 0x700064
def claNocCfgJob : Fld := ⟨claNocCfg, 16, 16⟩
def claNocCfgPart : Fld := ⟨claNocCfg, 12, 2⟩
def claNocCfgTc : Fld := ⟨claNocCfg, 8, 2⟩
def claNocCfgEn : Fld := ⟨claNocCfg, 0, 1⟩
def claTapDrop : Nat := 0x700068
def claTapDropCount : Fld := ⟨claTapDrop, 0, 32⟩
def claScrub : Nat := 0x70006C
def claScrubUe : Fld := ⟨claScrub, 16, 16⟩
def claScrubCe : Fld := ⟨claScrub, 0, 16⟩
-- CL (R435 Table TRC-4 19_trace_counters_and_debug.md)
def cntClCtl (i : Nat) : Nat := 0x1000100 + i * 0x4000
def cntClCtlJob (i : Nat) : Fld := ⟨cntClCtl i, 16, 16⟩
def cntClCtlAnyJob (i : Nat) : Fld := ⟨cntClCtl i, 15, 1⟩
def cntClCtlSample (i : Nat) : Fld := ⟨cntClCtl i, 14, 1⟩
def cntClCtlRoleMask (i : Nat) : Fld := ⟨cntClCtl i, 8, 4⟩
def cntClOvf (i : Nat) : Nat := 0x1000104 + i * 0x4000
def cntClOvfOvf (i : Nat) : Fld := ⟨cntClOvf i, 0, 8⟩
def cntClSel (i : Nat) (j : Nat) : Nat := 0x1000108 + i * 0x4000 + j * 0x4
def cntClSelE3 (i : Nat) (j : Nat) : Fld := ⟨cntClSel i j, 24, 8⟩
def cntClSelE2 (i : Nat) (j : Nat) : Fld := ⟨cntClSel i j, 16, 8⟩
def cntClSelE1 (i : Nat) (j : Nat) : Fld := ⟨cntClSel i j, 8, 8⟩
def cntClSelE0 (i : Nat) (j : Nat) : Fld := ⟨cntClSel i j, 0, 8⟩
def cntClLo (i : Nat) (j : Nat) : Nat := 0x1000110 + i * 0x4000 + j * 0x8
def cntClLoCount (i : Nat) (j : Nat) : Fld := ⟨cntClLo i j, 0, 32⟩
def cntClHi (i : Nat) (j : Nat) : Nat := 0x1000114 + i * 0x4000 + j * 0x8
def cntClHiCount (i : Nat) (j : Nat) : Fld := ⟨cntClHi i j, 0, 16⟩

end Reg

/-- R21-R24 01_the_device.md. -/
def regsSys : List RegDesc := [
  -- SYS_ID: VENDOR, PRODUCT
  ⟨0x0, [], .all, .none, .aon, [⟨16, 16, .ro, 0xE7A0⟩, ⟨4, 12, .ro, 0xD1⟩]⟩,
  -- SYS_STEP: MAJOR, MINOR
  ⟨0x4, [], .all, .none, .aon, [⟨4, 4, .ro, 0x1⟩, ⟨0, 4, .ro, 0x0⟩]⟩,
  -- SYS_SKU: MATRIX_CLK, HBM_GIB, SPARES, CLUSTERS
  ⟨0x8, [], .all, .none, .aon, [⟨20, 8, .ro, 0x15⟩, ⟨12, 8, .ro, 0x24⟩, ⟨8, 4, .ro, 0x8⟩, ⟨0, 8, .ro, 0xA0⟩]⟩,
  -- SYS_SERIAL_LO: SERIAL
  ⟨0xC, [], .all, .none, .aon, [⟨0, 32, .ro, 0x0⟩]⟩,
  -- SYS_SERIAL_HI: SERIAL
  ⟨0x10, [], .all, .none, .aon, [⟨0, 32, .ro, 0x0⟩]⟩,
  -- SYS_STRAP: PART_MODE_BAD, CLA_SRC, BIST_DEEP, WAKE_HOLD, PART_MODE
  ⟨0x14, [], .all, .none, .aon, [⟨31, 1, .ro, 0x0⟩, ⟨4, 2, .ro, 0x0⟩, ⟨3, 1, .ro, 0x0⟩, ⟨2, 1, .ro, 0x0⟩, ⟨0, 2, .ro, 0x0⟩]⟩,
  -- SYS_PART_CFG: NEXT_VALID, NEXT, ACTIVE
  ⟨0x18, [], .all, .pf0md, .aon, [⟨8, 1, .rw, 0x0⟩, ⟨4, 2, .rw, 0x0⟩, ⟨0, 2, .ro, 0x0⟩]⟩,
  -- SYS_STATUS: PARTS_REDUCED, PARTS_PRESENT, BIST_DONE, FAULT, SAFE, READY
  ⟨0x1C, [], .all, .none, .aon, [⟨8, 4, .ro, 0x0⟩, ⟨4, 4, .ro, 0x0⟩, ⟨3, 1, .ro, 0x0⟩, ⟨2, 1, .ro, 0x0⟩, ⟨1, 1, .ro, 0x0⟩, ⟨0, 1, .ro, 0x0⟩]⟩,
  -- SYS_CAP_DIE: CD3, CD2, CD1, CD0
  ⟨0x20, [], .all, .none, .aon, [⟨24, 8, .ro, 0x0⟩, ⟨16, 8, .ro, 0x0⟩, ⟨8, 8, .ro, 0x0⟩, ⟨0, 8, .ro, 0x0⟩]⟩]

/-- R307 Table PWR-7 13_power_domains_and_wake.md. -/
def regsPwr : List RegDesc := [
  -- PWR_CFG: FAULT_ON_FAILED, RST_KEEP_HBM
  ⟨0x10000, [], .all, .md, .aon, [⟨1, 1, .rw, 0x1⟩, ⟨0, 1, .rw, 0x1⟩]⟩,
  -- PWR_DOM_STATUS: FAILED, ON
  ⟨0x10004, [], .all, .md, .aon, [⟨16, 12, .ro, 0x0⟩, ⟨0, 12, .ro, 0x0⟩]⟩,
  -- PWR_EVENT: PMB_ERR, LIMIT_FLOOR, SWITCH_REFUSED, WAKE_FAIL, PGOOD_LOST, PWR_FAIL
  ⟨0x10008, [], .all, .md, .aon, [⟨5, 1, .rw1c, 0x0⟩, ⟨4, 1, .rw1c, 0x0⟩, ⟨3, 1, .rw1c, 0x0⟩, ⟨2, 1, .rw1c, 0x0⟩, ⟨1, 1, .rw1c, 0x0⟩, ⟨0, 1, .rw1c, 0x0⟩]⟩,
  -- PWR_DOM_CTL: OFF, ON
  ⟨0x1000C, [], .all, .md, .aon, [⟨16, 12, .wo, 0x0⟩, ⟨0, 12, .wo, 0x0⟩]⟩,
  -- PWR_WAKE_STATUS: HELD, DONE, STEP
  ⟨0x10010, [], .all, .md, .aon, [⟨8, 1, .ro, 0x0⟩, ⟨4, 1, .ro, 0x0⟩, ⟨0, 4, .ro, 0x0⟩]⟩,
  -- PWR_WAKE_RESULT: VALID, STEP, DOMAIN, REASON, ATTEMPTS
  ⟨0x10014, [], .all, .md, .aon, [⟨31, 1, .ro, 0x0⟩, ⟨12, 4, .ro, 0x0⟩, ⟨8, 4, .ro, 0x0⟩, ⟨4, 4, .ro, 0x0⟩, ⟨0, 2, .ro, 0x0⟩]⟩,
  -- PWR_WAKE_CTL: GO
  ⟨0x10018, [], .all, .md, .aon, [⟨0, 1, .wo, 0x0⟩]⟩,
  -- PWR_LIMIT_SUST: WATTS
  ⟨0x10020, [], .all, .md, .aon, [⟨0, 16, .rw, 0x672⟩]⟩,
  -- PWR_LIMIT_PEAK: BEATS, WATTS
  ⟨0x10024, [], .all, .md, .aon, [⟨16, 16, .rw, 0x3E8⟩, ⟨0, 16, .rw, 0x834⟩]⟩,
  -- PWR_EST: MAX, NOW
  ⟨0x10028, [], .all, .md, .aon, [⟨16, 16, .ro, 0x0⟩, ⟨0, 16, .ro, 0x0⟩]⟩,
  -- PWR_LIMIT_STATUS: LIMITING, PERCENT
  ⟨0x1002C, [], .all, .md, .aon, [⟨8, 1, .ro, 0x0⟩, ⟨0, 7, .ro, 0x64⟩]⟩,
  -- PWR_VSET: V_RATED, MV
  ⟨0x10040, [(0x4, 0x4)], .all, .md, .aon, [⟨16, 10, .ro, 0x0⟩, ⟨0, 10, .rw, 0x0⟩]⟩,
  -- PWR_PMB_CFG: POLL, SPEED
  ⟨0x10080, [], .all, .md, .aon, [⟨16, 16, .rw, 0x3E8⟩, ⟨0, 2, .rw, 0x2⟩]⟩,
  -- PWR_PMB_MAP: VALID, SETPOINT, RAIL, DOMAIN, PAGE, ADDR
  ⟨0x10100, [(0x10, 0x8)], .all, .md, .aon, [⟨31, 1, .rw, 0x0⟩, ⟨30, 1, .rw, 0x0⟩, ⟨20, 4, .rw, 0x0⟩, ⟨16, 4, .rw, 0x0⟩, ⟨8, 8, .rw, 0x0⟩, ⟨0, 7, .rw, 0x0⟩]⟩,
  -- PWR_PMB_TLM: IOUT, VOUT
  ⟨0x10104, [(0x10, 0x8)], .all, .md, .aon, [⟨16, 16, .ro, 0x0⟩, ⟨0, 16, .ro, 0x0⟩]⟩]

/-- R307 Table PWR-8 13_power_domains_and_wake.md. -/
def regsClk : List RegDesc := [
  -- CLK_STATUS: PLL, AON_PLL, OSC_OK
  ⟨0x20000, [], .all, .md, .aon, [⟨16, 12, .ro, 0x0⟩, ⟨1, 1, .ro, 0x0⟩, ⟨0, 1, .ro, 0x0⟩]⟩,
  -- CLK_MATRIX_LIMIT: MHZ
  ⟨0x20004, [], .all, .md, .aon, [⟨0, 12, .rw, 0x834⟩]⟩,
  -- CLK_DIE: SRC, MHZ
  ⟨0x20010, [(0x4, 0x4)], .all, .md, .aon, [⟨12, 4, .ro, 0x0⟩, ⟨0, 12, .ro, 0x0⟩]⟩]

/-- R46 Table BEAT-4 02_the_beat.md. -/
def regsBeat : List RegDesc := [
  -- BEAT_CTL: RENUM, OUT_FREE, OUT_EN, NUM_SRC, SRC
  ⟨0x28000, [], .all, .md, .aon, [⟨9, 1, .wo, 0x0⟩, ⟨8, 1, .rw, 0x0⟩, ⟨7, 1, .rw, 0x1⟩, ⟨4, 2, .rw, 0x0⟩, ⟨1, 1, .rw, 0x0⟩]⟩,
  -- BEAT_STATUS: HOLD_COUNT, NUM_VALID, PTP_LOCK, SLEWING, STATE
  ⟨0x28004, [], .all, .md, .aon, [⟨16, 14, .ro, 0x0⟩, ⟨7, 1, .ro, 0x0⟩, ⟨6, 1, .ro, 0x0⟩, ⟨5, 1, .ro, 0x0⟩, ⟨0, 2, .ro, 0x0⟩]⟩,
  -- BEAT_EVENT: AMBIG, SLIP, GLITCH, JUMP, RETURN, LOST, LOSS, ACQUIRED
  ⟨0x28008, [], .all, .md, .aon, [⟨7, 1, .rw1c, 0x0⟩, ⟨6, 1, .rw1c, 0x0⟩, ⟨5, 1, .rw1c, 0x0⟩, ⟨4, 1, .rw1c, 0x0⟩, ⟨3, 1, .rw1c, 0x0⟩, ⟨2, 1, .rw1c, 0x0⟩, ⟨1, 1, .rw1c, 0x0⟩, ⟨0, 1, .rw1c, 0x0⟩]⟩,
  -- BEAT_COMP: DELAY
  ⟨0x2800C, [], .all, .md, .aon, [⟨0, 15, .rw, 0x0⟩]⟩,
  -- BEAT_NUM_LO: NUM_LO
  ⟨0x28010, [], .all, .md, .aon, [⟨0, 32, .ro, 0x0⟩]⟩,
  -- BEAT_NUM_HI: NUM_HI
  ⟨0x28014, [], .all, .md, .aon, [⟨0, 32, .ro, 0x0⟩]⟩,
  -- BEAT_PHASE: PHASE
  ⟨0x28018, [], .all, .md, .aon, [⟨0, 16, .ro, 0x0⟩]⟩,
  -- BEAT_PERIOD: PERIOD
  ⟨0x2801C, [], .all, .md, .aon, [⟨0, 24, .ro, 0x27100⟩]⟩,
  -- BEAT_EPOCH_LO: EPOCH_LO
  ⟨0x28020, [], .all, .md, .aon, [⟨0, 32, .rw, 0x0⟩]⟩,
  -- BEAT_EPOCH_HI: EPOCH_HI
  ⟨0x28024, [], .all, .md, .aon, [⟨0, 16, .rw, 0x0⟩]⟩,
  -- BEAT_PTP: IP6, DOMAIN
  ⟨0x28028, [], .all, .md, .aon, [⟨16, 1, .rw, 0x0⟩, ⟨0, 8, .rw, 0x0⟩]⟩,
  -- BEAT_EDGE_OFS: OFS
  ⟨0x2802C, [], .all, .md, .aon, [⟨0, 32, .ro, 0x0⟩]⟩,
  -- BEAT_SLIP_DIFF: DIFF
  ⟨0x28030, [], .all, .md, .aon, [⟨0, 32, .ro, 0x0⟩]⟩,
  -- BEAT_HOLD_MAX: MAX
  ⟨0x28034, [], .all, .md, .aon, [⟨0, 14, .ro, 0x0⟩]⟩,
  -- BEAT_JUMP_LO: JUMP_LO
  ⟨0x28038, [], .all, .md, .aon, [⟨0, 32, .ro, 0x0⟩]⟩,
  -- BEAT_JUMP_HI: JUMP_HI
  ⟨0x2803C, [], .all, .md, .aon, [⟨0, 32, .ro, 0x0⟩]⟩]

/-- R338 Table THM-5 15_thermal_management.md. -/
def regsThm : List RegDesc := [
  -- THM_CTL: RESUME
  ⟨0x30000, [], .all, .md, .aon, [⟨0, 1, .wo, 0x0⟩]⟩,
  -- THM_STATUS: TRIP_SENSOR, SHUTDOWNS, TRIPPED, FAST, THROTTLING, STATE
  ⟨0x30004, [], .all, .md, .aon, [⟨24, 8, .ro, 0xFF⟩, ⟨16, 8, .ro, 0x0⟩, ⟨5, 1, .ro, 0x0⟩, ⟨4, 1, .ro, 0x0⟩, ⟨2, 1, .ro, 0x0⟩, ⟨0, 2, .ro, 0x0⟩]⟩,
  -- THM_EVENT: CFG_REFUSED, RESUME_REFUSED, TC1_LATE, SENSOR_FAIL, IMMEDIATE, TRIP, SHUTDOWN, THROTTLE, WARN, FAST_RISE
  ⟨0x30008, [], .all, .md, .aon, [⟨9, 1, .rw1c, 0x0⟩, ⟨8, 1, .rw1c, 0x0⟩, ⟨7, 1, .rw1c, 0x0⟩, ⟨6, 1, .rw1c, 0x0⟩, ⟨5, 1, .rw1c, 0x0⟩, ⟨4, 1, .rw1c, 0x0⟩, ⟨3, 1, .rw1c, 0x0⟩, ⟨2, 1, .rw1c, 0x0⟩, ⟨1, 1, .rw1c, 0x0⟩, ⟨0, 1, .rw1c, 0x0⟩]⟩,
  -- THM_LIMIT_WARN: HBM, DIE
  ⟨0x30010, [], .all, .md, .aon, [⟨8, 8, .rw, 0x55⟩, ⟨0, 8, .rw, 0x5F⟩]⟩,
  -- THM_LIMIT_THROTTLE: HBM, DIE
  ⟨0x30014, [], .all, .md, .aon, [⟨8, 8, .rw, 0x5A⟩, ⟨0, 8, .rw, 0x64⟩]⟩,
  -- THM_LIMIT_SHUTDOWN: HBM, DIE
  ⟨0x30018, [], .all, .md, .aon, [⟨8, 8, .rw, 0x5F⟩, ⟨0, 8, .rw, 0x6E⟩]⟩,
  -- THM_HYST: HBM, DIE
  ⟨0x3001C, [], .all, .md, .aon, [⟨4, 4, .rw, 0x3⟩, ⟨0, 4, .rw, 0x3⟩]⟩,
  -- THM_GAIN: G
  ⟨0x30020, [], .all, .md, .aon, [⟨0, 7, .rw, 0x19⟩]⟩,
  -- THM_STOP_BUDGET: BEATS
  ⟨0x30024, [], .all, .md, .aon, [⟨0, 16, .rw, 0x7D0⟩]⟩,
  -- THM_DEV_MAX: SENSOR, TEMP
  ⟨0x30030, [], .all, .md, .aon, [⟨16, 8, .ro, 0x0⟩, ⟨0, 16, .ro, 0x0⟩]⟩,
  -- THM_DOM_MAX: PEAK, NOW
  ⟨0x30040, [(0xD, 0x4)], .all, .md, .aon, [⟨16, 16, .ro, 0x0⟩, ⟨0, 16, .ro, 0x0⟩]⟩,
  -- THM_LEVEL: LEVEL
  ⟨0x30074, [], .all, .md, .aon, [⟨0, 26, .ro, 0x0⟩]⟩,
  -- THM_CLK_PCT: CD3, CD2, CD1, CD0
  ⟨0x30078, [], .all, .md, .aon, [⟨24, 8, .ro, 0x64⟩, ⟨16, 8, .ro, 0x64⟩, ⟨8, 8, .ro, 0x64⟩, ⟨0, 8, .ro, 0x64⟩]⟩,
  -- THM_TC1_LATE: COUNT
  ⟨0x3007C, [], .all, .md, .aon, [⟨0, 32, .ro, 0x0⟩]⟩,
  -- THM_SENSOR: FAIL, TEMP
  ⟨0x30100, [(0x78, 0x4)], .all, .md, .aon, [⟨31, 1, .ro, 0x0⟩, ⟨0, 16, .ro, 0x0⟩]⟩]

/-- R349 Table EVR-4 16_event_recorder_and_status_panel.md. -/
def regsEvr : List RegDesc := [
  -- EVR_STATUS: TRIP_MARK, PREV_UNCLEAN, WRITING
  ⟨0x40000, [], .pf0mmd, .md, .aon, [⟨2, 1, .ro, 0x0⟩, ⟨1, 1, .ro, 0x0⟩, ⟨0, 1, .ro, 0x0⟩]⟩,
  -- EVR_SEQ: SEQ
  ⟨0x40004, [], .pf0mmd, .md, .aon, [⟨0, 32, .ro, 0x0⟩]⟩,
  -- EVR_OLDEST: SEQ
  ⟨0x40008, [], .pf0mmd, .md, .aon, [⟨0, 32, .ro, 0x0⟩]⟩,
  -- EVR_EVENT: SLOT_BAD, DROPPED, WRITTEN
  ⟨0x4000C, [], .pf0mmd, .md, .aon, [⟨2, 1, .rw1c, 0x0⟩, ⟨1, 1, .rw1c, 0x0⟩, ⟨0, 1, .rw1c, 0x0⟩]⟩,
  -- EVR_CTL: FLUSH
  ⟨0x40010, [], .pf0mmd, .md, .aon, [⟨0, 1, .wo, 0x0⟩]⟩,
  -- EVR_WIN_BASE: BASE
  ⟨0x40014, [], .pf0mmd, .md, .aon, [⟨12, 8, .rw, 0x0⟩]⟩]

/-- R357 Table EVR-8 16_event_recorder_and_status_panel.md. -/
def regsPnl : List RegDesc := [
  -- PNL_CFG: MIN_GAP, SCLK_DIV, FULL, EN
  ⟨0x48000, [], .all, .md, .aon, [⟨16, 16, .rw, 0x3E8⟩, ⟨8, 8, .rw, 0x4⟩, ⟨1, 1, .rw, 0x0⟩, ⟨0, 1, .rw, 0x1⟩]⟩,
  -- PNL_STATUS: FAILED, NO_SCRIPT, OPEN, STEP
  ⟨0x48004, [], .all, .md, .aon, [⟨6, 1, .ro, 0x0⟩, ⟨5, 1, .ro, 0x1⟩, ⟨4, 1, .ro, 0x0⟩, ⟨0, 3, .ro, 0x0⟩]⟩,
  -- PNL_SEQ: SEQ
  ⟨0x48008, [], .all, .md, .aon, [⟨0, 32, .ro, 0x0⟩]⟩,
  -- PNL_EVENT: BAD_OP, ABORTED, TIMEOUT, DONE
  ⟨0x4800C, [], .all, .md, .aon, [⟨3, 1, .rw1c, 0x0⟩, ⟨2, 1, .rw1c, 0x0⟩, ⟨1, 1, .rw1c, 0x0⟩, ⟨0, 1, .rw1c, 0x0⟩]⟩,
  -- PNL_CTL: CLEAR_FAILED, UPDATE
  ⟨0x48010, [], .all, .md, .aon, [⟨1, 1, .wo, 0x0⟩, ⟨0, 1, .wo, 0x0⟩]⟩]

/-- R323 Table BIST-6 14_power_up_self_test_and_repair.md. -/
def regsBist : List RegDesc := [
  -- BIST_STATUS: LIST_FULL, DEEP, RESULT, STATE, DONE, RUN
  ⟨0x50000, [], .all, .md, .aon, [⟨31, 1, .ro, 0x0⟩, ⟨30, 1, .ro, 0x0⟩, ⟨24, 4, .ro, 0x0⟩, ⟨16, 2, .ro, 0x0⟩, ⟨8, 8, .ro, 0x0⟩, ⟨0, 8, .ro, 0x0⟩]⟩,
  -- BIST_GROUPS: SKIP, UNREP, FOUND
  ⟨0x50004, [], .all, .md, .aon, [⟨16, 8, .ro, 0x0⟩, ⟨8, 8, .ro, 0x0⟩, ⟨0, 8, .ro, 0x0⟩]⟩,
  -- BIST_TIME: MS
  ⟨0x50008, [], .all, .md, .aon, [⟨0, 16, .ro, 0x0⟩]⟩,
  -- BIST_PWR_MAX: WATTS
  ⟨0x5000C, [], .all, .md, .aon, [⟨0, 16, .ro, 0x0⟩]⟩,
  -- BIST_REPAIRS: NEW, LOADED
  ⟨0x50010, [], .all, .md, .aon, [⟨16, 16, .ro, 0x0⟩, ⟨0, 16, .ro, 0x0⟩]⟩,
  -- BIST_LOG_COUNT: COUNT
  ⟨0x50014, [], .all, .md, .aon, [⟨0, 16, .ro, 0x0⟩]⟩,
  -- BIST_LIST_USED: COUNT
  ⟨0x50018, [], .all, .md, .aon, [⟨0, 13, .ro, 0x0⟩]⟩,
  -- BIST_EVENT: UNREP, ABORTED
  ⟨0x5001C, [], .all, .md, .aon, [⟨1, 1, .rw1c, 0x0⟩, ⟨0, 1, .rw1c, 0x0⟩]⟩]

/-- R287 Table HNG-9 12_hangs_fencing_and_recovery.md. -/
def regsHng : List RegDesc := [
  -- HNG_CFG: AUTO, CC2_POLICY, DBG_EXEMPT, ENG_ESC
  ⟨0x60000, [], .all, .md, .aon, [⟨12, 1, .rw, 0x1⟩, ⟨8, 2, .rw, 0x0⟩, ⟨4, 1, .rw, 0x1⟩, ⟨0, 1, .rw, 0x1⟩]⟩,
  -- HNG_STATUS: AUTO_COUNT, ALIVE, DBG_HALT, ACTIVE_RMG, TAKEOVER, RECOVERING
  ⟨0x60004, [], .all, .md, .aon, [⟨14, 2, .ro, 0x0⟩, ⟨8, 4, .ro, 0x0⟩, ⟨5, 1, .ro, 0x0⟩, ⟨4, 1, .ro, 0x0⟩, ⟨3, 1, .ro, 0x0⟩, ⟨2, 1, .ro, 0x0⟩]⟩,
  -- HNG_EVENT: EVQ_FULL, CAP_DAMAGED, CAP_LOST, FENCE_OVERRUN, ESCALATED, ENG_STALL, AUTO_RECOVERY, TAKEOVER_DONE, HB_MISS
  ⟨0x60008, [], .all, .md, .aon, [⟨11, 1, .rw1c, 0x0⟩, ⟨10, 1, .rw1c, 0x0⟩, ⟨9, 1, .rw1c, 0x0⟩, ⟨8, 1, .rw1c, 0x0⟩, ⟨7, 1, .rw1c, 0x0⟩, ⟨6, 1, .rw1c, 0x0⟩, ⟨5, 1, .rw1c, 0x0⟩, ⟨4, 1, .rw1c, 0x0⟩, ⟨0, 4, .rw1c, 0x0⟩]⟩,
  -- HNG_HB: COUNT
  ⟨0x60010, [(0x4, 0x4)], .all, .md, .aon, [⟨0, 32, .ro, 0x0⟩]⟩,
  -- HNG_HB_DEADLINE: BEATS
  ⟨0x60020, [], .all, .md, .aon, [⟨0, 16, .rw, 0x1F4⟩]⟩,
  -- HNG_ENG_DEADLINE: REPEAT, BEATS
  ⟨0x60024, [], .all, .md, .aon, [⟨16, 16, .rw, 0x2710⟩, ⟨0, 16, .rw, 0x3E8⟩]⟩,
  -- HNG_FENCE_BUDGET: PHASE
  ⟨0x60028, [], .all, .md, .aon, [⟨0, 32, .rw, 0xA0000⟩]⟩,
  -- HNG_RMG_GEN: GEN
  ⟨0x60030, [], .all, .md, .aon, [⟨0, 32, .ro, 0x0⟩]⟩,
  -- HNG_RMG_EVQ: PENDING
  ⟨0x60034, [], .all, .md, .aon, [⟨0, 13, .ro, 0x0⟩]⟩,
  -- HNG_RMG_ACK: GEN
  ⟨0x60038, [], .all, .md, .aon, [⟨0, 32, .ro, 0x0⟩]⟩,
  -- RST_CTL: GO, DOMAIN, PART, ENGINE, REGION
  ⟨0x61000, [], .all, .resetControl, .aon, [⟨31, 1, .wo, 0x0⟩, ⟨16, 2, .wo, 0x0⟩, ⟨12, 2, .wo, 0x0⟩, ⟨8, 3, .wo, 0x0⟩, ⟨0, 3, .wo, 0x0⟩]⟩,
  -- RST_STATUS: BUSY, PHASE, PART, DOMAIN
  ⟨0x61004, [], .all, .md, .aon, [⟨31, 1, .ro, 0x0⟩, ⟨16, 4, .ro, 0x0⟩, ⟨12, 2, .ro, 0x0⟩, ⟨8, 2, .ro, 0x0⟩]⟩,
  -- RST_LAST: CAUSE, DOMAIN, PART, ENGINE
  ⟨0x61008, [], .all, .md, .aon, [⟨24, 8, .ro, 0x0⟩, ⟨16, 2, .ro, 0x0⟩, ⟨12, 2, .ro, 0x0⟩, ⟨8, 3, .ro, 0x0⟩]⟩,
  -- RST_ABSORBED: COUNT
  ⟨0x6100C, [], .all, .md, .aon, [⟨0, 32, .ro, 0x0⟩]⟩,
  -- RST_PART_COUNT: COUNT
  ⟨0x61010, [(0x4, 0x4)], .all, .md, .aon, [⟨0, 16, .ro, 0x0⟩]⟩,
  -- HNG_FENCE_STAT: LATE, LEFT
  ⟨0x61020, [(0x4, 0x4)], .all, .md, .aon, [⟨16, 16, .ro, 0x0⟩, ⟨0, 16, .ro, 0x0⟩]⟩,
  -- HNG_CAP_CFG: STATE_EN, SAMPLE_EN, WINDOW_KIB
  ⟨0x62000, [(0x4, 0x10)], .partition, .md, .aon, [⟨31, 1, .rw, 0x1⟩, ⟨30, 1, .rw, 0x1⟩, ⟨16, 7, .rw, 0x0⟩]⟩,
  -- HNG_CAP_WIN: OFS
  ⟨0x62004, [(0x4, 0x10)], .partition, .md, .aon, [⟨6, 13, .rw, 0x0⟩]⟩,
  -- HNG_CAP_STATUS: COPIED, DAMAGED, LOST, BUF
  ⟨0x62008, [(0x4, 0x10)], .partition, .md, .aon, [⟨8, 8, .ro, 0x0⟩, ⟨2, 1, .ro, 0x0⟩, ⟨1, 1, .ro, 0x0⟩, ⟨0, 1, .ro, 0x0⟩]⟩,
  -- HNG_CAP_SEQ: SEQ
  ⟨0x6200C, [(0x4, 0x10)], .partition, .md, .aon, [⟨0, 32, .ro, 0x0⟩]⟩]

/-- R262 Table JOB-6 11_job_faults_checkpoint_restart.md. -/
def regsJob : List RegDesc := [
  -- JOB_ID: VALID, JOB
  ⟨0x68000, [(0x4, 0x1000), (0x10, 0x100)], .partition, .partition, .aon, [⟨31, 1, .ro, 0x0⟩, ⟨0, 16, .ro, 0x0⟩]⟩,
  -- JOB_STATE: FAULT_COUNT, CK_LOCK, CLEAN_SET, NEWEST_VALID, NEWEST_B, QUIET, STATE
  ⟨0x68004, [(0x4, 0x1000), (0x10, 0x100)], .partition, .partition, .aon, [⟨8, 8, .ro, 0x0⟩, ⟨7, 1, .ro, 0x0⟩, ⟨6, 1, .ro, 0x0⟩, ⟨5, 1, .ro, 0x0⟩, ⟨4, 1, .ro, 0x0⟩, ⟨3, 1, .ro, 0x0⟩, ⟨0, 2, .ro, 0x0⟩]⟩,
  -- JOB_FAULT_INFO: ORIGIN, CAUSE
  ⟨0x68008, [(0x4, 0x1000), (0x10, 0x100)], .partition, .partition, .aon, [⟨8, 19, .ro, 0x0⟩, ⟨0, 8, .ro, 0x0⟩]⟩,
  -- JOB_FAULT_SEQ: SEQ
  ⟨0x6800C, [(0x4, 0x1000), (0x10, 0x100)], .partition, .partition, .aon, [⟨0, 32, .ro, 0x0⟩]⟩,
  -- JOB_FAULT_BEAT_LO: NUM
  ⟨0x68010, [(0x4, 0x1000), (0x10, 0x100)], .partition, .partition, .aon, [⟨0, 32, .ro, 0x0⟩]⟩,
  -- JOB_FAULT_BEAT_HI: NUM
  ⟨0x68014, [(0x4, 0x1000), (0x10, 0x100)], .partition, .partition, .aon, [⟨0, 32, .ro, 0x0⟩]⟩,
  -- JOB_FAULT_PHASE: PHASE
  ⟨0x68018, [(0x4, 0x1000), (0x10, 0x100)], .partition, .partition, .aon, [⟨0, 16, .ro, 0x0⟩]⟩,
  -- JOB_FAULT_UNIT: UNIT
  ⟨0x6801C, [(0x4, 0x1000), (0x10, 0x100)], .partition, .partition, .aon, [⟨0, 32, .ro, 0x0⟩]⟩,
  -- JOB_CLEAN_LIMIT_LO: STEP
  ⟨0x68020, [(0x4, 0x1000), (0x10, 0x100)], .partition, .partition, .aon, [⟨0, 32, .ro, 0xFFFFFFFF⟩]⟩,
  -- JOB_CLEAN_LIMIT_HI: STEP
  ⟨0x68024, [(0x4, 0x1000), (0x10, 0x100)], .partition, .partition, .aon, [⟨0, 32, .ro, 0xFFFFFFFF⟩]⟩,
  -- JOB_CK_BASE_LO: BASE
  ⟨0x68030, [(0x4, 0x1000), (0x10, 0x100)], .partition, .partition, .aon, [⟨12, 20, .rwl, 0x0⟩]⟩,
  -- JOB_CK_BASE_HI: BASE
  ⟨0x68034, [(0x4, 0x1000), (0x10, 0x100)], .partition, .partition, .aon, [⟨0, 32, .rwl, 0x0⟩]⟩,
  -- JOB_CK_SIZE: MIB
  ⟨0x68038, [(0x4, 0x1000), (0x10, 0x100)], .partition, .partition, .aon, [⟨0, 16, .rwl, 0x0⟩]⟩,
  -- JOB_MEMBERS_LO: ADDR
  ⟨0x68040, [(0x4, 0x1000), (0x10, 0x100)], .partition, .partition, .aon, [⟨2, 30, .rwl, 0x0⟩]⟩,
  -- JOB_MEMBERS_HI: ADDR
  ⟨0x68044, [(0x4, 0x1000), (0x10, 0x100)], .partition, .partition, .aon, [⟨0, 32, .rwl, 0x0⟩]⟩,
  -- JOB_SEAL_CFG: TIMEOUT
  ⟨0x68048, [(0x4, 0x1000), (0x10, 0x100)], .partition, .partition, .aon, [⟨0, 16, .rw, 0x64⟩]⟩,
  -- JOB_SEAL_EVENT: TIMEOUT, FAILED, SEALED
  ⟨0x6804C, [(0x4, 0x1000), (0x10, 0x100)], .partition, .partition, .aon, [⟨2, 1, .rw1c, 0x0⟩, ⟨1, 1, .rw1c, 0x0⟩, ⟨0, 1, .rw1c, 0x0⟩]⟩,
  -- JOB_SLOT_A: STATE
  ⟨0x68050, [(0x4, 0x1000), (0x10, 0x100)], .partition, .partition, .aon, [⟨0, 3, .ro, 0x0⟩]⟩,
  -- JOB_SLOT_A_STEP_LO: STEP
  ⟨0x68054, [(0x4, 0x1000), (0x10, 0x100)], .partition, .partition, .aon, [⟨0, 32, .ro, 0x0⟩]⟩,
  -- JOB_SLOT_A_STEP_HI: STEP
  ⟨0x68058, [(0x4, 0x1000), (0x10, 0x100)], .partition, .partition, .aon, [⟨0, 32, .ro, 0x0⟩]⟩,
  -- JOB_SLOT_B: STATE
  ⟨0x68060, [(0x4, 0x1000), (0x10, 0x100)], .partition, .partition, .aon, [⟨0, 3, .ro, 0x0⟩]⟩,
  -- JOB_SLOT_B_STEP_LO: STEP
  ⟨0x68064, [(0x4, 0x1000), (0x10, 0x100)], .partition, .partition, .aon, [⟨0, 32, .ro, 0x0⟩]⟩,
  -- JOB_SLOT_B_STEP_HI: STEP
  ⟨0x68068, [(0x4, 0x1000), (0x10, 0x100)], .partition, .partition, .aon, [⟨0, 32, .ro, 0x0⟩]⟩,
  -- JOB_RESTART_STEP_LO: STEP
  ⟨0x68070, [(0x4, 0x1000), (0x10, 0x100)], .partition, .partition, .aon, [⟨0, 32, .rw, 0x0⟩]⟩,
  -- JOB_RESTART_STEP_HI: STEP
  ⟨0x68074, [(0x4, 0x1000), (0x10, 0x100)], .partition, .partition, .aon, [⟨0, 32, .rw, 0x0⟩]⟩,
  -- JOB_RESTART_BEAT_LO: NUM
  ⟨0x68078, [(0x4, 0x1000), (0x10, 0x100)], .partition, .partition, .aon, [⟨0, 32, .rw, 0x0⟩]⟩,
  -- JOB_RESTART_BEAT_HI: NUM
  ⟨0x6807C, [(0x4, 0x1000), (0x10, 0x100)], .partition, .partition, .aon, [⟨0, 32, .rw, 0x0⟩]⟩,
  -- JOB_RESTART_CTL: GO, FORCE, COUNT, SLOT_B
  ⟨0x68080, [(0x4, 0x1000), (0x10, 0x100)], .partition, .partition, .aon, [⟨31, 1, .wo, 0x0⟩, ⟨16, 1, .rw, 0x0⟩, ⟨8, 8, .rw, 0x0⟩, ⟨0, 1, .rw, 0x0⟩]⟩,
  -- JOB_RESTART_RESULT: RESULT
  ⟨0x68084, [(0x4, 0x1000), (0x10, 0x100)], .partition, .partition, .aon, [⟨0, 8, .ro, 0x0⟩]⟩,
  -- JOB_RESTARTS: COUNT
  ⟨0x68088, [(0x4, 0x1000), (0x10, 0x100)], .partition, .partition, .aon, [⟨0, 32, .ro, 0x0⟩]⟩,
  -- JOB_CTL: DECLARE, RELEASE
  ⟨0x6808C, [(0x4, 0x1000), (0x10, 0x100)], .partition, .partition, .aon, [⟨1, 1, .wo, 0x0⟩, ⟨0, 1, .wo, 0x0⟩]⟩]

/-- R214 Table SCR-5 09_shadow_screening.md. -/
def regsScr : List RegDesc := [
  -- SCR_EVENT: LOG_WRAP, ARB_TIMEOUT, MISMATCH
  ⟨0x80000, [], .pf0md, .md, .dev, [⟨2, 1, .rw1c, 0x0⟩, ⟨1, 1, .rw1c, 0x0⟩, ⟨0, 1, .rw1c, 0x0⟩]⟩,
  -- SCR_SLOT_WAIT: BEATS
  ⟨0x80004, [], .pf0md, .md, .aon, [⟨0, 8, .rw, 0x2⟩]⟩,
  -- SCR_ARB_TIMEOUT: BEATS
  ⟨0x80008, [], .pf0md, .md, .aon, [⟨0, 8, .rw, 0x14⟩]⟩,
  -- SCR_LOG_PROD: SEQ
  ⟨0x8000C, [], .pf0md, .md, .aon, [⟨0, 16, .ro, 0x0⟩]⟩,
  -- SCR_LOG_CONS: SEQ
  ⟨0x80010, [], .pf0md, .md, .aon, [⟨0, 16, .rw, 0x0⟩]⟩,
  -- SCR_PART_CTL: STRIDE, VFRACTION, FRACTION
  ⟨0x80100, [(0x4, 0x40)], .partition, .md, .aon, [⟨16, 8, .rw, 0x1⟩, ⟨4, 3, .rw, 0x1⟩, ⟨0, 3, .rw, 0x2⟩]⟩,
  -- SCR_PART_STATUS: NO_PARTNER, SAME_DIE, STARVED
  ⟨0x80104, [(0x4, 0x40)], .partition, .md, .dev, [⟨2, 1, .rw1c, 0x0⟩, ⟨1, 1, .rw1c, 0x0⟩, ⟨0, 1, .rw1c, 0x0⟩]⟩,
  -- SCR_PART_WHEEL: S
  ⟨0x80108, [(0x4, 0x40)], .partition, .md, .dev, [⟨0, 32, .ro, 0x0⟩]⟩,
  -- SCR_PART_SELECTED: COUNT
  ⟨0x8010C, [(0x4, 0x40)], .partition, .md, .dev, [⟨0, 32, .ro, 0x0⟩]⟩,
  -- SCR_PART_MISMATCH: COUNT
  ⟨0x80110, [(0x4, 0x40)], .partition, .md, .dev, [⟨0, 32, .ro, 0x0⟩]⟩,
  -- SCR_PART_UNSCREENED: COUNT
  ⟨0x80114, [(0x4, 0x40)], .partition, .md, .dev, [⟨0, 32, .ro, 0x0⟩]⟩,
  -- SCR_PART_STARVED: COUNT
  ⟨0x80118, [(0x4, 0x40)], .partition, .md, .dev, [⟨0, 32, .ro, 0x0⟩]⟩]

/-- R243 Table QTN-10 10_quarantine_spares_and_fleet.md. -/
def regsQtn : List RegDesc := [
  -- QTN_EPOCH: EPOCH
  ⟨0x88000, [], .all, .none, .aon, [⟨0, 32, .ro, 0x0⟩]⟩,
  -- QTN_EVENT: MAP_LOST, PACK_REJECT, CHURN_DONE, SPARES_OUT, DISAGREE, CHANGE
  ⟨0x88004, [], .all, .md, .aon, [⟨5, 1, .rw1c, 0x0⟩, ⟨4, 1, .rw1c, 0x0⟩, ⟨3, 1, .rw1c, 0x0⟩, ⟨2, 1, .rw1c, 0x0⟩, ⟨1, 1, .rw1c, 0x0⟩, ⟨0, 1, .rw1c, 0x0⟩]⟩,
  -- QTN_SPARES: CD3, CD2, CD1, CD0
  ⟨0x88008, [], .all, .none, .aon, [⟨24, 8, .ro, 0x0⟩, ⟨16, 8, .ro, 0x0⟩, ⟨8, 8, .ro, 0x0⟩, ⟨0, 8, .ro, 0x0⟩]⟩,
  -- QTN_CFG: FAULT_ON_REDUCED
  ⟨0x8800C, [], .all, .md, .aon, [⟨0, 1, .rw, 0x1⟩]⟩,
  -- QTN_DISAGREE_COUNT: COUNT
  ⟨0x88010, [], .all, .none, .aon, [⟨0, 32, .ro, 0x0⟩]⟩,
  -- QTN_CHURN_STATUS: ABORTED, LAST_PASS, PROGRESS, DIES, FULL, STATE
  ⟨0x88014, [], .all, .none, .aon, [⟨31, 1, .ro, 0x0⟩, ⟨30, 1, .ro, 0x0⟩, ⟨16, 8, .ro, 0x0⟩, ⟨8, 4, .ro, 0x0⟩, ⟨2, 1, .ro, 0x0⟩, ⟨0, 2, .ro, 0x0⟩]⟩,
  -- QTN_CHURN_FAILS: COUNT
  ⟨0x88018, [], .all, .none, .aon, [⟨0, 16, .ro, 0x0⟩]⟩,
  -- QTN_PACK_ID: ID
  ⟨0x8801C, [], .all, .none, .aon, [⟨0, 32, .ro, 0x0⟩]⟩,
  -- QTN_PACK_VERSION: VERSION
  ⟨0x88020, [], .all, .none, .aon, [⟨0, 32, .ro, 0x0⟩]⟩,
  -- QTN_PACK_STATUS: CANDIDATE, KEY_ID, VALID
  ⟨0x88024, [], .all, .none, .aon, [⟨4, 1, .ro, 0x0⟩, ⟨2, 2, .ro, 0x0⟩, ⟨0, 1, .ro, 0x0⟩]⟩,
  -- QTN_WSF_SEQ: SEQ
  ⟨0x88028, [], .all, .none, .aon, [⟨0, 32, .ro, 0x0⟩]⟩,
  -- QTN_CMD_LAST: CODE, RESULT
  ⟨0x8802C, [], .all, .none, .aon, [⟨16, 16, .ro, 0x0⟩, ⟨0, 8, .ro, 0x0⟩]⟩]

/-- R435 Table TRC-4 19_trace_counters_and_debug.md. -/
def regsTrc : List RegDesc := [
  -- TRC_DRAIN_SRC: OFS
  ⟨0xA0100, [(0x4, 0x400)], .partition, .partition, .dev, [⟨0, 28, .rw, 0x0⟩]⟩,
  -- TRC_DRAIN_DST_LO: ADDR
  ⟨0xA0104, [(0x4, 0x400)], .partition, .partition, .dev, [⟨6, 26, .rw, 0x0⟩]⟩,
  -- TRC_DRAIN_DST_HI: ADDR
  ⟨0xA0108, [(0x4, 0x400)], .partition, .partition, .dev, [⟨0, 32, .rw, 0x0⟩]⟩,
  -- TRC_DRAIN_LEN: LEN
  ⟨0xA010C, [(0x4, 0x400)], .partition, .partition, .dev, [⟨0, 28, .rw, 0x0⟩]⟩,
  -- TRC_DRAIN_CTL: GO
  ⟨0xA0110, [(0x4, 0x400)], .partition, .partition, .dev, [⟨31, 1, .wo, 0x0⟩]⟩,
  -- TRC_DRAIN_STATUS: BUSY, RESULT
  ⟨0xA0114, [(0x4, 0x400)], .partition, .partition, .dev, [⟨31, 1, .ro, 0x0⟩, ⟨0, 8, .ro, 0x0⟩]⟩,
  -- TRC_WIN_BASE: BASE
  ⟨0xA0118, [(0x4, 0x400)], .partition, .partition, .dev, [⟨0, 22, .rw, 0x0⟩]⟩,
  -- TRC_CH_CTL: EN, MODE, WRAP, SRC
  ⟨0xA0140, [(0x4, 0x400), (0x8, 0x40)], .partition, .partition, .dev, [⟨31, 1, .rw, 0x0⟩, ⟨30, 1, .rwl, 0x0⟩, ⟨29, 1, .rwl, 0x0⟩, ⟨0, 13, .rwl, 0x0⟩]⟩,
  -- TRC_CH_FILTER: JOB, ANY_JOB, ROLE_MASK, TC_MASK
  ⟨0xA0144, [(0x4, 0x400), (0x8, 0x40)], .partition, .partition, .dev, [⟨16, 16, .rwl, 0x0⟩, ⟨15, 1, .rwl, 0x1⟩, ⟨8, 4, .rwl, 0xF⟩, ⟨0, 4, .rwl, 0xF⟩]⟩,
  -- TRC_CH_BASE: BASE
  ⟨0xA0148, [(0x4, 0x400), (0x8, 0x40)], .partition, .partition, .dev, [⟨0, 18, .rwl, 0x0⟩]⟩,
  -- TRC_CH_SIZE: SIZE
  ⟨0xA014C, [(0x4, 0x400), (0x8, 0x40)], .partition, .partition, .dev, [⟨0, 19, .rwl, 0x0⟩]⟩,
  -- TRC_CH_WPTR: INDEX
  ⟨0xA0150, [(0x4, 0x400), (0x8, 0x40)], .partition, .partition, .dev, [⟨0, 29, .ro, 0x0⟩]⟩,
  -- TRC_CH_STATUS: CFG_ERR, WRAPPED, FULL, STOPPED
  ⟨0xA0154, [(0x4, 0x400), (0x8, 0x40)], .partition, .partition, .dev, [⟨3, 1, .rw1c, 0x0⟩, ⟨2, 1, .ro, 0x0⟩, ⟨1, 1, .ro, 0x0⟩, ⟨0, 1, .ro, 0x0⟩]⟩,
  -- TRC_CH_LOST: COUNT
  ⟨0xA0158, [(0x4, 0x400), (0x8, 0x40)], .partition, .partition, .dev, [⟨0, 32, .ro, 0x0⟩]⟩,
  -- TRC_CH_BEAT_HI: HI
  ⟨0xA015C, [(0x4, 0x400), (0x8, 0x40)], .partition, .partition, .dev, [⟨0, 16, .ro, 0x0⟩]⟩]

/-- R435 Table TRC-4 19_trace_counters_and_debug.md. -/
def regsCnt : List RegDesc := [
  -- CNT_CTL: CLEAR, FREEZE
  ⟨0xA8000, [], .anyPfMd, .anyPfMd, .dev, [⟨4, 4, .wo, 0x0⟩, ⟨0, 4, .rw, 0x0⟩]⟩,
  -- CNT_SAMPLE_CFG: EN, MODE, DIES, CHANNEL, PART, PERIOD
  ⟨0xA8004, [], .anyPfMd, .anyPfMd, .dev, [⟨31, 1, .rw, 0x0⟩, ⟨30, 1, .rw, 0x0⟩, ⟨24, 4, .rw, 0x0⟩, ⟨20, 3, .rw, 0x0⟩, ⟨18, 2, .rw, 0x0⟩, ⟨0, 16, .rw, 0x64⟩]⟩,
  -- CNT_SAMPLE_MARK_LO: NUM
  ⟨0xA8008, [], .anyPfMd, .anyPfMd, .dev, [⟨0, 32, .rw, 0x0⟩]⟩,
  -- CNT_SAMPLE_MARK_HI: NUM
  ⟨0xA800C, [], .anyPfMd, .anyPfMd, .dev, [⟨0, 32, .rw, 0x0⟩]⟩,
  -- CNT_EVENT: SAMPLE_LOST
  ⟨0xA8010, [], .anyPfMd, .anyPfMd, .dev, [⟨0, 1, .rw1c, 0x0⟩]⟩,
  -- CNT_ES_CTL: JOB, ANY_JOB, ROLE_MASK
  ⟨0xA9000, [(0x4, 0x400)], .die, .die, .dev, [⟨16, 16, .rw, 0x0⟩, ⟨15, 1, .rw, 0x1⟩, ⟨8, 4, .rw, 0xF⟩]⟩,
  -- CNT_ES_OVF_LO: OVF
  ⟨0xA9004, [(0x4, 0x400)], .die, .die, .dev, [⟨0, 32, .rw1c, 0x0⟩]⟩,
  -- CNT_ES_OVF_HI: OVF
  ⟨0xA9008, [(0x4, 0x400)], .die, .die, .dev, [⟨0, 32, .rw1c, 0x0⟩]⟩,
  -- CNT_ES_SEL: E3, E2, E1, E0
  ⟨0xA9040, [(0x4, 0x400), (0x10, 0x4)], .die, .die, .dev, [⟨24, 8, .rw, 0x0⟩, ⟨16, 8, .rw, 0x0⟩, ⟨8, 8, .rw, 0x0⟩, ⟨0, 8, .rw, 0x0⟩]⟩,
  -- CNT_ES_LO: COUNT
  ⟨0xA9100, [(0x4, 0x400), (0x40, 0x8)], .die, .die, .dev, [⟨0, 32, .ro, 0x0⟩]⟩,
  -- CNT_ES_HI: COUNT
  ⟨0xA9104, [(0x4, 0x400), (0x40, 0x8)], .die, .die, .dev, [⟨0, 16, .ro, 0x0⟩]⟩]

/-- R436 Table TRC-6 19_trace_counters_and_debug.md. -/
def regsDbg : List RegDesc := [
  -- DBG_STATUS: LEVEL, FAILS, LOCKOUT, DISABLED
  ⟨0xC0000, [], .all, .debugBlock, .aon, [⟨16, 2, .ro, 0x0⟩, ⟨8, 4, .ro, 0x0⟩, ⟨4, 1, .ro, 0x0⟩, ⟨3, 1, .ro, 0x0⟩]⟩,
  -- DBG_CTL: LOCK, PEEK, HALT, RESUME
  ⟨0xC0004, [], .all, .debugBlock, .aon, [⟨31, 1, .wo, 0x0⟩, ⟨8, 1, .rw, 0x1⟩, ⟨4, 4, .wo, 0x0⟩, ⟨0, 4, .wo, 0x0⟩]⟩,
  -- DBG_CFG: DISABLE
  ⟨0xC0008, [], .all, .debugBlock, .aon, [⟨0, 1, .rw, 0x0⟩]⟩,
  -- DBG_CHAL: NONCE
  ⟨0xC0010, [(0x4, 0x4)], .all, .debugBlock, .aon, [⟨0, 32, .ro, 0x0⟩]⟩,
  -- DBG_SCOPE: LEVEL
  ⟨0xC0020, [], .all, .debugBlock, .aon, [⟨0, 2, .rw, 0x0⟩]⟩,
  -- DBG_RESP: R
  ⟨0xC0030, [(0x4, 0x4)], .all, .debugBlock, .aon, [⟨0, 32, .wo, 0x0⟩]⟩,
  -- DBG_EVENT: LOCK_BROKEN, HALT_DEFERRED, UNLOCK_FAIL, UNLOCKED
  ⟨0xC0040, [], .all, .debugBlock, .aon, [⟨3, 1, .rw1c, 0x0⟩, ⟨2, 1, .rw1c, 0x0⟩, ⟨1, 1, .rw1c, 0x0⟩, ⟨0, 1, .rw1c, 0x0⟩]⟩,
  -- DBG_CORE: DEFERRING, HALTED
  ⟨0xC0044, [], .all, .debugBlock, .aon, [⟨8, 4, .ro, 0x0⟩, ⟨0, 4, .ro, 0x0⟩]⟩,
  -- DBG_BROKEN: KIND, CORE
  ⟨0xC0048, [], .all, .debugBlock, .aon, [⟨8, 4, .ro, 0x0⟩, ⟨0, 4, .ro, 0x0⟩]⟩]

/-- R111 Table ENG-6 05_engines_queues_and_command_lists.md; R68 Table TAG-7 03_tags_classes_and_admission.md. -/
def regsQue : List RegDesc := [
  -- QUE_CTL: DEV_ENQ, EN
  ⟨0x100000, [(0x40, 0x1000)], .queue, .queue, .part, [⟨1, 1, .rwl, 0x0⟩, ⟨0, 1, .rw, 0x0⟩]⟩,
  -- QUE_STATUS: RUNNING, CONS_BAD, DB_IGNORED, DB_BAD, CPL_DROP, CPL_STALL, CFG_ERR, FENCED, STATE
  ⟨0x100004, [(0x40, 0x1000)], .queue, .queue, .part, [⟨16, 8, .ro, 0x0⟩, ⟨8, 1, .rw1c, 0x0⟩, ⟨7, 1, .rw1c, 0x0⟩, ⟨6, 1, .rw1c, 0x0⟩, ⟨5, 1, .rw1c, 0x0⟩, ⟨4, 1, .ro, 0x0⟩, ⟨3, 1, .rw1c, 0x0⟩, ⟨2, 1, .ro, 0x0⟩, ⟨0, 2, .ro, 0x0⟩]⟩,
  -- QUE_BIND: JOB
  ⟨0x100008, [(0x40, 0x1000)], .queue, .queue, .part, [⟨0, 16, .rwl, 0x0⟩]⟩,
  -- QUE_RING_BASE_LO: BASE
  ⟨0x100010, [(0x40, 0x1000)], .queue, .queue, .part, [⟨6, 26, .rwl, 0x0⟩]⟩,
  -- QUE_RING_BASE_HI: BASE
  ⟨0x100014, [(0x40, 0x1000)], .queue, .queue, .part, [⟨0, 32, .rwl, 0x0⟩]⟩,
  -- QUE_RING_SIZE: LOG2
  ⟨0x100018, [(0x40, 0x1000)], .queue, .queue, .part, [⟨0, 5, .rwl, 0x8⟩]⟩,
  -- QUE_DOORBELL: TAIL
  ⟨0x100020, [(0x40, 0x1000)], .queue, .queue, .part, [⟨0, 17, .wo, 0x0⟩]⟩,
  -- QUE_TAIL: TAIL
  ⟨0x100024, [(0x40, 0x1000)], .queue, .queue, .part, [⟨0, 17, .ro, 0x0⟩]⟩,
  -- QUE_HEAD: HEAD
  ⟨0x100028, [(0x40, 0x1000)], .queue, .queue, .part, [⟨0, 17, .ro, 0x0⟩]⟩,
  -- QUE_CPL_BASE_LO: BASE
  ⟨0x100030, [(0x40, 0x1000)], .queue, .queue, .part, [⟨6, 26, .rwl, 0x0⟩]⟩,
  -- QUE_CPL_BASE_HI: BASE
  ⟨0x100034, [(0x40, 0x1000)], .queue, .queue, .part, [⟨0, 32, .rwl, 0x0⟩]⟩,
  -- QUE_CPL_SIZE: LOG2
  ⟨0x100038, [(0x40, 0x1000)], .queue, .queue, .part, [⟨0, 5, .rwl, 0x9⟩]⟩,
  -- QUE_CPL_CONS: INDEX
  ⟨0x10003C, [(0x40, 0x1000)], .queue, .queue, .part, [⟨0, 17, .rw, 0x0⟩]⟩,
  -- QUE_CPL_PROD: INDEX
  ⟨0x100040, [(0x40, 0x1000)], .queue, .queue, .part, [⟨0, 17, .ro, 0x0⟩]⟩,
  -- QUE_IRQ_CFG: EN, COUNT, VECTOR
  ⟨0x100048, [(0x40, 0x1000)], .queue, .queue, .part, [⟨31, 1, .rw, 0x0⟩, ⟨16, 8, .rw, 0x1⟩, ⟨0, 11, .rw, 0x0⟩]⟩,
  -- QUE_IRQ_TIMEOUT: BEATS
  ⟨0x10004C, [(0x40, 0x1000)], .queue, .queue, .part, [⟨0, 16, .rw, 0x0⟩]⟩,
  -- QUE_LAST_ERR: DETAIL, DESC_STATUS
  ⟨0x100050, [(0x40, 0x1000)], .queue, .queue, .part, [⟨16, 16, .ro, 0x0⟩, ⟨0, 16, .ro, 0x0⟩]⟩,
  -- QUE_ADM_CFG: HARD, WEIGHT, CLASS
  ⟨0x100100, [(0x40, 0x1000)], .queue, .queue, .part, [⟨16, 1, .rw, 0x0⟩, ⟨8, 8, .rw, 0x1⟩, ⟨0, 2, .rw, 0x2⟩]⟩,
  -- QUE_ADM_QUOTA: CREDITS
  ⟨0x100104, [(0x40, 0x1000)], .queue, .queue, .part, [⟨0, 24, .rw, 0x0⟩]⟩,
  -- QUE_ADM_WINDOW: BEATS
  ⟨0x100108, [(0x40, 0x1000)], .queue, .queue, .part, [⟨0, 16, .rw, 0x64⟩]⟩,
  -- QUE_ADM_CREDIT: LEFT
  ⟨0x10010C, [(0x40, 0x1000)], .queue, .queue, .part, [⟨0, 24, .ro, 0x0⟩]⟩,
  -- QUE_ADM_DEFERRED: COUNT
  ⟨0x100110, [(0x40, 0x1000)], .queue, .queue, .part, [⟨0, 32, .ro, 0x0⟩]⟩,
  -- QUE_ADM_REFUSED: COUNT, LAST
  ⟨0x100114, [(0x40, 0x1000)], .queue, .queue, .part, [⟨8, 24, .ro, 0x0⟩, ⟨0, 8, .ro, 0x0⟩]⟩,
  -- QUE_ADM_CTL: CLR_REF, CLR_DEF
  ⟨0x100118, [(0x40, 0x1000)], .queue, .queue, .part, [⟨1, 1, .wo, 0x0⟩, ⟨0, 1, .wo, 0x0⟩]⟩]

/-- R166 Table MEM-6 07_memory_and_addressing.md. -/
def regsHbm : List RegDesc := [
  -- HBM_STATUS: REMAP_USED, DEGRADED, TRAINED
  ⟨0x300000, [(0x8, 0x10000)], .stack, .pf0md, .dev, [⟨8, 8, .ro, 0x0⟩, ⟨1, 1, .ro, 0x0⟩, ⟨0, 1, .ro, 0x0⟩]⟩,
  -- HBM_EVENT: REMAP_FULL, RETIRE, HOLE, UE, CE
  ⟨0x300004, [(0x8, 0x10000)], .stack, .pf0md, .dev, [⟨4, 1, .rw1c, 0x0⟩, ⟨3, 1, .rw1c, 0x0⟩, ⟨2, 1, .rw1c, 0x0⟩, ⟨1, 1, .rw1c, 0x0⟩, ⟨0, 1, .rw1c, 0x0⟩]⟩,
  -- HBM_CE_TOTAL: COUNT
  ⟨0x300008, [(0x8, 0x10000)], .stack, .pf0md, .dev, [⟨0, 32, .ro, 0x0⟩]⟩,
  -- HBM_UE_TOTAL: COUNT
  ⟨0x30000C, [(0x8, 0x10000)], .stack, .pf0md, .dev, [⟨0, 32, .ro, 0x0⟩]⟩,
  -- HBM_UE_ADDR_LO: ADDR
  ⟨0x300010, [(0x8, 0x10000)], .stack, .pf0md, .dev, [⟨0, 32, .ro, 0x0⟩]⟩,
  -- HBM_UE_ADDR_HI: ADDR
  ⟨0x300014, [(0x8, 0x10000)], .stack, .pf0md, .dev, [⟨0, 32, .ro, 0x0⟩]⟩,
  -- HBM_UE_LOC: SCRUB, REGION, BANK, CH
  ⟨0x300018, [(0x8, 0x10000)], .stack, .pf0md, .dev, [⟨13, 1, .ro, 0x0⟩, ⟨12, 1, .ro, 0x0⟩, ⟨6, 6, .ro, 0x0⟩, ⟨0, 6, .ro, 0x0⟩]⟩,
  -- HBM_UE_ROW: ROW
  ⟨0x30001C, [(0x8, 0x10000)], .stack, .pf0md, .dev, [⟨0, 18, .ro, 0x0⟩]⟩,
  -- HBM_RETIRE_CFG: CE_THRESH
  ⟨0x300020, [(0x8, 0x10000)], .stack, .pf0md, .dev, [⟨0, 8, .rw, 0x8⟩]⟩,
  -- HBM_SCRUB_CFG: EN, INTERVAL
  ⟨0x300024, [(0x8, 0x10000)], .stack, .pf0md, .dev, [⟨31, 1, .rw, 0x1⟩, ⟨0, 16, .rw, 0x8⟩]⟩,
  -- HBM_SCRUB_PASS: COUNT
  ⟨0x300028, [(0x8, 0x10000)], .stack, .pf0md, .dev, [⟨0, 32, .ro, 0x0⟩]⟩,
  -- HBM_CE_CH: COUNT
  ⟨0x300100, [(0x8, 0x10000), (0x40, 0x4)], .stack, .pf0md, .dev, [⟨0, 16, .ro, 0x0⟩]⟩,
  -- HBM_PART_LIMIT: GRANULES
  ⟨0x300200, [(0x8, 0x10000)], .stack, .pf0md, .dev, [⟨0, 27, .ro, 0x0⟩]⟩,
  -- HBM_PART_CAPTURE: BASE
  ⟨0x300204, [(0x8, 0x10000)], .stack, .pf0md, .dev, [⟨0, 27, .ro, 0x0⟩]⟩,
  -- HBM_PART_TRACE: BASE
  ⟨0x300208, [(0x8, 0x10000)], .stack, .pf0md, .dev, [⟨0, 27, .ro, 0x0⟩]⟩,
  -- HBM_PART_CHANNELS: P
  ⟨0x30020C, [(0x8, 0x10000)], .stack, .pf0md, .dev, [⟨0, 10, .ro, 0x0⟩]⟩,
  -- HBM_RSV_NEXT: TRACE_64M
  ⟨0x300210, [(0x8, 0x10000)], .stack, .md, .aon, [⟨0, 9, .rw, 0x10⟩]⟩]

/-- Table LNK-10, R195 08_links_host_fabric_management.md. -/
def regsFabp : List RegDesc := [
  -- FAB_PORT_CFG: MEDIA, MODE, EN
  ⟨0x400000, [(0x10, 0x10000)], .port, .mmd, .dev, [⟨3, 1, .rwl, 0x0⟩, ⟨1, 2, .rwl, 0x0⟩, ⟨0, 1, .rw, 0x0⟩]⟩,
  -- FAB_PORT_STATUS: LANE_Q, UP
  ⟨0x400004, [(0x10, 0x10000)], .port, .mmd, .dev, [⟨4, 8, .ro, 0x0⟩, ⟨0, 4, .ro, 0x0⟩]⟩,
  -- FAB_PORT_EVENT: LANE_FAULT, FEC_UNCORR, LINK_DOWN
  ⟨0x400008, [(0x10, 0x10000)], .port, .mmd, .dev, [⟨2, 1, .rw1c, 0x0⟩, ⟨1, 1, .rw1c, 0x0⟩, ⟨0, 1, .rw1c, 0x0⟩]⟩,
  -- FAB_FEC_CORR: COUNT
  ⟨0x40000C, [(0x10, 0x10000)], .port, .mmd, .dev, [⟨0, 32, .ro, 0x0⟩]⟩,
  -- FAB_FEC_UNCORR: COUNT
  ⟨0x400010, [(0x10, 0x10000)], .port, .mmd, .dev, [⟨0, 32, .ro, 0x0⟩]⟩,
  -- FAB_PORT_GW_LO: MAC
  ⟨0x400018, [(0x10, 0x10000)], .port, .mmd, .dev, [⟨0, 32, .rw, 0x0⟩]⟩,
  -- FAB_PORT_GW_HI: MAC
  ⟨0x40001C, [(0x10, 0x10000)], .port, .mmd, .dev, [⟨0, 16, .rw, 0x0⟩]⟩,
  -- FAB_PORT_PEER: VALID, ID
  ⟨0x400020, [(0x10, 0x10000), (0x4, 0x4)], .port, .mmd, .dev, [⟨31, 1, .rw, 0x0⟩, ⟨0, 17, .rw, 0x0⟩]⟩]

/-- Table LNK-10, R195 08_links_host_fabric_management.md. -/
def regsFab : List RegDesc := [
  -- FAB_DEV_ID: VALID, ID
  ⟨0x408000, [], .pf0md, .mmd, .aon, [⟨31, 1, .rw, 0x0⟩, ⟨0, 17, .rwl, 0x0⟩]⟩,
  -- FAB_KFT_CFG: IP6, UDP, UDP_PORT
  ⟨0x408004, [], .pf0md, .mmd, .dev, [⟨17, 1, .rw, 0x0⟩, ⟨16, 1, .rw, 0x0⟩, ⟨0, 16, .rw, 0xC0F8⟩]⟩,
  -- FAB_KFT_RTO: RETRY, BEATS
  ⟨0x408008, [], .pf0md, .mmd, .dev, [⟨16, 4, .rw, 0x7⟩, ⟨0, 16, .rw, 0xA⟩]⟩,
  -- FAB_KFT_IDLE: BEATS
  ⟨0x40800C, [], .pf0md, .mmd, .dev, [⟨0, 16, .rw, 0x2710⟩]⟩,
  -- FAB_ECN: THRESH
  ⟨0x408010, [], .pf0md, .mmd, .dev, [⟨0, 16, .rw, 0x100⟩]⟩,
  -- FAB_JF_CFG: HOPS
  ⟨0x408014, [], .pf0md, .mmd, .dev, [⟨0, 5, .rw, 0xC⟩]⟩,
  -- FAB_BEAT_ANN: EN
  ⟨0x408018, [], .pf0md, .mmd, .dev, [⟨0, 1, .rw, 0x1⟩]⟩,
  -- FAB_ROUTE_IDX: DEV
  ⟨0x40801C, [], .pf0md, .mmd, .dev, [⟨0, 17, .rw, 0x0⟩]⟩,
  -- FAB_ROUTE_DATA: MASK
  ⟨0x408020, [], .pf0md, .mmd, .dev, [⟨0, 16, .rw, 0x0⟩]⟩,
  -- FAB_IP4_PREFIX: PREFIX
  ⟨0x408024, [], .pf0md, .mmd, .dev, [⟨0, 32, .rw, 0x0⟩]⟩,
  -- FAB_IP6_PREFIX_LO: PREFIX
  ⟨0x408028, [], .pf0md, .mmd, .dev, [⟨0, 32, .rw, 0x0⟩]⟩,
  -- FAB_IP6_PREFIX_HI: PREFIX
  ⟨0x40802C, [], .pf0md, .mmd, .dev, [⟨0, 32, .rw, 0x0⟩]⟩,
  -- FAB_RX_REJECT: JOB, FENCED, ABSENT, TAG
  ⟨0x408030, [], .pf0md, .mmd, .dev, [⟨24, 8, .ro, 0x0⟩, ⟨16, 8, .ro, 0x0⟩, ⟨8, 8, .ro, 0x0⟩, ⟨0, 8, .ro, 0x0⟩]⟩,
  -- FAB_TX_REJECTED: COUNT
  ⟨0x408034, [], .pf0md, .mmd, .dev, [⟨0, 32, .ro, 0x0⟩]⟩,
  -- FAB_CONN_FAIL: COUNT
  ⟨0x408038, [], .pf0md, .mmd, .dev, [⟨0, 32, .ro, 0x0⟩]⟩,
  -- FAB_CONN_WAIT: COUNT
  ⟨0x40803C, [], .pf0md, .mmd, .dev, [⟨0, 32, .ro, 0x0⟩]⟩,
  -- FAB_RX_CRC: COUNT
  ⟨0x408040, [], .pf0md, .mmd, .dev, [⟨0, 32, .ro, 0x0⟩]⟩,
  -- FAB_CONN_USED: COUNT
  ⟨0x408044, [], .pf0md, .mmd, .dev, [⟨0, 16, .ro, 0x0⟩]⟩,
  -- FAB_EVENT: JF_SEEN, CONN_FAIL, BEAT_DISAGREE
  ⟨0x408048, [], .pf0md, .mmd, .dev, [⟨2, 1, .rw1c, 0x0⟩, ⟨1, 1, .rw1c, 0x0⟩, ⟨0, 1, .rw1c, 0x0⟩]⟩,
  -- FAB_BEAT_PEER: SUBPORT
  ⟨0x40804C, [], .pf0md, .mmd, .dev, [⟨0, 6, .ro, 0x0⟩]⟩]

/-- Table LNK-2, R172 08_links_host_fabric_management.md. -/
def regsHif : List RegDesc := [
  -- HIF_STATUS: WIDTH, RATE, UP
  ⟨0x500000, [(0x4, 0x1000)], .fn, .fn, .dev, [⟨4, 4, .ro, 0x0⟩, ⟨1, 3, .ro, 0x0⟩, ⟨0, 1, .ro, 0x0⟩]⟩,
  -- HIF_EVENT: DEGRADED, MSI_LOST, FLR, LINK_DOWN, POSTED_DROP
  ⟨0x500004, [(0x4, 0x1000)], .fn, .fn, .dev, [⟨4, 1, .rw1c, 0x0⟩, ⟨3, 1, .rw1c, 0x0⟩, ⟨2, 1, .rw1c, 0x0⟩, ⟨1, 1, .rw1c, 0x0⟩, ⟨0, 1, .rw1c, 0x0⟩]⟩,
  -- HIF_POSTED_DROP: COUNT
  ⟨0x500008, [(0x4, 0x1000)], .fn, .fn, .dev, [⟨0, 32, .ro, 0x0⟩]⟩,
  -- HIF_CFG: BAR2_TC
  ⟨0x50000C, [(0x4, 0x1000)], .fn, .fn, .dev, [⟨0, 2, .rw, 0x2⟩]⟩,
  -- HIF_EVT_CFG: EN, VECTOR
  ⟨0x500010, [(0x4, 0x1000)], .fn, .fn, .dev, [⟨31, 1, .rw, 0x0⟩, ⟨0, 11, .rw, 0x0⟩]⟩]

/-- Table LNK-10, R195 08_links_host_fabric_management.md. -/
def regsMgt : List RegDesc := [
  -- MGT_NET_CFG: PORT, SLAAC, IP6, DHCP4
  ⟨0x580000, [], .all, .mmd, .aon, [⟨16, 16, .rw, 0xC0F9⟩, ⟨2, 1, .rw, 0x0⟩, ⟨1, 1, .rw, 0x0⟩, ⟨0, 1, .rw, 0x1⟩]⟩,
  -- MGT_IP4: ADDR
  ⟨0x580004, [], .all, .mmd, .aon, [⟨0, 32, .rw, 0x0⟩]⟩,
  -- MGT_IP6: ADDR
  ⟨0x580010, [(0x4, 0x4)], .all, .mmd, .aon, [⟨0, 32, .rw, 0x0⟩]⟩,
  -- MGT_COLLECTOR: ADDR
  ⟨0x580020, [], .all, .mmd, .aon, [⟨0, 32, .rw, 0x0⟩]⟩,
  -- MGT_COLLECTOR6: ADDR
  ⟨0x580030, [(0x4, 0x4)], .all, .mmd, .aon, [⟨0, 32, .rw, 0x0⟩]⟩,
  -- MGT_COL_PORT: PORT
  ⟨0x580040, [], .all, .mmd, .aon, [⟨0, 16, .rw, 0xC0F9⟩]⟩,
  -- MGT_KEY_CFG: FUSED, ACTIVE
  ⟨0x580044, [], .all, .mmd, .aon, [⟨8, 8, .ro, 0x0⟩, ⟨0, 8, .rw, 0x1⟩]⟩,
  -- MGT_RPT_CFG: RETRY
  ⟨0x580048, [], .all, .mmd, .aon, [⟨0, 16, .rw, 0x2710⟩]⟩,
  -- MGT_RPT_PENDING: COUNT
  ⟨0x58004C, [], .all, .mmd, .aon, [⟨0, 32, .ro, 0x0⟩]⟩,
  -- MGT_RPT_DROP: COUNT
  ⟨0x580050, [], .all, .mmd, .aon, [⟨0, 32, .ro, 0x0⟩]⟩,
  -- MGT_RX_REJECT: COUNT
  ⟨0x580054, [], .all, .mmd, .aon, [⟨0, 32, .ro, 0x0⟩]⟩]

/-- R413 Table MED-8 18_media_engine.md. -/
def regsMed : List RegDesc := [
  -- MED_STATUS: OPEN, READY
  ⟨0x600000, [], .all, .none, .dev, [⟨16, 9, .ro, 0x0⟩, ⟨0, 1, .ro, 0x0⟩]⟩,
  -- MED_EVENT: CFG_REFUSED, OPEN_REFUSED, HALTED, CONCEALED
  ⟨0x600004, [], .all, .anyPfMd, .dev, [⟨3, 1, .rw1c, 0x0⟩, ⟨2, 1, .rw1c, 0x0⟩, ⟨1, 1, .rw1c, 0x0⟩, ⟨0, 1, .rw1c, 0x0⟩]⟩,
  -- MED_DEC_PICS: COUNT
  ⟨0x600008, [], .all, .none, .dev, [⟨0, 32, .ro, 0x0⟩]⟩,
  -- MED_ENC_PICS: COUNT
  ⟨0x60000C, [], .all, .none, .dev, [⟨0, 32, .ro, 0x0⟩]⟩,
  -- MED_PART_CFG: SLOTS, SESS_COUNT, SESS_FIRST
  ⟨0x600040, [(0x4, 0x4)], .all, .md, .dev, [⟨24, 6, .rw, 0x0⟩, ⟨8, 9, .rw, 0x0⟩, ⟨0, 8, .rw, 0x0⟩]⟩,
  -- MED_SESS_DESC_LO: ADDR
  ⟨0x601000, [(0x100, 0x20)], .session, .session, .dev, [⟨6, 26, .rw, 0x0⟩]⟩,
  -- MED_SESS_DESC_HI: ADDR
  ⟨0x601004, [(0x100, 0x20)], .session, .session, .dev, [⟨0, 32, .rw, 0x0⟩]⟩,
  -- MED_SESS_CTL: FORCE_KEY, CLOSE, OPEN
  ⟨0x601008, [(0x100, 0x20)], .session, .session, .dev, [⟨2, 1, .wo, 0x0⟩, ⟨1, 1, .wo, 0x0⟩, ⟨0, 1, .wo, 0x0⟩]⟩,
  -- MED_SESS_STATUS: RESULT, BUSY, STATE
  ⟨0x60100C, [(0x100, 0x20)], .session, .session, .dev, [⟨8, 8, .ro, 0x0⟩, ⟨2, 1, .ro, 0x0⟩, ⟨0, 2, .ro, 0x0⟩]⟩,
  -- MED_SESS_REL_SEQ: SEQ
  ⟨0x601010, [(0x100, 0x20)], .session, .session, .dev, [⟨0, 32, .ro, 0x0⟩]⟩,
  -- MED_SESS_ERRORS: COUNT
  ⟨0x601014, [(0x100, 0x20)], .session, .session, .dev, [⟨0, 32, .ro, 0x0⟩]⟩,
  -- MED_SESS_PICS: COUNT
  ⟨0x601018, [(0x100, 0x20)], .session, .session, .dev, [⟨0, 32, .ro, 0x0⟩]⟩]

/-- R390 Table CLA-10 17_configurable_logic_array.md. -/
def regsCla : List RegDesc := [
  -- CLA_CTL: GO_LOCAL, RELEASE_DONE
  ⟨0x700000, [], .all, .md, .aon, [⟨1, 1, .wo, 0x0⟩, ⟨0, 1, .wo, 0x0⟩]⟩,
  -- CLA_STATUS: GO, DRIVING, LINE, LOADED, SRC, ERR, RUNNING
  ⟨0x700004, [], .all, .md, .aon, [⟨31, 1, .ro, 0x0⟩, ⟨30, 1, .ro, 0x0⟩, ⟨29, 1, .ro, 0x0⟩, ⟨28, 1, .ro, 0x0⟩, ⟨24, 2, .ro, 0x0⟩, ⟨16, 8, .ro, 0x0⟩, ⟨0, 8, .ro, 0x0⟩]⟩,
  -- CLA_EVENT: CFG_REFUSED, TGT_TIMEOUT, GO, FRAME_UE, DONE_TIMEOUT, BAD_CRC, STREAM_ERR, LOAD_DONE
  ⟨0x700008, [], .all, .md, .aon, [⟨7, 1, .rw1c, 0x0⟩, ⟨6, 1, .rw1c, 0x0⟩, ⟨5, 1, .rw1c, 0x0⟩, ⟨4, 1, .rw1c, 0x0⟩, ⟨3, 1, .rw1c, 0x0⟩, ⟨2, 1, .rw1c, 0x0⟩, ⟨1, 1, .rw1c, 0x0⟩, ⟨0, 1, .rw1c, 0x0⟩]⟩,
  -- CLA_DONE_TIMEOUT: BEATS
  ⟨0x70000C, [], .all, .md, .aon, [⟨0, 32, .rw, 0x186A0⟩]⟩,
  -- CLA_BUS_CFG: PRE_MS, REPEAT
  ⟨0x700010, [], .all, .md, .aon, [⟨16, 8, .rw, 0x1⟩, ⟨0, 8, .rw, 0x10⟩]⟩,
  -- CLA_ID: ID
  ⟨0x700014, [], .all, .md, .aon, [⟨0, 32, .ro, 0xCA10D10⟩]⟩,
  -- CLA_CFG_STAT: ERR, ID_OK, CHECK_OK, ARMED, SYNCED
  ⟨0x700018, [], .all, .md, .aon, [⟨8, 8, .ro, 0x0⟩, ⟨3, 1, .ro, 0x0⟩, ⟨2, 1, .ro, 0x0⟩, ⟨1, 1, .ro, 0x0⟩, ⟨0, 1, .ro, 0x0⟩]⟩,
  -- CLA_EXT_ADDR_LO: ADDR
  ⟨0x700020, [], .all, .claExt, .aon, [⟨0, 32, .rw, 0x0⟩]⟩,
  -- CLA_EXT_ADDR_HI: ADDR
  ⟨0x700024, [], .all, .claExt, .aon, [⟨0, 32, .rw, 0x0⟩]⟩,
  -- CLA_EXT_LEN: BYTES
  ⟨0x700028, [], .all, .claExt, .aon, [⟨0, 28, .rw, 0x0⟩]⟩,
  -- CLA_EXT_CTL: GO, PART, FULL, REGION
  ⟨0x70002C, [], .all, .claExt, .aon, [⟨31, 1, .wo, 0x0⟩, ⟨12, 2, .rw, 0x0⟩, ⟨8, 1, .rw, 0x0⟩, ⟨0, 3, .rw, 0x0⟩]⟩,
  -- CLA_EXT_STATUS: BUSY, RESULT
  ⟨0x700030, [], .all, .md, .aon, [⟨31, 1, .ro, 0x0⟩, ⟨0, 8, .ro, 0x0⟩]⟩,
  -- CLA_REGION: STATE, PART, HOLD
  ⟨0x700040, [(0x8, 0x4)], .all, .claRegion, .aon, [⟨16, 3, .ro, 0x0⟩, ⟨12, 2, .rw, 0x0⟩, ⟨0, 1, .rw, 0x0⟩]⟩,
  -- CLA_TAP_CFG: ISO_DROP, FAB_EN
  ⟨0x700060, [], .all, .md, .aon, [⟨16, 16, .rw, 0x0⟩, ⟨0, 16, .rw, 0x0⟩]⟩,
  -- CLA_NOC_CFG: JOB, PART, TC, EN
  ⟨0x700064, [], .all, .md, .aon, [⟨16, 16, .rw, 0x0⟩, ⟨12, 2, .rw, 0x0⟩, ⟨8, 2, .rw, 0x2⟩, ⟨0, 1, .rw, 0x0⟩]⟩,
  -- CLA_TAP_DROP: COUNT
  ⟨0x700068, [], .all, .md, .aon, [⟨0, 32, .ro, 0x0⟩]⟩,
  -- CLA_SCRUB: UE, CE
  ⟨0x70006C, [], .all, .md, .aon, [⟨16, 16, .ro, 0x0⟩, ⟨0, 16, .ro, 0x0⟩]⟩]

/-- R435 Table TRC-4 19_trace_counters_and_debug.md. -/
def regsCl : List RegDesc := [
  -- CNT_CL_CTL: JOB, ANY_JOB, SAMPLE, ROLE_MASK
  ⟨0x1000100, [(0x2A0, 0x4000)], .cluster, .cluster, .dev, [⟨16, 16, .rw, 0x0⟩, ⟨15, 1, .rw, 0x1⟩, ⟨14, 1, .rw, 0x0⟩, ⟨8, 4, .rw, 0xF⟩]⟩,
  -- CNT_CL_OVF: OVF
  ⟨0x1000104, [(0x2A0, 0x4000)], .cluster, .cluster, .dev, [⟨0, 8, .rw1c, 0x0⟩]⟩,
  -- CNT_CL_SEL: E3, E2, E1, E0
  ⟨0x1000108, [(0x2A0, 0x4000), (0x2, 0x4)], .cluster, .cluster, .dev, [⟨24, 8, .rw, 0x0⟩, ⟨16, 8, .rw, 0x0⟩, ⟨8, 8, .rw, 0x0⟩, ⟨0, 8, .rw, 0x0⟩]⟩,
  -- CNT_CL_LO: COUNT
  ⟨0x1000110, [(0x2A0, 0x4000), (0x8, 0x8)], .cluster, .cluster, .dev, [⟨0, 32, .ro, 0x0⟩]⟩,
  -- CNT_CL_HI: COUNT
  ⟨0x1000114, [(0x2A0, 0x4000), (0x8, 0x8)], .cluster, .cluster, .dev, [⟨0, 16, .ro, 0x0⟩]⟩]

/-- The blocks of Table PKG-12 with the register tables they hold, by first address. -/
def regBlocks : List (Nat × List RegDesc) := [
  (0x0, regsSys), 
  (0x10000, regsPwr), 
  (0x20000, regsClk), 
  (0x28000, regsBeat), 
  (0x30000, regsThm), 
  (0x40000, regsEvr), 
  (0x48000, regsPnl), 
  (0x50000, regsBist), 
  (0x60000, regsHng), 
  (0x68000, regsJob), 
  (0x80000, regsScr), 
  (0x88000, regsQtn), 
  (0xA0000, regsTrc), 
  (0xA8000, regsCnt), 
  (0xC0000, regsDbg), 
  (0x100000, regsQue), 
  (0x300000, regsHbm), 
  (0x400000, regsFabp), 
  (0x408000, regsFab), 
  (0x500000, regsHif), 
  (0x580000, regsMgt), 
  (0x600000, regsMed), 
  (0x700000, regsCla), 
  (0x1000000, regsCl)]

/-- The index values by which `off` bytes past an array's first register reach a register of it. -/
def indexOf : List (Nat × Nat) → Nat → Option (List Nat)
  | [], 0 => some []
  | [], _ + 1 => none
  | (n, stride) :: rest, off =>
    let i := Nat.min (n - 1) (off / stride)
    match indexOf rest (off - i * stride) with
    | some l => some (i :: l)
    | none => none

def RegDesc.index? (d : RegDesc) (addr : Nat) : Option (List Nat) :=
  if addr < d.base then none else indexOf d.dims (addr - d.base)

/-- The first description in `l` that holds the address, with its index values. -/
def findDesc : List RegDesc → Nat → Option (RegDesc × List Nat)
  | [], _ => none
  | d :: l, addr =>
    match d.index? addr with
    | some ix => some (d, ix)
    | none => findDesc l addr

/-- The register at a control-space address, if a table lists one there. Blocks stand by rising first address; the
windows of FAB port registers hold the FAB globals among them, so a block is asked before the one below it. -/
def findReg : List (Nat × List RegDesc) → Nat → Option (RegDesc × List Nat)
  | [], _ => none
  | (b, l) :: rest, addr =>
    if addr < b then none
    else match findReg rest addr with
      | some r => some r
      | none => findDesc l addr

def regAt (addr : Nat) : Option (RegDesc × List Nat) := findReg regBlocks addr

def resetOf (flds : List FldDesc) : Nat :=
  flds.foldl (fun v f => v + f.reset * 2 ^ f.lo) 0

/-- The value a register has at the reset its table names; 0 where the table states none (log entry 4). -/
def regDefault (addr : Nat) : Word32 :=
  match regAt addr with
  | some (d, _) => BitVec.ofNat 32 (resetOf d.flds)
  | none => 0

end Sys2Proof.Machine
end

