-- ==== Sys2Proof/Syntax.lean ====
section
/-!
DEFINITION. The commands of the KD1: one constructor of `Instr` per row of spec/opcode_table.json, in the table's
order, and the operand types they carry. The table gives its rows no bits and no fields; the operands are the ones the
rule of each row names (log entry 2).
-/
namespace Sys2Proof

abbrev Queue := Fin 64
abbrev Part := Fin 4
abbrev Die := Fin 4
abbrev Stack := Fin 8
abbrev Port := Fin 16
/-- A sub-port, port × 4 + sub-port as FAB_BEAT_PEER counts it (Table LNK-10). -/
abbrev SubPort := Fin 64
abbrev Entry := Fin 16
abbrev Region := Fin 8
abbrev Session := Fin 256
abbrev Core4 := Fin 4
abbrev Domain := Fin 12
abbrev Fn := Fin 4
abbrev Chan := Fin 8

/-- The access paths of control space (R7, R154, R432): a BAR0 view of a physical function, the management protocol,
the vendor-defined MCTP type, and the JTAG debug session. -/
inductive Path where
  | pf (f : Fn)
  | mgmt
  | mctp
  | debug
  deriving DecidableEq, Repr

/-- A list in a dispatch slot, named by its queue and the count of its descriptor (R97). -/
structure ListRef where
  queue : Queue
  desc : Nat
  deriving DecidableEq, Repr

/-- The two ports on which PTP is received (Table BEAT-2). -/
inductive PtpPort where
  /-- UDP over IPv4 or, with `ip6`, over IPv6. -/
  | management (ip6 : Bool)
  /-- IEEE 802.3, EtherType 0x88F7. -/
  | fp00
  deriving DecidableEq, Repr

/-- Source of a PTP message: the port it came on, its domain, and the master's identity. -/
structure PtpSource where
  port : PtpPort
  domain : Nat
  master : Word64
  deriving DecidableEq, Repr

/-- The data set of an Announce message that best master selection compares (Table BEAT-2). -/
structure PtpAnnounce where
  grandmaster : Word64
  priority1 : Nat
  clockClass : Nat
  accuracy : Nat
  variance : Nat
  priority2 : Nat
  stepsRemoved : Nat
  deriving DecidableEq, Repr

/-- Which register of a ring's configuration a write names (R96, R105). -/
inductive RingReg where
  | baseLo
  | baseHi
  | size
  deriving DecidableEq, Repr

/-- Where errors arise in a memory: a 64-byte line of a pseudo-channel by its number n (R455), or of a physical cluster's
scratchpad. -/
inductive MemLine where
  | hbm (h : Stack) (ch : Fin 64) (n : Nat)
  | scratch (u : Nat) (n : Nat)
  deriving DecidableEq, Repr

/-- Errors that have arisen in a line and that no read has met yet: how many symbols of its code word are wrong in HBM, how
many bits of a word in scratchpad (Table MEM-4). -/
structure EccEvent where
  line : MemLine
  errors : Nat
  deriving DecidableEq, Repr

/-- The arbiters of R55 and R58 but for fabric egress: an output of a NoC router, a die-link endpoint, a pseudo-channel of an
HBM controller. -/
inductive Arbiter where
  | router (n : Nat)
  | dieLink (n : Nat)
  | hbm (h : Stack) (ch : Fin 64)
  deriving DecidableEq, Repr

/-- A request that comes to an arbiter: its input there, its tag, its 64-byte flits or accesses, the deadline mark of its list in
phase units, and the NoC cycles it has waited at the head of its class queue. -/
structure ArbReq where
  input : Nat
  tag : Word64
  flits : Nat
  deadline : Nat
  waited : Nat
  deriving DecidableEq, Repr

/-- The header of a received KFT frame (Table LNK-5), the sub-port it arrived on, and whether its ICRC holds. -/
structure KftHdr where
  sub : SubPort
  icrcOk : Bool
  srcDev : Nat
  srcPart : Part
  cls : Nat
  dstDev : Nat
  dstPart : Part
  conn : Nat
  psn : Nat
  ackPsn : Nat
  tag : Word64
  ce : Bool
  ece : Bool
  poison : Bool
  retx : Bool
  red : Bool
  deriving DecidableEq, Repr

/-- A JOB_FAULT control message (Table LNK-7). -/
structure JobFaultMsg where
  cause : Nat
  job : Nat
  origin : Nat
  seq : Nat
  hops : Nat
  beat : Nat
  phase : Nat
  step16 : Nat
  unit : Nat
  deriving DecidableEq, Repr

/-- A BEAT_ANN control message (Table LNK-7). -/
structure BeatAnnMsg where
  state : Nat
  numValid : Bool
  sender : Nat
  beat : Nat
  phase : Nat
  epoch : Nat
  deriving DecidableEq, Repr

/-- An end of a UDP exchange on the management network (R191). -/
structure NetAddr where
  ip6 : Bool
  addr : Nat
  port : Nat
  deriving DecidableEq, Repr

/-- A received management message but for its TYPE and payload (Table LNK-8): the 802.1Q tag it came under, its addresses, its
header's fields and its MAC. -/
structure MgtHdr where
  vlan : Option Nat
  src : NetAddr
  dst : NetAddr
  seq : Nat
  serial : Word64
  key : Fin 8
  flags : Nat
  ackSeq : Nat
  session : Word64
  mac : List Byte
  deriving DecidableEq, Repr

/-- How a COMMAND comes (R242): in a message of the management protocol, or over the vendor-defined MCTP type. -/
inductive CmdVia where
  | mgmt (m : MgtHdr)
  | mctp
  deriving DecidableEq, Repr

/-- Frames of the management network that are no message of the management protocol (R191): ARP, ICMP echo, NDP and DHCPv4; any
other, TCP among them, is not supported. -/
inductive NetRx where
  | arpRequest (target sender : Nat)
  | echoRequest (ip6 : Bool) (dst src : Nat) (data : List Byte)
  | neighborSolicit (target sender : Nat)
  | routerAdvert (pre : Nat)
  | dhcpOffer (addr : Nat)
  | dhcpAck (addr : Nat)
  | other
  deriving DecidableEq, Repr

/-- Such a frame with its optional 802.1Q tag. -/
structure NetFrame where
  vlan : Option Nat
  rx : NetRx
  deriving DecidableEq, Repr

/-- What a vendor-defined MCTP write names (R196). -/
inductive MctpTarget where
  | reg (addr : Nat)
  | keySlot (slot : Fin 8) (key : List Byte)
  deriving DecidableEq, Repr

/-- MCTP control messages the model tells apart (R196): the bus owner's endpoint-ID assignment, its query, the versions of a message
type, the message types, the vendor-defined messages from a selector on, and every other control command code. -/
inductive MctpCtl where
  | setEid (eid : Nat)
  | getEid
  | versions (type : Nat)
  | messageTypes
  | vendorMessages (selector : Nat)
  | other (code : Nat)
  deriving DecidableEq, Repr

/-- SPDM requests (R167). -/
inductive SpdmReq where
  | getCertificate (slot : Nat)
  | getMeasurement (index : Nat)
  | other (code : Nat)
  deriving DecidableEq, Repr

/-- PLDM Type 2 requests (Table LNK-9): the PDR repository, one of its records, a numeric sensor, the state sensor. -/
inductive PldmMon where
  | repository
  | getPdr (handle : Nat)
  | readSensor (sensor : Nat)
  | readState
  deriving DecidableEq, Repr

/-- PLDM Type 5 steps (Table LNK-9): the identifiers and parameters of the device, an update begins, its component table, a transfer
begins, bytes arrive, the image is verified (whether its ECDSA P-384 signature holds is a fact of the image), and it is marked to
apply at the next device reset; activation, status, and the ends of a component's transfer and of the update. -/
inductive PldmFw where
  | identifiers
  | parameters
  | request
  | passTable (component : Nat)
  | begin (component : Nat)
  | data (offset : Nat) (bytes : List Byte)
  | verify (sigOk : Bool)
  | apply
  | activate
  | status
  | cancelComponent
  | cancel
  deriving DecidableEq, Repr

/-- How the host interface is reset (R169). -/
inductive LinkResetKind where
  | linkDown
  | hotReset
  | perst
  deriving DecidableEq, Repr

/-- The ending of a PCIe completion (R152). -/
inductive CplStatus where
  | sc
  | ur
  | ca
  deriving DecidableEq, Repr

/-- The reset domains (Table HNG-3). -/
inductive RDom where
  | engine (p : Part) (e : Fin 5)
  | part (p : Part)
  | device
  | cla (r : Region)
  deriving DecidableEq, Repr

/-- One regulator's readings in a PMBus round (R301). -/
structure PmbReading where
  entry : Fin 16
  acked : Bool
  fault : Bool
  voutMv : Nat
  ioutDa : Nat
  deriving DecidableEq, Repr

/-- What a memory check found (R157, R160, R387). -/
inductive EccOutcome where
  | clean
  | corrected
  | uncorrectable
  deriving DecidableEq, Repr

/-- A failing word of a self-test march (R310, R316): its row, its address and its failing bit. -/
structure FailWord where
  addr : Nat
  bank : Nat
  row : Nat
  bit : Nat
  deriving DecidableEq, Repr

/-- A structure found faulty by a self-test group (Table BIST-2, Table BIST-5): the structure code, its place among its kind, the
failing words a march reports, and whether every repaired row and column passes the retest. `logic` marks a failed
known-answer signature, which no spare can mend. -/
structure BistFinding where
  code : Nat
  inst : Nat
  logic : Bool
  words : List FailWord
  retestOk : Bool
  deriving DecidableEq, Repr

/-- The sources a CLA stream can come from (R375, R376, R378, R380). -/
inductive ClaSrc where
  | full
  | ext
  | icp
  deriving DecidableEq, Repr

/-- What a region does with a frame at a fabric tap (R363). -/
inductive RegionFrame where
  | pass
  | change (bytes : List Byte)
  | drop
  | originate (bytes : List Byte)
  deriving DecidableEq, Repr

/-- A request of user logic on the NoC initiator (R364): a read of `len` bytes, or a write. -/
inductive NocReq where
  | read (len : Nat)
  | write (bytes : List Byte)
  deriving DecidableEq, Repr

/-- Facts of one 16 × 16 luma block that the codec's process yields and the statistics surface reports (Table MED-6). -/
structure BlockFacts where
  mv0 : Nat
  mv1 : Nat
  ref0 : Nat
  ref1 : Nat
  intra : Bool
  skip : Bool
  concealed : Bool
  mv0Valid : Bool
  mv1Valid : Bool
  qp : Nat
  sad : Nat
  bits : Nat
  deriving DecidableEq, Repr

/-- A picture that the codec's process yields (R399, R401): its cropped size, its order value, its samples (luma rows,
then interleaved chroma rows, one value a sample; the chroma at full size in a JPEG 4:4:4 picture) and its block facts. -/
structure PicFacts where
  width : Nat
  height : Nat
  fullChroma : Bool
  order : Nat
  key : Bool
  generatedRef : Bool
  auBytes : Nat
  luma : List Nat
  chroma : List Nat
  blocks : List BlockFacts
  deriving DecidableEq, Repr

/-- What an instruction reads of its session's reference pool (offset and length) and writes there (offset and bytes): the layout
of a pool buffer inside its B bytes is the codec's (R395, R402). -/
structure PoolTraffic where
  reads : List (Nat × Nat)
  writes : List (Nat × List Byte)
  deriving DecidableEq, Repr

/-- How the decoding of an access unit ended (R399, R407, R408): the kind of access unit, the error met, if any, and
the pictures the codec's output process has made ready, in output order. -/
structure DecodeResult where
  randomAccess : Bool
  syntaxError : Bool
  missingRef : Bool
  beyond : Bool
  ready : List PicFacts
  pool : PoolTraffic
  deriving DecidableEq, Repr

/-- How the encoding of a picture ended (R411): the bytes of its bitstream, its block facts, the QP chosen under rate
control, and the source samples it read. -/
structure EncodeResult where
  bitstream : List Byte
  blocks : List BlockFacts
  qp : Nat
  order : Nat
  pool : PoolTraffic
  deriving DecidableEq, Repr

/-- The commands. -/
inductive Instr where
  -- The Beat (02_the_beat.md)
  /-- R32, R33: a rising edge of BEAT_REF at device time `t` (1/16 ns), PTP time `ptp` (ns). -/
  | beatRefEdge (t ptp : Nat)
  /-- R30, R47: an edge derived from SYS_OSC. -/
  | beatDerivedEdge (t ptp : Nat)
  /-- R42: the window closes at device time `t` without a qualified edge. -/
  | beatLoss (t : Nat)
  | beatLost
  | renum (path : Path)
  | beatCompWrite (path : Path) (v : Word32)
  | beatSourceChange (path : Path) (v : Word32)
  /-- R37: `ptp` is the PTP time of the qualified edge of this beat. -/
  | slipCheck (ptp : Nat)
  /-- R34: `diff` is the time at which the Sync came less the time at which it was sent, in ns. -/
  | ptpSyncRx (src : PtpSource) (intervalLog : Int) (twoStep : Bool) (diff : Int)
  | ptpFollowUpRx (src : PtpSource) (diff : Int)
  /-- R34: `delay` is the mean path delay that the exchange yields, in ns. -/
  | ptpDelayRespRx (src : PtpSource) (delay : Nat)
  | ptpAnnounceRx (src : PtpSource) (ann : PtpAnnounce)
  | loLatchRead (path : Path) (addr : Nat)
  | registerWrite (path : Path) (addr : Nat) (v : Word32)
  -- Queues and admission (03, 05)
  | doorbell (path : Path) (q : Queue) (v : Word32)
  | admissionCandidate (q : Queue)
  | schedulingRound (p : Part)
  | quotaWindowStart (q : Queue)
  /-- R57: `reqs` come to the arbiter, and `cycles` NoC cycles pass there. -/
  | agePromotion (arbiter : Arbiter) (reqs : List ArbReq) (cycles : Nat)
  | admCfgWrite (path : Path) (q : Queue) (v : Word32)
  | admQuotaWindowWrite (path : Path) (q : Queue) (window : Bool) (v : Word32)
  | admClearRefused (path : Path) (q : Queue)
  | admClearDeferred (path : Path) (q : Queue)
  | queueEnable (path : Path) (q : Queue) (v : Word32)
  | queueDisable (path : Path) (q : Queue) (v : Word32)
  | ringConfigWrite (path : Path) (q : Queue) (reg : RingReg) (v : Word32)
  | cplRingConfigWrite (path : Path) (q : Queue) (reg : RingReg) (v : Word32)
  | cplConsume (path : Path) (q : Queue) (v : Word32)
  | irqTimeout (q : Queue)
  | syncHiWrite (path : Path) (p : Part) (n : Fin 4096) (v : Word32)
  | syncLoWrite (path : Path) (p : Part) (n : Fin 4096) (v : Word32)
  -- Instructions of a command list (06): the list `l` executes the instruction it has fetched
  | nop (l : ListRef)
  | endList (l : ListRef)
  | setaddr (l : ListRef)
  | write (l : ListRef)
  | enqueue (l : ListRef)
  | signal (l : ListRef)
  | wait (l : ListRef)
  | rsignal (l : ListRef)
  | copy (l : ListRef)
  | convert (l : ListRef)
  | tap (l : ListRef)
  | mma (l : ListRef)
  | setshape (l : ListRef)
  | vew (l : ListRef)
  | vun (l : ListRef)
  | vred (l : ListRef)
  | allreduce (l : ListRef)
  | redscat (l : ListRef)
  | allgather (l : ListRef)
  | bcast (l : ListRef)
  | mdec (l : ListRef) (elements : List Byte)
  | menc (l : ListRef)
  | mflush (l : ListRef) (pics : List PicFacts) (pool : PoolTraffic)
  | ckbegin (l : ListRef)
  | ckwrite (l : ListRef)
  | ckdone (l : ListRef)
  | ckread (l : ListRef)
  | step (l : ListRef)
  | tmark (l : ListRef)
  | waitbeat (l : ListRef)
  | waitticks (l : ListRef)
  | setmark (l : ListRef)
  | stamp (l : ListRef)
  | waitbeatRelease (l : ListRef)
  | waitticksExpiry (l : ListRef)
  | collectiveMark (l : ListRef)
  /-- R112: tile `t` of the list's instruction finishes. `wrong` holds the bytes a miscomputing cluster produced in
  place of the right ones; `ecc` the errors that have arisen in the memories when the tile reads. -/
  | tileComplete (l : ListRef) (t : Nat) (wrong : Option (List Byte)) (ecc : List EccEvent)
  -- Screening (09)
  | wheelAdvance (p : Part)
  | shadowSlotWaitExpiry (d : Die)
  /-- R209: the shadow run of tile `t` ends; `wrong` and `ecc` as for TILE_COMPLETE. -/
  | shadowComplete (l : ListRef) (t : Nat) (wrong : Option (List Byte)) (ecc : List EccEvent)
  | arbiterComplete (l : ListRef) (t : Nat) (wrong : Option (List Byte)) (ecc : List EccEvent)
  | arbTimeout (l : ListRef) (t : Nat)
  -- Quarantine (10)
  | mapImageClosed
  | reconciliation
  | quarantine (via : CmdVia) (unit : Word32)
  | suspect (via : CmdVia) (unit : Word32)
  | reinstate (via : CmdVia) (unit : Word32) (epoch : Word32)
  | churnGrant (via : CmdVia) (level dies : Nat)
  | churnAbort (via : CmdVia)
  | churnKernelResult (unit : Word32) (kernel : Nat) (observed expected : Word64)
  | churnRunEnd
  | packBegin (via : CmdVia) (id version length : Nat)
  | packData (via : CmdVia) (offset : Nat) (bytes : List Byte)
  | packCommit (via : CmdVia)
  -- Job faults, checkpoints, restart (11)
  | jobFaultRx (sub : SubPort) (icrcOk : Bool) (m : JobFaultMsg)
  | jobFaultResend
  | jobQuiet (p : Part) (e : Entry)
  | jobDeclare (path : Path) (p : Part) (e : Entry)
  | jobRelease (path : Path) (p : Part) (e : Entry)
  | jobRestartArm (path : Path) (p : Part) (e : Entry) (v : Word32)
  | jobRestartMark (p : Part) (e : Entry)
  | sealMark (p : Part) (e : Entry) (slotB : Bool)
  | sealTimeout (p : Part) (e : Entry) (slotB : Bool)
  | agreeRx (h : KftHdr) (pos : Nat) (diff : Bool) (digest : Word64)
  | agreeResultRx (h : KftHdr) (result : Bool) (lowest : Nat)
  -- Links (08)
  | kftWriteRx (h : KftHdr) (addr : Nat) (bytes : List Byte)
  | kftReadReqRx (h : KftHdr) (addr len : Nat)
  | kftReadRespRx (h : KftHdr) (addr : Nat) (bytes : List Byte)
  | kftSignalRx (h : KftHdr) (sync : Fin 4096) (value : Word64)
  | kftSignalMaxRx (h : KftHdr) (sync : Fin 4096) (value : Word64)
  | kftEnqueueRx (h : KftHdr) (queue : Queue) (cookie : Word32) (clAddr : Word64)
  | kftCollRx (h : KftHdr) (level pos : Nat) (addr : Nat) (bytes : List Byte)
  | kftAckRx (h : KftHdr) (status : Option (Nat × Nat))
  | kftNackRx (h : KftHdr) (base : Nat) (bitmap : BitVec 256)
  | kftRto (conn psn : Nat)
  | connReqRx (h : KftHdr) (number : Nat)
  | connAckRx (h : KftHdr) (number : Nat)
  | connCloseRx (h : KftHdr) (number : Nat)
  | connRejectRx (h : KftHdr) (reason : Nat)
  | connIdleClose (conn : Nat)
  | fabricLinkUp (sub : SubPort)
  | fabricLinkDown (sub : SubPort)
  | laneFault (port : Port) (lane : Fin 8)
  | routeDataWrite (path : Path) (v : Word32)
  | beatAnnSend
  | beatAnnRx (sub : SubPort) (icrcOk : Bool) (m : BeatAnnMsg)
  | perstDeassert
  | pcieLinkReset (kind : LinkResetKind)
  | functionLevelReset (f : Fn)
  | bar2Read (f : Fn) (offset len : Nat)
  | bar2Write (f : Fn) (offset : Nat) (bytes : List Byte)
  | pcieCompletionRx (f : Fn) (addr : Nat) (status : CplStatus) (bytes : List Byte)
  | pcieCplTimeout (f : Fn) (addr len : Nat)
  | spdmRequest (r : SpdmReq)
  | mgtRead (m : MgtHdr) (offset count : Nat)
  | mgtWrite (m : MgtHdr) (offset : Nat) (v mask : Word32)
  | mgtAckRx (m : MgtHdr)
  | reportRetry
  | mctpControlMsg (c : MctpCtl)
  | mctpVendorRead (addr : Nat)
  | mctpVendorWrite (target : MctpTarget) (v : Word32)
  | pldmGetTid
  | pldmSetTid (tid : Nat)
  | pldmGetPldmVersion (type : Nat)
  | pldmGetPldmTypes
  | pldmGetPldmCommands (type : Nat)
  | pldmMonitoringRequest (r : PldmMon)
  | pldmFirmwareUpdate (r : PldmFw)
  | pldmUnsupported (type code : Nat)
  -- Hangs, fencing and recovery (12)
  | heartbeatWrite (core : Core4) (v : Word32)
  | heartbeatMiss (core : Core4)
  | takeoverComplete
  | takeoverOverdue
  | engineStall (p : Part) (e : Fin 5)
  | engineResetOverdue (p : Part) (e : Fin 5)
  | rmgSnapshot
  | rmgAckWrite (core : Core4) (gen : Word32)
  | rstEngine (path : Path) (v : Word32)
  | rstPartition (path : Path) (v : Word32)
  | rstDevice (path : Path) (v : Word32)
  | rstClaRegion (path : Path) (v : Word32)
  | fenceDrainEnd (d : RDom)
  | fenceAnswerOverrun (d : RDom)
  | captureComplete (d : RDom)
  | resetPhaseDone (d : RDom)
  | captureChunkSend (p : Part)
  -- Power and wake (13)
  | aonPowerUp (straps : BitVec 6)
  | aonResetPin (us : Nat) (straps : BitVec 6)
  | sysOscQualified
  | pllLock (d : Option Domain)
  | bootImageLoaded
  | pgoodRise (d : Domain)
  | pgoodLoss (d : Domain)
  | hbmTrainingDone (d : Domain)
  | serdesCalDone (d : Domain)
  | wakeStepTimeout (d : Option Domain)
  | wakeRetryOffEnd (d : Option Domain)
  | wakeGo (path : Path)
  | domainOn (path : Path) (v : Word32)
  | domainOff (path : Path) (v : Word32)
  | powerFailWarning
  | pmbusPoll (readings : List PmbReading)
  | vsetWrite (path : Path) (d : Die) (v : Word32)
  | voutSettled (d : Die) (mv : Nat)
  | powerLimiter (watts : Nat)
  | clockLimitWrite (path : Path) (v : Word32)
  | partCfgWrite (path : Path) (v : Word32)
  -- Memory (07)
  /-- R164: `errors` symbols of the line to be read have become wrong. -/
  | scrubRead (h : Stack) (ch : Fin 64) (errors : Nat)
  | rowRemapCopyDone (h : Stack) (ch : Fin 64) (bank row : Nat)
  -- Self-test (14)
  | bistGroupEnd (g : Fin 8) (findings : List BistFinding) (watts : Nat)
  | bistRepairPhaseEnd (ms : Nat)
  -- Thermal (15)
  | thermalSample (readings : List (Option Int)) (droopMv : Nat)
  | thermalTrip (sensor : Nat)
  | thermalResume (path : Path)
  | thresholdWrite (path : Path) (reg : Fin 3) (v : Word32)
  -- Event recorder and panel (16)
  | evrFlush (path : Path)
  | evrRecordWritten
  | panelUpdateStart
  | panelBusyRelease
  | panelDelayExpiry
  | panelBusyTimeout
  | panelUpdateNow (path : Path)
  | panelClearFailed (path : Path)
  | panelData (via : CmdVia) (offset : Nat) (bytes : List Byte)
  | panelCommit (via : CmdVia)
  -- Configurable Logic Array (17): `hdr` is the packet's header word, absent for a later action word of one packet
  | claSync (src : ClaSrc)
  | claIdle (src : ClaSrc) (hdr : Word32)
  | claFramePtr (src : ClaSrc) (hdr : Word32) (w : Word32)
  | claFrameData (src : ClaSrc) (hdr : Word32) (words : List Word32)
  | claScope (src : ClaSrc) (hdr : Word32) (w : Word32)
  | claDeviceId (src : ClaSrc) (hdr : Word32) (w : Word32)
  | claCheck (src : ClaSrc) (hdr : Word32) (words : List Word32)
  | claActionNone (src : ClaSrc) (hdr : Option Word32) (w : Word32)
  | claClearCheck (src : ClaSrc) (hdr : Option Word32)
  | claArm (src : ClaSrc) (hdr : Option Word32)
  | claCommit (src : ClaSrc) (hdr : Option Word32)
  | claEnd (src : ClaSrc) (hdr : Option Word32)
  | claStreamSourceEnd (src : ClaSrc)
  | claBusPassEnd (lineHigh : Bool)
  | claExtGo (path : Path) (v : Word32)
  | claIcpRelease (r : Region)
  | claRegionHold (path : Path) (r : Region)
  | claRegionUnhold (path : Path) (r : Region)
  | claRegionAssign (path : Path) (r : Region) (p : Part)
  | cfgDoneHigh
  | claDoneTimeout
  | goLocal (path : Path)
  | releaseDone (path : Path)
  | claFrameScan (outcome : EccOutcome)
  | claTargetAccess (path : Path) (offset : Nat) (wr : Option Word32) (answer : Word32)
  | claTargetTimeout (path : Path) (offset : Nat) (wr : Option Word32)
  -- Media Engine (18)
  | mediaSessionOpen (path : Path) (n : Session)
  | mediaSessionClose (path : Path) (n : Session)
  | mediaForceKey (path : Path) (n : Session)
  | mediaPartConfig (path : Path) (p : Part) (v : Word32)
  | mediaDecodeComplete (l : ListRef) (r : DecodeResult)
  | mediaEncodeComplete (l : ListRef) (r : EncodeResult)
  -- Trace, counters and debug (19)
  | traceChannelEnable (path : Path) (p : Part) (c : Chan) (v : Word32)
  | traceChannelDisable (path : Path) (p : Part) (c : Chan) (v : Word32)
  | traceChannelStopped (p : Part) (c : Chan)
  | traceDrain (path : Path) (p : Part)
  | traceDrainDone (p : Part)
  | counterClear (path : Path) (v : Word32)
  | counterSample
  | debugChallenge (v : Word32)
  | debugResponse (w : Word32)
  | debugLock (path : Path)
  | jtagTestLogicReset
  | debugHalt (v : Word32)
  | debugDeferredHalt (core : Core4)
  | haltLockBreak (core : Core4)
  | debugResume (v : Word32)
  | debugRead (offset : Nat)
  | debugWrite (offset : Nat) (v : Word32)
  | debugForcedRead (offset : Nat)
  | jtagIdcode
  | jtagSamplePreload (pins : Nat)
  | jtagExtest
  | jtagExtestPulse
  | jtagExtestTrain
  | jtagClamp
  | jtagHighz
  | jtagBypass (code : BitVec 8)
  /-- R28: `ecc` holds the errors that have arisen in the memories since the tick before (R156), `net` the frames of the management
  network that have come since (R191). -/
  | beatTick (ecc : List EccEvent) (net : List NetFrame)
  | aonPowerLoss
  | pcieLinkUp (width : Nat) (rate : Nat)
  | claNocInitiatorRequest (addr : Word64) (r : NocReq)
  | claTapData (r : Region) (accepted : Nat) (offered : List Byte)
  | claRegionFrame (port : Port) (egress : Bool) (act : RegionFrame)
  deriving DecidableEq, Repr

end Sys2Proof
end

