-- ==== Sys2Proof/Machine/State.lean ====
section
/-!
DEFINITION. The state of the KD1: every register of control space, and every piece of state beyond its registers that
the spec gives the device, grouped by chapter; the reasons a step can stop; the state after reset.
-/
namespace Sys2Proof.Machine

/-- A sparse map: pairs of a key and a value, keys strictly rising, no value equal to what an unlisted key reads as. -/
abbrev SMap (α : Type) := List (Nat × α)

/-- A beat mark (R26). -/
structure Mark where
  num : Nat
  phase : Nat
  deriving DecidableEq, Repr

/-- The shape a SETSHAPE loads (Table INS-5); pitches in 64-byte units. -/
structure Shape where
  m : Nat
  n : Nat
  k : Nat
  pitchA : Nat
  pitchB : Nat
  pitchC : Nat
  deriving DecidableEq, Repr

/-- The level at which the device holds an output pin: tri-stated, low or high. -/
inductive PinLevel where
  | tri
  | low
  | high
  deriving DecidableEq, Repr

/-- The Beat Unit's state beyond its registers (R26–R47, 02_the_beat.md). Times of edges are in 1/16 ns. -/
structure BeatSt where
  /-- The beat number, 64 bits (R26). -/
  num : Nat
  /-- The beat phase, 16 bits (R26). -/
  phase : Nat
  /-- Beat ticks counted since AON power-up: the base of every elapsed count (R28). -/
  ticks : Nat
  /-- The interpolator's position inside the current tick, 16 bits (R28). -/
  interp : Nat
  /-- The last edge on the selected source (R33). -/
  lastEdge : Option Nat
  /-- Edges of the run in progress (R33). -/
  run : Nat
  /-- The first edge of the run in progress (R33). -/
  runFirst : Nat
  /-- The predicted time of the next edge while LOCKED (R32). -/
  pred : Nat
  /-- The periods ended by the last qualified edges, newest first, at most 256 (R42, BEAT_PERIOD). -/
  periods : List Nat
  /-- PTP residuals of the last compensated edges in ns, newest first, at most 256 (R39, BEAT_EDGE_OFS). -/
  residuals : List Int
  /-- The phase correction that remains, in phase units (R41). -/
  slew : Int
  /-- What the current beat tick still has to apply of a correction, taken out of `slew` (R41). -/
  share : Int
  /-- The delay last applied (R40). -/
  delayInForce : Nat
  /-- A RENUM waits for the next qualified edge (R43). -/
  renum : Bool
  /-- Consecutive Sync messages with a filtered offset within ±1 µs (R34). -/
  ptpRun : Nat
  /-- The master that best master selection chose (R34). -/
  ptpMaster : Option (PtpSource × PtpAnnounce)
  /-- A two-step Sync that waits for its Follow_Up (R34). -/
  ptpAwait : Option PtpSource
  /-- The beat tick of the last Announce of that master (R34). -/
  ptpHeard : Nat
  /-- A Delay_Req has gone to the master and no Delay_Resp has come (R34). -/
  ptpAsked : Bool
  /-- The mean path delay of the last Delay_Resp, ns (R34). -/
  ptpDelay : Nat
  /-- The servo's filtered offset after the last Sync, ns (R34). -/
  ptpOffset : Int
  /-- The level of the BEAT_OUT pin (R31). -/
  pin : PinLevel
  deriving DecidableEq, Repr

def BeatSt.reset : BeatSt :=
  { num := 0, phase := 0, ticks := 0, interp := 0, lastEdge := none, run := 0, runFirst := 0, pred := 0, periods := [],
    residuals := [], slew := 0, share := 0, delayInForce := 0, renum := false, ptpRun := 0, ptpMaster := none, ptpAwait := none,
    ptpHeard := 0, ptpAsked := false, ptpDelay := 0, ptpOffset := 0, pin := .tri }

/-- What a queue holds beyond its registers (R60–R69, R95–R107). -/
structure QueueSt where
  /-- CREDITS and WINDOW in force (R69). -/
  credits : Nat
  window : Nat
  /-- The next window start, a beat number (R63). -/
  winNext : Nat
  /-- The count of the next descriptor to become a candidate (R100). -/
  cand : Nat
  /-- Counts of descriptors that ended before an earlier one (R100). -/
  ended : List Nat
  /-- Records written and not consumed (R106). -/
  used : Nat
  /-- Record slots that admitted lists have reserved (R103). -/
  reserved : Nat
  /-- The pass through the completion ring is an even one: OWN is 0 (R104). -/
  ownLow : Bool
  /-- Records since the last message, while QUE_IRQ_CFG.EN is 1 (R107). -/
  irqCount : Nat
  /-- The tick of the first record not yet signalled (R107). -/
  irqSince : Option Nat
  /-- The candidate is held for quota (R63), and has been counted deferred when first held (R65). -/
  held : Bool
  /-- Descriptors of the queue whose reading waits: refused from this count up as work of a faulted job (R249). -/
  discardTo : Option Nat
  deriving DecidableEq, Repr

def QueueSt.reset : QueueSt :=
  { credits := 0, window := 100, winNext := 0, cand := 0, ended := [], used := 0, reserved := 0, ownLow := false,
    irqCount := 0, irqSince := none, held := false, discardTo := none }

/-- A validated command-list header with its descriptor (Tables ENG-2, ENG-3). -/
structure Header where
  engine : Nat
  job : Nat
  irq : Bool
  serial : Bool
  instrs : Nat
  tiles : Nat
  dies : Nat
  lcFirst : Nat
  lcCount : Nat
  deadline : Mark
  runBound : Nat
  clAddr : Nat
  cookie : Nat
  deriving DecidableEq, Repr

/-- Bytes to be stored at an address, poisoned or not. -/
structure Piece where
  addr : Nat
  bytes : List Byte
  poison : Bool
  deriving DecidableEq, Repr

/-- One selected tile whose output the cluster holds until it is compared (R203–R211). -/
structure HeldTile where
  tile : Nat
  vector : Bool
  tag : Word64
  /-- Physical index of the primary's cluster, its die × 168 + cluster. -/
  primary : Nat
  shadowDie : Nat
  shadowHost : Option Nat
  /-- The stores of the output, once the primary has finished. -/
  output : Option (List Piece)
  sigP : Option Word64
  sigS : Option Word64
  arbHost : Option Nat
  sameDie : Bool
  /-- It is its watched cluster's first selected tile in the wheel step (R206). -/
  first : Bool
  /-- Its shadow has been lost and no die can take it: it commits uncompared. -/
  lone : Bool
  /-- The tick of the mismatch, once the signatures have differed. -/
  mismatch : Option Nat
  wheel : Nat
  step : Nat
  deriving DecidableEq, Repr

/-- The agreement exchange of a collective or of a seal (R137, R190, R254). -/
structure Agree where
  pos : Nat
  members : List (Nat × Nat)
  digest : Word64
  /-- Bits [63:12] of its tag (R190). -/
  key : Nat
  /-- What the member itself votes: DIFF. -/
  diff : Bool
  /-- The AGREE has gone to the parent, or position 0 has decided. -/
  sent : Bool
  deriving DecidableEq, Repr

/-- A collective in progress (R136–R139). -/
structure Coll where
  agree : Agree
  /-- The members agree. -/
  agreed : Bool
  marked : Option Mark
  /-- The contribution has been sent. -/
  sent : Bool
  deriving DecidableEq, Repr

/-- A received piece of a contribution (R186): tile, tree level, position, byte offset, and FP32 or INT32 bytes; poisoned
or not. -/
structure CollSeg where
  level : Nat
  pos : Nat
  off : Nat
  bytes : List Byte
  poison : Bool
  deriving DecidableEq, Repr

/-- What a list's current instruction is doing. -/
inductive Work where
  /-- Fetched and not yet executed, or waiting for its fetch. -/
  | ready
  /-- Issued its tiles. -/
  | tiles
  | waitSync (sync value : Nat)
  | waitBeat (m : Mark)
  | waitTicks (tick : Nat)
  /-- Waits for acknowledgements over KFT only. -/
  | remote
  | coll (c : Coll)
  /-- A TAP on a Move Engine tap, with the bytes that have passed (R361). -/
  | tap (k moved : Nat)
  /-- A CKDONE that waits for the CKWRITEs to its slot (R141): SLOT_B and the seal mark. -/
  | closing (slotB : Bool) (m : Mark)
  /-- A media instruction, its session. -/
  | media (session : Nat)
  deriving DecidableEq, Repr

/-- How a list ends when its instruction is complete or aborted: its STATUS and DETAIL (Table TAG-6). -/
structure Ending where
  status : Nat
  detail : Nat
  deriving DecidableEq, Repr

/-- An admitted list: it waits for a slot, or runs in one (R60, R92, R113). -/
structure RunList where
  queue : Nat
  desc : Nat
  hdr : Header
  running : Bool
  /-- Address, shape and mark slots (R113). -/
  as' : List Nat
  sh : List (Option Shape)
  ms : List Mark
  step : Option Nat
  idx : Nat
  word : Option Word128
  work : Work
  /-- Tiles of the current instruction: issued, and those finished. -/
  total : Nat
  done : List Nat
  held : List HeldTile
  /-- DETAILs of the data errors the current instruction has met (R114). -/
  faults : List Nat
  /-- Host and remote ranges that the current instruction reads. -/
  asks : List (Nat × Nat)
  /-- Sum of the ERRORS of the concealed pictures that the list has released (R114, R408). -/
  concealed : Nat
  /-- The beat tick at which the list last completed an instruction or retired a tile (R265). -/
  progress : Nat
  /-- The list has ended and its record waits to be written. -/
  ending : Option Ending
  deriving DecidableEq, Repr

/-- A pseudo-channel's scrub and repair state (R162–R164), keyed stack × 64 + channel. -/
structure ChanSt where
  /-- The next line to scrub, its number n of R455. -/
  scrub : Nat
  /-- The tick of the last scrub read. -/
  scrubbed : Nat
  /-- The channel has wrapped in the current pass. -/
  wrapped : Bool
  deriving DecidableEq, Repr

def ChanSt.reset : ChanSt := { scrub := 0, scrubbed := 0, wrapped := false }

/-- A row of a pseudo-channel that is being copied to a controller spare row (R162). -/
structure RowCopy where
  chan : Nat
  bank : Nat
  row : Nat
  deriving DecidableEq, Repr

/-- An entry of the row retirement list in MRAM (R162). `cause` true: an uncorrectable error. -/
structure RowEntry where
  chan : Nat
  bank : Nat
  row : Nat
  cause : Bool
  applied : Bool
  deriving DecidableEq, Repr

/-- An error that a read or a partial write has met: the line, whether the code corrected it, whether the scrubber met it,
the list that consumed the line, and whether step 1 of R160 is done. -/
structure FoundError where
  line : Nat
  corrected : Bool
  scrub : Bool
  owner : Option (Nat × Nat)
  entered : Bool
  deriving DecidableEq, Repr

/-- Memory (07_memory_and_addressing.md). -/
structure MemSt where
  /-- HBM and scratchpad by physical byte (see `hbmKey`, `scratchKey`). -/
  bytes : SMap Byte
  /-- How often the contents of a region have become undefined: cluster u at u, pseudo-channel c at 672 + c (R226, R233,
  R273, R298; log entry 1). -/
  gens : SMap Nat
  /-- Poisoned 64-byte lines, by physical byte / 64. -/
  poison : SMap Bool
  /-- Wrong symbols or bits of lines that no read has met yet, by physical byte / 64 (Table MEM-4). -/
  flaws : SMap Nat
  /-- Errors met whose effects are not complete (R157, R160). -/
  found : List FoundError
  /-- Host memory and remote memory as far as answers have shown it: a byte, or a failed read (log entry 6). -/
  ext : List (Nat × Option Byte)
  /-- The channel list of each partition, fixed at device reset (R146, R147): stack × 64 + channel. -/
  chans : SMap (List Nat)
  /-- Layout: LIMIT, capture base, trace base, top, in granules (R148). -/
  limit : SMap Nat
  capture : SMap Nat
  trace : SMap Nat
  chan : SMap ChanSt
  /-- Corrected errors of each row since AON power-up: (channel × 64 + bank) × 16384 + row (R162). -/
  rowCe : SMap Nat
  /-- Controller remaps in force by stack, and rows being copied. -/
  remaps : List RowEntry
  copies : List RowCopy
  /-- Rows copied whose entry waits until firmware can write MRAM (R162, R272). -/
  unlisted : List RowEntry
  deriving DecidableEq, Repr

def MemSt.reset : MemSt :=
  { bytes := [], gens := [], poison := [], flaws := [], found := [], ext := [], chans := [], limit := [], capture := [], trace := [], chan := [], rowCe := [],
    remaps := [], copies := [], unlisted := [] }

/-- What a DATA frame asks for (Table LNK-6). -/
inductive KftOp where
  | write (addr : Nat) (bytes : List Byte)
  | readReq (addr len : Nat)
  | readResp (addr : Nat) (bytes : List Byte)
  | signal (sync : Nat) (value : Nat)
  | signalMax (sync : Nat) (value : Nat)
  | enqueue (queue cookie clAddr : Nat)
  /-- `red`: the segment may be combined inside the network (R186). -/
  | coll (level pos addr : Nat) (red : Bool) (bytes : List Byte)
  deriving DecidableEq, Repr

/-- A DATA frame not yet acknowledged, or waiting for the window or for its connection (R181–R184). -/
structure OutFrame where
  psn : Nat
  op : KftOp
  tag : Word64
  poison : Bool
  /-- The tick of its last transmission; none before the first. -/
  sentAt : Option Nat
  retries : Nat
  /-- The list whose instruction waits for it. -/
  owner : Option (Nat × Nat)
  deriving DecidableEq, Repr

/-- A packet that waits at an arbiter: its input there, tag, length in flits, deadline and age at the head of its class queue in
NoC cycles; and, at a fabric port, the frame with its connection and the peer's number for it (R55–R57, R175). -/
structure ArbItem where
  input : Nat
  tag : Word64
  flits : Nat
  deadline : Nat
  age : Nat
  frame : Option (Nat × Nat × OutFrame)
  deriving DecidableEq, Repr

/-- An arbiter (R55–R58, R175): what waits, oldest first; its NoC cycle, and the cycle at which its output is free again; the
cycles and flits of the last TC0 grants; the cycle of the last promoted grant; the input last granted in each class; and the TC2
flits granted that no TC3 flits have been weighed against yet. -/
structure ArbSt where
  waiting : List ArbItem
  cycle : Nat
  free : Nat
  tc0 : List (Nat × Nat)
  promotedAt : Option Nat
  last : List Nat
  share : Nat
  deriving DecidableEq, Repr

def ArbSt.reset : ArbSt := { waiting := [], cycle := 0, free := 0, tc0 := [], promotedAt := none, last := [0, 0, 0, 0], share := 0 }

/-- A connection context (R181–R184). -/
structure ConnSt where
  srcPart : Nat
  dev : Nat
  dstPart : Nat
  cls : Nat
  /-- The peer's connection number, once the connection is open. -/
  peer : Option Nat
  port : Option Nat
  psnOut : Nat
  psnIn : Nat
  /-- PSNs received beyond psnIn, with the frames to deliver in order. -/
  ahead : List (Nat × KftHdr × KftOp)
  window : Nat
  acked : Nat
  halvedAt : Option Nat
  unacked : List OutFrame
  /-- ECE to set on the next ACK. -/
  ece : Bool
  lastUse : Nat
  deriving DecidableEq, Repr

/-- A read of remote memory that no response has answered: its connection, offset and length, the device address that
its bytes answer, and the list that waits. -/
structure RemRead where
  conn : Nat
  off : Nat
  len : Nat
  addr : Nat
  queue : Nat
  desc : Nat
  deriving DecidableEq, Repr

/-- A read request that has left the device: the partition, the connection (none: the host), offset or host address, and length. -/
structure OpenRead where
  part : Nat
  conn : Option Nat
  addr : Nat
  len : Nat
  deriving DecidableEq, Repr

/-- A request that waits for a free connection context (R181): the fields of its key, and the frame. -/
structure WaitSend where
  srcPart : Nat
  dev : Nat
  dstPart : Nat
  cls : Nat
  frame : OutFrame
  deriving DecidableEq, Repr

/-- An AGREE that waits for its collective or seal on this device (R190): the partition it names, bits [63:12] of its
tag, and its contents. -/
structure AgreeMsg where
  part : Nat
  key : Nat
  pos : Nat
  diff : Bool
  digest : Word64
  deriving DecidableEq, Repr

/-- A message held until the collector acknowledges it (R194). -/
structure HeldMsg where
  seq : Nat
  kind : Nat
  lost : Bool
  payload : List Byte
  sentAt : Nat
  deriving DecidableEq, Repr

/-- A firmware image in transfer over PLDM Type 5 (Table LNK-9). -/
structure FwUpdate where
  component : Nat
  bytes : List Byte
  verified : Bool
  deriving DecidableEq, Repr

/-- A JOB_FAULT that waits for its second sending (R188). -/
structure FaultSend where
  msg : JobFaultMsg
  at' : Nat
  deriving DecidableEq, Repr

/-- Links beyond their registers (08_links_host_fabric_management.md). -/
structure LinkSt where
  /-- PERST# has been deasserted; it takes effect when SYS_READY is high (R168). -/
  perstHigh : Bool
  /-- Bus Master Enable of PF0–PF3, bit f. -/
  busMaster : Nat
  /-- Functions for which AER has recorded a poisoned completion (R170). -/
  aer : List Nat
  /-- Route table: egress mask by destination ID (R177). -/
  routes : SMap Nat
  /-- Connection contexts by number (R181). -/
  conns : SMap (Option ConnSt)
  /-- Remote reads not yet answered; requests that wait for a free context, oldest first. -/
  reads : List RemRead
  /-- Reads of host memory that no completion has answered. -/
  hostReads : List OpenRead
  waiting : List WaitSend
  /-- AGREEs and COLL segments that came before the instruction they belong to, with partition and tag bits [63:12]. -/
  agrees : List AgreeMsg
  segs : List (Nat × Nat × CollSeg)
  /-- The (ORIGIN, SEQ) pairs seen most recently (R188). -/
  seen : List (Nat × Nat)
  resend : List FaultSend
  /-- The session value drawn at AON power-up (R193). -/
  session : Word64
  /-- Last SEQ accepted in this session, by key slot (R193). -/
  lastSeq : SMap Nat
  /-- Key slots written through MCTP in this model: key bytes by slot (R196). -/
  keys : SMap (List Byte)
  outSeq : Nat
  /-- The IPv4 address that DHCPv4 has leased and the IPv6 address that SLAAC has formed; 0 for none (R191). -/
  lease : Nat
  slaac : Nat
  msgs : List HeldMsg
  lost : Bool
  eid : Nat
  tid : Nat
  fw : Option FwUpdate
  /-- Firmware images applied so far: component 0x0001, then 0x0002; the boot flash keeps them. -/
  fwApplied : Nat × Nat
  /-- Components verified and marked to apply at the next device reset, and the step of the update in progress: 0 idle, 1 learning the
  components, 2 ready for a transfer, 3 in one, 5 verified. -/
  fwReady : List Nat
  fwStep : Nat
  deriving DecidableEq, Repr

def LinkSt.reset : LinkSt :=
  { perstHigh := false, busMaster := 0, aer := [], routes := [], conns := [], reads := [], hostReads := [], waiting := [], agrees := [], segs := [], seen := [], resend := [],
    session := 0, lastSeq := [], keys := [], outSeq := 0, lease := 0, slaac := 0, msgs := [], lost := false, eid := 0, tid := 0, fw := none, fwApplied := (0, 0), fwReady := [], fwStep := 0 }

/-- One watch of a unit (R202, R213): its wheel step; a tile of it has been compared; one has differed. -/
structure Watch where
  step : Nat
  compared : Bool
  dirty : Bool
  deriving DecidableEq, Repr

/-- A cluster's or vector unit's screening state (R204, R206, R213). Keyed by die × 168 + physical cluster. -/
structure ScreenUnit where
  /-- Slot balance, −4 to +1. -/
  balance : Int
  /-- Primary tiles completed toward the next slot. -/
  primaries : Nat
  /-- Tile times spent idle. -/
  idle : Nat
  /-- Candidate tiles completed in the current wheel step. -/
  cands : Nat
  /-- Its watches since the last restart of s, newest first (R213). -/
  watches : List Watch
  deriving DecidableEq, Repr

def ScreenUnit.reset : ScreenUnit :=
  { balance := 0, primaries := 0, idle := 0, cands := 0, watches := [] }

/-- A vote in progress (R209–R211): the tile whose signatures differed, its list with its instruction word, and the list's job. -/
structure VoteSt where
  queue : Nat
  desc : Nat
  job : Nat
  part : Nat
  tile : HeldTile
  list : RunList
  word : Nat
  deriving DecidableEq, Repr

/-- A shadow queued on its die (R206): its list and tile, the tick at which it joined, whether it is a watched
cluster's first in the wheel step, the cluster given it, and whether it is a vector tile. -/
structure QueuedShadow where
  queue : Nat
  desc : Nat
  tile : Nat
  since : Nat
  first : Bool
  host : Nat
  vector : Bool
  deriving DecidableEq, Repr

/-- A partition's coverage wheel (R199–R204, R213). -/
structure WheelSt where
  /-- Settings in force: codes of Table SCR-1 and STRIDE (R200). -/
  fraction : Nat
  vfraction : Nat
  stride : Nat
  /-- s restarts at the first qualifying boundary from now (R200). -/
  restart : Bool
  /-- Qualifying boundaries since the last advance. -/
  count : Nat
  /-- Boundary marks of qualifying STEPs not yet reached, beat numbers rising (R199). -/
  bounds : List Nat
  /-- Watched logical clusters, die × 160 + LC, and their shadow dies; the same for vector units (R201, R202). -/
  watched : List (Nat × Nat)
  vwatched : List (Nat × Nat)
  /-- Watched logical clusters whose first selected tile of this wheel step has issued; a vector unit's 640 higher. -/
  firsts : List Nat
  /-- For each wheel step since s restarted: the highest steps of the device's jobs before it began (R213). -/
  steps : List (Nat × List (Nat × Nat))
  deriving DecidableEq, Repr

def WheelSt.reset : WheelSt :=
  { fraction := 2, vfraction := 1, stride := 1, restart := true, count := 0, bounds := [], watched := [], vwatched := [],
    firsts := [], steps := [] }

/-- A map entry: its STATE and SOURCE codes (Table QTN-3), PENDING, and for a cluster the logical number it serves. -/
structure MapEntry where
  state : Nat
  source : Nat
  pending : Bool
  lc : Nat
  /-- The epoch at which the unit last entered its state (Table QTN-4, test 5). -/
  since : Nat
  deriving DecidableEq, Repr

/-- The kinds of map units (R216), in the order clusters, vector units, pseudo-channels, lanes: one map, keyed
cluster i at i, vector unit i at 672 + i, pseudo-channel i at 1,344 + i, lane i at 1,856 + i. -/
abbrev UnitMap := SMap MapEntry

/-- An MRAM map image (R223). -/
structure MapImage where
  open' : Bool
  headerOk : Bool
  crcOk : Bool
  epoch : Nat
  entries : UnitMap
  deriving DecidableEq, Repr

/-- A WSF record that waits for its change set's image (R223). Bytes as Table QTN-6 lays them out, but for
RECORD_SEQ and CRC, which it takes when sent. -/
structure WsfRec where
  bytes : List Byte
  deriving DecidableEq, Repr

/-- A change set whose image is not closed yet (R220, R223). -/
structure ChangeSet where
  epoch : Nat
  relaxing : Bool
  /-- The map after the set, and the units it changes. -/
  entries : UnitMap
  keys : List Nat
  records : List WsfRec
  events : List Nat
  at' : Nat
  deriving DecidableEq, Repr

/-- A churn run in progress (R231–R235). -/
structure ChurnSt where
  level : Nat
  dies : Nat
  /-- Fenced partitions, bit p. -/
  parts : Nat
  /-- Kernels passed so far, by unit key. -/
  passed : SMap Nat
  failed : List Nat
  packId : Nat
  packVersion : Nat
  kernels : Nat
  aborting : Bool
  deriving DecidableEq, Repr

/-- A churn pack candidate being written (R237). -/
structure PackSlot where
  id : Nat
  version : Nat
  length : Nat
  bytes : SMap Byte
  written : Nat
  deriving DecidableEq, Repr

/-- The active churn pack (R236). -/
structure Pack where
  id : Nat
  version : Nat
  keyId : Nat
  kernels : Nat
  quick : Nat
  /-- Its bytes in the firmware flash, header and body (R236). -/
  bytes : List Byte
  deriving DecidableEq, Repr

/-- A churn pass in the results index (R234): level, pack version, epoch. -/
structure ChurnPass where
  level : Nat
  version : Nat
  epoch : Nat
  /-- RECORD_SEQ of the CHURN_DONE record that closed the run (R341). -/
  seq : Nat
  deriving DecidableEq, Repr

/-- Quarantine state beyond its registers (10_quarantine_spares_and_fleet.md). -/
structure QtnSt where
  /-- The management view: the map in force. -/
  map : UnitMap
  /-- The data-path view: what the dies, controllers and ports consult (R229). -/
  path : UnitMap
  /-- Change sets decided and not yet closed, oldest first. -/
  sets : List ChangeSet
  churn : Option ChurnSt
  candidate : Option PackSlot
  pack : Option Pack
  /-- The last record sent (QTN_WSF_LAST). -/
  last : List Byte
  /-- Records that wait until firmware writes MRAM again, oldest first, and units whose churn passes are to be cleared then (R272,
  R340, R341). -/
  held : List WsfRec
  drops : List Nat
  /-- The tick of the last reconciliation pass. -/
  reconciled : Nat
  deriving DecidableEq, Repr

/-- The seal exchange of a slot whose CKDONE has begun (R254, R255): its mark M, whether local completion came after M, the tick of M
once the member has voted, and its part in the exchange. -/
structure SealSt where
  mark : Mark
  late : Bool
  tick : Option Nat
  agree : Option Agree
  deriving DecidableEq, Repr

/-- A job entry beyond its registers (R246–R259). Keyed by partition × 16 + entry. -/
structure JobSt where
  /-- The armed restart: slot B, step, mark. -/
  armed : Option (Bool × Nat × Nat)
  sealA : Option SealSt
  sealB : Option SealSt
  deriving DecidableEq, Repr

def JobSt.reset : JobSt := { armed := none, sealA := none, sealB := none }

/-- A job's highest step on the device since its last restart, with its boundary beat (R120). -/
structure StepSt where
  step : Nat
  boundary : Nat
  /-- The steps that were the highest before it, with their boundary beats, newest first (R213). -/
  past : List (Nat × Nat)
  deriving DecidableEq, Repr

/-- A range of a partition's memory that a job has stored to. -/
structure JobRange where
  job : Nat
  part : Nat
  addr : Nat
  len : Nat
  deriving DecidableEq, Repr

/-- A control core (R263–R267). -/
inductive CoreState where
  | running
  | halted
  | held
  | restarting
  deriving DecidableEq, Repr

/-- A control core's heartbeat (R263, R264): its state, the tick of the last write, the count frozen at a debug halt,
and the tick of its last restart. -/
structure CoreSt where
  state : CoreState
  since : Nat
  frozen : Option Nat
  restarted : Option Nat
  missed : Bool
  deriving DecidableEq, Repr

def CoreSt.reset : CoreSt :=
  { state := .held, since := 0, frozen := none, restarted := none, missed := false }

/-- What a hardware finding of the RMG is (R269). -/
structure RmgEvent where
  seq : Nat
  /-- Keys of the units it names, and the STATE it sets. -/
  units : List Nat
  state : Nat
  /-- Its records, which take their EPOCH when the change set is built. -/
  records : List WsfRec
  applied : Bool
  declared : Bool
  recorded : Bool
  deriving DecidableEq, Repr

/-- A snapshot buffer of the standby (R270): OPEN, the generation, INCLUDED_SEQ, and the working state of the RMG's firmware: the
management view with its epoch, and the change sets whose images are not closed. -/
structure Snapshot where
  open' : Bool
  gen : Nat
  included : Nat
  map : UnitMap
  epoch : Nat
  sets : List ChangeSet
  deriving DecidableEq, Repr

/-- A reset sequence in progress (R274–R285). -/
structure ResetSeq where
  dom : RDom
  phase : Nat
  cause : Nat
  /-- Units of elapsed beat at which the drain's budget ends; the tick at which the phase began. -/
  drainEnd : Nat
  since : Nat
  started : Nat
  mark : Mark
  escalated : Bool
  /-- Its capture record has been written. -/
  captured : Bool
  /-- The lists that held the domain's dispatch slots when its drain ended (R279). -/
  slots : List RunList
  /-- FAB_PORT_CFG of the ports that were up when a device reset began (R285). -/
  ports : List (Nat × Word32)
  /-- A larger domain with its cause and the mark of its request, which takes over at the next phase boundary (R274). -/
  next : Option (RDom × Nat × Mark)
  deriving DecidableEq, Repr

/-- A partition's capture buffers (R280–R283): the record of the newest buffer, and how much of it has been sent. -/
structure CapSt where
  length : Nat
  seq : Nat
  sent : Nat
  copying : Bool
  deriving DecidableEq, Repr

def CapSt.reset : CapSt := { length := 0, seq := 0, sent := 0, copying := false }

/-- Hang monitor and reset control beyond their registers (12_hangs_fencing_and_recovery.md). -/
structure HangSt where
  cores : SMap CoreSt
  /-- The RMG event queue, oldest first, and its next sequence number (R269). -/
  evq : List RmgEvent
  evSeq : Nat
  snap0 : Snapshot
  snap1 : Snapshot
  snapTick : Nat
  /-- The tick of the heartbeat missed, while a takeover runs (R271). -/
  takeover : Option Nat
  resets : List ResetSeq
  /-- Last stall of an engine of a partition, keyed partition × 8 + engine: its tick (Table HNG-1). -/
  stalls : SMap (Option Nat)
  /-- Reads that a fence has answered, whose responses are late (R276). -/
  late : List OpenRead
  caps : SMap CapSt
  /-- Device held by AUTO = 0 after both cores went silent, or in the safe state after two recoveries (R286). -/
  waiting : Bool
  deriving DecidableEq, Repr

def Snapshot.reset : Snapshot := { open' := false, gen := 0, included := 0, map := [], epoch := 0, sets := [] }

def HangSt.reset : HangSt :=
  { cores := [], evq := [], evSeq := 1, snap0 := Snapshot.reset, snap1 := Snapshot.reset, snapTick := 0, takeover := none,
    resets := [], stalls := [], late := [], caps := [], waiting := false }

/-- What the wake sequencer waits for (Table PWR-3). -/
inductive WakeWait where
  | osc
  | aonPll
  | boot
  | pgood (d : Nat)
  | pll (d : Nat)
  | training (d : Nat)
  | serdes (d : Nat)
  /-- 10 ms with the enable low before the next attempt (R292). -/
  | retryOff (d : Nat)
  | selfTest
  deriving DecidableEq, Repr

/-- What started the sequence that is running (R290, R297, R299, R336). -/
inductive WakeKind where
  | cold
  | deviceReset
  | resume
  | switchOn (d : Nat)
  deriving DecidableEq, Repr

/-- Power beyond its registers (13_power_domains_and_wake.md). -/
structure PwrSt where
  /-- AON is powered and out of reset. -/
  aon : Bool
  /-- Enable outputs and power-good inputs, bit n for PDn. -/
  en : Nat
  pgood : Nat
  /-- The wake sequence in progress, what it waits for (PD4 and PD5 may both wait in W6), attempts of each wait. -/
  wake : Option WakeKind
  waits : List WakeWait
  attempts : SMap Nat
  /-- Domains whose enable this wake has tried, bit n for PDn. -/
  begun : Nat
  /-- The wake stops at the next step boundary (R306). -/
  stopWake : Bool
  safe : Bool
  /-- The step whose failure led to the safe state; 12 for a held device (R286). -/
  safeStep : Nat
  /-- Reason of a self-test outcome that a device reset does not clear, 0 for none (R320, R322). -/
  bistHold : Nat
  /-- HBM of PD4, PD5 in self-refresh across a device reset, bits 4 and 5 (R297). -/
  selfRefresh : Nat
  /-- PWR_FAIL_N has asserted in this AON session (R306). -/
  failSeen : Bool
  /-- Limiter: ticks in a row over SUST, ticks in a row at or below 95 % of SUST, steps cut (R304). -/
  overSust : Nat
  underSust : Nat
  cuts : Nat
  /-- The tick of the last PMBus round (R301). -/
  pmbTick : Nat
  /-- Voltage in force on each die, mV, and a raise that waits for READ_VOUT (R302). -/
  vNow : SMap Nat
  vRaise : SMap (Option Nat)
  /-- The SYS_READY output (R290); FAULT_N shows in SYS_STATUS.FAULT. -/
  ready : Bool
  deriving DecidableEq, Repr

def PwrSt.reset : PwrSt :=
  { aon := false, en := 0, pgood := 0, wake := none, waits := [], attempts := [], begun := 0, stopWake := false, safe := false,
    safeStep := 0, bistHold := 0, selfRefresh := 0, failSeen := false, overSust := 0, underSust := 0, cuts := 0,
    pmbTick := 0, vNow := [], vRaise := [], ready := false }

/-- An entry of the self-test log (Table BIST-7). -/
structure BistLog where
  group : Nat
  code : Nat
  action : Nat
  bit : Nat
  unit : Nat
  addr : Nat
  deriving DecidableEq, Repr

/-- An entry of the MRAM repair list (R321). -/
structure RepairEntry where
  code : Nat
  row : Bool
  column : Bool
  inst : Nat
  bank : Nat
  index : Nat
  deriving DecidableEq, Repr

/-- Self-test beyond its registers (14_power_up_self_test_and_repair.md). -/
structure BistSt where
  log : List BistLog
  /-- Unit findings to apply in the repair phase, as unit keys (R317, R318). -/
  units : List Nat
  /-- Repairs to append to the list, in log order. -/
  repairs : List RepairEntry
  /-- Findings that lead to the safe state, in order: reason and domain (R319). -/
  fatal : List (Nat × Nat)
  /-- Logical numbers unbacked when W10 began, bit die × 160 + LC (R319). -/
  unbacked : Nat
  deriving DecidableEq, Repr

def BistSt.reset : BistSt := { log := [], units := [], repairs := [], fatal := [], unbacked := 0 }

/-- Thermal management beyond its registers (15_thermal_management.md). Readings are in 1/16 °C. -/
structure ThmSt where
  /-- Samples in a row in which a sensor did not update (R325). -/
  stale : SMap Nat
  /-- The maxima of the last samples by domain, newest first: at most eleven samples (R328). -/
  history : List (List (Option Int))
  /-- The maxima of the last slow sample, and the fast-mode flag of each kept sample. -/
  lastSlow : List (Option Int)
  /-- Beat ticks at the last sample, and since every maximum has stayed low enough to leave fast mode (R328). -/
  sampled : Nat
  calmSince : Option Nat
  /-- Thermal limit in force of each die, MHz (R329). -/
  limit : SMap Nat
  /-- Step of the orderly stop in progress, 0 for none (Table THM-3). -/
  stop : Nat
  /-- The interpolator's count at which the stop's drain ends (Table THM-3). -/
  stopAt : Nat
  /-- The highest level reached since the last WSF record (R337). -/
  highest : Nat
  /-- Sensor of a trip whose report waits for AON firmware (R337). -/
  owed : Option Nat
  deriving DecidableEq, Repr

def ThmSt.reset : ThmSt :=
  { stale := [], history := [], lastSlow := [], sampled := 0, calmSince := none, limit := [], stop := 0, stopAt := 0, highest := 0, owed := none }

/-- A counter copy of MRAM (R340). -/
structure CounterCopy where
  gen : Nat
  recordSeq : Nat
  seq : Nat
  sessionOpen : Bool
  faultCeil : Nat
  capCeil : Nat
  crcOk : Bool
  deriving DecidableEq, Repr

/-- The panel state a copy in MRAM holds (R354): sequence number, OPEN, the text of the areas, and whether its CRC is
good. -/
structure PanelCopy where
  seq : Nat
  open' : Bool
  text : List String
  crcOk : Bool
  deriving DecidableEq, Repr

/-- MRAM (Table EVR-1): it keeps its contents without power. -/
structure MramSt where
  /-- Record ring: bytes of the record in each good slot (R345). -/
  ring : SMap (List Byte)
  /-- Slots whose write was cut short. -/
  bad : List Nat
  image0 : MapImage
  image1 : MapImage
  repairs : List RepairEntry
  rows : List RowEntry
  /-- Churn results index by unit key (R341). -/
  churn : SMap (Option ChurnPass)
  script : List Byte
  panel0 : PanelCopy
  panel1 : PanelCopy
  count0 : CounterCopy
  count1 : CounterCopy
  /-- The trip marker: sensor and SEQ, when valid (R348). -/
  marker : Option (Nat × Nat)
  deriving DecidableEq, Repr

/-- The open history record's accumulators (R342–R344). -/
structure OpenRec where
  prevUnclean : Bool
  wakeFirst : Nat
  wakeFails : Nat
  safe : Bool
  wakeFail : Bool
  immediate : Bool
  dropped : Bool
  thermal : Nat
  shutdowns : Nat
  samples : Nat
  /-- TEMP bins by histogram × 64 + bin; DROOP bins by bin; throttled samples by die. -/
  temp : SMap Nat
  droop : SMap Nat
  throttled : SMap Nat
  ce : SMap Nat
  mismatch : SMap Nat
  holdMax : Nat
  powerMax : Nat
  tempMax : Int
  vcoreMin : Nat
  deriving DecidableEq, Repr

def OpenRec.reset : OpenRec :=
  { prevUnclean := false, wakeFirst := 0, wakeFails := 0, safe := false, wakeFail := false, immediate := false,
    dropped := false, thermal := 0, shutdowns := 0, samples := 0, temp := [], droop := [], throttled := [], ce := [],
    mismatch := [], holdMax := 0, powerMax := 0, tempMax := 0, vcoreMin := 0xFFFF }

/-- A closing event that waits (Table EVR-2): its KIND, job and partition for JOB_END. -/
structure Closing where
  kind : Nat
  job : Nat
  part : Nat
  entry : Nat
  tick : Nat
  deriving DecidableEq, Repr

/-- One op of the panel script being run (Table EVR-6). -/
inductive PanelWait where
  | busy (ms : Nat)
  | delay (ms : Nat)
  /-- Until firmware writes MRAM again (R272). -/
  | mram
  deriving DecidableEq, Repr

/-- Recorder and panel beyond their registers (16_event_recorder_and_status_panel.md). -/
structure EvrSt where
  open' : OpenRec
  /-- The record whose write is in progress, with its SEQ and kind, then the events that wait. -/
  writing : Option (Nat × Nat × List Byte)
  queue : List Closing
  /-- Fault SEQ and CAP_SEQ counters (R247, R280). -/
  faultSeq : Nat
  capSeq : Nat
  /-- Panel: shown text of the seven areas, in Table EVR-7's order. -/
  shown : List String
  drawing : List String
  /-- Runs of the script that remain in this step: entry and area; the op offset in progress; what it waits for. -/
  todo : List (Nat × Nat)
  pc : Option Nat
  wait : Option PanelWait
  lastEnd : Option Nat
  fails : Nat
  candidate : List Byte
  deriving DecidableEq, Repr

def EvrSt.reset : EvrSt :=
  { open' := OpenRec.reset, writing := none, queue := [], faultSeq := 0, capSeq := 0, shown := [], drawing := [],
    todo := [], pc := none, wait := none, lastEnd := none, fails := 0, candidate := [] }

/-- Who carries the stream that owns the configuration engine (R374), with the external stream's declared scope. -/
inductive ClaOwner where
  | full
  | icp
  | ext (full : Bool) (region : Nat)
  deriving DecidableEq, Repr

/-- The configuration engine (R369–R374). -/
structure ClaStream where
  owner : ClaOwner
  /-- The scope loaded: PARTIAL's region, or the whole array; none before a SCOPE load. -/
  scope : Option (Option Nat)
  armed : Bool
  idOk : Bool
  checkOk : Bool
  /-- The CRC-64 register accumulated by the stream check (R371). -/
  crc : Word64
  /-- Words of the memory source before the sync word (R378). -/
  before : Nat
  /-- Column and minor frame of the next frame. -/
  column : Nat
  minor : Nat
  /-- Frames written since the SCOPE load, by frame number. -/
  written : List Nat
  words : Nat
  deriving DecidableEq, Repr

/-- How a fabric port carries a KFT frame (R178): MAC addresses, the VLAN priority under an 802.1Q tag, and in UDP mode the IP
version, source and destination addresses, source and destination ports, DSCP and ECN. EtherType is 0x88B5 in raw mode. -/
inductive Encap where
  | raw (dst src : Nat) (prio : Option Nat)
  | udp (dst src : Nat) (prio : Option Nat) (ip6 : Bool) (srcIp dstIp srcPort dstPort dscp ecn : Nat)
  deriving DecidableEq, Repr

/-- The Configurable Logic Array beyond its registers (17_configurable_logic_array.md). -/
structure ClaSt where
  stream : Option ClaStream
  /-- Configuration frames by frame number; an unlisted one is blank. -/
  frames : SMap (List Word32)
  /-- RELEASE_DONE has been written since the load began (R383). -/
  released : Bool
  /-- A full load from the strap's source waits for its stream or receives it (R375). -/
  loading : Bool
  /-- A bus master sends passes; passes sent, or by a listener received without success (R376). -/
  sending : Bool
  passes : Nat
  /-- The tick at which the device stopped driving CFG_DONE, while the line has not read high since (R385). -/
  droveUntil : Option Nat
  timedOut : Bool
  /-- Regions whose last stream failed its CRC, bit n (R381). -/
  crcFailed : Nat
  /-- Regions that were RUNNING before a region or partition reset in progress, bit n (R388). -/
  wasRunning : Nat
  /-- READY regions that an ICP stream has loaded, bit n: only a release request or HOLD = 0 releases them (R380). -/
  byIcp : Nat
  /-- The frame that the next scan checks (R387). -/
  scan : Nat
  /-- Reads of the NoC initiator that wait for host or remote memory: their JOB is in CLA_NOC_CFG (R364). -/
  nocReads : List (Nat × Nat)
  /-- Frames handed to regions at egress taps, oldest first: sub-port, encapsulation, and the frame without its ICRC (R363). -/
  atTap : List (Nat × Encap × List Byte)
  deriving DecidableEq, Repr

def ClaSt.reset : ClaSt :=
  { stream := none, frames := [], released := false, loading := false, sending := false, passes := 0, droveUntil := none,
    timedOut := false, crcFailed := 0, wasRunning := 0, byIcp := 0, scan := 0, nocReads := [], atTap := [] }

/-- An open media session (R394–R412). -/
structure SessSt where
  /-- The 128 bytes of the descriptor read at OPEN (Table MED-3). -/
  desc : List Byte
  part : Nat
  waitRap : Bool
  /-- A bitstream error with STOP_ON_ERROR, a poisoned access unit or a stream beyond the session has halted it. -/
  halted : Bool
  /-- Pictures ready in output order and not released. -/
  ready : List PicFacts
  /-- STATS, TENSOR and FMT_C of the last MDEC (R400). -/
  lastStats : Bool
  lastTensor : Bool
  lastFmt : Nat
  /-- Encoder: a key picture is due; pictures since the last key picture; sweep position (R411, R412). -/
  forceKey : Bool
  sinceKey : Nat
  sweep : Nat
  encoded : Nat
  /-- The QP of the last encoded picture (R411). -/
  qp : Nat
  /-- The list whose instruction runs on the session, and those that wait, oldest first (R398). -/
  busy : List (Nat × Nat)
  /-- What an entropy engine will parse for the instructions that wait. -/
  later : List ((Nat × Nat) × List Byte)
  /-- The syntax elements of the instruction that runs: those in the on-chip buffer, the bytes in the spill area, and those for
  which the entropy engine waits for space (R403). -/
  chip : List Byte
  spilled : Nat
  unparsed : List Byte
  deriving DecidableEq, Repr

/-- A trace channel (R414–R421), keyed partition × 8 + channel. -/
structure TraceSt where
  /-- Records buffered on chip, oldest first, at most 128. -/
  buffer : List (List Byte)
  /-- Records dropped since the last LOST record. -/
  lost : Nat
  /-- EN has been cleared and the buffer is being written out (R418). -/
  stopping : Bool
  deriving DecidableEq, Repr

def TraceSt.reset : TraceSt := { buffer := [], lost := 0, stopping := false }

/-- The TAP's current instruction (R430). -/
inductive JtagInstr where
  | idcode
  | samplePreload
  | extest
  | extestPulse
  | extestTrain
  | clamp
  | highz
  | dbgAccess
  | bypass
  deriving DecidableEq, Repr

/-- Trace, counters and debug beyond their registers (19_trace_counters_and_debug.md). -/
structure DbgSt where
  trace : SMap TraceSt
  /-- The tick of the last counter sample (R425). -/
  sampled : Nat
  /-- The nonce is valid (R428). -/
  nonceOk : Bool
  /-- STATUS and data of the last DBG_ACCESS (R431). -/
  status : Nat
  data : Word32
  jtag : JtagInstr
  /-- Boundary register as sampled or preloaded. -/
  boundary : Nat
  /-- The sequence a core restarts when it resumes (R434). -/
  broken : SMap Nat
  /-- The words of DBG_RESP written since the nonce was drawn (R428). -/
  resp : SMap Word32
  /-- Accesses to vendor-only ranges on unlocked debug, newest first: a write's value, none for a read (R8). -/
  vendor : List (Nat × Option Word32)
  /-- The local tick of MATCH mode at the last stamp (R421). -/
  matchTick : Nat
  deriving DecidableEq, Repr

def DbgSt.reset : DbgSt :=
  { trace := [], sampled := 0, nonceOk := false, status := 0, data := 0, jtag := .idcode, boundary := 0,
    broken := [], resp := [], vendor := [], matchTick := 0 }

/-- What the stack of the management port sends of its own (R191), with its own MAC address where the message carries it. -/
inductive NetTx where
  | arpReply (addr to' mac : Nat)
  | echoReply (ip6 : Bool) (src dst : Nat) (data : List Byte)
  | neighborAdvert (addr to' mac : Nat)
  | routerSolicit
  | dhcpDiscover
  | dhcpRequest (addr : Nat)
  deriving DecidableEq, Repr

/-- What the device sends or drives: the model's own record of its outputs, newest first (log entry 5). -/
inductive Out where
  /-- MSI-X message of a function (R107, R172). -/
  | msix (f vector : Nat)
  /-- A posted write or a read request on PCIe by a function (R152, R171). -/
  | pcieWrite (f addr : Nat) (bytes : List Byte)
  | pcieRead (f addr len : Nat)
  /-- Completion of a host read: bytes, whether the TLP is poisoned; or Unsupported Request (R170). -/
  | hostData (f : Nat) (bytes : List Byte) (poisoned : Bool)
  | hostUr (f : Nat)
  | aer (f : Nat)
  /-- A read of a register answered on a path. -/
  | regData (path : Path) (v : Word32)
  /-- A KFT frame on a sub-port: how it is carried, and its bytes from the header to the ICRC (R178–R190). -/
  | frame (sub : Nat) (e : Encap) (bytes : List Byte)
  /-- A message of the management protocol (Table LNK-8), under an 802.1Q tag or none, to an address: its bytes. -/
  | mgt (vlan : Option Nat) (to' : NetAddr) (bytes : List Byte)
  /-- Another frame of the management network (R191). -/
  | net (vlan : Option Nat) (x : NetTx)
  /-- The answer to a COMMAND over MCTP (R242). -/
  | mctpCommand (payload : List Byte)
  | mctpReply (payload : List Nat)
  | pldmReply (type code completion : Nat) (data : List Nat)
  | pldmEvent (cls : Nat) (data : List Byte)
  | spdmReply (payload : List Nat)
  /-- The BEAT_OUT pin takes a level (R31). -/
  | beatOut (l : PinLevel)
  /-- A PTP Delay_Req on a port, in a domain (R34, Table BEAT-2). -/
  | delayReq (port : PtpPort) (domain : Nat)
  /-- PMBus VOUT_COMMAND for an entry (R302). -/
  | vout (entry mv : Nat)
  /-- A panel op's bytes with PNL_DC high or low; a raster of an area; PNL_RST_N and PNL_PWR_EN (R350–R354). -/
  | panel (dc : Bool) (bytes : List Byte)
  | panelPixels (area : Nat) (text : String)
  | panelReset
  | panelPower (on : Bool)
  /-- THERMTRIP_N asserted or released (R334, R443). -/
  | thermTrip (low : Bool)
  /-- A stream word of a bus pass begins (R376). -/
  | busPass
  /-- ICP answer (R381). -/
  | icpAck (region result : Nat)
  /-- Data to a region's Move Engine tap, under the tag of the item (R360, R361). -/
  | tapOut (region : Nat) (tag : Word64) (bytes : List Byte)
  /-- A frame without its ICRC, handed to a region at a sub-port's egress tap (R363). -/
  | regionFrame (sub : Nat) (bytes : List Byte)
  /-- An access that the shell's NoC target receives (R365). -/
  | claTarget (offset : Nat) (wr : Option Word32)
  /-- An arbiter grants a packet (R55); a request is discarded and answered with poisoned data (R52). -/
  | grant (arbiter : Nat) (tag : Word64) (flits : Nat)
  | discarded (arbiter : Nat) (tag : Word64)
  /-- Answer of the NoC to the CLA initiator (R364). -/
  | nocData (bytes : List Byte) (poisoned : Bool)
  /-- JTAG data register captured (R430, R431). -/
  | jtag (v : Nat)
  deriving DecidableEq, Repr

/-- Why a step can stop as a fault: for no reason. The spec gives every command an effect, if only that it is dropped, so
the type has no constructor and no command can end in a fault. -/
inductive Fault where
  deriving DecidableEq, Repr

/-- Why a command has no meaning. -/
inductive Refusal where
  /-- Raised only by arms of `exec` that have no meaning yet; safe. -/
  | notModelled (mnemonic : String)
  deriving DecidableEq, Repr

/-- The machine. -/
structure State where
  /-- Commands that wait, first in, first out (the model's own field). -/
  pending : List Instr
  /-- Registers of control space by address; an unlisted address holds `regDefault`. -/
  regs : SMap Word32
  /-- LO/HI latches by path key and address (R432), and staged HI halves of sync objects by path key (R109). -/
  latches : SMap (List (Nat × Word32))
  staged : SMap (Option (Nat × Nat))
  /-- MSI-X table and pending bits as BAR0 of each function shows them (Table LNK-1). -/
  msix : SMap Word32
  /-- The partition mode in force (R18). -/
  mode : Nat
  beat : BeatSt
  queues : SMap QueueSt
  lists : List RunList
  sync : SMap Nat
  mem : MemSt
  /-- Arbiters (R55–R58, R175), by key. -/
  arbs : SMap ArbSt
  link : LinkSt
  screen : SMap ScreenUnit
  vscreen : SMap ScreenUnit
  shadows : List QueuedShadow
  votes : List VoteSt
  /-- Votes that ended by timeout and whose arbiter still runs, with the LOG_SEQ of their entries. -/
  lateArbs : List (VoteSt × Nat)
  wheels : SMap WheelSt
  scrLog : SMap (List Byte)
  qtn : QtnSt
  jobs : SMap JobSt
  steps : SMap (Option StepSt)
  /-- A job's highest step on a partition since its last restart, plus 1; keyed partition × 65,536 + job (R199). -/
  partSteps : SMap Nat
  /-- What jobs have stored through their lists, and the sync objects they have raised since their last seal: what R251
  leaves undefined after a fault. -/
  wrote : List JobRange
  raised : List (Nat × Nat)
  hang : HangSt
  pwr : PwrSt
  bist : BistSt
  thm : ThmSt
  evr : EvrSt
  mram : MramSt
  cla : ClaSt
  media : SMap (Option SessSt)
  dbg : DbgSt
  /-- What the device has sent (the model's own field). -/
  out : List Out
  /-- Free values drawn so far (the model's own field, log entry 3). -/
  free : Nat
  deriving DecidableEq, Repr

def MapImage.blank : MapImage := { open' := false, headerOk := true, crcOk := true, epoch := 0, entries := [] }

def QtnSt.reset : QtnSt :=
  { map := [], path := [], sets := [], churn := none, candidate := none, pack := none, last := [], held := [], drops := [], reconciled := 0 }

/-- MRAM as a package is shipped: epoch 1 in image 0, every counter at 0 and both ceilings at 1,024 (R220, R340). -/
def MramSt.shipped : MramSt :=
  { ring := [], bad := [], image0 := { MapImage.blank with epoch := 1 }, image1 := MapImage.blank, repairs := [], rows := [],
    churn := [], script := [], panel0 := ⟨0, false, [], true⟩, panel1 := ⟨0, false, [], false⟩,
    count0 := ⟨1, 0, 0, false, 1024, 1024, true⟩, count1 := ⟨0, 0, 0, false, 1024, 1024, false⟩, marker := none }

/-- The device with AON power-on reset held: nothing has happened yet, and AON_POWER_UP starts the wake (R290, R291). -/
def State.reset : State :=
  { pending := [], regs := [], latches := [], staged := [], msix := [], mode := 0, beat := BeatSt.reset, queues := [],
    lists := [], sync := [], mem := MemSt.reset, arbs := [], link := LinkSt.reset, screen := [], vscreen := [], shadows := [], votes := [], lateArbs := [],
    wheels := [], scrLog := [], qtn := QtnSt.reset, jobs := [], steps := [], partSteps := [], wrote := [], raised := [], hang := HangSt.reset, pwr := PwrSt.reset,
    bist := BistSt.reset, thm := ThmSt.reset, evr := EvrSt.reset, mram := MramSt.shipped, cla := ClaSt.reset, media := [],
    dbg := DbgSt.reset, out := [], free := 0 }

end Sys2Proof.Machine
end

