-- ==== Sys2Proof/Machine/Ops.lean ====
section
/-!
DEFINITION. The named operations over sparse maps, registers and the other indexed state, which every command's meaning
is written over.
-/
namespace Sys2Proof.Machine

/-! ### Sparse maps -/

def SMap.find {α : Type} : SMap α → Nat → Option α
  | [], _ => none
  | (k, v) :: m, i => if i = k then some v else SMap.find m i

/-- What key `i` reads as, `d` giving what an unlisted key reads as. -/
def SMap.get {α : Type} (m : SMap α) (d : Nat → α) (i : Nat) : α := (m.find i).getD (d i)

def SMap.del {α : Type} : SMap α → Nat → SMap α
  | [], _ => []
  | (k, v) :: m, i => if i = k then SMap.del m i else (k, v) :: SMap.del m i

def SMap.put {α : Type} : SMap α → Nat → α → SMap α
  | [], i, x => [(i, x)]
  | (k, v) :: m, i, x =>
    if i < k then (i, x) :: (k, v) :: m
    else if i = k then (k, x) :: m
    else (k, v) :: SMap.put m i x

/-- `m` with key `i` reading as `x`, in canonical form again. -/
def SMap.set {α : Type} [DecidableEq α] (m : SMap α) (d : Nat → α) (i : Nat) (x : α) : SMap α :=
  if x = d i then m.del i else m.put i x

/-- Keys strictly rising from `lo`, no value equal to what its key reads as unlisted. -/
def SMap.wfFrom {α : Type} [DecidableEq α] (d : Nat → α) : Nat → SMap α → Bool
  | _, [] => true
  | lo, (k, v) :: m => decide (lo ≤ k) && decide (v ≠ d k) && SMap.wfFrom d (k + 1) m

/-- The canonical form of a sparse map. -/
def SMap.wf {α : Type} [DecidableEq α] (d : Nat → α) (m : SMap α) : Bool := SMap.wfFrom d 0 m

/-- The entries whose key satisfies `p` return to what an unlisted key reads as. -/
def SMap.clear {α : Type} (m : SMap α) (p : Nat → Bool) : SMap α := m.filter (fun e => !p e.1)

/-- Every listed value changed by `f`, which gives no value that an unlisted key has. -/
def SMap.mapVals {α : Type} (m : SMap α) (f : α → α) : SMap α := m.map (fun e => (e.1, f e.2))

/-! ### Registers -/

/-- The register at a control-space address. -/
def State.reg (s : State) (a : Nat) : Word32 := s.regs.get regDefault a

def State.setReg (s : State) (a : Nat) (v : Word32) : State := { s with regs := s.regs.set regDefault a v }

/-- A field of a register. -/
def State.rd (s : State) (f : Fld) : Nat := bitsOf (s.reg f.addr).toNat f.lo f.width

def State.wr (s : State) (f : Fld) (v : Nat) : State :=
  s.setReg f.addr (BitVec.ofNat 32 (setBits (s.reg f.addr).toNat f.lo f.width v))

/-- A one-bit field reads 1. -/
def State.on (s : State) (f : Fld) : Bool := s.rd f == 1

/-- Whether bit `i` of a field is 1. -/
def State.bit (s : State) (f : Fld) (i : Nat) : Bool := (s.rd f).testBit i

/-- A hardware event sets a sticky bit (R9). -/
def State.event (s : State) (f : Fld) : State := s.wr f 1

/-- Bit `i` of a field becomes `b`. -/
def State.wrBit (s : State) (f : Fld) (i : Nat) (b : Bool) : State :=
  s.wr f (setBits (s.rd f) i 1 b.toNat)

/-- A saturating counter rises by `n`. -/
def State.count (s : State) (f : Fld) (n : Nat) : State := s.wr f (satAdd (2 ^ f.width - 1) (s.rd f) n)

/-- A 64-bit value held as two register fields. -/
def State.rd64 (s : State) (lo hi : Fld) : Nat := s.rd lo + 2 ^ 32 * s.rd hi

def State.wr64 (s : State) (lo hi : Fld) (v : Nat) : State := (s.wr lo (v % 2 ^ 32)).wr hi (v / 2 ^ 32)

/-- A signed value as 32 or 64 bits of two's complement. -/
def twos (w : Nat) (i : Int) : Nat := (i % (2 ^ w : Nat)).toNat

/-- A register field of `w` bits read as a signed value. -/
def signed (w v : Nat) : Int := if 2 ^ (w - 1) ≤ v then (v : Int) - (2 ^ w : Nat) else v

/-- Registers of the resets of class `p` return to their reset values. -/
def State.resetRegs (s : State) (p : Nat → RegDesc → List Nat → Bool) : State :=
  { s with regs := s.regs.clear (fun a => match regAt a with | some (d, ix) => p a d ix | none => false) }

/-! ### Outputs and free values -/

def State.emit (s : State) (o : Out) : State := { s with out := o :: s.out }

/-- The BEAT_OUT pin takes a level. -/
def State.setPin (s : State) (l : PinLevel) : State :=
  if s.beat.pin = l then s else { s with beat := { s.beat with pin := l } }.emit (.beatOut l)

/-- A value the spec leaves open, and the state in which it has been drawn (log entry 3). -/
def State.draw (s : State) : Word64 × State := (Config.freeWord s.free, { s with free := s.free + 1 })

/-! ### Indexed state beyond the registers -/

def State.queue (s : State) (q : Nat) : QueueSt := s.queues.get (fun _ => QueueSt.reset) q

def State.setQueue (s : State) (q : Nat) (x : QueueSt) : State :=
  { s with queues := s.queues.set (fun _ => QueueSt.reset) q x }

def State.job (s : State) (p e : Nat) : JobSt := s.jobs.get (fun _ => JobSt.reset) (p * 16 + e)

def State.setJob (s : State) (p e : Nat) (x : JobSt) : State :=
  { s with jobs := s.jobs.set (fun _ => JobSt.reset) (p * 16 + e) x }

def State.wheel (s : State) (p : Nat) : WheelSt := s.wheels.get (fun _ => WheelSt.reset) p

def State.setWheel (s : State) (p : Nat) (x : WheelSt) : State :=
  { s with wheels := s.wheels.set (fun _ => WheelSt.reset) p x }

/-- Screening state of a cluster, or of its vector unit. -/
def State.unit (s : State) (vector : Bool) (u : Nat) : ScreenUnit :=
  if vector then s.vscreen.get (fun _ => ScreenUnit.reset) u else s.screen.get (fun _ => ScreenUnit.reset) u

def State.setUnit (s : State) (vector : Bool) (u : Nat) (x : ScreenUnit) : State :=
  if vector then { s with vscreen := s.vscreen.set (fun _ => ScreenUnit.reset) u x }
  else { s with screen := s.screen.set (fun _ => ScreenUnit.reset) u x }

def State.core (s : State) (n : Nat) : CoreSt := s.hang.cores.get (fun _ => CoreSt.reset) n

def State.setCore (s : State) (n : Nat) (x : CoreSt) : State :=
  { s with hang := { s.hang with cores := s.hang.cores.set (fun _ => CoreSt.reset) n x } }

def State.syncVal (s : State) (p n : Nat) : Nat := s.sync.get (fun _ => 0) (p * 4096 + n)

def State.setSync (s : State) (p n v : Nat) : State := { s with sync := s.sync.set (fun _ => 0) (p * 4096 + n) v }

def State.conn (s : State) (n : Nat) : Option ConnSt := s.link.conns.get (fun _ => none) n

def State.setConn (s : State) (n : Nat) (c : Option ConnSt) : State :=
  { s with link := { s.link with conns := s.link.conns.set (fun _ => none) n c } }

def State.sess (s : State) (n : Nat) : Option SessSt := s.media.get (fun _ => none) n

def State.setSess (s : State) (n : Nat) (x : Option SessSt) : State :=
  { s with media := s.media.set (fun _ => none) n x }

def State.traceCh (s : State) (p c : Nat) : TraceSt := s.dbg.trace.get (fun _ => TraceSt.reset) (p * 8 + c)

def State.setTraceCh (s : State) (p c : Nat) (x : TraceSt) : State :=
  { s with dbg := { s.dbg with trace := s.dbg.trace.set (fun _ => TraceSt.reset) (p * 8 + c) x } }

/-- The map entry a unit has when no image says otherwise: a package as shipped, with clusters 160–167 of each die its
spares (log entry 7). -/
def mapDefault (k : Nat) : MapEntry :=
  if k < 672 then
    if k % 168 < 160 then { state := 0, source := 0, pending := false, lc := k % 168, since := 0 }
    else { state := 3, source := 0, pending := false, lc := 0xFF, since := 0 }
  else { state := 0, source := 0, pending := false, lc := 0, since := 0 }

def UnitMap.entry (m : UnitMap) (k : Nat) : MapEntry := SMap.get m mapDefault k

def UnitMap.put (m : UnitMap) (k : Nat) (e : MapEntry) : UnitMap := SMap.set m mapDefault k e

/-! ### Time -/

/-- The local mark (R26). -/
def State.now (s : State) : Mark := ⟨s.beat.num, s.beat.phase⟩

/-- Marks are ordered by number first and by phase second (R26). -/
def Mark.le (a b : Mark) : Bool := decide (a.num < b.num) || (a.num == b.num && decide (a.phase ≤ b.phase))

/-- An absolute mark is reached once the local mark equals or passes it (R28). -/
def State.reached (s : State) (m : Mark) : Bool := m.le s.now

def State.tick (s : State) : Nat := s.beat.ticks

/-- The interpolator's count of phase units (R28). -/
def State.units (s : State) : Nat := s.beat.ticks * 65536 + s.beat.interp

/-- A mark as phase units. -/
def Mark.units (m : Mark) : Nat := m.num * 65536 + m.phase

/-! ### Bytes -/

/-- `n` bytes of a value, least significant first (R4). -/
def leBytes : Nat → Nat → List Byte
  | 0, _ => []
  | n + 1, v => BitVec.ofNat 8 v :: leBytes n (v / 256)

/-- Bytes at address `a`, cut where addresses are multiples of `size`. -/
def cutBytes (size a : Nat) (bs : List Byte) : List (Nat × List Byte) :=
  ((List.range (bs.length / size + 2)).map (fun i =>
    let lo := Nat.max a ((a / size + i) * size)
    (lo, (bs.drop (lo - a)).take ((a / size + i + 1) * size - lo)))).filter (fun x => x.2 != [])

/-- The value of little-endian bytes. -/
def leNat : List Byte → Nat
  | [] => 0
  | b :: bs => b.toNat + 256 * leNat bs

/-- Bytes [lo, lo + n) of a structure, as a little-endian value. -/
def field (bs : List Byte) (lo n : Nat) : Nat := leNat ((bs.drop lo).take n)

def pathKey : Path → Nat
  | .pf f => f.val
  | .mgmt => 4
  | .mctp => 5
  | .debug => 6

end Sys2Proof.Machine
end

