-- ==== Sys2Proof/Machine/Access.lean ====
section
/-!
DEFINITION. Partitions (R12, R17–R19, R93) and the rules of access to control space (R7, R8, R154, R166, R195, R196, R214,
R243, R262, R287, R307, R349, R390, R413, R435, R436, R454).
-/
namespace Sys2Proof.Machine

open Reg

/-! ### Partitions (Table DEV-4a) -/

def partCount (mode : Nat) : Nat := if mode = 1 then 2 else if mode = 2 then 4 else 1

/-- The partition that contains a compute die. -/
def partOfDie (mode d : Nat) : Nat := if mode = 1 then d / 2 else if mode = 2 then d else 0

def State.partOfDie (s : State) (d : Nat) : Nat := Machine.partOfDie s.mode d

/-- The compute dies of a partition, ascending. -/
def State.diesOf (s : State) (p : Nat) : List Nat := (List.range 4).filter (fun d => s.partOfDie d == p)

/-- The stacks of a partition, ascending (R12). -/
def State.stacksOf (s : State) (p : Nat) : List Nat := (List.range 8).filter (fun h => s.partOfDie (h / 2) == p)

def State.partOfQueue (s : State) (q : Nat) : Nat := s.partOfDie (q / 16)

def State.partOfPort (s : State) (n : Nat) : Nat := s.partOfDie (n / 4)

def State.queuesOf (s : State) (p : Nat) : List Nat := (List.range 64).filter (fun q => s.partOfQueue q == p)

/-- The partitions of the active mode. -/
def State.parts (s : State) : List Nat := List.range (partCount s.mode)

/-- A switched domain is on. -/
def State.domOn (s : State) (d : Nat) : Bool := s.bit pwrDomStatusOn d

/-- The HBM domain of a stack: PD4 for H0–H3, PD5 for H4–H7. -/
def hbmDom (h : Nat) : Nat := 4 + h / 4

/-- R19: every compute domain of the partition and every HBM domain of its stacks is on. -/
def State.present (s : State) (p : Nat) : Bool :=
  decide (p < partCount s.mode) && (s.diesOf p).all s.domOn && (s.stacksOf p).all (fun h => s.domOn (hbmDom h))

def State.presentParts (s : State) : List Nat := s.parts.filter s.present

/-- The partition mask of a list of partitions. -/
def maskOf (l : List Nat) : Nat := l.foldl (fun m p => m ||| 2 ^ p) 0

/-! ### Paths -/

/-- A JTAG session at level 2 (R427). -/
def State.unlocked (s : State) : Bool := s.rd dbgStatusLevel == 2

/-- The management protocol or unlocked debug. -/
def State.mgmtOrDebug (s : State) : Path → Bool
  | .mgmt => true
  | .debug => s.unlocked
  | _ => false

/-- A function is presented on the link only if its partition exists in the active mode (R17). -/
def State.presented (s : State) (f : Nat) : Bool := decide (f < partCount s.mode)

/-- Whether the path's view holds partition `p`: PF0 covers all of control space, PF1–PF3 their own partition (R17). -/
def State.seesPart (s : State) (path : Path) (p : Nat) : Bool :=
  match path with
  | .pf f => s.presented f.val && (f.val == 0 || f.val == p)
  | _ => true

/-- The partition an array's first index belongs to. -/
def State.partOfIndex (s : State) (c : RdCls) (i : Nat) : Nat :=
  match c with
  | .queue => s.partOfQueue i
  | .stack => s.partOfDie (i / 2)
  | .port => s.partOfPort i
  | .die => s.partOfDie i
  | .cluster => s.partOfDie (i / 168)
  | .session =>
    ((s.parts.find? (fun p => decide (s.rd (medPartCfgSessFirst p) ≤ i) &&
      decide (i < s.rd (medPartCfgSessFirst p) + s.rd (medPartCfgSessCount p)))).getD 4)
  | _ => i

/-- A debug session's level grants reads of SYS and DBG at level 0, of everything from level 1 (R427). -/
def State.debugReads (s : State) (addr : Nat) : Bool :=
  decide (1 ≤ s.rd dbgStatusLevel) || decide (addr < 0x10000) || (decide (0xC0000 ≤ addr) && decide (addr < 0xD0000))

/-- R454: whether a register may be read on a path. -/
def State.mayRead (s : State) (path : Path) (d : RegDesc) (ix : List Nat) (addr : Nat) : Bool :=
  let i := ix.headD 0
  match path with
  | .debug => s.debugReads addr
  | .mgmt => true
  | .mctp => true
  | .pf f =>
    s.presented f.val &&
    match d.rd with
    | .all => true
    | .anyPfMd => true
    | .pf0md => f.val == 0
    | .pf0mmd => f.val == 0
    | .fn => f.val == 0 || f.val == i
    | c => s.seesPart path (s.partOfIndex c i)

/-- R454: whether a path may write a register; fields with narrower rules are tested where they are written. -/
def State.mayWrite (s : State) (path : Path) (d : RegDesc) (ix : List Nat) (addr : Nat) : Bool :=
  let i := ix.headD 0
  match path with
  | .debug => s.unlocked && d.wr != .none
  | .mgmt => d.wr != .none
  | .mctp => decide (0x580000 ≤ addr) && decide (addr < 0x590000)
  | .pf f =>
    s.presented f.val &&
    match d.wr with
    | .none => false
    | .md => false
    | .mmd => false
    | .debugBlock => false
    | .pf0md => f.val == 0
    | .resetControl => true
    | .anyPfMd => true
    | .claExt => true
    | .claRegion => f.val == 0 || f.val == s.rd (claRegionPart i)
    | .fn => f.val == 0 || f.val == i
    | .partition => s.seesPart path i
    | .queue => s.seesPart path (s.partOfIndex .queue i)
    | .session => s.seesPart path (s.partOfIndex .session i)
    | .die => s.seesPart path (s.partOfIndex .die i)
    | .cluster => s.seesPart path (s.partOfIndex .cluster i)

/-- A path that may write the registers of queue `q` (R17, R154). -/
def State.ownsQueue (s : State) (path : Path) (q : Nat) : Bool :=
  match path with
  | .mctp => false
  | .debug => s.unlocked
  | .mgmt => true
  | .pf _ => s.seesPart path (s.partOfQueue q)

/-- A path that may write the registers of partition `p` (R262, R435); a partition absent from the active mode ignores
writes. -/
def State.ownsPart (s : State) (path : Path) (p : Nat) : Bool :=
  decide (p < partCount s.mode) &&
  match path with
  | .mctp => false
  | .debug => s.unlocked
  | .mgmt => true
  | .pf _ => s.seesPart path p

/-! ### Fences -/

/-- Whether a reset sequence covers partition `p` with its fence in force (R276). -/
def ResetSeq.fences (r : ResetSeq) (p : Nat) : Bool :=
  decide (2 ≤ r.phase) &&
  match r.dom with
  | .device => true
  | .part q => q.val == p
  | _ => false

/-- The partition's domain is fenced: for a reset, or for a thermal stop from its step 2 on (R276, Table THM-3). -/
def State.fenced (s : State) (p : Nat) : Bool :=
  s.hang.resets.any (fun r => r.fences p) || decide (2 ≤ s.thm.stop) || s.hang.waiting

/-- The fence of one engine of a partition (R277). -/
def State.engineFenced (s : State) (p e : Nat) : Bool :=
  s.hang.resets.any (fun r => decide (2 ≤ r.phase) &&
    match r.dom with
    | .engine q f => q.val == p && f.val == e
    | _ => false)

/-- The partition is fenced for a churn run (R232). -/
def State.churnFenced (s : State) (p : Nat) : Bool :=
  match s.qtn.churn with
  | some c => c.parts.testBit p
  | none => false

end Sys2Proof.Machine
end

