-- ==== Sys2Proof/Machine/Ecdsa.lean ====
section
/-!
DEFINITION. Verification of an ECDSA P-384 signature with SHA-384, which R237 takes from FIPS 186-5.
-/
namespace Sys2Proof.Machine

/-- The prime of the field, the order of the base point, and the base point of P-384 (SP 800-186). -/
def p384 : Nat := 2 ^ 384 - 2 ^ 128 - 2 ^ 96 + 2 ^ 32 - 1

def n384 : Nat := 0xFFFFFFFFFFFFFFFFFFFFFFFFFFFFFFFFFFFFFFFFFFFFFFFFC7634D81F4372DDF581A0DB248B0A77AECEC196ACCC52973

def b384 : Nat := 0xB3312FA7E23EE7E4988E056BE3F82D19181D9C6EFE8141120314088F5013875AC656398D8A2ED19D2A85C8EDD3EC2AEF

def g384 : Nat × Nat :=
  (0xAA87CA22BE8B05378EB1C71EF320AD746E1D3B628BA79B9859F741E082542A385502F25DBF55296C3A545E3872760AB7,
   0x3617DE4A96262C6F5D9E98BF9292DC29F8F41DBD289A147CE9DA3113B5F0B8C00A60B1CE1D7E819D7A431D7C90EA0E5F)

/-- `x` to the power `e` modulo `m`, by the low `k` bits of `e`. -/
def powMod (m x e : Nat) : Nat → Nat
  | 0 => 1
  | k + 1 =>
    let y := powMod m (x * x % m) (e / 2) k
    if e % 2 = 1 then x * y % m else y

/-- The inverse modulo a prime. -/
def invMod (m x : Nat) : Nat := powMod m x (m - 2) 384

/-- A point of the curve; none at infinity. -/
abbrev EcPoint := Option (Nat × Nat)

/-- The sum of two points. -/
def ecAdd (u v : EcPoint) : EcPoint :=
  match u, v with
  | none, y => y
  | x, none => x
  | some (x1, y1), some (x2, y2) =>
    if x1 = x2 ∧ (y1 + y2) % p384 = 0 then none
    else
      let l := if x1 = x2 then (3 * x1 * x1 + (p384 - 3)) * invMod p384 (2 * y1) % p384
        else (y2 + p384 - y1) * invMod p384 (x2 + p384 - x1) % p384
      let x3 := (l * l + 2 * p384 - x1 - x2) % p384
      some (x3, (l * (x1 + p384 - x3) + p384 - y1) % p384)

/-- A multiple of a point, by the low `n` bits of the factor. -/
def ecMul (u : EcPoint) (k : Nat) : Nat → EcPoint
  | 0 => none
  | n + 1 =>
    let v := ecMul (ecAdd u u) (k / 2) n
    if k % 2 = 1 then ecAdd u v else v

/-- The point of a public key lies on the curve. -/
def onCurve (q : Nat × Nat) : Bool :=
  decide (q.1 < p384) && decide (q.2 < p384) && q.2 * q.2 % p384 == (q.1 * q.1 * q.1 + (p384 - 3) * q.1 + b384) % p384

/-- Bytes, the most significant first. -/
def beNat (bs : List Byte) : Nat := bs.foldl (fun n b => n * 256 + b.toNat) 0

/-- The signature (r, s) of `msg` verifies under the public key `q`. -/
def ecdsaOk (q : Nat × Nat) (msg : List Byte) (r s : Nat) : Bool :=
  let w := invMod n384 s
  let e := beNat (sha384 msg)
  let x := ecAdd (ecMul (some g384) (e * w % n384) 384) (ecMul (some q) (r * w % n384) 384)
  onCurve q && decide (0 < r) && decide (r < n384) && decide (0 < s) && decide (s < n384) &&
  (match x with
    | some (a, _) => a % n384 == r
    | none => false)

end Sys2Proof.Machine
end

