-- ==== Sys2Proof/Machine/Message.lean ====
section
/-!
DEFINITION. The management network (R191): addresses, the stack's answers; and the messages of the management protocol, their
header, MAC and tests (R192, R193, Table LNK-8).
-/
namespace Sys2Proof.Machine

open Reg

/-- CC3 runs its firmware. -/
def State.cc3Up (s : State) : Bool := s.pwr.aon && (s.core 3).state == .running

/-! ### Addresses (R191, Table LNK-10) -/

/-- Four registers as one 128-bit value. -/
def State.rd128 (s : State) (f : Nat → Fld) : Nat :=
  s.rd (f 0) + 2 ^ 32 * s.rd (f 1) + 2 ^ 64 * s.rd (f 2) + 2 ^ 96 * s.rd (f 3)

/-- The IPv4 address: leased under DHCPv4, else static; 0 while there is none. -/
def State.mgtAddr4 (s : State) : Nat := if s.on mgtNetCfgDhcp4 then s.link.lease else s.rd mgtIp4Addr

/-- The IPv6 address: from SLAAC, or static; 0 while there is none. -/
def State.mgtAddr6 (s : State) : Nat :=
  if !s.on mgtNetCfgIp6 then 0 else if s.on mgtNetCfgSlaac then s.link.slaac else s.rd128 mgtIp6Addr

def State.mgtAddr (s : State) (ip6 : Bool) : Nat := if ip6 then s.mgtAddr6 else s.mgtAddr4

/-- An address of the management port. -/
def State.ownMgtAddr (s : State) (ip6 : Bool) (a : Nat) : Bool := a != 0 && a == s.mgtAddr ip6

/-- The collector (R194). -/
def State.collector (s : State) : NetAddr :=
  let ip6 := s.on mgtNetCfgIp6
  { ip6 := ip6, addr := if ip6 then s.rd128 mgtCollector6Addr else s.rd mgtCollectorAddr, port := s.rd mgtColPortPort }

/-! ### The stack (R191) -/

/-- What the stack asks for when it starts: an address by DHCPv4, a router by NDP. -/
def State.startNet (s : State) : State :=
  let s1 := if s.on mgtNetCfgDhcp4 then s.emit (.net none .dhcpDiscover) else s
  if s.on mgtNetCfgIp6 && s.on mgtNetCfgSlaac then s1.emit (.net none .routerSolicit) else s1

/-- A frame of the management network: the answer carries the 802.1Q tag of the frame. -/
def State.netRx (s : State) (x : NetFrame) : State :=
  match x.rx with
  | .arpRequest target sender =>
    if s.ownMgtAddr false target then s.emit (.net x.vlan (.arpReply target sender Config.mgtMac)) else s
  | .echoRequest ip6 dst src data => if s.ownMgtAddr ip6 dst then s.emit (.net x.vlan (.echoReply ip6 dst src data)) else s
  | .neighborSolicit target sender =>
    if s.ownMgtAddr true target then s.emit (.net x.vlan (.neighborAdvert target sender Config.mgtMac)) else s
  | .routerAdvert pre =>
    if s.on mgtNetCfgIp6 && s.on mgtNetCfgSlaac then
      { s with link := { s.link with slaac := pre % 2 ^ 64 * 2 ^ 64 + Config.mgtIid % 2 ^ 64 } }
    else s
  | .dhcpOffer a => if s.on mgtNetCfgDhcp4 then s.emit (.net x.vlan (.dhcpRequest a)) else s
  | .dhcpAck a => if s.on mgtNetCfgDhcp4 then { s with link := { s.link with lease := a } } else s
  | .other => s

/-- Frames of the management network reach the stack while CC3 runs. -/
def State.netRxAll (s : State) (xs : List NetFrame) : State := if s.cc3Up then xs.foldl (fun t x => t.netRx x) s else s

/-! ### Messages (Table LNK-8) -/

/-- The 32 header bytes of a message. -/
def mgtHeader (type seq serial len key flags ackSeq session : Nat) : List Byte :=
  leBytes 2 0x6B4D ++ leBytes 1 1 ++ leBytes 1 type ++ leBytes 4 seq ++ leBytes 8 serial ++ leBytes 2 len ++ leBytes 1 key ++
  leBytes 1 flags ++ leBytes 4 ackSeq ++ leBytes 8 session

/-- The key that a slot holds: written through MCTP, or fused before. -/
def State.mgtKey (s : State) (k : Nat) : List Byte :=
  let w := s.link.keys.get (fun _ => []) k
  if w = [] then Config.mgtKey k else w

/-- The MAC: HMAC-SHA-384 over header and payload, truncated to its first 128 bits (R192). -/
def State.mgtMac (s : State) (k : Nat) (bs : List Byte) : List Byte := (hmac384 (s.mgtKey k) bs).take 16

/-- The key slot of the messages that the device sends of its own: the lowest that is fused and active (log entry 133). -/
def State.ownKey (s : State) : Nat :=
  ((List.range 8).find? (fun k => s.bit mgtKeyCfgFused k && s.bit mgtKeyCfgActive k)).getD 0

/-- A message that the device sends: header, payload and MAC. -/
def State.mgtMessage (s : State) (type seq key flags ackSeq : Nat) (payload : List Byte) : List Byte :=
  let b := mgtHeader type seq Config.serial.toNat payload.length key flags ackSeq s.link.session.toNat ++ payload
  b ++ s.mgtMac key b

/-- FLAGS of Table LNK-8. -/
def mgtFlags (ackReq lost : Bool) : Nat := ackReq.toNat + 2 * lost.toNat

/-- A message that is not held takes the next SEQ, and carries LOST where one is due. -/
def State.sendMgt (s : State) (vlan : Option Nat) (to' : NetAddr) (type key ackSeq : Nat) (payload : List Byte) : State :=
  { s with link := { s.link with outSeq := s.link.outSeq + 1, lost := false } }.emit
    (.mgt vlan to' (s.mgtMessage type s.link.outSeq key (mgtFlags false s.link.lost) ackSeq payload))

/-- The answer to a message goes where it came from, under its key. -/
def State.answerMgt (s : State) (m : MgtHdr) (type : Nat) (payload : List Byte) : State :=
  s.sendMgt m.vlan m.src type m.key m.seq payload

/-! ### Inbound messages (R193) -/

/-- R193: the tests that a message must pass. -/
def State.accepts (s : State) (m : MgtHdr) (type : Nat) (payload : List Byte) : Bool :=
  m.mac == s.mgtMac m.key (mgtHeader type m.seq m.serial.toNat payload.length m.key m.flags m.ackSeq m.session.toNat ++ payload) &&
  m.serial == Config.serial && m.session == s.link.session && s.bit mgtKeyCfgFused m.key.val && s.bit mgtKeyCfgActive m.key.val &&
  decide (s.link.lastSeq.get (fun _ => 0) m.key.val < m.seq + 1)

/-- The message reaches the management protocol: over UDP, at an address of the port, on port MGT_NET_CFG.PORT, with a payload of at
most 1,024 bytes (R192). -/
def State.reaches (s : State) (m : MgtHdr) (payload : List Byte) : Bool :=
  s.ownMgtAddr m.dst.ip6 m.dst.addr && m.dst.port == s.rd mgtNetCfgPort && decide (payload.length ≤ 1024)

/-- An inbound message: acted on, or counted and never answered. -/
def State.inbound (s : State) (m : MgtHdr) (type : Nat) (payload : List Byte) (f : State → State) : State :=
  if !s.cc3Up || !s.reaches m payload then s
  else if !s.accepts m type payload then s.count mgtRxRejectCount 1
  else f { s with link := { s.link with lastSeq := s.link.lastSeq.set (fun _ => 0) m.key.val (m.seq + 1) } }

/-- The payload of a COMMAND: its code, two bytes of zero, and its arguments (R242). -/
def commandPayload (code : Nat) (args : List Byte) : List Byte := leBytes 2 code ++ leBytes 2 0 ++ args

end Sys2Proof.Machine
end

