-- ==== Sys2Proof/Decode.lean ====
section
/-!
DEFINITION. The decoder of command words. spec/opcode_table.json gives no row of this hardware any bits: a command is an
access, a frame or an event, not a word. So no word spells a command. The payload of a COMMAND message does spell one (R242,
R351): `decodeCommand` reads it.
-/
namespace Sys2Proof

/-- The command a word spells by the table's bits: none, since the table gives its rows none. -/
def decodeTableWord (_nbits _w : Nat) : Option Instr := none

open Machine (field)

/-- The command that the payload of a COMMAND message spells (Table QTN-8, R351): its code, two zero bytes, and arguments of the
length that the code has. -/
def decodeCommand (via : CmdVia) (p : List Byte) : Option Instr :=
  let args := p.drop 4
  let n := args.length
  let word := fun (lo : Nat) => BitVec.ofNat 32 (field args lo 4)
  if p.length < 4 ∨ field p 2 2 ≠ 0 then none
  else
    match field p 0 2 with
    | 0x0A01 => if n = 4 then some (.quarantine via (word 0)) else none
    | 0x0A02 => if n = 4 then some (.suspect via (word 0)) else none
    | 0x0A03 => if n = 8 then some (.reinstate via (word 0) (word 4)) else none
    | 0x0A10 => if n = 2 then some (.churnGrant via (field args 0 1) (field args 1 1)) else none
    | 0x0A11 => if n = 0 then some (.churnAbort via) else none
    | 0x0A20 => if n = 12 then some (.packBegin via (field args 0 4) (field args 4 4) (field args 8 4)) else none
    | 0x0A21 => if 5 ≤ n ∧ n ≤ 1012 then some (.packData via (field args 0 4) (args.drop 4)) else none
    | 0x0A22 => if n = 0 then some (.packCommit via) else none
    | 0x0A30 => if 3 ≤ n ∧ n ≤ 1010 then some (.panelData via (field args 0 2) (args.drop 2)) else none
    | 0x0A31 => if n = 0 then some (.panelCommit via) else none
    | _ => none

/-- The payload of a command of Table QTN-8 or R351; none for any other command. -/
def encodeCommand : Instr → Option (List Byte)
  | .quarantine _ u => some (Machine.commandPayload 0x0A01 (Machine.leBytes 4 u.toNat))
  | .suspect _ u => some (Machine.commandPayload 0x0A02 (Machine.leBytes 4 u.toNat))
  | .reinstate _ u e => some (Machine.commandPayload 0x0A03 (Machine.leBytes 4 u.toNat ++ Machine.leBytes 4 e.toNat))
  | .churnGrant _ l d => some (Machine.commandPayload 0x0A10 (Machine.leBytes 1 l ++ Machine.leBytes 1 d))
  | .churnAbort _ => some (Machine.commandPayload 0x0A11 [])
  | .packBegin _ i v n => some (Machine.commandPayload 0x0A20 (Machine.leBytes 4 i ++ Machine.leBytes 4 v ++ Machine.leBytes 4 n))
  | .packData _ o bs => some (Machine.commandPayload 0x0A21 (Machine.leBytes 4 o ++ bs))
  | .packCommit _ => some (Machine.commandPayload 0x0A22 [])
  | .panelData _ o bs => some (Machine.commandPayload 0x0A30 (Machine.leBytes 2 o ++ bs))
  | .panelCommit _ => some (Machine.commandPayload 0x0A31 [])
  | _ => none

end Sys2Proof
end

