-- ==== Sys2Proof/Machine/Report.lean ====
section
/-!
DEFINITION. Signatures (Table SCR-2) and everything the device sends about itself: held management messages (R194), host
event vectors (R172), WSF records and their counters (R239–R241, R340).
-/
namespace Sys2Proof.Machine

open Reg

/-! ### CRC-64 (Table SCR-2) -/

def crcBit (c : Word64) : Word64 := if c.getLsbD 0 then (c >>> 1) ^^^ 0xC96C5795D7870F42#64 else c >>> 1

def crcByte (c : Word64) (b : Byte) : Word64 :=
  let c0 := c ^^^ b.zeroExtend 64
  crcBit (crcBit (crcBit (crcBit (crcBit (crcBit (crcBit (crcBit c0)))))))

/-- The register after more bytes, before the final XOR. -/
def crcFeed (c : Word64) (bs : List Byte) : Word64 := bs.foldl crcByte c

def crcInit : Word64 := 0xFFFFFFFFFFFFFFFF#64

/-- CRC-64 of Table SCR-2. -/
def crc64 (bs : List Byte) : Word64 := ~~~ (crcFeed crcInit bs)

/-- `n` bytes of zeros with pieces laid over them at their offsets, later pieces on top. -/
def overlay (n : Nat) (pieces : List (Nat × List Byte)) : List Byte :=
  pieces.foldl (fun bs p => (bs.take p.1 ++ p.2 ++ bs.drop (p.1 + p.2.length)).take n) (List.replicate n 0)

/-! ### Units of the map (R216, R219) -/

/-- The unit word of a map key: clusters at 0, vector units at 672, pseudo-channels at 1,344, lanes at 1,856. -/
def unitWord (k : Nat) : Nat :=
  if k < 672 then 0x40000000 + k
  else if k < 1344 then 0x40001000 + (k - 672)
  else if k < 1856 then 0x80000000 + (k - 1344)
  else 0xC0000000 + (k - 1856)

/-- The map key of a unit word; none for a word that R219 refuses with BAD_UNIT. -/
def unitKey (w : Nat) : Option Nat :=
  let kind := bitsOf w 30 2
  let vu := bitsOf w 12 1
  let i := bitsOf w 0 12
  if bitsOf w 13 17 ≠ 0 then none
  else if kind = 1 then (if i < 672 then some (if vu = 1 then 672 + i else i) else none)
  else if vu = 1 then none
  else if kind = 2 then (if i < 512 then some (1344 + i) else none)
  else if kind = 3 then (if i < 128 then some (1856 + i) else none)
  else none

/-- The compute die a unit belongs to; none for a lane. -/
def unitDie (k : Nat) : Option Nat :=
  if k < 672 then some (k / 168)
  else if k < 1344 then some ((k - 672) / 168)
  else if k < 1856 then some ((k - 1344) / 128)
  else none

/-- The partition a unit belongs to. -/
def State.partOfUnit (s : State) (k : Nat) : Nat :=
  match unitDie k with
  | some d => s.partOfDie d
  | none => s.partOfPort ((k - 1856) / 8)

/-- The thermal domain code of a unit (Table THM-1). -/
def unitDomain (k : Nat) : Nat :=
  if k < 1344 then (unitDie k).getD 0 else if k < 1856 then 5 + (k - 1344) / 64 else 4

/-! ### MRAM counters (R340) -/

/-- The counter copy in force: a good CRC and the higher GEN. -/
def MramSt.counters (m : MramSt) : CounterCopy :=
  if m.count1.crcOk && (!m.count0.crcOk || decide (m.count0.gen < m.count1.gen)) then m.count1 else m.count0

/-- A counter update: written to the copy that does not hold the higher GEN, with GEN raised by 1. -/
def MramSt.update (m : MramSt) (f : CounterCopy → CounterCopy) : MramSt :=
  let c := m.counters
  let c' := { f c with gen := c.gen + 1, crcOk := true }
  if m.count1.crcOk && (!m.count0.crcOk || decide (m.count0.gen < m.count1.gen)) then { m with count0 := c' }
  else { m with count1 := c' }

def State.counterUpdate (s : State) (f : CounterCopy → CounterCopy) : State := { s with mram := s.mram.update f }

/-- A counter value past `within` of its ceiling raises the ceiling by 1,024, or 1,024 above a counter that reached
it. -/
def raiseCeil (counter ceil : Nat) : Nat :=
  if ceil ≤ counter then counter + 1024 else if ceil < counter + 256 then ceil + 1024 else ceil

/-- The active RMG core. -/
def State.activeCore (s : State) : Nat := s.rd hngStatusActiveRmg

/-- No core does the RMG's firmware work: a takeover runs (R272), or a debug halt stops the active core (R434). -/
def State.rmgDown (s : State) : Bool := s.hang.takeover.isSome || (s.core s.activeCore).state == .halted

/-- Firmware writes MRAM: not after PWR_FAIL_N (R306), nor without the RMG. -/
def State.mramOk (s : State) : Bool := !s.pwr.failSeen && !s.rmgDown

/-- The next fault SEQ (R247): the counter rises, and firmware keeps its ceiling ahead of it. -/
def State.nextFaultSeq (s : State) : Nat × State :=
  let n := s.evr.faultSeq
  let s1 := { s with evr := { s.evr with faultSeq := n + 1 } }
  let c := s.mram.counters.faultCeil
  (n, if raiseCeil (n + 1) c = c ∨ !s.mramOk then s1 else s1.counterUpdate (fun k => { k with faultCeil := raiseCeil (n + 1) c }))

/-- The next CAP_SEQ (R280). -/
def State.nextCapSeq (s : State) : Nat × State :=
  let n := s.evr.capSeq
  let s1 := { s with evr := { s.evr with capSeq := n + 1 } }
  let c := s.mram.counters.capCeil
  (n, if raiseCeil (n + 1) c = c ∨ !s.mramOk then s1 else s1.counterUpdate (fun k => { k with capCeil := raiseCeil (n + 1) c }))

/-! ### Management messages (R194) -/

/-- Drops the oldest held message when 256 are held (R194). -/
def State.makeRoom (s : State) : State :=
  if s.link.msgs.length < 256 then s
  else ({ s with link := { s.link with msgs := s.link.msgs.drop 1, lost := true } }).count mgtRptDropCount 1

/-- A held message goes to the collector with ACK_REQ = 1. -/
def State.sendMsg (s : State) (x : HeldMsg) : State :=
  s.emit (.mgt none s.collector (s.mgtMessage x.kind x.seq s.ownKey (mgtFlags true x.lost) 0 x.payload))

/-- A REPORT, EVENT or JOB_FAULT goes to the collector with ACK_REQ, and is held until it is acknowledged. -/
def State.sendHeld (s : State) (kind : Nat) (payload : List Byte) : State :=
  let s1 := s.makeRoom
  let l := s1.link
  let msg : HeldMsg := ⟨l.outSeq, kind, l.lost, payload, s1.tick⟩
  let s2 := { s1 with link := { l with outSeq := l.outSeq + 1, lost := false, msgs := l.msgs ++ [msg] } }
  (s2.sendMsg msg).wr mgtRptPendingCount (l.msgs.length + 1)

def State.sendEvent (s : State) (payload : List Byte) : State := s.sendHeld 0x11 payload

/-- A report to management whose payload the spec does not lay out (log entry 3). -/
def State.report (s : State) (code : Nat) : State := s.sendEvent (Config.eventPayload code)

/-! ### Host vectors (R107, R169, R171, R172) -/

def State.linkUp (s : State) : Bool := s.on (hifStatusUp 0)

/-- An outbound posted write was dropped (R171). -/
def State.postedDrop (s : State) (f : Nat) : State :=
  ((s.count (hifPostedDropCount f) 1).event (hifEventPostedDrop f)).report 1

/-- A word of function `f`'s MSI-X table (from offset 0) and pending-bit array (from 0x8000), Table LNK-1. -/
def State.msixWord (s : State) (f off : Nat) : Word32 := s.msix.get (fun _ => 0) (f * 2 ^ 24 + off)

def State.setMsixWord (s : State) (f off : Nat) (v : Word32) : State :=
  { s with msix := s.msix.set (fun _ => 0) (f * 2 ^ 24 + off) v }

/-- The mask bit of a vector. It is held inverted, so that a vector not written yet is masked (log entry 39). -/
def State.msixMasked (s : State) (f vector : Nat) : Bool := !(s.msixWord f (16 * vector + 12)).getLsbD 0

/-- The place of a vector's pending bit. -/
def pendingOff (vector : Nat) : Nat := 0x8000 + vector / 32 * 4

def State.msixPending (s : State) (f vector : Nat) : Bool := (s.msixWord f (pendingOff vector)).getLsbD (vector % 32)

def State.setPending (s : State) (f vector : Nat) (b : Bool) : State :=
  s.setMsixWord f (pendingOff vector)
    (BitVec.ofNat 32 (setBits (s.msixWord f (pendingOff vector)).toNat (vector % 32) 1 b.toNat))

/-- An MSI-X message of function `f`: while the vector is masked it stays pending. -/
def State.msix' (s : State) (f vector : Nat) : State :=
  if !s.linkUp then s.event (hifEventMsiLost f)
  else if s.msixMasked f vector then s.setPending f vector true
  else if s.link.busMaster.testBit f then s.emit (.msix f vector)
  else s.postedDrop f

/-- A write of function `f`'s MSI-X table: unmasking a vector sends its pending message. The pending-bit array is read only. -/
def State.writeMsix (s : State) (f off : Nat) (v : Word32) : State :=
  if 0x8000 ≤ off then s
  else if off % 16 ≠ 12 then s.setMsixWord f off v
  else
    let s1 := s.setMsixWord f off (if v.getLsbD 0 then 0 else 1)
    if !v.getLsbD 0 && s1.msixPending f (off / 16) then (s1.setPending f (off / 16) false).msix' f (off / 16) else s1

/-- A read of it. -/
def State.readMsix (s : State) (f off : Nat) : Nat :=
  if off < 0x8000 ∧ off % 16 = 12 then (s.msixMasked f (off / 16)).toNat else (s.msixWord f off).toNat

/-- A device event on one function's vector (R172). -/
def State.hostVector (s : State) (f : Nat) : State :=
  if s.on (hifEvtCfgEn f) then s.msix' f (s.rd (hifEvtCfgVector f)) else s

/-- A device event that concerns the partitions `ps`: on PF0's vector and on that of each partition's function. -/
def State.hostEvent (s : State) (ps : List Nat) : State :=
  ((ps.filter (fun p => p ≠ 0)).foldl (fun t p => t.hostVector p) (s.hostVector 0))

/-! ### WSF records (R239–R241) -/

/-- Level of a thermal domain: 0 NONE, 1 WARN, 2 THROTTLE, 3 SHUTDOWN (R326). -/
def State.levelOf (s : State) (d : Nat) : Nat := bitsOf (s.rd thmLevelLevel) (2 * d) 2

/-- The highest level over the domains. -/
def State.topLevel (s : State) : Nat := ((List.range 13).map s.levelOf).foldl Nat.max 0

/-- READ_VOUT of the first valid PMBus entry that feeds a rail; 0 when no entry does (R301). -/
def State.railMv (s : State) (rail : Nat) : Nat :=
  match (List.range 16).find? (fun e => s.on (pwrPmbMapValid e) && s.rd (pwrPmbMapRail e) == rail) with
  | some e => s.rd (pwrPmbTlmVout e)
  | none => 0

/-- P of a die in THM_CLK_PCT. -/
def clkPct (d : Nat) : Fld := ⟨thmClkPct, 8 * d, 8⟩

/-- The bytes of a record but for RECORD_SEQ and CRC: common fields of Table QTN-6 for unit `k`, then `extra`. -/
def State.wsfBytes (s : State) (kind : Nat) (unit : Option Nat) (lc before after epoch : Nat)
    (extra : List (Nat × List Byte)) : List Byte :=
  let k := unit.getD 0
  let die := (unit.bind unitDie).getD 0
  overlay 248 ([
    (0, leBytes 2 0x5357), (2, [1]), (3, leBytes 1 kind), (8, leBytes 4 (s.rd evrSeqSeq)),
    (12, leBytes 8 Config.serial.toNat), (20, leBytes 1 (s.reg sysStep).toNat),
    (21, leBytes 1 (s.mode + 4 * (unit.map s.partOfUnit).getD 0)),
    (24, leBytes 4 (s.rd fabDevIdId + 2 ^ 31 * s.rd fabDevIdValid)),
    (28, leBytes 4 ((unit.map unitWord).getD 0)), (32, leBytes 2 lc), (34, leBytes 1 before), (35, leBytes 1 after),
    (36, leBytes 4 epoch), (88, leBytes 8 s.beat.num), (96, leBytes 2 s.beat.phase),
    (98, leBytes 1 (s.rd beatStatusState)), (104, leBytes 2 (s.rd thmDevMaxTemp)),
    (106, leBytes 2 (s.rd (thmDomMaxNow (unitDomain k)))),
    (108, leBytes 2 (s.railMv 0)), (110, leBytes 2 (s.railMv 1)), (112, leBytes 2 (s.railMv 2)),
    (114, leBytes 2 (s.railMv 3)), (116, leBytes 2 (s.railMv 4)), (118, leBytes 2 (s.rd (clkDieMhz die))),
    (120, leBytes 1 (s.rd (clkPct die) + 128 * (decide (s.rd (clkPct die) < 100)).toNat)),
    (121, leBytes 1 s.thm.highest), (122, leBytes 2 (s.rd pwrEstNow)), (128, leBytes 8 (Config.fwVersion s.link.fwApplied.1).toNat),
    (136, leBytes 4 (if s.on qtnPackStatusValid then s.rd qtnPackVersionVersion else 0)), (140, leBytes 4 (s.reg qtnSpares).toNat)] ++ extra)

/-- A record takes the next RECORD_SEQ and its CRC, shows in QTN_WSF_LAST, and goes out as a REPORT and as a PLDM event
of class 0xFA (R241). No number is handed out while MRAM is not written: the record waits (R272, R340). -/
def State.sendWsf (s : State) (r : WsfRec) : State :=
  if !s.mramOk then { s with qtn := { s.qtn with held := s.qtn.held ++ [r] } } else
  let n := s.rd qtnWsfSeqSeq
  let body := overlay 248 [(0, r.bytes), (4, leBytes 4 n)]
  let full := body ++ leBytes 8 (crc64 body).toNat
  let s1 := (s.counterUpdate (fun c => { c with recordSeq := n + 1 })).wr qtnWsfSeqSeq (n + 1)
  let s2 := { s1 with qtn := { s1.qtn with last := full }, thm := { s1.thm with highest := s1.topLevel } }
  (s2.sendHeld 0x10 full).emit (.pldmEvent 0xFA full)

def State.sendWsfs (s : State) (rs : List WsfRec) : State := rs.foldl (fun t r => t.sendWsf r) s

/-! ### Thermal reports (R337, Table THM-4) -/

/-- The thermal domain of a sensor (Table THM-1). -/
def sensorDomain (i : Nat) : Nat := if i < 96 then i / 24 else if i < 112 then 4 else i - 112 + 5

def State.lowestPct (s : State) : Nat := ((List.range 4).map (fun d => s.rd (clkPct d))).foldl Nat.min 100

/-- Partitions that a thermal domain concerns (R172). -/
def State.domParts (s : State) (d : Nat) : List Nat :=
  if d < 4 then [s.partOfDie d] else if 5 ≤ d ∧ d < 13 then [s.partOfDie ((d - 5) / 2)] else s.parts

/-- The 16-byte payload. -/
def State.thermalPayload (s : State) (kind dom level : Nat) (temp : Int) (sensor : Nat) : List Byte :=
  [0x0D] ++ leBytes 1 kind ++ leBytes 1 dom ++ leBytes 1 level ++ leBytes 2 (twos 16 temp) ++ leBytes 1 sensor ++
    leBytes 1 s.lowestPct ++ leBytes 8 s.beat.num

/-- An EVENT, a PLDM event whose data the spec does not lay out, and the host vectors. -/
def State.reportThermal (s : State) (kind dom level : Nat) (temp : Int) (sensor : Nat) : State :=
  ((s.sendEvent (s.thermalPayload kind dom level temp sensor)).emit (.pldmEvent 0 (Config.eventPayload 8))).hostEvent
    (s.domParts dom)

/-- A report that names no domain but the device. -/
def State.reportDevice (s : State) (kind dom level : Nat) : State :=
  s.reportThermal kind dom level (signed 16 (s.rd thmDevMaxTemp)) (s.rd thmDevMaxSensor)

/-- The report of a trip, sent once AON firmware runs (R337). -/
def State.reportTrip (s : State) (sensor : Nat) : State :=
  let d := sensorDomain sensor
  s.reportThermal 5 d (s.levelOf d) (signed 16 (s.rd (thmDomMaxNow d))) sensor

/-- The report of a trip that came while no firmware ran. -/
def State.flushTrip (s : State) : State :=
  match s.thm.owed with
  | some sensor => if s.rmgDown then s else ({ s with thm := { s.thm with owed := none } }).reportTrip sensor
  | none => s

/-- Firmware writes MRAM again: the records that waited go out, and the passes of units that left service are cleared. -/
def State.flushRecords (s : State) : State :=
  if !s.mramOk then s
  else
    let churn := s.qtn.drops.foldl (fun c k => c.set (fun _ => none) k none) s.mram.churn
    ({ s with qtn := { s.qtn with held := [], drops := [] }, mram := { s.mram with churn := churn } }).sendWsfs s.qtn.held

/-! ### FAULT_N (R172, R227, R286, R293, R295, R333) -/

/-- Whether some cause holds FAULT_N low. -/
def State.faultLow (s : State) : Bool :=
  s.pwr.safe || (s.on pwrCfgFaultOnFailed && s.rd pwrDomStatusFailed != 0) ||
  (s.on qtnCfgFaultOnReduced && s.presentParts.any (fun p => s.bit sysStatusPartsReduced p)) || s.on hngEventAutoRecovery || s.hang.waiting ||
  s.rd thmStatusState == 2

/-- SYS_STATUS shows FAULT_N, and its assertion is a device event of R172. -/
def State.updateFault (s : State) : State :=
  let low := s.faultLow
  if low && !s.on sysStatusFault then (s.wr sysStatusFault 1).hostEvent s.parts else s.wr sysStatusFault low.toNat

end Sys2Proof.Machine
end

