-- ==== Sys2Proof/Machine/History.lean ====
section
/-!
DEFINITION. History records (R342–R348, 16_event_recorder_and_status_panel.md): what the open record accumulates, and the
writes that closing events start.
-/
namespace Sys2Proof.Machine

open Reg

def State.openRec (s : State) : OpenRec := s.evr.open'

def State.setOpen (s : State) (r : OpenRec) : State := { s with evr := { s.evr with open' := r } }

/-- A count of a sparse accumulator rises. -/
def bump (m : SMap Nat) (k : Nat) : SMap Nat := m.set (fun _ => 0) k (m.get (fun _ => 0) k + 1)

def accOf (m : SMap Nat) (k : Nat) : Nat := m.get (fun _ => 0) k

/-- A corrected error of a stack, and a completed vote with its primary on a die (R344). -/
def State.recordCe (s : State) (h : Nat) : State := s.setOpen { s.openRec with ce := bump s.openRec.ce h }

def State.recordVote (s : State) (d : Nat) : State := s.setOpen { s.openRec with mismatch := bump s.openRec.mismatch d }

/-- Extremes follow their sources. -/
def State.recordHold (s : State) : State :=
  s.setOpen { s.openRec with holdMax := Nat.max s.openRec.holdMax (s.rd beatStatusHoldCount) }

def State.recordPower (s : State) : State := s.setOpen { s.openRec with powerMax := Nat.max s.openRec.powerMax (s.rd pwrEstNow) }

def State.recordTemp (s : State) : State :=
  s.setOpen { s.openRec with tempMax := max s.openRec.tempMax (signed 16 (s.rd thmDevMaxTemp)) }

/-- The lowest VDD_COREn reading among the entries that feed one. -/
def State.recordCore (s : State) (mv : Nat) : State := s.setOpen { s.openRec with vcoreMin := Nat.min s.openRec.vcoreMin mv }

/-- The byte that stands for a count of a histogram (R344). -/
def binByte (n : Nat) : Nat := if n = 0 then 0 else Nat.min 255 (1 + Nat.log2 (n ^ 8))

/-- Throttle residency. -/
def throttleByte (x samples : Nat) : Nat := if samples = 0 then 0 else (510 * x + samples) / (2 * samples)

/-- Bytes of `n` entries of `w` bytes each. -/
def packed (n w : Nat) (f : Nat → Nat) : List Byte := (List.range n).flatMap (fun i => leBytes w (f i))

/-- The open record as it would be written now, its CRC zero (Table EVR-3). -/
def State.recordBody (s : State) (kind seq job part : Nat) : List Byte :=
  let r := s.openRec
  let mark := s.mram.marker
  let flags := r.prevUnclean.toNat + 2 * mark.isSome.toNat + 4 * r.immediate.toNat + 8 * r.dropped.toNat + 16 * r.safe.toNat +
    32 * r.wakeFail.toNat
  overlay 512 [(0, leBytes 2 0x5245), (2, [1]), (3, leBytes 1 kind), (4, leBytes 4 seq), (8, leBytes 8 Config.serial.toNat),
    (16, leBytes 2 flags), (18, leBytes 2 job), (20, leBytes 1 (part + 4 * s.mode)), (21, leBytes 1 r.thermal),
    (22, leBytes 2 r.wakeFirst), (24, leBytes 1 (Nat.min 255 r.wakeFails)), (25, leBytes 1 ((mark.map Prod.fst).getD 0xFF)),
    (26, leBytes 2 r.shutdowns), (28, leBytes 4 (s.rd qtnEpochEpoch)), (32, leBytes 4 (s.rd qtnWsfSeqSeq)),
    (36, leBytes 4 s.evr.capSeq), (40, leBytes 4 (Nat.min (2 ^ 32 - 1) r.samples)),
    (48, packed 384 1 (fun i => binByte (accOf r.temp i))), (432, packed 32 1 (fun i => binByte (accOf r.droop i))),
    (464, packed 4 1 (fun d => throttleByte (accOf r.throttled d) r.samples)),
    (468, packed 8 2 (fun h => Nat.min 65535 (accOf r.ce h))), (484, packed 4 2 (fun d => Nat.min 65535 (accOf r.mismatch d))),
    (492, leBytes 2 r.holdMax), (494, leBytes 2 r.powerMax), (496, leBytes 2 (twos 16 r.tempMax)), (498, leBytes 2 r.vcoreMin)]

def sealRecord (bs : List Byte) : List Byte := bs.take 504 ++ leBytes 8 (crc64 (bs.take 504)).toNat

/-- A record as it opens: extremes start from what their sources read now. -/
def State.freshRec (s : State) : OpenRec :=
  { OpenRec.reset with thermal := s.topLevel, holdMax := s.rd beatStatusHoldCount, powerMax := s.rd pwrEstNow,
                       tempMax := signed 16 (s.rd thmDevMaxTemp), safe := s.pwr.safe }

/-- The next waiting event closes the open record, and its write begins: none while one is in progress, nor without the RMG
(R272, R346). -/
def State.startWrite (s : State) : State :=
  match s.evr.queue with
  | [] => s
  | c :: rest =>
    if s.evr.writing.isSome || s.rmgDown then s
    else
      let seq := s.rd evrSeqSeq
      let bs := sealRecord (s.recordBody c.kind seq c.job c.part)
      ({ s with evr := { s.evr with writing := some (seq, c.kind, bs), queue := rest, open' := s.freshRec } }.wr evrSeqSeq (seq + 1)).wr
        evrStatusWriting 1

/-- The order of events of one beat: SESSION_END, SHUTDOWN, JOB_END by partition and entry, FLUSH (R346). -/
def Closing.rank (c : Closing) : Nat :=
  match c.kind with
  | 1 => 0
  | 3 => 1
  | 2 => 2 + c.part * 16 + c.entry
  | _ => 1000

/-- A closing event joins those that wait: behind earlier beats, and in its own beat by rank. -/
def insertClosing (c : Closing) : List Closing → List Closing
  | [] => [c]
  | x :: l => if x.tick = c.tick ∧ c.rank < x.rank then c :: x :: l else x :: insertClosing c l

/-- A closing event (Table EVR-2). After PWR_FAIL_N only a SESSION_END counts. -/
def State.closing (s : State) (kind job part entry : Nat) : State :=
  if s.pwr.failSeen && kind != 1 then (s.setOpen { s.openRec with dropped := true }).event evrEventDropped
  else { s with evr := { s.evr with queue := insertClosing { kind := kind, job := job, part := part, entry := entry, tick := s.tick } s.evr.queue } }.startWrite

/-- PWR_FAIL_N: waiting events are discarded, and the SESSION_END record is next. -/
def State.endSession (s : State) : State :=
  let s1 := if s.evr.queue.isEmpty then s else (s.setOpen { s.openRec with dropped := true }).event evrEventDropped
  { s1 with evr := { s1.evr with queue := [] } }.closing 1 0 0 0

/-- The lowest SEQ in a good slot (EVR_OLDEST); that of the open record while no slot holds one. -/
def State.oldestSeq (s : State) : Nat :=
  s.mram.ring.foldl (fun m e => Nat.min m (field e.2 4 4)) (s.rd evrSeqSeq)

/-- A record's write ends, if the RMG has not left it: its slot holds it, and the counter update raises the next record SEQ. -/
def State.recordWritten (s : State) : State :=
  match (if s.rmgDown then none else s.evr.writing) with
  | none => s
  | some (seq, kind, bs) =>
    let trip := (field bs 16 2).testBit 1
    let m := s.mram
    let m1 := { m with ring := m.ring.set (fun _ => []) (seq % 1536) bs, bad := m.bad.filter (· ≠ seq % 1536) }
    let m2 := m1.update (fun c => { c with seq := seq + 1, sessionOpen := c.sessionOpen && kind != 1 })
    let m3 := if trip then { m2 with marker := none } else m2
    let s1 := { s with mram := m3, evr := { s.evr with writing := none } }.event evrEventWritten
    let s2 := (s1.wr evrStatusWriting 0).wr evrStatusTripMark m3.marker.isSome.toNat
    (s2.wr evrOldestSeq s2.oldestSeq).startWrite

end Sys2Proof.Machine
end

