-- ==== Sys2Proof/Machine/Memory.lean ====
section
/-!
DEFINITION. Memory (07_memory_and_addressing.md): where a device address lands (R144–R151), reading and writing bytes with
poison (R155, R158), and the answers of host and remote memory (R152, R153).
-/
namespace Sys2Proof.Machine

open Reg

/-! ### Physical keys -/

/-- The physical byte of granule `g`, byte `b` of pseudo-channel `c` = stack × 64 + channel (R146: 147,456 granules). -/
def hbmKey (c g b : Nat) : Nat := (c * 147456 + g) * 4096 + b

/-- The physical byte of a cluster's scratchpad, above all of HBM. -/
def scratchKey (u off : Nat) : Nat := 2 ^ 40 + u * 524288 + off

/-- The region of a physical byte: its cluster, or 672 + its pseudo-channel. -/
def regionOf (k : Nat) : Nat := if 2 ^ 40 ≤ k then (k - 2 ^ 40) / 524288 else 672 + k / (147456 * 4096)

/-- What an unlisted byte reads as: zero until its region's contents have become undefined (log entry 1). -/
def MemSt.base (m : MemSt) (k : Nat) : Byte :=
  match m.gens.get (fun _ => 0) (regionOf k) with
  | 0 => 0
  | g + 1 => Config.undefByte g k

def MemSt.byte (m : MemSt) (k : Nat) : Byte := m.bytes.get m.base k

def MemSt.setByte (m : MemSt) (k : Nat) (b : Byte) : MemSt := { m with bytes := m.bytes.set m.base k b }

/-- How often the contents of the regions have become undefined, once more for those in `rs`. -/
def MemSt.bump (m : MemSt) (rs : List Nat) : MemSt :=
  { m with gens := rs.foldl (fun g r => g.set (fun _ => 0) r (g.get (fun _ => 0) r + 1)) m.gens }

/-- The contents of the regions in `rs` become undefined. Poison stays: only an unpoisoned write of a whole line removes it
(R158). -/
def MemSt.undefine (m : MemSt) (rs : List Nat) : MemSt :=
  { m.bump rs with bytes := m.bytes.clear (fun k => rs.contains (regionOf k)) }

/-- The same, but for the bytes that have been written at the keys in `keep`. -/
def MemSt.undefineBut (m : MemSt) (rs : List Nat) (keep : Nat → Bool) : MemSt :=
  { m.bump rs with bytes := m.bytes.filter (fun e =>
      !rs.contains (regionOf e.1) || (keep e.1 && e.2 != (m.bump rs).base e.1)) }

def State.undefine (s : State) (rs : List Nat) : State := { s with mem := s.mem.undefine rs }

/-- Every line of the regions is written anew, unpoisoned and sound, with values the spec leaves open (R298, R313). -/
def State.rewrite (s : State) (rs : List Nat) : State :=
  let m := s.mem.undefine rs
  let mine := fun (l : Nat) => rs.contains (regionOf (l * 64))
  { s with mem := { m with poison := m.poison.clear mine, flaws := m.flaws.clear mine } }

def MemSt.isPoison (m : MemSt) (k : Nat) : Bool := m.poison.get (fun _ => false) (k / 64)

def MemSt.setPoison (m : MemSt) (line : Nat) (b : Bool) : MemSt :=
  { m with poison := m.poison.set (fun _ => false) line b }

/-! ### Errors in the memories (R156, R157, R160) -/

/-- Wrong symbols or bits of a line that no read has met. -/
def MemSt.flaw (m : MemSt) (line : Nat) : Nat := m.flaws.get (fun _ => 0) line

def MemSt.setFlaw (m : MemSt) (line n : Nat) : MemSt := { m with flaws := m.flaws.set (fun _ => 0) line n }

/-- Table MEM-4: a code corrects one wrong symbol (HBM) or bit (scratchpad) and detects two; what it makes of more is a
free value. -/
def codeResult : Nat → EccOutcome
  | 0 => .clean
  | 1 => .corrected
  | 2 => .uncorrectable
  | n => match Config.codeBeyond n with
    | 0 => .clean
    | 1 => .corrected
    | _ => .uncorrectable

/-- The line reads as uncorrectable. -/
def MemSt.isBad (m : MemSt) (k : Nat) : Bool := codeResult (m.flaw (k / 64)) == .uncorrectable

/-- The physical line of a place where errors arise. -/
def lineIndex : MemLine → Nat
  | .hbm h ch n => (h.val * 64 + ch.val) * 9437184 + n % 9437184
  | .scratch u n => 2 ^ 34 + u % 672 * 8192 + n % 8192

/-- Errors arise in the memories. -/
def State.strike (s : State) (es : List EccEvent) : State :=
  es.foldl (fun t e => { t with mem := t.mem.setFlaw (lineIndex e.line) (t.mem.flaw (lineIndex e.line) + e.errors) }) s

/-- A line is read, or read to be merged: a corrected error is written back; an uncorrectable one leaves the line poisoned
(R157, R158, R160). What follows of it waits in `found`. -/
def State.meet (s : State) (line : Nat) (scrub : Bool) (owner : Option (Nat × Nat)) : State :=
  let x : FoundError := { line := line, corrected := true, scrub := scrub, owner := owner, entered := false }
  let m := s.mem.setFlaw line 0
  match codeResult (s.mem.flaw line) with
  | .clean => s
  | .corrected => { s with mem := { m with found := m.found ++ [x] } }
  | .uncorrectable =>
    let m1 := m.setPoison line true
    { s with mem := { m1 with found := m1.found ++ [{ x with corrected := false }] } }

/-! ### Layout of a partition's HBM -/

def State.chanList (s : State) (p : Nat) : List Nat := s.mem.chans.get (fun _ => []) p

/-- Job-visible granules of a partition (HBM_PART_LIMIT). -/
def State.limitOf (s : State) (p : Nat) : Nat := s.mem.limit.get (fun _ => 0) p

def State.captureOf (s : State) (p : Nat) : Nat := s.mem.capture.get (fun _ => 0) p

def State.traceOf (s : State) (p : Nat) : Nat := s.mem.trace.get (fun _ => 0) p

/-- All granules of a partition. -/
def State.granules (s : State) (p : Nat) : Nat := (s.chanList p).length * 147456

/-- A pseudo-channel whose granules are holes: QUARANTINED in the data path since the list was fixed (R165). -/
def State.isHole (s : State) (c : Nat) : Bool :=
  let e := s.qtn.path.entry (1344 + c)
  e.state == 2 && !e.pending

/-- The physical cluster that backs logical cluster `lc` of die `d` in the data path (R151). -/
def UnitMap.backing (m : UnitMap) (d lc : Nat) : Option Nat :=
  ((List.range 168).map (fun i => d * 168 + i)).find? (fun u => (m.entry u).state == 0 && (m.entry u).lc == lc)

def State.backing (s : State) (d lc : Nat) : Option Nat := s.qtn.path.backing d lc

/-- Where a byte lies. -/
inductive Place where
  /-- An HBM byte: its physical key and pseudo-channel. -/
  | hbm (key chan : Nat)
  | hole (chan : Nat)
  | scratch (key : Nat)
  | unbacked
  | host (addr : Nat)
  /-- A remote byte: device, partition, offset. -/
  | remote (dev part off : Nat)
  | bad
  deriving DecidableEq, Repr

/-- R145–R148: a space-0x0 offset of partition `p`; `whole` for agents with JOB 0x0000, which reach the reserved
regions too. -/
def State.hbmPlace (s : State) (p : Nat) (whole : Bool) (x : Nat) : Place :=
  let g := x / 4096
  let l := s.chanList p
  if (if whole then s.granules p else s.limitOf p) ≤ g then .bad
  else
    let c := l.getD (g % l.length) 0
    if s.isHole c then .hole c else .hbm (hbmKey c (g / l.length) (x % 4096)) c

/-- R150, R151. -/
def State.scratchPlace (s : State) (p x : Nat) : Place :=
  let d := bitsOf x 28 2
  let lc := bitsOf x 20 8
  if bitsOf x 30 30 ≠ 0 ∨ bitsOf x 19 1 ≠ 0 ∨ 160 ≤ lc ∨ s.partOfDie d ≠ p then .bad
  else match s.backing d lc with
    | some u => .scratch (scratchKey u (x % 2 ^ 19))
    | none => .unbacked

/-- R144: a device address of partition `p`. -/
def State.place (s : State) (p : Nat) (whole : Bool) (a : Nat) : Place :=
  let x := a % 2 ^ 60
  match a / 2 ^ 60 with
  | 0 => s.hbmPlace p whole x
  | 1 => s.scratchPlace p x
  | 2 => .host x
  | 4 => if bitsOf x 59 1 = 0 then .remote (bitsOf x 42 17) (bitsOf x 40 2) (bitsOf x 0 40) else .bad
  | _ => .bad

/-! ### Reading -/

/-- What an answered read of host or remote memory gave at this address. -/
def extFind : List (Nat × Option Byte) → Nat → Option (Option Byte)
  | [], _ => none
  | (k, v) :: m, a => if a = k then some v else extFind m a

def extPut : List (Nat × Option Byte) → Nat → Option Byte → List (Nat × Option Byte)
  | [], a, v => [(a, v)]
  | (k, w) :: m, a, v =>
    if a < k then (a, v) :: (k, w) :: m else if a = k then (k, v) :: m else (k, w) :: extPut m a v

/-- The function that serves a partition can reach the host (R169, R171). -/
def State.hostOk (s : State) (p : Nat) : Bool := s.linkUp && s.link.busMaster.testBit p

def State.ownId (s : State) (dev : Nat) : Bool := s.on fabDevIdValid && s.rd fabDevIdId == dev

/-- One byte as a reader of partition `p` sees it, with the DETAIL of Table MEM-5 when it is poisoned; none while host or
remote memory has not answered. -/
def State.readByte (s : State) (p : Nat) (whole : Bool) (a : Nat) : Option (Byte × Option Nat) :=
  match s.place p whole a with
  | .hbm k _ => some (s.mem.byte k, if s.mem.isBad k then some 0x0301 else if s.mem.isPoison k then some 0x0303 else none)
  | .hole _ => some (0, some 0x0307)
  | .scratch k => some (s.mem.byte k, if s.mem.isBad k then some 0x0302 else if s.mem.isPoison k then some 0x0304 else none)
  | .unbacked => some (0, some 0x0308)
  | .bad => some (0, some 0x0309)
  | .host _ =>
    if !s.hostOk p then some (0, some 0x0305)
    else match extFind s.mem.ext a with
      | some (some b) => some (b, none)
      | some none => some (0, some 0x0305)
      | none => none
  | .remote _ _ _ =>
    if !s.on fabDevIdValid then some (0, some 0x0306)
    else match extFind s.mem.ext a with
      | some (some b) => some (b, none)
      | some none => some (0, some 0x0306)
      | none => none

/-- `n` bytes from address `a`, and the DETAILs met; none while some byte has not been answered. -/
def State.readBytes (s : State) (p : Nat) (whole : Bool) (a : Nat) : Nat → Option (List Byte × List Nat)
  | 0 => some ([], [])
  | n + 1 =>
    match s.readByte p whole a, s.readBytes p whole (a + 1) n with
    | some (b, f), some (bs, fs) => some (b :: bs, f.toList ++ fs)
    | _, _ => none

/-- Read requests to the host, each of at most 4,096 bytes (Table LNK-1). -/
def State.readHost (s : State) (p a n : Nat) : State :=
  (List.range ((n + 4095) / 4096)).foldl (fun t i =>
    let r : OpenRead := ⟨p, none, a % 2 ^ 60 + i * 4096, Nat.min 4096 (n - i * 4096)⟩
    { t with link := { t.link with hostReads := t.link.hostReads ++ [r] } }.emit (.pcieRead p r.addr r.len)) s

/-- A response of `n` bytes from `a` belongs to the read. -/
def OpenRead.covers (r : OpenRead) (p : Nat) (conn : Option Nat) (a n : Nat) : Bool :=
  r.part == p && r.conn == conn && decide (r.addr ≤ a) && decide (a + n ≤ r.addr + r.len)

/-- What of the reads is still open once a response of `n` bytes from `a` has come for one of them. -/
def takeRange (p : Nat) (conn : Option Nat) (a n : Nat) : List OpenRead → List OpenRead
  | [] => []
  | r :: rs =>
    if r.covers p conn a n then
      ([{ r with len := a - r.addr }, { r with addr := a + n, len := r.addr + r.len - (a + n) }].filter (fun x => x.len != 0)) ++ rs
    else r :: takeRange p conn a n rs

/-- A response to a read that a fence has answered is dropped, and counts in LATE unless it is only the end of waiting (R276). -/
def State.dropLate (s : State) (p : Nat) (conn : Option Nat) (a n : Nat) (counts : Bool) : State :=
  let s1 := { s with hang := { s.hang with late := takeRange p conn a n s.hang.late } }
  if counts then s1.count (hngFenceStatLate p) 1 else s1

def State.isLate (s : State) (p : Nat) (conn : Option Nat) (a n : Nat) : Bool := s.hang.late.any (fun r => r.covers p conn a n)

/-- A space-0x0 read by the device itself (JOB 0x0000). -/
def State.readOwn (s : State) (p a n : Nat) : List Byte := ((s.readBytes p true a n).getD ([], [])).1

/-- Sets HBM_EVENT.HOLE for an access to a hole (R165). -/
def State.noteHole (s : State) (p : Nat) (whole : Bool) (a : Nat) : State :=
  match s.place p whole a with
  | .hole c => s.event (hbmEventHole (c / 64))
  | _ => s

/-- The physical key of a byte that local memory holds. -/
def Place.key? : Place → Option Nat
  | .hbm k _ => some k
  | .scratch k => some k
  | _ => none

/-- The first addresses of the lines a range touches. -/
def linesOf (a n : Nat) : List Nat :=
  if n = 0 then [] else (List.range ((a + n - 1) / 64 - a / 64 + 1)).map (fun i => (a / 64 + i) * 64)

/-- What a read of byte `lo` does to its line: a hole is noted (R165), an error is met (R157, R160). -/
def State.touchLine (s : State) (p : Nat) (whole : Bool) (owner : Option (Nat × Nat)) (lo : Nat) : State :=
  match (s.place p whole lo).key? with
  | some k => s.meet (k / 64) false owner
  | none => s.noteHole p whole lo

/-- What a read of `n` bytes does to the lines it reads; `owner` is the list that consumes them. -/
def State.touch (s : State) (p : Nat) (whole : Bool) (owner : Option (Nat × Nat)) (a n : Nat) : State :=
  (linesOf a n).foldl (fun t lo => t.touchLine p whole owner (Nat.max a lo)) s

/-! ### Tagged requests (R48, R52) -/

/-- R52: a request whose tag has reserved bits set, or names a partition absent in the active mode, is discarded. -/
def State.badTag (s : State) (tag : Word64) : Bool :=
  bitsOf tag.toNat 0 2 != 0 || decide (partCount s.mode ≤ bitsOf tag.toNat 2 2)

/-- A read request: its tag's PART names the memory, and JOB 0x0000 reaches the reserved regions (R145, R149). A discarded one
is answered with poisoned data. -/
def State.readTagged (s : State) (tag : Word64) (a n : Nat) : Option (List Byte × List Nat) :=
  if s.badTag tag then some (List.replicate n 0, [0x0309])
  else s.readBytes (bitsOf tag.toNat 2 2) (bitsOf tag.toNat 48 16 == 0) a n

/-- What a tagged read does to the lines it reads. -/
def State.touchTagged (s : State) (tag : Word64) (owner : Option (Nat × Nat)) (a n : Nat) : State :=
  if s.badTag tag then s else s.touch (bitsOf tag.toNat 2 2) (bitsOf tag.toNat 48 16 == 0) owner a n

/-! ### Writing -/

/-- One byte of a local store. Holes, unbacked clusters and address faults discard it (R144, R151, R165). -/
def State.writeByte (s : State) (p : Nat) (whole : Bool) (a : Nat) (b : Byte) : State :=
  match (s.place p whole a).key? with
  | some k => { s with mem := s.mem.setByte k b }
  | none => s.noteHole p whole a

def State.writeLocal (s : State) (p : Nat) (whole : Bool) (a : Nat) : List Byte → State
  | [] => s
  | b :: bs => (s.writeByte p whole a b).writeLocal p whole (a + 1) bs

/-- R155, R158: a write of part of a line merges into what the line reads as; a poisoned write poisons each line it touches;
an unpoisoned write that covers a whole line cleans it. `lo` is the line's first address. -/
def State.markLine (s : State) (p : Nat) (whole : Bool) (poisoned : Bool) (a n lo : Nat) : State :=
  match (s.place p whole lo).key? with
  | some k =>
    if a ≤ lo ∧ lo + 64 ≤ a + n then { s with mem := (s.mem.setFlaw (k / 64) 0).setPoison (k / 64) poisoned }
    else
      let s1 := s.meet (k / 64) false none
      if poisoned then { s1 with mem := s1.mem.setPoison (k / 64) true } else s1
  | none => s

/-- Answers for addresses in [a, a + n) that have been consumed, or that a write has made stale (log entry 6). -/
def State.dropExt (s : State) (a n : Nat) : State :=
  { s with mem := { s.mem with ext := s.mem.ext.filter (fun e => decide (e.1 < a) || decide (a + n ≤ e.1)) } }

/-- A posted write to the host (R152, R171), in payloads of at most 512 bytes (Table LNK-1). -/
def State.writeHost (s : State) (p a : Nat) (bs : List Byte) : State :=
  if s.hostOk p then
    (cutBytes 512 (a % 2 ^ 60) bs).foldl (fun t x => t.emit (.pcieWrite p x.1 x.2)) (s.dropExt a bs.length)
  else s.postedDrop p

/-- A store of partition `p` to spaces 0x0, 0x1 or 0x2, poisoned or not. -/
def State.store (s : State) (p : Nat) (whole : Bool) (poisoned : Bool) (a : Nat) (bs : List Byte) : State :=
  if a / 2 ^ 60 = 2 then s.writeHost p a bs
  else
    (linesOf a bs.length).foldl (fun t lo => t.markLine p whole poisoned a bs.length lo) (s.writeLocal p whole a bs)

/-- A store by the partition and with the JOB of a tag; a discarded request stores nothing (R52). -/
def State.storeTagged (s : State) (tag : Word64) (poisoned : Bool) (a : Nat) (bs : List Byte) : State :=
  if s.badTag tag then s else s.store (bitsOf tag.toNat 2 2) (bitsOf tag.toNat 48 16 == 0) poisoned a bs

/-! ### Scrub passes (R164) -/

/-- The partition that pseudo-channel `c` belongs to. -/
def State.partOfChan (s : State) (c : Nat) : Nat := s.partOfDie (c / 128)

/-- Whether pseudo-channel `c` is scrubbed. -/
def State.scrubbed (s : State) (c : Nat) : Bool :=
  s.domOn (hbmDom (c / 64)) && (s.chanList (s.partOfChan c)).contains c && !s.isHole c

def State.chanSt (s : State) (c : Nat) : ChanSt := s.mem.chan.get (fun _ => ChanSt.reset) c

def State.setChan (s : State) (c : Nat) (x : ChanSt) : State :=
  { s with mem := { s.mem with chan := s.mem.chan.set (fun _ => ChanSt.reset) c x } }

/-- A pass ends when every channel of the stack that is scrubbed has wrapped. -/
def State.endPass (s : State) (h : Nat) : State :=
  let cs := ((List.range 64).map (fun i => h * 64 + i)).filter s.scrubbed
  if cs ≠ [] ∧ cs.all (fun c => (s.chanSt c).wrapped) then
    cs.foldl (fun t c => t.setChan c { t.chanSt c with wrapped := false }) (s.count (hbmScrubPassCount h) 1)
  else s

/-! ### Building the channel list and the layout (R146–R148) -/

/-- A pseudo-channel in force when the list is fixed: neither SUSPECT nor QUARANTINED. -/
def State.chanInForce (s : State) (c : Nat) : Bool :=
  let e := s.qtn.map.entry (1344 + c)
  !(e.state == 1 || e.state == 2)

/-- Rounds r = 0 … 63, in each the partition's stacks ascending. -/
def State.buildChans (s : State) (p : Nat) : List Nat :=
  (List.range 64).flatMap (fun r => ((s.stacksOf p).map (fun h => h * 64 + r)).filter s.chanInForce)

/-- The carve-out in granules: TRACE_64M as it reads, 0 as 1, above 256 as 256. -/
def traceGranules (v : Nat) : Nat := 16384 * (if v = 0 then 1 else if 256 < v then 256 else v)

/-- LIMIT, capture base, trace base of `total` granules with a carve-out of `want` granules asked for; the capture area
takes 32,768 granules (R148). -/
def layoutOf (total want : Nat) : Nat × Nat × Nat :=
  if total = 0 then (0, 0, 0)
  else
    let room := (total - 32768) / 16384 * 16384
    let tr := Nat.min want (Nat.max 16384 room)
    let lim := total - 32768 - tr
    (lim, lim, lim + 32768)

/-- The stack whose window holds partition `p`'s layout registers: its lowest. -/
def State.lowStack (s : State) (p : Nat) : Nat := (s.stacksOf p).headD 0

/-- Fixes the channel list and layout of partition `p`; every checkpoint slot is kept or lost by its caller. -/
def State.fixLayout (s : State) (p : Nat) : State :=
  let l := s.buildChans p
  let (lim, cap, tr) := layoutOf (l.length * 147456) (traceGranules (s.rd (hbmRsvNextTrace64m (s.lowStack p))))
  let m := s.mem
  { s with mem := { m with
    chans := m.chans.set (fun _ => []) p l, limit := m.limit.set (fun _ => 0) p lim,
    capture := m.capture.set (fun _ => 0) p cap, trace := m.trace.set (fun _ => 0) p tr } }

/-- HBM_PART_LIMIT and the registers beside it report the layout in force (R148). -/
def State.showLayout (s : State) (p : Nat) : State :=
  let h := s.lowStack p
  (((s.wr (hbmPartLimitGranules h) (s.limitOf p)).wr (hbmPartCaptureBase h) (s.captureOf p)).wr (hbmPartTraceBase h) (s.traceOf p)).wr
    (hbmPartChannelsP h) (s.chanList p).length

def State.showLayouts (s : State) : State := s.parts.foldl (fun t p => t.showLayout p) s

def State.fixLayouts (s : State) : State := (s.parts.foldl (fun t p => t.fixLayout p) s).showLayouts

end Sys2Proof.Machine
end

