-- ==== Sys2Proof/Machine/Recording.lean ====
section
/-!
DEFINITION. Tags (Table TAG-1), trace records and channels (R414–R421), and the counters that events raise (R423, R424).
-/
namespace Sys2Proof.Machine

open Reg

/-! ### Tags (Table TAG-1) -/

def tagOf (job step tile fmt role tc part : Nat) : Word64 :=
  BitVec.ofNat 64 (((((((job % 65536) * 65536 + step % 65536) * 1048576 + tile % 1048576) * 16 + fmt % 16) * 4 +
    role % 4) * 4 + tc % 4) * 16 + part % 4 * 4)

def tagJob (t : Word64) : Nat := bitsOf t.toNat 48 16
def tagStep (t : Word64) : Nat := bitsOf t.toNat 32 16
def tagTile (t : Word64) : Nat := bitsOf t.toNat 12 20
def tagFmt (t : Word64) : Nat := bitsOf t.toNat 8 4
def tagRole (t : Word64) : Nat := bitsOf t.toNat 6 2
def tagTc (t : Word64) : Nat := bitsOf t.toNat 4 2
def tagPart (t : Word64) : Nat := bitsOf t.toNat 2 2
def tagReserved (t : Word64) : Nat := bitsOf t.toNat 0 2

/-- The tag with another ROLE and class: shadows and arbiters (R51). -/
def tagWith (t : Word64) (role tc : Nat) : Word64 :=
  BitVec.ofNat 64 (setBits (setBits t.toNat 6 2 role) 4 2 tc)

/-- The source unit of a trace record: class and index (R419). -/
def traceUnit (cls ix : Nat) : Nat := cls * 4096 + ix

/-! ### Trace channels -/

/-- R415: whether channel `c` of partition `p` receives a record of this type and tag; `ps` are the partitions an
untagged record comes from. -/
def State.traceTakes (s : State) (p c type : Nat) (tag : Option Word64) (ps : List Nat) : Bool :=
  s.on (trcChCtlEn p c) && !(s.traceCh p c).stopping &&
  (decide (0x0E ≤ type) || (s.rd (trcChCtlSrc p c)).testBit (type - 1)) &&
  match tag with
  | none => ps.contains p
  | some t =>
    tagPart t == p && (s.on (trcChFilterAnyJob p c) || s.rd (trcChFilterJob p c) == tagJob t) &&
    (s.rd (trcChFilterTcMask p c)).testBit (tagTc t) && (s.rd (trcChFilterRoleMask p c)).testBit (tagRole t)

/-- The stamp of a record in channel `c` of partition `p`, and its flag bits 0 and 1 (R420, R421). The local tick of MATCH
mode runs from the AON PLL, which the model has no clock for: it moves on by free values (log entry 89). -/
def State.traceStamp (s : State) (p c : Nat) : (Nat × Nat) × State :=
  if s.on (trcChCtlMode p c) then
    let n := s.dbg.matchTick + Config.cycles s.free
    ((n % 2 ^ 48 * 65536, 1), { s with free := s.free + 1, dbg := { s.dbg with matchTick := n } })
  else ((s.beat.num % 2 ^ 48 * 65536 + s.beat.phase, if s.on beatStatusNumValid then 0 else 2), s)

/-- The 32 bytes of Table TRC-1. -/
def traceBytes (type flags unit arg0 : Nat) (tag : Nat) (stamp arg1 : Nat) : List Byte :=
  leBytes 1 type ++ leBytes 1 flags ++ leBytes 2 unit ++ leBytes 4 arg0 ++ leBytes 8 tag ++ leBytes 8 stamp ++
  leBytes 8 arg1

/-- A record with its stamp enters a channel's buffer, a LOST record before it after a loss (R416). -/
def State.tracePushAt (s : State) (stamp : Nat × Nat) (p c type unit arg0 tag arg1 : Nat) : State :=
  let ch := s.traceCh p c
  if s.on (trcChStatusFull p c) then s.count (trcChLostCount p c) 1
  else if 128 ≤ ch.buffer.length + (if ch.lost = 0 then 0 else 1) then
    (s.setTraceCh p c { ch with lost := ch.lost + 1 }).count (trcChLostCount p c) 1
  else
    let flags := stamp.2 + 4 * p + 16 * c
    let lost := if ch.lost = 0 then [] else [traceBytes 0x0F flags 0 ch.lost 0 stamp.1 0]
    s.setTraceCh p c { ch with buffer := ch.buffer ++ lost ++ [traceBytes type flags unit arg0 tag stamp.1 arg1], lost := 0 }

/-- A record of an event that has just happened. -/
def State.tracePush (s : State) (p c type unit arg0 tag arg1 : Nat) : State :=
  (s.traceStamp p c).2.tracePushAt (s.traceStamp p c).1 p c type unit arg0 tag arg1

/-- A record goes to every channel that takes it. -/
def State.trace (s : State) (type unit arg0 : Nat) (tag : Option Word64) (arg1 : Nat) (ps : List Nat) : State :=
  s.parts.foldl (fun t p => (List.range 8).foldl (fun u c =>
    if u.traceTakes p c type tag ps then u.tracePush p c type unit arg0 ((tag.map BitVec.toNat).getD 0) arg1 else u) t) s

/-- A record of BEAT-mode channels only (JUMP, EPOCH). -/
def State.traceBeat (s : State) (type arg0 arg1 : Nat) : State :=
  s.parts.foldl (fun t p => (List.range 8).foldl (fun u c =>
    if !u.on (trcChCtlMode p c) && u.traceTakes p c type none [p] then u.tracePush p c type 0 arg0 0 arg1 else u) t) s

/-- One record goes from the buffer to the channel's area (R416). -/
def State.traceWrite (s : State) (p c : Nat) (bs : List Byte) : State :=
  if s.on (trcChStatusFull p c) then s.count (trcChLostCount p c) 1
  else
    let n := s.rd (trcChSizeSize p c) * 2048
    let i := s.rd (trcChWptrIndex p c)
    let a := s.traceOf p * 4096 + s.rd (trcChBaseBase p c) * 65536 + i * 32
    let s1 := s.store p true false a bs
    if i + 1 < n then s1.wr (trcChWptrIndex p c) (i + 1)
    else if s.on (trcChCtlWrap p c) then (s1.wr (trcChWptrIndex p c) 0).wr (trcChStatusWrapped p c) 1
    else (s1.wr (trcChWptrIndex p c) (i + 1)).wr (trcChStatusFull p c) 1

/-- The channel writes its whole buffer. -/
def State.traceFlush (s : State) (p c : Nat) : State :=
  let ch := s.traceCh p c
  ch.buffer.foldl (fun t bs => t.traceWrite p c bs) (s.setTraceCh p c { ch with buffer := [] })

/-- A stopping channel has written its buffer. -/
def State.stopChan (s : State) (p c : Nat) : State :=
  if (s.traceCh p c).stopping then
    let s1 := s.traceFlush p c
    (s1.setTraceCh p c { s1.traceCh p c with stopping := false }).wr (trcChStatusStopped p c) 1
  else s

/-- EN = 0: no new records. -/
def State.closeChan (s : State) (p c : Nat) : State :=
  if s.on (trcChCtlEn p c) then (s.wr (trcChCtlEn p c) 0).setTraceCh p c { s.traceCh p c with stopping := true } else s

/-- Every channel stops, as under R418 (Table THM-3). -/
def State.stopChans (s : State) : State :=
  s.parts.foldl (fun t p => (List.range 8).foldl (fun u c => (u.closeChan p c).stopChan p c) t) s

/-! ### Counters -/

/-- R424: a tagged event passes a counter's filter. -/
def filterPasses (job any roles : Nat) : Option Word64 → Bool
  | none => true
  | some t => (any == 1 || job == tagJob t) && roles.testBit (tagRole t)

/-- A 48-bit counter rises by `n` and tells whether it wrapped (R423). -/
def State.bump48 (s : State) (lo hi : Fld) (n : Nat) : State × Bool :=
  let v := s.rd64 lo hi + n
  (s.wr64 lo hi (v % 2 ^ 48), decide (2 ^ 48 ≤ v))

def State.frozen (s : State) (d : Nat) : Bool := s.bit cntCtlFreeze d

/-- Cluster counters of physical cluster `u` count `n` events of code `ev`. -/
def State.countCl (s : State) (u ev : Nat) (tag : Option Word64) (n : Nat) : State :=
  if s.frozen (u / 168) ||
      !filterPasses (s.rd (cntClCtlJob u)) (s.rd (cntClCtlAnyJob u)) (s.rd (cntClCtlRoleMask u)) tag then s
  else (List.range 8).foldl (fun t j =>
    if t.rd ⟨cntClSel u (j / 4), 8 * (j % 4), 8⟩ == ev then
      let (t1, w) := t.bump48 (cntClLoCount u j) (cntClHiCount u j) n
      if w then t1.wrBit (cntClOvfOvf u) j true else t1
    else t) s

/-- Engine-set counters of die `d` count `n` events of code `ev`. -/
def State.countEs (s : State) (d ev : Nat) (tag : Option Word64) (n : Nat) : State :=
  if s.frozen d ||
      !filterPasses (s.rd (cntEsCtlJob d)) (s.rd (cntEsCtlAnyJob d)) (s.rd (cntEsCtlRoleMask d)) tag then s
  else (List.range 64).foldl (fun t j =>
    if t.rd ⟨cntEsSel d (j / 4), 8 * (j % 4), 8⟩ == ev then
      let (t1, w) := t.bump48 (cntEsLoCount d j) (cntEsHiCount d j) n
      if w then (if j < 32 then t1.wrBit (cntEsOvfLoOvf d) j true else t1.wrBit (cntEsOvfHiOvf d) (j - 32) true)
      else t1
    else t) s

end Sys2Proof.Machine
end

