-- ==== Sys2Proof/Machine/Counters.lean ====
section
/-!
DEFINITION. What performance counters show, and their sampling into trace (R423–R425, 19_trace_counters_and_debug.md).
-/
namespace Sys2Proof.Machine

open Reg

/-! ### Events that the model does not time -/

/-- Events whose counts come from clocks or flows the model does not time: matrix and NoC cycles, flits, and lines read and
written (Table TRC-3). Their counters advance by free values (log entry 89). -/
def openEvent (cluster : Bool) (ev : Nat) : Bool :=
  if cluster then ev == 1 || ev == 2 || ev == 3 || ev == 9 || ev == 0xA || ev == 0xC
  else ev == 1 || (decide (5 ≤ ev) && decide (ev ≤ 0xA))

/-- The event that a counter selects. -/
def State.clEvent (s : State) (u j : Nat) : Nat := s.rd ⟨cntClSel u (j / 4), 8 * (j % 4), 8⟩

def State.esEvent (s : State) (d j : Nat) : Nat := s.rd ⟨cntEsSel d (j / 4), 8 * (j % 4), 8⟩

/-- What an open event has added to a cluster counter by now; nothing while its die's counters are frozen. -/
def State.advCl (s : State) (u j : Nat) : State :=
  if s.frozen (u / 168) || !openEvent true (s.clEvent u j) then s
  else
    let (s1, w) := { s with free := s.free + 1 }.bump48 (cntClLoCount u j) (cntClHiCount u j) (Config.cycles s.free)
    if w then s1.wrBit (cntClOvfOvf u) j true else s1

/-- The same for an engine-set counter. -/
def State.advEs (s : State) (d j : Nat) : State :=
  if s.frozen d || !openEvent false (s.esEvent d j) then s
  else
    let (s1, w) := { s with free := s.free + 1 }.bump48 (cntEsLoCount d j) (cntEsHiCount d j) (Config.cycles s.free)
    if w then (if j < 32 then s1.wrBit (cntEsOvfLoOvf d) j true else s1.wrBit (cntEsOvfHiOvf d) (j - 32) true) else s1

def State.advClAll (s : State) (u : Nat) : State := (List.range 8).foldl (fun t j => t.advCl u j) s

def State.advEsAll (s : State) (d : Nat) : State := (List.range 64).foldl (fun t j => t.advEs d j) s

/-- Every counter of a die. -/
def State.advDie (s : State) (d : Nat) : State :=
  (List.range 168).foldl (fun t i => t.advClAll (d * 168 + i)) (s.advEsAll d)

/-- The counters that an access to a register of the CNT blocks concerns stand as they are by then. -/
def State.advAt (s : State) (a : Nat) : State :=
  if a = cntCtl then (List.range 4).foldl (fun t d => t.advDie d) s
  else if 0xA9000 ≤ a ∧ a < 0xAA000 then s.advEsAll ((a - 0xA9000) / 0x400)
  else if 0x1000000 ≤ a ∧ a < 0x1A80000 ∧ 0x100 ≤ a % 0x4000 ∧ a % 0x4000 < 0x150 then s.advClAll ((a - 0x1000000) / 0x4000)
  else s

/-! ### Clearing (R423) -/

/-- Every counter of a die is zero. -/
def State.zeroCounters (s : State) (d : Nat) : State :=
  let s1 := (List.range 64).foldl (fun t j => t.wr64 (cntEsLoCount d j) (cntEsHiCount d j) 0) s
  ((List.range 168).map (fun i => d * 168 + i)).foldl (fun t u =>
    (List.range 8).foldl (fun w j => w.wr64 (cntClLoCount u j) (cntClHiCount u j) 0) t) s1

/-! ### Sampling (R425) -/

/-- A COUNTER record goes to the sampling channel, whatever its SRC and filter, under the stamp of the latch. -/
def State.counterRecord (s : State) (stamp : Nat × Nat) (unit j ev held : Nat) (ovf : Bool) : State :=
  s.tracePushAt stamp (s.rd cntSampleCfgPart) (s.rd cntSampleCfgChannel) 0x0B unit (j + 256 * ev + 65536 * ovf.toNat) 0 held

def State.sampleEs (s : State) (stamp : Nat × Nat) (d : Nat) : State :=
  (List.range 64).foldl (fun t j => t.counterRecord stamp (traceUnit 2 d) j (t.esEvent d j)
    (t.rd64 (cntEsLoCount d j) (cntEsHiCount d j))
    (if j < 32 then t.bit (cntEsOvfLoOvf d) j else t.bit (cntEsOvfHiOvf d) (j - 32))) (s.advEsAll d)

def State.sampleCl (s : State) (stamp : Nat × Nat) (u : Nat) : State :=
  (List.range 8).foldl (fun t j => t.counterRecord stamp (traceUnit 1 u) j (t.clEvent u j)
    (t.rd64 (cntClLoCount u j) (cntClHiCount u j)) (t.bit (cntClOvfOvf u) j)) (s.advClAll u)

/-- The absolute mark of a sample with MODE = 1. -/
def State.sampleMark (s : State) : Nat := s.rd64 cntSampleMarkLoNum cntSampleMarkHiNum

/-- The sampling period or the mark is reached. -/
def State.sampleDue (s : State) : Bool :=
  s.on cntSampleCfgEn &&
  (if s.on cntSampleCfgMode then s.reached ⟨s.sampleMark, 0⟩
   else decide (s.dbg.sampled + Nat.max 1 (s.rd cntSampleCfgPeriod) ≤ s.tick))

/-- The counters of the set are latched, and their records written. -/
def State.counterSample (s : State) : State :=
  if !s.sampleDue then s
  else
    let s1 := { s with dbg := { s.dbg with sampled := s.tick } }
    let s2 := if s1.on cntSampleCfgMode then s1.wr cntSampleCfgEn 0 else s1
    let p := s2.rd cntSampleCfgPart
    let c := s2.rd cntSampleCfgChannel
    if !(decide (p < partCount s2.mode) && s2.on (trcChCtlEn p c)) then s2.event cntEventSampleLost
    else
      let (stamp, s3) := s2.traceStamp p c
      let s4 := ((List.range 4).filter (fun d => s2.bit cntSampleCfgDies d)).foldl (fun t d => t.sampleEs stamp d) s3
      ((List.range 672).filter (fun u => s2.on (cntClCtlSample u))).foldl (fun t u => t.sampleCl stamp u) s4

end Sys2Proof.Machine
end

