-- ==== Sys2Proof/Machine/Operands.lean ====
section
/-!
DEFINITION. Operand forms: the number formats of Table FMT-1, their exact values, packing, block scaling, the three
roundings and conversion (R70–R81, 04_number_formats.md).
-/
namespace Sys2Proof.Machine

/-! ### Exact values -/

/-- An exact value: NaN, an infinity, or (−1)^neg · m · 2^e, a zero keeping its sign. -/
inductive FVal where
  | nan
  | inf (neg : Bool)
  | fin (neg : Bool) (m : Nat) (e : Int)
  deriving DecidableEq, Repr

def FVal.zero : FVal := .fin false 0 0

/-- ⌊log₂⌋ of the magnitude m · 2^e, m ≠ 0. -/
def ilog (m : Nat) (e : Int) : Int := (Nat.log2 m : Int) + e

/-- The signed numerator of a finite value over 2^q, for q ≤ e. -/
def num (neg : Bool) (m : Nat) (e q : Int) : Int :=
  let n : Int := ((m * 2 ^ (e - q).toNat : Nat) : Int)
  if neg then -n else n

/-- The finite value n · 2^q, with the given sign for zero. -/
def ofNum (n q : Int) (zneg : Bool) : FVal := if n = 0 then .fin zneg 0 0 else .fin (decide (n < 0)) n.natAbs q

def FVal.neg : FVal → FVal
  | .nan => .nan
  | .inf s => .inf (!s)
  | .fin s m e => .fin (!s) m e

def FVal.abs : FVal → FVal
  | .nan => .nan
  | .inf _ => .inf false
  | .fin _ m e => .fin false m e

/-- Exact addition with IEEE 754's special values; an exact zero from unlike signs is +0. -/
def FVal.add : FVal → FVal → FVal
  | .nan, _ => .nan
  | _, .nan => .nan
  | .inf a, .inf b => if a = b then .inf a else .nan
  | .inf a, _ => .inf a
  | _, .inf b => .inf b
  | .fin a m e, .fin b n f =>
    let q := min e f
    ofNum (num a m e q + num b n f q) q (a && b)

/-- Exact multiplication with IEEE 754's special values. -/
def FVal.mul : FVal → FVal → FVal
  | .nan, _ => .nan
  | _, .nan => .nan
  | .inf a, .inf b => .inf (a != b)
  | .inf a, .fin b n _ => if n = 0 then .nan else .inf (a != b)
  | .fin a m _, .inf b => if m = 0 then .nan else .inf (a != b)
  | .fin a m e, .fin b n f => .fin (a != b) (m * n) (e + f)

/-- x · 2^k. -/
def FVal.scale : FVal → Int → FVal
  | .fin s m e, k => .fin s m (e + k)
  | v, _ => v

/-- Whether x < y, neither being NaN, with −0 below +0 (R134: MAX(−0, +0) is +0, MIN(−0, +0) is −0). -/
def FVal.lt : FVal → FVal → Bool
  | .nan, _ => false
  | _, .nan => false
  | .inf a, .inf b => a && !b
  | .inf a, _ => a
  | _, .inf b => !b
  | .fin a m e, .fin b n f =>
    let q := min e f
    let x := num a m e q
    let y := num b n f q
    decide (x < y) || (x == y && a && !b)

def FVal.max (x y : FVal) : FVal := if x = .nan ∨ y = .nan then .nan else if x.lt y then y else x

def FVal.min (x y : FVal) : FVal := if x = .nan ∨ y = .nan then .nan else if y.lt x then y else x

/-! ### Rounding (R79, R80) -/

/-- A rounding mode; stochastic rounding with the 32 bits drawn for the element. -/
inductive Round where
  | rne
  | rtz
  | sr (bits : Nat)
  deriving DecidableEq, Repr

/-- sr_bits of R80: 32 bits from a tag and an element index. -/
def srBits (tag : Word64) (idx : Nat) : Nat :=
  let z0 := (tag &&& 0xFFFFFFFFFFFFFF00#64) ^^^ (BitVec.ofNat 64 idx * 0x9e3779b97f4a7c15#64)
  let z1 := (z0 ^^^ (z0 >>> 30)) * 0xbf58476d1ce4e5b9#64
  let z2 := (z1 ^^^ (z1 >>> 27)) * 0x94d049bb133111eb#64
  let z3 := z2 ^^^ (z2 >>> 31)
  (z3 >>> 32).toNat

/-- The rounding of element `idx` of the tile with tag `tag` under the code of Table FMT-5. -/
def roundOf (code : Nat) (tag : Word64) (idx : Nat) : Round :=
  if code = 0 then .rne else if code = 1 then .rtz else .sr (srBits tag idx)

/-- The magnitude m · 2^e (a little more when `sticky`) as a whole number of quanta 2^q, rounded. -/
def roundQ (r : Round) (m : Nat) (e q : Int) (sticky : Bool) : Nat :=
  if q ≤ e then
    let n := m * 2 ^ (e - q).toNat
    n
  else
    let d := 2 ^ (q - e).toNat
    let n := m / d
    let rem := m % d
    match r with
    | .rne => if d < 2 * rem ∨ (2 * rem = d ∧ (sticky ∨ n % 2 = 1)) then n + 1 else n
    | .rtz => n
    | .sr bits => if bits < rem * 2 ^ 32 / d then n + 1 else n

/-! ### Element formats (Tables FMT-1, FMT-2) -/

/-- Parameters of a floating-point element: exponent and mantissa bits, bias, emax, whether it has infinities, its
largest finite magnitude as `maxM` · 2^(emax − mantissa bits), and its canonical NaN (Table FMT-4). -/
structure FloatFmt where
  eb : Nat
  mb : Nat
  bias : Int
  emax : Int
  ieee : Bool
  maxM : Nat
  nan : Nat
  deriving DecidableEq, Repr

/-- The float element of a format code, MX codes included; none for the integer codes and KB8. -/
def floatFmt (code : Nat) : Option FloatFmt :=
  match code with
  | 0x2 => some ⟨2, 1, 1, 2, false, 3, 0⟩
  | 0x3 => some ⟨2, 3, 1, 2, false, 15, 0⟩
  | 0x4 => some ⟨3, 2, 3, 4, false, 7, 0⟩
  | 0x5 => some ⟨4, 3, 7, 8, false, 14, 0x7F⟩
  | 0x6 => some ⟨5, 2, 15, 15, true, 7, 0x7E⟩
  | 0x8 => some ⟨8, 7, 127, 127, true, 255, 0x7FC0⟩
  | 0x9 => some ⟨5, 10, 15, 15, true, 2047, 0x7E00⟩
  | 0xA => some ⟨8, 23, 127, 127, true, 16777215, 0x7FC00000⟩
  | _ => none

def isMx (code : Nat) : Bool := code == 2 || code == 3 || code == 4

def isInt (code : Nat) : Bool := code == 0 || code == 1 || code == 0xB

def isKb8 (code : Nat) : Bool := code == 7

/-- Bits of an element; a KB8 element's mantissa. -/
def elemBits (code : Nat) : Nat :=
  match code with
  | 0x0 => 4
  | 0x2 => 4
  | 0x3 => 6
  | 0x4 => 6
  | 0x8 => 16
  | 0x9 => 16
  | 0xA => 32
  | 0xB => 32
  | _ => 8

/-- The block size of a format: 32 for MX, 16 for KB8, 1 otherwise. -/
def blockOf (code : Nat) : Nat := if isMx code then 32 else if isKb8 code then 16 else 1

/-- Bytes of `n` packed elements (R72, R74). -/
def rowBytes (code n : Nat) : Nat := if isKb8 code then n / 16 * 18 else n * elemBits code / 8

/-- The value of a float element's bits (R71, R75 apart). -/
def decodeFloat (f : FloatFmt) (code bits : Nat) : FVal :=
  let s := decide (bits / 2 ^ (f.eb + f.mb) % 2 = 1)
  let ex := bits / 2 ^ f.mb % 2 ^ f.eb
  let man := bits % 2 ^ f.mb
  if f.ieee && ex == 2 ^ f.eb - 1 then (if man = 0 then .inf s else .nan)
  else if code == 5 && ex == 15 && man == 7 then .nan
  else if ex = 0 then .fin s man (1 - f.bias - f.mb)
  else .fin s (man + 2 ^ f.mb) ((ex : Int) - f.bias - f.mb)

/-- The bits of a magnitude rounded into a float element (R80, R81); `sticky`: the exact value is a little more. -/
def encodeMag (f : FloatFmt) (r : Round) (m : Nat) (e : Int) (sticky : Bool) : Nat :=
  if m = 0 then 0
  else
    let lg := ilog m e
    let q := max lg (1 - f.bias) - f.mb
    let top := f.emax - f.mb
    let infBits := (2 ^ f.eb - 1) * 2 ^ f.mb
    let maxBits := ((f.emax + f.bias - 1).toNat) * 2 ^ f.mb + f.maxM
    let n := roundQ r m e q sticky
    if f.emax < lg ∨ (q = top ∧ f.maxM < n) then
      (if f.ieee && r != .rtz then infBits else maxBits)
    else (q + f.mb + f.bias - 1).toNat * 2 ^ f.mb + n

/-- A value as the bits of a float element that is not block-scaled (Table FMT-6). -/
def encodeFloat (f : FloatFmt) (r : Round) (v : FVal) : Nat :=
  let sb := fun (s : Bool) => if s then 2 ^ (f.eb + f.mb) else 0
  match v with
  | .nan => f.nan
  | .inf s =>
    sb s + (if f.ieee then (2 ^ f.eb - 1) * 2 ^ f.mb else ((f.emax + f.bias - 1).toNat) * 2 ^ f.mb + f.maxM)
  | .fin s m e => sb s + encodeMag f r m e false

/-- A value rounded to an integer and saturated to [lo, hi] (R81). -/
def toInt (r : Round) (lo hi : Int) : FVal → Int
  | .nan => 0
  | .inf s => if s then lo else hi
  | .fin s m e =>
    let n : Int := (roundQ r m e 0 false : Int)
    let x := if s then -n else n
    if x < lo then lo else if hi < x then hi else x

/-- FP32, and one rounding to it (RNE). -/
def fp32 : FloatFmt := ⟨8, 23, 127, 127, true, 16777215, 0x7FC00000⟩

def toF32 (v : FVal) : FVal := decodeFloat fp32 0xA (encodeFloat fp32 .rne v)

/-- A magnitude with a sticky tail, rounded to FP32. -/
def magF32 (s : Bool) (m : Nat) (e : Int) (sticky : Bool) : FVal :=
  decodeFloat fp32 0xA ((if s then 2 ^ 31 else 0) + encodeMag fp32 .rne m e sticky)

/-! ### Packing and reading (R72–R75) -/

/-- Element `i` of packed bits of width `w`. -/
def codeAt (w : Nat) (bs : List Byte) (i : Nat) : Nat :=
  let bit := w * i
  let lo := bit / 8
  bitsOf (leNat ((bs.drop lo).take ((bit % 8 + w + 7) / 8))) (bit % 8) w

/-- Codes of width `w` packed least significant first. -/
def packCodes (w : Nat) (codes : List Nat) : List Byte :=
  leBytes (codes.length * w / 8) (codes.foldr (fun c acc => c + 2 ^ w * acc) 0)

/-- The value of element `i` of a packed row, with the row's scale bytes for an MX format (R73, R75). -/
def floatAt (code : Nat) (bs scales : List Byte) (i : Nat) : FVal :=
  if isKb8 code then
    let e := (bs.getD (i / 16 * 18) 0).toNat
    let m := signed 8 (bs.getD (i / 16 * 18 + 1 + i % 16) 0).toNat
    if e = 255 ∨ m = -128 then .nan else ofNum m ((e : Int) - 133) false
  else match floatFmt code with
    | none => .nan
    | some f =>
      let v := decodeFloat f code (codeAt (elemBits code) bs i)
      if isMx code then
        let s := (scales.getD (i / 32) 0).toNat
        if s = 255 then .nan else v.scale ((s : Int) - 127)
      else v

/-- Element `i` of a packed integer row. -/
def intAt (code : Nat) (bs : List Byte) (i : Nat) : Int := signed (elemBits code) (codeAt (elemBits code) bs i)

/-- The exact value of element `i`, integers included. -/
def valAt (code : Nat) (bs scales : List Byte) (i : Nat) : FVal :=
  if isInt code then ofNum (intAt code bs i) 0 false else floatAt code bs scales i

/-! ### Encoding (R76, R77, R81) -/

/-- The largest ⌊log₂⌋ among the finite non-zero values, if any. -/
def maxLog (vs : List FVal) : Option Int :=
  vs.foldl (fun acc v => match v with
    | .fin _ m e => if m = 0 then acc else some (match acc with | some a => max a (ilog m e) | none => ilog m e)
    | _ => acc) none

def clamp (lo hi x : Int) : Int := if x < lo then lo else if hi < x then hi else x

def FVal.isFin : FVal → Bool
  | .fin _ _ _ => true
  | _ => false

/-- A KB8 block from sixteen values with their roundings (R76). -/
def kb8Block (rs : List (FVal × Round)) : List Byte :=
  let vs := rs.map Prod.fst
  if vs.all (fun v => v == .nan) then 255 :: List.replicate 16 128 ++ [0]
  else
    let ex : Int := match maxLog vs with
      | some a => clamp 0 254 (127 + a)
      | none => if vs.any FVal.isFin then 0 else 254
    let man := fun (p : FVal × Round) =>
      match p.1 with
      | .nan => (128 : Byte)
      | v => BitVec.ofNat 8 (twos 8 (toInt p.2 (-127) 127 (v.scale (133 - ex))))
    BitVec.ofNat 8 ex.toNat :: rs.map man ++ [0]

/-- An MX block: its scale byte and element codes (R77). -/
def mxBlock (f : FloatFmt) (rs : List (FVal × Round)) : Nat × List Nat :=
  let vs := rs.map Prod.fst
  if vs.any (fun v => v == .nan) then (255, rs.map (fun _ => 0))
  else
    let s : Int := match maxLog vs with
      | some a => clamp 0 254 (127 + a - f.emax)
      | none => if vs.any (fun v => !v.isFin) then 254 else 0
    (s.toNat, rs.map (fun p => encodeFloat f p.2 (p.1.scale (127 - s))))

/-- Lists of `n` elements, in order. -/
def chunk {α : Type} (n : Nat) : Nat → List α → List (List α)
  | 0, _ => []
  | k + 1, l => l.take n :: chunk n k (l.drop n)

/-- A run of elements of one stored row as bytes, and its scale bytes (R72–R77, R81). -/
def encodeRun (code : Nat) (rs : List (FVal × Round)) : List Byte × List Byte :=
  if isKb8 code then ((chunk 16 (rs.length / 16) rs).flatMap kb8Block, [])
  else match floatFmt code with
    | some f =>
      if isMx code then
        let bl := (chunk 32 (rs.length / 32) rs).map (mxBlock f)
        (packCodes (elemBits code) (bl.flatMap Prod.snd), bl.map (fun b => BitVec.ofNat 8 b.1))
      else (packCodes (elemBits code) (rs.map (fun p => encodeFloat f p.2 p.1)), [])
    | none =>
      let w := elemBits code
      let hi : Int := (2 ^ (w - 1) : Nat) - 1
      (packCodes w (rs.map (fun p => twos w (toInt p.2 (-hi - 1) hi p.1))), [])

/-- The FP32 value of an input element (R86): exact, but for an MX value beyond the range of FP32. -/
def inF32 (code : Nat) (bs scales : List Byte) (i : Nat) : FVal := toF32 (floatAt code bs scales i)

/-- INT32 modulo 2³². -/
def wrap32 (i : Int) : Int := signed 32 (twos 32 i)

end Sys2Proof.Machine
end

