-- ==== Sys2Proof/Machine/Arith.lean ====
section
/-!
DEFINITION. Arithmetic of the matrix and vector units: groups of a dot product (R82–R85), the functions of Table INS-7
(R134) and the reduction tree (R135).
-/
namespace Sys2Proof.Machine

/-! ### Matrix arithmetic (R82–R85) -/

/-- Whether Table FMT-7 holds the pairing. -/
def pairingOk (a b : Nat) : Bool :=
  (decide (a < 2) && decide (b < 2)) ||
  (decide (2 ≤ a) && decide (a ≤ 6) && decide (2 ≤ b) && decide (b ≤ 6)) ||
  (a == b && (a == 7 || a == 8 || a == 9 || a == 10))

/-- The group length of a float pairing (R83). -/
def groupLen (a b : Nat) : Nat := if isMx a || isMx b then 32 else if isKb8 a then 16 else 4

/-- G of R131, whose multiple K must be. -/
def multipleK (a b : Nat) : Nat :=
  if a == 0 || b == 0 || isMx a || isMx b then 32 else if isKb8 a then 16 else 4

/-- The exact sum of a group's products, one rounding away from the accumulator; a sum of zeros is +0 (log entry 9). -/
def groupSum (ps : List (FVal × FVal)) : FVal :=
  match ps.foldl (fun acc p => acc.add (p.1.mul p.2)) FVal.zero with
  | .fin s m e => if m = 0 then FVal.zero else .fin s m e
  | v => v

/-- R83: the accumulator after `n` groups of `g` element pairs. -/
def dotFloat (g : Nat) : Nat → FVal → List (FVal × FVal) → FVal
  | 0, acc, _ => acc
  | n + 1, acc, ps => dotFloat g n (toF32 (acc.add (groupSum (ps.take g)))) (ps.drop g)

/-- R84. -/
def dotInt (acc : Int) (ps : List (Int × Int)) : Int := wrap32 (ps.foldl (fun a p => a + p.1 * p.2) acc)

/-! ### Roots and quotients, correctly rounded -/

/-- ⌊√n⌋ for n < 2^(2·k), bit by bit. -/
def isqrt : Nat → Nat → Nat
  | 0, _ => 0
  | k + 1, n =>
    let r := 2 * isqrt k (n / 4)
    if (r + 1) * (r + 1) ≤ n then r + 1 else r

/-- √(m · 2^e), rounded to FP32. -/
def sqrtF32 (m : Nat) (e : Int) : FVal :=
  let odd := (e % 2).toNat
  let k := 2 * (40 + Nat.log2 m)
  let n := m * 2 ^ (odd + k)
  let r := isqrt (Nat.log2 n + 1) n
  magF32 false r ((e - odd - k) / 2) (r * r != n)

/-- 1 / (m · 2^e), rounded to FP32. -/
def recipF32 (s : Bool) (m : Nat) (e : Int) : FVal :=
  let k := 40 + Nat.log2 m
  magF32 s (2 ^ k / m) (-e - k) (2 ^ k % m != 0)

/-- 1 / √(m · 2^e), rounded to FP32. -/
def rsqrtF32 (m0 : Nat) (e0 : Int) : FVal :=
  let odd := (e0 % 2).toNat
  let m := m0 * 2 ^ odd
  let e := e0 - odd
  let j := 40 + Nat.log2 m
  let n := 2 ^ (2 * j) / m
  let r := isqrt (j + 1) n
  magF32 false r (-e / 2 - j) (r * r * m != 2 ^ (2 * j))

/-! ### Exponential and logarithm on 200 fraction bits (R134; log entry 10) -/

def one200 : Nat := 2 ^ 200

/-- ln 2 · 2^200 and 2√(2/π) · 2^200. -/
def ln2' : Nat := 1113844574712631719546256151097547306333272293549090750737802

def gelu2' : Nat := 2564302111361999733652018494719322688786496876685806081368833

/-- m · 2^e on 200 fraction bits. -/
def fix200 (m : Nat) (e : Int) : Nat :=
  if 0 ≤ e + 200 then m * 2 ^ (e + 200).toNat else m / 2 ^ (-(e + 200)).toNat

/-- The terms of e^r from the `i`-th on, `t` being the one before. -/
def expTerms (r : Nat) : Nat → Nat → Nat → Nat
  | 0, _, _ => 0
  | n + 1, i, t =>
    let t' := t * r / one200 / i
    t' + expTerms r n (i + 1) t'

/-- e^x for 0 ≤ x on 200 fraction bits, as (E, k) standing for E · 2^(k − 200). -/
def expFix (x : Nat) : Nat × Nat :=
  let k := x / ln2'
  (one200 + expTerms (x - k * ln2') 60 1 one200, k)

/-- The terms of atanh t from t^i / i on. -/
def atanhTerms (t2 : Nat) : Nat → Nat → Nat → Nat
  | 0, _, _ => 0
  | n + 1, i, t => t / i + atanhTerms t2 n (i + 2) (t * t2 / one200)

/-- ln(m · 2^e), rounded to FP32; m ≠ 0. -/
def logF32 (m : Nat) (e : Int) : FVal :=
  let lg := Nat.log2 m
  let z := m * one200 / 2 ^ lg
  let t := (z - one200) * one200 / (z + one200)
  let v : Int := (e + lg) * (ln2' : Int) + 2 * (atanhTerms (t * t / one200) 80 1 t : Int)
  if m = 2 ^ lg ∧ e + lg = 0 then .fin false 0 0 else magF32 (decide (v < 0)) v.natAbs (-200) true

/-- e^a for 0 ≤ a ≤ 200, scaled by 2^200. -/
def expScaled (a : Nat) : Nat := (expFix a).1 * 2 ^ (expFix a).2

/-- sigmoid(±a) scaled by 2^500 (R134). -/
def sigmoid500 (neg : Bool) (a : Nat) : Nat :=
  let p := expScaled a
  (if neg then one200 else p) * 2 ^ 500 / (p + one200)

def expF32 (s : Bool) (m : Nat) (e : Int) : FVal :=
  let a := fix200 m e
  if m = 0 then .fin false 1 0
  else if 200 * one200 < a then (if s then .fin false 0 0 else .inf false)
  else if s then
    magF32 false (2 ^ 700 / expScaled a) (-500) true
  else magF32 false (expFix a).1 ((expFix a).2 - 200) true

def tanhF32 (s : Bool) (m : Nat) (e : Int) : FVal :=
  let a := fix200 m e
  if m = 0 ∨ ilog m e < -13 then .fin s m e
  else if 20 * one200 < a then .fin s 1 0
  else
    let p := expScaled (2 * a)
    magF32 s ((p - one200) * 2 ^ 300 / (p + one200)) (-300) true

def sigmoidF32 (s : Bool) (m : Nat) (e : Int) : FVal :=
  let a := fix200 m e
  if m = 0 then .fin false 1 (-1)
  else if 200 * one200 < a then (if s then .fin false 0 0 else .fin false 1 0)
  else magF32 false (sigmoid500 s a) (-500) true

/-- x · sigmoid(±v) for x = ±m · 2^e, `v` on 200 fraction bits with x's sign: SILU and GELU. -/
def swishF32 (s : Bool) (m : Nat) (e : Int) (v : Nat) : FVal :=
  if m = 0 then .fin s 0 0
  else if 200 * one200 < v then (if s then .fin true 0 0 else .fin s m e)
  else magF32 s (m * sigmoid500 s v) (e - 500) true

def siluF32 (s : Bool) (m : Nat) (e : Int) : FVal := swishF32 s m e (fix200 m e)

/-- 0.5 · x · (1 + tanh u) is x · sigmoid(2u). -/
def geluF32 (s : Bool) (m : Nat) (e : Int) : FVal :=
  if 10 < ilog m e then swishF32 s m e (1000 * one200)
  else
    let poly := fix200 m e + fix200 (m * m * m * 44715) (3 * e) / 1000000
    swishF32 s m e (poly * gelu2' / one200)

/-! ### The functions of Table INS-7 -/

/-- VEW on float data, rounded once to FP32. -/
def vewFloat (func : Nat) (x y w : FVal) : FVal :=
  match func with
  | 0 => toF32 (x.add y)
  | 1 => toF32 (x.add y.neg)
  | 2 => toF32 (x.mul y)
  | 3 => x.max y
  | 4 => x.min y
  | _ => toF32 ((x.mul y).add w)

/-- VEW on integer data, modulo 2³². -/
def vewInt (func : Nat) (x y : Int) : Int :=
  match func with
  | 0 => wrap32 (x + y)
  | 1 => wrap32 (x - y)
  | 2 => wrap32 (x * y)
  | 3 => max x y
  | _ => min x y

/-- VUN on float data, rounded once to FP32. -/
def vunFloat (func : Nat) : FVal → FVal
  | .nan => .nan
  | .inf s =>
    match func with
    | 0 => .inf s
    | 1 => .inf (!s)
    | 2 => .inf false
    | 3 => if s then .nan else .inf false
    | 4 => .fin s 0 0
    | 5 => if s then .nan else .fin false 0 0
    | 6 => if s then .fin false 0 0 else .inf false
    | 7 => if s then .nan else .inf false
    | 8 => .fin s 1 0
    | 9 => if s then .fin false 0 0 else .fin false 1 0
    | _ => if s then .fin true 0 0 else .inf false
  | .fin s m e =>
    match func with
    | 0 => .fin s m e
    | 1 => .fin (!s) m e
    | 2 => .fin false m e
    | 3 => if m = 0 then .fin s 0 0 else if s then .nan else sqrtF32 m e
    | 4 => if m = 0 then .inf s else recipF32 s m e
    | 5 => if m = 0 then .inf s else if s then .nan else rsqrtF32 m e
    | 6 => expF32 s m e
    | 7 => if m = 0 then .inf true else if s then .nan else logF32 m e
    | 8 => tanhF32 s m e
    | 9 => sigmoidF32 s m e
    | 10 => geluF32 s m e
    | _ => siluF32 s m e

/-- VUN on integer data, modulo 2³². -/
def vunInt (func : Nat) (x : Int) : Int :=
  match func with
  | 0 => x
  | 1 => wrap32 (-x)
  | _ => wrap32 (x.natAbs : Int)

/-! ### The reduction tree (R135) -/

/-- One pass of the tree: neighbours combined, the lower position on the left. -/
def treePass {α : Type} (f : α → α → α) : List α → List α
  | a :: b :: l => f a b :: treePass f l
  | l => l

/-- `tree(p[0..n-1])` for n ≤ 2^fuel. -/
def tree {α : Type} (f : α → α → α) : Nat → List α → Option α
  | 0, l => l.head?
  | k + 1, l => tree f k (treePass f l)

/-- Lane `j` of a row folds its elements in ascending order, starting from `g` of its first. -/
def laneFold {α : Type} (g : α → α) (f : α → α → α) (row : List α) (j : Nat) : Option α :=
  match (List.range (row.length / 64 + 1)).filterMap (fun i => row[j + 64 * i]?) with
  | [] => none
  | x :: xs => some (xs.foldl f (g x))

/-- The two stages of VRED on one row, each fold step being `f` and each combine of partials `c`. -/
def reduceRow {α : Type} (g : α → α) (f c : α → α → α) (row : List α) : Option α :=
  tree c 6 ((List.range (Nat.min 64 row.length)).filterMap (laneFold g f row))

def addF32 (a b : FVal) : FVal := toF32 (a.add b)

/-- VRED on float data: SUM, MAX, MIN, SUMSQ, whose step adds x·x with a single rounding. -/
def vredFloat (func : Nat) (row : List FVal) : FVal :=
  (match func with
   | 0 => reduceRow id addF32 addF32 row
   | 1 => reduceRow id FVal.max FVal.max row
   | 2 => reduceRow id FVal.min FVal.min row
   | _ => reduceRow (fun x => toF32 (x.mul x)) (fun a x => toF32 (a.add (x.mul x))) addF32 row).getD .nan

/-- VRED on integer data, modulo 2³². -/
def vredInt (func : Nat) (row : List Int) : Int :=
  let add := fun a b => wrap32 (a + b)
  (match func with
   | 0 => reduceRow id add add row
   | 1 => reduceRow id max max row
   | 2 => reduceRow id min min row
   | _ => reduceRow (fun x => wrap32 (x * x)) (fun a x => wrap32 (a + x * x)) add row).getD 0

/-- `combine` of a collective's reduction on float data (RED of R138). -/
def redFloat (red : Nat) (a b : FVal) : FVal :=
  match red with
  | 0 => addF32 a b
  | 1 => a.max b
  | _ => a.min b

def redInt (red : Nat) (a b : Int) : Int :=
  match red with
  | 0 => wrap32 (a + b)
  | 1 => max a b
  | _ => min a b

end Sys2Proof.Machine
end

