-- ==== Sys2Proof/Machine/Flags.lean ====
section
/-!
DEFINITION. Status computations: which STATUS and DETAIL a list ends with (R102, R114, R142, R456), and the status bits and
counters that an ending raises in its queue's registers (Table ENG-6, Table TAG-7).
-/
namespace Sys2Proof.Machine

open Reg

/-- The lowest of the values that apply. -/
def lowest : List (Bool × Nat) → Option Nat
  | [] => none
  | (b, v) :: l =>
    match lowest l with
    | some m => some (if b then Nat.min v m else m)
    | none => if b then some v else none

def lowestOf : List Nat → Option Nat
  | [] => none
  | v :: l => some (match lowestOf l with | some m => Nat.min v m | none => v)

/-- DETAILs that stand for an uncorrectable error (Table MEM-5). -/
def isUeDetail (d : Nat) : Bool := d == 0x0301 || d == 0x0302

/-- R114: STATUS is ERROR_UNCORRECTABLE if any fault is an uncorrectable error, and DETAIL the lowest that carries it. -/
def dataError (fs : List Nat) : Option Ending :=
  match lowestOf (fs.filter isUeDetail), lowestOf fs with
  | some d, _ => some ⟨0x21, d⟩
  | none, some d => some ⟨0x20, d⟩
  | none, none => none

/-- A refusal counts in QUE_ADM_REFUSED and shows there as the last (R68). -/
def State.countRefusal (s : State) (q code : Nat) : State := (s.count (queAdmRefusedCount q) 1).wr (queAdmRefusedLast q) code

/-- QUE_LAST_ERR after a 0x2_ or 0x3_ record. -/
def State.lastErr (s : State) (q status detail desc : Nat) : State :=
  if status / 16 = 2 ∨ status / 16 = 3 then
    (s.wr (queLastErrDetail q) detail).wr (queLastErrDescStatus q) (status * 256 + desc % 256)
  else s

/-- QUE_ADM_DEFERRED and the counter event of the queue's die (R65, Table TRC-3). -/
def State.defer (s : State) (q n : Nat) : State :=
  (s.count (queAdmDeferredCount q) n).countEs (q / 16) 0x0F none n

end Sys2Proof.Machine
end

