-- ==== Sys2Proof/Machine/Queue.lean ====
section
/-!
DEFINITION. Queues: ring geometry, completion records and their interrupts (R96–R107), admitted lists, fetching, ending and
dispatch (R60, R92, R100, R112–R116).
-/
namespace Sys2Proof.Machine

open Reg

/-! ### Geometry -/

/-- Capacity of the descriptor ring (QUE_RING_SIZE: 4–16, other values treated as 16). -/
def State.ringCap (s : State) (q : Nat) : Nat :=
  let n := s.rd (queRingSizeLog2 q)
  2 ^ (if 4 ≤ n ∧ n ≤ 16 then n else 16)

/-- Records of the completion ring (QUE_CPL_SIZE: 5–17, other values treated as 17). -/
def State.cplSize (s : State) (q : Nat) : Nat :=
  let n := s.rd (queCplSizeLog2 q)
  2 ^ (if 5 ≤ n ∧ n ≤ 17 then n else 17)

def State.ringBase (s : State) (q : Nat) : Nat := s.rd (queRingBaseLoBase q) * 64 + 2 ^ 32 * s.rd (queRingBaseHiBase q)

def State.cplBase (s : State) (q : Nat) : Nat := s.rd (queCplBaseLoBase q) * 64 + 2 ^ 32 * s.rd (queCplBaseHiBase q)

/-- R97: (b − a) modulo twice the capacity. -/
def countBetween (cap a b : Nat) : Nat := (b + 2 * cap - a % (2 * cap)) % (2 * cap)

/-- Pending descriptors (R97). -/
def State.pendingCount (s : State) (q : Nat) : Nat := countBetween (s.ringCap q) (s.rd (queHeadHead q)) (s.rd (queTailTail q))

/-- Descriptors that have not been candidates to the end. -/
def State.untested (s : State) (q : Nat) : Nat := countBetween (s.ringCap q) (s.queue q).cand (s.rd (queTailTail q))

def State.classOf (s : State) (q : Nat) : Nat := s.rd (queAdmCfgClass q)

/-- Free record slots that no list has reserved (R103). -/
def State.freeRecords (s : State) (q : Nat) : Nat := s.cplSize q - ((s.queue q).used + (s.queue q).reserved)

/-! ### Job entries -/

/-- The valid entry of a job in a partition (R246). -/
def State.jobEntry (s : State) (p job : Nat) : Option Nat :=
  (List.range 16).find? (fun e => s.on (jobIdValid p e) && s.rd (jobIdJob p e) == job)

/-- STATE of the job's entry: 0 RUNNING, 1 FAULTED, 2 ARMED; none without one. -/
def State.jobState (s : State) (p job : Nat) : Option Nat := (s.jobEntry p job).map (fun e => s.rd (jobStateState p e))

/-! ### Checkpoint slots (Table JOB-3) -/

def State.slotState (s : State) (p e : Nat) (b : Bool) : Nat :=
  if b then s.rd (jobSlotBState p e) else s.rd (jobSlotAState p e)

def State.slotStep (s : State) (p e : Nat) (b : Bool) : Nat :=
  if b then s.rd64 (jobSlotBStepLoStep p e) (jobSlotBStepHiStep p e)
  else s.rd64 (jobSlotAStepLoStep p e) (jobSlotAStepHiStep p e)

/-- CK_LOCK is 1 while either slot is OPEN, DONE or SEALED (R262). -/
def State.updateLock (s : State) (p e : Nat) : State :=
  let busy := fun (b : Bool) => decide (1 ≤ s.slotState p e b) && decide (s.slotState p e b ≤ 3)
  s.wr (jobStateCkLock p e) (busy false || busy true).toNat

/-- A slot changes state (Table JOB-3). The newest sealed slot stops being so when it leaves SEALED. -/
def State.setSlot (s : State) (p e : Nat) (b : Bool) (st : Nat) : State :=
  let s1 := if b then s.wr (jobSlotBState p e) st else s.wr (jobSlotAState p e) st
  let gone := decide (st ≠ 3) && s.rd (jobStateNewestB p e) == b.toNat
  (if gone then s1.wr (jobStateNewestValid p e) 0 else s1).updateLock p e

def State.setSlotStep (s : State) (p e : Nat) (b : Bool) (v : Nat) : State :=
  if b then s.wr64 (jobSlotBStepLoStep p e) (jobSlotBStepHiStep p e) v
  else s.wr64 (jobSlotAStepLoStep p e) (jobSlotAStepHiStep p e) v

/-- The seal exchange of a slot. -/
def JobSt.seal (x : JobSt) (b : Bool) : Option SealSt := if b then x.sealB else x.sealA

def State.setSeal (s : State) (p e : Nat) (b : Bool) (v : Option SealSt) : State :=
  s.setJob p e (if b then { s.job p e with sealB := v } else { s.job p e with sealA := v })

def State.newest (s : State) (p e : Nat) (b : Bool) : State :=
  (s.wr (jobStateNewestB p e) b.toNat).wr (jobStateNewestValid p e) 1

/-! ### Completion records (R103–R107) -/

/-- R107: the message of queue `q`. -/
def State.queueIrq (s : State) (q : Nat) : State :=
  let x := s.queue q
  (s.setQueue q { x with irqCount := 0, irqSince := none }).msix' (s.partOfQueue q) (s.rd (queIrqCfgVector q))

/-- What a record does to the queue's interrupt. -/
def State.recordIrq (s : State) (q : Nat) (irq : Bool) : State :=
  if !s.on (queIrqCfgEn q) then s
  else
    let x := s.queue q
    let s1 := s.setQueue q { x with irqCount := x.irqCount + 1, irqSince := some (x.irqSince.getD s.tick) }
    if irq || decide (Nat.max 1 (s.rd (queIrqCfgCount q)) ≤ x.irqCount + 1) then s1.queueIrq q else s1

/-- The fields of a completion record (Table ENG-5). -/
structure Record where
  desc : Nat
  status : Nat
  engine : Nat
  tail16 : Nat
  job : Nat
  detail : Nat
  instr : Nat
  cookie : Nat
  irq : Bool
  deriving DecidableEq, Repr

def Record.bytes (r : Record) (own : Nat) (now : Mark) : List Byte :=
  leBytes 2 r.desc ++ leBytes 1 r.status ++ leBytes 1 (own + r.engine % 8 * 2 + r.tail16 % 2 * 16) ++ leBytes 2 r.job ++
  leBytes 2 r.detail ++ leBytes 4 r.instr ++ leBytes 4 r.cookie ++ leBytes 8 now.num ++ leBytes 2 now.phase ++
  leBytes 6 0

/-- R104: a record is written at QUE_CPL_PROD, with `tag` for its trace record. -/
def State.writeRecord (s : State) (q : Nat) (r : Record) (tag : Word64) : State :=
  let x := s.queue q
  let prod := s.rd (queCplProdIndex q)
  let s1 := s.store (s.partOfQueue q) false false (s.cplBase q + 32 * prod) (r.bytes (if x.ownLow then 0 else 1) s.now)
  let wrap := decide (s.cplSize q ≤ prod + 1)
  let s2 := s1.setQueue q { x with used := x.used + 1, ownLow := if wrap then !x.ownLow else x.ownLow }
  let s3 := (s2.wr (queCplProdIndex q) (if wrap then 0 else prod + 1)).lastErr q r.status r.detail r.desc
  let s4 := s3.trace 0x02 (traceUnit 3 q) (r.status + 65536 * r.detail) (some tag) (r.instr + 2 ^ 32 * r.cookie)
    [s.partOfQueue q]
  s4.recordIrq q r.irq

/-- R100: QUE_HEAD moves past every descriptor that has ended with all before it. -/
def State.advanceHead (s : State) (q : Nat) : Nat → State
  | 0 => s
  | n + 1 =>
    let h := s.rd (queHeadHead q)
    let x := s.queue q
    if x.ended.contains h then
      ((s.setQueue q { x with ended := x.ended.filter (· ≠ h) }).wr (queHeadHead q)
        ((h + 1) % (2 * s.ringCap q))).advanceHead q n
    else s

/-- A descriptor has ended. -/
def State.endDesc (s : State) (q desc : Nat) : State :=
  let x := s.queue q
  let s1 := s.setQueue q { x with ended := desc :: x.ended }
  s1.advanceHead q (x.ended.length + 1)

/-- A refusal with its record, written or dropped (R61, R103). -/
def State.refuseRecord (s : State) (q : Nat) (r : Record) : State :=
  let tag := tagOf r.job 0 0xFFFFF 0xB 0 (s.classOf q) (s.partOfQueue q)
  let s1 := (s.countRefusal q r.status).trace 0x08 (traceUnit 3 q) r.status (some tag) r.desc [s.partOfQueue q]
  if 0 < s1.freeRecords q then s1.writeRecord q r tag else s1.event (queStatusCplDrop q)

/-! ### Admitted lists -/

def State.findList (s : State) (q d : Nat) : Option RunList := s.lists.find? (fun l => l.queue == q && l.desc == d)

def State.setList (s : State) (l : RunList) : State :=
  { s with lists := s.lists.map (fun k => if k.queue = l.queue ∧ k.desc = l.desc then l else k) }

def State.partOf (s : State) (l : RunList) : Nat := s.partOfQueue l.queue

/-- The tag of an item of the list that belongs to no tile (Table INS-6); its STEP field is 0 before the list's first STEP (DESIGN
CHOICE, log entry 129). -/
def State.listTag (s : State) (l : RunList) : Word64 :=
  tagOf l.hdr.job (l.step.getD 0) 0xFFFFF 0xB 0 (s.classOf l.queue) (s.partOf l)

/-- Dispatch slots of an engine in a partition (Table ENG-1, R393). -/
def State.slots (s : State) (p e : Nat) : Nat :=
  let dies := (s.diesOf p).length
  match e with
  | 0 => 8 * dies
  | 1 => 8 * dies
  | 2 => 16 * dies
  | 3 => 4 * dies
  | _ => s.rd (medPartCfgSlots p)

def State.runningOn (s : State) (p e : Nat) : Nat :=
  (s.lists.filter (fun l => l.running && s.partOf l == p && l.hdr.engine == e)).length

def State.freeSlot (s : State) (p e : Nat) : Bool := decide (s.runningOn p e < s.slots p e)

/-- The lists of a queue that hold dispatch slots. -/
def State.runningOf (s : State) (q : Nat) : Nat := (s.lists.filter (fun l => l.running && l.queue == q)).length

/-! ### Fetching (R114, R116) -/

/-- The engine that a class needs: none where every engine takes it (R92). -/
def classEngine (cls : Nat) : Option Nat :=
  match cls with
  | 2 => some 2
  | 3 => some 0
  | 4 => some 1
  | 5 => some 3
  | 6 => some 4
  | _ => none

/-- Opcodes of Table INS-2. -/
def opcodes : List Nat :=
  [0x00, 0x01, 0x02, 0x03, 0x04, 0x10, 0x11, 0x12, 0x20, 0x21, 0x22, 0x30, 0x31, 0x40, 0x41, 0x42, 0x50, 0x51, 0x52, 0x53,
   0x60, 0x61, 0x62, 0x70, 0x71, 0x72, 0x73, 0x80, 0x81, 0x90, 0x91, 0x92, 0x93]

def opcodeLegal (engine op : Nat) : Bool :=
  opcodes.contains op && (match classEngine (op / 16) with | some e => e == engine | none => true)

/-- What a list makes of the bytes read for its next instruction: a word; an ending, for data that cannot be read or an opcode
that is reserved or not legal on the engine; or nothing yet, while host memory has not answered. -/
def RunList.fetchedAs (l : RunList) : Option (List Byte × List Nat) → RunList
  | none => { l with word := none, work := .ready }
  | some (bs, fs) =>
    match dataError fs with
    | some e => { l with word := none, ending := some e }
    | none =>
      let w := BitVec.ofNat 128 (leNat bs)
      if opcodeLegal l.hdr.engine (bitsOf w.toNat 0 8) then { l with word := some w, work := .ready }
      else { l with word := some w, ending := some ⟨0x22, 0x0201⟩ }

/-- Where the list's next instruction stands. -/
def RunList.pc (l : RunList) : Nat := l.hdr.clAddr + 64 + 16 * l.idx

/-- The list with its next instruction fetched. -/
def State.fetched (s : State) (l : RunList) : RunList := l.fetchedAs (s.readTagged (s.listTag l) l.pc 16)

/-- Requests the bytes of a host range that have not been answered (R152). -/
def State.askHost (s : State) (p a n : Nat) : State :=
  if a / 2 ^ 60 = 2 ∧ (s.readBytes p false a n).isNone then s.readHost p a n else s

/-- The list fetches: its word or ending as `fetched` says, what the read met noted, a host read sent. -/
def State.fetch (s : State) (l : RunList) : State :=
  let l1 := s.fetched l
  let s1 := (s.setList l1).touchTagged (s.listTag l) (some (l.queue, l.desc)) l.pc 16
  if l1.word.isSome || l1.ending.isSome then s1.dropExt l.pc 16 else s1.askHost (s.partOf l) l.pc 16

/-! ### Ending and dispatching -/

/-- R114: the current instruction is complete. Its data errors end the list, as do its being the last and END; else the
next one is fetched. -/
def State.completeInstr (s : State) (l : RunList) (last : Bool) : State :=
  let l1 := { l with progress := s.tick, total := 0, done := [], held := [], asks := [] }
  let s1 := l.asks.foldl (fun t r => t.dropExt r.1 r.2) (s.countEs (l.queue / 16) 0x04 (some (s.listTag l)) 1)
  match dataError l.faults with
  | some e => s1.setList { l1 with ending := some e }
  | none =>
    if last ∨ l.hdr.instrs ≤ l.idx + 1 then
      s1.setList { l1 with ending := some ⟨if l.concealed = 0 then 0x00 else 0x01, Nat.min 0xFFFF l.concealed⟩ }
    else s1.fetch { l1 with idx := l.idx + 1, word := none, work := .ready }

/-- The list ends with this STATUS and DETAIL at its current instruction. -/
def State.endWith (s : State) (l : RunList) (status detail : Nat) : State :=
  s.setList { l with ending := some ⟨status, detail⟩ }

/-- A decode session halts: it waits for a random access point, and pending pictures are gone (R409). -/
def State.haltSession (s : State) (n : Nat) (x : SessSt) : State :=
  ((s.setSess n (some { x with halted := true, waitRap := true, ready := [] })).wr (medSessStatusState n) 2).event medEventHalted

/-- Whether a session decodes (Table MED-3). -/
def SessSt.decodes (x : SessSt) : Bool := x.desc.getD 3 0 == 0

/-- An instruction is gone from a session. Where it ran there, its syntax elements are gone from the buffer and the spill area, and
parsing for the next one begins (R398, R403). -/
def SessSt.leave (x : SessSt) (me : Nat × Nat) : SessSt :=
  let x1 := { x with busy := x.busy.filter (· ≠ me), later := x.later.filter (fun e => e.1 != me) }
  if x.busy.head? = some me then
    { x1 with chip := [], spilled := 0
              unparsed := (x1.later.find? (fun e => x1.busy.head? == some e.1)).elim [] Prod.snd }
  else x1

/-- A list leaves the session of its media instruction. Ended by an abort or a data error while it runs there, it leaves a
decode session halted and makes the next picture of an encode session a key picture (R398, R410). -/
def State.leaveSession (s : State) (l : RunList) (status : Nat) : State :=
  match l.work with
  | .media n =>
    match s.sess n with
    | some x =>
      let me := (l.queue, l.desc)
      let x1 := (x.leave me)
      let s1 := (s.setSess n (some x1)).wr (medSessStatusBusy n) (x1.busy != []).toNat
      if x.busy.head? = some me ∧ (status = 0x20 ∨ status = 0x21 ∨ status = 0x30 ∨ status = 0x31) then
        (if x.decodes then s1.haltSession n x1 else s1.setSess n (some { x1 with forceKey := true }))
      else s1
    | none => s
  | _ => s

/-- Nothing of a list stays in a media session, in a shadow queue or among the requests of the fabric. -/
def State.forget (s : State) (l : RunList) (status : Nat) : State :=
  let s1 := s.leaveSession l status
  { s1 with
    shadows := s1.shadows.filter (fun x => !(x.queue == l.queue && x.desc == l.desc))
    link := { s1.link with reads := s1.link.reads.filter (fun r => !(r.queue == l.queue && r.desc == l.desc))
                           waiting := s1.link.waiting.filter (fun w => w.frame.owner != some (l.queue, l.desc)) } }

/-- R331: the record of a TC1 list comes after its deadline mark. -/
def State.countLate (s : State) (q : Nat) (l : RunList) : State :=
  if s.classOf q = 1 ∧ l.hdr.deadline.units < s.now.units then (s.count thmTc1LateCount 1).event thmEventTc1Late else s

/-- A list that has ended leaves its slot, and its record is written (R92, R104). One that a job fault met before it ran
ends as a refusal (R249). -/
def State.closeList (s : State) (l : RunList) (e : Ending) : State :=
  let q := l.queue
  let s0 := if e.status / 16 = 1 then
      (s.countRefusal q e.status).trace 0x08 (traceUnit 3 q) e.status (some (s.listTag l)) (l.desc % s.ringCap q) [s.partOf l]
    else s
  let s1 := { s0 with lists := s0.lists.filter (fun k => !(k.queue == q && k.desc == l.desc)) }.forget l e.status
  let x := s1.queue q
  let s2 := s1.setQueue q { x with reserved := x.reserved - 1 }
  let r : Record := { desc := l.desc % s.ringCap q, status := e.status, engine := l.hdr.engine, tail16 := 0,
                      job := l.hdr.job, detail := e.detail, instr := l.idx, cookie := l.hdr.cookie, irq := l.hdr.irq }
  let s3 := ((s2.writeRecord q r (s.listTag l)).endDesc q l.desc).countLate q l
  if e.status = 0 then s3.countEs (q / 16) 0x03 (some (s.listTag l)) 1 else s3

/-- An admitted list that may take a slot now (R60, R100). EN is not tested: R95 names pending descriptors and dispatched lists,
and that a list admitted before EN was cleared may still take a slot is the model's choice (log entry 122). -/
def State.dispatchable (s : State) (l : RunList) : Bool :=
  !l.running && l.ending.isNone && s.freeSlot (s.partOf l) l.hdr.engine && !s.fenced (s.partOf l) &&
  !s.engineFenced (s.partOf l) l.hdr.engine &&
  (!l.hdr.serial || s.rd (queHeadHead l.queue) == l.desc)

/-- Whether `a` goes before `b` to a freed slot: TC0 by queue, then TC1 by deadline and queue (R60). -/
def State.before (s : State) (a b : RunList) : Bool :=
  let ca := s.classOf a.queue
  let cb := s.classOf b.queue
  if ca = 0 ∨ cb = 0 then decide (ca < cb) || (ca == cb && decide (a.queue < b.queue))
  else
    let da := a.hdr.deadline
    let db := b.hdr.deadline
    decide (da.units < db.units) || (da == db && decide (a.queue < b.queue))

/-- The list that the next free slot goes to. -/
def State.nextDispatch (s : State) : Option RunList :=
  (s.lists.filter s.dispatchable).foldl (fun best l => match best with
    | some b => some (if s.before l b then l else b)
    | none => some l) none

/-- A list takes a slot with a fresh private state, and fetches (R113). -/
def State.dispatch (s : State) (l : RunList) : State :=
  let l1 := { l with running := true, as' := List.replicate 16 0, sh := List.replicate 8 none,
                     ms := List.replicate 4 ⟨0, 0⟩, step := none, idx := 0, word := none, work := .ready,
                     progress := s.tick }
  let s1 := s.setList l1
  let s2 := s1.countEs (l.queue / 16) 0x02 (some (s.listTag l1)) 1
  let s3 := s2.trace 0x01 (traceUnit 3 l.queue) (l.desc % s.ringCap l.queue + 65536 * l.hdr.engine) (some (s.listTag l1))
    l.hdr.clAddr [s.partOf l]
  s3.fetch l1

/-- A CKWRITE to the slot runs on the device for the job (R141). -/
def State.ckWriting (s : State) (p job : Nat) (b : Bool) : Bool :=
  s.lists.any (fun l => l.running && l.ending.isNone && s.partOf l == p && l.hdr.job == job &&
    match l.work, l.word with
    | .tiles, some w => bitsOf w.toNat 0 8 == 0x71 && bitsOf w.toNat 8 1 == b.toNat
    | _, _ => false)

/-- A CKDONE that no CKWRITE holds back any more. -/
def State.closable (s : State) (l : RunList) : Bool :=
  l.running && l.ending.isNone &&
  match l.work with
  | .closing b _ => !s.ckWriting (s.partOf l) l.hdr.job b
  | _ => false

/-- Local completion of a checkpoint is reported for its seal mark: a slot that is OPEN becomes DONE (R141, R253). -/
def State.reportDone (s : State) (l : RunList) (b : Bool) (m : Mark) : State :=
  match s.jobEntry (s.partOf l) l.hdr.job with
  | some e =>
    let p := s.partOf l
    let x : SealSt := ((s.job p e).seal b).getD { mark := m, late := false, tick := none, agree := none }
    if s.slotState p e b = 1 then
      (s.setSlot p e b 2).setSeal p e b (some { x with late := decide (m.units < s.now.units) })
    else s
  | none => s

/-- The CKDONE of `l` completes. -/
def State.closeSlot (s : State) (l : RunList) : State :=
  match l.work with
  | .closing b m => (s.reportDone l b m).completeInstr l false
  | _ => s

/-- Ended lists leave, CKDONEs that wait for nothing complete, and admitted lists take the slots that are free, until nothing
of this is left to do. -/
def State.settleN (s : State) : Nat → State
  | 0 => s
  | n + 1 =>
    match s.lists.find? (fun l => l.ending.isSome) with
    | some l => (s.closeList l (l.ending.getD ⟨0, 0⟩)).settleN n
    | none =>
      match s.lists.find? s.closable with
      | some l => (s.closeSlot l).settleN n
      | none =>
        match s.nextDispatch with
        | some l => (s.dispatch l).settleN n
        | none => s

def State.settle (s : State) : State := s.settleN (4 * s.lists.length + 1)

/-! ### Running an instruction -/

/-- A running list whose fetched instruction has opcode `op` and has not begun. -/
def State.ready (s : State) (r : ListRef) (op : Nat) : Option (RunList × Nat) :=
  match s.findList r.queue.val r.desc with
  | some l =>
    match l.word, l.work, l.ending with
    | some w, .ready, none => if l.running && bitsOf w.toNat 0 8 == op then some (l, w.toNat) else none
    | _, _, _ => none
  | none => none

/-- The instruction starts: its trace record (Table TRC-2). -/
def State.startInstr (s : State) (l : RunList) (w : Nat) : State :=
  s.trace 0x03 (traceUnit 3 l.queue) (bitsOf w 0 8 + 256 * l.idx) (some (s.listTag l)) (l.desc % s.ringCap l.queue)
    [s.partOf l]

end Sys2Proof.Machine
end

