-- ==== Sys2Proof/Machine/Admission.lean ====
section
/-!
DEFINITION. Doorbells, admission and the queue registers (03_tags_classes_and_admission.md, 05_engines_queues_and_command_lists.md).
-/
namespace Sys2Proof.Machine

open Reg

/-! ### Reading a candidate (R102) -/

/-- Table ENG-3. -/
def parseHeader (bs : List Byte) (clAddr cookie : Nat) : Header :=
  { engine := field bs 3 1, job := field bs 4 2, irq := (field bs 6 2).testBit 0, serial := (field bs 6 2).testBit 1,
    instrs := field bs 8 4, tiles := field bs 12 4, dies := field bs 16 1, lcFirst := field bs 18 2,
    lcCount := field bs 20 2, deadline := ⟨field bs 24 8, field bs 32 2⟩, runBound := field bs 36 4, clAddr := clAddr,
    cookie := cookie }

/-- Table ENG-4: the lowest DETAIL of the tests that a header fails. -/
def State.headerFault (s : State) (q : Nat) (bs : List Byte) (h : Header) : Option Nat :=
  lowest [
    (field bs 0 2 != 0x5C3A || field bs 2 1 != 1, 0x0101),
    (h.job != s.rd (queBindJob q), 0x0102),
    (decide (5 ≤ h.engine), 0x0103),
    (decide (16 ≤ h.dies) || (List.range 4).any (fun d => h.dies.testBit d && s.partOfDie d != s.partOfQueue q), 0x0104),
    (decide (160 < h.lcFirst + h.lcCount), 0x0105),
    (h.instrs == 0 || decide (2 ^ 24 < h.instrs), 0x0106),
    (decide (4 ≤ field bs 6 2) || field bs 17 1 != 0 || field bs 22 2 != 0 || field bs 34 2 != 0 || field bs 40 24 != 0,
      0x0107)]

/-- R62: the list names a logical cluster that no ACTIVE cluster backs. -/
def State.unbackedTarget (s : State) (h : Header) : Bool :=
  (List.range 4).any (fun d => h.dies.testBit d &&
    (List.range h.lcCount).any (fun i => (s.backing d (h.lcFirst + i)).isNone))

/-- Table TAG-8: the DETAIL of a refusal for a fence, with the header's engine and job when it has been read. -/
def State.fenceDetail (s : State) (q : Nat) (hdr : Option Header) : Option Nat :=
  let p := s.partOfQueue q
  let x := s.queue q
  lowest [
    (s.jobState p (s.rd (queBindJob q)) == some 1 || (x.discardTo.isSome && x.discardTo != some x.cand), 0x0402),
    (s.fenced p || (match hdr with | some h => s.engineFenced p h.engine | none => false), 0x0501),
    (!s.present p, 0x0503),
    (match hdr with | some h => h.job == 0 || h.job == 0xFFFF | none => false, 0x0504),
    (s.churnFenced p, 0x0505)]

/-- What admission makes of a queue's candidate. -/
inductive Verdict where
  /-- No candidate, or one that cannot be read yet, or held for an armed restart. -/
  | wait
  | refuse (r : Record)
  /-- Completes without having run (R102). -/
  | fail (r : Record)
  | hold
  | pass (h : Header)
  deriving DecidableEq, Repr

/-- The record of a list that ends at admission, its header having been read: FLAGS.IRQ signals it as any record (R107). -/
def headRecord (desc status detail : Nat) (h : Header) : Record :=
  { desc := desc, status := status, engine := h.engine, tail16 := 0, job := h.job, detail := detail, instr := 0,
    cookie := h.cookie, irq := h.irq }

/-- The record of a list whose header could not be read: it carries the queue's JOB (R102). That its ENGINE bits are 0 is the
model's choice (log entry 123). -/
def unreadRecord (desc status job detail cookie : Nat) : Record :=
  { desc := desc, status := status, engine := 0, tail16 := 0, job := job, detail := detail, instr := 0,
    cookie := cookie, irq := false }

/-- R60: the tests after the header's validation. -/
def State.judgeHeader (s : State) (q desc : Nat) (h : Header) : Verdict :=
  let no := fun code => Verdict.refuse (headRecord desc code 0 h)
  let quota := (s.queue q).credits
  let cls := s.classOf q
  let late := s.rd beatStatusState == 0 || s.rd beatStatusState == 3 ||
    decide (h.deadline.units < s.now.units + h.runBound)
  if s.unbackedTarget h then no 0x13
  else if cls ≠ 0 ∧ quota ≠ 0 ∧ quota < h.tiles then no 0x11
  else if cls ≠ 0 ∧ quota ≠ 0 ∧ s.rd (queAdmCreditLeft q) < h.tiles then
    (if s.on (queAdmCfgHard q) then no 0x11 else .hold)
  else if cls = 1 ∧ late then no 0x14
  else .pass h

/-- The header of a descriptor at `clAddr`: its bytes, or the error its reading met, or none while unanswered. -/
def State.readHeader (s : State) (q clAddr : Nat) : Option (List Byte × Option Ending) :=
  if clAddr % 64 ≠ 0 ∨ (clAddr / 2 ^ 60 ≠ 0 ∧ clAddr / 2 ^ 60 ≠ 2) then some ([], some ⟨0x20, 0x0309⟩)
  else (s.readBytes (s.partOfQueue q) false clAddr 64).map (fun r => (r.1, dataError r.2))

/-- R60, R102: what becomes of the candidate of queue `q`. -/
def State.judge (s : State) (q : Nat) : Verdict :=
  let x := s.queue q
  let p := s.partOfQueue q
  let bind := s.rd (queBindJob q)
  let d := x.cand % s.ringCap q
  let unread := fun (e : Ending) (cookie : Nat) =>
    match s.fenceDetail q none with
    | some t => Verdict.refuse (unreadRecord d 0x12 bind t cookie)
    | none => .fail (unreadRecord d e.status bind e.detail cookie)
  if !s.on (queCtlEn q) || s.untested q == 0 || s.jobState p bind == some 2 then .wait
  else match s.readBytes p false (s.ringBase q + 16 * d) 16 with
    | none => .wait
    | some (bs, fs) =>
      match dataError fs with
      | some e => unread e 0
      | none =>
        let cookie := field bs 8 4
        match s.readHeader q (field bs 0 8) with
        | none => .wait
        | some (_, some e) => unread e cookie
        | some (hb, none) =>
          let h := parseHeader hb (field bs 0 8) cookie
          match s.fenceDetail q (some h) with
          | some t => .refuse (headRecord d 0x12 t h)
          | none =>
            match s.headerFault q hb h with
            | some t => .fail (headRecord d 0x22 t h)
            | none => s.judgeHeader q d h

/-! ### Acting on the verdict -/

/-- What the host answered of the candidate's descriptor and header has been consumed. -/
def State.dropCandidate (s : State) (q : Nat) : State :=
  let a := s.ringBase q + 16 * ((s.queue q).cand % s.ringCap q)
  match s.readBytes (s.partOfQueue q) false a 16 with
  | some (bs, _) => (s.dropExt (field bs 0 8) 64).dropExt a 16
  | none => s

/-- The candidate has left admission: the next descriptor becomes the candidate. -/
def State.nextCandidate (s0 : State) (q : Nat) : State :=
  let s := s0.dropCandidate q
  let x := s.queue q
  let c := (x.cand + 1) % (2 * s.ringCap q)
  (s.setQueue q { x with cand := c, held := false, discardTo := if x.discardTo = some c then none else x.discardTo }).wr
    (queStatusCplStall q) 0

/-- R63: an admitted list deducts its credits, unless it is TC0 or its queue has no quota; it reserves a record slot. -/
def State.takeUp (s : State) (q : Nat) (h : Header) : State :=
  let x := s.queue q
  let l : RunList :=
    { queue := q, desc := x.cand, hdr := h, running := false, as' := [], sh := [], ms := [], step := none, idx := 0,
      word := none, work := .ready, total := 0, done := [], held := [], faults := [], asks := [], concealed := 0,
      progress := s.tick, ending := none }
  let s1 := s.setQueue q { x with reserved := x.reserved + 1 }
  let s2 := if s.classOf q ≠ 0 ∧ x.credits ≠ 0 then s1.wr (queAdmCreditLeft q) (s.rd (queAdmCreditLeft q) - h.tiles) else s1
  { s2 with lists := s2.lists ++ [l] }.nextCandidate q

/-- A candidate that needs a record slot and finds none waits with CPL_STALL (R103). -/
def State.stall (s : State) (q : Nat) : State := s.wr (queStatusCplStall q) 1

/-- A candidate that ends without being admitted. -/
def State.endCandidate (s : State) (q : Nat) (v : Verdict) : State :=
  let c := (s.queue q).cand
  match v with
  | .refuse r => ((s.refuseRecord q r).endDesc q c).nextCandidate q
  | .fail r =>
    if s.freeRecords q = 0 then s.stall q
    else ((s.writeRecord q r (tagOf r.job 0 0xFFFFF 0xB 0 (s.classOf q) (s.partOfQueue q))).endDesc q c).nextCandidate q
  | .hold => if (s.queue q).held then s else (s.setQueue q { s.queue q with held := true }).defer q 1
  | _ => s

/-- The queue presents a candidate: EN is 1 and a descriptor has not been tested (R95, R97). -/
def State.presents (s : State) (q : Nat) : Bool := s.on (queCtlEn q) && s.untested q != 0

/-- What the reads of the candidate's descriptor and header do: holes and errors are met, and the host is asked for what it has
not answered (R102, R152, R160, R165). A queue that presents no candidate reads nothing. -/
def State.touchCandidate (s : State) (q : Nat) : State :=
  let p := s.partOfQueue q
  let a := s.ringBase q + 16 * ((s.queue q).cand % s.ringCap q)
  if !s.presents q then s
  else
    let s1 := (s.touch p false none a 16).askHost p a 16
    match s.readBytes p false a 16 with
    | some (bs, []) =>
      let c := field bs 0 8
      if c % 64 ≠ 0 ∨ (c / 2 ^ 60 ≠ 0 ∧ c / 2 ^ 60 ≠ 2) then s1 else (s1.touch p false none c 64).askHost p c 64
    | _ => s1

/-- CC2 runs the scheduler: while it is halted or restarts, admission stops (12_hangs_fencing_and_recovery.md, Corners). -/
def State.schedulerUp (s : State) : Bool := (s.core 2).state == .running

/-- R60: the candidate of a TC0 or TC1 queue is tested; admitted, it waits for a slot or takes one. -/
def State.testCandidate (s : State) (q : Nat) : State :=
  let s1 := s.touchCandidate q
  match s.judge q with
  | .pass h => if s.freeRecords q = 0 then s1.stall q else (s1.takeUp q h).settle
  | v => s1.endCandidate q v

/-- Refuses the descriptors that a job fault has marked, as far as they can be read (R249). -/
def State.refuseDiscarded (s : State) (q : Nat) : Nat → State
  | 0 => s
  | n + 1 =>
    match (s.queue q).discardTo, s.judge q with
    | some _, .refuse r => (s.endCandidate q (.refuse r)).refuseDiscarded q n
    | _, _ => s

/-! ### Scheduling rounds (R65) -/

/-- The engine that the candidate's header names, when it can be read and names one. -/
def State.candEngine (s : State) (q : Nat) : Option Nat :=
  match s.readBytes (s.partOfQueue q) false (s.ringBase q + 16 * ((s.queue q).cand % s.ringCap q)) 16 with
  | some (bs, []) =>
    match s.readHeader q (field bs 0 8) with
    | some (hb, none) => if field hb 3 1 < 5 then some (field hb 3 1) else none
    | _ => none
  | _ => none

/-- R60: a TC2 or TC3 list is tested only while its engine has a free dispatch slot; one whose header names no engine waits for
none. -/
def State.turnOpen (s : State) (q : Nat) : Bool :=
  match s.candEngine q with
  | some e => s.freeSlot (s.partOfQueue q) e
  | none => true

/-- A queue ends a round with the candidate of verdict `v` not dispatched: an admissible one counts as deferred (R65), but for
one that no record slot can be reserved for (R103). -/
def State.leaveWaiting (s : State) (q : Nat) (v : Verdict) : State :=
  match v with
  | .pass _ => if s.freeRecords q = 0 then s.stall q else s.defer q 1
  | _ => s

/-- A queue's turn: up to `w` lists dispatched, at most `n` candidates looked at. -/
def State.turn (s : State) (q : Nat) : Nat → Nat → State
  | 0, _ => s
  | n + 1, w =>
    let s1 := s.touchCandidate q
    if w = 0 ∨ !s.turnOpen q then s1.leaveWaiting q (s.judge q)
    else match s.judge q with
      | .pass h =>
        if s.freeRecords q = 0 ∨ (h.serial ∧ s.rd (queHeadHead q) ≠ (s.queue q).cand) then s1.leaveWaiting q (.pass h)
        else
          let s2 := s1.takeUp q h
          match s2.findList q (s.queue q).cand with
          | some l => ((s2.dispatch l).settle).turn q n (w - 1)
          | none => s2
      | .refuse r => (s1.endCandidate q (.refuse r)).turn q n w
      | .fail r => if s.freeRecords q = 0 then s1.stall q else (s1.endCandidate q (.fail r)).turn q n w
      | v => s1.endCandidate q v

/-- One round over the partition's TC2 queues and then its TC3 queues; while CC2 does not run, every admissible list is
deferred. -/
def State.round (s : State) (p : Nat) : State :=
  let of := fun (c : Nat) => (s.queuesOf p).filter (fun q => s.classOf q == c)
  (of 2 ++ of 3).foldl (fun t q =>
    if !t.schedulerUp then t.leaveWaiting q (t.judge q)
    else t.turn q (t.untested q + 1) (Nat.max 1 (t.rd (queAdmCfgWeight q)))) s

/-! ### Quota windows (R63, R69) -/

/-- The window start that a queue waits for has been reached. -/
def State.windowDue (s : State) (q : Nat) : Bool := decide ((s.queue q).winNext ≤ s.beat.num)

/-- A refill: the quota and window written since come into force. -/
def State.refill (s : State) (q : Nat) : State :=
  let x := s.queue q
  let w := Nat.max 1 (s.rd (queAdmWindowBeats q))
  let c := s.rd (queAdmQuotaCredits q)
  let s1 := (s.setQueue q { x with credits := c, window := w, winNext := (s.beat.num / w + 1) * w }).wr
    (queAdmCreditLeft q) c
  if x.held then s1.defer q 1 else s1

/-! ### Enqueues by the device (R99, R125) -/

/-- Whether queue `q` takes a post: fed by the device, with room in its ring. -/
def State.takesPost (s : State) (q : Nat) : Bool :=
  s.on (queCtlDevEnq q) && decide (s.pendingCount q + 1 ≤ s.ringCap q - 1)

/-- The descriptor is written at the tail, which moves as by a doorbell. -/
def State.post (s : State) (q cookie clAddr : Nat) : State :=
  let tail := s.rd (queTailTail q)
  (s.store (s.partOfQueue q) false false (s.ringBase q + 16 * (tail % s.ringCap q))
    (leBytes 8 clAddr ++ leBytes 4 cookie ++ leBytes 4 0)).wr (queTailTail q) ((tail + 1) % (2 * s.ringCap q))

/-! ### Commands: doorbells and admission -/

/-- A window start that is reached (R63, R69): credits refill, and a held TC1 list is tested again. -/
def State.startWindow (s : State) (q : Queue) : State :=
  if !s.windowDue q then s
  else if (s.queue q).held && s.classOf q < 2 && s.schedulerUp then (s.refill q).testCandidate q
  else s.refill q

/-- ADM_CFG_WRITE (R53, R54): HARD and WEIGHT take effect; CLASS only on an empty queue, and TC0 through no BAR0 view. -/
def execAdmCfgWrite (path : Path) (q : Queue) (v : Word32) (s : State) : Host.Outcome State Fault Refusal :=
  let cls := bitsOf v.toNat 0 2
  let busy := s.pendingCount q != 0 || s.lists.any (fun l => l.queue == q.val)
  let bar0 : Bool := match path with | .pf _ => true | _ => false
  .next (
    if !s.ownsQueue path q then s
    else
      let s1 := (s.wr (queAdmCfgHard q) (bitsOf v.toNat 16 1)).wr (queAdmCfgWeight q) (bitsOf v.toNat 8 8)
      if busy ∨ (cls = 0 ∧ bar0) then s1 else s1.wr (queAdmCfgClass q) cls)

/-- ADM_QUOTA_WINDOW_WRITE (R69): the write waits for the next window start. -/
def execAdmQuotaWindowWrite (path : Path) (q : Queue) (window : Bool) (v : Word32) (s : State) :
    Host.Outcome State Fault Refusal :=
  .next (
    if !s.ownsQueue path q then s
    else if window then s.wr (queAdmWindowBeats q) v.toNat
    else s.wr (queAdmQuotaCredits q) v.toNat)

/-- ADM_CLEAR_REFUSED (R68). -/
def execAdmClearRefused (path : Path) (q : Queue) (s : State) : Host.Outcome State Fault Refusal :=
  .next (if s.ownsQueue path q then (s.wr (queAdmRefusedCount q) 0).wr (queAdmRefusedLast q) 0 else s)

/-- ADM_CLEAR_DEFERRED (R68). -/
def execAdmClearDeferred (path : Path) (q : Queue) (s : State) : Host.Outcome State Fault Refusal :=
  .next (if s.ownsQueue path q then s.wr (queAdmDeferredCount q) 0 else s)

/-! ### Commands: queue configuration -/

/-- A free entry of the partition's job table. -/
def State.freeEntry (s : State) (p : Nat) : Option Nat := (List.range 16).find? (fun e => !s.on (jobIdValid p e))

/-- R246: an entry for the job, if it has none. -/
def State.allocateJob (s : State) (p job : Nat) : State :=
  match s.jobEntry p job, s.freeEntry p with
  | none, some e => (s.wr (jobIdJob p e) job).wr (jobIdValid p e) 1
  | _, _ => s

/-- Why a write that sets EN is ignored (R95, R96, R246). -/
def State.enableRefused (s : State) (q : Nat) : Bool :=
  let p := s.partOfQueue q
  let bad := fun (a : Nat) => a / 2 ^ 60 != 0 && a / 2 ^ 60 != 2
  decide (s.cplSize q < 2 * s.ringCap q) || bad (s.ringBase q) || bad (s.cplBase q) ||
  ((s.jobEntry p (s.rd (queBindJob q))).isNone && (s.freeEntry p).isNone)

/-- A write to QUE_CTL; DEV_ENQ is locked while EN is 1. With EN cleared no candidate waits for a record slot (R95, R103). -/
def State.writeQueCtl (s : State) (q : Nat) (v : Nat) : State :=
  if s.on (queCtlEn q) then
    (if bitsOf v 0 1 = 0 then (s.wr (queCtlEn q) 0).wr (queStatusCplStall q) 0 else s)
  else if bitsOf v 0 1 = 0 then s.wr (queCtlDevEnq q) (bitsOf v 1 1)
  else if s.enableRefused q then s.event (queStatusCfgErr q)
  else ((s.wr (queCtlDevEnq q) (bitsOf v 1 1)).wr (queCtlEn q) 1).allocateJob (s.partOfQueue q) (s.rd (queBindJob q))

/-- QUEUE_ENABLE (R95, R96, R246). -/
def execQueueEnable (path : Path) (q : Queue) (v : Word32) (s : State) : Host.Outcome State Fault Refusal :=
  .next (if s.ownsQueue path q then s.writeQueCtl q v.toNat else s)

/-- QUEUE_DISABLE (R95). -/
def execQueueDisable (path : Path) (q : Queue) (v : Word32) (s : State) : Host.Outcome State Fault Refusal :=
  .next (if s.ownsQueue path q then s.writeQueCtl q v.toNat else s)

/-- R96: head and tail return to 0, and every pending descriptor is abandoned. -/
def State.abandonRing (s : State) (q : Nat) : State :=
  let x := s.queue q
  let mine := s.lists.filter (fun l => l.queue == q)
  let s1 := s.setQueue q { x with cand := 0, ended := [], held := false, discardTo := none,
                                  reserved := x.reserved - mine.length }
  (({ s1 with lists := s1.lists.filter (fun l => !(l.queue == q)) }.wr (queHeadHead q) 0).wr (queTailTail q) 0).wr
    (queStatusCplStall q) 0

/-- RING_CONFIG_WRITE (R96): locked while EN is 1, refused while lists run. -/
def execRingConfigWrite (path : Path) (q : Queue) (reg : RingReg) (v : Word32) (s : State) :
    Host.Outcome State Fault Refusal :=
  .next (
    if !s.ownsQueue path q || s.on (queCtlEn q) then s
    else if s.runningOf q ≠ 0 then s.event (queStatusCfgErr q)
    else
      let s1 := match reg with
        | .baseLo => s.wr (queRingBaseLoBase q) (v.toNat / 64)
        | .baseHi => s.wr (queRingBaseHiBase q) v.toNat
        | .size => s.wr (queRingSizeLog2 q) v.toNat
      s1.abandonRing q)

/-- R105: PROD, CONS and the pass count return to their starting values. -/
def State.restartCpl (s : State) (q : Nat) : State :=
  (((s.setQueue q { s.queue q with used := 0, ownLow := false }).wr (queCplProdIndex q) 0).wr (queCplConsIndex q) 0).wr
    (queStatusCplStall q) 0

/-- CPL_RING_CONFIG_WRITE (R105); locked while EN is 1. -/
def execCplRingConfigWrite (path : Path) (q : Queue) (reg : RingReg) (v : Word32) (s : State) :
    Host.Outcome State Fault Refusal :=
  .next (
    if !s.ownsQueue path q || s.on (queCtlEn q) then s
    else
      let s1 := match reg with
        | .baseLo => s.wr (queCplBaseLoBase q) (v.toNat / 64)
        | .baseHi => s.wr (queCplBaseHiBase q) v.toNat
        | .size => s.wr (queCplSizeLog2 q) v.toNat
      s1.restartCpl q)

/-- CPL_CONSUME (R106): the consumer index moves forward past written records, or CONS_BAD sets. -/
def execCplConsume (path : Path) (q : Queue) (v : Word32) (s : State) : Host.Outcome State Fault Refusal :=
  let c := bitsOf v.toNat 0 17
  let size := s.cplSize q
  let x := s.queue q
  let d := (c + size - s.rd (queCplConsIndex q) % size) % size
  .next (
    if !s.ownsQueue path q then s
    else if c < size ∧ d ≤ x.used then
      let s1 := (s.setQueue q { x with used := x.used - d }).wr (queCplConsIndex q) c
      if d = 0 then s1 else s1.wr (queStatusCplStall q) 0
    else s.event (queStatusConsBad q))

/-- IRQ_TIMEOUT (R107). -/
def execIrqTimeout (q : Queue) (s : State) : Host.Outcome State Fault Refusal :=
  let n := s.rd (queIrqTimeoutBeats q)
  .next (
    match (s.queue q).irqSince with
    | some t => if s.on (queIrqCfgEn q) ∧ n ≠ 0 ∧ t + n ≤ s.tick then s.queueIrq q else s
    | none => s)

/-! ### Sync objects (R108–R110) -/

/-- Waits on sync object `n` of partition `p` whose target has been reached. -/
def State.releasable (s : State) (p n : Nat) : List RunList :=
  s.lists.filter (fun l => l.running && s.partOf l == p &&
    match l.work with
    | .waitSync m v => m == n && decide (v ≤ s.syncVal p n)
    | _ => false)

/-- The value of a sync object changes, and in the same clock every wait it satisfies is released. -/
def State.changeSync (s : State) (p n v : Nat) : State :=
  let s1 := s.setSync p n v
  (s1.releasable p n).foldl (fun t l => t.completeInstr l false) s1

/-- R110: what the signals of one clock make of a value: additions saturate, and settings raise. -/
def combine (v : Nat) (adds sets : List Nat) : Nat :=
  Nat.max (satAdd (2 ^ 64 - 1) v (adds.foldl (· + ·) 0)) (sets.foldl Nat.max 0)

/-- A signal that adds; the value saturates at 2⁶⁴ − 1 (R108). Each command takes a clock of its own (log entry 113). -/
def State.signalAdd (s : State) (p n v : Nat) : State := s.changeSync p n (combine (s.syncVal p n) [v] [])

/-- A signal that raises. -/
def State.signalMax (s : State) (p n v : Nat) : State := s.changeSync p n (combine (s.syncVal p n) [] [v])

/-- SYNC_HI_WRITE (R109): the upper half is staged for the path. -/
def execSyncHiWrite (path : Path) (p : Part) (n : Fin 4096) (v : Word32) (s : State) : Host.Outcome State Fault Refusal :=
  .next (
    if s.ownsPart path p then
      { s with staged := s.staged.set (fun _ => none) (pathKey path) (some (p.val * 4096 + n.val, v.toNat)) }
    else s)

/-- The upper half that the path staged for this object. -/
def State.stagedHi (s : State) (path : Path) (k : Nat) : Nat :=
  match s.staged.get (fun _ => none) (pathKey path) with
  | some (i, hi) => if i = k then hi else 0
  | none => 0

end Sys2Proof.Machine
end

