-- ==== Sys2Proof/Machine/Arbiter.lean ====
section
/-!
DEFINITION. Arbitration at NoC router outputs, die-link endpoints, HBM pseudo-channels and fabric ports (R52, R55–R58, R175): the
grant order of Table TAG-3.
-/
namespace Sys2Proof.Machine

open Reg

/-! ### The grant order (Table TAG-3) -/

/-- What an arbiter is built for: the window, in NoC cycles, of its TC0 shaping and the flits (accesses, frames) that it lets
through in one; the window that holds at most one promoted packet. -/
structure ArbRules where
  window : Nat
  limit : Nat
  promoted : Nat
  deriving DecidableEq, Repr

/-- R56: 24 TC0 flits in 64 cycles. -/
def nocRules : ArbRules := ⟨64, 24, 64⟩

/-- R58: two TC0 accesses in 160 ns, 256 cycles; the promoted window is 160 ns. -/
def hbmRules : ArbRules := ⟨256, 2, 256⟩

/-- R175: two TC0 frames in 1 µs, 1,600 cycles. -/
def portRules : ArbRules := ⟨1600, 2, 64⟩

def ArbItem.cls (x : ArbItem) : Nat := bitsOf x.tag.toNat 4 2

/-- What stands at the head of its class queue at its input. -/
def heads : List ArbItem → List ArbItem
  | [] => []
  | x :: l => x :: (heads l).filter (fun y => !(y.input == x.input && y.cls == x.cls))

/-- A TC2 or TC3 packet is promoted after 4,096 cycles at the head of its class queue (R57). -/
def ArbItem.promoted (x : ArbItem) : Bool := decide (2 ≤ x.cls) && decide (4096 ≤ x.age)

/-- What a grant takes of the TC0 shaping: a fabric port counts frames. -/
def ArbItem.weight (x : ArbItem) : Nat := if x.frame.isSome then 1 else x.flits

/-- The source of TC0 packet `x` lets it go: the window has room for it (R56, R58, R175). -/
def ArbSt.shaped (a : ArbSt) (r : ArbRules) (x : ArbItem) : Bool :=
  let used := ((a.tc0.filter (fun g => decide (a.cycle < g.1 + r.window))).map Prod.snd).foldl (· + ·) 0
  decide (used + x.weight ≤ r.limit) || used == 0

/-- Round robin over inputs: the next input after the last one granted. -/
def roundRobin (last : Nat) (l : List ArbItem) : Option ArbItem :=
  let first := fun (xs : List ArbItem) => xs.foldl (fun best x => match best with
    | some b => some (if x.input < b.input then x else b)
    | none => some x) (none : Option ArbItem)
  (first (l.filter (fun x => decide (last < x.input)))).or (first l)

def ArbSt.rotate (a : ArbSt) (cls : Nat) (l : List ArbItem) : Option ArbItem := roundRobin (a.last.getD cls 0) l

/-- The oldest of some packets. -/
def oldest (l : List ArbItem) : Option ArbItem :=
  l.foldl (fun best x => match best with
    | some b => some (if b.age < x.age then x else b)
    | none => some x) none

/-- Those with the earliest deadline mark. -/
def earliest (l : List ArbItem) : List ArbItem := l.filter (fun x => l.all (fun y => decide (x.deadline ≤ y.deadline)))

/-- Rank 4: four TC2 flits to one TC3 flit. -/
def ArbSt.bulk (a : ArbSt) (l : List ArbItem) : Option ArbItem :=
  match a.rotate 2 (l.filter (fun x => x.cls == 2)), a.rotate 3 (l.filter (fun x => x.cls == 3)) with
  | some x, some y => some (if 4 * y.flits ≤ a.share then y else x)
  | some x, none => some x
  | none, y => y

/-- The packet that the next grant goes to (Table TAG-3), if one may go. -/
def ArbSt.pick (a : ArbSt) (r : ArbRules) : Option ArbItem :=
  let hs := heads a.waiting
  let urgent := hs.filter (fun x => x.cls == 0 && a.shaped r x)
  let aged := hs.filter ArbItem.promoted
  let mayPromote : Bool := match a.promotedAt with
    | some t => decide (t + r.promoted ≤ a.cycle)
    | none => true
  if urgent ≠ [] then a.rotate 0 urgent
  else if aged ≠ [] ∧ mayPromote then oldest aged
  else if hs.any (fun x => x.cls == 1) then a.rotate 1 (earliest (hs.filter (fun x => x.cls == 1)))
  else a.bulk hs

/-! ### Time at an arbiter -/

/-- Cycles pass up to `till`: what stands at a head ages (R57). -/
def ArbSt.passTo (a : ArbSt) (till : Nat) : ArbSt :=
  let hs := heads a.waiting
  { a with cycle := Nat.max a.cycle till,
           waiting := a.waiting.map (fun x => if hs.contains x then { x with age := x.age + (till - a.cycle) } else x) }

/-- A grant of `x`, whose packet takes `cost` cycles: it completes before the output grants another (R56). -/
def ArbSt.grant (a : ArbSt) (x : ArbItem) (cost : Nat) : ArbSt :=
  { a with
    waiting := a.waiting.erase x
    free := a.cycle + cost
    tc0 := if x.cls = 0 then (a.cycle, x.weight) :: a.tc0 else a.tc0
    promotedAt := if x.promoted then some a.cycle else a.promotedAt
    last := a.last.set x.cls x.input
    share := if x.cls = 2 then a.share + x.flits else if x.cls = 3 then a.share - 4 * x.flits else a.share }

/-- The arbiter up to cycle `stop`, at most `n` events: what it has granted, in order, each with how many
flits waited. -/
def ArbSt.run (r : ArbRules) (cost : ArbItem → Nat) (stop : Nat) : Nat → ArbSt → ArbSt × List (ArbItem × Nat)
  | 0, a => (a, [])
  | n + 1, a =>
    let now := Nat.max a.cycle a.free
    if stop ≤ now ∨ a.waiting = [] then (a.passTo stop, [])
    else
      let a1 := a.passTo now
      match a1.pick r with
      | some x =>
        let y := ArbSt.run r cost stop n (a1.grant x (cost x))
        (y.1, (x, (a1.waiting.map (·.flits)).sum) :: y.2)
      | none => ArbSt.run r cost stop n (a1.passTo (Nat.min stop (now + r.window)))

/-! ### NoC routers and HBM controllers -/

/-- R56: packets of TC0 hold at most 4 flits, and all others 16; R58: an HBM access moves 64 bytes. -/
def packetMax (hbm : Bool) (cls : Nat) : Nat := if hbm then 1 else if cls = 0 then 4 else 16

/-- The packets of a request of `flits` flits. -/
def packetSizes (size : Nat) : Nat → Nat → List Nat
  | 0, _ => []
  | n + 1, flits => if flits = 0 then [] else Nat.min size flits :: packetSizes size n (flits - size)

def arbKey : Arbiter → Nat
  | .router n => 4 * n
  | .dieLink n => 4 * n + 1
  | .hbm h ch => 4 * (h.val * 64 + ch.val) + 2

/-- The key of a fabric port's arbiter. -/
def portKey (n : Nat) : Nat := 4 * n + 3

def State.arb (s : State) (k : Nat) : ArbSt := s.arbs.get (fun _ => ArbSt.reset) k

def State.setArb (s : State) (k : Nat) (a : ArbSt) : State := { s with arbs := s.arbs.set (fun _ => ArbSt.reset) k a }

def isHbm : Arbiter → Bool
  | .hbm _ _ => true
  | _ => false

/-- A request comes to an arbiter as packets; one with a bad tag is discarded and answered with poisoned data (R52). -/
def State.joinArb (s : State) (arb : Arbiter) (q : ArbReq) : State :=
  let k := arbKey arb
  if s.badTag q.tag then s.emit (.discarded k q.tag)
  else
    let a := s.arb k
    let xs := (packetSizes (packetMax (isHbm arb) (tagTc q.tag)) q.flits q.flits).map (fun f =>
      ({ input := q.input, tag := q.tag, flits := f, deadline := q.deadline, age := q.waited, frame := none } : ArbItem))
    s.setArb k { a with waiting := a.waiting ++ xs }

/-- Cycles that a packet holds the output: a flit each. An HBM access takes at least its transfer, 3.33 ns (R58; log entry 130). -/
def nocCost (hbm : Bool) (x : ArbItem) : Nat := if hbm then 6 * x.flits else x.flits

/-- `cycles` NoC cycles pass at an arbiter. -/
def State.runArb (s : State) (arb : Arbiter) (cycles : Nat) : State :=
  let k := arbKey arb
  let a := s.arb k
  let x := ArbSt.run (if isHbm arb then hbmRules else nocRules) (nocCost (isHbm arb)) (a.cycle + cycles)
    (2 * a.waiting.length + cycles + 1) a
  x.2.foldl (fun t g => t.emit (.grant k g.1.tag g.1.flits)) (s.setArb k x.1)

/-- AGE_PROMOTION (R55–R58): requests come to an arbiter, and time passes there: what has waited 4,096 NoC cycles at the head of
its class queue is promoted, and grants go in the order of Table TAG-3. -/
def execAgePromotion (arbiter : Arbiter) (reqs : List ArbReq) (cycles : Nat) (s : State) : Host.Outcome State Fault Refusal :=
  .next ((reqs.foldl (fun t q => t.joinArb arbiter q) s).runArb arbiter cycles)

end Sys2Proof.Machine
end

