-- ==== Sys2Proof/Machine/Wire.lean ====
section
/-!
DEFINITION. The bytes of a KFT frame (Tables LNK-5 to LNK-7, R179, R180) and how a sub-port carries it (R178,
08_links_host_fabric_management.md).
-/
namespace Sys2Proof.Machine

open Reg

/-! ### ICRC (R179) -/

def crc32cBit (c : Word32) : Word32 := if c.getLsbD 0 then (c >>> 1) ^^^ 0x82F63B78#32 else c >>> 1

def crc32cByte (c : Word32) (b : Byte) : Word32 :=
  crc32cBit (crc32cBit (crc32cBit (crc32cBit (crc32cBit (crc32cBit (crc32cBit (crc32cBit (c ^^^ b.zeroExtend 32))))))))

/-- CRC-32C (Castagnoli). -/
def crc32c (bs : List Byte) : Word32 := ~~~ (bs.foldl crc32cByte 0xFFFFFFFF#32)

/-! ### Frames -/

/-- The fields of the header of a frame that the device sends (Table LNK-5), but for VER, LEN and the device in SRC. -/
structure KftHead where
  type : Nat
  flags : Nat
  part : Nat
  cls : Nat
  dev : Nat
  dstPart : Nat
  conn : Nat
  psn : Nat
  ackPsn : Nat
  tag : Word64
  deriving DecidableEq, Repr

/-- The 32 header bytes of a frame from device `own`. -/
def KftHead.bytes (h : KftHead) (own len : Nat) : List Byte :=
  leBytes 1 (16 + h.type) ++ leBytes 1 h.flags ++ leBytes 2 len ++ leBytes 4 (own + 2 ^ 17 * h.part + 2 ^ 19 * h.cls) ++
  leBytes 4 (h.dev + 2 ^ 17 * h.dstPart) ++ leBytes 4 h.conn ++ leBytes 4 h.psn ++ leBytes 4 h.ackPsn ++ leBytes 8 h.tag.toNat

/-- Header and payload with their ICRC. -/
def sealFrame (b : List Byte) : List Byte := b ++ leBytes 4 (crc32c b).toNat

def KftOp.code : KftOp → Nat
  | .write _ _ => 1
  | .readReq _ _ => 2
  | .readResp _ _ => 3
  | .signal _ _ => 4
  | .signalMax _ _ => 5
  | .enqueue _ _ _ => 6
  | .coll _ _ _ _ _ => 7

/-- The data that follows the operation header. -/
def KftOp.data : KftOp → List Byte
  | .write _ bs => bs
  | .readResp _ bs => bs
  | .coll _ _ _ _ bs => bs
  | _ => []

/-- LEN of the frame: its 16-byte operation header and its data. -/
def KftOp.len (op : KftOp) : Nat := 16 + op.data.length

/-- The operation header with its LEVEL, AUX, ARG and ADDR. -/
def opHeader (code level aux arg addr : Nat) : List Byte :=
  leBytes 1 code ++ leBytes 1 level ++ leBytes 2 aux ++ leBytes 4 arg ++ leBytes 8 addr

/-- The payload of a DATA frame (Table LNK-6). -/
def KftOp.payload : KftOp → List Byte
  | .write a bs => opHeader 1 0 0 0 a ++ bs
  | .readReq a n => opHeader 2 0 n 0 a
  | .readResp a bs => opHeader 3 0 0 0 a ++ bs
  | .signal x v => opHeader 4 0 0 x v
  | .signalMax x v => opHeader 5 0 0 x v
  | .enqueue q k a => opHeader 6 0 q k a
  | .coll level pos a _ bs => opHeader 7 level 0 pos a ++ bs

/-- The segment may be combined inside the network (R186). -/
def KftOp.red : KftOp → Bool
  | .coll _ _ _ r _ => r
  | _ => false

/-! ### Encapsulation (R178) -/

/-- DSCP and VLAN priority of a class. -/
def classDscp (cls : Nat) : Nat := [48, 46, 26, 10].getD cls 0

def classPrio (cls : Nat) : Nat := [7, 6, 4, 2].getD cls 0

/-- The MAC address of device `dev`: 02-4B-46 and its ID. -/
def deviceMac (dev : Nat) : Nat := 0x024B46 * 2 ^ 24 + dev

/-- The group address of hop-by-hop messages in raw mode (R187). -/
def hopGroupMac : Nat := 0x034B46000001

/-- The IP address of device `dev` under the configured prefix. -/
def State.deviceIp (s : State) (dev : Nat) : Nat :=
  if s.on fabKftCfgIp6 then (s.rd64 fabIp6PrefixLoPrefix fabIp6PrefixHiPrefix) * 2 ^ 64 + dev
  else s.rd fabIp4PrefixPrefix / 2 ^ 17 * 2 ^ 17 + dev

/-- How a frame to device `dev` leaves sub-port `sub`: `hop` for the messages of R187, which go to the peer of the sub-port; `ecn`
is the IP ECN field. -/
def State.encap (s : State) (sub : Nat) (hop : Bool) (dev cls conn ecn : Nat) : Encap :=
  let own := s.rd fabDevIdId
  let prio := if Config.fabricVlan then some (classPrio cls) else none
  if s.on fabKftCfgUdp then
    let to' := if hop then s.rd (fabPortPeerId (sub / 4) (sub % 4)) else dev
    .udp (s.rd64 (fabPortGwLoMac (sub / 4)) (fabPortGwHiMac (sub / 4))) (deviceMac own) prio (s.on fabKftCfgIp6) (s.deviceIp own)
      (s.deviceIp to') (0xC000 ||| conn % 2 ^ 14) (s.rd fabKftCfgUdpPort) (classDscp cls) ecn
  else .raw (if hop then hopGroupMac else deviceMac dev) (deviceMac own) prio

/-! ### Fabric taps (R363) -/

def State.regionState (s : State) (r : Nat) : Nat := s.rd (claRegionState r)

def State.regionRunning (s : State) (r : Nat) : Bool := s.regionState r == 3

/-- Whether the fabric taps of a port are active. -/
def State.tapActive (s : State) (n : Nat) : Bool :=
  let r := n / 2
  s.bit claTapCfgFabEn n && s.regionRunning r && s.rd (claRegionPart r) == s.partOfPort n

/-- A port whose tap is enabled, not active, and drops its frames. -/
def State.tapDrops (s : State) (n : Nat) : Bool := s.bit claTapCfgFabEn n && !s.tapActive n && s.bit claTapCfgIsoDrop n

/-- A frame comes to a sub-port's egress: to the region at an active tap, past an inactive one, or dropped and counted there. -/
def State.egress (s : State) (sub : Nat) (e : Encap) (b : List Byte) : State :=
  if s.tapActive (sub / 4) then
    { s with cla := { s.cla with atTap := s.cla.atTap ++ [(sub, e, b)] } }.emit (.regionFrame sub b)
  else if s.tapDrops (sub / 4) then s.count claTapDropCount 1
  else s.emit (.frame sub e (sealFrame b))

/-- A frame leaves by a sub-port. -/
def State.sendFrame (s : State) (sub : Nat) (hop : Bool) (h : KftHead) (ecn : Nat) (payload : List Byte) : State :=
  s.egress sub (s.encap sub hop h.dev h.cls h.conn ecn) (h.bytes (s.rd fabDevIdId) payload.length ++ payload)

/-- The IP ECN field of a DATA frame, ECN-capable or marked (R178, R184). -/
def dataEcn (ce : Bool) : Nat := if ce then 3 else 2

/-- A hop-by-hop message leaves a sub-port at TC0: HOP = 1, DST zero, unconnected (R187). -/
def State.sendHop (s : State) (sub part : Nat) (tag : Word64) (payload : List Byte) : State :=
  s.sendFrame sub true { type := 4, flags := 32, part := part, cls := 0, dev := 0, dstPart := 0, conn := 0xFFFFFFFF, psn := 0,
                         ackPsn := 0, tag := tag } 0 payload

end Sys2Proof.Machine
end

