-- ==== Sys2Proof/Machine/Conn.lean ====
section
/-!
DEFINITION. Fabric ports, connections and the sending side of the Klorin Fabric Transport (R173–R184, 08_links_host_fabric_management.md).
-/
namespace Sys2Proof.Machine

open Reg

/-! ### DATA frames -/

/-- Data bytes of one frame: the largest payload of R179, and of a TC0 frame (R175), less the operation header. -/
def dataMax (cls : Nat) : Nat := if cls = 0 then 240 else 4080

/-- ARG0 of a KFT trace record (Table TRC-2). -/
def kftArg0 (op : KftOp) (retx : Bool) (status : Nat) : Nat :=
  op.len + 65536 * op.code + 2 ^ 24 * retx.toNat + 2 ^ 25 * status

/-- The message ID of R421. -/
def msgId (dev conn psn : Nat) : Nat := dev * 2 ^ 31 + conn % 2 ^ 15 * 65536 + psn % 65536

/-- PSN `a` comes before `b`, modulo 2³². -/
def psnBefore (a b : Nat) : Bool :=
  let d := (b + 2 ^ 32 - a % 2 ^ 32) % 2 ^ 32
  decide (1 ≤ d) && decide (d < 2 ^ 31)

/-! ### Ports (R173, R174, R176) -/

/-- Sub-ports of a mode (Table LNK-3). -/
def subPorts (mode : Nat) : Nat := if mode = 0 then 1 else if mode = 1 then 2 else if mode = 2 then 4 else 0

/-- The lanes of sub-port `i` of a port in a mode. -/
def lanesOf (mode i : Nat) : List Nat :=
  if mode = 0 then List.range 8
  else if mode = 1 then (List.range 4).map (fun k => 4 * i + k)
  else [2 * i, 2 * i + 1]

/-- A lane out of service in the data path holds its sub-port down. -/
def State.lanesOk (s : State) (n i : Nat) : Bool :=
  (lanesOf (s.rd (fabPortCfgMode n)) i).all (fun k => (s.qtn.path.entry (1856 + n * 8 + k)).state == 0)

/-- The power domain of a port. -/
def portDom (n : Nat) : Nat := 7 + n / 8

/-- Whether sub-port `i` of port `n` may train. -/
def State.mayTrain (s : State) (n i : Nat) : Bool :=
  s.domOn (portDom n) && s.on fabDevIdValid && s.on (fabPortCfgEn n) &&
  decide (i < subPorts (s.rd (fabPortCfgMode n))) && s.lanesOk n i

def State.portUp (s : State) (n : Nat) : Bool := s.rd (fabPortStatusUp n) != 0

/-- The sub-port a frame leaves on, port × 4 + sub-port: the lowest of its port that is up. -/
def State.subOf (s : State) (n : Nat) : Nat :=
  4 * n + (((List.range 4).find? (fun i => s.bit (fabPortStatusUp n) i)).getD 0)

/-- R312: no frame is sent or accepted before W10 has ended. -/
def State.carries (s : State) : Bool := s.on pwrWakeStatusDone || decide (10 < s.rd pwrWakeStatusStep)

/-- LANE_Q of every port shows the lanes quarantined in the data path. -/
def State.updateLanes (s : State) : State :=
  (List.range 16).foldl (fun t n => t.wr (fabPortStatusLaneQ n)
    (((List.range 8).filter (fun k => (t.qtn.path.entry (1856 + n * 8 + k)).state == 2)).foldl (fun m k => m + 2 ^ k) 0)) s

/-- R177: the ports a connection of partition `p` to device `dev` may use. -/
def State.eligible (s : State) (p dev : Nat) : List Nat :=
  (List.range 16).filter (fun n => (s.link.routes.get (fun _ => 0) dev).testBit n && s.partOfPort n == p && s.portUp n)

/-- The port that the hash of the connection key picks. -/
def State.choosePort (s : State) (p dev q cls : Nat) : Option Nat :=
  let l := s.eligible p dev
  if l.length = 0 then none else some (l.getD (Config.portHash (p + 4 * (dev + 2 ^ 17 * (q + 4 * cls))) l.length % l.length) 0)

/-! ### Connection contexts (R181) -/

def ConnSt.is (c : ConnSt) (p dev q cls : Nat) : Bool :=
  c.srcPart == p && c.dev == dev && c.dstPart == q && c.cls == cls

def State.findConn (s : State) (p dev q cls : Nat) : Option (Nat × ConnSt) :=
  s.link.conns.findSome? (fun e => match e.2 with
    | some c => if c.is p dev q cls then some (e.1, c) else none
    | none => none)

def State.connsOpen (s : State) : Nat := s.link.conns.length

/-- A context is free for the class: 32,768 of them, 1,024 reserved for TC0. -/
def State.connRoom (s : State) (cls : Nat) : Bool :=
  decide (s.connsOpen < 32768) &&
  (cls == 0 || decide ((s.link.conns.filter (fun e => match e.2 with
    | some c => c.cls != 0
    | none => false)).length < 31744))

/-- The lowest number that no context has. -/
def lowestFree : Nat → List (Nat × Option ConnSt) → Nat
  | n, [] => n
  | n, (k, _) :: m => if k = n then lowestFree (n + 1) m else n

def State.putConn (s : State) (n : Nat) (c : Option ConnSt) : State :=
  let s1 := s.setConn n c
  s1.wr fabConnUsedCount s1.connsOpen

def newConn (p dev q cls : Nat) (peer port : Option Nat) (tick : Nat) : ConnSt :=
  { srcPart := p, dev := dev, dstPart := q, cls := cls, peer := peer, port := port, psnOut := 0, psnIn := 0, ahead := [],
    window := 64, acked := 0, halvedAt := none, unacked := [], ece := false, lastUse := tick }

/-! ### Sending (R182, R184) -/

/-- Frames that may be unacknowledged at once. -/
def ConnSt.win (c : ConnSt) : Nat := if c.cls = 0 then 16 else c.window

/-- A connected frame's header but for its TYPE, FLAGS and PSN. -/
def ConnSt.head (c : ConnSt) (tag : Word64) : KftHead :=
  { type := 1, flags := 0, part := c.srcPart, cls := c.cls, dev := c.dev, dstPart := c.dstPart, conn := c.peer.getD 0xFFFFFFFF,
    psn := 0, ackPsn := c.psnIn, tag := tag }

/-- A DATA frame leaves a port on its connection, marked CE or not. -/
def State.transmit (s : State) (c : ConnSt) (port peer : Nat) (f : OutFrame) (ce : Bool) : State :=
  let retx := f.retries != 0
  let s2 := s.trace 0x05 (traceUnit 4 (s.subOf port)) (kftArg0 f.op retx 0) (some f.tag)
    (msgId (s.rd fabDevIdId) peer f.psn) [c.srcPart]
  let s3 := match f.owner with
    | some (q, _) => s2.countEs (q / 16) 0x0C (some f.tag) 1
    | none => s2
  let s4 := if f.retries = 0 then s3 else s3.countEs (((f.owner.map Prod.fst).getD (16 * c.srcPart)) / 16) 0x0D (some f.tag) 1
  s4.sendFrame (s4.subOf port) false
    { c.head f.tag with flags := ce.toNat + 4 * f.poison.toNat + 8 * retx.toNat + 16 * f.op.red.toNat, psn := f.psn }
    (dataEcn ce) f.op.payload

/-- An ACK or a NACK on a connection, with its ACK_PSN and payload. -/
def State.sendReply (s : State) (n : Nat) (c : ConnSt) (type ackPsn : Nat) (payload : List Byte) : State :=
  match c.port with
  | some port => s.sendFrame (s.subOf port) false
      { c.head (BitVec.ofNat 64 (Config.unsetField 1 n)) with
        type := type, flags := 2 * c.ece.toNat, psn := Config.unsetField 0 n, ackPsn := ackPsn } 0 payload
  | none => s

/-- The ACK of every frame below `ackPsn`; `status` names the outcome of one of them (R182). -/
def State.sendAck (s : State) (n : Nat) (c : ConnSt) (ackPsn : Nat) (status : Option (Nat × Nat)) : State :=
  s.sendReply n c 2 ackPsn (match status with
    | some (code, psn) => leBytes 4 code ++ leBytes 4 psn
    | none => [])

/-- A CONN frame on a sub-port: its OP, reason and the device's own connection number (R181). -/
def State.sendConn (s : State) (sub p dev q cls op reason number : Nat) : State :=
  s.sendFrame sub false { type := 5, flags := 0, part := p, cls := cls, dev := dev, dstPart := q, conn := 0xFFFFFFFF, psn := 0,
                          ackPsn := 0, tag := BitVec.ofNat 64 (Config.unsetField 1 number) } 0
    (leBytes 1 op ++ leBytes 1 reason ++ leBytes 2 0 ++ leBytes 4 number)

/-- A CTRL frame to a partition of another device, by the route of its class, where one leads there. -/
def State.sendCtrl (s : State) (p dev q : Nat) (tag : Word64) (payload : List Byte) : Option State :=
  (s.choosePort p dev q (tagTc tag)).map (fun port =>
    s.sendFrame (s.subOf port) false { type := 4, flags := 0, part := p, cls := tagTc tag, dev := dev, dstPart := q,
                                       conn := 0xFFFFFFFF, psn := 0, ackPsn := 0, tag := tag } 0 payload)

/-- The deadline mark of a frame's list, in phase units. -/
def State.frameDeadline (s : State) (f : OutFrame) : Nat :=
  ((f.owner.bind (fun o => s.findList o.1 o.2)).map (fun l => l.hdr.deadline.units)).getD 0

/-- A frame joins the egress queue of its port (R175); the connection is its input there. -/
def State.joinEgress (s : State) (cls port n peer : Nat) (f : OutFrame) : State :=
  let a := s.arb (portKey port)
  let x : ArbItem := { input := n, tag := BitVec.ofNat 64 (setBits f.tag.toNat 4 2 cls), flits := (f.op.len + 63) / 64,
                       deadline := s.frameDeadline f, age := 0, frame := some (n, peer, f) }
  s.setArb (portKey port) { a with waiting := a.waiting ++ [x] }

/-- NoC cycles that a frame of `len` payload bytes takes on the wire at the rate of a port's sub-ports (Table LNK-4). -/
def State.wireCycles (s : State) (port len : Nat) : Nat := ((len + 142) * 10 * 2 ^ s.rd (fabPortCfgMode port) + 624) / 625

/-- The frames that wait at a port leave in the order of Table TAG-3 (R175); one is marked CE while more than FAB_ECN.THRESH KiB wait
(R184). -/
def State.drainPort (s : State) (port : Nat) : State :=
  let a := s.arb (portKey port)
  if a.waiting = [] then s
  else
    let cost := fun (x : ArbItem) => s.wireCycles port ((x.frame.map (fun f => f.2.2.op.len)).getD 0)
    let fuel := 4 * a.waiting.length
    let stop := a.cycle + (fuel + 1) * 1600 + (a.waiting.map cost).foldl (· + ·) a.free
    let x := ArbSt.run portRules cost stop fuel a
    x.2.foldl (fun t g => match g.1.frame with
      | some (n, peer, f) => (match t.conn n with
        | some c => t.transmit c port peer f (decide (16 * t.rd fabEcnThresh < g.2))
        | none => t)
      | none => t) (s.setArb (portKey port) x.1)

/-- Every port sends what waits there. -/
def State.drainEgress (s : State) : State := (List.range 16).foldl (fun t n => t.drainPort n) s

/-- The frames of the window that have not been sent go to the egress queue of their port. -/
def State.pump (s : State) (n : Nat) : State :=
  match s.conn n with
  | some c =>
    match c.peer, c.port with
    | some peer, some port =>
      let due := (c.unacked.take c.win).filter (fun f => f.sentAt.isNone)
      let s1 := due.foldl (fun t f => t.joinEgress c.cls port n peer f) s
      let mark := fun (f : OutFrame) => if f.sentAt.isNone then { f with sentAt := some s.tick } else f
      s1.setConn n (some { c with unacked := (c.unacked.take c.win).map mark ++ c.unacked.drop c.win, lastUse := s.tick })
    | _, _ => s
  | none => s

/-- A frame joins its connection and takes the next PSN. -/
def State.queueFrame (s : State) (n : Nat) (c : ConnSt) (f : OutFrame) : State :=
  (s.setConn n (some { c with unacked := c.unacked ++ [{ f with psn := c.psnOut }], psnOut := (c.psnOut + 1) % 2 ^ 32,
                              lastUse := s.tick })).pump n

/-! ### Failing (R183) -/

/-- The current instruction of a list meets a data error. -/
def State.addFault (s : State) (q d detail : Nat) : State :=
  match s.findList q d with
  | some l => s.setList { l with faults := detail :: l.faults }
  | none => s

/-- A remote read has failed: its bytes read as poisoned with DETAIL 0x0306. -/
def State.failRead (s : State) (r : RemRead) : State :=
  let ext := (List.range r.len).foldl (fun e i => extPut e (r.addr + i) none) s.mem.ext
  { s with mem := { s.mem with ext := ext }, link := { s.link with reads := s.link.reads.erase r } }

/-- A frame will never be delivered: the instruction that waits for its write, signal, enqueue or contribution fails. -/
def State.failFrame (s : State) (f : OutFrame) : State :=
  match f.op, f.owner with
  | .readReq _ _, _ => s
  | _, some (q, d) => s.addFault q d 0x0306
  | _, none => s

/-- A connection has failed, or could not be opened: counted and reported. -/
def State.countFail (s : State) : State := ((s.count fabConnFailCount 1).event fabEventConnFail).report 2

/-- R183: the connection closes; its reads and its frames fail. -/
def State.failConn (s : State) (n : Nat) : State :=
  match s.conn n with
  | some c =>
    let s1 := (s.putConn n none).countFail
    let s2 := (s1.link.reads.filter (fun r => r.conn == n)).foldl (fun t r => t.failRead r) s1
    c.unacked.foldl (fun t f => t.failFrame f) s2
  | none => s

/-! ### Opening (R177, R181) -/

/-- The connection opens: a context, a port, and a REQ to the peer. The frame waits for the peer's answer. -/
def State.openConn (s : State) (p dev q cls port : Nat) (f : OutFrame) : State :=
  let n := lowestFree 0 s.link.conns
  let c := newConn p dev q cls none (some port) s.tick
  ((s.putConn n (some c)).queueFrame n c f).sendConn (s.subOf port) p dev q cls 1 0 n

/-- The reads a READ_REQ stands for, while they are bound to no connection. -/
def State.readsOf (s : State) (f : OutFrame) : List RemRead :=
  match f.op with
  | .readReq off len => s.link.reads.filter (fun r => r.conn == 2 ^ 32 && r.off == off && r.len == len &&
      f.owner == some (r.queue, r.desc))
  | _ => []

/-- They are outstanding on connection `n`. -/
def State.bindReads (s : State) (f : OutFrame) (n : Nat) : State :=
  let rs := s.readsOf f
  { s with link := { s.link with reads := s.link.reads.map (fun x => if rs.contains x then { x with conn := n } else x) } }

/-- A frame goes to a partition of another device: on its connection, on one that opens for it, or after a context
frees. -/
def State.sendOp (s : State) (p dev q cls : Nat) (f : OutFrame) : State :=
  match s.findConn p dev q cls with
  | some (n, c) => (s.bindReads f n).queueFrame n c f
  | none =>
    match s.choosePort p dev q cls with
    | none => (s.readsOf f).foldl (fun t r => t.failRead r) (s.countFail.failFrame f)
    | some port =>
      if s.connRoom cls then (s.bindReads f (lowestFree 0 s.link.conns)).openConn p dev q cls port f
      else
        let w : WaitSend := { srcPart := p, dev := dev, dstPart := q, cls := cls, frame := f }
        { s with link := { s.link with waiting := s.link.waiting ++ [w] } }.count fabConnWaitCount 1

/-- Requests that waited for a context try again, oldest first. -/
def State.serveWaiting (s : State) : State :=
  let ws := s.link.waiting
  ws.foldl (fun t w =>
    if t.connRoom w.cls || (t.findConn w.srcPart w.dev w.dstPart w.cls).isSome then
      { t with link := { t.link with waiting := t.link.waiting.erase w } }.sendOp w.srcPart w.dev w.dstPart w.cls w.frame
    else t) s

/-! ### Completion of instructions that wait for the fabric (R112) -/

/-- Frames or reads of the list are outstanding. -/
def State.outstanding (s : State) (l : RunList) : Bool :=
  let mine := fun (f : OutFrame) => f.owner == some (l.queue, l.desc)
  s.link.conns.any (fun e => match e.2 with | some c => c.unacked.any mine | none => false) ||
  s.link.waiting.any (fun w => mine w.frame) || s.link.reads.any (fun r => r.queue == l.queue && r.desc == l.desc)

/-- The list's current instruction has nothing left to do. -/
def State.instrDone (s : State) (l : RunList) : Bool :=
  l.running && l.ending.isNone &&
  (match l.work with
    | .remote => true
    | .tiles => l.done.length == l.total
    | .coll c => c.sent && l.done.length == l.total
    | .tap _ moved => moved == l.total
    | _ => false) && !s.outstanding l

/-- COLL segments of the current instruction's tiles, and of their agreement, have served. -/
def State.dropColl (s : State) (l : RunList) : State :=
  match l.work, l.word with
  | .coll _, some w =>
    let key := fun (k : Nat) => k / 2 ^ 36 == l.hdr.job && k / 2 ^ 20 % 65536 == (l.step.getD 0) % 65536 &&
      decide (bitsOf w.toNat 64 20 ≤ k % 2 ^ 20) && decide (k % 2 ^ 20 < bitsOf w.toNat 64 20 + l.total)
    { s with link := { s.link with
      segs := s.link.segs.filter (fun x => !(x.1 == s.partOf l && key x.2.1))
      agrees := s.link.agrees.filter (fun x => !(x.part == s.partOf l && key x.key)) } }
  | _, _ => s

/-- Every instruction that is done completes. -/
def State.advance (s : State) : State :=
  ((s.lists.filter s.instrDone).foldl (fun t l => (t.dropColl l).completeInstr l false) s).settle

/-! ### Ports that go down (R177) -/

/-- A connection leaves a port that is down: to another eligible port, with its unacknowledged frames sent again, or it
fails. -/
def State.moveConn (s : State) (n : Nat) : State :=
  match s.conn n with
  | some c =>
    match s.choosePort c.srcPart c.dev c.dstPart c.cls with
    | none => s.failConn n
    | some port =>
      let again := fun (f : OutFrame) => if f.sentAt.isSome then { f with sentAt := none, retries := f.retries + 1 } else f
      (s.setConn n (some { c with port := some port, unacked := c.unacked.map again })).pump n
  | none => s

/-- A sub-port goes down; with the last of its port, the port's connections leave it. -/
def State.subDown (s : State) (sub : Nat) : State :=
  let n := sub / 4
  if !s.bit (fabPortStatusUp n) (sub % 4) then s
  else
    let s1 := (s.wrBit (fabPortStatusUp n) (sub % 4) false).event (fabPortEventLinkDown n)
    if s1.portUp n then s1
    else
      ((s1.link.conns.filter (fun e => match e.2 with | some c => c.port == some n | none => false)).foldl
        (fun t e => t.moveConn e.1) s1).serveWaiting

/-- Sub-ports that may no longer be up go down. -/
def State.dropPorts (s : State) : State :=
  (List.range 64).foldl (fun t x => if t.mayTrain (x / 4) (x % 4) then t else t.subDown x) s

end Sys2Proof.Machine
end

