-- ==== Sys2Proof/Machine/Jobs.lean ====
section
/-!
DEFINITION. Job faults (R247–R250), the slots of a job entry (R252–R257), and the commands JOB_* (11_job_faults_checkpoint_restart.md).
-/
namespace Sys2Proof.Machine

open Reg

/-! ### Entries and slots -/

/-- The valid entries of a job on the device; 0xFFFF names every job. -/
def State.entriesOf (s : State) (job : Nat) : List (Nat × Nat) :=
  s.parts.flatMap (fun p => ((List.range 16).filter (fun e =>
    s.on (jobIdValid p e) && (job == 0xFFFF || s.rd (jobIdJob p e) == job))).map (fun e => (p, e)))

/-- The job's highest step on the device since its last restart; 0 before its first STEP (R120). -/
def State.jobStep (s : State) (job : Nat) : Nat := ((s.steps.get (fun _ => none) job).map (·.step)).getD 0

/-! ### Discarding a job's work (R249) -/

/-- A list of the job ends: aborted if it runs, refused if it only waited for a slot. -/
def discardList (job : Nat) (p : Nat) (part : RunList → Nat) (l : RunList) : RunList :=
  if l.hdr.job = job ∧ part l = p ∧ l.ending = none then
    { l with ending := some (if l.running then ⟨0x30, 0x0401⟩ else ⟨0x12, 0x0402⟩), held := [] }
  else l

/-- The queues of a partition that are bound to a job. -/
def State.queuesOfJob (s : State) (p job : Nat) : List Nat :=
  (s.queuesOf p).filter (fun q => s.rd (queBindJob q) == job)

/-- A connection without the job's unacknowledged DATA frames. -/
def ConnSt.dropJob (c : ConnSt) (p job : Nat) : ConnSt :=
  if c.srcPart = p then { c with unacked := c.unacked.filter (fun f => tagJob f.tag != job) } else c

/-- R249: by the JOB field and the partition of the entry, lists end, pending descriptors are refused, shadows and frames
are dropped. Votes in progress run on. -/
def State.discardJob (s : State) (p job : Nat) : State :=
  let s1 := { s with lists := s.lists.map (discardList job p s.partOf)
                     link := { s.link with
                       conns := SMap.mapVals s.link.conns (Option.map (fun c => c.dropJob p job))
                       waiting := s.link.waiting.filter (fun w => !(w.srcPart == p && tagJob w.frame.tag == job))
                       agrees := s.link.agrees.filter (fun a => !(a.part == p && a.key / 2 ^ 36 == job && a.key % 2 ^ 20 != 0xFFFFF))
                       segs := s.link.segs.filter (fun a => !(a.1 == p && a.2.1 / 2 ^ 36 == job)) } }
  (s.queuesOfJob p job).foldl (fun t q =>
    let t1 := if t.untested q = 0 then t
      else t.setQueue q { t.queue q with discardTo := some (t.rd (queTailTail q)) }
    t1.refuseDiscarded q (t1.untested q)) s1.settle

/-! ### Acting on a fault (R248) -/

/-- The trace record of an entry that becomes FAULTED: its TAG carries the JOB field only (Table TRC-2). -/
def State.traceJobFault (s : State) (p job : Nat) (m : JobFaultMsg) : State :=
  (List.range 8).foldl (fun t c =>
    if t.traceTakes p c 0x09 (some (tagOf job 0 0 0 0 0 p)) [p] then
      t.tracePush p c 0x09 0 (m.cause + 256 * m.origin) (job * 2 ^ 48) (m.seq + 2 ^ 32 * m.unit)
    else t) s

/-! ### Memory after a fault (R251, R252) -/

/-- The size of a slot area, and where it begins in space 0x0. -/
def State.slotSize (s : State) (p e : Nat) : Nat := s.rd (jobCkSizeMib p e) * 2 ^ 20

def State.slotBase (s : State) (p e : Nat) (b : Bool) : Nat :=
  s.rd (jobCkBaseLoBase p e) * 4096 + 2 ^ 32 * s.rd (jobCkBaseHiBase p e) + (if b then s.slotSize p e else 0)

/-- The address lies in a slot that is DONE or SEALED. -/
def State.inKeptSlot (s : State) (p e a : Nat) : Bool :=
  [false, true].any (fun b => (s.slotState p e b == 2 || s.slotState p e b == 3) && decide (s.slotBase p e b ≤ a) &&
    decide (a < s.slotBase p e b + s.slotSize p e))

/-- The bytes that the job has stored, but for those of kept slots, hold values that nothing states, as do the sync objects it has
raised since its last seal. R108 keeps sync values from falling, and a fault from changing them: so that what nothing states is how far
the signals in flight at the fault raised each of them (DEDUCED, log entry 134). -/
def State.loseJob (s : State) (p e : Nat) : State :=
  let job := s.rd (jobIdJob p e)
  let mine := fun (r : JobRange) => r.job == job && r.part == p
  let g := s.free
  let s1 := (s.wrote.filter mine).foldl (fun t r => (List.range r.len).foldl (fun u i =>
    if s.inKeptSlot p e (r.addr + i) then u
    else match (u.place p false (r.addr + i)).key? with
      | some k => { u with mem := u.mem.setByte k (Config.lostByte g k) }
      | none => u) t) s
  let lost := s.raised.filter (fun r => r.2 == job && r.1 / 4096 == p)
  let s2 := lost.foldl (fun t r => t.signalMax (r.1 / 4096) (r.1 % 4096) (Config.lostSync g r.1).toNat) s1
  { s2 with wrote := s2.wrote.filter (fun r => !mine r), raised := s2.raised.filter (fun r => !lost.contains r),
            free := g + 1 }

/-- R248 for one entry; `clean` is the vote's LAST_CLEAN_STEP, for CAUSE 0x01 on the origin. -/
def State.faultEntry (s : State) (m : JobFaultMsg) (clean : Option Nat) (p e : Nat) : State :=
  let job := s.rd (jobIdJob p e)
  let fresh := s.rd (jobStateState p e) != 1
  let s1 := s.count (jobStateFaultCount p e) 1
  let s2 := match clean with
    | some v =>
      (s1.wr64 (jobCleanLimitLoStep p e) (jobCleanLimitHiStep p e)
        (Nat.min v (s1.rd64 (jobCleanLimitLoStep p e) (jobCleanLimitHiStep p e)))).wr (jobStateCleanSet p e) 1
    | none => s1
  if !fresh then s2
  else
    let s3 := (s2.wr (jobStateState p e) 1).setJob p e { s2.job p e with armed := none }
    let s4 := (((((s3.wr (jobFaultInfoCause p e) m.cause).wr (jobFaultInfoOrigin p e) m.origin).wr
      (jobFaultSeqSeq p e) m.seq).wr64 (jobFaultBeatLoNum p e) (jobFaultBeatHiNum p e) m.beat).wr
      (jobFaultPhasePhase p e) m.phase).wr (jobFaultUnitUnit p e) m.unit
    let s5 := [false, true].foldl (fun t b => if t.slotState p e b = 1 then t.setSlot p e b 4 else t) s4
    ((s5.traceJobFault p job m).discardJob p job).loseJob p e

def State.actFault (s : State) (m : JobFaultMsg) (clean : Option Nat) : State :=
  (s.entriesOf m.job).foldl (fun t pe => t.faultEntry m clean pe.1 pe.2) s

/-! ### Flooding (R187, R188) -/

/-- The sub-ports that are up, port × 4 + sub-port. -/
def State.upSubs (s : State) : List Nat :=
  (List.range 64).filter (fun x => s.bit (fabPortStatusUp (x / 4)) (x % 4))

/-- A sub-port without a valid peer sends no hop-by-hop message (R187), nor does any before W10 has
ended (R312). -/
def State.hopSends (s : State) (x : Nat) : Bool := s.carries && s.on (fabPortPeerValid (x / 4) (x % 4))

/-- The payload of Table LNK-7. -/
def faultBytes (m : JobFaultMsg) : List Byte :=
  leBytes 1 1 ++ leBytes 1 m.cause ++ leBytes 2 m.job ++ leBytes 4 m.origin ++ leBytes 4 m.seq ++ leBytes 1 m.hops ++
  leBytes 3 0 ++ leBytes 8 m.beat ++ leBytes 2 m.phase ++ leBytes 2 m.step16 ++ leBytes 4 m.unit

/-- The tag of a JOB_FAULT: no tile, FMT 0xB, TC0, the partition of its origin (the chapter's worked case). -/
def faultTag (m : JobFaultMsg) : Word64 := tagOf m.job m.step16 0xFFFFF 0xB 0 0 (m.origin / 2 ^ 17 % 4)

/-- A JOB_FAULT on every sub-port that is up but `except`. -/
def State.floodFault (s : State) (m : JobFaultMsg) (except : Option Nat) : State :=
  (s.upSubs.filter (fun x => some x ≠ except && s.hopSends x)).foldl (fun t x =>
    t.sendHop x (m.origin / 2 ^ 17 % 4) (faultTag m) (faultBytes m)) s

/-- The pair joins the 256 seen most recently. -/
def State.markSeen (s : State) (origin seq : Nat) : State :=
  { s with link := { s.link with seen := ((origin, seq) :: s.link.seen).take 256 } }

/-- The lowest partition with an entry of the job. -/
def State.originPart (s : State) (job : Nat) : Nat := ((s.entriesOf job).map Prod.fst).headD 0

/-- JOB_FAULT_DECLARE (R247): the device faults the job locally, sends JOB_FAULT at once, again one beat tick later, and to
the collector. -/
def State.declareFault (s : State) (cause job part unit : Nat) (clean : Option Nat) : State :=
  let (seq, s1) := s.nextFaultSeq
  let m : JobFaultMsg :=
    { cause := cause, job := job, origin := s.rd fabDevIdId + 2 ^ 17 * part, seq := seq,
      hops := Nat.max 1 (s.rd fabJfCfgHops), beat := s.beat.num, phase := s.beat.phase,
      step16 := s.jobStep job % 65536, unit := unit }
  let s2 := (s1.markSeen m.origin seq).actFault m clean
  let s3 := (s2.floodFault m none).sendHeld 0x12 (faultBytes m)
  { s3 with link := { s3.link with resend := s3.link.resend ++ [⟨m, s3.tick + 1⟩] } }

/-- The jobs with an entry in a partition. -/
def State.jobsIn (s : State) (p : Nat) : List Nat :=
  ((List.range 16).filter (fun e => s.on (jobIdValid p e))).map (fun e => s.rd (jobIdJob p e))

/-- The jobs with an entry on the device. -/
def State.jobs' (s : State) : List Nat := (s.parts.flatMap s.jobsIn).dedup

/-- R42, R94: a job is beat-locked while an enabled TC1 queue is bound to it. -/
def State.beatLocked (s : State) (job : Nat) : Bool :=
  (List.range 64).any (fun q => s.on (queCtlEn q) && s.classOf q == 1 && s.rd (queBindJob q) == job)

/-- A device-wide cause faults each of these jobs. -/
def State.declareAll (s : State) (cause : Nat) (jobs : List Nat) : State :=
  jobs.foldl (fun t j => t.declareFault cause j (t.originPart j) 0 none) s

/-! ### Commands -/

/-- A frame that goes no further: one whose ICRC fails counts (R179); one that holds is dropped and counted at a tap that drops (R363). -/
def State.refuseRx (s : State) (sub : Nat) (icrcOk : Bool) : State :=
  if !s.carries || !s.upSubs.contains sub then s
  else if !icrcOk then s.count fabRxCrcCount 1
  else if s.tapDrops (sub / 4) then s.count claTapDropCount 1
  else s

/-- A frame that comes in by a sub-port which is up, whose ICRC holds, and which no tap drops. -/
def State.comesIn (s : State) (sub : Nat) (icrcOk : Bool) : Bool :=
  s.carries && s.upSubs.contains sub && icrcOk && !s.tapDrops (sub / 4)

/-- A hop-by-hop message (R187). -/
def State.hopRx (s : State) (sub : Nat) (icrcOk : Bool) (f : State → State) : State :=
  if s.comesIn sub icrcOk then f s else s.refuseRx sub icrcOk

/-- JOB_FAULT_RESEND (R188): the second copy of each fault declared a beat tick ago. -/
def execJobFaultResend (s : State) : Host.Outcome State Fault Refusal :=
  let due := s.link.resend.filter (fun r => decide (r.at' ≤ s.tick))
  let s1 := { s with link := { s.link with resend := s.link.resend.filter (fun r => !decide (r.at' ≤ s.tick)) } }
  .next (due.foldl (fun t r => t.floodFault r.msg none) s1)

/-- Nothing of the job remains in the partition: no list, no vote, no frame (R250). -/
def State.jobGone (s : State) (p job : Nat) : Bool :=
  !s.lists.any (fun l => l.hdr.job == job && s.partOf l == p) &&
  !s.votes.any (fun v => v.job == job && v.part == p) &&
  !s.link.conns.any (fun e => match e.2 with
    | some c => c.srcPart == p && c.unacked.any (fun f => tagJob f.tag == job)
    | none => false)

/-- JOB_QUIET (R250). -/
def execJobQuiet (p : Part) (e : Entry) (s : State) : Host.Outcome State Fault Refusal :=
  .next (
    if s.on (jobIdValid p e) && s.rd (jobStateState p e) == 1 && s.jobGone p (s.rd (jobIdJob p e)) then
      s.wr (jobStateQuiet p e) 1
    else s)

/-- R258: the result of a JOB_RESTART_CTL write with GO (Table JOB-5), 0 when every test passes. -/
def State.restartTest (s : State) (p e : Nat) (b force : Bool) (count : Nat) : Nat :=
  let st := s.rd (jobStateState p e)
  let step := s.rd64 (jobRestartStepLoStep p e) (jobRestartStepHiStep p e)
  let t := s.rd64 (jobRestartBeatLoNum p e) (jobRestartBeatHiNum p e)
  let limit := s.rd64 (jobCleanLimitLoStep p e) (jobCleanLimitHiStep p e)
  let usable := s.rd beatStatusState == 1 || s.rd beatStatusState == 2
  if !(s.on (jobIdValid p e) && (st == 1 || st == 2)) then 1
  else if !s.on (jobStateQuiet p e) then 2
  else if count ≠ s.rd (jobStateFaultCount p e) then 3
  else if s.slotState p e b ≠ 3 then 4
  else if step ≠ s.slotStep p e b then 5
  else if s.on (jobStateCleanSet p e) && decide ((limit + 1) % 2 ^ 64 < s.slotStep p e b) && !force then 6
  else if !usable || decide (t * 65536 < s.now.units + 2 * 65536) then 7
  else 0

/-- JOB_RESTART_ARM (R258): FORCE counts through the management protocol and unlocked debug only. Each field of the register
takes the value written; GO runs the tests. -/
def execJobRestartArm (path : Path) (p : Part) (e : Entry) (v : Word32) (s : State) : Host.Outcome State Fault Refusal :=
  let force := v.getLsbD 16 && s.mgmtOrDebug path
  let b := v.getLsbD 0
  let count := bitsOf v.toNat 8 8
  .next (
    if !s.ownsPart path p then s
    else
      let s1 := ((s.wr (jobRestartCtlForce p e) force.toNat).wr (jobRestartCtlCount p e) count).wr
        (jobRestartCtlSlotB p e) b.toNat
      if !v.getLsbD 31 then s1
      else
        let r := s1.restartTest p e b force count
        let s2 := s1.wr (jobRestartResultResult p e) r
        if r ≠ 0 then s2
        else
          (s2.wr (jobStateState p e) 2).setJob p e { s2.job p e with
            armed := some (b, s2.slotStep p e b, s2.rd64 (jobRestartBeatLoNum p e) (jobRestartBeatHiNum p e)) })

/-- No watch vouches any more for the steps that a job set before its restart (R213). -/
def State.dropWheelSteps (s : State) (job : Nat) : State :=
  s.parts.foldl (fun t p =>
    let x := t.wheel p
    t.setWheel p { x with steps := x.steps.map (fun e => (e.1, e.2.filter (fun j => j.1 != job))) }) s

/-- R259: the job restarts from the armed slot. -/
def State.restartJob (s : State) (p e : Nat) (b : Bool) : State :=
  let other := !b
  let s1 := s.newest p e b
  let s2 := if s1.slotState p e other ≠ 3 ∨ s1.slotStep p e b < s1.slotStep p e other then s1.setSlot p e other 4 else s1
  let job := s2.rd (jobIdJob p e)
  let s3 := { s2 with
    steps := s2.steps.set (fun _ => none) job none, partSteps := s2.partSteps.clear (fun k => k % 65536 == job) }
  let s4 := (((s3.dropWheelSteps job).wr (jobStateFaultCount p e) 0).wr (jobStateCleanSet p e) 0).wr64
    (jobCleanLimitLoStep p e) (jobCleanLimitHiStep p e) (2 ^ 64 - 1)
  ((((s4.count (jobRestartsCount p e) 1).wr (jobStateState p e) 0).wr (jobStateQuiet p e) 0).setJob p e
    { s4.job p e with armed := none })

/-- JOB_RESTART_MARK (R259): at T an armed entry becomes RUNNING, and the lists it held come before admission in ring
order. -/
def State.restartAtMark (s : State) (p : Part) (e : Entry) : State :=
  match (s.job p e).armed with
  | some (b, _, t) =>
    if s.on (jobIdValid p e) && s.rd (jobStateState p e) == 2 && s.reached ⟨t, 0⟩ then s.restartJob p e b else s
  | none => s

def execJobRestartMark (p : Part) (e : Entry) (s : State) : Host.Outcome State Fault Refusal := .next (s.restartAtMark p e)

end Sys2Proof.Machine
end

