-- ==== Sys2Proof/Machine/Shadows.lean ====
section
/-!
DEFINITION. Stores of a list (R112, R144, R153), tiles that retire, and the queues and hosts of shadow tiles (R202, R205, R206,
09_shadow_screening.md).
-/
namespace Sys2Proof.Machine

open Reg

/-! ### Stores of a list -/

/-- What a job has stored in a partition's memory is remembered for R251. -/
def State.noteRange (s : State) (job p a n : Nat) : State :=
  let r : JobRange := { job := job, part := p, addr := a, len := n }
  if s.wrote.contains r then s else { s with wrote := r :: s.wrote }

def State.noteWrote (s : State) (l : RunList) (a n : Nat) : State := s.noteRange l.hdr.job (s.partOf l) a n

/-- R185 for a request of this device to its own partition `q` (R153): whether it is delivered, and the STATUS code it
would have been acknowledged with. -/
def State.acceptCode (s : State) (q : Nat) (tag : Word64) : Nat :=
  let job := tagJob tag
  if tagReserved tag ≠ 0 then 5
  else if !s.present q then 1
  else if s.fenced q then 2
  else if !((s.queuesOf q).any (fun x => s.on (queCtlEn x) && s.rd (queBindJob x) == job)) ||
    s.jobState q job == some 1 || s.jobState q job == some 2 then 4
  else 0

/-- A rejected frame counts under its cause (R185). -/
def State.countReject (s : State) (code : Nat) : State :=
  match code with
  | 1 => s.count fabRxRejectAbsent 1
  | 2 => s.count fabRxRejectFenced 1
  | 4 => s.count fabRxRejectJob 1
  | 5 => s.count fabRxRejectTag 1
  | _ => s

def frameOf (op : KftOp) (tag : Word64) (poison : Bool) (owner : Option (Nat × Nat)) : OutFrame :=
  { psn := 0, op := op, tag := tag, poison := poison, sentAt := none, retries := 0, owner := owner }

/-- Remote stores of a list: WRITE frames, or the target partition of this device itself (R153). -/
def State.remoteStore (s : State) (l : RunList) (tag : Word64) (poison : Bool) (a : Nat) (bs : List Byte) : State :=
  let dev := bitsOf a 42 17
  let q := bitsOf a 40 2
  let off := bitsOf a 0 40
  let cls := s.classOf l.queue
  if !s.on fabDevIdValid then s.addFault l.queue l.desc 0x0306
  else if s.ownId dev then
    (match s.acceptCode q tag with
    | 0 => (s.store q false poison off bs).noteRange (tagJob tag) q off bs.length
    | c => (s.countReject c).count fabTxRejectedCount 1)
  else
    (List.range ((bs.length + dataMax cls - 1) / dataMax cls)).foldl (fun t i =>
      let piece := (bs.drop (i * dataMax cls)).take (dataMax cls)
      t.sendOp (s.partOf l) dev q cls (frameOf (.write (off + i * dataMax cls) piece) tag poison (some (l.queue, l.desc)))) s

/-- A store of a list to any space its instructions may name. -/
def State.jobStore (s : State) (l : RunList) (tag : Word64) (poison : Bool) (a : Nat) (bs : List Byte) : State :=
  if a / 2 ^ 60 = 4 then s.remoteStore l tag poison a bs
  else
    let s1 := (linesOf a bs.length).foldl (fun t lo => t.noteHole (s.partOf l) false (Nat.max a lo))
      (s.store (s.partOf l) false poison a bs)
    if a / 2 ^ 60 = 2 then s1.dropExt a bs.length else s1.noteWrote l a bs.length

/-! ### Tiles that retire -/

/-- A tile of the list's instruction has finished: its record (Table TRC-2) and the list's progress (R265). The matrix-clock
cycles of the record are a free value. -/
def State.retireTile (s : State) (q d t : Nat) (u : Option Nat) (lc : Nat) (selected : Bool) (tag : Word64) : State :=
  match s.findList q d with
  | some l =>
    let s1 := s.setList { l with done := t :: l.done, progress := s.tick }
    match u with
    | some c =>
      { s1 with free := s1.free + 1 }.trace 0x04 (traceUnit 1 c) (lc % 256 + 256 * selected.toNat) (some tag)
        (Config.cycles s1.free % 2 ^ 64) [s.partOf l]
    | none => s1
  | none => s

/-- The stores of a held output, and the end of its holding. -/
def State.commitHeld (s : State) (q d : Nat) (h : HeldTile) : State :=
  match s.findList q d with
  | some l =>
    let s1 := s.setList { l with held := l.held.filter (fun x => x.tile != h.tile) }
    let s2 := (h.output.getD []).foldl (fun t x => t.jobStore l h.tag x.poison x.addr x.bytes) s1
    s2.retireTile q d h.tile (some h.primary) (s.qtn.path.entry h.primary).lc true h.tag
  | none => s

def State.setHeld (s : State) (q d : Nat) (h : HeldTile) : State :=
  match s.findList q d with
  | some l => s.setList { l with held := l.held.map (fun x => if x.tile = h.tile then h else x) }
  | none => s

/-! ### Dies and hosts (R202, R206) -/

/-- The ACTIVE clusters of a die in the data path, with their logical numbers, ascending. -/
def State.activeOf (s : State) (d : Nat) : List (Nat × Nat) :=
  (List.range 160).filterMap (fun lc => (s.backing d lc).map (fun u => (lc, u)))

/-- R202: whether die `d` may take shadows and arbiters. -/
def State.eligibleDie (s : State) (d : Nat) : Bool :=
  let p := s.partOfDie d
  s.domOn d && s.present p && !s.fenced p && !s.churnFenced p &&
  !s.hang.resets.any (fun r => match r.dom with
    | .part q => q.val == p
    | .device => true
    | _ => false) &&
  (List.range 168).any (fun i => (s.qtn.path.entry (d * 168 + i)).state == 0)

/-- The dies after `d`, in order. -/
def diesAfter (d : Nat) : List Nat := [1, 2, 3].map (fun i => (d + i) % 4)

/-- The logical cluster and host of a die with the highest value of `f`, ties to the lowest number. -/
def best (f : Nat → Int) : List (Nat × Nat) → Option (Nat × Nat)
  | [] => none
  | c :: l =>
    match best f l with
    | some b => some (if f c.2 < f b.2 then b else c)
    | none => some c

/-- A shadow joins the queue of die `d`: its watched unit's first in the wheel step goes ahead of later tiles. -/
def State.queueShadow (s : State) (q d tile die : Nat) (vector first : Bool) : State :=
  match best (fun u => (s.unit vector u).balance) (s.activeOf die) with
  | some (_, host) =>
    let x : QueuedShadow := { queue := q, desc := d, tile := tile, since := s.tick, first := first, host := host, vector := vector }
    if first then
      { s with shadows := s.shadows.takeWhile (fun y => y.first) ++ [x] ++ s.shadows.dropWhile (fun y => y.first) }
    else { s with shadows := s.shadows ++ [x] }
  | none => s

/-- A queued shadow starts on `host`, whose balance falls. -/
def State.startShadow (s : State) (x : QueuedShadow) (host : Nat) : State :=
  let u := s.unit x.vector host
  let s1 := { s with shadows := s.shadows.erase x }.setUnit x.vector host { u with balance := u.balance - 1 }
  match s1.findList x.queue x.desc with
  | some l =>
    match l.held.find? (fun h => h.tile == x.tile) with
    | some h => (s1.setHeld x.queue x.desc { h with shadowHost := some host }).countCl host 0x06
        (some (tagWith h.tag 2 (tagTc h.tag))) 1
    | none => s1
  | none => s1

/-- R206: every queued shadow whose host has a balance of at least 1 starts, oldest first. -/
def State.startShadows (s : State) : State :=
  s.shadows.foldl (fun t x => if 1 ≤ (t.unit x.vector x.host).balance then t.startShadow x x.host else t) s

/-! ### Lost shadows and arbiters (R209, Corners) -/

/-- The shadow of a held tile is given to the next eligible die; with none, the tile commits uncompared. -/
def State.reissueShadow (s : State) (q d : Nat) (h : HeldTile) : State :=
  let s0 := { s with shadows := s.shadows.filter (fun x => !(x.queue == q && x.desc == d && x.tile == h.tile)) }
  match (diesAfter (h.primary / 168)).find? s0.eligibleDie with
  | some die => (s0.setHeld q d { h with shadowDie := die, shadowHost := none, sigS := none }).queueShadow q d h.tile die h.vector
    h.first
  | none =>
    let s1 := s0.count (scrPartUnscreenedCount (s0.partOfQueue q)) 1
    let h1 := { h with lone := true, shadowHost := none, sigS := none }
    if h.output.isSome then s1.commitHeld q d h1 else s1.setHeld q d h1

/-- Held tiles whose shadow runs or waits on one of these clusters, and has not answered. -/
def State.orphans (s : State) (gone : Nat → Bool) : List (Nat × Nat × HeldTile) :=
  s.lists.flatMap (fun l => (l.held.filter (fun h => h.sigS.isNone && !h.lone &&
    (match h.shadowHost with
      | some u => gone u
      | none => s.shadows.any (fun x => x.queue == l.queue && x.desc == l.desc && x.tile == h.tile && gone x.host)))).map
    (fun h => (l.queue, l.desc, h)))

/-- R209: the die and host of an arbiter: the first eligible die that is neither the primary's nor the shadow's, else the
shadow's own die on another cluster; and whether it is the shadow's. -/
def State.arbiterHost (s : State) (h : HeldTile) : Option (Nat × Bool) :=
  match (diesAfter (h.primary / 168)).find? (fun d => d != h.shadowDie && s.eligibleDie d) with
  | some d => ((s.activeOf d).head?).map (fun c => (c.2, false))
  | none =>
    if s.eligibleDie h.shadowDie then
      (((s.activeOf h.shadowDie).filter (fun c => some c.2 ≠ h.shadowHost)).head?).map (fun c => (c.2, true))
    else none

/-- The arbiter of a vote whose host is gone goes to another die, or stays without one. -/
def State.reissueArbiter (s : State) (v : VoteSt) : State :=
  let put := fun (t : State) (x : HeldTile) => { t with votes := t.votes.map (fun y => if y = v then { v with tile := x } else y) }
  match s.arbiterHost v.tile with
  | some (u, same) =>
    put (if same then s.event (scrPartStatusSameDie v.part) else s) { v.tile with arbHost := some u, sameDie := same }
  | none => put s { v.tile with arbHost := none }

/-- Clusters stop serving as hosts: what they ran for others is issued again. -/
def State.loseHosts (s : State) (gone : Nat → Bool) : State :=
  let s1 := (s.orphans gone).foldl (fun t o => t.reissueShadow o.1 o.2.1 o.2.2) s
  (s1.votes.filter (fun v => (v.tile.arbHost.map gone).getD false)).foldl (fun t v => t.reissueArbiter v) s1

end Sys2Proof.Machine
end

