-- ==== Sys2Proof/Machine/Quarantine.lean ====
section
/-!
DEFINITION. The quarantine map (10_quarantine_spares_and_fleet.md): unit states, change sets and substitution (R216–R229), reinstatement
(R230), churn runs and packs (R231–R238), and the commands QUARANTINE … PACK_COMMIT (R242).
-/
namespace Sys2Proof.Machine

open Reg

/-! ### Unit states (R216–R218, R225) -/

/-- R217: ACTIVE, SPARE, SUSPECT, QUARANTINED from least to most restrictive. -/
def rank (st : Nat) : Nat :=
  match st with
  | 0 => 0
  | 3 => 1
  | 1 => 2
  | _ => 3

/-- The lowest-numbered cluster of die `d` in SPARE whose vector unit is ACTIVE. -/
def UnitMap.spare (m : UnitMap) (d : Nat) : Option Nat :=
  ((List.range 168).map (fun i => d * 168 + i)).find? (fun u => (m.entry u).state == 3 && (m.entry (672 + u)).state == 0)

/-- R225: logical number `lc` of die `d` goes to a spare, or becomes unbacked. -/
def UnitMap.assign (m : UnitMap) (d lc epoch : Nat) : UnitMap :=
  match m.spare d with
  | some u => m.put u { m.entry u with state := 0, lc := lc, since := epoch }
  | none => m

/-- A unit takes a state that is more restrictive than its own; a cluster that was ACTIVE hands on its number. -/
def UnitMap.restrict1 (m : UnitMap) (st source epoch k : Nat) : UnitMap :=
  let e := m.entry k
  if rank st ≤ rank e.state then m
  else
    let pending := decide (1344 ≤ k) && decide (k < 1856) && st == 1
    let m1 := m.put k { state := st, source := source, pending := pending, lc := if k < 672 then 0xFF else 0, since := epoch }
    if k < 672 ∧ e.state = 0 then m1.assign (k / 168) e.lc epoch else m1

/-- R217: a finding about a vector unit concerns its cluster too. -/
def UnitMap.restrict (m : UnitMap) (st source epoch k : Nat) : UnitMap :=
  let m1 := m.restrict1 st source epoch k
  if 672 ≤ k ∧ k < 1344 then m1.restrict1 st source epoch (k - 672) else m1

def UnitMap.restrictAll (m : UnitMap) (st source epoch : Nat) (ks : List Nat) : UnitMap :=
  ks.foldl (fun a k => a.restrict st source epoch k) m

/-- The units whose entries differ. -/
def changedKeys (m m' : UnitMap) : List Nat := (List.range 1984).filter (fun k => m.entry k != m'.entry k)

/-! ### What follows from the map (R24, R226, R227) -/

/-- Logical clusters of die `d` that an ACTIVE cluster backs. -/
def UnitMap.backedCount (m : UnitMap) (d : Nat) : Nat :=
  ((List.range 160).filter (fun lc => (m.backing d lc).isSome)).length

def UnitMap.spareCount (m : UnitMap) (d : Nat) : Nat :=
  ((List.range 168).filter (fun i => (m.entry (d * 168 + i)).state == 3)).length

/-- Four bytes of one number for each die. -/
def perDie (f : Nat → Nat) : Word32 := BitVec.ofNat 32 (f 0 + 256 * f 1 + 65536 * f 2 + 16777216 * f 3)

/-- SYS_CAP_DIE, PARTS_REDUCED, PARTS_PRESENT, QTN_SPARES and FAULT_N follow the map in force and the domains (R19, R24). Before
BIST_DONE every die counts zero: the last sentence of R24 would then set PARTS_REDUCED, Table DEV-8 resets it to 0, and that it
stays 0 until BIST_DONE is the model's choice (DESIGN CHOICE, log entry 121). -/
def State.updateCapacity (s : State) : State :=
  let cap := fun (d : Nat) => if s.on sysStatusBistDone && s.domOn d then s.qtn.map.backedCount d else 0
  let reduced := s.parts.filter (fun p => s.on sysStatusBistDone && (s.diesOf p).any (fun d => decide (cap d < 160)))
  let s1 := (s.setReg sysCapDie (perDie cap)).setReg qtnSpares (perDie s.qtn.map.spareCount)
  (((s1.wr sysStatusPartsReduced (maskOf reduced)).wr sysStatusPartsPresent (maskOf s.presentParts))).updateFault

/-! ### Images (R223, R224) -/

/-- The closed image with a good CRC and the higher epoch. -/
def MramSt.imageInForce (m : MramSt) : Option MapImage :=
  let ok := fun (i : MapImage) => !i.open' && i.headerOk && i.crcOk
  if ok m.image0 && (!ok m.image1 || decide (m.image1.epoch < m.image0.epoch)) then some m.image0
  else if ok m.image1 then some m.image1 else none

/-- Whether image 1 is the one in force. -/
def MramSt.inForce1 (m : MramSt) : Bool := m.imageInForce == some m.image1 && m.imageInForce != some m.image0

/-- The image that does not hold the current epoch. -/
def MramSt.setOther (m : MramSt) (i : MapImage) : MramSt := if m.inForce1 then { m with image0 := i } else { m with image1 := i }

def MramSt.other (m : MramSt) : MapImage := if m.inForce1 then m.image0 else m.image1

/-- Firmware begins to write the image of the oldest change set. -/
def State.openImage (s : State) : State :=
  match s.qtn.sets with
  | [] => s
  | _ => if s.mramOk then { s with mram := s.mram.setOther { s.mram.other with open' := true } } else s

/-! ### Effect on the data path and on jobs (R228) -/

/-- The domain that a unit's own table or controller lies in is on. -/
def State.unitOn (s : State) (k : Nat) : Bool :=
  if k < 1344 then s.domOn ((unitDie k).getD 0)
  else if k < 1856 then s.domOn (hbmDom ((k - 1344) / 64))
  else s.domOn (portDom ((k - 1856) / 8))

/-- The data-path view after the entries `ks` follow `m'`; a pending entry keeps its effect, as does a unit whose domain
is off. -/
def State.pathAfter (s : State) (m' : UnitMap) (ks : List Nat) : UnitMap :=
  ks.foldl (fun a k => if s.unitOn k && !(m'.entry k).pending then a.put k (m'.entry k) else a) s.qtn.path

/-- The units that leave service in the data path: ACTIVE clusters and ACTIVE pseudo-channels. -/
def leavers (m m' : UnitMap) : List Nat :=
  (List.range 1984).filter (fun k => (m.entry k).state == 0 && (m'.entry k).state != 0 &&
    (decide (k < 672) || (decide (1344 ≤ k) && decide (k < 1856))))

/-- The jobs bound to enabled queues of a partition. -/
def State.boundJobs (s : State) (p : Nat) : List Nat :=
  (((s.queuesOf p).filter (fun q => s.on (queCtlEn q))).map (fun q => s.rd (queBindJob q))).dedup

/-- R228: the jobs that units leaving service affect, each with the first such unit; not those already faulted. -/
def State.affected (s : State) (ks except : List Nat) : List (Nat × Nat) :=
  (s.parts.flatMap s.boundJobs).dedup.filterMap (fun j =>
    if except.contains j then none
    else (ks.find? (fun k => (s.boundJobs (s.partOfUnit k)).contains j)).map (fun k => (j, k)))

def State.faultAffected (s : State) (ks except : List Nat) : State :=
  (s.affected ks except).foldl (fun t a => t.declareFault 0x06 a.1 (t.partOfUnit a.2) (unitWord a.2) none) s

/-- A pseudo-channel that is no longer scrubbed does not hold its stack's scrub pass back (R164). -/
def State.endPasses (s : State) (gone : List Nat) : State :=
  ((gone.filter (fun k => decide (1344 ≤ k) && decide (k < 1856))).map (fun k => (k - 1344) / 64)).dedup.foldl (fun t h => t.endPass h) s

/-- The data path takes the view `m'`: numbers that move to another cluster leave undefined scratchpad behind (R226),
hosts that go are replaced, ports whose lanes go fall, and jobs that lose a unit fault. -/
def State.setPath (s : State) (m' : UnitMap) (except : List Nat) : State :=
  let m := s.qtn.path
  let taken := (List.range 672).filter (fun u => (m'.entry u).state == 0 && (m.entry u).lc != (m'.entry u).lc)
  let gone := leavers m m'
  let moved := decide ((List.range 672).any (fun u => (m.entry u).lc != (m'.entry u).lc))
  let s1 := { s with qtn := { s.qtn with path := m' } }.undefine taken
  let s2 := if moved then
      (s1.parts.filter (fun p => (s1.diesOf p).any (fun d => m.backedCount d != m'.backedCount d))).foldl
        (fun t p => t.setWheel p { t.wheel p with restart := true }) s1
    else s1
  let s3 := (s2.updateLanes.dropPorts).loseHosts (fun u => gone.contains u)
  ((s3.faultAffected gone except).advance).endPasses gone

/-! ### Change sets (R220, R223) -/

/-- The records of a set take its epoch. -/
def WsfRec.atEpoch (r : WsfRec) (epoch : Nat) : WsfRec := ⟨overlay 248 [(0, r.bytes), (36, leBytes 4 epoch)]⟩

/-- R341: a unit that enters SUSPECT or QUARANTINED loses its churn pass, once firmware can write MRAM. -/
def State.dropPasses (s : State) (m m' : UnitMap) (ks : List Nat) : State :=
  let out := ks.filter (fun k => (m.entry k).since != (m'.entry k).since && ((m'.entry k).state == 1 || (m'.entry k).state == 2))
  { s with qtn := { s.qtn with drops := s.qtn.drops ++ out } }.flushRecords

/-- A change set that leaves the map `m'`: the epoch rises, a set that restricts reaches the data path now and one that
only relaxes when its image closes, and its records wait for the image. -/
def State.applySet (s : State) (m' : UnitMap) (relaxing : Bool) (records : List WsfRec) (events except : List Nat) : State :=
  let m := s.qtn.map
  let ks := changedKeys m m'
  if ks = [] then s.sendWsfs (records.map (fun r => r.atEpoch (s.rd qtnEpochEpoch)))
  else
    let epoch := (s.rd qtnEpochEpoch + 1) % 2 ^ 32
    let set : ChangeSet := { epoch := epoch, relaxing := relaxing, entries := m', keys := ks,
                             records := records.map (fun r => r.atEpoch epoch), events := events, at' := s.tick }
    let first := s.qtn.sets.isEmpty
    let unback := (List.range 4).any (fun d => decide (m'.backedCount d < m.backedCount d))
    let s1 := { s with qtn := { s.qtn with map := m', sets := s.qtn.sets ++ [set] } }
    let s2 := (s1.wr qtnEpochEpoch epoch).event qtnEventChange
    let s3 := if unback then s2.event qtnEventSparesOut else s2
    let s4 := (s3.dropPasses m m' ks).hostEvent ((ks.map s3.partOfUnit).dedup)
    let s5 := if first then s4.openImage else s4
    let s6 := if relaxing then s5 else s5.setPath (s5.pathAfter m' ks) except
    s6.updateCapacity

/-- The epoch that the next change set takes. -/
def State.nextEpoch (s : State) : Nat := (s.rd qtnEpochEpoch + 1) % 2 ^ 32

/-- The logical number a unit serves, 0xFFFF for none (Table QTN-6); that of a vector unit is its cluster's. -/
def UnitMap.lcOf (m : UnitMap) (k : Nat) : Nat :=
  if k < 1344 then
    let lc := (m.entry (k % 672)).lc
    if lc = 0xFF then 0xFFFF else lc
  else 0xFFFF

/-- A record about unit `k` that goes from its entry in `m` to that in `m'`. -/
def State.unitRec (s : State) (kind : Nat) (m m' : UnitMap) (k : Nat) (extra : List (Nat × List Byte)) : WsfRec :=
  ⟨s.wsfBytes kind (some k) (m.lcOf k) (m.entry k).state (m'.entry k).state 0
    ((140, leBytes 4 (perDie m'.spareCount).toNat) :: extra)⟩

/-- MAP_CHANGE records of every unit whose state a command, a self-test finding or a lane fault changes; a spare that is
substituted for a cluster sends none. -/
def State.mapChange (s : State) (m m' : UnitMap) (code : Nat) : List WsfRec :=
  ((List.range 1984).filter (fun k => (m.entry k).state != (m'.entry k).state &&
      !((m.entry k).state == 3 && (m'.entry k).state == 0))).map
    (fun k => s.unitRec 0x05 m m' k [(152, leBytes 2 code)])

/-! ### Hardware findings (R218, R221, R269, R272) -/

/-- The units that a finding reports: those it names, and the clusters whose state changes with a vector unit that it names. -/
def reported (m m' : UnitMap) (units : List Nat) : List Nat :=
  units ++ (units.filter (fun k => decide (672 ≤ k) && decide (k < 1344) && !units.contains (k - 672) &&
    (m.entry (k - 672)).state != (m'.entry (k - 672)).state)).map (· - 672)

/-- What each finding sends: a record of its kind about each unit it reports, or MAP_CHANGE records of what it changes (R241). -/
def State.findingRecs (s : State) (kind : Nat) (m m' : UnitMap) (units : List Nat) (extra : Nat → List (Nat × List Byte)) :
    List WsfRec :=
  if kind = 0x05 then s.mapChange m m' 0 else (reported m m' units).map (fun k => s.unitRec kind m m' k (extra k))

/-- A finding of the hardware makes units more restrictive, in the data path at once. The active core builds its change
set; while no core does, the finding waits in the event queue for that. `change` is what it makes of a view, `except` the jobs
that the same event has faulted. -/
def State.findingBy (s : State) (kind st : Nat) (units : List Nat) (change : UnitMap → UnitMap)
    (extra : Nat → List (Nat × List Byte)) (except : List Nat) : State :=
  let seq := s.hang.evSeq
  let full := decide (4096 ≤ s.hang.evq.length)
  let view := if s.rmgDown then s.qtn.path else s.qtn.map
  let m' := change view
  let recs := s.findingRecs kind view m' units extra
  let waits := s.rmgDown || (changedKeys s.qtn.map m' != [])
  let ev : RmgEvent := { seq := seq, units := units, state := st, records := recs, applied := true, declared := true,
                         recorded := !waits }
  let s1 := if full then s.event hngEventEvqFull
    else { s with hang := { s.hang with evq := s.hang.evq ++ [ev], evSeq := (seq + 1) % 2 ^ 32 } }
  let s2 := s1.wr hngRmgEvqPending s1.hang.evq.length
  if s.rmgDown then (s2.setPath (s2.pathAfter m' (changedKeys view m')) except).updateCapacity
  else s2.applySet m' false recs [seq] except

/-- A finding of the data path (SOURCE 01). -/
def State.finding (s : State) (kind st : Nat) (units : List Nat) (extra : Nat → List (Nat × List Byte)) (except : List Nat) :
    State :=
  s.findingBy kind st units (fun m => m.restrictAll st 1 s.nextEpoch units) extra except

/-! ### Commands over management (R242) -/

/-- The answer to a COMMAND: its code, a result and the epoch in force. -/
def State.commandAnswer (s : State) (via : CmdVia) (code r : Nat) : State :=
  let payload := leBytes 2 code ++ leBytes 1 r ++ leBytes 1 0 ++ leBytes 4 (s.rd qtnEpochEpoch)
  match via with
  | .mgmt m => s.answerMgt m 6 payload
  | .mctp => s.emit (.mctpCommand payload)

/-- What a COMMAND does once it is accepted; BUSY while no RMG core serves it. -/
def State.obey (s : State) (via : CmdVia) (code : Nat) (f : State → Nat × State) : State :=
  if s.rmgDown then s.commandAnswer via code 3
  else
    let (r, s1) := f s
    ((s1.wr qtnCmdLastCode code).wr qtnCmdLastResult r).commandAnswer via code r

/-- A COMMAND: accepted over the management protocol, under the tests of R193, and over MCTP, while CC3 runs. -/
def State.command (s : State) (via : CmdVia) (code : Nat) (args : List Byte) (f : State → Nat × State) : State :=
  match via with
  | .mgmt m => s.inbound m 5 (commandPayload code args) (fun t => t.obey via code f)
  | .mctp => if s.cc3Up then s.obey via code f else s

/-- QUARANTINE and SUSPECT. -/
def State.restrictCmd (s : State) (code st : Nat) (w : Word32) : Nat × State :=
  match unitKey w.toNat with
  | none => (4, s)
  | some k =>
    let m := s.qtn.map
    let m' := m.restrict st 2 s.nextEpoch k
    (0, s.applySet m' false (s.mapChange m m' code) [] [])

/-! ### Reinstatement (R225, R230) -/

/-- The churn results index holds a pass for the unit that satisfies test 5 of Table QTN-4. -/
def State.hasPass (s : State) (k : Nat) : Bool :=
  match s.mram.churn.get (fun _ => none) k with
  | some c => s.on qtnPackStatusValid && c.version == s.rd qtnPackVersionVersion && decide ((s.qtn.map.entry k).since ≤ c.epoch) &&
      ((s.qtn.map.entry k).state != 2 || c.level == 1)
  | none => false

/-- Table QTN-4: the result of the first test failed, 0 when all pass. -/
def State.reinstateTest (s : State) (w epoch : Word32) : Nat :=
  match unitKey w.toNat with
  | none => 4
  | some k =>
    let st := (s.qtn.map.entry k).state
    if 672 ≤ k ∧ k < 1344 then 4
    else if epoch.toNat ≠ s.rd qtnEpochEpoch then 1
    else if st ≠ 1 ∧ st ≠ 2 then 8
    else if s.qtn.churn.isSome then 3
    else if !s.hasPass k then 2
    else 0

/-- The lowest logical number of a die that nothing backs. -/
def UnitMap.lowestUnbacked (m : UnitMap) (d : Nat) : Option Nat :=
  (List.range 160).find? (fun lc => (m.backing d lc).isNone)

/-- The map after a unit is reinstated. -/
def UnitMap.reinstate (m : UnitMap) (k epoch : Nat) : UnitMap :=
  if k < 672 then
    let e : MapEntry := match m.lowestUnbacked (k / 168) with
      | some lc => { state := 0, source := 2, pending := false, lc := lc, since := epoch }
      | none => { state := 3, source := 2, pending := false, lc := 0xFF, since := epoch }
    (m.put k e).put (672 + k) { state := 0, source := 2, pending := false, lc := 0, since := epoch }
  else m.put k { state := 0, source := 2, pending := true, lc := 0, since := epoch }

/-! ### MAP_IMAGE_CLOSED (R223) -/

/-- Events whose change set has its image and its records. -/
def State.markRecorded (s : State) (seqs : List Nat) : State :=
  { s with hang := { s.hang with evq := s.hang.evq.map (fun e =>
      if seqs.contains e.seq then { e with recorded := true } else e) } }

/-- The image of the oldest change set closes: a relaxing set takes effect, and the records go out. -/
def State.closeImage (s : State) : State :=
  match s.qtn.sets with
  | [] => s
  | c :: rest =>
    let img : MapImage := { open' := false, headerOk := true, crcOk := true, epoch := c.epoch, entries := c.entries }
    let s1 := { s with mram := s.mram.setOther img, qtn := { s.qtn with sets := rest } }
    let s2 := if c.relaxing then s1.setPath (s1.pathAfter s1.qtn.map c.keys) [] else s1
    ((s2.sendWsfs c.records).markRecorded c.events).openImage.updateCapacity

/-! ### RECONCILIATION (R229) -/

/-- An entry that both views could hold: not pending, not part of a set that waits for its image, its domain on. -/
def State.compared (s : State) (k : Nat) : Bool :=
  s.unitOn k && !(s.qtn.map.entry k).pending && !(s.qtn.path.entry k).pending && !s.qtn.sets.any (fun c => c.keys.contains k)

/-- The units on which the two views differ. -/
def State.disagree (s : State) : List Nat :=
  (List.range 1984).filter (fun k => s.compared k && ((s.qtn.map.entry k).state != (s.qtn.path.entry k).state ||
    (s.qtn.map.entry k).lc != (s.qtn.path.entry k).lc))

/-- The more restrictive of two entries, with the SOURCE of the view that held it; where only the numbers differ, the management
view's. -/
def mergeEntry (a b : MapEntry) (epoch : Nat) : MapEntry :=
  if rank a.state < rank b.state then { b with since := epoch } else a

/-- Both views after a pass over the units `ks`: numbers of clusters that are ACTIVE in both are kept, the others are
assigned again under R225. -/
def State.merged (s : State) (ks : List Nat) (epoch : Nat) : UnitMap :=
  let m := s.qtn.map
  let w := s.qtn.path
  let m1 := ks.foldl (fun a k =>
    let e := mergeEntry (m.entry k) (w.entry k) epoch
    let both := (m.entry k).state == 0 && (w.entry k).state == 0
    a.put k (if k < 672 && !both then { e with lc := 0xFF, state := if e.state == 0 then 3 else e.state } else e)) m
  (List.range 4).foldl (fun a d => (List.range 160).foldl (fun b lc =>
    if (b.backing d lc).isNone && ((m.backing d lc).isSome || (w.backing d lc).isSome) then b.assign d lc epoch else b) a) m1

/-- A reconciliation pass. Units of `own` (findings that a takeover completes) are not counted and send their own
records, `recs`. -/
def State.reconcile (s : State) (own : List Nat) (recs : List WsfRec) (events : List Nat) : State :=
  let ks := s.disagree
  let s0 := { s with qtn := { s.qtn with reconciled := s.tick } }
  if ks = [] then s0.sendWsfs (recs.map (fun r => r.atEpoch (s.rd qtnEpochEpoch))) |>.markRecorded events
  else
    let m := s.qtn.map
    let m' := s.merged ks s.nextEpoch
    let new := ks.filter (fun k => !own.contains k)
    let dis := (new.take 16).map (fun k => s.unitRec 0x06 m m' k
      [(152, leBytes 1 (s.qtn.path.entry k).state), (153, leBytes 1 (m.entry k).state)])
    let s1 := if new = [] then s0 else (s0.count qtnDisagreeCountCount new.length).event qtnEventDisagree
    let s2 := s1.applySet m' false (recs ++ dis) events []
    let s3 := s2.setPath (s2.pathAfter s2.qtn.map ks) []
    s3.updateCapacity

/-! ### Churn runs (R231–R235) -/

/-- The partitions that contain a masked die. -/
def State.partsOfMask (s : State) (dies : Nat) : List Nat :=
  s.parts.filter (fun p => (s.diesOf p).any (fun d => dies.testBit d))

/-- R231: the result of the tests of a grant. -/
def State.churnTest (s : State) (level dies : Nat) : Nat :=
  if dies = 0 ∨ 16 ≤ dies ∨ 2 ≤ level ∨ (List.range 4).any (fun d => dies.testBit d && !s.domOn d) then 4
  else if !s.on qtnPackStatusValid then 7
  else if s.qtn.churn.isSome ∨ s.pwr.waits.contains .selfTest ∨ (s.partsOfMask dies).any (fun p => (s.queuesOf p).any (fun q =>
      s.runningOf q != 0 || s.pendingCount q != 0)) then 3
  else 0

/-- A run in progress begins to abort (R235). -/
def State.abortChurn (s : State) : State :=
  match s.qtn.churn with
  | some c => { s with qtn := { s.qtn with churn := some { c with aborting := true } } }.wr qtnChurnStatusState 2
  | none => s

/-- CHURN_ABORT. -/
def execChurnAbort (via : CmdVia) (s : State) : Host.Outcome State Fault Refusal :=
  .next (s.command via 0x0A11 [] (fun t => if t.qtn.churn.isSome then (0, t.abortChurn) else (8, t)))

/-- R232: whether the run tests unit `k`. -/
def State.churnTests (s : State) (c : ChurnSt) (k : Nat) : Bool :=
  let e := s.qtn.map.entry k
  if k < 1344 then c.dies.testBit ((unitDie k).getD 0)
  else if c.level = 0 then false
  else if k < 1856 then (e.state == 1 || e.state == 2) && !e.pending && c.dies.testBit ((unitDie k).getD 0)
  else decide (k < 1984) && e.state != 0 && c.parts.testBit (s.partOfUnit k)

/-- All units a run tests. -/
def State.churnUnits (s : State) (c : ChurnSt) : List Nat :=
  (List.range 1984).filter (fun k => s.churnTests c k || c.failed.contains k || c.passed.any (fun e => e.1 == k))

/-- R234: a unit that fails a kernel becomes QUARANTINED with SOURCE 11, also one that was QUARANTINED before. -/
def UnitMap.failChurn (m : UnitMap) (epoch k : Nat) : UnitMap :=
  let m1 := m.restrict 2 3 epoch k
  if (m.entry k).state = 2 then m1.put k { m.entry k with source := 3, since := epoch } else m1

/-- CHURN_KERNEL_RESULT (R234): one more kernel of the unit matches, or the unit fails at its first mismatch. -/
def State.kernelResult (s : State) (c : ChurnSt) (k kernel : Nat) (observed expected : Word64) : State :=
  if !(s.churnTests c k || c.passed.any (fun e => e.1 == k)) || c.failed.contains k then s
  else
    let n := c.passed.get (fun _ => 0) k + 1
    let c1 := { c with passed := c.passed.set (fun _ => 0) k n }
    if observed = expected then { s with qtn := { s.qtn with churn := some c1 } }
    else
      let s1 := { s with qtn := { s.qtn with churn := some { c1 with failed := k :: c.failed } } }.count qtnChurnFailsCount 1
      s1.findingBy 0x02 2 [k] (fun m => m.failChurn s.nextEpoch k) (fun _ => [(40, leBytes 4 c.packId), (44, leBytes 4 kernel),
        (64, leBytes 8 expected.toNat), (72, leBytes 8 observed.toNat),
        (152, leBytes 1 c.level), (153, leBytes 1 c.dies), (156, leBytes 4 n)]) []

/-- PROGRESS: kernels finished, of all that the run's units have. -/
def State.churnProgress (s : State) (c : ChurnSt) : Nat :=
  let us := s.churnUnits c
  let done := (us.map (fun k => if c.failed.contains k then c.kernels else Nat.min c.kernels (c.passed.get (fun _ => 0) k))).sum
  if us.length * c.kernels = 0 then 100 else 100 * done / (us.length * c.kernels)

/-- The units whose kernels have all matched. -/
def State.churnPassed (s : State) (c : ChurnSt) : List Nat :=
  (s.churnUnits c).filter (fun k => !c.failed.contains k && decide (c.kernels ≤ c.passed.get (fun _ => 0) k))

/-- R234, R235, R341: the run ends: passes are recorded, the fence lifts, the scratchpads of the masked dies hold undefined
bytes, and a CHURN_DONE record goes out. -/
def State.endChurn (s : State) (c : ChurnSt) : State :=
  let ok := s.churnPassed c
  let epoch := s.rd qtnEpochEpoch
  let pass : ChurnPass := { level := c.level, version := c.packVersion, epoch := epoch, seq := s.rd qtnWsfSeqSeq }
  let index := if s.mramOk then ok.foldl (fun i k => i.set (fun _ => none) k (some pass)) s.mram.churn else s.mram.churn
  let s1 := { s with qtn := { s.qtn with churn := none }, mram := { s.mram with churn := index } }
  let s2 := s1.undefine ((List.range 672).filter (fun u => c.dies.testBit (u / 168)))
  let s3 := (((s2.wr qtnChurnStatusState 0).wr qtnChurnStatusAborted c.aborting.toNat).event qtnEventChurnDone)
  let s4 := if c.aborting then s3 else (s3.wr qtnChurnStatusLastPass c.failed.isEmpty.toNat).wr qtnChurnStatusProgress 100
  s4.sendWsf ⟨s4.wsfBytes 0x03 none 0xFFFF 0 0 epoch [(40, leBytes 4 c.packId), (152, leBytes 1 c.level),
    (153, leBytes 1 c.dies), (154, leBytes 1 c.aborting.toNat), (156, leBytes 4 ok.length),
    (160, leBytes 4 c.failed.length)]⟩

/-- CHURN_RUN_END: every unit has passed or failed, or the run aborts. -/
def execChurnRunEnd (s : State) : Host.Outcome State Fault Refusal :=
  .next (
    match s.qtn.churn with
    | some c =>
      if c.aborting ∨ (s.churnUnits c).all (fun k => c.failed.contains k || (s.churnPassed c).contains k) then s.endChurn c
      else s
    | none => s)

/-! ### Churn packs (R236–R238) -/

/-- PACK_BEGIN: a candidate of `length` bytes is announced. -/
def execPackBegin (via : CmdVia) (id version length : Nat) (s : State) : Host.Outcome State Fault Refusal :=
  .next (s.command via 0x0A20 (leBytes 4 id ++ leBytes 4 version ++ leBytes 4 length) (fun t =>
    (0, { t with qtn := { t.qtn with candidate := some ⟨id, version, length, [], 0⟩ } }.wr qtnPackStatusCandidate 1)))

/-- PACK_DATA: bytes of the candidate. -/
def execPackData (via : CmdVia) (offset : Nat) (bytes : List Byte) (s : State) : Host.Outcome State Fault Refusal :=
  .next (s.command via 0x0A21 (leBytes 4 offset ++ bytes) (fun t =>
    match t.qtn.candidate with
    | some c =>
      if c.length < offset + bytes.length ∨ bytes = [] ∨ 1008 < bytes.length then (8, t)
      else
        let mem := ((bytes.foldl (fun (a : SMap Byte × Nat) b => (a.1.put a.2 b, a.2 + 1)) (c.bytes, offset))).1
        (0, { t with qtn := { t.qtn with candidate := some { c with bytes := mem, written := mem.length } } })
    | none => (8, t)))

/-- Bytes [lo, lo + n) of the candidate. -/
def PackSlot.field (c : PackSlot) (lo n : Nat) : Nat :=
  leNat ((List.range n).map (fun i => c.bytes.get (fun _ => 0) (lo + i)))

/-- All bytes of the candidate. -/
def PackSlot.image (c : PackSlot) : List Byte := (List.range c.length).map (fun i => c.bytes.get (fun _ => 0) i)

/-- The body hashes to BODY_HASH, and the signature over bytes 0–159 verifies under a fused key. -/
def packSigned (bs : List Byte) : Bool :=
  let k := field bs 5 1
  decide (k < 4) && Config.packKeys.testBit k && sha384 (bs.drop 256) == (bs.drop 32).take 48 &&
  ecdsaOk (Config.packKey k) (bs.take 160) (beNat ((bs.drop 160).take 48)) (beNat ((bs.drop 208).take 48))

/-- R237: the result of verifying the candidate. -/
def State.packTest (s : State) (c : PackSlot) : Nat :=
  if c.written ≠ c.length ∨ c.length < 256 ∨ c.length ≠ 256 + c.field 24 4 ∨ 2 ^ 24 < c.field 24 4 ∨ c.field 0 4 ≠ 0x4B504843 ∨
      c.field 4 1 ≠ 1 ∨ c.field 6 2 ≠ (s.reg sysStep).toNat % 65536 then 8
  else if !packSigned c.image then 5
  else if s.on qtnPackStatusValid ∧ c.field 12 4 < s.rd qtnPackVersionVersion then 6
  else 0

/-- A PACK_REJECTED record (Table QTN-7). -/
def State.packRejected (s : State) (result keyId version : Nat) : State :=
  (s.event qtnEventPackReject).sendWsf ⟨s.wsfBytes 0x07 none 0xFFFF 0 0 (s.rd qtnEpochEpoch)
    [(152, leBytes 1 result), (153, leBytes 1 keyId), (156, leBytes 4 version)]⟩

/-- The registers show the active pack. -/
def State.showPack (s : State) (k : Pack) : State :=
  (((s.wr qtnPackIdId k.id).wr qtnPackVersionVersion k.version).wr qtnPackStatusKeyId k.keyId).wr qtnPackStatusValid 1

/-- PACK_COMMIT: the candidate becomes the active pack, or is discarded. -/
def execPackCommit (via : CmdVia) (s : State) : Host.Outcome State Fault Refusal :=
  .next (s.command via 0x0A22 [] (fun t =>
    match t.qtn.candidate with
    | none => (8, t.packRejected 8 0 0)
    | some c =>
      let r := t.packTest c
      let t1 := { t with qtn := { t.qtn with candidate := none } }.wr qtnPackStatusCandidate 0
      if r ≠ 0 then (r, t1.packRejected r (c.field 5 1) (c.field 12 4))
      else
        let k : Pack := { id := c.field 8 4, version := c.field 12 4, keyId := c.field 5 1, kernels := c.field 16 4, quick := c.field 20 4,
                          bytes := c.image }
        (0, { t1 with qtn := { t1.qtn with pack := some k } }.showPack k)))

end Sys2Proof.Machine
end

