-- ==== Sys2Proof/Machine/Clock.lean ====
section
/-!
DEFINITION. The matrix clock of each compute die and its limits (R302–R304, R329).
-/
namespace Sys2Proof.Machine

open Reg

/-- The floor of R303, and the rated clock. -/
def floorMhz : Nat := 525

def ratedMhz : Nat := 2100

/-- Rounded down to a multiple of 25 MHz. -/
def down25 (n : Nat) : Nat := n / 25 * 25

/-- The limit that CLK_MATRIX_LIMIT sets. -/
def State.mgmtLimit (s : State) : Nat := Nat.min ratedMhz (Nat.max floorMhz (s.rd clkMatrixLimitMhz))

/-- The limit of a supply voltage of `mv` on die `d`. -/
def voltLimit (d mv : Nat) : Nat :=
  if Config.vRated d ≤ 550 then ratedMhz else Nat.min ratedMhz (down25 (2100 * (mv - 550) / (Config.vRated d - 550)))

/-- The thermal limit in force on a die; the rated clock before the first sample. -/
def State.thermLimit (s : State) (d : Nat) : Nat := s.thm.limit.get (fun _ => ratedMhz) d

/-- The power limiter's clock: steps of 6.25 % of the rated clock cut, down to the floor. -/
def State.powerLimit (s : State) : Nat := Nat.max floorMhz ((210000 - 13125 * s.pwr.cuts) / 100)

/-- The limits of a die below the rated clock, in the order of CLK_DIE_n.SRC: management, voltage, thermal, power. -/
def State.limits (s : State) (d : Nat) : List Nat :=
  [s.mgmtLimit, voltLimit d (s.pwr.vNow.get (fun _ => Config.vRated d) d), s.thermLimit d, s.powerLimit]

/-- R303. -/
def State.matrixMhz (s : State) (d : Nat) : Nat :=
  if s.domOn d then Nat.max floorMhz ((s.limits d).foldl Nat.min ratedMhz) else 0

/-- CLK_DIE_n.SRC: the limits in force. -/
def State.clockSrc (s : State) (d : Nat) : Nat :=
  if s.domOn d then (s.limits d).foldr (fun l n => 2 * n + (decide (l < ratedMhz)).toNat) 0 else 0

/-- CLK_DIE_n follows the limits; a change of clock is a trace record. -/
def State.updateClock (s : State) (d : Nat) : State :=
  let mhz := s.matrixMhz d
  let src := s.clockSrc d
  let s1 := (s.wr (clkDieMhz d) mhz).wr (clkDieSrc d) src
  if s.rd (clkDieMhz d) = mhz then s1
  else s1.trace 0x0C (traceUnit 2 d) (mhz + 4096 * src) none 0 [s.partOfDie d]

def State.updateClocks (s : State) : State :=
  let s1 := (List.range 4).foldl (fun t d => t.updateClock d) s
  (s1.wr pwrLimitStatusPercent (s.powerLimit * 100 / ratedMhz)).wr pwrLimitStatusLimiting
    (decide (s.powerLimit < ratedMhz)).toNat

/-- The voltage in force on a die becomes `mv`. -/
def State.setVolt (s : State) (d mv : Nat) : State :=
  { s with pwr := { s.pwr with vNow := s.pwr.vNow.set (fun x => Config.vRated x) d mv } }.updateClock d

def State.setRaise (s : State) (d : Nat) (mv : Option Nat) : State :=
  { s with pwr := { s.pwr with vRaise := s.pwr.vRaise.set (fun _ => none) d mv } }

/-- The PMBus entries that set VDD_COREd. -/
def State.setpoints (s : State) (d : Nat) : List Nat :=
  (List.range 16).filter (fun e => s.on (pwrPmbMapValid e) && s.on (pwrPmbMapSetpoint e) && s.rd (pwrPmbMapRail e) == d)

/-- VOUT_COMMAND to each of them. -/
def State.sendVout (s : State) (d mv : Nat) : State := (s.setpoints d).foldl (fun t e => t.emit (.vout e mv)) s

/-- VSET_WRITE (R302, R307): lowering lowers the clock limit first; raising waits for VOUT_SETTLED. A die whose regulator
no entry sets takes the value at once. -/
def execVsetWrite (path : Path) (d : Die) (v : Word32) (s : State) : Host.Outcome State Fault Refusal :=
  let mv := Nat.min 850 (Nat.max 650 (bitsOf v.toNat 0 10))
  let now := s.pwr.vNow.get (fun x => Config.vRated x) d
  .next (
    if !s.mgmtOrDebug path then s
    else
      let s1 := s.wr (pwrVsetMv d) mv
      if s.setpoints d = [] ∨ mv ≤ now then ((s1.setRaise d none).setVolt d mv).sendVout d mv
      else (s1.sendVout d mv).setRaise d (some mv))

/-- VOUT_SETTLED (R302): READ_VOUT reads within 10 mV of the raised voltage. -/
def execVoutSettled (d : Die) (mv : Nat) (s : State) : Host.Outcome State Fault Refusal :=
  .next (
    match s.pwr.vRaise.get (fun _ => none) d with
    | some v => if v ≤ mv + 10 ∧ mv ≤ v + 10 then (s.setRaise d none).setVolt d v else s
    | none => s)

/-- CLOCK_LIMIT_WRITE (R303, R307). -/
def execClockLimitWrite (path : Path) (v : Word32) (s : State) : Host.Outcome State Fault Refusal :=
  .next (if s.mgmtOrDebug path then (s.wr clkMatrixLimitMhz v.toNat).updateClocks else s)

/-- A step of the limiter is cut, or restored (R304). -/
def State.setCuts (s : State) (n : Nat) : State :=
  { s with pwr := { s.pwr with cuts := n, overSust := s.pwr.overSust, underSust := 0 } }.updateClocks

/-- What the limiter makes of the estimate `e`. -/
def State.limiter (s : State) (e : Nat) : State :=
  let sust := s.rd pwrLimitSustWatts
  let peak := s.rd pwrLimitPeakWatts
  let nOver := if sust < e then s.pwr.overSust + 1 else 0
  let nUnder := if e * 100 ≤ sust * 95 then s.pwr.underSust + 1 else 0
  let s1 := { s with pwr := { s.pwr with overSust := nOver, underSust := nUnder } }
  if s.powerLimit = floorMhz ∧ (peak < e ∨ s.rd pwrLimitPeakBeats < nOver) then (s1.event pwrEventLimitFloor).report 6
  else if s.powerLimit ≠ floorMhz ∧ (peak < e ∨ s.rd pwrLimitPeakBeats / 2 < nOver) then s1.setCuts (s.pwr.cuts + 1)
  else if s.pwr.cuts ≠ 0 ∧ 100 ≤ nUnder then s1.setCuts (s.pwr.cuts - 1)
  else s1

/-- POWER_LIMITER (R304): one evaluation of a beat tick, with the estimate. During W10 the limiter acts on the test clock
alone (R311). -/
def execPowerLimiter (watts : Nat) (s : State) : Host.Outcome State Fault Refusal :=
  .next (
    if !s.pwr.aon then s
    else
      let s1 := ((s.wr pwrEstNow watts).wr pwrEstMax (Nat.max watts (s.rd pwrEstMax))).recordPower
      if s1.rd bistStatusState = 1 then s1.wr bistPwrMaxWatts (Nat.max watts (s1.rd bistPwrMaxWatts)) else s1.limiter watts)

end Sys2Proof.Machine
end

