-- ==== Sys2Proof/Machine/Pcie.lean ====
section
/-!
DEFINITION. The host interface: link, functions, completions of host reads and SPDM (R152, R167–R172,
08_links_host_fabric_management.md).
-/
namespace Sys2Proof.Machine

open Reg

/-! ### Lists that wait for their fetch -/

/-- Reads of the CLA's initiator whose bytes have all been answered return (R364). -/
def State.serveNoc (s : State) : State :=
  s.cla.nocReads.foldl (fun t r =>
    match t.readBytes (t.rd claNocCfgPart) false r.1 r.2 with
    | some (bs, fs) =>
      ({ t with cla := { t.cla with nocReads := t.cla.nocReads.erase r } }.dropExt r.1 r.2).emit (.nocData bs (fs != []))
    | none => t) s

/-- Every running list without a fetched instruction fetches again. -/
def State.refetch (s : State) : State :=
  (((s.lists.filter (fun l => l.running && l.word.isNone && l.ending.isNone)).foldl (fun t l => t.fetch l) s).settle).serveNoc

/-! ### The link (R168, R169) -/

/-- The configuration state of function `f` is reset: its MSI-X table, Bus Master Enable and AER status; messages that were pending
are lost (R169). -/
def State.resetFunction (s : State) (f : Nat) : State :=
  let s1 := if s.msix.any (fun e => e.1 / 2 ^ 24 == f && decide (0x8000 ≤ e.1 % 2 ^ 24)) then s.event (hifEventMsiLost f) else s
  { s1 with msix := s1.msix.clear (fun k => k / 2 ^ 24 == f)
            link := { s1.link with busMaster := setBits s1.link.busMaster f 1 0, aer := s1.link.aer.filter (fun e => e != f) } }

/-- The host's enumeration sets Bus Master Enable of function `f` once it can be configured (log entry 12). -/
def State.enumerate (s : State) (f : Nat) : State :=
  if s.linkUp ∧ s.presented f then { s with link := { s.link with busMaster := setBits s.link.busMaster f 1 1 } } else s

/-- The host interface and the configuration state of every function are reset. -/
def State.pcieDown (s : State) : State :=
  if !s.linkUp then s
  else
    let s1 := (List.range 4).foldl (fun t f =>
      ((((t.wr (hifStatusUp f) 0).wr (hifStatusWidth f) 0).wr (hifStatusRate f) 0).event (hifEventLinkDown f)).resetFunction f) s
    ({ s1 with link := { s1.link with hostReads := [] },
               hang := { s1.hang with late := s1.hang.late.filter (fun r => r.conn.isSome) } }).refetch

/-- PERST_DEASSERT (R168): one that comes before SYS_READY takes effect when SYS_READY rises. -/
def execPerstDeassert (s : State) : Host.Outcome State Fault Refusal :=
  .next { s with link := { s.link with perstHigh := true } }

/-- PCIE_LINK_UP (R168): training ends in L0; `width` and `rate` are the codes of Table LNK-2. The host's enumeration sets
Bus Master Enable of every function presented (log entry 12). -/
def execPcieLinkUp (width rate : Nat) (s : State) : Host.Outcome State Fault Refusal :=
  .next (
    if !s.link.perstHigh || !s.pwr.ready || !s.domOn 9 || s.linkUp then s
    else
      let s1 := (List.range 4).foldl (fun t f =>
        let t1 := ((t.wr (hifStatusUp f) 1).wr (hifStatusWidth f) width).wr (hifStatusRate f) rate
        if width = 4 then t1 else t1.event (hifEventDegraded f)) s
      (List.range 4).foldl (fun t f => t.enumerate f) s1)

/-! ### Completions (R152) -/

/-- A range of space 0x2 that a consumer of partition `p` has asked for and that holds [a, a + n). -/
def State.awaited (s : State) (p a n : Nat) : Bool :=
  let within := fun (b m : Nat) => decide (b ≤ a) && decide (a + n ≤ b + m)
  s.lists.any (fun l => l.running && s.partOf l == p &&
    (l.asks.any (fun r => within r.1 r.2) || (l.word.isNone && within (l.hdr.clAddr + 64 + 16 * l.idx) 16))) ||
  (p == s.rd claNocCfgPart && s.cla.nocReads.any (fun r => within r.1 r.2)) ||
  (s.queuesOf p).any (fun q =>
    let d := s.ringBase q + 16 * ((s.queue q).cand % s.ringCap q)
    s.on (queCtlEn q) && s.untested q != 0 && (within d 16 ||
      match s.readBytes p false d 16 with
      | some (bs, _) => within (field bs 0 8) 64
      | none => false))

/-- Bytes from address `a` are answered. -/
def putAnswers (e : List (Nat × Option Byte)) (a : Nat) : List (Option Byte) → List (Nat × Option Byte)
  | [] => e
  | b :: bs => putAnswers (extPut e a b) (a + 1) bs

def State.answer (s : State) (a : Nat) (bs : List (Option Byte)) : State :=
  { s with mem := { s.mem with ext := putAnswers s.mem.ext a bs } }.refetch

/-- A space-0x2 read of function `f` is answered from the host's address `addr`, by a response or at its time limit. -/
def State.hostAnswer (s : State) (f addr : Nat) (response : Bool) (bs : List (Option Byte)) : State :=
  let a := 2 * 2 ^ 60 + addr
  if !s.hostOk f then s
  else if s.isLate f none addr bs.length then s.dropLate f none addr bs.length response
  else
    let s1 := { s with link := { s.link with hostReads := takeRange f none addr bs.length s.link.hostReads } }
    if s1.awaited f a bs.length then s1.answer a bs else s1

/-! ### SPDM (R167) -/

/-- A measurement; index 3 is the SHA-384 of the active churn pack's header (R238). -/
def State.measurement (s : State) (i : Nat) : Nat :=
  match s.qtn.pack with
  | some k => if i = 3 then beNat (sha384 (k.bytes.take 256)) else Config.measurement i
  | none => Config.measurement i

/-- SPDM_REQUEST, over DOE on PF0: slot 0 and the four measurements answer, anything else with an ERROR response. The
response codes are SPDM 1.2's (log entry 13). -/
def execSpdmRequest (r : SpdmReq) (s : State) : Host.Outcome State Fault Refusal :=
  .next (
    if !s.linkUp then s
    else match r with
      | .getCertificate slot =>
        s.emit (.spdmReply (if slot = 0 then [0x02, Config.certificate 0] else [0x7F, 0x01]))
      | .getMeasurement i =>
        s.emit (.spdmReply (if 1 ≤ i ∧ i ≤ 4 then [0x60, i, s.measurement i] else [0x7F, 0x01]))
      | .other _ => s.emit (.spdmReply [0x7F, 0x07]))

end Sys2Proof.Machine
end

