-- ==== Sys2Proof/Machine/Cla.lean ====
section
/-!
DEFINITION. The Configurable Logic Array (17_configurable_logic_array.md): frames, the configuration stream, full and partial loads, region
states, start-up, taps and the NoC ports.
-/
namespace Sys2Proof.Machine

open Reg

/-! ### Layout (R359) -/

/-- Frames of a column. -/
def colFrames (col : Nat) : Nat :=
  let o := col % 33
  if o = 8 ∨ o = 24 ∨ o = 32 then 56 else if o = 16 then 32 else 40

/-- The number of a frame: groups of 1,360, then the columns before it in its group. -/
def frameNo (col minor : Nat) : Nat :=
  col / 33 * 1360 + ((List.range (col % 33)).map colFrames).sum + minor

/-- The region of a column; none for the static shell. -/
def colRegion (col : Nat) : Option Nat := if col % 33 < 4 then none else some (col / 33)

/-- The region of a frame: the first 160 of each group are the shell's. -/
def frameRegion (f : Nat) : Option Nat := if f % 1360 < 160 then none else some (f / 1360)

/-- The frames of a scope. -/
def scopeFrames : Option Nat → List Nat
  | none => List.range 10880
  | some r => (List.range 1200).map (fun i => r * 1360 + 160 + i)

/-! ### Region states (Table CLA-4) -/

/-- The tag of byte `off` of a TAP (Table INS-6). -/
def State.tapTag (s : State) (l : RunList) (w off : Nat) : Word64 :=
  tagOf l.hdr.job (l.step.getD 0) (bitsOf w 64 20 + off / 65536) (bitsOf w 44 4) 0 (s.classOf l.queue) (s.partOf l)

/-- Bytes from offset `moved` of a TAP with DIR = 1 are stored, each tile's (R121) with its tag. -/
def State.tapStore (s : State) (l : RunList) (w moved : Nat) (poison : Bool) (bs : List Byte) : State :=
  (cutBytes 65536 moved bs).foldl (fun t x =>
    t.jobStore l (t.tapTag l w x.1) poison (l.as'.getD (bitsOf w 24 4) 0 + x.1) x.2) s

/-- The bytes that a TAP with DIR = 1 has not written are written poisoned; what they hold is open. -/
def State.poisonRest (s : State) (l : RunList) (w moved : Nat) : State :=
  if bitsOf w 8 1 = 0 then s
  else
    let g := s.free
    { s with free := g + 1 }.tapStore l w moved true ((List.range (l.total - moved)).map (fun i =>
      Config.lostByte g (l.as'.getD (bitsOf w 24 4) 0 + moved + i)))

/-- R362: a TAP in progress on tap `k` ends its list. -/
def State.failTap (s : State) (k : Nat) : State :=
  ((s.lists.filter (fun l => match l.work with | .tap j _ => j == k | _ => false)).foldl (fun t l =>
    match l.work, l.word with
    | .tap _ moved, some w => (t.poisonRest l w.toNat moved).endWith l 0x20 0x0701
    | _, _ => t) s).settle

/-- Frames inside a region that is isolated are lost; retransmission recovers them (R182, R363). -/
def State.loseFrames (s : State) (r : Nat) : State :=
  { s with cla := { s.cla with atTap := s.cla.atTap.filter (fun x => x.1 / 8 != r) } }

/-- A region takes a state; leaving RUNNING isolates it. -/
def State.setRegion (s : State) (r st : Nat) : State :=
  let was := s.regionRunning r
  let s1 := (s.wr (claRegionState r) st).wrBit claStatusRunning r (decide (st = 3))
  if was ∧ st ≠ 3 then (s1.failTap r).loseFrames r else s1

def State.setRegions (s : State) (rs : List Nat) (st : Nat) : State := rs.foldl (fun t r => t.setRegion r st) s

/-- The release of a region; one whose partition does not exist in the active mode stays HELD (R368). -/
def State.releaseRegion (s : State) (r : Nat) : State :=
  let s1 := { s with cla := { s.cla with byIcp := setBits s.cla.byIcp r 1 0 } }
  if s.rd (claRegionPart r) < partCount s.mode then s1.setRegion r 3 else s1.setRegion r 5

/-! ### Reporting (R389) -/

/-- A CLA EVENT (Table CLA-9). -/
def State.claEventMsg (s : State) (kind region err words : Nat) : State :=
  s.sendEvent (leBytes 1 0x0E ++ leBytes 1 kind ++ leBytes 1 region ++ leBytes 1 err ++ leBytes 4 words ++
    leBytes 8 s.beat.num)

/-! ### Start-up (R383–R385) -/

/-- The device stops driving CFG_DONE low. -/
def State.stopDriving (s : State) : State :=
  if s.on claStatusDriving then
    let s1 := s.wr claStatusDriving 0
    { s1 with cla := { s1.cla with droveUntil := some s.tick, timedOut := false } }
  else s

/-- The device drives CFG_DONE low, unless its strap names no source. -/
def State.startDriving (s : State) : State :=
  let s1 := { s with cla := { s.cla with released := false } }
  if s.rd claStatusSrc = 0 then s1
  else
    let s2 := (s1.wr claStatusDriving 1).wr claStatusLine 0
    { s2 with cla := { s2.cla with droveUntil := none } }

/-- GO is given: READY regions that wait for it are released. -/
def State.giveGo (s : State) : State :=
  if s.on claStatusGo then s
  else
    let s1 := ((s.wr claStatusGo 1).event claEventGo).claEventMsg 6 0xFF 0 0
    ((List.range 8).filter (fun r => s1.regionState r == 2 && !s1.cla.byIcp.testBit r)).foldl (fun t r => t.releaseRegion r) s1

/-- GO follows when the shell is loaded, the device does not drive the line, and the line is high. -/
def State.tryGo (s : State) : State :=
  if s.on claStatusLoaded && !s.on claStatusDriving && s.on claStatusLine then s.giveGo else s

/-- What a full load begins with: blank regions, no shell, no GO, CFG_DONE low. -/
def State.blankCla (s : State) : State :=
  ((s.setRegions (List.range 8) 0).wr claStatusLoaded 0).wr claStatusGo 0

/-- R375: the strap's full load begins. -/
def State.startLoad (s : State) : State :=
  let src := s.rd claStatusSrc
  let s1 := { s.blankCla with cla := { s.blankCla.cla with frames := [], crcFailed := 0, byIcp := 0 } }
  if src = 0 then s1
  else
    let s2 := s1.startDriving
    let s3 := { s2 with cla := { s2.cla with loading := true, sending := src == 2, passes := 0 } }
    if src = 2 then s3.emit .busPass else s3

/-! ### The stream (R369–R374) -/

/-- CSTAT mirrors the flags of the stream. -/
def State.showStream (s : State) (x : ClaStream) : State :=
  (((({ s with cla := { s.cla with stream := some x } }.wr claCfgStatIdOk x.idOk.toNat).wr claCfgStatCheckOk x.checkOk.toNat).wr
    claCfgStatArmed x.armed.toNat).wr claCfgStatSynced 1)

/-- The stream has ended: the engine is free, and the path that carried it learns the result. -/
def State.endStream (s : State) (x : ClaStream) (err : Nat) : State :=
  let s1 := { s with cla := { s.cla with stream := none } }.wr claCfgStatSynced 0
  match x.owner with
  | .ext _ _ => (s1.wr claExtStatusBusy 0).wr claExtStatusResult err
  | .icp => s1
  | .full =>
    let n := s1.cla.passes + 1
    let again := s1.rd claStatusSrc == 3 && err != 0 && decide (n < Nat.max 1 (s1.rd claBusCfgRepeat))
    { s1 with cla := { s1.cla with loading := again, passes := if s1.rd claStatusSrc = 3 then n else s1.cla.passes } }

/-- The regions of a stream's scope. -/
def ClaStream.regions (x : ClaStream) : List Nat :=
  match x.scope with
  | none => []
  | some none => List.range 8
  | some (some r) => [r]

/-- The number a report names the scope by. -/
def ClaStream.unit (x : ClaStream) : Nat :=
  match x.scope with
  | some (some r) => r
  | _ => 0xFF

/-- R373: an error ends the stream, and its scope becomes BAD. -/
def State.streamError (s : State) (x : ClaStream) (err : Nat) : State :=
  let rs := x.regions
  let s1 := s.setRegions rs 4
  let s2 := if x.scope = some none then s1.wr claStatusLoaded 0 else s1
  let crc := rs.foldl (fun c r => setBits c r 1 (decide (err = 8)).toNat) s2.cla.crcFailed
  let s3 := { s2 with cla := { s2.cla with crcFailed := crc } }
  (((((s3.wr claStatusErr err).wr claCfgStatErr err).event claEventStreamErr).endStream x err).claEventMsg 2 x.unit err
    x.words)

/-- A stream in progress is aborted (error 0x0A). -/
def State.abortStream (s : State) : State :=
  match s.cla.stream with
  | some x => s.streamError x 0x0A
  | none => s

/-- A partition reset aborts the partial stream that loads a region of its own. -/
def State.abortStreamIn (s : State) (rs : List Nat) : State :=
  match s.cla.stream with
  | some x => if x.scope != some none && x.regions.any (fun r => rs.contains r) then s.streamError x 0x0A else s
  | none => s

/-- The stream that a source owns. -/
def ClaStream.isFrom (x : ClaStream) (src : ClaSrc) : Bool :=
  match x.owner, src with
  | .full, .full => true
  | .icp, .icp => true
  | .ext _ _, .ext => true
  | _, _ => false

/-- A stream at its sync word. -/
def fresh (o : ClaOwner) (before : Nat) : ClaStream :=
  { owner := o, scope := none, armed := false, idOk := false, checkOk := false, crc := crcInit, column := 0, minor := 0,
    before := before, written := [], words := 1 }

/-! ### The memory source (R378) -/

/-- Where the declared stream lies: its partition, address and words. -/
def State.extRange (s : State) (full : Bool) (r : Nat) : Nat × Nat × Nat :=
  (if full then s.rd claExtCtlPart else s.rd (claRegionPart r), s.rd64 claExtAddrLoAddr claExtAddrHiAddr, s.rd claExtLenBytes / 4)

/-- The tag of the Move Engine's fetch. -/
def extTag (p : Nat) : Word64 := tagOf 0 0 0xFFFFF 0xB 0 2 p

/-- The bytes of a read that met nothing. -/
def cleanBytes : Option (List Byte × List Nat) → Option (List Byte)
  | some (bs, []) => some bs
  | _ => none

/-- Words `i` and up of the stream as memory holds them; none where that is not local memory, or reads poisoned: then they are what
comes. -/
def State.extWords (s : State) (full : Bool) (r i n : Nat) : Option (List Byte) :=
  let (p, a, _) := s.extRange full r
  if a / 2 ^ 60 ≠ 0 then none
  else cleanBytes (s.readTagged (extTag p) (a + 4 * i) (4 * n))

/-- The words are those of the stream from its word `i` on, and within its length. -/
def State.extHolds (s : State) (full : Bool) (r i : Nat) (ws : List Word32) : Bool :=
  decide (i + ws.length ≤ (s.extRange full r).2.2) &&
  (match s.extWords full r i ws.length with
    | some bs => bs == ws.flatMap (fun w => leBytes 4 w.toNat)
    | none => true)

/-- The words before the first sync word of a stream in local memory; 0 where the model does not see it. -/
def State.extSync (s : State) (full : Bool) (r : Nat) : Nat :=
  ((List.range (s.extRange full r).2.2).find? (fun i => s.extWords full r i 1 == some (leBytes 4 0x5A5AC33C))).getD 0

/-- The words that a command brings are those of its source. -/
def State.brings (s : State) (x : ClaStream) (ws : List Word32) : Bool :=
  match x.owner with
  | .ext full r => s.extHolds full r (x.before + x.words) ws
  | _ => true

/-- The Move Engine has fetched the words: what their reading meets is handled as any error (R160). -/
def State.fetchedExt (s : State) (x : ClaStream) (n : Nat) : State :=
  match x.owner with
  | .ext full r =>
    let (p, a, _) := s.extRange full r
    if a / 2 ^ 60 = 0 then s.touch p true none (a + 4 * (x.before + x.words)) (4 * n) else s
  | _ => s

/-- Words of the stream enter its check and its count. -/
def ClaStream.take (x : ClaStream) (ws : List Word32) : ClaStream :=
  { x with crc := ws.foldl (fun c w => crcFeed c (leBytes 4 w.toNat)) x.crc, words := x.words + ws.length }

/-- What a header word violates. -/
def headerErr (h : Nat) : Option Nat :=
  let kind := bitsOf h 22 2
  let target := bitsOf h 24 8
  if 2 ≤ kind ∨ (kind = 0 ∧ (target ≠ 0 ∨ bitsOf h 0 20 ≠ 0)) then some 1
  else if kind = 1 ∧ !([0x21, 0x22, 0x23, 0x24, 0x26, 0x27].contains target) then some 2
  else none

/-- A packet for `target` (0 for IDLE): its header and data words are taken, and `f` gives its effect. A command whose words its source
does not hold there has none (log entry 139). -/
def State.packet (s : State) (src : ClaSrc) (target : Nat) (hdr : Option Word32) (ws : List Word32)
    (f : State → ClaStream → State) : State :=
  match s.cla.stream with
  | none => s
  | some x =>
    let h := (hdr.getD (BitVec.ofNat 32 (target * 2 ^ 24 + 2 ^ 22 + 1))).toNat
    if !x.isFrom src || !s.brings x (hdr.toList ++ ws) then s
    else
      let t := s.fetchedExt x (hdr.toList ++ ws).length
      match headerErr h with
      | some e => t.streamError { x with words := x.words + 1 } e
      | none => if bitsOf h 24 8 = target then f t (x.take (hdr.toList ++ ws)) else s

/-- A frame lies beyond the array, or outside the region that the scope names. -/
def ClaStream.badFrame (x : ClaStream) (col minor : Nat) : Bool :=
  decide (264 ≤ col) || decide (colFrames col ≤ minor) ||
  (match x.scope with
    | some (some r) => colRegion col != some r
    | _ => false)

/-- Frames are written one after the other; the pointer advances. -/
def State.writeFrames (s : State) (x : ClaStream) : List (List Word32) → State
  | [] => s.showStream x
  | fr :: frs =>
    if x.badFrame x.column x.minor then s.streamError x 6
    else
      let n := frameNo x.column x.minor
      let s1 := { s with cla := { s.cla with frames := s.cla.frames.set (fun _ => []) n fr } }
      let last := decide (colFrames x.column ≤ x.minor + 1)
      s1.writeFrames { x with written := n :: x.written, checkOk := false,
                              column := if last then x.column + 1 else x.column,
                              minor := if last then 0 else x.minor + 1 } frs

/-- Whether the scope agrees with the path that carries the stream (R378, R380). -/
def ClaStream.scopeOk (x : ClaStream) (scope : Option Nat) : Bool :=
  match x.owner, scope with
  | .full, none => true
  | .full, some _ => false
  | .icp, none => false
  | .icp, some _ => true
  | .ext full _, none => full
  | .ext full r, some k => !full && k == r

/-- What an accepted COMMIT does to a region: released by an external stream once GO has been given, READY else. -/
def State.commitRegion (s : State) (x : ClaStream) (r : Nat) : State :=
  let icp := x.owner == .icp
  let s1 := { s with cla := { s.cla with byIcp := setBits s.cla.byIcp r 1 icp.toNat, crcFailed := setBits s.cla.crcFailed r 1 0 } }
  if s.on claStatusGo && !icp then s1.releaseRegion r
  else if s.rd (claRegionPart r) < partCount s.mode then s1.setRegion r 2
  else s1.setRegion r 5

/-- COMMIT (R372, R379, R380, R383). -/
def State.commitStream (s : State) (x : ClaStream) : State :=
  match x.scope with
  | none => s.streamError x 9
  | some scope =>
    if !x.checkOk || !x.idOk || !(scopeFrames scope).all (fun f => x.written.contains f) then s.streamError x 9
    else
      let s1 := x.regions.foldl (fun t r => t.commitRegion x r) (s.showStream x)
      let s2 := if scope = none then (s1.wr claStatusLoaded 1).stopDriving else s1
      ((s2.event claEventLoadDone).claEventMsg 1 x.unit 0 x.words).tryGo

/-- CLA_BUS_PASS_END (R376): the master stops when the line is high or all its passes are sent. -/
def execClaBusPassEnd (lineHigh : Bool) (s : State) : Host.Outcome State Fault Refusal :=
  .next (
    if !s.cla.sending then s
    else
      let n := s.cla.passes + 1
      let s1 := { s with cla := { s.cla with passes := n } }
      if lineHigh ∨ Nat.max 1 (s.rd claBusCfgRepeat) ≤ n then { s1 with cla := { s1.cla with sending := false } }
      else s1.emit .busPass)

/-! ### Starting the memory source (R378) -/

/-- Whether a path may start a stream of the declared scope. -/
def State.extPath (s : State) (path : Path) (full : Bool) (r : Nat) : Bool :=
  match path with
  | .mgmt => true
  | .debug => s.unlocked
  | .mctp => false
  | .pf f => s.presented f && (f.val == 0 || (!full && f.val == s.rd (claRegionPart r)))

/-- Whether the stream's range breaks the rules of R378. -/
def State.badExt (s : State) (p a n : Nat) : Bool :=
  !s.present p || a % 4 != 0 ||
  (a / 2 ^ 60 != 2 && (a / 2 ^ 60 != 0 || decide (s.limitOf p * 4096 < a + n)))

/-- CLA_EXT_GO. -/
def execClaExtGo (path : Path) (v : Word32) (s : State) : Host.Outcome State Fault Refusal :=
  let full := v.getLsbD 8
  let r := bitsOf v.toNat 0 3
  let part := bitsOf v.toNat 12 2
  let p := if full then part else s.rd (claRegionPart r)
  .next (
    if !v.getLsbD 31 then
      (if s.extPath path full r then ((s.wr claExtCtlPart part).wr claExtCtlFull full.toNat).wr claExtCtlRegion r else s)
    else if !s.extPath path full r then s.wr claExtStatusResult 0x0D
    else if s.cla.stream.isSome || s.on claExtStatusBusy then s.wr claExtStatusResult 0x0C
    else
      let s1 := ((s.wr claExtCtlPart part).wr claExtCtlFull full.toNat).wr claExtCtlRegion r
      if !s.domOn 11 || s.badExt p (s.rd64 claExtAddrLoAddr claExtAddrHiAddr) (s.rd claExtLenBytes) then
        s1.wr claExtStatusResult 0x0E
      else s1.wr claExtStatusBusy 1)

/-! ### Regions (R368, R381, R382) -/

/-- A path that may write HOLD of region `r` (R390). -/
def State.holdPath (s : State) (path : Path) (r : Nat) : Bool :=
  match path with
  | .pf f => s.presented f && (f.val == 0 || f.val == s.rd (claRegionPart r))
  | _ => s.mgmtOrDebug path

/-- HOLD written as 1. -/
def State.holdRegion (s : State) (r : Nat) : State :=
  let s1 := s.wr (claRegionHold r) 1
  if s.regionState r = 3 ∨ s.regionState r = 2 then s1.setRegion r 5 else s1

/-- HOLD written as 0: ignored on a region that is neither HELD, READY nor RUNNING. -/
def State.unholdRegion (s : State) (r : Nat) : State :=
  if s.regionState r = 5 ∨ s.regionState r = 2 then
    (if s.on claStatusGo then (s.wr (claRegionHold r) 0).releaseRegion r else s.wr (claRegionHold r) 0)
  else if s.regionState r = 3 then s.wr (claRegionHold r) 0
  else s

/-- CLA_REGION_ASSIGN (R368). -/
def execClaRegionAssign (path : Path) (r : Region) (p : Part) (s : State) : Host.Outcome State Fault Refusal :=
  let st := s.regionState r
  .next (
    if !s.mgmtOrDebug path then s
    else if st = 0 ∨ st = 4 ∨ st = 5 then s.wr (claRegionPart r) p
    else s.event claEventCfgRefused)

/-! ### CFG_DONE and GO -/

/-- CLA_DONE_TIMEOUT (R385). -/
def execClaDoneTimeout (s : State) : Host.Outcome State Fault Refusal :=
  .next (
    match s.cla.droveUntil with
    | some t =>
      if !s.cla.timedOut && decide (t + Nat.max 1 (s.rd claDoneTimeoutBeats) ≤ s.tick) then
        ({ s with cla := { s.cla with timedOut := true } }.event claEventDoneTimeout).claEventMsg 3 0xFF 0 0
      else s
    | none => s)

/-- RELEASE_DONE (R383). -/
def execReleaseDone (path : Path) (s : State) : Host.Outcome State Fault Refusal :=
  .next (if s.mgmtOrDebug path then { s.stopDriving with cla := { s.stopDriving.cla with released := true } } else s)

/-! ### Configuration memory (R387) -/

/-! ### The NoC target (R365) -/

/-- A path that reaches the target window. -/
def State.targetPath (s : State) (path : Path) : Bool :=
  match path with
  | .pf f => s.presented f && (f.val == 0 || f.val == s.rd claNocCfgPart)
  | _ => s.mgmtOrDebug path

def State.shellUp (s : State) : Bool := s.on claStatusLoaded && s.domOn 11

/-- No answer from the shell: a read gives ones, a write is dropped. -/
def State.targetTimeout (s : State) (path : Path) (wr : Option Word32) : State :=
  let s1 := s.event claEventTgtTimeout
  if wr.isSome then s1 else s1.emit (.regData path 0xFFFFFFFF#32)

/-- CLA_TARGET_ACCESS: `answer` is what the shell's user logic returns. -/
def execClaTargetAccess (path : Path) (offset : Nat) (wr : Option Word32) (answer : Word32) (s : State) :
    Host.Outcome State Fault Refusal :=
  .next (
    if !s.targetPath path || decide (2 ^ 19 ≤ offset) then s
    else if !s.shellUp then s.targetTimeout path wr
    else
      let s1 := s.emit (.claTarget offset wr)
      if wr.isSome then s1 else s1.emit (.regData path answer))

/-- CLA_TARGET_TIMEOUT. -/
def execClaTargetTimeout (path : Path) (offset : Nat) (wr : Option Word32) (s : State) : Host.Outcome State Fault Refusal :=
  .next (if !s.targetPath path || decide (2 ^ 19 ≤ offset) then s else s.targetTimeout path wr)

/-! ### The NoC initiator (R364) -/

/-- The tag of its requests; TC0 is treated as TC2. -/
def State.nocTag (s : State) : Word64 :=
  let tc := s.rd claNocCfgTc
  tagOf (s.rd claNocCfgJob) 0 0xFFFFF 0xB 0 (if tc = 0 then 2 else tc) (s.rd claNocCfgPart)

/-- Whether the partition answers the initiator. -/
def State.nocOk (s : State) : Bool := s.present (s.rd claNocCfgPart) && !s.fenced (s.rd claNocCfgPart)

/-- Asks for the bytes of a host or remote range that have not been answered; a remote request has no list, so queue
64 stands for the initiator. -/
def State.askNoc (s : State) (p a n : Nat) : State :=
  if a / 2 ^ 60 = 2 then s.readHost p a n
  else if a / 2 ^ 60 = 4 then
    let r : RemRead := { conn := 2 ^ 32, off := a % 2 ^ 40, len := n, addr := a, queue := 64, desc := 0 }
    { s with link := { s.link with reads := s.link.reads ++ [r] } }.sendOp p (bitsOf a 42 17) (bitsOf a 40 2)
      (tagTc s.nocTag) (frameOf (.readReq (a % 2 ^ 40) n) s.nocTag false (some (64, 0)))
  else s

/-- What a read of the initiator found is its answer; else it waits for host or remote memory. -/
def State.nocGive (s : State) (p a n : Nat) : Option (List Byte × List Nat) → State
  | some (bs, fs) => (s.touchTagged s.nocTag none a n).emit (.nocData bs (fs != []))
  | none => { s with cla := { s.cla with nocReads := s.cla.nocReads ++ [(a, n)] } }.askNoc p a n

/-- A read of the initiator: answered at once, or once host or remote memory has. -/
def State.nocRead (s : State) (a n : Nat) : State :=
  let p := s.rd claNocCfgPart
  let sp := a / 2 ^ 60
  if !s.nocOk || (sp != 0 && sp != 2 && sp != 4) || (sp == 4 && (bitsOf a 59 1 == 1 || !s.on fabDevIdValid)) then s.emit (.nocData (List.replicate n 0) true)
  else s.nocGive p a n (s.readTagged s.nocTag a n)

/-- A write of the initiator. -/
def State.nocWrite (s : State) (a : Nat) (bs : List Byte) : State :=
  let p := s.rd claNocCfgPart
  if !s.nocOk then s
  else match a / 2 ^ 60 with
    | 0 => s.storeTagged s.nocTag false a bs
    | 2 => s.storeTagged s.nocTag false a bs
    | 4 =>
      if bitsOf a 59 1 = 1 ∨ !s.on fabDevIdValid then s
      else s.sendOp p (bitsOf a 42 17) (bitsOf a 40 2) (tagTc s.nocTag) (frameOf (.write (a % 2 ^ 40) bs) s.nocTag false none)
    | _ => s

/-! ### Taps (R360–R363) -/

/-- The TAP in progress on tap `k`. -/
def State.tapList (s : State) (k : Nat) : Option RunList :=
  s.lists.find? (fun l => l.running && l.ending.isNone && match l.work with | .tap j _ => j == k | _ => false)

/-- The DETAILs of faults join those of the list's instruction. -/
def State.addFaults (s : State) (q d : Nat) (fs : List Nat) : State := fs.foldl (fun t f => t.addFault q d f) s

/-- The next byte that a TAP with DIR = 0 moves. -/
def RunList.tapFrom (l : RunList) (w moved : Nat) : Nat := l.as'.getD (bitsOf w 16 4) 0 + moved

/-- The list after a TAP has moved `n` bytes more. -/
def RunList.tapped (l : RunList) (k moved n tick : Nat) : RunList :=
  { l with work := .tap k (moved + n), progress := if l.total ≤ moved + n then tick else l.progress }

/-- `n` bytes read for a TAP go to its region. -/
def State.tapGive (s : State) (l : RunList) (w k moved n : Nat) : Option (List Byte × List Nat) → State
  | some (bs, fs) =>
    ((((s.touchTagged (s.tapTag l w moved) (some (l.queue, l.desc)) (l.tapFrom w moved) n).setList (l.tapped k moved n s.tick)).addFaults
      l.queue l.desc fs)).emit (.tapOut k (s.tapTag l w moved) bs)
  | none => s

/-- A region takes `n` bytes of a TAP with DIR = 0. -/
def State.tapOut (s : State) (l : RunList) (w k moved n : Nat) : State :=
  s.tapGive l w k moved n (s.readTagged (s.tapTag l w moved) (l.tapFrom w moved) n)

/-- Bytes from a region are stored by a TAP with DIR = 1. -/
def State.tapIn (s : State) (l : RunList) (w k moved : Nat) (bs : List Byte) : State :=
  (s.setList { l with work := .tap k (moved + bs.length) }).tapStore l w moved false bs

/-- The oldest frame that a region holds at the egress taps of a port. -/
def State.heldAt (s : State) (port : Nat) : Option (Nat × Encap × List Byte) := s.cla.atTap.find? (fun x => x.1 / 4 == port)

/-- It leaves the region. -/
def State.takeHeld (s : State) (port : Nat) : State :=
  { s with cla := { s.cla with atTap := s.cla.atTap.eraseP (fun x => x.1 / 4 == port) } }

/-- How a frame that a region originates leaves: as its header says. -/
def State.originEncap (s : State) (sub : Nat) (b : List Byte) : Encap :=
  s.encap sub ((field b 1 1).testBit 5) (bitsOf (field b 8 4) 0 17) (bitsOf (field b 4 4) 19 2) (field b 12 4) 0

/-- CLA_REGION_FRAME (R363): what a region does at an active egress tap with the oldest frame it holds there, or a frame that it
originates; the device computes the ICRC after the tap. At ingress the frames that come out of the tap are those that the KFT commands
bring. Past an inactive tap a frame goes by or is dropped where it is sent or received. -/
def execClaRegionFrame (port : Port) (egress : Bool) (act : RegionFrame) (s : State) : Host.Outcome State Fault Refusal :=
  .next (
    if !egress || !s.tapActive port then s
    else match act, s.heldAt port with
      | .originate bs, _ => s.emit (.frame (s.subOf port) (s.originEncap (s.subOf port) bs) (sealFrame bs))
      | .pass, some (sub, e, b) => (s.takeHeld port).emit (.frame sub e (sealFrame b))
      | .change bs, some (sub, e, _) => (s.takeHeld port).emit (.frame sub e (sealFrame bs))
      | .drop, some _ => s.takeHeld port
      | _, none => s)

/-! ### Power (R388, Table CLA-8) -/

/-- PD11 goes down: the stream is aborted, running regions are isolated, the shell goes. -/
def State.claDown (s : State) : State :=
  let s1 := s.abortStream
  let s2 := ((List.range 8).filter (fun r => s1.regionState r == 3 || s1.regionState r == 2)).foldl (fun t r => t.setRegion r 5) s1
  let s3 := (s2.wr claStatusLoaded 0).stopDriving
  { s3 with cla := { s3.cla with loading := false, sending := false } }

/-- Every region is isolated: PD11 may be switched off (Table PWR-6). -/
def State.claIdle (s : State) : Bool :=
  (List.range 8).all (fun r => s.regionState r == 0 || s.regionState r == 4 || s.regionState r == 5)

end Sys2Proof.Machine
end

