-- ==== Sys2Proof/Machine/ResetRequest.lean ====
section
/-!
DEFINITION. Requesting a reset (R268, R274–R278, 12_hangs_fencing_and_recovery.md): domains, absorption, take-over, declaration, and the
fence's first two phases.
-/
namespace Sys2Proof

/-! ### Domains (Table HNG-3) -/

/-- Table HNG-4's DOMAIN code. -/
def RDom.code : RDom → Nat
  | .engine _ _ => 0
  | .part _ => 1
  | .device => 2
  | .cla _ => 3

def RDom.partNo : RDom → Nat
  | .engine p _ => p.val
  | .part p => p.val
  | _ => 0

/-- WHERE's [6:4] of Table HNG-4: the engine or the region. -/
def RDom.sub : RDom → Nat
  | .engine _ e => e.val
  | .cla r => r.val
  | _ => 0

/-- Size order: engine and region, partition, device. -/
def RDom.size : RDom → Nat
  | .engine _ _ => 1
  | .cla _ => 0
  | .part _ => 2
  | .device => 3

end Sys2Proof

namespace Sys2Proof.Machine

open Reg

/-- Domain `b` is `a`, or contains it. -/
def State.inside (s : State) (a b : RDom) : Bool :=
  a == b ||
  match a, b with
  | _, .device => true
  | .engine p _, .part q => p == q
  | .cla r, .part q => s.rd (claRegionPart r) == q.val
  | _, _ => false

/-- Partitions that a domain resets. -/
def State.partsOfDom (s : State) : RDom → List Nat
  | .part p => [p.val]
  | .device => s.parts
  | _ => []

/-! ### Sequences in progress -/

def State.setResets (s : State) (l : List ResetSeq) : State := { s with hang := { s.hang with resets := l } }

def State.findReset (s : State) (d : RDom) : Option ResetSeq := s.hang.resets.find? (fun r => r.dom == d)

def State.putReset (s : State) (r : ResetSeq) : State :=
  s.setResets (s.hang.resets.map (fun x => if x.dom = r.dom then r else x))

/-- The largest reset in progress. -/
def State.largestReset (s : State) : Option ResetSeq :=
  s.hang.resets.foldl (fun best r => match best with
    | some b => some (if b.dom.size < r.dom.size then r else b)
    | none => some r) none

/-- RST_STATUS. -/
def State.showReset (s : State) : State :=
  match s.largestReset with
  | none => (((s.wr rstStatusBusy 0).wr rstStatusPhase 0).wr rstStatusPart 0).wr rstStatusDomain 0
  | some r => (((s.wr rstStatusBusy 1).wr rstStatusPhase r.phase).wr rstStatusPart r.dom.partNo).wr rstStatusDomain r.dom.code

/-- A sequence enters a phase. -/
def State.toPhase (s : State) (r : ResetSeq) (n : Nat) : State :=
  (s.putReset { r with phase := n, since := s.tick }).showReset

/-! ### Declaration (R268) -/

/-- The trace record of a reset (Table TRC-2); a device reset concerns every partition. -/
def State.traceReset (s : State) (d : RDom) (cause : Nat) (done : Bool) : State :=
  let ps := match d with
    | .device => s.parts
    | .cla r => [s.rd (claRegionPart r)]
    | _ => [d.partNo]
  s.trace 0x0D 0 (d.code + 4 * d.partNo + 256 * cause + 65536 * done.toNat) none 0 ps

/-- The job faults of a reset: CAUSE 0x03, or 0x02 with its unit for an uncorrectable error (R160). -/
def State.declareReset (s : State) (d : RDom) (cause unit : Nat) : State :=
  let c := if cause = 4 then 2 else 3
  match d with
  | .part p => (s.jobsIn p).foldl (fun t j => t.declareFault c j p (if cause = 4 then unit else 0) none) s
  | .device => s.declareAll c s.jobs'
  | _ => s

/-! ### Fences -/

/-- The lists that a fence drains. -/
def State.fencedLists (s : State) (d : RDom) : List RunList :=
  match d with
  | .engine p e => s.lists.filter (fun l => s.partOf l == p.val && l.hdr.engine == e.val)
  | .part p => s.lists.filter (fun l => s.partOf l == p.val)
  | .device => s.lists
  | .cla _ => []

/-- The churn run that tests a die of these partitions aborts (R235). -/
def State.abortChurnOf (s : State) (ps : List Nat) : State :=
  match s.qtn.churn with
  | some c => if ps.any (fun p => c.parts.testBit p) then s.abortChurn else s
  | none => s

/-- Dies of these partitions no longer host shadows or arbiters. -/
def State.evictHosts (s : State) (ps : List Nat) : State := s.loseHosts (fun u => ps.contains (s.partOfDie (u / 168)))

/-- FAB_PORT_CFG of the ports that are up. -/
def State.portCfgs (s : State) : List (Nat × Word32) :=
  ((List.range 16).filter s.portUp).map (fun n => (fabPortCfg n, s.reg (fabPortCfg n)))

/-- A sequence begins: DECLARE and REFUSE, and then DRAIN; a region reset drains nothing. -/
def State.startReset (s : State) (d : RDom) (cause unit : Nat) : State :=
  let s1 := (s.traceReset d cause false).declareReset d cause unit
  let r : ResetSeq := { dom := d, phase := 3, cause := cause, drainEnd := s1.units + s1.rd hngFenceBudgetPhase, since := s1.tick,
                        started := s1.tick, mark := s.now, escalated := cause == 9, captured := false, slots := [],
                        ports := s1.portCfgs, next := none }
  let s2 := s1.setResets (s1.hang.resets ++ [r])
  let s3 := (s2.abortChurnOf (s2.partsOfDom d)).evictHosts (s2.partsOfDom d)
  let s4 := if d = .device then
      { (s3.wr sysStatusReady 0).wr hngStatusRecovering 1 with pwr := { s3.pwr with ready := false } }
    else s3
  s4.showReset

/-- R274: a request is absorbed by a reset in progress that contains it, takes over the smaller ones it contains at their
next phase boundary, or begins. Otherwise one of a partition that is absent does nothing. -/
def State.requestResetAt (s : State) (d : RDom) (cause unit : Nat) : State :=
  let gone := match d with
    | .engine p _ => !s.present p
    | .part p => !s.present p
    | _ => false
  if s.hang.resets.any (fun r => s.inside d r.dom || (match r.next with | some n => s.inside d n.1 | none => false)) then
    s.count rstAbsorbedCount 1
  else if gone then s
  else match s.hang.resets.find? (fun r => s.inside r.dom d) with
    | some r =>
      let s1 := (s.traceReset d cause false).declareReset d cause unit
      let s2 := s1.putReset { r with next := some (d, cause, s.now) }
      let s3 := s2.evictHosts (s2.partsOfDom d)
      if d = .device then { (s3.wr sysStatusReady 0).wr hngStatusRecovering 1 with pwr := { s3.pwr with ready := false } } else s3
    | none => s.startReset d cause unit

def State.requestReset (s : State) (d : RDom) (cause : Nat) : State := s.requestResetAt d cause 0

/-! ### Commands -/

/-- Whether a path may ask for a reset of a domain (R287). -/
def State.resetPath (s : State) (path : Path) (d : RDom) : Bool :=
  match path with
  | .mgmt => true
  | .debug => s.unlocked
  | .mctp => false
  | .pf f => s.presented f && (match d with
    | .device => false
    | .engine p _ => f.val == 0 || f.val == p.val
    | .part p => f.val == 0 || f.val == p.val
    | .cla _ => f.val == 0)

/-- CAUSE of a request on a path (Table HNG-7). -/
def pathCause : Path → Nat
  | .pf _ => 6
  | .debug => 8
  | _ => 7

def partFin (n : Nat) : Part := ⟨n % 4, Nat.mod_lt _ (by decide)⟩

/-- The domain that an RST_CTL value describes; none for an engine code that Table ENG-1 does not have. -/
def rstDomain (v : Nat) : Option RDom :=
  let p := partFin (bitsOf v 12 2)
  match bitsOf v 16 2 with
  | 0 => if h : bitsOf v 8 3 < 5 then some (.engine p ⟨bitsOf v 8 3, h⟩) else none
  | 1 => some (.part p)
  | 2 => some .device
  | _ => if h : bitsOf v 0 3 < 8 then some (.cla ⟨bitsOf v 0 3, h⟩) else none

/-- A device reset asked for in the safe state: refused after a failure in W1 or W2 (R296). During the wake of a device reset every
request is absorbed by that (R274). -/
def State.resetAllowed (s : State) (d : RDom) : Bool :=
  s.pwr.aon && (!s.pwr.safe || (d == .device && decide (3 ≤ s.pwr.safeStep))) &&
  (s.pwr.wake.isNone || s.hang.waiting || (s.findReset .device).isSome)

/-- A write of RST_CTL with GO = 1. -/
def State.writeRstCtl (s : State) (path : Path) (v : Nat) : State :=
  if bitsOf v 31 1 = 0 then s
  else match rstDomain v with
    | some d =>
      if !s.resetPath path d || !s.resetAllowed d then s
      else s.requestReset d (pathCause path)
    | none => s

end Sys2Proof.Machine
end

