-- ==== Sys2Proof/Machine/Ecc.lean ====
section
/-!
DEFINITION. Corrected and uncorrectable errors, row retirement and scrubbing (R157, R160–R164, R455, 07_memory_and_addressing.md).
-/
namespace Sys2Proof.Machine

open Reg

/-! ### Lines and rows (R455) -/

/-- Lines of a pseudo-channel. -/
def chanLines : Nat := 9437184

def bankOf (n : Nat) : Nat := n / 16 % 64

def rowOf (n : Nat) : Nat := n / 1024

/-- The line number of a physical HBM byte within its pseudo-channel. -/
def lineNo (k : Nat) : Nat := k % (147456 * 4096) / 64

/-- The first physical byte of line `n` of pseudo-channel `c`. -/
def lineKey (c n : Nat) : Nat := hbmKey c 0 0 + n * 64

/-- The partition offset of line `n` of channel `c`; none for a channel outside the list. -/
def State.offsetOf (s : State) (c n : Nat) : Option Nat :=
  let l := s.chanList (s.partOfChan c)
  if l.contains c then some ((n / 64 * l.length + l.idxOf c) * 4096 + n % 64 * 64) else none

/-! ### Row retirement (R162, R163) -/

/-- Controller spare rows of a stack in use. -/
def State.remapsOf (s : State) (h : Nat) : Nat := (s.mem.remaps.filter (fun r => r.chan / 64 == h)).length

def State.showRemaps (s : State) (h : Nat) : State := s.wr (hbmStatusRemapUsed h) (s.remapsOf h)

/-- KIND_DATA of a MEMORY record (Table QTN-7). -/
def State.memoryData (s : State) (h : Nat) (off : Nat) : List (Nat × List Byte) :=
  [(152, leBytes 4 (s.reg (hbmUeLoc h)).toNat), (156, leBytes 4 (s.reg (hbmUeRow h)).toNat), (160, leBytes 8 off)]

/-- A row is entered for retirement; `cause`: an uncorrectable error. With no spare row free, its pseudo-channel goes to
quarantine. -/
def State.retireRow (s : State) (c bank row : Nat) (cause : Bool) : State :=
  let h := c / 64
  if s.mem.remaps.any (fun r => r.chan == c && r.bank == bank && r.row == row) then s
  else if s.remapsOf h < 64 then
    let x : RowCopy := ⟨c, bank, row⟩
    let e : RowEntry := { chan := c, bank := bank, row := row, cause := cause, applied := false }
    { s with mem := { s.mem with remaps := s.mem.remaps ++ [e], copies := s.mem.copies ++ [x] } }.showRemaps h
  else
    let s1 := s.event (hbmEventRemapFull h)
    s1.finding 0x04 2 [1344 + c] (fun _ => s1.memoryData h ((s1.offsetOf c (row * 1024 + bank * 16)).getD 0)) []

/-- Entries of copied rows join the row retirement list in MRAM, as soon as firmware can write it (R162, R272). -/
def State.listRows (s : State) : State :=
  if s.mramOk then
    { s with mram := { s.mram with rows := s.mram.rows ++ s.mem.unlisted }, mem := { s.mem with unlisted := [] } }
  else s

/-- ROW_REMAP_COPY_DONE (R162): the copy of a row ends, and its entry joins the list in MRAM. -/
def execRowRemapCopyDone (h : Stack) (ch : Fin 64) (bank row : Nat) (s : State) : Host.Outcome State Fault Refusal :=
  let c := h.val * 64 + ch.val
  let x : RowCopy := ⟨c, bank, row⟩
  .next (
    if !s.mem.copies.contains x then s
    else
      let s1 := { s with mem := { s.mem with copies := s.mem.copies.erase x } }.event (hbmEventRetire h)
      match s1.mem.remaps.find? (fun r => r.chan == c && r.bank == bank && r.row == row) with
      | some e => { s1 with mem := { s1.mem with unlisted := s1.mem.unlisted ++ [e] } }.listRows
      | none => s1)

/-! ### Corrected errors (R157) -/

/-- A corrected error in line `n` of channel `c`. -/
def State.correctedHbm (s : State) (c n : Nat) : State :=
  let h := c / 64
  let key := (c * 64 + bankOf n) * 16384 + rowOf n
  let k := s.mem.rowCe.get (fun _ => 0) key + 1
  let s1 := ((s.count (hbmCeTotalCount h) 1).count (hbmCeChCount h (c % 64)) 1).event (hbmEventCe h) |>.recordCe h
  let s2 := { s1 with mem := { s1.mem with rowCe := s1.mem.rowCe.set (fun _ => 0) key k } }.countEs (c / 128) 0x0B none 1
  let t := s.rd (hbmRetireCfgCeThresh h)
  if t ≠ 0 ∧ t ≤ k then s2.retireRow c (bankOf n) (rowOf n) false else s2

/-! ### Uncorrectable errors (R160, R161) -/

/-- Steps 3 and 4 for an HBM line: logged, reported, and the partition reset unless the line is reserved. -/
def State.reportHbm (s : State) (c n : Nat) (scrub : Bool) : State :=
  let h := c / 64
  let p := s.partOfChan c
  let off := (s.offsetOf c n).getD 0
  let reserved := decide (s.limitOf p * 4096 ≤ off)
  let s1 := ((s.count (hbmUeTotalCount h) 1).event (hbmEventUe h)).wr64 (hbmUeAddrLoAddr h) (hbmUeAddrHiAddr h) off
  let s2 := (((s1.wr (hbmUeLocScrub h) scrub.toNat).wr (hbmUeLocRegion h) reserved.toNat).wr (hbmUeLocBank h) (bankOf n)).wr
    (hbmUeLocCh h) (c % 64)
  let s3 := (s2.wr (hbmUeRowRow h) (rowOf n)).report 3
  let s4 := s3.finding 0x04 0 [1344 + c] (fun _ =>
    s3.memoryData h off ++ (if scrub then [] else [(100, leBytes 4 0x0301)])) []
  if reserved then s4 else s4.requestResetAt (.part (partFin p)) 4 (unitWord (1344 + c))

/-- Steps 3 and 4 for a scratchpad word of cluster `u` at device address `a`: the cluster is quarantined, and its
partition reset. -/
def State.reportScratch (s : State) (u a : Nat) : State :=
  let p := s.partOfDie (u / 168)
  let jobs := s.jobsIn p
  let s1 := (s.report 3).requestResetAt (.part (partFin p)) 4 (unitWord u)
  s1.finding 0x04 2 [u] (fun _ => [(100, leBytes 4 0x0302), (160, leBytes 8 (a % 2 ^ 60))]) jobs

/-- The pseudo-channel and line number of a physical HBM line, or the cluster of a scratchpad line. -/
def hbmLine (line : Nat) : Option (Nat × Nat) := if line < 2 ^ 34 then some (line / chanLines, line % chanLines) else none

def clusterOfLine (line : Nat) : Nat := (line - 2 ^ 34) / 8192

/-- The device address of a scratchpad line, by the logical cluster that its physical cluster serves. -/
def State.scratchAddr (s : State) (line : Nat) : Nat :=
  let u := clusterOfLine line
  2 ^ 60 + u / 168 * 2 ^ 28 + (s.qtn.path.entry u).lc * 2 ^ 20 + (line - 2 ^ 34) % 8192 * 64

/-- A corrected error is counted (R157). -/
def State.correct (s : State) (line : Nat) : State :=
  match hbmLine line with
  | some (c, n) => s.correctedHbm c n
  | none => s.countCl (clusterOfLine line) 0x0B none 1

/-- Step 1 of R160: the row of an HBM line is entered for retirement. -/
def State.enterRow (s : State) (line : Nat) : State :=
  match hbmLine line with
  | some (c, n) => s.retireRow c (bankOf n) (rowOf n) true
  | none => s

/-- Steps 3 and 4 of R160, or R161. -/
def State.reportError (s : State) (x : FoundError) : State :=
  match hbmLine x.line with
  | some (c, n) => s.reportHbm c n x.scrub
  | none => s.reportScratch (clusterOfLine x.line) (s.scratchAddr x.line)

/-- The list that consumed the line has not ended. -/
def State.ownerRuns (s : State) (x : FoundError) : Bool :=
  match x.owner with
  | some (q, d) => (s.findList q d).isSome
  | none => false

/-- The first of the errors met with an effect that is due: a corrected one, one whose row is not entered, or one whose
consumer has ended. -/
def State.dueError (s : State) : Option FoundError :=
  s.mem.found.find? (fun x => x.corrected || !x.entered || !s.ownerRuns x)

def State.dropFound (s : State) (x : FoundError) : State := { s with mem := { s.mem with found := s.mem.found.erase x } }

def State.handleErrorsN (s : State) : Nat → State
  | 0 => s
  | n + 1 =>
    match s.dueError with
    | none => s
    | some x =>
      if x.corrected then ((s.dropFound x).correct x.line).handleErrorsN n
      else if !x.entered then
        ({ s with mem := { s.mem with found := s.mem.found.map (fun y => if y = x then { y with entered := true } else y) } }.enterRow
          x.line).handleErrorsN n
      else ((s.dropFound x).reportError x).handleErrorsN n

/-- R157, R160, R161: what follows of every error that has been met. The list that consumed a line ends before the report and
the reset (R160). -/
def State.handleErrors (s : State) : State := s.handleErrorsN (2 * (s.mem.found.length + s.mem.flaws.length))

/-! ### The syntax buffer (R403) -/

/-- Bytes of the on-chip syntax buffer. -/
def syntaxBuffer : Nat := 4 * 2 ^ 20

/-- The entropy engine of session `n` writes what fits: to the buffer, which all sessions share, then to the session's spill area.
The spill traffic carries TILE 0xF_FFFF (R402). -/
def State.parse (s : State) (n : Nat) : State :=
  match s.sess n with
  | some x =>
    if x.unparsed = [] then s
    else
      let room := syntaxBuffer - (s.media.map (fun e => e.2.elim 0 (fun y => y.chip.length))).sum
      let rest := x.unparsed.drop room
      let out := rest.take (field x.desc 40 4 - x.spilled)
      let s1 := s.setSess n (some { x with chip := x.chip ++ x.unparsed.take room, spilled := x.spilled + out.length,
                                           unparsed := rest.drop out.length })
      match x.busy.head?.bind (fun e => s.findList e.1 e.2) with
      | some l => if out = [] then s1 else s1.jobStore l (s.listTag l) false (field x.desc 32 8 + x.spilled) out
      | none => s1
  | none => s

/-- Every entropy engine that waits for space takes what has become free. -/
def State.parseAll (s : State) : State := s.media.foldl (fun t e => t.parse e.1) s

/-- How a command ends that may have read memory or sent frames: lists that have ended leave, entropy engines go on, errors met have their effects, and the
fabric ports send what waits there. Within the time that a command stands for, a port sends all of it (log entry 27). -/
def State.wrapUp (s : State) : State := s.settle.parseAll.handleErrors.drainEgress

/-! ### Scrubbing (R164) -/

/-- SCRUB_READ: the next line of a pseudo-channel is read, every INTERVAL beat ticks. -/
def execScrubRead (h : Stack) (ch : Fin 64) (errors : Nat) (s : State) : Host.Outcome State Fault Refusal :=
  let c := h.val * 64 + ch.val
  let x := s.chanSt c
  .next (
    if !s.on (hbmScrubCfgEn h) || !s.scrubbed c || decide (s.tick < x.scrubbed + Nat.max 1 (s.rd (hbmScrubCfgInterval h))) then s
    else
      let last := decide (chanLines ≤ x.scrub + 1)
      let s1 := s.setChan c { scrub := if last then 0 else x.scrub + 1, scrubbed := s.tick, wrapped := x.wrapped || last }
      let s2 := ((s1.strike [⟨.hbm h ch x.scrub, errors⟩]).meet (lineKey c x.scrub / 64) true none).handleErrors
      s2.endPass h).wrapUp

end Sys2Proof.Machine
end

