-- ==== Sys2Proof/Machine/Validate.lean ====
section
/-!
DEFINITION. Operands of an instruction, and the causes for which it is illegal (R115–R124, R142, Table INS-8,
06_instruction_reference.md).
-/
namespace Sys2Proof.Machine

open Reg

/-! ### Fields (Tables INS-1, INS-3) -/

/-- Every O-form field of an instruction word. -/
def fAsa (w : Nat) : Nat := bitsOf w 16 4
def fAsb (w : Nat) : Nat := bitsOf w 20 4
def fAsc (w : Nat) : Nat := bitsOf w 24 4
def fAsd (w : Nat) : Nat := bitsOf w 28 4
def fAse (w : Nat) : Nat := bitsOf w 32 4
def fAsf (w : Nat) : Nat := bitsOf w 36 4
def fAsg (w : Nat) : Nat := bitsOf w 40 4
def fFmtA (w : Nat) : Nat := bitsOf w 44 4
def fFmtB (w : Nat) : Nat := bitsOf w 48 4
def fFmtC (w : Nat) : Nat := bitsOf w 52 4
def fRnd (w : Nat) : Nat := bitsOf w 56 2
def fBase (w : Nat) : Nat := bitsOf w 64 20
def fMod (w : Nat) : Nat := bitsOf w 8 8
/-- EXT: bits [127:84], numbered from the instruction's bit `lo`. -/
def fExt (w lo n : Nat) : Nat := bitsOf w lo n

/-- I-form fields; `fImm w lo n` numbers bits of IMM44 from 0. -/
def fSlot (w : Nat) : Nat := bitsOf w 16 4
def fImm (w lo n : Nat) : Nat := bitsOf w (20 + lo) n
def fImm64 (w : Nat) : Nat := bitsOf w 64 64

/-- Bit places (low bit, width) of the fields an instruction may use. -/
abbrev Uses := List (Nat × Nat)

def uAsa : Nat × Nat := (16, 4)
def uAsb : Nat × Nat := (20, 4)
def uAsc : Nat × Nat := (24, 4)
def uAsd : Nat × Nat := (28, 4)
def uAse : Nat × Nat := (32, 4)
def uAsf : Nat × Nat := (36, 4)
def uAsg : Nat × Nat := (40, 4)
def uFmtA : Nat × Nat := (44, 4)
def uFmtB : Nat × Nat := (48, 4)
def uFmtC : Nat × Nat := (52, 4)
def uRnd : Nat × Nat := (56, 2)
def uBase : Nat × Nat := (64, 20)

/-- Some bit outside the opcode and the fields used is set (R115; DETAIL 0x0202). -/
def leftover (w : Nat) (used : Uses) : Bool :=
  used.foldl (fun v u => setBits v u.1 u.2 0) (setBits w 0 8 0) != 0

/-- A field if a condition holds. -/
def useIf (b : Bool) (u : Nat × Nat) : Uses := if b then [u] else []

/-- The 64-bit value of address slot `n` (R113). -/
def RunList.slot (l : RunList) (n : Nat) : Nat := l.as'.getD n 0

/-! ### Formats and multiples (R82, R91, R130) -/

/-- A reserved format code. -/
def badFmt (c : Nat) : Bool := decide (0xC ≤ c)

/-- The multiple that a count of elements in these formats must meet. -/
def countMultiple (a b : Nat) : Nat :=
  if isMx a || isMx b then 32 else if isKb8 a || isKb8 b then 16 else if a == 0 || b == 0 then 2 else 1

/-- A multiple rule broken; zero counts under another cause. -/
def offMultiple (n m : Nat) : Bool := n != 0 && n % m != 0

/-- An output format that an accumulator of the class writes (R85, R133). -/
def outOk (int : Bool) (fmt : Nat) : Bool := isInt fmt == int

/-! ### Ranges (R117, R118) -/

/-- An operand range: its first byte, and its bytes up to the last of its last row. -/
structure Range where
  base : Nat
  len : Nat
  deriving DecidableEq, Repr

/-- A range of rows. -/
def rowsRange (base rows pitch bytes : Nat) : Range := ⟨base, if rows = 0 then 0 else (rows - 1) * pitch + bytes⟩

/-- The range lies within memory of space 0x0, 0x1, 0x2 or 0x4 that the list's partition may name. -/
def State.reachable (s : State) (p : Nat) (spaces : List Nat) (r : Range) : Bool :=
  let x := r.base % 2 ^ 60
  let sp := r.base / 2 ^ 60
  decide (r.len = 0) ||
  (spaces.contains sp &&
    match sp with
    | 0 => decide (x + r.len ≤ s.limitOf p * 4096)
    | 1 => bitsOf x 30 30 == 0 && bitsOf x 19 1 == 0 && decide (bitsOf x 20 8 < 160) && s.partOfDie (bitsOf x 28 2) == p &&
        decide (x % 2 ^ 20 + r.len ≤ 2 ^ 19)
    | 2 => decide (x + r.len ≤ 2 ^ 60)
    | 4 => bitsOf x 59 1 == 0 && decide (x % 2 ^ 40 + r.len ≤ 2 ^ 40)
    | _ => false)

/-- Spaces of the operands of R117's first kind, and of all others. -/
def localSpaces : List Nat := [0, 1]
def allSpaces : List Nat := [0, 1, 2, 4]

/-- An operand that is misaligned or out of reach (DETAIL 0x0206). -/
def State.badRange (s : State) (l : RunList) (spaces : List Nat) (align : Nat) (r : Range) : Bool :=
  r.base % align != 0 || !s.reachable (s.partOf l) spaces r

/-- Two ranges share a byte. -/
def Range.meets (a b : Range) : Bool :=
  decide (0 < a.len) && decide (0 < b.len) && decide (a.base < b.base + b.len) && decide (b.base < a.base + a.len)

/-- An output range meets an input range (DETAIL 0x0207). -/
def overlaps (outs ins : List Range) : Bool := outs.any (fun o => ins.any (fun i => o.meets i))

/-- The alignment of a vector, CONVERT or collective operand. -/
def vecAlign (fmt : Nat) : Nat := if isKb8 fmt then 2 else 1

/-! ### Tiles (R121, R122, R124) -/

/-- Groups of `k` among `n`. -/
def groups (n k : Nat) : Nat := (n + k - 1) / k

/-- TILE_BASE and `n` tiles pass the last number that R122 allows (DETAIL 0x0208). -/
def badTiles (w n : Nat) : Bool := decide (0xFFFFE < fBase w + (n - 1))

/-- A tile before any STEP (DETAIL 0x0209). -/
def noStep (l : RunList) : Bool := l.step.isNone

/-- The target list of R124: dies ascending, clusters ascending. -/
def targets (h : Header) : List (Nat × Nat) :=
  ((List.range 4).filter (fun d => h.dies.testBit d)).flatMap (fun d => (List.range h.lcCount).map (fun i => (d, h.lcFirst + i)))

/-- The die and logical cluster that tile `t` runs on. -/
def targetOf (h : Header) (t : Nat) : Option (Nat × Nat) :=
  let ts := targets h
  ts[t % ts.length]?

/-- The tag of tile `t` of an O-form instruction. -/
def State.tileTag (s : State) (l : RunList) (w t fmt : Nat) : Word64 :=
  tagOf l.hdr.job (l.step.getD 0) (fBase w + t) fmt 0 (s.classOf l.queue) (s.partOf l)

/-! ### Asking host and remote memory (R152, R153) -/

/-- The aligned 4 KiB pieces of a range. -/
def pieces (a n size : Nat) : List (Nat × Nat) :=
  if n = 0 then []
  else (List.range ((a + n - 1) / size - a / size + 1)).map (fun i =>
    let lo := Nat.max a ((a / size + i) * size)
    (lo, Nat.min (a + n) ((a / size + i + 1) * size) - lo))

/-- What a reader of partition `q` answers for `n` bytes of its memory from another partition of this device: each byte that
cannot be read reads as failed (R153, R160). -/
def State.loopback (s : State) (q off n : Nat) : List (Option Byte) :=
  (List.range n).map (fun i => match s.readByte q false (off + i) with
    | some (b, none) => some b
    | _ => none)

/-- A read of another device's memory goes out as READ_REQs; one of this device's own partitions is served at once as a
space-0x0 request of that partition, if it accepts it (R153). -/
def State.askRemote (s : State) (l : RunList) (tag : Word64) (a n : Nat) : State :=
  let dev := bitsOf a 42 17
  let q := bitsOf a 40 2
  if !s.on fabDevIdValid then s
  else if s.ownId dev then
    (match s.acceptCode q tag with
    | 0 =>
      let t := s.touch q false none (a % 2 ^ 40) n
      { t with mem := { t.mem with ext := putAnswers t.mem.ext a (s.loopback q (a % 2 ^ 40) n) } }
    | c =>
      let t := s.countReject c
      { t with mem := { t.mem with ext := putAnswers t.mem.ext a (List.replicate n none) } })
  else
    (pieces a n 4080).foldl (fun t x =>
      let r : RemRead := { conn := 2 ^ 32, off := x.1 % 2 ^ 40, len := x.2, addr := x.1, queue := l.queue, desc := l.desc }
      { t with link := { t.link with reads := t.link.reads ++ [r] } }.sendOp (s.partOf l) dev q (s.classOf l.queue)
        (frameOf (.readReq (x.1 % 2 ^ 40) x.2) tag false (some (l.queue, l.desc)))) s

/-- Of these ranges, those that lie in host or remote memory. -/
def farRanges (rs : List Range) : List Range :=
  rs.filter (fun r => decide (0 < r.len) && (r.base / 2 ^ 60 == 2 || r.base / 2 ^ 60 == 4))

/-- A tile of the instruction asks for every byte of its source ranges that lies in host or remote memory. -/
def State.ask (s : State) (l : RunList) (tag : Word64) (rs : List Range) : State :=
  let far := farRanges rs
  let s1 := match s.findList l.queue l.desc with
    | some k => s.setList { k with asks := k.asks ++ far.map (fun r => (r.base, r.len)) }
    | none => s
  far.foldl (fun t r =>
    if r.base / 2 ^ 60 = 2 then
      (if t.hostOk (t.partOf l) then
        t.readHost (t.partOf l) r.base r.len
      else t)
    else t.askRemote l tag r.base r.len) s1

/-- The instruction issues `n` tiles with this FMT in their tags; each asks for its far sources with a tag of its own (R119). -/
def State.issue (s : State) (l : RunList) (w n fmt : Nat) (all : List Range) (srcs : Nat → List Range) : State :=
  let s1 := s.setList { l with work := .tiles, total := n, done := [] }
  if farRanges all = [] then s1
  else (List.range n).foldl (fun t i => t.ask l (t.tileTag l w i fmt) (srcs i)) s1

/-- The current instruction completes. -/
def State.finish (s : State) (l : RunList) (last : Bool) : State :=
  match s.findList l.queue l.desc with
  | some k => s.completeInstr k last
  | none => s

/-! ### Running an instruction -/

/-- R112, R142: an instruction row. The list `r` runs the instruction it has fetched if that is one of opcode `op`:
with a cause of Table INS-8 it ends illegal, else `run` gives its effect. -/
def State.instr (s : State) (r : ListRef) (op : Nat) (illegal : RunList → Nat → List (Bool × Nat))
    (run : State → RunList → Nat → State) : State :=
  match s.ready r op with
  | none => s
  | some (l, w) =>
    let s1 := s.startInstr l w
    match lowest (illegal l w) with
    | some d => s1.endWith l 0x22 d
    | none => run s1 l w

end Sys2Proof.Machine
end

