-- ==== Sys2Proof/Machine/Control.lean ====
section
/-!
DEFINITION. The control, synchronisation, tag and beat instructions: NOP to STAMP but for the heavy ones, SETSHAPE, and the
releases of beat waits (R112–R129, 06_instruction_reference.md).
-/
namespace Sys2Proof.Machine

open Reg

/-! ### Shared effects -/

/-- The current instruction of `l` becomes complete, the list's private state being that of `l`. -/
def State.finishAs (s : State) (l : RunList) : State := (s.setList l).finish l false

/-- The current instruction stores bytes, and completes once every store over the fabric is acknowledged. -/
def State.storeInstr (s : State) (l : RunList) (a : Nat) (bs : List Byte) : State :=
  ((s.setList { l with work := .remote }).jobStore l (s.listTag l) false a bs).advance

/-- A request goes to another device for the list, whose instruction waits for its acknowledgement. -/
def State.sendInstr (s : State) (l : RunList) (dev q : Nat) (op : KftOp) : State :=
  ((s.setList { l with work := .remote }).sendOp (s.partOf l) dev q (s.classOf l.queue)
    (frameOf op (s.listTag l) false (some (l.queue, l.desc)))).advance

/-- A remote request fails for want of a device ID (R153, R183). -/
def State.failInstr (s : State) (l : RunList) : State :=
  ((s.setList { l with work := .remote }).addFault l.queue l.desc 0x0306).advance

/-! ### Control -/

/-- NOP. -/
def execNop (r : ListRef) (s : State) : Host.Outcome State Fault Refusal :=
  .next (s.instr r 0x00 (fun _ w => [(leftover w [], 0x0202)]) (fun t l _ => t.finish l false)).wrapUp

/-- END (R114). -/
def execEndList (r : ListRef) (s : State) : Host.Outcome State Fault Refusal :=
  .next (s.instr r 0x01 (fun _ w => [(leftover w [], 0x0202)]) (fun t l _ => t.finish l true)).wrapUp

/-- SETADDR: loads an address slot, or adds to it modulo 2⁶⁴. -/
def execSetaddr (r : ListRef) (s : State) : Host.Outcome State Fault Refusal :=
  .next (s.instr r 0x02 (fun _ w => [(leftover w [(8, 1), (16, 4), (64, 64)], 0x0202)])
    (fun t l w =>
      let v := if bitsOf w 8 1 = 1 then (l.slot (fSlot w) + fImm64 w) % 2 ^ 64 else fImm64 w
      t.finishAs { l with as' := l.as'.set (fSlot w) v })).wrapUp

/-- WRITE: eight bytes at AS[SLOT]. -/
def execWrite (r : ListRef) (s : State) : Host.Outcome State Fault Refusal :=
  .next (s.instr r 0x03 (fun l w => [
      (leftover w [(16, 4), (64, 64)], 0x0202),
      (s.badRange l allSpaces 8 ⟨l.slot (fSlot w), 8⟩, 0x0206)])
    (fun t l w => t.storeInstr l (l.slot (fSlot w)) (leBytes 8 (fImm64 w)))).wrapUp

/-- What an ENQUEUE refused for a full ring writes to the attempting list's ring (R61, R99, R125). -/
def State.enqueueRefused (s : State) (l : RunList) (w : Nat) : State :=
  s.refuseRecord l.queue { desc := l.desc % s.ringCap l.queue, status := 0x10, engine := l.hdr.engine, tail16 := 0,
                           job := l.hdr.job, detail := 0, instr := l.idx, cookie := bitsOf w 64 32, irq := false }

/-- An ENQUEUE to queue `q` of this device. -/
def State.enqueueHere (s : State) (l : RunList) (w q : Nat) : State :=
  if s.takesPost q then s.post q (bitsOf w 64 32) (l.slot (fSlot w)) else s.enqueueRefused l w

/-- A request that the target partition rejects under R185, or serves (R153). -/
def State.ifAccepted (s : State) (q : Nat) (tag : Word64) (f : State → State) : State :=
  match s.acceptCode q tag with
  | 0 => f s
  | c => s.countReject c

/-- ENQUEUE (R125). The partition of a remote queue is that of this device's own mode (log entry 14). The range of a local CL_ADDR
that R117 checks is taken as the list's 64-byte header (DESIGN CHOICE, log entry 124). -/
def execEnqueue (r : ListRef) (s : State) : Host.Outcome State Fault Refusal :=
  .next (s.instr r 0x04 (fun l w =>
      let remote := fImm w 23 1 == 1
      let a := l.slot (fSlot w)
      [(leftover w ([(16, 4), (20, 6), (43, 1), (64, 32)] ++ useIf remote (26, 17)), 0x0202),
       (if remote then a % 64 != 0 || !(a / 2 ^ 60 == 0 || a / 2 ^ 60 == 2) else s.badRange l allSpaces 64 ⟨a, 64⟩, 0x0206),
       (!remote && s.partOfQueue (fImm w 0 6) != s.partOf l, 0x020D)])
    (fun t l w =>
      let q := fImm w 0 6
      let dev := fImm w 6 17
      if fImm w 23 1 = 0 then (t.enqueueHere l w q).finish l false
      else if !t.on fabDevIdValid then t.failInstr l
      else if t.ownId dev then
        (t.ifAccepted (t.partOfQueue q) (t.listTag l) (fun u => u.enqueueHere l w q)).finish l false
      else t.sendInstr l dev (t.partOfQueue q) (.enqueue q (bitsOf w 64 32) (l.slot (fSlot w))))).wrapUp

/-! ### Sync objects -/

/-- The job has raised a sync object since its last seal (R251). -/
def State.noteRaised (s : State) (p n job : Nat) : State :=
  if s.raised.contains (p * 4096 + n, job) then s else { s with raised := (p * 4096 + n, job) :: s.raised }

/-- A signal of a list to object `n` of partition `p` of this device: an addition, or with MAX a raise. -/
def State.signalBy (s : State) (p n job : Nat) (max : Bool) (v : Nat) : State :=
  let s1 := s.noteRaised p n job
  if max then s1.signalMax p n v else s1.signalAdd p n v

/-- SIGNAL (R126). -/
def execSignal (r : ListRef) (s : State) : Host.Outcome State Fault Refusal :=
  .next (s.instr r 0x10 (fun _ w => [(leftover w [(8, 1), (20, 12), (64, 64)], 0x0202)])
    (fun t l w => (t.signalBy (t.partOf l) (fImm w 0 12) l.hdr.job (bitsOf w 8 1 == 1) (fImm64 w)).finish l false)).wrapUp

/-- WAIT (R126). -/
def execWait (r : ListRef) (s : State) : Host.Outcome State Fault Refusal :=
  .next (s.instr r 0x11 (fun _ w => [(leftover w [(20, 12), (64, 64)], 0x0202)])
    (fun t l w =>
      if fImm64 w ≤ t.syncVal (t.partOf l) (fImm w 0 12) then t.finish l false
      else t.setList { l with work := .waitSync (fImm w 0 12) (fImm64 w) })).wrapUp

/-- RSIGNAL (R127). One to another partition of the device that is fenced has no effect (R276). -/
def execRsignal (r : ListRef) (s : State) : Host.Outcome State Fault Refusal :=
  .next (s.instr r 0x12 (fun _ w =>
      [(leftover w ([(8, 1), (20, 12), (49, 2), (51, 1), (64, 64)] ++ useIf (fImm w 31 1 == 1) (32, 17)), 0x0202)])
    (fun t l w =>
      let n := fImm w 0 12
      let dev := fImm w 12 17
      let p := fImm w 29 2
      let max := bitsOf w 8 1 == 1
      if fImm w 31 1 = 0 then
        (if t.present p && (p == t.partOf l || !t.fenced p) then (t.signalBy p n l.hdr.job max (fImm64 w)).finish l false
        else t.finish l false)
      else if !t.on fabDevIdValid then t.failInstr l
      else if t.ownId dev then
        (t.ifAccepted p (t.listTag l) (fun u => u.signalBy p n l.hdr.job max (fImm64 w))).finish l false
      else t.sendInstr l dev p (if max then .signalMax n (fImm64 w) else .signal n (fImm64 w)))).wrapUp

/-! ### STEP and TMARK -/

/-- R120: the STEP is out of order, or gives a step another boundary. -/
def State.badStep (s : State) (job step bound : Nat) : Bool :=
  match s.steps.get (fun _ => none) job with
  | some x => decide (step < x.step) || (step == x.step && bound != x.boundary)
  | none => false

/-- A boundary joins those that a wheel waits for, in order (R199). -/
def insertBound : List Nat → Nat → List Nat
  | [], b => [b]
  | x :: l, b => if b < x then b :: x :: l else x :: insertBound l b

/-- R199: a STEP that raises the job's highest step on the partition qualifies, and its boundary goes to the wheel. -/
def State.qualify (s : State) (p job step bound : Nat) : State :=
  let k := p * 65536 + job
  if step < s.partSteps.get (fun _ => 0) k then s
  else
    let s1 := { s with partSteps := s.partSteps.set (fun _ => 0) k (step + 1) }
    s1.setWheel p { s1.wheel p with bounds := insertBound (s1.wheel p).bounds bound }

/-- The job's highest step on the device (R120). -/
def State.raiseStep (s : State) (job step bound : Nat) : State :=
  match s.steps.get (fun _ => none) job with
  | some x =>
    if x.step < step then
      { s with steps := s.steps.set (fun _ => none) job (some ⟨step, bound, (x.step, x.boundary) :: x.past⟩) }
    else s
  | none => { s with steps := s.steps.set (fun _ => none) job (some ⟨step, bound, []⟩) }

/-- STEP (R120). -/
def execStep (r : ListRef) (s : State) : Host.Outcome State Fault Refusal :=
  .next (s.instr r 0x80 (fun l w => [
      (leftover w [(20, 44), (64, 64)], 0x0202),
      (s.badStep l.hdr.job (fImm w 0 44) (fImm64 w), 0x0209)])
    (fun t l w =>
      ((t.raiseStep l.hdr.job (fImm w 0 44) (fImm64 w)).qualify (t.partOf l) l.hdr.job (fImm w 0 44) (fImm64 w)).finishAs
        { l with step := some (fImm w 0 44) })).wrapUp

/-- TMARK (R124, Table TRC-2). -/
def execTmark (r : ListRef) (s : State) : Host.Outcome State Fault Refusal :=
  .next (s.instr r 0x81 (fun _ w => [(leftover w [(64, 64)], 0x0202)])
    (fun t l w => (t.trace 0x07 (traceUnit 3 l.queue) l.idx (some (t.listTag l)) (fImm64 w) [t.partOf l]).finish l false)).wrapUp

/-! ### Beat instructions -/

/-- The mark of a WAITBEAT or SETMARK. -/
def markOf (w : Nat) : Mark := ⟨fImm64 w, fImm w 0 16⟩

/-- WAITBEAT (R128). -/
def execWaitbeat (r : ListRef) (s : State) : Host.Outcome State Fault Refusal :=
  .next (s.instr r 0x90 (fun _ w => [(leftover w [(20, 16), (64, 64)], 0x0202)])
    (fun t l w => if t.reached (markOf w) then t.finish l false else t.setList { l with work := .waitBeat (markOf w) })).wrapUp

/-- WAITTICKS (R128). -/
def execWaitticks (r : ListRef) (s : State) : Host.Outcome State Fault Refusal :=
  .next (s.instr r 0x91 (fun _ w => [(leftover w [(64, 64)], 0x0202)])
    (fun t l w => if fImm64 w = 0 then t.finish l false else t.setList { l with work := .waitTicks (t.tick + fImm64 w) })).wrapUp

/-- SETMARK (R129). -/
def execSetmark (r : ListRef) (s : State) : Host.Outcome State Fault Refusal :=
  .next (s.instr r 0x92 (fun _ w =>
      [(leftover w [(16, 4), (20, 16), (64, 64)] || decide (4 ≤ fSlot w), 0x0202)])
    (fun t l w => t.finishAs { l with ms := l.ms.set (fSlot w) (markOf w) })).wrapUp

/-- The 16 bytes of STAMP (R129). -/
def State.stampBytes (s : State) : List Byte :=
  leBytes 8 s.beat.num ++ leBytes 2 s.beat.phase ++ leBytes 1 (s.rd beatStatusState) ++
  leBytes 1 (s.rd beatStatusNumValid) ++ leBytes 4 0

/-- STAMP (R129). -/
def execStamp (r : ListRef) (s : State) : Host.Outcome State Fault Refusal :=
  .next (s.instr r 0x93 (fun l w => [
      (leftover w [(16, 4)], 0x0202),
      (s.badRange l allSpaces 16 ⟨l.slot (fSlot w), 16⟩, 0x0206)])
    (fun t l w => t.storeInstr l (l.slot (fSlot w)) t.stampBytes)).wrapUp

/-- A running list whose wait `due` says is over. -/
def State.release (s : State) (r : ListRef) (due : Work → Bool) : State :=
  match s.findList r.queue.val r.desc with
  | some l => if l.running && l.ending.isNone && due l.work then (s.finish l false).settle else s
  | none => s

/-- WAITBEAT_RELEASE (R128): the local mark has reached the mark that the list waits for. -/
def State.releaseWait (s : State) (r : ListRef) : State :=
  s.release r (fun k => match k with | .waitBeat m => s.reached m | _ => false)

def execWaitbeatRelease (r : ListRef) (s : State) : Host.Outcome State Fault Refusal := .next (s.releaseWait r).wrapUp

/-- WAITTICKS_EXPIRY (R128). -/
def execWaitticksExpiry (r : ListRef) (s : State) : Host.Outcome State Fault Refusal :=
  .next (s.release r (fun k => match k with | .waitTicks n => decide (n ≤ s.tick) | _ => false)).wrapUp

/-- SETSHAPE (Table INS-5) validates nothing but its reserved fields. -/
def execSetshape (r : ListRef) (s : State) : Host.Outcome State Fault Refusal :=
  .next (s.instr r 0x31 (fun _ w => [(bitsOf w 11 5 != 0 || bitsOf w 124 4 != 0, 0x0202)])
    (fun t l w =>
      let x : Shape := { m := bitsOf w 16 20, n := bitsOf w 36 20, k := bitsOf w 56 20, pitchA := bitsOf w 76 16,
                         pitchB := bitsOf w 92 16, pitchC := bitsOf w 108 16 }
      t.finishAs { l with sh := l.sh.set (bitsOf w 8 3) (some x) })).wrapUp

end Sys2Proof.Machine
end

