-- ==== Sys2Proof/Machine/TileData.lean ====
section
/-!
DEFINITION. What a tile of an instruction reads and produces (R112, R119, R130–R135, R158, R159).
-/
namespace Sys2Proof.Machine

open Reg

/-- A tile's output, in the order that its signature covers it (R208), and the DETAILs of the data errors it met. -/
structure TileOut where
  pieces : List Piece
  faults : List Nat
  deriving DecidableEq, Repr

/-- All of a list of results, if every one is there. -/
def optAll {α : Type} : List (Option α) → Option (List α)
  | [] => some []
  | none :: _ => none
  | some x :: l => (optAll l).map (fun xs => x :: xs)

/-- What the list reads at each of several ranges, and the DETAILs met; none while some byte has not been answered. -/
def State.readAll (s : State) (p : Nat) (rs : List (Nat × Nat)) : Option (List (List Byte) × List Nat) :=
  (optAll (rs.map (fun r => s.readBytes p false r.1 r.2))).map (fun xs => (xs.map Prod.fst, (xs.map Prod.snd).flatten))

/-- Nothing but a range read when a condition holds. -/
def rangeIf (b : Bool) (a n : Nat) : Nat × Nat := if b then (a, n) else (a, 0)

/-! ### What depends on bad data (R159) -/

/-- Some byte of a range answers with a data error. -/
def State.badBytes (s : State) (p a n : Nat) : Bool :=
  (List.range n).any (fun i => match s.readByte p false (a + i) with
    | some (_, some _) => true
    | _ => false)

/-- The bytes of a stored run that element `i` is read from, from the run's first byte. -/
def elemBytes (code i : Nat) : List (Nat × Nat) :=
  let w := elemBits code
  if isKb8 code then [(i / 16 * 18, 1), (i / 16 * 18 + 1 + i % 16, 1)]
  else [(i * w / 8, (i * w + w - 1) / 8 - i * w / 8 + 1)]

/-- Element `i` of an operand, or its scale, cannot be read. -/
def State.badElem (s : State) (p code base plane i : Nat) : Bool :=
  (elemBytes code i).any (fun x => s.badBytes p (base + x.1) x.2) || (isMx code && s.badBytes p (plane + i / 32) 1)

/-- Elements that are stored as one unit, sharing a byte or a scale. -/
def unitElems (code : Nat) : Nat := if isMx code then 32 else if isKb8 code then 16 else if code = 0 then 2 else 1

/-- Bytes [lo, hi) of `n` stored elements hold some unit with a bad element. -/
def badUnits (bytes elems n : Nat) (bad : Nat → Bool) (lo hi : Nat) : Bool :=
  (List.range ((hi - 1) / bytes - lo / bytes + 1)).any (fun k => (List.range elems).any (fun j =>
    let e := (lo / bytes + k) * elems + j
    decide (e < n) && bad e))

/-- Bytes as the lines they fill, each poisoned if `bad` says so of its bytes. -/
def linePieces (a : Nat) (bs : List Byte) (bad : Nat → Nat → Bool) : List Piece :=
  (pieces a bs.length 64).map (fun x => ⟨x.1, (bs.drop (x.1 - a)).take x.2, bad (x.1 - a) (x.1 - a + x.2)⟩)

/-- A stored run at `a` with its scale bytes at `plane`: after a data error, each line is poisoned that depends on an element
of which `bad` holds. -/
def runPieces (code a plane n : Nat) (e : List Byte × List Byte) (faults : List Nat) (bad : Nat → Bool) : List Piece × List Piece :=
  if faults = [] then ([⟨a, e.1, false⟩], if isMx code then [⟨plane, e.2, false⟩] else [])
  else (linePieces a e.1 (badUnits (rowBytes code (unitElems code)) (unitElems code) n bad),
        if isMx code then linePieces plane e.2 (badUnits 1 32 n bad) else [])

/-- Elements `lo` to `lo + n` of stored output, with their scale bytes. -/
def outPieces (code dst plane lo : Nat) (rs : List (FVal × Round)) (faults : List Nat) (bad : Nat → Bool) : List Piece :=
  let x := runPieces code (dst + rowBytes code lo) (plane + lo / 32) rs.length (encodeRun code rs) faults bad
  x.1 ++ x.2

/-- An exact integer as a value to convert. -/
def ofInt (i : Int) : FVal := ofNum i 0 false

/-! ### Moves -/

/-- Bytes [lo, hi) of a copy, by destination line: each is poisoned exactly when a source byte it takes was. -/
def State.copyOut (s : State) (p src dst lo hi : Nat) : Option TileOut :=
  (optAll ((pieces (dst + lo) (hi - lo) 64).map (fun x =>
    (s.readBytes p false (src + (x.1 - dst)) x.2).map (fun r => ((⟨x.1, r.1, r.2 != []⟩ : Piece), r.2))))).map
    (fun xs => ⟨xs.map Prod.fst, (xs.map Prod.snd).flatten⟩)

/-- Bytes [lo, hi) of a COPY with REPEAT: 64 bytes over and over. -/
def State.repeatOut (s : State) (p src dst lo hi : Nat) : Option TileOut :=
  (s.readBytes p false src 64).map (fun r =>
    ⟨linePieces (dst + lo) ((List.range (hi - lo)).map (fun i => r.1.getD ((lo + i) % 64) 0)) (fun i j =>
      r.2 != [] && (List.range (j - i)).any (fun k => s.badBytes p (src + (lo + i + k) % 64) 1)), r.2⟩)

/-- What elements [lo, hi) of a CONVERT are read from: the elements, and their scales. -/
def convertReads (l : RunList) (w lo hi : Nat) : List (Nat × Nat) :=
  [(l.slot (fAsa w) + rowBytes (fFmtA w) lo, rowBytes (fFmtA w) (hi - lo)),
   rangeIf (isMx (fFmtA w)) (l.slot (fAse w) + lo / 32) ((hi - lo) / 32)]

/-- Element `i` of X cannot be read. -/
def State.badX (s : State) (l : RunList) (w i : Nat) : Bool :=
  s.badElem (s.partOf l) (fFmtA w) (l.slot (fAsa w)) (l.slot (fAse w)) i

/-- Elements [lo, hi) of a CONVERT (R81). -/
def State.convertOut (s : State) (l : RunList) (w lo hi : Nat) (tag : Word64) : Option TileOut :=
  let a := fFmtA w
  (s.readAll (s.partOf l) (convertReads l w lo hi)).map (fun r =>
    let vs := (List.range (hi - lo)).map (fun i =>
      (valAt a (r.1.getD 0 []) (r.1.getD 1 []) i, roundOf (fRnd w) tag i))
    ⟨outPieces (fFmtC w) (l.slot (fAsc w)) (l.slot (fAsg w)) lo vs r.2 (fun i => s.badX l w (lo + i)), r.2⟩)

/-! ### Matrix (R131, R132) -/

/-- The shape that an MMA uses. -/
def shapeOf (l : RunList) (w : Nat) : Option Shape := l.sh.getD (fExt w 84 3) none

/-- Values of a row of `n` elements as the tile reads it, in one class. -/
inductive RowVals where
  | ints (l : List Int)
  | floats (l : List FVal)
  deriving DecidableEq, Repr

/-- One output element: the accumulator's value after the whole reduction. -/
def dotOf (a b : Nat) (xa xb : RowVals) (d : FVal) (di : Int) : FVal :=
  match xa, xb with
  | .ints u, .ints v => ofInt (dotInt di (u.zip v))
  | .floats u, .floats v => dotFloat (groupLen a b) (u.length / groupLen a b) d (u.zip v)
  | _, _ => .nan

/-- A row of operand data as values. -/
def rowVals (code n : Nat) (bs scales : List Byte) : RowVals :=
  if isInt code then .ints ((List.range n).map (intAt code bs))
  else .floats ((List.range n).map (floatAt code bs scales))

/-- Where rows of A, B, C (or D) lie: base, pitch in bytes; and the plane of scales, its bytes per row. -/
structure MatOp where
  code : Nat
  base : Nat
  pitch : Nat
  plane : Nat
  cols : Nat
  deriving DecidableEq, Repr

/-- Columns [lo, lo + n) of row `r`, and their scales. -/
def MatOp.ranges (m : MatOp) (r lo n : Nat) : List (Nat × Nat) :=
  [(m.base + r * m.pitch + rowBytes m.code lo, rowBytes m.code n),
   rangeIf (isMx m.code) (m.plane + (r * m.cols + lo) / 32) (n / 32)]

/-- Rows [r0, r1) of an operand as values. -/
def State.readRows (s : State) (p : Nat) (m : MatOp) (r0 r1 lo n : Nat) : Option (List RowVals × List Nat) :=
  (optAll ((List.range (r1 - r0)).map (fun i => (s.readAll p (m.ranges (r0 + i) lo n)).map (fun x =>
    (rowVals m.code n (x.1.getD 0 []) (x.1.getD 1 []), x.2))))).map (fun xs => (xs.map Prod.fst, (xs.map Prod.snd).flatten))

/-- A row's `j`-th value as the accumulator starts from it (R83, R84). -/
def RowVals.start (v : RowVals) (j : Nat) : FVal × Int :=
  match v with
  | .ints l => (FVal.zero, l.getD j 0)
  | .floats l => (toF32 (l.getD j FVal.zero), 0)

/-- Columns [lo, lo + n) of row `r` of an operand cannot all be read. -/
def State.badRow (s : State) (p : Nat) (m : MatOp) (r lo n : Nat) : Bool :=
  (m.ranges r lo n).any (fun x => s.badBytes p x.1 x.2)

/-- The operands of an MMA as the tiles read them: A, B, and D. -/
def matA (l : RunList) (w : Nat) (h : Shape) : MatOp := ⟨fFmtA w, l.slot (fAsa w), 64 * h.pitchA, l.slot (fAse w), h.k⟩
def matB (l : RunList) (w : Nat) (h : Shape) : MatOp := ⟨fFmtB w, l.slot (fAsb w), 64 * h.pitchB, l.slot (fAsf w), h.k⟩
def matD (l : RunList) (w : Nat) (h : Shape) : MatOp := ⟨fFmtC w, l.slot (fAsd w), 64 * h.pitchC, l.slot (fAsg w), h.n⟩

/-- Block `t` of the output: first row, last row + 1, first column, last column + 1 (R132). -/
def blockOfTile (h : Shape) (t : Nat) : Nat × Nat × Nat × Nat :=
  let r0 := 64 * (t / groups h.n 64)
  let c0 := 64 * (t % groups h.n 64)
  (r0, Nat.min h.m (r0 + 64), c0, Nat.min h.n (c0 + 64))

/-- What block `t` of an MMA reads. -/
def mmaReads (l : RunList) (w t : Nat) : List (Nat × Nat) :=
  match shapeOf l w with
  | none => []
  | some h =>
    let (r0, r1, c0, c1) := blockOfTile h t
    (List.range (r1 - r0)).flatMap (fun i => (matA l w h).ranges (r0 + i) 0 h.k) ++
    (List.range (c1 - c0)).flatMap (fun j => (matB l w h).ranges (c0 + j) 0 h.k) ++
    (if fMod w % 2 = 1 then (List.range (r1 - r0)).flatMap (fun i => (matD l w h).ranges (r0 + i) c0 (c1 - c0)) else [])

/-- Block `t` of an MMA. -/
def State.mmaOut (s : State) (l : RunList) (w t : Nat) (tag : Word64) : Option TileOut :=
  (shapeOf l w).bind (fun h =>
    let a := fFmtA w
    let b := fFmtB w
    let c := fFmtC w
    let p := s.partOf l
    let (r0, r1, c0, c1) := blockOfTile h t
    let wd := c1 - c0
    let acc := fMod w % 2 == 1
    match s.readRows p (matA l w h) r0 r1 0 h.k, s.readRows p (matB l w h) c0 c1 0 h.k,
          (if acc then s.readRows p (matD l w h) r0 r1 c0 wd else some ([], [])) with
    | some (xa, fa), some (xb, fb), some (xd, fd) =>
      let faults := fa ++ fb ++ fd
      let row := fun (i : Nat) => (List.range wd).map (fun j =>
        let d := (xd.getD i (.ints [])).start j
        (dotOf a b (xa.getD i (.ints [])) (xb.getD j (.ints [])) (if acc then d.1 else FVal.zero) (if acc then d.2 else 0),
          roundOf (fRnd w) tag (i * wd + j)))
      let bad := fun (i j : Nat) => s.badRow p (matA l w h) (r0 + i) 0 h.k || s.badRow p (matB l w h) (c0 + j) 0 h.k ||
        (acc && s.badElem p c (l.slot (fAsd w) + (r0 + i) * (64 * h.pitchC)) (l.slot (fAsg w) + (r0 + i) * h.n / 32) (c0 + j))
      let rows := (List.range (r1 - r0)).map (fun i =>
        runPieces c (l.slot (fAsc w) + (r0 + i) * (64 * h.pitchC) + rowBytes c c0)
          (l.slot (fAsg w) + ((r0 + i) * h.n + c0) / 32) wd (encodeRun c (row i)) faults (bad i))
      some ⟨rows.flatMap Prod.fst ++ rows.flatMap Prod.snd, faults⟩
    | _, _, _ => none)

/-! ### Vectors (R133–R135) -/

def fFunc (w : Nat) : Nat := bitsOf w 8 6
def fYmode (w : Nat) : Nat := bitsOf w 14 2

/-- A value of the vector unit: FP32 or INT32 (R86). -/
inductive VVal where
  | int (i : Int)
  | float (f : FVal)
  deriving DecidableEq, Repr

def VVal.exact : VVal → FVal
  | .int i => ofInt i
  | .float f => f

/-- Element `i` as the vector unit takes it. -/
def vecAt (code : Nat) (bs scales : List Byte) (i : Nat) : VVal :=
  if isInt code then .int (intAt code bs i) else .float (inF32 code bs scales i)

def vewVal (func : Nat) : VVal → VVal → VVal → VVal
  | .int x, .int y, _ => .int (vewInt func x y)
  | .float x, .float y, .float w => .float (vewFloat func x y w)
  | .float x, .float y, .int _ => .float (vewFloat func x y FVal.zero)
  | _, _, _ => .float .nan

def vunVal (func : Nat) : VVal → VVal
  | .int x => .int (vunInt func x)
  | .float x => .float (vunFloat func x)

/-- Bytes of one element. -/
def oneElem (code : Nat) : Nat := (elemBits code + 7) / 8

/-- What elements [lo, hi) of a VEW are read from: X and its scales, Y and its scales, W. -/
def vewReads (l : RunList) (w lo hi : Nat) : List (Nat × Nat) :=
  let a := fFmtA w
  let b := fFmtB w
  let n := hi - lo
  [(l.slot (fAsa w) + rowBytes a lo, rowBytes a n), rangeIf (isMx a) (l.slot (fAse w) + lo / 32) (n / 32),
   (if fYmode w = 1 then (l.slot (fAsb w), oneElem b) else (l.slot (fAsb w) + rowBytes b lo, rowBytes b n)),
   rangeIf (isMx b) (l.slot (fAsf w) + lo / 32) (n / 32),
   rangeIf (fFunc w == 5) (l.slot (fAsd w) + rowBytes a lo) (rowBytes a n)]

/-- Element `i` of Z depends on data that cannot be read. -/
def State.badZ (s : State) (l : RunList) (w i : Nat) : Bool :=
  let p := s.partOf l
  s.badX l w i ||
  (if fYmode w = 1 then s.badBytes p (l.slot (fAsb w)) (oneElem (fFmtB w))
   else s.badElem p (fFmtB w) (l.slot (fAsb w)) (l.slot (fAsf w)) i) ||
  (fFunc w == 5 && s.badElem p (fFmtA w) (l.slot (fAsd w)) (l.slot (fAse w)) i)

/-- Elements [lo, hi) of a VEW. -/
def State.vewOut (s : State) (l : RunList) (w lo hi : Nat) (tag : Word64) : Option TileOut :=
  let a := fFmtA w
  let b := fFmtB w
  let n := hi - lo
  let one := fYmode w == 1
  let fma := fFunc w == 5
  (s.readAll (s.partOf l) (vewReads l w lo hi)).map (fun r =>
    let bs := fun (k : Nat) => r.1.getD k []
    let vs := (List.range n).map (fun i =>
      ((vewVal (fFunc w) (vecAt a (bs 0) (bs 1) i) (vecAt b (bs 2) (bs 3) (if one then 0 else i))
        (if fma then vecAt a (bs 4) (bs 1) i else .int 0)).exact, roundOf (fRnd w) tag i))
    ⟨outPieces (fFmtC w) (l.slot (fAsc w)) (l.slot (fAsg w)) lo vs r.2 (fun i => s.badZ l w (lo + i)), r.2⟩)

/-- Elements [lo, hi) of a VUN. -/
def State.vunOut (s : State) (l : RunList) (w lo hi : Nat) (tag : Word64) : Option TileOut :=
  let a := fFmtA w
  let n := hi - lo
  (s.readAll (s.partOf l) (convertReads l w lo hi)).map (fun r =>
    let vs := (List.range n).map (fun i =>
      ((vunVal (fFunc w) (vecAt a (r.1.getD 0 []) (r.1.getD 1 []) i)).exact, roundOf (fRnd w) tag i))
    ⟨outPieces (fFmtC w) (l.slot (fAsc w)) (l.slot (fAsg w)) lo vs r.2 (fun i => s.badX l w (lo + i)), r.2⟩)

/-- ROWLEN and ROWS of a VRED. -/
def fRowlen (w : Nat) : Nat := fExt w 84 20
def fRows (w : Nat) : Nat := fExt w 104 20

/-- One row reduced. -/
def vredRow (func a n : Nat) (bs scales : List Byte) : FVal :=
  if isInt a then ofInt (vredInt func ((List.range n).map (intAt a bs)))
  else vredFloat func ((List.range n).map (inF32 a bs scales))

/-- What row `r` of a VRED is read from. -/
def vredReads (l : RunList) (w r : Nat) : List (Nat × Nat) :=
  let a := fFmtA w
  let n := fRowlen w
  [(l.slot (fAsa w) + r * rowBytes a n, rowBytes a n), rangeIf (isMx a) (l.slot (fAse w) + r * n / 32) (n / 32)]

/-- Rows [lo, hi) of a VRED. -/
def State.vredOut (s : State) (l : RunList) (w lo hi : Nat) (tag : Word64) : Option TileOut :=
  let a := fFmtA w
  let n := fRowlen w
  (optAll ((List.range (hi - lo)).map (fun i =>
    (s.readAll (s.partOf l) (vredReads l w (lo + i))).map (fun r =>
      ((vredRow (fFunc w) a n (r.1.getD 0 []) (r.1.getD 1 []), roundOf (fRnd w) tag i), r.2))))).map (fun xs =>
    let faults := (xs.map Prod.snd).flatten
    ⟨outPieces (fFmtC w) (l.slot (fAsc w)) (l.slot (fAsg w)) lo (xs.map Prod.fst) faults (fun i =>
      (vredReads l w (lo + i)).any (fun x => s.badBytes (s.partOf l) x.1 x.2)), faults⟩)

end Sys2Proof.Machine
end

