-- ==== Sys2Proof/Machine/Move.lean ====
section
/-!
DEFINITION. The move instructions COPY, CONVERT and TAP (R130, R361, R362).
-/
namespace Sys2Proof.Machine

open Reg

/-- Bytes or elements of one tile of a move. -/
def moveTile : Nat := 65536

/-- LEN of COPY, CKWRITE and CKREAD; COUNT of CONVERT, VEW, VUN and collectives. -/
def fLen (w : Nat) : Nat := fExt w 84 40
def fCount (w : Nat) : Nat := fExt w 84 32

/-- The causes that tiles bring with them (R121, R122). -/
def tileCauses (l : RunList) (w n : Nat) : List (Bool × Nat) := [(badTiles w n, 0x0208), (noStep l, 0x0209)]

/-- Elements of tile `t` among `n`, in tiles of `size`. -/
def tileSpan (n t size : Nat) : Nat × Nat := (t * size, Nat.min n ((t + 1) * size))

/-- The source range of a COPY: 64 bytes with REPEAT. -/
def copySrc (l : RunList) (w : Nat) : Range := ⟨l.slot (fAsa w), if fMod w % 2 = 1 then 64 else fLen w⟩

/-- The bytes of a range that tile `i` of a move takes. -/
def bytesOf (r : Range) (i : Nat) : Range := ⟨r.base + i * moveTile, Nat.min moveTile (r.len - i * moveTile)⟩

/-- The causes of a COPY. -/
def State.copyCauses (s : State) (l : RunList) (w : Nat) : List (Bool × Nat) :=
  let dst : Range := ⟨l.slot (fAsc w), fLen w⟩
  [(leftover w [uAsa, uAsc, uFmtA, uBase, (8, 1), (84, 40)], 0x0202),
   (badFmt (fFmtA w), 0x0203),
   (fLen w == 0, 0x0205),
   (s.badRange l allSpaces 1 (copySrc l w) || s.badRange l allSpaces 1 dst, 0x0206),
   (overlaps [dst] [copySrc l w], 0x0207)] ++ tileCauses l w (groups (fLen w) moveTile)

/-- COPY (R130). The tiles of one with REPEAT share their 64 bytes, which the first asks for. -/
def execCopy (r : ListRef) (s : State) : Host.Outcome State Fault Refusal :=
  .next (s.instr r 0x20 s.copyCauses
    (fun t l w => t.issue l w (groups (fLen w) moveTile) (fFmtA w) [copySrc l w] (fun i =>
      if fMod w % 2 = 1 then (if i = 0 then [copySrc l w] else []) else [bytesOf (copySrc l w) i]))).wrapUp

/-- Source ranges of a CONVERT, and its outputs. -/
def convertIns (l : RunList) (w : Nat) : List Range :=
  [⟨l.slot (fAsa w), rowBytes (fFmtA w) (fCount w)⟩, ⟨l.slot (fAse w), if isMx (fFmtA w) then fCount w / 32 else 0⟩]

def convertOuts (l : RunList) (w : Nat) : List Range :=
  [⟨l.slot (fAsc w), rowBytes (fFmtC w) (fCount w)⟩, ⟨l.slot (fAsg w), if isMx (fFmtC w) then fCount w / 32 else 0⟩]

/-- A range of each list is misaligned or out of reach, with the alignment it must have; ranges of no bytes are not used. -/
def State.badRanges (s : State) (l : RunList) (spaces : List Nat) (rs : List (Nat × Range)) : Bool :=
  rs.any (fun x => decide (0 < x.2.len) && s.badRange l spaces x.1 x.2)

/-- The causes of a CONVERT. -/
def State.convertCauses (s : State) (l : RunList) (w : Nat) : List (Bool × Nat) :=
  let a := fFmtA w
  let c := fFmtC w
  [(leftover w ([uAsa, uAsc, uFmtA, uFmtC, uRnd, uBase, (84, 32)] ++ useIf (isMx a) uAse ++ useIf (isMx c) uAsg), 0x0202),
   (badFmt a || badFmt c || fRnd w == 3, 0x0203),
   (offMultiple (fCount w) (countMultiple a c), 0x0204),
   (fCount w == 0, 0x0205),
   (s.badRanges l allSpaces ([vecAlign a, 64].zip (convertIns l w) ++ [vecAlign c, 64].zip (convertOuts l w)), 0x0206),
   (overlaps (convertOuts l w) (convertIns l w), 0x0207)] ++ tileCauses l w (groups (fCount w) moveTile)

/-- CONVERT (R130). -/
def execConvert (r : ListRef) (s : State) : Host.Outcome State Fault Refusal :=
  .next (s.instr r 0x21 s.convertCauses
    (fun t l w => t.issue l w (groups (fCount w) moveTile) (fFmtC w) (convertIns l w) (fun i =>
      let x := tileSpan (fCount w) i moveTile
      (convertReads l w x.1 x.2).map (fun r => ⟨r.1, r.2⟩)))).wrapUp

/-! ### TAP (R361, R362) -/

def fTap (w : Nat) : Nat := fExt w 84 3
def fTapLen (w : Nat) : Nat := fExt w 88 36

/-- DIR = 1: the region sends, and the list writes memory. -/
def tapIn (w : Nat) : Bool := fMod w % 2 == 1

/-- The range of memory a TAP reads or writes. -/
def tapRange (l : RunList) (w : Nat) : Range := ⟨l.slot (if tapIn w then fAsc w else fAsa w), fTapLen w⟩

/-- The causes of a TAP. -/
def tapCauses (s : State) (l : RunList) (w : Nat) : List (Bool × Nat) :=
  [(leftover w ([uFmtA, uBase, (8, 1), (84, 3), (88, 36)] ++ [if tapIn w then uAsc else uAsa]), 0x0202),
   (badFmt (fFmtA w), 0x0203),
   (fTapLen w == 0, 0x0205),
   (s.badRange l allSpaces 1 (tapRange l w) || s.rd (claRegionPart (fTap w)) != s.partOf l, 0x0206)] ++
  tileCauses l w (groups (fTapLen w) moveTile)

/-- TAP: a region that is not RUNNING ends it at once. -/
def execTap (r : ListRef) (s : State) : Host.Outcome State Fault Refusal :=
  .next (s.instr r 0x22 (tapCauses s)
    (fun t l w =>
      let l1 := { l with work := .tap (fTap w) 0, total := fTapLen w }
      let t1 := (t.setList l1).ask l1 (t.tileTag l w 0 (fFmtA w)) (if tapIn w then [] else [tapRange l w])
      if t1.regionRunning (fTap w) then t1 else t1.failTap (fTap w))).wrapUp

end Sys2Proof.Machine
end

