-- ==== Sys2Proof/Machine/Screen.lean ====
section
/-!
DEFINITION. Issuing tiles that screening may select (R123, R124, R202–R207, 09_shadow_screening.md).
-/
namespace Sys2Proof.Machine

open Reg

/-- The number of a logical cluster over the device. -/
def logical (d lc : Nat) : Nat := d * 160 + lc

/-- The die that the wheel gives a watched cluster for its shadows (R202). -/
def WheelSt.shadowDie (w : WheelSt) (vector : Bool) (d lc : Nat) : Option Nat :=
  ((if vector then w.vwatched else w.watched).find? (fun x => x.1 == logical d lc)).map Prod.snd

/-- The key of a watched unit's first tile. -/
def firstKey (vector : Bool) (d lc : Nat) : Nat := logical d lc + (if vector then 640 else 0)

/-- Tile `t` is selected: it carries ROLE 01, and its shadow joins a queue (R203, R205, R206). -/
def State.selectTile (s : State) (l : RunList) (t : Nat) (vector : Bool) (tag : Word64) (d lc u die : Nat) : State :=
  let p := s.partOf l
  let k := firstKey vector d lc
  let x := s.wheel p
  let first := !x.firsts.contains k
  let h : HeldTile :=
    { tile := t, vector := vector, tag := tagWith tag 1 (tagTc tag), primary := u, shadowDie := die, shadowHost := none,
      output := none, sigP := none, sigS := none, arbHost := none, sameDie := false, first := first, lone := false,
      mismatch := none, wheel := s.rd (scrPartWheelS p), step := l.step.getD 0 }
  let s1 := (s.setWheel p { x with firsts := if first then k :: x.firsts else x.firsts }).count (scrPartSelectedCount p) 1
  let s2 := match s1.findList l.queue l.desc with
    | some m => s1.setList { m with held := m.held ++ [h] }
    | none => s1
  if s2.eligibleDie die then s2.queueShadow l.queue l.desc t die vector first else s2.reissueShadow l.queue l.desc h

/-- A tile of MMA, VEW, VUN or VRED issues on its target; selection is decided now. -/
def State.issueTile (s : State) (l : RunList) (w t : Nat) (vector : Bool) : State :=
  match targetOf l.hdr t with
  | some (d, lc) =>
    match s.backing d lc, (s.wheel (s.partOf l)).shadowDie vector d lc with
    | some u, some die => s.selectTile l t vector (s.tileTag l w t (fFmtC w)) d lc u die
    | _, _ => s
  | none => s

/-- The instruction issues `n` tiles that are candidates for screening. -/
def State.issueScreened (s : State) (l : RunList) (w n : Nat) (vector : Bool) : State :=
  (List.range n).foldl (fun t i => t.issueTile l w i vector)
    (s.setList { l with work := .tiles, total := n, done := [], held := [] })

/-- The target list is empty (R124). -/
def noTarget (l : RunList) : Bool := (targets l.hdr).length == 0

end Sys2Proof.Machine
end

