-- ==== Sys2Proof/Machine/Matrix.lean ====
section
/-!
DEFINITION. MMA (R82, R85, R117, R118, R131, R132).
-/
namespace Sys2Proof.Machine

open Reg

def fAcc (w : Nat) : Bool := fMod w % 2 == 1

/-- Input ranges of an MMA: A, B, and the scale planes of both. -/
def mmaIns (l : RunList) (w : Nat) (h : Shape) : List Range :=
  [rowsRange (l.slot (fAsa w)) h.m (64 * h.pitchA) (rowBytes (fFmtA w) h.k),
   rowsRange (l.slot (fAsb w)) h.n (64 * h.pitchB) (rowBytes (fFmtB w) h.k),
   ⟨l.slot (fAse w), if isMx (fFmtA w) then h.m * h.k / 32 else 0⟩,
   ⟨l.slot (fAsf w), if isMx (fFmtB w) then h.n * h.k / 32 else 0⟩]

def mmaC (l : RunList) (w : Nat) (h : Shape) : Range :=
  rowsRange (l.slot (fAsc w)) h.m (64 * h.pitchC) (rowBytes (fFmtC w) h.n)

def mmaD (l : RunList) (w : Nat) (h : Shape) : Range :=
  if fAcc w then rowsRange (l.slot (fAsd w)) h.m (64 * h.pitchC) (rowBytes (fFmtC w) h.n) else ⟨0, 0⟩

/-- The plane at ASG: C's scales, and D's. -/
def mmaPlane (l : RunList) (w : Nat) (h : Shape) : Range :=
  ⟨l.slot (fAsg w), if isMx (fFmtC w) then h.m * h.n / 32 else 0⟩

/-- R118 for an MMA: C may have D's base, and the plane at ASG is both C's and D's. -/
def mmaOverlap (l : RunList) (w : Nat) (h : Shape) : Bool :=
  let c := mmaC l w h
  let d := mmaD l w h
  let g := mmaPlane l w h
  overlaps [c] (mmaIns l w h ++ (if fAcc w then [g] else []) ++ (if c.base = d.base then [] else [d])) ||
  overlaps [g] (mmaIns l w h ++ [d])

/-- The causes that depend on the shape (R131). -/
def State.shapeCauses (s : State) (l : RunList) (w : Nat) (h : Shape) : List (Bool × Nat) :=
  let a := fFmtA w
  let b := fFmtB w
  let c := fFmtC w
  [(offMultiple h.k (multipleK a b) || offMultiple h.n (blockOf c), 0x0204),
   (h.m == 0 || h.n == 0 || h.k == 0 || h.m % 16 != 0 || h.n % 16 != 0 || decide (64 * h.pitchA < rowBytes a h.k) ||
    decide (64 * h.pitchB < rowBytes b h.k) || decide (64 * h.pitchC < rowBytes c h.n), 0x0205),
   (s.badRanges l localSpaces ((mmaIns l w h ++ [mmaC l w h, mmaD l w h, mmaPlane l w h]).map (fun r => (64, r))), 0x0206),
   (mmaOverlap l w h, 0x0207)] ++ tileCauses l w (groups h.m 64 * groups h.n 64)

/-- The causes of an MMA. -/
def State.mmaCauses (s : State) (l : RunList) (w : Nat) : List (Bool × Nat) :=
  let a := fFmtA w
  let b := fFmtB w
  let c := fFmtC w
  [(leftover w ([uAsa, uAsb, uAsc, uFmtA, uFmtB, uFmtC, uRnd, uBase, (8, 1), (84, 3)] ++ useIf (fAcc w) uAsd ++
      useIf (isMx a) uAse ++ useIf (isMx b) uAsf ++ useIf (isMx c) uAsg), 0x0202),
   (badFmt a || badFmt b || badFmt c || fRnd w == 3 || !pairingOk a b || !outOk (isInt a) c, 0x0203),
   (noTarget l || (shapeOf l w).isNone, 0x0205), (noStep l, 0x0209)] ++
  (match shapeOf l w with | some h => s.shapeCauses l w h | none => [])

/-- MMA. -/
def execMma (r : ListRef) (s : State) : Host.Outcome State Fault Refusal :=
  .next (s.instr r 0x30 s.mmaCauses
    (fun t l w =>
      match shapeOf l w with
      | some h => t.issueScreened l w (groups h.m 64 * groups h.n 64) false
      | none => t)).wrapUp

end Sys2Proof.Machine
end

