-- ==== Sys2Proof/Machine/Vectors.lean ====
section
/-!
DEFINITION. The vector instructions VEW, VUN and VRED (R133–R135, Table INS-7).
-/
namespace Sys2Proof.Machine

open Reg

/-- Elements of a vector tile; rows of a VRED tile. -/
def vecTile : Nat := 4096
def redTile : Nat := 64

/-- The plane of an operand of `n` elements. -/
def planeOf (code a n : Nat) : Range := ⟨a, if isMx code then n / 32 else 0⟩

/-- An operand and its plane with the alignment each must have. -/
def vecOperand (code a plane bytes n : Nat) : List (Nat × Range) :=
  [(vecAlign code, ⟨a, bytes⟩), (64, planeOf code plane n)]

/-- Ranges of a vector instruction: X with its plane, its other inputs, and Z with its plane. -/
structure VecRanges where
  x : List (Nat × Range)
  others : List (Nat × Range)
  z : List (Nat × Range)
  deriving DecidableEq, Repr

def VecRanges.all (v : VecRanges) : List (Nat × Range) := v.x ++ v.others ++ v.z

/-- R118 for a vector instruction: Z may have X's base. -/
def VecRanges.clash (v : VecRanges) : Bool :=
  let zs := v.z.map Prod.snd
  let xs := v.x.map Prod.snd
  let rest := xs.drop 1 ++ v.others.map Prod.snd
  overlaps (zs.take 1) (rest ++ (if (zs.map Range.base).head? = (xs.map Range.base).head? then [] else xs.take 1)) ||
  overlaps (zs.drop 1) (xs.take 1 ++ rest)

/-- Causes that every vector instruction shares. -/
def State.vecCauses (s : State) (l : RunList) (w n : Nat) (v : VecRanges) : List (Bool × Nat) :=
  [(noTarget l, 0x0205), (s.badRanges l localSpaces v.all, 0x0206), (v.clash, 0x0207)] ++ tileCauses l w n

def zOperand (l : RunList) (w n : Nat) : List (Nat × Range) :=
  vecOperand (fFmtC w) (l.slot (fAsc w)) (l.slot (fAsg w)) (rowBytes (fFmtC w) n) n

def xOperand (l : RunList) (w n : Nat) : List (Nat × Range) :=
  vecOperand (fFmtA w) (l.slot (fAsa w)) (l.slot (fAse w)) (rowBytes (fFmtA w) n) n

/-- Ranges of a VEW. -/
def vewRanges (l : RunList) (w : Nat) : VecRanges :=
  let n := fCount w
  let one := fYmode w == 1
  { x := xOperand l w n
    others := vecOperand (fFmtB w) (l.slot (fAsb w)) (l.slot (fAsf w)) (if one then oneElem (fFmtB w) else rowBytes (fFmtB w) n)
        (if one then 0 else n) ++
      (if fFunc w = 5 then [(vecAlign (fFmtA w), ⟨l.slot (fAsd w), rowBytes (fFmtA w) n⟩)] else [])
    z := zOperand l w n }

/-- The causes of a VEW. With YMODE = 01, Y is one element, and its format does not bear on the multiple rule of COUNT (DESIGN CHOICE,
log entry 127). -/
def State.vewCauses (s : State) (l : RunList) (w : Nat) : List (Bool × Nat) :=
  let a := fFmtA w
  let b := fFmtB w
  let c := fFmtC w
  let one := fYmode w == 1
  [(leftover w ([uAsa, uAsb, uAsc, uFmtA, uFmtB, uFmtC, uRnd, uBase, (8, 8), (84, 32)] ++ useIf (fFunc w == 5) uAsd ++
      useIf (isMx a) uAse ++ useIf (isMx b) uAsf ++ useIf (isMx c) uAsg) || decide (5 < fFunc w) ||
      decide (1 < fYmode w), 0x0202),
   (badFmt a || badFmt b || badFmt c || fRnd w == 3 || isInt a != isInt b || !outOk (isInt a) c ||
      (isInt a && fFunc w == 5) || (one && (isMx b || isKb8 b)), 0x0203),
   (offMultiple (fCount w) (Nat.max (countMultiple a c) (if one then 1 else countMultiple b b)), 0x0204),
   (fCount w == 0, 0x0205)] ++ s.vecCauses l w (groups (fCount w) vecTile) (vewRanges l w)

/-- VEW. -/
def execVew (r : ListRef) (s : State) : Host.Outcome State Fault Refusal :=
  .next (s.instr r 0x40 s.vewCauses
    (fun t l w => t.issueScreened l w (groups (fCount w) vecTile) true)).wrapUp

/-- The causes of a VUN. -/
def State.vunCauses (s : State) (l : RunList) (w : Nat) : List (Bool × Nat) :=
  let a := fFmtA w
  let c := fFmtC w
  let v : VecRanges := { x := xOperand l w (fCount w), others := [], z := zOperand l w (fCount w) }
  [(leftover w ([uAsa, uAsc, uFmtA, uFmtC, uRnd, uBase, (8, 6), (84, 32)] ++ useIf (isMx a) uAse ++
      useIf (isMx c) uAsg) || decide (0xB < fFunc w), 0x0202),
   (badFmt a || badFmt c || fRnd w == 3 || !outOk (isInt a) c || (isInt a && decide (2 < fFunc w)), 0x0203),
   (offMultiple (fCount w) (countMultiple a c), 0x0204),
   (fCount w == 0, 0x0205)] ++ s.vecCauses l w (groups (fCount w) vecTile) v

/-- VUN. -/
def execVun (r : ListRef) (s : State) : Host.Outcome State Fault Refusal :=
  .next (s.instr r 0x41 s.vunCauses
    (fun t l w => t.issueScreened l w (groups (fCount w) vecTile) true)).wrapUp

/-- Ranges of a VRED: rows of X packed, Z one stored row. -/
def vredRanges (l : RunList) (w : Nat) : VecRanges :=
  let n := fRows w * fRowlen w
  { x := vecOperand (fFmtA w) (l.slot (fAsa w)) (l.slot (fAse w)) (fRows w * rowBytes (fFmtA w) (fRowlen w)) n, others := [],
    z := zOperand l w (fRows w) }

/-- The causes of a VRED. -/
def State.vredCauses (s : State) (l : RunList) (w : Nat) : List (Bool × Nat) :=
  let a := fFmtA w
  let c := fFmtC w
  [(leftover w ([uAsa, uAsc, uFmtA, uFmtC, uRnd, uBase, (8, 6), (84, 20), (104, 20)] ++ useIf (isMx a) uAse ++
      useIf (isMx c) uAsg) || decide (3 < fFunc w), 0x0202),
   (badFmt a || badFmt c || fRnd w == 3 || !outOk (isInt a) c, 0x0203),
   (offMultiple (fRowlen w) (countMultiple a c) || offMultiple (fRows w) (countMultiple c c), 0x0204),
   (fRowlen w == 0 || fRows w == 0, 0x0205)] ++ s.vecCauses l w (groups (fRows w) redTile) (vredRanges l w)

/-- VRED. -/
def execVred (r : ListRef) (s : State) : Host.Outcome State Fault Refusal :=
  .next (s.instr r 0x42 s.vredCauses
    (fun t l w => t.issueScreened l w (groups (fRows w) redTile) true)).wrapUp

end Sys2Proof.Machine
end

