-- ==== Sys2Proof/Machine/Collective.lean ====
section
/-!
DEFINITION. Agreement exchanges of collectives and seals (R136, R137, R190, R254, R255), and the collective instructions
ALLREDUCE, REDSCAT, ALLGATHER and BCAST (R138, R139).
-/
namespace Sys2Proof.Machine

open Reg

/-! ### Member lists (R136) -/

/-- The member list at `a` of partition `p`, its bytes, and the data error its reading met. -/
structure MemberRead where
  members : List (Nat × Nat)
  bytes : List Byte
  valid : Bool
  error : Option Ending
  deriving DecidableEq, Repr

def noMembers (e : Option Ending) : MemberRead := { members := [], bytes := [], valid := false, error := e }

/-- Entries of a list of words. -/
def parseMembers (bs : List Byte) (n : Nat) : List (Nat × Nat) :=
  (List.range n).map (fun i => let w := field bs (4 + 4 * i) 4; (bitsOf w 0 17, bitsOf w 17 2))

/-- The list is well formed and names this device's partition `p` exactly once. -/
def State.membersOk (s : State) (p : Nat) (bs : List Byte) (n : Nat) : Bool :=
  let ms := parseMembers bs n
  (List.range n).all (fun i => bitsOf (field bs (4 + 4 * i) 4) 19 13 == 0) && decide ms.Nodup &&
  ms.contains (s.rd fabDevIdId, p)

/-- Reads the member list at `a`; `whole` for the device's own reads. -/
def State.readMembers (s : State) (p : Nat) (whole : Bool) (a : Nat) : MemberRead :=
  match s.readBytes p whole a 4 with
  | none => noMembers none
  | some (nb, fs) =>
    match dataError fs with
    | some e => noMembers (some e)
    | none =>
      let n := leNat nb
      if n = 0 ∨ 131072 < n then noMembers none
      else match s.readBytes p whole a (4 + 4 * n) with
        | none => noMembers none
        | some (bs, gs) =>
          match dataError gs with
          | some e => noMembers (some e)
          | none => { members := parseMembers bs n, bytes := bs, valid := s.membersOk p bs n, error := none }

/-! ### The tree (R135, R190) -/

/-- The largest power of 2 that divides `pos`, or `step` once it reaches `n`. -/
def lowStep (pos n : Nat) : Nat → Nat → Nat
  | 0, step => step
  | k + 1, step => if pos % (2 * step) ≠ 0 ∨ n ≤ step then step else lowStep pos n k (2 * step)

/-- The children of a position among `n`. -/
def childrenOf (pos n : Nat) : List Nat :=
  ((List.range 18).map (fun k => 2 ^ k)).filterMap (fun st =>
    if pos % (2 * st) = 0 ∧ pos + st < n then some (pos + st) else none)

def parentOf (pos n : Nat) : Nat := pos - lowStep pos n 18 1

/-! ### Seats: the exchanges in which this device takes part -/

/-- A place in an exchange: a collective of a list, or a slot's seal. -/
inductive Seat where
  | coll (queue desc : Nat)
  | slot (p e : Nat) (b : Bool)
  deriving DecidableEq, Repr

def State.seats (s : State) : List Seat :=
  s.lists.filterMap (fun l => match l.work, l.ending with
    | .coll _, none => some (.coll l.queue l.desc)
    | _, _ => none) ++
  s.jobs.flatMap (fun x => [false, true].filterMap (fun b => match x.2.seal b with
    | some y => if y.agree.isSome then some (.slot (x.1 / 16) (x.1 % 16) b) else none
    | none => none))

/-- The partition and exchange of a seat. -/
def State.agreeOf (s : State) : Seat → Option (Nat × Agree)
  | .coll q d => match s.findList q d with
    | some l => match l.work with | .coll c => some (s.partOf l, c.agree) | _ => none
    | none => none
  | .slot p e b => match (s.job p e).seal b with | some y => y.agree.map (fun a => (p, a)) | none => none

def State.setAgree (s : State) (seat : Seat) (a : Agree) : State :=
  match seat with
  | .coll q d => match s.findList q d with
    | some l => match l.work with | .coll c => s.setList { l with work := .coll { c with agree := a } } | _ => s
    | none => s
  | .slot p e b => match (s.job p e).seal b with
    | some y => s.setSeal p e b (some { y with agree := some a })
    | none => s

/-- What a child has sent. -/
def State.heard (s : State) (p key pos : Nat) : Option AgreeMsg :=
  s.link.agrees.find? (fun m => m.part == p && m.key == key && m.pos == pos)

/-- An AGREE for a partition of this device is kept until its exchange takes it; a later one takes its place. -/
def State.putAgree (s : State) (m : AgreeMsg) : State :=
  { s with link := { s.link with
    agrees := m :: s.link.agrees.filter (fun x => !(x.part == m.part && x.key == m.key && x.pos == m.pos)) } }

/-- The tag of an exchange's frames. -/
def State.agreeTag (s : State) (seat : Seat) (p : Nat) (a : Agree) : Word64 :=
  match seat with
  | .coll q d => match s.findList q d, (s.findList q d).bind (·.word) with
    | some l, some w => s.tileTag l w.toNat 0 (fFmtC w.toNat)
    | _, _ => 0
  | .slot _ _ _ => tagOf (a.key / 2 ^ 36) (a.key / 2 ^ 20 % 65536) 0xFFFFF 0xB 0 0 p

/-- The payloads of AGREE and AGREE_RESULT (Table LNK-7). -/
def agreeBytes (pos : Nat) (diff : Bool) (digest : Word64) : List Byte :=
  leBytes 1 3 ++ leBytes 1 diff.toNat ++ leBytes 2 0 ++ leBytes 4 pos ++ leBytes 8 digest.toNat

def agreeResultBytes (differ : Bool) (lowest : Nat) : List Byte := leBytes 1 4 ++ leBytes 1 differ.toNat ++ leBytes 2 0 ++ leBytes 4 lowest

/-- An AGREE goes to position `pos` of the members; none when no port leads there. -/
def State.sendAgree (s : State) (p : Nat) (tag : Word64) (a : Agree) (pos : Nat) (diff : Bool) : Option State :=
  let m := a.members.getD pos (0, 0)
  if s.ownId m.1 then some (s.putAgree { part := m.2, key := a.key, pos := a.pos, diff := diff, digest := a.digest })
  else s.sendCtrl p m.1 m.2 tag (agreeBytes a.pos diff a.digest)

/-- R255: the slot's seal succeeds or fails. A slot that is no longer DONE is not sealed (Table JOB-3). -/
def State.sealSlot (s : State) (p e : Nat) (b ok : Bool) : State :=
  let s1 := s.setSeal p e b none
  if !ok then (s1.setSlot p e b 4).event (jobSealEventFailed p e)
  else if s.slotState p e b = 2 then
    let s2 := s1.setSlot p e b 3
    let job := s2.rd (jobIdJob p e)
    { (s2.newest p e b).event (jobSealEventSealed p e) with
      raised := s2.raised.filter (fun r => !(r.2 == job && r.1 / 4096 == p)) }
  else s1

/-- The seat of partition `p` in the exchange `key` whose member it is at position `pos`, if it still waits for a result. -/
def State.seatAt (s : State) (p key pos : Nat) : Option Seat :=
  s.seats.find? (fun x => match s.agreeOf x with
    | some (q, a) => q == p && a.key == key && a.pos == pos
    | none => false)

/-- What a result does at a seat. -/
def State.takeResult (s : State) (seat : Seat) (p key : Nat) (differ : Bool) : State :=
  let s1 := { s with link := { s.link with agrees := s.link.agrees.filter (fun m => !(m.part == p && m.key == key)) } }
  match seat with
  | .coll q d => match s1.findList q d with
    | some l =>
      if differ then s1.endWith l 0x22 0x020A
      else match l.work with | .coll c => s1.setList { l with work := .coll { c with agreed := true } } | _ => s1
    | none => s1
  | .slot p e b => s1.sealSlot p e b (!differ)

/-- An AGREE_RESULT reaches a seat, and goes on to its children. -/
def State.deliver : Nat → State → Seat → Bool → Nat → State
  | 0, s, _, _, _ => s
  | n + 1, s, seat, differ, lowest =>
    match s.agreeOf seat with
    | some (p, a) =>
      let tag := s.agreeTag seat p a
      let s1 := s.takeResult seat p a.key differ
      (childrenOf a.pos a.members.length).foldl (fun t c =>
        let m := a.members.getD c (0, 0)
        if t.ownId m.1 then
          (match t.seatAt m.2 a.key c with
          | some x => State.deliver n t x differ lowest
          | none => t)
        else (t.sendCtrl p m.1 m.2 tag (agreeResultBytes differ lowest)).getD t) s1
    | none => s

/-- A collective that cannot reach a member ends as over a failed connection (R183). -/
def State.failSeat (s : State) (seat : Seat) : State :=
  match seat with
  | .coll q d => match s.findList q d with
    | some l => s.countFail.endWith l 0x20 0x0306
    | none => s
  | .slot _ _ _ => s.countFail

/-- A seat that has heard from all of its children sends to its parent, or decides (R190, R254). -/
def State.stepSeat (s : State) (seat : Seat) : State :=
  match s.agreeOf seat with
  | some (p, a) =>
    let n := a.members.length
    let hs := (childrenOf a.pos n).map (fun c => (c, s.heard p a.key c))
    if a.sent || hs.any (fun h => h.2.isNone) then s
    else
      let off := hs.filterMap (fun h => h.2.bind (fun m => if m.diff || m.digest != a.digest then some h.1 else none))
      let differ := a.diff || off != []
      let lowest := if !differ then 0xFFFFFFFF else if a.diff then a.pos else (lowestOf off).getD a.pos
      let s1 := s.setAgree seat { a with sent := true }
      if a.pos = 0 then s1.deliver 20 seat differ lowest
      else match s1.sendAgree p (s.agreeTag seat p a) a (parentOf a.pos n) differ with
        | none => s1.failSeat seat
        | some s2 => match seat with
          | .coll _ _ => if differ then s2.deliver 20 seat true lowest else s2
          | .slot _ _ _ => s2
  | none => s

/-! ### Contributions (R138, R139) -/

/-- Elements of COUNT that one tile covers. -/
def collTile : Nat := 16384

/-- What tile `t` of a collective is read from. -/
def ownReads (l : RunList) (w t : Nat) : List (Nat × Nat) :=
  let (lo, hi) := tileSpan (fCount w) t collTile
  [(l.slot (fAsa w) + rowBytes (fFmtA w) lo, rowBytes (fFmtA w) (hi - lo))]

/-- The member's own contribution to tile `t`, as the vector unit converts it, and the DETAILs its reading met. -/
def State.ownPart (s : State) (l : RunList) (w t : Nat) : Option (List VVal × List Nat) :=
  let a := fFmtA w
  let (lo, hi) := tileSpan (fCount w) t collTile
  (s.readBytes (s.partOf l) false (l.slot (fAsa w) + rowBytes a lo) (rowBytes a (hi - lo))).map (fun r =>
    ((List.range (hi - lo)).map (vecAt a r.1 []), r.2))

/-- A 32-bit word of a contribution: FP32, or INT32. -/
def VVal.word : VVal → Nat
  | .int i => twos 32 i
  | .float f => encodeFloat fp32 .rne f

def wordVal (int : Bool) (v : Nat) : VVal := if int then .int (signed 32 v) else .float (decodeFloat fp32 0xA v)

/-- A frame of a contribution leaves for a member: another device, or a partition of this one (R153). -/
def State.sendColl (s : State) (l : RunList) (tag : Word64) (pos off : Nat) (red : Bool) (bs : List Byte) (poison : Bool)
    (m : Nat × Nat) : State :=
  if s.ownId m.1 then
    s.ifAccepted m.2 tag (fun t => { t with link := { t.link with
      segs := t.link.segs ++ [(m.2, tag.toNat / 4096, { level := 0, pos := pos, off := off, bytes := bs, poison := poison })] } })
  else s.sendOp (s.partOf l) m.1 m.2 (s.classOf l.queue) (frameOf (.coll 0 pos off red bs) tag poison (some (l.queue, l.desc)))

/-- The contribution of tile `t` goes to every other member, in segments poisoned where they depend on data that cannot be read
(R159). RED is set on the segments of a reduction, which a reducer may combine (R186; log entry 26). -/
def State.sendTile (s : State) (l : RunList) (w t : Nat) (a : Agree) : State :=
  match s.ownPart l w t with
  | some (vs, fs) =>
    let bs := vs.flatMap (fun v => leBytes 4 v.word)
    let size := dataMax (s.classOf l.queue)
    let bad := fun (i : Nat) => fs != [] && (List.range (size / 4)).any (fun k =>
      decide (i * (size / 4) + k < vs.length) &&
      s.badElem (s.partOf l) (fFmtA w) (l.slot (fAsa w)) 0 (t * collTile + i * (size / 4) + k))
    let s1 := (a.members.filter (fun m => m ≠ (s.rd fabDevIdId, s.partOf l))).foldl (fun u m =>
      (List.range (groups bs.length size)).foldl (fun v i =>
        v.sendColl l (s.tileTag l w t (fFmtC w)) a.pos (i * size) (decide (bitsOf w 0 8 < 0x52))
          ((bs.drop (i * size)).take size) (bad i) m) u) s
    (ownReads l w t).foldl (fun u r => u.touch (s.partOf l) false (some (l.queue, l.desc)) r.1 r.2)
      (s1.addFaults l.queue l.desc fs)
  | none => s

/-- The member contributes once the members agree and its mark has come. -/
def State.contribute (s : State) (q d : Nat) : State :=
  match s.findList q d with
  | some l =>
    match l.work, l.word, l.ending with
    | .coll c, some w, none =>
      if !c.agreed || c.sent || (match c.marked with | some m => !s.reached m | none => false) then s
      else
        let s1 := s.setList { l with work := .coll { c with sent := true } }
        if bitsOf w.toNat 0 8 = 0x53 ∧ c.agree.pos ≠ 0 then s1
        else (List.range l.total).foldl (fun t i => t.sendTile l w.toNat i c.agree) s1
    | _, _, _ => s
  | none => s

/-- Every exchange goes on as far as it can: a partition of this device may wait for another. -/
def State.agreeN (s : State) : Nat → State
  | 0 => s
  | n + 1 => (s.seats.foldl (fun t x => t.stepSeat x) s).agreeN n

def State.progressAgrees (s : State) : State :=
  let s1 := s.agreeN 4
  (s1.lists.foldl (fun t l => t.contribute l.queue l.desc) s1).advance

/-! ### The result of a tile -/

/-- The word at element `i` of a segment that covers it. -/
def segWord (segs : List CollSeg) (level pos i : Nat) : Option (Nat × Bool) :=
  (segs.find? (fun g => g.level == level && g.pos == pos && decide (g.off ≤ 4 * i) && decide (4 * i + 4 ≤ g.off + g.bytes.length))).map
    (fun g => (leNat ((g.bytes.drop (4 * i - g.off)).take 4), g.poison))

/-- `combine` of R135 on what the vector unit holds. -/
def redVal (red : Nat) : VVal → VVal → VVal
  | .int a, .int b => .int (redInt red a b)
  | .float a, .float b => .float (redFloat red a b)
  | _, _ => .float .nan

/-- The partial of position `pos` at a tree level, at element `i` of the tile: received, the member's own, or combined. -/
def partialAt (segs : List CollSeg) (own : List VVal) (int : Bool) (self n red : Nat) : Nat → Nat → Nat → Option (VVal × Bool)
  | 0, pos, i =>
    if pos = self then (own[i]?).map (fun v => (v, false))
    else (segWord segs 0 pos i).map (fun x => (wordVal int x.1, x.2))
  | k + 1, pos, i =>
    match segWord segs (k + 1) pos i with
    | some x => some (wordVal int x.1, x.2)
    | none =>
      match partialAt segs own int self n red k pos i with
      | none => none
      | some x =>
        if pos + 2 ^ k < n then
          (partialAt segs own int self n red k (pos + 2 ^ k) i).map (fun y => (redVal red x.1 y.1, x.2 || y.2))
        else some x

/-- Segments received for a tile. -/
def State.segsOf (s : State) (p : Nat) (tag : Word64) : List CollSeg :=
  (s.link.segs.filter (fun x => x.1 == p && x.2.1 == tag.toNat / 4096)).map (fun x => x.2.2)

/-- Tree levels above the contributions of `n` members. -/
def levelsOf (n : Nat) : Nat := if n ≤ 1 then 0 else Nat.log2 (n - 1) + 1

/-- Where element `e` of a member's contribution comes in its result: REDSCAT writes elements [first, last) from 0 on. -/
structure CollSpan where
  lo : Nat
  hi : Nat
  dst : Nat
  deriving DecidableEq, Repr

/-- Elements of the result that tile `t` covers, by the position whose data they are (none: the reduction). -/
def collSpans (w t pos n : Nat) : List (Option Nat × CollSpan) :=
  let (lo, hi) := tileSpan (fCount w) t collTile
  match bitsOf w 0 8 with
  | 0x50 => [(none, ⟨lo, hi, lo⟩)]
  | 0x51 =>
    let m := fCount w / n
    let a := Nat.max lo (pos * m)
    let b := Nat.min hi ((pos + 1) * m)
    if a < b then [(none, ⟨a, b, a - pos * m⟩)] else []
  | 0x52 => (List.range n).map (fun j => (some j, ⟨lo, hi, j * fCount w + lo⟩))
  | _ => [(some 0, ⟨lo, hi, lo⟩)]

/-- The result of one span; none while a contribution is missing. An element is bad that depends on an own element of which `bad`
holds, or on a poisoned segment (R159). -/
def spanOut (segs : List CollSeg) (own : List VVal) (l : RunList) (w t self n : Nat) (tag : Word64) (ownFaults : List Nat)
    (bad : Nat → Bool) (x : Option Nat × CollSpan) : Option TileOut :=
  let lo := t * collTile
  let int := isInt (fFmtA w)
  (optAll ((List.range (x.2.hi - x.2.lo)).map (fun k =>
    let i := x.2.lo + k - lo
    let r : Option (VVal × Bool) := match x.1 with
      | none => partialAt segs own int self n (fMod w % 4) (levelsOf n) 0 i
      | some j => partialAt segs own int self n 0 0 j i
    r.map (fun v =>
        ((v.1.exact, roundOf (fRnd w) tag i), v.2))))).map (fun vs =>
    let mine := (x.1 == none || x.1 == some self) && ownFaults != []
    let theirs := vs.any Prod.snd
    let faults := (if mine then ownFaults else []) ++ (if theirs then [0x0306] else [])
    ⟨outPieces (fFmtC w) (l.slot (fAsc w)) 0 x.2.dst (vs.map Prod.fst) faults (fun k =>
        (mine && bad (x.2.lo + k)) || ((vs.map Prod.snd).getD k false)), faults⟩)

/-- Tile `t` of a collective. -/
def State.collOut (s : State) (l : RunList) (w t : Nat) (tag : Word64) : Option TileOut :=
  match l.work with
  | .coll c =>
    let n := c.agree.members.length
    let reads := !(bitsOf w 0 8 == 0x53 && c.agree.pos != 0)
    match (if reads then s.ownPart l w t else some ([], [])) with
    | some (own, fs) =>
      if !c.sent then none
      else (optAll ((collSpans w t c.agree.pos n).map
        (spanOut (s.segsOf (s.partOf l) tag) own l w t c.agree.pos n tag fs (fun e =>
            s.badElem (s.partOf l) (fFmtA w) (l.slot (fAsa w)) 0 e)))).map (fun xs =>
          ⟨xs.flatMap TileOut.pieces, xs.flatMap TileOut.faults⟩)
    | none => none
  | _ => none

/-! ### Starting a collective -/

/-- The agreement block (R190). -/
def agreeBlock (l : RunList) (w : Nat) (listCrc : Word64) : List Byte :=
  let red := if bitsOf w 0 8 < 0x52 then fMod w % 4 else 0
  let m := l.ms.getD (fExt w 116 2) ⟨0, 0⟩
  overlay 64 [(0, leBytes 1 (bitsOf w 0 8)), (1, leBytes 1 red), (2, leBytes 1 (fFmtA w)), (3, leBytes 1 (fFmtC w)),
    (4, leBytes 1 (fRnd w)), (5, leBytes 1 (fExt w 118 1)), (8, leBytes 4 (fCount w)), (12, leBytes 4 (fBase w)),
    (16, leBytes 8 (l.step.getD 0)), (24, leBytes 8 m.num), (32, leBytes 2 m.phase), (40, leBytes 8 listCrc.toNat)]

/-- Bytes of a collective's result on this member. -/
def resultBytes (w n : Nat) : Nat :=
  match bitsOf w 0 8 with
  | 0x51 => rowBytes (fFmtC w) (fCount w / n)
  | 0x52 => rowBytes (fFmtC w) (n * fCount w)
  | _ => rowBytes (fFmtC w) (fCount w)

/-- The member list of an instruction, when its first word can be read at all. -/
def State.listOf (s : State) (l : RunList) (w : Nat) : MemberRead :=
  let a := l.slot (fAsb w)
  if s.badRange l localSpaces 1 ⟨a, 4⟩ then noMembers none
  else
    let n := match s.readBytes (s.partOf l) false a 4 with | some (bs, _) => leNat bs | none => 0
    if s.badRange l localSpaces 1 ⟨a, 4 + 4 * Nat.min n 131072⟩ then noMembers none else s.readMembers (s.partOf l) false a

/-- The range of the member list, as far as its first word gives it. -/
def State.listRange (s : State) (l : RunList) (w : Nat) : Range :=
  let a := l.slot (fAsb w)
  let n := if s.badRange l localSpaces 1 ⟨a, 4⟩ then 0
    else match s.readBytes (s.partOf l) false a 4 with | some (bs, _) => leNat bs | none => 0
  ⟨a, if 131072 < n then 4 else 4 + 4 * n⟩

/-- The ranges a collective reads: its contribution, but for BCAST on members other than the first, and its list. -/
def State.collIns (s : State) (l : RunList) (w pos : Nat) : List (Nat × Range) :=
  (if bitsOf w 0 8 = 0x53 ∧ pos ≠ 0 then [] else [(vecAlign (fFmtA w), ⟨l.slot (fAsa w), rowBytes (fFmtA w) (fCount w)⟩)]) ++
    [(1, s.listRange l w)]

/-- The causes for which a collective is illegal. A segment of INT4 elements fills whole bytes (log entry 16). -/
def State.collCauses (s : State) (l : RunList) (w : Nat) : List (Bool × Nat) :=
  let a := fFmtA w
  let c := fFmtC w
  let op := bitsOf w 0 8
  let m := s.listOf l w
  let n := m.members.length
  let pos := m.members.idxOf (s.rd fabDevIdId, s.partOf l)
  let out : List (Nat × Range) := [(vecAlign c, ⟨l.slot (fAsc w), resultBytes w n⟩)]
  let red := decide (op < 0x52)
  let seg := fCount w / n
  [(leftover w ([uAsa, uAsb, uAsc, uFmtA, uFmtC, uRnd, uBase, (84, 32), (116, 2), (118, 1)] ++ useIf red (8, 2)) ||
      (red && fMod w % 4 == 3), 0x0202),
   (badFmt a || badFmt c || fRnd w == 3 || isMx a || isMx c, 0x0203),
   (offMultiple (fCount w) (countMultiple a c) ||
      (op == 0x51 && n != 0 && (offMultiple (fCount w) n || offMultiple seg (countMultiple c c))), 0x0204),
   (fCount w == 0, 0x0205),
   (s.badRanges l localSpaces (s.collIns l w pos ++ out), 0x0206),
   (overlaps (out.map Prod.snd) ((s.collIns l w pos).map Prod.snd), 0x0207),
   (!m.valid && m.error.isNone, 0x020A)] ++ tileCauses l w (groups (fCount w) collTile)

/-- A collective starts: it has read its member list, and takes its place in the agreement. The frame's tag identifies the
exchange (R190); that JOB, STEP and TILE are the fields that do is the model's choice, so that members whose TILE_BASE or
STEP[15:0] differ never meet (log entry 126). -/
def State.startColl (s : State) (l : RunList) (w : Nat) : State :=
  let m := s.listOf l w
  let s0 := s.touch (s.partOf l) false (some (l.queue, l.desc)) (l.slot (fAsb w)) (4 + 4 * m.members.length)
  match m.error with
  | some e => s0.endWith l e.status e.detail
  | none =>
    let tag := s.tileTag l w 0 (fFmtC w)
    let a : Agree := { pos := m.members.idxOf (s.rd fabDevIdId, s.partOf l), members := m.members,
                       digest := crc64 (agreeBlock l w (crc64 m.bytes)), key := tag.toNat / 4096, diff := false, sent := false }
    let c : Coll := { agree := a, agreed := false, sent := false,
                      marked := if fExt w 118 1 = 1 then some (l.ms.getD (fExt w 116 2) ⟨0, 0⟩) else none }
    (s0.setList { l with work := .coll c, total := groups (fCount w) collTile, done := [] }).progressAgrees

/-- A collective: poison in its member list is a data error of the instruction, once no cause makes it illegal. -/
def State.coll (s : State) (r : ListRef) (op : Nat) : State :=
  s.instr r op (fun l w => s.collCauses l w) (fun t l w => t.startColl l w)

/-- ALLREDUCE (R138). -/
def execAllreduce (r : ListRef) (s : State) : Host.Outcome State Fault Refusal := .next (s.coll r 0x50).wrapUp

/-- REDSCAT (R138). -/
def execRedscat (r : ListRef) (s : State) : Host.Outcome State Fault Refusal := .next (s.coll r 0x51).wrapUp

/-- ALLGATHER (R138). -/
def execAllgather (r : ListRef) (s : State) : Host.Outcome State Fault Refusal := .next (s.coll r 0x52).wrapUp

/-- BCAST (R138). -/
def execBcast (r : ListRef) (s : State) : Host.Outcome State Fault Refusal := .next (s.coll r 0x53).wrapUp

/-- COLLECTIVE_MARK (R139): the mark of a MARKED collective that has agreed is reached. -/
def State.collAtMark (s : State) (r : ListRef) : State := (s.contribute r.queue.val r.desc).advance

def execCollectiveMark (r : ListRef) (s : State) : Host.Outcome State Fault Refusal := .next (s.collAtMark r).wrapUp

/-! ### Frames and seals -/

/-- A frame of another device reaches a partition that can take part in exchanges. -/
def State.takesFrame (s : State) (h : KftHdr) : Bool :=
  s.comesIn h.sub h.icrcOk && s.ownId h.dstDev && s.present h.dstPart

/-- AGREE_RX (R190, R254). -/
def execAgreeRx (h : KftHdr) (pos : Nat) (diff : Bool) (digest : Word64) (s : State) : Host.Outcome State Fault Refusal :=
  .next (
    if s.takesFrame h then
      (s.putAgree { part := h.dstPart, key := h.tag.toNat / 4096, pos := pos, diff := diff, digest := digest }).progressAgrees
    else s.refuseRx h.sub h.icrcOk).wrapUp

/-- The seat of partition `p` that has sent its AGREE in the exchange `key`. -/
def State.seatWaiting (s : State) (p key : Nat) : Option Seat :=
  s.seats.find? (fun x => match s.agreeOf x with
    | some (q, a) => q == p && a.key == key && a.sent && a.pos != 0
    | none => false)

/-- AGREE_RESULT_RX (R190, R255). -/
def execAgreeResultRx (h : KftHdr) (result : Bool) (lowest : Nat) (s : State) : Host.Outcome State Fault Refusal :=
  .next (
    if s.takesFrame h then
      (match s.seatWaiting h.dstPart (h.tag.toNat / 4096) with
      | some x => (s.deliver 20 x result lowest).progressAgrees
      | none => s)
    else s.refuseRx h.sub h.icrcOk).wrapUp

/-- The seal block (Table JOB-4). -/
def sealBlock (b : Bool) (job step : Nat) (m : Mark) (listCrc : Word64) : List Byte :=
  overlay 64 [(0, leBytes 1 0x72), (1, leBytes 1 b.toNat), (2, leBytes 2 job), (8, leBytes 8 step), (16, leBytes 8 m.num),
    (24, leBytes 2 m.phase), (40, leBytes 8 listCrc.toNat)]

/-- The member votes on its slot's seal, with DIFF = 1 if the slot was not DONE by M or the entry is not RUNNING. Its time limit
counts from M. A member whose list is invalid has no place in the tree, and waits for the timeout. -/
def State.vote (s : State) (p e : Nat) (b : Bool) (x : SealSt) : State :=
  let job := s.rd (jobIdJob p e)
  let m := s.readMembers p true (s.rd (jobMembersLoAddr p e) * 4 + 2 ^ 32 * s.rd (jobMembersHiAddr p e))
  let step := s.slotStep p e b
  let y := { x with tick := some (s.tick - (s.beat.num - x.mark.num)) }
  if !m.valid then s.setSeal p e b (some y)
  else
    let a : Agree := { pos := m.members.idxOf (s.rd fabDevIdId, p), members := m.members,
                       digest := crc64 (sealBlock b job step x.mark (crc64 m.bytes)),
                       key := (job * 65536 + step % 65536) * 2 ^ 20 + 0xFFFFF,
                       diff := x.late || s.slotState p e b != 2 || s.rd (jobStateState p e) != 0, sent := false }
    (s.setSeal p e b (some { y with agree := some a })).progressAgrees

/-- SEAL_MARK (R254): mark M of a slot whose CKDONE has begun. -/
def State.sealAtMark (s : State) (p : Part) (e : Entry) (b : Bool) : State :=
  match (s.job p e).seal b with
  | some x => if s.reached x.mark ∧ x.tick = none then s.vote p e b x else s
  | none => s

def execSealMark (p : Part) (e : Entry) (b : Bool) (s : State) : Host.Outcome State Fault Refusal := .next (s.sealAtMark p e b).wrapUp

/-- SEAL_TIMEOUT (R255): no result by M + TIMEOUT. -/
def execSealTimeout (p : Part) (e : Entry) (b : Bool) (s : State) : Host.Outcome State Fault Refusal :=
  .next (
    match (s.job p e).seal b with
    | some { tick := some t, .. } =>
      if t + Nat.max 1 (s.rd (jobSealCfgTimeout p e)) ≤ s.tick then
        ((s.setSlot p e b 4).setSeal p e b none).event (jobSealEventTimeout p e)
      else s
    | _ => s)

end Sys2Proof.Machine
end

