-- ==== Sys2Proof/Machine/Checkpoint.lean ====
section
/-!
DEFINITION. The checkpoint instructions and JOB_RELEASE (R141, R252, R253, R261, 11_job_faults_checkpoint_restart.md).
-/
namespace Sys2Proof.Machine

open Reg

/-- SLOT_B of a checkpoint instruction. -/
def fSlotB (w : Nat) : Bool := fMod w % 2 == 1

/-- R252: a size, a base aligned by its register, and both areas below the partition's limit. -/
def State.slotAreaOk (s : State) (p e : Nat) : Bool :=
  s.slotSize p e != 0 && decide (s.slotBase p e false + 2 * s.slotSize p e ≤ s.limitOf p * 4096)

/-- A CKDONE closes the slot, and waits for its writes (R141). -/
def State.slotClosing (s : State) (p job : Nat) (b : Bool) : Bool :=
  s.lists.any (fun l => l.running && l.ending.isNone && s.partOf l == p && l.hdr.job == job &&
    match l.work with
    | .closing c _ => c == b
    | _ => false)

/-- R253: the states in which each checkpoint instruction is legal. -/
def State.slotLegal (s : State) (p e job op : Nat) (b : Bool) : Bool :=
  let st := s.slotState p e b
  let newest := s.on (jobStateNewestValid p e) && s.rd (jobStateNewestB p e) == b.toNat
  match op with
  | 0x70 => st == 0 || st == 1 || st == 4 || (st == 3 && !newest)
  | 0x73 => st == 3
  | _ => st == 1 && !s.slotClosing p job b

/-- The cause 0x020B of a checkpoint instruction. -/
def State.badSlot (s : State) (l : RunList) (w : Nat) : Bool :=
  let p := s.partOf l
  match s.jobEntry p l.hdr.job with
  | some e => !s.slotAreaOk p e || !s.slotLegal p e l.hdr.job (bitsOf w 0 8) (fSlotB w)
  | none => true

/-- The slot area of an instruction: its base and size; nothing without an entry. -/
def State.slotArea (s : State) (l : RunList) (w : Nat) : Nat × Nat :=
  let p := s.partOf l
  match s.jobEntry p l.hdr.job with
  | some e => (s.slotBase p e (fSlotB w), s.slotSize p e)
  | none => (0, 0)

/-- CKDONEs that wait on a slot which is opened again complete, and report nothing. -/
def State.supersede (s : State) (p job : Nat) (b : Bool) : State :=
  (s.lists.filter (fun l => l.running && l.ending.isNone && s.partOf l == p && l.hdr.job == job &&
    match l.work with
    | .closing c _ => c == b
    | _ => false)).foldl (fun t l => t.completeInstr l false) s

/-- CKBEGIN: the slot opens for the job's current step on the device (R252); step 0 before any STEP. -/
def execCkbegin (r : ListRef) (s : State) : Host.Outcome State Fault Refusal :=
  .next (s.instr r 0x70 (fun l w => [(leftover w [(8, 1)], 0x0202), (s.badSlot l w, 0x020B)])
    (fun t l w =>
      let p := t.partOf l
      let b := fSlotB w
      match t.jobEntry p l.hdr.job with
      | some e =>
        ((((t.supersede p l.hdr.job b).setSlot p e b 1).setSlotStep p e b (t.jobStep l.hdr.job)).setSeal p e b none).finish l false
      | none => t)).wrapUp

/-- CKDONE: the slot closes once every CKWRITE to it on this device is complete. Its mark M is that of the slot's seal from now on: a
member whose slot is not DONE at M votes all the same (R254). -/
def execCkdone (r : ListRef) (s : State) : Host.Outcome State Fault Refusal :=
  .next (s.instr r 0x72 (fun l w => [(leftover w [(8, 1), (116, 2)], 0x0202), (s.badSlot l w, 0x020B)])
    (fun t l w =>
      let m := l.ms.getD (fExt w 116 2) ⟨0, 0⟩
      let t1 := t.setList { l with work := .closing (fSlotB w) m }
      match t.jobEntry (t.partOf l) l.hdr.job with
      | some e => t1.setSeal (t.partOf l) e (fSlotB w) (some { mark := m, late := false, tick := none, agree := none })
      | none => t1)).wrapUp

/-- Whether an offset and length pass the end of the slot area. DEDUCED: of areas that break R252 there is no end to pass,
so that R252's own cause, 0x020B, is the one reported (log entry 20). -/
def State.pastSlot (s : State) (l : RunList) (w off : Nat) : Bool :=
  match s.jobEntry (s.partOf l) l.hdr.job with
  | some e => s.slotAreaOk (s.partOf l) e && decide ((s.slotArea l w).2 < off + fLen w)
  | none => false

/-- Source and destination of CKWRITE or CKREAD. -/
def State.ckRanges (s : State) (l : RunList) (w : Nat) : Range × Range :=
  let a := (s.slotArea l w).1
  if bitsOf w 0 8 = 0x71 then (⟨l.slot (fAsa w), fLen w⟩, ⟨a + l.slot (fAsc w), fLen w⟩)
  else (⟨a + l.slot (fAsa w), fLen w⟩, ⟨l.slot (fAsc w), fLen w⟩)

/-- Causes of CKWRITE and CKREAD; `off` is the offset in the slot, `far` the range outside it. -/
def State.ckCauses (s : State) (l : RunList) (w off : Nat) (far : Range) : List (Bool × Nat) :=
  let x := s.ckRanges l w
  [(leftover w [uAsa, uAsc, uFmtA, uBase, (8, 1), (84, 40)], 0x0202),
   (badFmt (fFmtA w), 0x0203),
   (fLen w == 0, 0x0205),
   (s.pastSlot l w off || s.badRange l allSpaces 1 far, 0x0206),
   (overlaps [x.2] [x.1], 0x0207),
   (s.badSlot l w, 0x020B)] ++ tileCauses l w (groups (fLen w) moveTile)

/-- CKWRITE. -/
def execCkwrite (r : ListRef) (s : State) : Host.Outcome State Fault Refusal :=
  .next (s.instr r 0x71 (fun l w => s.ckCauses l w (l.slot (fAsc w)) (s.ckRanges l w).1)
    (fun t l w => t.issue l w (groups (fLen w) moveTile) (fFmtA w) [(t.ckRanges l w).1] (fun i => [bytesOf (t.ckRanges l w).1 i]))).wrapUp

/-- CKREAD. -/
def execCkread (r : ListRef) (s : State) : Host.Outcome State Fault Refusal :=
  .next (s.instr r 0x73 (fun l w => s.ckCauses l w (l.slot (fAsa w)) (s.ckRanges l w).2)
    (fun t l w => t.issue l w (groups (fLen w) moveTile) (fFmtA w) [] (fun _ => []))).wrapUp

/-- An enabled queue of the partition is bound to the job. -/
def State.jobBound (s : State) (p job : Nat) : Bool :=
  (s.queuesOf p).any (fun q => s.on (queCtlEn q) && s.rd (queBindJob q) == job)

/-- The entry is freed, and both slots return to EMPTY; a job that takes it finds a new entry's state. -/
def State.freeJob (s : State) (p e : Nat) : State :=
  let s1 := ((s.setSlot p e false 0).setSlot p e true 0).setJob p e JobSt.reset
  let s2 := ((s1.setSlotStep p e false 0).setSlotStep p e true 0).wr64 (jobCleanLimitLoStep p e) (jobCleanLimitHiStep p e) (2 ^ 64 - 1)
  ((((s2.wr (jobIdValid p e) 0).wr (jobStateFaultCount p e) 0).wr (jobStateCleanSet p e) 0).wr (jobStateNewestValid p e) 0).wr
    (jobStateQuiet p e) 0

/-- JOB_RELEASE (R261): while the entry is RUNNING and no enabled queue of the partition is bound to its job. -/
def execJobRelease (path : Path) (p : Part) (e : Entry) (s : State) : Host.Outcome State Fault Refusal :=
  .next (
    if s.ownsPart path p && s.on (jobIdValid p e) && s.rd (jobStateState p e) == 0 && !s.jobBound p (s.rd (jobIdJob p e)) then
      (s.freeJob p e).closing 2 (s.rd (jobIdJob p e)) p e
    else s)

end Sys2Proof.Machine
end

