-- ==== Sys2Proof/Machine/Tiles.lean ====
section
/-!
DEFINITION. Tiles that finish (R112, R114, R157–R160, R206–R208): their outputs, committed or held for comparison; and the
slots that primary tiles earn.
-/
namespace Sys2Proof.Machine

open Reg

/-! ### The output of a tile -/

/-- What tile `t` of the list's instruction produces from memory as it stands; none while a source has not answered. Where Z lies
at X's base with elements of another width (R118), the order in which tiles finish decides what later tiles read (DESIGN CHOICE,
log entry 128). -/
def State.tileOut (s : State) (l : RunList) (w t : Nat) : Option TileOut :=
  let p := s.partOf l
  let tag := s.tileTag l w t (fFmtC w)
  let mv := tileSpan (fLen w) t moveTile
  let el := tileSpan (fCount w) t moveTile
  let ve := tileSpan (fCount w) t vecTile
  let re := tileSpan (fRows w) t redTile
  match bitsOf w 0 8 with
  | 0x20 =>
    if fMod w % 2 = 1 then s.repeatOut p (l.slot (fAsa w)) (l.slot (fAsc w)) mv.1 mv.2
    else s.copyOut p (l.slot (fAsa w)) (l.slot (fAsc w)) mv.1 mv.2
  | 0x21 => s.convertOut l w el.1 el.2 tag
  | 0x30 => s.mmaOut l w t tag
  | 0x40 => s.vewOut l w ve.1 ve.2 tag
  | 0x41 => s.vunOut l w ve.1 ve.2 tag
  | 0x42 => s.vredOut l w re.1 re.2 tag
  | 0x71 => s.copyOut p (s.ckRanges l w).1.base (s.ckRanges l w).2.base mv.1 mv.2
  | 0x73 => s.copyOut p (s.ckRanges l w).1.base (s.ckRanges l w).2.base mv.1 mv.2
  | _ => s.collOut l w t tag

/-- Tiles of MMA, VEW, VUN and VRED: candidates for screening (R123). -/
def screened (op : Nat) : Bool := op == 0x30 || op == 0x40 || op == 0x41 || op == 0x42

/-- A vector tile. -/
def vectorOp (op : Nat) : Bool := screened op && op != 0x30

/-- The bytes that a cluster produced in place of the right ones, as far as they are given. -/
def splitOver : List Piece → List Byte → List Piece
  | [], _ => []
  | x :: xs, bs =>
    let n := x.bytes.length
    { x with bytes := bs.take n ++ x.bytes.drop bs.length } :: splitOver xs (bs.drop n)

/-- The tile's tag: moves carry FMT_A, every other tile FMT_C. -/
def State.ownTag (s : State) (l : RunList) (w t : Nat) : Word64 :=
  let op := bitsOf w 0 8
  s.tileTag l w t (if op = 0x20 ∨ op = 0x71 ∨ op = 0x73 then fFmtA w else fFmtC w)

/-- The bytes that a tile's signature covers (R208). -/
def TileOut.signature (o : TileOut) : Word64 := crc64 (o.pieces.flatMap Piece.bytes)

/-- What tile `t` of the list's instruction is read from. -/
def State.tileReads (s : State) (l : RunList) (w t : Nat) : List (Nat × Nat) :=
  let of := fun (r : Range) => [((bytesOf r t).base, (bytesOf r t).len)]
  let ve := tileSpan (fCount w) t vecTile
  let el := tileSpan (fCount w) t moveTile
  let re := tileSpan (fRows w) t redTile
  match bitsOf w 0 8 with
  | 0x20 => if fMod w % 2 = 1 then [((copySrc l w).base, 64)] else of (copySrc l w)
  | 0x21 => convertReads l w el.1 el.2
  | 0x30 => mmaReads l w t
  | 0x40 => vewReads l w ve.1 ve.2
  | 0x41 => convertReads l w ve.1 ve.2
  | 0x42 => (List.range (re.2 - re.1)).flatMap (fun i => vredReads l w (re.1 + i))
  | 0x71 => of (s.ckRanges l w).1
  | 0x73 => of (s.ckRanges l w).1
  | _ => ownReads l w t

/-- What the tile's reads do to the lines they read (R157, R160, R165): nothing where no line has an error and no read failed. -/
def State.touchTile (s : State) (l : RunList) (w t : Nat) (faults : List Nat) : State :=
  if faults = [] ∧ s.mem.flaws = [] then s
  else (s.tileReads l w t).foldl (fun u r => u.touch (s.partOf l) false (some (l.queue, l.desc)) r.1 r.2) s

/-! ### Slots (R206) -/

/-- F of a fraction code (Table SCR-1); 0 when off. -/
def wheelF (code : Nat) : Nat :=
  match code with
  | 1 => 1024
  | 2 => 256
  | 3 => 64
  | 4 => 16
  | 5 => 4
  | _ => 0

/-- F of the wheel of a partition, matrix or vector. -/
def WheelSt.period (x : WheelSt) (vector : Bool) : Nat := wheelF (if vector then x.vfraction else x.fraction)

/-- F_slot: of the largest fraction in force on a present partition; none when every one is off. -/
def State.slotF (s : State) (vector : Bool) : Option Nat :=
  lowestOf ((s.presentParts.map (fun p => (s.wheel p).period vector)).filter (· ≠ 0))

/-- Unit `u` has completed a primary tile: toward its next slot, which it idles away when it holds one already. -/
def State.earnSlot (s : State) (vector : Bool) (u : Nat) (tag : Word64) : State :=
  let x := s.unit vector u
  let x1 := { x with cands := x.cands + 1, primaries := x.primaries + 1 }
  let s0 := s.countCl u (if vector then 0x05 else 0x04) (some tag) 1
  match s.slotF vector with
  | none => s0.setUnit vector u { x1 with primaries := x.primaries }
  | some f =>
    if x1.primaries < f - 1 then s0.setUnit vector u x1
    else if x.balance < 1 then s0.setUnit vector u { x1 with primaries := 0, balance := x.balance + 1 }
    else (s0.setUnit vector u { x1 with primaries := 0, idle := x.idle + 1 }).countCl u 0x08 (some tag) 1

/-! ### Comparison (R209, R210) -/

/-- A comparison joins a unit's watch of wheel step `n`, newest first; a spare that took over in the middle of the step has none
yet (R201). -/
def joinWatch (n : Nat) (same : Bool) : List Watch → List Watch
  | [] => [⟨n, true, !same⟩]
  | y :: l =>
    if y.step = n then { y with compared := true, dirty := y.dirty || !same } :: l
    else if y.step < n then ⟨n, true, !same⟩ :: y :: l
    else y :: joinWatch n same l

/-- What a comparison says of the primary's watch of the wheel step in which the tile was issued. -/
def State.noteWatch (s : State) (h : HeldTile) (same : Bool) : State :=
  let x := s.unit h.vector h.primary
  if (s.wheel (s.partOfDie (h.primary / 168))).steps.any (fun e => e.1 == h.wheel) then
    s.setUnit h.vector h.primary { x with watches := joinWatch h.wheel same x.watches }
  else s

/-- Signatures that differ: the output is discarded, and an arbiter issues. -/
def State.mismatch (s : State) (l : RunList) (h : HeldTile) : State :=
  let p := s.partOf l
  let s1 := match s.findList l.queue l.desc with
    | some k => s.setList { k with held := k.held.filter (fun x => x.tile != h.tile) }
    | none => s
  let s2 := s1.noteWatch h false
  let vote := fun (a : Option Nat) (same : Bool) =>
    ({ queue := l.queue, desc := l.desc, job := l.hdr.job, part := p, list := l, word := (l.word.getD 0).toNat,
       tile := { h with arbHost := a, sameDie := same, mismatch := some s.tick } } : VoteSt)
  match s2.arbiterHost h with
  | some (u, same) =>
    let s3 := { s2 with votes := s2.votes ++ [vote (some u) same] }.countCl u 0x07 (some (tagWith h.tag 3 0)) 1
    if same then s3.event (scrPartStatusSameDie p) else s3
  | none => { s2 with votes := s2.votes ++ [vote none false] }

/-- The RMG compares the signatures of a held tile, once both are there. -/
def State.compareTile (s : State) (l : RunList) (h : HeldTile) : State :=
  match h.sigP, h.sigS with
  | some a, some b => if a = b then (s.noteWatch h true).commitHeld l.queue l.desc h else s.mismatch l h
  | _, _ => s

/-- A selected tile that will not be compared is counted, and no shadow waits for it any more. -/
def State.uncompare (s : State) (l : RunList) (h : HeldTile) : State :=
  let s1 := { s with shadows := s.shadows.filter (fun x => !(x.queue == l.queue && x.desc == l.desc && x.tile == h.tile)) }
  if h.lone then s1 else s1.count (scrPartUnscreenedCount (s.partOf l)) 1

/-! ### TILE_COMPLETE -/

/-- The list and its instruction word, when tile `t` of it is running: issued, not finished, and on a cluster that backs its
target. -/
def State.runningTile (s : State) (r : ListRef) (t : Nat) : Option (RunList × Nat) :=
  match s.findList r.queue.val r.desc with
  | some l =>
    let issued := match l.work with | .tiles => true | .coll _ => true | _ => false
    let busy := l.held.any (fun h => h.tile == t && h.output.isSome) ||
      s.votes.any (fun v => v.queue == l.queue && v.desc == l.desc && v.tile.tile == t)
    match l.word, l.ending with
    | some w, none =>
      let placed := !screened (bitsOf w.toNat 0 8) || (match targetOf l.hdr t with
        | some (d, lc) => (s.backing d lc).isSome
        | none => false)
      if l.running && issued && decide (t < l.total) && !l.done.contains t && !busy && placed then some (l, w.toNat) else none
    | _, _ => none
  | none => none

/-- The output of an unselected tile goes to memory, and the tile retires. -/
def State.commitTile (s : State) (l : RunList) (w t : Nat) (o : TileOut) : State :=
  let tag := s.ownTag l w t
  let s1 := o.pieces.foldl (fun u x => u.jobStore l tag x.poison x.addr x.bytes) s
  let tgt := if screened (bitsOf w 0 8) then (targetOf l.hdr t).bind (fun x => (s.backing x.1 x.2).map (fun u => (u, x.2))) else none
  s1.retireTile l.queue l.desc t (tgt.map Prod.fst) ((tgt.map Prod.snd).getD 0) false tag

/-- A selected tile's output is held for its comparison; after a data error it is committed poisoned, never compared. -/
def State.holdTile (s : State) (l : RunList) (h : HeldTile) (o : TileOut) (bad : Bool) : State :=
  let h1 := { h with output := some o.pieces, sigP := some o.signature }
  let s1 := s.setHeld l.queue l.desc h1
  if bad || h.lone then (s1.uncompare l h).commitHeld l.queue l.desc h1 else s1.compareTile l h1

/-- The target of a screened tile has completed a primary tile. -/
def State.tileEarns (s : State) (l : RunList) (w t : Nat) (tag : Word64) : State :=
  let op := bitsOf w 0 8
  if !screened op then s
  else match (targetOf l.hdr t).bind (fun x => s.backing x.1 x.2) with
    | some u => s.earnSlot (vectorOp op) u tag
    | none => s

/-- The cluster produced other bytes than the right ones (R203). -/
def TileOut.miscomputed (o : TileOut) (wrong : Option (List Byte)) : TileOut := { o with pieces := splitOver o.pieces (wrong.getD []) }

/-- TILE_COMPLETE (R112). A data error ends the list once the instruction has finished all of its tiles, so that no timing
decides its STATUS and DETAIL (R114). -/
def execTileComplete (r : ListRef) (t : Nat) (wrong : Option (List Byte)) (ecc : List EccEvent) (s : State) :
    Host.Outcome State Fault Refusal :=
  .next (
    match s.runningTile r t with
    | none => s.strike ecc
    | some (l, w) =>
      let s0 := s.strike ecc
      match s0.tileOut l w t with
      | none => s0
      | some o =>
        let o1 := o.miscomputed wrong
        let s1 := s0.touchTile l w t o.faults
        let s2 := s1.addFaults l.queue l.desc o.faults
        let held := l.held.find? (fun h => h.tile == t)
        let s3 := s2.tileEarns l w t ((held.map HeldTile.tag).getD (s.ownTag l w t))
        let s4 := match held with
          | some h => s3.holdTile l h o1 (o.faults != [])
          | none => s3.commitTile l w t o1
        s4.startShadows.advance.wrapUp)

end Sys2Proof.Machine
end

