-- ==== Sys2Proof/Machine/Wheel.lean ====
section
/-!
DEFINITION. The coverage wheel (R199–R204), shadow and arbiter runs that end, and the vote (R209–R215).
-/
namespace Sys2Proof.Machine

open Reg

/-! ### Advancing (R199–R204) -/

/-- ρ_P of R202. -/
def wheelRho (pr f : Nat) : Nat := pr * 0x9e3779b97f4a7c15 % 2 ^ 64 / 2 ^ 54 % f

/-- The rank of a die among a partition's dies (R201). -/
def State.rankOf (s : State) (p d : Nat) : Nat := (s.diesOf p).idxOf d

/-- The backed logical clusters of a partition. -/
def State.backedOf (s : State) (p : Nat) : List (Nat × Nat) :=
  (s.diesOf p).flatMap (fun d => (s.activeOf d).map (fun c => (d, c.1)))

/-- R202: whether a logical cluster is watched in wheel step `n`, and the shadow die of one that is, if a die is eligible. -/
def State.watchOf (s : State) (p f n d lc : Nat) : Option (Option Nat) :=
  let k := s.rankOf p d * 160 + lc
  if (k + wheelRho (n / f) f) % f = n % f then
    let others := (diesAfter d).filter s.eligibleDie
    some (if others.isEmpty then none else others[(n / f + k) % others.length]?)
  else none

/-- The watched set of wheel step `n`, and the watched clusters without a partner. -/
def State.watchedSet (s : State) (p f n : Nat) : List (Nat × Nat) × Bool :=
  if f = 0 then ([], false)
  else
    let ws := (s.backedOf p).filterMap (fun c => (s.watchOf p f n c.1 c.2).map (fun o => (logical c.1 c.2, o)))
    (ws.filterMap (fun x => x.2.map (fun d => (x.1, d))), ws.any (fun x => x.2.isNone))

/-- Units of the enabled clusters of a partition. -/
def State.unitsOf (s : State) (p : Nat) : List Nat := (s.backedOf p).filterMap (fun c => s.backing c.1 c.2)

/-- R204: a wheel step in which an enabled cluster completed fewer than F candidate tiles. -/
def State.starved (s : State) (p : Nat) : Bool :=
  let x := s.wheel p
  [false, true].any (fun v => x.period v != 0 && (s.unitsOf p).any (fun u => decide ((s.unit v u).cands < x.period v)))

/-- Every unit of a partition's dies, changed. -/
def State.mapUnits (s : State) (p : Nat) (f : ScreenUnit → ScreenUnit) : State :=
  ((s.diesOf p).flatMap (fun d => (List.range 168).map (fun i => d * 168 + i))).foldl (fun t u =>
    (t.setUnit false u (f (t.unit false u))).setUnit true u (f (t.unit true u))) s

/-- The watches of wheel step `n` begin. -/
def State.beginWatches (s : State) (vector : Bool) (n : Nat) (ws : List (Nat × Nat)) : State :=
  ws.foldl (fun t x => match t.backing (x.1 / 160) (x.1 % 160) with
    | some u => t.setUnit vector u { t.unit vector u with watches := ⟨n, false, false⟩ :: (t.unit vector u).watches }
    | none => t) s

/-- The highest step of a job whose boundary comes before beat `b`. -/
def StepSt.before (x : StepSt) (b : Nat) : Option Nat :=
  (((x.step, x.boundary) :: x.past).find? (fun e => decide (e.2 < b))).map Prod.fst

/-- The highest steps that the device's jobs set before beat `b` (R120, R213). -/
def State.highSteps (s : State) (b : Nat) : List (Nat × Nat) :=
  s.steps.filterMap (fun e => (e.2.bind (fun x => x.before b)).map (fun n => (e.1, n)))

/-- Wheel step `n` of partition `p` begins at the boundary of beat `b`, with settings as they stand. -/
def State.enterStep (s : State) (p n b : Nat) : State :=
  let x := s.wheel p
  let m := s.watchedSet p (x.period false) n
  let v := s.watchedSet p (x.period true) n
  let s1 := (s.setWheel p { x with watched := m.1, vwatched := v.1, firsts := [], count := 0,
                                   steps := (n, s.highSteps b) :: x.steps }).wr (scrPartWheelS p) n
  let s2 := ((s1.mapUnits p (fun u => { u with cands := 0 })).beginWatches false n m.1).beginWatches true n v.1
  if m.2 || v.2 then s2.event (scrPartStatusNoPartner p) else s2

/-- R200: the settings of SCR_PART_CTL take effect, and s restarts at 0. -/
def State.restartWheel (s : State) (p b : Nat) : State :=
  let x := { s.wheel p with fraction := s.rd (scrPartCtlFraction p), vfraction := s.rd (scrPartCtlVfraction p),
                            stride := Nat.max 1 (s.rd (scrPartCtlStride p)), restart := false, steps := [] }
  ((s.setWheel p x).mapUnits p (fun u => { u with watches := [] })).enterStep p 0 b

/-- The wheel step that ends was starved or was not. -/
def State.leaveStep (s : State) (p : Nat) : State :=
  if (s.wheel p).steps != [] && s.starved p then (s.event (scrPartStatusStarved p)).count (scrPartStarvedCount p) 1 else s

/-- WHEEL_ADVANCE (R199–R202): a qualifying boundary of the partition is reached. -/
def State.advanceWheel (s : State) (p : Part) : State :=
  match (s.wheel p).bounds with
  | [] => s
  | b :: bs =>
    if !s.reached ⟨b, 0⟩ then s
    else
      let x := { s.wheel p with bounds := bs }
      let s1 := s.setWheel p x
      let s2 := if x.restart then (s1.leaveStep p).restartWheel p b
        else if x.count + 1 < x.stride then s1.setWheel p { x with count := x.count + 1 }
        else (s1.leaveStep p).enterStep p ((s1.rd (scrPartWheelS p) + 1) % 2 ^ 32) b
      s2.startShadows

def execWheelAdvance (p : Part) (s : State) : Host.Outcome State Fault Refusal := .next (s.advanceWheel p)

/-! ### Shadows (R206, R209, R210) -/

/-- The oldest shadow queued on a die that has waited SCR_SLOT_WAIT ticks. -/
def State.overdueShadow (s : State) (d : Nat) : Option QueuedShadow :=
  (s.shadows.filter (fun x => x.host / 168 == d && decide (x.since + Nat.max 1 (s.rd scrSlotWaitBeats) ≤ s.tick))).head?

/-- SHADOW_SLOT_WAIT_EXPIRY (R206). -/
def execShadowSlotWaitExpiry (d : Die) (s : State) : Host.Outcome State Fault Refusal :=
  .next (
    match s.overdueShadow d with
    | none => s
    | some x =>
      match best (fun u => (s.unit x.vector u).balance) (s.activeOf d) with
      | some (_, u) => if -4 < (s.unit x.vector u).balance then s.startShadow x u else s
      | none => s)

/-- A held tile whose shadow runs. -/
def State.shadowOf (s : State) (r : ListRef) (t : Nat) : Option (RunList × HeldTile) :=
  (s.findList r.queue.val r.desc).bind (fun l =>
    (l.held.find? (fun h => h.tile == t && h.shadowHost.isSome && h.sigS.isNone && !h.lone)).map (fun h => (l, h)))

/-- R210: the shadow consumed poison or met an uncorrectable error: the tile is not compared, and the data errors are its
instruction's. -/
def State.shadowPoisoned (s : State) (l : RunList) (h : HeldTile) (fs : List Nat) : State :=
  let s1 := (s.uncompare l h).addFaults l.queue l.desc fs
  let h1 := { h with lone := true }
  if h.output.isSome then s1.commitHeld l.queue l.desc h1 else s1.setHeld l.queue l.desc h1

/-- A shadow or arbiter run ends: it reads the tile's operands in the originating partition, as memory stands (R205); none
while a source has not answered. -/
def State.rerun (s : State) (l : RunList) (w t : Nat) (wrong : Option (List Byte)) (ecc : List EccEvent) : Option (TileOut × State) :=
  let s0 := s.strike ecc
  (s0.tileOut l w t).map (fun o => (o.miscomputed wrong, s0.touchTile l w t o.faults))

/-- SHADOW_COMPLETE (R209). -/
def execShadowComplete (r : ListRef) (t : Nat) (wrong : Option (List Byte)) (ecc : List EccEvent) (s : State) :
    Host.Outcome State Fault Refusal :=
  .next (
    match s.shadowOf r t with
    | none => s.strike ecc
    | some (l, h) =>
      match s.rerun l (l.word.getD 0).toNat h.tile wrong ecc with
      | none => s.strike ecc
      | some (o, s1) =>
        let h1 := { h with sigS := some o.signature }
        let s2 := if o.faults = [] then (s1.setHeld l.queue l.desc h1).compareTile l h1 else s1.shadowPoisoned l h o.faults
        s2.startShadows.advance.wrapUp)

/-! ### Votes (R211–R213) -/

/-- A named unit as the map numbers it. -/
def namedKey (vector : Bool) (u : Nat) : Nat := if vector then 672 + u else u

/-- R213 for one unit: the job's highest step before the latest watch that it passed. -/
def State.cleanStep (s : State) (vector : Bool) (job u : Nat) : Option Nat :=
  let x := s.wheel (s.partOfDie (u / 168))
  let now := s.rd (scrPartWheelS (s.partOfDie (u / 168)))
  match (s.unit vector u).watches.find? (fun y => y.compared && !y.dirty && y.step != now) with
  | some y => (x.steps.find? (fun e => e.1 == y.step)).bind (fun e => (e.2.find? (fun j => j.1 == job)).map Prod.snd)
  | none => none

def highestOf : List Nat → Option Nat
  | [] => none
  | v :: l => some (match highestOf l with | some m => Nat.max v m | none => v)

/-- LAST_CLEAN_STEP over the units a vote names. -/
def State.lastClean (s : State) (vector : Bool) (job : Nat) (us : List Nat) : Nat :=
  (highestOf (us.filterMap (s.cleanStep vector job))).getD (2 ^ 64 - 1)

/-- The units a vote names (Table SCR-3). -/
def VoteSt.named (v : VoteSt) (code : Nat) : List Nat :=
  let h := v.tile
  match code with
  | 0 => [h.primary]
  | 1 => h.shadowHost.toList
  | 2 => [h.primary] ++ h.shadowHost.toList ++ h.arbHost.toList
  | _ => [h.primary] ++ h.shadowHost.toList

/-- Byte 1 of Table SCR-6. -/
def VoteSt.byte1 (v : VoteSt) (code : Nat) : Nat := code + 4 * v.tile.sameDie.toNat + 8 * v.tile.vector.toNat

def unit16 (u : Option Nat) : Nat := u.getD 0xFFFF

/-- The log entry of a vote (Table SCR-6). -/
def State.voteEntry (s : State) (v : VoteSt) (code seq clean : Nat) (sigA : Option Word64) : List Byte :=
  let h := v.tile
  let x := s.wheel v.part
  overlay 128 [(0, [0x40]), (1, leBytes 1 (v.byte1 code)), (2, leBytes 2 seq),
    (4, leBytes 1 (if h.vector then x.vfraction else x.fraction)), (8, leBytes 8 h.tag.toNat),
    (16, leBytes 8 (h.sigP.getD 0).toNat), (24, leBytes 8 (h.sigS.getD 0).toNat), (32, leBytes 8 (sigA.getD 0).toNat),
    (40, leBytes 2 h.primary), (42, leBytes 2 (unit16 h.shadowHost)), (44, leBytes 2 (unit16 h.arbHost)),
    (48, leBytes 8 s.beat.num), (56, leBytes 2 s.beat.phase), (58, leBytes 4 h.wheel), (64, leBytes 8 h.step),
    (72, leBytes 8 clean)]

/-- The entry joins the log (R215). -/
def State.logVote (s : State) (seq : Nat) (bs : List Byte) : State :=
  let full := (s.scrLog.find (seq % 64)).isSome && decide (64 ≤ (seq + 65536 - s.rd scrLogConsSeq) % 65536)
  let s1 := if full then s.event scrEventLogWrap else s
  { s1 with scrLog := s1.scrLog.set (fun _ => []) (seq % 64) bs }.wr scrLogProdSeq ((seq + 1) % 65536)

/-- The signature that a named unit produced, and the one that two runs agreed on (R240). -/
def VoteSt.observed (v : VoteSt) (sigA : Option Word64) (u : Nat) : Word64 :=
  if u = v.tile.primary then v.tile.sigP.getD 0
  else if some u = v.tile.shadowHost then v.tile.sigS.getD 0 else sigA.getD 0

def VoteSt.expected (v : VoteSt) (sigA : Option Word64) : Word64 :=
  match sigA with
  | some a => if some a = v.tile.sigP ∨ some a = v.tile.sigS then a else 0
  | none => 0

/-- Fields of a SCREEN_VOTE record (Tables QTN-6, QTN-7) for the named unit `u`. -/
def VoteSt.fields (v : VoteSt) (code seq clean u : Nat) (sigA : Option Word64) : List (Nat × List Byte) :=
  let h := v.tile
  [(48, leBytes 8 h.tag.toNat), (56, leBytes 8 h.step), (64, leBytes 8 (v.expected sigA).toNat),
   (72, leBytes 8 (v.observed sigA u).toNat), (99, leBytes 1 (v.byte1 code)), (144, leBytes 8 clean),
   (152, leBytes 8 (h.sigP.getD 0).toNat), (160, leBytes 8 (h.sigS.getD 0).toNat), (168, leBytes 8 (sigA.getD 0).toNat),
   (176, leBytes 2 h.primary), (178, leBytes 2 (unit16 h.shadowHost)), (180, leBytes 2 (unit16 h.arbHost)),
   (182, leBytes 2 seq)]

/-- R212: a vote completes. -/
def State.completeVote (s : State) (v : VoteSt) (code : Nat) (sigA : Option Word64) : State :=
  let h := v.tile
  let us := v.named code
  let seq := s.rd scrLogProdSeq
  let clean := s.lastClean h.vector v.job us
  let s1 := ({ s with votes := s.votes.erase v }.logVote seq (s.voteEntry v code seq clean sigA)).event scrEventMismatch
  let s2 := ((s1.count (scrPartMismatchCount v.part) 1).recordVote (h.primary / 168)).trace 0x0A (traceUnit 1 h.primary) (v.byte1 code + 65536 * seq)
    (some h.tag) (unit16 h.shadowHost + 65536 * unit16 h.arbHost) [v.part]
  let off := if h.vector then 672 else 0
  let s3 := s2.finding 0x01 (if code < 2 then 2 else 1) (us.map (namedKey h.vector))
    (fun k => v.fields code seq clean (k - off) sigA) [v.job]
  let blamed := if code = 1 then h.shadowHost.getD h.primary else h.primary
  s3.declareFault 0x01 v.job v.part (unitWord (namedKey h.vector blamed)) (some clean)

def State.findVote (s : State) (q d t : Nat) : Option VoteSt :=
  s.votes.find? (fun v => v.queue == q && v.desc == d && v.tile.tile == t)

/-- The outcome that an arbiter's signature decides (Table SCR-3). -/
def VoteSt.outcome (v : VoteSt) (sig : Word64) : Nat :=
  if some sig = v.tile.sigS then (if v.tile.sameDie then 2 else 0) else if some sig = v.tile.sigP then 1 else 2

/-- A result after the timeout is logged in the vote's entry, while the log still holds it. -/
def State.lateArbiter (s : State) (q d t : Nat) (sig : Word64) : State :=
  match s.lateArbs.find? (fun x => x.1.queue == q && x.1.desc == d && x.1.tile.tile == t) with
  | some x =>
    let bs := s.scrLog.get (fun _ => []) (x.2 % 64)
    let s1 := { s with lateArbs := s.lateArbs.erase x }
    if field bs 2 2 = x.2 then
      { s1 with scrLog := s1.scrLog.set (fun _ => []) (x.2 % 64) (overlay 128 [(0, bs), (32, leBytes 8 sig.toNat)]) }
    else s1
  | none => s

/-- The vote of a tile whose arbiter runs, in progress or ended by timeout. -/
def State.arbiterOf (s : State) (q d t : Nat) : Option VoteSt :=
  match s.findVote q d t with
  | some v => if v.tile.arbHost.isSome then some v else none
  | none => (s.lateArbs.find? (fun x => x.1.queue == q && x.1.desc == d && x.1.tile.tile == t)).map Prod.fst

/-- ARBITER_COMPLETE (R211). An arbiter that meets a data error gives no signature, and its vote waits for the timeout (log entry
132). -/
def execArbiterComplete (r : ListRef) (t : Nat) (wrong : Option (List Byte)) (ecc : List EccEvent) (s : State) :
    Host.Outcome State Fault Refusal :=
  .next (
    match s.arbiterOf r.queue r.desc t with
    | none => s.strike ecc
    | some v =>
      match s.rerun v.list v.word t wrong ecc with
      | none => s.strike ecc
      | some (o, s1) =>
        (if o.faults ≠ [] then s1
        else match s1.findVote r.queue r.desc t with
          | some x => s1.completeVote x (x.outcome o.signature) (some o.signature)
          | none => s1.lateArbiter r.queue r.desc t o.signature).wrapUp)

/-- ARB_TIMEOUT (R211): no result by the timeout, or no die left to run the arbiter. -/
def execArbTimeout (r : ListRef) (t : Nat) (s : State) : Host.Outcome State Fault Refusal :=
  .next (
    match s.findVote r.queue r.desc t with
    | some v =>
      let due := decide (v.tile.mismatch.getD 0 + Nat.max 1 (s.rd scrArbTimeoutBeats) ≤ s.tick)
      if !due && v.tile.arbHost.isSome then s
      else
        let s1 := if v.tile.arbHost.isSome then { s with lateArbs := (v, s.rd scrLogProdSeq) :: s.lateArbs } else s
        (if due then s1.event scrEventArbTimeout else s1).completeVote v 3 none
    | none => s).wrapUp

end Sys2Proof.Machine
end

