-- ==== Sys2Proof/Machine/Fabric.lean ====
section
/-!
DEFINITION. The receiving side of the Klorin Fabric Transport (R179–R186), connections that open and close (R181, R183),
ports, routes and BEAT_ANN (R173, R174, R177, R189, R218).
-/
namespace Sys2Proof.Machine

open Reg

/-! ### Acknowledgements (R182–R184) -/

/-- RETRY; 0 is treated as 1. -/
def State.retryLimit (s : State) : Nat := Nat.max 1 (s.rd fabKftRtoRetry)

/-- The window after `k` more frames have been acknowledged (R184). -/
def ConnSt.grow (c : ConnSt) (k : Nat) (ece : Bool) (rto tick : Nat) : ConnSt :=
  if ece then
    if (match c.halvedAt with | some t => decide (t + rto ≤ tick) | none => true) then
      { c with window := Nat.max 4 (c.window / 2), acked := 0, halvedAt := some tick }
    else c
  else
    let n := c.acked + k
    { c with window := Nat.min 1024 (c.window + n / 64), acked := n % 64 }

/-- What a status other than OK does on the sending side (R185). The rule gives an ENQUEUE an outcome for FULL only; one that the
target rejects as ABSENT, FENCED, JOB or TAG completes without a record (DESIGN CHOICE, log entry 125). -/
def State.rejected (s : State) (n code : Nat) (f : OutFrame) : State :=
  match f.op with
  | .write _ _ => s.count fabTxRejectedCount 1
  | .readReq off len =>
    (s.link.reads.filter (fun r => r.conn == n && r.off == off && r.len == len)).foldl (fun t r => t.failRead r) s
  | .enqueue _ _ _ =>
    if code ≠ 3 then s
    else match f.owner.bind (fun o => s.findList o.1 o.2) with
      | some l => (match l.word with | some w => s.enqueueRefused l w.toNat | none => s)
      | none => s
  | _ => s

/-- Every frame below `ackPsn` has arrived; `status` names the outcome of one of them. -/
def State.acked (s : State) (n : Nat) (c : ConnSt) (h : KftHdr) (status : Option (Nat × Nat)) : State :=
  let gone := fun (f : OutFrame) => f.sentAt.isSome && psnBefore f.psn h.ackPsn
  let out := c.unacked.filter gone
  let c1 := { c with unacked := c.unacked.filter (fun f => !gone f), lastUse := s.tick }
  let s1 := s.setConn n (some (c1.grow out.length h.ece (s.rd fabKftRtoBeats) s.tick))
  let s2 := match status with
    | some (code, psn) =>
      if code = 0 then s1 else (out.filter (fun (f : OutFrame) => f.psn == psn)).foldl (fun t f => t.rejected n code f) s1
    | none => s1
  let s3 := if h.ece then s2.countEs (((s2.diesOf c.srcPart).head?).getD 0) 0x0E (some h.tag) 1 else s2
  s3.pump n

/-- The context that a received frame names, when it is the frame's own. -/
def State.connOf (s : State) (h : KftHdr) : Option ConnSt :=
  (s.conn h.conn).bind (fun c => if c.is h.dstPart h.srcDev h.srcPart h.cls then some c else none)

/-- A frame for this device on a sub-port that is up, whose ICRC holds (R179). -/
def State.hears (s : State) (h : KftHdr) : Bool := s.comesIn h.sub h.icrcOk && s.ownId h.dstDev

/-- KFT_ACK_RX (R182). -/
def execKftAckRx (h : KftHdr) (status : Option (Nat × Nat)) (s : State) : Host.Outcome State Fault Refusal :=
  .next (
    if !s.hears h then s.refuseRx h.sub h.icrcOk
    else match s.connOf h with
      | some c => ((s.acked h.conn c h status).refetch).advance
      | none => s).wrapUp

/-- The frame goes out again, or its connection fails after RETRY times (R183). -/
def State.again (s : State) (n psn : Nat) : State :=
  match s.conn n with
  | some c =>
    if c.unacked.any (fun f => f.psn == psn && decide (s.retryLimit ≤ f.retries)) then s.failConn n
    else (s.setConn n (some { c with unacked := c.unacked.map (fun f =>
      if f.psn = psn ∧ f.sentAt.isSome then { f with sentAt := none, retries := f.retries + 1 } else f) })).pump n
  | none => s

/-- The PSNs that a bitmap shows missing below its highest set bit. -/
def missing (base : Nat) (bitmap : BitVec 256) : List Nat :=
  if bitmap = 0 then []
  else ((List.range (Nat.log2 bitmap.toNat)).filter (fun i => !bitmap.getLsbD i)).map (fun i => (base + i) % 2 ^ 32)

/-- What follows a change of connections: requests that waited, and instructions that are done. -/
def State.afterConn (s : State) : State := (s.serveWaiting.refetch).advance

/-- KFT_NACK_RX (R182). -/
def execKftNackRx (h : KftHdr) (base : Nat) (bitmap : BitVec 256) (s : State) : Host.Outcome State Fault Refusal :=
  .next (
    if !s.hears h then s.refuseRx h.sub h.icrcOk
    else match s.connOf h with
      | some c =>
        let s1 := s.acked h.conn c h none
        ((missing base bitmap).foldl (fun t psn => match t.conn h.conn with
          | some d => if d.unacked.any (fun f => f.psn == psn && f.sentAt.isSome) then t.again h.conn psn else t
          | none => t) s1).afterConn
      | none => s).wrapUp

/-- KFT_RTO (R182, R183). -/
def execKftRto (conn psn : Nat) (s : State) : Host.Outcome State Fault Refusal :=
  .next (
    match s.conn conn with
    | some c =>
      if c.unacked.any (fun f => f.psn == psn && match f.sentAt with
          | some t => decide (t + s.rd fabKftRtoBeats ≤ s.tick)
          | none => false) then (s.again conn psn).afterConn
      else s
    | none => s).wrapUp

/-! ### Delivery (R182, R185) -/

/-- A read of another device is served, in frames of at most 4,096 bytes of payload. -/
def State.serveRead (s : State) (n : Nat) (h : KftHdr) (addr len : Nat) : State :=
  let s1 := s.touch h.dstPart false none addr len
  (List.range (groups len (dataMax h.cls))).foldl (fun t i =>
    let lo := i * dataMax h.cls
    let k := Nat.min (dataMax h.cls) (len - lo)
    match s.readBytes h.dstPart false (addr + lo) k, t.conn n with
    | some (bs, fs), some c => t.queueFrame n c (frameOf (.readResp (addr + lo) bs) h.tag (fs != []) none)
    | _, _ => t) s1

/-- Data of a remote read reaches those who wait for it; that of a read which a fence has answered is late. -/
def State.takeResponse (s : State) (n addr : Nat) (bs : List Byte) (poison : Bool) : State :=
  match s.link.reads.find? (fun r => r.conn == n && decide (r.off ≤ addr) && decide (addr + bs.length ≤ r.off + r.len)) with
  | some r =>
    let e := putAnswers s.mem.ext (r.addr + (addr - r.off)) (bs.map (fun b => if poison then none else some b))
    let whole := (List.range r.len).all (fun i => (extFind e (r.addr + i)).isSome)
    { s with mem := { s.mem with ext := e }
             link := { s.link with reads := if whole then s.link.reads.erase r else s.link.reads } }.refetch
  | none =>
    match s.hang.late.find? (fun r => r.covers r.part (some n) addr bs.length) with
    | some r => s.dropLate r.part (some n) addr bs.length true
    | none => s

/-- An accepted frame acts on its partition; the STATUS of its acknowledgement. -/
def State.actFrame (s : State) (n : Nat) (h : KftHdr) : KftOp → Nat × State
  | .write addr bs =>
    (0, (s.store h.dstPart false h.poison (addr % 2 ^ 40) bs).noteRange (tagJob h.tag) h.dstPart (addr % 2 ^ 40) bs.length)
  | .readReq addr len => (0, s.serveRead n h (addr % 2 ^ 40) len)
  | .readResp addr bs => (0, s.takeResponse n addr bs h.poison)
  | .signal x v => (0, s.signalBy h.dstPart x (tagJob h.tag) false v)
  | .signalMax x v => (0, s.signalBy h.dstPart x (tagJob h.tag) true v)
  | .enqueue q k a =>
    if s.partOfQueue q = h.dstPart ∧ s.takesPost q then (0, s.post q k a) else (3, s)
  | .coll level pos addr _ bs =>
    (0, { s with link := { s.link with segs := s.link.segs ++
      [(h.dstPart.val, h.tag.toNat / 4096, { level := level, pos := pos, off := addr, bytes := bs, poison := h.poison })] } })

/-- The next frame of a connection in PSN order: accepted or rejected, traced, and acknowledged. -/
def State.deliverFrame (s : State) (n : Nat) (h : KftHdr) (op : KftOp) : State :=
  let code := s.acceptCode h.dstPart h.tag
  let r := if code = 0 then s.actFrame n h op else (code, s.countReject code)
  let s1 := r.2.trace 0x06 (traceUnit 4 h.sub) (kftArg0 op h.retx r.1) (some h.tag) (msgId h.srcDev h.conn h.psn) [h.dstPart]
  match s1.conn n with
  | some c =>
    (s1.setConn n (some { c with psnIn := (h.psn + 1) % 2 ^ 32, ece := false, lastUse := s1.tick })).sendAck n c
      ((h.psn + 1) % 2 ^ 32) (if r.1 = 0 then none else some (r.1, h.psn))
  | none => s1

/-- Frames held beyond a gap follow it as far as they go. -/
def State.deliverAhead (s : State) (n : Nat) : Nat → State
  | 0 => s
  | k + 1 =>
    match s.conn n with
    | some c =>
      match c.ahead.find? (fun x => x.1 == c.psnIn) with
      | some x => ((s.setConn n (some { c with ahead := c.ahead.erase x })).deliverFrame n x.2.1 x.2.2).deliverAhead n k
      | none => s
    | none => s

/-- The NACK of a gap. -/
def State.sendNack (s : State) (n : Nat) (c : ConnSt) : State :=
  let bits := c.ahead.foldl (fun m x => m ||| 2 ^ ((x.1 + 2 ^ 32 - c.psnIn) % 2 ^ 32)) 0
  s.sendReply n { c with ece := false } 3 c.psnIn (leBytes 4 c.psnIn ++ leBytes 32 bits)

/-- A DATA frame on its connection: in order, ahead of a gap, or come already. -/
def State.rxData (s : State) (h : KftHdr) (op : KftOp) : State :=
  if !s.hears h then s.refuseRx h.sub h.icrcOk
  else match s.connOf h with
    | none => s
    | some c0 =>
      let s0 := s.acked h.conn c0 h none
      match s0.conn h.conn with
      | none => s0
      | some c1 =>
        let c := { c1 with ece := c1.ece || h.ce }
        let s1 := s0.setConn h.conn (some c)
        if h.psn = c.psnIn then ((s1.deliverFrame h.conn h op).deliverAhead h.conn c.ahead.length).afterConn
        else if psnBefore h.psn c.psnIn then
          (s1.setConn h.conn (some { c with ece := false })).sendAck h.conn c c.psnIn none
        else if (h.psn + 2 ^ 32 - c.psnIn) % 2 ^ 32 < 256 ∧ !c.ahead.any (fun x => x.1 == h.psn) then
          let c2 := { c with ahead := c.ahead ++ [(h.psn, h, op)] }
          (s1.setConn h.conn (some c2)).sendNack h.conn c2
        else s1.sendNack h.conn c

/-- KFT_WRITE_RX (R180, R185). -/
def execKftWriteRx (h : KftHdr) (addr : Nat) (bytes : List Byte) (s : State) : Host.Outcome State Fault Refusal :=
  .next (s.rxData h (.write addr bytes)).wrapUp

/-- KFT_READ_REQ_RX. -/
def execKftReadReqRx (h : KftHdr) (addr len : Nat) (s : State) : Host.Outcome State Fault Refusal :=
  .next (s.rxData h (.readReq addr len)).wrapUp

/-- KFT_READ_RESP_RX. -/
def execKftReadRespRx (h : KftHdr) (addr : Nat) (bytes : List Byte) (s : State) : Host.Outcome State Fault Refusal :=
  .next (s.rxData h (.readResp addr bytes)).wrapUp

/-- KFT_SIGNAL_RX (R127). -/
def execKftSignalRx (h : KftHdr) (sync : Fin 4096) (value : Word64) (s : State) : Host.Outcome State Fault Refusal :=
  .next (s.rxData h (.signal sync value.toNat)).wrapUp

/-- KFT_SIGNAL_MAX_RX (R127). -/
def execKftSignalMaxRx (h : KftHdr) (sync : Fin 4096) (value : Word64) (s : State) : Host.Outcome State Fault Refusal :=
  .next (s.rxData h (.signalMax sync value.toNat)).wrapUp

/-- KFT_ENQUEUE_RX (R125). -/
def execKftEnqueueRx (h : KftHdr) (queue : Queue) (cookie : Word32) (clAddr : Word64) (s : State) :
    Host.Outcome State Fault Refusal :=
  .next (s.rxData h (.enqueue queue cookie.toNat clAddr.toNat)).wrapUp

/-- KFT_COLL_RX (R138, R186). -/
def execKftCollRx (h : KftHdr) (level pos : Nat) (addr : Nat) (bytes : List Byte) (s : State) : Host.Outcome State Fault Refusal :=
  .next (s.rxData h (.coll level pos addr h.red bytes)).wrapUp

/-! ### Connections (R181) -/

/-- The context with the key of a CONN frame. -/
def State.keyed (s : State) (h : KftHdr) : Option (Nat × ConnSt) := s.findConn h.dstPart h.srcDev h.srcPart h.cls

/-- The answer to a REQ: the context of its key, new or not, takes the peer's number. A partition that is absent, a lack of contexts,
and a lack of eligible ports (R177, R183) refuse. -/
def State.acceptConn (s : State) (h : KftHdr) (number : Nat) : State :=
  let p := h.dstPart
  match s.keyed h with
  | some (n, c) =>
    ((s.setConn n (some { c with peer := some number })).sendConn ((c.port.map s.subOf).getD h.sub) p h.srcDev h.srcPart h.cls 2 0
      n).pump n
  | none =>
    match s.choosePort p h.srcDev h.srcPart h.cls with
    | some port =>
      if s.present p && s.connRoom h.cls then
        let n := lowestFree 0 s.link.conns
        (s.putConn n (some (newConn p h.srcDev h.srcPart h.cls (some number) (some port) s.tick))).sendConn (s.subOf port) p h.srcDev
          h.srcPart h.cls 2 0 n
      else
        let (w, s1) := s.draw
        s1.sendConn (s.subOf port) p h.srcDev h.srcPart h.cls 4 (w.toNat % 256) 0
    | none => s.countFail

/-- CONN_REQ_RX: a REQ of a peer that numbers its side anew ends the connection it had. -/
def execConnReqRx (h : KftHdr) (number : Nat) (s : State) : Host.Outcome State Fault Refusal :=
  .next (
    if !s.hears h then s.refuseRx h.sub h.icrcOk
    else
      let stale := match s.keyed h with
        | some (n, c) => if c.peer.isSome && c.peer != some number then some n else none
        | none => none
      let s1 := match stale with | some n => s.failConn n | none => s
      (s1.acceptConn h number).afterConn).wrapUp

/-- CONN_ACK_RX: the connection is open, and its frames go out. -/
def execConnAckRx (h : KftHdr) (number : Nat) (s : State) : Host.Outcome State Fault Refusal :=
  .next (
    if !s.hears h then s.refuseRx h.sub h.icrcOk
    else match s.keyed h with
      | some (n, c) => if c.peer.isNone then (s.setConn n (some { c with peer := some number })).pump n else s
      | none => s).wrapUp

/-- Nothing of the device's own waits on the connection. -/
def State.connIdle (s : State) (n : Nat) (c : ConnSt) : Bool := c.unacked.isEmpty && !s.link.reads.any (fun r => r.conn == n)

/-- CONN_CLOSE_RX. -/
def execConnCloseRx (h : KftHdr) (number : Nat) (s : State) : Host.Outcome State Fault Refusal :=
  .next (
    if !s.hears h then s.refuseRx h.sub h.icrcOk
    else match s.keyed h with
      | some (n, c) =>
        if c.peer ≠ some number then s
        else (if s.connIdle n c then s.putConn n none else s.failConn n).afterConn
      | none => s).wrapUp

/-- CONN_REJECT_RX: the peer refuses, and what waited fails. -/
def execConnRejectRx (h : KftHdr) (reason : Nat) (s : State) : Host.Outcome State Fault Refusal :=
  .next (
    if !s.hears h || decide (256 ≤ reason) then s.refuseRx h.sub h.icrcOk
    else match s.keyed h with
      | some (n, c) => if c.peer.isNone then (s.failConn n).afterConn else s
      | none => s).wrapUp

/-- CONN_IDLE_CLOSE. -/
def execConnIdleClose (conn : Nat) (s : State) : Host.Outcome State Fault Refusal :=
  .next (
    match s.conn conn with
    | some c =>
      if s.connIdle conn c && decide (c.lastUse + Nat.max 1 (s.rd fabKftIdleBeats) ≤ s.tick) then
        (((s.putConn conn none).sendConn ((c.port.map s.subOf).getD 0) c.srcPart c.dev c.dstPart c.cls 3 0 conn)).afterConn
      else s
    | none => s).wrapUp

/-! ### Ports and routes -/

/-- FABRIC_LINK_UP (R173, R174). -/
def execFabricLinkUp (sub : SubPort) (s : State) : Host.Outcome State Fault Refusal :=
  .next (
    if s.mayTrain (sub / 4) (sub % 4) then
      s.wrBit (fabPortStatusUp (sub / 4)) (sub % 4) true
    else s)

/-- FABRIC_LINK_DOWN (R177). -/
def execFabricLinkDown (sub : SubPort) (s : State) : Host.Outcome State Fault Refusal := .next ((s.subDown sub).afterConn).wrapUp

/-- LANE_FAULT (R218): the lane goes to quarantine, and its sub-port down until the next device reset. -/
def execLaneFault (port : Port) (lane : Fin 8) (s : State) : Host.Outcome State Fault Refusal :=
  .next (
    if s.domOn (portDom port) then
      ((s.event (fabPortEventLaneFault port)).finding 0x05 2 [1856 + port.val * 8 + lane.val] (fun _ => []) []).afterConn
    else s).wrapUp

/-- Whether a path may write the register at an address (R454). -/
def State.writes (s : State) (path : Path) (addr : Nat) : Bool :=
  match regAt addr with
  | some (d, ix) => s.mayWrite path d ix addr
  | none => false

/-- ROUTE_DATA_WRITE (R177). -/
def execRouteDataWrite (path : Path) (v : Word32) (s : State) : Host.Outcome State Fault Refusal :=
  .next (
    if s.writes path fabRouteData then
      { s with link := { s.link with routes := s.link.routes.set (fun _ => 0) (s.rd fabRouteIdxDev) (bitsOf v.toNat 0 16) } }
    else s)

/-! ### BEAT_ANN (R189) -/

/-- The payload of Table LNK-7. -/
def annBytes (m : BeatAnnMsg) : List Byte :=
  leBytes 1 2 ++ leBytes 1 m.state ++ leBytes 1 m.numValid.toNat ++ leBytes 1 0 ++ leBytes 4 m.sender ++ leBytes 8 m.beat ++
  leBytes 2 m.phase ++ leBytes 6 m.epoch

/-- The tag of a BEAT_ANN: no job and no tile, FMT 0xB, TC0 (log entry 131). -/
def annTag : Word64 := tagOf 0 0 0xFFFFF 0xB 0 0 0

/-- What the device announces. -/
def State.announcement (s : State) : BeatAnnMsg :=
  { state := s.rd beatStatusState, numValid := s.on beatStatusNumValid, sender := s.rd fabDevIdId, beat := s.beat.num,
    phase := 0, epoch := s.rd64 beatEpochLoEpochLo beatEpochHiEpochHi % 2 ^ 48 }

/-- BEAT_ANN_SEND. -/
def execBeatAnnSend (s : State) : Host.Outcome State Fault Refusal :=
  .next (
    if !s.on fabBeatAnnEn || s.beat.num % 65536 != 0 || s.beat.phase != 0 then s
    else (s.upSubs.filter s.hopSends).foldl (fun t x => t.sendHop x 0 annTag (annBytes s.announcement)) s)

/-- The number of the beat nearest to a mark. -/
def nearestBeat (num phase : Nat) : Nat := if phase < 32768 then num else num + 1

/-- BEAT_ANN_RX: the count never changes. -/
def execBeatAnnRx (sub : SubPort) (icrcOk : Bool) (m : BeatAnnMsg) (s : State) : Host.Outcome State Fault Refusal :=
  .next (s.hopRx sub icrcOk (fun s =>
    if m.numValid && s.on beatStatusNumValid && nearestBeat m.beat m.phase != nearestBeat s.beat.num s.beat.phase then
      (s.event fabEventBeatDisagree).wr fabBeatPeerSubport sub
    else s))

end Sys2Proof.Machine
end

