-- ==== Sys2Proof/Machine/Media.lean ====
section
/-!
DEFINITION. The Media Engine (18_media_engine.md): sessions (R393–R397), what a released picture writes (R395, R401, R405, R406),
and the media instructions (R140, R398–R412). The codecs' own processes are the environment's: completion commands carry what
they yield (log entry 17).
-/
namespace Sys2Proof.Machine

open Reg

/-! ### The session descriptor (Table MED-3) -/

def SessSt.f (x : SessSt) (lo n : Nat) : Nat := field x.desc lo n

def align4k (n : Nat) : Nat := (n + 4095) / 4096 * 4096

def up (n k : Nat) : Nat := (n + k - 1) / k * k

/-- Bytes of a picture operand: PITCH × (H + H/2), H being MAX_H rounded up to even (R140). -/
def SessSt.picBytes (x : SessSt) : Nat := x.f 28 4 * (up (x.f 10 2) 2 + up (x.f 10 2) 2 / 2)

def SessSt.statBytes (x : SessSt) : Nat := (x.f 8 2 + 15) / 16 * ((x.f 10 2 + 15) / 16) * 32

def SessSt.tensorBytes (x : SessSt) (fmt : Nat) : Nat := rowBytes fmt (3 * x.f 72 2 * x.f 74 2)

/-- Bytes of a pool buffer (R395). -/
def poolBuffer (w h depth : Nat) : Nat :=
  let wa := up w 64
  let ha := up h 64
  align4k (wa * ha * 3 / 2 * (if depth = 8 then 1 else 2)) + align4k (wa / 16 * (ha / 16) * 16)

/-- The zero fields of a descriptor are zero. -/
def zeroFields (d : List Byte) : Bool :=
  field d 44 4 == 0 && field d 78 2 == 0 && (d.drop 98).all (· == 0) && decide (field d 13 1 < 2)

/-- Test 3 of Table MED-4 on the bytes read. -/
def State.descOk (s : State) (p : Nat) (d : List Byte) : Bool :=
  let at4k := fun (lo : Nat) => field d lo 8 % 4096 == 0 && decide (field d lo 8 < s.limitOf p * 4096)
  field d 0 2 == 0x4D53 && field d 2 1 == 1 && zeroFields d && at4k 16 && (at4k 32 || (field d 40 4 == 0 && field d 32 8 == 0)) &&
  at4k 48 && at4k 56 && field d 28 4 % 64 == 0

/-- The largest picture, width and height of a level (level × 10), in luma samples: what the codecs' standards set, PRESUMED (log
entry 140). -/
def levelLimits (codec level : Nat) : Option (Nat × Nat × Nat) :=
  let byArea := fun (n : Nat) => some (n, Nat.sqrt (8 * n), Nat.sqrt (8 * n))
  let byBlocks := fun (n : Nat) => some (n * 256, Nat.sqrt (8 * n) * 16, Nat.sqrt (8 * n) * 16)
  match codec with
  | 1 =>
    match level with
    | 10 => byArea 36864
    | 20 => byArea 122880
    | 21 => byArea 245760
    | 30 => byArea 552960
    | 31 => byArea 983040
    | 40 | 41 => byArea 2228224
    | 50 | 51 | 52 => byArea 8912896
    | 60 | 61 => byArea 35651584
    | _ => none
  | 2 =>
    match level with
    | 20 => some (147456, 2048, 1152)
    | 21 => some (278784, 2816, 1584)
    | 30 => some (665856, 4352, 2448)
    | 31 => some (1065024, 5504, 3096)
    | 40 | 41 => some (2359296, 6144, 3456)
    | 50 | 51 | 52 | 53 => some (8912896, 8192, 4352)
    | 60 | 61 => some (35651584, 16384, 8704)
    | _ => none
  | 3 =>
    match level with
    | 10 => byBlocks 99
    | 11 | 12 | 13 | 20 => byBlocks 396
    | 21 => byBlocks 792
    | 22 | 30 => byBlocks 1620
    | 31 => byBlocks 3600
    | 32 => byBlocks 5120
    | 40 | 41 => byBlocks 8192
    | 42 => byBlocks 8704
    | 50 => byBlocks 22080
    | 51 | 52 => byBlocks 36864
    | _ => none
  | _ => some (2 ^ 26, 8192, 8192)

/-- A picture size within the level's limits; AVC counts whole macroblocks. -/
def levelFits (codec level w h : Nat) : Bool :=
  match levelLimits codec level with
  | some (n, mw, mh) =>
    let a := if codec = 3 then up w 16 else w
    let b := if codec = 3 then up h 16 else h
    decide (a * b ≤ n) && decide (a ≤ mw) && decide (b ≤ mh)
  | none => false

/-- CODEC, PROFILE, LEVEL and DEPTH within Table MED-1. -/
def codecOk (decode : Bool) (codec profile level depth : Nat) : Bool :=
  let top := if decode then 61 else 51
  match codec with
  | 1 => (profile == 1 || profile == 2) && decide (level ≤ top) && (depth == 8 || (depth == 10 && profile == 2))
  | 2 => profile == 0 && decide (level ≤ top) && (depth == 8 || depth == 10)
  | 3 => decode && (profile == 66 || profile == 77 || profile == 100) && decide (level ≤ 52) && depth == 8
  | 4 => decode && profile == 0 && level == 0 && depth == 8
  | _ => false

/-- The largest QP of a codec that encodes. -/
def maxQp (codec : Nat) : Nat := if codec = 2 then 255 else 51

/-- Test 4 of Table MED-4. -/
def descSupported (d : List Byte) : Bool :=
  let f := field d
  let decode := f 3 1 == 0
  let size := fun (n : Nat) => decide (16 ≤ n) && decide (n ≤ 8192)
  decide (f 3 1 < 2) && codecOk decode (f 4 1) (f 5 1) (f 6 1) (f 7 1) && size (f 8 2) && size (f 10 2) &&
  levelFits (f 4 1) (f 6 1) (f 8 2) (f 10 2) &&
  decide (f 14 1 < 2) && !(f 7 1 == 10 && f 14 1 == 0) && decide (1 ≤ f 12 1) && decide (f 12 1 ≤ 16) &&
  decide (4 ≤ f 15 1) && decide (f 15 1 ≤ 12) &&
  [64, 66, 68, 70].all (fun lo => f lo 2 % 2 == 0) && decide (f 64 2 + f 68 2 ≤ f 8 2) && decide (f 66 2 + f 70 2 ≤ f 10 2) &&
  [72, 74].all (fun lo => decide (1 ≤ f lo 2) && decide (f lo 2 ≤ 4096)) && decide (f 76 1 < 3) && decide (f 77 1 < 3) &&
  (decode || (decide (f 88 1 < 2) && decide (f 89 1 ≤ maxQp (f 4 1)) && (f 90 1 == 0 || (decide (2 ≤ f 90 1) && decide (f 90 1 ≤ 64))) &&
    decide (f 91 1 < 2) && (f 90 1 == 0 || f 96 2 == 0)))

/-- Test 5 of Table MED-4. -/
def poolOk (d : List Byte) : Bool :=
  decide ((field d 12 1 + 1) * poolBuffer (field d 8 2) (field d 10 2) (field d 7 1) ≤ field d 24 4)

/-! ### Opening and closing -/

/-- The partition whose range holds session `n`. -/
def State.sessPart (s : State) (n : Nat) : Option Nat :=
  s.parts.find? (fun p => decide (s.rd (medPartCfgSessFirst p) ≤ n) &&
    decide (n < s.rd (medPartCfgSessFirst p) + s.rd (medPartCfgSessCount p)))

/-- A path from which session registers may be written at all. -/
def State.sessPath (s : State) : Path → Bool
  | .pf f => s.presented f
  | .mgmt => true
  | .debug => s.unlocked
  | .mctp => false

/-- Tests 1 and 2 of Table MED-4: the present partition in which this path opens session `n`, closed so far. -/
def State.opener (s : State) (path : Path) (n : Nat) : Option Nat :=
  if (s.sess n).isSome then none else (s.sessPart n).filter (fun p => s.present p && s.ownsPart path p)

/-- The RESULT of an OPEN (Table MED-4), with the descriptor of a session that may open. -/
def State.openTest (s : State) (path : Path) (n : Nat) : Nat × Option (Nat × List Byte) :=
  if (s.sess n).isSome then (5, none)
  else match s.opener path n with
    | none => (4, none)
    | some p =>
      let a := s.rd (medSessDescLoAddr n) * 64 + 2 ^ 32 * s.rd (medSessDescHiAddr n)
      if a / 2 ^ 60 ≠ 0 then (1, none)
      else match s.readBytes p false a 128 with
        | some (d, []) =>
          if !s.descOk p d then (1, none)
          else if !descSupported d then (2, none)
          else if !poolOk d then (3, none)
          else (0, some (p, d))
        | _ => (1, none)

def State.openCount (s : State) : State := s.wr medStatusOpen s.media.length

/-- A session as OPEN leaves it. -/
def newSession (p : Nat) (d : List Byte) : SessSt :=
  { desc := d, part := p, waitRap := field d 3 1 == 0, halted := false, ready := [], lastStats := false, lastTensor := false,
    lastFmt := 0, forceKey := true, sinceKey := 0, sweep := 0, encoded := 0, qp := field d 89 1, busy := [],
    later := [], chip := [], spilled := 0, unparsed := [] }

/-- MEDIA_SESSION_OPEN (R396). -/
def execMediaSessionOpen (path : Path) (n : Session) (s : State) : Host.Outcome State Fault Refusal :=
  .next (
    if !s.sessPath path || !s.domOn 10 then s
    else
      let (r, x) := s.openTest path n
      let a := s.rd (medSessDescLoAddr n) * 64 + 2 ^ 32 * s.rd (medSessDescHiAddr n)
      let t := match s.opener path n with
        | some p => if a / 2 ^ 60 = 0 then s.touch p false none a 128 else s
        | none => s
      let s1 := t.wr (medSessStatusResult n) r
      match x with
      | some (p, d) =>
        ((((s1.setSess n (some (newSession p d))).wr (medSessStatusState n) 1).wr (medSessRelSeqSeq n) 0).wr
          (medSessErrorsCount n) 0).wr (medSessPicsCount n) 0 |>.openCount
      | none => s1.event medEventOpenRefused).wrapUp

/-- A session closes; pictures not released are gone. -/
def State.closeSession (s : State) (n : Nat) : State :=
  (((s.setSess n none).wr (medSessStatusState n) 0).wr (medSessStatusBusy n) 0).openCount

/-- Every session of a partition closes. -/
def State.closeSessions (s : State) (which : SessSt → Bool) : State :=
  (s.media.filter (fun e => match e.2 with | some x => which x | none => false)).foldl (fun t e => t.closeSession e.1) s

/-- A path that may write the registers of an open session (R413). -/
def State.ownsSession (s : State) (path : Path) (n : Nat) : Bool :=
  match s.sessPart n with
  | some p => s.ownsPart path p
  | none => s.mgmtOrDebug path || (match path with | .pf f => f.val == 0 | _ => false)

/-- MEDIA_SESSION_CLOSE (R397). -/
def execMediaSessionClose (path : Path) (n : Session) (s : State) : Host.Outcome State Fault Refusal :=
  .next (
    if !s.ownsSession path n then s
    else match s.sess n with
      | some x => if x.busy = [] then s.closeSession n else s.wr (medSessStatusResult n) 5
      | none => s)

/-- MEDIA_FORCE_KEY (R411). -/
def execMediaForceKey (path : Path) (n : Session) (s : State) : Host.Outcome State Fault Refusal :=
  .next (
    if !s.ownsSession path n then s
    else match s.sess n with
      | some x => s.setSess n (some { x with forceKey := true })
      | none => s)

/-- Why a write of MED_PART_CFG_p is refused (R393). -/
def State.partCfgRefused (s : State) (p first count slots : Nat) : Bool :=
  let busy := fun (a n : Nat) => s.media.any (fun e => e.2.isSome && decide (a ≤ e.1) && decide (e.1 < a + n))
  let others := (List.range 4).filter (fun q => q != p)
  let f := fun (q : Nat) => s.rd (medPartCfgSessFirst q)
  let c := fun (q : Nat) => s.rd (medPartCfgSessCount q)
  busy (f p) (c p) || busy first count ||
  others.any (fun q => decide (0 < count) && decide (0 < c q) && decide (first < f q + c q) && decide (f q < first + count)) ||
  decide (256 < first + count) || decide (32 < slots + (others.map (fun q => s.rd (medPartCfgSlots q))).sum)

/-- MEDIA_PART_CONFIG (R393, R413). -/
def execMediaPartConfig (path : Path) (p : Part) (v : Word32) (s : State) : Host.Outcome State Fault Refusal :=
  let first := bitsOf v.toNat 0 8
  let count := bitsOf v.toNat 8 9
  let slots := bitsOf v.toNat 24 6
  .next (
    if !s.mgmtOrDebug path || decide (partCount s.mode ≤ p.val) || !s.domOn 10 then s
    else if s.partCfgRefused p first count slots then s.event medEventCfgRefused
    else
      (((s.wr (medPartCfgSessFirst p) first).wr (medPartCfgSessCount p) count).wr (medPartCfgSlots p) slots).wrapUp)

/-- R393: sessions and slots divided evenly among the partitions of the mode. -/
def State.divideSessions (s : State) : State :=
  let n := partCount s.mode
  s.parts.foldl (fun t p => ((t.wr (medPartCfgSessFirst p) (p * (256 / n))).wr (medPartCfgSessCount p) (256 / n)).wr
    (medPartCfgSlots p) (32 / n)) s

/-! ### Pictures (R395) -/

/-- A sample of depth `depth` as its picture stores it: NV12, or P010 with ten bits in [15:6]. -/
def sampleBytes (out depth v : Nat) : List Byte :=
  if out = 0 then leBytes 1 v else leBytes 2 ((if depth = 8 then v * 4 else v) * 64)

def sampleSize (out : Nat) : Nat := if out = 0 then 1 else 2

/-- Rows of samples, `w` to a row and `pitch` bytes apart. -/
def rowPieces (a pitch out depth w : Nat) (vs : List Nat) : List (Nat × List Byte) :=
  if w = 0 then []
  else (chunk w (vs.length / w) vs).zipIdx.map (fun r => (a + r.2 * pitch, r.1.flatMap (sampleBytes out depth)))

/-- The chroma of a picture as 4:2:0: 4:4:4 is averaged over each 2 × 2 group ("JPEG 4:4:4 into NV12"). -/
def chroma420 (q : PicFacts) : List Nat :=
  if !q.fullChroma then q.chroma
  else
    let w := up q.width 2
    let at' := fun (x y c : Nat) => q.chroma.getD ((Nat.min y (q.height - 1) * q.width + Nat.min x (q.width - 1)) * 2 + c) 0
    (List.range (up q.height 2 / 2)).flatMap (fun j => (List.range w).map (fun i =>
      let x := i / 2 * 2
      let c := i % 2
      (at' x (2 * j) c + at' (x + 1) (2 * j) c + at' x (2 * j + 1) c + at' (x + 1) (2 * j + 1) c + 2) / 4))

/-- What a picture writes at `a`: luma, then interleaved chroma. -/
def SessSt.picPieces (x : SessSt) (a : Nat) (q : PicFacts) : List (Nat × List Byte) :=
  let pitch := x.f 28 4
  rowPieces a pitch (x.f 14 1) (x.f 7 1) q.width q.luma ++
    rowPieces (a + pitch * up q.height 2) pitch (x.f 14 1) (x.f 7 1) (up q.width 2) (chroma420 q)

/-! ### Statistics surfaces (R405, Table MED-6) -/

/-- The samples of block (bx, by) that lie in the picture. -/
def blockSamples (w h : Nat) (luma : List Nat) (bx by' : Nat) : List Nat :=
  (List.range 16).flatMap (fun j => (List.range 16).filterMap (fun i =>
    if 16 * bx + i < w ∧ 16 * by' + j < h then luma[(16 * by' + j) * w + 16 * bx + i]? else none))

def distance (a b : Nat) : Nat := if a < b then b - a else a - b

/-- The 32 bytes of one block. -/
def statBytes (jpeg : Bool) (b : BlockFacts) (xs : List Nat) : List Byte :=
  let sum := xs.sum
  let m := (sum + 128) / 256
  let sq := (xs.map (fun v => v * v)).sum
  let v0 := b.mv0Valid && !jpeg
  let v1 := b.mv1Valid && !jpeg
  overlay 32 [(0, leBytes 4 (if v0 then b.mv0 else 0)), (4, leBytes 4 (if v1 then b.mv1 else 0)),
    (8, leBytes 1 (if v0 then b.ref0 else 0xFF)), (9, leBytes 1 (if v1 then b.ref1 else 0xFF)),
    (10, leBytes 1 (b.intra.toNat + 2 * b.skip.toNat + 4 * b.concealed.toNat + 8 * v0.toNat + 16 * v1.toNat +
      32 * (decide (xs.length < 256)).toNat)),
    (11, leBytes 1 b.qp), (12, leBytes 4 (if jpeg then 0 else b.sad)),
    (16, leBytes 4 ((xs.map (fun v => distance v m)).sum)), (20, leBytes 4 ((256 * sq - sum * sum) / 65536)),
    (24, leBytes 2 (Nat.min 0xFFFF b.bits))]

def surface (jpeg : Bool) (w h : Nat) (luma : List Nat) (blocks : List BlockFacts) : List Byte :=
  let cols := (w + 15) / 16
  blocks.zipIdx.flatMap (fun b => statBytes jpeg b.1 (blockSamples w h luma (b.2 % Nat.max 1 cols) (b.2 / Nat.max 1 cols)))

/-! ### Tensors (R406) -/

/-- A quotient, rounded to FP32. -/
def divF32 (a b : FVal) : FVal :=
  match a, b with
  | .fin s m e, .fin t n f =>
    if n = 0 then .nan
    else if m = 0 then .fin (s != t) 0 0
    else
      let k := 40 + Nat.log2 n
      magF32 (s != t) (m * 2 ^ k / n) (e - f - k) (m * 2 ^ k % n != 0)
  | _, _ => .nan

def subF32 (a b : FVal) : FVal := toF32 (a.add b.neg)
def mulF32 (a b : FVal) : FVal := toF32 (a.mul b)

/-- The constant num / 10^6 in FP32. -/
def micro (n : Nat) : FVal := divF32 (ofInt n) (ofInt 1000000)

/-- Step 2: a normalised sample. -/
def normal (v k base span : Nat) : FVal := divF32 (subF32 (ofInt v) (ofInt (base * k))) (ofInt (span * k))

/-- The four coefficients of a CSC code, in millionths. -/
def cscCoef (csc : Nat) : Nat × Nat × Nat × Nat :=
  if csc = 1 then (1574800, 187300, 468100, 1855600) else (1402000, 344136, 714136, 1772000)

/-- Steps 2 and 3 at one luma position: the value of plane `plane`. -/
def SessSt.colour (x : SessSt) (q : PicFacts) (plane px py : Nat) : FVal :=
  let k := 2 ^ (x.f 7 1 - 8)
  let y := normal (q.luma.getD (py * q.width + px) 0) k 16 219
  let at' := fun (c : Nat) => normal ((chroma420 q).getD (py / 2 * up q.width 2 + px / 2 * 2 + c) 0) k 128 224
  let cb := at' 0
  let cr := at' 1
  let csc := x.f 76 1
  let (cr1, cg1, cg2, cb1) := cscCoef csc
  match csc, plane with
  | 0, 0 => y
  | 0, 1 => cb
  | 0, _ => cr
  | _, 0 => addF32 y (mulF32 (micro cr1) cr)
  | _, 1 => subF32 (subF32 y (mulF32 (micro cg1) cb)) (mulF32 (micro cg2) cr)
  | _, _ => addF32 y (mulF32 (micro cb1) cb)

/-- The floor of a finite value that is not negative. -/
def floorVal : FVal → Nat
  | .fin false m e => if 0 ≤ e then m * 2 ^ e.toNat else m / 2 ^ (-e).toNat
  | _ => 0

/-- Step 4: the source position of output index `o`, clamped to [0, n − 1]. -/
def sourcePos (o n m : Nat) : FVal :=
  let half : FVal := .fin false 1 (-1)
  let p := subF32 (divF32 (mulF32 (addF32 (ofInt o) half) (ofInt n)) (ofInt m)) half
  (p.max FVal.zero).min (ofInt (n - 1))

/-- Between two samples: a + (b − a) × f (log entry 18). -/
def lerp (a b f : FVal) : FVal := addF32 a (mulF32 (subF32 b a) f)

/-- Steps 1 to 5: the FP32 value of one element. -/
def SessSt.tensorAt (x : SessSt) (q : PicFacts) (plane row col : Nat) : FVal :=
  let cx := x.f 64 2
  let cy := x.f 66 2
  let cw := x.f 68 2
  let ch := x.f 70 2
  let sx := sourcePos col cw (x.f 72 2)
  let sy := sourcePos row ch (x.f 74 2)
  let x0 := floorVal sx
  let y0 := floorVal sy
  let fx := subF32 sx (ofInt x0)
  let fy := subF32 sy (ofInt y0)
  let x1 := Nat.min (x0 + 1) (cw - 1)
  let y1 := Nat.min (y0 + 1) (ch - 1)
  let line := fun (y : Nat) => lerp (x.colour q plane (cx + x0) (cy + y)) (x.colour q plane (cx + x1) (cy + y)) fx
  let v := lerp (line y0) (line y1) fy
  let f32 := fun (lo : Nat) => decodeFloat fp32 0xA (x.f lo 4)
  addF32 (mulF32 v (f32 80)) (f32 84)

/-- The bytes of a tensor. -/
def SessSt.tensorOut (x : SessSt) (q : PicFacts) (fmt : Nat) (tag : Word64) : List Byte :=
  let ow := x.f 72 2
  let oh := x.f 74 2
  (encodeRun fmt ((List.range (3 * oh * ow)).map (fun i =>
    (x.tensorAt q (i / (oh * ow)) (i / ow % oh) (i % ow), roundOf (x.f 77 1) tag i)))).1

/-! ### Releasing a picture (R401) -/

/-- Where a released picture goes: its addresses, and which of its parts are written. -/
structure RelAddr where
  pic : Nat
  stats : Option Nat
  tensor : Option (Nat × Nat)
  deriving DecidableEq, Repr

/-- The release record (Table MED-5). -/
def State.relRecord (s : State) (n kind flags pic stats tensor errors bytes w h order : Nat) : List Byte :=
  overlay 64 [(0, leBytes 1 kind), (1, leBytes 1 flags), (2, leBytes 2 n), (4, leBytes 4 (s.rd (medSessRelSeqSeq n))),
    (8, leBytes 8 pic), (16, leBytes 8 stats), (24, leBytes 8 tensor), (32, leBytes 4 errors), (36, leBytes 4 bytes),
    (40, leBytes 2 w), (42, leBytes 2 h), (44, leBytes 4 order), (48, leBytes 8 s.beat.num), (56, leBytes 2 s.beat.phase)]

/-- The record goes to the session's ring, and the counters follow. -/
def State.writeRel (s : State) (l : RunList) (n : Nat) (x : SessSt) (tag : Word64) (decode : Bool) (errors : Nat) (rec : List Byte) :
    State :=
  let seq := s.rd (medSessRelSeqSeq n)
  let s1 := s.jobStore l tag false (x.f 48 8 + seq % 2 ^ x.f 15 1 * 64) rec
  let s2 := ((s1.wr (medSessRelSeqSeq n) ((seq + 1) % 2 ^ 32)).count (medSessErrorsCount n) errors).count (medSessPicsCount n) 1
  let s3 := s2.count (if decode then medDecPicsCount else medEncPicsCount) 1
  if errors = 0 then s3 else s3.event medEventConcealed

/-- The concealed blocks of a picture: its ERRORS (R407). -/
def picErrors (q : PicFacts) : Nat := (q.blocks.filter (fun b => b.concealed)).length

/-- A decoded or flushed picture is written with its parts, then its record. -/
def State.releasePic (s : State) (l : RunList) (n : Nat) (x : SessSt) (tag : Word64) (kind : Nat) (q : PicFacts) (a : RelAddr) :
    State :=
  let s1 := (x.picPieces a.pic q).foldl (fun t p => t.jobStore l tag false p.1 p.2) s
  let s2 := match a.stats with
    | some b => s1.jobStore l tag false b (surface (x.f 4 1 == 4) q.width q.height q.luma q.blocks)
    | none => s1
  let s3 := match a.tensor with
    | some (b, fmt) => s2.jobStore l tag false b (x.tensorOut q fmt tag)
    | none => s2
  let flags := (decide (0 < (picErrors q))).toNat + 2 * q.generatedRef.toNat + 4 * q.key.toNat + 8 * a.stats.isSome.toNat +
    16 * a.tensor.isSome.toNat
  let s4 := s3.writeRel l n x tag true (picErrors q) (s3.relRecord n kind flags a.pic (a.stats.getD 0) ((a.tensor.map Prod.fst).getD 0)
    (picErrors q) q.auBytes q.width q.height q.order)
  match s4.findList l.queue l.desc with
  | some k => s4.setList { k with concealed := k.concealed + (picErrors q), progress := s4.tick }
  | none => s4

/-! ### The instructions -/

def fSession (w : Nat) : Nat := bitsOf w 8 8
def fStats (w : Nat) : Bool := fExt w 116 1 == 1
def fTensor (w : Nat) : Bool := fExt w 117 1 == 1

/-- The session is not open for this kind of instruction, or not in the list's partition (R140). -/
def State.badSession (s : State) (l : RunList) (w : Nat) (decode : Bool) : Bool :=
  match s.sess (fSession w) with
  | some x => x.part != s.partOf l || s.sessPart (fSession w) != some (s.partOf l) || x.decodes != decode
  | none => true

/-- Ranges of a media instruction by alignment: picture, bitstream, statistics, tensor. -/
structure MediaRanges where
  ins : List (Nat × Range)
  outs : List (Nat × Range)
  deriving DecidableEq, Repr

def State.mediaRanges (s : State) (l : RunList) (w : Nat) (decode : Bool) : MediaRanges :=
  match s.sess (fSession w) with
  | some x =>
    let stats : List (Nat × Range) := if fStats w then [(64, ⟨l.slot (fAsd w), x.statBytes⟩)] else []
    if decode then
      { ins := [(1, ⟨l.slot (fAsa w), fExt w 84 32⟩)]
        outs := [(64, ⟨l.slot (fAsc w), x.picBytes⟩)] ++ stats ++
          (if fTensor w then [(64, ⟨l.slot (fAse w), x.tensorBytes (fFmtC w)⟩)] else []) }
    else
      { ins := [(64, ⟨l.slot (fAsa w), x.picBytes⟩)], outs := [(1, ⟨l.slot (fAsc w), fExt w 84 32⟩)] ++ stats }
  | none => { ins := [], outs := [] }

/-- Causes of MDEC and MENC. -/
def State.mediaCauses (s : State) (l : RunList) (w : Nat) (decode : Bool) : List (Bool × Nat) :=
  let r := s.mediaRanges l w decode
  let tensor := decode && fTensor w
  [(leftover w ([uAsa, uAsc, uBase, (8, 8), (84, 32), (116, 1)] ++ useIf (fStats w) uAsd ++
      (if decode then [(117, 1)] else []) ++ useIf tensor uAse ++ useIf tensor uFmtC), 0x0202),
   (tensor && !(fFmtC w == 1 || fFmtC w == 5 || fFmtC w == 8), 0x0203),
   (fExt w 84 32 == 0, 0x0205),
   (s.badRanges l localSpaces (r.ins ++ r.outs), 0x0206),
   (overlaps (r.outs.map Prod.snd) (r.ins.map Prod.snd), 0x0207),
   (s.badSession l w decode, 0x020C)] ++ tileCauses l w 1

/-- The instruction reaches its session, and runs there once those before it are done (R398). `elements` is what an entropy engine
parses for it ahead of the pixel engines. -/
def State.joinSession (s : State) (l : RunList) (n : Nat) (elements : List Byte) : State :=
  match s.sess n with
  | some x =>
    let me := (l.queue, l.desc)
    let y := if x.busy = [] then { x with unparsed := elements } else { x with later := x.later ++ [(me, elements)] }
    ((s.setList { l with work := .media n, total := 1, done := [] }).setSess n (some { y with busy := x.busy ++ [me] })).wr
      (medSessStatusBusy n) 1
  | none => s

/-- MDEC (R399): the session remembers which parts of a picture it asks for. -/
def execMdec (r : ListRef) (elements : List Byte) (s : State) : Host.Outcome State Fault Refusal :=
  .next (s.instr r 0x60 (fun l w => s.mediaCauses l w true)
    (fun t l w => t.joinSession l (fSession w) elements)).wrapUp

/-- MENC (R411). -/
def execMenc (r : ListRef) (s : State) : Host.Outcome State Fault Refusal :=
  .next (s.instr r 0x61 (fun l w => s.mediaCauses l w false)
    (fun t l w => t.joinSession l (fSession w) [])).wrapUp

/-! ### Completion -/

/-- The list whose instruction runs on its session now, with its word, session number and session. -/
def State.onSession (s : State) (r : ListRef) (op : Nat) : Option (RunList × Nat × Nat × SessSt) :=
  match s.findList r.queue.val r.desc with
  | some l =>
    match l.work, l.word, l.ending with
    | .media n, some w, none =>
      (match s.sess n with
      | some x => if bitsOf w.toNat 0 8 = op ∧ x.busy.head? = some (l.queue, l.desc) then some (l, w.toNat, n, x) else none
      | none => none)
    | _, _, _ => none
  | none => none

/-- The instruction of `l` leaves its session complete. -/
def State.mediaDone (s : State) (l : RunList) : State :=
  match s.findList l.queue l.desc with
  | some k => ((s.leaveSession k 0).completeInstr k false).settle
  | none => s

/-- The instruction ends its list. -/
def State.mediaEnd (s : State) (l : RunList) (e : Ending) : State := (s.endWith l e.status e.detail).settle

/-! ### What an instruction reads (R114, R402, R403) -/

/-- The ranges of the session's pool that the traffic names. -/
def SessSt.poolReads (x : SessSt) (t : PoolTraffic) : List (Nat × Nat) :=
  t.reads.filterMap (fun r => if r.1 + r.2 ≤ x.f 24 4 then some (x.f 16 8 + r.1, r.2) else none)

/-- The syntax elements that were spilled, and the pool. -/
def SessSt.ownReads (x : SessSt) (t : PoolTraffic) : List (Nat × Nat) := (x.f 32 8, x.spilled) :: x.poolReads t

/-- The DETAILs met in these ranges of the list's memory. -/
def State.rangeFaults (s : State) (l : RunList) (rs : List (Nat × Nat)) : List Nat :=
  rs.flatMap (fun r => ((s.readBytes (s.partOf l) false r.1 r.2).map Prod.snd).getD [])

/-- The reads themselves: nothing where no line has an error and no read failed. -/
def State.touchRanges (s : State) (l : RunList) (rs : List (Nat × Nat)) (faults : List Nat) : State :=
  if faults = [] ∧ s.mem.flaws = [] then s
  else rs.foldl (fun u r => u.touch (s.partOf l) false (some (l.queue, l.desc)) r.1 r.2) s

/-- What the instruction writes to the pool, with TILE 0xF_FFFF. -/
def State.writePool (s : State) (l : RunList) (x : SessSt) (t : PoolTraffic) : State :=
  (t.writes.filter (fun r => decide (r.1 + r.2.length ≤ x.f 24 4))).foldl (fun u r =>
    u.jobStore l (u.listTag l) false (x.f 16 8 + r.1) r.2) s

/-- Where the `k`-th flushed picture goes (R400). -/
def SessSt.flushAddr (x : SessSt) (k : Nat) : RelAddr :=
  let pic := align4k x.picBytes
  let stat := if x.lastStats then align4k x.statBytes else 0
  let tens := if x.lastTensor then align4k (x.tensorBytes x.lastFmt) else 0
  let a := x.f 56 8 + k * (pic + stat + tens)
  { pic := a, stats := if x.lastStats then some (a + pic) else none,
    tensor := if x.lastTensor then some (a + pic + stat, x.lastFmt) else none }

/-- An MFLUSH that runs: every picture still held is released in output order, and the session waits for a random access point. -/
def State.flush (s : State) (r : ListRef) (pics : List PicFacts) (pool : PoolTraffic) : State :=
  match s.onSession r 0x62 with
  | none => s
  | some (l, _, n, x) =>
    let rs := x.ownReads pool
    let fs := s.rangeFaults l rs
    let s0 := s.touchRanges l rs fs
    match dataError fs with
    | some e => s0.mediaEnd l e
    | none =>
      let s1 := (x.ready ++ pics).zipIdx.foldl (fun (u : State) (q : PicFacts × Nat) =>
        u.releasePic l n x (s.listTag l) 3 q.1 (x.flushAddr q.2)) (s0.writePool l x pool)
      (s1.setSess n (some { x with ready := [], waitRap := true })).mediaDone l

/-- MFLUSH (R400): the codec's end-of-stream process makes `pics` ready; they are released after those that were. It takes its place
on the session, and runs when those before it are done (R398): at once, or when the command comes again. -/
def execMflush (r : ListRef) (pics : List PicFacts) (pool : PoolTraffic) (s : State) : Host.Outcome State Fault Refusal :=
  .next (
    match s.onSession r 0x62 with
    | some _ => s.flush r pics pool
    | none => s.instr r 0x62 (fun l w => [(leftover w [(8, 8)], 0x0202), (s.badSession l w true, 0x020C)])
        (fun t l w => (t.joinSession l (fSession w) []).flush r pics pool)).wrapUp

/-- A decode session that halts with a DETAIL of Table MED-7. -/
def State.mediaHalt (s : State) (l : RunList) (n : Nat) (x : SessSt) (detail : Nat) : State :=
  (s.haltSession n x).mediaEnd l ⟨0x22, detail⟩

/-- The DETAIL of Table MED-7 that a decode ends with, if any. -/
def decodeDetail (x : SessSt) (r : DecodeResult) : Option Nat :=
  let stop := (x.f 13 1).testBit 0
  lowest [(stop && r.syntaxError, 0x0601), (stop && r.missingRef, 0x0602), (r.beyond, 0x0603)]

/-- Where an MDEC's picture goes. -/
def decodeAddr (l : RunList) (w : Nat) : RelAddr :=
  { pic := l.slot (fAsc w), stats := if fStats w then some (l.slot (fAsd w)) else none,
    tensor := if fTensor w then some (l.slot (fAse w), fFmtC w) else none }

/-- The FMT of a media tile's tag (Table INS-6). -/
def mediaFmt (w : Nat) : Nat := if bitsOf w 0 8 = 0x60 ∧ fTensor w then fFmtC w else 0xB

/-- MEDIA_DECODE_COMPLETE (R399, R407–R410): the access unit has been consumed. -/
def execMediaDecodeComplete (r : ListRef) (d : DecodeResult) (s : State) : Host.Outcome State Fault Refusal :=
  .next (
    match s.onSession r 0x60 with
    | none => s
    | some (l, w, n, x0) =>
      let x := { x0 with lastStats := fStats w, lastTensor := fTensor w, lastFmt := fFmtC w }
      let skips := x.waitRap && !d.randomAccess
      let rs := (l.slot (fAsa w), fExt w 84 32) :: x.ownReads (if skips then ⟨[], []⟩ else d.pool)
      let fs := s.rangeFaults l rs
      let s0 := s.touchRanges l rs fs
      match dataError fs with
      | some e => s0.mediaEnd l e
      | none =>
        if skips then (s0.setSess n (some x)).mediaDone l
        else
          let y := { x with waitRap := false, halted := false }
          let s1 := (s0.writePool l x d.pool).wr (medSessStatusState n) 1
          match decodeDetail y d with
          | some t => s1.mediaHalt l n y t
          | none =>
            match y.ready ++ d.ready with
            | [] => (s1.setSess n (some y)).mediaDone l
            | q :: rest =>
              (((s1.setSess n (some { y with ready := rest })).releasePic l n y (s1.tileTag l w 0 (mediaFmt w)) 1 q
                (decodeAddr l w))).mediaDone l).wrapUp

/-! ### Encoding (R411, R412) -/

/-- The next picture is a key picture: the first, every KEY_INTERVAL pictures, or forced. -/
def SessSt.keyDue (x : SessSt) : Bool :=
  x.forceKey || x.encoded == 0 || (x.f 96 2 != 0 && decide (x.f 96 2 ≤ x.sinceKey + 1))

/-- The QP of the next picture: the descriptor's with RC = 0 and for the first picture; else the rate model's, at most 2 from the
last picture's and in the codec's range (R411). -/
def SessSt.pictureQp (x : SessSt) (model : Nat) : Nat :=
  if x.f 88 1 = 0 ∨ x.encoded = 0 then x.f 89 1
  else Nat.min (maxQp (x.f 4 1)) (Nat.max (x.qp - 2) (Nat.min (x.qp + 2) model))

/-- Block `i` lies in the columns (or rows) that the sweep codes as intra in this picture (R412). -/
def SessSt.refreshed (x : SessSt) (i : Nat) : Bool :=
  let cols := (x.f 8 2 + 15) / 16
  let g := x.f 90 1
  let c := if x.f 91 1 = 0 then (x.f 8 2 + 63) / 64 else (x.f 10 2 + 63) / 64
  let k := (if x.f 91 1 = 0 then i % Nat.max 1 cols else i / Nat.max 1 cols) / 4
  g != 0 && decide (x.sweep * c / g ≤ k) && decide (k < (x.sweep + 1) * c / g)

/-- What the encoder's rules say of its blocks: the picture's QP, intra in a key picture and in the swept columns, one reference,
and no SAD for an intra block (R405, R411, R412). -/
def SessSt.codedBlocks (x : SessSt) (key : Bool) (qp : Nat) (bs : List BlockFacts) : List BlockFacts :=
  bs.zipIdx.map (fun b =>
    let intra := b.1.intra || key || x.refreshed b.2
    { b.1 with qp := qp, intra := intra, concealed := false, mv0Valid := b.1.mv0Valid && !intra, mv1Valid := false, ref0 := 0,
               sad := if intra then 0 else b.1.sad })

/-- The session after a picture. -/
def SessSt.afterPic (x : SessSt) (key : Bool) (qp : Nat) : SessSt :=
  { x with forceKey := false, qp := qp, encoded := x.encoded + 1, sinceKey := if key then 0 else x.sinceKey + 1,
           sweep := if key then 0 else if x.f 90 1 = 0 then 0 else (x.sweep + 1) % x.f 90 1 }

/-- Luma samples of a source picture. -/
def SessSt.sourceLuma (x : SessSt) (bs : List Byte) : List Nat :=
  let out := x.f 14 1
  (List.range (x.f 10 2)).flatMap (fun r => (List.range (x.f 8 2)).map (fun c =>
    let v := field bs (r * x.f 28 4 + c * sampleSize out) (sampleSize out)
    if out = 0 then v else if x.f 7 1 = 8 then v / 256 else v / 64))

/-- MEDIA_ENCODE_COMPLETE (R411, R412). -/
def execMediaEncodeComplete (r : ListRef) (d : EncodeResult) (s : State) : Host.Outcome State Fault Refusal :=
  .next (
    match s.onSession r 0x61 with
    | none => s
    | some (l, w, n, x) =>
      let rs := (l.slot (fAsa w), x.picBytes) :: x.ownReads d.pool
      let fs := s.rangeFaults l rs
      let s0 := s.touchRanges l rs fs
      match dataError fs with
      | some e => s0.mediaEnd l e
      | none =>
        if fExt w 84 32 < d.bitstream.length then
          (s0.setSess n (some { x with forceKey := true })).mediaEnd l ⟨0x22, 0x0604⟩
        else
          let bs := ((s.readBytes (s.partOf l) false (l.slot (fAsa w)) x.picBytes).map Prod.fst).getD []
          let key := x.keyDue
          let qp := x.pictureQp d.qp
          let tag := s.tileTag l w 0 (mediaFmt w)
          let s1 := ((s0.setSess n (some (x.afterPic key qp))).writePool l x d.pool).jobStore l tag false (l.slot (fAsc w)) d.bitstream
          let s2 := if fStats w then
              s1.jobStore l tag false (l.slot (fAsd w)) (surface false (x.f 8 2) (x.f 10 2) (x.sourceLuma bs) (x.codedBlocks key qp d.blocks))
            else s1
          let flags := 4 * key.toNat + 8 * (fStats w).toNat + 32 * (!key && x.f 90 1 != 0 && x.sweep == 0).toNat
          (s2.writeRel l n x tag false 0 (s2.relRecord n 2 flags (l.slot (fAsc w)) (if fStats w then l.slot (fAsd w) else 0) 0 0
            d.bitstream.length (x.f 8 2) (x.f 10 2) d.order)).mediaDone l).wrapUp

end Sys2Proof.Machine
end

