-- ==== Sys2Proof/Machine/Wake.lean ====
section
/-!
DEFINITION. AON power-up, the wake sequence and the safe state (R288–R297, R340, R347, 13_power_domains_and_wake.md).
-/
namespace Sys2Proof.Machine

open Reg

/-! ### Outputs to the regulators (R289) -/

/-- Bits of `m` out of `v`, both masks of the twelve domains. -/
def without (v m : Nat) : Nat := v &&& ((2 ^ 12 - 1) ^^^ (m &&& (2 ^ 12 - 1)))

def State.setPwr (s : State) (p : PwrSt) : State := { s with pwr := p }

/-- PWR_EN_d drives high. -/
def State.enable (s : State) (d : Nat) : State := s.setPwr { s.pwr with en := s.pwr.en ||| 2 ^ d }

/-- PWR_EN_d drives low: the regulators it enables stop, and PGOOD_d follows (R288). -/
def State.cutEnable (s : State) (d : Nat) : State :=
  if s.pwr.en.testBit d then
    s.setPwr { s.pwr with en := without s.pwr.en (2 ^ d), pgood := without s.pwr.pgood (2 ^ d) }
  else s

def State.setWaits (s : State) (w : List WakeWait) : State := s.setPwr { s.pwr with waits := w }

/-- A wait of the wake becomes another one. -/
def State.replaceWait (s : State) (a b : WakeWait) : State := s.setWaits (s.pwr.waits.map (fun x => if x = a then b else x))

def State.dropWait (s : State) (a : WakeWait) : State := s.setWaits (s.pwr.waits.filter (fun x => x != a))

def State.waitsFor (s : State) (a : WakeWait) : Bool := s.pwr.waits.contains a

/-- Attempts of a domain; 12, 13 and 14 stand for W1, W2 and W3. -/
def State.attempts (s : State) (d : Nat) : Nat := s.pwr.attempts.get (fun _ => 0) d

def State.setAttempts (s : State) (d n : Nat) : State :=
  s.setPwr { s.pwr with attempts := s.pwr.attempts.set (fun _ => 0) d n }

/-! ### Domains on and off -/

/-- The step of Table PWR-3 that switches a domain on. -/
def stepOfDom (d : Nat) : Nat :=
  if d = 6 then 4 else if d < 4 then 5 else if d < 6 then 6 else if d < 9 then 7 else if d = 9 then 8 else 9

/-- Domains in the order of W4 to W9. -/
def wakeOrder : List Nat := [6, 0, 1, 2, 3, 4, 5, 7, 8, 9, 10, 11]

/-- Stacks of an HBM domain. -/
def stacksOfDom (d : Nat) : List Nat := (List.range 4).map (fun i => (d - 4) * 4 + i)

/-- Clocks, the media engine and the capacity registers follow the domains. -/
def State.showDomains (s : State) : State :=
  ((s.updateClocks).wr medStatusReady (s.domOn 10 && s.on sysStatusBistDone).toNat).updateCapacity

/-- Every slot of a partition's job entries becomes INVALID (R257, R298). -/
def State.loseSlots (s : State) (p : Nat) : State :=
  ((List.range 16).filter (fun e => s.on (jobIdValid p e))).foldl (fun t e =>
    (t.setSlot p e false 4).setSlot p e true 4) s

/-- What a switch-off of a domain does (Table PWR-6), once its enable is low. -/
def State.offEffects (s : State) (d : Nat) : State :=
  if d < 4 then s.loseHosts (fun u => u / 168 == d)
  else if d < 6 then
    let s1 := (stacksOfDom d).foldl (fun t h => t.wr (hbmStatusTrained h) 0) s
    (s1.parts.filter (fun p => (s1.stacksOf p).any (fun h => hbmDom h == d))).foldl (fun t p => t.loseSlots p) s1
  else if d = 6 then s
  else if d < 9 then s.dropPorts
  else if d = 9 then s.pcieDown
  else if d = 10 then s.closeSessions (fun _ => true)
  else s.claDown

/-- A domain goes off. -/
def State.domainDown (s : State) (d : Nat) : State :=
  let s1 := ((s.cutEnable d).wrBit pwrDomStatusOn d false).wrBit clkStatusPll d false
  if s.domOn d then s1.offEffects d else s1

def State.allDown (s : State) : State := ([11, 10, 9, 8, 7, 6, 5, 4, 3, 2, 1, 0].foldl (fun t d => t.domainDown d) s).showDomains

/-- The units that lie in a domain: a die's clusters and vector units, an HBM domain's pseudo-channels, a fabric domain's
lanes. -/
def unitsOfDom (d : Nat) : List Nat :=
  (List.range 1984).filter (fun k =>
    if k < 1344 then unitDie k == some d else if k < 1856 then hbmDom ((k - 1344) / 64) == d else portDom ((k - 1856) / 8) == d)

/-- The data path of a domain that comes up takes its units' states from the map in force (R299); a pending entry keeps its effect. -/
def State.followMap (s : State) (d : Nat) : State :=
  { s with qtn := { s.qtn with path := (unitsOfDom d).foldl (fun a k =>
      if (s.qtn.map.entry k).pending then a else a.put k (s.qtn.map.entry k)) s.qtn.path } }

def RowEntry.sameRow (x : RowEntry) (c bank row : Nat) : Bool := x.chan == c && x.bank == bank && x.row == row

/-- The controllers of an HBM domain that comes up keep their remaps, and re-establish one for every listed row that is not
marked APPLIED, up to 64 of a stack (R162). A copy that the loss of power cut short ends with it, and its row joins the list. -/
def State.remapRows (s : State) (d : Nat) (kept : Bool) : State :=
  let cut := if kept then [] else s.mem.copies.filter (fun c => hbmDom (c.chan / 64) == d)
  let more := cut.flatMap (fun c => s.mem.remaps.filter (fun r => r.sameRow c.chan c.bank c.row))
  let all := fun (h : Nat) =>
    let old := s.mem.remaps.filter (fun r => r.chan / 64 == h)
    (old ++ s.mram.rows.filter (fun r => r.chan / 64 == h && !r.applied && !old.any (fun x => x.sameRow r.chan r.bank r.row))).take 64
  let m : MemSt := { s.mem with
    remaps := s.mem.remaps.filter (fun (r : RowEntry) => hbmDom (r.chan / 64) != d) ++ (stacksOfDom d).flatMap all
    copies := s.mem.copies.filter (fun c => !cut.contains c)
    unlisted := s.mem.unlisted ++ more }
  ((stacksOfDom d).foldl (fun (t : State) h => t.showRemaps h) { s with mem := m }).listRows

/-- A domain is on: its FAILED bit clears, and what it holds comes up (R297–R299). `kept`: HBM that self-refresh kept. -/
def State.domainUp (s : State) (d : Nat) (kept : Bool) : State :=
  let s1 := ((s.wrBit pwrDomStatusOn d true).wrBit pwrDomStatusFailed d false).followMap d
  let s2 :=
    if d < 4 then s1.rewrite ((List.range 168).map (fun i => d * 168 + i))
    else if d < 6 then
      let t := (stacksOfDom d).foldl (fun t h => t.wr (hbmStatusTrained h) 1) s1
      (if kept then t else t.rewrite ((List.range 256).map (fun i => 672 + (d - 4) * 256 + i))).remapRows d kept
    else if d = 7 ∨ d = 8 then s1.updateLanes
    else if d = 10 then (s1.resetRegs (fun a _ _ => decide (0x600000 ≤ a) && decide (a < 0x700000))).divideSessions
    else if d = 11 ∧ s1.pwr.wake ≠ some .cold then s1.startLoad
    else s1
  s2.showDomains

/-! ### Failures (R293, R295) -/

/-- A failure of the wake: the first since AON power-up stays in PWR_WAKE_RESULT, every later one is a PLDM state event
whose data the spec does not lay out. -/
def State.recordFail (s : State) (step dom reason attempts : Nat) : State :=
  let code := step * 4096 + dom * 256 + reason * 16 + attempts
  let r := s.openRec
  let s1 := (s.event pwrEventWakeFail).setOpen
    { r with wakeFail := true, wakeFirst := if r.wakeFails = 0 then code else r.wakeFirst, wakeFails := r.wakeFails + 1 }
  if s1.on pwrWakeResultValid then s1.emit (.pldmEvent 0 (Config.eventPayload 7))
  else ((((s1.wr pwrWakeResultValid 1).wr pwrWakeResultStep step).wr pwrWakeResultDomain dom).wr pwrWakeResultReason reason).wr
    pwrWakeResultAttempts attempts

/-- The safe state, after a failure in `step`. -/
def State.safeState (s : State) (step : Nat) : State :=
  let s1 := s.setPwr { s.pwr with wake := none, waits := [], safe := true, safeStep := step, ready := false, selfRefresh := 0 }
  let s2 := ((s1.wr sysStatusSafe 1).wr sysStatusReady 0).wr pwrWakeStatusHeld 0
  (s2.setOpen { s2.openRec with safe := true }).allDown

/-! ### W10 begins (R308–R311, R314) -/

def State.setBist (s : State) (b : BistSt) : State := { s with bist := b }

/-- Budgets of Table BIST-2 in watts, G1 first. -/
def bistBudget (g : Nat) : Nat := [90, 110, 120, 260, 450, 450, 450, 450].getD g 0

/-- The domains a group tests. -/
def bistDoms (g : Nat) : List Nat := [[6], [7, 8, 9], [10, 11], [4, 5], [0], [1], [2], [3]].getD g []

/-- Whether none of a group's domains is on: it has nothing to test. -/
def State.groupGone (s : State) (g : Nat) : Bool := (bistDoms g).all (fun d => !s.domOn d)

/-- The lowest-numbered group that has not started and has something to test. -/
def State.nextGroup (s : State) : Option Nat :=
  (List.range 8).find? (fun g => !s.bit bistStatusRun g && !s.bit bistStatusDone g && !s.groupGone g)

/-- The budget of the groups that run, over the baseline. -/
def State.bistWatts (s : State) : Nat :=
  150 + (((List.range 8).filter (fun i => s.bit bistStatusRun i)).map bistBudget).sum

/-- A finding of G1 leads to the safe state, and no other group starts. -/
def State.bistHalted (s : State) : Bool := s.bist.fatal != [] && s.rd bistStatusDone == 1

/-- Groups start in ascending order while the cap holds; G1 runs alone. -/
def State.startGroups (s : State) : Nat → State
  | 0 => s
  | n + 1 =>
    match s.nextGroup with
    | none => s
    | some g =>
      if s.bit bistStatusRun 0 ∨ s.bistHalted ∨ 1200 < s.bistWatts + bistBudget g then s
      else (s.wrBit bistStatusRun g true).startGroups n

/-- Logical numbers that nothing backs, bit die × 160 + LC. -/
def UnitMap.unbackedMask (m : UnitMap) : Nat :=
  ((List.range 640).filter (fun x => (m.backing (x / 160) (x % 160)).isNone)).foldl (fun a x => a + 2 ^ x) 0

/-- Self-test begins: fuse and list repairs are loaded, SKIP shows what is not tested, and the first groups start. -/
def State.startBist (s : State) : State :=
  let skip := (List.range 8).filter (fun g => (bistDoms g).any (fun d => !s.domOn d))
  let s1 := (s.setWaits [.selfTest]).setBist { BistSt.reset with unbacked := s.qtn.map.unbackedMask }
  let s2 := ((s1.wr pwrWakeStatusStep 10).wr bistStatusState 1).wr bistGroupsSkip (skip.foldl (fun a g => a + 2 ^ g) 0)
  (s2.wr bistRepairsLoaded (Config.fuseRepairs.length + s.mram.repairs.length)).startGroups 9

/-! ### W11 and the walk (R291–R294) -/

/-- W11: SYS_READY rises, unless an earlier self-test outcome holds the device (R320, R322). -/
def State.finishWake (s : State) (resume : Bool) : State :=
  let s0 := s.wr pwrWakeStatusStep 11
  if s.pwr.bistHold ≠ 0 then (if resume then s0.recordFail 10 12 s.pwr.bistHold 1 else s0).safeState 10
  else
    let s1 := s0.wr pwrWakeStatusDone 1
    let s2 := (s1.setPwr { s1.pwr with wake := none, waits := [], ready := true, selfRefresh := 0 }).wr sysStatusReady 1
    (if resume then s2.wr thmStatusState 0 else s2).showDomains

/-- Domains that a sequence switches on, in order. -/
def WakeKind.targets : WakeKind → List Nat
  | .switchOn m => wakeOrder.filter (fun d => m.testBit d)
  | _ => wakeOrder

def WakeKind.switching : WakeKind → Bool
  | .switchOn _ => true
  | _ => false

/-- Every domain of the sequence has ended. -/
def State.endDomains (s : State) (k : WakeKind) : State :=
  match k with
  | .cold => s.startBist
  | .deviceReset => s.finishWake false
  | .resume => s.finishWake true
  | .switchOn _ => s.setPwr { s.pwr with wake := none, waits := [] }

/-- The first attempt of a domain. HBM kept in self-refresh is on already; a PGOOD that is high before the enable is
checked again after 10 ms. -/
def State.beginDomain (s : State) (k : WakeKind) (d : Nat) : State :=
  let s1 := (s.setPwr { s.pwr with begun := s.pwr.begun ||| 2 ^ d }).setAttempts d 1
  let s2 := if k.switching then s1 else s1.wr pwrWakeStatusStep (stepOfDom d)
  if s2.pwr.selfRefresh.testBit d then s2.setWaits (s2.pwr.waits ++ [.pll d])
  else if s2.pwr.pgood.testBit d then s2.setWaits (s2.pwr.waits ++ [.retryOff d])
  else (s2.enable d).setWaits (s2.pwr.waits ++ [.pgood d])

/-- The walk goes on when nothing more has to be waited for: the next domain, the end of W5 without a compute die, or the
end of the domains. PD5 follows PD4 without waiting for its training. -/
def State.nextDomain (s : State) : State :=
  match s.pwr.wake with
  | none => s
  | some k =>
    if s.pwr.stopWake || s.on pwrWakeStatusHeld || s.waitsFor .selfTest then s
    else match k.targets.find? (fun d => !s.pwr.begun.testBit d) with
      | some d =>
        if s.pwr.waits ≠ [] ∧ !(d = 5 ∧ s.pwr.waits = [.training 4]) then s
        else if !k.switching ∧ d ≠ 6 ∧ 4 ≤ d ∧ (List.range 4).all (fun x => !s.domOn x) then s.safeState 5
        else s.beginDomain k d
      | none => if s.pwr.waits = [] then s.endDomains k else s

/-- Every attempt of a domain has failed: it is left off. -/
def State.failDomain (s : State) (d reason : Nat) : State :=
  let s1 := ((((s.cutEnable d).wrBit clkStatusPll d false).wrBit pwrDomStatusOn d false).wrBit pwrDomStatusFailed d true).recordFail (stepOfDom d) d reason
    (s.attempts d)
  let s2 := (s1.setPwr { s1.pwr with selfRefresh := without s1.pwr.selfRefresh (2 ^ d) }).updateFault
  if d = 6 then s2.safeState 4 else s2.nextDomain

/-- An attempt of a domain fails while it waits for `w`: training and calibration start again in place, anything else with
10 ms off first. -/
def State.failAttempt (s : State) (w : WakeWait) (d reason : Nat) : State :=
  if 3 ≤ s.attempts d then (s.dropWait w).failDomain d reason
  else if reason = 3 ∨ reason = 6 then s.setAttempts d (s.attempts d + 1)
  else
    let s1 := ((s.cutEnable d).wrBit clkStatusPll d false).replaceWait w (.retryOff d)
    s1.setPwr { s1.pwr with selfRefresh := without s1.pwr.selfRefresh (2 ^ d) }

/-- The wake or a switch-on begins. -/
def State.beginWake (s : State) (k : WakeKind) : State :=
  let s1 := s.setPwr { s.pwr with wake := some k, waits := [], attempts := [], begun := 0, safe := false, stopWake := false }
  if k.switching then s1.nextDomain
  else (((s1.wr sysStatusSafe 0).wr pwrWakeStatusDone 0).updateFault).nextDomain

/-! ### AON power-up (R290, R291, R340, R347) -/

/-- MRAM as a loss of power leaves it: a record whose write was cut short leaves a bad slot (R345). -/
def State.cutMram (s : State) : MramSt :=
  match s.evr.writing with
  | some (seq, _, _) =>
    { s.mram with ring := s.mram.ring.del (seq % 1536), bad := (seq % 1536) :: s.mram.bad.filter (fun i => i != seq % 1536) }
  | none => s.mram

/-- What the device is without power: MRAM, the boot flash with its churn pack, the key slots and the board's inputs last. BEAT_OUT is
tri-stated (R31). -/
def State.unpowered (s : State) : State :=
  { State.reset with
    pending := s.pending, mram := s.cutMram, out := if s.beat.pin = .tri then s.out else .beatOut .tri :: s.out, free := s.free,
    qtn := { QtnSt.reset with pack := s.qtn.pack }, link := { LinkSt.reset with keys := s.link.keys, fwApplied := s.link.fwApplied, perstHigh := s.link.perstHigh },
    pwr := { PwrSt.reset with pgood := without s.pwr.pgood s.pwr.en } }

/-- The newest panel copy: a good CRC and the higher sequence number (R354). -/
def MramSt.newest1 (m : MramSt) : Bool := m.panel1.crcOk && (!m.panel0.crcOk || decide (m.panel0.seq < m.panel1.seq))

def MramSt.panel (m : MramSt) : PanelCopy := if m.newest1 then m.panel1 else m.panel0

/-- Straps latch (Table DEV-7): bits [1:0] PART_MODE, [2] WAKE_HOLD, [3] BIST_DEEP, [5:4] CLA_SRC. -/
def State.latchStraps (s : State) (straps : Nat) : State :=
  let bad := straps % 4 = 3
  let mode := if bad then 0 else straps % 4
  let s1 := (({ s with mode := mode }.setReg sysStrap (BitVec.ofNat 32 (straps % 64))).wr sysStrapPartModeBad (decide bad).toNat).wr
    sysPartCfgActive mode
  (s1.wr bistStatusDeep (bitsOf straps 3 1)).wr claStatusSrc (bitsOf straps 4 2)

/-- Fused key slots: those of the factory, and those written since (R196). -/
def State.fusedMask (s : State) : Nat :=
  (List.range 8).foldl (fun m k => setBits m k 1 (Config.fusedKeys.testBit k || s.link.keys.get (fun _ => []) k != []).toNat) 0

/-- Fused values show. -/
def State.showFuses (s : State) : State :=
  let s1 := ((s.wr mgtKeyCfgFused s.fusedMask).wr sysSerialLoSerial (Config.serial.toNat % 2 ^ 32)).wr sysSerialHiSerial (Config.serial.toNat / 2 ^ 32)
  (List.range 4).foldl (fun t d => (t.wr (pwrVsetVRated d) (Config.vRated d)).wr (pwrVsetMv d) (Config.vRated d)) s1

/-- PENDING entries of pseudo-channels and lanes take effect, at a device reset or a power-up (R147, R174, R222). -/
def UnitMap.settled (m : UnitMap) : UnitMap :=
  ((List.range 640).filter (fun c => (m.entry (1344 + c)).pending)).foldl (fun a c =>
    a.put (1344 + c) { a.entry (1344 + c) with pending := false }) m

/-- The highest epoch that a header holds. -/
def MramSt.headerEpoch (m : MramSt) : Nat :=
  Nat.max (if m.image0.headerOk then m.image0.epoch else 0) (if m.image1.headerOk then m.image1.epoch else 0)

/-- The map in force at AON power-up; a fresh one when neither image can be read (R223, R224). -/
def State.loadMap (s : State) : State :=
  match s.mram.imageInForce with
  | some i =>
    { s with qtn := { s.qtn with map := UnitMap.settled i.entries, path := UnitMap.settled i.entries } }.wr qtnEpochEpoch i.epoch
  | none => (s.event qtnEventMapLost).wr qtnEpochEpoch ((s.mram.headerEpoch + 1) % 2 ^ 32)

/-- The counters restart (R340), a session opens (R347), and the history and panel registers show MRAM. -/
def State.loadRecorder (s : State) : State :=
  let c := s.mram.counters
  let s1 := { s with evr := { s.evr with faultSeq := c.faultCeil, capSeq := c.capCeil } }
  let s2 := s1.counterUpdate (fun k => { k with faultCeil := c.faultCeil + 1024, capCeil := c.capCeil + 1024, sessionOpen := true })
  let s3 := (((s2.wr qtnWsfSeqSeq c.recordSeq).wr evrSeqSeq c.seq).wr evrStatusPrevUnclean c.sessionOpen.toNat).wr
    evrStatusTripMark s.mram.marker.isSome.toNat
  let s4 := if s.mram.bad = [] then s3 else s3.event evrEventSlotBad
  let p := s.mram.panel
  let s5 := ((s4.wr pnlSeqSeq p.seq).wr pnlStatusOpen p.open'.toNat).wr pnlStatusNoScript s.mram.script.isEmpty.toNat
  let s6 := (if p.open' then s5.wr pnlCfgFull 1 else s5).wr bistListUsedCount s.mram.repairs.length
  let s7 := { s6 with evr := { s6.evr with shown := p.text } }.wr evrOldestSeq s6.oldestSeq
  s7.setOpen { s7.freshRec with prevUnclean := c.sessionOpen }

/-- AON power is in range and its power-on reset releases: W0 ends, and W1 begins. -/
def State.powerUp (s : State) (straps : Nat) : State :=
  let s1 := ((s.unpowered.setPin .low).latchStraps straps).showFuses
  let (w, s2) := (s1.loadMap.loadRecorder).draw
  let s3 := { s2 with link := { s2.link with session := w } }.divideSessions
  let s4 := if s3.rd claStatusSrc = 0 then s3 else s3.wr claStatusDriving 1
  (s4.setPwr { s4.pwr with aon := true, wake := some .cold, waits := [.osc], attempts := [(12, 1)] }).wr pwrWakeStatusStep 1 |>.showDomains

/-- AON_POWER_UP (R291). -/
def execAonPowerUp (straps : BitVec 6) (s : State) : Host.Outcome State Fault Refusal :=
  .next (if s.pwr.aon then s else s.powerUp straps.toNat)

/-- AON_RESET_PIN (R447): a low of at least 10 µs is an AON power cycle, one below 2 µs is ignored, and between them a free
value says which. -/
def execAonResetPin (us : Nat) (straps : BitVec 6) (s : State) : Host.Outcome State Fault Refusal :=
  .next (
    if !s.pwr.aon || decide (us < 2) then s
    else if 10 ≤ us then s.powerUp straps.toNat
    else
      let (w, s1) := s.draw
      if w.getLsbD 0 then s1.powerUp straps.toNat else s1)

/-- AON_POWER_LOSS (R444): outputs are tri-stated, and THERMTRIP_N is released. -/
def execAonPowerLoss (s : State) : Host.Outcome State Fault Refusal :=
  .next (
    if !s.pwr.aon then s
    else if s.on thmStatusTripped then s.unpowered.emit (.thermTrip false) else s.unpowered)

/-! ### W1 to W3 -/

/-- SYS_OSC_QUALIFIED: W1 ends. -/
def execSysOscQualified (s : State) : Host.Outcome State Fault Refusal :=
  .next (
    if !s.waitsFor .osc then s
    else if s.pwr.stopWake then (s.wr clkStatusOscOk 1).setWaits []
    else (((s.wr clkStatusOscOk 1).setWaits [.aonPll]).setAttempts 13 1).wr pwrWakeStatusStep 2)

/-- The control cores start from the verified image (R267): their heartbeat counts restart. -/
def State.startCores (s : State) : State :=
  (List.range 4).foldl (fun t n =>
    (t.setCore n { CoreSt.reset with state := .running, since := t.tick, restarted := none }).wrBit hngStatusAlive n true) s

/-- The session is announced to the collector in a HELLO (R193), and the stack starts (R191). -/
def State.hello (s : State) : State :=
  (s.startNet).sendMgt none s.collector 0x13 s.ownKey 0 (leBytes 8 s.link.session.toNat)

/-- R238: the active pack is verified again. -/
def State.recheckPack (s : State) : State :=
  match s.qtn.pack with
  | some k =>
    if packSigned k.bytes then s.showPack k
    else { s with qtn := { s.qtn with pack := none } }.packRejected 5 k.keyId k.version
  | none => s

/-- BOOT_IMAGE_LOADED: W3 ends; the cores run, the session is announced, and a fresh map is reported (R193, R224, R238). -/
def execBootImageLoaded (s : State) : Host.Outcome State Fault Refusal :=
  .next (
    if !s.waitsFor .boot then s
    else
      let s1 := (s.startCores.setWaits []).hello
      if s.pwr.wake ≠ some .cold then s1.nextDomain
      else
        let s2 := if s1.on qtnEventMapLost then
            s1.sendWsf ⟨s1.wsfBytes 0x08 none 0xFFFF 0 0 (s1.rd qtnEpochEpoch)
              [(152, leBytes 4 (if s.mram.image0.headerOk then s.mram.image0.epoch else 0)),
               (156, leBytes 4 (if s.mram.image1.headerOk then s.mram.image1.epoch else 0))]⟩
          else s1
        let s3 := s2.recheckPack
        if s3.on sysStrapWakeHold then s3.wr pwrWakeStatusHeld 1 else s3.nextDomain).wrapUp

/-- WAKE_GO (R290, R307). -/
def execWakeGo (path : Path) (s : State) : Host.Outcome State Fault Refusal :=
  .next (if s.mgmtOrDebug path && s.on pwrWakeStatusHeld then (s.wr pwrWakeStatusHeld 0).nextDomain else s).wrapUp

/-! ### Waits of the domains -/

/-- A domain's last wait ends. -/
def State.domainDone (s : State) (w : WakeWait) (d : Nat) : State :=
  ((s.dropWait w).domainUp d (s.pwr.selfRefresh.testBit d)).nextDomain

/-- PLL_LOCK: the AON PLL, or a domain's. -/
def execPllLock (d : Option Domain) (s : State) : Host.Outcome State Fault Refusal :=
  .next (
    match d with
    | none =>
      if !s.waitsFor .aonPll then s
      else if s.pwr.stopWake then (s.wr clkStatusAonPll 1).setWaits []
      else (((s.wr clkStatusAonPll 1).setWaits [.boot]).setAttempts 14 1).wr pwrWakeStatusStep 3
    | some n =>
      let d := n.val
      if !s.waitsFor (.pll d) then s
      else
        let s1 := s.wrBit clkStatusPll d true
        if d = 4 ∨ d = 5 then (s1.replaceWait (.pll d) (.training d)).nextDomain
        else if d = 7 ∨ d = 8 then s1.replaceWait (.pll d) (.serdes d)
        else s1.domainDone (.pll d) d).wrapUp

/-- PGOOD_RISE (R289): the input counts as good. -/
def execPgoodRise (d : Domain) (s : State) : Host.Outcome State Fault Refusal :=
  let s1 := s.setPwr { s.pwr with pgood := s.pwr.pgood ||| 2 ^ d.val }
  .next (if s.waitsFor (.pgood d) then s1.replaceWait (.pgood d) (.pll d) else s1)

/-- HBM_TRAINING_DONE. -/
def execHbmTrainingDone (d : Domain) (s : State) : Host.Outcome State Fault Refusal :=
  .next (if s.waitsFor (.training d) then s.domainDone (.training d) d else s).wrapUp

/-- SERDES_CAL_DONE. -/
def execSerdesCalDone (d : Domain) (s : State) : Host.Outcome State Fault Refusal :=
  .next (if s.waitsFor (.serdes d) then s.domainDone (.serdes d) d else s).wrapUp

/-- A wait of W1 to W3 times out: the step repeats, or the safe state follows. -/
def State.failEarly (s : State) (step key reason : Nat) : State :=
  if s.attempts key < 3 then s.setAttempts key (s.attempts key + 1)
  else ((s.recordFail step 12 reason (s.attempts key)).safeState step).updateFault

/-- WAKE_STEP_TIMEOUT (R292, R293). -/
def execWakeStepTimeout (d : Option Domain) (s : State) : Host.Outcome State Fault Refusal :=
  .next (
    match d with
    | none =>
      if s.waitsFor .osc then s.failEarly 1 12 4
      else if s.waitsFor .aonPll then s.failEarly 2 13 2
      else if s.waitsFor .boot then s.failEarly 3 14 5
      else s
    | some n =>
      let d := n.val
      if s.waitsFor (.pgood d) then s.failAttempt (.pgood d) d 1
      else if s.waitsFor (.pll d) then s.failAttempt (.pll d) d 2
      else if s.waitsFor (.training d) then s.failAttempt (.training d) d 3
      else if s.waitsFor (.serdes d) then s.failAttempt (.serdes d) d 6
      else s).wrapUp

/-- WAKE_RETRY_OFF_END (R292): the enable is raised again, or the check repeated. After PWR_FAIL_N no enable is raised
(R306). W1 to W3 repeat without an off time. -/
def execWakeRetryOffEnd (d : Option Domain) (s : State) : Host.Outcome State Fault Refusal :=
  .next (
    match d with
    | none => s
    | some n =>
      let d := n.val
      if !s.waitsFor (.retryOff d) then s
      else if s.pwr.stopWake then s.dropWait (.retryOff d)
      else
        let s1 := s.setAttempts d (s.attempts d + 1)
        if !s1.pwr.pgood.testBit d then (s1.enable d).replaceWait (.retryOff d) (.pgood d)
        else if 3 ≤ s1.attempts d then (s1.dropWait (.retryOff d)).failDomain d 8
        else s1).wrapUp

end Sys2Proof.Machine
end

