-- ==== Sys2Proof/Machine/Bist.lean ====
section
/-!
DEFINITION. The power-up self-test, W10 (R308–R323, 14_power_up_self_test_and_repair.md).
-/
namespace Sys2Proof.Machine

open Reg

/-! ### Structures (Table BIST-5, Table BIST-3) -/

/-- The group that tests a structure, G1 at 0; the compute dies' structures by the die of their group. -/
def groupTests (g code inst : Nat) : Bool :=
  if code = 5 then decide (4 ≤ g)
  else if 1 ≤ code ∧ code ≤ 4 then decide (inst < 672) && g == 4 + inst / 168
  else if code = 0x10 ∨ code = 0x11 then g == 0
  else if code = 0x12 ∨ code = 0x13 then g == 1
  else if 0x14 ≤ code ∧ code ≤ 0x16 then g == 2
  else (code == 0x20 || code == 0x21) && decide (inst < 512) && g == 3

/-- The domain a structure lies in, 0xC for AON; fabric port buffers are counted by port. -/
def domOfStruct (g code inst : Nat) : Nat :=
  if code ≤ 5 then g - 4
  else if code = 0x10 then 6
  else if code = 0x11 then 12
  else if code = 0x12 then (if inst < 8 then 7 else 8)
  else if code = 0x13 then 9
  else if code = 0x14 then 10
  else if code = 0x15 ∨ code = 0x16 then 11
  else 4 + inst / 256

/-- The reason of a finding that no unit absorbs; none for one that takes a unit out of service. -/
def fatalReason (code : Nat) : Option Nat := if code = 5 then some 0xB else if 0x10 ≤ code ∧ code ≤ 0x16 then some 9 else none

/-- The units that an unrepairable structure takes out of service: a failed command group both pseudo-channels of its
channel. -/
def findingUnits (code inst bank : Nat) : List Nat :=
  if code = 2 then [672 + inst]
  else if code = 1 ∨ code = 3 ∨ code = 4 then [inst]
  else if code = 0x20 ∧ bank = 1 then [1344 + inst / 2 * 2, 1344 + inst / 2 * 2 + 1]
  else if code = 0x20 ∨ code = 0x21 then [1344 + inst]
  else []

/-! ### Spares (R314–R316) -/

def RepairEntry.is (r : RepairEntry) (code inst bank : Nat) : Bool := r.code == code && r.inst == inst && r.bank == bank

/-- Repairs loaded or made on a bank that use a row, or a column. -/
def State.usedSpares (s : State) (row : Bool) (code inst bank : Nat) : Nat :=
  ((Config.fuseRepairs.filter (fun f => f.1 == code && f.2.1 == inst && f.2.2.1 == bank && f.2.2.2 == row)).length) +
  ((s.mram.repairs ++ s.bist.repairs).filter (fun r => r.is code inst bank && (if row then r.row else r.column))).length

/-- Spare rows of a bank: four in a scratchpad's, two lanes of a data group and one of a command group. -/
def rowSpares (code bank : Nat) : Nat :=
  if code = 1 then 4 else if code = 0x20 then (if bank = 1 then 1 else 2) else Config.spareRows code

def colSpares (code : Nat) : Nat := if code = 1 then 2 else 0

def State.freeRow (s : State) (code inst bank : Nat) : Bool := decide (s.usedSpares true code inst bank < rowSpares code bank)

def State.freeCol (s : State) (code inst bank : Nat) : Bool := decide (s.usedSpares false code inst bank < colSpares code)

/-! ### The log (Table BIST-7) -/

def State.logBist (s : State) (g code action bit unit addr : Nat) : State :=
  let e : BistLog := { group := g + 1, code := code, action := action, bit := bit, unit := unit, addr := addr }
  (s.setBist { s.bist with log := (s.bist.log ++ [e]).take 256 }).count bistLogCountCount 1

/-- The unit word that the log names for a structure. -/
def structUnit (code inst bank : Nat) : Nat := ((findingUnits code inst bank).head?.map unitWord).getD 0

/-- A repair is made, logged, and kept for the repair list. -/
def State.repair (s : State) (g action : Nat) (r : RepairEntry) (w : FailWord) : State :=
  let s1 := s.setBist { s.bist with repairs := s.bist.repairs ++ [r] }
  (s1.logBist g r.code action w.bit (structUnit r.code r.inst r.bank) w.addr).count bistRepairsNew 1

/-- A structure cannot be repaired (R317). -/
def State.unrepairable (s : State) (g code inst : Nat) (w : FailWord) : State :=
  let us := findingUnits code inst w.bank
  let s1 := (s.logBist g code (if us = [] then 3 else 2) w.bit (structUnit code inst w.bank) w.addr).event bistEventUnrep
  let s2 := s1.wrBit bistGroupsUnrep g true
  s2.setBist { s2.bist with
    units := s2.bist.units ++ us
    fatal := s2.bist.fatal ++ ((fatalReason code).map (fun r => (r, domOfStruct g code inst))).toList }

/-! ### Rows of HBM (R314) -/

/-- Post-package repairs that a bank of a pseudo-channel has taken. -/
def State.pprUsed (s : State) (c bank : Nat) : Nat :=
  (s.mram.rows.filter (fun r => r.applied && r.chan == c && r.bank == bank)).length +
  ((s.mram.repairs ++ s.bist.repairs).filter (fun r => r.is 0x21 c bank)).length

def State.pprFree (s : State) (c bank : Nat) : Bool := decide (s.pprUsed c bank < Config.pprRows c bank)

/-- An entry of the row retirement list that is not marked APPLIED: repaired inside its stack, else by a controller spare
row, else its pseudo-channel is a finding. -/
def State.applyRow (s : State) (r : RowEntry) : State :=
  let h := r.chan / 64
  let same := fun (x : RowEntry) => x.chan == r.chan && x.bank == r.bank && x.row == r.row
  let w : FailWord := { addr := 0, bank := r.bank, row := r.row, bit := 0 }
  if s.pprFree r.chan r.bank then
    { s with
      mram := { s.mram with rows := s.mram.rows.map (fun x => if same x then { x with applied := true } else x) }
      mem := { s.mem with remaps := s.mem.remaps.filter (fun x => !same x) } }.showRemaps h
  else if s.mem.remaps.any same then s
  else if s.remapsOf h < 64 then { s with mem := { s.mem with remaps := s.mem.remaps ++ [r] } }.showRemaps h
  else s.unrepairable 3 0x21 r.chan w

/-- G4 applies the list of the stacks that are on. -/
def State.applyRows (s : State) : State :=
  (s.mram.rows.filter (fun r => !r.applied && s.domOn (hbmDom (r.chan / 64)))).foldl (fun t r => t.applyRow r) s

/-- A row that fails the array test of deep mode. -/
def State.repairRow (s : State) (c : Nat) (w : FailWord) : State :=
  let r : RepairEntry := { code := 0x21, row := true, column := false, inst := c, bank := w.bank, index := w.row }
  let e : RowEntry := { chan := c, bank := w.bank, row := w.row, cause := true, applied := false }
  if s.pprFree c w.bank then s.repair 3 4 r w
  else if s.remapsOf (c / 64) < 64 then
    ({ s with mem := { s.mem with remaps := s.mem.remaps ++ [e] }, mram := { s.mram with rows := s.mram.rows ++ [e] } }.showRemaps
      (c / 64)).repair 3 5 r w
  else s.unrepairable 3 0x21 c w

/-! ### A finding (R315–R317) -/

/-- Failing rows of a bit position in a bank. -/
def failRows (words : List FailWord) (bank bit : Nat) : Nat :=
  ((words.filter (fun w => w.bank == bank && w.bit == bit)).map (fun w => w.row)).dedup.length

/-- A repair made in this run has mended the word already. -/
def State.mended (s : State) (code inst : Nat) (w : FailWord) : Bool :=
  s.bist.repairs.any (fun r => r.is code inst w.bank && ((r.row && r.index == w.row) || (r.column && r.index == w.bit)))

/-- R316 on the failing words that remain; the word that no spare can mend. -/
def State.mendWords (s : State) (g code inst : Nat) (all : List FailWord) : List FailWord → State × Option FailWord
  | [] => (s, none)
  | w :: ws =>
    let row : RepairEntry := { code := code, row := true, column := false, inst := inst, bank := w.bank, index := w.row }
    let col : RepairEntry := { code := code, row := false, column := true, inst := inst, bank := w.bank, index := w.bit }
    if s.mended code inst w then s.mendWords g code inst all ws
    else if 3 ≤ failRows all w.bank w.bit ∧ s.freeCol code inst w.bank then (s.repair g 1 col w).mendWords g code inst all ws
    else if s.freeRow code inst w.bank then
      (s.repair g (if code = 0x20 then 6 else 0) row w).mendWords g code inst all ws
    else if s.freeCol code inst w.bank then (s.repair g 1 col w).mendWords g code inst all ws
    else (s, some w)

/-- Words in ascending address. -/
def sortWords (ws : List FailWord) : List FailWord := ws.mergeSort (fun a b => decide (a.addr ≤ b.addr))

def noWord : FailWord := { addr := 0, bank := 0, row := 0, bit := 0 }

/-- What a group found faulty. A failed known-answer signature and a failed retest cannot be mended. -/
def State.takeFinding (s : State) (g : Nat) (f : BistFinding) : State :=
  let ws := sortWords f.words
  let s1 := s.wrBit bistGroupsFound g true
  if f.logic ∨ ws = [] then s1.unrepairable g f.code f.inst (ws.headD noWord)
  else if f.code = 0x21 then
    (if f.retestOk then ws.foldl (fun t w => t.repairRow f.inst w) s1 else s1.unrepairable g f.code f.inst (ws.headD noWord))
  else
    match s1.mendWords g f.code f.inst ws ws with
    | (s2, some w) => s2.unrepairable g f.code f.inst w
    | (s2, none) => if f.retestOk then s2 else s2.unrepairable g f.code f.inst (ws.headD noWord)

/-- BIST_GROUP_END (R310): group `g` + 1 ends with its findings, and the next groups start. G4 has applied the row
retirement list first; the CLA's full load starts when G3 ends (R375). -/
def execBistGroupEnd (g : Fin 8) (findings : List BistFinding) (watts : Nat) (s : State) : Host.Outcome State Fault Refusal :=
  let ok := fun (t : State) (f : BistFinding) => groupTests g f.code f.inst &&
    (domOfStruct g f.code f.inst == 12 || t.domOn (domOfStruct g f.code f.inst))
  .next (
    if !s.waitsFor .selfTest || !s.bit bistStatusRun g then s
    else
      let s1 := (if g.val = 3 then s.applyRows else s).wr bistPwrMaxWatts (Nat.max watts (s.rd bistPwrMaxWatts))
      let s2 := (findings.filter (ok s1)).foldl (fun t f => t.takeFinding g f) s1
      let s3 := (s2.wrBit bistStatusRun g false).wrBit bistStatusDone g true
      let s4 := if g.val = 2 ∧ s3.domOn 11 then s3.startLoad else s3
      s4.startGroups 9).wrapUp

/-! ### The repair phase (R316, R318–R321) -/

/-- Repairs are appended to the list, at most 4,096 entries in all. -/
def State.appendRepairs (s : State) : State :=
  let room := 4096 - s.mram.repairs.length
  let s1 := { s with mram := { s.mram with repairs := s.mram.repairs ++ s.bist.repairs.take room } }
  let s2 := s1.wr bistListUsedCount s1.mram.repairs.length
  if room < s.bist.repairs.length then s2.wr bistStatusListFull 1 else s2

/-- Dies that hold a logical number which was backed when W10 began and is not now. -/
def State.exceeded (s : State) : List Nat :=
  (List.range 4).filter (fun d => (List.range 160).any (fun lc =>
    !s.bist.unbacked.testBit (d * 160 + lc) && (s.qtn.map.backing d lc).isNone))

/-- R319: reason and domain of the safe-state outcome that applies, in Table BIST-4's order. -/
def State.bistOutcome (s : State) : Option (Nat × Nat) :=
  let exceeded := s.exceeded
  match s.bist.fatal.find? (fun f => f.1 == 9) with
  | some f => some f
  | none =>
    match exceeded with
    | d :: _ =>
      let dies := s.bist.units.filterMap unitDie
      some (0xA, (dies.find? (fun x => exceeded.contains x)).getD d)
    | [] => s.bist.fatal.head?

/-- Self-test ends with a reason that stops the wake: only a device reset after 0xA leads out, others hold until the next
AON power-up. -/
def State.failBist (s : State) (dom reason : Nat) : State :=
  let s1 := (s.wr bistStatusResult reason).recordFail 10 dom reason 1
  ((s1.setPwr { s1.pwr with bistHold := if reason = 0xA then 0 else reason }).safeState 10).updateFault

/-- The findings are applied as one change set, every memory tested holds unspecified data, and the layout is fixed. -/
def State.applyFindings (s : State) : State :=
  let m := s.qtn.map
  let m' := m.restrictAll 2 0 s.nextEpoch s.bist.units
  let s1 := s.rewrite (List.range 1184)
  let s2 := if s.bist.units = [] then s1 else s1.applySet m' false (s1.mapChange m m' 0) [] []
  ({ s2 with qtn := { s2.qtn with map := s2.qtn.map.settled, path := s2.qtn.path.settled } }).fixLayouts

/-- BIST_REPAIR_PHASE_END (R318): `ms` is the length of W10. -/
def execBistRepairPhaseEnd (ms : Nat) (s : State) : Host.Outcome State Fault Refusal :=
  .next (
    if !s.waitsFor .selfTest || s.rd bistStatusRun != 0 || !(s.nextGroup.isNone || s.bistHalted) || s.rmgDown then s
    else
      let result := if s.bist.units ≠ [] then 2 else if s.bist.repairs ≠ [] then 1 else 0
      let s1 := s.appendRepairs.applyFindings
      let s2 := (((s1.wr bistTimeMs (Nat.min 65535 ms)).wr bistStatusState 2).wr bistStatusResult result).wr sysStatusBistDone 1
      let s3 := (s2.dropWait .selfTest).showDomains
      match s3.bistOutcome with
      | some (reason, dom) => s3.failBist dom reason
      | none => if s3.pwr.stopWake then s3 else s3.finishWake false).wrapUp

/-! ### Interruptions (R322) -/

/-- Self-test stops at once with nothing applied. -/
def State.abortBist (s : State) : State :=
  if !s.waitsFor .selfTest then s
  else
    let s1 := (((s.wr bistStatusRun 0).wr bistStatusState 3).event bistEventAborted).dropWait .selfTest
    s1.setPwr { s1.pwr with bistHold := 0xC }

end Sys2Proof.Machine
end

