-- ==== Sys2Proof/Machine/Panel.lean ====
section
/-!
DEFINITION. The event recorder's commands and the status panel (R342–R357, 16_event_recorder_and_status_panel.md).
-/
namespace Sys2Proof.Machine

open Reg

/-! ### Recorder -/

/-- EVR_FLUSH (R342, R349): ignored once PWR_FAIL_N has asserted. -/
def execEvrFlush (path : Path) (s : State) : Host.Outcome State Fault Refusal :=
  .next (if !s.mgmtOrDebug path || !s.pwr.aon || s.pwr.failSeen then s else s.closing 4 0 0 0)

/-- EVR_RECORD_WRITTEN (R345). -/
def execEvrRecordWritten (s : State) : Host.Outcome State Fault Refusal := .next s.recordWritten

/-! ### The script (R351) -/

def hexDigit (n : Nat) : Char := "0123456789ABCDEF".toList.getD n '0'

/-- `n` hex digits of a value, most significant first. -/
def hexText : Nat → Nat → List Char
  | 0, _ => []
  | n + 1, v => hexDigit (v / 16 ^ n % 16) :: hexText n v

def hexStr (n v : Nat) : String := String.ofList (hexText n v)

/-- Decimal digits, least significant first. -/
def decText : Nat → Nat → List Char
  | 0, _ => []
  | n + 1, v => hexDigit (v % 10) :: (if v < 10 then [] else decText n (v / 10))

def decStr (v : Nat) : String := String.ofList (decText 8 v).reverse

/-- The checks of PANEL_COMMIT. -/
def scriptOk (b : List Byte) : Bool :=
  let len := field b 18 2
  field b 0 2 == 0x5350 && decide (40 ≤ len) && decide (len ≤ 2048) && decide (len ≤ b.length) && decide (160 ≤ field b 4 2) &&
  decide (64 ≤ field b 6 2) && (List.range 5).all (fun i => decide (32 ≤ field b (8 + 2 * i) 2) &&
    decide (field b (8 + 2 * i) 2 < len - 8)) &&
  (crc64 (b.take (len - 8))).toNat == field b (len - 8) 8

/-- Bytes of the candidate with `bs` at `offset`. -/
def patch (b : List Byte) (offset : Nat) (bs : List Byte) : List Byte :=
  (b ++ List.replicate (offset - b.length) 0).take offset ++ bs ++ b.drop (offset + bs.length)

/-- PANEL_DATA (0x0A30): 1 to 1,008 bytes at a 16-bit offset. -/
def execPanelData (via : CmdVia) (offset : Nat) (bytes : List Byte) (s : State) : Host.Outcome State Fault Refusal :=
  .next (s.command via 0x0A30 (leBytes 2 offset ++ bytes) (fun t =>
    if bytes = [] ∨ 1008 < bytes.length then (8, t)
    else (0, { t with evr := { t.evr with candidate := patch t.evr.candidate (offset % 65536) bytes } })))

/-- PANEL_COMMIT (0x0A31): a script that passes its checks is written to MRAM; after PWR_FAIL_N nothing is (R306). -/
def execPanelCommit (via : CmdVia) (s : State) : Host.Outcome State Fault Refusal :=
  .next (s.command via 0x0A31 [] (fun t =>
    if !scriptOk t.evr.candidate then (8, t)
    else if !t.mramOk then (3, t)
    else
      let script := t.evr.candidate.take (field t.evr.candidate 18 2)
      (0, { t with mram := { t.mram with script := script } }.wr pnlStatusNoScript 0)))

/-! ### What the panel shows (R352) -/

/-- The failure code of the safe state. -/
def State.failCode (s : State) : Nat :=
  if s.on pwrWakeResultValid then (s.reg pwrWakeResult).toNat % 65536 else 0xF000 + s.rd rstLastCause

def State.healthWord (s : State) : String :=
  if s.rd thmStatusState = 2 ∨ s.on thmStatusTripped then "HOT"
  else if s.pwr.safe then "SAFE"
  else if s.on sysStatusFault then "FAULT"
  else if s.rd sysStatusPartsReduced ≠ 0 ∨ s.rd pwrDomStatusFailed ≠ 0 then "REDUCED"
  else "OK"

/-- Units in SUSPECT or QUARANTINED. -/
def State.unfitUnits (s : State) : Nat :=
  ((List.range 1984).filter (fun k => (s.qtn.map.entry k).state == 1 || (s.qtn.map.entry k).state == 2)).length

/-- Texts of CODE, GLYPH, QCOUNT, WSF, SEQ, FAIL and MARK, with the sequence number `seq`. -/
def State.areas (s : State) (seq : Nat) (mark : String) : List String :=
  [ "KD1 " ++ hexStr 6 (Config.serial.toNat % 2 ^ 24), s.healthWord, "Q " ++ decStr s.unfitUnits,
    if s.qtn.last = [] then "" else "W " ++ hexStr 2 (field s.qtn.last 3 1) ++ "-" ++ hexStr 3 (field s.qtn.last 28 4 % 4096),
    "U " ++ hexStr 4 (seq % 65536), if s.pwr.safe then "E " ++ hexStr 4 s.failCode else "", mark ]

/-- First column, columns and line of each area (Table EVR-7). -/
def areaBox (a : Nat) : Nat × Nat × Nat := [(0, 10, 0), (10, 10, 0), (0, 10, 1), (10, 10, 1), (0, 10, 2), (10, 10, 2), (0, 20, 3)].getD a (0, 0, 0)

/-- The corners of an area in pixels, the last ones inclusive. -/
def areaCorners (a : Nat) : List Nat :=
  let (col, n, line) := areaBox a
  [col * 8, line * 16, (col + n) * 8 - 1, line * 16 + 15]

/-! ### Running the script (Table EVR-6) -/

def State.setEvr (s : State) (e : EvrSt) : State := { s with evr := e }

/-- The text that stands in an area while it is drawn. -/
def State.drawnText (s : State) (a : Nat) : String := s.evr.drawing.getD a ""

/-- One op at offset `pc`: what it sends, what it waits for, and where the next op stands; none at RET, and an invalid op as
`none` in the first part. -/
inductive PanelOp where
  | send (dc : Bool) (bytes : List Byte) (next : Nat)
  | wait (w : PanelWait) (reset : Bool) (next : Nat)
  | pixels (next : Nat)
  | ret
  | bad
  deriving DecidableEq, Repr

/-- The op at an offset of the script, for area `a`. -/
def State.panelOp (s : State) (pc a : Nat) : PanelOp :=
  let b := s.mram.script
  let n := field b (pc + 1) 1
  match field b pc 1 with
  | 0 => .ret
  | 1 => .send false ((b.drop (pc + 2)).take n) (pc + 2 + n)
  | 2 => .send true ((b.drop (pc + 2)).take n) (pc + 2 + n)
  | 3 => .wait (.busy (field b (pc + 1) 2)) false (pc + 3)
  | 4 => .wait (.delay (field b (pc + 1) 2)) false (pc + 3)
  | 5 => .wait (.delay (field b (pc + 1) 2)) true (pc + 3)
  | 6 =>
    let word := fun (v : Nat) => if field b 3 1 % 2 = 1 then (leBytes 2 v).reverse else leBytes 2 v
    .send true ((areaCorners a).flatMap word) (pc + 1)
  | 7 => .pixels (pc + 1)
  | _ => .bad

/-- The update ends: one that failed leaves its copy open, and three in a row stop updates (R356). -/
def State.failUpdate (s : State) (f : Fld) : State :=
  let n := s.evr.fails + 1
  let s1 := s.setEvr { s.evr with todo := [], pc := none, wait := none, lastEnd := some s.tick, fails := n }
  let s2 := ((s1.event f).wr pnlCfgFull 1).wr pnlStatusStep 0
  if 3 ≤ n then s2.wr pnlStatusFailed 1 else s2

/-- A debugger breaks the lock of a panel op: the update fails (Table TRC-5). It shows as ABORTED (DEDUCED, log entry 137). -/
def State.breakPanel (s : State) : State := s.failUpdate pnlEventAborted

/-- The panel-state copy of the update in progress is rewritten. -/
def State.writePanelCopy (s : State) (seq : Nat) (fresh open' : Bool) : State :=
  let c : PanelCopy := { seq := seq, open' := open', text := s.evr.drawing.set 6 "", crcOk := true }
  let m := s.mram
  let m1 := if m.newest1 != fresh then { m with panel1 := c } else { m with panel0 := c }
  { s with mram := m1 }.wr pnlStatusOpen open'.toNat

/-- The runs of a step: pairs of entry and area (Table EVR-6's order of entries). -/
def State.stepRuns (s : State) (step : Nat) : List (Nat × Nat) :=
  if step = 2 then [(0, 0), (1, 6), (2, 0)]
  else if step = 3 then
    (if s.on pnlCfgFull then (List.range 7).map (fun a => (1, a)) ++ [(3, 0)]
    else ((List.range 6).filter (fun a => s.drawnText a != s.evr.shown.getD a "")).map (fun a => (1, a)) ++ [(2, 0)])
  else if step = 4 then [(1, 6), (2, 0)]
  else [(4, 0)]

/-- The update's next step begins, or the update ends. Step 5 waits until firmware writes MRAM (R272). -/
def State.panelStep (s : State) (step : Nat) : State :=
  if step = 5 ∧ !s.mramOk then s.setEvr { s.evr with wait := some .mram }
  else if step = 6 then
    let s1 := (s.emit (.panelPower false)).setEvr { s.evr with lastEnd := some s.tick, fails := 0, shown := s.evr.drawing, pc := none }
    ((s1.event pnlEventDone).wr pnlStatusStep 0)
  else
    let d := s.evr.drawing.set 6 (if step ≤ 3 then "UPDATING" else "")
    let s1 := (s.setEvr { s.evr with drawing := d }).wr pnlStatusStep step
    let s2 := if step = 2 then s1.emit (.panelPower true) else s1
    let s3 := if step = 5 then (s2.writePanelCopy (s2.rd pnlSeqSeq) false false) else s2
    let s4 := s3.setEvr { s3.evr with todo := s3.stepRuns step }
    if step = 3 then s4.wr pnlCfgFull 0 else s4

/-- Ops run until one waits, the update fails, or it ends. -/
def State.runPanel : Nat → State → State
  | 0, s => s
  | n + 1, s =>
    let step := s.rd pnlStatusStep
    if step = 0 ∨ s.evr.wait.isSome then s
    else match s.evr.todo, s.evr.pc with
      | [], _ => runPanel n (s.panelStep (step + 1))
      | (e, _) :: _, none => runPanel n (s.setEvr { s.evr with pc := some (field s.mram.script (8 + 2 * e) 2) })
      | (_, a) :: rest, some pc =>
        match s.panelOp pc a with
        | .send dc bs next => runPanel n ((s.setEvr { s.evr with pc := some next }).emit (.panel dc bs))
        | .pixels next => runPanel n ((s.setEvr { s.evr with pc := some next }).emit (.panelPixels a (s.drawnText a)))
        | .wait w reset next =>
          let s1 := s.setEvr { s.evr with pc := some next, wait := some w }
          if reset then s1.emit .panelReset else s1
        | .ret => runPanel n (s.setEvr { s.evr with todo := rest, pc := none })
        | .bad => s.failUpdate pnlEventBadOp

/-- Enough for every op of the runs of a whole update: a script holds fewer than 2,048 ops. -/
def panelFuel : Nat := 65536

/-! ### Updates (R353–R356) -/

/-- Some area would change, or a full redraw is due. -/
def State.panelDue (s : State) : Bool :=
  s.on pnlCfgFull || (List.range 6).any (fun a => a != 4 && (s.areas 0 "").getD a "" != s.evr.shown.getD a "")

/-- An update may start, but for MIN_GAP. -/
def State.panelFree (s : State) : Bool :=
  s.pwr.aon && s.on pnlCfgEn && !s.on pnlStatusNoScript && s.rd pnlStatusStep == 0 && !s.on pnlStatusFailed && s.mramOk

/-- Steps 1 and 2 begin. -/
def State.startUpdate (s : State) : State :=
  let seq := (s.rd pnlSeqSeq + 1) % 2 ^ 32
  let s1 := s.setEvr { s.evr with drawing := s.areas seq "UPDATING", todo := [], pc := none, wait := none }
  let s2 := (s1.writePanelCopy seq true true).wr pnlSeqSeq seq
  State.runPanel panelFuel ((s2.wr pnlStatusStep 1).panelStep 2)

/-- PANEL_UPDATE_START (R353). -/
def execPanelUpdateStart (s : State) : Host.Outcome State Fault Refusal :=
  let gap := match s.evr.lastEnd with
    | some t => decide (t + 100 * s.rd pnlCfgMinGap ≤ s.tick)
    | none => true
  .next (if s.panelFree && s.panelDue && gap then s.startUpdate else s)

/-- PANEL_UPDATE_NOW (PNL_CTL.UPDATE): MIN_GAP does not count, and nothing need have changed. -/
def execPanelUpdateNow (path : Path) (s : State) : Host.Outcome State Fault Refusal :=
  .next (if s.mgmtOrDebug path && s.panelFree then s.startUpdate else s)

/-- PANEL_CLEAR_FAILED (R356). -/
def execPanelClearFailed (path : Path) (s : State) : Host.Outcome State Fault Refusal :=
  .next (if s.mgmtOrDebug path && s.pwr.aon then (s.setEvr { s.evr with fails := 0 }).wr pnlStatusFailed 0 else s)

/-- A wait of the script ends. -/
def State.panelGo (s : State) : State := State.runPanel panelFuel (s.setEvr { s.evr with wait := none })

/-- Firmware writes MRAM again: an update that waits for that goes on. -/
def State.panelMram (s : State) : State := if s.evr.wait = some .mram ∧ s.mramOk then s.panelGo else s

/-- PANEL_BUSY_RELEASE: PNL_BUSY is low. -/
def execPanelBusyRelease (s : State) : Host.Outcome State Fault Refusal :=
  .next (match s.evr.wait with
    | some (.busy _) => s.panelGo
    | _ => s)

/-- PANEL_DELAY_EXPIRY: a DELAY, or the time of a RESET, ends. -/
def execPanelDelayExpiry (s : State) : Host.Outcome State Fault Refusal :=
  .next (match s.evr.wait with
    | some (.delay _) => s.panelGo
    | _ => s)

/-- PANEL_BUSY_TIMEOUT (R356). -/
def execPanelBusyTimeout (s : State) : Host.Outcome State Fault Refusal :=
  .next (match s.evr.wait with
    | some (.busy _) => s.failUpdate pnlEventTimeout
    | _ => s)

/-- PWR_FAIL_N stops an update; its copy stays open (R355). -/
def State.abortPanel (s : State) : State :=
  if s.rd pnlStatusStep = 0 then s
  else ((s.setEvr { s.evr with todo := [], pc := none, wait := none, lastEnd := some s.tick }).event pnlEventAborted).wr pnlStatusStep 0

end Sys2Proof.Machine
end

