-- ==== Sys2Proof/Machine/Power.lean ====
section
/-!
DEFINITION. Switching domains at run time (R298, R299), regulators (R301), the power-fail warning (R306) and the staged
partition mode (R18, R23).
-/
namespace Sys2Proof.Machine

open Reg

/-! ### PWR_DOM_CTL (R298, R299) -/

/-- A queue of the partition runs a list or holds a descriptor. -/
def State.partBusy (s : State) (p : Nat) : Bool :=
  (s.queuesOf p).any (fun q => s.runningOf q != 0 || s.pendingCount q != 0) || s.churnFenced p

/-- Table PWR-6's condition for switching domain `d` off. -/
def State.mayGoOff (s : State) (d : Nat) : Bool :=
  if d < 4 then !s.partBusy (s.partOfDie d)
  else if d < 6 then (s.parts.filter (fun p => (s.stacksOf p).any (fun h => hbmDom h == d))).all (fun p => !s.partBusy p)
  else if d = 6 then false
  else if d = 10 then s.media.length == 0
  else if d = 11 then s.claIdle
  else true

/-- Bits of a mask of domains, ascending. -/
def domsOf (m : Nat) : List Nat := (List.range 12).filter (fun d => m.testBit d)

/-- Why the whole write is ignored. -/
def State.switchRefused (s : State) (on off : Nat) : Bool :=
  !s.pwr.aon || s.pwr.safe || s.pwr.wake.isSome || s.rd thmStatusState != 0 || s.on thmStatusTripped ||
  s.hang.resets.any (fun r => r.dom == .device) || s.hang.waiting || !s.on pwrWakeStatusDone ||
  (domsOf on).any (fun d => off.testBit d) || (domsOf off).any (fun d => s.domOn d && !s.mayGoOff d)

/-- A write of PWR_DOM_CTL. A domain that is already in the requested state is left as it is. -/
def State.writeDomCtl (s : State) (path : Path) (v : Nat) : State :=
  let on := bitsOf v 0 12
  let off := bitsOf v 16 12
  if !s.mgmtOrDebug path then s
  else if s.switchRefused on off then s.event pwrEventSwitchRefused
  else
    let s1 := ((domsOf off).reverse.filter s.domOn).foldl (fun t d => t.domainDown d) s
    let want := ((domsOf on).filter (fun d => !s1.domOn d)).foldl (fun a d => a + 2 ^ d) 0
    (if want = 0 then s1 else s1.beginWake (.switchOn want)).showDomains

/-- DOMAIN_ON and DOMAIN_OFF: writes of PWR_DOM_CTL. -/
def execDomainOn (path : Path) (v : Word32) (s : State) : Host.Outcome State Fault Refusal := .next (s.writeDomCtl path v.toNat).wrapUp

def execDomainOff (path : Path) (v : Word32) (s : State) : Host.Outcome State Fault Refusal := .next (s.writeDomCtl path v.toNat).wrapUp

/-! ### PWR_FAIL_N (R306) -/

/-- POWER_FAIL_WARNING: MRAM writes in progress finish, the SESSION_END record is the only one that follows, a panel update
stops, self-test stops, a CLA stream is aborted (Table CLA-8), and a wake raises no further enable. -/
def execPowerFailWarning (s : State) : Host.Outcome State Fault Refusal :=
  .next (
    if !s.pwr.aon || s.pwr.failSeen then s
    else
      let s1 := s.event pwrEventPwrFail
      let s2 := (s1.setPwr { s1.pwr with failSeen := true, stopWake := s1.pwr.wake.isSome }).endSession
      s2.abortPanel.abortBist.abortStream).wrapUp

/-! ### PMBus (R301) -/

/-- What a round makes of one regulator: its telemetry, or an error that is reported. -/
def State.takeReading (s : State) (r : PmbReading) : State :=
  let e := r.entry.val
  if !s.on (pwrPmbMapValid e) then s
  else
    let s1 := if r.acked then (s.wr (pwrPmbTlmVout e) (Nat.min 65535 r.voutMv)).wr (pwrPmbTlmIout e) (Nat.min 65535 r.ioutDa) else s
    let s2 := if r.acked ∧ s.rd (pwrPmbMapRail e) < 4 then s1.recordCore r.voutMv else s1
    if r.acked ∧ !r.fault then s2 else (s2.event pwrEventPmbErr).report 5

/-- PMBUS_POLL: a round of every valid entry, in ascending order, every POLL beat ticks. -/
def execPmbusPoll (readings : List PmbReading) (s : State) : Host.Outcome State Fault Refusal :=
  .next (
    if !s.pwr.aon || decide (s.tick < s.pwr.pmbTick + Nat.max 1 (s.rd pwrPmbCfgPoll)) then s
    else
      let s1 := s.setPwr { s.pwr with pmbTick := s.tick }
      (List.range 16).foldl (fun t e => match readings.find? (fun r => r.entry.val == e) with
        | some r => t.takeReading r
        | none => t) s1)

/-! ### The staged mode (R18, R23) -/

/-- PART_CFG_WRITE: NEXT = 11 makes the whole write ignored. -/
def execPartCfgWrite (path : Path) (v : Word32) (s : State) : Host.Outcome State Fault Refusal :=
  let ok := s.mgmtOrDebug path || (match path with | .pf f => f.val == 0 | _ => false)
  .next (
    if !ok || bitsOf v.toNat 4 2 == 3 then s
    else (s.wr sysPartCfgNext (bitsOf v.toNat 4 2)).wr sysPartCfgNextValid (bitsOf v.toNat 8 1))

end Sys2Proof.Machine
end

