-- ==== Sys2Proof/Machine/Hang.lean ====
section
/-!
DEFINITION. The hang monitor (R263–R268, R286, 12_hangs_fencing_and_recovery.md), RMG replication and takeover (R269–R272), and what
a loss of power-good does while a domain is on (R300).
-/
namespace Sys2Proof.Machine

open Reg

/-! ### Control cores (R263, R264, R267) -/

/-- HNG_HB_DEADLINE; 0 counts as 1. -/
def State.hbDeadline (s : State) : Nat := Nat.max 1 (s.rd hngHbDeadlineBeats)

/-- DBG_HALT: a debug halt that DBG_EXEMPT covers has frozen some core's count. -/
def State.showHalts (s : State) : State := s.wr hngStatusDbgHalt ((List.range 4).any (fun i => (s.core i).frozen.isSome)).toNat

/-- R264 for a halted core: while DBG_EXEMPT is 1 its count stands still, and while it is 0 it goes on from there. -/
def CoreSt.exempt (c : CoreSt) (tick : Nat) (on : Bool) : CoreSt :=
  if c.state ≠ .halted then c
  else match c.frozen with
    | some k => if on then c else { c with since := tick - k, frozen := none }
    | none => if on then { c with frozen := some (tick - c.since) } else c

/-- DBG_EXEMPT has changed. -/
def State.exemptHalts (s : State) : State :=
  ((List.range 4).foldl (fun t n => t.setCore n ((t.core n).exempt t.tick (t.on hngCfgDbgExempt))) s).showHalts

/-- A core reloads its firmware; it is back with its first heartbeat. It is no longer halted. -/
def State.restartCore (s : State) (n : Nat) : State :=
  (((s.setCore n { state := .restarting, since := s.tick, frozen := none, restarted := some s.tick, missed := false }).wrBit
    hngStatusAlive n false).wrBit dbgCoreHalted n false).showHalts

/-- HEARTBEAT_WRITE (R263): only core n writes HNG_HB_CCn, and the register counts its writes. -/
def execHeartbeatWrite (core : Core4) (_v : Word32) (s : State) : Host.Outcome State Fault Refusal :=
  let c := s.core core
  .next (
    if c.state ≠ .running ∧ c.state ≠ .restarting then s
    else
      let s1 := s.setCore core { c with state := .running, since := s.tick, missed := false }
      (s1.wr (hngHbCount core) ((s1.rd (hngHbCount core) + 1) % 2 ^ 32)).wrBit hngStatusAlive core true)

/-! ### Autonomous recovery (R286) -/

/-- The third autonomous recovery is not attempted: the device stays in its safe state. With AUTO = 0 it fences every
partition and waits; a reset that is absorbed still counts. -/
def State.recoverAlone (s : State) : State :=
  if s.pwr.safe || s.hang.waiting then s
  else if !s.on hngCfgAuto then
    let s2 := { s with hang := { s.hang with waiting := true } }
    (s2.parts.foldl (fun t p => t.requestReset (.part (partFin p)) 3) s2).updateFault
  else
    let s1 := (s.event hngEventAutoRecovery).updateFault
    if 2 ≤ s.rd hngStatusAutoCount then (s1.safeState 12).updateFault
    else (s1.wr hngStatusAutoCount (s.rd hngStatusAutoCount + 1)).requestReset .device 3

/-! ### Takeover (R269–R272) -/

/-- The management view falls back to the closed image: change sets whose image is not closed are gone with the core that
held them. -/
def State.revertMap (s : State) : State :=
  match s.mram.imageInForce with
  | some i =>
    { s with qtn := { s.qtn with map := i.entries, sets := [] } }.wr qtnEpochEpoch i.epoch
  | none => { s with qtn := { s.qtn with sets := [] } }

/-- Firmware completes what the flags of the queued events above `included` show as undone; records, churn passes and rows that have
waited for MRAM follow. -/
def State.completeEvents (s : State) (included : Nat) : State :=
  let due := s.hang.evq.filter (fun e => !e.recorded && decide (included < e.seq))
  ((s.reconcile (due.flatMap (fun e => e.units)) (due.flatMap (fun e => e.records)) (due.map (fun e => e.seq))).openImage).startWrite.flushRecords.flushTrip.listRows.panelMram

/-- The active core is silent and held in reset: the standby takes over. -/
def State.beginTakeover (s : State) (n : Nat) : State :=
  let s1 := s.setCore n { s.core n with state := .held }
  ({ s1 with hang := { s1.hang with takeover := some s.tick } }.wr hngStatusTakeover 1).wr hngStatusActiveRmg (1 - n)

/-- The buffers from which a standby may start: closed, and written at least once. -/
def State.snapshots (s : State) : List Snapshot := [s.hang.snap0, s.hang.snap1].filter (fun x => !x.open' && x.gen != 0)

/-- The closed buffer of the higher generation. -/
def State.bestSnapshot (s : State) : Option Snapshot :=
  s.snapshots.foldl (fun best x => match best with
    | some b => some (if b.gen < x.gen then x else b)
    | none => some x) none

/-- The standby's working state: that of the snapshot, but for the change sets whose images have closed since, which MRAM shows. -/
def State.loadSnapshot (s : State) (x : Snapshot) : State :=
  let img := match s.mram.imageInForce with
    | some i => (i.entries, i.epoch)
    | none => (x.map, x.epoch)
  let sets := x.sets.filter (fun c => decide (img.2 < c.epoch))
  let now := match sets.getLast? with
    | some c => (c.entries, c.epoch)
    | none => img
  { s with qtn := { s.qtn with map := now.1, sets := sets } }.wr qtnEpochEpoch now.2

/-- TAKEOVER_COMPLETE (R271): the standby has loaded the best closed buffer and completed the events above its INCLUDED_SEQ, the
silent core restarts as the new standby, and snapshots to its buffers resume. -/
def execTakeoverComplete (s : State) : Host.Outcome State Fault Refusal :=
  .next (
    match s.hang.takeover, s.bestSnapshot with
    | some _, some x =>
      let s1 := s.loadSnapshot x
      let s2 := { s1 with hang := { s1.hang with takeover := none, snap0 := Snapshot.reset, snap1 := Snapshot.reset } }
      let s3 := ((s2.wr hngStatusTakeover 0).event hngEventTakeoverDone).completeEvents x.included
      s3.restartCore (1 - s3.activeCore)
    | _, _ => s).wrapUp

/-- TAKEOVER_OVERDUE: 200 beat ticks have passed since the missed heartbeat. -/
def execTakeoverOverdue (s : State) : Host.Outcome State Fault Refusal :=
  .next (
    match s.hang.takeover with
    | some t => if t + 200 ≤ s.tick then s.recoverAlone else s
    | none => s).wrapUp

/-- INCLUDED_SEQ of a snapshot taken now: every event up to it is recorded. -/
def State.includedNow (s : State) : Nat :=
  match s.hang.evq.find? (fun e => !e.recorded) with
  | some e => e.seq - 1
  | none => s.hang.evSeq - 1

/-- The buffer to which the next snapshot goes, buffer 1 as true: the one that is OPEN, else the one without the newest
generation. -/
def State.snapTarget (s : State) : Bool :=
  if s.hang.snap0.open' then false else if s.hang.snap1.open' then true else decide (s.hang.snap1.gen < s.hang.snap0.gen)

def State.setSnap (s : State) (second : Bool) (x : Snapshot) : State :=
  { s with hang := if second then { s.hang with snap1 := x } else { s.hang with snap0 := x } }

/-- RMG_SNAPSHOT (R270): 50 beat ticks after the last one the active core sets the buffer's OPEN flag; the next command writes the
buffer with its generation, one above the last, and clears OPEN (DESIGN CHOICE, log entry 136). -/
def execRmgSnapshot (s : State) : Host.Outcome State Fault Refusal :=
  let b := s.snapTarget
  let old := if b then s.hang.snap1 else s.hang.snap0
  .next (
    if (s.core s.activeCore).state ≠ .running ∨ s.hang.takeover.isSome then s
    else if old.open' then
      let gen := (s.rd hngRmgGenGen + 1) % 2 ^ 32
      (s.setSnap b { open' := false, gen := gen, included := s.includedNow, map := s.qtn.map, epoch := s.rd qtnEpochEpoch,
                     sets := s.qtn.sets }).wr hngRmgGenGen gen
    else if s.tick < s.hang.snapTick + 50 then s
    else
      let s1 := s.setSnap b { old with open' := true }
      { s1 with hang := { s1.hang with snapTick := s1.tick } })

/-- RMG_ACK_WRITE (R270): retires every event up to the INCLUDED_SEQ of the closed buffer of that generation. -/
def execRmgAckWrite (core : Core4) (gen : Word32) (s : State) : Host.Outcome State Fault Refusal :=
  .next (
    if core.val ≠ s.activeCore ∨ (s.core core).state ≠ .running then s
    else match s.snapshots.find? (fun x => x.gen == gen.toNat) with
      | none => s
      | some x =>
        let q := s.hang.evq.filter (fun e => decide (x.included < e.seq))
        ({ s with hang := { s.hang with evq := q } }.wr hngRmgAckGen gen.toNat).wr hngRmgEvqPending q.length)

/-! ### Heartbeats (R263, R266, Table HNG-1) -/

/-- The core misses again within 1,000 beat ticks of its restart. -/
def State.missedAgain (s : State) (n : Nat) : Bool :=
  match (s.core n).restarted with
  | some t => decide (s.tick ≤ t + 1000)
  | none => false

/-- Resets answer a silent CC2 or CC3 only while no wake runs and the device is in service. -/
def State.inService (s : State) : Bool := !s.pwr.safe && s.pwr.wake.isNone && !s.hang.waiting && s.on pwrWakeStatusDone

/-- CC2: its partitions are captured and reset, or the device is; during W10 self-test is incomplete (R322). -/
def State.missCc2 (s : State) : State :=
  if s.waitsFor .selfTest then (s.abortBist.failBist 12 0xC).restartCore 2
  else
    let again := s.missedAgain 2
    let s1 := s.restartCore 2
    if !s.inService then s1
    else if again then (s1.event hngEventEscalated).requestReset .device 9
    else if s.rd hngCfgCc2Policy = 1 then s1.requestReset .device 2
    else s.presentParts.foldl (fun t p => t.requestReset (.part (partFin p)) 2) s1

def State.missCc3 (s : State) : State :=
  let again := s.missedAgain 3
  let s1 := s.restartCore 3
  if again ∧ s.inService then (s1.event hngEventEscalated).requestReset .device 0xA else s1

/-- An RMG core: a silent standby is restarted, a silent active core taken over, and two silent cores are an autonomous
recovery. The other core is silent once it has missed its heartbeat and not been restarted. -/
def State.missRmg (s : State) (n : Nat) : State :=
  let other := s.core (1 - n)
  if other.missed then s.recoverAlone
  else if n = s.activeCore then s.beginTakeover n
  else s.restartCore n

/-- HEARTBEAT_MISS: the core's count reaches the deadline. A halt that DBG_EXEMPT covers has frozen the count. -/
def execHeartbeatMiss (core : Core4) (s : State) : Host.Outcome State Fault Refusal :=
  let c := s.core core
  .next (
    if c.state = .held ∨ c.frozen.isSome ∨ c.missed ∨ s.tick < c.since + s.hbDeadline then s
    else
      let s1 := (s.setCore core { c with missed := true }).wrBit hngStatusAlive core false
      let s2 := s1.wrBit hngEventHbMiss core true
      match core.val with
      | 2 => s2.missCc2
      | 3 => s2.missCc3
      | n => s2.missRmg n).wrapUp

/-! ### Engine stalls (R265) -/

/-- A collective waits for its mark, or for its peers: for their agreement, or for data that every tile left needs (R265). -/
def State.collWaits (s : State) (l : RunList) (c : Coll) : Bool :=
  !c.agreed || !c.sent ||
  match l.word with
  | some w => (List.range l.total).all (fun t => l.done.contains t ||
      (s.collOut l w.toNat t (s.tileTag l w.toNat t (fFmtC w.toNat))).isNone)
  | none => true

/-- What a stalled list must not wait for. -/
def State.excused (s : State) (l : RunList) : Bool :=
  s.outstanding l ||
  match l.work with
  | .waitSync _ _ => true
  | .waitBeat _ => true
  | .waitTicks _ => true
  | .remote => true
  | .coll c => s.collWaits l c
  | .closing _ _ => true
  | _ => false

def State.stalled (s : State) (p e : Nat) : Bool :=
  s.lists.any (fun l => l.running && s.partOf l == p && l.hdr.engine == e && !s.excused l &&
    decide (l.progress + Nat.max 1 (s.rd hngEngDeadlineBeats) ≤ s.tick))

/-- ENGINE_STALL (R265, Table HNG-1): an engine reset; for one that stalls again within REPEAT, a partition reset. -/
def execEngineStall (p : Part) (e : Fin 5) (s : State) : Host.Outcome State Fault Refusal :=
  let d : RDom := .engine p e
  let last := s.hang.stalls.get (fun _ => none) (p.val * 8 + e.val)
  .next (
    if !s.stalled p e || (s.findReset d).isSome then s
    else
      let s1 := { s with hang := { s.hang with stalls := s.hang.stalls.set (fun _ => none) (p.val * 8 + e.val) (some s.tick) } }.event
        hngEventEngStall
      let again := match last with
        | some t => s.on hngCfgEngEsc && decide (s.tick ≤ t + s.rd hngEngDeadlineRepeat)
        | none => false
      if again then (s1.event hngEventEscalated).requestReset (.part p) 9 else s1.requestReset d 1).wrapUp

/-- ENGINE_RESET_OVERDUE: an engine reset has not reached DONE within 40 beat ticks. -/
def execEngineResetOverdue (p : Part) (e : Fin 5) (s : State) : Host.Outcome State Fault Refusal :=
  .next (
    match s.findReset (.engine p e) with
    | some r => if r.started + 40 ≤ s.tick then (s.event hngEventEscalated).requestReset (.part p) 9 else s
    | none => s).wrapUp

end Sys2Proof.Machine
end

