-- ==== Sys2Proof/Machine/RegView.lean ====
section
/-!
DEFINITION. What the words of control space show beyond the stored registers: fields that follow other state, and the windows
onto the map, MRAM, the logs and the trace carve-out (Tables ENG-6, QTN-10, EVR-4, BIST-6, TRC-4, R109, R215).
-/
namespace Sys2Proof.Machine

open Reg

/-- Little-endian word at `off` of bytes given by offset. -/
def wordOf (f : Nat → Nat) (off : Nat) : Nat := f off + 256 * f (off + 1) + 65536 * f (off + 2) + 16777216 * f (off + 3)

/-- A word of a list of bytes; zero beyond it. -/
def wordAt (bs : List Byte) (off : Nat) : Nat := wordOf (fun i => (bs.getD i 0).toNat) off

/-! ### Queues -/

/-- QUE_STATUS: RUNNING, FENCED and STATE follow the queue. -/
def State.queStatusView (s : State) (q : Nat) : Nat :=
  let run := s.runningOf q
  let st := if !s.on (queCtlEn q) then 0 else if run = 0 ∧ s.pendingCount q = 0 then 1 else 2
  setBits (setBits (setBits (s.reg (queStatus q)).toNat 16 8 (Nat.min 255 run)) 2 1 (s.fenced (s.partOfQueue q) || s.churnFenced (s.partOfQueue q)).toNat) 0 2 st

/-! ### HBM (Table MEM-6) -/

/-- DEGRADED of stack `h`: no controller spare row is free, or a pseudo-channel of it is not in force, once the channel list is
fixed: left out of the list, or a hole. -/
def State.degraded (s : State) (h : Nat) : Bool :=
  decide (64 ≤ s.remapsOf h) || (s.on sysStatusBistDone &&
    (List.range 64).any (fun i => !(s.chanList (s.partOfDie (h / 2))).contains (h * 64 + i) || s.isHole (h * 64 + i)))

/-! ### The map (Tables QTN-3, QTN-10) -/

/-- A cluster's entry, 16 bits; another unit's is its low byte. -/
def entryBits (e : MapEntry) : Nat := e.state + 4 * e.source + 16 * e.pending.toNat + 256 * e.lc

/-- Bytes 0x400–0xF7F of the QTN block. -/
def State.entryByte (s : State) (off : Nat) : Nat :=
  let m := s.qtn.map
  if off < 0xA00 then
    let i := (off - 0x400) / 2
    if i < 672 then bitsOf (entryBits (m.entry i)) (8 * (off % 2)) 8 else 0
  else if off < 0xD00 then (if off - 0xA00 < 672 then entryBits (m.entry (672 + (off - 0xA00))) % 256 else 0)
  else if off < 0xF00 then entryBits (m.entry (1344 + (off - 0xD00))) % 256
  else if off < 0xF80 then entryBits (m.entry (1856 + (off - 0xF00))) % 256
  else 0

/-- QTN_BACKED: bit 1 of each number says that a cluster backs it. -/
def State.backedWord (s : State) (d w : Nat) : Nat :=
  ((List.range 32).filter (fun i => decide (32 * w + i < 160) && (s.qtn.map.backing d (32 * w + i)).isSome)).foldl (fun a i => a + 2 ^ i) 0

/-- QTN_L2P. -/
def State.l2pByte (s : State) (off : Nat) : Nat :=
  let d := (off - 0x1100) / 0x100
  let lc := (off - 0x1100) % 0x100
  if lc < 160 then ((s.qtn.map.backing d lc).map (fun u => u % 168)).getD 0xFF else 0

/-- A word of the QTN block beyond its registers. -/
def State.qtnView (s : State) (off : Nat) : Option Nat :=
  if 0x100 ≤ off ∧ off < 0x200 then some (wordAt s.qtn.last (off - 0x100))
  else if 0x400 ≤ off ∧ off < 0xF80 then some (wordOf s.entryByte off)
  else if 0x1000 ≤ off ∧ off < 0x1080 then
    (if off % 0x20 < 0x14 then some (s.backedWord ((off - 0x1000) / 0x20) (off % 0x20 / 4)) else none)
  else if 0x1100 ≤ off ∧ off < 0x1500 then some (wordOf s.l2pByte off)
  else none

/-! ### MRAM (Table EVR-1) -/

/-- A counter copy (R340). -/
def CounterCopy.bytes (c : CounterCopy) : List Byte :=
  let body := leBytes 4 c.gen ++ leBytes 4 c.recordSeq ++ leBytes 4 c.seq ++ leBytes 1 c.sessionOpen.toNat ++ leBytes 3 0 ++
    leBytes 4 c.faultCeil ++ leBytes 4 c.capCeil
  body ++ leBytes 8 ((crc64 body).toNat + (!c.crcOk).toNat)

/-- An entry of the repair list (R321). -/
def RepairEntry.bytes (r : RepairEntry) : List Byte :=
  leBytes 1 r.code ++ leBytes 1 (r.row.toNat + 2 * r.column.toNat) ++ leBytes 2 r.inst ++ leBytes 2 r.bank ++ leBytes 2 r.index

/-- An entry of the churn results index (R341); one without a pass is not VALID. -/
def passBytes : Option ChurnPass → List Byte
  | some p => leBytes 1 (1 + 2 * p.level) ++ leBytes 3 0 ++ leBytes 4 p.version ++ leBytes 4 p.epoch ++ leBytes 4 p.seq
  | none => leBytes 16 0

/-- A byte of MRAM; none where the spec gives a structure no layout: map images, panel-state copies, slots whose write was cut
short, and the vendor's part. -/
def State.mramByte (s : State) (a : Nat) : Option Byte :=
  let m := s.mram
  if a < 0xC0000 then
    (if m.bad.contains (a / 512) then none else some ((m.ring.get (fun _ => []) (a / 512)).getD (a % 512) 0))
  else if a < 0xC2000 then none
  else if a < 0xCA000 then some ((((m.repairs[(a - 0xC2000) / 8]?).map RepairEntry.bytes).getD []).getD (a % 8) 0)
  else if a < 0xD2000 then some ((passBytes (m.churn.get (fun _ => none) ((a - 0xCA000) / 16))).getD (a % 16) 0)
  else if a < 0xD2800 then some (m.script.getD (a - 0xD2000) 0)
  else if a < 0xD2880 then none
  else if a < 0xD28A0 then some (m.count0.bytes.getD (a - 0xD2880) 0)
  else if a < 0xD28C0 then some (m.count1.bytes.getD (a - 0xD28A0) 0)
  else if a < 0xD28D0 then
    some ((match m.marker with
      | some (i, seq) => leBytes 1 0xA5 ++ leBytes 1 i ++ leBytes 2 0 ++ leBytes 4 seq ++ leBytes 8 0
      | none => leBytes 16 0).getD (a - 0xD28C0) 0)
  else none

/-- A word of the MRAM window. -/
def State.mramWord (s : State) (a : Nat) : Option Nat :=
  match s.mramByte a, s.mramByte (a + 1), s.mramByte (a + 2), s.mramByte (a + 3) with
  | some b0, some b1, some b2, some b3 => some (leNat [b0, b1, b2, b3])
  | _, _, _, _ => none

/-! ### Logs -/

/-- An entry of the self-test log (Table BIST-7). -/
def BistLog.bytes (e : BistLog) : List Byte :=
  leBytes 1 e.group ++ leBytes 1 e.code ++ leBytes 1 e.action ++ leBytes 1 e.bit ++ leBytes 4 e.unit ++ leBytes 8 e.addr

def State.bistWord (s : State) (off : Nat) : Nat := wordAt (((s.bist.log[(off - 0x1000) / 16]?).map BistLog.bytes).getD []) (off % 16)

def State.scrWord (s : State) (off : Nat) : Nat := wordAt (s.scrLog.get (fun _ => []) ((off - 0x1000) / 128)) (off % 128)

/-- TRC_WIN of partition `p`: the carve-out from TRC_WIN_BASE × 4 KiB (R417). -/
def State.traceWord (s : State) (p off : Nat) : Nat :=
  wordAt (s.readOwn p (s.traceOf p * 4096 + s.rd (trcWinBaseBase p) * 4096 + off) 4) 0

/-! ### Control space -/

/-- A word of control space: what a stored register holds, with the fields and windows that follow other state; none where the
spec leaves the word open. -/
def State.view (s : State) (a : Nat) : Option Nat :=
  if 0x100000 ≤ a ∧ a < 0x140000 ∧ a % 0x1000 = 4 then some (s.queStatusView ((a - 0x100000) / 0x1000))
  else if 0x180000 ≤ a ∧ a < 0x1A0000 then
    some (s.syncVal ((a - 0x180000) / 0x8000) (a % 0x8000 / 8) / (if a % 8 < 4 then 1 else 2 ^ 32) % 2 ^ 32)
  else if 0x300000 ≤ a ∧ a < 0x380000 ∧ a % 0x10000 = 0 then
    some (setBits (s.reg a).toNat 1 1 (s.degraded ((a - 0x300000) / 0x10000)).toNat)
  else if a = beatNumLo then some (s.beat.num % 2 ^ 32)
  else if a = beatNumHi then some (s.beat.num / 2 ^ 32 % 2 ^ 32)
  else if a = beatPhase then some s.beat.phase
  else if a = fabRouteData then some (s.link.routes.get (fun _ => 0) (s.rd fabRouteIdxDev))
  else if 0x41000 ≤ a ∧ a < 0x42000 then s.mramWord (s.rd evrWinBaseBase * 4096 + (a - 0x41000))
  else if 0x42000 ≤ a ∧ a < 0x42200 then some (wordAt (s.recordBody 0 (s.rd evrSeqSeq) 0 0) (a - 0x42000))
  else if 0x51000 ≤ a ∧ a < 0x52000 then some (s.bistWord (a - 0x50000))
  else if 0x81000 ≤ a ∧ a < 0x83000 then some (s.scrWord (a - 0x80000))
  else if 0x88100 ≤ a ∧ a < 0x89500 ∧ (s.qtnView (a - 0x88000)).isSome then s.qtnView (a - 0x88000)
  else if 0xA4000 ≤ a ∧ a < 0xA8000 then some (s.traceWord ((a - 0xA4000) / 0x1000) (a % 0x1000))
  else some (s.reg a).toNat

end Sys2Proof.Machine
end

