-- ==== Sys2Proof/Machine/Reset.lean ====
section
/-!
DEFINITION. The phases of a reset (R276–R285, 12_hangs_fencing_and_recovery.md): ANSWER, CAPTURE with its records, RESET, REINIT and
DONE; and the loss of power-good of a domain that is on (R300).
-/
namespace Sys2Proof.Machine

open Reg

/-! ### ANSWER (R276) -/

/-- Lists that hold dispatch slots of the domain. -/
def State.slotLists (s : State) (d : RDom) : List RunList := (s.fencedLists d).filter (fun l => l.running)

/-- The partitions whose HNG_FENCE_STAT a fence of `d` writes. -/
def State.fencedParts (s : State) (d : RDom) : List Nat :=
  match d with
  | .engine p _ => [p.val]
  | .part p => [p.val]
  | .device => s.parts
  | .cla _ => []

/-- The reads of a domain that no response has answered: of an engine's, those of the lists in its slots. -/
def State.fenceReads (s : State) (d : RDom) : List OpenRead :=
  let asked := fun (r : OpenRead) => (s.slotLists d).any (fun l => s.partOf l == r.part &&
    (l.asks.any (fun a => a.1 == 2 * 2 ^ 60 + r.addr || (decide (a.1 ≤ 2 * 2 ^ 60 + r.addr) && decide (2 * 2 ^ 60 + r.addr < a.1 + a.2))) ||
      (l.word.isNone && 2 * 2 ^ 60 + r.addr == l.hdr.clAddr + 64 + 16 * l.idx)))
  let host := s.link.hostReads.filter (fun r => match d with
    | .engine _ _ => asked r
    | _ => (s.fencedParts d).contains r.part)
  let remote := s.link.reads.filter (fun r => match d with
    | .engine _ _ => (s.slotLists d).any (fun l => l.queue == r.queue && l.desc == r.desc)
    | _ => (s.fencedParts d).contains (s.partOfQueue r.queue))
  host ++ remote.map (fun r => ⟨s.partOfQueue r.queue, some r.conn, r.off, r.len⟩)

/-- Every request still outstanding is answered: the reads, whose responses are late from now on, and the lists still in the domain's
slots, which end. LEFT counts both. -/
def State.answerFence (s : State) (d : RDom) : State :=
  let ls := s.slotLists d
  let rs := s.fenceReads d
  let s1 := (s.fencedParts d).foldl (fun t p =>
    t.wr (hngFenceStatLeft p) (Nat.min 65535
      ((ls.filter (fun l => s.partOf l == p)).length + (rs.filter (fun r => r.part == p)).length))) s
  let s2 := if ls = [] ∧ rs = [] then s1 else s1.event hngEventFenceOverrun
  let s3 := { s2 with link := { s2.link with hostReads := s2.link.hostReads.filter (fun r => !rs.contains r) }
                      hang := { s2.hang with late := s2.hang.late ++ rs } }
  (ls.foldl (fun t l => match t.findList l.queue l.desc with
    | some k => if k.ending.isSome then t else t.endWith k 0x31 0x0502
    | none => t) s3).settle

/-! ### A larger domain takes over (R274) -/

/-- At a phase boundary the larger domain answers what is left and goes on at its own CAPTURE phase; the sequences that it
contains end. -/
def State.takeOver (s : State) (r : ResetSeq) (d : RDom) (cause : Nat) (mark : Mark) : State :=
  let slots := r.slots ++ s.slotLists d
  let s1 := s.answerFence d
  let new : ResetSeq :=
    { dom := d, phase := 5, cause := cause, drainEnd := s1.units, since := s1.tick, started := s1.tick, mark := mark,
      escalated := cause == 9, captured := false, slots := slots, ports := s1.portCfgs, next := none }
  ((s1.setResets (s1.hang.resets.filter (fun x => !s1.inside x.dom d) ++ [new])).abortChurnOf (s1.partsOfDom d)).showReset

/-- The sequence enters phase `n`, unless a larger domain takes over here. -/
def State.boundary (s : State) (r : ResetSeq) (n : Nat) : State :=
  match r.next with
  | some (d, cause, mark) => s.takeOver r d cause mark
  | none => s.toPhase r n

/-- FENCE_DRAIN_END (R276): nothing is left in the domain's slots, or the budget has elapsed. -/
def execFenceDrainEnd (d : RDom) (s : State) : Host.Outcome State Fault Refusal :=
  .next (
    match s.findReset d with
    | some r =>
      if r.phase ≠ 3 ∨ ((s.slotLists d ≠ [] ∨ s.fenceReads d ≠ []) ∧ s.units < r.drainEnd) then s
      else
        let slots := s.slotLists d
        (s.answerFence d).boundary { r with slots := slots } 4
    | none => s).wrapUp

/-- The next larger domain (R278). -/
def nextDomainOf : RDom → Option RDom
  | .engine p _ => some (.part p)
  | .part _ => some .device
  | _ => none

/-- FENCE_ANSWER_OVERRUN (R278): ANSWER has lasted more than 2 beat ticks. A device reset follows regardless. -/
def execFenceAnswerOverrun (d : RDom) (s : State) : Host.Outcome State Fault Refusal :=
  .next (
    match s.findReset d, nextDomainOf d with
    | some r, some larger =>
      if r.phase = 4 ∧ r.since + 2 < s.tick then (s.event hngEventEscalated).requestReset larger 9 else s
    | _, _ => s).wrapUp

/-! ### CAPTURE (R279–R283) -/

/-- A section of a capture record (Table HNG-5). -/
structure CapSection where
  type : Nat
  unit : Nat
  bytes : List Byte

/-- A queue's registers, offsets 0x000–0x0FF of its window. -/
def State.queueSection (s : State) (q : Nat) : CapSection :=
  ⟨1, q, (List.range 64).flatMap (fun i => leBytes 4 ((s.view (0x100000 + q * 0x1000 + 4 * i)).getD 0))⟩

def State.syncSection (s : State) (p : Nat) : CapSection :=
  ⟨2, p, (List.range 4096).flatMap (fun n => leBytes 8 (s.syncVal p n))⟩

/-- Slots of an engine on one die, MXE to CLE. -/
def dieSlots (e : Nat) : Nat := [8, 8, 16, 4].getD e 0

/-- A slot entry. -/
def State.slotEntry (s : State) (l : RunList) : List Byte :=
  overlay 64 [(0, leBytes 1 l.hdr.engine), (1, [1]), (2, leBytes 2 l.queue), (4, leBytes 2 (l.desc % s.ringCap l.queue)),
    (6, leBytes 2 l.hdr.job), (8, leBytes 8 l.hdr.clAddr), (16, leBytes 4 l.idx), (24, leBytes 16 ((l.word.map (·.toNat)).getD 0)),
    (40, leBytes 8 (s.listTag l).toNat)]

/-- A die's slot table, then its engine register image. The lists of an engine fill the slots of the partition's dies in
ascending order. -/
def State.dieSection (s : State) (p d : Nat) (slots : List RunList) : CapSection :=
  let rank := (s.diesOf p).idxOf d
  let entries := (List.range 4).flatMap (fun e =>
    let mine := slots.filter (fun l => s.partOf l == p && l.hdr.engine == e)
    (List.range (dieSlots e)).flatMap (fun i =>
      match mine[rank * dieSlots e + i]? with
      | some l => s.slotEntry l
      | none => overlay 64 [(0, leBytes 1 e)]))
  ⟨3, d, entries ++ (List.range (65536 - 2304)).map (fun i => Config.engineImage d (2304 + i))⟩

/-- Bytes of a cluster's scratchpad. -/
def State.scratchSection (s : State) (type u off n : Nat) : CapSection :=
  ⟨type, u, (List.range n).map (fun i => s.mem.byte (scratchKey u ((off + i) % 524288)))⟩

/-- The clusters that a capture samples: those that back a logical number; of an engine reset, those its slots' lists
target. -/
def State.capClusters (s : State) (p : Nat) (r : ResetSeq) : List Nat :=
  let backed := ((s.diesOf p).flatMap (fun d => (List.range 168).map (fun i => d * 168 + i))).filter
    (fun u => (s.qtn.path.entry u).state == 0)
  match r.dom with
  | .engine _ _ => backed.filter (fun u => r.slots.any (fun l => l.hdr.dies.testBit (u / 168) &&
      decide (l.hdr.lcFirst ≤ (s.qtn.path.entry u).lc) && decide ((s.qtn.path.entry u).lc < l.hdr.lcFirst + l.hdr.lcCount)))
  | _ => backed

/-- The sections of partition `p`'s record. -/
def State.capSections (s : State) (p : Nat) (r : ResetSeq) : List CapSection :=
  let state := match r.dom with
    | .engine _ _ =>
      (((s.queuesOf p).filter (fun q => r.slots.any (fun l => l.queue == q))).map s.queueSection) ++
        (s.diesOf p).map (fun d => s.dieSection p d r.slots)
    | .cla _ => []
    | _ => (s.queuesOf p).map s.queueSection ++ [s.syncSection p] ++ (s.diesOf p).map (fun d => s.dieSection p d r.slots)
  let us := s.capClusters p r
  let win := Nat.min 64 (s.rd (hngCapCfgWindowKib p)) * 1024
  let sample := match r.dom with
    | .cla _ => []
    | _ => us.map (fun u => s.scratchSection 4 u 0 4096) ++
      (if win = 0 then [] else us.map (fun u => s.scratchSection 5 u (s.rd (hngCapWinOfs p) * 64) win))
  (if s.on (hngCapCfgStateEn p) then state else []) ++ (if s.on (hngCapCfgSampleEn p) then sample else [])

def pad64 (n : Nat) : Nat := (n + 63) / 64 * 64

/-- Directory entries, each section after the ones before it from offset `off`. -/
def directory : Nat → List CapSection → List Byte
  | _, [] => []
  | off, c :: cs => overlay 16 [(0, leBytes 1 c.type), (2, leBytes 2 c.unit), (4, leBytes 4 off), (8, leBytes 4 c.bytes.length)] ++
      directory (off + pad64 c.bytes.length) cs

def capLimit : Nat := 67108864

/-- A capture record (Table HNG-4), cut at 64 MiB. -/
def State.capRecord (s : State) (p : Nat) (r : ResetSeq) (seq : Nat) : List Byte :=
  let cs := s.capSections p r
  let dirLen := pad64 (16 * cs.length)
  let dir := overlay dirLen [(0, directory (64 + dirLen) cs)]
  let data := cs.flatMap (fun c => overlay (pad64 c.bytes.length) [(0, c.bytes)])
  let total := 64 + dirLen + data.length
  let parts := match r.dom with
    | .cla _ => 0
    | _ => (s.on (hngCapCfgStateEn p)).toNat + 2 * (s.on (hngCapCfgSampleEn p)).toNat
  let flags := parts + 4 * r.escalated.toNat + 8 * (decide (capLimit < total)).toNat
  let head := overlay 56 [(0, leBytes 2 0x4350), (2, [1]), (3, leBytes 1 r.dom.code), (4, leBytes 1 r.cause),
    (5, leBytes 1 (p + 16 * r.dom.sub)), (6, leBytes 1 flags), (8, leBytes 4 seq), (12, leBytes 4 (s.rd evrSeqSeq)),
    (16, leBytes 8 Config.serial.toNat), (24, leBytes 8 r.mark.num), (32, leBytes 2 r.mark.phase), (34, leBytes 2 cs.length),
    (36, leBytes 4 (Nat.min capLimit total))]
  (head ++ leBytes 8 (crc64 (head ++ dir)).toNat ++ dir ++ data).take capLimit

def State.cap (s : State) (p : Nat) : CapSt := s.hang.caps.get (fun _ => CapSt.reset) p

def State.setCap (s : State) (p : Nat) (c : CapSt) : State :=
  { s with hang := { s.hang with caps := s.hang.caps.set (fun _ => CapSt.reset) p c } }

/-- First offset of a record buffer of partition `p`. -/
def State.capBase (s : State) (p : Nat) (second : Bool) : Nat := s.captureOf p * 4096 + (if second then capLimit else 0)

/-- A record of partition `p` is written to the buffer that does not hold the newest; its unfinished copy is abandoned. -/
def State.writeCapture (s : State) (r : ResetSeq) (p : Nat) : State :=
  if s.granules p = 0 then s
  else
    let (seq, s1) := s.nextCapSeq
    let second := !s.on (hngCapStatusBuf p)
    let bs := s1.capRecord p r seq
    let s2 := s1.store p true false (s1.capBase p second) bs
    let lost := (s.cap p).copying
    let s3 := (((s2.wr (hngCapStatusBuf p) second.toNat).wr (hngCapStatusLost p) lost.toNat).wr (hngCapStatusDamaged p) 0).wr
      (hngCapStatusCopied p) 0
    let s4 := (if lost then s3.event hngEventCapLost else s3).wr (hngCapSeqSeq p) seq
    s4.setCap p { length := bs.length, seq := seq, sent := 0, copying := true }

/-- The partitions whose records a reset writes. -/
def State.capParts (s : State) (d : RDom) : List Nat :=
  (match d with
  | .engine p _ => [p.val]
  | .part p => [p.val]
  | .device => s.parts
  | .cla r => [s.rd (claRegionPart r)]).filter s.present

/-- CAPTURE_COMPLETE (R279), in the CAPTURE phase: the records are written, and RESET begins. While the device waits with AUTO = 0, a partition's
sequence ends here and its fence stays (R286). -/
def execCaptureComplete (d : RDom) (s : State) : Host.Outcome State Fault Refusal :=
  .next (
    match s.findReset d with
    | some r =>
      if r.phase ≠ 5 then s
      else
        let s1 := if r.captured then s else (s.capParts d).foldl (fun t p => t.writeCapture r p) s
        if s.hang.waiting ∧ d ≠ RDom.device ∧ r.next = none then
          (s1.setResets (s1.hang.resets.filter (fun x => x.dom != d))).showReset
        else s1.boundary { r with captured := true } 6
    | none => s).wrapUp

/-- A chunk's bytes with the poison bits of its lines: a poisoned line is sent as zeros (R283). -/
def State.chunk (s : State) (p a n : Nat) : List Byte × Nat :=
  let line := fun (i : Nat) => decide (((s.readBytes p true (a + 64 * i) (Nat.min 64 (n - 64 * i))).getD ([], [])).2 ≠ [])
  let bad := (List.range ((n + 63) / 64)).filter line
  let bs := s.readOwn p a n
  ((List.range n).map (fun i => if bad.contains (i / 64) then 0 else bs.getD i 0), bad.foldl (fun m i => m + 2 ^ i) 0)

/-- A reset that has written the record of partition `p` has not ended. -/
def State.capResetting (s : State) (p : Nat) : Bool := s.hang.resets.any (fun r => r.captured && (s.capParts r.dom).contains p)

/-- CAPTURE_CHUNK_SEND (R282), after the reset. What its reading meets is handled as R161 says. -/
def execCaptureChunkSend (p : Part) (s : State) : Host.Outcome State Fault Refusal :=
  let c := s.cap p
  .next (
    if !c.copying || decide ((s.core 3).state ≠ .running) || decide (64 ≤ s.link.msgs.length) || !s.present p || s.fenced p ||
      s.capResetting p then s
    else
      let n := Nat.min 960 (c.length - c.sent)
      let a := s.capBase p (s.on (hngCapStatusBuf p)) + c.sent
      let (bs, poison) := s.chunk p a n
      let last := decide (c.length ≤ c.sent + n)
      let s1 := s.sendEvent (leBytes 1 0x0C ++ leBytes 1 last.toNat ++ leBytes 2 poison ++ leBytes 4 c.seq ++ leBytes 4 c.sent ++
        leBytes 4 n ++ bs)
      let s2 := (s1.setCap p { c with sent := c.sent + n, copying := !last }).wr (hngCapStatusCopied p)
        ((c.sent + n) * 100 / Nat.max 1 c.length)
      let s3 := if poison = 0 then s2 else (s2.wr (hngCapStatusDamaged p) 1).event hngEventCapDamaged
      (s3.touch p true none a n).wrapUp)

/-! ### RESET (Table HNG-3) -/

/-- Queues as they are after their reset: the next window start is the next multiple of the reset window (R63). -/
def State.freshQueues (s : State) (qs : List Nat) : State :=
  qs.foldl (fun t q => t.setQueue q { QueueSt.reset with winNext := (t.beat.num / 100 + 1) * 100 }) s

/-- Lists leave without records. -/
def State.dropLists (s : State) (which : RunList → Bool) : State :=
  let s1 := (s.lists.filter which).foldl (fun t l => t.forget l 0x31) s
  { s1 with lists := s1.lists.filter (fun l => !which l) }

/-- A reset isolates a region that runs, to be released at DONE, and with `ready` one that awaits its release (Table CLA-8). -/
def State.isolateRegion (s : State) (ready : Bool) (r : Nat) : State :=
  let run := s.regionRunning r
  let s1 := if run || (ready && s.regionState r == 2) then s.setRegion r 5 else s
  { s1 with cla := { s1.cla with wasRunning := setBits s1.cla.wasRunning r 1 run.toNat } }

/-- The regions of a partition become HELD at RESET; those that ran are released at DONE (Table CLA-8). -/
def State.holdRegions (s : State) (rs : List Nat) : State := rs.foldl (fun t r => t.isolateRegion true r) s

def State.releaseRegions (s : State) (rs : List Nat) : State :=
  rs.foldl (fun t r =>
    let t1 := if t.cla.wasRunning.testBit r && t.regionState r == 5 then t.releaseRegion r else t
    { t1 with cla := { t1.cla with wasRunning := setBits t1.cla.wasRunning r 1 0 } }) s

def State.regionsOf (s : State) (p : Nat) : List Nat := (List.range 8).filter (fun r => s.rd (claRegionPart r) == p)

/-- Latches of registers that are reset, and upper halves staged for sync objects that are, hold nothing (R109, R432). -/
def State.dropLatches (s : State) (which : Nat → Bool) (obj : Nat → Bool) : State :=
  { s with
    latches := (s.latches.mapVals (fun l => l.filter (fun e => !which e.1))).filter (fun e => e.2 != []),
    staged := s.staged.filter (fun e => match e.2 with
      | some (k, _) => !obj k
      | none => false) }

/-- The RESET phase of a partition. The wheel, its watches and the slot balances go on (R200, R206, R213). -/
def State.resetPart (s : State) (p : Nat) : State :=
  let inP := fun (u : Nat) => s.partOfDie (u / 168) == p
  let s1 := (s.dropLists (fun l => s.partOf l == p)).undefine ((List.range 672).filter inP)
  let s2 := s1.resetRegs (fun _ d ix => d.rst == .part && s.partOfIndex d.rd (ix.headD 0) == p)
  let s3 := { s2 with
    sync := s2.sync.clear (fun k => k / 4096 == p)
    votes := s2.votes.filter (fun v => v.part != p) }
  let s4 := s3.dropLatches (fun a => decide (0x180000 ≤ a) && decide (a < 0x1A0000) && (a - 0x180000) / 0x8000 == p)
    (fun k => k / 4096 == p)
  let s5 := ((s4.freshQueues (s4.queuesOf p)).closeSessions (fun x => x.part == p)).abortStreamIn (s3.regionsOf p)
  (s5.holdRegions (s3.regionsOf p)).count (rstPartCountCount p) 1

/-- What the links hold is lost; held messages, keys and sessions stay with CC3 (R267). -/
def State.resetLinks (s : State) : State :=
  let l := s.link
  let n := l.fwReady.foldl (fun (n : Nat × Nat) c => if c = 1 then (n.1 + 1, n.2) else (n.1, n.2 + 1)) l.fwApplied
  { s.pcieDown with link := { s.pcieDown.link with
      busMaster := 0, routes := [], conns := [], reads := [], hostReads := [], waiting := [], agrees := [], segs := [], seen := [], resend := [],
      fw := if l.fwReady = [] then l.fw else none, fwStep := if l.fwReady = [] then l.fwStep else 0, fwReady := [], fwApplied := n } }

/-- The switched domains go off, and everything outside AON returns to its reset value; the HBM domains in `keep` stay in self-refresh
(R297). AON blocks keep what they hold, the SCR log among them (R273). -/
def State.clearDevice (s : State) (keep : Nat) : State :=
  let churned := match s.qtn.churn with
    | some c => s.endChurn { c with aborting := true }
    | none => s
  let s0 := (churned.dropLists (fun _ => true)).closeSessions (fun _ => true)
  let s1 := ([11, 10, 9, 8, 7, 6, 5, 4, 3, 2, 1, 0].filter (fun d => !keep.testBit d)).foldl (fun t d => t.domainDown d) s0
  let s2 := ((List.range 2).map (fun i => i + 4)).foldl (fun t d =>
    if keep.testBit d then (t.wrBit pwrDomStatusOn d false).wrBit clkStatusPll d false else t) s1
  let s3 := (s2.resetLinks).resetRegs (fun _ d _ => d.rst != .aon)
  let s4 := s3.setPwr { s3.pwr with selfRefresh := keep }
  let s5 := { s4 with
    queues := [], sync := [], staged := [], msix := [], arbs := [], screen := [], vscreen := [], shadows := [], votes := [],
    lateArbs := [], wrote := [], raised := [], media := [],
    wheels := (List.range 4).foldl (fun w p => w.set (fun _ => WheelSt.reset) p
      { WheelSt.reset with fraction := s4.rd (scrPartCtlFraction p), vfraction := s4.rd (scrPartCtlVfraction p),
                           stride := Nat.max 1 (s4.rd (scrPartCtlStride p)) }) [],
    dbg := { s4.dbg with trace := [] }, hang := { s4.hang with late := [] } }
  let s6 := ((s5.dropLatches (fun a => decide (0x40000 ≤ a)) (fun _ => true)).divideSessions).freshQueues (List.range 64)
  s6.showLayouts.showDomains

/-- The channel list and the layout of partition `p` are as `old` had them. -/
def State.sameLayout (s : State) (old : MemSt) (p : Nat) : Bool :=
  s.mem.chans.get (fun _ => []) p == old.chans.get (fun _ => []) p && s.mem.limit.get (fun _ => 0) p == old.limit.get (fun _ => 0) p &&
  s.mem.capture.get (fun _ => 0) p == old.capture.get (fun _ => 0) p && s.mem.trace.get (fun _ => 0) p == old.trace.get (fun _ => 0) p

/-- A physical byte lies in a reserved region of its partition. -/
def State.reservedKey (s : State) (k : Nat) : Bool :=
  let c := k / (147456 * 4096)
  match s.offsetOf c (lineNo k) with
  | some off => decide (s.limitOf (s.partOfChan c) * 4096 ≤ off)
  | none => true

/-- The reserved regions of partition `p`, under the layout before and the one now, hold undefined contents (R149). -/
def State.loseReserved (s old : State) (p : Nat) : State :=
  let rs := (s.stacksOf p).flatMap (fun h => (List.range 64).map (fun i => 672 + h * 64 + i))
  { s with mem := s.mem.undefineBut rs (fun k => !s.reservedKey k && !old.reservedKey k) }

/-- What a device reset makes of the device, beside its reset values: pending entries take effect, partition mode `mode` is in force,
and channel lists and layouts are fixed (R18, R147, R148). A partition whose list or layout changes loses its slots and the contents of
its reserved regions (R149, R257). -/
def State.cycleDevice (s : State) (keep mode : Nat) : State :=
  let s1 := s.clearDevice keep
  let s2 := { s1 with mode := mode }.wr sysPartCfgActive mode
  let s3 := { s2 with
    mem := { s2.mem with chans := [], limit := [], capture := [], trace := [] }
    qtn := { s2.qtn with map := s2.qtn.map.settled, path := s2.qtn.map.settled } }
  let s4 := s3.fixLayouts.freshQueues (List.range 64)
  let same := fun (p : Nat) => mode == s.mode && s4.sameLayout s.mem p
  let s5 := ((List.range 4).filter (fun p => !same p)).foldl (fun t p => (t.loseSlots p).loseReserved s p) s4
  (if keep = 48 then s5 else (List.range 4).foldl (fun t p => t.loseSlots p) s5).updateCapacity

/-- RESET of the device: PWR_CFG.RST_KEEP_HBM keeps the HBM that is on, and a staged partition mode takes effect (R18, R23). -/
def State.resetDevice (s : State) : State :=
  let keep := if s.on pwrCfgRstKeepHbm then (if s.domOn 4 then 16 else 0) + (if s.domOn 5 then 32 else 0) else 0
  (s.cycleDevice keep (if s.on sysPartCfgNextValid then s.rd sysPartCfgNext else s.mode)).wr sysPartCfgNextValid 0

/-- CC0 to CC3 restart with the device; firmware completes what the RMG event queue still holds (R267, R269). -/
def State.restartCores (s : State) : State :=
  let was := s.hang.takeover.isSome || (s.core s.activeCore).state != .running
  let s1 := if was ∧ s.hang.takeover = none then s.revertMap else s
  let s2 := { s1 with hang := { s1.hang with takeover := none, stalls := [], waiting := false } }.wr hngStatusTakeover 0
  let s3 := (List.range 4).foldl (fun t n => t.restartCore n) s2
  if was then s3.completeEvents 0 else s3

/-- Without a verified image no core can run before W3 ends. -/
def State.holdCores (s : State) : State := (List.range 4).foldl (fun t n => t.setCore n CoreSt.reset) s

/-- REINIT of the device begins: the wake from the step after AON, or from W3 after a failure there (R285, R296). -/
def State.reinitDevice (s : State) (r : ResetSeq) : State :=
  let s1 := r.ports.foldl (fun t c => t.setReg c.1 c.2) s
  if s.pwr.safe ∧ s.pwr.safeStep = 3 then
    (((s1.holdCores).setPwr { s1.pwr with wake := some .deviceReset, waits := [.boot], attempts := [(14, 1)], begun := 0, safe := false }).wr
      sysStatusSafe 0).wr pwrWakeStatusStep 3
  else s1.beginWake .deviceReset

/-- What the RESET phase of a domain does. -/
def State.resetEffect (s : State) (r : ResetSeq) : State :=
  match r.dom with
  | .engine _ _ => s
  | .part p => s.resetPart p
  | .device => (s.resetDevice.restartCores).reinitDevice r
  | .cla n => s.isolateRegion false n.val

/-- DONE: the sequence ends, and its cause shows in RST_LAST. -/
def State.endReset (s : State) (r : ResetSeq) : State :=
  let s1 := s.setResets (s.hang.resets.filter (fun x => x.dom != r.dom))
  let s2 := (((s1.wr rstLastCause r.cause).wr rstLastDomain r.dom.code).wr rstLastPart r.dom.partNo).wr rstLastEngine
    (match r.dom with
    | .engine _ e => e.val
    | _ => 0)
  let s3 := match r.dom with
    | .part p => s2.releaseRegions (s2.regionsOf p)
    | .cla n => s2.releaseRegions [n.val]
    | .device => s2.wr hngStatusRecovering 0
    | _ => s2
  (((s3.showReset).traceReset r.dom r.cause true).updateCapacity).settle

/-- A partition that has lost a domain: its reset completes without REINIT (R300). -/
def State.lostPart (s : State) : RDom → Bool
  | .part p => !s.present p
  | _ => false

/-- REINIT of the device lasts as long as its wake. -/
def State.reinitDone (s : State) (r : ResetSeq) : Bool := r.dom != .device || s.pwr.wake.isNone

/-- RESET_PHASE_DONE (R284): RESET ends and REINIT begins, or REINIT ends. It also ends ANSWER, for which the table has no row of its
own (DESIGN CHOICE, log entry 135). -/
def execResetPhaseDone (d : RDom) (s : State) : Host.Outcome State Fault Refusal :=
  .next (
    match s.findReset d with
    | some r =>
      if r.phase = 4 then s.boundary r 5
      else if r.phase = 6 then
        let s1 := s.resetEffect r
        if s1.lostPart d ∧ r.next = none then s1.endReset r else s1.boundary r 7
      else if r.phase = 7 ∧ s.reinitDone r then
        (match r.next with
        | some (larger, cause, mark) => s.takeOver r larger cause mark
        | none => s.endReset r)
      else s
    | none => s).wrapUp

/-! ### Loss of power-good (R300) -/

/-- A partition that loses a domain: its jobs fault, its lists end, and no capture is written. -/
def State.losePart (s : State) (p : Nat) : State :=
  let s1 := (s.jobsIn p).foldl (fun t j => t.declareFault 3 j p 0 none) s
  ((s1.abortChurnOf [p]).evictHosts [p]).answerFence (.part (partFin p))

/-- A domain that is on loses power-good. -/
def State.loseDomain (s : State) (d : Nat) : State :=
  let ps := if d < 4 then [s.partOfDie d] else if d < 6 then s.parts.filter (fun p => (s.stacksOf p).any (fun h => hbmDom h == d)) else []
  let s1 := s.event pwrEventPgoodLost
  let s2 := (ps.filter s.present).foldl (fun t p => t.losePart p) s1
  let s3 := ((s2.domainDown d).wrBit pwrDomStatusFailed d true).showDomains
  if d = 6 then s3.recoverAlone else s3

/-- PGOOD_LOSS (R289, R292, R300): of a domain that is on, of one whose wake waits for more, or of one that is off. -/
def execPgoodLoss (d : Domain) (s : State) : Host.Outcome State Fault Refusal :=
  let n := d.val
  let s1 := s.setPwr { s.pwr with pgood := without s.pwr.pgood (2 ^ n) }
  .next (
    if s.domOn n then s1.loseDomain n
    else if s.waitsFor (.pll n) then s1.failAttempt (.pll n) n 7
    else if s.waitsFor (.training n) then s1.failAttempt (.training n) n 7
    else if s.waitsFor (.serdes n) then s1.failAttempt (.serdes n) n 7
    else if s.pwr.selfRefresh.testBit n then
      (s1.cutEnable n).setPwr { (s1.cutEnable n).pwr with selfRefresh := without s1.pwr.selfRefresh (2 ^ n) }
    else s1).wrapUp

end Sys2Proof.Machine
end

