-- ==== Sys2Proof/Machine/Thermal.lean ====
section
/-!
DEFINITION. Thermal management (R324–R338, 15_thermal_management.md). Temperatures are in 1/16 °C.
-/
namespace Sys2Proof.Machine

open Reg

/-! ### Sensors and domains (Table THM-1) -/

def domSensors (d : Nat) : List Nat := (List.range 120).filter (fun i => sensorDomain i == d)

def State.sensorTemp (s : State) (i : Nat) : Int := signed 16 (s.rd (thmSensorTemp i))

/-- The hottest working sensor of a list, the first of equals. -/
def State.hottest (s : State) (l : List Nat) : Option Nat :=
  (l.filter (fun i => !s.on (thmSensorFail i))).foldl (fun best i => match best with
    | some b => if s.sensorTemp b < s.sensorTemp i then some i else some b
    | none => some i) none

/-- A domain's maximum; none when all its sensors have failed. -/
def State.domMax (s : State) (d : Nat) : Option Int := (s.hottest (domSensors d)).map s.sensorTemp

/-! ### Reading the sensors (R325) -/

def State.staleCount (s : State) (i : Nat) : Nat := s.thm.stale.get (fun _ => 0) i

def State.setThm (s : State) (t : ThmSt) : State := { s with thm := t }

/-- A sensor's reading, or that it did not update. -/
def State.takeSensor (s : State) (i : Nat) (r : Option Int) : State :=
  let n := if r.isSome then 0 else Nat.min 10 (s.staleCount i + 1)
  let s1 := s.setThm { s.thm with stale := s.thm.stale.set (fun _ => 0) i n }
  let s2 := match r with
    | some t => s1.wr (thmSensorTemp i) (twos 16 t)
    | none => s1
  let bad := match r with
    | some t => decide (t < -640) || decide (2400 < t)
    | none => n == 10
  if bad && !s.on (thmSensorFail i) then (s2.wr (thmSensorFail i) 1).event thmEventSensorFail else s2

/-- Sensors that have failed in `s` and had not in `old`. -/
def State.newFails (s old : State) : List Nat :=
  (List.range 120).filter (fun i => s.on (thmSensorFail i) && !old.on (thmSensorFail i))

/-- The maxima show in THM_DOM_MAX and THM_DEV_MAX. -/
def State.showMaxima (s : State) : State :=
  let s1 := (List.range 13).foldl (fun t d => match s.domMax d with
    | some m => (t.wr (thmDomMaxNow d) (twos 16 m)).wr (thmDomMaxPeak d) (twos 16 (max m (signed 16 (t.rd (thmDomMaxPeak d)))))
    | none => t) s
  match s.hottest (List.range 120) with
  | some i => (s1.wr thmDevMaxSensor i).wr thmDevMaxTemp (twos 16 (s.sensorTemp i))
  | none => s1

/-! ### Levels (R326) -/

/-- Threshold of level 1 to 3 of a domain. -/
def State.threshold (s : State) (d level : Nat) : Int :=
  16 * (s.rd (match decide (d < 5), level with
    | true, 1 => thmLimitWarnDie
    | true, 2 => thmLimitThrottleDie
    | true, _ => thmLimitShutdownDie
    | false, 1 => thmLimitWarnHbm
    | false, 2 => thmLimitThrottleHbm
    | false, _ => thmLimitShutdownHbm) : Int)

/-- Hysteresis, a value outside 1–10 taken as the nearest bound (R327). -/
def State.hysteresis (s : State) (d : Nat) : Int := 16 * (Nat.min 10 (Nat.max 1 (s.rd (if d < 5 then thmHystDie else thmHystHbm))) : Nat)

/-- The level that a maximum gives a domain whose level was `old`. -/
def State.nextLevel (s : State) (d old : Nat) (m : Int) : Nat :=
  let holds := fun (k : Nat) => decide (s.threshold d k ≤ m) || (decide (k ≤ old) && decide (s.threshold d k - s.hysteresis d ≤ m))
  if holds 3 then 3 else if holds 2 then 2 else if holds 1 then 1 else 0

/-- A domain whose sensors have all failed is reported at THROTTLE. -/
def State.newLevel (s : State) (d : Nat) : Nat :=
  match s.domMax d with
  | some m => s.nextLevel d (s.levelOf d) m
  | none => 2

def levelBit (level : Nat) : Fld := if level = 1 then thmEventWarn else if level = 2 then thmEventThrottle else thmEventShutdown

/-- A domain takes its new level; a change sets the bit of the level it has come to, and is reported. -/
def State.takeLevel (s : State) (d level : Nat) : State :=
  let old := s.levelOf d
  let s1 := s.wr thmLevelLevel (setBits (s.rd thmLevelLevel) (2 * d) 2 level)
  if level = old then s
  else
    let s2 := if level = 0 then s1 else s1.event (levelBit level)
    s2.reportThermal (if old < level then 1 else 2) d level ((s.domMax d).getD 0) ((s.hottest (domSensors d)).getD 0xFF)

/-- Levels of all domains, highest first reported in domain order. -/
def State.takeLevels (s : State) : State := (List.range 13).foldl (fun t d => t.takeLevel d (t.newLevel d)) s

/-! ### The rate of rise (R328, R332) -/

/-- A domain's rise over the kept fast samples, or between the last two slow samples: degrees and beat ticks. -/
def State.riseOf (s : State) (d : Nat) : Int × Nat :=
  let h := s.thm.history
  match h with
  | now :: _ :: _ =>
    match now.getD d none, (h.getLast?.getD []).getD d none with
    | some a, some b => (a - b, 10 * (h.length - 1))
    | _, _ => (0, 10)
  | now :: [] =>
    match now.getD d none, s.thm.lastSlow.getD d none with
    | some a, some b => (a - b, 100)
    | _, _ => (0, 100)
  | [] => (0, 100)

/-- Some maximum has risen by more than 2 °C per 1,000 µs: between two slow samples, or over ten fast ones. -/
def State.fastRise (s : State) : Bool :=
  (s.thm.history.length == 1 || s.thm.history.length == 11) &&
  (List.range 13).any (fun d => decide (32 * ((s.riseOf d).2 : Int) < 100 * (s.riseOf d).1))

def State.anyMax (s : State) (p : Nat → Int → Bool) : Bool :=
  (List.range 13).any (fun d => match s.domMax d with
    | some m => p d m
    | none => false)

/-- Some maximum lies within 5 °C of its domain's THROTTLE threshold, or above it. -/
def State.nearThrottle (s : State) : Bool := s.anyMax (fun d m => decide (s.threshold d 2 - 80 ≤ m))

/-- Every maximum is below THROTTLE − 5 °C − hysteresis. -/
def State.cool (s : State) : Bool := !s.anyMax (fun d m => decide (s.threshold d 2 - 80 - s.hysteresis d ≤ m))

/-- The sample joins the history, and the sampling mode follows. A stop keeps fast sampling (R333). -/
def State.takeMode (s : State) (stopping : Bool) : State :=
  let fast := s.on thmStatusFast
  let now := (List.range 13).map s.domMax
  let s1 := s.setThm { s.thm with
    history := (now :: (if fast then s.thm.history else [])).take 11, sampled := s.tick }
  let rise := s1.fastRise
  let s2 := if rise then s1.event thmEventFastRise else s1
  if !fast then
    (if s1.nearThrottle || rise || stopping then (s2.wr thmStatusFast 1).setThm { s2.thm with calmSince := none }
     else s2.setThm { s2.thm with lastSlow := now, history := [] })
  else
    let calm := s1.cool && !rise
    let since := if calm then some (s2.thm.calmSince.getD s.tick) else none
    let ended := match since with
      | some t => decide (t + 100 ≤ s.tick) && !stopping
      | none => false
    if ended then (s2.wr thmStatusFast 0).setThm { s2.thm with calmSince := none, lastSlow := now, history := [] }
    else s2.setThm { s2.thm with calmSince := since }

/-! ### Throttling (R329) -/

def pos (i : Int) : Nat := i.toNat

/-- Domains whose heat die `d` answers for: its own, the hub, and the stacks it owns. -/
def dieDomains (d : Nat) : List Nat := [d, 4, 5 + 2 * d, 6 + 2 * d]

/-- A die's excess over the THROTTLE thresholds. -/
def State.excess (s : State) (d : Nat) : Nat :=
  ((dieDomains d).map (fun x => match s.domMax x with
    | some m => pos (m - s.threshold x 2)
    | none => 0)).foldl Nat.max 0

def State.gain (s : State) : Nat := Nat.min 100 (Nat.max 1 (s.rd thmGainG))

/-- 64 · P: P = max(25, 100 − G · e); 25 % for a die held at the floor by a domain without sensors (R325). -/
def State.pct64 (s : State) (d : Nat) : Nat :=
  if (dieDomains d).any (fun x => (s.domMax x).isNone) then 1600 else Nat.max 1600 (6400 - s.gain * s.excess d)

/-- The thermal limit falls at once and rises by at most 25 MHz a sample. -/
def State.takeLimit (s : State) (d : Nat) : State :=
  let p := s.pct64 d
  let want := down25 (21 * p / 64)
  let now := s.thermLimit d
  let l := if want ≤ now then want else Nat.min want (now + 25)
  (s.setThm { s.thm with limit := s.thm.limit.set (fun _ => ratedMhz) d l }).wr (clkPct d) (p / 64)

/-- Dies whose P is below 100. -/
def State.throttledDies (s : State) : List Nat := (List.range 4).filter (fun d => decide (s.pct64 d < 6400))

def State.takeLimits (s : State) : State :=
  let s1 := (List.range 4).foldl (fun t d => t.takeLimit d) s
  (s1.wr thmStatusThrottling (decide (s.throttledDies ≠ [])).toNat).updateClocks

/-! ### History (R344) -/

def clampBin (i : Int) (top : Nat) : Nat := Nat.min top i.toNat

/-- The maximum that a TEMP histogram takes. -/
def State.histTemp (s : State) (h : Nat) : Option Int :=
  if h < 5 then s.domMax h else (s.hottest (List.range 8 |>.map (· + 112))).map s.sensorTemp

def State.accumulate (s : State) (droopMv : Nat) : State :=
  let r := s.openRec
  let temp := (List.range 6).foldl (fun a h => match s.histTemp h with
    | some t => bump a (h * 64 + clampBin (t / 32) 63)
    | none => a) r.temp
  let thr := s.throttledDies.foldl (fun a d => bump a d) r.throttled
  (s.setOpen { r with samples := r.samples + 1, temp := temp, droop := bump r.droop (Nat.min 31 (droopMv / 5)), throttled := thr,
                      thermal := Nat.max r.thermal s.topLevel }).recordTemp

/-! ### Shutdown (R332, R333, Table THM-3) -/

/-- What is left of a domain's way to trip, and its rise, both times the ticks of the rise: the projected time is their quotient.
None for a rate of zero or less, whose projection is unbounded. -/
def State.projection (s : State) (d : Nat) : Option (Int × Int) :=
  match s.domMax d, s.riseOf d with
  | some m, (rise, ticks) =>
    if 0 < rise then some (((if d < 5 then 1920 else s.threshold d 3 + 160) - m) * (ticks : Int), rise) else none
  | none, _ => none

/-- The projection does not exceed `n` beat ticks (R332). -/
def State.tripsWithin (s : State) (d n : Nat) : Bool :=
  match s.projection d with
  | some (way, rise) => decide (way ≤ n * rise)
  | none => false

/-- The projection falls below `n` beat ticks (R333). -/
def State.tripsBefore (s : State) (d n : Nat) : Bool :=
  match s.projection d with
  | some (way, rise) => decide (way < n * rise)
  | none => false

/-- Domains at the SHUTDOWN level. -/
def State.shutDomains (s : State) : List Nat := (List.range 13).filter (fun d => s.levelOf d == 3)

/-- Power is gone: every domain off, and what the switched domains held with it; no reset and no wake goes on. It is no device reset:
channel lists and layouts stay as they are until the next one (R147, R148). Self-test that
had not ended counts as interrupted. -/
def State.powerGone (s : State) : State :=
  let hold := if s.pwr.wake = some .cold ∧ s.pwr.bistHold = 0 then 0xC else s.pwr.bistHold
  let s1 := s.abortBist
  let s2 := ((s1.setPwr { s1.pwr with wake := none, waits := [], bistHold := hold }).setResets []).showReset
  (s2.wr hngStatusRecovering 0).clearDevice 0

/-- STATE ← SHUTDOWN. -/
def State.enterShutdown (s : State) : State :=
  let s1 := (s.wr thmStatusState 2).count thmStatusShutdowns 1
  let s2 := (s1.setThm { s1.thm with stop := 0 }).setPwr { s1.pwr with ready := false }
  (s2.wr sysStatusReady 0).updateFault

/-- The open history record notes the shutdown, and its closing event starts the SHUTDOWN record. -/
def State.closeShutdown (s : State) (immediate : Bool) : State :=
  let r := s.openRec
  (s.setOpen { r with shutdowns := r.shutdowns + 1, immediate := r.immediate || immediate }).closing 3 0 0 0

/-- An immediate cut: one copy of each JOB_FAULT, and every enable low. -/
def State.immediateCut (s : State) : State :=
  let old := s.link.resend
  let s1 := s.declareAll 3 s.jobs'
  let s2 := { s1 with link := { s1.link with resend := old } }.abortChurn
  let s3 := (s2.powerGone.event thmEventImmediate).enterShutdown
  (s3.closeShutdown true).reportDevice 4 (s.shutDomains.headD 0xFF) 3

/-- An orderly stop begins: every job faulted, every partition fenced. -/
def State.beginStop (s : State) : State :=
  let s1 := ((s.wr thmStatusState 1).declareAll 3 s.jobs').abortChurn.abortBist
  let s2 := s1.setThm { s1.thm with stop := 2, stopAt := s1.units + s1.rd hngFenceBudgetPhase }
  (s2.evictHosts s2.parts).reportDevice 3 (s.shutDomains.headD 0xFF) 3

/-- It ends: lists left are answered, traces are stopped and flushed, the record closes, and power goes. -/
def State.endStop (s : State) : State :=
  let s1 := (s.answerFence .device).stopChans
  ((s1.closeShutdown false).powerGone).enterShutdown

/-- What a sample makes of the levels. Nothing more is done once power is off. -/
def State.actThermal (s : State) : State :=
  if s.on thmStatusTripped then s
  else if s.rd thmStatusState = 1 then
    if s.shutDomains.any (fun d => s.tripsBefore d 200) then s.immediateCut
    else if s.slotLists .device = [] ∨ s.thm.stopAt ≤ s.units then s.endStop
    else s
  else if s.shutDomains = [] ∨ (s.rd thmStatusState = 2 ∧ s.pwr.wake ≠ some .resume) then s
  else if s.shutDomains.any (fun d => s.tripsWithin d (Nat.max 1 (s.rd thmStopBudgetBeats))) then s.immediateCut
  else s.beginStop

/-- THERMAL_SAMPLE (R328): every sensor, at its cadence. -/
def execThermalSample (readings : List (Option Int)) (droopMv : Nat) (s : State) : Host.Outcome State Fault Refusal :=
  let period := if s.on thmStatusFast then 10 else 100
  .next (
    if !s.pwr.aon || decide (s.tick < s.thm.sampled + period) then s
    else
      let s1 := (List.range 120).foldl (fun t i => t.takeSensor i (readings.getD i none)) s
      let s2 := (s1.showMaxima.takeMode (s1.rd thmStatusState == 1)).takeLimits
      let s3 := (s2.newFails s).foldl (fun t i => t.reportThermal 6 (sensorDomain i) (t.levelOf (sensorDomain i))
        ((t.domMax (sensorDomain i)).getD 0) i) s2.takeLevels
      let s4 := s3.setThm { s3.thm with highest := Nat.max s3.thm.highest s3.topLevel }
      (s4.accumulate droopMv).actThermal).wrapUp

/-! ### The hardware trip (R334, R335) -/

/-- THERMAL_TRIP: every enable low, THERMTRIP_N low, the first source latched, and the marker in MRAM. It needs AON's power
only. -/
def execThermalTrip (sensor : Nat) (s : State) : Host.Outcome State Fault Refusal :=
  .next (
    if !s.pwr.aon || s.on thmStatusTripped then s
    else
      let s1 := ((s.wr thmStatusTripped 1).wr thmStatusTripSensor sensor).event thmEventTrip
      let s2 := { s1 with mram := { s1.mram with marker := some (sensor, s1.rd evrSeqSeq) } }.wr evrStatusTripMark 1
      let s3 := (s2.emit (.thermTrip true)).powerGone
      (s3.setThm { s3.thm with stop := 0, owed := some sensor }).flushTrip).wrapUp

/-! ### Leaving shutdown (R336) -/

def State.resumeOk (s : State) : Bool :=
  s.rd thmStatusState == 2 && !s.on thmStatusTripped &&
  !s.anyMax (fun d m => decide (s.threshold d 3 - s.hysteresis d ≤ m))

/-- A write of 1 to THM_CTL.RESUME. -/
def State.resume (s : State) (path : Path) : State :=
  if !s.mgmtOrDebug path || !s.pwr.aon then s
  else if !s.resumeOk then s.event thmEventResumeRefused
  else if s.pwr.wake.isSome then s
  else ((s.reportDevice 7 0xFF s.topLevel).beginWake .resume)

/-- THERMAL_RESUME. -/
def execThermalResume (path : Path) (s : State) : Host.Outcome State Fault Refusal := .next (s.resume path).wrapUp

/-! ### Thresholds (R327) -/

/-- The order and limits of Table THM-2. -/
def thresholdsOk (warn throttle shutdown : Nat) : Bool :=
  let ok := fun (lo top : Nat) => decide (40 ≤ bitsOf warn lo 8) && decide (bitsOf warn lo 8 < bitsOf throttle lo 8) &&
    decide (bitsOf throttle lo 8 < bitsOf shutdown lo 8) && decide (bitsOf shutdown lo 8 ≤ top)
  ok 0 115 && ok 8 100

/-- A write of THM_LIMIT_WARN, _THROTTLE or _SHUTDOWN: 0, 1 or 2. -/
def State.writeThreshold (s : State) (path : Path) (reg : Nat) (v : Nat) : State :=
  let cur := fun (n a : Nat) => if reg = n then v else (s.reg a).toNat
  let a := if reg = 0 then thmLimitWarn else if reg = 1 then thmLimitThrottle else thmLimitShutdown
  if !s.mgmtOrDebug path then s
  else if thresholdsOk (cur 0 thmLimitWarn) (cur 1 thmLimitThrottle) (cur 2 thmLimitShutdown) then
    s.setReg a (BitVec.ofNat 32 (v % 65536))
  else s.event thmEventCfgRefused

/-- THRESHOLD_WRITE. -/
def execThresholdWrite (path : Path) (reg : Fin 3) (v : Word32) (s : State) : Host.Outcome State Fault Refusal :=
  .next (s.writeThreshold path reg v.toNat)

end Sys2Proof.Machine
end

