-- ==== Sys2Proof/Machine/Beat.lean ====
section
/-!
DEFINITION. The Beat Unit (R26–R47, 02_the_beat.md). Times of edges are in 1/16 ns of device time, PTP times in ns.
-/
namespace Sys2Proof.Machine

open Reg

def State.setBeat (s : State) (b : BeatSt) : State := { s with beat := b }

/-- STATE: 0 ACQUIRE, 1 LOCKED, 2 HOLDOVER, 3 FREE. -/
def State.beatState (s : State) : Nat := s.rd beatStatusState

def State.locked (s : State) : Bool := s.beatState == 1


/-! ### The BEAT_OUT pin (R31) -/

/-- BEAT_OUT drives the unit's beat: in LOCKED and HOLDOVER, or anywhere with OUT_FREE (R31, log entry 84). -/
def State.drivesOut (s : State) : Bool :=
  s.on beatCtlOutEn && (s.beatState == 1 || s.beatState == 2 || s.on beatCtlOutFree)

/-- A beat not driven is held low; without AON the pin is tri-stated (R31). -/
def State.holdPin (s : State) : State := if s.pwr.aon && !s.drivesOut then s.setPin .low else s

/-- BEAT_OUT rises with the phase wrap; what was high falls before it rises again. -/
def State.risePin (s : State) : State := if s.drivesOut then (s.setPin .low).setPin .high else s.holdPin

/-- BEAT_OUT falls half a period after it rose. -/
def State.fallPin (s : State) : State := if 32768 ≤ s.beat.interp then s.setPin .low else s

/-- A change of state is a device event (R172); a beat that is then no longer driven is held low. -/
def State.setBeatState (s : State) (n : Nat) : State := ((s.wr beatStatusState n).hostEvent s.parts).holdPin

/-! ### The numbers of edges (R35) -/

/-- BEAT_EPOCH in ns. -/
def State.epochNs (s : State) : Nat := 1000000000 * (s.rd beatEpochLoEpochLo + 2 ^ 32 * s.rd beatEpochHiEpochHi)

/-- 65,536 · (t − d − E), in ns. -/
def State.beatTime (s : State) (ptp : Nat) : Int :=
  65536 * ((ptp : Int) - s.epochNs) - 10000 * (s.rd beatCompDelay : Int)

/-- A beat of 10,000 ns in the same unit. -/
def beatNs : Int := 655360000

/-- N = round((t − d − E) / 10,000 ns), and what remains of it. -/
def State.ptpNumber (s : State) (ptp : Nat) : Int × Int :=
  let x := s.beatTime ptp
  let n := (2 * x + beatNs) / (2 * beatNs)
  (n, x - n * beatNs)

/-- The rounded fraction lies within ±0.25 beat. -/
def fractionOk (r : Int) : Bool := decide (-beatNs ≤ 4 * r) && decide (4 * r ≤ beatNs)

/-- NUM_SRC names PTP and the servo is locked. -/
def State.ptpNumbers (s : State) : Bool := decide (s.rd beatCtlNumSrc ≤ 1) && s.on beatStatusPtpLock

/-- A number of 64 bits. A time before BEAT_EPOCH makes N negative, and the spec does not say what the 64-bit count then is:
taking it modulo 2^64 is the model's choice (DESIGN CHOICE, log entry 117). -/
def wrap64 (n : Int) : Nat := (n % 2 ^ 64).toNat

/-- The count of the tick nearest the local mark: the later one at a half. -/
def State.nearest (s : State) : Nat := if s.beat.phase < 32768 then s.beat.num else (s.beat.num + 1) % 2 ^ 64

/-! ### Absolute marks (R28, R45) -/

/-- What waits for an absolute mark (Table BEAT-1): a WAITBEAT, a MARKED collective, a seal, an armed restart, a wheel boundary,
a quota window, a counter sample. -/
inductive MarkUse where
  | wait (r : ListRef)
  | coll (r : ListRef)
  | seal (p : Part) (e : Entry) (slotB : Bool)
  | restart (p : Part) (e : Entry)
  | wheel (p : Part)
  | quota (q : Queue)
  | sample
  deriving DecidableEq, Repr

/-- The marks that a list's current instruction waits for. -/
def listMarks (l : RunList) : List (Nat × MarkUse) :=
  let r : ListRef := ⟨Fin.ofNat 64 l.queue, l.desc⟩
  match l.work with
  | .waitBeat m => [(m.units, .wait r)]
  | .coll c => (c.marked.toList).map (fun m => (m.units, .coll r))
  | _ => []

/-- The marks that a job entry waits for: of its seals, and of its armed restart. -/
def State.jobMarks (s : State) (p : Part) (e : Entry) : List (Nat × MarkUse) :=
  let x := s.job p e
  ([false, true].flatMap (fun b => ((x.seal b).toList.filter (fun y => y.tick.isNone)).map (fun y => (y.mark.units, .seal p e b)))) ++
  (x.armed.toList).map (fun y => (y.2.2 * 65536, .restart p e))

/-- Every absolute mark that something waits for. -/
def State.marks (s : State) : List (Nat × MarkUse) :=
  s.lists.flatMap listMarks ++
  (List.finRange 4).flatMap (fun p : Part => (List.finRange 16).flatMap (fun e : Entry => s.jobMarks p e)) ++
  (List.finRange 4).flatMap (fun p : Part => ((s.wheel p).bounds).map (fun b => (b * 65536, .wheel p))) ++
  (List.finRange 64).map (fun q : Queue => ((s.queue q).winNext * 65536, .quota q)) ++
  (if s.on cntSampleCfgEn && s.on cntSampleCfgMode then [(s.sampleMark * 65536, .sample)] else [])

/-- A mark put in its place among others, in ascending order of target. -/
def insertMark (x : Nat × MarkUse) : List (Nat × MarkUse) → List (Nat × MarkUse)
  | [] => [x]
  | y :: l => if x.1 < y.1 then x :: y :: l else y :: insertMark x l

def sortMarks (l : List (Nat × MarkUse)) : List (Nat × MarkUse) := l.foldl (fun m x => insertMark x m) []

/-- What waits for a mark acts, if it still waits and the local mark has reached it. -/
def State.fire (s : State) : MarkUse → State
  | .wait r => s.releaseWait r
  | .coll r => s.collAtMark r
  | .seal p e b => s.sealAtMark p e b
  | .restart p e => s.restartAtMark p e
  | .wheel p => s.advanceWheel p
  | .quota q => s.startWindow q
  | .sample => s.counterSample

/-- Every pending mark that the local mark has reached fires, in ascending target order (R33, R45). -/
def State.fireMarks (s : State) : State :=
  (sortMarks (s.marks.filter (fun x => decide (x.1 ≤ s.now.units)))).foldl (fun t x => t.fire x.2) s

/-- After a backward jump a queue's next window start is the first after the new mark (R63). -/
def State.rewindWindows (s : State) : State :=
  (List.range 64).foldl (fun t q =>
    let x := t.queue q
    let n := (t.beat.num / Nat.max 1 x.window + 1) * Nat.max 1 x.window
    if n < x.winNext then t.setQueue q { x with winNext := n } else t) s

/-! ### Setting the mark (R33, R45) -/

/-- BEAT-mode channels show beat [63:48] and record its change. -/
def State.traceEpoch (s : State) (old : Nat) : State :=
  let hi := s.beat.num / 2 ^ 48
  if hi = old / 2 ^ 48 then s
  else
    let s1 := s.parts.foldl (fun t p => (List.range 8).foldl (fun u c => u.wr (trcChBeatHiHi p c) hi) t) s
    s1.traceBeat 0x10 hi 0

/-- The local mark moves from one to another: BEAT-mode channels record both; a forward move fires the pending marks up to the
new one, a backward move leaves them their targets. -/
def State.setMark (s : State) (num phase : Nat) : State :=
  let b := s.beat
  let s1 := s.setBeat { b with num := num, phase := phase }
  let s2 := (s1.traceBeat 0x0E (b.num / 2 ^ 48 + 65536 * (num / 2 ^ 48)) (b.num % 2 ^ 48 * 65536 + b.phase)).traceEpoch b.num
  if s.now.units < s1.now.units then s2.fireMarks else s2.rewindWindows

/-- The signed difference of two marks in phase units, as 64 bits. -/
def markDiff (new old : Mark) : Nat := twos 64 ((new.units : Int) - old.units)

/-- Every job with beat-locked work faults: CAUSE 0x04 for BEAT_LOST, 0x05 for a jump (R42, R44, Table JOB-1). -/
def State.faultBeatLocked (s : State) (cause : Nat) : State := s.declareAll cause (s.jobs'.filter s.beatLocked)

/-- A phase correction of `c` units remains, none of it taken up by the current tick (R41). -/
def State.setSlew (s : State) (c : Int) : State :=
  (s.setBeat { s.beat with slew := c, share := 0 }).wr beatStatusSlewing (decide (c ≠ 0)).toNat

/-- A jump (R43, R44): BEAT_JUMP, the event, its report, the marks that it passes, and the fault of beat-locked jobs. -/
def State.jump (s : State) (num phase : Nat) : State :=
  let s1 := (s.wr64 beatJumpLoJumpLo beatJumpHiJumpHi (markDiff ⟨num, phase⟩ s.now)).event beatEventJump
  (((s1.setSlew 0).report 4).setMark num phase).faultBeatLocked 5

/-- A phase correction begins, on top of what remains of one under way (R41). -/
def State.startSlew (s : State) (c : Int) : State := s.setSlew (s.beat.slew + s.beat.share + c)

/-- The candidate (num, DELAY) is compared with the local mark (R43). -/
def State.compare (s : State) (num : Nat) : State :=
  let delay := s.rd beatCompDelay
  let diff : Int := (delay : Int) - s.beat.phase
  let s1 := s.setBeat { s.beat with delayInForce := delay }
  if num = s.beat.num ∧ -8192 ≤ diff ∧ diff ≤ 8192 then s1.setSlew diff else s1.jump num delay

/-- The candidate number of R43 at an edge, and the state in which it has been taken: from PTP, or, without PTP or with an
ambiguous fraction, the local count of the nearest tick. -/
def State.candidate (s : State) (ptp : Nat) : Nat × State :=
  if s.ptpNumbers then
    let (n, r) := s.ptpNumber ptp
    if fractionOk r then (wrap64 n, s.wr beatStatusNumValid 1) else (s.nearest, s.event beatEventAmbig)
  else (s.nearest, s)

/-- The candidate of a return. -/
def State.returnCandidate (s : State) (ptp : Nat) : State := (s.candidate ptp).2.compare (s.candidate ptp).1

/-- A new delay that is too large to slew to: the local mark jumps to R43's candidate mark (R40). -/
def State.delayJump (s : State) (ptp : Nat) : State :=
  (s.candidate ptp).2.jump (s.candidate ptp).1 (s.rd beatCompDelay)

/-- A RENUM at a qualified edge; abandoned when the fraction is ambiguous. -/
def State.renumber (s : State) (ptp : Nat) : State :=
  let s1 := s.setBeat { s.beat with renum := false }
  if s1.ptpNumbers then
    let (n, r) := s1.ptpNumber ptp
    if fractionOk r then (s1.wr beatStatusNumValid 1).compare (wrap64 n) else s1.event beatEventAmbig
  else s1.compare s1.nearest

/-- The number that the first numbering gives, and the state in which it has been taken (R35). Without PTP, and with an ambiguous
fraction, the provisional count goes on. -/
def State.firstNumber (s : State) (ptp : Nat) : Nat × State :=
  if s.ptpNumbers then
    let (n, r) := s.ptpNumber ptp
    if fractionOk r then (wrap64 n, s.wr beatStatusNumValid 1) else (s.beat.num, s.event beatEventAmbig)
  else (s.beat.num, s)

/-- The numbering at the edge that ends ACQUIRE (R33): no jump, but recorded as one. -/
def State.numberAtLock (s : State) (ptp : Nat) : State := (s.firstNumber ptp).2.setMark (s.firstNumber ptp).1 (s.rd beatCompDelay)

/-- A numbering that had to wait for PTP (R35), at a qualified edge: the phase goes on. An ambiguous fraction numbers nothing, and the
next edge tries again. -/
def State.numberLate (s : State) (ptp : Nat) : State :=
  let x := s.firstNumber ptp
  if x.2.on beatStatusNumValid then x.2.setMark x.1 s.beat.phase else x.2

/-! ### Edges (R30, R32, R33) -/

/-- The nominal period, and the tolerance of a run, in 1/16 ns. -/
def nominal : Nat := 160000

def inRun (period : Nat) : Bool := decide (nominal ≤ period + 40) && decide (period ≤ nominal + 40)

/-- The period averaged over the last 256 qualified edges; over those there are before 256 (log entry 81). -/
def State.period (s : State) : Nat :=
  if s.beat.periods = [] then nominal else s.beat.periods.sum / s.beat.periods.length

/-- A window reaches ±0.5 % of the period around the prediction. -/
def State.inWindow (s : State) (t : Nat) : Bool :=
  decide (200 * s.beat.pred ≤ 200 * t + s.period) && decide (200 * t ≤ 200 * s.beat.pred + s.period)

/-- The window around the prediction has closed at `t`. -/
def State.windowOver (s : State) (t : Nat) : Bool := decide (200 * s.beat.pred + s.period < 200 * t)

/-- Periods and prediction follow an edge that the PLL takes. -/
def State.steer (s : State) (t : Nat) (periods : List Nat) : State :=
  let s1 := s.setBeat { s.beat with periods := periods.take 256, lastEdge := some t }
  (s1.setBeat { s1.beat with pred := t + s1.period }).wr beatPeriodPeriod s1.period

/-- BEAT_EDGE_OFS: the mean residual of the last 256 edges in ns. Rule R39 states neither its rounding nor its value before 256 edges
exist: that each residual and the mean are floored to ns, and that the mean is over the edges there are, is the model's choice
(DESIGN CHOICE, log entry 118). -/
def State.residual (s : State) (ptp : Nat) : State :=
  if !s.ptpNumbers then s
  else
    let l := ((s.ptpNumber ptp).2 / 65536 :: s.beat.residuals).take 256
    (s.setBeat { s.beat with residuals := l }).wr beatEdgeOfsOfs (twos 32 (l.sum / (l.length : Int)))

/-- LOCKED is entered at an edge: periods of `n` edges before it, and the phase. -/
def State.lock (s : State) (t ptp : Nat) (periods : List Nat) : State :=
  let s1 := (s.steer t periods).setBeat { (s.steer t periods).beat with run := 0, renum := false }
  if s.beatState = 0 then
    let delay := s1.rd beatCompDelay
    let s2 := s1.setBeat { s1.beat with delayInForce := delay }
    ((s2.numberAtLock ptp).setBeatState 1).event beatEventAcquired
  else
    let s2 := (s1.event beatEventReturn).report 4
    (s2.returnCandidate ptp).setBeatState 1

/-- How far, in phase units, the local mark is ahead of the mark that a qualified edge implies: DELAY less what a slew has still to
correct. Between −32,768 and 32,767. -/
def BeatSt.ahead (b : BeatSt) : Int :=
  ((b.phase : Int) - ((b.delayInForce : Int) - b.slew - b.share) + 32768) % 65536 - 32768

/-- ±5 ns in phase units, rounded down (R39). -/
def lockBound : Int := 32

/-- While LOCKED the PLL holds the local mark within ±5 ns of the compensated edges (R39): at a qualified edge a phase beyond that bound
comes back to it, within the beat that the last tick began (log entry 119). -/
def State.holdPhase (s : State) : State :=
  let a := s.beat.ahead
  let p : Int := (s.beat.phase : Int) - a + max (-lockBound) (min lockBound a)
  s.setBeat { s.beat with phase := (max 0 (min 65535 p)).toNat }

/-- A qualified edge while LOCKED (R35, R39, R40, R43). -/
def State.qualified (s : State) (t ptp : Nat) : State :=
  let s1 := ((s.steer t ((t - s.beat.lastEdge.getD t) :: s.beat.periods)).holdPhase).residual ptp
  let delay := s1.rd beatCompDelay
  let diff : Int := (delay : Int) - s1.beat.delayInForce
  let s2 :=
    if diff = 0 then s1
    else
      let u := s1.setBeat { s1.beat with delayInForce := delay }
      if -8192 ≤ diff ∧ diff ≤ 8192 then u.startSlew diff else u.delayJump ptp
  let s3 := if s2.beat.renum then s2.renumber ptp else s2
  if !s3.on beatStatusNumValid && s3.ptpNumbers then s3.numberLate ptp else s3

/-- HOLDOVER begins; a run starts from the next edge. -/
def State.enterHoldover (s : State) : State :=
  ((s.setBeat { s.beat with run := 0, lastEdge := none, renum := false }).wr beatStatusHoldCount 0).setBeatState 2

/-- A window has closed without a qualified edge (R42). -/
def State.loseBeat (s : State) : State := ((s.enterHoldover).event beatEventLoss).report 4

/-- An edge counts toward the run (R33); its 16th locks the unit. -/
def State.runEdge (s : State) (t ptp : Nat) : State :=
  let b := s.beat
  let n := match b.lastEdge with
    | some l => if inRun (t - l) ∧ b.run ≠ 0 then b.run + 1 else 1
    | none => 1
  let first := if n = 1 then t else b.runFirst
  let s1 := s.setBeat { b with run := n, runFirst := first, lastEdge := some t }
  if n < 16 then s1 else s1.lock t ptp (List.replicate 15 ((t - first) / 15))

/-- BEAT_REF_EDGE (R32, R33): an edge of BEAT_REF, while it is the selected source. -/
def execBeatRefEdge (t ptp : Nat) (s : State) : Host.Outcome State Fault Refusal :=
  .next (
    if !s.pwr.aon || s.on beatCtlSrc then s
    else if !s.locked then s.runEdge t ptp
    else if s.inWindow t then s.qualified t ptp
    else if s.windowOver t then s.loseBeat.runEdge t ptp
    else s.event beatEventGlitch).wrapUp

/-- BEAT_DERIVED_EDGE (R30, R47): SYS_OSC divided by 250 locks the unit at its first edge. No period has been measured then, and R30 gives
none: BEAT_PERIOD takes the nominal period, the model's choice (DESIGN CHOICE, log entry 83). -/
def execBeatDerivedEdge (t ptp : Nat) (s : State) : Host.Outcome State Fault Refusal :=
  .next (
    if !s.pwr.aon || !s.on beatCtlSrc then s
    else if s.locked then s.qualified t ptp
    else s.lock t ptp [nominal]).wrapUp

/-! ### Loss (R42) -/

/-- BEAT_LOSS: the window has closed. -/
def execBeatLoss (t : Nat) (s : State) : Host.Outcome State Fault Refusal :=
  .next (if s.pwr.aon && s.locked && !s.on beatCtlSrc && s.windowOver t then s.loseBeat else s)

/-- BEAT_LOST: 10,000 ticks of holdover. -/
def execBeatLost (s : State) : Host.Outcome State Fault Refusal :=
  .next (
    if s.beatState = 2 ∧ s.rd beatStatusHoldCount = 10000 then
      ((((s.setBeatState 3).event beatEventLost).report 4).faultBeatLocked 4)
    else s).wrapUp

/-! ### The tick (R26, R31, R41, R42) -/

/-- The share of a slew that one beat tick applies. -/
def slewShare (c : Int) : Int := max (-256) (min 256 c)

/-- The phase wraps, the number rises, and the next share of a slew is due. -/
def State.nextBeat (s : State) : State :=
  let b := s.beat
  let c := slewShare b.slew
  let s1 := s.setBeat { b with num := (b.num + 1) % 2 ^ 64, phase := 0, ticks := b.ticks + 1, interp := 0, slew := b.slew - c, share := c }
  (s1.wr beatStatusSlewing (decide (b.slew ≠ 0)).toNat).traceEpoch b.num

/-- HOLD_COUNT counts the ticks of a holdover. -/
def State.holdTick (s : State) : State :=
  if s.beatState = 2 then
    let n := Nat.min 10000 (s.rd beatStatusHoldCount + 1)
    ((s.wr beatStatusHoldCount n).wr beatHoldMaxMax (Nat.max n (s.rd beatHoldMaxMax))).recordHold
  else s

/-- Dies whose thermal P is below 100 count the tick (Table TRC-3, code 0x10). -/
def State.throttleTick (s : State) : State :=
  ((List.range 4).filter (fun d => decide (s.rd (clkPct d) < 100))).foldl (fun t d => t.countEs d 0x10 none 1) s

/-- The trace channels of present partitions write out what they hold (R416; the spec gives no other time for it). -/
def State.traceTick (s : State) : State :=
  s.presentParts.foldl (fun t p => (List.range 8).foldl (fun u c =>
    if (u.traceCh p c).buffer = [] then u else u.traceFlush p c) t) s

/-- BEAT_TICK, with the memory errors that have struck and the frames of the management network that have come since the last. -/
def execBeatTick (ecc : List EccEvent) (net : List NetFrame) (s : State) : Host.Outcome State Fault Refusal :=
  let s1 := (s.strike ecc).netRxAll net
  .next (if s.pwr.aon then (((s1.nextBeat.holdTick).throttleTick).traceTick).risePin.wrapUp else s1)

/-- One phase unit of time: the interpolator moves on, and the phase with it as a slew allows, up to the end of the tick, where
they wait for BEAT_TICK (R28, R41; log entry 8). Before AON is up, nothing moves. -/
def State.advanceUnit (s : State) : State :=
  let b := s.beat
  let (step, share) := if b.share = 0 then (1, b.share) else if 0 < b.share then (2, b.share - 1) else (0, b.share + 1)
  if s.pwr.aon then
    let s1 := s.setBeat
      { b with phase := Nat.min 0xFFFF (b.phase + step), interp := Nat.min 0xFFFF (b.interp + 1), share := share }
    (if b.share = 0 then s1 else s1.wr beatStatusSlewing (decide (b.slew + share ≠ 0)).toNat).fallPin
  else s

/-! ### Registers (R40, R43, R46, R47) -/

/-- The PTP servo starts anew, without a master. -/
def State.restartPtp (s : State) : State :=
  (s.setBeat { s.beat with ptpRun := 0, ptpMaster := none, ptpAwait := none, ptpAsked := false }).wr beatStatusPtpLock 0

/-- A write of BEAT_CTL (R47). A new source, or a new source of numbers, is a holdover; outside LOCKED a new source restarts the run, and
a new source of numbers leaves it. A new source of numbers restarts the PTP servo. -/
def State.writeBeatCtl (s : State) (path : Path) (v : Nat) : State :=
  let src := bitsOf v 1 1
  let num := bitsOf v 4 2
  if !s.mgmtOrDebug path || !s.pwr.aon then s
  else
    let newSrc := src ≠ s.rd beatCtlSrc
    let newNum := num ≠ s.rd beatCtlNumSrc
    let s1 := (((s.wr beatCtlSrc src).wr beatCtlNumSrc num).wr beatCtlOutEn (bitsOf v 7 1)).wr beatCtlOutFree (bitsOf v 8 1)
    let s2 := if newNum then s1.restartPtp else s1
    let s3 :=
      if !newSrc ∧ !newNum then s2
      else if s2.beatState = 1 then s2.enterHoldover
      else if newSrc then s2.setBeat { s2.beat with run := 0, lastEdge := none }
      else s2
    let s4 := if bitsOf v 9 1 = 1 ∧ s3.locked then s3.setBeat { s3.beat with renum := true } else s3
    s4.holdPin

/-- RENUM: BEAT_CTL written with RENUM = 1. -/
def execRenum (path : Path) (s : State) : Host.Outcome State Fault Refusal :=
  .next (s.writeBeatCtl path (setBits (s.reg beatCtl).toNat 9 1 1))

/-- BEAT_SOURCE_CHANGE: a write of BEAT_CTL. -/
def execBeatSourceChange (path : Path) (v : Word32) (s : State) : Host.Outcome State Fault Refusal :=
  .next (s.writeBeatCtl path v.toNat)

/-- BEAT_COMP_WRITE: it takes effect at the next qualified edge. -/
def State.writeBeatComp (s : State) (path : Path) (v : Nat) : State :=
  if s.mgmtOrDebug path && s.pwr.aon then s.wr beatCompDelay v else s

def execBeatCompWrite (path : Path) (v : Word32) (s : State) : Host.Outcome State Fault Refusal :=
  .next (s.writeBeatComp path v.toNat)

/-! ### The slip check (R37) -/

/-- SLIP_CHECK: `ptp` is the PTP time of this beat's qualified edge. -/
def execSlipCheck (ptp : Nat) (s : State) : Host.Outcome State Fault Refusal :=
  let (n, r) := s.ptpNumber ptp
  .next (
    if !s.locked || !s.on beatStatusPtpLock || s.beat.num % 65536 != 0 || s.beat.phase != 0 then s
    else if !fractionOk r then s.event beatEventAmbig
    else
      let s1 := s.wr beatSlipDiffDiff (twos 32 (n - s.beat.num))
      if n = s.beat.num then s1 else s1.event beatEventSlip)

/-! ### PTP (R34, Table BEAT-2) -/

/-- The message comes on the port that NUM_SRC names, in its transport and in the configured domain. -/
def State.ptpHears (s : State) (src : PtpSource) : Bool :=
  s.pwr.aon && src.domain == s.rd beatPtpDomain && (match src.port with
    | .management v6 => s.rd beatCtlNumSrc == 0 && v6 == s.on beatPtpIp6
    | .fp00 => s.rd beatCtlNumSrc == 1 && s.portUp 0)

/-- Beat ticks after which a master that sends no Announce is given up: three announce intervals of 2 s, as the default profile of
IEEE 1588-2019 has them (PRESUMED, log entry 120). -/
def announceTimeout : Nat := 600000

/-- The chosen master, while its Announces come. -/
def State.master (s : State) : Option (PtpSource × PtpAnnounce) :=
  if s.tick < s.beat.ptpHeard + announceTimeout then s.beat.ptpMaster else none

/-- It is the chosen master's. -/
def State.fromMaster (s : State) (src : PtpSource) : Bool :=
  s.ptpHears src && (match s.master with
    | some m => m.1 == src
    | none => false)

/-- The servo takes a Sync's time `diff`, received less sent in ns: less the path delay, filtered (R34). PTP_LOCK stands for 16 in a
row within ±1 µs. -/
def State.servo (s : State) (diff : Int) : State :=
  let o := Config.ptpFilter s.beat.ptpOffset (diff - s.beat.ptpDelay)
  let n := if -1000 ≤ o ∧ o ≤ 1000 then Nat.min 16 (s.beat.ptpRun + 1) else 0
  (s.setBeat { s.beat with ptpRun := n, ptpAwait := none, ptpOffset := o }).wr beatStatusPtpLock (decide (n = 16)).toNat

/-- After a Sync the device asks for the path delay, unless it still waits for an answer (delay request-response, Table BEAT-2; when a
request goes out is the model's choice, log entry 120). -/
def State.askDelay (s : State) (src : PtpSource) : State :=
  if s.beat.ptpAsked then s else (s.setBeat { s.beat with ptpAsked := true }).emit (.delayReq src.port src.domain)

/-- PTP_SYNC_RX. The time of a two-step Sync comes with its Follow_Up. -/
def execPtpSyncRx (src : PtpSource) (intervalLog : Int) (twoStep : Bool) (diff : Int) (s : State) :
    Host.Outcome State Fault Refusal :=
  .next (
    if !s.fromMaster src || decide (intervalLog < -4) || decide (1 < intervalLog) then s
    else if twoStep then s.setBeat { s.beat with ptpAwait := some src }
    else (s.servo diff).askDelay src)

/-- PTP_FOLLOW_UP_RX. -/
def execPtpFollowUpRx (src : PtpSource) (diff : Int) (s : State) : Host.Outcome State Fault Refusal :=
  .next (if s.fromMaster src && s.beat.ptpAwait == some src then (s.servo diff).askDelay src else s)

/-- PTP_DELAY_RESP_RX: the answer to the device's own request. -/
def execPtpDelayRespRx (src : PtpSource) (delay : Nat) (s : State) : Host.Outcome State Fault Refusal :=
  .next (
    if s.fromMaster src && s.beat.ptpAsked then s.setBeat { s.beat with ptpDelay := delay, ptpAsked := false } else s)

def lexLt : List Nat → List Nat → Bool
  | a :: as, b :: bs => decide (a < b) || (a == b && lexLt as bs)
  | _, _ => false

/-- The default profile's comparison of data sets: of two ports that offer one grandmaster the nearer is the better one; else the
grandmasters' attributes decide. -/
def betterMaster (a b : PtpSource × PtpAnnounce) : Bool :=
  if a.2.grandmaster = b.2.grandmaster then
    lexLt [a.2.stepsRemoved, a.1.master.toNat] [b.2.stepsRemoved, b.1.master.toNat]
  else
    let key (x : PtpAnnounce) : List Nat :=
      [x.priority1, x.clockClass, x.accuracy, x.variance, x.priority2, x.grandmaster.toNat]
    lexLt (key a.2) (key b.2)

/-- PTP_ANNOUNCE_RX: the better of the chosen master and the sender; a new master starts the servo anew. -/
def execPtpAnnounceRx (src : PtpSource) (ann : PtpAnnounce) (s : State) : Host.Outcome State Fault Refusal :=
  .next (
    if !s.ptpHears src then s
    else
      let b := { s.beat with ptpMaster := some (src, ann), ptpHeard := s.tick }
      if s.fromMaster src then s.setBeat b
      else if s.master.all (fun m => betterMaster (src, ann) m) then s.restartPtp.setBeat { b with ptpRun := 0, ptpAwait := none, ptpAsked := false }
      else s)

end Sys2Proof.Machine
end

