-- ==== Sys2Proof/Machine/ClaCommands.lean ====
section
/-!
DEFINITION. Commands of the configuration engine, the regions, taps and NoC ports (R361–R388; 17_configurable_logic_array.md).
-/
namespace Sys2Proof.Machine

open Reg

/-- CLA_SYNC: a stream begins on an engine that is free. -/
def execClaSync (src : ClaSrc) (s : State) : Host.Outcome State Fault Refusal :=
  .next (
    if s.cla.stream.isSome || !s.domOn 11 then s
    else match src with
      | .full => if s.cla.loading then s.showStream (fresh .full 0) else s
      | .icp => if s.on claStatusLoaded then s.showStream (fresh .icp 0) else s
      | .ext =>
        if !s.on claExtStatusBusy then s
        else
          let full := s.on claExtCtlFull
          let r := s.rd claExtCtlRegion
          let x := fresh (.ext full r) (s.extSync full r)
          if full then (s.blankCla.startDriving).showStream x else s.showStream x).wrapUp

/-- CLA_IDLE. -/
def execClaIdle (src : ClaSrc) (hdr : Word32) (s : State) : Host.Outcome State Fault Refusal :=
  .next (s.packet src 0 (some hdr) [] (fun t x => t.showStream x)).wrapUp

/-- CLA_FRAME_PTR (R370). -/
def execClaFramePtr (src : ClaSrc) (hdr : Word32) (w : Word32) (s : State) : Host.Outcome State Fault Refusal :=
  .next (s.packet src 0x21 (some hdr) [w] (fun t x =>
    let col := bitsOf w.toNat 6 9
    let minor := bitsOf w.toNat 0 6
    if bitsOf w.toNat 15 17 ≠ 0 then t.streamError x 2
    else if x.badFrame col minor then t.streamError x 6
    else t.showStream { x with column := col, minor := minor })).wrapUp

/-- CLA_FRAME_DATA (R370). -/
def execClaFrameData (src : ClaSrc) (hdr : Word32) (words : List Word32) (s : State) : Host.Outcome State Fault Refusal :=
  .next (s.packet src 0x22 (some hdr) words (fun t x =>
    if !x.idOk || !x.armed then t.streamError x 4
    else if bitsOf hdr.toNat 0 20 % 96 ≠ 0 then t.streamError x 5
    else t.writeFrames x (chunk 96 (words.length / 96) words))).wrapUp

/-- CLA_SCOPE (R372, R379): the regions of the scope are isolated and load. -/
def execClaScope (src : ClaSrc) (hdr : Word32) (w : Word32) (s : State) : Host.Outcome State Fault Refusal :=
  let scope := if w.getLsbD 16 then some (bitsOf w.toNat 0 3) else none
  .next (s.packet src 0x24 (some hdr) [w] (fun t x =>
    if bitsOf w.toNat 3 13 ≠ 0 ∨ bitsOf w.toNat 17 15 ≠ 0 then t.streamError x 2
    else if !x.scopeOk scope then t.streamError x 7
    else
      let y := { x with scope := some scope, written := [] }
      let t1 := t.setRegions y.regions 1
      (if scope = none then (t1.wr claStatusLoaded 0).wr claStatusGo 0 else t1).showStream y)).wrapUp

/-- CLA_DEVICE_ID. -/
def execClaDeviceId (src : ClaSrc) (hdr : Word32) (w : Word32) (s : State) : Host.Outcome State Fault Refusal :=
  .next (s.packet src 0x26 (some hdr) [w] (fun t x =>
    if w = 0x0CA10D10#32 then t.showStream { x with idOk := true } else t.streamError x 3)).wrapUp

/-- CLA_CHECK (R371): the two words are compared with the check of the words before the packet. -/
def execClaCheck (src : ClaSrc) (hdr : Word32) (words : List Word32) (s : State) : Host.Outcome State Fault Refusal :=
  .next (s.packet src 0x27 (some hdr) words (fun t x =>
    match s.cla.stream with
    | none => t
    | some before =>
      let want := (words.getD 0 0).toNat + 2 ^ 32 * (words.getD 1 0).toNat
      if bitsOf hdr.toNat 0 20 ≠ 2 then t.streamError x 2
      else if (~~~ before.crc).toNat = want then t.showStream { x with checkOk := true }
      else t.streamError x 8)).wrapUp

/-- CLA_ACTION_NONE; any code that Table CLA-5 does not list is a stream error. -/
def execClaActionNone (src : ClaSrc) (hdr : Option Word32) (w : Word32) (s : State) : Host.Outcome State Fault Refusal :=
  .next (s.packet src 0x23 hdr [w] (fun t x => if w = 0 then t.showStream x else t.streamError x 0xB)).wrapUp

/-- CLA_CLEAR_CHECK. -/
def execClaClearCheck (src : ClaSrc) (hdr : Option Word32) (s : State) : Host.Outcome State Fault Refusal :=
  .next (s.packet src 0x23 hdr [1] (fun t x => t.showStream { x with crc := crcInit })).wrapUp

/-- CLA_ARM. -/
def execClaArm (src : ClaSrc) (hdr : Option Word32) (s : State) : Host.Outcome State Fault Refusal :=
  .next (s.packet src 0x23 hdr [2] (fun t x => t.showStream { x with armed := true })).wrapUp

/-- CLA_COMMIT. -/
def execClaCommit (src : ClaSrc) (hdr : Option Word32) (s : State) : Host.Outcome State Fault Refusal :=
  .next (s.packet src 0x23 hdr [3] (fun t x => t.commitStream x)).wrapUp

/-- CLA_END. -/
def execClaEnd (src : ClaSrc) (hdr : Option Word32) (s : State) : Host.Outcome State Fault Refusal :=
  .next (s.packet src 0x23 hdr [4] (fun t x => t.endStream x 0)).wrapUp

/-- CLA_STREAM_SOURCE_END (R373): the source ends before END. -/
def execClaStreamSourceEnd (src : ClaSrc) (s : State) : Host.Outcome State Fault Refusal :=
  .next (
    match s.cla.stream with
    | some x => if x.isFrom src then s.streamError x 9 else s
    | none =>
      if src = ClaSrc.ext ∧ s.on claExtStatusBusy then
        (((((s.wr claExtStatusBusy 0).wr claExtStatusResult 9).wr claStatusErr 9).wr claCfgStatErr 9).event claEventStreamErr).claEventMsg
          2 (if s.on claExtCtlFull then 0xFF else s.rd claExtCtlRegion) 9 0
      else s).wrapUp

/-- CLA_ICP_RELEASE (R381). -/
def execClaIcpRelease (r : Region) (s : State) : Host.Outcome State Fault Refusal :=
  let go := s.on claStatusGo
  .next (
    if !s.on claStatusLoaded then s
    else if s.regionState r = 2 ∧ go then (s.releaseRegion r).emit (.icpAck r 0)
    else if s.regionState r = 4 ∧ s.cla.crcFailed.testBit r then
      ((s.event claEventBadCrc).claEventMsg 4 r 8 0).emit (.icpAck r 1)
    else if s.regionState r = 2 then s.emit (.icpAck r 3)
    else s.emit (.icpAck r 2)).wrapUp

/-- CLA_REGION_HOLD, CLA_REGION_UNHOLD (R382). -/
def execClaRegionHold (path : Path) (r : Region) (s : State) : Host.Outcome State Fault Refusal :=
  .next (if s.holdPath path r then s.holdRegion r else s).wrapUp

def execClaRegionUnhold (path : Path) (r : Region) (s : State) : Host.Outcome State Fault Refusal :=
  .next (if s.holdPath path r then s.unholdRegion r else s).wrapUp

/-- CFG_DONE_HIGH (R384): the line has read high for 1 µs. -/
def execCfgDoneHigh (s : State) : Host.Outcome State Fault Refusal :=
  .next (
    if !s.pwr.aon || s.on claStatusDriving then s
    else
      let s1 := s.wr claStatusLine 1
      { s1 with cla := { s1.cla with droveUntil := none } }.tryGo).wrapUp

/-- GO_LOCAL (R385). -/
def execGoLocal (path : Path) (s : State) : Host.Outcome State Fault Refusal :=
  .next (if s.mgmtOrDebug path && s.on claStatusLoaded then s.giveGo else s).wrapUp

/-- CLA_FRAME_SCAN: one frame is checked. -/
def execClaFrameScan (outcome : EccOutcome) (s : State) : Host.Outcome State Fault Refusal :=
  let f := s.cla.scan
  let s0 := { s with cla := { s.cla with scan := (f + 1) % 10880 } }
  let bad := fun (t : State) (unit : Nat) =>
    ((t.count claScrubUe 1).event claEventFrameUe).claEventMsg 5 unit 0 0
  .next (
    if !s.domOn 11 then s
    else match outcome with
      | .clean => s0
      | .corrected => s0.count claScrubCe 1
      | .uncorrectable =>
        match frameRegion f with
        | some r => bad (s0.setRegion r 4) r
        | none =>
          let s1 := ((List.range 8).filter (fun r => s0.regionRunning r)).foldl (fun t r => t.setRegion r 5) s0
          bad ((s1.wr claStatusGo 0).wr claStatusLoaded 0) 0xFF).wrapUp

/-- CLA_NOC_INITIATOR_REQUEST. -/
def execClaNocInitiatorRequest (addr : Word64) (r : NocReq) (s : State) : Host.Outcome State Fault Refusal :=
  .next (
    if !s.on claNocCfgEn || !s.shellUp then s
    else match r with
      | .read n => s.nocRead addr.toNat n
      | .write bs => s.nocWrite addr.toNat bs).wrapUp

/-- CLA_TAP_DATA: a RUNNING region accepts up to `accepted` bytes, or offers bytes; the TAP advances, and ends once all of
its bytes have passed. -/
def execClaTapData (r : Region) (accepted : Nat) (offered : List Byte) (s : State) : Host.Outcome State Fault Refusal :=
  .next (
    match s.tapList r with
    | some l =>
      match l.work, l.word with
      | .tap k moved, some w =>
        if !s.regionRunning r then s
        else if bitsOf w.toNat 8 1 = 0 then (s.tapOut l w.toNat k moved (Nat.min accepted (l.total - moved))).advance
        else (s.tapIn l w.toNat k moved (offered.take (l.total - moved))).advance
      | _, _ => s
    | none => s).wrapUp

end Sys2Proof.Machine
end

