-- ==== Sys2Proof/Machine/Trace.lean ====
section
/-!
DEFINITION. Commands on trace channels and performance counters (R414–R425, 19_trace_counters_and_debug.md).
-/
namespace Sys2Proof.Machine

open Reg

/-! ### Channels (R414, R418) -/

/-- The trace carve-out of a partition in bytes (R148). -/
def State.traceBytesOf (s : State) (p : Nat) : Nat := (s.granules p - s.traceOf p) * 4096

/-- A channel's area, in bytes from the start of the carve-out. -/
def State.chanArea (s : State) (p c : Nat) : Nat × Nat := (s.rd (trcChBaseBase p c) * 65536, s.rd (trcChSizeSize p c) * 65536)

/-- The area is empty, extends beyond the carve-out, or overlaps that of another enabled channel. -/
def State.badArea (s : State) (p c : Nat) : Bool :=
  let (a, n) := s.chanArea p c
  n == 0 || decide (s.traceBytesOf p < a + n) ||
  (List.range 8).any (fun x => x != c && s.on (trcChCtlEn p x) &&
    decide (a < (s.chanArea p x).1 + (s.chanArea p x).2) && decide ((s.chanArea p x).1 < a + n))

/-- The fields of TRC_CH_CTL that an enabled channel locks. -/
def State.writeChanCtl (s : State) (p c v : Nat) : State :=
  ((s.wr (trcChCtlMode p c) (bitsOf v 30 1)).wr (trcChCtlWrap p c) (bitsOf v 29 1)).wr (trcChCtlSrc p c) (bitsOf v 0 13)

/-- A channel starts at the head of its area; a BEAT channel records beat [63:48]. -/
def State.startChan (s : State) (p c : Nat) : State :=
  let s1 := ((((s.wr (trcChCtlEn p c) 1).wr (trcChWptrIndex p c) 0).wr (trcChStatusWrapped p c) 0).wr (trcChStatusFull p c) 0).wr
    (trcChStatusStopped p c) 0
  let hi := s1.beat.num / 2 ^ 48
  let s2 := (s1.setTraceCh p c TraceSt.reset).wr (trcChBeatHiHi p c) hi
  if s2.on (trcChCtlMode p c) then s2 else s2.tracePush p c 0x10 0 hi 0 0

/-- A write of TRC_CH_CTL with EN = 1. -/
def State.enableChan (s : State) (path : Path) (p c v : Nat) : State :=
  if !s.ownsPart path p || s.on (trcChCtlEn p c) then s
  else if s.badArea p c then s.wr (trcChStatusCfgErr p c) 1
  else ((s.traceFlush p c).writeChanCtl p c v).startChan p c

/-- One with EN = 0. -/
def State.disableChan (s : State) (path : Path) (p c v : Nat) : State :=
  if !s.ownsPart path p then s
  else if s.on (trcChCtlEn p c) then s.closeChan p c
  else s.writeChanCtl p c v

/-- TRACE_CHANNEL_ENABLE. -/
def execTraceChannelEnable (path : Path) (p : Part) (c : Chan) (v : Word32) (s : State) : Host.Outcome State Fault Refusal :=
  .next (s.enableChan path p c v.toNat).wrapUp

/-- TRACE_CHANNEL_DISABLE. -/
def execTraceChannelDisable (path : Path) (p : Part) (c : Chan) (v : Word32) (s : State) : Host.Outcome State Fault Refusal :=
  .next (s.disableChan path p c v.toNat)

/-- TRACE_CHANNEL_STOPPED. -/
def execTraceChannelStopped (p : Part) (c : Chan) (s : State) : Host.Outcome State Fault Refusal := .next (s.stopChan p c).wrapUp

/-! ### Draining (R422) -/

def State.drainDst (s : State) (p : Nat) : Nat := s.rd (trcDrainDstLoAddr p) * 64 + 2 ^ 32 * s.rd (trcDrainDstHiAddr p)

/-- The range lies in the carve-out, and the destination in space 0x0 below HBM_PART_LIMIT or in space 0x2. -/
def State.drainOk (s : State) (p : Nat) : Bool :=
  let n := s.rd (trcDrainLenLen p) * 64
  let d := s.drainDst p
  decide (s.rd (trcDrainSrcOfs p) * 64 + n ≤ s.traceBytesOf p) &&
  ((d / 2 ^ 60 == 0 && decide (d + n ≤ s.limitOf p * 4096)) || (d / 2 ^ 60 == 2 && decide (d % 2 ^ 60 + n ≤ 2 ^ 60)))

/-- A write of TRC_DRAIN_CTL.GO. -/
def State.startDrain (s : State) (path : Path) (p : Nat) : State :=
  if !s.ownsPart path p || s.on (trcDrainStatusBusy p) then s
  else if s.drainOk p then s.wr (trcDrainStatusBusy p) 1
  else s.wr (trcDrainStatusResult p) 1

/-- TRACE_DRAIN. -/
def execTraceDrain (path : Path) (p : Part) (s : State) : Host.Outcome State Fault Refusal := .next (s.startDrain path p)

/-- A line that the drain has read goes to its destination as it stands, a poisoned one poisoned. -/
def State.drainTo (s : State) (p dst : Nat) : Option (List Byte × List Nat) → State × Bool
  | some (bs, fs) => (s.storeTagged (tagOf 0 0 0xFFFFF 0xB 0 3 p) (fs != []) dst bs, fs != [])
  | none => (s, false)

/-- One line is copied, under the tags of R422. -/
def State.drainLine (s : State) (p i : Nat) : State × Bool :=
  let a := s.traceOf p * 4096 + s.rd (trcDrainSrcOfs p) * 64 + 64 * i
  let tag := tagOf 0 0 0xFFFFF 0xB 0 0 p
  (s.touchTagged tag none a 64).drainTo p (s.drainDst p + 64 * i) (s.readTagged tag a 64)

/-- TRACE_DRAIN_DONE. -/
def execTraceDrainDone (p : Part) (s : State) : Host.Outcome State Fault Refusal :=
  .next (
    if !s.on (trcDrainStatusBusy p) then s
    else
      let (s1, bad) := (List.range (s.rd (trcDrainLenLen p))).foldl (fun (t : State × Bool) i =>
        ((t.1.drainLine p i).1, t.2 || (t.1.drainLine p i).2)) (s, false)
      (s1.wr (trcDrainStatusBusy p) 0).wr (trcDrainStatusResult p) (if bad then 2 else 0)).wrapUp

/-! ### Counters (R423, R425) -/

/-- The dies a path may name in CNT_CTL: its function's own, or all. -/
def State.cntDies (s : State) (path : Path) : List Nat :=
  match path with
  | .pf f => if s.presented f then (List.range 4).filter (fun d => f.val == 0 || s.partOfDie d == f.val) else []
  | .mgmt => List.range 4
  | .mctp => []
  | .debug => if s.unlocked then List.range 4 else []

/-- A write of CNT_CTL. -/
def State.writeCntCtl (s : State) (path : Path) (v : Nat) : State :=
  let ds := s.cntDies path
  let s1 := ds.foldl (fun t d => t.wrBit cntCtlFreeze d (v.testBit d)) (s.advAt cntCtl)
  (ds.filter (fun d => v.testBit (4 + d))).foldl (fun t d => t.zeroCounters d) s1

/-- COUNTER_CLEAR. -/
def execCounterClear (path : Path) (v : Word32) (s : State) : Host.Outcome State Fault Refusal :=
  .next (s.writeCntCtl path v.toNat)

/-- COUNTER_SAMPLE. -/
def execCounterSample (s : State) : Host.Outcome State Fault Refusal := .next s.counterSample

end Sys2Proof.Machine
end

