-- ==== Sys2Proof/Machine/Debug.lean ====
section
/-!
DEFINITION. Debug unlock, core halts and the TAP (R427–R434, 19_trace_counters_and_debug.md).
-/
namespace Sys2Proof.Machine

open Reg

def State.setDbg (s : State) (d : DbgSt) : State := { s with dbg := d }

/-- The management EVENT of debug access (R429). -/
def State.reportDebug (s : State) (kind level core : Nat) : State :=
  s.sendEvent ([0x0F] ++ leBytes 1 kind ++ leBytes 1 level ++ leBytes 1 core ++ leBytes 4 (s.rd dbgStatusFails) ++
    leBytes 8 s.beat.num)

/-! ### Unlock (R427–R429) -/

/-- A write of DBG_SCOPE: LEVEL 1 or 2 draws a fresh nonce; any earlier one is invalid, also after a write of another LEVEL, for which the
spec states nothing (DESIGN CHOICE, log entry 137). -/
def State.writeScope (s : State) (v : Nat) : State :=
  let level := v % 4
  let s1 := (s.wr dbgScopeLevel level).setDbg { s.dbg with nonceOk := level == 1 || level == 2 }
  if level = 1 ∨ level = 2 then
    let (a, s2) := s1.draw
    let (b, s3) := s2.draw
    (((s3.wr (dbgChalNonce 0) (a.toNat % 2 ^ 32)).wr (dbgChalNonce 1) (a.toNat / 2 ^ 32)).wr (dbgChalNonce 2)
      (b.toNat % 2 ^ 32)).wr (dbgChalNonce 3) (b.toNat / 2 ^ 32)
  else s1

/-- DEBUG_CHALLENGE: from a JTAG session. -/
def execDebugChallenge (v : Word32) (s : State) : Host.Outcome State Fault Refusal :=
  .next (if s.pwr.aon then s.writeScope v.toNat else s)

/-- The debug token of a level (R428). -/
def debugToken (level : Nat) : List Byte :=
  (hmac384 Config.debugKey ("KD1T".toUTF8.toList.map (fun c => BitVec.ofNat 8 c.toNat) ++ leBytes 8 Config.serial.toNat ++ leBytes 1 level)).take 16

/-- The response that opens a level under the nonce. -/
def State.wantedResponse (s : State) (level : Nat) : List Byte :=
  (hmac384 (debugToken level) ((List.range 4).flatMap (fun i => leBytes 4 (s.rd (dbgChalNonce i))) ++
    leBytes 8 Config.serial.toNat ++ leBytes 1 level)).take 16

/-- The response that DBG_RESP holds. -/
def State.response (s : State) : List Byte := (List.range 4).flatMap (fun i => leBytes 4 (s.dbg.resp.get (fun _ => 0) i).toNat)

/-- A word of DBG_RESP is written. -/
def State.putResponse (s : State) (i : Nat) (w : Word32) : State := s.setDbg { s.dbg with resp := s.dbg.resp.set (fun _ => 0) i w }

/-- The check of the response; `ok`: it is the one the token gives for the nonce. -/
def State.checkResponse (s : State) (ok : Bool) : State :=
  if s.on dbgStatusLockout || s.on dbgCfgDisable then s
  else
    let s1 := s.setDbg { s.dbg with nonceOk := false }
    if ok && s.dbg.nonceOk then
      let level := s.rd dbgScopeLevel
      (((s1.wr dbgStatusLevel level).wr dbgStatusFails 0).event dbgEventUnlocked).reportDebug 1 level 0xFF
    else
      let n := s.rd dbgStatusFails + 1
      let s2 := ((s1.wr dbgStatusFails n).event dbgEventUnlockFail).reportDebug 2 (s.rd dbgScopeLevel) 0xFF
      if 8 ≤ n then (s2.wr dbgStatusLockout 1).reportDebug 3 (s.rd dbgScopeLevel) 0xFF else s2

/-- The last word of DBG_RESP triggers the check. -/
def State.lastResponse (s : State) (w : Word32) : State :=
  let s1 := s.putResponse 3 w
  s1.checkResponse (s1.response == s1.wantedResponse (s1.rd dbgScopeLevel))

/-- DEBUG_RESPONSE: the last word of DBG_RESP, which no read returns. -/
def execDebugResponse (w : Word32) (s : State) : Host.Outcome State Fault Refusal :=
  .next (if s.pwr.aon then s.lastResponse w else s)

/-- The level returns to 0. -/
def State.lockDebug (s : State) : State :=
  if s.rd dbgStatusLevel = 0 then s else (s.wr dbgStatusLevel 0).reportDebug 4 0 0xFF

/-- DEBUG_LOCK: a write of DBG_CTL.LOCK, from management or any JTAG session. -/
def execDebugLock (path : Path) (s : State) : Host.Outcome State Fault Refusal :=
  .next (match path with
    | .mgmt => s.lockDebug
    | .debug => s.lockDebug
    | _ => s)

/-! ### Halts (R433, R434, Table TRC-5) -/

/-- The kind of hardware-locked sequence a core is inside, 0 for none: the RMG writes MRAM or a snapshot, and CC3 runs the panel. -/
def State.lockKind (s : State) (n : Nat) : Nat :=
  if n = s.activeCore ∧ (s.mram.other.open' ∨ s.evr.writing.isSome) then 1
  else if n = s.activeCore ∧ (s.hang.snap0.open' ∨ s.hang.snap1.open') then 2
  else if n = 3 ∧ s.evr.pc.isSome then 3
  else 0

/-- A core stops; with DBG_EXEMPT its heartbeat count is frozen (R264). -/
def State.haltCore (s : State) (n : Nat) : State :=
  let c : CoreSt := { s.core n with state := .halted, frozen := none }
  (((s.setCore n (c.exempt s.tick (s.on hngCfgDbgExempt))).wrBit dbgCoreHalted n true).wrBit dbgCoreDeferring n false).showHalts

/-- A halt request: a core inside a locked sequence halts when that releases its lock. -/
def State.askHalt (s : State) (n : Nat) : State :=
  if (s.core n).state ≠ .running then s
  else if s.lockKind n = 0 then s.haltCore n
  else (s.wrBit dbgCoreDeferring n true).event dbgEventHaltDeferred

/-- DEBUG_HALT: the HALT bits of a write of DBG_CTL, at level 2. -/
def State.haltBits (s : State) (v : Nat) : State :=
  if !s.unlocked then s
  else ((List.range 4).filter (fun n => v.testBit (4 + n))).foldl (fun t n => t.askHalt n) s

def execDebugHalt (v : Word32) (s : State) : Host.Outcome State Fault Refusal := .next (s.haltBits v.toNat)

/-- DEBUG_DEFERRED_HALT: the sequence has released its lock. -/
def execDebugDeferredHalt (core : Core4) (s : State) : Host.Outcome State Fault Refusal :=
  .next (if s.bit dbgCoreDeferring core && s.lockKind core == 0 then s.haltCore core else s)

/-- The break joins the RMG event queue. It names no unit, so its change set is empty. -/
def State.queueBreak (s : State) : State :=
  if 4096 ≤ s.hang.evq.length then s.event hngEventEvqFull
  else
    let ev : RmgEvent := { seq := s.hang.evSeq, units := [], state := 0, records := [], applied := true, declared := true, recorded := true }
    let s1 := { s with hang := { s.hang with evq := s.hang.evq ++ [ev], evSeq := (s.hang.evSeq + 1) % 2 ^ 32 } }
    s1.wr hngRmgEvqPending s1.hang.evq.length

/-- HALT_LOCK_BREAK: the lock is held 10,000 core cycles after the request. For CC0 and CC1 the standby reconciles at once; with
the active core halted, MRAM is not written before it resumes. -/
def execHaltLockBreak (core : Core4) (s : State) : Host.Outcome State Fault Refusal :=
  let kind := s.lockKind core
  .next (
    if !s.bit dbgCoreDeferring core || kind == 0 then s
    else
      let s1 := (((s.event dbgEventLockBroken).wr dbgBrokenCore core).wr dbgBrokenKind kind).queueBreak
      let s2 := s1.setDbg { s1.dbg with broken := s1.dbg.broken.set (fun _ => 0) core kind }
      let s3 := if core.val < 2 then s2.reconcile [] [] [] else if kind = 3 then s2.breakPanel else s2
      (s3.haltCore core).reportDebug 5 (s.rd dbgStatusLevel) core).wrapUp

/-- A core runs again, its heartbeat count from where it was frozen; a broken sequence starts again, and an active RMG core
takes up the events that waited. -/
def State.resumeCore (s : State) (n : Nat) : State :=
  let c := s.core n
  if c.state ≠ .halted then s.wrBit dbgCoreDeferring n false
  else
    let since := match c.frozen with
      | some k => s.tick - k
      | none => c.since
    let s1 := s.setCore n { c with state := .running, since := since, frozen := none }
    let s2 := (s1.wrBit dbgCoreHalted n false).setDbg { s1.dbg with broken := s1.dbg.broken.set (fun _ => 0) n 0 }
    let s3 := s2.showHalts
    if n = s3.activeCore then s3.completeEvents 0 else s3

/-- DEBUG_RESUME: the RESUME bits, at level 2. -/
def State.resumeBits (s : State) (v : Nat) : State :=
  if !s.unlocked then s
  else ((List.range 4).filter (fun n => v.testBit n)).foldl (fun t n => t.resumeCore n) s

def execDebugResume (v : Word32) (s : State) : Host.Outcome State Fault Refusal := .next (s.resumeBits v.toNat).wrapUp

/-- A write of DBG_CTL: LOCK from management and any session, PEEK from level 1, HALT and RESUME at level 2. -/
def State.writeDbgCtl (s : State) (path : Path) (v : Nat) : State :=
  let lock := fun (t : State) => if v.testBit 31 then t.lockDebug else t
  match path with
  | .mgmt => lock s
  | .debug =>
    let s1 := if 1 ≤ s.rd dbgStatusLevel then s.wr dbgCtlPeek (bitsOf v 8 1) else s
    lock ((s1.haltBits v).resumeBits v)
  | _ => s

/-! ### The TAP (R430) -/

def State.setJtag (s : State) (j : JtagInstr) : State := s.setDbg { s.dbg with jtag := j }

/-- JTAG_TEST_LOGIC_RESET: the level returns to 0, and IDCODE is loaded. -/
def execJtagTestLogicReset (s : State) : Host.Outcome State Fault Refusal :=
  .next (if s.pwr.aon then (s.lockDebug).setJtag .idcode else s)

/-- JTAG_IDCODE reads 0x10D1_0B4F. -/
def execJtagIdcode (s : State) : Host.Outcome State Fault Refusal :=
  .next (if s.pwr.aon then (s.setJtag .idcode).emit (.jtag 0x10D10B4F) else s)

/-- JTAG_SAMPLE_PRELOAD: the boundary register takes what the pins hold, or what is shifted in. -/
def execJtagSamplePreload (pins : Nat) (s : State) : Host.Outcome State Fault Refusal :=
  .next (if s.pwr.aon then s.setDbg { s.dbg with jtag := .samplePreload, boundary := pins } else s)

/-- An instruction that acts on the pins while SYS_READY is low, and selects BYPASS while it is high. -/
def State.pinInstr (s : State) (j : JtagInstr) : State :=
  if !s.pwr.aon then s else if s.on sysStatusReady then s.setJtag .bypass else s.setJtag j

/-- JTAG_EXTEST, JTAG_EXTEST_PULSE, JTAG_EXTEST_TRAIN, JTAG_CLAMP, JTAG_HIGHZ. -/
def execJtagExtest (s : State) : Host.Outcome State Fault Refusal := .next (s.pinInstr .extest)

def execJtagExtestPulse (s : State) : Host.Outcome State Fault Refusal := .next (s.pinInstr .extestPulse)

def execJtagExtestTrain (s : State) : Host.Outcome State Fault Refusal := .next (s.pinInstr .extestTrain)

def execJtagClamp (s : State) : Host.Outcome State Fault Refusal := .next (s.pinInstr .clamp)

def execJtagHighz (s : State) : Host.Outcome State Fault Refusal := .next (s.pinInstr .highz)

/-- The codes of the other instructions. -/
def jtagCodes : List Nat := [1, 2, 3, 4, 5, 6, 7, 0x20]

/-- JTAG_BYPASS: its own code, or any that no other instruction has. -/
def execJtagBypass (code : BitVec 8) (s : State) : Host.Outcome State Fault Refusal :=
  .next (if s.pwr.aon && !jtagCodes.contains code.toNat then s.setJtag .bypass else s)

end Sys2Proof.Machine
end

