-- ==== Sys2Proof/Machine/HostCommands.lean ====
section
/-!
DEFINITION. Events of the host link that may end lists (R152, R169; 08_links_host_fabric_management.md).
-/
namespace Sys2Proof.Machine

open Reg

/-- PCIE_LINK_RESET (R169). -/
def execPcieLinkReset (kind : LinkResetKind) (s : State) : Host.Outcome State Fault Refusal :=
  .next (
    match kind with
    | .perst => { s.pcieDown with link := { s.pcieDown.link with perstHigh := false } }
    | _ => s.pcieDown).wrapUp

/-- PCIE_COMPLETION_RX: data, or for Unsupported Request and Completer Abort a failed read. -/
def execPcieCompletionRx (f : Fn) (addr : Nat) (status : CplStatus) (bytes : List Byte) (s : State) :
    Host.Outcome State Fault Refusal :=
  .next (s.hostAnswer f addr true (bytes.map (fun b => if status = .sc then some b else none))).wrapUp

/-- PCIE_CPL_TIMEOUT. -/
def execPcieCplTimeout (f : Fn) (addr len : Nat) (s : State) : Host.Outcome State Fault Refusal :=
  .next (s.hostAnswer f addr false (List.replicate len none)).wrapUp

end Sys2Proof.Machine
end

