-- ==== Sys2Proof/Machine/JobCommands.lean ====
section
/-!
DEFINITION. Commands on jobs that may end lists or send frames (R188, R246–R249; 11_job_faults_checkpoint_restart.md).
-/
namespace Sys2Proof.Machine

open Reg

/-- JOB_FAULT_RX (R188): a message not yet seen is acted on and forwarded. -/
def execJobFaultRx (sub : SubPort) (icrcOk : Bool) (m : JobFaultMsg) (s : State) : Host.Outcome State Fault Refusal :=
  .next (s.hopRx sub icrcOk (fun s =>
    if s.link.seen.contains (m.origin, m.seq) then s
    else
      let s1 := ((s.markSeen m.origin m.seq).event fabEventJfSeen).actFault m none
      if 1 < m.hops then s1.floodFault { m with hops := m.hops - 1 } (some sub.val) else s1)).wrapUp

/-- JOB_DECLARE (R261): a fault of CAUSE 0x07, UNIT kind 0. -/
def execJobDeclare (path : Path) (p : Part) (e : Entry) (s : State) : Host.Outcome State Fault Refusal :=
  .next (
    if s.ownsPart path p && s.on (jobIdValid p e) then s.declareFault 0x07 (s.rd (jobIdJob p e)) p 0 none else s).wrapUp

end Sys2Proof.Machine
end

