-- ==== Sys2Proof/Machine/ResetCommands.lean ====
section
/-!
DEFINITION. Requests of RST_CTL (R274, R275; 12_hangs_fencing_and_recovery.md).
-/
namespace Sys2Proof.Machine

open Reg

/-- RST_ENGINE, RST_PARTITION, RST_DEVICE, RST_CLA_REGION (R274, R287). -/
def execRstEngine (path : Path) (v : Word32) (s : State) : Host.Outcome State Fault Refusal :=
  .next (s.writeRstCtl path v.toNat).wrapUp

def execRstPartition (path : Path) (v : Word32) (s : State) : Host.Outcome State Fault Refusal :=
  .next (s.writeRstCtl path v.toNat).wrapUp

def execRstDevice (path : Path) (v : Word32) (s : State) : Host.Outcome State Fault Refusal :=
  .next (s.writeRstCtl path v.toNat).wrapUp

def execRstClaRegion (path : Path) (v : Word32) (s : State) : Host.Outcome State Fault Refusal :=
  .next (s.writeRstCtl path v.toNat).wrapUp

/-- FUNCTION_LEVEL_RESET (R169): a reset of the partition, or of the function alone while its partition is absent. -/
def execFunctionLevelReset (f : Fn) (s : State) : Host.Outcome State Fault Refusal :=
  .next (
    if !s.linkUp || !s.presented f then s
    else
      let s1 := (s.event (hifEventFlr f)).resetFunction f
      if s1.present f then s1.requestReset (.part f) 5 else s1).wrapUp

end Sys2Proof.Machine
end

