-- ==== Sys2Proof/Machine/Scheduler.lean ====
section
/-!
DEFINITION. The commands of the scheduler and of sync objects that may set lists going (R60, R63, R65, R109), and accesses through BAR2
(R170).
-/
namespace Sys2Proof.Machine

open Reg

/-- DOORBELL (R97–R99, R61). The ENGINE bits of a refusal's record are 0 by the model's choice: no header has been read (log entry
123). -/
def execDoorbell (path : Path) (q : Queue) (v : Word32) (s : State) : Host.Outcome State Fault Refusal :=
  let tail := bitsOf v.toNat 0 17
  let cap := s.ringCap q
  let n := countBetween cap (s.rd (queHeadHead q)) tail
  .next (
    if !s.ownsQueue path q then s
    else if s.on (queCtlDevEnq q) then s.event (queStatusDbIgnored q)
    else if 2 * cap ≤ tail ∨ n < s.pendingCount q then s.event (queStatusDbBad q)
    else if cap - 1 < n then
      s.refuseRecord q { desc := tail % 65536, status := 0x10, engine := 0, tail16 := tail / 65536, job := 0, detail := 0,
                         instr := 0, cookie := 0, irq := false }
    else s.wr (queTailTail q) tail).wrapUp

/-- ADMISSION_CANDIDATE (R60, R102): a TC0 or TC1 queue's candidate is tested. TC2 and TC3 candidates are tested in
rounds only. -/
def execAdmissionCandidate (q : Queue) (s : State) : Host.Outcome State Fault Refusal :=
  .next (if s.classOf q < 2 && s.schedulerUp then (s.testCandidate q).wrapUp else s)

/-- SCHEDULING_ROUND (R65). -/
def execSchedulingRound (p : Part) (s : State) : Host.Outcome State Fault Refusal := .next ((s.round p).wrapUp)

/-- QUOTA_WINDOW_START (R63, R69). -/
def execQuotaWindowStart (q : Queue) (s : State) : Host.Outcome State Fault Refusal := .next ((s.startWindow q).wrapUp)

/-- SYNC_LO_WRITE (R109): the value becomes max(current, written), and the path's staging is cleared. -/
def execSyncLoWrite (path : Path) (p : Part) (n : Fin 4096) (v : Word32) (s : State) : Host.Outcome State Fault Refusal :=
  .next (
    if s.ownsPart path p then
      let w := s.stagedHi path (p.val * 4096 + n.val) * 2 ^ 32 + v.toNat
      (({ s with staged := s.staged.set (fun _ => none) (pathKey path) none }).signalMax p n w).wrapUp
    else s)

/-! ### BAR2 (R170) -/

/-- Requests through BAR2 reach the partition. -/
def State.bar2Ok (s : State) (f : Nat) : Bool :=
  s.linkUp && s.presented f && s.present f && !s.fenced f

/-- The size of BAR2: the smallest power of two at or above a partition's physical HBM. -/
def State.bar2Size (s : State) : Nat := 2 ^ 39 / partCount s.mode

/-- The tag of a request through BAR2: JOB 0x0000, the class in BAR2_TC, and the partition. -/
def State.bar2Tag (s : State) (f : Nat) : Word64 := tagOf 0 0 0xFFFFF 0xB 0 (s.rd (hifCfgBar2Tc f)) f

/-- AER reports an error of function `f`. -/
def State.reportAer (s : State) (f : Nat) : State :=
  { s with link := { s.link with aer := if s.link.aer.contains f then s.link.aer else f :: s.link.aer } }.emit (.aer f)

/-- The answer to a BAR2 read: the bytes, poisoned and reported where they could not be read. -/
def State.answerBar2 (s : State) (f : Fn) : Option (List Byte × List Nat) → State
  | some (bs, []) => s.emit (.hostData f bs false)
  | some (bs, _) => (s.emit (.hostData f bs true)).reportAer f
  | none => s

/-- BAR2_READ. A function that is not presented, or whose link is down, answers nothing, and nothing lies beyond BAR2. -/
def execBar2Read (f : Fn) (offset len : Nat) (s : State) : Host.Outcome State Fault Refusal :=
  .next (
    if !s.linkUp || !s.presented f || decide (s.bar2Size < offset + len) then s
    else if !s.bar2Ok f || decide (s.limitOf f * 4096 < offset + len) then s.emit (.hostUr f)
    else ((s.touchTagged (s.bar2Tag f) none offset len).answerBar2 f (s.readTagged (s.bar2Tag f) offset len)).wrapUp)

/-- BAR2_WRITE. -/
def execBar2Write (f : Fn) (offset : Nat) (bytes : List Byte) (s : State) : Host.Outcome State Fault Refusal :=
  .next (
    if !s.bar2Ok f || decide (s.limitOf f * 4096 < offset + bytes.length) then s
    else ((linesOf offset bytes.length).foldl (fun t a => t.noteHole f true (Nat.max a offset))
      (s.storeTagged (s.bar2Tag f) false offset bytes)).wrapUp)

end Sys2Proof.Machine
end

