-- ==== Sys2Proof/Machine/RegAccess.lean ====
section
/-!
DEFINITION. Reads and writes of control space on every path (R6–R9, R154, R431, R432, R454), with the action of each register
that acts.
-/
namespace Sys2Proof.Machine

open Reg

/-! ### Ranges (Table PKG-12) -/

/-- The vendor-only ranges of the blocks (R8). -/
def vendorOnly (a : Nat) : Bool :=
  let off := fun (lo hi first : Nat) => decide (lo ≤ a) && decide (a < hi) && decide (lo + first ≤ a)
  off 0x0 0x10000 0x40 || off 0x10000 0x20000 0x200 || off 0x20000 0x28000 0x100 || off 0x28000 0x30000 0x80 ||
  off 0x30000 0x40000 0x300 || off 0x40000 0x48000 0x3000 || off 0x48000 0x50000 0x100 || off 0x50000 0x60000 0x2000 ||
  off 0x60000 0x68000 0x3000 || off 0x6C000 0x70000 0 || off 0x80000 0x88000 0x3000 || off 0x88000 0xA0000 0x1500 ||
  off 0xA8000 0xB0000 0x2000 || off 0xC0000 0xD0000 0x100 ||
  (off 0x100000 0x140000 0 && decide (0x120 ≤ a % 0x1000)) || off 0x140000 0x180000 0 || off 0x1A0000 0x300000 0 ||
  (off 0x300000 0x380000 0 && decide (0x220 ≤ a % 0x10000)) ||
  (off 0x400000 0x500000 0 && decide (0x100 ≤ a % 0x10000) && !off 0x408000 0x408100 0) ||
  (off 0x500000 0x504000 0 && decide (0x14 ≤ a % 0x1000)) || off 0x580000 0x590000 0x100 || off 0x600000 0x700000 0x3000 ||
  off 0x700000 0x780000 0x100 ||
  (off 0x1000000 0x1A80000 0 && !(decide (0x100 ≤ a % 0x4000) && decide (a % 0x4000 < 0x150)))

/-- The NoC target window of the CLA (R365). -/
def claWindow (a : Nat) : Bool := decide (0x780000 ≤ a) && decide (a < 0x800000)

/-- The MSI-X table and pending bits of a function's own view. -/
def msixWindow (a : Nat) : Bool := decide (0x510000 ≤ a) && decide (a < 0x520000)

def syncWindow (a : Nat) : Bool := decide (0x180000 ≤ a) && decide (a < 0x1A0000)

/-- Windows that no register table lists, with the paths that may read them. -/
def State.windowReads (s : State) (path : Path) (a : Nat) : Bool :=
  let wide := match path with
    | .pf f => s.presented f && f.val == 0
    | .debug => s.debugReads a
    | _ => true
  if syncWindow a then
    let p := (a - 0x180000) / 0x8000
    decide (p < partCount s.mode) && (match path with
      | .pf _ => s.seesPart path p
      | .debug => s.debugReads a
      | _ => true)
  else if 0x88100 ≤ a ∧ a < 0x89500 ∨ 0x51000 ≤ a ∧ a < 0x52000 then (match path with
    | .pf f => s.presented f
    | .debug => s.debugReads a
    | _ => true)
  else if 0x41000 ≤ a ∧ a < 0x42200 ∨ 0x81000 ≤ a ∧ a < 0x83000 then wide
  else if 0xA4000 ≤ a ∧ a < 0xA8000 then
    decide ((a - 0xA4000) / 0x1000 < partCount s.mode) && (match path with
      | .pf _ => false
      | .debug => s.debugReads a
      | _ => true)
  else false

/-- Entries of a partition absent in the active mode read as zero (R262), and the partition registers of a stack that is not the lowest of
its partition (Table MEM-6). -/
def State.absentEntry (s : State) (a : Nat) : Bool :=
  (decide (0x68000 ≤ a) && decide (a < 0x6C000) && decide (partCount s.mode ≤ (a - 0x68000) / 0x1000)) ||
  (decide (0x300000 ≤ a) && decide (a < 0x380000) && decide (0x200 ≤ a % 0x10000) && decide (a % 0x10000 ≤ 0x210) &&
    s.lowStack (s.partOfDie ((a - 0x300000) / 0x10000 / 2)) != (a - 0x300000) / 0x10000)

/-- Whether a path's view includes an address. -/
def State.mayReadAt (s : State) (path : Path) (a : Nat) : Bool :=
  match regAt a with
  | some (d, ix) => s.mayRead path d ix a && !s.absentEntry a
  | none => s.windowReads path a

/-! ### Latches (R432) -/

/-- The addresses that a read of a LO half latches for its path. -/
def latchedWith (a : Nat) : List Nat :=
  if a = beatNumLo then [beatNumHi, beatPhase]
  else if (0xA9100 ≤ a ∧ a < 0xAA000 ∧ 0x100 ≤ (a - 0xA9000) % 0x400 ∧ (a - 0xA9000) % 0x400 < 0x300 ∧ a % 8 = 0) then [a + 4]
  else if 0x1000000 ≤ a ∧ a < 0x1A80000 ∧ 0x110 ≤ a % 0x4000 ∧ a % 0x4000 < 0x150 ∧ a % 8 = 0 then [a + 4]
  else if syncWindow a ∧ a % 8 = 0 then [a + 4]
  else []

/-- A field that only a latch shows. -/
def isLatched (a : Nat) : Bool :=
  a == beatPhase || (decide (4 ≤ a) && (latchedWith (a - 4)).contains a)

def State.latchOf (s : State) (path : Path) : List (Nat × Word32) := s.latches.get (fun _ => []) (pathKey path)

def State.latched (s : State) (path : Path) (a : Nat) : Word32 :=
  match (s.latchOf path).find? (fun e => e.1 == a) with
  | some e => e.2
  | none => 0

def State.setLatch (s : State) (path : Path) (a : Nat) (v : Word32) : State :=
  { s with latches := s.latches.set (fun _ => []) (pathKey path) ((a, v) :: (s.latchOf path).filter (fun e => e.1 != a)) }

/-! ### Reads -/

/-- A word that the spec leaves open is a free value. -/
def State.drawWord (s : State) : Nat × State := ((s.draw).1.toNat % 2 ^ 32, (s.draw).2)

/-- The current value of an address. -/
def State.wordNow (s : State) (a : Nat) : Nat × State :=
  match s.view a with
  | some v => (v, s)
  | none => s.drawWord

/-- A read of the LO half of a pair latches what goes with it. -/
def State.readLo (s : State) (path : Path) (a : Nat) : Nat × State :=
  let (v, s1) := s.wordNow a
  (v, (latchedWith a).foldl (fun t x => t.setLatch path x (BitVec.ofNat 32 ((s.view x).getD 0))) s1)

def traceWindow (a : Nat) : Bool := decide (0xA4000 ≤ a) && decide (a < 0xA8000)

/-- What a read does before its word is taken: counters stand as they are by then, and a line of the trace carve-out is read (R161). -/
def State.beforeRead (s : State) (a : Nat) : State :=
  if a = cntCtl then s
  else if traceWindow a then
    let p := (a - 0xA4000) / 0x1000
    s.touch p true none (s.traceOf p * 4096 + s.rd (trcWinBaseBase p) * 4096 + a % 0x1000) 4
  else s.advAt a

/-- A read that a path makes: its value and what it changes. A read of the CLA's window is answered by the shell. -/
def State.readReg (s : State) (path : Path) (a : Nat) : Nat × State :=
  if claWindow a then
    (if !s.targetPath path then (0, s)
     else if !s.shellUp then (2 ^ 32 - 1, s.event claEventTgtTimeout)
     else (s.emit (.claTarget (a - 0x780000) none)).drawWord)
  else if msixWindow a then
    (match path with
     | .pf f => (if s.presented f then s.readMsix f (a - 0x510000) else 0, s)
     | _ => (0, s))
  else if vendorOnly a then
    (match path with
     | .debug => (if s.unlocked then (Config.vendorWord s.dbg.vendor a).toNat else 0, s)
     | _ => (0, s))
  else if !s.mayReadAt path a then (0, s)
  else if latchedWith a ≠ [] then (s.beforeRead a).readLo path a
  else if isLatched a then ((s.latched path a).toNat, s)
  else (s.beforeRead a).wordNow a

/-- The state after a read, its value sent to the reader. -/
def State.answerRead (s : State) (path : Path) (a : Nat) : State :=
  (s.readReg path a).2.emit (.regData path (BitVec.ofNat 32 (s.readReg path a).1))

/-- Management and MCTP are served by CC3's firmware (R21, R195); BAR0 needs the link. -/
def State.serves (s : State) (path : Path) : Bool :=
  s.pwr.aon && (match path with
    | .mgmt => s.cc3Up
    | .mctp => s.cc3Up
    | .pf _ => s.linkUp
    | .debug => true)

/-- LO_LATCH_READ (R432): a read on a path, of a LO half or of what it latches. -/
def execLoLatchRead (path : Path) (addr : Nat) (s : State) : Host.Outcome State Fault Refusal :=
  .next (if s.serves path then (s.answerRead path addr).wrapUp else s)

/-! ### Plain writes (Table SCP-2) -/

/-- The lock bit of a register's RWL fields is 0. -/
def State.openLock (s : State) (a : Nat) (ix : List Nat) : Bool :=
  let i := ix.headD 0
  let j := (ix.drop 1).headD 0
  if a < 0x70000 then !s.on (jobStateCkLock i j)
  else if a < 0x100000 then !s.on (trcChCtlEn i j)
  else if a < 0x200000 then !s.on (queCtlEn i)
  else if a = fabDevId then !s.on fabDevIdValid
  else !s.on (fabPortCfgEn i)

/-- What a write of `v` leaves in a register that holds `old`. -/
def writeFields (old v : Nat) (open' : Bool) (l : List FldDesc) : Nat :=
  l.foldl (fun x f => match f.acc with
    | .rw => setBits x f.lo f.width (bitsOf v f.lo f.width)
    | .rwl => if open' then setBits x f.lo f.width (bitsOf v f.lo f.width) else x
    | .rw1c => setBits x f.lo f.width (bitsOf x f.lo f.width &&& (bitsOf v f.lo f.width ^^^ (2 ^ f.width - 1)))
    | _ => x) old

/-- A screening register: SCR_PART_CTL of some partition. -/
def isPartCtl (a : Nat) : Bool := decide (0x80100 ≤ a) && decide (a < 0x80200) && a % 0x40 == 0

/-- A reserved FRACTION code leaves the field as it was (R198). -/
def keepCode (old v lo : Nat) : Nat := if 6 ≤ bitsOf v lo 3 then setBits v lo 3 (bitsOf old lo 3) else v

/-- Values out of range that the spec clamps, ignores or reads as another (R198, R305, Table LNK-2). -/
def clampWrite (a old v : Nat) : Nat :=
  if a = pwrLimitSust then Nat.min 1650 (v % 65536)
  else if a = pwrLimitPeak then Nat.min 1000 (v / 65536) * 65536 + Nat.min 2100 (v % 65536)
  else if 0x500000 ≤ a ∧ a < 0x504000 ∧ a % 0x1000 = 0xC then (if v % 4 < 2 then 2 else v)
  else if isPartCtl a then keepCode old (keepCode old v 0) 4
  else v

/-- What follows a plain write: FAULT_N, ports that are no longer enabled, a PTP domain, a sampling period, an interrupt
count, screening settings that wait for their boundary (R200), the heartbeats of halted cores (R264), the stack of the management port
(R191). -/
def State.afterWrite (s old : State) (a : Nat) : State :=
  if a = pwrCfg ∨ a = qtnCfg ∨ a = hngEvent then s.updateFault
  else if 0x400000 ≤ a ∧ a < 0x500000 ∧ a % 0x10000 = 0 then (s.dropPorts).afterConn
  else if a = beatPtp ∧ s.rd beatPtpDomain ≠ old.rd beatPtpDomain then
    s.restartPtp
  else if isPartCtl a ∧ s.reg a ≠ old.reg a then
    s.setWheel ((a - 0x80100) / 0x40) { s.wheel ((a - 0x80100) / 0x40) with restart := true }
  else if a = hngCfg then s.exemptHalts
  else if a = mgtNetCfg ∧ s.reg a ≠ old.reg a then (if s.cc3Up then s.startNet else s)
  else if a = cntSampleCfg ∧ !old.on cntSampleCfgEn then s.setDbg { s.dbg with sampled := s.tick }
  else if 0x100000 ≤ a ∧ a < 0x140000 ∧ a % 0x1000 = 0x48 ∧ !s.on (queIrqCfgEn ((a - 0x100000) / 0x1000)) then
    s.setQueue ((a - 0x100000) / 0x1000) { s.queue ((a - 0x100000) / 0x1000) with irqCount := 0, irqSince := none }
  else s

/-- A write to a register without an action of its own. -/
def State.plainWrite (s : State) (path : Path) (a v : Nat) : State :=
  match regAt a with
  | some (d, ix) =>
    if !s.mayWrite path d ix a || s.absentEntry a then s
    else
      let new := writeFields (s.reg a).toNat (clampWrite a (s.reg a).toNat v) (s.openLock a ix) d.flds
      (s.setReg a (BitVec.ofNat 32 new)).afterWrite s a
  | none => s

/-! ### Registers that act -/

/-- The state a command leads to. -/
def State.after (s : State) (o : Host.Outcome State Fault Refusal) : State :=
  match o with
  | .next t => t
  | _ => s

def State.doIf (s : State) (b : Bool) (f : State → Host.Outcome State Fault Refusal) : State := if b then s.after (f s) else s

/-- The AON blocks below the JOB entries. -/
def State.writeLow (s : State) (path : Path) (a : Nat) (v : Word32) : State :=
  let n := v.toNat
  if a = sysPartCfg then s.after (execPartCfgWrite path v s)
  else if a = pwrDomCtl then s.writeDomCtl path n
  else if a = pwrWakeCtl then s.doIf (n.testBit 0) (execWakeGo path)
  else if pwrVset 0 ≤ a ∧ a < pwrVset 4 then s.after (execVsetWrite path (Fin.ofNat 4 ((a - pwrVset 0) / 4)) v s)
  else if a = clkMatrixLimit then s.after (execClockLimitWrite path v s)
  else if a = beatCtl then s.writeBeatCtl path n
  else if a = beatComp then s.writeBeatComp path n
  else if a = thmCtl then (if n.testBit 0 then s.resume path else s)
  else if thmLimitWarn ≤ a ∧ a ≤ thmLimitShutdown then s.writeThreshold path ((a - thmLimitWarn) / 4) n
  else if a = evrCtl then s.doIf (n.testBit 0) (execEvrFlush path)
  else if a = pnlCtl then (s.doIf (n.testBit 1) (execPanelClearFailed path)).doIf (n.testBit 0) (execPanelUpdateNow path)
  else if a = rstCtl then s.writeRstCtl path n
  else s.plainWrite path a n

/-- JOB entries (Table JOB-6). -/
def State.writeJob (s : State) (path : Path) (a : Nat) (v : Word32) : State :=
  let p := partFin ((a - 0x68000) / 0x1000)
  let e : Entry := Fin.ofNat 16 (a % 0x1000 / 0x100)
  if a % 0x100 = 0x80 then s.after (execJobRestartArm path p e v s)
  else if a % 0x100 = 0x8C then
    (s.doIf (v.toNat.testBit 1) (execJobDeclare path p e)).doIf (v.toNat.testBit 0) (execJobRelease path p e)
  else s.plainWrite path a v.toNat

/-- TRC (Table TRC-4). -/
def State.writeTrc (s : State) (path : Path) (a : Nat) (v : Word32) : State :=
  let p := (a - 0xA0100) / 0x400
  let off := (a - 0xA0100) % 0x400
  let c := (off - 0x40) / 0x40
  if a < 0xA0100 ∨ 0xA1100 ≤ a then s.plainWrite path a v.toNat
  else if off = 0x10 then (if v.toNat.testBit 31 then s.startDrain path p else s)
  else if 0x40 ≤ off ∧ off < 0x240 ∧ off % 0x40 = 0 then
    (if v.toNat.testBit 31 then s.enableChan path p c v.toNat else s.disableChan path p c v.toNat)
  else s.plainWrite path a v.toNat

/-- DBG (R436). The last word of DBG_RESP triggers the check (R428). -/
def State.writeDbg (s : State) (path : Path) (a : Nat) (v : Word32) : State :=
  let dis := fun (t : State) => (t.wr dbgCfgDisable v.toNat).wr dbgStatusDisabled v.toNat
  if a = dbgCtl then s.writeDbgCtl path v.toNat
  else if a = dbgCfg then (match path with
    | .mgmt => dis s
    | _ => s)
  else if a = dbgScope then (match path with
    | .debug => s.writeScope v.toNat
    | _ => s)
  else if a = dbgEvent then (match path with
    | .debug => s.plainWrite path a v.toNat
    | _ => s)
  else if dbgResp 0 ≤ a ∧ a < dbgResp 4 then (match path with
    | .debug => if a = dbgResp 3 then s.lastResponse v else s.putResponse ((a - dbgResp 0) / 4) v
    | _ => s)
  else s

/-- A queue's window (Tables ENG-6, TAG-7). -/
def State.writeQue (s : State) (path : Path) (a : Nat) (v : Word32) : State :=
  let q : Queue := Fin.ofNat 64 ((a - 0x100000) / 0x1000)
  match a % 0x1000 with
  | 0x000 => if s.ownsQueue path q then s.writeQueCtl q v.toNat else s
  | 0x010 => s.after (execRingConfigWrite path q .baseLo v s)
  | 0x014 => s.after (execRingConfigWrite path q .baseHi v s)
  | 0x018 => s.after (execRingConfigWrite path q .size v s)
  | 0x020 => s.after (execDoorbell path q v s)
  | 0x030 => s.after (execCplRingConfigWrite path q .baseLo v s)
  | 0x034 => s.after (execCplRingConfigWrite path q .baseHi v s)
  | 0x038 => s.after (execCplRingConfigWrite path q .size v s)
  | 0x03C => s.after (execCplConsume path q v s)
  | 0x100 => s.after (execAdmCfgWrite path q v s)
  | 0x104 => s.after (execAdmQuotaWindowWrite path q false v s)
  | 0x108 => s.after (execAdmQuotaWindowWrite path q true v s)
  | 0x118 =>
    (s.doIf (v.toNat.testBit 1) (execAdmClearRefused path q)).doIf (v.toNat.testBit 0) (execAdmClearDeferred path q)
  | _ => s.plainWrite path a v.toNat

/-- Sync objects (R109). -/
def State.writeSync (s : State) (path : Path) (a : Nat) (v : Word32) : State :=
  let p := partFin ((a - 0x180000) / 0x8000)
  let n : Fin 4096 := Fin.ofNat 4096 (a % 0x8000 / 8)
  if a % 8 = 0 then s.after (execSyncLoWrite path p n v s) else s.after (execSyncHiWrite path p n v s)

/-- MED (Table MED-8). -/
def State.writeMed (s : State) (path : Path) (a : Nat) (v : Word32) : State :=
  let n : Session := Fin.ofNat 256 ((a - 0x601000) / 0x20)
  if 0x600040 ≤ a ∧ a < 0x600050 then s.after (execMediaPartConfig path (partFin ((a - 0x600040) / 4)) v s)
  else if 0x601000 ≤ a ∧ a < 0x603000 ∧ a % 0x20 = 8 then
    ((s.doIf (v.toNat.testBit 0) (execMediaSessionOpen path n)).doIf (v.toNat.testBit 2) (execMediaForceKey path n)).doIf
      (v.toNat.testBit 1) (execMediaSessionClose path n)
  else s.plainWrite path a v.toNat

/-- CLA (Table CLA-10) and its NoC target window. -/
def State.writeCla (s : State) (path : Path) (a : Nat) (v : Word32) : State :=
  let r : Region := Fin.ofNat 8 ((a - claRegion 0) / 4)
  if claWindow a then s.after (execClaTargetAccess path (a - 0x780000) (some v) 0 s)
  else if a = claCtl then
    (s.doIf (v.toNat.testBit 0) (execReleaseDone path)).doIf (v.toNat.testBit 1) (execGoLocal path)
  else if a = claExtCtl then s.after (execClaExtGo path v s)
  else if claRegion 0 ≤ a ∧ a < claRegion 8 then
    let s1 := if bitsOf v.toNat 12 2 = s.rd (claRegionPart r) then s
      else s.after (execClaRegionAssign path r (partFin (bitsOf v.toNat 12 2)) s)
    if v.toNat.testBit 0 then s1.after (execClaRegionHold path r s1) else s1.after (execClaRegionUnhold path r s1)
  else s.plainWrite path a v.toNat

/-- An access to a vendor-only range on unlocked debug takes effect (R8): what it changes there is Etanavar's. -/
def State.vendorAccess (s : State) (a : Nat) (v : Option Word32) : State := s.setDbg { s.dbg with vendor := (a, v) :: s.dbg.vendor }

/-- A write that a path makes to control space. -/
def State.writeReg (s : State) (path : Path) (a : Nat) (v : Word32) : State :=
  if !s.pwr.aon then s
  else if vendorOnly a then (match path with
    | .debug => if s.unlocked then s.vendorAccess a (some v) else s
    | _ => s)
  else if a < 0x68000 then s.writeLow path a v
  else if a < 0x6C000 then s.writeJob path a v
  else if 0xA0000 ≤ a ∧ a < 0xA8000 then s.writeTrc path a v
  else if a = cntCtl then s.writeCntCtl path v.toNat
  else if 0xC0000 ≤ a ∧ a < 0xD0000 then s.writeDbg path a v
  else if 0x100000 ≤ a ∧ a < 0x140000 then s.writeQue path a v
  else if syncWindow a then s.writeSync path a v
  else if a = fabRouteData then s.after (execRouteDataWrite path v s)
  else if msixWindow a then (match path with
    | .pf f => if s.presented f then s.writeMsix f (a - 0x510000) v else s
    | _ => s)
  else if 0x600000 ≤ a ∧ a < 0x700000 then s.writeMed path a v
  else if 0x700000 ≤ a ∧ a < 0x800000 then s.writeCla path a v
  else (s.advAt a).plainWrite path a v.toNat

/-- REGISTER_WRITE (R7, R454). -/
def execRegisterWrite (path : Path) (addr : Nat) (v : Word32) (s : State) : Host.Outcome State Fault Refusal :=
  .next (s.writeReg path addr v).wrapUp

/-- A write under a mask: bits outside it keep RW fields, and are written 0 elsewhere. -/
def State.masked (s : State) (a : Nat) (v mask : Word32) : Word32 :=
  match regAt a with
  | some (d, _) =>
    let keep := d.flds.foldl (fun m f => if f.acc = .rw ∨ f.acc = .rwl then setBits m f.lo f.width (2 ^ f.width - 1) else m) 0
    (v &&& mask) ||| (s.reg a &&& ~~~ mask &&& BitVec.ofNat 32 keep)
  | none => v &&& mask

/-! ### DBG_ACCESS (R427, R431) -/

/-- What a session's level lets it read. -/
def State.debugGrants (s : State) (a : Nat) : Bool := s.debugReads a

/-- Reads are served through non-destructive views: PEEK, and always at level 1. -/
def State.peeks (s : State) : Bool := s.on dbgCtlPeek || s.rd dbgStatusLevel == 1

/-- The STATUS and data of an access, which the next shift captures. This shift captures those of the access before it. -/
def State.dbgResult (s : State) (old : DbgSt) (status : Nat) (v : Nat) : State :=
  (s.setDbg { s.dbg with status := status, data := BitVec.ofNat 32 v, jtag := .dbgAccess }).emit
    (.jtag (old.status * 2 ^ 70 + old.data.toNat))

/-- A read, through a peek view or with all of its effects. What has effects on a read has no view. -/
def State.dbgRead (s : State) (a : Nat) (peek : Bool) : State :=
  if peek && (claWindow a || (vendorOnly a && Config.vendorEffect a)) then s.dbgResult s.dbg 1 0
  else
    let (v, s1) := s.readReg .debug a
    (if !peek && vendorOnly a && s.unlocked then s1.vendorAccess a none else s1).dbgResult s.dbg 0 v

/-- DEBUG_READ. -/
def execDebugRead (offset : Nat) (s : State) : Host.Outcome State Fault Refusal :=
  .next (if !s.pwr.aon then s else if s.debugGrants offset then (s.dbgRead offset s.peeks).wrapUp else s.dbgResult s.dbg 2 0)

/-- DEBUG_FORCED_READ. -/
def execDebugForcedRead (offset : Nat) (s : State) : Host.Outcome State Fault Refusal :=
  .next (if !s.pwr.aon then s else if s.unlocked then (s.dbgRead offset false).wrapUp else s.dbgResult s.dbg 2 0)

/-- Writes that a level below 2 grants: DBG_SCOPE and DBG_RESP at any level, LOCK in any session, PEEK from level 1. -/
def State.debugWrites (s : State) (a : Nat) : Bool :=
  s.unlocked || a == dbgScope || a == dbgCtl || (decide (dbgResp 0 ≤ a) && decide (a < dbgResp 4))

/-- DEBUG_WRITE. -/
def execDebugWrite (offset : Nat) (v : Word32) (s : State) : Host.Outcome State Fault Refusal :=
  .next (
    if !s.pwr.aon then s
    else if s.debugWrites offset then (s.writeReg .debug offset v).dbgResult s.dbg 0 0
    else s.dbgResult s.dbg 2 0).wrapUp

end Sys2Proof.Machine
end

