-- ==== Sys2Proof/Machine/Mgmt.lean ====
section
/-!
DEFINITION. The management protocol's reads, writes and acknowledgements (R192–R195), MCTP (R196, R295) and PLDM (R197, Table
LNK-9). Codes of MCTP and PLDM that the spec leaves to their standards are presumed from them (log entry 19).
-/
namespace Sys2Proof.Machine

open Reg

/-- The boot ROM answers in the place of firmware that W3 has not loaded (R295). -/
def State.bootRom (s : State) : Bool := s.pwr.aon && (s.core 3).state == .held

/-! ### The management protocol -/

/-- The values of `n` registers from `offset` on, read in order. -/
def State.readRegs (s : State) (path : Path) (offset n : Nat) : List Word32 × State :=
  (List.range n).foldl (fun r i =>
    let (v, t) := r.2.readReg path (offset + 4 * i)
    (r.1 ++ [BitVec.ofNat 32 v], t)) ([], s)

/-- MGT_READ (R192, R193): 1 to 64 registers; a count outside that reads none. The payload's layout is log entry 133's. -/
def execMgtRead (m : MgtHdr) (offset count : Nat) (s : State) : Host.Outcome State Fault Refusal :=
  .next ((s.inbound m 1 (leBytes 4 offset ++ leBytes 4 count) (fun t =>
    let (vs, t1) := t.readRegs .mgmt offset (if count ≤ 64 then count else 0)
    t1.answerMgt m 2 (vs.flatMap (fun v => leBytes 4 v.toNat)))).wrapUp)

/-- MGT_WRITE (R192, R193). -/
def execMgtWrite (m : MgtHdr) (offset : Nat) (v mask : Word32) (s : State) : Host.Outcome State Fault Refusal :=
  .next (s.inbound m 3 (leBytes 4 offset ++ leBytes 4 v.toNat ++ leBytes 4 mask.toNat) (fun t =>
    (t.writeReg .mgmt offset (t.masked offset v mask)).answerMgt m 4 [])).wrapUp

/-- MGT_ACK_RX (R194): the acknowledged message is held no longer. -/
def execMgtAckRx (m : MgtHdr) (s : State) : Host.Outcome State Fault Refusal :=
  .next (s.inbound m 0x1F [] (fun t =>
    let l := t.link.msgs.filter (fun x => x.seq != m.ackSeq)
    { t with link := { t.link with msgs := l } }.wr mgtRptPendingCount l.length))

/-- A held message is due again. -/
def State.msgDue (s : State) (x : HeldMsg) : Bool := decide (x.sentAt + Nat.max 1 (s.rd mgtRptCfgRetry) ≤ s.tick)

/-- REPORT_RETRY (R194): every held message that is due is sent again as it was. -/
def execReportRetry (s : State) : Host.Outcome State Fault Refusal :=
  .next (
    if !s.cc3Up then s
    else
      let s1 := (s.link.msgs.filter s.msgDue).foldl (fun t x => t.sendMsg x) s
      { s1 with link := { s1.link with msgs := s1.link.msgs.map (fun x => if s.msgDue x then { x with sentAt := s.tick } else x) } })

/-! ### MCTP -/

/-- The versions of a message type, as MCTP encodes them: MCTP 1.3; those of PLDM and of the vendor's messages are left open. -/
def State.mctpVersion (s : State) (type : Nat) : Nat × State := if type = 0 ∨ type = 0xFF then (0xF1F3F000, s) else s.drawWord

/-- MCTP_CONTROL_MSG (R196, R295): the bus owner assigns the endpoint ID; the boot ROM serves no vendor-defined messages. -/
def execMctpControlMsg (c : MctpCtl) (s : State) : Host.Outcome State Fault Refusal :=
  let types := if s.cc3Up then [0x01, 0x7E] else [0x01]
  .next (
    if !s.cc3Up && !s.bootRom then s
    else match c with
      | .setEid eid =>
        if eid = 0 ∨ 255 ≤ eid then s.emit (.mctpReply [1, 0x02])
        else { s with link := { s.link with eid := eid } }.emit (.mctpReply [1, 0, 0, eid, 0])
      | .getEid => s.emit (.mctpReply [2, 0, s.link.eid, 0, 0])
      | .versions type =>
        if type = 0 ∨ type = 0xFF ∨ types.contains type then
          (s.mctpVersion type).2.emit (.mctpReply [4, 0, 1, (s.mctpVersion type).1])
        else s.emit (.mctpReply [4, 0x80])
      | .messageTypes => s.emit (.mctpReply ([5, 0, types.length] ++ types))
      | .vendorMessages sel =>
        if s.cc3Up && sel == 0 then s.emit (.mctpReply [6, 0, 0xFF, 0, 0x1D, 0x8B, 0, 0]) else s.emit (.mctpReply [6, 0x02])
      | .other code => s.emit (.mctpReply [code, 0x05]))

/-- MCTP_VENDOR_READ (R21, R196): served once W3 has loaded the firmware. -/
def execMctpVendorRead (addr : Nat) (s : State) : Host.Outcome State Fault Refusal :=
  .next (if s.cc3Up then (s.answerRead .mctp addr).wrapUp else s)

/-- MCTP_VENDOR_WRITE (R196): a register of MGT, or a key slot still unfused, which the write fuses. -/
def execMctpVendorWrite (target : MctpTarget) (v : Word32) (s : State) : Host.Outcome State Fault Refusal :=
  .next (
    if !s.cc3Up then s
    else match target with
      | .reg a => s.writeReg .mctp a v
      | .keySlot k key =>
        if s.bit mgtKeyCfgFused k.val || key == [] then s
        else { s with link := { s.link with keys := s.link.keys.set (fun _ => []) k.val key } }.wrBit mgtKeyCfgFused k.val true).wrapUp

/-! ### PLDM -/

/-- PLDM Type `type` is served: by firmware; before that is loaded by the boot ROM, Type 0, and Type 5 in the safe state after a failure
in W3 (R295). -/
def State.pldmServed (s : State) (type : Nat) : Bool :=
  if s.cc3Up then [0, 2, 5].contains type else s.bootRom && (type == 0 || (type == 5 && s.pwr.safe && s.pwr.safeStep == 3))

/-- A PLDM message that reaches whoever serves its type; another is answered as unsupported (R197). -/
def State.pldm (s : State) (type code : Nat) (f : State → State) : State :=
  if s.pldmServed type then f s
  else if s.cc3Up || s.bootRom then s.emit (.pldmReply type code 5 [])
  else s

def State.pldmAnswer (s : State) (type code completion : Nat) (data : List Nat) : State :=
  s.emit (.pldmReply type code completion data)

/-- PLDM_GET_TID. -/
def execPldmGetTid (s : State) : Host.Outcome State Fault Refusal :=
  .next (s.pldm 0 2 (fun t => t.pldmAnswer 0 2 0 [t.link.tid]))

/-- PLDM_SET_TID: 0 and 0xFF are no terminus IDs. -/
def execPldmSetTid (tid : Nat) (s : State) : Host.Outcome State Fault Refusal :=
  .next (s.pldm 0 1 (fun t =>
    if tid = 0 ∨ 255 ≤ tid then t.pldmAnswer 0 1 2 []
    else { t with link := { t.link with tid := tid } }.pldmAnswer 0 1 0 []))

/-- A version of a supported type, whose value the spec leaves open. -/
def State.drawData (s : State) : List Nat × State := ([s.drawWord.1], s.drawWord.2)

/-- PLDM_GET_PLDM_VERSION. -/
def execPldmGetPldmVersion (type : Nat) (s : State) : Host.Outcome State Fault Refusal :=
  .next (s.pldm 0 3 (fun t =>
    if t.pldmServed type then (t.drawData.2).pldmAnswer 0 3 0 t.drawData.1 else t.pldmAnswer 0 3 0x83 []))

/-- PLDM_GET_PLDM_TYPES: bits 0, 2 and 5, where each is served. -/
def execPldmGetPldmTypes (s : State) : Host.Outcome State Fault Refusal :=
  .next (s.pldm 0 4 (fun t =>
    t.pldmAnswer 0 4 0 [(([0, 2, 5].filter t.pldmServed).foldl (fun m c => m + 2 ^ c) 0), 0, 0, 0, 0, 0, 0, 0]))

/-- The command codes of a supported type, those that the device itself sends left out. -/
def pldmCommands : Nat → List Nat
  | 0 => [1, 2, 3, 4, 5]
  | 2 => [0x11, 0x21, 0x50, 0x51]
  | 5 => [0x01, 0x02, 0x10, 0x13, 0x14, 0x1A, 0x1B, 0x1C, 0x1D]
  | _ => []

/-- PLDM_GET_PLDM_COMMANDS: bit c of the answer says that command c is supported. -/
def execPldmGetPldmCommands (type : Nat) (s : State) : Host.Outcome State Fault Refusal :=
  .next (s.pldm 0 5 (fun t =>
    if t.pldmServed type then t.pldmAnswer 0 5 0 [(pldmCommands type).foldl (fun m c => m + 2 ^ c) 0]
    else t.pldmAnswer 0 5 0x83 []))

/-- A numeric sensor's reading, by the model's numbering: 1–13 the maxima of thermal domains 0–12, 14–21 the stacks, 22 device
power, 23–38 the voltage of PMBus entries 0–15, 39–54 their current. -/
def State.sensor (s : State) (n : Nat) : Option Nat :=
  if 1 ≤ n ∧ n ≤ 13 then some (s.rd (thmDomMaxNow (n - 1)))
  else if 14 ≤ n ∧ n ≤ 21 then some (s.rd (thmDomMaxNow (n - 9)))
  else if n = 22 then some (s.rd pwrEstNow)
  else if 23 ≤ n ∧ n ≤ 38 ∧ s.on (pwrPmbMapValid (n - 23)) then some (s.rd (pwrPmbTlmVout (n - 23)))
  else if 39 ≤ n ∧ n ≤ 54 ∧ s.on (pwrPmbMapValid (n - 39)) then some (s.rd (pwrPmbTlmIout (n - 39)))
  else none

/-- The PDR repository holds one record for each numeric sensor and one for the state sensor, handles 1–55. -/
def pdrCount : Nat := 55

/-- A record: the handle of the next one, its own, its PDR type, its sensor, and what else its bytes hold, left open. -/
def State.pdr (s : State) (h : Nat) : List Nat × State :=
  ([if h = pdrCount then 0 else h + 1, h, if h = pdrCount then 4 else 2, h] ++ s.drawData.1, s.drawData.2)

/-- PLDM_MONITORING_REQUEST (Table LNK-9). Handle 0 asks for the first record. -/
def execPldmMonitoringRequest (r : PldmMon) (s : State) : Host.Outcome State Fault Refusal :=
  .next (
    match r with
    | .repository => s.pldm 2 0x50 (fun t => t.pldmAnswer 2 0x50 0 [pdrCount])
    | .getPdr h => s.pldm 2 0x51 (fun t =>
      if h ≤ pdrCount then (t.pdr (Nat.max 1 h)).2.pldmAnswer 2 0x51 0 (t.pdr (Nat.max 1 h)).1 else t.pldmAnswer 2 0x51 0x82 [])
    | .readSensor n => s.pldm 2 0x11 (fun t =>
      match t.sensor n with
      | some v => t.pldmAnswer 2 0x11 0 [v]
      | none => t.pldmAnswer 2 0x11 0x80 [])
    | .readState => s.pldm 2 0x21 (fun t => t.pldmAnswer 2 0x21 0 [(t.reg sysStatus).toNat]))

/-- Bytes laid into an image at an offset; a gap holds zeros. -/
def laidInto (bs : List Byte) (offset : Nat) (piece : List Byte) : List Byte :=
  overlay (Nat.max bs.length (offset + piece.length)) [(0, bs), (offset, piece)]

/-- The transfer in progress and the step of the update. -/
def State.setFw (s : State) (f : Option FwUpdate) (step : Nat) : State := { s with link := { s.link with fw := f, fwStep := step } }

/-- The code of a firmware-update step. -/
def pldmFwCode : PldmFw → Nat
  | .identifiers => 0x01
  | .parameters => 0x02
  | .request => 0x10
  | .passTable _ => 0x13
  | .begin _ => 0x14
  | .data _ _ => 0x15
  | .verify _ => 0x17
  | .apply => 0x18
  | .activate => 0x1A
  | .status => 0x1B
  | .cancelComponent => 0x1C
  | .cancel => 0x1D

/-- A verified image is marked to apply, and the next component may come. -/
def State.markApply (s : State) (c : Nat) : State :=
  { s.setFw none 2 with link := { (s.setFw none 2).link with fwReady := s.link.fwReady ++ [c] } }

/-- What a step does, and its completion code and data: 0x80 outside an update, 0x81 inside one, 0x84 out of turn, 2 for a component
that does not exist. -/
def State.fwStep (s : State) (r : PldmFw) : State × Nat × List Nat :=
  let step := s.link.fwStep
  let late := fun (_ : Unit) => (s, if step = 0 then 0x80 else 0x84, ([] : List Nat))
  match r with
  | .identifiers => (s.drawData.2, 0, s.drawData.1)
  | .parameters => (s.drawData.2, 0, [s.link.fwApplied.1, s.link.fwApplied.2] ++ s.drawData.1)
  | .status => (s, 0, [step])
  | .request => if step = 0 then (s.setFw none 1, 0, []) else (s, 0x81, [])
  | .passTable c => if step = 1 ∨ step = 2 then (if c = 1 ∨ c = 2 then (s.setFw none 2, 0, []) else (s, 2, [])) else late ()
  | .begin c => if step = 2 then (if c = 1 ∨ c = 2 then (s.setFw (some ⟨c, [], false⟩) 3, 0, []) else (s, 2, [])) else late ()
  | .data off bs => (match s.link.fw with
    | some f => if step = 3 then (s.setFw (some { f with bytes := laidInto f.bytes off bs }) 3, 0, []) else late ()
    | none => late ())
  | .verify ok => (match s.link.fw with
    | some f =>
      if step ≠ 3 then late ()
      else if ok then (s.setFw (some { f with verified := true }) 5, 0, [])
      else (s.setFw none 2, 1, [])
    | none => late ())
  | .apply => (match s.link.fw with
    | some f => if step = 5 ∧ f.verified then (s.markApply f.component, 0, []) else late ()
    | none => late ())
  | .activate => if step = 2 ∧ s.link.fwReady ≠ [] then (s.setFw none 0, 0, [0]) else late ()
  | .cancelComponent => if step = 3 ∨ step = 5 then (s.setFw none 2, 0, []) else late ()
  | .cancel => if step = 0 then late () else (s.setFw none 0, 0, [])

/-- PLDM_FIRMWARE_UPDATE (Table LNK-9): ApplyComplete follows a verified image only, and an image that fails verification is
reported and never applied. -/
def execPldmFirmwareUpdate (r : PldmFw) (s : State) : Host.Outcome State Fault Refusal :=
  .next (s.pldm 5 (pldmFwCode r) (fun t => (t.fwStep r).1.pldmAnswer 5 (pldmFwCode r) (t.fwStep r).2.1 (t.fwStep r).2.2))

/-- PLDM_UNSUPPORTED (R197): ERROR_UNSUPPORTED_PLDM_CMD, for a type or command that Table LNK-9 does not list. -/
def execPldmUnsupported (type code : Nat) (s : State) : Host.Outcome State Fault Refusal :=
  .next (
    if ((pldmCommands type).contains code && s.pldmServed type) || (!s.cc3Up && !s.bootRom) then s
    else s.pldmAnswer type code 5 [])

end Sys2Proof.Machine
end

