-- ==== Sys2Proof/Machine/QuarantineCommands.lean ====
section
/-!
DEFINITION. Commands on the quarantine map and on churn runs (R216–R236, R242; 10_quarantine_spares_and_fleet.md).
-/
namespace Sys2Proof.Machine

open Reg

/-- QUARANTINE (R218, R242). -/
def execQuarantine (via : CmdVia) (unit : Word32) (s : State) : Host.Outcome State Fault Refusal :=
  .next (s.command via 0x0A01 (leBytes 4 unit.toNat) (fun t => t.restrictCmd 0x0A01 2 unit)).wrapUp

/-- SUSPECT (R218, R242). -/
def execSuspect (via : CmdVia) (unit : Word32) (s : State) : Host.Outcome State Fault Refusal :=
  .next (s.command via 0x0A02 (leBytes 4 unit.toNat) (fun t => t.restrictCmd 0x0A02 1 unit)).wrapUp

/-- REINSTATE (R230). -/
def execReinstate (via : CmdVia) (unit : Word32) (epoch : Word32) (s : State) : Host.Outcome State Fault Refusal :=
  .next (s.command via 0x0A03 (leBytes 4 unit.toNat ++ leBytes 4 epoch.toNat) (fun t =>
    match t.reinstateTest unit epoch, unitKey unit.toNat with
    | 0, some k =>
      let m := t.qtn.map
      let m' := m.reinstate k t.nextEpoch
      (0, t.applySet m' true (t.mapChange m m' 0x0A03) [] [])
    | r, _ => (r, t))).wrapUp

/-- MAP_IMAGE_CLOSED: the write that was in progress ends. After PWR_FAIL_N only that one does (R306); without the RMG
nothing is written (R272, R434). -/
def execMapImageClosed (s : State) : Host.Outcome State Fault Refusal :=
  .next (if s.mram.other.open' && !s.rmgDown then s.closeImage else s).wrapUp

/-- RECONCILIATION: every 1,000 beat ticks, by the active core. -/
def execReconciliation (s : State) : Host.Outcome State Fault Refusal :=
  .next (if s.qtn.reconciled + 1000 ≤ s.tick ∧ s.mramOk then s.reconcile [] [] [] else s).wrapUp

/-- CHURN_GRANT (R231, R232): the run begins and its partitions are fenced. -/
def execChurnGrant (via : CmdVia) (level dies : Nat) (s : State) : Host.Outcome State Fault Refusal :=
  .next (s.command via 0x0A10 (leBytes 1 level ++ leBytes 1 dies) (fun t =>
    match t.churnTest level dies, t.qtn.pack with
    | 0, some k =>
      let run : ChurnSt := { level := level, dies := dies, parts := maskOf (t.partsOfMask dies), passed := [], failed := [],
                             packId := k.id, packVersion := k.version, kernels := if level = 1 then k.kernels else k.quick, aborting := false }
      let t1 := { t with qtn := { t.qtn with churn := some run } }
      let t2 := (((t1.wr qtnChurnStatusProgress 0).wr qtnChurnStatusDies dies).wr qtnChurnStatusFull level).wr
        qtnChurnStatusState 1
      (0, (t2.wr qtnChurnFailsCount 0).loseHosts (fun u => run.parts.testBit (t.partOfDie (u / 168))))
    | r, _ => (r, t))).wrapUp

def execChurnKernelResult (unit : Word32) (kernel : Nat) (observed expected : Word64) (s : State) :
    Host.Outcome State Fault Refusal :=
  .next (
    match s.qtn.churn, unitKey unit.toNat with
    | some c, some k =>
      if c.aborting then s
      else
        let s1 := s.kernelResult c k kernel observed expected
        match s1.qtn.churn with
        | some c1 => s1.wr qtnChurnStatusProgress (s1.churnProgress c1)
        | none => s1
    | _, _ => s).wrapUp

end Sys2Proof.Machine
end

