-- ==== Sys2Proof/Machine/Dispatch.lean ====
section
/-!
DEFINITION. One arm per command: a direct call of its meaning, or its rejection by name.
-/
namespace Sys2Proof.Machine

def exec (i : Instr) (s : State) : Host.Outcome State Fault Refusal :=
  match i with
  | .beatRefEdge t ptp => Sys2Proof.Machine.execBeatRefEdge t ptp s
  | .beatDerivedEdge t ptp => Sys2Proof.Machine.execBeatDerivedEdge t ptp s
  | .beatLoss t => Sys2Proof.Machine.execBeatLoss t s
  | .beatLost => Sys2Proof.Machine.execBeatLost s
  | .renum path => Sys2Proof.Machine.execRenum path s
  | .beatCompWrite path v => Sys2Proof.Machine.execBeatCompWrite path v s
  | .beatSourceChange path v => Sys2Proof.Machine.execBeatSourceChange path v s
  | .slipCheck ptp => Sys2Proof.Machine.execSlipCheck ptp s
  | .ptpSyncRx src intervalLog twoStep offset => Sys2Proof.Machine.execPtpSyncRx src intervalLog twoStep offset s
  | .ptpFollowUpRx src offset => Sys2Proof.Machine.execPtpFollowUpRx src offset s
  | .ptpDelayRespRx src delay => Sys2Proof.Machine.execPtpDelayRespRx src delay s
  | .ptpAnnounceRx src ann => Sys2Proof.Machine.execPtpAnnounceRx src ann s
  | .loLatchRead path addr => Sys2Proof.Machine.execLoLatchRead path addr s
  | .registerWrite path addr v => Sys2Proof.Machine.execRegisterWrite path addr v s
  | .doorbell path q v => Sys2Proof.Machine.execDoorbell path q v s
  | .admissionCandidate q => Sys2Proof.Machine.execAdmissionCandidate q s
  | .schedulingRound p => Sys2Proof.Machine.execSchedulingRound p s
  | .quotaWindowStart q => Sys2Proof.Machine.execQuotaWindowStart q s
  | .agePromotion arbiter tag waited => Sys2Proof.Machine.execAgePromotion arbiter tag waited s
  | .admCfgWrite path q v => Sys2Proof.Machine.execAdmCfgWrite path q v s
  | .admQuotaWindowWrite path q window v => Sys2Proof.Machine.execAdmQuotaWindowWrite path q window v s
  | .admClearRefused path q => Sys2Proof.Machine.execAdmClearRefused path q s
  | .admClearDeferred path q => Sys2Proof.Machine.execAdmClearDeferred path q s
  | .queueEnable path q v => Sys2Proof.Machine.execQueueEnable path q v s
  | .queueDisable path q v => Sys2Proof.Machine.execQueueDisable path q v s
  | .ringConfigWrite path q reg v => Sys2Proof.Machine.execRingConfigWrite path q reg v s
  | .cplRingConfigWrite path q reg v => Sys2Proof.Machine.execCplRingConfigWrite path q reg v s
  | .cplConsume path q v => Sys2Proof.Machine.execCplConsume path q v s
  | .irqTimeout q => Sys2Proof.Machine.execIrqTimeout q s
  | .syncHiWrite path p n v => Sys2Proof.Machine.execSyncHiWrite path p n v s
  | .syncLoWrite path p n v => Sys2Proof.Machine.execSyncLoWrite path p n v s
  | .nop l => Sys2Proof.Machine.execNop l s
  | .endList l => Sys2Proof.Machine.execEndList l s
  | .setaddr l => Sys2Proof.Machine.execSetaddr l s
  | .write l => Sys2Proof.Machine.execWrite l s
  | .enqueue l => Sys2Proof.Machine.execEnqueue l s
  | .signal l => Sys2Proof.Machine.execSignal l s
  | .wait l => Sys2Proof.Machine.execWait l s
  | .rsignal l => Sys2Proof.Machine.execRsignal l s
  | .copy l => Sys2Proof.Machine.execCopy l s
  | .convert l => Sys2Proof.Machine.execConvert l s
  | .tap l => Sys2Proof.Machine.execTap l s
  | .mma l => Sys2Proof.Machine.execMma l s
  | .setshape l => Sys2Proof.Machine.execSetshape l s
  | .vew l => Sys2Proof.Machine.execVew l s
  | .vun l => Sys2Proof.Machine.execVun l s
  | .vred l => Sys2Proof.Machine.execVred l s
  | .allreduce l => Sys2Proof.Machine.execAllreduce l s
  | .redscat l => Sys2Proof.Machine.execRedscat l s
  | .allgather l => Sys2Proof.Machine.execAllgather l s
  | .bcast l => Sys2Proof.Machine.execBcast l s
  | .mdec l elements => Sys2Proof.Machine.execMdec l elements s
  | .menc l => Sys2Proof.Machine.execMenc l s
  | .mflush l pics pool => Sys2Proof.Machine.execMflush l pics pool s
  | .ckbegin l => Sys2Proof.Machine.execCkbegin l s
  | .ckwrite l => Sys2Proof.Machine.execCkwrite l s
  | .ckdone l => Sys2Proof.Machine.execCkdone l s
  | .ckread l => Sys2Proof.Machine.execCkread l s
  | .step l => Sys2Proof.Machine.execStep l s
  | .tmark l => Sys2Proof.Machine.execTmark l s
  | .waitbeat l => Sys2Proof.Machine.execWaitbeat l s
  | .waitticks l => Sys2Proof.Machine.execWaitticks l s
  | .setmark l => Sys2Proof.Machine.execSetmark l s
  | .stamp l => Sys2Proof.Machine.execStamp l s
  | .waitbeatRelease l => Sys2Proof.Machine.execWaitbeatRelease l s
  | .waitticksExpiry l => Sys2Proof.Machine.execWaitticksExpiry l s
  | .collectiveMark l => Sys2Proof.Machine.execCollectiveMark l s
  | .tileComplete l t wrong ecc => Sys2Proof.Machine.execTileComplete l t wrong ecc s
  | .wheelAdvance p => Sys2Proof.Machine.execWheelAdvance p s
  | .shadowSlotWaitExpiry d => Sys2Proof.Machine.execShadowSlotWaitExpiry d s
  | .shadowComplete l t wrong ecc => Sys2Proof.Machine.execShadowComplete l t wrong ecc s
  | .arbiterComplete l t wrong ecc => Sys2Proof.Machine.execArbiterComplete l t wrong ecc s
  | .arbTimeout l t => Sys2Proof.Machine.execArbTimeout l t s
  | .mapImageClosed => Sys2Proof.Machine.execMapImageClosed s
  | .reconciliation => Sys2Proof.Machine.execReconciliation s
  | .quarantine path unit => Sys2Proof.Machine.execQuarantine path unit s
  | .suspect path unit => Sys2Proof.Machine.execSuspect path unit s
  | .reinstate path unit epoch => Sys2Proof.Machine.execReinstate path unit epoch s
  | .churnGrant path level dies => Sys2Proof.Machine.execChurnGrant path level dies s
  | .churnAbort path => Sys2Proof.Machine.execChurnAbort path s
  | .churnKernelResult unit kernel observed expected => Sys2Proof.Machine.execChurnKernelResult unit kernel observed expected s
  | .churnRunEnd => Sys2Proof.Machine.execChurnRunEnd s
  | .packBegin path id version length => Sys2Proof.Machine.execPackBegin path id version length s
  | .packData path offset bytes => Sys2Proof.Machine.execPackData path offset bytes s
  | .packCommit via => Sys2Proof.Machine.execPackCommit via s
  | .jobFaultRx sub icrcOk m => Sys2Proof.Machine.execJobFaultRx sub icrcOk m s
  | .jobFaultResend => Sys2Proof.Machine.execJobFaultResend s
  | .jobQuiet p e => Sys2Proof.Machine.execJobQuiet p e s
  | .jobDeclare path p e => Sys2Proof.Machine.execJobDeclare path p e s
  | .jobRelease path p e => Sys2Proof.Machine.execJobRelease path p e s
  | .jobRestartArm path p e v => Sys2Proof.Machine.execJobRestartArm path p e v s
  | .jobRestartMark p e => Sys2Proof.Machine.execJobRestartMark p e s
  | .sealMark p e slotB => Sys2Proof.Machine.execSealMark p e slotB s
  | .sealTimeout p e slotB => Sys2Proof.Machine.execSealTimeout p e slotB s
  | .agreeRx h pos diff digest => Sys2Proof.Machine.execAgreeRx h pos diff digest s
  | .agreeResultRx h result lowest => Sys2Proof.Machine.execAgreeResultRx h result lowest s
  | .kftWriteRx h addr bytes => Sys2Proof.Machine.execKftWriteRx h addr bytes s
  | .kftReadReqRx h addr len => Sys2Proof.Machine.execKftReadReqRx h addr len s
  | .kftReadRespRx h addr bytes => Sys2Proof.Machine.execKftReadRespRx h addr bytes s
  | .kftSignalRx h sync value => Sys2Proof.Machine.execKftSignalRx h sync value s
  | .kftSignalMaxRx h sync value => Sys2Proof.Machine.execKftSignalMaxRx h sync value s
  | .kftEnqueueRx h queue cookie clAddr => Sys2Proof.Machine.execKftEnqueueRx h queue cookie clAddr s
  | .kftCollRx h level pos addr bytes => Sys2Proof.Machine.execKftCollRx h level pos addr bytes s
  | .kftAckRx h status => Sys2Proof.Machine.execKftAckRx h status s
  | .kftNackRx h base bitmap => Sys2Proof.Machine.execKftNackRx h base bitmap s
  | .kftRto conn psn => Sys2Proof.Machine.execKftRto conn psn s
  | .connReqRx h number => Sys2Proof.Machine.execConnReqRx h number s
  | .connAckRx h number => Sys2Proof.Machine.execConnAckRx h number s
  | .connCloseRx h number => Sys2Proof.Machine.execConnCloseRx h number s
  | .connRejectRx h reason => Sys2Proof.Machine.execConnRejectRx h reason s
  | .connIdleClose conn => Sys2Proof.Machine.execConnIdleClose conn s
  | .fabricLinkUp sub => Sys2Proof.Machine.execFabricLinkUp sub s
  | .fabricLinkDown sub => Sys2Proof.Machine.execFabricLinkDown sub s
  | .laneFault port lane => Sys2Proof.Machine.execLaneFault port lane s
  | .routeDataWrite path v => Sys2Proof.Machine.execRouteDataWrite path v s
  | .beatAnnSend => Sys2Proof.Machine.execBeatAnnSend s
  | .beatAnnRx sub icrcOk m => Sys2Proof.Machine.execBeatAnnRx sub icrcOk m s
  | .perstDeassert => Sys2Proof.Machine.execPerstDeassert s
  | .pcieLinkReset kind => Sys2Proof.Machine.execPcieLinkReset kind s
  | .functionLevelReset f => Sys2Proof.Machine.execFunctionLevelReset f s
  | .bar2Read f offset len => Sys2Proof.Machine.execBar2Read f offset len s
  | .bar2Write f offset bytes => Sys2Proof.Machine.execBar2Write f offset bytes s
  | .pcieCompletionRx f addr status bytes => Sys2Proof.Machine.execPcieCompletionRx f addr status bytes s
  | .pcieCplTimeout f addr len => Sys2Proof.Machine.execPcieCplTimeout f addr len s
  | .spdmRequest r => Sys2Proof.Machine.execSpdmRequest r s
  | .mgtRead m offset count => Sys2Proof.Machine.execMgtRead m offset count s
  | .mgtWrite m offset v mask => Sys2Proof.Machine.execMgtWrite m offset v mask s
  | .mgtAckRx m => Sys2Proof.Machine.execMgtAckRx m s
  | .reportRetry => Sys2Proof.Machine.execReportRetry s
  | .mctpControlMsg c => Sys2Proof.Machine.execMctpControlMsg c s
  | .mctpVendorRead addr => Sys2Proof.Machine.execMctpVendorRead addr s
  | .mctpVendorWrite target v => Sys2Proof.Machine.execMctpVendorWrite target v s
  | .pldmGetTid => Sys2Proof.Machine.execPldmGetTid s
  | .pldmSetTid tid => Sys2Proof.Machine.execPldmSetTid tid s
  | .pldmGetPldmVersion type => Sys2Proof.Machine.execPldmGetPldmVersion type s
  | .pldmGetPldmTypes => Sys2Proof.Machine.execPldmGetPldmTypes s
  | .pldmGetPldmCommands type => Sys2Proof.Machine.execPldmGetPldmCommands type s
  | .pldmMonitoringRequest r => Sys2Proof.Machine.execPldmMonitoringRequest r s
  | .pldmFirmwareUpdate r => Sys2Proof.Machine.execPldmFirmwareUpdate r s
  | .pldmUnsupported type code => Sys2Proof.Machine.execPldmUnsupported type code s
  | .heartbeatWrite core v => Sys2Proof.Machine.execHeartbeatWrite core v s
  | .heartbeatMiss core => Sys2Proof.Machine.execHeartbeatMiss core s
  | .takeoverComplete => Sys2Proof.Machine.execTakeoverComplete s
  | .takeoverOverdue => Sys2Proof.Machine.execTakeoverOverdue s
  | .engineStall p e => Sys2Proof.Machine.execEngineStall p e s
  | .engineResetOverdue p e => Sys2Proof.Machine.execEngineResetOverdue p e s
  | .rmgSnapshot => Sys2Proof.Machine.execRmgSnapshot s
  | .rmgAckWrite core gen => Sys2Proof.Machine.execRmgAckWrite core gen s
  | .rstEngine path v => Sys2Proof.Machine.execRstEngine path v s
  | .rstPartition path v => Sys2Proof.Machine.execRstPartition path v s
  | .rstDevice path v => Sys2Proof.Machine.execRstDevice path v s
  | .rstClaRegion path v => Sys2Proof.Machine.execRstClaRegion path v s
  | .fenceDrainEnd d => Sys2Proof.Machine.execFenceDrainEnd d s
  | .fenceAnswerOverrun d => Sys2Proof.Machine.execFenceAnswerOverrun d s
  | .captureComplete d => Sys2Proof.Machine.execCaptureComplete d s
  | .resetPhaseDone d => Sys2Proof.Machine.execResetPhaseDone d s
  | .captureChunkSend p => Sys2Proof.Machine.execCaptureChunkSend p s
  | .aonPowerUp straps => Sys2Proof.Machine.execAonPowerUp straps s
  | .aonResetPin us straps => Sys2Proof.Machine.execAonResetPin us straps s
  | .sysOscQualified => Sys2Proof.Machine.execSysOscQualified s
  | .pllLock d => Sys2Proof.Machine.execPllLock d s
  | .bootImageLoaded => Sys2Proof.Machine.execBootImageLoaded s
  | .pgoodRise d => Sys2Proof.Machine.execPgoodRise d s
  | .pgoodLoss d => Sys2Proof.Machine.execPgoodLoss d s
  | .hbmTrainingDone d => Sys2Proof.Machine.execHbmTrainingDone d s
  | .serdesCalDone d => Sys2Proof.Machine.execSerdesCalDone d s
  | .wakeStepTimeout d => Sys2Proof.Machine.execWakeStepTimeout d s
  | .wakeRetryOffEnd d => Sys2Proof.Machine.execWakeRetryOffEnd d s
  | .wakeGo path => Sys2Proof.Machine.execWakeGo path s
  | .domainOn path v => Sys2Proof.Machine.execDomainOn path v s
  | .domainOff path v => Sys2Proof.Machine.execDomainOff path v s
  | .powerFailWarning => Sys2Proof.Machine.execPowerFailWarning s
  | .pmbusPoll readings => Sys2Proof.Machine.execPmbusPoll readings s
  | .vsetWrite path d v => Sys2Proof.Machine.execVsetWrite path d v s
  | .voutSettled d mv => Sys2Proof.Machine.execVoutSettled d mv s
  | .powerLimiter watts => Sys2Proof.Machine.execPowerLimiter watts s
  | .clockLimitWrite path v => Sys2Proof.Machine.execClockLimitWrite path v s
  | .partCfgWrite path v => Sys2Proof.Machine.execPartCfgWrite path v s
  | .scrubRead h ch outcome => Sys2Proof.Machine.execScrubRead h ch outcome s
  | .rowRemapCopyDone h ch bank row => Sys2Proof.Machine.execRowRemapCopyDone h ch bank row s
  | .bistGroupEnd g findings watts => Sys2Proof.Machine.execBistGroupEnd g findings watts s
  | .bistRepairPhaseEnd ms => Sys2Proof.Machine.execBistRepairPhaseEnd ms s
  | .thermalSample readings droopMv => Sys2Proof.Machine.execThermalSample readings droopMv s
  | .thermalTrip sensor => Sys2Proof.Machine.execThermalTrip sensor s
  | .thermalResume path => Sys2Proof.Machine.execThermalResume path s
  | .thresholdWrite path reg v => Sys2Proof.Machine.execThresholdWrite path reg v s
  | .evrFlush path => Sys2Proof.Machine.execEvrFlush path s
  | .evrRecordWritten => Sys2Proof.Machine.execEvrRecordWritten s
  | .panelUpdateStart => Sys2Proof.Machine.execPanelUpdateStart s
  | .panelBusyRelease => Sys2Proof.Machine.execPanelBusyRelease s
  | .panelDelayExpiry => Sys2Proof.Machine.execPanelDelayExpiry s
  | .panelBusyTimeout => Sys2Proof.Machine.execPanelBusyTimeout s
  | .panelUpdateNow path => Sys2Proof.Machine.execPanelUpdateNow path s
  | .panelClearFailed path => Sys2Proof.Machine.execPanelClearFailed path s
  | .panelData path offset bytes => Sys2Proof.Machine.execPanelData path offset bytes s
  | .panelCommit path => Sys2Proof.Machine.execPanelCommit path s
  | .claSync src => Sys2Proof.Machine.execClaSync src s
  | .claIdle src hdr => Sys2Proof.Machine.execClaIdle src hdr s
  | .claFramePtr src hdr w => Sys2Proof.Machine.execClaFramePtr src hdr w s
  | .claFrameData src hdr words => Sys2Proof.Machine.execClaFrameData src hdr words s
  | .claScope src hdr w => Sys2Proof.Machine.execClaScope src hdr w s
  | .claDeviceId src hdr w => Sys2Proof.Machine.execClaDeviceId src hdr w s
  | .claCheck src hdr words => Sys2Proof.Machine.execClaCheck src hdr words s
  | .claActionNone src hdr w => Sys2Proof.Machine.execClaActionNone src hdr w s
  | .claClearCheck src hdr => Sys2Proof.Machine.execClaClearCheck src hdr s
  | .claArm src hdr => Sys2Proof.Machine.execClaArm src hdr s
  | .claCommit src hdr => Sys2Proof.Machine.execClaCommit src hdr s
  | .claEnd src hdr => Sys2Proof.Machine.execClaEnd src hdr s
  | .claStreamSourceEnd src => Sys2Proof.Machine.execClaStreamSourceEnd src s
  | .claBusPassEnd lineHigh => Sys2Proof.Machine.execClaBusPassEnd lineHigh s
  | .claExtGo path v => Sys2Proof.Machine.execClaExtGo path v s
  | .claIcpRelease r => Sys2Proof.Machine.execClaIcpRelease r s
  | .claRegionHold path r => Sys2Proof.Machine.execClaRegionHold path r s
  | .claRegionUnhold path r => Sys2Proof.Machine.execClaRegionUnhold path r s
  | .claRegionAssign path r p => Sys2Proof.Machine.execClaRegionAssign path r p s
  | .cfgDoneHigh => Sys2Proof.Machine.execCfgDoneHigh s
  | .claDoneTimeout => Sys2Proof.Machine.execClaDoneTimeout s
  | .goLocal path => Sys2Proof.Machine.execGoLocal path s
  | .releaseDone path => Sys2Proof.Machine.execReleaseDone path s
  | .claFrameScan outcome => Sys2Proof.Machine.execClaFrameScan outcome s
  | .claTargetAccess path offset wr answer => Sys2Proof.Machine.execClaTargetAccess path offset wr answer s
  | .claTargetTimeout path offset wr => Sys2Proof.Machine.execClaTargetTimeout path offset wr s
  | .mediaSessionOpen path n => Sys2Proof.Machine.execMediaSessionOpen path n s
  | .mediaSessionClose path n => Sys2Proof.Machine.execMediaSessionClose path n s
  | .mediaForceKey path n => Sys2Proof.Machine.execMediaForceKey path n s
  | .mediaPartConfig path p v => Sys2Proof.Machine.execMediaPartConfig path p v s
  | .mediaDecodeComplete l r => Sys2Proof.Machine.execMediaDecodeComplete l r s
  | .mediaEncodeComplete l r => Sys2Proof.Machine.execMediaEncodeComplete l r s
  | .traceChannelEnable path p c v => Sys2Proof.Machine.execTraceChannelEnable path p c v s
  | .traceChannelDisable path p c v => Sys2Proof.Machine.execTraceChannelDisable path p c v s
  | .traceChannelStopped p c => Sys2Proof.Machine.execTraceChannelStopped p c s
  | .traceDrain path p => Sys2Proof.Machine.execTraceDrain path p s
  | .traceDrainDone p => Sys2Proof.Machine.execTraceDrainDone p s
  | .counterClear path v => Sys2Proof.Machine.execCounterClear path v s
  | .counterSample => Sys2Proof.Machine.execCounterSample s
  | .debugChallenge v => Sys2Proof.Machine.execDebugChallenge v s
  | .debugResponse w => Sys2Proof.Machine.execDebugResponse w s
  | .debugLock path => Sys2Proof.Machine.execDebugLock path s
  | .jtagTestLogicReset => Sys2Proof.Machine.execJtagTestLogicReset s
  | .debugHalt v => Sys2Proof.Machine.execDebugHalt v s
  | .debugDeferredHalt core => Sys2Proof.Machine.execDebugDeferredHalt core s
  | .haltLockBreak core => Sys2Proof.Machine.execHaltLockBreak core s
  | .debugResume v => Sys2Proof.Machine.execDebugResume v s
  | .debugRead offset => Sys2Proof.Machine.execDebugRead offset s
  | .debugWrite offset v => Sys2Proof.Machine.execDebugWrite offset v s
  | .debugForcedRead offset => Sys2Proof.Machine.execDebugForcedRead offset s
  | .jtagIdcode => Sys2Proof.Machine.execJtagIdcode s
  | .jtagSamplePreload pins => Sys2Proof.Machine.execJtagSamplePreload pins s
  | .jtagExtest => Sys2Proof.Machine.execJtagExtest s
  | .jtagExtestPulse => Sys2Proof.Machine.execJtagExtestPulse s
  | .jtagExtestTrain => Sys2Proof.Machine.execJtagExtestTrain s
  | .jtagClamp => Sys2Proof.Machine.execJtagClamp s
  | .jtagHighz => Sys2Proof.Machine.execJtagHighz s
  | .jtagBypass code => Sys2Proof.Machine.execJtagBypass code s
  | .beatTick ecc net => Sys2Proof.Machine.execBeatTick ecc net s
  | .aonPowerLoss => Sys2Proof.Machine.execAonPowerLoss s
  | .pcieLinkUp width rate => Sys2Proof.Machine.execPcieLinkUp width rate s
  | .claNocInitiatorRequest addr r => Sys2Proof.Machine.execClaNocInitiatorRequest addr r s
  | .claTapData r accepted offered => Sys2Proof.Machine.execClaTapData r accepted offered s
  | .claRegionFrame port egress act => Sys2Proof.Machine.execClaRegionFrame port egress act s

end Sys2Proof.Machine
end

