-- ==== Sys2Proof/Safety.lean ====
section
/-!
DEFINITION. What claims about a run are stated in: the canonical form of the sparse maps of the state, in which equal
contents are equal data.
-/
namespace Sys2Proof.Machine

/-- Memory is in canonical form: addresses strictly rise, and no listed byte equals what its address reads as unlisted. -/
def Memory.wf (m : MemSt) : Bool := SMap.wf m.base m.bytes

/-- The registers are in canonical form: no listed register holds its reset value. -/
def State.regsWf (s : State) : Bool := SMap.wf regDefault s.regs

/-- Registers, memory with its poison marks, and every other sparse map that the state holds directly are in canonical
form. -/
def State.canonical (s : State) : Bool :=
  s.regsWf && Memory.wf s.mem && SMap.wf (fun _ => false) s.mem.poison && SMap.wf (fun _ => 0) s.sync &&
  SMap.wf (fun _ => QueueSt.reset) s.queues && SMap.wf (fun _ => JobSt.reset) s.jobs && SMap.wf (fun _ => WheelSt.reset) s.wheels &&
  SMap.wf (fun _ => ScreenUnit.reset) s.screen && SMap.wf (fun _ => ScreenUnit.reset) s.vscreen &&
  SMap.wf (fun _ => []) s.scrLog && SMap.wf (fun _ => none) s.steps && SMap.wf (fun _ => 0) s.partSteps &&
  SMap.wf (fun _ => none) s.media && SMap.wf (fun _ => none) s.staged && SMap.wf (fun _ => 0) s.msix &&
  SMap.wf (fun _ => []) s.latches && SMap.wf (fun _ => ArbSt.reset) s.arbs

/-! ### Frames -/

/-- Two register fields share no bit. -/
def Fld.apart (f g : Fld) : Bool :=
  decide (f.addr ≠ g.addr) || decide (f.lo + f.width ≤ g.lo) || decide (g.lo + g.width ≤ f.lo)

/-- Every register field that shares no bit with one of `fs` reads in `t` as in `s`. -/
def State.fieldsKept (fs : List Fld) (s t : State) : Prop := ∀ g : Fld, fs.all (fun f => f.apart g) = true → t.rd g = s.rd g

/-- From `s` to `t` only registers changed, and of them only the fields `fs`. -/
def State.onlyFields (fs : List Fld) (s t : State) : Prop := t = { s with regs := t.regs } ∧ s.fieldsKept fs t

/-! ### One list alone

What an instruction does is stated where one list is admitted and nothing else goes on: no trace record and no counter event
follows from it, and no other list waits for it. -/

/-- No trace channel is enabled and every counter is frozen: trace records and counter events leave the state alone. -/
def State.untraced (s : State) : Bool :=
  (List.range 4).all (fun p => (List.range 8).all (fun c => !s.on (Reg.trcChCtlEn p c))) && (List.range 4).all s.frozen

/-- No memory line holds an error or has had one met, no frame waits at a fabric port, and no media session waits for space in the
syntax buffer: nothing but the lists goes on at the end of a command. -/
def State.calm (s : State) : Bool :=
  decide (s.mem.flaws = []) && decide (s.mem.found = []) &&
  (List.range 16).all (fun n => decide ((s.arb (portKey n)).waiting = [])) &&
  s.media.all (fun e => match s.sess e.1 with | some x => decide (x.unparsed = []) | none => true)

/-- The list `r` is the only one admitted; it runs, and is to begin its fetched instruction word `w`, of opcode `op`. -/
def State.lone (s : State) (r : ListRef) (op : Nat) (l : RunList) (w : Nat) : Prop :=
  s.untraced = true ∧ s.calm = true ∧ s.lists = [l] ∧ s.ready r op = some (l, w) ∧ l.faults = [] ∧ l.asks = [] ∧ s.mem.ext = []

/-- The list before its next instruction is fetched: progress noted, nothing of the instruction that completed left. -/
def RunList.next (l : RunList) (now : Nat) : RunList :=
  { l with progress := now, total := 0, done := [], held := [], asks := [], idx := l.idx + 1, word := none, work := .ready }

/-- The list after its current instruction is complete: the next one fetched (R114). -/
def State.onward (s : State) (l : RunList) : RunList := s.fetched (l.next s.tick)

/-- Another instruction follows, and it is fetched from memory as a word of a legal opcode. -/
def State.follows (s : State) (l : RunList) : Bool :=
  decide (l.idx + 1 < l.hdr.instrs) && (s.onward l).word.isSome && (s.onward l).ending.isNone

/-! ### Management messages and COMMANDs (R193, R242) -/

/-- The state in which a management message is acted on, if it reaches the port and passes the tests of R193: its SEQ is noted. -/
def State.mgtIn (s : State) (m : MgtHdr) (type : Nat) (payload : List Byte) : Option State :=
  if s.cc3Up && s.reaches m payload && s.accepts m type payload then
    some { s with link := { s.link with lastSeq := s.link.lastSeq.set (fun _ => 0) m.key.val (m.seq + 1) } }
  else none

/-- The state in which a COMMAND is obeyed, if it is accepted: over MCTP while CC3 runs, over the management protocol as a message. -/
def State.commandIn (s : State) (via : CmdVia) (code : Nat) (args : List Byte) : Option State :=
  match via with
  | .mgmt m => s.mgtIn m 5 (commandPayload code args)
  | .mctp => if s.cc3Up then some s else none

/-- The state after a COMMAND with this result, which QTN_CMD_LAST and the answer show. -/
def State.commandDone (s : State) (via : CmdVia) (code r : Nat) : State :=
  ((s.wr Reg.qtnCmdLastCode code).wr Reg.qtnCmdLastResult r).commandAnswer via code r

end Sys2Proof.Machine
end

