-- ==== Sys2Proof/Certificates/Slice0/Obligations.lean ====
section
/-!
DEFINITION. The statements for the provers. Each docstring names the rules of spec/ that its statement formalises; where a
clause rests on the model's own choice it says so.
-/
open Sys2Proof Sys2Proof.Machine Sys2Proof.Machine.Reg

/-- Shows completing: BEAT_REF_EDGE, BEAT_DERIVED_EDGE, BEAT_LOSS, BEAT_LOST, BEAT_TICK, SLIP_CHECK.
R32, R39 (02_the_beat.md): in LOCKED the first edge inside the window is the qualified edge: it steers PERIOD, over the last 256 edges,
and the prediction, and holds the phase within ±32 units (5 ns) of DELAY; one before the window sets GLITCH and nothing else. Shown
with DELAY unchanged, no RENUM waiting and numbers that do not come from PTP (the other cases are those of R35, R40 and R43).
R33 (02_the_beat.md): outside LOCKED an edge within 2.5 ns of 10 µs after the last one lengthens the run, any other starts a new one;
the 16th edge of a run in ACQUIRE sets the period from those edges, numbers the beat, enters LOCKED and sets ACQUIRED.
R30 (02_the_beat.md): the derived source locks the unit at its first edge (that BEAT_PERIOD is then the nominal period is the model's
choice, log entry 83) and then steers it as any qualified edge.
R42 (02_the_beat.md): a window that closes without an edge leaves LOCKED for HOLDOVER with HOLD_COUNT 0, as a device event of
R172, with LOSS and a report; 10,000 ticks of holdover leave it for FREE with LOST, and beat-locked jobs fault.
R26, R28, R41 (02_the_beat.md): a beat tick raises the number by 1, returns phase and interpolator to 0 and counts itself. Shown
where no die is throttled, no trace channel holds a record, no slew is under way and the unit is not in HOLDOVER.
R37 (02_the_beat.md): at a beat number divisible by 65,536 with PTP locked, SLIP_DIFF takes the PTP number less the local
one, and SLIP sets when they differ; an ambiguous fraction sets AMBIG and leaves SLIP_DIFF. -/
def Obligations.BeatReference : Prop :=
  (
  (∀ (s : State) (t ptp : Nat), s.pwr.aon = true → s.rd beatCtlSrc = 0 → s.rd beatStatusState = 1 →
    (200 * s.beat.pred ≤ 200 * t + s.period → 200 * t ≤ 200 * s.beat.pred + s.period → s.rd beatCompDelay = s.beat.delayInForce →
      s.beat.renum = false → 2 ≤ s.rd beatCtlNumSrc →
      exec (.beatRefEdge t ptp) s =
        .next ((s.steer t ((t - s.beat.lastEdge.getD t) :: s.beat.periods)).holdPhase).wrapUp) ∧
    (200 * t + s.period < 200 * s.beat.pred → exec (.beatRefEdge t ptp) s = .next (s.event beatEventGlitch).wrapUp)) ∧
  (∀ (s : State) (t : Nat) (ps : List Nat), ps ≠ [] →
    s.steer t ps = (let m := (ps.take 256).sum / (ps.take 256).length
      { s with beat := { s.beat with periods := ps.take 256, lastEdge := some t, pred := t + m } }.wr beatPeriodPeriod m)) ∧
  (∀ (s : State), s.beat.slew = 0 → s.beat.share = 0 → 32 ≤ s.beat.delayInForce → s.beat.delayInForce < 32768 →
    s.beat.phase < s.beat.delayInForce + 32768 →
    ∃ p, s.holdPhase = { s with beat := { s.beat with phase := p } } ∧ s.beat.delayInForce ≤ p + 32 ∧ p ≤ s.beat.delayInForce + 32 ∧
      (s.beat.delayInForce ≤ s.beat.phase + 32 → s.beat.phase ≤ s.beat.delayInForce + 32 → p = s.beat.phase)) ∧
  (∀ (s : State) (t ptp l : Nat), s.pwr.aon = true → s.rd beatCtlSrc = 0 → s.rd beatStatusState ≠ 1 →
    s.beat.lastEdge = some l →
    (159960 ≤ t - l → t - l ≤ 160040 → 1 ≤ s.beat.run → s.beat.run < 15 →
      exec (.beatRefEdge t ptp) s =
        .next ({ s with beat := { s.beat with run := s.beat.run + 1, runFirst := s.beat.runFirst, lastEdge := some t } }).wrapUp) ∧
    ((t - l < 159960 ∨ 160040 < t - l) →
      exec (.beatRefEdge t ptp) s =
        .next ({ s with beat := { s.beat with run := 1, runFirst := t, lastEdge := some t } }).wrapUp) ∧
    (∀ u, 159960 ≤ t - l → t - l ≤ 160040 → s.beat.run = 15 → s.rd beatStatusState = 0 →
      u = ({ s with beat := { s.beat with run := 16, runFirst := s.beat.runFirst, lastEdge := some t } }).steer t
        (List.replicate 15 ((t - s.beat.runFirst) / 15)) →
      exec (.beatRefEdge t ptp) s =
        .next ((((({ u with beat := { u.beat with run := 0, renum := false, delayInForce := u.rd beatCompDelay } }).numberAtLock
          ptp).setBeatState 1).event beatEventAcquired)).wrapUp)) ∧
  (∀ (s : State) (t ptp l : Nat), s.pwr.aon = true → s.rd beatCtlSrc = 1 → s.rd beatStatusState = 1 → 2 ≤ s.rd beatCtlNumSrc →
    s.rd beatCompDelay = s.beat.delayInForce → s.beat.renum = false → s.beat.lastEdge = some l →
    exec (.beatDerivedEdge t ptp) s = .next ((s.steer t ((t - l) :: s.beat.periods)).holdPhase).wrapUp) ∧
  (∀ (s u : State) (t ptp : Nat), s.pwr.aon = true → s.rd beatCtlSrc = 1 → s.rd beatStatusState = 0 → u = s.steer t [160000] →
    exec (.beatDerivedEdge t ptp) s =
      .next ((((({ u with beat := { u.beat with run := 0, renum := false, delayInForce := u.rd beatCompDelay } }).numberAtLock
        ptp).setBeatState 1).event beatEventAcquired)).wrapUp)) ∧
  (
  (∀ (s : State) (t : Nat), s.pwr.aon = true → s.rd beatCtlSrc = 0 → s.rd beatStatusState = 1 →
    200 * s.beat.pred + s.period < 200 * t →
    exec (.beatLoss t) s =
      .next (((((({ s with beat := { s.beat with run := 0, lastEdge := none, renum := false } }.wr beatStatusHoldCount 0).wr
        beatStatusState 2).hostEvent s.parts).holdPin).event beatEventLoss).report 4)) ∧
  (∀ (s : State), s.rd beatStatusState = 2 → s.rd beatStatusHoldCount = 10000 →
    exec .beatLost s =
      .next ((((((s.wr beatStatusState 3).hostEvent s.parts).holdPin).event beatEventLost).report 4).faultBeatLocked 4).wrapUp)) ∧
  (
  ∀ (s : State), s.pwr.aon = true → (∀ d, d < 4 → 100 ≤ s.rd (clkPct d)) → s.dbg.trace = [] →
    s.rd beatStatusState ≠ 2 → s.beat.slew = 0 → s.beat.num + 1 < 2 ^ 48 →
    exec (.beatTick [] []) s =
      .next (({ s with beat := { s.beat with num := s.beat.num + 1, phase := 0, ticks := s.beat.ticks + 1, interp := 0,
                                             share := 0 } }.wr beatStatusSlewing 0).risePin).wrapUp) ∧
  (
  ∀ (s : State) (ptp : Nat), s.rd beatStatusState = 1 → s.rd beatStatusPtpLock = 1 → s.beat.num % 65536 = 0 → s.beat.phase = 0 →
    (fractionOk (s.ptpNumber ptp).2 = true →
      exec (.slipCheck ptp) s =
        .next (let s1 := s.wr beatSlipDiffDiff (twos 32 ((s.ptpNumber ptp).1 - s.beat.num))
          if (s.ptpNumber ptp).1 = s.beat.num then s1 else s1.event beatEventSlip)) ∧
    (fractionOk (s.ptpNumber ptp).2 = false → exec (.slipCheck ptp) s = .next (s.event beatEventAmbig)))

/-- Shows completing: BEAT_COMP_WRITE, BEAT_SOURCE_CHANGE, RENUM, PTP_SYNC_RX, PTP_FOLLOW_UP_RX, PTP_DELAY_RESP_RX, PTP_ANNOUNCE_RX.
R40, R43, R46, R47 (02_the_beat.md): BEAT_COMP and BEAT_CTL are written over the management protocol (or unlocked debug), by
no BAR0 view; DELAY waits for the next qualified edge; a source change in LOCKED begins a holdover with HOLD_COUNT 0, in ACQUIRE it
restarts the run; RENUM in LOCKED is remembered for the next edge.
R34, Table BEAT-2 (02_the_beat.md): Syncs of the chosen master, one-step or with their Follow_Up, steer the servo, which locks at 16
filtered offsets in a row within ±1 µs and loses the lock at one outside; a Delay_Resp that was asked for gives the path delay; an
Announce chooses a master where there is none. That a Delay_Req follows a Sync is the model's choice (log entry 120). -/
def Obligations.BeatSettings : Prop :=
  (
  (∀ (s : State) (v : Word32), s.pwr.aon = true →
    exec (.beatCompWrite .mgmt v) s = .next (s.wr beatCompDelay v.toNat)) ∧
  (∀ (s : State) (v : Word32) (f : Fn), exec (.beatCompWrite (.pf f) v) s = .next s ∧
    exec (.beatSourceChange (.pf f) v) s = .next s ∧ exec (.renum (.pf f)) s = .next s) ∧
  (∀ (s s1 : State) (v : Word32), s.pwr.aon = true → bitsOf v.toNat 4 2 = s.rd beatCtlNumSrc →
    bitsOf v.toNat 1 1 ≠ s.rd beatCtlSrc → bitsOf v.toNat 9 1 = 0 →
    s1 = (((s.wr beatCtlSrc (bitsOf v.toNat 1 1)).wr beatCtlNumSrc (bitsOf v.toNat 4 2)).wr beatCtlOutEn (bitsOf v.toNat 7 1)).wr
      beatCtlOutFree (bitsOf v.toNat 8 1) →
    (s1.rd beatStatusState = 1 → exec (.beatSourceChange .mgmt v) s =
      .next (((({ s1 with beat := { s1.beat with run := 0, lastEdge := none, renum := false } }).wr beatStatusHoldCount
        0).setBeatState 2).holdPin)) ∧
    (s1.rd beatStatusState ≠ 1 → exec (.beatSourceChange .mgmt v) s =
      .next ({ s1 with beat := { s1.beat with run := 0, lastEdge := none } }).holdPin)) ∧
  (∀ (s : State), s.pwr.aon = true → s.rd beatStatusState = 1 →
    ∃ u, exec (.renum .mgmt) s = .next u ∧ u.beat = { s.beat with renum := true, pin := u.beat.pin } ∧ (∀ g : Fld, u.rd g = s.rd g) ∧
      u = { s with regs := u.regs, beat := u.beat, out := u.out })) ∧
  (
  (∀ (s : State) (src : PtpSource) (i d o : Int), s.fromMaster src = true → -4 ≤ i → i ≤ 1 →
    o = Config.ptpFilter s.beat.ptpOffset (d - s.beat.ptpDelay) → s.beat.ptpAsked = true →
    exec (.ptpSyncRx src i false d) s = .next (if -1000 ≤ o ∧ o ≤ 1000 then
        { s with beat := { s.beat with ptpRun := Nat.min 16 (s.beat.ptpRun + 1), ptpAwait := none, ptpOffset := o } }.wr
          beatStatusPtpLock (if 15 ≤ s.beat.ptpRun then 1 else 0)
      else { s with beat := { s.beat with ptpRun := 0, ptpAwait := none, ptpOffset := o } }.wr beatStatusPtpLock 0) ∧
    (s.beat.ptpAwait = some src → exec (.ptpFollowUpRx src d) s = .next (if -1000 ≤ o ∧ o ≤ 1000 then
        { s with beat := { s.beat with ptpRun := Nat.min 16 (s.beat.ptpRun + 1), ptpAwait := none, ptpOffset := o } }.wr
          beatStatusPtpLock (if 15 ≤ s.beat.ptpRun then 1 else 0)
      else { s with beat := { s.beat with ptpRun := 0, ptpAwait := none, ptpOffset := o } }.wr beatStatusPtpLock 0)) ∧
    exec (.ptpSyncRx src i true d) s = .next { s with beat := { s.beat with ptpAwait := some src } }) ∧
  (∀ (s : State) (src : PtpSource) (d : Nat), s.fromMaster src = true →
    (s.beat.ptpAsked = true →
      exec (.ptpDelayRespRx src d) s = .next { s with beat := { s.beat with ptpDelay := d, ptpAsked := false } }) ∧
    (s.beat.ptpAsked = false → exec (.ptpDelayRespRx src d) s = .next s)) ∧
  (∀ (s : State) (src : PtpSource) (a : PtpAnnounce), s.ptpHears src = true → s.master = none →
    exec (.ptpAnnounceRx src a) s =
      .next ({ s with beat := { s.beat with ptpMaster := some (src, a), ptpHeard := s.beat.ticks, ptpRun := 0, ptpAwait := none,
                                            ptpAsked := false } }.wr beatStatusPtpLock 0)) ∧
  (∀ (s : State) (src : PtpSource) (a : PtpAnnounce), s.fromMaster src = true →
    exec (.ptpAnnounceRx src a) s =
      .next { s with beat := { s.beat with ptpMaster := some (src, a), ptpHeard := s.beat.ticks } }))

/-- Shows completing: DOORBELL.
R97, R98, R99, R61 (05_engines_queues_and_command_lists.md): a doorbell moves the tail where the ring holds the new
descriptors; on a device-fed queue it is ignored with DB_IGNORED; a tail outside 0 to 2 × capacity − 1, or one that moves back,
is ignored with DB_BAD; more descriptors than the ring holds are refused as a whole with STATUS 0x10 (that the record's ENGINE bits
are 0 is the model's choice, log entry 123). -/
def Obligations.Doorbell : Prop :=
  ∀ (s : State) (path : Path) (q : Queue) (v : Word32), s.ownsQueue path q = true →
    let tail := bitsOf v.toNat 0 17
    let cap := s.ringCap q
    let n := countBetween cap (s.rd (queHeadHead q)) tail
    (s.rd (queCtlDevEnq q) = 0 → tail < 2 * cap → s.pendingCount q ≤ n → n ≤ cap - 1 →
      exec (.doorbell path q v) s = .next (s.wr (queTailTail q) tail).wrapUp) ∧
    (s.rd (queCtlDevEnq q) = 1 → exec (.doorbell path q v) s = .next (s.event (queStatusDbIgnored q)).wrapUp) ∧
    (s.rd (queCtlDevEnq q) = 0 → (2 * cap ≤ tail ∨ n < s.pendingCount q) →
      exec (.doorbell path q v) s = .next (s.event (queStatusDbBad q)).wrapUp) ∧
    (s.rd (queCtlDevEnq q) = 0 → tail < 2 * cap → s.pendingCount q ≤ n → cap - 1 < n →
      exec (.doorbell path q v) s =
        .next (s.refuseRecord q { desc := tail % 65536, status := 0x10, engine := 0, tail16 := tail / 65536, job := 0, detail := 0,
                                  instr := 0, cookie := 0, irq := false }).wrapUp)

/-- Shows completing: ADMISSION_CANDIDATE, ADM_QUOTA_WINDOW_WRITE, QUOTA_WINDOW_START, AGE_PROMOTION, ADM_CFG_WRITE, ADM_CLEAR_REFUSED,
ADM_CLEAR_DEFERRED.
R60, R63 (03_tags_classes_and_admission.md): a TC0 or TC1 candidate that passes every test is admitted where a record slot is
free: it is appended to the admitted lists, a record slot is reserved, and the next descriptor becomes the candidate; without a
free record slot it waits with CPL_STALL. Shown for a candidate whose reading met nothing, with no answer of the host to retire.
R63, R69 (03_tags_classes_and_admission.md): writes of QUOTA and WINDOW wait for the next window start; there LEFT refills to
CREDITS and the window written since comes into force. A window start that is not due changes nothing.
R52, R55, R56, R57 (03_tags_classes_and_admission.md): a request that comes to a router or die-link output where nothing waits is
granted, and holds the output for a cycle a flit; one with a bad tag is discarded.
R53, R54, R68 (03_tags_classes_and_admission.md): HARD and WEIGHT take
effect at once, CLASS only on an empty queue and TC0 through no BAR0 view; a write of either counter clears it. -/
def Obligations.AdmissionControl : Prop :=
  (
  ∀ (s : State) (q : Queue) (h : Header), s.classOf q < 2 → s.schedulerUp = true → s.judge q = .pass h →
    s.touchCandidate q = s →
    (s.freeRecords q ≠ 0 → exec (.admissionCandidate q) s = .next ((s.takeUp q h).settle).wrapUp) ∧
    (s.freeRecords q = 0 → exec (.admissionCandidate q) s = .next (s.wr (queStatusCplStall q) 1).wrapUp)) ∧
  (∀ (s : State) (q : Queue) (h : Header), s.classOf q ≠ 0 → (s.queue q).credits ≠ 0 →
    ∃ u l, s.takeUp q h = u ∧ u.lists = s.lists ++ [l] ∧ l.queue = q.val ∧ l.desc = (s.queue q).cand ∧ l.hdr = h ∧ l.running = false ∧
      (u.queue q).reserved = (s.queue q).reserved + 1 ∧ u.rd (queAdmCreditLeft q) = s.rd (queAdmCreditLeft q) - h.tiles) ∧
  (
  (∀ (s : State) (path : Path) (q : Queue) (v : Word32), s.ownsQueue path q = true →
    exec (.admQuotaWindowWrite path q true v) s = .next (s.wr (queAdmWindowBeats q) v.toNat) ∧
    exec (.admQuotaWindowWrite path q false v) s = .next (s.wr (queAdmQuotaCredits q) v.toNat)) ∧
  (∀ (s : State) (q : Queue), (s.queue q).winNext ≤ s.beat.num → (s.queue q).held = false →
    exec (.quotaWindowStart q) s =
      .next (let w := Nat.max 1 (s.rd (queAdmWindowBeats q))
        (s.setQueue q { s.queue q with credits := s.rd (queAdmQuotaCredits q), window := w,
                                       winNext := (s.beat.num / w + 1) * w }).wr
          (queAdmCreditLeft q) (s.rd (queAdmQuotaCredits q))).wrapUp) ∧
  (∀ (s : State) (q : Queue), s.beat.num < (s.queue q).winNext → exec (.quotaWindowStart q) s = .next s.wrapUp)) ∧
  (
  (∀ (s : State) (arb : Arbiter) (q : ArbReq) (n : Nat) (a : ArbSt), isHbm arb = false → s.arb (arbKey arb) = a → a.waiting = [] →
    (s.badTag q.tag = true → exec (.agePromotion arb [q] n) s =
      .next ((s.emit (.discarded (arbKey arb) q.tag)).setArb (arbKey arb) { a with cycle := a.cycle + n })) ∧
    (s.badTag q.tag = false → 1 ≤ q.flits → q.flits ≤ 4 → 1 ≤ n → a.free ≤ a.cycle → a.tc0 = [] →
      ∃ b : ArbSt, exec (.agePromotion arb [q] n) s =
          .next ((s.setArb (arbKey arb) b).emit (.grant (arbKey arb) q.tag q.flits)) ∧
        b.waiting = [] ∧ b.cycle = a.cycle + n ∧ b.free = a.cycle + q.flits)) ∧
  (∀ (s : State) (q : Queue) (v : Word32), s.pendingCount q = 0 → s.lists = [] →
    exec (.admCfgWrite .mgmt q v) s =
      .next (((s.wr (queAdmCfgHard q) (bitsOf v.toNat 16 1)).wr (queAdmCfgWeight q) (bitsOf v.toNat 8 8)).wr
        (queAdmCfgClass q) (bitsOf v.toNat 0 2))) ∧
  (∀ (s : State) (f : Fn) (q : Queue) (v : Word32), s.ownsQueue (.pf f) q = true → bitsOf v.toNat 0 2 = 0 →
    exec (.admCfgWrite (.pf f) q v) s =
      .next ((s.wr (queAdmCfgHard q) (bitsOf v.toNat 16 1)).wr (queAdmCfgWeight q) (bitsOf v.toNat 8 8))) ∧
  (∀ (s : State) (path : Path) (q : Queue), s.ownsQueue path q = true →
    exec (.admClearRefused path q) s = .next ((s.wr (queAdmRefusedCount q) 0).wr (queAdmRefusedLast q) 0) ∧
    exec (.admClearDeferred path q) s = .next (s.wr (queAdmDeferredCount q) 0)))

/-- Shows completing: SCHEDULING_ROUND.
R65, R60, R103 (03_tags_classes_and_admission.md, 05_engines_queues_and_command_lists.md): a round gives each TC2 queue and then each
TC3 queue its turn; while the queue's weight lasts and the list's engine has a free slot, an admissible candidate with a record slot is
admitted and dispatched; past the weight, or without a free slot, an admissible one is deferred, and any other is not judged at all.
While CC2 does not run, admissible lists are deferred. Shown for candidates whose reading meets nothing. -/
def Obligations.SchedulingRound : Prop :=
  (∀ (s : State) (p : Part) (q : Nat), (s.queuesOf p).filter (fun x => s.classOf x == 2) = [q] →
    (s.queuesOf p).filter (fun x => s.classOf x == 3) = [] → s.schedulerUp = true →
    exec (.schedulingRound p) s =
      .next (s.turn q (s.untested q + 1) (Nat.max 1 (s.rd (queAdmCfgWeight q)))).wrapUp) ∧
  (∀ (s : State) (p : Part) (q : Nat) (h : Header), (s.queuesOf p).filter (fun x => s.classOf x == 2) = [q] →
    (s.queuesOf p).filter (fun x => s.classOf x == 3) = [] → s.schedulerUp = false → s.judge q = .pass h → s.freeRecords q ≠ 0 →
    exec (.schedulingRound p) s = .next (s.defer q 1).wrapUp) ∧
  (∀ (s : State) (q n w : Nat) (h : Header) (l : RunList), s.touchCandidate q = s → s.judge q = .pass h → s.freeRecords q ≠ 0 →
    w ≠ 0 → s.turnOpen q = true → h.serial = false → (s.takeUp q h).findList q (s.queue q).cand = some l →
    s.turn q (n + 1) w = (((s.takeUp q h).dispatch l).settle).turn q n (w - 1)) ∧
  (∀ (s : State) (q n : Nat) (h : Header), s.touchCandidate q = s → s.judge q = .pass h → s.freeRecords q ≠ 0 →
    s.turn q (n + 1) 0 = s.defer q 1) ∧
  (∀ (s : State) (q n w : Nat), s.touchCandidate q = s → s.turnOpen q = false →
    (∀ h, s.judge q = .pass h → s.freeRecords q ≠ 0 → s.turn q (n + 1) w = s.defer q 1) ∧
    ((∀ h, s.judge q ≠ .pass h) → s.turn q (n + 1) w = s))

/-- Shows completing: QUEUE_ENABLE, QUEUE_DISABLE, RING_CONFIG_WRITE, CPL_RING_CONFIG_WRITE.
R95, R96, R246 (05_engines_queues_and_command_lists.md, 11_job_faults_checkpoint_restart.md): EN sets where the rings are lawful
and the job has an entry; where it has none and one is free, the entry is allocated to it; a write that may not set EN sets
CFG_ERR and nothing else; EN clears at once.
R96, R105 (05_engines_queues_and_command_lists.md): ring configuration is locked while EN is 1; on a queue without lists a write
takes effect and the ring restarts empty, head and tail 0; a completion ring restarts at index 0. -/
def Obligations.QueueSetup : Prop :=
  (
  ∀ (s : State) (path : Path) (q : Queue) (v : Word32), s.ownsQueue path q = true →
    (s.rd (queCtlEn q) = 0 → bitsOf v.toNat 0 1 = 1 → s.enableRefused q = false →
      ((s.jobEntry (s.partOfQueue q) (s.rd (queBindJob q))).isSome = true →
        ∃ u, exec (.queueEnable path q v) s = .next u ∧ u.rd (queCtlEn q) = 1 ∧ u.rd (queCtlDevEnq q) = bitsOf v.toNat 1 1 ∧
          s.onlyFields [queCtlEn q, queCtlDevEnq q] u) ∧
      (∀ e, s.jobEntry (s.partOfQueue q) (s.rd (queBindJob q)) = none → s.freeEntry (s.partOfQueue q) = some e →
        ∃ u, exec (.queueEnable path q v) s = .next u ∧ u.rd (queCtlEn q) = 1 ∧ u.rd (queCtlDevEnq q) = bitsOf v.toNat 1 1 ∧
          u.rd (jobIdJob (s.partOfQueue q) e) = s.rd (queBindJob q) ∧ u.rd (jobIdValid (s.partOfQueue q) e) = 1 ∧
          s.onlyFields [queCtlEn q, queCtlDevEnq q, jobIdJob (s.partOfQueue q) e, jobIdValid (s.partOfQueue q) e] u)) ∧
    (s.rd (queCtlEn q) = 0 → bitsOf v.toNat 0 1 = 1 → s.enableRefused q = true →
      exec (.queueEnable path q v) s = .next (s.event (queStatusCfgErr q))) ∧
    (s.rd (queCtlEn q) = 1 → bitsOf v.toNat 0 1 = 0 →
      exec (.queueDisable path q v) s = .next ((s.wr (queCtlEn q) 0).wr (queStatusCplStall q) 0))) ∧
  (
  (∀ (s : State) (path : Path) (q : Queue) (r : RingReg) (v : Word32), s.rd (queCtlEn q) = 1 →
    exec (.ringConfigWrite path q r v) s = .next s ∧ exec (.cplRingConfigWrite path q r v) s = .next s) ∧
  (∀ (s s1 : State) (path : Path) (q : Queue) (r : RingReg) (v : Word32), s.ownsQueue path q = true → s.rd (queCtlEn q) = 0 →
    s.lists = [] →
    s1 = (match r with
      | .baseLo => s.wr (queRingBaseLoBase q) (v.toNat / 64)
      | .baseHi => s.wr (queRingBaseHiBase q) v.toNat
      | .size => s.wr (queRingSizeLog2 q) v.toNat) →
    exec (.ringConfigWrite path q r v) s =
      .next ((((s1.setQueue q
        { s.queue q with cand := 0, ended := [], held := false, discardTo := none }).wr (queHeadHead q) 0).wr (queTailTail q) 0).wr
          (queStatusCplStall q) 0)) ∧
  (∀ (s s1 : State) (path : Path) (q : Queue) (r : RingReg) (v : Word32), s.ownsQueue path q = true → s.rd (queCtlEn q) = 0 →
    s1 = (match r with
      | .baseLo => s.wr (queCplBaseLoBase q) (v.toNat / 64)
      | .baseHi => s.wr (queCplBaseHiBase q) v.toNat
      | .size => s.wr (queCplSizeLog2 q) v.toNat) →
    exec (.cplRingConfigWrite path q r v) s =
      .next ((((s1.setQueue q { s.queue q with used := 0, ownLow := false }).wr
        (queCplProdIndex q) 0).wr (queCplConsIndex q) 0).wr (queStatusCplStall q) 0)))

/-- Shows completing: CPL_CONSUME, IRQ_TIMEOUT.
R106, R107 (05_engines_queues_and_command_lists.md): the consumer index moves forward past records that were written, freeing
their slots and clearing CPL_STALL; any other index sets CONS_BAD and moves nothing; the interrupt timeout raises the queue's
message and restarts its count, and one that has not run out does nothing. -/
def Obligations.Completions : Prop :=
  (∀ (s : State) (path : Path) (q : Queue) (v : Word32), s.ownsQueue path q = true →
    let c := bitsOf v.toNat 0 17
    let size := s.cplSize q
    let d := (c + size - s.rd (queCplConsIndex q) % size) % size
    (c < size → d ≤ (s.queue q).used → d ≠ 0 →
      exec (.cplConsume path q v) s =
        .next (((s.setQueue q { s.queue q with used := (s.queue q).used - d }).wr (queCplConsIndex q) c).wr
          (queStatusCplStall q) 0)) ∧
    ((size ≤ c ∨ (s.queue q).used < d) → exec (.cplConsume path q v) s = .next (s.event (queStatusConsBad q)))) ∧
  (∀ (s : State) (q : Queue) (t : Nat), (s.queue q).irqSince = some t → s.rd (queIrqCfgEn q) = 1 →
    s.rd (queIrqTimeoutBeats q) ≠ 0 →
    (t + s.rd (queIrqTimeoutBeats q) ≤ s.tick → s.linkUp = true →
      s.link.busMaster.testBit (s.partOfQueue q) = true → s.msixMasked (s.partOfQueue q) (s.rd (queIrqCfgVector q)) = false →
      exec (.irqTimeout q) s =
        .next ((s.setQueue q { s.queue q with irqCount := 0, irqSince := none }).emit
          (.msix (s.partOfQueue q) (s.rd (queIrqCfgVector q))))) ∧
    (s.tick < t + s.rd (queIrqTimeoutBeats q) → exec (.irqTimeout q) s = .next s))

/-- Shows completing: SYNC_HI_WRITE, SYNC_LO_WRITE.
R108, R109 (05_engines_queues_and_command_lists.md): the upper half of a sync write is staged for its path; the lower half raises
the object to the greater of its value and the one written, never lowers it, and clears the staging. Shown with no list running,
so that no wait is released. -/
def Obligations.SyncWrites : Prop :=
  (∀ (s : State) (path : Path) (p : Part) (n : Fin 4096) (v : Word32), s.ownsPart path p = true →
    ∃ u, exec (.syncHiWrite path p n v) s = .next u ∧ u.stagedHi path (p.val * 4096 + n.val) = v.toNat ∧
      u = { s with staged := u.staged }) ∧
  (∀ (s : State) (path : Path) (p : Part) (n : Fin 4096) (v : Word32), s.ownsPart path p = true → s.lists = [] → s.calm = true →
    ∃ u, exec (.syncLoWrite path p n v) s = .next u ∧
      u.syncVal p n = Nat.max (satAdd (2 ^ 64 - 1) (s.syncVal p n) 0)
        (s.stagedHi path (p.val * 4096 + n.val) * 2 ^ 32 + v.toNat) ∧
      (∀ (q : Part) (m : Fin 4096), (q, m) ≠ (p, n) → u.syncVal q m = s.syncVal q m) ∧
      u.stagedHi path (p.val * 4096 + n.val) = 0 ∧ u = { s with staged := u.staged, sync := u.sync })

/-- Shows completing: NOP, SETADDR, SETMARK, SETSHAPE, STEP, TMARK.
R114, R120, R129, Tables INS-3 and INS-5 (06_instruction_reference.md): NOP, SETADDR, SETSHAPE and SETMARK change only the list's
private state, and the list goes on to its next instruction; a SLOT of SETMARK from 4 on is reserved and ends the list with 0x22 and
DETAIL 0x0202; STEP raises the job's step; TMARK leaves a record in the trace. Shown for a list alone, so that nothing else follows. -/
def Obligations.ControlInstructions : Prop :=
  (∀ (s : State) (r : ListRef) (l : RunList) (w : Nat), s.lone r 0x00 l w → leftover w [] = false → s.follows l = true →
    exec (.nop r) s = .next { s with lists := [s.onward l] }) ∧
  (∀ (s : State) (r : ListRef) (l k : RunList) (w : Nat), s.lone r 0x02 l w → leftover w [(8, 1), (16, 4), (64, 64)] = false →
    (∃ v, v = (if bitsOf w 8 1 = 1 then (l.slot (fSlot w) + fImm64 w) % 2 ^ 64 else fImm64 w) ∧
      k = { l with as' := l.as'.set (fSlot w) v }) → s.follows k = true →
    exec (.setaddr r) s = .next { s with lists := [s.onward k] }) ∧
  (∀ (s : State) (r : ListRef) (l k : RunList) (w : Nat), s.lone r 0x92 l w → leftover w [(16, 4), (20, 16), (64, 64)] = false →
    fSlot w < 4 → k = { l with ms := l.ms.set (fSlot w) ⟨fImm64 w, fImm w 0 16⟩ } → s.follows k = true →
    exec (.setmark r) s = .next { s with lists := [s.onward k] }) ∧
  (∀ (s : State) (r : ListRef) (l : RunList) (w : Nat), s.lone r 0x92 l w → 4 ≤ fSlot w →
    exec (.setmark r) s = .next (s.setList { l with ending := some ⟨0x22, 0x0202⟩ }).wrapUp) ∧
  (∀ (s : State) (r : ListRef) (l k : RunList) (w : Nat), s.lone r 0x31 l w → bitsOf w 11 5 = 0 → bitsOf w 124 4 = 0 →
    (∃ x : Shape, x = ⟨bitsOf w 16 20, bitsOf w 36 20, bitsOf w 56 20, bitsOf w 76 16, bitsOf w 92 16, bitsOf w 108 16⟩ ∧
      k = { l with sh := l.sh.set (bitsOf w 8 3) (some x) }) → s.follows k = true →
    exec (.setshape r) s = .next { s with lists := [s.onward k] }) ∧
  (∀ (s t : State) (r : ListRef) (l k : RunList) (w : Nat), s.lone r 0x80 l w → leftover w [(20, 44), (64, 64)] = false →
    s.badStep l.hdr.job (fImm w 0 44) (fImm64 w) = false → k = { l with step := some (fImm w 0 44) } →
    t = (s.raiseStep l.hdr.job (fImm w 0 44) (fImm64 w)).qualify (s.partOf l) l.hdr.job (fImm w 0 44) (fImm64 w) →
    t.follows k = true → exec (.step r) s = .next { t with lists := [t.onward k] }) ∧
  (∀ (s t : State) (r : ListRef) (l : RunList) (w : Nat), s.ready r 0x81 = some (l, w) → leftover w [(64, 64)] = false →
    t = (s.startInstr l w).trace 0x07 (traceUnit 3 l.queue) l.idx (some ((s.startInstr l w).listTag l)) (fImm64 w)
      [(s.startInstr l w).partOf l] →
    exec (.tmark r) s = .next (t.finish l false).wrapUp)

/-- Shows completing: SIGNAL, RSIGNAL, WAIT, WAITBEAT, WAITTICKS, WAITBEAT_RELEASE, WAITTICKS_EXPIRY.
R108, R126, R127 (05_engines_queues_and_command_lists.md, 06_instruction_reference.md): SIGNAL adds to a sync object of its own
partition, or raises it with MAX, and RSIGNAL without REMOTE does the same in the partition it names, if that is present and not fenced; WAIT passes once the
object holds its value and waits below it.
R128 (06_instruction_reference.md): WAITBEAT passes when the local mark has reached its mark and waits before it, WAITTICKS waits
its count of ticks (0: not at all); each wait ends when it is due and not before. -/
def Obligations.SyncInstructions : Prop :=
  (
  (∀ (s t : State) (r : ListRef) (l : RunList) (w : Nat), s.lone r 0x10 l w →
    leftover w [(8, 1), (20, 12), (64, 64)] = false →
    t = (s.noteRaised (s.partOf l) (fImm w 0 12) l.hdr.job).setSync (s.partOf l) (fImm w 0 12)
      (if bitsOf w 8 1 = 1 then Nat.max (satAdd (2 ^ 64 - 1) (s.syncVal (s.partOf l) (fImm w 0 12)) 0) (fImm64 w)
       else satAdd (2 ^ 64 - 1) (s.syncVal (s.partOf l) (fImm w 0 12)) (fImm64 w)) →
    t.follows l = true → exec (.signal r) s = .next { t with lists := [t.onward l] }) ∧
  (∀ (s t : State) (r : ListRef) (l : RunList) (w : Nat), s.lone r 0x12 l w →
    leftover w [(8, 1), (20, 12), (49, 2), (51, 1), (64, 64)] = false → fImm w 31 1 = 0 → s.present (fImm w 29 2) = true →
    s.fenced (fImm w 29 2) = false →
    t = (s.noteRaised (fImm w 29 2) (fImm w 0 12) l.hdr.job).setSync (fImm w 29 2) (fImm w 0 12)
      (if bitsOf w 8 1 = 1 then Nat.max (satAdd (2 ^ 64 - 1) (s.syncVal (fImm w 29 2) (fImm w 0 12)) 0) (fImm64 w)
       else satAdd (2 ^ 64 - 1) (s.syncVal (fImm w 29 2) (fImm w 0 12)) (fImm64 w)) →
    t.follows l = true → exec (.rsignal r) s = .next { t with lists := [t.onward l] }) ∧
  (∀ (s : State) (r : ListRef) (l : RunList) (w dev : Nat), s.lone r 0x12 l w → dev = fImm w 12 17 →
    leftover w [(8, 1), (20, 12), (49, 2), (51, 1), (64, 64), (32, 17)] = false → fImm w 31 1 = 1 → s.rd fabDevIdValid = 1 →
    s.ownId dev = false →
    exec (.rsignal r) s = .next (s.sendInstr l dev (fImm w 29 2)
      (if bitsOf w 8 1 = 1 then .signalMax (fImm w 0 12) (fImm64 w) else .signal (fImm w 0 12) (fImm64 w))).wrapUp) ∧
  (∀ (s : State) (r : ListRef) (l : RunList) (w : Nat), s.lone r 0x11 l w → leftover w [(20, 12), (64, 64)] = false →
    (fImm64 w ≤ s.syncVal (s.partOf l) (fImm w 0 12) → s.follows l = true →
      exec (.wait r) s = .next { s with lists := [s.onward l] }) ∧
    (s.syncVal (s.partOf l) (fImm w 0 12) < fImm64 w →
      exec (.wait r) s = .next { s with lists := [{ l with work := .waitSync (fImm w 0 12) (fImm64 w) }] }))) ∧
  (
  (∀ (s : State) (r : ListRef) (l : RunList) (w : Nat), s.lone r 0x90 l w → leftover w [(20, 16), (64, 64)] = false →
    (s.reached ⟨fImm64 w, fImm w 0 16⟩ = true → s.follows l = true →
      exec (.waitbeat r) s = .next { s with lists := [s.onward l] }) ∧
    (s.reached ⟨fImm64 w, fImm w 0 16⟩ = false →
      exec (.waitbeat r) s = .next { s with lists := [{ l with work := .waitBeat ⟨fImm64 w, fImm w 0 16⟩ }] })) ∧
  (∀ (s : State) (r : ListRef) (l : RunList) (w : Nat), s.lone r 0x91 l w → leftover w [(64, 64)] = false →
    (fImm64 w = 0 → s.follows l = true → exec (.waitticks r) s = .next { s with lists := [s.onward l] }) ∧
    (fImm64 w ≠ 0 →
      exec (.waitticks r) s = .next { s with lists := [{ l with work := .waitTicks (s.beat.ticks + fImm64 w) }] })) ∧
  (∀ (s : State) (r : ListRef) (l : RunList) (m : Mark), s.untraced = true → s.lists = [l] → l.queue = r.queue.val →
    l.desc = r.desc → l.running = true → l.ending = none → l.faults = [] → l.asks = [] → s.mem.ext = [] → s.calm = true →
    s.follows l = true →
    (l.work = .waitBeat m → s.reached m = true → exec (.waitbeatRelease r) s = .next { s with lists := [s.onward l] }) ∧
    (l.work = .waitBeat m → s.reached m = false → exec (.waitbeatRelease r) s = .next s.wrapUp)) ∧
  (∀ (s : State) (r : ListRef) (l : RunList) (n : Nat), s.untraced = true → s.lists = [l] → l.queue = r.queue.val →
    l.desc = r.desc → l.running = true → l.ending = none → l.faults = [] → l.asks = [] → s.mem.ext = [] → s.calm = true →
    s.follows l = true →
    (l.work = .waitTicks n → n ≤ s.beat.ticks → exec (.waitticksExpiry r) s = .next { s with lists := [s.onward l] }) ∧
    (l.work = .waitTicks n → s.beat.ticks < n → exec (.waitticksExpiry r) s = .next s.wrapUp)))

/-- Shows completing: WRITE, STAMP, ENQUEUE.
Tables INS-2 and INS-3 (06_instruction_reference.md): WRITE stores the eight bytes of IMM64, and STAMP its sixteen, at AS[SLOT]; the
store is the one that the list's partition makes, and the list goes on. Shown for local memory.
R99, R125 (05_engines_queues_and_command_lists.md, 06_instruction_reference.md): an ENQUEUE to a queue of its own partition
writes a descriptor of AS[SLOT] and the cookie at the tail of a device-fed queue and moves the tail; a ring with no room, or one
that the device does not feed, gives the attempting list's queue a record of STATUS 0x10; one to another device goes over the
fabric and waits for its acknowledgement (the 64 bytes of its header that are checked are the model's choice, log entry 124). -/
def Obligations.StoreInstructions : Prop :=
  (
  (∀ (s t : State) (r : ListRef) (l : RunList) (w : Nat), s.lone r 0x03 l w → leftover w [(16, 4), (64, 64)] = false →
    s.badRange l allSpaces 8 ⟨l.slot (fSlot w), 8⟩ = false → l.slot (fSlot w) / 2 ^ 60 < 2 → s.outstanding l = false →
    t = s.jobStore l (s.listTag l) false (l.slot (fSlot w)) (leBytes 8 (fImm64 w)) → t.untraced = true → t.calm = true →
    t.follows l = true →
    exec (.write r) s = .next { t with lists := [t.onward l] }) ∧
  (∀ (s t : State) (r : ListRef) (l : RunList) (w : Nat), s.lone r 0x93 l w → leftover w [(16, 4)] = false →
    s.badRange l allSpaces 16 ⟨l.slot (fSlot w), 16⟩ = false → l.slot (fSlot w) / 2 ^ 60 < 2 → s.outstanding l = false →
    t = s.jobStore l (s.listTag l) false (l.slot (fSlot w)) (leBytes 8 s.beat.num ++ leBytes 2 s.beat.phase ++
      leBytes 1 (s.rd beatStatusState) ++ leBytes 1 (s.rd beatStatusNumValid) ++ leBytes 4 0) →
    t.untraced = true → t.calm = true → t.follows l = true →
    exec (.stamp r) s = .next { t with lists := [t.onward l] }) ∧
  (∀ (s : State) (r : ListRef) (l : RunList) (w : Nat), s.lone r 0x03 l w → leftover w [(16, 4), (64, 64)] = false →
    s.badRange l allSpaces 8 ⟨l.slot (fSlot w), 8⟩ = false →
    exec (.write r) s = .next (s.storeInstr l (l.slot (fSlot w)) (leBytes 8 (fImm64 w))).wrapUp)) ∧
  (∀ (s : State) (r : ListRef) (l : RunList) (w dev : Nat), s.lone r 0x04 l w → dev = fImm w 6 17 → fImm w 23 1 = 1 →
    leftover w [(16, 4), (20, 6), (43, 1), (64, 32), (26, 17)] = false → l.slot (fSlot w) / 2 ^ 60 = 0 → l.slot (fSlot w) % 64 = 0 →
    s.rd fabDevIdValid = 1 → s.ownId dev = false →
    exec (.enqueue r) s = .next (s.sendInstr l dev (s.partOfQueue (fImm w 0 6))
      (.enqueue (fImm w 0 6) (bitsOf w 64 32) (l.slot (fSlot w)))).wrapUp) ∧
  (
  ∀ (s : State) (r : ListRef) (l : RunList) (w q : Nat), s.lone r 0x04 l w → q = fImm w 0 6 → fImm w 23 1 = 0 →
    leftover w [(16, 4), (20, 6), (43, 1), (64, 32)] = false →
    s.badRange l allSpaces 64 ⟨l.slot (fSlot w), 64⟩ = false → s.partOfQueue q = s.partOf l →
    (s.on (queCtlDevEnq q) = true → s.pendingCount q + 1 ≤ s.ringCap q - 1 →
      exec (.enqueue r) s =
        .next ((((s.store (s.partOfQueue q) false false (s.ringBase q + 16 * (s.rd (queTailTail q) % s.ringCap q))
          (leBytes 8 (l.slot (fSlot w)) ++ leBytes 4 (bitsOf w 64 32) ++ leBytes 4 0)).wr (queTailTail q)
            ((s.rd (queTailTail q) + 1) % (2 * s.ringCap q))).finish l false).wrapUp)) ∧
    ((s.on (queCtlDevEnq q) = false ∨ s.ringCap q - 1 < s.pendingCount q + 1) →
      exec (.enqueue r) s =
        .next (((s.refuseRecord l.queue
          { desc := l.desc % s.ringCap l.queue, status := 0x10, engine := l.hdr.engine, tail16 := 0, job := l.hdr.job, detail := 0,
            instr := l.idx, cookie := bitsOf w 64 32, irq := false }).finish l false).wrapUp)))

/-- Shows completing: END.
R114, R142 (05_engines_queues_and_command_lists.md, 06_instruction_reference.md): END ends the list with STATUS 0x00, or 0x01 and
the count of concealed pictures; an instruction with a cause of Table INS-8 ends it with 0x22 and the lowest cause. The list
leaves, its record says what ended it, and its slot of the record ring is used. -/
def Obligations.ListEnds : Prop :=
  (∀ (s : State) (r : ListRef) (l : RunList) (w : Nat), s.lone r 0x01 l w → leftover w [] = false →
    ∃ e : Ending, e = ⟨if l.concealed = 0 then 0x00 else 0x01, Nat.min 0xFFFF l.concealed⟩ ∧
      exec (.endList r) s = .next (let k : RunList :=
          { l with progress := s.beat.ticks, total := 0, done := [], held := [], asks := [], ending := some e }
        ((({ s with lists := [k] }).closeList k e).parseAll.handleErrors.drainEgress))) ∧
  (∀ (s : State) (r : ListRef) (l : RunList) (w : Nat), s.lone r 0x00 l w → leftover w [] = true →
    exec (.nop r) s = .next ((({ s with lists := [{ l with ending := some ⟨0x22, 0x0202⟩ }] }).closeList
      { l with ending := some ⟨0x22, 0x0202⟩ } ⟨0x22, 0x0202⟩).parseAll.handleErrors.drainEgress)) ∧
  (∀ (s : State) (l : RunList) (e : Ending), s.lists = [l] → l.queue < 64 → (s.closeList l e).lists = []) ∧
  (∀ (s : State) (q : Nat) (x : Record) (tag : Word64), s.untraced = true → s.rd (queIrqCfgEn q) = 0 →
    s.rd (queCplProdIndex q) + 1 < s.cplSize q → s.cplBase q < 2 ^ 60 → x.status / 16 ≠ 2 → x.status / 16 ≠ 3 →
    (s.store (s.partOfQueue q) false false (s.cplBase q + 32 * s.rd (queCplProdIndex q))
      (x.bytes (if (s.queue q).ownLow then 0 else 1) s.now)).regs = s.regs →
    s.writeRecord q x tag = (((s.store (s.partOfQueue q) false false (s.cplBase q + 32 * s.rd (queCplProdIndex q))
      (x.bytes (if (s.queue q).ownLow then 0 else 1) s.now)).setQueue q { s.queue q with used := (s.queue q).used + 1 }).wr
        (queCplProdIndex q) (s.rd (queCplProdIndex q) + 1)))

/-- Shows completing: COPY, CONVERT, TAP.
R112, R121, R130, R361 (06_instruction_reference.md, 17_configurable_logic_array.md): a legal COPY or CONVERT issues a tile for each 65,536 bytes or
elements, in order of nothing but their numbers; a legal TAP on a running region of its partition waits for the region's bytes,
and on any other region ends the list with STATUS 0x20 and DETAIL 0x0701. Shown for operands in the device's own memory. -/
def Obligations.MoveInstructions : Prop :=
  (∀ (s : State) (r : ListRef) (l : RunList) (w : Nat), s.lone r 0x20 l w → lowest (s.copyCauses l w) = none →
    (copySrc l w).base / 2 ^ 60 < 2 →
    exec (.copy r) s = .next { s with lists := [{ l with work := .tiles, total := groups (fLen w) 65536, done := [] }] }) ∧
  (∀ (s : State) (r : ListRef) (l : RunList) (w : Nat), s.lone r 0x21 l w → lowest (s.convertCauses l w) = none →
    (∀ x ∈ convertIns l w, x.base / 2 ^ 60 < 2) →
    exec (.convert r) s = .next { s with lists := [{ l with work := .tiles, total := groups (fCount w) 65536, done := [] }] }) ∧
  (∀ (s : State) (r : ListRef) (l : RunList) (w : Nat), s.lone r 0x22 l w → lowest (tapCauses s l w) = none →
    ((tapRange l w).base / 2 ^ 60 < 2 ∨ tapIn w = true) → s.rd (claRegionState (fTap w)) = 3 →
    exec (.tap r) s = .next { s with lists := [{ l with work := .tap (fTap w) 0, total := fTapLen w }] }) ∧
  (∀ (s : State) (r : ListRef) (l : RunList) (w : Nat), s.lone r 0x22 l w → lowest (tapCauses s l w) = none →
    ((tapRange l w).base / 2 ^ 60 < 2 ∨ tapIn w = true) → s.rd (claRegionState (fTap w)) ≠ 3 →
    exec (.tap r) s =
      .next (({ s with lists := [{ l with work := .tap (fTap w) 0, total := fTapLen w }] }).failTap (fTap w)).wrapUp) ∧
  (∀ (s : State) (r : ListRef) (l : RunList) (w d : Nat), s.lone r 0x20 l w → lowest (s.copyCauses l w) = some d →
    exec (.copy r) s = .next (s.setList { l with ending := some ⟨0x22, d⟩ }).wrapUp)

/-- Shows completing: MMA, VEW, VUN, VRED.
R122, R123, R131, R133, R135 (06_instruction_reference.md): a legal MMA issues one tile for each 64 × 64 block of C, VEW and VUN
one for each 4,096 elements, VRED one for each 64 rows; with no watched target none of them is selected for screening. -/
def Obligations.ComputeInstructions : Prop :=
  (∀ (s : State) (r : ListRef) (l : RunList) (w : Nat) (h : Shape), s.lone r 0x30 l w → lowest (s.mmaCauses l w) = none →
    l.sh.getD (bitsOf w 84 3) none = some h → (s.wheel (s.partOf l)).watched = [] →
    exec (.mma r) s =
      .next { s with lists := [{ l with work := .tiles, total := (h.m + 63) / 64 * ((h.n + 63) / 64), done := [], held := [] }] }) ∧
  (∀ (s : State) (r : ListRef) (l : RunList) (w : Nat), s.lone r 0x40 l w → lowest (s.vewCauses l w) = none →
    (s.wheel (s.partOf l)).vwatched = [] →
    exec (.vew r) s =
      .next { s with lists := [{ l with work := .tiles, total := (fCount w + 4095) / 4096, done := [], held := [] }] }) ∧
  (∀ (s : State) (r : ListRef) (l : RunList) (w : Nat), s.lone r 0x41 l w → lowest (s.vunCauses l w) = none →
    (s.wheel (s.partOf l)).vwatched = [] →
    exec (.vun r) s =
      .next { s with lists := [{ l with work := .tiles, total := (fCount w + 4095) / 4096, done := [], held := [] }] }) ∧
  (∀ (s : State) (r : ListRef) (l : RunList) (w : Nat), s.lone r 0x42 l w → lowest (s.vredCauses l w) = none →
    (s.wheel (s.partOf l)).vwatched = [] →
    exec (.vred r) s =
      .next { s with lists := [{ l with work := .tiles, total := (fRows w + 63) / 64, done := [], held := [] }] }) ∧
  (∀ (s : State) (l : RunList) (w t d lc u die : Nat) (v : Bool), targetOf l.hdr t = some (d, lc) → s.backing d lc = some u →
    (s.wheel (s.partOf l)).shadowDie v d lc = some die →
    s.issueTile l w t v = s.selectTile l t v (s.tileTag l w t (fFmtC w)) d lc u die)

/-- Shows completing: TILE_COMPLETE.
R112, R114 (05_engines_queues_and_command_lists.md): a finished tile's output goes to memory and the tile is done; the
instruction stays until all of its tiles are. Shown for a tile that screening does not select, with no error. -/
def Obligations.TileCompletes : Prop :=
  (∀ (s u : State) (r : ListRef) (t w : Nat) (l : RunList) (o : TileOut), s.untraced = true → s.calm = true → s.lists = [l] →
    s.runningTile r t = some (l, w) → screened (bitsOf w 0 8) = false → l.held = [] → s.shadows = [] →
    s.tileOut l w t = some o → o.faults = [] → l.done.length + 1 < l.total →
    u = o.pieces.foldl (fun v x => v.jobStore l (s.ownTag l w t) x.poison x.addr x.bytes) s → u.lists = [l] → u.shadows = [] →
    u.beat = s.beat → u.calm = true →
    exec (.tileComplete r t none []) s =
      .next { u with lists := [{ l with done := t :: l.done, progress := s.beat.ticks }] }) ∧
  (∀ (s : State) (r : ListRef) (t w : Nat) (l : RunList) (o : TileOut), s.calm = true → s.runningTile r t = some (l, w) →
    l.held = [] → s.tileOut l w t = some o → o.faults = [] →
    exec (.tileComplete r t none []) s =
      .next ((((s.tileEarns l w t (s.ownTag l w t)).commitTile l w t o).startShadows).advance.wrapUp)) ∧
  (∀ (s : State) (r : ListRef) (t : Nat) (e : List EccEvent), s.runningTile r t = none →
    exec (.tileComplete r t none e) s = .next (s.strike e))

/-- R130 (06_instruction_reference.md): a COPY's tile gives the destination the source's bytes, in order, with no fault where the
source has none. -/
def Obligations.CopyMovesBytes : Prop :=
  ∀ (s : State) (p src dst n : Nat) (bs : List Byte), s.readBytes p false src n = some (bs, []) →
    ∃ o : TileOut, s.copyOut p src dst 0 n = some o ∧ o.faults = [] ∧ o.pieces.flatMap (fun x => x.bytes) = bs ∧
      ∀ x ∈ o.pieces, x.poison = false ∧ dst ≤ x.addr

/-- Shows completing: ALLREDUCE, REDSCAT, ALLGATHER, BCAST, COLLECTIVE_MARK, AGREE_RX, AGREE_RESULT_RX.
R136, R138, R139, R190 (06_instruction_reference.md, 08_links_host_fabric_management.md): a collective of one member agrees with itself and
has nothing to send, and its tiles wait only to finish; a MARKED one contributes when its mark comes; an AGREE of another
device is kept for the exchange of its tag, and a frame whose ICRC fails is counted and dropped. -/
def Obligations.Collectives : Prop :=
  (∀ (s : State) (r : ListRef) (l : RunList) (w op : Nat) (a : Agree), s.lone r op l w → lowest (s.collCauses l w) = none →
    s.jobs = [] → s.link.agrees = [] → (s.listOf l w).error = none →
    (∀ t < groups (fCount w) 16384, ∃ vs, s.ownPart l w t = some (vs, [])) →
    (s.listOf l w).members = [(s.rd fabDevIdId, s.partOf l)] → bitsOf w 118 1 = 0 →
    a = { pos := 0, members := [(s.rd fabDevIdId, s.partOf l)],
          digest := crc64 (agreeBlock l w (crc64 (s.listOf l w).bytes)), key := (s.tileTag l w 0 (fFmtC w)).toNat / 4096,
          diff := false, sent := true } →
    let u : State := { s with lists := [{ l with
      work := .coll { agree := a, agreed := true, marked := none, sent := true }, total := groups (fCount w) 16384, done := [] }] }
    (op = 0x50 → exec (.allreduce r) s = .next u) ∧ (op = 0x51 → exec (.redscat r) s = .next u) ∧
    (op = 0x52 → exec (.allgather r) s = .next u) ∧ (op = 0x53 → exec (.bcast r) s = .next u)) ∧
  (∀ (s : State) (r : ListRef) (l : RunList) (w : Word128) (c : Coll) (m : Mark), s.lists = [l] → s.calm = true →
    l.queue = r.queue.val → l.desc = r.desc → l.running = true → l.ending = none → l.word = some w → l.work = .coll c → c.agreed = true → c.sent = false →
    c.marked = some m → l.done.length < l.total → bitsOf w.toNat 0 8 = 0x53 → c.agree.pos ≠ 0 →
    (s.reached m = true → exec (.collectiveMark r) s =
      .next { s with lists := [{ l with work := .coll { c with sent := true } }] }) ∧
    (s.reached m = false → exec (.collectiveMark r) s = .next s)) ∧
  (∀ (s : State) (h : KftHdr) (pos : Nat) (diff : Bool) (g : Word64),
    (s.takesFrame h = true → s.lists = [] → s.jobs = [] → s.calm = true →
      exec (.agreeRx h pos diff g) s = .next { s with link := { s.link with
        agrees := { part := h.dstPart, key := h.tag.toNat / 4096, pos := pos, diff := diff, digest := g } ::
          s.link.agrees.filter (fun x => !(x.part == h.dstPart && x.key == h.tag.toNat / 4096 && x.pos == pos)) } }) ∧
    (s.carries = true → s.upSubs.contains h.sub.val = true → h.icrcOk = false →
      exec (.agreeRx h pos diff g) s = .next (s.count fabRxCrcCount 1).wrapUp)) ∧
  (∀ (s : State) (h : KftHdr) (result : Bool) (lowest : Nat) (x : Seat), s.takesFrame h = true →
    s.seatWaiting h.dstPart (h.tag.toNat / 4096) = some x →
    exec (.agreeResultRx h result lowest) s = .next ((s.deliver 20 x result lowest).progressAgrees.wrapUp))

/-- Shows completing: CKBEGIN, CKDONE, CKWRITE, CKREAD.
R141, R252, R253 (11_job_faults_checkpoint_restart.md): CKBEGIN opens a slot for the job's current step; CKDONE closes it once no
CKWRITE to it is left, which makes it DONE for its seal mark; CKWRITE and CKREAD move LEN bytes in tiles of 65,536 between memory
and the slot area. A slot in another state than the instruction needs ends the list with DETAIL 0x020B. -/
def Obligations.CheckpointInstructions : Prop :=
  (∀ (s t : State) (r : ListRef) (l : RunList) (w e : Nat), s.lone r 0x70 l w → leftover w [(8, 1)] = false →
    s.badSlot l w = false → s.jobEntry (s.partOf l) l.hdr.job = some e →
    t = ((s.setSlot (s.partOf l) e (fSlotB w) 1).setSlotStep (s.partOf l) e (fSlotB w) (s.jobStep l.hdr.job)).setSeal (s.partOf l) e
      (fSlotB w) none → t.untraced = true → t.calm = true → t.follows l = true →
    exec (.ckbegin r) s = .next { t with lists := [t.onward l] }) ∧
  (∀ (s t : State) (r : ListRef) (l : RunList) (w e : Nat) (m : Mark), s.lone r 0x72 l w →
    leftover w [(8, 1), (116, 2)] = false → s.badSlot l w = false → s.jobEntry (s.partOf l) l.hdr.job = some e →
    m = l.ms.getD (bitsOf w 116 2) ⟨0, 0⟩ →
    t = ((s.setSeal (s.partOf l) e (fSlotB w) (some { mark := m, late := false, tick := none, agree := none })).setSlot (s.partOf l) e
      (fSlotB w) 2).setSeal (s.partOf l) e (fSlotB w)
        (some { mark := m, late := decide (m.units < s.now.units), tick := none, agree := none }) →
    t.untraced = true → t.calm = true → t.follows l = true →
    exec (.ckdone r) s = .next { t with lists := [t.onward l] }) ∧
  (∀ (s : State) (r : ListRef) (l : RunList) (w : Nat), s.lone r 0x71 l w →
    lowest (s.ckCauses l w (l.slot (fAsc w)) (s.ckRanges l w).1) = none → (s.ckRanges l w).1.base / 2 ^ 60 < 2 →
    exec (.ckwrite r) s = .next { s with lists := [{ l with work := .tiles, total := groups (fLen w) 65536, done := [] }] }) ∧
  (∀ (s : State) (r : ListRef) (l : RunList) (w : Nat), s.lone r 0x73 l w →
    lowest (s.ckCauses l w (l.slot (fAsa w)) (s.ckRanges l w).2) = none →
    exec (.ckread r) s = .next { s with lists := [{ l with work := .tiles, total := groups (fLen w) 65536, done := [] }] }) ∧
  (∀ (s : State) (r : ListRef) (l : RunList) (w : Nat), s.lone r 0x70 l w → leftover w [(8, 1)] = false → s.badSlot l w = true →
    exec (.ckbegin r) s = .next ((s.setList { l with ending := some ⟨0x22, 0x020B⟩ }).wrapUp))

/-- Shows completing: MDEC, MENC, MFLUSH, MEDIA_DECODE_COMPLETE, MEDIA_ENCODE_COMPLETE.
R397–R400, R407, R410, R411 (18_media_engine.md): MDEC and MENC take their place on a session of their own partition and kind;
MFLUSH leaves a decode session waiting for a random access point; an access unit that comes while the session waits for one is
consumed with no picture; a decode error that the session stops at halts it, and ends the list with its DETAIL; a picture that is
ready is released; a bitstream that is longer than its buffer ends the list with DETAIL 0x0604 and makes the next picture a key
picture. Shown where nothing that the instruction reads holds an error. -/
def Obligations.MediaInstructions : Prop :=
  (∀ (s : State) (r : ListRef) (l : RunList) (w : Nat) (x : SessSt), s.sess (fSession w) = some x →
    let u : SessSt → State := fun y =>
      (({ s with lists := [{ l with work := .media (fSession w), total := 1, done := [] }] }).setSess (fSession w)
        (some { y with busy := x.busy ++ [(l.queue, l.desc)] })).wr (medSessStatusBusy (fSession w)) 1
    (∀ es, s.lone r 0x60 l w → lowest (s.mediaCauses l w true) = none →
      (x.busy = [] → exec (.mdec r es) s = .next (u { x with unparsed := es }).wrapUp) ∧
      (x.busy ≠ [] → exec (.mdec r es) s = .next (u { x with later := x.later ++ [((l.queue, l.desc), es)] }).wrapUp)) ∧
    (s.lone r 0x61 l w → lowest (s.mediaCauses l w false) = none → x.busy = [] →
      exec (.menc r) s = .next (u { x with unparsed := [] }).wrapUp)) ∧
  (∀ (s t : State) (r : ListRef) (l : RunList) (w : Nat) (x y : SessSt), s.lone r 0x62 l w → leftover w [(8, 8)] = false →
    s.badSession l w true = false → s.sess (fSession w) = some x → x.busy = [] → x.ready = [] →
    s.rangeFaults l (x.ownReads ⟨[], []⟩) = [] →
    y = { x with unparsed := [], busy := [(l.queue, l.desc)], ready := [], waitRap := true } →
    t = ((((s.setSess (fSession w) (some { x with unparsed := [], busy := [(l.queue, l.desc)] })).wr (medSessStatusBusy (fSession w))
      1).setSess (fSession w) (some y)).setSess (fSession w) (some (y.leave (l.queue, l.desc)))).wr
        (medSessStatusBusy (fSession w)) 0 → t.untraced = true → t.calm = true → t.follows l = true →
    exec (.mflush r [] ⟨[], []⟩) s = .next { t with lists := [t.onward l] }) ∧
  (∀ (s : State) (r : ListRef) (l : RunList) (w n : Nat) (x : SessSt) (d : DecodeResult),
    s.onSession r 0x60 = some (l, w, n, x) → s.mem.flaws = [] →
    let y : SessSt := { x with lastStats := fStats w, lastTensor := fTensor w, lastFmt := fFmtC w }
    let z : SessSt := { y with waitRap := false, halted := false }
    let u : State := (s.writePool l y d.pool).wr (medSessStatusState n) 1
    (x.waitRap = true → d.randomAccess = false →
      s.rangeFaults l ((l.slot (fAsa w), fExt w 84 32) :: x.ownReads ⟨[], []⟩) = [] →
      exec (.mediaDecodeComplete r d) s = .next ((s.setSess n (some y)).mediaDone l).wrapUp) ∧
    ((x.waitRap = false ∨ d.randomAccess = true) →
      s.rangeFaults l ((l.slot (fAsa w), fExt w 84 32) :: x.ownReads d.pool) = [] →
      (∀ t, decodeDetail z d = some t →
        exec (.mediaDecodeComplete r d) s = .next ((u.haltSession n z).mediaEnd l ⟨0x22, t⟩).wrapUp) ∧
      (decodeDetail z d = none → x.ready ++ d.ready = [] →
        exec (.mediaDecodeComplete r d) s = .next ((u.setSess n (some z)).mediaDone l).wrapUp) ∧
      (∀ q rest, decodeDetail z d = none → x.ready ++ d.ready = q :: rest →
        exec (.mediaDecodeComplete r d) s =
          .next (((u.setSess n (some { z with ready := rest })).releasePic l n z (u.tileTag l w 0 (mediaFmt w)) 1 q
            (decodeAddr l w)).mediaDone l).wrapUp))) ∧
  (∀ (s : State) (r : ListRef) (l : RunList) (w n : Nat) (x : SessSt) (d : EncodeResult),
    s.onSession r 0x61 = some (l, w, n, x) → s.mem.flaws = [] →
    s.rangeFaults l ((l.slot (fAsa w), x.picBytes) :: x.ownReads d.pool) = [] →
    (fExt w 84 32 < d.bitstream.length → exec (.mediaEncodeComplete r d) s =
      .next ((s.setSess n (some { x with forceKey := true })).mediaEnd l ⟨0x22, 0x0604⟩).wrapUp) ∧
    (∀ u, d.bitstream.length ≤ fExt w 84 32 → fStats w = false →
      u = ((s.setSess n (some (x.afterPic x.keyDue (x.pictureQp d.qp)))).writePool l x d.pool).jobStore l
        (s.tileTag l w 0 (mediaFmt w)) false (l.slot (fAsc w)) d.bitstream →
      ∃ flags : Nat, exec (.mediaEncodeComplete r d) s =
        .next ((u.writeRel l n x (s.tileTag l w 0 (mediaFmt w)) false 0
          (u.relRecord n 2 flags (l.slot (fAsc w)) 0 0 0 d.bitstream.length (x.f 8 2) (x.f 10 2) d.order)).mediaDone l).wrapUp))

/-- Shows completing: WHEEL_ADVANCE.
R199, R200, R202, R204 (09_shadow_screening.md): a qualifying boundary that is reached leaves the wheel's list; the STRIDE-th of them
advances the wheel by one step, and a write that has changed the settings makes the next one restart it. A boundary not yet reached
changes nothing. -/
def Obligations.WheelAdvances : Prop :=
  ∀ (s s1 : State) (p : Part) (x : WheelSt) (b : Nat) (bs : List Nat), s.wheel p = x → x.bounds = b :: bs →
    s1 = s.setWheel p { x with bounds := bs } →
    (s.reached ⟨b, 0⟩ = false → exec (.wheelAdvance p) s = .next s) ∧
    (s.reached ⟨b, 0⟩ = true → x.restart = false → x.count + 1 < x.stride → s.shadows = [] →
      exec (.wheelAdvance p) s = .next (s1.setWheel p { x with bounds := bs, count := x.count + 1 })) ∧
    (s.reached ⟨b, 0⟩ = true → x.restart = false → x.stride ≤ x.count + 1 →
      exec (.wheelAdvance p) s =
        .next (((s1.leaveStep p).enterStep p ((s1.rd (scrPartWheelS p) + 1) % 2 ^ 32) b).startShadows)) ∧
    (s.reached ⟨b, 0⟩ = true → x.restart = true →
      exec (.wheelAdvance p) s = .next (((s1.leaveStep p).restartWheel p b).startShadows))

/-- R202 (09_shadow_screening.md): in every F wheel steps that begin at a multiple of F, each backed cluster is watched in exactly
one. -/
def Obligations.WheelCovers : Prop :=
  ∀ (s : State) (p f q d lc : Nat), 0 < f →
    ∃ i, i < f ∧ (s.watchOf p f (q * f + i) d lc).isSome = true ∧
      ∀ j, j < f → (s.watchOf p f (q * f + j) d lc).isSome = true → j = i

/-- Shows completing: SHADOW_SLOT_WAIT_EXPIRY, SHADOW_COMPLETE, ARBITER_COMPLETE, ARB_TIMEOUT, QUARANTINE, SUSPECT.
R205, R206, R209, R210 (09_shadow_screening.md): a shadow that has waited SCR_SLOT_WAIT starts on the cluster with the highest balance
above −4; a shadow forms its signature from the operands in memory: equal signatures commit the held output, unequal ones issue an
arbiter.
R211, R212, Table SCR-3 (09_shadow_screening.md): the arbiter's signature decides the vote (the primary was wrong where it is the
shadow's, the shadow where it is the primary's, no two agree otherwise), and a vote without one by its timeout names primary and
shadow with SCR_EVENT.ARB_TIMEOUT.
R217, R218, R223, R242 (10_quarantine_spares_and_fleet.md): QUARANTINE and SUSPECT restrict the unit they name, with a change set
and a MAP_CHANGE record, and answer OK; a unit that does not exist answers 4 and changes nothing else; while no RMG core serves
commands each answers BUSY. A restriction leaves the unit in the more restrictive of the two states. -/
def Obligations.ShadowVotes : Prop :=
  (
  (∀ (s : State) (d : Die) (x : QueuedShadow) (lc u : Nat), s.overdueShadow d = some x →
    best (fun v => (s.unit x.vector v).balance) (s.activeOf d) = some (lc, u) →
    (-4 < (s.unit x.vector u).balance → exec (.shadowSlotWaitExpiry d) s = .next (s.startShadow x u)) ∧
    ((s.unit x.vector u).balance ≤ -4 → exec (.shadowSlotWaitExpiry d) s = .next s)) ∧
  (∀ (s : State) (d : Die), s.overdueShadow d = none → exec (.shadowSlotWaitExpiry d) s = .next s) ∧
  (∀ (s s1 : State) (r : ListRef) (t : Nat) (l : RunList) (h k : HeldTile) (a : Word64) (o : TileOut) (wrong : Option (List Byte)),
    s.shadowOf r t = some (l, h) → h.sigP = some a → s.rerun l (l.word.getD 0).toNat h.tile wrong [] = some (o, s1) → o.faults = [] →
    k = { h with sigS := some o.signature } →
    (o.signature = a → exec (.shadowComplete r t wrong []) s =
      .next ((((s1.setHeld l.queue l.desc k).noteWatch k true).commitHeld l.queue l.desc k).startShadows.advance.wrapUp)) ∧
    (o.signature ≠ a → exec (.shadowComplete r t wrong []) s =
      .next (((s1.setHeld l.queue l.desc k).mismatch l k).startShadows.advance.wrapUp))) ∧
  (∀ (s s1 : State) (r : ListRef) (t : Nat) (l : RunList) (h : HeldTile) (o : TileOut) (wrong : Option (List Byte))
    (e : List EccEvent), s.shadowOf r t = some (l, h) → s.rerun l (l.word.getD 0).toNat h.tile wrong e = some (o, s1) →
    o.faults ≠ [] →
    exec (.shadowComplete r t wrong e) s = .next ((s1.shadowPoisoned l h o.faults).startShadows.advance.wrapUp))) ∧
  (
  (∀ (s s1 : State) (r : ListRef) (t : Nat) (a b : Word64) (v : VoteSt) (o : TileOut) (wrong : Option (List Byte))
    (e : List EccEvent), s.findVote r.queue r.desc t = some v → s1.findVote r.queue r.desc t = some v →
    v.tile.arbHost.isSome = true → v.tile.sigP = some a → v.tile.sigS = some b → v.tile.sameDie = false → a ≠ b →
    s.rerun v.list v.word t wrong e = some (o, s1) → o.faults = [] →
    (o.signature = b → exec (.arbiterComplete r t wrong e) s = .next (s1.completeVote v 0 (some o.signature)).wrapUp) ∧
    (o.signature = a → exec (.arbiterComplete r t wrong e) s = .next (s1.completeVote v 1 (some o.signature)).wrapUp) ∧
    (o.signature ≠ a → o.signature ≠ b →
      exec (.arbiterComplete r t wrong e) s = .next (s1.completeVote v 2 (some o.signature)).wrapUp)) ∧
  (∀ (s : State) (r : ListRef) (t m : Nat) (v : VoteSt), s.findVote r.queue r.desc t = some v → v.tile.mismatch = some m →
    v.tile.arbHost.isSome = true →
    (m + Nat.max 1 (s.rd scrArbTimeoutBeats) ≤ s.beat.ticks →
      exec (.arbTimeout r t) s = .next ((({ s with lateArbs := (v, s.rd scrLogProdSeq) :: s.lateArbs }).event
        scrEventArbTimeout).completeVote v 3 none).wrapUp) ∧
    (s.beat.ticks < m + Nat.max 1 (s.rd scrArbTimeoutBeats) → exec (.arbTimeout r t) s = .next s.wrapUp)) ∧
  (∀ (s : State) (seq : Nat) (bs : List Byte), seq < 65536 → s.scrLog = [] → bs ≠ [] →
    (s.logVote seq bs).scrLog.get (fun _ => []) (seq % 64) = bs ∧ (s.logVote seq bs).rd scrLogProdSeq = (seq + 1) % 65536)) ∧
  (
  (∀ (s t : State) (via : CmdVia) (unit : Word32), t.rmgDown = false →
    (s.commandIn via 0x0A01 (leBytes 4 unit.toNat) = some t →
      (∀ k, unitKey unit.toNat = some k → exec (.quarantine via unit) s =
        .next ((t.applySet (t.qtn.map.restrict 2 2 t.nextEpoch k) false
          (t.mapChange t.qtn.map (t.qtn.map.restrict 2 2 t.nextEpoch k) 0x0A01) [] []).commandDone via 0x0A01 0).wrapUp) ∧
      (unitKey unit.toNat = none → exec (.quarantine via unit) s = .next (t.commandDone via 0x0A01 4).wrapUp)) ∧
    (s.commandIn via 0x0A02 (leBytes 4 unit.toNat) = some t →
      (∀ k, unitKey unit.toNat = some k → exec (.suspect via unit) s =
        .next ((t.applySet (t.qtn.map.restrict 1 2 t.nextEpoch k) false
          (t.mapChange t.qtn.map (t.qtn.map.restrict 1 2 t.nextEpoch k) 0x0A02) [] []).commandDone via 0x0A02 0).wrapUp) ∧
      (unitKey unit.toNat = none → exec (.suspect via unit) s = .next (t.commandDone via 0x0A02 4).wrapUp))) ∧
  (∀ (s t : State) (unit epoch : Word32) (via : CmdVia), t.rmgDown = true →
    (s.commandIn via 0x0A01 (leBytes 4 unit.toNat) = some t →
      exec (.quarantine via unit) s = .next (t.commandAnswer via 0x0A01 3).wrapUp) ∧
    (s.commandIn via 0x0A02 (leBytes 4 unit.toNat) = some t →
      exec (.suspect via unit) s = .next (t.commandAnswer via 0x0A02 3).wrapUp) ∧
    (s.commandIn via 0x0A03 (leBytes 4 unit.toNat ++ leBytes 4 epoch.toNat) = some t →
      exec (.reinstate via unit epoch) s = .next (t.commandAnswer via 0x0A03 3).wrapUp)) ∧
  (∀ (s : State) (unit epoch : Word32), s.cc3Up = false → exec (.quarantine .mctp unit) s = .next s.wrapUp ∧
    exec (.suspect .mctp unit) s = .next s.wrapUp ∧ exec (.reinstate .mctp unit epoch) s = .next s.wrapUp) ∧
  (∀ (m : UnitMap) (st source epoch k : Nat), st = 1 ∨ st = 2 →
    rank ((m.restrict st source epoch k).entry k).state = Nat.max (rank (m.entry k).state) (rank st)))

/-- Shows completing: REINSTATE, MAP_IMAGE_CLOSED, RECONCILIATION.
R225, R229, R230, Table QTN-4 (10_quarantine_spares_and_fleet.md): REINSTATE answers the first test of Table QTN-4 that the request
fails and changes nothing, or relaxes the unit in a set that reaches the data path when its image closes; a closed image puts its
epoch and entries into MRAM; a reconciliation every 1,000 ticks finds two views that agree and does nothing more. -/
def Obligations.MapImages : Prop :=
  (∀ (s t : State) (via : CmdVia) (unit epoch : Word32),
    s.commandIn via 0x0A03 (leBytes 4 unit.toNat ++ leBytes 4 epoch.toNat) = some t → t.rmgDown = false →
    (t.reinstateTest unit epoch ≠ 0 →
      exec (.reinstate via unit epoch) s = .next (t.commandDone via 0x0A03 (t.reinstateTest unit epoch)).wrapUp) ∧
    (∀ k, t.reinstateTest unit epoch = 0 → unitKey unit.toNat = some k →
      exec (.reinstate via unit epoch) s =
        .next ((t.applySet (t.qtn.map.reinstate k t.nextEpoch) true
          (t.mapChange t.qtn.map (t.qtn.map.reinstate k t.nextEpoch) 0x0A03) [] []).commandDone via 0x0A03 0).wrapUp)) ∧
  (∀ (s : State) (c : ChangeSet) (rest : List ChangeSet), s.mram.other.open' = true → s.rmgDown = false → s.qtn.sets = c :: rest →
    c.relaxing = false → c.records = [] → c.events = [] →
    exec .mapImageClosed s = .next (((({ s with
      mram := s.mram.setOther { open' := false, headerOk := true, crcOk := true, epoch := c.epoch, entries := c.entries },
      qtn := { s.qtn with sets := rest } }).openImage).updateCapacity).wrapUp)) ∧
  (∀ (s : State), s.qtn.reconciled + 1000 ≤ s.beat.ticks → s.mramOk = true →
    (s.disagree = [] → exec .reconciliation s = .next ({ s with qtn := { s.qtn with reconciled := s.beat.ticks } }).wrapUp)) ∧
  (∀ (s : State), s.beat.ticks < s.qtn.reconciled + 1000 → exec .reconciliation s = .next s.wrapUp)

/-- Shows completing: CHURN_GRANT, CHURN_ABORT, CHURN_KERNEL_RESULT, CHURN_RUN_END, PACK_BEGIN, PACK_DATA, PACK_COMMIT.
R231, R232, R234, R235 (10_quarantine_spares_and_fleet.md): CHURN_GRANT answers the result of its tests, and a run that starts
fences the partitions of its dies; each kernel that matches counts toward a pass; CHURN_ABORT marks the run; its end frees the
dies, whose scratchpads hold undefined bytes, and sends CHURN_DONE.
R236, R237, R238 (10_quarantine_spares_and_fleet.md): PACK_BEGIN announces a candidate, PACK_DATA adds bytes within its length,
PACK_COMMIT takes it as the active pack when every test passes and else answers the failed test, discards the candidate and
records the rejection. -/
def Obligations.ChurnCommands : Prop :=
  (
  (∀ (s t : State) (via : CmdVia) (level dies : Nat), s.commandIn via 0x0A10 (leBytes 1 level ++ leBytes 1 dies) = some t →
    t.rmgDown = false →
    (t.churnTest level dies ≠ 0 →
      exec (.churnGrant via level dies) s = .next (t.commandDone via 0x0A10 (t.churnTest level dies)).wrapUp) ∧
    (∀ (k : Pack) (c : ChurnSt), t.churnTest level dies = 0 → t.qtn.pack = some k → t.lists = [] → t.votes = [] →
      c = { level := level, dies := dies, parts := maskOf (t.partsOfMask dies), passed := [], failed := [],
            packId := k.id, packVersion := k.version, kernels := if level = 1 then k.kernels else k.quick, aborting := false } →
      exec (.churnGrant via level dies) s =
        .next ((((((({ t with qtn := { t.qtn with churn := some c } }).wr qtnChurnStatusProgress 0).wr qtnChurnStatusDies dies).wr
          qtnChurnStatusFull level).wr qtnChurnStatusState 1).wr qtnChurnFailsCount 0).commandDone via 0x0A10 0).wrapUp)) ∧
  (∀ (s t : State) (via : CmdVia), s.commandIn via 0x0A11 [] = some t → t.rmgDown = false →
    (∀ c, t.qtn.churn = some c → exec (.churnAbort via) s =
      .next ((({ t with qtn := { t.qtn with churn := some { c with aborting := true } } }).wr qtnChurnStatusState 2).commandDone via
        0x0A11 0)) ∧
    (t.qtn.churn = none → exec (.churnAbort via) s = .next (t.commandDone via 0x0A11 8))) ∧
  (∀ (s : State) (c c1 : ChurnSt) (unit : Word32) (k kernel : Nat) (v : Word64), s.qtn.churn = some c → c.aborting = false →
    unitKey unit.toNat = some k → s.churnTests c k = true → c.failed = [] →
    c1 = { c with passed := c.passed.set (fun _ => 0) k (c.passed.get (fun _ => 0) k + 1) } →
    exec (.churnKernelResult unit kernel v v) s =
      .next (({ s with qtn := { s.qtn with churn := some c1 } }).wr qtnChurnStatusProgress
        (({ s with qtn := { s.qtn with churn := some c1 } } : State).churnProgress c1)).wrapUp) ∧
  (∀ (s : State) (c : ChurnSt), s.qtn.churn = some c → c.aborting = true →
    exec .churnRunEnd s = .next (s.endChurn c)) ∧
  (∀ (s : State), s.qtn.churn = none → exec .churnRunEnd s = .next s)) ∧
  (
  (∀ (s t : State) (via : CmdVia) (id version length : Nat),
    s.commandIn via 0x0A20 (leBytes 4 id ++ leBytes 4 version ++ leBytes 4 length) = some t → t.rmgDown = false →
    exec (.packBegin via id version length) s =
      .next ((({ t with qtn := { t.qtn with candidate := some ⟨id, version, length, [], 0⟩ } }).wr qtnPackStatusCandidate 1).commandDone
        via 0x0A20 0)) ∧
  (∀ (s t : State) (via : CmdVia) (c : PackSlot) (offset : Nat) (bs : List Byte),
    s.commandIn via 0x0A21 (leBytes 4 offset ++ bs) = some t → t.rmgDown = false → t.qtn.candidate = some c →
    (∀ b d, bs = [b] → offset + 1 ≤ c.length →
      d = { c with bytes := c.bytes.put offset b, written := (c.bytes.put offset b).length } →
      exec (.packData via offset bs) s =
        .next ((({ t with qtn := { t.qtn with candidate := some d } }).commandDone via 0x0A21 0))) ∧
    (c.length < offset + bs.length → exec (.packData via offset bs) s = .next (t.commandDone via 0x0A21 8))) ∧
  (∀ (s t : State) (via : CmdVia) (c : PackSlot), s.commandIn via 0x0A22 [] = some t → t.rmgDown = false →
    t.qtn.candidate = some c →
    ∃ u : State, exec (.packCommit via) s = .next (u.commandDone via 0x0A22 (t.packTest c)) ∧
      (∀ k : Pack, t.packTest c = 0 →
        k = { id := c.field 8 4, version := c.field 12 4, keyId := c.field 5 1, kernels := c.field 16 4, quick := c.field 20 4,
              bytes := c.image } →
        u.qtn = { t.qtn with candidate := none, pack := some k } ∧ u = { t with regs := u.regs, qtn := u.qtn } ∧
        u.rd qtnPackStatusCandidate = 0 ∧ u.rd qtnPackIdId = k.id ∧ u.rd qtnPackVersionVersion = k.version ∧
        u.rd qtnPackStatusKeyId = k.keyId ∧ u.rd qtnPackStatusValid = 1) ∧
      (t.packTest c ≠ 0 → u = (({ t with qtn := { t.qtn with candidate := none } }).wr qtnPackStatusCandidate 0).packRejected
        (t.packTest c) (c.field 5 1) (c.field 12 4))))

/-- Shows completing: JOB_FAULT_RX, JOB_FAULT_RESEND.
R179, R187, R188 (08_links_host_fabric_management.md), R248: a JOB_FAULT not seen before sets JF_SEEN, is acted on, and goes on with
one hop less on every sub-port but the one it came on; one whose pair has been seen is dropped, and one whose ICRC fails is counted;
each declared fault is flooded a second time one beat tick later. -/
def Obligations.JobFaultMessages : Prop :=
  (∀ (s : State) (sub : SubPort) (m : JobFaultMsg), s.comesIn sub.val true = true →
    (s.link.seen.contains (m.origin, m.seq) = false →
      (1 < m.hops → exec (.jobFaultRx sub true m) s =
        .next ((((({ s with link := { s.link with seen := ((m.origin, m.seq) :: s.link.seen).take 256 } }).event
          fabEventJfSeen).actFault m none).floodFault { m with hops := m.hops - 1 } (some sub.val))).wrapUp) ∧
      (m.hops ≤ 1 → exec (.jobFaultRx sub true m) s =
        .next ((({ s with link := { s.link with seen := ((m.origin, m.seq) :: s.link.seen).take 256 } }).event
          fabEventJfSeen).actFault m none).wrapUp)) ∧
    (s.link.seen.contains (m.origin, m.seq) = true → exec (.jobFaultRx sub true m) s = .next s.wrapUp)) ∧
  (∀ (s : State) (sub : SubPort) (m : JobFaultMsg), s.carries = true → s.upSubs.contains sub.val = true →
    exec (.jobFaultRx sub false m) s = .next (s.count fabRxCrcCount 1).wrapUp) ∧
  (∀ (s : State) (m : JobFaultMsg) (t : Nat), s.link.resend = [⟨m, t⟩] →
    (t ≤ s.beat.ticks → exec .jobFaultResend s = .next (({ s with link := { s.link with resend := [] } }).floodFault m none)) ∧
    (s.beat.ticks < t → exec .jobFaultResend s = .next s)) ∧
  (∀ (s : State) (m : JobFaultMsg) (clean : Option Nat) (p e : Nat), s.rd (jobStateState p e) = 1 → clean = none →
    s.faultEntry m clean p e = s.count (jobStateFaultCount p e) 1)

/-- Shows completing: JOB_DECLARE, JOB_QUIET, JOB_RELEASE, JOB_RESTART_ARM, JOB_RESTART_MARK.
R247, R250, R258, R259, R261 (11_job_faults_checkpoint_restart.md): a job is declared faulted with CAUSE 0x07 by a path that owns
its partition; QUIET sets once nothing of the faulted job is left; RELEASE frees a RUNNING entry that no enabled queue is bound
to; GO arms an entry when every test of Table JOB-5 passes and else shows the first failed; at T the armed entry restarts.
R258, Table JOB-5 (11_job_faults_checkpoint_restart.md): the tests of a restart come in the order of Table JOB-5. -/
def Obligations.JobControl : Prop :=
  (
  (∀ (s : State) (path : Path) (p : Part) (e : Entry), s.ownsPart path p = true → s.rd (jobIdValid p e) = 1 →
    exec (.jobDeclare path p e) s = .next (s.declareFault 0x07 (s.rd (jobIdJob p e)) p 0 none).wrapUp) ∧
  (∀ (s : State) (p : Part) (e : Entry), s.rd (jobIdValid p e) = 1 → s.rd (jobStateState p e) = 1 →
    (s.jobGone p (s.rd (jobIdJob p e)) = true → exec (.jobQuiet p e) s = .next (s.wr (jobStateQuiet p e) 1)) ∧
    (s.jobGone p (s.rd (jobIdJob p e)) = false → exec (.jobQuiet p e) s = .next s)) ∧
  (∀ (s : State) (path : Path) (p : Part) (e : Entry), s.ownsPart path p = true → s.rd (jobIdValid p e) = 1 →
    s.rd (jobStateState p e) = 0 →
    (s.jobBound p (s.rd (jobIdJob p e)) = false →
      exec (.jobRelease path p e) s = .next ((s.freeJob p e).closing 2 (s.rd (jobIdJob p e)) p e)) ∧
    (s.jobBound p (s.rd (jobIdJob p e)) = true → exec (.jobRelease path p e) s = .next s)) ∧
  (∀ (s s1 : State) (path : Path) (p : Part) (e : Entry) (v : Word32) (force : Bool), s.ownsPart path p = true →
    force = (v.getLsbD 16 && s.mgmtOrDebug path) →
    s1 = (((s.wr (jobRestartCtlForce p e) force.toNat).wr (jobRestartCtlCount p e) (bitsOf v.toNat 8 8)).wr
      (jobRestartCtlSlotB p e) (v.getLsbD 0).toNat) →
    (v.getLsbD 31 = false → exec (.jobRestartArm path p e v) s = .next s1) ∧
    (∀ r, v.getLsbD 31 = true → s1.restartTest p e (v.getLsbD 0) force (bitsOf v.toNat 8 8) = r →
      (r ≠ 0 → exec (.jobRestartArm path p e v) s = .next (s1.wr (jobRestartResultResult p e) r)) ∧
      (r = 0 → ∃ u : State, exec (.jobRestartArm path p e v) s = .next u ∧ u.rd (jobStateState p e) = 2 ∧
        u.rd (jobRestartResultResult p e) = 0 ∧
        (u.job p e).armed = some (v.getLsbD 0, (s1.wr (jobRestartResultResult p e) 0).slotStep p e (v.getLsbD 0),
          (s1.wr (jobRestartResultResult p e) 0).rd64 (jobRestartBeatLoNum p e) (jobRestartBeatHiNum p e)) ∧
        u = { s with regs := u.regs, jobs := u.jobs }))) ∧
  (∀ (s : State) (p : Part) (e : Entry) (b : Bool) (n t : Nat), (s.job p e).armed = some (b, n, t) → s.rd (jobIdValid p e) = 1 →
    s.rd (jobStateState p e) = 2 →
    (s.reached ⟨t, 0⟩ = true → exec (.jobRestartMark p e) s = .next (s.restartJob p e b)) ∧
    (s.reached ⟨t, 0⟩ = false → exec (.jobRestartMark p e) s = .next s))) ∧
  (
  ∀ (s : State) (p e count : Nat) (b force : Bool),
    (s.rd (jobIdValid p e) = 0 → s.restartTest p e b force count = 1) ∧
    (s.rd (jobIdValid p e) = 1 → s.rd (jobStateState p e) = 0 → s.restartTest p e b force count = 1) ∧
    (s.rd (jobIdValid p e) = 1 → (s.rd (jobStateState p e) = 1 ∨ s.rd (jobStateState p e) = 2) →
      (s.rd (jobStateQuiet p e) = 0 → s.restartTest p e b force count = 2) ∧
      (s.rd (jobStateQuiet p e) = 1 →
        (count ≠ s.rd (jobStateFaultCount p e) → s.restartTest p e b force count = 3) ∧
        (count = s.rd (jobStateFaultCount p e) →
          (s.slotState p e b ≠ 3 → s.restartTest p e b force count = 4) ∧
          (s.slotState p e b = 3 →
            s.rd64 (jobRestartStepLoStep p e) (jobRestartStepHiStep p e) ≠ s.slotStep p e b →
            s.restartTest p e b force count = 5)))))

/-- Shows completing: SEAL_MARK, SEAL_TIMEOUT.
R254, R255 (11_job_faults_checkpoint_restart.md): at its mark the member of a slot whose CKDONE has begun votes, with DIFF = 1 unless the slot is DONE; a vote whose result has not come
within TIMEOUT ticks leaves the slot FAILED with SEAL_EVENT.TIMEOUT; the only member of its list seals its slot by its own vote,
which makes the slot the newest. -/
def Obligations.Seals : Prop :=
  (∀ (s : State) (p : Part) (e : Entry) (b : Bool) (x : SealSt), (s.job p e).seal b = some x → x.tick = none →
    (s.reached x.mark = true → exec (.sealMark p e b) s = .next (s.vote p e b x).wrapUp) ∧
    (s.reached x.mark = false → exec (.sealMark p e b) s = .next s.wrapUp)) ∧
  (∀ (s : State) (p : Part) (e : Entry) (b : Bool) (x : SealSt) (t : Nat), (s.job p e).seal b = some x → x.tick = some t →
    s.slotState p e b = 2 →
    (t + Nat.max 1 (s.rd (jobSealCfgTimeout p e)) ≤ s.beat.ticks →
      exec (.sealTimeout p e b) s = .next (((s.setSlot p e b 4).setSeal p e b none).event (jobSealEventTimeout p e))) ∧
    (s.beat.ticks < t + Nat.max 1 (s.rd (jobSealCfgTimeout p e)) → exec (.sealTimeout p e b) s = .next s)) ∧
  (∀ (s : State) (p e : Nat) (b : Bool), p < 4 → e < 16 →
    (s.slotState p e b = 2 → (s.sealSlot p e b true).slotState p e b = 3 ∧
      (s.sealSlot p e b true).rd (jobStateNewestValid p e) = 1 ∧ (s.sealSlot p e b true).rd (jobStateNewestB p e) = b.toNat) ∧
    (s.slotState p e b ≠ 2 → (s.sealSlot p e b true).slotState p e b = s.slotState p e b) ∧ (s.sealSlot p e b false).slotState p e b = 4)

/-- Shows completing: KFT_WRITE_RX, KFT_READ_REQ_RX, KFT_READ_RESP_RX, KFT_SIGNAL_RX, KFT_SIGNAL_MAX_RX, KFT_ENQUEUE_RX,
KFT_COLL_RX.
R182, R185 (08_links_host_fabric_management.md): a DATA frame in PSN order is delivered, with those held beyond it; one that came
before is acknowledged again; one beyond a gap is held and answered by a NACK of the gap. Each kind of frame goes the same way. -/
def Obligations.KftFrames : Prop :=
  ∀ (s s0 s1 : State) (h : KftHdr) (c0 c1 c : ConnSt), s.hears h = true → s.connOf h = some c0 →
    s0 = s.acked h.conn c0 h none → s0.conn h.conn = some c1 → c = { c1 with ece := c1.ece || h.ce } →
    s1 = s0.setConn h.conn (some c) →
    (h.psn = c.psnIn →
      (∀ a bs, exec (.kftWriteRx h a bs) s =
        .next (((s1.deliverFrame h.conn h (.write a bs)).deliverAhead h.conn c.ahead.length).afterConn.wrapUp)) ∧
      (∀ a n, exec (.kftReadReqRx h a n) s =
        .next (((s1.deliverFrame h.conn h (.readReq a n)).deliverAhead h.conn c.ahead.length).afterConn.wrapUp)) ∧
      (∀ a bs, exec (.kftReadRespRx h a bs) s =
        .next (((s1.deliverFrame h.conn h (.readResp a bs)).deliverAhead h.conn c.ahead.length).afterConn.wrapUp)) ∧
      (∀ (x : Fin 4096) (v : Word64), exec (.kftSignalRx h x v) s =
        .next (((s1.deliverFrame h.conn h (.signal x v.toNat)).deliverAhead h.conn c.ahead.length).afterConn.wrapUp)) ∧
      (∀ (x : Fin 4096) (v : Word64), exec (.kftSignalMaxRx h x v) s =
        .next (((s1.deliverFrame h.conn h (.signalMax x v.toNat)).deliverAhead h.conn c.ahead.length).afterConn.wrapUp)) ∧
      (∀ (q : Queue) (k : Word32) (a : Word64), exec (.kftEnqueueRx h q k a) s =
        .next (((s1.deliverFrame h.conn h (.enqueue q k.toNat a.toNat)).deliverAhead h.conn c.ahead.length).afterConn.wrapUp)) ∧
      (∀ level pos a bs, exec (.kftCollRx h level pos a bs) s =
        .next (((s1.deliverFrame h.conn h (.coll level pos a h.red bs)).deliverAhead h.conn c.ahead.length).afterConn.wrapUp))) ∧
    (h.psn ≠ c.psnIn → psnBefore h.psn c.psnIn = true → ∀ a bs, exec (.kftWriteRx h a bs) s =
      .next ((s1.setConn h.conn (some { c with ece := false })).sendAck h.conn c c.psnIn none).wrapUp) ∧
    (h.psn ≠ c.psnIn → psnBefore h.psn c.psnIn = false → (h.psn + 2 ^ 32 - c.psnIn) % 2 ^ 32 < 256 →
      c.ahead.any (fun x => x.1 == h.psn) = false → ∀ a bs, exec (.kftWriteRx h a bs) s =
      .next ((s1.setConn h.conn (some { c with ahead := c.ahead ++ [(h.psn, h, .write a bs)] })).sendNack h.conn
        { c with ahead := c.ahead ++ [(h.psn, h, .write a bs)] }).wrapUp)

/-- R127, R185 (08_links_host_fabric_management.md): a frame that its partition accepts acts on it: WRITE stores, SIGNAL adds,
SIGNAL_MAX raises, ENQUEUE posts where the ring has room and answers 3 where not. Reserved tag bits give code 5, an absent
partition 1, a fenced one 2, a job without a queue or with a fault 4, in this order, each under its counter. -/
def Obligations.KftAcceptance : Prop :=
  (∀ (s : State) (n : Nat) (h : KftHdr) (a x v q k : Nat) (bs : List Byte),
    s.actFrame n h (.write a bs) =
      (0, (s.store h.dstPart false h.poison (a % 2 ^ 40) bs).noteRange (tagJob h.tag) h.dstPart (a % 2 ^ 40) bs.length) ∧
    (s.lists = [] → ((s.actFrame n h (.signal x v)).2.syncVal h.dstPart x =
        satAdd (2 ^ 64 - 1) (s.syncVal h.dstPart x) v ∧
      (s.actFrame n h (.signalMax x v)).2.syncVal h.dstPart x =
        Nat.max (satAdd (2 ^ 64 - 1) (s.syncVal h.dstPart x) 0) v)) ∧
    (s.partOfQueue q = h.dstPart → s.takesPost q = true → s.actFrame n h (.enqueue q k a) = (0, s.post q k a)) ∧
    (s.takesPost q = false → s.actFrame n h (.enqueue q k a) = (3, s))) ∧
  (∀ (s : State) (q : Nat) (tag : Word64),
    (tagReserved tag ≠ 0 → s.acceptCode q tag = 5) ∧
    (tagReserved tag = 0 → s.present q = false → s.acceptCode q tag = 1) ∧
    (tagReserved tag = 0 → s.present q = true → s.fenced q = true → s.acceptCode q tag = 2) ∧
    (tagReserved tag = 0 → s.present q = true → s.fenced q = false → s.jobState q (tagJob tag) = some 1 →
      s.acceptCode q tag = 4)) ∧
  (∀ (s : State), s.countReject 5 = s.count fabRxRejectTag 1 ∧ s.countReject 1 = s.count fabRxRejectAbsent 1 ∧
    s.countReject 2 = s.count fabRxRejectFenced 1 ∧ s.countReject 4 = s.count fabRxRejectJob 1)

/-- Shows completing: KFT_ACK_RX, KFT_NACK_RX, KFT_RTO, CONN_REQ_RX, CONN_ACK_RX, CONN_CLOSE_RX, CONN_REJECT_RX,
CONN_IDLE_CLOSE.
R182, R183, R184 (08_links_host_fabric_management.md): an ACK or NACK frees the frames it acknowledges and resends those a NACK
shows missing; a frame unanswered for RTO goes again, and after RETRY times the connection fails.
R181 (08_links_host_fabric_management.md): a REQ opens a context of its key and is answered with its number, an ACK opens the
other side and sends what waits, a CLOSE of an idle connection frees the context, a REJECT fails what waited, and a connection
idle for its time is closed with a CLOSE frame. -/
def Obligations.KftRecovery : Prop :=
  (
  (∀ (s : State) (h : KftHdr) (c : ConnSt) (st : Option (Nat × Nat)), s.hears h = true → s.connOf h = some c →
    exec (.kftAckRx h st) s = .next (((s.acked h.conn c h st).refetch).advance.wrapUp) ∧
    exec (.kftNackRx h 0 0#256) s = .next ((s.acked h.conn c h none).afterConn.wrapUp)) ∧
  (∀ (s : State) (n psn : Nat) (c : ConnSt), s.conn n = some c →
    (c.unacked.any (fun f => f.psn == psn && match f.sentAt with
      | some t => decide (t + s.rd fabKftRtoBeats ≤ s.beat.ticks)
      | none => false) = true →
      (c.unacked.any (fun f => f.psn == psn && decide (Nat.max 1 (s.rd fabKftRtoRetry) ≤ f.retries)) = true →
        exec (.kftRto n psn) s = .next ((s.failConn n).afterConn.wrapUp)) ∧
      (c.unacked.any (fun f => f.psn == psn && decide (Nat.max 1 (s.rd fabKftRtoRetry) ≤ f.retries)) = false →
        exec (.kftRto n psn) s = .next (((s.setConn n (some { c with unacked := c.unacked.map (fun f =>
          if f.psn = psn ∧ f.sentAt.isSome then { f with sentAt := none, retries := f.retries + 1 } else f) })).pump
            n).afterConn.wrapUp))) ∧
    (c.unacked.any (fun f => f.psn == psn && match f.sentAt with
      | some t => decide (t + s.rd fabKftRtoBeats ≤ s.beat.ticks)
      | none => false) = false → exec (.kftRto n psn) s = .next s.wrapUp)) ∧
  (∀ (s : State) (h : KftHdr) (st : Option (Nat × Nat)), s.hears h = false →
    exec (.kftAckRx h st) s = .next (s.refuseRx h.sub h.icrcOk).wrapUp)) ∧
  (
  (∀ (s : State) (h : KftHdr) (number port : Nat), s.hears h = true → s.keyed h = none → s.present h.dstPart = true →
    s.connRoom h.cls = true → s.choosePort h.dstPart h.srcDev h.srcPart h.cls = some port →
    exec (.connReqRx h number) s =
      .next ((((s.putConn (lowestFree 0 s.link.conns) (some (newConn h.dstPart h.srcDev h.srcPart h.cls (some number)
        (some port) s.beat.ticks))).sendConn (s.subOf port) h.dstPart h.srcDev h.srcPart h.cls 2 0
          (lowestFree 0 s.link.conns)).afterConn).wrapUp)) ∧
  (∀ (s : State) (h : KftHdr) (number n : Nat) (c : ConnSt), s.hears h = true → s.keyed h = some (n, c) →
    (c.peer = none → exec (.connAckRx h number) s = .next ((s.setConn n (some { c with peer := some number })).pump n).wrapUp) ∧
    (c.peer = some number → s.connIdle n c = true →
      exec (.connCloseRx h number) s = .next ((s.putConn n none).afterConn.wrapUp)) ∧
    (c.peer = some number → s.connIdle n c = false →
      exec (.connCloseRx h number) s = .next ((s.failConn n).afterConn.wrapUp)) ∧
    (c.peer = none → number < 256 → exec (.connRejectRx h number) s = .next ((s.failConn n).afterConn.wrapUp)) ∧
    (c.peer.isSome = true → number < 256 → exec (.connRejectRx h number) s = .next s.wrapUp)) ∧
  (∀ (s : State) (n : Nat) (c : ConnSt), s.conn n = some c → s.connIdle n c = true →
    (c.lastUse + Nat.max 1 (s.rd fabKftIdleBeats) ≤ s.beat.ticks →
      exec (.connIdleClose n) s = .next (((s.putConn n none).sendConn ((c.port.map s.subOf).getD 0) c.srcPart c.dev c.dstPart
        c.cls 3 0 n).afterConn.wrapUp)) ∧
    (s.beat.ticks < c.lastUse + Nat.max 1 (s.rd fabKftIdleBeats) → exec (.connIdleClose n) s = .next s.wrapUp)))

/-- Shows completing: FABRIC_LINK_UP, FABRIC_LINK_DOWN, LANE_FAULT, ROUTE_DATA_WRITE, BEAT_ANN_SEND, BEAT_ANN_RX.
R173, R177, R189, R218 (08_links_host_fabric_management.md): a sub-port that may train comes up; one that goes down sets
LINK_DOWN; a lane fault is a hardware finding of its lane; ROUTE_DATA holds the ports of the indexed device; BEAT_ANN goes out at
a number divisible by 65,536, and one that disagrees about the nearest beat sets BEAT_DISAGREE and changes no count. -/
def Obligations.FabricPorts : Prop :=
  (∀ (s : State) (sub : SubPort), s.mayTrain (sub.val / 4) (sub.val % 4) = true →
    exec (.fabricLinkUp sub) s = .next (s.wrBit (fabPortStatusUp (sub.val / 4)) (sub.val % 4) true)) ∧
  (∀ (s : State) (sub : SubPort), s.bit (fabPortStatusUp (sub.val / 4)) (sub.val % 4) = true →
    ((s.wrBit (fabPortStatusUp (sub.val / 4)) (sub.val % 4) false).event (fabPortEventLinkDown (sub.val / 4))).portUp
      (sub.val / 4) = true →
    exec (.fabricLinkDown sub) s = .next (((s.wrBit (fabPortStatusUp (sub.val / 4)) (sub.val % 4) false).event
      (fabPortEventLinkDown (sub.val / 4))).afterConn.wrapUp)) ∧
  (∀ (s : State) (port : Port) (lane : Fin 8), s.domOn (portDom port) = true →
    exec (.laneFault port lane) s = .next (((s.event (fabPortEventLaneFault port)).finding 0x05 2
      [1856 + port.val * 8 + lane.val] (fun _ => []) []).afterConn.wrapUp)) ∧
  (∀ (s : State) (v : Word32), s.writes .mgmt fabRouteData = true →
    ∃ u : State, exec (.routeDataWrite .mgmt v) s = .next u ∧ u = { s with link := { s.link with routes := u.link.routes } } ∧
      (∀ d, u.link.routes.get (fun _ => 0) d =
        if d = s.rd fabRouteIdxDev then bitsOf v.toNat 0 16 else s.link.routes.get (fun _ => 0) d)) ∧
  (∀ (s : State) (x : Nat), s.carries = true → s.rd fabBeatAnnEn = 1 → s.beat.num % 65536 = 0 → s.beat.phase = 0 →
    s.upSubs.filter s.hopSends = [x] →
    exec .beatAnnSend s = .next (s.sendHop x 0 (tagOf 0 0 0xFFFFF 0xB 0 0 0) (annBytes
      { state := s.rd beatStatusState, numValid := s.on beatStatusNumValid, sender := s.rd fabDevIdId, beat := s.beat.num,
        phase := 0, epoch := s.rd64 beatEpochLoEpochLo beatEpochHiEpochHi % 2 ^ 48 }))) ∧
  (∀ (s : State) (sub : SubPort) (m : BeatAnnMsg), s.comesIn sub.val true = true → m.numValid = true →
    s.on beatStatusNumValid = true →
    (nearestBeat m.beat m.phase ≠ nearestBeat s.beat.num s.beat.phase →
      exec (.beatAnnRx sub true m) s = .next ((s.event fabEventBeatDisagree).wr fabBeatPeerSubport sub)) ∧
    (nearestBeat m.beat m.phase = nearestBeat s.beat.num s.beat.phase → exec (.beatAnnRx sub true m) s = .next s))

/-- Shows completing: PERST_DEASSERT, PCIE_LINK_UP, PCIE_LINK_RESET, FUNCTION_LEVEL_RESET, PCIE_COMPLETION_RX,
PCIE_CPL_TIMEOUT, BAR2_READ, BAR2_WRITE.
R152, R168, R169 (08_links_host_fabric_management.md): the link comes up after PERST once the device is ready, DEGRADED where it
is narrower than 16 lanes, and Bus Master Enable is set for the functions of the mode (the model's choice, log entry 12); a link
reset takes it down; an FLR resets the function's configuration state, sets its FLR event and asks for its partition's reset; a read that a completion answers,
or that times out, takes its bytes or reads as failed.
R170, R158 (08_links_host_fabric_management.md, 07_memory_and_addressing.md): a BAR2 read of the partition's memory returns its
bytes, poisoned where a line is; outside it, or while the partition is fenced, it answers Unsupported Request and a write is
dropped; a BAR2 write stores its bytes. -/
def Obligations.HostLink : Prop :=
  (
  (∀ (s : State), exec .perstDeassert s = .next { s with link := { s.link with perstHigh := true } }) ∧
  (∀ (s s1 : State) (width rate : Nat), s.link.perstHigh = true → s.pwr.ready = true → s.domOn 9 = true → s.linkUp = false →
    s1 = (List.range 4).foldl (fun t f => ((t.wr (hifStatusUp f) 1).wr (hifStatusWidth f) width).wr (hifStatusRate f) rate) s →
    (width = 4 → exec (.pcieLinkUp width rate) s =
      .next ((List.range 4).foldl (fun t f => t.enumerate f) s1))) ∧
  (∀ (s : State) (f : Fn), s.linkUp = true → s.presented f = true →
    (s.enumerate f).link.busMaster = setBits s.link.busMaster f 1 1) ∧
  (∀ (s s1 s2 : State), s.linkUp = true → s.lists = [] → s.cla.nocReads = [] → s.calm = true →
    s1 = (List.range 4).foldl (fun t f =>
      ((((t.wr (hifStatusUp f) 0).wr (hifStatusWidth f) 0).wr (hifStatusRate f) 0).event (hifEventLinkDown f)).resetFunction f) s →
    s2 = { s1 with link := { s1.link with hostReads := [] },
                   hang := { s1.hang with late := s1.hang.late.filter (fun r => r.conn.isSome) } } →
    exec (.pcieLinkReset .hotReset) s = .next s2 ∧
    exec (.pcieLinkReset .perst) s = .next { s2 with link := { s2.link with perstHigh := false } }) ∧
  (∀ (s : State) (f : Fn), s.linkUp = true → s.presented f = true →
    (((s.event (hifEventFlr f)).resetFunction f).present f = true →
      exec (.functionLevelReset f) s = .next (((s.event (hifEventFlr f)).resetFunction f).requestReset (.part f) 5).wrapUp) ∧
    (((s.event (hifEventFlr f)).resetFunction f).present f = false →
      exec (.functionLevelReset f) s = .next ((s.event (hifEventFlr f)).resetFunction f).wrapUp)) ∧
  (∀ (s : State) (f : Fn) (addr : Nat) (bs : List Byte) (s1 : State), s.hostOk f = true →
    s.isLate f none addr bs.length = false →
    s1 = { s with link := { s.link with hostReads := takeRange f none addr bs.length s.link.hostReads } } →
    (s1.awaited f (2 * 2 ^ 60 + addr) bs.length = true →
      exec (.pcieCompletionRx f addr .sc bs) s =
        .next ({ s1 with mem := { s1.mem with ext := putAnswers s1.mem.ext (2 * 2 ^ 60 + addr) (bs.map some) } }.refetch.wrapUp) ∧
      exec (.pcieCompletionRx f addr .ur bs) s =
        .next ({ s1 with mem := { s1.mem with
          ext := putAnswers s1.mem.ext (2 * 2 ^ 60 + addr) (bs.map (fun _ => none)) } }.refetch.wrapUp) ∧
      exec (.pcieCplTimeout f addr bs.length) s =
        .next ({ s1 with mem := { s1.mem with
          ext := putAnswers s1.mem.ext (2 * 2 ^ 60 + addr) (List.replicate bs.length none) } }.refetch.wrapUp)) ∧
    (s1.awaited f (2 * 2 ^ 60 + addr) bs.length = false → exec (.pcieCompletionRx f addr .sc bs) s = .next s1.wrapUp))) ∧
  (
  (∀ (s : State) (f : Fn) (offset len : Nat) (bs : List Byte) (fs : List Nat), s.bar2Ok f = true →
    s.linkUp = true → s.presented f = true → offset + len ≤ s.bar2Size → offset + len ≤ s.limitOf f * 4096 →
    s.readTagged (s.bar2Tag f) offset len = some (bs, fs) →
    (fs = [] → s.calm = true → s.lists = [] → exec (.bar2Read f offset len) s = .next (s.emit (.hostData f bs false))) ∧
    (fs ≠ [] → exec (.bar2Read f offset len) s =
      .next (((s.touchTagged (s.bar2Tag f) none offset len).emit (.hostData f bs true)).reportAer f).wrapUp)) ∧
  (∀ (s : State) (f : Fn) (offset : Nat) (bs : List Byte), s.linkUp = true → s.presented f = true →
    offset + bs.length ≤ s.bar2Size → (s.bar2Ok f = false ∨ s.limitOf f * 4096 < offset + bs.length) →
    exec (.bar2Read f offset bs.length) s = .next (s.emit (.hostUr f)) ∧ exec (.bar2Write f offset bs) s = .next s) ∧
  (∀ (s : State) (f : Fn) (offset : Nat) (bs : List Byte), s.bar2Ok f = true → offset + bs.length ≤ s.limitOf f * 4096 →
    exec (.bar2Write f offset bs) s =
      .next ((linesOf offset bs.length).foldl (fun t a => t.noteHole f true (Nat.max a offset))
        (s.storeTagged (s.bar2Tag f) false offset bs)).wrapUp))

/-- R146, R150, R158 (07_memory_and_addressing.md): a byte that local memory holds reads back what was stored there last, and a store
of one byte changes no other; an aligned 64-byte store that is not poisoned cleans its line. -/
def Obligations.MemoryHolds : Prop :=
  (∀ (s : State) (p : Nat) (whole : Bool) (a k : Nat) (b : Byte), (s.place p whole a).key? = some k →
    (s.writeByte p whole a b).mem.byte k = b ∧
    (∀ j, j ≠ k → (s.writeByte p whole a b).mem.byte j = s.mem.byte j) ∧
    (∀ j, (s.writeByte p whole a b).mem.isPoison j = s.mem.isPoison j)) ∧
  (∀ (s : State) (p : Nat) (whole : Bool) (a : Nat) (bs : List Byte) (j : Nat), a / 2 ^ 60 ≠ 2 →
    (∀ i, i < bs.length → (s.place p whole (a + i)).key? ≠ some j) →
    (s.writeLocal p whole a bs).mem.byte j = s.mem.byte j) ∧
  (∀ (s : State) (p : Nat) (whole : Bool) (a n lo k : Nat), (s.place p whole lo).key? = some k →
    (s.markLine p whole true a n lo).mem.isPoison k = true ∧
    (a ≤ lo → lo + 64 ≤ a + n → (s.markLine p whole false a n lo).mem.isPoison k = false))

/-- Shows completing: MGT_READ, MGT_WRITE, MGT_ACK_RX, REPORT_RETRY.
R192, R193, R194 (08_links_host_fabric_management.md): a message that passes the tests takes its SEQ and is acted on: a READ answers
the registers, a WRITE stores under its mask, an ACK ends the holding of its message; one that fails a test counts in
MGT_RX_REJECT and is never answered; a held message goes again after RETRY ticks, until it is acknowledged. The layout of the
payloads is the model's (log entry 133).
R193 (08_links_host_fabric_management.md): a SEQ is acted on once: a message whose SEQ is not above the last of its key fails the
tests. -/
def Obligations.ManagementMessages : Prop :=
  (
  (∀ (s t : State) (m : MgtHdr) (offset count : Nat), s.mgtIn m 1 (leBytes 4 offset ++ leBytes 4 count) = some t → count ≤ 64 →
    exec (.mgtRead m offset count) s =
      .next ((t.readRegs .mgmt offset count).2.answerMgt m 2
        ((t.readRegs .mgmt offset count).1.flatMap (fun v => leBytes 4 v.toNat))).wrapUp) ∧
  (∀ (s t : State) (m : MgtHdr) (offset : Nat) (v mask : Word32),
    s.mgtIn m 3 (leBytes 4 offset ++ leBytes 4 v.toNat ++ leBytes 4 mask.toNat) = some t →
    exec (.mgtWrite m offset v mask) s = .next ((t.writeReg .mgmt offset (t.masked offset v mask)).answerMgt m 4 []).wrapUp) ∧
  (∀ (s t : State) (m : MgtHdr), s.mgtIn m 0x1F [] = some t →
    exec (.mgtAckRx m) s =
      .next (({ t with link := { t.link with msgs := t.link.msgs.filter (fun (x : HeldMsg) => x.seq != m.ackSeq) } }).wr
        mgtRptPendingCount (t.link.msgs.filter (fun (x : HeldMsg) => x.seq != m.ackSeq)).length)) ∧
  (∀ (s : State) (m : MgtHdr) (offset count : Nat) (v mask : Word32), s.cc3Up = true →
    (s.reaches m (leBytes 4 offset ++ leBytes 4 count) = true → s.accepts m 1 (leBytes 4 offset ++ leBytes 4 count) = false →
      exec (.mgtRead m offset count) s = .next (s.count mgtRxRejectCount 1).wrapUp) ∧
    (s.reaches m (leBytes 4 offset ++ leBytes 4 v.toNat ++ leBytes 4 mask.toNat) = true →
      s.accepts m 3 (leBytes 4 offset ++ leBytes 4 v.toNat ++ leBytes 4 mask.toNat) = false →
      exec (.mgtWrite m offset v mask) s = .next (s.count mgtRxRejectCount 1).wrapUp) ∧
    (s.reaches m [] = true → s.accepts m 0x1F [] = false → exec (.mgtAckRx m) s = .next (s.count mgtRxRejectCount 1))) ∧
  (∀ (s : State) (x : HeldMsg), s.cc3Up = true → s.link.msgs = [x] →
    (x.sentAt + Nat.max 1 (s.rd mgtRptCfgRetry) ≤ s.beat.ticks → exec .reportRetry s =
      .next { s.sendMsg x with link := { (s.sendMsg x).link with msgs := [{ x with sentAt := s.beat.ticks }] } }) ∧
    (s.beat.ticks < x.sentAt + Nat.max 1 (s.rd mgtRptCfgRetry) → exec .reportRetry s = .next s))) ∧
  (
  ∀ (s t : State) (m n : MgtHdr) (type : Nat) (payload pl : List Byte), s.mgtIn m type pl = some t → n.key = m.key → n.seq ≤ m.seq →
    t.accepts n type payload = false)

/-- Shows completing: SPDM_REQUEST, MCTP_CONTROL_MSG, MCTP_VENDOR_READ, MCTP_VENDOR_WRITE.
R167 (08_links_host_fabric_management.md): SPDM answers the certificate of slot 0 and measurements 1 to 4, and an ERROR to anything
else (the codes are SPDM's, log entry 13). R195, R196: the bus owner assigns the endpoint ID; the vendor messages read the
registers and write those of MGT, and an unfused key slot is fused by its write; before W3 has loaded the firmware the boot ROM
answers the control messages only. -/
def Obligations.Sideband : Prop :=
  (∀ (s : State) (i : Nat), s.linkUp = true →
    exec (.spdmRequest (.getCertificate 0)) s = .next (s.emit (.spdmReply [0x02, Config.certificate 0])) ∧
    (1 ≤ i → i ≤ 4 → exec (.spdmRequest (.getMeasurement i)) s = .next (s.emit (.spdmReply [0x60, i, s.measurement i]))) ∧
    ((i = 0 ∨ 4 < i) → exec (.spdmRequest (.getMeasurement i)) s = .next (s.emit (.spdmReply [0x7F, 0x01]))) ∧
    exec (.spdmRequest (.other i)) s = .next (s.emit (.spdmReply [0x7F, 0x07]))) ∧
  (∀ (s : State) (eid code addr a : Nat) (v : Word32), s.cc3Up = true →
    (1 ≤ eid → eid ≤ 254 → exec (.mctpControlMsg (.setEid eid)) s =
      .next ({ s with link := { s.link with eid := eid } }.emit (.mctpReply [1, 0, 0, eid, 0]))) ∧
    exec (.mctpControlMsg .getEid) s = .next (s.emit (.mctpReply [2, 0, s.link.eid, 0, 0])) ∧
    exec (.mctpControlMsg (.other code)) s = .next (s.emit (.mctpReply [code, 0x05])) ∧
    exec (.mctpVendorRead addr) s = .next (s.answerRead .mctp addr).wrapUp ∧
    exec (.mctpVendorWrite (.reg a) v) s = .next (s.writeReg .mctp a v).wrapUp ∧
    exec (.mctpControlMsg .messageTypes) s = .next (s.emit (.mctpReply [5, 0, 2, 0x01, 0x7E])) ∧
    exec (.mctpControlMsg (.versions 0)) s = .next (s.emit (.mctpReply [4, 0, 1, 0xF1F3F000]))) ∧
  (∀ (s : State) (k : Fin 8) (key : List Byte) (v : Word32), s.cc3Up = true → key ≠ [] →
    (s.bit mgtKeyCfgFused k.val = false → exec (.mctpVendorWrite (.keySlot k key) v) s =
      .next (({ s with link := { s.link with keys := s.link.keys.set (fun _ => []) k.val key } }).wrBit mgtKeyCfgFused k.val
        true).wrapUp) ∧
    (s.bit mgtKeyCfgFused k.val = true → exec (.mctpVendorWrite (.keySlot k key) v) s = .next s.wrapUp)) ∧
  (∀ (s : State) (code : Nat), s.cc3Up = false → s.bootRom = true →
    exec (.mctpControlMsg .getEid) s = .next (s.emit (.mctpReply [2, 0, s.link.eid, 0, 0])) ∧
    exec (.mctpControlMsg (.other code)) s = .next (s.emit (.mctpReply [code, 0x05])) ∧
    exec (.mctpVendorRead code) s = .next s)

/-- Shows completing: PLDM_GET_TID, PLDM_SET_TID, PLDM_GET_PLDM_VERSION, PLDM_GET_PLDM_TYPES, PLDM_GET_PLDM_COMMANDS,
PLDM_MONITORING_REQUEST, PLDM_FIRMWARE_UPDATE, PLDM_UNSUPPORTED.
R197, Table LNK-9 (08_links_host_fabric_management.md): PLDM answers the commands of Types 0, 2 and 5 and
ERROR_UNSUPPORTED_PLDM_CMD to every other; the codes of the standards are presumed from them (log entry 19).
R197, Table LNK-9 (08_links_host_fabric_management.md): firmware arrives in pieces and is verified before it is applied: an image
that fails is reported and dropped, and ApplyComplete follows a verified image only. -/
def Obligations.Pldm : Prop :=
  (
  ∀ (s : State), s.cc3Up = true →
    exec .pldmGetTid s = .next (s.emit (.pldmReply 0 2 0 [s.link.tid])) ∧
    (∀ tid, 1 ≤ tid → tid < 255 → exec (.pldmSetTid tid) s =
      .next ({ s with link := { s.link with tid := tid } }.emit (.pldmReply 0 1 0 []))) ∧
    (∀ type, (type = 0 ∨ type = 2 ∨ type = 5) → ∃ v : Nat, exec (.pldmGetPldmVersion type) s =
      .next ({ s with free := s.free + 1 }.emit (.pldmReply 0 3 0 [v]))) ∧
    (∀ type, type ≠ 0 → type ≠ 2 → type ≠ 5 → exec (.pldmGetPldmVersion type) s = .next (s.emit (.pldmReply 0 3 0x83 []))) ∧
    exec .pldmGetPldmTypes s = .next (s.emit (.pldmReply 0 4 0 [0x25, 0, 0, 0, 0, 0, 0, 0])) ∧
    exec (.pldmGetPldmCommands 0) s = .next (s.emit (.pldmReply 0 5 0 [0x3E])) ∧
    (∀ n v, s.sensor n = some v → exec (.pldmMonitoringRequest (.readSensor n)) s = .next (s.emit (.pldmReply 2 0x11 0 [v]))) ∧
    exec (.pldmMonitoringRequest .readState) s = .next (s.emit (.pldmReply 2 0x21 0 [(s.reg sysStatus).toNat])) ∧
    exec (.pldmMonitoringRequest .repository) s = .next (s.emit (.pldmReply 2 0x50 0 [pdrCount])) ∧
    (∀ h, 1 ≤ h → h ≤ pdrCount → ∃ (u : State) (rest : List Nat), exec (.pldmMonitoringRequest (.getPdr h)) s =
      .next (u.emit (.pldmReply 2 0x51 0 ([if h = pdrCount then 0 else h + 1, h, if h = pdrCount then 4 else 2, h] ++ rest))) ∧
      u = { s with free := u.free }) ∧
    (∀ type code, (pldmCommands type).contains code = false →
      exec (.pldmUnsupported type code) s = .next (s.emit (.pldmReply type code 5 [])))) ∧
  (
  (∀ (s : State), s.cc3Up = true → s.link.fwStep = 0 →
    exec (.pldmFirmwareUpdate .request) s = .next ((s.setFw none 1).emit (.pldmReply 5 0x10 0 [])) ∧
    exec (.pldmFirmwareUpdate .apply) s = .next (s.emit (.pldmReply 5 0x18 0x80 []))) ∧
  (∀ (s : State) (c : Nat), s.cc3Up = true → (c = 1 ∨ c = 2) →
    (s.link.fwStep = 1 → exec (.pldmFirmwareUpdate (.passTable c)) s = .next ((s.setFw none 2).emit (.pldmReply 5 0x13 0 []))) ∧
    (s.link.fwStep = 2 →
      exec (.pldmFirmwareUpdate (.begin c)) s = .next ((s.setFw (some ⟨c, [], false⟩) 3).emit (.pldmReply 5 0x14 0 [])))) ∧
  (∀ (s : State) (f : FwUpdate), s.cc3Up = true → s.link.fw = some f →
    (∀ off bs, s.link.fwStep = 3 → exec (.pldmFirmwareUpdate (.data off bs)) s =
      .next ((s.setFw (some { f with bytes := laidInto f.bytes off bs }) 3).emit (.pldmReply 5 0x15 0 []))) ∧
    (s.link.fwStep = 3 → exec (.pldmFirmwareUpdate (.verify true)) s =
      .next ((s.setFw (some { f with verified := true }) 5).emit (.pldmReply 5 0x17 0 []))) ∧
    (s.link.fwStep = 3 → exec (.pldmFirmwareUpdate (.verify false)) s =
      .next ((s.setFw none 2).emit (.pldmReply 5 0x17 1 []))) ∧
    (s.link.fwStep = 5 → f.verified = true → exec (.pldmFirmwareUpdate .apply) s =
      .next ((s.markApply f.component).emit (.pldmReply 5 0x18 0 []))) ∧
    (f.verified = false → s.link.fwStep ≠ 0 →
      exec (.pldmFirmwareUpdate .apply) s = .next (s.emit (.pldmReply 5 0x18 0x84 [])))))

/-- Shows completing: HEARTBEAT_WRITE, HEARTBEAT_MISS, ENGINE_STALL, ENGINE_RESET_OVERDUE, RMG_SNAPSHOT, RMG_ACK_WRITE,
TAKEOVER_COMPLETE, TAKEOVER_OVERDUE.
R263, R264, R265, R266, R267, R286, Table HNG-1 (12_hangs_fencing_and_recovery.md): a running core's heartbeat counts; a core
whose count reaches the deadline is answered by what it is: a silent standby restarts, a silent active core with a running standby
is taken over, CC2 costs its partitions or the device by CC2_POLICY, CC3 restarts; a stalled engine is reset, or for a second stall
within REPEAT its partition; an engine reset not DONE in 40 beat ticks becomes the partition's.
R269, R270, R271, R272 (12_hangs_fencing_and_recovery.md): every 50 beat ticks the active core opens the snapshot buffer of the older
generation, then writes and closes it (two commands are the model's choice, log entry 136); an acknowledgement of a closed generation
retires the events it includes; a takeover loads the closed buffer of the higher generation, completes the events above those
it includes and restarts the silent core as the standby, and one not complete in 200 beat ticks is an autonomous recovery. -/
def Obligations.HangMonitor : Prop :=
  (
  (∀ (s : State) (n : Core4) (v : Word32) (c : CoreSt), s.core n = c → c.state = .running ∨ c.state = .restarting →
    exec (.heartbeatWrite n v) s =
      .next (((s.setCore n { c with state := .running, since := s.tick, missed := false }).wr (hngHbCount n)
        ((s.rd (hngHbCount n) + 1) % 2 ^ 32)).wrBit hngStatusAlive n true)) ∧
  (∀ (s s2 : State) (n : Core4), (s.core n).state ≠ .held → (s.core n).frozen = none → (s.core n).missed = false →
    (s.tick < (s.core n).since + Nat.max 1 (s.rd hngHbDeadlineBeats) → exec (.heartbeatMiss n) s = .next s.wrapUp) ∧
    ((s.core n).since + Nat.max 1 (s.rd hngHbDeadlineBeats) ≤ s.tick →
      s2 = ((s.setCore n { s.core n with missed := true }).wrBit hngStatusAlive n false).wrBit hngEventHbMiss n true →
      (n.val < 2 → (s2.core (1 - n.val)).missed = true → exec (.heartbeatMiss n) s = .next s2.recoverAlone.wrapUp) ∧
      (n.val < 2 → (s2.core (1 - n.val)).missed = false →
        (n.val = s2.activeCore → exec (.heartbeatMiss n) s = .next (s2.beginTakeover n).wrapUp) ∧
        (n.val ≠ s2.activeCore → exec (.heartbeatMiss n) s = .next (s2.restartCore n).wrapUp)) ∧
      (n.val = 2 → s2.waitsFor .selfTest = false → (s2.restartCore 2).inService = true → s2.missedAgain 2 = false →
        (s2.rd hngCfgCc2Policy = 1 → exec (.heartbeatMiss n) s = .next ((s2.restartCore 2).requestReset .device 2).wrapUp) ∧
        (s2.rd hngCfgCc2Policy = 0 → exec (.heartbeatMiss n) s =
          .next (s2.presentParts.foldl (fun t p => t.requestReset (.part (partFin p)) 2) (s2.restartCore 2)).wrapUp)) ∧
      (n.val = 3 → s2.missedAgain 3 = false → exec (.heartbeatMiss n) s = .next (s2.restartCore 3).wrapUp))) ∧
  (∀ (s s1 : State) (p : Part) (e : Fin 5), s.findReset (.engine p e) = none →
    (s.stalled p e = false → exec (.engineStall p e) s = .next s.wrapUp) ∧
    (s.stalled p e = true →
      s1 = { s with hang := { s.hang with stalls := s.hang.stalls.set (fun _ => none) (p.val * 8 + e.val) (some s.tick) } }.event
        hngEventEngStall →
      (s.hang.stalls.get (fun _ => none) (p.val * 8 + e.val) = none →
        exec (.engineStall p e) s = .next (s1.requestReset (.engine p e) 1).wrapUp) ∧
      (∀ t, s.hang.stalls.get (fun _ => none) (p.val * 8 + e.val) = some t → s.rd hngCfgEngEsc = 1 →
        s.tick ≤ t + s.rd hngEngDeadlineRepeat →
        exec (.engineStall p e) s = .next ((s1.event hngEventEscalated).requestReset (.part p) 9).wrapUp))) ∧
  (∀ (s : State) (p : Part) (e : Fin 5) (r : ResetSeq), s.findReset (.engine p e) = some r →
    (r.started + 40 ≤ s.tick →
      exec (.engineResetOverdue p e) s = .next ((s.event hngEventEscalated).requestReset (.part p) 9).wrapUp) ∧
    (s.tick < r.started + 40 → exec (.engineResetOverdue p e) s = .next s.wrapUp))) ∧
  (
  (∀ (s : State) (b : Bool) (old : Snapshot) (g : Nat), (s.core s.activeCore).state = .running → s.hang.takeover = none →
    b = s.snapTarget → old = (if b then s.hang.snap1 else s.hang.snap0) → g = (s.rd hngRmgGenGen + 1) % 2 ^ 32 →
    (old.open' = false → s.tick < s.hang.snapTick + 50 → exec .rmgSnapshot s = .next s) ∧
    (old.open' = false → s.hang.snapTick + 50 ≤ s.tick → ∃ u, exec .rmgSnapshot s = .next u ∧
      u = { s.setSnap b { old with open' := true } with hang := { (s.setSnap b { old with open' := true }).hang with
        snapTick := s.tick } }) ∧
    (old.open' = true → exec .rmgSnapshot s =
      .next ((s.setSnap b { open' := false, gen := g, included := s.includedNow, map := s.qtn.map, epoch := s.rd qtnEpochEpoch,
                            sets := s.qtn.sets }).wr hngRmgGenGen g))) ∧
  (∀ (s : State) (n : Core4) (v : Word32) (q : List RmgEvent), n.val = s.activeCore → (s.core n).state = .running →
    (∀ x, s.snapshots.find? (fun y => y.gen == v.toNat) = some x →
      q = s.hang.evq.filter (fun e => decide (x.included < e.seq)) →
      exec (.rmgAckWrite n v) s =
        .next (({ s with hang := { s.hang with evq := q } }.wr hngRmgAckGen v.toNat).wr hngRmgEvqPending q.length)) ∧
    (s.snapshots.find? (fun y => y.gen == v.toNat) = none → exec (.rmgAckWrite n v) s = .next s)) ∧
  (∀ (s s1 s2 : State) (t : Nat) (x : Snapshot), s.hang.takeover = some t → s.bestSnapshot = some x → s1 = s.loadSnapshot x →
    s2 = ((({ s1 with hang := { s1.hang with takeover := none, snap0 := Snapshot.reset, snap1 := Snapshot.reset } }).wr
      hngStatusTakeover 0).event hngEventTakeoverDone).completeEvents x.included →
    exec .takeoverComplete s = .next (s2.restartCore (1 - s2.activeCore)).wrapUp) ∧
  (∀ (s : State) (t : Nat), s.hang.takeover = some t →
    (t + 200 ≤ s.tick → exec .takeoverOverdue s = .next s.recoverAlone.wrapUp) ∧
    (s.tick < t + 200 → exec .takeoverOverdue s = .next s.wrapUp)))

/-- Shows completing: RST_ENGINE, RST_PARTITION, RST_DEVICE, RST_CLA_REGION.
R274, R276, R287, Table HNG-3, Table HNG-7 (12_hangs_fencing_and_recovery.md): RST_CTL with GO asks for the reset of the domain it
describes, of the path's cause, if the path may; with GO = 0 nothing happens. A request that a reset in progress contains is
counted in RST_ABSORBED and does nothing else; with no reset in progress one begins: an engine's has its drain budget, shows in
RST_STATUS, and its domain's DRAIN ends when nothing is left in its slots or the budget has elapsed. -/
def Obligations.ResetRequests : Prop :=
  (∀ (s : State) (path : Path) (v : Word32),
    (v.getLsbD 31 = false → exec (.rstEngine path v) s = .next s.wrapUp ∧ exec (.rstPartition path v) s = .next s.wrapUp ∧
      exec (.rstDevice path v) s = .next s.wrapUp ∧ exec (.rstClaRegion path v) s = .next s.wrapUp) ∧
    (∀ d, v.getLsbD 31 = true → rstDomain v.toNat = some d → s.resetPath path d = true → s.resetAllowed d = true →
      exec (.rstEngine path v) s = .next (s.requestReset d (pathCause path)).wrapUp ∧
      exec (.rstPartition path v) s = .next (s.requestReset d (pathCause path)).wrapUp ∧
      exec (.rstDevice path v) s = .next (s.requestReset d (pathCause path)).wrapUp ∧
      exec (.rstClaRegion path v) s = .next (s.requestReset d (pathCause path)).wrapUp) ∧
    (∀ d, rstDomain v.toNat = some d → s.resetPath path d = false → exec (.rstEngine path v) s = .next s.wrapUp ∧
      exec (.rstPartition path v) s = .next s.wrapUp ∧ exec (.rstDevice path v) s = .next s.wrapUp ∧
      exec (.rstClaRegion path v) s = .next s.wrapUp)) ∧
  (∀ (s : State), s.resetPath .mctp .device = false ∧ (∀ f : Fn, s.resetPath (.pf f) .device = false) ∧
    (∀ (f : Fn) (p : Part), s.presented f = true → (s.resetPath (.pf f) (.part p) = true ↔ f = 0 ∨ f.val = p.val)) ∧
    (∀ (f : Fn) (r : Fin 8), s.presented f = true → (s.resetPath (.pf f) (.cla r) = true ↔ f = 0))) ∧
  (∀ (s : State) (p : Part) (d : RDom) (cause : Nat), d = .part p ∨ (∃ e, d = .engine p e) → s.present p = true →
    s.hang.resets.any (fun r => s.inside d r.dom) = true → s.requestReset d cause = s.count rstAbsorbedCount 1) ∧
  (∀ (s : State) (p : Part) (e : Fin 5) (cause : Nat), s.present p = true → s.hang.resets = [] → s.untraced = true →
    ∃ (u : State) (r : ResetSeq), s.requestReset (.engine p e) cause = u ∧ u.hang.resets = [r] ∧ r.dom = .engine p e ∧
      r.phase = 3 ∧ r.cause = cause ∧ r.drainEnd = s.units + s.rd hngFenceBudgetPhase ∧ r.started = s.tick ∧
      u.rd rstStatusBusy = 1 ∧ u.rd rstStatusPhase = 3 ∧ u.rd rstStatusDomain = 0 ∧ u.rd rstStatusPart = p.val ∧
      s.fieldsKept [rstStatusBusy, rstStatusPhase, rstStatusPart, rstStatusDomain] u ∧
      u = { s with regs := u.regs, hang := { s.hang with resets := u.hang.resets } })

/-- Shows completing: FENCE_DRAIN_END, FENCE_ANSWER_OVERRUN, CAPTURE_COMPLETE, RESET_PHASE_DONE, CAPTURE_CHUNK_SEND.
R276, R278, R279, R282, R284, Table HNG-3 (12_hangs_fencing_and_recovery.md): DRAIN ends when the slots are empty and every read is
answered, or when the budget has elapsed, and ANSWER follows; an ANSWER of more than 2 beat ticks escalates; ANSWER ends in CAPTURE
(by RESET_PHASE_DONE, the model's choice, log entry 135); CAPTURE writes the records and RESET follows; RESET leads to REINIT, whose
end is DONE; a capture copy goes out in chunks of at most 960 bytes. -/
def Obligations.ResetPhases : Prop :=
  (∀ (s : State) (d : RDom) (r : ResetSeq), s.findReset d = some r → r.phase = 3 → r.next = none →
    ((s.slotLists d ≠ [] ∨ s.fenceReads d ≠ []) → s.units < r.drainEnd → exec (.fenceDrainEnd d) s = .next s.wrapUp) ∧
    ((s.slotLists d = [] ∧ s.fenceReads d = [] ∨ r.drainEnd ≤ s.units) →
      exec (.fenceDrainEnd d) s = .next ((s.answerFence d).toPhase { r with slots := s.slotLists d } 4).wrapUp)) ∧
  (∀ (s : State) (d : RDom) (r : ResetSeq), s.findReset d = some r →
    (r.phase ≠ 3 → exec (.fenceDrainEnd d) s = .next s.wrapUp) ∧
    (r.phase ≠ 4 → exec (.fenceAnswerOverrun d) s = .next s.wrapUp) ∧
    (r.phase ≠ 5 → exec (.captureComplete d) s = .next s.wrapUp) ∧
    (r.phase ≠ 4 → r.phase ≠ 6 → r.phase ≠ 7 → exec (.resetPhaseDone d) s = .next s.wrapUp)) ∧
  (∀ (s : State) (p : Part) (e : Fin 5) (r : ResetSeq), s.findReset (.engine p e) = some r → r.phase = 4 → r.since + 2 < s.tick →
    exec (.fenceAnswerOverrun (.engine p e)) s = .next ((s.event hngEventEscalated).requestReset (.part p) 9).wrapUp) ∧
  (∀ (s : State) (p : Part) (r : ResetSeq), s.findReset (.part p) = some r → r.phase = 4 → r.since + 2 < s.tick →
    exec (.fenceAnswerOverrun (.part p)) s = .next ((s.event hngEventEscalated).requestReset .device 9).wrapUp) ∧
  (∀ (s : State) (d : RDom) (r : ResetSeq), s.findReset d = some r → r.phase = 5 → r.next = none →
    s.hang.waiting = false → r.captured = false →
    exec (.captureComplete d) s =
      .next (((s.capParts d).foldl (fun t p => t.writeCapture r p) s).toPhase { r with captured := true } 6).wrapUp) ∧
  (∀ (s : State) (d : RDom) (r : ResetSeq), s.findReset d = some r → r.next = none →
    (r.phase = 4 → exec (.resetPhaseDone d) s = .next (s.toPhase r 5).wrapUp) ∧
    (r.phase = 6 → (s.resetEffect r).lostPart d = false → exec (.resetPhaseDone d) s = .next ((s.resetEffect r).toPhase r 7).wrapUp) ∧
    (r.phase = 6 → (s.resetEffect r).lostPart d = true → exec (.resetPhaseDone d) s = .next ((s.resetEffect r).endReset r).wrapUp) ∧
    (r.phase = 7 → d ≠ .device → r.dom = d → exec (.resetPhaseDone d) s = .next (s.endReset r).wrapUp)) ∧
  (∀ (s : State) (p : Part) (r : ResetSeq), (∀ e, r.dom = .engine p e → s.resetEffect r = s) ∧
    (r.dom = .part p → s.resetEffect r = s.resetPart p)) ∧
  (∀ (s : State) (p : Part) (n a : Nat) (bs : List Byte), (s.cap p).copying = true → (s.core 3).state = .running →
    s.link.msgs.length < 64 → s.present p = true → s.fenced p = false → s.capResetting p = false →
    n = Nat.min 960 ((s.cap p).length - (s.cap p).sent) →
    a = s.capBase p (s.on (hngCapStatusBuf p)) + (s.cap p).sent → s.chunk p a n = (bs, 0) → n < (s.cap p).length - (s.cap p).sent →
    exec (.captureChunkSend p) s =
      .next (((((s.sendEvent (leBytes 1 0x0C ++ leBytes 1 0 ++ leBytes 2 0 ++ leBytes 4 (s.cap p).seq ++ leBytes 4 (s.cap p).sent ++
        leBytes 4 n ++ bs)).setCap p { s.cap p with sent := (s.cap p).sent + n }).wr (hngCapStatusCopied p)
          (((s.cap p).sent + n) * 100 / Nat.max 1 (s.cap p).length)).touch p true none a n).wrapUp))

/-- Shows completing: AON_POWER_UP, AON_RESET_PIN, AON_POWER_LOSS, SYS_OSC_QUALIFIED, PLL_LOCK, BOOT_IMAGE_LOADED,
WAKE_STEP_TIMEOUT.
R291, R292, R293, R347, R444, R447, Table PWR-3 (13_power_domains_and_wake.md, 20_package_signals_and_electrical.md): AON power-up
latches the straps and begins W1; the oscillator, the AON PLL and the boot image end W1 to W3, the first with OSC_OK and the second with AON_PLL set; a
timeout of one of them repeats it twice and then leaves the safe state; WAKE_HOLD holds the wake after W3; AON_RST_N below 2 µs is ignored and from 10 µs on is a power
cycle; without AON power nothing of the state is left but what lasts without it. -/
def Obligations.AonWake : Prop :=
  (∀ (s : State) (straps : BitVec 6), s.pwr.aon = false → exec (.aonPowerUp straps) s = .next (s.powerUp straps.toNat)) ∧
  (∀ (s : State) (straps : Nat) (u : State), s.powerUp straps = u →
    u.pwr.aon = true ∧ u.pwr.wake = some .cold ∧ u.pwr.waits = [.osc] ∧ u.pending = s.pending ∧ u.pwr.safe = false ∧
    u.lists = [] ∧ u.hang.resets = [] ∧ (straps % 4 ≠ 3 → u.mode = straps % 4) ∧ (straps % 4 = 3 → u.mode = 0)) ∧
  (∀ (s : State) (us : Nat) (straps : BitVec 6), s.pwr.aon = true →
    (us < 2 → exec (.aonResetPin us straps) s = .next s) ∧
    (10 ≤ us → exec (.aonResetPin us straps) s = .next (s.powerUp straps.toNat)) ∧
    (2 ≤ us → us < 10 → (exec (.aonResetPin us straps) s = .next (s.draw.2.powerUp straps.toNat) ∨
      exec (.aonResetPin us straps) s = .next s.draw.2))) ∧
  (∀ (s : State), s.pwr.aon = true →
    (s.rd thmStatusTripped = 0 → exec .aonPowerLoss s = .next s.unpowered) ∧
    (s.rd thmStatusTripped = 1 → exec .aonPowerLoss s = .next (s.unpowered.emit (.thermTrip false)))) ∧
  (∀ (s : State), s.pwr.stopWake = false →
    (s.waitsFor .osc = true → exec .sysOscQualified s =
      .next ((((s.wr clkStatusOscOk 1).setWaits [.aonPll]).setAttempts 13 1).wr pwrWakeStatusStep 2)) ∧
    (s.waitsFor .osc = false → exec .sysOscQualified s = .next s) ∧
    (s.waitsFor .aonPll = true → exec (.pllLock none) s =
      .next ((((s.wr clkStatusAonPll 1).setWaits [.boot]).setAttempts 14 1).wr pwrWakeStatusStep 3).wrapUp) ∧
    (s.waitsFor .aonPll = false → exec (.pllLock none) s = .next s.wrapUp)) ∧
  (∀ (s : State), (s.waitsFor .boot = false → exec .bootImageLoaded s = .next s.wrapUp) ∧
    (s.waitsFor .boot = true → s.pwr.wake = some .deviceReset →
      exec .bootImageLoaded s = .next ((s.startCores.setWaits []).hello).nextDomain.wrapUp) ∧
    (∀ s1, s.waitsFor .boot = true → s.pwr.wake = some .cold → s1 = (s.startCores.setWaits []).hello →
      s1.rd qtnEventMapLost = 0 →
      (s1.recheckPack.rd sysStrapWakeHold = 1 → exec .bootImageLoaded s = .next (s1.recheckPack.wr pwrWakeStatusHeld 1).wrapUp) ∧
      (s1.recheckPack.rd sysStrapWakeHold = 0 → exec .bootImageLoaded s = .next s1.recheckPack.nextDomain.wrapUp))) ∧
  (∀ (s : State), s.pwr.waits = [.osc] →
    (s.attempts 12 < 3 → exec (.wakeStepTimeout none) s = .next (s.setAttempts 12 (s.attempts 12 + 1)).wrapUp) ∧
    (3 ≤ s.attempts 12 → exec (.wakeStepTimeout none) s =
      .next ((s.recordFail 1 12 4 (s.attempts 12)).safeState 1).updateFault.wrapUp))

/-- Shows completing: PGOOD_RISE, PGOOD_LOSS, PLL_LOCK, HBM_TRAINING_DONE, SERDES_CAL_DONE, WAKE_STEP_TIMEOUT,
WAKE_RETRY_OFF_END.
R289, R292, R293, R295, R297 (13_power_domains_and_wake.md): a domain's wake goes from PGOOD to its PLL, then to training or
calibration where it has one, and the domain is on; a wait that times out fails the attempt: training and calibration start again in
place, anything else after 10 ms off, and a third failure leaves the domain off with its code in PWR_WAKE_RESULT. -/
def Obligations.DomainWake : Prop :=
  (∀ (s s1 : State) (d : Domain), s1 = s.setPwr { s.pwr with pgood := s.pwr.pgood ||| 2 ^ d.val } →
    (s1.waitsFor (.pgood d) = true → exec (.pgoodRise d) s = .next (s1.replaceWait (.pgood d) (.pll d))) ∧
    (s1.waitsFor (.pgood d) = false → exec (.pgoodRise d) s = .next s1)) ∧
  (∀ (s : State) (d : Domain), s.waitsFor (.pll d) = true →
    (d = 7 ∨ d = 8 → exec (.pllLock (some d)) s =
      .next ((s.wrBit clkStatusPll d true).replaceWait (.pll d) (.serdes d)).wrapUp) ∧
    (d = 4 ∨ d = 5 → exec (.pllLock (some d)) s =
      .next ((s.wrBit clkStatusPll d true).replaceWait (.pll d) (.training d)).nextDomain.wrapUp) ∧
    (d.val < 4 ∨ d = 6 ∨ 9 ≤ d.val → exec (.pllLock (some d)) s =
      .next ((s.wrBit clkStatusPll d true).domainDone (.pll d) d).wrapUp)) ∧
  (∀ (s : State) (d : Domain), s.waitsFor (.training d) = true →
    exec (.hbmTrainingDone d) s = .next (s.domainDone (.training d) d).wrapUp) ∧
  (∀ (s : State) (d : Domain), s.waitsFor (.serdes d) = true →
    exec (.serdesCalDone d) s = .next (s.domainDone (.serdes d) d).wrapUp) ∧
  (∀ (s : State) (d : Domain), s.pwr.waits = [.pgood d] →
    (s.attempts d < 3 → exec (.wakeStepTimeout (some d)) s =
      .next (let s1 := ((s.cutEnable d).wrBit clkStatusPll d false).replaceWait (.pgood d) (.retryOff d)
        s1.setPwr { s1.pwr with selfRefresh := without s1.pwr.selfRefresh (2 ^ d.val) } |>.wrapUp)) ∧
    (3 ≤ s.attempts d → exec (.wakeStepTimeout (some d)) s = .next ((s.dropWait (.pgood d)).failDomain d 1).wrapUp)) ∧
  (∀ (s : State) (d : Domain), s.pwr.waits = [.training d] → s.attempts d < 3 →
    exec (.wakeStepTimeout (some d)) s = .next (s.setAttempts d (s.attempts d + 1)).wrapUp) ∧
  (∀ (s : State) (d : Domain), s.waitsFor (.retryOff d) = true → s.pwr.stopWake = false → s.pwr.pgood.testBit d = false →
    exec (.wakeRetryOffEnd (some d)) s =
      .next (((s.setAttempts d (s.attempts d + 1)).enable d).replaceWait (.retryOff d) (.pgood d)).wrapUp) ∧
  (∀ (s : State) (d : Domain) (s1 : State), s1 = s.setPwr { s.pwr with pgood := without s.pwr.pgood (2 ^ d.val) } →
    (s.domOn d = true → exec (.pgoodLoss d) s = .next (s1.loseDomain d).wrapUp) ∧
    (s.domOn d = false → s.pwr.waits = [] → s.pwr.selfRefresh.testBit d = false →
      exec (.pgoodLoss d) s = .next s1.wrapUp)) ∧
  (∀ (s : State) (step dom reason n : Nat), step < 16 → dom < 16 → reason < 16 → n < 4 → s.rd pwrWakeResultValid = 0 →
    ∃ u, s.recordFail step dom reason n = u ∧ u.rd pwrWakeResultValid = 1 ∧ u.rd pwrWakeResultStep = step ∧
      u.rd pwrWakeResultDomain = dom ∧ u.rd pwrWakeResultReason = reason ∧ u.rd pwrWakeResultAttempts = n ∧
      u.rd pwrEventWakeFail = 1)

/-- Shows completing: DOMAIN_ON, DOMAIN_OFF, VSET_WRITE, VOUT_SETTLED, CLOCK_LIMIT_WRITE, POWER_LIMITER, POWER_FAIL_WARNING,
PMBUS_POLL, WAKE_GO, PART_CFG_WRITE.
R18, R298, R299, R301, R302, R303, R304, R306, R307 (13_power_domains_and_wake.md): only management and unlocked debug switch domains,
set voltages and limit the clock; a switch-off of a busy domain is refused whole; a lowered voltage lowers the clock at once and a
raised one waits for VOUT_SETTLED; the matrix clock is the least of its limits and never below 525 MHz; a limiter step follows a
peak; PWR_FAIL_N ends the session and aborts a panel update, self-test and a CLA stream; WAKE_GO lets a held wake go on; PART_CFG stages a mode, and NEXT = 11 is ignored. -/
def Obligations.RunTimePower : Prop :=
  (∀ (s : State) (f : Fn) (v : Word32) (d : Die), exec (.domainOn (.pf f) v) s = .next s.wrapUp ∧ exec (.domainOff (.pf f) v) s = .next s.wrapUp ∧
    exec (.vsetWrite (.pf f) d v) s = .next s ∧ exec (.clockLimitWrite (.pf f) v) s = .next s ∧ exec (.wakeGo (.pf f)) s = .next s.wrapUp) ∧
  (∀ (s : State) (v : Word32), exec (.domainOn .mgmt v) s = exec (.domainOff .mgmt v) s ∧
    (s.switchRefused (bitsOf v.toNat 0 12) (bitsOf v.toNat 16 12) = true →
      exec (.domainOff .mgmt v) s = .next (s.event pwrEventSwitchRefused).wrapUp)) ∧
  (∀ (s : State) (d : Domain) (on off : Nat), s.domOn d = true → off.testBit d = true → s.mayGoOff d = false →
    s.switchRefused on off = true) ∧
  (∀ (s : State) (d : Domain), s.switchRefused 0 (2 ^ d.val) = false → s.domOn d = true →
    exec (.domainOff .mgmt (BitVec.ofNat 32 (2 ^ (16 + d.val)))) s = .next (s.domainDown d).showDomains.wrapUp) ∧
  (∀ (s : State) (d : Domain), s.switchRefused (2 ^ d.val) 0 = false → s.domOn d = false →
    exec (.domainOn .mgmt (BitVec.ofNat 32 (2 ^ d.val))) s = .next (s.beginWake (.switchOn (2 ^ d.val))).showDomains.wrapUp) ∧
  (∀ (s : State) (d : Die) (v : Word32) (mv : Nat), mv = Nat.min 850 (Nat.max 650 (bitsOf v.toNat 0 10)) →
    (s.setpoints d = [] ∨ mv ≤ s.pwr.vNow.get (fun x => Config.vRated x) d → exec (.vsetWrite .mgmt d v) s =
      .next ((((s.wr (pwrVsetMv d) mv).setRaise d none).setVolt d mv).sendVout d mv)) ∧
    (s.setpoints d ≠ [] → s.pwr.vNow.get (fun x => Config.vRated x) d < mv → exec (.vsetWrite .mgmt d v) s =
      .next (((s.wr (pwrVsetMv d) mv).sendVout d mv).setRaise d (some mv)))) ∧
  (∀ (s : State) (d : Die) (v mv : Nat), s.pwr.vRaise.get (fun _ => none) d = some v →
    (v ≤ mv + 10 → mv ≤ v + 10 → exec (.voutSettled d mv) s = .next ((s.setRaise d none).setVolt d v)) ∧
    (v + 10 < mv ∨ mv + 10 < v → exec (.voutSettled d mv) s = .next s)) ∧
  (∀ (s : State) (v : Word32), exec (.clockLimitWrite .mgmt v) s = .next (s.wr clkMatrixLimitMhz v.toNat).updateClocks) ∧
  (∀ (s : State) (d : Nat), s.domOn d = true → 525 ≤ s.matrixMhz d ∧ s.matrixMhz d ≤ 2100 ∧
    s.matrixMhz d ≤ Nat.max 525 (s.thermLimit d) ∧ s.matrixMhz d ≤ Nat.max 525 s.powerLimit ∧ s.matrixMhz d ≤ s.mgmtLimit) ∧
  (∀ (s : State) (watts : Nat) (s1 : State), s.pwr.aon = true →
    s1 = ((s.wr pwrEstNow watts).wr pwrEstMax (Nat.max watts (s.rd pwrEstMax))).recordPower →
    (s1.rd bistStatusState = 1 → exec (.powerLimiter watts) s =
      .next (s1.wr bistPwrMaxWatts (Nat.max watts (s1.rd bistPwrMaxWatts)))) ∧
    (s1.rd bistStatusState ≠ 1 → exec (.powerLimiter watts) s = .next (s1.limiter watts))) ∧
  (∀ (s : State) (e : Nat), s.rd pwrLimitPeakWatts < e → s.powerLimit ≠ 525 →
    ∃ s1 : State, s.limiter e = s1.setCuts (s.pwr.cuts + 1) ∧ s1.regs = s.regs ∧ s1.mem = s.mem) ∧
  (∀ (s s2 : State), s.pwr.aon = true → s.pwr.failSeen = false →
    s2 = (s.event pwrEventPwrFail).setPwr { s.pwr with failSeen := true, stopWake := s.pwr.wake.isSome } →
    exec .powerFailWarning s = .next s2.endSession.abortPanel.abortBist.abortStream.wrapUp) ∧
  (∀ (s : State) (rs : List PmbReading), s.pwr.aon = true →
    (s.tick < s.pwr.pmbTick + Nat.max 1 (s.rd pwrPmbCfgPoll) → exec (.pmbusPoll rs) s = .next s) ∧
    (s.pwr.pmbTick + Nat.max 1 (s.rd pwrPmbCfgPoll) ≤ s.tick →
      (rs = [] → exec (.pmbusPoll rs) s = .next (s.setPwr { s.pwr with pmbTick := s.tick })) ∧
      (∀ r, rs = [r] → exec (.pmbusPoll rs) s = .next ((s.setPwr { s.pwr with pmbTick := s.tick }).takeReading r)))) ∧
  (∀ (s : State), s.rd pwrWakeStatusHeld = 1 → exec (.wakeGo .mgmt) s = .next (s.wr pwrWakeStatusHeld 0).nextDomain.wrapUp) ∧
  (∀ (s : State) (v : Word32), bitsOf v.toNat 4 2 ≠ 3 →
    exec (.partCfgWrite .mgmt v) s =
      .next ((s.wr sysPartCfgNext (bitsOf v.toNat 4 2)).wr sysPartCfgNextValid (bitsOf v.toNat 8 1))) ∧
  (∀ (s : State) (path : Path) (v : Word32), bitsOf v.toNat 4 2 = 3 → exec (.partCfgWrite path v) s = .next s)

/-- Shows completing: SCRUB_READ, ROW_REMAP_COPY_DONE.
R156, R157, R160, R162, R164 (07_memory_and_addressing.md): a scrub read takes the next line of its pseudo-channel, every INTERVAL beat
ticks, and wraps after the last; a corrected error is counted by its stack and channel and its row is retired at the threshold; an
uncorrectable one poisons its line and enters its row before it is reported; a row copy that is done joins the list in MRAM. -/
def Obligations.ScrubAndRetire : Prop :=
  (∀ (s : State) (h : Stack) (ch : Fin 64) (n : Nat), s.rd (hbmScrubCfgEn h) = 0 → exec (.scrubRead h ch n) s = .next s.wrapUp) ∧
  (∀ (s s1 : State) (h : Stack) (ch : Fin 64) (c n : Nat), c = h.val * 64 + ch.val → s.rd (hbmScrubCfgEn h) = 1 →
    s.scrubbed c = true → (s.chanSt c).scrubbed + Nat.max 1 (s.rd (hbmScrubCfgInterval h)) ≤ s.tick → n = (s.chanSt c).scrub →
    n + 1 < 9437184 → s.calm = true →
    s1 = s.setChan c { s.chanSt c with scrub := n + 1, scrubbed := s.tick } →
    exec (.scrubRead h ch 0) s = .next (s1.endPass h).wrapUp ∧
    (∀ e, codeResult e = .corrected → exec (.scrubRead h ch e) s = .next ((s1.correctedHbm c n).endPass h).wrapUp) ∧
    (∀ e, codeResult e = .uncorrectable → s.remapsOf h < 64 → exec (.scrubRead h ch e) s =
      .next (((({ s1 with mem := s1.mem.setPoison (lineKey c n / 64) true }).retireRow c (bankOf n) (rowOf n) true).reportHbm c n
        true).endPass h).wrapUp)) ∧
  (∀ (s s1 : State) (h : Stack) (ch : Fin 64) (c : Nat), c = h.val * 64 + ch.val → s.rd (hbmScrubCfgEn h) = 1 →
    s.scrubbed c = true → (s.chanSt c).scrubbed + Nat.max 1 (s.rd (hbmScrubCfgInterval h)) ≤ s.tick →
    (s.chanSt c).scrub + 1 = 9437184 → s.calm = true →
    s1 = s.setChan c { scrub := 0, scrubbed := s.tick, wrapped := true } →
    exec (.scrubRead h ch 0) s = .next (s1.endPass h).wrapUp) ∧
  (∀ (s : State) (line : Nat) (scrub : Bool) (owner : Option (Nat × Nat)), codeResult (s.mem.flaw line) = .uncorrectable →
    (s.meet line scrub owner).mem.isPoison (64 * line) = true ∧ (s.meet line scrub owner).mem.flaw line = 0 ∧
    (∀ k, k / 64 ≠ line → (s.meet line scrub owner).mem.isPoison k = s.mem.isPoison k) ∧
    (∀ k, (s.meet line scrub owner).mem.byte k = s.mem.byte k)) ∧
  (∀ (s : State) (c n t : Nat), c < 512 → s.rd (hbmRetireCfgCeThresh (c / 64)) = t → s.untraced = true →
    t = 0 ∨ s.mem.rowCe.get (fun _ => 0) ((c * 64 + bankOf n) * 16384 + rowOf n) + 1 < t →
    ∃ u, s.correctedHbm c n = u ∧ u.mem.remaps = s.mem.remaps ∧ u.mem.bytes = s.mem.bytes ∧ u.mem.poison = s.mem.poison ∧
      u.mem.rowCe.get (fun _ => 0) ((c * 64 + bankOf n) * 16384 + rowOf n) =
        s.mem.rowCe.get (fun _ => 0) ((c * 64 + bankOf n) * 16384 + rowOf n) + 1) ∧
  (∀ (s s1 : State) (h : Stack) (ch : Fin 64) (bank row : Nat) (x : RowCopy) (e : RowEntry), x = ⟨h.val * 64 + ch.val, bank, row⟩ →
    s1 = { s with mem := { s.mem with copies := s.mem.copies.erase x } }.event (hbmEventRetire h) →
    s1.mem.remaps.find? (fun r => r.chan == h.val * 64 + ch.val && r.bank == bank && r.row == row) = some e →
    (s.mem.copies.contains x = true → s1.mramOk = true → s.mem.unlisted = [] → exec (.rowRemapCopyDone h ch bank row) s =
      .next { s1 with mram := { s1.mram with rows := s1.mram.rows ++ [e] } }) ∧
    (s.mem.copies.contains x = true → s1.mramOk = false → exec (.rowRemapCopyDone h ch bank row) s =
      .next { s1 with mem := { s1.mem with unlisted := s1.mem.unlisted ++ [e] } }) ∧
    (s.mem.copies.contains x = false → exec (.rowRemapCopyDone h ch bank row) s = .next s))

/-- Shows completing: BIST_GROUP_END, BIST_REPAIR_PHASE_END.
R310, R316, R318, R319, R322 (14_power_up_self_test_and_repair.md): a running group ends with its findings and the next start in
ascending order within the budget; once no group is left the repair phase writes the list, applies the findings, and the wake goes on
or fails by Table BIST-4; self-test that is interrupted applies nothing. -/
def Obligations.SelfTest : Prop :=
  (∀ (s s0 s1 s3 s4 : State) (g : Fin 8) (fs : List BistFinding) (watts : Nat), s.waitsFor .selfTest = true →
    s.bit bistStatusRun g = true → s0 = (if g.val = 3 then s.applyRows else s) →
    s1 = s0.wr bistPwrMaxWatts (Nat.max watts (s.rd bistPwrMaxWatts)) →
    (∀ f ∈ fs, groupTests g f.code f.inst = true ∧
      (domOfStruct g f.code f.inst = 12 ∨ s1.domOn (domOfStruct g f.code f.inst) = true)) →
    s3 = ((fs.foldl (fun t f => t.takeFinding g f) s1).wrBit bistStatusRun g false).wrBit bistStatusDone g true →
    s4 = (if g.val = 2 ∧ s3.domOn 11 = true then s3.startLoad else s3) →
    exec (.bistGroupEnd g fs watts) s = .next (s4.startGroups 9).wrapUp) ∧
  (∀ (s : State) (g : Fin 8) (code inst : Nat) (w : FailWord) (r : RepairEntry),
    r = ⟨code, true, false, inst, w.bank, w.row⟩ → code ≠ 0x20 → code ≠ 0x21 → s.mended code inst w = false →
    s.freeRow code inst w.bank = true → ∃ u, s.mendWords g code inst [w] [w] = (u, none) ∧
      u.bist.repairs = s.bist.repairs ++ [r]) ∧
  (∀ (s : State) (g : Fin 8) (fs : List BistFinding) (watts : Nat), s.waitsFor .selfTest = false ∨ s.bit bistStatusRun g = false →
    exec (.bistGroupEnd g fs watts) s = .next s.wrapUp) ∧
  (∀ (s s3 : State) (ms r : Nat), s.waitsFor .selfTest = true → s.rd bistStatusRun = 0 →
    (s.nextGroup = none ∨ s.bistHalted = true) → s.rmgDown = false →
    r = (if s.bist.units ≠ [] then 2 else if s.bist.repairs ≠ [] then 1 else 0) →
    s3 = ((((((s.appendRepairs.applyFindings).wr bistTimeMs (Nat.min 65535 ms)).wr bistStatusState 2).wr bistStatusResult r).wr
      sysStatusBistDone 1).dropWait .selfTest).showDomains →
    (∀ reason dom, s3.bistOutcome = some (reason, dom) → exec (.bistRepairPhaseEnd ms) s = .next (s3.failBist dom reason).wrapUp) ∧
    (s3.bistOutcome = none → s3.pwr.stopWake = false → exec (.bistRepairPhaseEnd ms) s = .next (s3.finishWake false).wrapUp) ∧
    (s3.bistOutcome = none → s3.pwr.stopWake = true → exec (.bistRepairPhaseEnd ms) s = .next s3.wrapUp)) ∧
  (∀ (s : State), s.waitsFor .selfTest = true → ∃ u, s.abortBist = u ∧ u.waitsFor .selfTest = false ∧ u.rd bistStatusRun = 0 ∧
    u.rd bistStatusState = 3 ∧ u.rd bistEventAborted = 1 ∧ u.pwr.bistHold = 0xC ∧ u.mram = s.mram ∧ u.qtn = s.qtn ∧ u.mem = s.mem) ∧
  (∀ (s : State) (g : Nat) (n : Nat), s.nextGroup = some g → s.bit bistStatusRun 0 = false → s.bistHalted = false →
    1200 < s.bistWatts + bistBudget g → s.startGroups n = s)

/-- Shows completing: THERMAL_SAMPLE, THERMAL_TRIP, THERMAL_RESUME, THRESHOLD_WRITE.
R325, R326, R327, R328, R332, R333, R334, R336 (15_thermal_management.md): samples come at their cadence; a level rises at its
threshold and falls below it less the hysteresis; a failed sensor is left out, and a domain without one throttles; a trip latches
its first source, marks MRAM, and cuts all power; RESUME needs SHUTDOWN without a trip and every maximum cool; thresholds out of order
are refused. -/
def Obligations.ThermalManagement : Prop :=
  (∀ (s : State) (rs : List (Option Int)) (droop period : Nat), s.pwr.aon = true →
    period = (if s.on thmStatusFast then 10 else 100) →
    (s.tick < s.thm.sampled + period → exec (.thermalSample rs droop) s = .next s.wrapUp) ∧
    (s.thm.sampled + period ≤ s.tick → ∀ s1 s2 s3 : State,
      s1 = (List.range 120).foldl (fun t i => t.takeSensor i (rs.getD i none)) s →
      s2 = (s1.showMaxima.takeMode (s1.rd thmStatusState == 1)).takeLimits →
      s3 = (s2.newFails s).foldl (fun t i => t.reportThermal 6 (sensorDomain i) (t.levelOf (sensorDomain i))
        ((t.domMax (sensorDomain i)).getD 0) i) s2.takeLevels →
      exec (.thermalSample rs droop) s =
        .next ((s3.setThm { s3.thm with highest := Nat.max s3.thm.highest s3.topLevel }).accumulate
          droop).actThermal.wrapUp)) ∧
  (∀ (s : State) (d old : Nat) (m : Int), s.threshold d 1 < s.threshold d 2 →
    s.threshold d 2 < s.threshold d 3 →
    (m < s.threshold d 1 - s.hysteresis d → s.nextLevel d old m = 0) ∧
    (s.threshold d 3 ≤ m → s.nextLevel d old m = 3) ∧
    (s.threshold d 2 ≤ m → m < s.threshold d 3 - s.hysteresis d → s.nextLevel d old m = 2) ∧
    (old ≤ 1 → s.threshold d 1 ≤ m → m < s.threshold d 2 → s.nextLevel d old m = 1) ∧
    (s.threshold d 3 - s.hysteresis d ≤ m → s.nextLevel d 3 m = 3)) ∧
  (∀ (s : State) (d : Nat), s.domMax d = none → s.newLevel d = 2) ∧
  (∀ (s : State) (d : Nat), 25 * 64 ≤ s.pct64 d ∧ s.pct64 d ≤ 6400 ∧
    ((∀ x, x ∈ dieDomains d → (s.domMax x).isSome = true) → s.excess d = 0 → s.pct64 d = 6400)) ∧
  (∀ (s s2 : State) (sensor : Nat), s.pwr.aon = true → s.rd thmStatusTripped = 0 →
    s2 = ((({ ((s.wr thmStatusTripped 1).wr thmStatusTripSensor sensor).event thmEventTrip with
      mram := { s.mram with marker := some (sensor, s.rd evrSeqSeq) } }.wr evrStatusTripMark 1).emit (.thermTrip true)).powerGone) →
    exec (.thermalTrip sensor) s =
      .next ((s2.setThm { s2.thm with stop := 0, owed := some sensor }).flushTrip).wrapUp) ∧
  (∀ (s : State) (sensor : Nat), s.rd thmStatusTripped = 1 → exec (.thermalTrip sensor) s = .next s.wrapUp) ∧
  (∀ (s : State), s.pwr.aon = true →
    (s.resumeOk = false → exec (.thermalResume .mgmt) s = .next (s.event thmEventResumeRefused).wrapUp) ∧
    (s.resumeOk = true → s.pwr.wake = none →
      exec (.thermalResume .mgmt) s = .next ((s.reportDevice 7 0xFF s.topLevel).beginWake .resume).wrapUp)) ∧
  (∀ (s : State) (f : Fn), exec (.thermalResume (.pf f)) s = .next s.wrapUp) ∧
  (∀ (s : State) (reg : Fin 3) (v warn throttle shutdown : Word32),
    (warn, throttle, shutdown) = (if reg = 0 then (v, s.reg thmLimitThrottle, s.reg thmLimitShutdown)
      else if reg = 1 then (s.reg thmLimitWarn, v, s.reg thmLimitShutdown) else (s.reg thmLimitWarn, s.reg thmLimitThrottle, v)) →
    (thresholdsOk warn.toNat throttle.toNat shutdown.toNat = true → exec (.thresholdWrite .mgmt reg v) s =
      .next (s.setReg (if reg = 0 then thmLimitWarn else if reg = 1 then thmLimitThrottle else thmLimitShutdown)
        (BitVec.ofNat 32 (v.toNat % 65536)))) ∧
    (thresholdsOk warn.toNat throttle.toNat shutdown.toNat = false →
      exec (.thresholdWrite .mgmt reg v) s = .next (s.event thmEventCfgRefused))) ∧
  (∀ (s : State) (f : Fn) (reg : Fin 3) (v : Word32), exec (.thresholdWrite (.pf f) reg v) s = .next s)

/-- Shows completing: EVR_FLUSH, EVR_RECORD_WRITTEN, PANEL_UPDATE_START, PANEL_BUSY_RELEASE, PANEL_DELAY_EXPIRY,
PANEL_BUSY_TIMEOUT, PANEL_UPDATE_NOW, PANEL_CLEAR_FAILED, PANEL_DATA, PANEL_COMMIT.
R342, R345, R346, R349 (16_event_recorder_and_status_panel.md): FLUSH closes the open record, over management, until PWR_FAIL_N; a
record whose write ends stands in the slot of its SEQ and raises the record counter; a closing event while a write is in progress waits, and events of one
beat wait in the order of R346.
R351, R353, R354, R355, R356 (16_event_recorder_and_status_panel.md): a panel update starts when it is due and MIN_GAP has passed,
or on UPDATE; a BUSY wait ends with PNL_BUSY and a DELAY with its time; a BUSY that times out fails the update and leaves its copy open, and three
failures in a row stop updates until they are cleared; a script is committed only if its checks hold. -/
def Obligations.RecorderAndPanel : Prop :=
  (
  (∀ (s : State), s.pwr.aon = true →
    (s.pwr.failSeen = false → exec (.evrFlush .mgmt) s = .next (s.closing 4 0 0 0)) ∧
    (s.pwr.failSeen = true → exec (.evrFlush .mgmt) s = .next s)) ∧
  (∀ (s : State) (f : Fn), exec (.evrFlush (.pf f)) s = .next s) ∧
  (∀ (s : State) (c : Closing) (w : Nat × Nat × List Byte), s.pwr.failSeen = false → s.evr.writing = some w → c.tick = s.tick →
    s.closing c.kind c.job c.part c.entry = { s with evr := { s.evr with queue := insertClosing c s.evr.queue } }) ∧
  (∀ (s : State) (kind job part entry : Nat), s.pwr.failSeen = false → s.evr.writing = none → s.evr.queue = [] → s.rmgDown = false →
    ∃ u, s.closing kind job part entry = u ∧ u.evr.queue = [] ∧ u.rd evrStatusWriting = 1 ∧
      u.evr.writing = some (s.rd evrSeqSeq, kind, sealRecord (s.recordBody kind (s.rd evrSeqSeq) job part)) ∧
      u.evr.open' = s.freshRec ∧ u.mram = s.mram ∧ u.mem = s.mem ∧ u.lists = s.lists) ∧
  (∀ (c d : Closing) (l : List Closing), c.tick = d.tick →
    (c.rank < d.rank → insertClosing c (d :: l) = c :: d :: l) ∧ (d.rank ≤ c.rank → insertClosing c (d :: l) = d :: insertClosing c l)) ∧
  (∀ (s : State), s.evr.writing = none → exec .evrRecordWritten s = .next s) ∧
  (∀ (s : State) (seq kind : Nat) (bs : List Byte), s.evr.writing = some (seq, kind, bs) → s.evr.queue = [] → s.rmgDown = false →
    ∃ u, exec .evrRecordWritten s = .next u ∧ u.evr.writing = none ∧ u.mram.ring.get (fun _ => []) (seq % 1536) = bs ∧
      (∀ i, i ≠ seq % 1536 → u.mram.ring.get (fun _ => []) i = s.mram.ring.get (fun _ => []) i) ∧
      u.rd evrEventWritten = 1 ∧ u.rd evrStatusWriting = 0 ∧
      u.mram.counters.gen = s.mram.counters.gen + 1 ∧ u.mram.counters.seq = seq + 1 ∧ u.mem = s.mem ∧ u.lists = s.lists)) ∧
  (
  (∀ (s : State), s.panelFree = false → exec .panelUpdateStart s = .next s ∧ exec (.panelUpdateNow .mgmt) s = .next s) ∧
  (∀ (s : State), s.panelFree = true → exec (.panelUpdateNow .mgmt) s = .next s.startUpdate ∧
    (s.panelDue = true → s.evr.lastEnd = none → exec .panelUpdateStart s = .next s.startUpdate) ∧
    (∀ t, s.evr.lastEnd = some t → s.tick < t + 100 * s.rd pnlCfgMinGap → exec .panelUpdateStart s = .next s)) ∧
  (∀ (s : State) (ms : Nat), s.evr.wait = some (.busy ms) →
    exec .panelBusyRelease s = .next s.panelGo ∧ exec .panelDelayExpiry s = .next s ∧
    exec .panelBusyTimeout s = .next (s.failUpdate pnlEventTimeout)) ∧
  (∀ (s : State) (ms : Nat), s.evr.wait = some (.delay ms) →
    exec .panelDelayExpiry s = .next s.panelGo ∧ exec .panelBusyRelease s = .next s ∧ exec .panelBusyTimeout s = .next s) ∧
  (∀ (s : State), ∃ u, s.failUpdate pnlEventTimeout = u ∧ u.rd pnlStatusStep = 0 ∧ u.rd pnlEventTimeout = 1 ∧
    u.rd pnlCfgFull = 1 ∧ u.evr.fails = s.evr.fails + 1 ∧ u.mram = s.mram ∧ (2 ≤ s.evr.fails → u.rd pnlStatusFailed = 1)) ∧
  (∀ (s : State), s.pwr.aon = true →
    exec (.panelClearFailed .mgmt) s = .next ((s.setEvr { s.evr with fails := 0 }).wr pnlStatusFailed 0)) ∧
  (∀ (s t : State) (via : CmdVia) (offset : Nat) (bs : List Byte), s.commandIn via 0x0A30 (leBytes 2 offset ++ bs) = some t →
    t.rmgDown = false → bs ≠ [] → bs.length ≤ 1008 →
    exec (.panelData via offset bs) s =
      .next ({ t with evr := { t.evr with candidate := patch t.evr.candidate (offset % 65536) bs } }.commandDone via 0x0A30 0)) ∧
  (∀ (s t : State) (via : CmdVia), s.commandIn via 0x0A31 [] = some t → t.rmgDown = false →
    (scriptOk t.evr.candidate = false → exec (.panelCommit via) s = .next (t.commandDone via 0x0A31 8)) ∧
    (scriptOk t.evr.candidate = true → t.mramOk = true → exec (.panelCommit via) s =
      .next (({ t with mram := { t.mram with script := t.evr.candidate.take (field t.evr.candidate 18 2) } }.wr
        pnlStatusNoScript 0).commandDone via 0x0A31 0))))

/-- Shows completing: CLA_SYNC, CLA_IDLE, CLA_FRAME_PTR, CLA_FRAME_DATA, CLA_SCOPE, CLA_DEVICE_ID, CLA_CHECK, CLA_ACTION_NONE,
CLA_CLEAR_CHECK, CLA_ARM, CLA_COMMIT, CLA_END, CLA_STREAM_SOURCE_END, CLA_BUS_PASS_END.
R369, R370, R371, R372, R373, R374 (17_configurable_logic_array.md): a stream begins on a free engine at its sync word; each packet of
the stream has the effect of its target, a header that breaks Table CLA-2 is a stream error, and a packet of another source does nothing; an
error ends the stream, makes its scope BAD and latches ERR. A bus pass ends the master's sending once the line is high. The memory
source brings the words that its memory holds (log entry 139). -/
def Obligations.ClaStreams : Prop :=
  (∀ (s : State) (r : Nat), s.cla.stream = none → s.domOn 11 = true → r = s.rd claExtCtlRegion →
    (s.cla.loading = true → exec (.claSync .full) s = .next (s.showStream (fresh .full 0)).wrapUp) ∧
    (s.rd claStatusLoaded = 1 → exec (.claSync .icp) s = .next (s.showStream (fresh .icp 0)).wrapUp) ∧
    (s.rd claExtStatusBusy = 1 → s.rd claExtCtlFull = 0 →
      exec (.claSync .ext) s = .next (s.showStream (fresh (.ext false r) (s.extSync false r))).wrapUp) ∧
    (s.rd claExtStatusBusy = 1 → s.rd claExtCtlFull = 1 →
      exec (.claSync .ext) s =
        .next (s.blankCla.startDriving.showStream (fresh (.ext true r) (s.extSync true r))).wrapUp)) ∧
  (∀ (s : State) (x : ClaStream) (src : ClaSrc), s.cla.stream = some x → exec (.claSync src) s = .next s.wrapUp) ∧
  (∀ (s t : State) (x : ClaStream) (src : ClaSrc) (h : Word32), s.cla.stream = some x → x.isFrom src = true →
    headerErr h.toNat = none → bitsOf h.toNat 24 8 = 0 → s.brings x [h] = true → t = s.fetchedExt x 1 →
    exec (.claIdle src h) s = .next (t.showStream (x.take [h])).wrapUp) ∧
  (∀ (s t : State) (x : ClaStream) (src : ClaSrc) (h w : Word32), s.cla.stream = some x → x.isFrom src = true →
    headerErr h.toNat = none → s.brings x [h, w] = true → t = s.fetchedExt x 2 →
    (bitsOf h.toNat 24 8 = 0x21 → bitsOf w.toNat 15 17 = 0 → x.badFrame (bitsOf w.toNat 6 9) (bitsOf w.toNat 0 6) = false →
      exec (.claFramePtr src h w) s =
        .next (t.showStream { x.take [h, w] with column := bitsOf w.toNat 6 9, minor := bitsOf w.toNat 0 6 }).wrapUp) ∧
    (bitsOf h.toNat 24 8 = 0x21 → bitsOf w.toNat 15 17 = 0 → x.badFrame (bitsOf w.toNat 6 9) (bitsOf w.toNat 0 6) = true →
      exec (.claFramePtr src h w) s = .next (t.streamError (x.take [h, w]) 6).wrapUp) ∧
    (bitsOf h.toNat 24 8 = 0x26 →
      (w = 0x0CA10D10#32 →
        exec (.claDeviceId src h w) s = .next (t.showStream { x.take [h, w] with idOk := true }).wrapUp) ∧
      (w ≠ 0x0CA10D10#32 → exec (.claDeviceId src h w) s = .next (t.streamError (x.take [h, w]) 3).wrapUp)) ∧
    (bitsOf h.toNat 24 8 = 0x24 → bitsOf w.toNat 3 13 = 0 → bitsOf w.toNat 17 15 = 0 → w.getLsbD 16 = true →
      (x.scopeOk (some (bitsOf w.toNat 0 3)) = true → exec (.claScope src h w) s =
        .next ((t.setRegions [bitsOf w.toNat 0 3] 1).showStream
          { x.take [h, w] with scope := some (some (bitsOf w.toNat 0 3)), written := [] }).wrapUp) ∧
      (x.scopeOk (some (bitsOf w.toNat 0 3)) = false →
        exec (.claScope src h w) s = .next (t.streamError (x.take [h, w]) 7).wrapUp)) ∧
    (bitsOf h.toNat 24 8 = 0x24 → bitsOf w.toNat 3 13 = 0 → bitsOf w.toNat 17 15 = 0 → w.getLsbD 16 = false →
      x.scopeOk none = true → exec (.claScope src h w) s =
        .next ((((t.setRegions (List.range 8) 1).wr claStatusLoaded 0).wr claStatusGo 0).showStream
          { x.take [h, w] with scope := some none, written := [] }).wrapUp)) ∧
  (∀ (s t : State) (x : ClaStream) (src : ClaSrc) (hdr : Option Word32), s.cla.stream = some x → x.isFrom src = true →
    (∀ h, hdr = some h → headerErr h.toNat = none ∧ bitsOf h.toNat 24 8 = 0x23) → t = s.fetchedExt x (hdr.toList.length + 1) →
    (s.brings x (hdr.toList ++ [0]) = true →
      exec (.claActionNone src hdr 0) s = .next (t.showStream (x.take (hdr.toList ++ [0]))).wrapUp) ∧
    (∀ w, w ≠ 0 → s.brings x (hdr.toList ++ [w]) = true →
      exec (.claActionNone src hdr w) s = .next (t.streamError (x.take (hdr.toList ++ [w])) 0xB).wrapUp) ∧
    (s.brings x (hdr.toList ++ [1]) = true →
      exec (.claClearCheck src hdr) s = .next (t.showStream { x.take (hdr.toList ++ [1]) with crc := crcInit }).wrapUp) ∧
    (s.brings x (hdr.toList ++ [2]) = true →
      exec (.claArm src hdr) s = .next (t.showStream { x.take (hdr.toList ++ [2]) with armed := true }).wrapUp) ∧
    (s.brings x (hdr.toList ++ [3]) = true →
      exec (.claCommit src hdr) s = .next (t.commitStream (x.take (hdr.toList ++ [3]))).wrapUp) ∧
    (s.brings x (hdr.toList ++ [4]) = true →
      exec (.claEnd src hdr) s = .next (t.endStream (x.take (hdr.toList ++ [4])) 0).wrapUp)) ∧
  (∀ (s t : State) (x : ClaStream) (src : ClaSrc) (h : Word32) (ws : List Word32), s.cla.stream = some x → x.isFrom src = true →
    headerErr h.toNat = none → bitsOf h.toNat 24 8 = 0x22 → s.brings x (h :: ws) = true → t = s.fetchedExt x (ws.length + 1) →
    (x.idOk = false ∨ x.armed = false →
      exec (.claFrameData src h ws) s = .next (t.streamError (x.take (h :: ws)) 4).wrapUp) ∧
    (x.idOk = true → x.armed = true → bitsOf h.toNat 0 20 % 96 ≠ 0 →
      exec (.claFrameData src h ws) s = .next (t.streamError (x.take (h :: ws)) 5).wrapUp) ∧
    (x.idOk = true → x.armed = true → bitsOf h.toNat 0 20 % 96 = 0 → ws.length = 96 →
      exec (.claFrameData src h ws) s = .next (t.writeFrames (x.take (h :: ws)) [ws]).wrapUp)) ∧
  (∀ (s : State) (x : ClaStream) (ws : List Word32), ws ≠ [] →
    (x.badFrame x.column x.minor = true → s.writeFrames x [ws] = s.streamError x 6) ∧
    (x.badFrame x.column x.minor = false → ∃ u, s.writeFrames x [ws] = u ∧
      u.cla.frames.get (fun _ => []) (frameNo x.column x.minor) = ws ∧
      (∀ n, n ≠ frameNo x.column x.minor → u.cla.frames.get (fun _ => []) n = s.cla.frames.get (fun _ => []) n) ∧
      (∃ y, u.cla.stream = some y ∧ y.written = frameNo x.column x.minor :: x.written ∧ y.checkOk = false ∧
        y.minor = (if colFrames x.column ≤ x.minor + 1 then 0 else x.minor + 1) ∧
        y.column = (if colFrames x.column ≤ x.minor + 1 then x.column + 1 else x.column)))) ∧
  (∀ (s t : State) (x : ClaStream) (src : ClaSrc) (h lo hi : Word32), s.cla.stream = some x → x.isFrom src = true →
    headerErr h.toNat = none → bitsOf h.toNat 24 8 = 0x27 → bitsOf h.toNat 0 20 = 2 → s.brings x [h, lo, hi] = true →
    t = s.fetchedExt x 3 →
    ((~~~ x.crc).toNat = lo.toNat + 2 ^ 32 * hi.toNat → exec (.claCheck src h [lo, hi]) s =
      .next (t.showStream { x.take [h, lo, hi] with checkOk := true }).wrapUp) ∧
    ((~~~ x.crc).toNat ≠ lo.toNat + 2 ^ 32 * hi.toNat → exec (.claCheck src h [lo, hi]) s =
      .next (t.streamError (x.take [h, lo, hi]) 8).wrapUp)) ∧
  (∀ (s : State) (x : ClaStream) (src : ClaSrc) (h : Word32), s.cla.stream = some x →
    (x.isFrom src = false → exec (.claIdle src h) s = .next s.wrapUp ∧ exec (.claStreamSourceEnd src) s = .next s.wrapUp) ∧
    (∀ e t, x.isFrom src = true → headerErr h.toNat = some e → s.brings x [h] = true → t = s.fetchedExt x 1 →
      exec (.claIdle src h) s = .next (t.streamError { x with words := x.words + 1 } e).wrapUp) ∧
    (s.brings x [h] = false → exec (.claIdle src h) s = .next s.wrapUp) ∧
    (x.isFrom src = true → exec (.claStreamSourceEnd src) s = .next (s.streamError x 9).wrapUp)) ∧
  (∀ (s : State) (x : ClaStream) (r err : Nat), s.regionRunning r = false → x.scope = some (some r) → r < 8 → err < 256 →
    x.owner = .icp →
    ∃ u, s.streamError x err = u ∧ u.cla.stream = none ∧ u.regionState r = 4 ∧ u.rd claStatusErr = err ∧
      u.rd claCfgStatErr = err ∧ u.rd claEventStreamErr = 1 ∧ u.rd claCfgStatSynced = 0) ∧
  (∀ (s : State) (n : Nat), s.cla.sending = true → n = s.cla.passes + 1 →
    exec (.claBusPassEnd true) s = .next { s with cla := { s.cla with passes := n, sending := false } } ∧
    (n < Nat.max 1 (s.rd claBusCfgRepeat) → exec (.claBusPassEnd false) s =
      .next ({ s with cla := { s.cla with passes := n } }.emit .busPass)))

/-- Shows completing: CLA_EXT_GO, CLA_ICP_RELEASE, CLA_REGION_HOLD, CLA_REGION_UNHOLD, CLA_REGION_ASSIGN, CFG_DONE_HIGH,
CLA_DONE_TIMEOUT, GO_LOCAL, RELEASE_DONE, CLA_FRAME_SCAN.
R368, R378, R381, R382, R383, R384, R385, R387 (17_configurable_logic_array.md): the memory source starts only on a free engine, over a
path that may, from a range of its partition; an ICP release is acknowledged by what the region is; HOLD and its clearing, ASSIGN, the
rise of CFG_DONE and GO act on region states; a frame scan counts a corrected error and makes the region of an uncorrectable one BAD. -/
def Obligations.ClaRegions : Prop :=
  (∀ (s : State) (v : Word32) (r : Nat), r = bitsOf v.toNat 0 3 → v.getLsbD 31 = true → v.getLsbD 8 = false →
    (s.cla.stream = none → s.rd claExtStatusBusy = 0 → s.domOn 11 = true →
      ∀ s1, s1 = ((s.wr claExtCtlPart (bitsOf v.toNat 12 2)).wr claExtCtlFull 0).wr claExtCtlRegion r →
      (s1.badExt (s.rd (claRegionPart r)) (s1.rd64 claExtAddrLoAddr claExtAddrHiAddr) (s1.rd claExtLenBytes) = false →
        exec (.claExtGo .mgmt v) s = .next (s1.wr claExtStatusBusy 1)) ∧
      (s1.badExt (s.rd (claRegionPart r)) (s1.rd64 claExtAddrLoAddr claExtAddrHiAddr) (s1.rd claExtLenBytes) = true →
        exec (.claExtGo .mgmt v) s = .next (s1.wr claExtStatusResult 0x0E))) ∧
    (s.rd claExtStatusBusy = 1 → exec (.claExtGo .mgmt v) s = .next (s.wr claExtStatusResult 0x0C)) ∧
    (∀ f, s.extPath (.pf f) false r = false → exec (.claExtGo (.pf f) v) s = .next (s.wr claExtStatusResult 0x0D))) ∧
  (∀ (s : State) (r : Region), s.rd claStatusLoaded = 1 →
    (s.regionState r = 2 → s.rd claStatusGo = 1 →
      exec (.claIcpRelease r) s = .next ((s.releaseRegion r).emit (.icpAck r 0)).wrapUp) ∧
    (s.regionState r = 2 → s.rd claStatusGo = 0 → exec (.claIcpRelease r) s = .next (s.emit (.icpAck r 3)).wrapUp) ∧
    (s.regionState r = 4 → s.cla.crcFailed.testBit r = true → exec (.claIcpRelease r) s =
      .next (((s.event claEventBadCrc).claEventMsg 4 r 8 0).emit (.icpAck r 1)).wrapUp) ∧
    (s.regionState r = 0 ∨ s.regionState r = 1 ∨ s.regionState r = 3 ∨ s.regionState r = 5 →
      exec (.claIcpRelease r) s = .next (s.emit (.icpAck r 2)).wrapUp)) ∧
  (∀ (s : State) (path : Path) (r : Region), s.holdPath path r = true →
    (s.regionState r = 3 ∨ s.regionState r = 2 →
      exec (.claRegionHold path r) s = .next ((s.wr (claRegionHold r) 1).setRegion r 5).wrapUp) ∧
    (s.regionState r ≠ 3 → s.regionState r ≠ 2 → exec (.claRegionHold path r) s = .next (s.wr (claRegionHold r) 1).wrapUp) ∧
    (s.regionState r = 5 ∨ s.regionState r = 2 → s.rd claStatusGo = 1 →
      exec (.claRegionUnhold path r) s = .next ((s.wr (claRegionHold r) 0).releaseRegion r).wrapUp) ∧
    (s.regionState r = 5 ∨ s.regionState r = 2 → s.rd claStatusGo = 0 →
      exec (.claRegionUnhold path r) s = .next (s.wr (claRegionHold r) 0).wrapUp) ∧
    (s.regionState r = 0 ∨ s.regionState r = 1 ∨ s.regionState r = 4 → exec (.claRegionUnhold path r) s = .next s.wrapUp)) ∧
  (∀ (s : State) (path : Path) (r : Region), s.holdPath path r = false →
    exec (.claRegionHold path r) s = .next s.wrapUp ∧ exec (.claRegionUnhold path r) s = .next s.wrapUp) ∧
  (∀ (s : State) (r : Region) (p : Part),
    (s.regionState r = 0 ∨ s.regionState r = 4 ∨ s.regionState r = 5 →
      exec (.claRegionAssign .mgmt r p) s = .next (s.wr (claRegionPart r) p)) ∧
    (s.regionState r = 1 ∨ s.regionState r = 2 ∨ s.regionState r = 3 →
      exec (.claRegionAssign .mgmt r p) s = .next (s.event claEventCfgRefused)) ∧
    (∀ f, exec (.claRegionAssign (.pf f) r p) s = .next s)) ∧
  (∀ (s : State), s.pwr.aon = true →
    (s.rd claStatusDriving = 1 → exec .cfgDoneHigh s = .next s.wrapUp) ∧
    (s.rd claStatusDriving = 0 → s.rd claStatusLoaded = 0 →
      exec .cfgDoneHigh s = .next { s.wr claStatusLine 1 with cla := { s.cla with droveUntil := none } }.wrapUp) ∧
    (s.rd claStatusDriving = 0 → s.rd claStatusLoaded = 1 →
      exec .cfgDoneHigh s = .next { s.wr claStatusLine 1 with cla := { s.cla with droveUntil := none } }.giveGo.wrapUp)) ∧
  (∀ (s : State) (t : Nat), s.cla.droveUntil = some t → s.cla.timedOut = false →
    (t + Nat.max 1 (s.rd claDoneTimeoutBeats) ≤ s.tick → exec .claDoneTimeout s =
      .next (({ s with cla := { s.cla with timedOut := true } }.event claEventDoneTimeout).claEventMsg 3 0xFF 0 0)) ∧
    (s.tick < t + Nat.max 1 (s.rd claDoneTimeoutBeats) → exec .claDoneTimeout s = .next s)) ∧
  (∀ (s : State), (s.rd claStatusLoaded = 1 → exec (.goLocal .mgmt) s = .next s.giveGo.wrapUp) ∧
    exec (.releaseDone .mgmt) s = .next { s.stopDriving with cla := { s.stopDriving.cla with released := true } } ∧
    (∀ f, exec (.goLocal (.pf f)) s = .next s.wrapUp ∧ exec (.releaseDone (.pf f)) s = .next s)) ∧
  (∀ (s s0 : State), s.domOn 11 = true → s0 = { s with cla := { s.cla with scan := (s.cla.scan + 1) % 10880 } } →
    exec (.claFrameScan .clean) s = .next s0.wrapUp ∧ exec (.claFrameScan .corrected) s = .next (s0.count claScrubCe 1).wrapUp ∧
    (∀ r, frameRegion s.cla.scan = some r → exec (.claFrameScan .uncorrectable) s =
      .next ((((s0.setRegion r 4).count claScrubUe 1).event claEventFrameUe).claEventMsg 5 r 0 0).wrapUp) ∧
    (frameRegion s.cla.scan = none → (∀ r, r < 8 → s0.regionRunning r = false) → exec (.claFrameScan .uncorrectable) s =
      .next (((((s0.wr claStatusGo 0).wr claStatusLoaded 0).count claScrubUe 1).event claEventFrameUe).claEventMsg 5 0xFF 0 0).wrapUp))

/-- Shows completing: CLA_TARGET_ACCESS, CLA_TARGET_TIMEOUT, CLA_NOC_INITIATOR_REQUEST, CLA_TAP_DATA, CLA_REGION_FRAME.
R360, R361, R362, R363, R364, R365 (17_configurable_logic_array.md): the NoC target answers while the shell is up, and else reads as ones
with TGT_TIMEOUT; the initiator reads and writes for its partition, and a fenced partition answers poison; a TAP moves what its
region takes or gives; a frame that a region holds leaves the tap as the region says. -/
def Obligations.ClaPorts : Prop :=
  (∀ (s : State) (path : Path) (offset : Nat) (answer v : Word32), s.targetPath path = true → offset < 2 ^ 19 →
    (s.shellUp = true → exec (.claTargetAccess path offset none answer) s =
        .next ((s.emit (.claTarget offset none)).emit (.regData path answer)) ∧
      exec (.claTargetAccess path offset (some v) answer) s = .next (s.emit (.claTarget offset (some v)))) ∧
    (s.shellUp = false → exec (.claTargetAccess path offset none answer) s =
        .next ((s.event claEventTgtTimeout).emit (.regData path 0xFFFFFFFF#32)) ∧
      exec (.claTargetAccess path offset (some v) answer) s = .next (s.event claEventTgtTimeout)) ∧
    exec (.claTargetTimeout path offset none) s = .next ((s.event claEventTgtTimeout).emit (.regData path 0xFFFFFFFF#32))) ∧
  (∀ (s : State) (path : Path) (offset : Nat) (wr : Option Word32) (answer : Word32), s.targetPath path = false →
    exec (.claTargetAccess path offset wr answer) s = .next s ∧ exec (.claTargetTimeout path offset wr) s = .next s) ∧
  (∀ (s : State) (a : Word64) (n : Nat) (bs : List Byte), s.rd claNocCfgEn = 1 → s.shellUp = true →
    (s.nocOk = false → exec (.claNocInitiatorRequest a (.read n)) s = .next (s.emit (.nocData (List.replicate n 0) true)).wrapUp ∧
      exec (.claNocInitiatorRequest a (.write bs)) s = .next s.wrapUp) ∧
    (s.nocOk = true → a.toNat / 2 ^ 60 = 0 →
      exec (.claNocInitiatorRequest a (.write bs)) s = .next (s.storeTagged s.nocTag false a.toNat bs).wrapUp ∧
      (∀ cs fs, s.readTagged s.nocTag a.toNat n = some (cs, fs) →
        exec (.claNocInitiatorRequest a (.read n)) s =
          .next ((s.touchTagged s.nocTag none a.toNat n).emit (.nocData cs (fs != []))).wrapUp)) ∧
    (s.nocOk = true → a.toNat / 2 ^ 60 = 2 → s.readTagged s.nocTag a.toNat n = none →
      exec (.claNocInitiatorRequest a (.read n)) s =
        .next ({ s with cla := { s.cla with nocReads := s.cla.nocReads ++ [(a.toNat, n)] } }.readHost (s.rd claNocCfgPart) a.toNat
          n).wrapUp)) ∧
  (∀ (s : State) (a : Word64) (r : NocReq), s.rd claNocCfgEn = 0 ∨ s.shellUp = false →
    exec (.claNocInitiatorRequest a r) s = .next s.wrapUp) ∧
  (∀ (s : State) (r : Region) (l : RunList) (k moved n : Nat) (bs : List Byte) (w : BitVec 128), s.tapList r = some l →
    l.work = .tap k moved → l.word = some w →
    (s.regionRunning r = false → exec (.claTapData r n bs) s = .next s.wrapUp) ∧
    (s.regionRunning r = true →
      (bitsOf w.toNat 8 1 = 0 → exec (.claTapData r n bs) s =
        .next (s.tapOut l w.toNat k moved (Nat.min n (l.total - moved))).advance.wrapUp) ∧
      (bitsOf w.toNat 8 1 = 1 → exec (.claTapData r n bs) s =
        .next (s.tapIn l w.toNat k moved (bs.take (l.total - moved))).advance.wrapUp))) ∧
  (∀ (s : State) (r : Region) (n : Nat) (bs : List Byte), s.tapList r = none → exec (.claTapData r n bs) s = .next s.wrapUp) ∧
  (∀ (s : State) (port : Port) (bs : List Byte), s.tapActive port = true →
    exec (.claRegionFrame port true (.originate bs)) s =
      .next (s.emit (.frame (s.subOf port) (s.originEncap (s.subOf port) bs) (sealFrame bs))).wrapUp ∧
    (∀ sub e b, s.heldAt port = some (sub, e, b) →
      exec (.claRegionFrame port true .pass) s = .next ((s.takeHeld port).emit (.frame sub e (sealFrame b))).wrapUp ∧
      exec (.claRegionFrame port true (.change bs)) s = .next ((s.takeHeld port).emit (.frame sub e (sealFrame bs))).wrapUp ∧
      exec (.claRegionFrame port true .drop) s = .next (s.takeHeld port).wrapUp) ∧
    (s.heldAt port = none → exec (.claRegionFrame port true .pass) s = .next s.wrapUp ∧
      exec (.claRegionFrame port true .drop) s = .next s.wrapUp ∧
      exec (.claRegionFrame port true (.change bs)) s = .next s.wrapUp)) ∧
  (∀ (s : State) (port : Port) (egress : Bool) (act : RegionFrame), s.tapActive port = false ∨ egress = false →
    exec (.claRegionFrame port egress act) s = .next s.wrapUp)

/-- Shows completing: MEDIA_SESSION_OPEN, MEDIA_SESSION_CLOSE, MEDIA_FORCE_KEY, MEDIA_PART_CONFIG.
R393, R396, R397, R411, R413, Table MED-4 (18_media_engine.md): OPEN tests the session and its descriptor in the order of Table
MED-4 and opens it with its counters 0; CLOSE closes a session that is not busy; FORCE_KEY makes the next picture a key picture;
a partition's sessions and slots are set over management, and a write that breaks R393 is refused. -/
def Obligations.MediaSessions : Prop :=
  (∀ (s : State) (path : Path) (n : Session) (a : Nat), s.sessPath path = true → s.domOn 10 = true →
    a = s.rd (medSessDescLoAddr n) * 64 + 2 ^ 32 * s.rd (medSessDescHiAddr n) →
    (∀ p d t, s.openTest path n = (0, some (p, d)) → t = s.touch p false none a 128 → exec (.mediaSessionOpen path n) s =
      .next (((((((t.wr (medSessStatusResult n) 0).setSess n (some (newSession p d))).wr (medSessStatusState n) 1).wr
        (medSessRelSeqSeq n) 0).wr (medSessErrorsCount n) 0).wr (medSessPicsCount n) 0).openCount).wrapUp) ∧
    (∀ r, s.openTest path n = (r, none) → s.opener path n = none ∨ a / 2 ^ 60 ≠ 0 → exec (.mediaSessionOpen path n) s =
      .next ((s.wr (medSessStatusResult n) r).event medEventOpenRefused).wrapUp) ∧
    (∀ r p, s.openTest path n = (r, none) → s.opener path n = some p → a / 2 ^ 60 = 0 → exec (.mediaSessionOpen path n) s =
      .next (((s.touch p false none a 128).wr (medSessStatusResult n) r).event medEventOpenRefused).wrapUp)) ∧
  (∀ (s : State) (path : Path) (n : Nat) (x : SessSt), s.sess n = some x → s.openTest path n = (5, none)) ∧
  (∀ (s : State) (path : Path) (n : Nat), s.sess n = none → s.sessPart n = none → s.openTest path n = (4, none)) ∧
  (∀ (s : State) (path : Path) (n : Session) (x : SessSt), s.sess n = some x →
    (s.ownsSession path n = true →
      (x.busy = [] → exec (.mediaSessionClose path n) s = .next (s.closeSession n)) ∧
      (x.busy ≠ [] → exec (.mediaSessionClose path n) s = .next (s.wr (medSessStatusResult n) 5)) ∧
      exec (.mediaForceKey path n) s = .next (s.setSess n (some { x with forceKey := true }))) ∧
    (s.ownsSession path n = false → exec (.mediaSessionClose path n) s = .next s ∧ exec (.mediaForceKey path n) s = .next s)) ∧
  (∀ (s : State) (p : Part) (v : Word32) (first count slots : Nat), first = bitsOf v.toNat 0 8 → count = bitsOf v.toNat 8 9 →
    slots = bitsOf v.toNat 24 6 → p.val < partCount s.mode → s.domOn 10 = true →
    (s.partCfgRefused p first count slots = true → exec (.mediaPartConfig .mgmt p v) s = .next (s.event medEventCfgRefused)) ∧
    (s.partCfgRefused p first count slots = false → exec (.mediaPartConfig .mgmt p v) s =
      .next (((s.wr (medPartCfgSessFirst p) first).wr (medPartCfgSessCount p) count).wr (medPartCfgSlots p) slots).wrapUp) ∧
    (∀ f, exec (.mediaPartConfig (.pf f) p v) s = .next s))

/-- Shows completing: TRACE_CHANNEL_ENABLE, TRACE_CHANNEL_DISABLE, TRACE_CHANNEL_STOPPED, TRACE_DRAIN, TRACE_DRAIN_DONE,
COUNTER_CLEAR, COUNTER_SAMPLE.
R414, R418, R422, R423, R425 (19_trace_counters_and_debug.md): an owner enables a channel whose area is good, and else CFG_ERR sets; a
disabled channel writes its buffer before it stops; a drain of a good range runs and clears BUSY at its end; CNT_CTL freezes and clears the
counters of the dies its path may name; a sample that is due needs its channel enabled. -/
def Obligations.TraceAndCounters : Prop :=
  (∀ (s : State) (path : Path) (p : Part) (c : Chan) (v : Word32), s.ownsPart path p = true → s.rd (trcChCtlEn p c) = 0 →
    (s.badArea p c = true → exec (.traceChannelEnable path p c v) s = .next (s.wr (trcChStatusCfgErr p c) 1).wrapUp) ∧
    (s.badArea p c = false → exec (.traceChannelEnable path p c v) s =
      .next (((s.traceFlush p c).writeChanCtl p c v.toNat).startChan p c).wrapUp) ∧
    exec (.traceChannelDisable path p c v) s = .next (s.writeChanCtl p c v.toNat)) ∧
  (∀ (s : State) (path : Path) (p : Part) (c : Chan) (v : Word32), s.ownsPart path p = true → s.rd (trcChCtlEn p c) = 1 →
    exec (.traceChannelEnable path p c v) s = .next s.wrapUp ∧
    exec (.traceChannelDisable path p c v) s =
      .next ((s.wr (trcChCtlEn p c) 0).setTraceCh p c { s.traceCh p c with stopping := true })) ∧
  (∀ (s : State) (path : Path) (p : Part) (c : Chan) (v : Word32), s.ownsPart path p = false →
    exec (.traceChannelEnable path p c v) s = .next s.wrapUp ∧ exec (.traceChannelDisable path p c v) s = .next s ∧
    exec (.traceDrain path p) s = .next s) ∧
  (∀ (s : State) (p : Part) (c : Chan), (s.traceCh p c).stopping = true → (s.traceCh p c).buffer = [] →
    ∃ u : State, exec (.traceChannelStopped p c) s = .next u.wrapUp ∧ (u.traceCh p c).stopping = false ∧ (u.traceCh p c).buffer = [] ∧
      s.onlyFields [trcChStatusStopped p c] { u with dbg := s.dbg } ∧ u.rd (trcChStatusStopped p c) = 1) ∧
  (∀ (s : State) (path : Path) (p : Part), s.ownsPart path p = true → s.rd (trcDrainStatusBusy p) = 0 →
    (s.drainOk p = true → exec (.traceDrain path p) s = .next (s.wr (trcDrainStatusBusy p) 1)) ∧
    (s.drainOk p = false → exec (.traceDrain path p) s = .next (s.wr (trcDrainStatusResult p) 1))) ∧
  (∀ (s : State) (p : Part), s.rd (trcDrainStatusBusy p) = 1 →
    (s.rd (trcDrainLenLen p) = 0 → exec (.traceDrainDone p) s =
      .next ((s.wr (trcDrainStatusBusy p) 0).wr (trcDrainStatusResult p) 0).wrapUp) ∧
    (s.rd (trcDrainLenLen p) = 1 → ∀ t bad, s.drainLine p 0 = (t, bad) → exec (.traceDrainDone p) s =
      .next ((t.wr (trcDrainStatusBusy p) 0).wr (trcDrainStatusResult p) (if bad then 2 else 0)).wrapUp) ∧
    (s.rd (trcDrainLenLen p) = 2 → ∀ t u bad bad2, s.drainLine p 0 = (t, bad) → t.drainLine p 1 = (u, bad2) →
      exec (.traceDrainDone p) s =
        .next ((u.wr (trcDrainStatusBusy p) 0).wr (trcDrainStatusResult p) (if bad || bad2 then 2 else 0)).wrapUp)) ∧
  (∀ (s : State) (p : Part), s.rd (trcDrainStatusBusy p) = 0 → exec (.traceDrainDone p) s = .next s.wrapUp) ∧
  (∀ (s : State) (p i a : Nat) (bs : List Byte) (fs : List Nat),
    a = s.traceOf p * 4096 + s.rd (trcDrainSrcOfs p) * 64 + 64 * i →
    s.readTagged (tagOf 0 0 0xFFFFF 0xB 0 0 p) a 64 = some (bs, fs) →
    s.drainLine p i = ((s.touchTagged (tagOf 0 0 0xFFFFF 0xB 0 0 p) none a 64).storeTagged (tagOf 0 0 0xFFFFF 0xB 0 3 p) (fs != [])
      (s.drainDst p + 64 * i) bs, fs != [])) ∧
  (∀ (s t : State) (d : Nat) (v : Word32), d < 4 → t = s.advAt cntCtl →
    (v.toNat = 2 ^ d → ∃ u : State, exec (.counterClear .mgmt v) s = .next u ∧ u = { t with regs := u.regs } ∧
      (∀ x, x < 4 → u.bit cntCtlFreeze x = decide (x = d)) ∧ t.fieldsKept [cntCtlFreeze] u) ∧
    (v.toNat = 2 ^ (4 + d) → ∃ u : State, exec (.counterClear .mgmt v) s = .next (u.zeroCounters d) ∧ u = { t with regs := u.regs } ∧
      (∀ x, x < 4 → u.bit cntCtlFreeze x = false) ∧ t.fieldsKept [cntCtlFreeze] u)) ∧
  (∀ (s : State), (∀ d, d < 4 → s.frozen d = true) → s.advAt cntCtl = s) ∧
  (∀ (s : State) (d j : Nat), d < 4 → j < 64 → (s.zeroCounters d).rd64 (cntEsLoCount d j) (cntEsHiCount d j) = 0) ∧
  (∀ (s : State), s.cntDies .mctp = [] ∧ s.cntDies .mgmt = [0, 1, 2, 3] ∧ (s.rd dbgStatusLevel = 0 → s.cntDies .debug = [])) ∧
  (∀ (s : State), s.rd cntSampleCfgEn = 0 → exec .counterSample s = .next s) ∧
  (∀ (s s1 : State), s.sampleDue = true → s.rd cntSampleCfgMode = 0 → s1 = { s with dbg := { s.dbg with sampled := s.tick } } →
    (s.rd (trcChCtlEn (s.rd cntSampleCfgPart) (s.rd cntSampleCfgChannel)) = 0 → exec .counterSample s =
      .next (s1.event cntEventSampleLost)) ∧
    (∀ stamp s2, s.rd cntSampleCfgPart < partCount s.mode →
      s.rd (trcChCtlEn (s.rd cntSampleCfgPart) (s.rd cntSampleCfgChannel)) = 1 →
      (∀ u, u < 672 → s.rd (cntClCtlSample u) = 0) →
      s1.traceStamp (s.rd cntSampleCfgPart) (s.rd cntSampleCfgChannel) = (stamp, s2) →
      (s.rd cntSampleCfgDies = 0 → exec .counterSample s = .next s2) ∧
      (∀ d : Die, s.rd cntSampleCfgDies = 2 ^ d.val → exec .counterSample s = .next (s2.sampleEs stamp d))))

/-- Shows completing: DEBUG_CHALLENGE, DEBUG_RESPONSE, DEBUG_LOCK, DEBUG_HALT, DEBUG_DEFERRED_HALT, DEBUG_RESUME,
HALT_LOCK_BREAK.
R427, R428, R429, R433, R434 (19_trace_counters_and_debug.md): DBG_SCOPE makes a nonce for level 1 or 2; a right response unlocks its
level once, a wrong one is counted, and the eighth locks debug out; LOCK from management or a session returns to level 0; HALT and RESUME act
at level 2 only, a core inside a locked sequence halts later, and a lock held too long is broken and reported. -/
def Obligations.DebugControl : Prop :=
  (∀ (s : State) (v : Word32), s.pwr.aon = true →
    ∃ u, exec (.debugChallenge v) s = .next u ∧ u.rd dbgScopeLevel = v.toNat % 4 ∧
      (u.dbg.nonceOk = true ↔ v.toNat % 4 = 1 ∨ v.toNat % 4 = 2) ∧ u.rd dbgStatusLevel = s.rd dbgStatusLevel) ∧
  (∀ (s : State) (w : Word32), s.pwr.aon = true → s.rd dbgStatusLockout = 1 ∨ s.rd dbgCfgDisable = 1 →
    exec (.debugResponse w) s = .next (s.putResponse 3 w)) ∧
  (∀ (s q : State) (w : Word32) (level : Nat), s.pwr.aon = true → s.rd dbgStatusLockout = 0 → s.rd dbgCfgDisable = 0 →
    level = s.rd dbgScopeLevel → q = s.putResponse 3 w →
    ∀ s1, s1 = (((q.setDbg { q.dbg with nonceOk := false }).wr dbgStatusFails (s.rd dbgStatusFails + 1)).event
      dbgEventUnlockFail).reportDebug 2 level 0xFF →
    exec (.debugResponse w) s = .next (
      if q.response = q.wantedResponse level ∧ s.dbg.nonceOk = true then
        ((((q.setDbg { q.dbg with nonceOk := false }).wr dbgStatusLevel level).wr dbgStatusFails 0).event
          dbgEventUnlocked).reportDebug 1 level 0xFF
      else if s.rd dbgStatusFails < 7 then s1
      else (s1.wr dbgStatusLockout 1).reportDebug 3 level 0xFF)) ∧
  (∀ (s : State) (f : Fn), exec (.debugLock (.pf f)) s = .next s ∧
    (s.rd dbgStatusLevel = 0 → exec (.debugLock .mgmt) s = .next s) ∧
    (s.rd dbgStatusLevel ≠ 0 → exec (.debugLock .mgmt) s = .next ((s.wr dbgStatusLevel 0).reportDebug 4 0 0xFF) ∧
      exec (.debugLock .debug) s = .next ((s.wr dbgStatusLevel 0).reportDebug 4 0 0xFF))) ∧
  (∀ (s : State) (v : Word32), s.rd dbgStatusLevel ≠ 2 → exec (.debugHalt v) s = .next s ∧ exec (.debugResume v) s = .next s.wrapUp) ∧
  (∀ (s : State) (n : Core4) (v : Word32), s.rd dbgStatusLevel = 2 →
    (v = BitVec.ofNat 32 (2 ^ (4 + n.val)) → exec (.debugHalt v) s = .next (s.askHalt n)) ∧
    (v = BitVec.ofNat 32 (2 ^ n.val) → exec (.debugResume v) s = .next (s.resumeCore n).wrapUp)) ∧
  (∀ (s : State) (n : Core4), (s.core n).state = .running →
    (s.lockKind n = 0 → s.askHalt n = s.haltCore n) ∧
    (s.lockKind n ≠ 0 → s.askHalt n = (s.wrBit dbgCoreDeferring n true).event dbgEventHaltDeferred)) ∧
  (∀ (s : State) (n : Core4), ((s.haltCore n).core n).state = .halted ∧
    (s.rd hngCfgDbgExempt = 1 → ((s.haltCore n).core n).frozen = some (s.tick - (s.core n).since)) ∧
    (s.rd hngCfgDbgExempt = 0 → ((s.haltCore n).core n).frozen = none) ∧
    (∀ m : Core4, m ≠ n → (s.haltCore n).core m = s.core m)) ∧
  (∀ (s : State) (n : Core4),
    (s.bit dbgCoreDeferring n = true → s.lockKind n = 0 → exec (.debugDeferredHalt n) s = .next (s.haltCore n)) ∧
    (s.bit dbgCoreDeferring n = false ∨ s.lockKind n ≠ 0 → exec (.debugDeferredHalt n) s = .next s) ∧
    (s.bit dbgCoreDeferring n = false ∨ s.lockKind n = 0 → exec (.haltLockBreak n) s = .next s.wrapUp)) ∧
  (∀ (s s1 s2 s3 : State) (n : Core4), s.bit dbgCoreDeferring n = true → s.lockKind n ≠ 0 →
    s1 = (((s.event dbgEventLockBroken).wr dbgBrokenCore n).wr dbgBrokenKind (s.lockKind n)).queueBreak →
    s2 = s1.setDbg { s1.dbg with broken := s1.dbg.broken.set (fun _ => 0) n (s.lockKind n) } →
    s3 = (if n.val < 2 then s2.reconcile [] [] [] else s2.breakPanel) →
    exec (.haltLockBreak n) s = .next ((s3.haltCore n).reportDebug 5 (s.rd dbgStatusLevel) n).wrapUp)

/-- Shows completing: DEBUG_READ, DEBUG_FORCED_READ, DEBUG_WRITE, JTAG_TEST_LOGIC_RESET, JTAG_IDCODE, JTAG_SAMPLE_PRELOAD,
JTAG_EXTEST, JTAG_EXTEST_PULSE, JTAG_EXTEST_TRAIN, JTAG_CLAMP, JTAG_HIGHZ, JTAG_BYPASS.
R427, R430, R431 (19_trace_counters_and_debug.md): a debug access shifts out the result of the access before it; a read that the
level does not grant answers status 2 with no effect, a forced read needs level 2, and a write below level 2 reaches only the
unlock registers; IDCODE reads 0x10D1_0B4F; an instruction that acts on the pins selects BYPASS while SYS_READY is high; Test-Logic-Reset
locks debug and loads IDCODE. -/
def Obligations.JtagAccess : Prop :=
  (∀ (s : State) (a : Nat) (v : Word32), s.pwr.aon = true → s.rd dbgStatusLevel = 0 → 0x10000 ≤ a → (a < 0xC0000 ∨ 0xD0000 ≤ a) →
    exec (.debugRead a) s = .next (s.dbgResult s.dbg 2 0) ∧ exec (.debugForcedRead a) s = .next (s.dbgResult s.dbg 2 0) ∧
    exec (.debugWrite a v) s = .next (s.dbgResult s.dbg 2 0).wrapUp) ∧
  (∀ (s : State) (a : Nat), s.pwr.aon = true →
    (s.debugGrants a = true → claWindow a = false → vendorOnly a = false → exec (.debugRead a) s =
      .next ((s.readReg .debug a).2.dbgResult s.dbg 0 (s.readReg .debug a).1).wrapUp) ∧
    (s.debugGrants a = true → claWindow a = true → s.peeks = true →
      exec (.debugRead a) s = .next (s.dbgResult s.dbg 1 0).wrapUp) ∧
    (s.rd dbgStatusLevel = 2 → vendorOnly a = false → exec (.debugForcedRead a) s =
      .next ((s.readReg .debug a).2.dbgResult s.dbg 0 (s.readReg .debug a).1).wrapUp) ∧
    (s.rd dbgStatusLevel = 2 → vendorOnly a = true → claWindow a = false → msixWindow a = false →
      exec (.debugForcedRead a) s =
        .next ((s.vendorAccess a none).dbgResult s.dbg 0 (Config.vendorWord s.dbg.vendor a).toNat).wrapUp)) ∧
  (∀ (s : State) (a : Nat) (v : Word32), s.pwr.aon = true → s.rd dbgStatusLevel = 2 →
    exec (.debugWrite a v) s = .next ((s.writeReg .debug a v).dbgResult s.dbg 0 0).wrapUp) ∧
  (∀ (s : State) (old : DbgSt) (st v : Nat), ∃ u, s.dbgResult old st v = u ∧ u.dbg.status = st ∧
    u.dbg.data = BitVec.ofNat 32 v ∧ u.dbg.jtag = .dbgAccess ∧ u.out = .jtag (old.status * 2 ^ 70 + old.data.toNat) :: s.out ∧
    u.regs = s.regs ∧ u.mem = s.mem) ∧
  (∀ (s : State), s.pwr.aon = true →
    exec .jtagTestLogicReset s = .next (s.lockDebug.setJtag .idcode) ∧
    exec .jtagIdcode s = .next ((s.setJtag .idcode).emit (.jtag 0x10D10B4F)) ∧
    (∀ pins, exec (.jtagSamplePreload pins) s = .next (s.setDbg { s.dbg with jtag := .samplePreload, boundary := pins })) ∧
    (∀ code : BitVec 8, code = 0xFF → exec (.jtagBypass code) s = .next (s.setJtag .bypass)) ∧
    (s.rd sysStatusReady = 1 → exec .jtagExtest s = .next (s.setJtag .bypass) ∧
      exec .jtagExtestPulse s = .next (s.setJtag .bypass) ∧ exec .jtagExtestTrain s = .next (s.setJtag .bypass) ∧
      exec .jtagClamp s = .next (s.setJtag .bypass) ∧ exec .jtagHighz s = .next (s.setJtag .bypass)) ∧
    (s.rd sysStatusReady = 0 → exec .jtagExtest s = .next (s.setJtag .extest) ∧
      exec .jtagExtestPulse s = .next (s.setJtag .extestPulse) ∧ exec .jtagExtestTrain s = .next (s.setJtag .extestTrain) ∧
      exec .jtagClamp s = .next (s.setJtag .clamp) ∧ exec .jtagHighz s = .next (s.setJtag .highz)))

/-- Shows completing: REGISTER_WRITE, LO_LATCH_READ.
R7, R8, R432, R454, Table SCP-2 (01_the_device.md, 19_trace_counters_and_debug.md, 20_package_signals_and_electrical.md): a write
sets RW fields, clears RW1C bits written as 1, and leaves RO fields; a vendor-only range takes a write on
unlocked debug only; a function that is not presented
reads 0; a read of BEAT_NUM_LO latches BEAT_NUM_HI and BEAT_PHASE for its path; a read of what a latch holds answers what its own path
has latched, and a read on one path never changes what another path's latches hold. -/
def Obligations.RegisterAccess : Prop :=
  (∀ (s : State) (path : Path) (a : Nat) (v : Word32),
    exec (.registerWrite path a v) s = .next (s.writeReg path a v).wrapUp ∧
    (s.pwr.aon = false → s.writeReg path a v = s) ∧
    (vendorOnly a = true → path ≠ .debug ∨ s.unlocked = false → s.writeReg path a v = s) ∧
    (vendorOnly a = true → s.pwr.aon = true → s.unlocked = true → s.writeReg .debug a v = s.vendorAccess a (some v))) ∧
  (∀ (s : State) (h : Stack) (v : Word32), s.pwr.aon = true →
    ∃ u : State, exec (.registerWrite .mgmt (hbmRetireCfg h) v) s = .next u.wrapUp ∧
      u.rd (hbmRetireCfgCeThresh h) = bitsOf v.toNat 0 8 ∧ s.onlyFields [hbmRetireCfgCeThresh h] u) ∧
  (∀ (s : State) (h : Stack) (v : Word32), s.pwr.aon = true →
    ∃ u : State, exec (.registerWrite .mgmt (hbmEvent h) v) s = .next u.wrapUp ∧
      (v.getLsbD 0 = true → u.rd (hbmEventCe h) = 0) ∧ (v.getLsbD 0 = false → u.rd (hbmEventCe h) = s.rd (hbmEventCe h)) ∧
      (v.getLsbD 1 = true → u.rd (hbmEventUe h) = 0) ∧ (v.getLsbD 1 = false → u.rd (hbmEventUe h) = s.rd (hbmEventUe h)) ∧
      s.onlyFields [hbmEventCe h, hbmEventUe h, hbmEventHole h, hbmEventRetire h, hbmEventRemapFull h] u) ∧
  (∀ (s : State) (h : Stack) (v : Word32), s.pwr.aon = true →
    ∃ u : State, exec (.registerWrite .mgmt (hbmCeTotal h) v) s = .next u.wrapUp ∧ (∀ g : Fld, u.rd g = s.rd g) ∧
      u = { s with regs := u.regs }) ∧
  (∀ (s : State) (path : Path) (a : Nat),
    (s.serves path = true → exec (.loLatchRead path a) s = .next (s.answerRead path a).wrapUp) ∧
    (s.serves path = false → exec (.loLatchRead path a) s = .next s)) ∧
  (∀ (s : State) (f : Fn) (a : Nat), partCount s.mode ≤ f.val → claWindow a = false →
    (s.readReg (.pf f) a).1 = 0 ∧ (s.readReg (.pf f) a).2 = s) ∧
  (∀ (s : State) (path : Path), s.serves path = true → s.mayReadAt path beatNumLo = true → ∃ u : State,
    exec (.loLatchRead path beatNumLo) s = .next (u.emit (.regData path (BitVec.ofNat 32 (s.beat.num % 2 ^ 32)))).wrapUp ∧
    u.latched path beatNumHi = BitVec.ofNat 32 (s.beat.num / 2 ^ 32 % 2 ^ 32) ∧
    u.latched path beatPhase = BitVec.ofNat 32 s.beat.phase ∧ u = { s with latches := u.latches }) ∧
  (∀ (s : State) (path : Path) (b : Nat), isLatched b = true → s.mayReadAt path b = true → latchedWith b = [] →
    claWindow b = false → msixWindow b = false → vendorOnly b = false →
    s.readReg path b = ((s.latched path b).toNat, s)) ∧
  (∀ (s : State) (path other : Path) (a b : Nat), other ≠ path → (s.readReg path a).2.latched other b = s.latched other b)

/-- A step takes the command at the front of the queue and is that command on the state with the queue's rest; with none waiting a
step is one phase unit of time (the model's choice, log entry 8). -/
def Obligations.StepRunsFront : Prop :=
  (∀ (s : State) (c : Instr) (rest : List Instr),
    step { s with pending := c :: rest } = exec c { s with pending := rest }) ∧
  (∀ (s : State), s.pending = [] → step s = .next s.advanceUnit)

/-- Every command completes: in every state, with every operand, it answers a next state, which has the same queue; none faults or
is refused. -/
def Obligations.EveryCommandCompletes : Prop :=
  ∀ (c : Instr) (s : State), ∃ t, exec c s = .next t ∧ (s.canonical = true → t.pending = s.pending)

/-- R455, R147, R150, R151 (07_memory_and_addressing.md): no byte of HBM or of a scratchpad has two addresses in a partition, whose list names each
pseudo-channel once, and none belongs to two partitions, whose lists share no pseudo-channel. -/
def Obligations.PlacesApart : Prop :=
  (∀ (s : State) (p a b k ca cb : Nat), (s.chanList p).Nodup → s.place p true a = .hbm k ca → s.place p true b = .hbm k cb → a = b) ∧
  (∀ (s : State) (p q a b k ca cb : Nat), (∀ c, c ∈ s.chanList p → c ∉ s.chanList q) → s.place p true a = .hbm k ca →
    s.place q true b ≠ .hbm k cb) ∧
  (∀ (s : State) (p q a b k : Nat) (w x : Bool), s.place p w a = .scratch k → s.place q x b = .scratch k → p = q ∧ a = b) ∧
  (∀ (s : State) (p q a b k c : Nat) (w : Bool), (∀ c, c ∈ s.chanList p → c < 512) → s.place p true a = .hbm k c →
    s.place q w b ≠ .scratch k)

/-- Tables THM-5, HNG-9, SCR-5, BEAT-4, TAG-7, ENG-6, MEM-6, PWR-7 and PWR-8: registers with a reset value that the spec states hold it after
reset; nothing waits, nothing is admitted, and no partition, power domain or core is in operation.
The canonical form at reset: every sparse map of State.reset is in canonical form. -/
def Obligations.ResetState : Prop :=
  (
  State.reset.rd thmLimitWarnDie = 95 ∧ State.reset.rd thmLimitThrottleDie = 100 ∧ State.reset.rd thmLimitShutdownDie = 110 ∧
  State.reset.rd thmHystDie = 3 ∧ State.reset.rd thmGainG = 25 ∧ State.reset.rd hngHbDeadlineBeats = 500 ∧
  State.reset.rd hngEngDeadlineBeats = 1000 ∧ State.reset.rd hngFenceBudgetPhase = 655360 ∧
  State.reset.rd scrArbTimeoutBeats = 20 ∧ State.reset.rd beatPeriodPeriod = 160000 ∧ State.reset.rd beatCtlOutEn = 1 ∧
  State.reset.rd clkMatrixLimitMhz = 2100 ∧ State.reset.rd pwrLimitSustWatts = 1650 ∧ State.reset.rd pwrLimitPeakWatts = 2100 ∧
  State.reset.rd claIdId = 0x0CA10D10 ∧ State.reset.rd sysIdVendor = 0xE7A0 ∧
  (∀ q : Queue, State.reset.rd (queRingSizeLog2 q) = 8 ∧ State.reset.rd (queCplSizeLog2 q) = 9 ∧
    State.reset.rd (queAdmCfgClass q) = 2 ∧ State.reset.rd (queAdmCfgWeight q) = 1 ∧ State.reset.rd (queAdmWindowBeats q) = 100 ∧
    State.reset.rd (queCtlEn q) = 0) ∧
  (∀ h : Stack, State.reset.rd (hbmRetireCfgCeThresh h) = 8 ∧ State.reset.rd (hbmScrubCfgEn h) = 1) ∧
  State.reset.pending = [] ∧ State.reset.lists = [] ∧ State.reset.pwr.aon = false) ∧
  (
  State.reset.canonical = true)

/-- Every step keeps the canonical form of memory, of its poison marks, of the registers and of every other sparse map, from every
state that has it. -/
def Obligations.StepsKeepCanonical : Prop :=
  ∀ s t : State, s.canonical = true → step s = .next t → t.canonical = true
/-- R55, R57, Table TAG-3 (03_tags_classes_and_admission.md): of the packets at the heads of the class queues of an output, TC0 goes
first while its shaping lets it; then the promoted packet that has waited longest, at most one in its window; then TC1 by earliest
deadline; then TC2 and TC3, four TC2 flits to one of TC3, and alone without limit. A TC2 or TC3 packet is promoted once it has stood 4,096 cycles
at the head of its queue.
R56: a grant completes before the output grants another: the output is held for the packet's cycles. -/
def Obligations.GrantOrder : Prop :=
  (∀ (a : ArbSt) (r : ArbRules) (x : ArbItem), x ∈ heads a.waiting → x.cls = 0 → a.shaped r x = true →
    ∃ y, a.pick r = some y ∧ y ∈ heads a.waiting ∧ y.cls = 0 ∧ a.shaped r y = true) ∧
  (∀ (a : ArbSt) (r : ArbRules) (x : ArbItem), (∀ z ∈ heads a.waiting, z.cls = 0 → a.shaped r z = false) →
    x ∈ heads a.waiting → x.promoted = true → (∀ t, a.promotedAt = some t → t + r.promoted ≤ a.cycle) →
    ∃ y, a.pick r = some y ∧ y ∈ heads a.waiting ∧ y.promoted = true ∧
      ∀ z ∈ heads a.waiting, z.promoted = true → z.age ≤ y.age) ∧
  (∀ (a : ArbSt) (r : ArbRules) (x : ArbItem), (∀ z ∈ heads a.waiting, z.cls = 0 → a.shaped r z = false) →
    (∀ z ∈ heads a.waiting, z.promoted = false) → x ∈ heads a.waiting → x.cls = 1 →
    ∃ y, a.pick r = some y ∧ y ∈ heads a.waiting ∧ y.cls = 1 ∧ ∀ z ∈ heads a.waiting, z.cls = 1 → y.deadline ≤ z.deadline) ∧
  (∀ (a : ArbSt) (r : ArbRules) (y : ArbItem), a.pick r = some y → y.cls = 3 → y.promoted = false →
    (∀ z ∈ heads a.waiting, z.cls ≠ 1) ∧ (∀ z ∈ heads a.waiting, z.cls = 2 → 4 * y.flits ≤ a.share)) ∧
  (∀ (x : ArbItem), x.promoted = true ↔ 2 ≤ x.cls ∧ 4096 ≤ x.age) ∧
  (∀ (a : ArbSt) (x : ArbItem) (cost : Nat), (a.grant x cost).free = a.cycle + cost ∧ (a.grant x cost).waiting = a.waiting.erase x)
end

