-- ==== Sys2Proof/Laws/Sparse.lean ====
section
/-!
SUPPORT. The laws of sparse maps: a read after a write, and that every operation keeps the canonical form.
-/
namespace Sys2Proof.Machine

variable {α : Type}

@[simp] theorem SMap.find_nil (i : Nat) : SMap.find ([] : SMap α) i = none := rfl

@[simp] theorem SMap.get_nil (d : Nat → α) (i : Nat) : SMap.get [] d i = d i := rfl

theorem SMap.find_put (m : SMap α) (i : Nat) (x : α) (j : Nat) :
    (m.put i x).find j = if j = i then some x else m.find j := by
  induction m with
  | nil => simp [SMap.put, SMap.find]
  | cons e m ih =>
    obtain ⟨k, v⟩ := e
    simp only [SMap.put]
    split
    · simp only [SMap.find]
    · split
      · subst_vars; simp only [SMap.find]; split <;> rfl
      · simp only [SMap.find, ih]
        by_cases hj : j = k
        · subst hj; simp [Ne.symm ‹¬i = j›]
        · simp [hj]

theorem SMap.find_del (m : SMap α) (i j : Nat) : (m.del i).find j = if j = i then none else m.find j := by
  induction m with
  | nil => simp [SMap.del, SMap.find]
  | cons e m ih =>
    obtain ⟨k, v⟩ := e
    simp only [SMap.del]
    split
    · subst_vars
      rw [ih]
      by_cases hj : j = k <;> simp [SMap.find, hj]
    · simp only [SMap.find, ih]
      by_cases hj : j = k
      · subst hj; simp [Ne.symm ‹¬i = j›]
      · simp [hj]

section
variable [DecidableEq α]

theorem SMap.wfFrom_le {d : Nat → α} {lo lo' : Nat} {m : SMap α} (h : lo' ≤ lo) (hm : SMap.wfFrom d lo m = true) :
    SMap.wfFrom d lo' m = true := by
  cases m with
  | nil => rfl
  | cons e m =>
    obtain ⟨k, v⟩ := e
    simp only [SMap.wfFrom, Bool.and_eq_true, decide_eq_true_eq] at hm ⊢
    exact ⟨⟨by omega, hm.1.2⟩, hm.2⟩

theorem SMap.find_below {d : Nat → α} {lo : Nat} {m : SMap α} (hm : SMap.wfFrom d lo m = true) {i : Nat} (h : i < lo) :
    m.find i = none := by
  induction m generalizing lo with
  | nil => rfl
  | cons e m ih =>
    obtain ⟨k, v⟩ := e
    simp only [SMap.wfFrom, Bool.and_eq_true, decide_eq_true_eq] at hm
    have : i ≠ k := by omega
    simp only [SMap.find, this, if_false]
    exact ih hm.2 (by omega)

theorem SMap.find_ne {d : Nat → α} {lo : Nat} {m : SMap α} (hm : SMap.wfFrom d lo m = true) {i : Nat} {x : α}
    (h : m.find i = some x) : x ≠ d i := by
  induction m generalizing lo with
  | nil => simp [SMap.find] at h
  | cons e m ih =>
    obtain ⟨k, v⟩ := e
    simp only [SMap.wfFrom, Bool.and_eq_true, decide_eq_true_eq] at hm
    simp only [SMap.find] at h
    split at h
    · subst_vars; cases h; exact hm.1.2
    · exact ih hm.2 h

theorem SMap.wfFrom_del {d : Nat → α} {lo : Nat} {m : SMap α} (hm : SMap.wfFrom d lo m = true) (i : Nat) :
    SMap.wfFrom d lo (m.del i) = true := by
  induction m generalizing lo with
  | nil => rfl
  | cons e m ih =>
    obtain ⟨k, v⟩ := e
    simp only [SMap.del]
    simp only [SMap.wfFrom, Bool.and_eq_true, decide_eq_true_eq] at hm
    split
    · exact SMap.wfFrom_le (by omega) (ih hm.2)
    · simp only [SMap.wfFrom, Bool.and_eq_true, decide_eq_true_eq]
      exact ⟨hm.1, ih hm.2⟩

theorem SMap.wfFrom_put {d : Nat → α} {lo : Nat} {m : SMap α} (hm : SMap.wfFrom d lo m = true) {i : Nat} {x : α}
    (hi : lo ≤ i) (hx : x ≠ d i) : SMap.wfFrom d lo (m.put i x) = true := by
  induction m generalizing lo with
  | nil => simp [SMap.put, SMap.wfFrom, hi, hx]
  | cons e m ih =>
    obtain ⟨k, v⟩ := e
    simp only [SMap.put]
    have hm' := hm
    simp only [SMap.wfFrom, Bool.and_eq_true, decide_eq_true_eq] at hm
    split
    · simp only [SMap.wfFrom, Bool.and_eq_true, decide_eq_true_eq]
      exact ⟨⟨hi, hx⟩, ⟨by omega, hm.1.2⟩, hm.2⟩
    · split
      · subst_vars
        simp only [SMap.wfFrom, Bool.and_eq_true, decide_eq_true_eq]
        exact ⟨⟨hm.1.1, hx⟩, hm.2⟩
      · simp only [SMap.wfFrom, Bool.and_eq_true, decide_eq_true_eq]
        exact ⟨hm.1, ih hm.2 (by omega)⟩

/-- A write keeps the canonical form. -/
theorem SMap.wf_set {d : Nat → α} {m : SMap α} (h : SMap.wf d m = true) (i : Nat) (x : α) :
    SMap.wf d (m.set d i x) = true := by
  unfold SMap.set
  split
  · exact SMap.wfFrom_del h i
  · exact SMap.wfFrom_put h (Nat.zero_le i) ‹_›

theorem SMap.wfFrom_filter {d : Nat → α} {lo : Nat} {m : SMap α} (hm : SMap.wfFrom d lo m = true) (p : Nat × α → Bool) :
    SMap.wfFrom d lo (m.filter p) = true := by
  induction m generalizing lo with
  | nil => rfl
  | cons e m ih =>
    obtain ⟨k, v⟩ := e
    simp only [SMap.wfFrom, Bool.and_eq_true, decide_eq_true_eq] at hm
    simp only [List.filter_cons]
    split
    · simp only [SMap.wfFrom, Bool.and_eq_true, decide_eq_true_eq]
      exact ⟨hm.1, ih hm.2⟩
    · exact SMap.wfFrom_le (by omega) (ih hm.2)

/-- Leaving entries out keeps the canonical form. -/
theorem SMap.wf_filter {d : Nat → α} {m : SMap α} (h : SMap.wf d m = true) (p : Nat × α → Bool) :
    SMap.wf d (m.filter p) = true := SMap.wfFrom_filter h p

theorem SMap.wf_clear {d : Nat → α} {m : SMap α} (h : SMap.wf d m = true) (p : Nat → Bool) :
    SMap.wf d (m.clear p) = true := SMap.wfFrom_filter h _

/-- Changed values of which none equals what its key reads as unlisted, after those that do are left out. -/
theorem SMap.wfFrom_mapFilter {d : Nat → α} {lo : Nat} {m : SMap α} (hm : SMap.wfFrom d lo m = true) (f : α → α)
    (p : Nat × α → Bool) (hp : ∀ k v, p (k, v) = true → v ≠ d k) :
    SMap.wfFrom d lo ((m.mapVals f).filter p) = true := by
  induction m generalizing lo with
  | nil => rfl
  | cons e m ih =>
    obtain ⟨k, v⟩ := e
    simp only [SMap.wfFrom, Bool.and_eq_true, decide_eq_true_eq] at hm
    simp only [SMap.mapVals, List.map_cons, List.filter_cons]
    split
    · simp only [SMap.wfFrom, Bool.and_eq_true, decide_eq_true_eq]
      exact ⟨⟨hm.1.1, hp _ _ ‹_›⟩, ih hm.2⟩
    · exact SMap.wfFrom_le (by omega) (ih hm.2)

/-- A change of what unlisted keys read as keeps the form where no listed key is affected. -/
theorem SMap.wfFrom_congr {d d' : Nat → α} {lo : Nat} {m : SMap α} (hm : SMap.wfFrom d lo m = true)
    (h : ∀ e ∈ m, d' e.1 = d e.1) : SMap.wfFrom d' lo m = true := by
  induction m generalizing lo with
  | nil => rfl
  | cons e m ih =>
    obtain ⟨k, v⟩ := e
    simp only [SMap.wfFrom, Bool.and_eq_true, decide_eq_true_eq] at hm ⊢
    have hk : d' k = d k := h (k, v) (by simp)
    exact ⟨⟨hm.1.1, by rw [hk]; exact hm.1.2⟩, ih hm.2 (fun e he => h e (by simp [he]))⟩

/-- The same where the entries left out are all those that the change affects. -/
theorem SMap.wfFrom_rebase {d d' : Nat → α} {lo : Nat} {m : SMap α} (hm : SMap.wfFrom d lo m = true) (p : Nat × α → Bool)
    (h : ∀ e, p e = true → d' e.1 = d e.1 ∨ e.2 ≠ d' e.1) : SMap.wfFrom d' lo (m.filter p) = true := by
  induction m generalizing lo with
  | nil => rfl
  | cons e m ih =>
    obtain ⟨k, v⟩ := e
    simp only [SMap.wfFrom, Bool.and_eq_true, decide_eq_true_eq] at hm
    simp only [List.filter_cons]
    split
    · simp only [SMap.wfFrom, Bool.and_eq_true, decide_eq_true_eq]
      refine ⟨⟨hm.1.1, ?_⟩, ih hm.2⟩
      rcases h (k, v) ‹_› with hd | hv
      · exact fun hx => hm.1.2 (hx.trans hd)
      · exact hv
    · exact SMap.wfFrom_le (by omega) (ih hm.2)

/-- A read after a write. -/
theorem SMap.get_set (m : SMap α) (d : Nat → α) (i : Nat) (x : α) (j : Nat) :
    (m.set d i x).get d j = if j = i then x else m.get d j := by
  unfold SMap.set SMap.get
  split
  · rw [SMap.find_del]
    by_cases hj : j = i
    · subst hj; simp [*]
    · simp [hj]
  · rw [SMap.find_put]
    by_cases hj : j = i <;> simp [hj]

@[simp] theorem SMap.get_set_same (m : SMap α) (d : Nat → α) (i : Nat) (x : α) : (m.set d i x).get d i = x := by
  rw [SMap.get_set]; simp

/-- A write leaves every other key as it was. -/
theorem SMap.get_set_ne (m : SMap α) (d : Nat → α) {i j : Nat} (x : α) (hj : j ≠ i) :
    (m.set d i x).get d j = m.get d j := by
  rw [SMap.get_set]; simp [hj]

end

theorem SMap.wf_foldl_set [DecidableEq α] {β : Type} {d : Nat → α} (k : β → Nat) (x : β → α) (l : List β) {m : SMap α}
    (h : SMap.wf d m = true) : SMap.wf d (l.foldl (fun w b => w.set d (k b) (x b)) m) = true := by
  induction l generalizing m with
  | nil => exact h
  | cons b l ih => exact ih (SMap.wf_set h _ _)

theorem SMap.find_filter (m : SMap α) (p : Nat → Bool) (j : Nat) :
    SMap.find (m.filter (fun e => p e.1)) j = if p j = true then m.find j else none := by
  induction m with
  | nil => simp [SMap.find]
  | cons e m ih =>
    obtain ⟨k, v⟩ := e
    simp only [List.filter_cons]
    by_cases hk : p k = true
    · simp only [hk, if_true, SMap.find, ih]
      by_cases hj : j = k
      · subst hj; simp [hk]
      · simp [hj]
    · have hk' : p k = false := by simpa using hk
      simp only [hk', SMap.find, Bool.false_eq_true, if_false]
      rw [ih]
      by_cases hj : j = k <;> simp [hj, hk']

/-- Cleared keys read as unlisted, the others as before. -/
theorem SMap.get_clear (m : SMap α) (d : Nat → α) (p : Nat → Bool) (j : Nat) :
    (m.clear p).get d j = if p j = true then d j else m.get d j := by
  unfold SMap.get SMap.clear
  rw [SMap.find_filter m (fun k => !p k)]
  cases h : p j <;> simp

end Sys2Proof.Machine
end

