-- ==== Sys2Proof/Laws/Registers.lean ====
section
/-!
SUPPORT. The laws of register fields: what a field reads after a write of it, and that a write leaves every other field as
it was.
-/
namespace Sys2Proof

theorem testBit_bitsOf (v lo w i : Nat) : (bitsOf v lo w).testBit i = (decide (i < w) && v.testBit (lo + i)) := by
  unfold bitsOf
  rw [Nat.testBit_mod_two_pow, Nat.testBit_div_two_pow, Nat.add_comm]

theorem bitsOf_lt (v lo w : Nat) : bitsOf v lo w < 2 ^ w := Nat.mod_lt _ (Nat.two_pow_pos w)

theorem testBit_setBits (v lo w x i : Nat) :
    (setBits v lo w x).testBit i = if lo ≤ i ∧ i < lo + w then x.testBit (i - lo) else v.testBit i := by
  have e : setBits v lo w x = 2 ^ lo * (2 ^ w * (v / 2 ^ (lo + w)) + x % 2 ^ w) + v % 2 ^ lo := by
    unfold setBits
    rw [Nat.mul_add, ← Nat.mul_assoc, ← Nat.pow_add]
    rw [Nat.mul_comm (x % 2 ^ w), Nat.mul_comm (v / 2 ^ (lo + w))]
    omega
  rw [e, Nat.testBit_two_pow_mul_add _ (Nat.mod_lt _ (Nat.two_pow_pos lo))]
  by_cases h1 : i < lo
  · have h3 : ¬(lo ≤ i ∧ i < lo + w) := by omega
    simp only [h1, if_true, h3, if_false, Nat.testBit_mod_two_pow, decide_true, Bool.true_and]
  · rw [if_neg h1, Nat.testBit_two_pow_mul_add _ (Nat.mod_lt _ (Nat.two_pow_pos w))]
    by_cases h2 : i - lo < w
    · have h3 : lo ≤ i ∧ i < lo + w := by omega
      simp only [h2, if_true, h3, and_self, Nat.testBit_mod_two_pow, decide_true, Bool.true_and]
    · have h3 : ¬(lo ≤ i ∧ i < lo + w) := by omega
      rw [if_neg h2, if_neg h3, Nat.testBit_div_two_pow]
      congr 1; omega

@[simp] theorem bitsOf_setBits_same (v lo w x : Nat) : bitsOf (setBits v lo w x) lo w = x % 2 ^ w := by
  apply Nat.eq_of_testBit_eq
  intro i
  rw [testBit_bitsOf, testBit_setBits, Nat.testBit_mod_two_pow]
  by_cases h : i < w
  · have h2 : lo ≤ lo + i ∧ lo + i < lo + w := by omega
    simp [h]
  · simp [h]

theorem bitsOf_setBits_disjoint (v lo w x lo' w' : Nat) (h : lo' + w' ≤ lo ∨ lo + w ≤ lo') :
    bitsOf (setBits v lo w x) lo' w' = bitsOf v lo' w' := by
  apply Nat.eq_of_testBit_eq
  intro i
  rw [testBit_bitsOf, testBit_bitsOf, testBit_setBits]
  by_cases hi : i < w'
  · have h2 : ¬(lo ≤ lo' + i ∧ lo' + i < lo + w) := by omega
    rw [if_neg h2]
  · simp [hi]

theorem setBits_lt {v lo w x n : Nat} (hv : v < 2 ^ n) (h : lo + w ≤ n) : setBits v lo w x < 2 ^ n := by
  apply Nat.lt_pow_two_of_testBit
  intro i hi
  rw [testBit_setBits, if_neg (by omega)]
  exact Nat.testBit_lt_two_pow (Nat.lt_of_lt_of_le hv (Nat.pow_le_pow_right (by decide) hi))

namespace Machine

theorem State.reg_setReg (s : State) (a : Nat) (v : Word32) (b : Nat) : (s.setReg a v).reg b = if b = a then v else s.reg b :=
  SMap.get_set _ _ _ _ _

@[simp] theorem State.reg_setReg_same (s : State) (a : Nat) (v : Word32) : (s.setReg a v).reg a = v := by
  rw [State.reg_setReg]; simp

theorem State.reg_setReg_ne (s : State) {a b : Nat} (v : Word32) (h : b ≠ a) : (s.setReg a v).reg b = s.reg b := by
  rw [State.reg_setReg]; simp [h]

/-- A field that was written reads the value's low bits. -/
theorem State.rd_wr_same (s : State) (f : Fld) (v : Nat) (h : f.lo + f.width ≤ 32) : (s.wr f v).rd f = v % 2 ^ f.width := by
  unfold State.rd State.wr
  rw [State.reg_setReg_same, BitVec.toNat_ofNat, Nat.mod_eq_of_lt (setBits_lt (s.reg f.addr).isLt h), bitsOf_setBits_same]

theorem State.rd_lt (s : State) (f : Fld) : s.rd f < 2 ^ f.width := bitsOf_lt _ _ _

/-- A write leaves every other register as it was. -/
theorem State.reg_wr_ne (s : State) (f : Fld) (v : Nat) {a : Nat} (h : a ≠ f.addr) : (s.wr f v).reg a = s.reg a :=
  State.reg_setReg_ne _ _ h

theorem State.rd_wr_ne (s : State) (f g : Fld) (v : Nat) (h : g.addr ≠ f.addr) : (s.wr f v).rd g = s.rd g := by
  unfold State.rd
  rw [State.reg_wr_ne _ _ _ h]

/-- A write leaves the register's other fields as they were. -/
theorem State.rd_wr_disjoint (s : State) (f g : Fld) (v : Nat) (hf : f.lo + f.width ≤ 32)
    (h : g.lo + g.width ≤ f.lo ∨ f.lo + f.width ≤ g.lo) : (s.wr f v).rd g = s.rd g := by
  by_cases ha : g.addr = f.addr
  · unfold State.rd State.wr
    rw [ha, State.reg_setReg_same, BitVec.toNat_ofNat, Nat.mod_eq_of_lt (setBits_lt (s.reg f.addr).isLt hf),
      bitsOf_setBits_disjoint _ _ _ _ _ _ h]
  · exact State.rd_wr_ne s f g v ha

/-- Writing a field its own value changes nothing. -/
theorem setBits_bitsOf (v lo w : Nat) : setBits v lo w (bitsOf v lo w) = v := by
  apply Nat.eq_of_testBit_eq
  intro i
  rw [testBit_setBits]
  split
  · rw [testBit_bitsOf, decide_eq_true (by omega), Bool.true_and]
    congr 1; omega
  · rfl

theorem State.on_event (s : State) (f : Fld) (h : f.lo + f.width ≤ 32) (hw : 1 ≤ f.width) : (s.event f).on f = true := by
  unfold State.on State.event
  rw [State.rd_wr_same _ _ _ h, Nat.mod_eq_of_lt (Nat.one_lt_two_pow (by omega))]
  rfl

theorem State.rd_count (s : State) (f : Fld) (n : Nat) (h : f.lo + f.width ≤ 32) :
    (s.count f n).rd f = Nat.min (2 ^ f.width - 1) (s.rd f + n) := by
  unfold State.count satAdd
  rw [State.rd_wr_same _ _ _ h]
  have := Nat.two_pow_pos f.width
  apply Nat.mod_eq_of_lt
  exact Nat.lt_of_le_of_lt (Nat.min_le_left _ _) (by omega)

theorem State.rd64_wr64 (s : State) (lo hi : Fld) (v : Nat) (hl : lo.lo = 0 ∧ lo.width = 32) (hh : hi.lo = 0 ∧ hi.width = 32)
    (h : hi.addr ≠ lo.addr) (hv : v < 2 ^ 64) : (s.wr64 lo hi v).rd64 lo hi = v := by
  unfold State.wr64 State.rd64
  rw [State.rd_wr_ne _ _ _ _ (Ne.symm h), State.rd_wr_same _ _ _ (by omega), State.rd_wr_same _ _ _ (by omega), hl.2, hh.2]
  omega

/-- Indexed state: what an entry reads after a write. -/
theorem State.queue_setQueue (s : State) (q : Nat) (x : QueueSt) (r : Nat) :
    (s.setQueue q x).queue r = if r = q then x else s.queue r := by
  unfold State.queue State.setQueue; rw [SMap.get_set]

theorem State.job_setJob (s : State) (p e : Nat) (x : JobSt) : (s.setJob p e x).job p e = x := by
  unfold State.job State.setJob; rw [SMap.get_set_same]

theorem State.wheel_setWheel (s : State) (p : Nat) (x : WheelSt) (r : Nat) :
    (s.setWheel p x).wheel r = if r = p then x else s.wheel r := by
  unfold State.wheel State.setWheel; rw [SMap.get_set]

theorem State.core_setCore (s : State) (n : Nat) (x : CoreSt) (r : Nat) :
    (s.setCore n x).core r = if r = n then x else s.core r := by
  unfold State.core State.setCore; rw [SMap.get_set]

theorem State.conn_setConn (s : State) (n : Nat) (c : Option ConnSt) (r : Nat) :
    (s.setConn n c).conn r = if r = n then c else s.conn r := by
  unfold State.conn State.setConn; rw [SMap.get_set]

theorem State.sess_setSess (s : State) (n : Nat) (x : Option SessSt) (r : Nat) :
    (s.setSess n x).sess r = if r = n then x else s.sess r := by
  unfold State.sess State.setSess; rw [SMap.get_set]

theorem State.syncVal_setSync (s : State) (p n v q m : Nat) (hn : n < 4096) (hm : m < 4096) :
    (s.setSync p n v).syncVal q m = if q = p ∧ m = n then v else s.syncVal q m := by
  unfold State.syncVal State.setSync
  rw [SMap.get_set]
  have : (q * 4096 + m = p * 4096 + n) ↔ (q = p ∧ m = n) := by omega
  simp only [this]

end Machine

end Sys2Proof
end

