-- ==== Sys2Proof/Laws/Commands.lean ====
section
/-!
SUPPORT. COMMANDs (R242), said once.
-/
namespace Sys2Proof.Machine

open Reg

/-- A message that passes the tests of R193 is acted on. -/
theorem State.inbound_in {s t : State} {m : MgtHdr} {type : Nat} {payload : List Byte} (h : s.mgtIn m type payload = some t)
    (f : State → State) : s.inbound m type payload f = f t := by
  simp only [State.mgtIn] at h
  split at h
  · next hc =>
    cases h
    simp only [Bool.and_eq_true] at hc
    simp [State.inbound, hc.1.1, hc.1.2, hc.2]
  · cases h

/-- An accepted COMMAND is obeyed. -/
theorem State.command_obey {s t : State} {via : CmdVia} {code : Nat} {args : List Byte} (h : s.commandIn via code args = some t)
    (f : State → Nat × State) : s.command via code args f = t.obey via code f := by
  cases via with
  | mctp =>
    simp only [State.commandIn] at h
    split at h
    · next hc => cases h; simp [State.command, hc]
    · cases h
  | mgmt m =>
    simp only [State.command]
    exact State.inbound_in h _

/-- An accepted COMMAND that an RMG core serves: its result stands in QTN_CMD_LAST and in the answer. -/
theorem State.command_served {s t : State} {via : CmdVia} {code : Nat} {args : List Byte} (h : s.commandIn via code args = some t)
    (hr : t.rmgDown = false) (f : State → Nat × State) : s.command via code args f = (f t).2.commandDone via code (f t).1 := by
  simp [State.command_obey h, State.obey, State.commandDone, hr]

/-- While no RMG core serves commands, an accepted one answers BUSY. -/
theorem State.command_busy {s t : State} {via : CmdVia} {code : Nat} {args : List Byte} (h : s.commandIn via code args = some t)
    (hr : t.rmgDown = true) (f : State → Nat × State) : s.command via code args f = t.commandAnswer via code 3 := by
  simp [State.command_obey h, State.obey, hr]

/-- A COMMAND over MCTP that CC3 does not hear does nothing. -/
theorem State.command_unheard (s : State) (code : Nat) (args : List Byte) (f : State → Nat × State) (h : s.cc3Up = false) :
    s.command .mctp code args f = s := by
  simp [State.command, h]

end Sys2Proof.Machine
end

