-- ==== Sys2Proof/Laws/Frames.lean ====
section
/-!
SUPPORT. How writes of register fields frame the other fields (`State.fieldsKept`, `State.onlyFields`).
-/
namespace Sys2Proof.Machine

theorem State.fieldsKept_refl (fs : List Fld) (s : State) : s.fieldsKept fs s := fun _ _ => rfl

/-- The state's other parts do not matter. -/
theorem State.fieldsKept_regs {fs : List Fld} {s t u : State} (h : s.fieldsKept fs t) (hu : u.regs = t.regs) :
    s.fieldsKept fs u := by
  intro g hg
  rw [← h g hg]
  unfold State.rd State.reg
  rw [hu]

theorem State.fieldsKept_trans {fs : List Fld} {s t u : State} (h : s.fieldsKept fs t) (h' : t.fieldsKept fs u) :
    s.fieldsKept fs u := fun g hg => (h' g hg).trans (h g hg)

/-- A write of one of the fields. -/
theorem State.fieldsKept_wr {fs : List Fld} {s t : State} (h : s.fieldsKept fs t) (f : Fld) (v : Nat) (hf : f ∈ fs)
    (hw : f.lo + f.width ≤ 32) : s.fieldsKept fs (t.wr f v) := by
  intro g hg
  rw [← h g hg]
  have ha := (List.all_eq_true.mp hg) f hf
  simp only [Fld.apart, Bool.or_eq_true, decide_eq_true_eq] at ha
  rcases ha with (ha | ha) | ha
  · exact State.rd_wr_ne _ _ _ _ (Ne.symm ha)
  · exact State.rd_wr_disjoint _ _ _ _ hw (Or.inr ha)
  · exact State.rd_wr_disjoint _ _ _ _ hw (Or.inl ha)

theorem State.fieldsKept_event {fs : List Fld} {s t : State} (h : s.fieldsKept fs t) (f : Fld) (hf : f ∈ fs)
    (hw : f.lo + f.width ≤ 32) : s.fieldsKept fs (t.event f) := State.fieldsKept_wr h f 1 hf hw

theorem State.fieldsKept_count {fs : List Fld} {s t : State} (h : s.fieldsKept fs t) (f : Fld) (n : Nat) (hf : f ∈ fs)
    (hw : f.lo + f.width ≤ 32) : s.fieldsKept fs (t.count f n) := State.fieldsKept_wr h f _ hf hw

theorem State.fieldsKept_wrBit {fs : List Fld} {s t : State} (h : s.fieldsKept fs t) (f : Fld) (i : Nat) (b : Bool) (hf : f ∈ fs)
    (hw : f.lo + f.width ≤ 32) : s.fieldsKept fs (t.wrBit f i b) := State.fieldsKept_wr h f _ hf hw

theorem State.onlyFields_wr {fs : List Fld} {s t : State} (h : s.onlyFields fs t) (f : Fld) (v : Nat) (hf : f ∈ fs)
    (hw : f.lo + f.width ≤ 32) : s.onlyFields fs (t.wr f v) := by
  refine ⟨?_, State.fieldsKept_wr h.2 f v hf hw⟩
  rw [h.1]
  rfl

theorem State.onlyFields_refl (fs : List Fld) (s : State) : s.onlyFields fs s := ⟨rfl, fun _ _ => rfl⟩

end Sys2Proof.Machine
end

