-- ==== Sys2Proof/Laws/Keeps.lean ====
section
/-!
SUPPORT. What every operation of the machine keeps: the queue of waiting commands, and the canonical form of the sparse
maps (`Keeps`); and how a record update and a fold keep it.
-/
namespace Sys2Proof.Machine

/-- The queue is `q`, and every sparse map that the state holds directly is in canonical form. -/
structure Keeps (q : List Instr) (s : State) : Prop where
  pending : s.pending = q
  bytes : Memory.wf s.mem = true
  poison : SMap.wf (fun _ => false) s.mem.poison = true
  regs : SMap.wf regDefault s.regs = true
  sync : SMap.wf (fun _ => 0) s.sync = true
  queues : SMap.wf (fun _ => QueueSt.reset) s.queues = true
  jobs : SMap.wf (fun _ => JobSt.reset) s.jobs = true
  wheels : SMap.wf (fun _ => WheelSt.reset) s.wheels = true
  screen : SMap.wf (fun _ => ScreenUnit.reset) s.screen = true
  vscreen : SMap.wf (fun _ => ScreenUnit.reset) s.vscreen = true
  scrLog : SMap.wf (fun _ => []) s.scrLog = true
  steps : SMap.wf (fun _ => none) s.steps = true
  partSteps : SMap.wf (fun _ => 0) s.partSteps = true
  media : SMap.wf (fun _ => none) s.media = true
  staged : SMap.wf (fun _ => none) s.staged = true
  msix : SMap.wf (fun _ => 0) s.msix = true
  latches : SMap.wf (fun _ => []) s.latches = true
  arbs : SMap.wf (fun _ => ArbSt.reset) s.arbs = true

theorem keeps_iff (q : List Instr) (s : State) : Keeps q s ↔ s.pending = q ∧ s.canonical = true := by
  constructor
  · intro h
    refine ⟨h.pending, ?_⟩
    have hx : SMap.wf (fun _ => 0#32) s.msix = true := h.msix
    simp [State.canonical, State.regsWf, hx, h.bytes, h.poison, h.regs, h.sync, h.queues, h.jobs, h.wheels, h.screen, h.vscreen, h.scrLog, h.steps, h.partSteps, h.media, h.staged, h.latches, h.arbs]
  · intro ⟨h, hc⟩
    simp only [State.canonical, State.regsWf, Bool.and_eq_true] at hc
    constructor <;> simp_all

/-- A record update of a state `x`: every map stays or takes a canonical form again. -/
theorem Keeps.upd {q : List Instr} {x : State} (h : Keeps q x)
    {f_pending : List Instr}
    {f_regs : SMap Word32}
    {f_latches : SMap (List (Nat × Word32))}
    {f_staged : SMap (Option (Nat × Nat))}
    {f_msix : SMap Word32}
    {f_mode : Nat}
    {f_beat : BeatSt}
    {f_queues : SMap QueueSt}
    {f_lists : List RunList}
    {f_sync : SMap Nat}
    {f_mem : MemSt}
    {f_arbs : SMap ArbSt}
    {f_link : LinkSt}
    {f_screen : SMap ScreenUnit}
    {f_vscreen : SMap ScreenUnit}
    {f_shadows : List QueuedShadow}
    {f_votes : List VoteSt}
    {f_lateArbs : List (VoteSt × Nat)}
    {f_wheels : SMap WheelSt}
    {f_scrLog : SMap (List Byte)}
    {f_qtn : QtnSt}
    {f_jobs : SMap JobSt}
    {f_steps : SMap (Option StepSt)}
    {f_partSteps : SMap Nat}
    {f_wrote : List JobRange}
    {f_raised : List (Nat × Nat)}
    {f_hang : HangSt}
    {f_pwr : PwrSt}
    {f_bist : BistSt}
    {f_thm : ThmSt}
    {f_evr : EvrSt}
    {f_mram : MramSt}
    {f_cla : ClaSt}
    {f_media : SMap (Option SessSt)}
    {f_dbg : DbgSt}
    {f_out : List Out}
    {f_free : Nat}
    (h_pending : f_pending = x.pending)
    (h_mem : Memory.wf x.mem = true → Memory.wf f_mem = true)
    (h_poison : SMap.wf (fun _ => false) x.mem.poison = true → SMap.wf (fun _ => false) f_mem.poison = true)
    (h_regs : SMap.wf regDefault x.regs = true → SMap.wf regDefault f_regs = true)
    (h_sync : SMap.wf (fun _ => 0) x.sync = true → SMap.wf (fun _ => 0) f_sync = true)
    (h_queues : SMap.wf (fun _ => QueueSt.reset) x.queues = true → SMap.wf (fun _ => QueueSt.reset) f_queues = true)
    (h_jobs : SMap.wf (fun _ => JobSt.reset) x.jobs = true → SMap.wf (fun _ => JobSt.reset) f_jobs = true)
    (h_wheels : SMap.wf (fun _ => WheelSt.reset) x.wheels = true → SMap.wf (fun _ => WheelSt.reset) f_wheels = true)
    (h_screen : SMap.wf (fun _ => ScreenUnit.reset) x.screen = true → SMap.wf (fun _ => ScreenUnit.reset) f_screen = true)
    (h_vscreen : SMap.wf (fun _ => ScreenUnit.reset) x.vscreen = true → SMap.wf (fun _ => ScreenUnit.reset) f_vscreen = true)
    (h_scrLog : SMap.wf (fun _ => []) x.scrLog = true → SMap.wf (fun _ => []) f_scrLog = true)
    (h_steps : SMap.wf (fun _ => none) x.steps = true → SMap.wf (fun _ => none) f_steps = true)
    (h_partSteps : SMap.wf (fun _ => 0) x.partSteps = true → SMap.wf (fun _ => 0) f_partSteps = true)
    (h_media : SMap.wf (fun _ => none) x.media = true → SMap.wf (fun _ => none) f_media = true)
    (h_staged : SMap.wf (fun _ => none) x.staged = true → SMap.wf (fun _ => none) f_staged = true)
    (h_msix : SMap.wf (fun _ => 0) x.msix = true → SMap.wf (fun _ => 0) f_msix = true)
    (h_latches : SMap.wf (fun _ => []) x.latches = true → SMap.wf (fun _ => []) f_latches = true)
    (h_arbs : SMap.wf (fun _ => ArbSt.reset) x.arbs = true → SMap.wf (fun _ => ArbSt.reset) f_arbs = true)
    : Keeps q (State.mk f_pending f_regs f_latches f_staged f_msix f_mode f_beat f_queues f_lists f_sync f_mem f_arbs f_link f_screen f_vscreen f_shadows f_votes f_lateArbs f_wheels f_scrLog f_qtn f_jobs f_steps f_partSteps f_wrote f_raised f_hang f_pwr f_bist f_thm f_evr f_mram f_cla f_media f_dbg f_out f_free) :=
  ⟨h_pending.trans h.pending, h_mem h.bytes, h_poison h.poison, h_regs h.regs, h_sync h.sync, h_queues h.queues, h_jobs h.jobs, h_wheels h.wheels, h_screen h.screen, h_vscreen h.vscreen, h_scrLog h.scrLog, h_steps h.steps, h_partSteps h.partSteps, h_media h.media, h_staged h.staged, h_msix h.msix, h_latches h.latches, h_arbs h.arbs⟩

theorem keeps_ite {q : List Instr} {c : Prop} [Decidable c] {s t : State} (hs : Keeps q s) (ht : Keeps q t) :
    Keeps q (if c then s else t) := by
  split
  · exact hs
  · exact ht

theorem keeps_getD {q : List Instr} {s : State} {o : Option State} (h : Keeps q s) (ho : ∀ t, o = some t → Keeps q t) :
    Keeps q (o.getD s) := by
  cases o with
  | none => exact h
  | some t => exact ho t rfl

/-- A fold of steps that keep it. -/
theorem keeps_foldl {β : Type} {q : List Instr} {f : State → β → State} {l : List β} {s : State} (h : Keeps q s)
    (hf : ∀ t b, Keeps q t → Keeps q (f t b)) : Keeps q (l.foldl f s) := by
  induction l generalizing s with
  | nil => exact h
  | cons b l ih => exact ih (hf s b h)

/-- A fold over a state and something beside it. -/
theorem keeps_foldl_fst {β γ : Type} {q : List Instr} {f : State × γ → β → State × γ} {l : List β} {x : State × γ}
    (h : Keeps q x.1) (hf : ∀ t b, Keeps q t.1 → Keeps q (f t b).1) : Keeps q (l.foldl f x).1 := by
  induction l generalizing x with
  | nil => exact h
  | cons b l ih => exact ih (hf x b h)

theorem keeps_foldl_snd {β γ : Type} {q : List Instr} {f : γ × State → β → γ × State} {l : List β} {x : γ × State}
    (h : Keeps q x.2) (hf : ∀ t b, Keeps q t.2 → Keeps q (f t b).2) : Keeps q (l.foldl f x).2 := by
  induction l generalizing x with
  | nil => exact h
  | cons b l ih => exact ih (hf x b h)

/-- The state of an outcome keeps it. -/
def KeepsNext (q : List Instr) (o : Host.Outcome State Fault Refusal) : Prop := ∀ t, o = .next t → Keeps q t

theorem keepsNext_next {q : List Instr} {s : State} (h : Keeps q s) : KeepsNext q (.next s) := by
  intro t ht
  cases ht
  exact h

/-! ### Memory -/

/-- A change of memory's other parts. -/
theorem Memory.wf_same {m m' : MemSt} (hb : m'.bytes = m.bytes) (hg : m'.gens = m.gens) (h : Memory.wf m = true) :
    Memory.wf m' = true := by
  have : m'.base = m.base := by funext k; simp only [MemSt.base, hg]
  simp only [Memory.wf, this, hb]
  exact h

theorem Memory.wf_setByte {m : MemSt} (h : Memory.wf m = true) (k : Nat) (b : Byte) : Memory.wf (m.setByte k b) = true :=
  SMap.wf_set (d := m.base) h k b

theorem gens_fold_get (rs : List Nat) (g : SMap Nat) (r : Nat) (hr : r ∉ rs) :
    (rs.foldl (fun g r => g.set (fun _ => 0) r (g.get (fun _ => 0) r + 1)) g).get (fun _ => 0) r = g.get (fun _ => 0) r := by
  induction rs generalizing g with
  | nil => rfl
  | cons a rs ih =>
    simp only [List.mem_cons, not_or] at hr
    simp only [List.foldl_cons]
    rw [ih _ hr.2, SMap.get_set_ne _ _ _ hr.1]

theorem MemSt.base_bump (m : MemSt) (rs : List Nat) (k : Nat) (h : regionOf k ∉ rs) : (m.bump rs).base k = m.base k := by
  simp only [MemSt.base, MemSt.bump, gens_fold_get rs m.gens _ h]

theorem Memory.wf_undefineBut {m : MemSt} (h : Memory.wf m = true) (rs : List Nat) (keep : Nat → Bool) :
    Memory.wf (m.undefineBut rs keep) = true := by
  refine SMap.wfFrom_rebase (d := m.base) (d' := (m.bump rs).base) h _ (fun e he => ?_)
  simp only [Bool.or_eq_true, Bool.not_eq_true', List.contains_eq_mem, decide_eq_false_iff_not, Bool.and_eq_true, bne_iff_ne] at he
  exact he.imp (fun hr => MemSt.base_bump m rs e.1 hr) (fun hv => hv.2)

theorem Memory.wf_undefine {m : MemSt} (h : Memory.wf m = true) (rs : List Nat) : Memory.wf (m.undefine rs) = true := by
  refine SMap.wfFrom_rebase (d := m.base) (d' := (m.bump rs).base) h _ (fun e he => Or.inl (MemSt.base_bump m rs e.1 ?_))
  simpa using he

theorem Memory.wf_setPoison {m : MemSt} (h : Memory.wf m = true) (l : Nat) (b : Bool) : Memory.wf (m.setPoison l b) = true := h

theorem poison_setByte {m : MemSt} (h : SMap.wf (fun _ => false) m.poison = true) (k : Nat) (b : Byte) :
    SMap.wf (fun _ => false) (m.setByte k b).poison = true := h

theorem poison_setPoison {m : MemSt} (h : SMap.wf (fun _ => false) m.poison = true) (l : Nat) (b : Bool) :
    SMap.wf (fun _ => false) (m.setPoison l b).poison = true := SMap.wf_set h l b

theorem poison_undefine {m : MemSt} (h : SMap.wf (fun _ => false) m.poison = true) (rs : List Nat) :
    SMap.wf (fun _ => false) (m.undefine rs).poison = true := h

end Sys2Proof.Machine
end

