-- ==== Sys2Proof/Laws/KeepsOps.lean ====
section
/-!
SUPPORT. The operations of Machine/Ops.lean keep the queue and the canonical form of every map (`Keeps`).
-/
namespace Sys2Proof.Machine

theorem State.setReg_keeps {q : List Instr} {s : State} (h : Keeps q s) (a0 a1) : Keeps q (State.setReg s a0 a1) := by
  unfold State.setReg
  try dsimp only
  repeat' first
    | with_reducible assumption
    | with_reducible apply keeps_foldl
    | split
    | (with_reducible refine Keeps.upd ?_ rfl ?_ ?_ ?_ ?_ ?_ ?_ ?_ ?_ ?_ ?_ ?_ ?_ ?_ ?_ ?_ ?_ ?_)
    | with_reducible exact (fun h => h)
    | with_reducible exact (fun h => SMap.wf_set h _ _)

theorem State.wr_keeps {q : List Instr} {s : State} (h : Keeps q s) (a0 a1) : Keeps q (State.wr s a0 a1) := by
  unfold State.wr
  try dsimp only
  repeat' first
    | with_reducible assumption
    | with_reducible apply State.setReg_keeps

theorem State.event_keeps {q : List Instr} {s : State} (h : Keeps q s) (a0) : Keeps q (State.event s a0) := by
  unfold State.event
  try dsimp only
  repeat' first
    | with_reducible assumption
    | with_reducible apply State.wr_keeps

theorem State.wrBit_keeps {q : List Instr} {s : State} (h : Keeps q s) (a0 a1 a2) : Keeps q (State.wrBit s a0 a1 a2) := by
  unfold State.wrBit
  try dsimp only
  repeat' first
    | with_reducible assumption
    | with_reducible apply State.wr_keeps

theorem State.count_keeps {q : List Instr} {s : State} (h : Keeps q s) (a0 a1) : Keeps q (State.count s a0 a1) := by
  unfold State.count
  try dsimp only
  repeat' first
    | with_reducible assumption
    | with_reducible apply State.wr_keeps

theorem State.wr64_keeps {q : List Instr} {s : State} (h : Keeps q s) (a0 a1 a2) : Keeps q (State.wr64 s a0 a1 a2) := by
  unfold State.wr64
  try dsimp only
  repeat' first
    | with_reducible assumption
    | with_reducible apply State.wr_keeps

theorem State.resetRegs_keeps {q : List Instr} {s : State} (h : Keeps q s) (a0) : Keeps q (State.resetRegs s a0) := by
  unfold State.resetRegs
  try dsimp only
  repeat' first
    | with_reducible assumption
    | with_reducible apply keeps_foldl
    | split
    | (with_reducible refine Keeps.upd ?_ rfl ?_ ?_ ?_ ?_ ?_ ?_ ?_ ?_ ?_ ?_ ?_ ?_ ?_ ?_ ?_ ?_ ?_)
    | with_reducible exact (fun h => h)
    | with_reducible exact (fun h => SMap.wf_set h _ _)
    | with_reducible exact (fun h => SMap.wf_clear h _)

theorem State.emit_keeps {q : List Instr} {s : State} (h : Keeps q s) (a0) : Keeps q (State.emit s a0) := by
  unfold State.emit
  try dsimp only
  repeat' first
    | with_reducible assumption
    | with_reducible apply keeps_foldl
    | split
    | (with_reducible refine Keeps.upd ?_ rfl ?_ ?_ ?_ ?_ ?_ ?_ ?_ ?_ ?_ ?_ ?_ ?_ ?_ ?_ ?_ ?_ ?_)
    | with_reducible exact (fun h => h)

theorem State.setPin_keeps {q : List Instr} {s : State} (h : Keeps q s) (a0) : Keeps q (State.setPin s a0) := by
  unfold State.setPin
  try dsimp only
  repeat' first
    | with_reducible assumption
    | with_reducible apply State.emit_keeps
    | with_reducible apply keeps_foldl
    | split
    | (with_reducible refine Keeps.upd ?_ rfl ?_ ?_ ?_ ?_ ?_ ?_ ?_ ?_ ?_ ?_ ?_ ?_ ?_ ?_ ?_ ?_ ?_)
    | with_reducible exact (fun h => h)

theorem State.draw_keeps {q : List Instr} {s : State} (h : Keeps q s) : Keeps q (State.draw s).2 := by
  unfold State.draw
  try dsimp only
  repeat' first
    | with_reducible assumption
    | with_reducible apply keeps_foldl
    | split
    | (with_reducible refine Keeps.upd ?_ rfl ?_ ?_ ?_ ?_ ?_ ?_ ?_ ?_ ?_ ?_ ?_ ?_ ?_ ?_ ?_ ?_ ?_)
    | with_reducible exact (fun h => h)

theorem State.draw_keeps_of {q : List Instr} {s t : State} {r}  (e : State.draw s = (r, t)) (h : Keeps q s) : Keeps q t := by
  have := State.draw_keeps h 
  rwa [e] at this

theorem State.setQueue_keeps {q : List Instr} {s : State} (h : Keeps q s) (a0 a1) : Keeps q (State.setQueue s a0 a1) := by
  unfold State.setQueue
  try dsimp only
  repeat' first
    | with_reducible assumption
    | with_reducible apply keeps_foldl
    | split
    | (with_reducible refine Keeps.upd ?_ rfl ?_ ?_ ?_ ?_ ?_ ?_ ?_ ?_ ?_ ?_ ?_ ?_ ?_ ?_ ?_ ?_ ?_)
    | with_reducible exact (fun h => h)
    | with_reducible exact (fun h => SMap.wf_set h _ _)

theorem State.setJob_keeps {q : List Instr} {s : State} (h : Keeps q s) (a0 a1 a2) : Keeps q (State.setJob s a0 a1 a2) := by
  unfold State.setJob
  try dsimp only
  repeat' first
    | with_reducible assumption
    | with_reducible apply keeps_foldl
    | split
    | (with_reducible refine Keeps.upd ?_ rfl ?_ ?_ ?_ ?_ ?_ ?_ ?_ ?_ ?_ ?_ ?_ ?_ ?_ ?_ ?_ ?_ ?_)
    | with_reducible exact (fun h => h)
    | with_reducible exact (fun h => SMap.wf_set h _ _)

theorem State.setWheel_keeps {q : List Instr} {s : State} (h : Keeps q s) (a0 a1) : Keeps q (State.setWheel s a0 a1) := by
  unfold State.setWheel
  try dsimp only
  repeat' first
    | with_reducible assumption
    | with_reducible apply keeps_foldl
    | split
    | (with_reducible refine Keeps.upd ?_ rfl ?_ ?_ ?_ ?_ ?_ ?_ ?_ ?_ ?_ ?_ ?_ ?_ ?_ ?_ ?_ ?_ ?_)
    | with_reducible exact (fun h => h)
    | with_reducible exact (fun h => SMap.wf_set h _ _)

theorem State.setUnit_keeps {q : List Instr} {s : State} (h : Keeps q s) (a0 a1 a2) : Keeps q (State.setUnit s a0 a1 a2) := by
  unfold State.setUnit
  try dsimp only
  repeat' first
    | with_reducible assumption
    | with_reducible apply keeps_foldl
    | split
    | (with_reducible refine Keeps.upd ?_ rfl ?_ ?_ ?_ ?_ ?_ ?_ ?_ ?_ ?_ ?_ ?_ ?_ ?_ ?_ ?_ ?_ ?_)
    | with_reducible exact (fun h => h)
    | with_reducible exact (fun h => SMap.wf_set h _ _)

theorem State.setCore_keeps {q : List Instr} {s : State} (h : Keeps q s) (a0 a1) : Keeps q (State.setCore s a0 a1) := by
  unfold State.setCore
  try dsimp only
  repeat' first
    | with_reducible assumption
    | with_reducible apply keeps_foldl
    | split
    | (with_reducible refine Keeps.upd ?_ rfl ?_ ?_ ?_ ?_ ?_ ?_ ?_ ?_ ?_ ?_ ?_ ?_ ?_ ?_ ?_ ?_ ?_)
    | with_reducible exact (fun h => h)

theorem State.setSync_keeps {q : List Instr} {s : State} (h : Keeps q s) (a0 a1 a2) : Keeps q (State.setSync s a0 a1 a2) := by
  unfold State.setSync
  try dsimp only
  repeat' first
    | with_reducible assumption
    | with_reducible apply keeps_foldl
    | split
    | (with_reducible refine Keeps.upd ?_ rfl ?_ ?_ ?_ ?_ ?_ ?_ ?_ ?_ ?_ ?_ ?_ ?_ ?_ ?_ ?_ ?_ ?_)
    | with_reducible exact (fun h => h)
    | with_reducible exact (fun h => SMap.wf_set h _ _)

theorem State.setConn_keeps {q : List Instr} {s : State} (h : Keeps q s) (a0 a1) : Keeps q (State.setConn s a0 a1) := by
  unfold State.setConn
  try dsimp only
  repeat' first
    | with_reducible assumption
    | with_reducible apply keeps_foldl
    | split
    | (with_reducible refine Keeps.upd ?_ rfl ?_ ?_ ?_ ?_ ?_ ?_ ?_ ?_ ?_ ?_ ?_ ?_ ?_ ?_ ?_ ?_ ?_)
    | with_reducible exact (fun h => h)

theorem State.setSess_keeps {q : List Instr} {s : State} (h : Keeps q s) (a0 a1) : Keeps q (State.setSess s a0 a1) := by
  unfold State.setSess
  try dsimp only
  repeat' first
    | with_reducible assumption
    | with_reducible apply keeps_foldl
    | split
    | (with_reducible refine Keeps.upd ?_ rfl ?_ ?_ ?_ ?_ ?_ ?_ ?_ ?_ ?_ ?_ ?_ ?_ ?_ ?_ ?_ ?_ ?_)
    | with_reducible exact (fun h => h)
    | with_reducible exact (fun h => SMap.wf_set h _ _)

theorem State.setTraceCh_keeps {q : List Instr} {s : State} (h : Keeps q s) (a0 a1 a2) : Keeps q (State.setTraceCh s a0 a1 a2) := by
  unfold State.setTraceCh
  try dsimp only
  repeat' first
    | with_reducible assumption
    | with_reducible apply keeps_foldl
    | split
    | (with_reducible refine Keeps.upd ?_ rfl ?_ ?_ ?_ ?_ ?_ ?_ ?_ ?_ ?_ ?_ ?_ ?_ ?_ ?_ ?_ ?_ ?_)
    | with_reducible exact (fun h => h)

end Sys2Proof.Machine
end

