-- ==== Sys2Proof/Laws/KeepsMessage.lean ====
section
/-!
SUPPORT. The operations of Machine/Message.lean keep the queue and the canonical form of every map (`Keeps`).
-/
namespace Sys2Proof.Machine

theorem State.startNet_keeps {q : List Instr} {s : State} (h : Keeps q s) : Keeps q (State.startNet s) := by
  unfold State.startNet
  try dsimp only
  repeat' first
    | with_reducible assumption
    | with_reducible apply State.emit_keeps
    | with_reducible apply keeps_foldl
    | split

theorem State.netRx_keeps {q : List Instr} {s : State} (h : Keeps q s) (a0) : Keeps q (State.netRx s a0) := by
  unfold State.netRx
  try dsimp only
  repeat' first
    | with_reducible assumption
    | with_reducible apply State.emit_keeps
    | with_reducible apply keeps_foldl
    | split
    | (with_reducible refine Keeps.upd ?_ rfl ?_ ?_ ?_ ?_ ?_ ?_ ?_ ?_ ?_ ?_ ?_ ?_ ?_ ?_ ?_ ?_ ?_)
    | with_reducible exact (fun h => h)

theorem State.netRxAll_keeps {q : List Instr} {s : State} (h : Keeps q s) (a0) : Keeps q (State.netRxAll s a0) := by
  unfold State.netRxAll
  try dsimp only
  repeat' first
    | with_reducible assumption
    | with_reducible apply State.netRx_keeps
    | with_reducible apply keeps_foldl
    | split
    | intro _

theorem State.sendMgt_keeps {q : List Instr} {s : State} (h : Keeps q s) (a0 a1 a2 a3 a4 a5) : Keeps q (State.sendMgt s a0 a1 a2 a3 a4 a5) := by
  unfold State.sendMgt
  try dsimp only
  repeat' first
    | with_reducible assumption
    | with_reducible apply State.emit_keeps
    | with_reducible apply keeps_foldl
    | split
    | (with_reducible refine Keeps.upd ?_ rfl ?_ ?_ ?_ ?_ ?_ ?_ ?_ ?_ ?_ ?_ ?_ ?_ ?_ ?_ ?_ ?_ ?_)
    | with_reducible exact (fun h => h)

theorem State.answerMgt_keeps {q : List Instr} {s : State} (h : Keeps q s) (a0 a1 a2) : Keeps q (State.answerMgt s a0 a1 a2) := by
  unfold State.answerMgt
  try dsimp only
  repeat' first
    | with_reducible assumption
    | with_reducible apply State.sendMgt_keeps

theorem State.inbound_keeps {q : List Instr} {s : State} (h : Keeps q s) (a0 a1 a2 a3) (ha3 : ∀ t, Keeps q t → Keeps q (a3 t)) : Keeps q (State.inbound s a0 a1 a2 a3) := by
  unfold State.inbound
  try dsimp only
  repeat' first
    | with_reducible assumption
    | with_reducible apply State.count_keeps
    | with_reducible apply ha3
    | with_reducible apply keeps_foldl
    | split
    | (with_reducible refine Keeps.upd ?_ rfl ?_ ?_ ?_ ?_ ?_ ?_ ?_ ?_ ?_ ?_ ?_ ?_ ?_ ?_ ?_ ?_ ?_)
    | with_reducible exact (fun h => h)

end Sys2Proof.Machine
end

