-- ==== Sys2Proof/Laws/KeepsReport.lean ====
section
/-!
SUPPORT. The operations of Machine/Report.lean keep the queue and the canonical form of every map (`Keeps`).
-/
namespace Sys2Proof.Machine

theorem State.counterUpdate_keeps {q : List Instr} {s : State} (h : Keeps q s) (a0) : Keeps q (State.counterUpdate s a0) := by
  unfold State.counterUpdate
  try dsimp only
  repeat' first
    | with_reducible assumption
    | with_reducible apply keeps_foldl
    | split
    | (with_reducible refine Keeps.upd ?_ rfl ?_ ?_ ?_ ?_ ?_ ?_ ?_ ?_ ?_ ?_ ?_ ?_ ?_ ?_ ?_ ?_ ?_)
    | with_reducible exact (fun h => h)

theorem State.nextFaultSeq_keeps {q : List Instr} {s : State} (h : Keeps q s) : Keeps q (State.nextFaultSeq s).2 := by
  unfold State.nextFaultSeq
  try dsimp only
  repeat' first
    | with_reducible assumption
    | with_reducible apply State.counterUpdate_keeps
    | with_reducible apply keeps_foldl
    | split
    | (with_reducible refine Keeps.upd ?_ rfl ?_ ?_ ?_ ?_ ?_ ?_ ?_ ?_ ?_ ?_ ?_ ?_ ?_ ?_ ?_ ?_ ?_)
    | with_reducible exact (fun h => h)

theorem State.nextFaultSeq_keeps_of {q : List Instr} {s t : State} {r}  (e : State.nextFaultSeq s = (r, t)) (h : Keeps q s) : Keeps q t := by
  have := State.nextFaultSeq_keeps h 
  rwa [e] at this

theorem State.nextCapSeq_keeps {q : List Instr} {s : State} (h : Keeps q s) : Keeps q (State.nextCapSeq s).2 := by
  unfold State.nextCapSeq
  try dsimp only
  repeat' first
    | with_reducible assumption
    | with_reducible apply State.counterUpdate_keeps
    | with_reducible apply keeps_foldl
    | split
    | (with_reducible refine Keeps.upd ?_ rfl ?_ ?_ ?_ ?_ ?_ ?_ ?_ ?_ ?_ ?_ ?_ ?_ ?_ ?_ ?_ ?_ ?_)
    | with_reducible exact (fun h => h)

theorem State.nextCapSeq_keeps_of {q : List Instr} {s t : State} {r}  (e : State.nextCapSeq s = (r, t)) (h : Keeps q s) : Keeps q t := by
  have := State.nextCapSeq_keeps h 
  rwa [e] at this

theorem State.makeRoom_keeps {q : List Instr} {s : State} (h : Keeps q s) : Keeps q (State.makeRoom s) := by
  unfold State.makeRoom
  try dsimp only
  repeat' first
    | with_reducible assumption
    | with_reducible apply State.count_keeps
    | with_reducible apply keeps_foldl
    | split
    | (with_reducible refine Keeps.upd ?_ rfl ?_ ?_ ?_ ?_ ?_ ?_ ?_ ?_ ?_ ?_ ?_ ?_ ?_ ?_ ?_ ?_ ?_)
    | with_reducible exact (fun h => h)

theorem State.sendMsg_keeps {q : List Instr} {s : State} (h : Keeps q s) (a0) : Keeps q (State.sendMsg s a0) := by
  unfold State.sendMsg
  try dsimp only
  repeat' first
    | with_reducible assumption
    | with_reducible apply State.emit_keeps

theorem State.sendHeld_keeps {q : List Instr} {s : State} (h : Keeps q s) (a0 a1) : Keeps q (State.sendHeld s a0 a1) := by
  unfold State.sendHeld
  try dsimp only
  repeat' first
    | with_reducible assumption
    | with_reducible apply State.makeRoom_keeps
    | with_reducible apply State.sendMsg_keeps
    | with_reducible apply State.wr_keeps
    | with_reducible apply keeps_foldl
    | split
    | (with_reducible refine Keeps.upd ?_ rfl ?_ ?_ ?_ ?_ ?_ ?_ ?_ ?_ ?_ ?_ ?_ ?_ ?_ ?_ ?_ ?_ ?_)
    | with_reducible exact (fun h => h)

theorem State.sendEvent_keeps {q : List Instr} {s : State} (h : Keeps q s) (a0) : Keeps q (State.sendEvent s a0) := by
  unfold State.sendEvent
  try dsimp only
  repeat' first
    | with_reducible assumption
    | with_reducible apply State.sendHeld_keeps

theorem State.report_keeps {q : List Instr} {s : State} (h : Keeps q s) (a0) : Keeps q (State.report s a0) := by
  unfold State.report
  try dsimp only
  repeat' first
    | with_reducible assumption
    | with_reducible apply State.sendEvent_keeps

theorem State.postedDrop_keeps {q : List Instr} {s : State} (h : Keeps q s) (a0) : Keeps q (State.postedDrop s a0) := by
  unfold State.postedDrop
  try dsimp only
  repeat' first
    | with_reducible assumption
    | with_reducible apply State.count_keeps
    | with_reducible apply State.event_keeps
    | with_reducible apply State.report_keeps

theorem State.setMsixWord_keeps {q : List Instr} {s : State} (h : Keeps q s) (a0 a1 a2) : Keeps q (State.setMsixWord s a0 a1 a2) := by
  unfold State.setMsixWord
  try dsimp only
  repeat' first
    | with_reducible assumption
    | with_reducible apply keeps_foldl
    | split
    | (with_reducible refine Keeps.upd ?_ rfl ?_ ?_ ?_ ?_ ?_ ?_ ?_ ?_ ?_ ?_ ?_ ?_ ?_ ?_ ?_ ?_ ?_)
    | with_reducible exact (fun h => h)
    | with_reducible exact (fun h => SMap.wf_set h _ _)

theorem State.setPending_keeps {q : List Instr} {s : State} (h : Keeps q s) (a0 a1 a2) : Keeps q (State.setPending s a0 a1 a2) := by
  unfold State.setPending
  try dsimp only
  repeat' first
    | with_reducible assumption
    | with_reducible apply State.setMsixWord_keeps

theorem State.msix'_keeps {q : List Instr} {s : State} (h : Keeps q s) (a0 a1) : Keeps q (State.msix' s a0 a1) := by
  unfold State.msix'
  try dsimp only
  repeat' first
    | with_reducible assumption
    | with_reducible apply State.emit_keeps
    | with_reducible apply State.event_keeps
    | with_reducible apply State.postedDrop_keeps
    | with_reducible apply State.setPending_keeps
    | with_reducible apply keeps_foldl
    | split

theorem State.writeMsix_keeps {q : List Instr} {s : State} (h : Keeps q s) (a0 a1 a2) : Keeps q (State.writeMsix s a0 a1 a2) := by
  unfold State.writeMsix
  try dsimp only
  repeat' first
    | with_reducible assumption
    | with_reducible apply State.msix'_keeps
    | with_reducible apply State.setMsixWord_keeps
    | with_reducible apply State.setPending_keeps
    | with_reducible apply keeps_foldl
    | split

theorem State.hostVector_keeps {q : List Instr} {s : State} (h : Keeps q s) (a0) : Keeps q (State.hostVector s a0) := by
  unfold State.hostVector
  try dsimp only
  repeat' first
    | with_reducible assumption
    | with_reducible apply State.msix'_keeps
    | with_reducible apply keeps_foldl
    | split

theorem State.hostEvent_keeps {q : List Instr} {s : State} (h : Keeps q s) (a0) : Keeps q (State.hostEvent s a0) := by
  unfold State.hostEvent
  try dsimp only
  repeat' first
    | with_reducible assumption
    | with_reducible apply State.hostVector_keeps
    | with_reducible apply keeps_foldl
    | split
    | intro _

theorem State.sendWsf_keeps {q : List Instr} {s : State} (h : Keeps q s) (a0) : Keeps q (State.sendWsf s a0) := by
  unfold State.sendWsf
  try dsimp only
  repeat' first
    | with_reducible assumption
    | with_reducible apply State.counterUpdate_keeps
    | with_reducible apply State.emit_keeps
    | with_reducible apply State.sendHeld_keeps
    | with_reducible apply State.wr_keeps
    | with_reducible apply keeps_foldl
    | split
    | (with_reducible refine Keeps.upd ?_ rfl ?_ ?_ ?_ ?_ ?_ ?_ ?_ ?_ ?_ ?_ ?_ ?_ ?_ ?_ ?_ ?_ ?_)
    | with_reducible exact (fun h => h)

theorem State.sendWsfs_keeps {q : List Instr} {s : State} (h : Keeps q s) (a0) : Keeps q (State.sendWsfs s a0) := by
  unfold State.sendWsfs
  try dsimp only
  repeat' first
    | with_reducible assumption
    | with_reducible apply State.sendWsf_keeps
    | with_reducible apply keeps_foldl
    | split
    | intro _

theorem State.reportThermal_keeps {q : List Instr} {s : State} (h : Keeps q s) (a0 a1 a2 a3 a4) : Keeps q (State.reportThermal s a0 a1 a2 a3 a4) := by
  unfold State.reportThermal
  try dsimp only
  repeat' first
    | with_reducible assumption
    | with_reducible apply State.emit_keeps
    | with_reducible apply State.hostEvent_keeps
    | with_reducible apply State.sendEvent_keeps

theorem State.reportDevice_keeps {q : List Instr} {s : State} (h : Keeps q s) (a0 a1 a2) : Keeps q (State.reportDevice s a0 a1 a2) := by
  unfold State.reportDevice
  try dsimp only
  repeat' first
    | with_reducible assumption
    | with_reducible apply State.reportThermal_keeps

theorem State.reportTrip_keeps {q : List Instr} {s : State} (h : Keeps q s) (a0) : Keeps q (State.reportTrip s a0) := by
  unfold State.reportTrip
  try dsimp only
  repeat' first
    | with_reducible assumption
    | with_reducible apply State.reportThermal_keeps

theorem State.flushTrip_keeps {q : List Instr} {s : State} (h : Keeps q s) : Keeps q (State.flushTrip s) := by
  unfold State.flushTrip
  try dsimp only
  repeat' first
    | with_reducible assumption
    | with_reducible apply State.reportTrip_keeps
    | with_reducible apply keeps_foldl
    | split
    | (with_reducible refine Keeps.upd ?_ rfl ?_ ?_ ?_ ?_ ?_ ?_ ?_ ?_ ?_ ?_ ?_ ?_ ?_ ?_ ?_ ?_ ?_)
    | with_reducible exact (fun h => h)

theorem State.flushRecords_keeps {q : List Instr} {s : State} (h : Keeps q s) : Keeps q (State.flushRecords s) := by
  unfold State.flushRecords
  try dsimp only
  repeat' first
    | with_reducible assumption
    | with_reducible apply State.sendWsfs_keeps
    | with_reducible apply keeps_foldl
    | split
    | (with_reducible refine Keeps.upd ?_ rfl ?_ ?_ ?_ ?_ ?_ ?_ ?_ ?_ ?_ ?_ ?_ ?_ ?_ ?_ ?_ ?_ ?_)
    | with_reducible exact (fun h => h)

theorem State.updateFault_keeps {q : List Instr} {s : State} (h : Keeps q s) : Keeps q (State.updateFault s) := by
  unfold State.updateFault
  try dsimp only
  repeat' first
    | with_reducible assumption
    | with_reducible apply State.hostEvent_keeps
    | with_reducible apply State.wr_keeps
    | with_reducible apply keeps_foldl
    | split

end Sys2Proof.Machine
end

