-- ==== Sys2Proof/Laws/KeepsHistory.lean ====
section
/-!
SUPPORT. The operations of Machine/History.lean keep the queue and the canonical form of every map (`Keeps`).
-/
namespace Sys2Proof.Machine

theorem State.setOpen_keeps {q : List Instr} {s : State} (h : Keeps q s) (a0) : Keeps q (State.setOpen s a0) := by
  unfold State.setOpen
  try dsimp only
  repeat' first
    | with_reducible assumption
    | with_reducible apply keeps_foldl
    | split
    | (with_reducible refine Keeps.upd ?_ rfl ?_ ?_ ?_ ?_ ?_ ?_ ?_ ?_ ?_ ?_ ?_ ?_ ?_ ?_ ?_ ?_ ?_)
    | with_reducible exact (fun h => h)

theorem State.recordCe_keeps {q : List Instr} {s : State} (h : Keeps q s) (a0) : Keeps q (State.recordCe s a0) := by
  unfold State.recordCe
  try dsimp only
  repeat' first
    | with_reducible assumption
    | with_reducible apply State.setOpen_keeps

theorem State.recordVote_keeps {q : List Instr} {s : State} (h : Keeps q s) (a0) : Keeps q (State.recordVote s a0) := by
  unfold State.recordVote
  try dsimp only
  repeat' first
    | with_reducible assumption
    | with_reducible apply State.setOpen_keeps

theorem State.recordHold_keeps {q : List Instr} {s : State} (h : Keeps q s) : Keeps q (State.recordHold s) := by
  unfold State.recordHold
  try dsimp only
  repeat' first
    | with_reducible assumption
    | with_reducible apply State.setOpen_keeps

theorem State.recordPower_keeps {q : List Instr} {s : State} (h : Keeps q s) : Keeps q (State.recordPower s) := by
  unfold State.recordPower
  try dsimp only
  repeat' first
    | with_reducible assumption
    | with_reducible apply State.setOpen_keeps

theorem State.recordTemp_keeps {q : List Instr} {s : State} (h : Keeps q s) : Keeps q (State.recordTemp s) := by
  unfold State.recordTemp
  try dsimp only
  repeat' first
    | with_reducible assumption
    | with_reducible apply State.setOpen_keeps

theorem State.recordCore_keeps {q : List Instr} {s : State} (h : Keeps q s) (a0) : Keeps q (State.recordCore s a0) := by
  unfold State.recordCore
  try dsimp only
  repeat' first
    | with_reducible assumption
    | with_reducible apply State.setOpen_keeps

theorem State.startWrite_keeps {q : List Instr} {s : State} (h : Keeps q s) : Keeps q (State.startWrite s) := by
  unfold State.startWrite
  try dsimp only
  repeat' first
    | with_reducible assumption
    | with_reducible apply State.wr_keeps
    | with_reducible apply keeps_foldl
    | split
    | (with_reducible refine Keeps.upd ?_ rfl ?_ ?_ ?_ ?_ ?_ ?_ ?_ ?_ ?_ ?_ ?_ ?_ ?_ ?_ ?_ ?_ ?_)
    | with_reducible exact (fun h => h)

theorem State.closing_keeps {q : List Instr} {s : State} (h : Keeps q s) (a0 a1 a2 a3) : Keeps q (State.closing s a0 a1 a2 a3) := by
  unfold State.closing
  try dsimp only
  repeat' first
    | with_reducible assumption
    | with_reducible apply State.event_keeps
    | with_reducible apply State.setOpen_keeps
    | with_reducible apply State.startWrite_keeps
    | with_reducible apply keeps_foldl
    | split
    | (with_reducible refine Keeps.upd ?_ rfl ?_ ?_ ?_ ?_ ?_ ?_ ?_ ?_ ?_ ?_ ?_ ?_ ?_ ?_ ?_ ?_ ?_)
    | with_reducible exact (fun h => h)

theorem State.endSession_keeps {q : List Instr} {s : State} (h : Keeps q s) : Keeps q (State.endSession s) := by
  unfold State.endSession
  try dsimp only
  repeat' first
    | with_reducible assumption
    | with_reducible apply State.closing_keeps
    | with_reducible apply State.event_keeps
    | with_reducible apply State.setOpen_keeps
    | with_reducible apply keeps_foldl
    | split
    | (with_reducible refine Keeps.upd ?_ rfl ?_ ?_ ?_ ?_ ?_ ?_ ?_ ?_ ?_ ?_ ?_ ?_ ?_ ?_ ?_ ?_ ?_)
    | with_reducible exact (fun h => h)

theorem State.recordWritten_keeps {q : List Instr} {s : State} (h : Keeps q s) : Keeps q (State.recordWritten s) := by
  unfold State.recordWritten
  try dsimp only
  repeat' first
    | with_reducible assumption
    | with_reducible apply State.event_keeps
    | with_reducible apply State.startWrite_keeps
    | with_reducible apply State.wr_keeps
    | with_reducible apply keeps_foldl
    | split
    | (with_reducible refine Keeps.upd ?_ rfl ?_ ?_ ?_ ?_ ?_ ?_ ?_ ?_ ?_ ?_ ?_ ?_ ?_ ?_ ?_ ?_ ?_)
    | with_reducible exact (fun h => h)

end Sys2Proof.Machine
end

