-- ==== Sys2Proof/Laws/KeepsMemory.lean ====
section
/-!
SUPPORT. The operations of Machine/Memory.lean keep the queue and the canonical form of every map (`Keeps`).
-/
namespace Sys2Proof.Machine

theorem State.undefine_keeps {q : List Instr} {s : State} (h : Keeps q s) (a0) : Keeps q (State.undefine s a0) := by
  unfold State.undefine
  try dsimp only
  repeat' first
    | with_reducible assumption
    | with_reducible apply keeps_foldl
    | split
    | (with_reducible refine Keeps.upd ?_ rfl ?_ ?_ ?_ ?_ ?_ ?_ ?_ ?_ ?_ ?_ ?_ ?_ ?_ ?_ ?_ ?_ ?_)
    | with_reducible exact (fun h => h)
    | with_reducible exact (fun h => SMap.wf_set h _ _)
    | with_reducible exact (fun h => SMap.wf_clear h _)
    | with_reducible exact (fun h => SMap.wf_filter h _)
    | with_reducible exact (Memory.wf_same rfl rfl)
    | with_reducible exact (fun _ => SMap.wf_foldl_set _ _ _ rfl)
    | exact (fun _ => rfl)
    | exact (fun h => h)
    | exact (fun h => Memory.wf_setByte h _ _)
    | exact (fun h => Memory.wf_undefine h _)

theorem State.rewrite_keeps {q : List Instr} {s : State} (h : Keeps q s) (a0) : Keeps q (State.rewrite s a0) := by
  unfold State.rewrite
  try dsimp only
  repeat' first
    | with_reducible assumption
    | with_reducible apply keeps_foldl
    | split
    | (with_reducible refine Keeps.upd ?_ rfl ?_ ?_ ?_ ?_ ?_ ?_ ?_ ?_ ?_ ?_ ?_ ?_ ?_ ?_ ?_ ?_ ?_)
    | with_reducible exact (fun h => h)
    | with_reducible exact (fun h => SMap.wf_set h _ _)
    | with_reducible exact (fun h => SMap.wf_clear h _)
    | with_reducible exact (fun h => SMap.wf_filter h _)
    | with_reducible exact (Memory.wf_same rfl rfl)
    | with_reducible exact (fun _ => SMap.wf_foldl_set _ _ _ rfl)
    | exact (fun _ => rfl)
    | exact (fun h => h)
    | exact (fun h => Memory.wf_setByte h _ _)
    | exact (fun h => Memory.wf_undefine h _)
    | exact (fun h => Memory.wf_undefineBut h _ _)
    | exact (fun h => poison_setPoison h _ _)
    | (intro hp; dsimp only [MemSt.setPoison, MemSt.setFlaw, MemSt.undefine, MemSt.bump]; first | exact SMap.wf_set hp _ _ | exact SMap.wf_clear hp _)

theorem State.strike_keeps {q : List Instr} {s : State} (h : Keeps q s) (a0) : Keeps q (State.strike s a0) := by
  unfold State.strike
  try dsimp only
  repeat' first
    | with_reducible assumption
    | with_reducible apply keeps_foldl
    | split
    | (with_reducible refine Keeps.upd ?_ rfl ?_ ?_ ?_ ?_ ?_ ?_ ?_ ?_ ?_ ?_ ?_ ?_ ?_ ?_ ?_ ?_ ?_)
    | with_reducible exact (fun h => h)
    | with_reducible exact (fun h => SMap.wf_set h _ _)
    | with_reducible exact (fun h => SMap.wf_clear h _)
    | with_reducible exact (fun h => SMap.wf_filter h _)
    | with_reducible exact (Memory.wf_same rfl rfl)
    | with_reducible exact (fun _ => SMap.wf_foldl_set _ _ _ rfl)
    | exact (fun _ => rfl)
    | exact (fun h => h)
    | exact (fun h => Memory.wf_setByte h _ _)
    | exact (fun h => Memory.wf_undefine h _)
    | exact (fun h => Memory.wf_undefineBut h _ _)
    | exact (fun h => poison_setPoison h _ _)
    | (intro hp; dsimp only [MemSt.setPoison, MemSt.setFlaw, MemSt.undefine, MemSt.bump]; first | exact SMap.wf_set hp _ _ | exact SMap.wf_clear hp _)
    | intro _

theorem State.meet_keeps {q : List Instr} {s : State} (h : Keeps q s) (a0 a1 a2) : Keeps q (State.meet s a0 a1 a2) := by
  unfold State.meet
  try dsimp only
  repeat' first
    | with_reducible assumption
    | with_reducible apply keeps_foldl
    | split
    | (with_reducible refine Keeps.upd ?_ rfl ?_ ?_ ?_ ?_ ?_ ?_ ?_ ?_ ?_ ?_ ?_ ?_ ?_ ?_ ?_ ?_ ?_)
    | with_reducible exact (fun h => h)
    | with_reducible exact (fun h => SMap.wf_set h _ _)
    | with_reducible exact (fun h => SMap.wf_clear h _)
    | with_reducible exact (fun h => SMap.wf_filter h _)
    | with_reducible exact (Memory.wf_same rfl rfl)
    | with_reducible exact (fun _ => SMap.wf_foldl_set _ _ _ rfl)
    | exact (fun _ => rfl)
    | exact (fun h => h)
    | exact (fun h => Memory.wf_setByte h _ _)
    | exact (fun h => Memory.wf_undefine h _)
    | exact (fun h => Memory.wf_undefineBut h _ _)
    | exact (fun h => poison_setPoison h _ _)
    | (intro hp; dsimp only [MemSt.setPoison, MemSt.setFlaw, MemSt.undefine, MemSt.bump]; first | exact SMap.wf_set hp _ _ | exact SMap.wf_clear hp _)

theorem State.readHost_keeps {q : List Instr} {s : State} (h : Keeps q s) (a0 a1 a2) : Keeps q (State.readHost s a0 a1 a2) := by
  unfold State.readHost
  try dsimp only
  repeat' first
    | with_reducible assumption
    | with_reducible apply State.emit_keeps
    | with_reducible apply keeps_foldl
    | split
    | (with_reducible refine Keeps.upd ?_ rfl ?_ ?_ ?_ ?_ ?_ ?_ ?_ ?_ ?_ ?_ ?_ ?_ ?_ ?_ ?_ ?_ ?_)
    | with_reducible exact (fun h => h)
    | with_reducible exact (fun h => SMap.wf_set h _ _)
    | with_reducible exact (fun h => SMap.wf_clear h _)
    | with_reducible exact (fun h => SMap.wf_filter h _)
    | with_reducible exact (Memory.wf_same rfl rfl)
    | with_reducible exact (fun _ => SMap.wf_foldl_set _ _ _ rfl)
    | exact (fun _ => rfl)
    | intro _

theorem State.dropLate_keeps {q : List Instr} {s : State} (h : Keeps q s) (a0 a1 a2 a3 a4) : Keeps q (State.dropLate s a0 a1 a2 a3 a4) := by
  unfold State.dropLate
  try dsimp only
  repeat' first
    | with_reducible assumption
    | with_reducible apply State.count_keeps
    | with_reducible apply keeps_foldl
    | split
    | (with_reducible refine Keeps.upd ?_ rfl ?_ ?_ ?_ ?_ ?_ ?_ ?_ ?_ ?_ ?_ ?_ ?_ ?_ ?_ ?_ ?_ ?_)
    | with_reducible exact (fun h => h)

theorem State.noteHole_keeps {q : List Instr} {s : State} (h : Keeps q s) (a0 a1 a2) : Keeps q (State.noteHole s a0 a1 a2) := by
  unfold State.noteHole
  try dsimp only
  repeat' first
    | with_reducible assumption
    | with_reducible apply State.event_keeps
    | with_reducible apply keeps_foldl
    | split

theorem State.touchLine_keeps {q : List Instr} {s : State} (h : Keeps q s) (a0 a1 a2 a3) : Keeps q (State.touchLine s a0 a1 a2 a3) := by
  unfold State.touchLine
  try dsimp only
  repeat' first
    | with_reducible assumption
    | with_reducible apply State.meet_keeps
    | with_reducible apply State.noteHole_keeps
    | with_reducible apply keeps_foldl
    | split

theorem State.touch_keeps {q : List Instr} {s : State} (h : Keeps q s) (a0 a1 a2 a3 a4) : Keeps q (State.touch s a0 a1 a2 a3 a4) := by
  unfold State.touch
  try dsimp only
  repeat' first
    | with_reducible assumption
    | with_reducible apply State.touchLine_keeps
    | with_reducible apply keeps_foldl
    | split
    | intro _

theorem State.touchTagged_keeps {q : List Instr} {s : State} (h : Keeps q s) (a0 a1 a2 a3) : Keeps q (State.touchTagged s a0 a1 a2 a3) := by
  unfold State.touchTagged
  try dsimp only
  repeat' first
    | with_reducible assumption
    | with_reducible apply State.touch_keeps
    | with_reducible apply keeps_foldl
    | split
    | intro _

theorem State.writeByte_keeps {q : List Instr} {s : State} (h : Keeps q s) (a0 a1 a2 a3) : Keeps q (State.writeByte s a0 a1 a2 a3) := by
  unfold State.writeByte
  try dsimp only
  repeat' first
    | with_reducible assumption
    | with_reducible apply State.noteHole_keeps
    | with_reducible apply keeps_foldl
    | split
    | (with_reducible refine Keeps.upd ?_ rfl ?_ ?_ ?_ ?_ ?_ ?_ ?_ ?_ ?_ ?_ ?_ ?_ ?_ ?_ ?_ ?_ ?_)
    | with_reducible exact (fun h => h)
    | with_reducible exact (fun h => SMap.wf_set h _ _)
    | with_reducible exact (fun h => SMap.wf_clear h _)
    | with_reducible exact (fun h => SMap.wf_filter h _)
    | with_reducible exact (Memory.wf_same rfl rfl)
    | with_reducible exact (fun _ => SMap.wf_foldl_set _ _ _ rfl)
    | exact (fun _ => rfl)
    | exact (fun h => h)
    | exact (fun h => Memory.wf_setByte h _ _)

theorem State.writeLocal_keeps {q : List Instr} {s : State} (h : Keeps q s) (a0 a1 a2 a3) : Keeps q (State.writeLocal s a0 a1 a2 a3) := by
  induction a3 generalizing s a0 a1 a2 with
  | nil => exact h
  | cons _ _ ih =>
    unfold State.writeLocal
    try dsimp only
    repeat' first
      | with_reducible assumption
      | with_reducible apply ih
      | with_reducible apply State.writeByte_keeps

theorem State.markLine_keeps {q : List Instr} {s : State} (h : Keeps q s) (a0 a1 a2 a3 a4 a5) : Keeps q (State.markLine s a0 a1 a2 a3 a4 a5) := by
  unfold State.markLine
  try dsimp only
  repeat' first
    | with_reducible assumption
    | with_reducible apply State.meet_keeps
    | with_reducible apply keeps_foldl
    | split
    | (with_reducible refine Keeps.upd ?_ rfl ?_ ?_ ?_ ?_ ?_ ?_ ?_ ?_ ?_ ?_ ?_ ?_ ?_ ?_ ?_ ?_ ?_)
    | with_reducible exact (fun h => h)
    | with_reducible exact (fun h => SMap.wf_set h _ _)
    | with_reducible exact (fun h => SMap.wf_clear h _)
    | with_reducible exact (fun h => SMap.wf_filter h _)
    | with_reducible exact (Memory.wf_same rfl rfl)
    | with_reducible exact (fun _ => SMap.wf_foldl_set _ _ _ rfl)
    | exact (fun _ => rfl)
    | exact (fun h => h)
    | exact (fun h => Memory.wf_setByte h _ _)
    | exact (fun h => Memory.wf_undefine h _)
    | exact (fun h => Memory.wf_undefineBut h _ _)
    | exact (fun h => poison_setPoison h _ _)
    | (intro hp; dsimp only [MemSt.setPoison, MemSt.setFlaw, MemSt.undefine, MemSt.bump]; first | exact SMap.wf_set hp _ _ | exact SMap.wf_clear hp _)

theorem State.dropExt_keeps {q : List Instr} {s : State} (h : Keeps q s) (a0 a1) : Keeps q (State.dropExt s a0 a1) := by
  unfold State.dropExt
  try dsimp only
  repeat' first
    | with_reducible assumption
    | with_reducible apply keeps_foldl
    | split
    | (with_reducible refine Keeps.upd ?_ rfl ?_ ?_ ?_ ?_ ?_ ?_ ?_ ?_ ?_ ?_ ?_ ?_ ?_ ?_ ?_ ?_ ?_)
    | with_reducible exact (fun h => h)
    | with_reducible exact (fun h => SMap.wf_set h _ _)
    | with_reducible exact (fun h => SMap.wf_clear h _)
    | with_reducible exact (fun h => SMap.wf_filter h _)
    | with_reducible exact (Memory.wf_same rfl rfl)

theorem State.writeHost_keeps {q : List Instr} {s : State} (h : Keeps q s) (a0 a1 a2) : Keeps q (State.writeHost s a0 a1 a2) := by
  unfold State.writeHost
  try dsimp only
  repeat' first
    | with_reducible assumption
    | with_reducible apply State.dropExt_keeps
    | with_reducible apply State.emit_keeps
    | with_reducible apply State.postedDrop_keeps
    | with_reducible apply keeps_foldl
    | split
    | intro _

theorem State.store_keeps {q : List Instr} {s : State} (h : Keeps q s) (a0 a1 a2 a3 a4) : Keeps q (State.store s a0 a1 a2 a3 a4) := by
  unfold State.store
  try dsimp only
  repeat' first
    | with_reducible assumption
    | with_reducible apply State.markLine_keeps
    | with_reducible apply State.writeHost_keeps
    | with_reducible apply State.writeLocal_keeps
    | with_reducible apply keeps_foldl
    | split
    | intro _

theorem State.storeTagged_keeps {q : List Instr} {s : State} (h : Keeps q s) (a0 a1 a2 a3) : Keeps q (State.storeTagged s a0 a1 a2 a3) := by
  unfold State.storeTagged
  try dsimp only
  repeat' first
    | with_reducible assumption
    | with_reducible apply State.store_keeps
    | with_reducible apply keeps_foldl
    | split

theorem State.setChan_keeps {q : List Instr} {s : State} (h : Keeps q s) (a0 a1) : Keeps q (State.setChan s a0 a1) := by
  unfold State.setChan
  try dsimp only
  repeat' first
    | with_reducible assumption
    | with_reducible apply keeps_foldl
    | split
    | (with_reducible refine Keeps.upd ?_ rfl ?_ ?_ ?_ ?_ ?_ ?_ ?_ ?_ ?_ ?_ ?_ ?_ ?_ ?_ ?_ ?_ ?_)
    | with_reducible exact (fun h => h)
    | with_reducible exact (fun h => SMap.wf_set h _ _)
    | with_reducible exact (fun h => SMap.wf_clear h _)
    | with_reducible exact (fun h => SMap.wf_filter h _)
    | with_reducible exact (Memory.wf_same rfl rfl)

theorem State.endPass_keeps {q : List Instr} {s : State} (h : Keeps q s) (a0) : Keeps q (State.endPass s a0) := by
  unfold State.endPass
  try dsimp only
  repeat' first
    | with_reducible assumption
    | with_reducible apply State.count_keeps
    | with_reducible apply State.setChan_keeps
    | with_reducible apply keeps_foldl
    | split
    | intro _

theorem State.fixLayout_keeps {q : List Instr} {s : State} (h : Keeps q s) (a0) : Keeps q (State.fixLayout s a0) := by
  unfold State.fixLayout
  try dsimp only
  repeat' first
    | with_reducible assumption
    | with_reducible apply keeps_foldl
    | split
    | (with_reducible refine Keeps.upd ?_ rfl ?_ ?_ ?_ ?_ ?_ ?_ ?_ ?_ ?_ ?_ ?_ ?_ ?_ ?_ ?_ ?_ ?_)
    | with_reducible exact (fun h => h)
    | with_reducible exact (fun h => SMap.wf_set h _ _)
    | with_reducible exact (fun h => SMap.wf_clear h _)
    | with_reducible exact (fun h => SMap.wf_filter h _)
    | with_reducible exact (Memory.wf_same rfl rfl)

theorem State.showLayout_keeps {q : List Instr} {s : State} (h : Keeps q s) (a0) : Keeps q (State.showLayout s a0) := by
  unfold State.showLayout
  try dsimp only
  repeat' first
    | with_reducible assumption
    | with_reducible apply State.wr_keeps

theorem State.showLayouts_keeps {q : List Instr} {s : State} (h : Keeps q s) : Keeps q (State.showLayouts s) := by
  unfold State.showLayouts
  try dsimp only
  repeat' first
    | with_reducible assumption
    | with_reducible apply State.showLayout_keeps
    | with_reducible apply keeps_foldl
    | split
    | intro _

theorem State.fixLayouts_keeps {q : List Instr} {s : State} (h : Keeps q s) : Keeps q (State.fixLayouts s) := by
  unfold State.fixLayouts
  try dsimp only
  repeat' first
    | with_reducible assumption
    | with_reducible apply State.fixLayout_keeps
    | with_reducible apply State.showLayouts_keeps
    | with_reducible apply keeps_foldl
    | split
    | intro _

end Sys2Proof.Machine
end

