-- ==== Sys2Proof/Laws/KeepsRecording.lean ====
section
/-!
SUPPORT. The operations of Machine/Recording.lean keep the queue and the canonical form of every map (`Keeps`).
-/
namespace Sys2Proof.Machine

theorem State.traceStamp_keeps {q : List Instr} {s : State} (h : Keeps q s) (a0 a1) : Keeps q (State.traceStamp s a0 a1).2 := by
  unfold State.traceStamp
  try dsimp only
  repeat' first
    | with_reducible assumption
    | with_reducible apply keeps_foldl
    | split
    | (with_reducible refine Keeps.upd ?_ rfl ?_ ?_ ?_ ?_ ?_ ?_ ?_ ?_ ?_ ?_ ?_ ?_ ?_ ?_ ?_ ?_ ?_)
    | with_reducible exact (fun h => h)

theorem State.traceStamp_keeps_of {q : List Instr} {s t : State} {r} {a0 a1} (e : State.traceStamp s a0 a1 = (r, t)) (h : Keeps q s) : Keeps q t := by
  have := State.traceStamp_keeps h a0 a1
  rwa [e] at this

theorem State.tracePushAt_keeps {q : List Instr} {s : State} (h : Keeps q s) (a0 a1 a2 a3 a4 a5 a6 a7) : Keeps q (State.tracePushAt s a0 a1 a2 a3 a4 a5 a6 a7) := by
  unfold State.tracePushAt
  try dsimp only
  repeat' first
    | with_reducible assumption
    | with_reducible apply State.count_keeps
    | with_reducible apply State.setTraceCh_keeps
    | with_reducible apply keeps_foldl
    | split

theorem State.tracePush_keeps {q : List Instr} {s : State} (h : Keeps q s) (a0 a1 a2 a3 a4 a5 a6) : Keeps q (State.tracePush s a0 a1 a2 a3 a4 a5 a6) := by
  unfold State.tracePush
  try dsimp only
  repeat' first
    | with_reducible assumption
    | with_reducible apply State.tracePushAt_keeps
    | with_reducible apply State.traceStamp_keeps

theorem State.trace_keeps {q : List Instr} {s : State} (h : Keeps q s) (a0 a1 a2 a3 a4 a5) : Keeps q (State.trace s a0 a1 a2 a3 a4 a5) := by
  unfold State.trace
  try dsimp only
  repeat' first
    | with_reducible assumption
    | with_reducible apply State.tracePush_keeps
    | with_reducible apply keeps_foldl
    | split
    | intro _

theorem State.traceBeat_keeps {q : List Instr} {s : State} (h : Keeps q s) (a0 a1 a2) : Keeps q (State.traceBeat s a0 a1 a2) := by
  unfold State.traceBeat
  try dsimp only
  repeat' first
    | with_reducible assumption
    | with_reducible apply State.tracePush_keeps
    | with_reducible apply keeps_foldl
    | split
    | intro _

theorem State.traceWrite_keeps {q : List Instr} {s : State} (h : Keeps q s) (a0 a1 a2) : Keeps q (State.traceWrite s a0 a1 a2) := by
  unfold State.traceWrite
  try dsimp only
  repeat' first
    | with_reducible assumption
    | with_reducible apply State.count_keeps
    | with_reducible apply State.store_keeps
    | with_reducible apply State.wr_keeps
    | with_reducible apply keeps_foldl
    | split

theorem State.traceFlush_keeps {q : List Instr} {s : State} (h : Keeps q s) (a0 a1) : Keeps q (State.traceFlush s a0 a1) := by
  unfold State.traceFlush
  try dsimp only
  repeat' first
    | with_reducible assumption
    | with_reducible apply State.setTraceCh_keeps
    | with_reducible apply State.traceWrite_keeps
    | with_reducible apply keeps_foldl
    | split
    | intro _

theorem State.stopChan_keeps {q : List Instr} {s : State} (h : Keeps q s) (a0 a1) : Keeps q (State.stopChan s a0 a1) := by
  unfold State.stopChan
  try dsimp only
  repeat' first
    | with_reducible assumption
    | with_reducible apply State.setTraceCh_keeps
    | with_reducible apply State.traceFlush_keeps
    | with_reducible apply State.wr_keeps
    | with_reducible apply keeps_foldl
    | split

theorem State.closeChan_keeps {q : List Instr} {s : State} (h : Keeps q s) (a0 a1) : Keeps q (State.closeChan s a0 a1) := by
  unfold State.closeChan
  try dsimp only
  repeat' first
    | with_reducible assumption
    | with_reducible apply State.setTraceCh_keeps
    | with_reducible apply State.wr_keeps
    | with_reducible apply keeps_foldl
    | split

theorem State.stopChans_keeps {q : List Instr} {s : State} (h : Keeps q s) : Keeps q (State.stopChans s) := by
  unfold State.stopChans
  try dsimp only
  repeat' first
    | with_reducible assumption
    | with_reducible apply State.closeChan_keeps
    | with_reducible apply State.stopChan_keeps
    | with_reducible apply keeps_foldl
    | split
    | intro _

theorem State.bump48_keeps {q : List Instr} {s : State} (h : Keeps q s) (a0 a1 a2) : Keeps q (State.bump48 s a0 a1 a2).1 := by
  unfold State.bump48
  try dsimp only
  repeat' first
    | with_reducible assumption
    | with_reducible apply State.wr64_keeps

theorem State.bump48_keeps_of {q : List Instr} {s t : State} {r} {a0 a1 a2} (e : State.bump48 s a0 a1 a2 = (t, r)) (h : Keeps q s) : Keeps q t := by
  have := State.bump48_keeps h a0 a1 a2
  rwa [e] at this

theorem State.countCl_keeps {q : List Instr} {s : State} (h : Keeps q s) (a0 a1 a2 a3) : Keeps q (State.countCl s a0 a1 a2 a3) := by
  unfold State.countCl
  try dsimp only
  repeat' first
    | with_reducible assumption
    | with_reducible apply State.bump48_keeps
    | (with_reducible refine State.bump48_keeps_of (e := by assumption) ?_)
    | with_reducible apply State.wrBit_keeps
    | with_reducible apply keeps_foldl_fst
    | with_reducible apply keeps_foldl_snd
    | with_reducible apply keeps_foldl
    | split
    | intro _

theorem State.countEs_keeps {q : List Instr} {s : State} (h : Keeps q s) (a0 a1 a2 a3) : Keeps q (State.countEs s a0 a1 a2 a3) := by
  unfold State.countEs
  try dsimp only
  repeat' first
    | with_reducible assumption
    | with_reducible apply State.bump48_keeps
    | (with_reducible refine State.bump48_keeps_of (e := by assumption) ?_)
    | with_reducible apply State.wrBit_keeps
    | with_reducible apply keeps_foldl_fst
    | with_reducible apply keeps_foldl_snd
    | with_reducible apply keeps_foldl
    | split
    | intro _

end Sys2Proof.Machine
end

