-- ==== Sys2Proof/Laws/KeepsFlags.lean ====
section
/-!
SUPPORT. The operations of Machine/Flags.lean keep the queue and the canonical form of every map (`Keeps`).
-/
namespace Sys2Proof.Machine

theorem State.countRefusal_keeps {q : List Instr} {s : State} (h : Keeps q s) (a0 a1) : Keeps q (State.countRefusal s a0 a1) := by
  unfold State.countRefusal
  try dsimp only
  repeat' first
    | with_reducible assumption
    | with_reducible apply State.count_keeps
    | with_reducible apply State.wr_keeps

theorem State.lastErr_keeps {q : List Instr} {s : State} (h : Keeps q s) (a0 a1 a2 a3) : Keeps q (State.lastErr s a0 a1 a2 a3) := by
  unfold State.lastErr
  try dsimp only
  repeat' first
    | with_reducible assumption
    | with_reducible apply State.wr_keeps
    | with_reducible apply keeps_foldl
    | split

theorem State.defer_keeps {q : List Instr} {s : State} (h : Keeps q s) (a0 a1) : Keeps q (State.defer s a0 a1) := by
  unfold State.defer
  try dsimp only
  repeat' first
    | with_reducible assumption
    | with_reducible apply State.count_keeps
    | with_reducible apply State.countEs_keeps

end Sys2Proof.Machine
end

