-- ==== Sys2Proof/Laws/KeepsQueue.lean ====
section
/-!
SUPPORT. The operations of Machine/Queue.lean keep the queue and the canonical form of every map (`Keeps`).
-/
namespace Sys2Proof.Machine

theorem State.updateLock_keeps {q : List Instr} {s : State} (h : Keeps q s) (a0 a1) : Keeps q (State.updateLock s a0 a1) := by
  unfold State.updateLock
  try dsimp only
  repeat' first
    | with_reducible assumption
    | with_reducible apply State.wr_keeps

theorem State.setSlot_keeps {q : List Instr} {s : State} (h : Keeps q s) (a0 a1 a2 a3) : Keeps q (State.setSlot s a0 a1 a2 a3) := by
  unfold State.setSlot
  try dsimp only
  repeat' first
    | with_reducible assumption
    | with_reducible apply State.updateLock_keeps
    | with_reducible apply State.wr_keeps
    | with_reducible apply keeps_foldl
    | split

theorem State.setSlotStep_keeps {q : List Instr} {s : State} (h : Keeps q s) (a0 a1 a2 a3) : Keeps q (State.setSlotStep s a0 a1 a2 a3) := by
  unfold State.setSlotStep
  try dsimp only
  repeat' first
    | with_reducible assumption
    | with_reducible apply State.wr64_keeps
    | with_reducible apply keeps_foldl
    | split

theorem State.setSeal_keeps {q : List Instr} {s : State} (h : Keeps q s) (a0 a1 a2 a3) : Keeps q (State.setSeal s a0 a1 a2 a3) := by
  unfold State.setSeal
  try dsimp only
  repeat' first
    | with_reducible assumption
    | with_reducible apply State.setJob_keeps

theorem State.newest_keeps {q : List Instr} {s : State} (h : Keeps q s) (a0 a1 a2) : Keeps q (State.newest s a0 a1 a2) := by
  unfold State.newest
  try dsimp only
  repeat' first
    | with_reducible assumption
    | with_reducible apply State.wr_keeps

theorem State.queueIrq_keeps {q : List Instr} {s : State} (h : Keeps q s) (a0) : Keeps q (State.queueIrq s a0) := by
  unfold State.queueIrq
  try dsimp only
  repeat' first
    | with_reducible assumption
    | with_reducible apply State.msix'_keeps
    | with_reducible apply State.setQueue_keeps

theorem State.recordIrq_keeps {q : List Instr} {s : State} (h : Keeps q s) (a0 a1) : Keeps q (State.recordIrq s a0 a1) := by
  unfold State.recordIrq
  try dsimp only
  repeat' first
    | with_reducible assumption
    | with_reducible apply State.queueIrq_keeps
    | with_reducible apply State.setQueue_keeps
    | with_reducible apply keeps_foldl
    | split

theorem State.writeRecord_keeps {q : List Instr} {s : State} (h : Keeps q s) (a0 a1 a2) : Keeps q (State.writeRecord s a0 a1 a2) := by
  unfold State.writeRecord
  try dsimp only
  repeat' first
    | with_reducible assumption
    | with_reducible apply State.lastErr_keeps
    | with_reducible apply State.recordIrq_keeps
    | with_reducible apply State.setQueue_keeps
    | with_reducible apply State.store_keeps
    | with_reducible apply State.trace_keeps
    | with_reducible apply State.wr_keeps

theorem State.advanceHead_keeps {q : List Instr} {s : State} (h : Keeps q s) (a0 a1) : Keeps q (State.advanceHead s a0 a1) := by
  induction a1 generalizing s a0 with
  | zero => exact h
  | succ _ ih =>
    unfold State.advanceHead
    try dsimp only
    repeat' first
      | with_reducible assumption
      | with_reducible apply ih
      | with_reducible apply State.setQueue_keeps
      | with_reducible apply State.wr_keeps
      | with_reducible apply keeps_foldl
      | split

theorem State.endDesc_keeps {q : List Instr} {s : State} (h : Keeps q s) (a0 a1) : Keeps q (State.endDesc s a0 a1) := by
  unfold State.endDesc
  try dsimp only
  repeat' first
    | with_reducible assumption
    | with_reducible apply State.advanceHead_keeps
    | with_reducible apply State.setQueue_keeps

theorem State.refuseRecord_keeps {q : List Instr} {s : State} (h : Keeps q s) (a0 a1) : Keeps q (State.refuseRecord s a0 a1) := by
  unfold State.refuseRecord
  try dsimp only
  repeat' first
    | with_reducible assumption
    | with_reducible apply State.countRefusal_keeps
    | with_reducible apply State.event_keeps
    | with_reducible apply State.trace_keeps
    | with_reducible apply State.writeRecord_keeps
    | with_reducible apply keeps_foldl
    | split

theorem State.setList_keeps {q : List Instr} {s : State} (h : Keeps q s) (a0) : Keeps q (State.setList s a0) := by
  unfold State.setList
  try dsimp only
  repeat' first
    | with_reducible assumption
    | with_reducible apply keeps_foldl
    | split
    | (with_reducible refine Keeps.upd ?_ rfl ?_ ?_ ?_ ?_ ?_ ?_ ?_ ?_ ?_ ?_ ?_ ?_ ?_ ?_ ?_ ?_ ?_)
    | with_reducible exact (fun h => h)

theorem State.askHost_keeps {q : List Instr} {s : State} (h : Keeps q s) (a0 a1 a2) : Keeps q (State.askHost s a0 a1 a2) := by
  unfold State.askHost
  try dsimp only
  repeat' first
    | with_reducible assumption
    | with_reducible apply State.readHost_keeps
    | with_reducible apply keeps_foldl
    | split

theorem State.fetch_keeps {q : List Instr} {s : State} (h : Keeps q s) (a0) : Keeps q (State.fetch s a0) := by
  unfold State.fetch
  try dsimp only
  repeat' first
    | with_reducible assumption
    | with_reducible apply State.askHost_keeps
    | with_reducible apply State.dropExt_keeps
    | with_reducible apply State.setList_keeps
    | with_reducible apply State.touchTagged_keeps
    | with_reducible apply keeps_foldl
    | split

theorem State.completeInstr_keeps {q : List Instr} {s : State} (h : Keeps q s) (a0 a1) : Keeps q (State.completeInstr s a0 a1) := by
  unfold State.completeInstr
  try dsimp only
  repeat' first
    | with_reducible assumption
    | with_reducible apply State.countEs_keeps
    | with_reducible apply State.dropExt_keeps
    | with_reducible apply State.fetch_keeps
    | with_reducible apply State.setList_keeps
    | with_reducible apply keeps_foldl
    | split
    | intro _

theorem State.endWith_keeps {q : List Instr} {s : State} (h : Keeps q s) (a0 a1 a2) : Keeps q (State.endWith s a0 a1 a2) := by
  unfold State.endWith
  try dsimp only
  repeat' first
    | with_reducible assumption
    | with_reducible apply State.setList_keeps

theorem State.haltSession_keeps {q : List Instr} {s : State} (h : Keeps q s) (a0 a1) : Keeps q (State.haltSession s a0 a1) := by
  unfold State.haltSession
  try dsimp only
  repeat' first
    | with_reducible assumption
    | with_reducible apply State.event_keeps
    | with_reducible apply State.setSess_keeps
    | with_reducible apply State.wr_keeps

theorem State.leaveSession_keeps {q : List Instr} {s : State} (h : Keeps q s) (a0 a1) : Keeps q (State.leaveSession s a0 a1) := by
  unfold State.leaveSession
  try dsimp only
  repeat' first
    | with_reducible assumption
    | with_reducible apply State.haltSession_keeps
    | with_reducible apply State.setSess_keeps
    | with_reducible apply State.wr_keeps
    | with_reducible apply keeps_foldl
    | split

theorem State.forget_keeps {q : List Instr} {s : State} (h : Keeps q s) (a0 a1) : Keeps q (State.forget s a0 a1) := by
  unfold State.forget
  try dsimp only
  repeat' first
    | with_reducible assumption
    | with_reducible apply State.leaveSession_keeps
    | with_reducible apply keeps_foldl
    | split
    | (with_reducible refine Keeps.upd ?_ rfl ?_ ?_ ?_ ?_ ?_ ?_ ?_ ?_ ?_ ?_ ?_ ?_ ?_ ?_ ?_ ?_ ?_)
    | with_reducible exact (fun h => h)

theorem State.countLate_keeps {q : List Instr} {s : State} (h : Keeps q s) (a0 a1) : Keeps q (State.countLate s a0 a1) := by
  unfold State.countLate
  try dsimp only
  repeat' first
    | with_reducible assumption
    | with_reducible apply State.count_keeps
    | with_reducible apply State.event_keeps
    | with_reducible apply keeps_foldl
    | split

theorem State.closeList_keeps {q : List Instr} {s : State} (h : Keeps q s) (a0 a1) : Keeps q (State.closeList s a0 a1) := by
  unfold State.closeList
  try dsimp only
  repeat' first
    | with_reducible assumption
    | with_reducible apply State.countEs_keeps
    | with_reducible apply State.countLate_keeps
    | with_reducible apply State.countRefusal_keeps
    | with_reducible apply State.endDesc_keeps
    | with_reducible apply State.forget_keeps
    | with_reducible apply State.setQueue_keeps
    | with_reducible apply State.trace_keeps
    | with_reducible apply State.writeRecord_keeps
    | with_reducible apply keeps_foldl
    | split
    | (with_reducible refine Keeps.upd ?_ rfl ?_ ?_ ?_ ?_ ?_ ?_ ?_ ?_ ?_ ?_ ?_ ?_ ?_ ?_ ?_ ?_ ?_)
    | with_reducible exact (fun h => h)

theorem State.dispatch_keeps {q : List Instr} {s : State} (h : Keeps q s) (a0) : Keeps q (State.dispatch s a0) := by
  unfold State.dispatch
  try dsimp only
  repeat' first
    | with_reducible assumption
    | with_reducible apply State.countEs_keeps
    | with_reducible apply State.fetch_keeps
    | with_reducible apply State.setList_keeps
    | with_reducible apply State.trace_keeps

theorem State.reportDone_keeps {q : List Instr} {s : State} (h : Keeps q s) (a0 a1 a2) : Keeps q (State.reportDone s a0 a1 a2) := by
  unfold State.reportDone
  try dsimp only
  repeat' first
    | with_reducible assumption
    | with_reducible apply State.setSeal_keeps
    | with_reducible apply State.setSlot_keeps
    | with_reducible apply keeps_foldl
    | split

theorem State.closeSlot_keeps {q : List Instr} {s : State} (h : Keeps q s) (a0) : Keeps q (State.closeSlot s a0) := by
  unfold State.closeSlot
  try dsimp only
  repeat' first
    | with_reducible assumption
    | with_reducible apply State.completeInstr_keeps
    | with_reducible apply State.reportDone_keeps
    | with_reducible apply keeps_foldl
    | split

theorem State.settleN_keeps {q : List Instr} {s : State} (h : Keeps q s) (a0) : Keeps q (State.settleN s a0) := by
  induction a0 generalizing s with
  | zero => exact h
  | succ _ ih =>
    unfold State.settleN
    try dsimp only
    repeat' first
      | with_reducible assumption
      | with_reducible apply ih
      | with_reducible apply State.closeList_keeps
      | with_reducible apply State.closeSlot_keeps
      | with_reducible apply State.dispatch_keeps
      | with_reducible apply keeps_foldl
      | split

theorem State.settle_keeps {q : List Instr} {s : State} (h : Keeps q s) : Keeps q (State.settle s) := by
  unfold State.settle
  try dsimp only
  repeat' first
    | with_reducible assumption
    | with_reducible apply State.settleN_keeps

theorem State.startInstr_keeps {q : List Instr} {s : State} (h : Keeps q s) (a0 a1) : Keeps q (State.startInstr s a0 a1) := by
  unfold State.startInstr
  try dsimp only
  repeat' first
    | with_reducible assumption
    | with_reducible apply State.trace_keeps

end Sys2Proof.Machine
end

