-- ==== Sys2Proof/Laws/KeepsAdmission.lean ====
section
/-!
SUPPORT. The operations of Machine/Admission.lean keep the queue and the canonical form of every map (`Keeps`).
-/
namespace Sys2Proof.Machine

theorem State.dropCandidate_keeps {q : List Instr} {s : State} (h : Keeps q s) (a0) : Keeps q (State.dropCandidate s a0) := by
  unfold State.dropCandidate
  try dsimp only
  repeat' first
    | with_reducible assumption
    | with_reducible apply State.dropExt_keeps
    | with_reducible apply keeps_foldl
    | split

theorem State.nextCandidate_keeps {q : List Instr} {s : State} (h : Keeps q s) (a0) : Keeps q (State.nextCandidate s a0) := by
  unfold State.nextCandidate
  try dsimp only
  repeat' first
    | with_reducible assumption
    | with_reducible apply State.dropCandidate_keeps
    | with_reducible apply State.setQueue_keeps
    | with_reducible apply State.wr_keeps

theorem State.takeUp_keeps {q : List Instr} {s : State} (h : Keeps q s) (a0 a1) : Keeps q (State.takeUp s a0 a1) := by
  unfold State.takeUp
  try dsimp only
  repeat' first
    | with_reducible assumption
    | with_reducible apply State.nextCandidate_keeps
    | with_reducible apply State.setQueue_keeps
    | with_reducible apply State.wr_keeps
    | with_reducible apply keeps_foldl
    | split
    | (with_reducible refine Keeps.upd ?_ rfl ?_ ?_ ?_ ?_ ?_ ?_ ?_ ?_ ?_ ?_ ?_ ?_ ?_ ?_ ?_ ?_ ?_)
    | with_reducible exact (fun h => h)

theorem State.stall_keeps {q : List Instr} {s : State} (h : Keeps q s) (a0) : Keeps q (State.stall s a0) := by
  unfold State.stall
  try dsimp only
  repeat' first
    | with_reducible assumption
    | with_reducible apply State.wr_keeps

theorem State.endCandidate_keeps {q : List Instr} {s : State} (h : Keeps q s) (a0 a1) : Keeps q (State.endCandidate s a0 a1) := by
  unfold State.endCandidate
  try dsimp only
  repeat' first
    | with_reducible assumption
    | with_reducible apply State.defer_keeps
    | with_reducible apply State.endDesc_keeps
    | with_reducible apply State.nextCandidate_keeps
    | with_reducible apply State.refuseRecord_keeps
    | with_reducible apply State.setQueue_keeps
    | with_reducible apply State.stall_keeps
    | with_reducible apply State.writeRecord_keeps
    | with_reducible apply keeps_foldl
    | split

theorem State.touchCandidate_keeps {q : List Instr} {s : State} (h : Keeps q s) (a0) : Keeps q (State.touchCandidate s a0) := by
  unfold State.touchCandidate
  try dsimp only
  repeat' first
    | with_reducible assumption
    | with_reducible apply State.askHost_keeps
    | with_reducible apply State.touch_keeps
    | with_reducible apply keeps_foldl
    | split

theorem State.testCandidate_keeps {q : List Instr} {s : State} (h : Keeps q s) (a0) : Keeps q (State.testCandidate s a0) := by
  unfold State.testCandidate
  try dsimp only
  repeat' first
    | with_reducible assumption
    | with_reducible apply State.endCandidate_keeps
    | with_reducible apply State.settle_keeps
    | with_reducible apply State.stall_keeps
    | with_reducible apply State.takeUp_keeps
    | with_reducible apply State.touchCandidate_keeps
    | with_reducible apply keeps_foldl
    | split

theorem State.refuseDiscarded_keeps {q : List Instr} {s : State} (h : Keeps q s) (a0 a1) : Keeps q (State.refuseDiscarded s a0 a1) := by
  induction a1 generalizing s a0 with
  | zero => exact h
  | succ _ ih =>
    unfold State.refuseDiscarded
    try dsimp only
    repeat' first
      | with_reducible assumption
      | with_reducible apply ih
      | with_reducible apply State.endCandidate_keeps
      | with_reducible apply keeps_foldl
      | split

theorem State.leaveWaiting_keeps {q : List Instr} {s : State} (h : Keeps q s) (a0 a1) : Keeps q (State.leaveWaiting s a0 a1) := by
  unfold State.leaveWaiting
  try dsimp only
  repeat' first
    | with_reducible assumption
    | with_reducible apply State.defer_keeps
    | with_reducible apply State.stall_keeps
    | with_reducible apply keeps_foldl
    | split

theorem State.turn_keeps {q : List Instr} {s : State} (h : Keeps q s) (a0 a1 a2) : Keeps q (State.turn s a0 a1 a2) := by
  induction a1 generalizing s a0 a2 with
  | zero => exact h
  | succ _ ih =>
    unfold State.turn
    try dsimp only
    repeat' first
      | with_reducible assumption
      | with_reducible apply ih
      | with_reducible apply State.dispatch_keeps
      | with_reducible apply State.endCandidate_keeps
      | with_reducible apply State.leaveWaiting_keeps
      | with_reducible apply State.settle_keeps
      | with_reducible apply State.stall_keeps
      | with_reducible apply State.takeUp_keeps
      | with_reducible apply State.touchCandidate_keeps
      | with_reducible apply keeps_foldl
      | split

theorem State.round_keeps {q : List Instr} {s : State} (h : Keeps q s) (a0) : Keeps q (State.round s a0) := by
  unfold State.round
  try dsimp only
  repeat' first
    | with_reducible assumption
    | with_reducible apply State.leaveWaiting_keeps
    | with_reducible apply State.turn_keeps
    | with_reducible apply keeps_foldl
    | split
    | intro _

theorem State.refill_keeps {q : List Instr} {s : State} (h : Keeps q s) (a0) : Keeps q (State.refill s a0) := by
  unfold State.refill
  try dsimp only
  repeat' first
    | with_reducible assumption
    | with_reducible apply State.defer_keeps
    | with_reducible apply State.setQueue_keeps
    | with_reducible apply State.wr_keeps
    | with_reducible apply keeps_foldl
    | split

theorem State.post_keeps {q : List Instr} {s : State} (h : Keeps q s) (a0 a1 a2) : Keeps q (State.post s a0 a1 a2) := by
  unfold State.post
  try dsimp only
  repeat' first
    | with_reducible assumption
    | with_reducible apply State.store_keeps
    | with_reducible apply State.wr_keeps

theorem State.startWindow_keeps {q : List Instr} {s : State} (h : Keeps q s) (a0) : Keeps q (State.startWindow s a0) := by
  unfold State.startWindow
  try dsimp only
  repeat' first
    | with_reducible assumption
    | with_reducible apply State.refill_keeps
    | with_reducible apply State.testCandidate_keeps
    | with_reducible apply keeps_foldl
    | split

theorem execAdmCfgWrite_keeps {q : List Instr} {s : State} (h : Keeps q s) (a0 a1 a2) : KeepsNext q (execAdmCfgWrite a0 a1 a2 s) := by
  unfold execAdmCfgWrite
  try dsimp only
  repeat' first
    | with_reducible assumption
    | with_reducible apply keepsNext_next
    | with_reducible apply State.wr_keeps
    | with_reducible apply keeps_foldl
    | split

theorem execAdmQuotaWindowWrite_keeps {q : List Instr} {s : State} (h : Keeps q s) (a0 a1 a2 a3) : KeepsNext q (execAdmQuotaWindowWrite a0 a1 a2 a3 s) := by
  unfold execAdmQuotaWindowWrite
  try dsimp only
  repeat' first
    | with_reducible assumption
    | with_reducible apply keepsNext_next
    | with_reducible apply State.wr_keeps
    | with_reducible apply keeps_foldl
    | split

theorem execAdmClearRefused_keeps {q : List Instr} {s : State} (h : Keeps q s) (a0 a1) : KeepsNext q (execAdmClearRefused a0 a1 s) := by
  unfold execAdmClearRefused
  try dsimp only
  repeat' first
    | with_reducible assumption
    | with_reducible apply keepsNext_next
    | with_reducible apply State.wr_keeps
    | with_reducible apply keeps_foldl
    | split

theorem execAdmClearDeferred_keeps {q : List Instr} {s : State} (h : Keeps q s) (a0 a1) : KeepsNext q (execAdmClearDeferred a0 a1 s) := by
  unfold execAdmClearDeferred
  try dsimp only
  repeat' first
    | with_reducible assumption
    | with_reducible apply keepsNext_next
    | with_reducible apply State.wr_keeps
    | with_reducible apply keeps_foldl
    | split

theorem State.allocateJob_keeps {q : List Instr} {s : State} (h : Keeps q s) (a0 a1) : Keeps q (State.allocateJob s a0 a1) := by
  unfold State.allocateJob
  try dsimp only
  repeat' first
    | with_reducible assumption
    | with_reducible apply State.wr_keeps
    | with_reducible apply keeps_foldl
    | split

theorem State.writeQueCtl_keeps {q : List Instr} {s : State} (h : Keeps q s) (a0 a1) : Keeps q (State.writeQueCtl s a0 a1) := by
  unfold State.writeQueCtl
  try dsimp only
  repeat' first
    | with_reducible assumption
    | with_reducible apply State.allocateJob_keeps
    | with_reducible apply State.event_keeps
    | with_reducible apply State.wr_keeps
    | with_reducible apply keeps_foldl
    | split

theorem execQueueEnable_keeps {q : List Instr} {s : State} (h : Keeps q s) (a0 a1 a2) : KeepsNext q (execQueueEnable a0 a1 a2 s) := by
  unfold execQueueEnable
  try dsimp only
  repeat' first
    | with_reducible assumption
    | with_reducible apply keepsNext_next
    | with_reducible apply State.writeQueCtl_keeps
    | with_reducible apply keeps_foldl
    | split

theorem execQueueDisable_keeps {q : List Instr} {s : State} (h : Keeps q s) (a0 a1 a2) : KeepsNext q (execQueueDisable a0 a1 a2 s) := by
  unfold execQueueDisable
  try dsimp only
  repeat' first
    | with_reducible assumption
    | with_reducible apply keepsNext_next
    | with_reducible apply State.writeQueCtl_keeps
    | with_reducible apply keeps_foldl
    | split

theorem State.abandonRing_keeps {q : List Instr} {s : State} (h : Keeps q s) (a0) : Keeps q (State.abandonRing s a0) := by
  unfold State.abandonRing
  try dsimp only
  repeat' first
    | with_reducible assumption
    | with_reducible apply State.setQueue_keeps
    | with_reducible apply State.wr_keeps
    | with_reducible apply keeps_foldl
    | split
    | (with_reducible refine Keeps.upd ?_ rfl ?_ ?_ ?_ ?_ ?_ ?_ ?_ ?_ ?_ ?_ ?_ ?_ ?_ ?_ ?_ ?_ ?_)
    | with_reducible exact (fun h => h)

theorem execRingConfigWrite_keeps {q : List Instr} {s : State} (h : Keeps q s) (a0 a1 a2 a3) : KeepsNext q (execRingConfigWrite a0 a1 a2 a3 s) := by
  unfold execRingConfigWrite
  try dsimp only
  repeat' first
    | with_reducible assumption
    | with_reducible apply keepsNext_next
    | with_reducible apply State.abandonRing_keeps
    | with_reducible apply State.event_keeps
    | with_reducible apply State.wr_keeps
    | with_reducible apply keeps_foldl
    | split

theorem State.restartCpl_keeps {q : List Instr} {s : State} (h : Keeps q s) (a0) : Keeps q (State.restartCpl s a0) := by
  unfold State.restartCpl
  try dsimp only
  repeat' first
    | with_reducible assumption
    | with_reducible apply State.setQueue_keeps
    | with_reducible apply State.wr_keeps

theorem execCplRingConfigWrite_keeps {q : List Instr} {s : State} (h : Keeps q s) (a0 a1 a2 a3) : KeepsNext q (execCplRingConfigWrite a0 a1 a2 a3 s) := by
  unfold execCplRingConfigWrite
  try dsimp only
  repeat' first
    | with_reducible assumption
    | with_reducible apply keepsNext_next
    | with_reducible apply State.restartCpl_keeps
    | with_reducible apply State.wr_keeps
    | with_reducible apply keeps_foldl
    | split

theorem execCplConsume_keeps {q : List Instr} {s : State} (h : Keeps q s) (a0 a1 a2) : KeepsNext q (execCplConsume a0 a1 a2 s) := by
  unfold execCplConsume
  try dsimp only
  repeat' first
    | with_reducible assumption
    | with_reducible apply keepsNext_next
    | with_reducible apply State.event_keeps
    | with_reducible apply State.setQueue_keeps
    | with_reducible apply State.wr_keeps
    | with_reducible apply keeps_foldl
    | split

theorem execIrqTimeout_keeps {q : List Instr} {s : State} (h : Keeps q s) (a0) : KeepsNext q (execIrqTimeout a0 s) := by
  unfold execIrqTimeout
  try dsimp only
  repeat' first
    | with_reducible assumption
    | with_reducible apply keepsNext_next
    | with_reducible apply State.queueIrq_keeps
    | with_reducible apply keeps_foldl
    | split

theorem State.changeSync_keeps {q : List Instr} {s : State} (h : Keeps q s) (a0 a1 a2) : Keeps q (State.changeSync s a0 a1 a2) := by
  unfold State.changeSync
  try dsimp only
  repeat' first
    | with_reducible assumption
    | with_reducible apply State.completeInstr_keeps
    | with_reducible apply State.setSync_keeps
    | with_reducible apply keeps_foldl
    | split
    | intro _

theorem State.signalAdd_keeps {q : List Instr} {s : State} (h : Keeps q s) (a0 a1 a2) : Keeps q (State.signalAdd s a0 a1 a2) := by
  unfold State.signalAdd
  try dsimp only
  repeat' first
    | with_reducible assumption
    | with_reducible apply State.changeSync_keeps

theorem State.signalMax_keeps {q : List Instr} {s : State} (h : Keeps q s) (a0 a1 a2) : Keeps q (State.signalMax s a0 a1 a2) := by
  unfold State.signalMax
  try dsimp only
  repeat' first
    | with_reducible assumption
    | with_reducible apply State.changeSync_keeps

theorem execSyncHiWrite_keeps {q : List Instr} {s : State} (h : Keeps q s) (a0 a1 a2 a3) : KeepsNext q (execSyncHiWrite a0 a1 a2 a3 s) := by
  unfold execSyncHiWrite
  try dsimp only
  repeat' first
    | with_reducible assumption
    | with_reducible apply keepsNext_next
    | with_reducible apply keeps_foldl
    | split
    | (with_reducible refine Keeps.upd ?_ rfl ?_ ?_ ?_ ?_ ?_ ?_ ?_ ?_ ?_ ?_ ?_ ?_ ?_ ?_ ?_ ?_ ?_)
    | with_reducible exact (fun h => h)
    | with_reducible exact (fun h => SMap.wf_set h _ _)

end Sys2Proof.Machine
end

