-- ==== Sys2Proof/Laws/KeepsArbiter.lean ====
section
/-!
SUPPORT. The operations of Machine/Arbiter.lean keep the queue and the canonical form of every map (`Keeps`).
-/
namespace Sys2Proof.Machine

theorem State.setArb_keeps {q : List Instr} {s : State} (h : Keeps q s) (a0 a1) : Keeps q (State.setArb s a0 a1) := by
  unfold State.setArb
  try dsimp only
  repeat' first
    | with_reducible assumption
    | with_reducible apply keeps_foldl
    | split
    | (with_reducible refine Keeps.upd ?_ rfl ?_ ?_ ?_ ?_ ?_ ?_ ?_ ?_ ?_ ?_ ?_ ?_ ?_ ?_ ?_ ?_ ?_)
    | with_reducible exact (fun h => h)
    | with_reducible exact (fun h => SMap.wf_set h _ _)

theorem State.joinArb_keeps {q : List Instr} {s : State} (h : Keeps q s) (a0 a1) : Keeps q (State.joinArb s a0 a1) := by
  unfold State.joinArb
  try dsimp only
  repeat' first
    | with_reducible assumption
    | with_reducible apply State.emit_keeps
    | with_reducible apply State.setArb_keeps
    | with_reducible apply keeps_foldl
    | split

theorem State.runArb_keeps {q : List Instr} {s : State} (h : Keeps q s) (a0 a1) : Keeps q (State.runArb s a0 a1) := by
  unfold State.runArb
  try dsimp only
  repeat' first
    | with_reducible assumption
    | with_reducible apply State.emit_keeps
    | with_reducible apply State.setArb_keeps
    | with_reducible apply keeps_foldl
    | split
    | intro _

theorem execAgePromotion_keeps {q : List Instr} {s : State} (h : Keeps q s) (a0 a1 a2) : KeepsNext q (execAgePromotion a0 a1 a2 s) := by
  unfold execAgePromotion
  try dsimp only
  repeat' first
    | with_reducible assumption
    | with_reducible apply keepsNext_next
    | with_reducible apply State.joinArb_keeps
    | with_reducible apply State.runArb_keeps
    | with_reducible apply keeps_foldl
    | split
    | intro _

end Sys2Proof.Machine
end

