-- ==== Sys2Proof/Laws/KeepsCounters.lean ====
section
/-!
SUPPORT. The operations of Machine/Counters.lean keep the queue and the canonical form of every map (`Keeps`).
-/
namespace Sys2Proof.Machine

theorem State.advCl_keeps {q : List Instr} {s : State} (h : Keeps q s) (a0 a1) : Keeps q (State.advCl s a0 a1) := by
  unfold State.advCl
  try dsimp only
  repeat' first
    | with_reducible assumption
    | with_reducible apply State.bump48_keeps
    | (with_reducible refine State.bump48_keeps_of (e := by assumption) ?_)
    | with_reducible apply State.wrBit_keeps
    | with_reducible apply keeps_foldl_fst
    | with_reducible apply keeps_foldl_snd
    | with_reducible apply keeps_foldl
    | split
    | (with_reducible refine Keeps.upd ?_ rfl ?_ ?_ ?_ ?_ ?_ ?_ ?_ ?_ ?_ ?_ ?_ ?_ ?_ ?_ ?_ ?_ ?_)
    | with_reducible exact (fun h => h)

theorem State.advEs_keeps {q : List Instr} {s : State} (h : Keeps q s) (a0 a1) : Keeps q (State.advEs s a0 a1) := by
  unfold State.advEs
  try dsimp only
  repeat' first
    | with_reducible assumption
    | with_reducible apply State.bump48_keeps
    | (with_reducible refine State.bump48_keeps_of (e := by assumption) ?_)
    | with_reducible apply State.wrBit_keeps
    | with_reducible apply keeps_foldl_fst
    | with_reducible apply keeps_foldl_snd
    | with_reducible apply keeps_foldl
    | split
    | (with_reducible refine Keeps.upd ?_ rfl ?_ ?_ ?_ ?_ ?_ ?_ ?_ ?_ ?_ ?_ ?_ ?_ ?_ ?_ ?_ ?_ ?_)
    | with_reducible exact (fun h => h)

theorem State.advClAll_keeps {q : List Instr} {s : State} (h : Keeps q s) (a0) : Keeps q (State.advClAll s a0) := by
  unfold State.advClAll
  try dsimp only
  repeat' first
    | with_reducible assumption
    | with_reducible apply State.advCl_keeps
    | with_reducible apply keeps_foldl
    | split
    | intro _

theorem State.advEsAll_keeps {q : List Instr} {s : State} (h : Keeps q s) (a0) : Keeps q (State.advEsAll s a0) := by
  unfold State.advEsAll
  try dsimp only
  repeat' first
    | with_reducible assumption
    | with_reducible apply State.advEs_keeps
    | with_reducible apply keeps_foldl
    | split
    | intro _

theorem State.advDie_keeps {q : List Instr} {s : State} (h : Keeps q s) (a0) : Keeps q (State.advDie s a0) := by
  unfold State.advDie
  try dsimp only
  repeat' first
    | with_reducible assumption
    | with_reducible apply State.advClAll_keeps
    | with_reducible apply State.advEsAll_keeps
    | with_reducible apply keeps_foldl
    | split
    | intro _

theorem State.advAt_keeps {q : List Instr} {s : State} (h : Keeps q s) (a0) : Keeps q (State.advAt s a0) := by
  unfold State.advAt
  try dsimp only
  repeat' first
    | with_reducible assumption
    | with_reducible apply State.advClAll_keeps
    | with_reducible apply State.advDie_keeps
    | with_reducible apply State.advEsAll_keeps
    | with_reducible apply keeps_foldl
    | split
    | intro _

theorem State.zeroCounters_keeps {q : List Instr} {s : State} (h : Keeps q s) (a0) : Keeps q (State.zeroCounters s a0) := by
  unfold State.zeroCounters
  try dsimp only
  repeat' first
    | with_reducible assumption
    | with_reducible apply State.wr64_keeps
    | with_reducible apply keeps_foldl
    | split
    | intro _

theorem State.counterRecord_keeps {q : List Instr} {s : State} (h : Keeps q s) (a0 a1 a2 a3 a4 a5) : Keeps q (State.counterRecord s a0 a1 a2 a3 a4 a5) := by
  unfold State.counterRecord
  try dsimp only
  repeat' first
    | with_reducible assumption
    | with_reducible apply State.tracePushAt_keeps

theorem State.sampleEs_keeps {q : List Instr} {s : State} (h : Keeps q s) (a0 a1) : Keeps q (State.sampleEs s a0 a1) := by
  unfold State.sampleEs
  try dsimp only
  repeat' first
    | with_reducible assumption
    | with_reducible apply State.advEsAll_keeps
    | with_reducible apply State.counterRecord_keeps
    | with_reducible apply keeps_foldl
    | split
    | intro _

theorem State.sampleCl_keeps {q : List Instr} {s : State} (h : Keeps q s) (a0 a1) : Keeps q (State.sampleCl s a0 a1) := by
  unfold State.sampleCl
  try dsimp only
  repeat' first
    | with_reducible assumption
    | with_reducible apply State.advClAll_keeps
    | with_reducible apply State.counterRecord_keeps
    | with_reducible apply keeps_foldl
    | split
    | intro _

theorem State.counterSample_keeps {q : List Instr} {s : State} (h : Keeps q s) : Keeps q (State.counterSample s) := by
  unfold State.counterSample
  try dsimp only
  repeat' first
    | with_reducible assumption
    | with_reducible apply State.event_keeps
    | with_reducible apply State.sampleCl_keeps
    | with_reducible apply State.sampleEs_keeps
    | with_reducible apply State.traceStamp_keeps
    | (with_reducible refine State.traceStamp_keeps_of (e := by assumption) ?_)
    | with_reducible apply State.wr_keeps
    | with_reducible apply keeps_foldl_fst
    | with_reducible apply keeps_foldl_snd
    | with_reducible apply keeps_foldl
    | split
    | (with_reducible refine Keeps.upd ?_ rfl ?_ ?_ ?_ ?_ ?_ ?_ ?_ ?_ ?_ ?_ ?_ ?_ ?_ ?_ ?_ ?_ ?_)
    | with_reducible exact (fun h => h)
    | with_reducible exact (fun h => SMap.wf_set h _ _)
    | with_reducible exact (fun h => SMap.wf_clear h _)
    | with_reducible exact (fun h => SMap.wf_filter h _)
    | with_reducible exact (Memory.wf_same rfl rfl)
    | with_reducible exact (fun _ => SMap.wf_foldl_set _ _ _ rfl)
    | exact (fun _ => rfl)
    | intro _

end Sys2Proof.Machine
end

