-- ==== Sys2Proof/Laws/KeepsWire.lean ====
section
/-!
SUPPORT. The operations of Machine/Wire.lean keep the queue and the canonical form of every map (`Keeps`).
-/
namespace Sys2Proof.Machine

theorem State.egress_keeps {q : List Instr} {s : State} (h : Keeps q s) (a0 a1 a2) : Keeps q (State.egress s a0 a1 a2) := by
  unfold State.egress
  try dsimp only
  repeat' first
    | with_reducible assumption
    | with_reducible apply State.count_keeps
    | with_reducible apply State.emit_keeps
    | with_reducible apply keeps_foldl
    | split
    | (with_reducible refine Keeps.upd ?_ rfl ?_ ?_ ?_ ?_ ?_ ?_ ?_ ?_ ?_ ?_ ?_ ?_ ?_ ?_ ?_ ?_ ?_)
    | with_reducible exact (fun h => h)

theorem State.sendFrame_keeps {q : List Instr} {s : State} (h : Keeps q s) (a0 a1 a2 a3 a4) : Keeps q (State.sendFrame s a0 a1 a2 a3 a4) := by
  unfold State.sendFrame
  try dsimp only
  repeat' first
    | with_reducible assumption
    | with_reducible apply State.egress_keeps

theorem State.sendHop_keeps {q : List Instr} {s : State} (h : Keeps q s) (a0 a1 a2 a3) : Keeps q (State.sendHop s a0 a1 a2 a3) := by
  unfold State.sendHop
  try dsimp only
  repeat' first
    | with_reducible assumption
    | with_reducible apply State.sendFrame_keeps

end Sys2Proof.Machine
end

