-- ==== Sys2Proof/Laws/KeepsConn.lean ====
section
/-!
SUPPORT. The operations of Machine/Conn.lean keep the queue and the canonical form of every map (`Keeps`).
-/
namespace Sys2Proof.Machine

theorem State.updateLanes_keeps {q : List Instr} {s : State} (h : Keeps q s) : Keeps q (State.updateLanes s) := by
  unfold State.updateLanes
  try dsimp only
  repeat' first
    | with_reducible assumption
    | with_reducible apply State.wr_keeps
    | with_reducible apply keeps_foldl
    | split
    | intro _

theorem State.putConn_keeps {q : List Instr} {s : State} (h : Keeps q s) (a0 a1) : Keeps q (State.putConn s a0 a1) := by
  unfold State.putConn
  try dsimp only
  repeat' first
    | with_reducible assumption
    | with_reducible apply State.setConn_keeps
    | with_reducible apply State.wr_keeps

theorem State.transmit_keeps {q : List Instr} {s : State} (h : Keeps q s) (a0 a1 a2 a3 a4) : Keeps q (State.transmit s a0 a1 a2 a3 a4) := by
  unfold State.transmit
  try dsimp only
  repeat' first
    | with_reducible assumption
    | with_reducible apply State.countEs_keeps
    | with_reducible apply State.sendFrame_keeps
    | with_reducible apply State.trace_keeps
    | with_reducible apply keeps_foldl
    | split

theorem State.sendReply_keeps {q : List Instr} {s : State} (h : Keeps q s) (a0 a1 a2 a3 a4) : Keeps q (State.sendReply s a0 a1 a2 a3 a4) := by
  unfold State.sendReply
  try dsimp only
  repeat' first
    | with_reducible assumption
    | with_reducible apply State.sendFrame_keeps
    | with_reducible apply keeps_foldl
    | split

theorem State.sendAck_keeps {q : List Instr} {s : State} (h : Keeps q s) (a0 a1 a2 a3) : Keeps q (State.sendAck s a0 a1 a2 a3) := by
  unfold State.sendAck
  try dsimp only
  repeat' first
    | with_reducible assumption
    | with_reducible apply State.sendReply_keeps

theorem State.sendConn_keeps {q : List Instr} {s : State} (h : Keeps q s) (a0 a1 a2 a3 a4 a5 a6 a7) : Keeps q (State.sendConn s a0 a1 a2 a3 a4 a5 a6 a7) := by
  unfold State.sendConn
  try dsimp only
  repeat' first
    | with_reducible assumption
    | with_reducible apply State.sendFrame_keeps

theorem State.sendCtrl_keeps {q : List Instr} {s t : State} {a0 a1 a2 a3 a4} (e : State.sendCtrl s a0 a1 a2 a3 a4 = some t) (h : Keeps q s) :
    Keeps q t := by
  unfold State.sendCtrl at e
  obtain ⟨port, -, rfl⟩ := Option.map_eq_some_iff.1 e
  exact State.sendFrame_keeps h _ _ _ _ _

theorem State.joinEgress_keeps {q : List Instr} {s : State} (h : Keeps q s) (a0 a1 a2 a3 a4) : Keeps q (State.joinEgress s a0 a1 a2 a3 a4) := by
  unfold State.joinEgress
  try dsimp only
  repeat' first
    | with_reducible assumption
    | with_reducible apply State.setArb_keeps

theorem State.drainPort_keeps {q : List Instr} {s : State} (h : Keeps q s) (a0) : Keeps q (State.drainPort s a0) := by
  unfold State.drainPort
  try dsimp only
  repeat' first
    | with_reducible assumption
    | with_reducible apply State.setArb_keeps
    | with_reducible apply State.transmit_keeps
    | with_reducible apply keeps_foldl
    | split
    | intro _

theorem State.drainEgress_keeps {q : List Instr} {s : State} (h : Keeps q s) : Keeps q (State.drainEgress s) := by
  unfold State.drainEgress
  try dsimp only
  repeat' first
    | with_reducible assumption
    | with_reducible apply State.drainPort_keeps
    | with_reducible apply keeps_foldl
    | split
    | intro _

theorem State.pump_keeps {q : List Instr} {s : State} (h : Keeps q s) (a0) : Keeps q (State.pump s a0) := by
  unfold State.pump
  try dsimp only
  repeat' first
    | with_reducible assumption
    | with_reducible apply State.joinEgress_keeps
    | with_reducible apply State.setConn_keeps
    | with_reducible apply keeps_foldl
    | split
    | intro _

theorem State.queueFrame_keeps {q : List Instr} {s : State} (h : Keeps q s) (a0 a1 a2) : Keeps q (State.queueFrame s a0 a1 a2) := by
  unfold State.queueFrame
  try dsimp only
  repeat' first
    | with_reducible assumption
    | with_reducible apply State.pump_keeps
    | with_reducible apply State.setConn_keeps

theorem State.addFault_keeps {q : List Instr} {s : State} (h : Keeps q s) (a0 a1 a2) : Keeps q (State.addFault s a0 a1 a2) := by
  unfold State.addFault
  try dsimp only
  repeat' first
    | with_reducible assumption
    | with_reducible apply State.setList_keeps
    | with_reducible apply keeps_foldl
    | split

theorem State.failRead_keeps {q : List Instr} {s : State} (h : Keeps q s) (a0) : Keeps q (State.failRead s a0) := by
  unfold State.failRead
  try dsimp only
  repeat' first
    | with_reducible assumption
    | with_reducible apply keeps_foldl
    | split
    | (with_reducible refine Keeps.upd ?_ rfl ?_ ?_ ?_ ?_ ?_ ?_ ?_ ?_ ?_ ?_ ?_ ?_ ?_ ?_ ?_ ?_ ?_)
    | with_reducible exact (fun h => h)
    | with_reducible exact (fun h => SMap.wf_set h _ _)
    | with_reducible exact (fun h => SMap.wf_clear h _)
    | with_reducible exact (fun h => SMap.wf_filter h _)
    | with_reducible exact (Memory.wf_same rfl rfl)

theorem State.failFrame_keeps {q : List Instr} {s : State} (h : Keeps q s) (a0) : Keeps q (State.failFrame s a0) := by
  unfold State.failFrame
  try dsimp only
  repeat' first
    | with_reducible assumption
    | with_reducible apply State.addFault_keeps
    | with_reducible apply keeps_foldl
    | split

theorem State.countFail_keeps {q : List Instr} {s : State} (h : Keeps q s) : Keeps q (State.countFail s) := by
  unfold State.countFail
  try dsimp only
  repeat' first
    | with_reducible assumption
    | with_reducible apply State.count_keeps
    | with_reducible apply State.event_keeps
    | with_reducible apply State.report_keeps

theorem State.failConn_keeps {q : List Instr} {s : State} (h : Keeps q s) (a0) : Keeps q (State.failConn s a0) := by
  unfold State.failConn
  try dsimp only
  repeat' first
    | with_reducible assumption
    | with_reducible apply State.countFail_keeps
    | with_reducible apply State.failFrame_keeps
    | with_reducible apply State.failRead_keeps
    | with_reducible apply State.putConn_keeps
    | with_reducible apply keeps_foldl
    | split
    | intro _

theorem State.openConn_keeps {q : List Instr} {s : State} (h : Keeps q s) (a0 a1 a2 a3 a4 a5) : Keeps q (State.openConn s a0 a1 a2 a3 a4 a5) := by
  unfold State.openConn
  try dsimp only
  repeat' first
    | with_reducible assumption
    | with_reducible apply State.putConn_keeps
    | with_reducible apply State.queueFrame_keeps
    | with_reducible apply State.sendConn_keeps

theorem State.bindReads_keeps {q : List Instr} {s : State} (h : Keeps q s) (a0 a1) : Keeps q (State.bindReads s a0 a1) := by
  unfold State.bindReads
  try dsimp only
  repeat' first
    | with_reducible assumption
    | with_reducible apply keeps_foldl
    | split
    | (with_reducible refine Keeps.upd ?_ rfl ?_ ?_ ?_ ?_ ?_ ?_ ?_ ?_ ?_ ?_ ?_ ?_ ?_ ?_ ?_ ?_ ?_)
    | with_reducible exact (fun h => h)

theorem State.sendOp_keeps {q : List Instr} {s : State} (h : Keeps q s) (a0 a1 a2 a3 a4) : Keeps q (State.sendOp s a0 a1 a2 a3 a4) := by
  unfold State.sendOp
  try dsimp only
  repeat' first
    | with_reducible assumption
    | with_reducible apply State.bindReads_keeps
    | with_reducible apply State.count_keeps
    | with_reducible apply State.countFail_keeps
    | with_reducible apply State.failFrame_keeps
    | with_reducible apply State.failRead_keeps
    | with_reducible apply State.openConn_keeps
    | with_reducible apply State.queueFrame_keeps
    | with_reducible apply keeps_foldl
    | split
    | (with_reducible refine Keeps.upd ?_ rfl ?_ ?_ ?_ ?_ ?_ ?_ ?_ ?_ ?_ ?_ ?_ ?_ ?_ ?_ ?_ ?_ ?_)
    | with_reducible exact (fun h => h)
    | with_reducible exact (fun h => SMap.wf_set h _ _)
    | with_reducible exact (fun h => SMap.wf_clear h _)
    | with_reducible exact (fun h => SMap.wf_filter h _)
    | with_reducible exact (Memory.wf_same rfl rfl)
    | with_reducible exact (fun _ => SMap.wf_foldl_set _ _ _ rfl)
    | exact (fun _ => rfl)
    | intro _

theorem State.serveWaiting_keeps {q : List Instr} {s : State} (h : Keeps q s) : Keeps q (State.serveWaiting s) := by
  unfold State.serveWaiting
  try dsimp only
  repeat' first
    | with_reducible assumption
    | with_reducible apply State.sendOp_keeps
    | with_reducible apply keeps_foldl
    | split
    | (with_reducible refine Keeps.upd ?_ rfl ?_ ?_ ?_ ?_ ?_ ?_ ?_ ?_ ?_ ?_ ?_ ?_ ?_ ?_ ?_ ?_ ?_)
    | with_reducible exact (fun h => h)
    | with_reducible exact (fun h => SMap.wf_set h _ _)
    | with_reducible exact (fun h => SMap.wf_clear h _)
    | with_reducible exact (fun h => SMap.wf_filter h _)
    | with_reducible exact (Memory.wf_same rfl rfl)
    | with_reducible exact (fun _ => SMap.wf_foldl_set _ _ _ rfl)
    | exact (fun _ => rfl)
    | intro _

theorem State.dropColl_keeps {q : List Instr} {s : State} (h : Keeps q s) (a0) : Keeps q (State.dropColl s a0) := by
  unfold State.dropColl
  try dsimp only
  repeat' first
    | with_reducible assumption
    | with_reducible apply keeps_foldl
    | split
    | (with_reducible refine Keeps.upd ?_ rfl ?_ ?_ ?_ ?_ ?_ ?_ ?_ ?_ ?_ ?_ ?_ ?_ ?_ ?_ ?_ ?_ ?_)
    | with_reducible exact (fun h => h)

theorem State.advance_keeps {q : List Instr} {s : State} (h : Keeps q s) : Keeps q (State.advance s) := by
  unfold State.advance
  try dsimp only
  repeat' first
    | with_reducible assumption
    | with_reducible apply State.completeInstr_keeps
    | with_reducible apply State.dropColl_keeps
    | with_reducible apply State.settle_keeps
    | with_reducible apply keeps_foldl
    | split
    | intro _

theorem State.moveConn_keeps {q : List Instr} {s : State} (h : Keeps q s) (a0) : Keeps q (State.moveConn s a0) := by
  unfold State.moveConn
  try dsimp only
  repeat' first
    | with_reducible assumption
    | with_reducible apply State.failConn_keeps
    | with_reducible apply State.pump_keeps
    | with_reducible apply State.setConn_keeps
    | with_reducible apply keeps_foldl
    | split

theorem State.subDown_keeps {q : List Instr} {s : State} (h : Keeps q s) (a0) : Keeps q (State.subDown s a0) := by
  unfold State.subDown
  try dsimp only
  repeat' first
    | with_reducible assumption
    | with_reducible apply State.event_keeps
    | with_reducible apply State.moveConn_keeps
    | with_reducible apply State.serveWaiting_keeps
    | with_reducible apply State.wrBit_keeps
    | with_reducible apply keeps_foldl
    | split
    | intro _

theorem State.dropPorts_keeps {q : List Instr} {s : State} (h : Keeps q s) : Keeps q (State.dropPorts s) := by
  unfold State.dropPorts
  try dsimp only
  repeat' first
    | with_reducible assumption
    | with_reducible apply State.subDown_keeps
    | with_reducible apply keeps_foldl
    | split
    | intro _

end Sys2Proof.Machine
end

