-- ==== Sys2Proof/Laws/KeepsJobs.lean ====
section
/-!
SUPPORT. The operations of Machine/Jobs.lean keep the queue and the canonical form of every map (`Keeps`).
-/
namespace Sys2Proof.Machine

theorem State.discardJob_keeps {q : List Instr} {s : State} (h : Keeps q s) (a0 a1) : Keeps q (State.discardJob s a0 a1) := by
  unfold State.discardJob
  try dsimp only
  repeat' first
    | with_reducible assumption
    | with_reducible apply State.refuseDiscarded_keeps
    | with_reducible apply State.setQueue_keeps
    | with_reducible apply State.settle_keeps
    | with_reducible apply keeps_foldl
    | split
    | (with_reducible refine Keeps.upd ?_ rfl ?_ ?_ ?_ ?_ ?_ ?_ ?_ ?_ ?_ ?_ ?_ ?_ ?_ ?_ ?_ ?_ ?_)
    | with_reducible exact (fun h => h)
    | with_reducible exact (fun h => SMap.wf_set h _ _)
    | with_reducible exact (fun h => SMap.wf_clear h _)
    | with_reducible exact (fun h => SMap.wf_filter h _)
    | with_reducible exact (Memory.wf_same rfl rfl)
    | with_reducible exact (fun _ => SMap.wf_foldl_set _ _ _ rfl)
    | exact (fun _ => rfl)
    | intro _

theorem State.traceJobFault_keeps {q : List Instr} {s : State} (h : Keeps q s) (a0 a1 a2) : Keeps q (State.traceJobFault s a0 a1 a2) := by
  unfold State.traceJobFault
  try dsimp only
  repeat' first
    | with_reducible assumption
    | with_reducible apply State.tracePush_keeps
    | with_reducible apply keeps_foldl
    | split
    | intro _

theorem State.loseJob_keeps {q : List Instr} {s : State} (h : Keeps q s) (a0 a1) : Keeps q (State.loseJob s a0 a1) := by
  unfold State.loseJob
  try dsimp only
  repeat' first
    | with_reducible assumption
    | with_reducible apply State.signalMax_keeps
    | with_reducible apply keeps_foldl
    | split
    | (with_reducible refine Keeps.upd ?_ rfl ?_ ?_ ?_ ?_ ?_ ?_ ?_ ?_ ?_ ?_ ?_ ?_ ?_ ?_ ?_ ?_ ?_)
    | with_reducible exact (fun h => h)
    | with_reducible exact (fun h => SMap.wf_set h _ _)
    | with_reducible exact (fun h => SMap.wf_clear h _)
    | with_reducible exact (fun h => SMap.wf_filter h _)
    | with_reducible exact (Memory.wf_same rfl rfl)
    | with_reducible exact (fun _ => SMap.wf_foldl_set _ _ _ rfl)
    | exact (fun _ => rfl)
    | exact (fun h => h)
    | exact (fun h => Memory.wf_setByte h _ _)
    | exact (fun h => Memory.wf_undefine h _)
    | exact (fun h => Memory.wf_undefineBut h _ _)
    | exact (fun h => poison_setPoison h _ _)
    | intro _

theorem State.faultEntry_keeps {q : List Instr} {s : State} (h : Keeps q s) (a0 a1 a2 a3) : Keeps q (State.faultEntry s a0 a1 a2 a3) := by
  unfold State.faultEntry
  try dsimp only
  repeat' first
    | with_reducible assumption
    | with_reducible apply State.count_keeps
    | with_reducible apply State.discardJob_keeps
    | with_reducible apply State.loseJob_keeps
    | with_reducible apply State.setJob_keeps
    | with_reducible apply State.setSlot_keeps
    | with_reducible apply State.traceJobFault_keeps
    | with_reducible apply State.wr_keeps
    | with_reducible apply State.wr64_keeps
    | with_reducible apply keeps_foldl
    | split
    | intro _

theorem State.actFault_keeps {q : List Instr} {s : State} (h : Keeps q s) (a0 a1) : Keeps q (State.actFault s a0 a1) := by
  unfold State.actFault
  try dsimp only
  repeat' first
    | with_reducible assumption
    | with_reducible apply State.faultEntry_keeps
    | with_reducible apply keeps_foldl
    | split
    | intro _

theorem State.floodFault_keeps {q : List Instr} {s : State} (h : Keeps q s) (a0 a1) : Keeps q (State.floodFault s a0 a1) := by
  unfold State.floodFault
  try dsimp only
  repeat' first
    | with_reducible assumption
    | with_reducible apply State.sendHop_keeps
    | with_reducible apply keeps_foldl
    | split
    | intro _

theorem State.markSeen_keeps {q : List Instr} {s : State} (h : Keeps q s) (a0 a1) : Keeps q (State.markSeen s a0 a1) := by
  unfold State.markSeen
  try dsimp only
  repeat' first
    | with_reducible assumption
    | with_reducible apply keeps_foldl
    | split
    | (with_reducible refine Keeps.upd ?_ rfl ?_ ?_ ?_ ?_ ?_ ?_ ?_ ?_ ?_ ?_ ?_ ?_ ?_ ?_ ?_ ?_ ?_)
    | with_reducible exact (fun h => h)

theorem State.declareFault_keeps {q : List Instr} {s : State} (h : Keeps q s) (a0 a1 a2 a3 a4) : Keeps q (State.declareFault s a0 a1 a2 a3 a4) := by
  unfold State.declareFault
  try dsimp only
  repeat' first
    | with_reducible assumption
    | with_reducible apply State.actFault_keeps
    | with_reducible apply State.floodFault_keeps
    | with_reducible apply State.markSeen_keeps
    | with_reducible apply State.nextFaultSeq_keeps
    | (with_reducible refine State.nextFaultSeq_keeps_of (e := by assumption) ?_)
    | with_reducible apply State.sendHeld_keeps
    | with_reducible apply keeps_foldl_fst
    | with_reducible apply keeps_foldl_snd
    | with_reducible apply keeps_foldl
    | split
    | (with_reducible refine Keeps.upd ?_ rfl ?_ ?_ ?_ ?_ ?_ ?_ ?_ ?_ ?_ ?_ ?_ ?_ ?_ ?_ ?_ ?_ ?_)
    | with_reducible exact (fun h => h)

theorem State.declareAll_keeps {q : List Instr} {s : State} (h : Keeps q s) (a0 a1) : Keeps q (State.declareAll s a0 a1) := by
  unfold State.declareAll
  try dsimp only
  repeat' first
    | with_reducible assumption
    | with_reducible apply State.declareFault_keeps
    | with_reducible apply keeps_foldl
    | split
    | intro _

theorem State.refuseRx_keeps {q : List Instr} {s : State} (h : Keeps q s) (a0 a1) : Keeps q (State.refuseRx s a0 a1) := by
  unfold State.refuseRx
  try dsimp only
  repeat' first
    | with_reducible assumption
    | with_reducible apply State.count_keeps
    | with_reducible apply keeps_foldl
    | split

theorem State.hopRx_keeps {q : List Instr} {s : State} (h : Keeps q s) (a0 a1 a2) (ha2 : ∀ t, Keeps q t → Keeps q (a2 t)) : Keeps q (State.hopRx s a0 a1 a2) := by
  unfold State.hopRx
  try dsimp only
  repeat' first
    | with_reducible assumption
    | with_reducible apply State.refuseRx_keeps
    | with_reducible apply ha2
    | with_reducible apply keeps_foldl
    | split

theorem execJobFaultResend_keeps {q : List Instr} {s : State} (h : Keeps q s) : KeepsNext q (execJobFaultResend s) := by
  unfold execJobFaultResend
  try dsimp only
  repeat' first
    | with_reducible assumption
    | with_reducible apply keepsNext_next
    | with_reducible apply State.floodFault_keeps
    | with_reducible apply keeps_foldl
    | split
    | (with_reducible refine Keeps.upd ?_ rfl ?_ ?_ ?_ ?_ ?_ ?_ ?_ ?_ ?_ ?_ ?_ ?_ ?_ ?_ ?_ ?_ ?_)
    | with_reducible exact (fun h => h)
    | with_reducible exact (fun h => SMap.wf_set h _ _)
    | with_reducible exact (fun h => SMap.wf_clear h _)
    | with_reducible exact (fun h => SMap.wf_filter h _)
    | with_reducible exact (Memory.wf_same rfl rfl)
    | with_reducible exact (fun _ => SMap.wf_foldl_set _ _ _ rfl)
    | exact (fun _ => rfl)
    | intro _

theorem execJobQuiet_keeps {q : List Instr} {s : State} (h : Keeps q s) (a0 a1) : KeepsNext q (execJobQuiet a0 a1 s) := by
  unfold execJobQuiet
  try dsimp only
  repeat' first
    | with_reducible assumption
    | with_reducible apply keepsNext_next
    | with_reducible apply State.wr_keeps
    | with_reducible apply keeps_foldl
    | split

theorem execJobRestartArm_keeps {q : List Instr} {s : State} (h : Keeps q s) (a0 a1 a2 a3) : KeepsNext q (execJobRestartArm a0 a1 a2 a3 s) := by
  unfold execJobRestartArm
  try dsimp only
  repeat' first
    | with_reducible assumption
    | with_reducible apply keepsNext_next
    | with_reducible apply State.setJob_keeps
    | with_reducible apply State.wr_keeps
    | with_reducible apply keeps_foldl
    | split

theorem State.dropWheelSteps_keeps {q : List Instr} {s : State} (h : Keeps q s) (a0) : Keeps q (State.dropWheelSteps s a0) := by
  unfold State.dropWheelSteps
  try dsimp only
  repeat' first
    | with_reducible assumption
    | with_reducible apply State.setWheel_keeps
    | with_reducible apply keeps_foldl
    | split
    | intro _

theorem State.restartJob_keeps {q : List Instr} {s : State} (h : Keeps q s) (a0 a1 a2) : Keeps q (State.restartJob s a0 a1 a2) := by
  unfold State.restartJob
  try dsimp only
  repeat' first
    | with_reducible assumption
    | with_reducible apply State.count_keeps
    | with_reducible apply State.dropWheelSteps_keeps
    | with_reducible apply State.newest_keeps
    | with_reducible apply State.setJob_keeps
    | with_reducible apply State.setSlot_keeps
    | with_reducible apply State.wr_keeps
    | with_reducible apply State.wr64_keeps
    | with_reducible apply keeps_foldl
    | split
    | (with_reducible refine Keeps.upd ?_ rfl ?_ ?_ ?_ ?_ ?_ ?_ ?_ ?_ ?_ ?_ ?_ ?_ ?_ ?_ ?_ ?_ ?_)
    | with_reducible exact (fun h => h)
    | with_reducible exact (fun h => SMap.wf_set h _ _)
    | with_reducible exact (fun h => SMap.wf_clear h _)

theorem State.restartAtMark_keeps {q : List Instr} {s : State} (h : Keeps q s) (a0 a1) : Keeps q (State.restartAtMark s a0 a1) := by
  unfold State.restartAtMark
  try dsimp only
  repeat' first
    | with_reducible assumption
    | with_reducible apply State.restartJob_keeps
    | with_reducible apply keeps_foldl
    | split

theorem execJobRestartMark_keeps {q : List Instr} {s : State} (h : Keeps q s) (a0 a1) : KeepsNext q (execJobRestartMark a0 a1 s) := by
  unfold execJobRestartMark
  try dsimp only
  repeat' first
    | with_reducible assumption
    | with_reducible apply keepsNext_next
    | with_reducible apply State.restartAtMark_keeps

end Sys2Proof.Machine
end

