-- ==== Sys2Proof/Laws/KeepsShadows.lean ====
section
/-!
SUPPORT. The operations of Machine/Shadows.lean keep the queue and the canonical form of every map (`Keeps`).
-/
namespace Sys2Proof.Machine

theorem State.noteRange_keeps {q : List Instr} {s : State} (h : Keeps q s) (a0 a1 a2 a3) : Keeps q (State.noteRange s a0 a1 a2 a3) := by
  unfold State.noteRange
  try dsimp only
  repeat' first
    | with_reducible assumption
    | with_reducible apply keeps_foldl
    | split
    | (with_reducible refine Keeps.upd ?_ rfl ?_ ?_ ?_ ?_ ?_ ?_ ?_ ?_ ?_ ?_ ?_ ?_ ?_ ?_ ?_ ?_ ?_)
    | with_reducible exact (fun h => h)

theorem State.noteWrote_keeps {q : List Instr} {s : State} (h : Keeps q s) (a0 a1 a2) : Keeps q (State.noteWrote s a0 a1 a2) := by
  unfold State.noteWrote
  try dsimp only
  repeat' first
    | with_reducible assumption
    | with_reducible apply State.noteRange_keeps

theorem State.countReject_keeps {q : List Instr} {s : State} (h : Keeps q s) (a0) : Keeps q (State.countReject s a0) := by
  unfold State.countReject
  try dsimp only
  repeat' first
    | with_reducible assumption
    | with_reducible apply State.count_keeps
    | with_reducible apply keeps_foldl
    | split

theorem State.remoteStore_keeps {q : List Instr} {s : State} (h : Keeps q s) (a0 a1 a2 a3 a4) : Keeps q (State.remoteStore s a0 a1 a2 a3 a4) := by
  unfold State.remoteStore
  try dsimp only
  repeat' first
    | with_reducible assumption
    | with_reducible apply State.addFault_keeps
    | with_reducible apply State.count_keeps
    | with_reducible apply State.countReject_keeps
    | with_reducible apply State.noteRange_keeps
    | with_reducible apply State.sendOp_keeps
    | with_reducible apply State.store_keeps
    | with_reducible apply keeps_foldl
    | split
    | intro _

theorem State.jobStore_keeps {q : List Instr} {s : State} (h : Keeps q s) (a0 a1 a2 a3 a4) : Keeps q (State.jobStore s a0 a1 a2 a3 a4) := by
  unfold State.jobStore
  try dsimp only
  repeat' first
    | with_reducible assumption
    | with_reducible apply State.dropExt_keeps
    | with_reducible apply State.noteHole_keeps
    | with_reducible apply State.noteWrote_keeps
    | with_reducible apply State.remoteStore_keeps
    | with_reducible apply State.store_keeps
    | with_reducible apply keeps_foldl
    | split
    | intro _

theorem State.retireTile_keeps {q : List Instr} {s : State} (h : Keeps q s) (a0 a1 a2 a3 a4 a5 a6) : Keeps q (State.retireTile s a0 a1 a2 a3 a4 a5 a6) := by
  unfold State.retireTile
  try dsimp only
  repeat' first
    | with_reducible assumption
    | with_reducible apply State.setList_keeps
    | with_reducible apply State.trace_keeps
    | with_reducible apply keeps_foldl
    | split
    | (with_reducible refine Keeps.upd ?_ rfl ?_ ?_ ?_ ?_ ?_ ?_ ?_ ?_ ?_ ?_ ?_ ?_ ?_ ?_ ?_ ?_ ?_)
    | with_reducible exact (fun h => h)

theorem State.commitHeld_keeps {q : List Instr} {s : State} (h : Keeps q s) (a0 a1 a2) : Keeps q (State.commitHeld s a0 a1 a2) := by
  unfold State.commitHeld
  try dsimp only
  repeat' first
    | with_reducible assumption
    | with_reducible apply State.jobStore_keeps
    | with_reducible apply State.retireTile_keeps
    | with_reducible apply State.setList_keeps
    | with_reducible apply keeps_foldl
    | split
    | intro _

theorem State.setHeld_keeps {q : List Instr} {s : State} (h : Keeps q s) (a0 a1 a2) : Keeps q (State.setHeld s a0 a1 a2) := by
  unfold State.setHeld
  try dsimp only
  repeat' first
    | with_reducible assumption
    | with_reducible apply State.setList_keeps
    | with_reducible apply keeps_foldl
    | split

theorem State.queueShadow_keeps {q : List Instr} {s : State} (h : Keeps q s) (a0 a1 a2 a3 a4 a5) : Keeps q (State.queueShadow s a0 a1 a2 a3 a4 a5) := by
  unfold State.queueShadow
  try dsimp only
  repeat' first
    | with_reducible assumption
    | with_reducible apply keeps_foldl
    | split
    | (with_reducible refine Keeps.upd ?_ rfl ?_ ?_ ?_ ?_ ?_ ?_ ?_ ?_ ?_ ?_ ?_ ?_ ?_ ?_ ?_ ?_ ?_)
    | with_reducible exact (fun h => h)

theorem State.startShadow_keeps {q : List Instr} {s : State} (h : Keeps q s) (a0 a1) : Keeps q (State.startShadow s a0 a1) := by
  unfold State.startShadow
  try dsimp only
  repeat' first
    | with_reducible assumption
    | with_reducible apply State.countCl_keeps
    | with_reducible apply State.setHeld_keeps
    | with_reducible apply State.setUnit_keeps
    | with_reducible apply keeps_foldl
    | split
    | (with_reducible refine Keeps.upd ?_ rfl ?_ ?_ ?_ ?_ ?_ ?_ ?_ ?_ ?_ ?_ ?_ ?_ ?_ ?_ ?_ ?_ ?_)
    | with_reducible exact (fun h => h)

theorem State.startShadows_keeps {q : List Instr} {s : State} (h : Keeps q s) : Keeps q (State.startShadows s) := by
  unfold State.startShadows
  try dsimp only
  repeat' first
    | with_reducible assumption
    | with_reducible apply State.startShadow_keeps
    | with_reducible apply keeps_foldl
    | split
    | intro _

theorem State.reissueShadow_keeps {q : List Instr} {s : State} (h : Keeps q s) (a0 a1 a2) : Keeps q (State.reissueShadow s a0 a1 a2) := by
  unfold State.reissueShadow
  try dsimp only
  repeat' first
    | with_reducible assumption
    | with_reducible apply State.commitHeld_keeps
    | with_reducible apply State.count_keeps
    | with_reducible apply State.queueShadow_keeps
    | with_reducible apply State.setHeld_keeps
    | with_reducible apply keeps_foldl
    | split
    | (with_reducible refine Keeps.upd ?_ rfl ?_ ?_ ?_ ?_ ?_ ?_ ?_ ?_ ?_ ?_ ?_ ?_ ?_ ?_ ?_ ?_ ?_)
    | with_reducible exact (fun h => h)

theorem State.reissueArbiter_keeps {q : List Instr} {s : State} (h : Keeps q s) (a0) : Keeps q (State.reissueArbiter s a0) := by
  unfold State.reissueArbiter
  try dsimp only
  repeat' first
    | with_reducible assumption
    | with_reducible apply State.event_keeps
    | with_reducible apply keeps_foldl
    | split
    | (with_reducible refine Keeps.upd ?_ rfl ?_ ?_ ?_ ?_ ?_ ?_ ?_ ?_ ?_ ?_ ?_ ?_ ?_ ?_ ?_ ?_ ?_)
    | with_reducible exact (fun h => h)

theorem State.loseHosts_keeps {q : List Instr} {s : State} (h : Keeps q s) (a0) : Keeps q (State.loseHosts s a0) := by
  unfold State.loseHosts
  try dsimp only
  repeat' first
    | with_reducible assumption
    | with_reducible apply State.reissueArbiter_keeps
    | with_reducible apply State.reissueShadow_keeps
    | with_reducible apply keeps_foldl
    | split
    | intro _

end Sys2Proof.Machine
end

