-- ==== Sys2Proof/Laws/KeepsQuarantine.lean ====
section
/-!
SUPPORT. The operations of Machine/Quarantine.lean keep the queue and the canonical form of every map (`Keeps`).
-/
namespace Sys2Proof.Machine

theorem State.updateCapacity_keeps {q : List Instr} {s : State} (h : Keeps q s) : Keeps q (State.updateCapacity s) := by
  unfold State.updateCapacity
  try dsimp only
  repeat' first
    | with_reducible assumption
    | with_reducible apply State.setReg_keeps
    | with_reducible apply State.updateFault_keeps
    | with_reducible apply State.wr_keeps

theorem State.openImage_keeps {q : List Instr} {s : State} (h : Keeps q s) : Keeps q (State.openImage s) := by
  unfold State.openImage
  try dsimp only
  repeat' first
    | with_reducible assumption
    | with_reducible apply keeps_foldl
    | split
    | (with_reducible refine Keeps.upd ?_ rfl ?_ ?_ ?_ ?_ ?_ ?_ ?_ ?_ ?_ ?_ ?_ ?_ ?_ ?_ ?_ ?_ ?_)
    | with_reducible exact (fun h => h)

theorem State.faultAffected_keeps {q : List Instr} {s : State} (h : Keeps q s) (a0 a1) : Keeps q (State.faultAffected s a0 a1) := by
  unfold State.faultAffected
  try dsimp only
  repeat' first
    | with_reducible assumption
    | with_reducible apply State.declareFault_keeps
    | with_reducible apply keeps_foldl
    | split
    | intro _

theorem State.endPasses_keeps {q : List Instr} {s : State} (h : Keeps q s) (a0) : Keeps q (State.endPasses s a0) := by
  unfold State.endPasses
  try dsimp only
  repeat' first
    | with_reducible assumption
    | with_reducible apply State.endPass_keeps
    | with_reducible apply keeps_foldl
    | split
    | intro _

theorem State.setPath_keeps {q : List Instr} {s : State} (h : Keeps q s) (a0 a1) : Keeps q (State.setPath s a0 a1) := by
  unfold State.setPath
  try dsimp only
  repeat' first
    | with_reducible assumption
    | with_reducible apply State.advance_keeps
    | with_reducible apply State.dropPorts_keeps
    | with_reducible apply State.endPasses_keeps
    | with_reducible apply State.faultAffected_keeps
    | with_reducible apply State.loseHosts_keeps
    | with_reducible apply State.setWheel_keeps
    | with_reducible apply State.undefine_keeps
    | with_reducible apply State.updateLanes_keeps
    | with_reducible apply keeps_foldl
    | split
    | (with_reducible refine Keeps.upd ?_ rfl ?_ ?_ ?_ ?_ ?_ ?_ ?_ ?_ ?_ ?_ ?_ ?_ ?_ ?_ ?_ ?_ ?_)
    | with_reducible exact (fun h => h)
    | with_reducible exact (fun h => SMap.wf_set h _ _)
    | with_reducible exact (fun h => SMap.wf_clear h _)
    | with_reducible exact (fun h => SMap.wf_filter h _)
    | with_reducible exact (Memory.wf_same rfl rfl)
    | with_reducible exact (fun _ => SMap.wf_foldl_set _ _ _ rfl)
    | exact (fun _ => rfl)
    | intro _

theorem State.dropPasses_keeps {q : List Instr} {s : State} (h : Keeps q s) (a0 a1 a2) : Keeps q (State.dropPasses s a0 a1 a2) := by
  unfold State.dropPasses
  try dsimp only
  repeat' first
    | with_reducible assumption
    | with_reducible apply State.flushRecords_keeps
    | with_reducible apply keeps_foldl
    | split
    | (with_reducible refine Keeps.upd ?_ rfl ?_ ?_ ?_ ?_ ?_ ?_ ?_ ?_ ?_ ?_ ?_ ?_ ?_ ?_ ?_ ?_ ?_)
    | with_reducible exact (fun h => h)

theorem State.applySet_keeps {q : List Instr} {s : State} (h : Keeps q s) (a0 a1 a2 a3 a4) : Keeps q (State.applySet s a0 a1 a2 a3 a4) := by
  unfold State.applySet
  try dsimp only
  repeat' first
    | with_reducible assumption
    | with_reducible apply State.dropPasses_keeps
    | with_reducible apply State.event_keeps
    | with_reducible apply State.hostEvent_keeps
    | with_reducible apply State.openImage_keeps
    | with_reducible apply State.sendWsfs_keeps
    | with_reducible apply State.setPath_keeps
    | with_reducible apply State.updateCapacity_keeps
    | with_reducible apply State.wr_keeps
    | with_reducible apply keeps_foldl
    | split
    | (with_reducible refine Keeps.upd ?_ rfl ?_ ?_ ?_ ?_ ?_ ?_ ?_ ?_ ?_ ?_ ?_ ?_ ?_ ?_ ?_ ?_ ?_)
    | with_reducible exact (fun h => h)

theorem State.findingBy_keeps {q : List Instr} {s : State} (h : Keeps q s) (a0 a1 a2 a3 a4 a5) : Keeps q (State.findingBy s a0 a1 a2 a3 a4 a5) := by
  unfold State.findingBy
  try dsimp only
  repeat' first
    | with_reducible assumption
    | with_reducible apply State.applySet_keeps
    | with_reducible apply State.event_keeps
    | with_reducible apply State.setPath_keeps
    | with_reducible apply State.updateCapacity_keeps
    | with_reducible apply State.wr_keeps
    | with_reducible apply keeps_foldl
    | split
    | (with_reducible refine Keeps.upd ?_ rfl ?_ ?_ ?_ ?_ ?_ ?_ ?_ ?_ ?_ ?_ ?_ ?_ ?_ ?_ ?_ ?_ ?_)
    | with_reducible exact (fun h => h)

theorem State.finding_keeps {q : List Instr} {s : State} (h : Keeps q s) (a0 a1 a2 a3 a4) : Keeps q (State.finding s a0 a1 a2 a3 a4) := by
  unfold State.finding
  try dsimp only
  repeat' first
    | with_reducible assumption
    | with_reducible apply State.findingBy_keeps

theorem State.commandAnswer_keeps {q : List Instr} {s : State} (h : Keeps q s) (a0 a1 a2) : Keeps q (State.commandAnswer s a0 a1 a2) := by
  unfold State.commandAnswer
  try dsimp only
  repeat' first
    | with_reducible assumption
    | with_reducible apply State.answerMgt_keeps
    | with_reducible apply State.emit_keeps
    | with_reducible apply keeps_foldl
    | split

theorem State.obey_keeps {q : List Instr} {s : State} (h : Keeps q s) (a0 a1 a2) (ha2 : ∀ t, Keeps q t → Keeps q (a2 t).2) : Keeps q (State.obey s a0 a1 a2) := by
  unfold State.obey
  try dsimp only
  repeat' first
    | with_reducible assumption
    | with_reducible apply State.commandAnswer_keeps
    | with_reducible apply State.wr_keeps
    | with_reducible apply ha2
    | with_reducible apply keeps_foldl
    | split

theorem State.command_keeps {q : List Instr} {s : State} (h : Keeps q s) (a0 a1 a2 a3) (ha3 : ∀ t, Keeps q t → Keeps q (a3 t).2) : Keeps q (State.command s a0 a1 a2 a3) := by
  unfold State.command
  try dsimp only
  repeat' first
    | with_reducible assumption
    | with_reducible apply State.inbound_keeps
    | with_reducible apply State.obey_keeps
    | with_reducible apply ha3
    | with_reducible apply keeps_foldl
    | split
    | intro _

theorem State.restrictCmd_keeps {q : List Instr} {s : State} (h : Keeps q s) (a0 a1 a2) : Keeps q (State.restrictCmd s a0 a1 a2).2 := by
  unfold State.restrictCmd
  try dsimp only
  repeat' first
    | with_reducible assumption
    | with_reducible apply State.applySet_keeps
    | with_reducible apply keeps_foldl
    | split

theorem State.restrictCmd_keeps_of {q : List Instr} {s t : State} {r} {a0 a1 a2} (e : State.restrictCmd s a0 a1 a2 = (r, t)) (h : Keeps q s) : Keeps q t := by
  have := State.restrictCmd_keeps h a0 a1 a2
  rwa [e] at this

theorem State.markRecorded_keeps {q : List Instr} {s : State} (h : Keeps q s) (a0) : Keeps q (State.markRecorded s a0) := by
  unfold State.markRecorded
  try dsimp only
  repeat' first
    | with_reducible assumption
    | with_reducible apply keeps_foldl
    | split
    | (with_reducible refine Keeps.upd ?_ rfl ?_ ?_ ?_ ?_ ?_ ?_ ?_ ?_ ?_ ?_ ?_ ?_ ?_ ?_ ?_ ?_ ?_)
    | with_reducible exact (fun h => h)

theorem State.closeImage_keeps {q : List Instr} {s : State} (h : Keeps q s) : Keeps q (State.closeImage s) := by
  unfold State.closeImage
  try dsimp only
  repeat' first
    | with_reducible assumption
    | with_reducible apply State.markRecorded_keeps
    | with_reducible apply State.openImage_keeps
    | with_reducible apply State.sendWsfs_keeps
    | with_reducible apply State.setPath_keeps
    | with_reducible apply State.updateCapacity_keeps
    | with_reducible apply keeps_foldl
    | split
    | (with_reducible refine Keeps.upd ?_ rfl ?_ ?_ ?_ ?_ ?_ ?_ ?_ ?_ ?_ ?_ ?_ ?_ ?_ ?_ ?_ ?_ ?_)
    | with_reducible exact (fun h => h)

theorem State.reconcile_keeps {q : List Instr} {s : State} (h : Keeps q s) (a0 a1 a2) : Keeps q (State.reconcile s a0 a1 a2) := by
  unfold State.reconcile
  try dsimp only
  repeat' first
    | with_reducible assumption
    | with_reducible apply State.applySet_keeps
    | with_reducible apply State.count_keeps
    | with_reducible apply State.event_keeps
    | with_reducible apply State.markRecorded_keeps
    | with_reducible apply State.sendWsfs_keeps
    | with_reducible apply State.setPath_keeps
    | with_reducible apply State.updateCapacity_keeps
    | with_reducible apply keeps_foldl
    | split
    | (with_reducible refine Keeps.upd ?_ rfl ?_ ?_ ?_ ?_ ?_ ?_ ?_ ?_ ?_ ?_ ?_ ?_ ?_ ?_ ?_ ?_ ?_)
    | with_reducible exact (fun h => h)

theorem State.abortChurn_keeps {q : List Instr} {s : State} (h : Keeps q s) : Keeps q (State.abortChurn s) := by
  unfold State.abortChurn
  try dsimp only
  repeat' first
    | with_reducible assumption
    | with_reducible apply State.wr_keeps
    | with_reducible apply keeps_foldl
    | split
    | (with_reducible refine Keeps.upd ?_ rfl ?_ ?_ ?_ ?_ ?_ ?_ ?_ ?_ ?_ ?_ ?_ ?_ ?_ ?_ ?_ ?_ ?_)
    | with_reducible exact (fun h => h)

theorem execChurnAbort_keeps {q : List Instr} {s : State} (h : Keeps q s) (a0) : KeepsNext q (execChurnAbort a0 s) := by
  unfold execChurnAbort
  try dsimp only
  repeat' first
    | with_reducible assumption
    | with_reducible apply keepsNext_next
    | with_reducible apply State.abortChurn_keeps
    | with_reducible apply State.command_keeps
    | with_reducible apply keeps_foldl
    | split
    | intro _

theorem State.kernelResult_keeps {q : List Instr} {s : State} (h : Keeps q s) (a0 a1 a2 a3 a4) : Keeps q (State.kernelResult s a0 a1 a2 a3 a4) := by
  unfold State.kernelResult
  try dsimp only
  repeat' first
    | with_reducible assumption
    | with_reducible apply State.count_keeps
    | with_reducible apply State.findingBy_keeps
    | with_reducible apply keeps_foldl
    | split
    | (with_reducible refine Keeps.upd ?_ rfl ?_ ?_ ?_ ?_ ?_ ?_ ?_ ?_ ?_ ?_ ?_ ?_ ?_ ?_ ?_ ?_ ?_)
    | with_reducible exact (fun h => h)

theorem State.endChurn_keeps {q : List Instr} {s : State} (h : Keeps q s) (a0) : Keeps q (State.endChurn s a0) := by
  unfold State.endChurn
  try dsimp only
  repeat' first
    | with_reducible assumption
    | with_reducible apply State.event_keeps
    | with_reducible apply State.sendWsf_keeps
    | with_reducible apply State.undefine_keeps
    | with_reducible apply State.wr_keeps
    | with_reducible apply keeps_foldl
    | split
    | (with_reducible refine Keeps.upd ?_ rfl ?_ ?_ ?_ ?_ ?_ ?_ ?_ ?_ ?_ ?_ ?_ ?_ ?_ ?_ ?_ ?_ ?_)
    | with_reducible exact (fun h => h)

theorem execChurnRunEnd_keeps {q : List Instr} {s : State} (h : Keeps q s) : KeepsNext q (execChurnRunEnd s) := by
  unfold execChurnRunEnd
  try dsimp only
  repeat' first
    | with_reducible assumption
    | with_reducible apply keepsNext_next
    | with_reducible apply State.endChurn_keeps
    | with_reducible apply keeps_foldl
    | split

theorem execPackBegin_keeps {q : List Instr} {s : State} (h : Keeps q s) (a0 a1 a2 a3) : KeepsNext q (execPackBegin a0 a1 a2 a3 s) := by
  unfold execPackBegin
  try dsimp only
  repeat' first
    | with_reducible assumption
    | with_reducible apply keepsNext_next
    | with_reducible apply State.command_keeps
    | with_reducible apply State.wr_keeps
    | with_reducible apply keeps_foldl
    | split
    | (with_reducible refine Keeps.upd ?_ rfl ?_ ?_ ?_ ?_ ?_ ?_ ?_ ?_ ?_ ?_ ?_ ?_ ?_ ?_ ?_ ?_ ?_)
    | with_reducible exact (fun h => h)
    | with_reducible exact (fun h => SMap.wf_set h _ _)
    | with_reducible exact (fun h => SMap.wf_clear h _)
    | with_reducible exact (fun h => SMap.wf_filter h _)
    | with_reducible exact (Memory.wf_same rfl rfl)
    | with_reducible exact (fun _ => SMap.wf_foldl_set _ _ _ rfl)
    | exact (fun _ => rfl)
    | intro _

theorem execPackData_keeps {q : List Instr} {s : State} (h : Keeps q s) (a0 a1 a2) : KeepsNext q (execPackData a0 a1 a2 s) := by
  unfold execPackData
  try dsimp only
  repeat' first
    | with_reducible assumption
    | with_reducible apply keepsNext_next
    | with_reducible apply State.command_keeps
    | with_reducible apply keeps_foldl
    | split
    | (with_reducible refine Keeps.upd ?_ rfl ?_ ?_ ?_ ?_ ?_ ?_ ?_ ?_ ?_ ?_ ?_ ?_ ?_ ?_ ?_ ?_ ?_)
    | with_reducible exact (fun h => h)
    | with_reducible exact (fun h => SMap.wf_set h _ _)
    | with_reducible exact (fun h => SMap.wf_clear h _)
    | with_reducible exact (fun h => SMap.wf_filter h _)
    | with_reducible exact (Memory.wf_same rfl rfl)
    | with_reducible exact (fun _ => SMap.wf_foldl_set _ _ _ rfl)
    | exact (fun _ => rfl)
    | intro _

theorem State.packRejected_keeps {q : List Instr} {s : State} (h : Keeps q s) (a0 a1 a2) : Keeps q (State.packRejected s a0 a1 a2) := by
  unfold State.packRejected
  try dsimp only
  repeat' first
    | with_reducible assumption
    | with_reducible apply State.event_keeps
    | with_reducible apply State.sendWsf_keeps

theorem State.showPack_keeps {q : List Instr} {s : State} (h : Keeps q s) (a0) : Keeps q (State.showPack s a0) := by
  unfold State.showPack
  try dsimp only
  repeat' first
    | with_reducible assumption
    | with_reducible apply State.wr_keeps

theorem execPackCommit_keeps {q : List Instr} {s : State} (h : Keeps q s) (a0) : KeepsNext q (execPackCommit a0 s) := by
  unfold execPackCommit
  try dsimp only
  repeat' first
    | with_reducible assumption
    | with_reducible apply keepsNext_next
    | with_reducible apply State.command_keeps
    | with_reducible apply State.packRejected_keeps
    | with_reducible apply State.showPack_keeps
    | with_reducible apply State.wr_keeps
    | with_reducible apply keeps_foldl
    | split
    | (with_reducible refine Keeps.upd ?_ rfl ?_ ?_ ?_ ?_ ?_ ?_ ?_ ?_ ?_ ?_ ?_ ?_ ?_ ?_ ?_ ?_ ?_)
    | with_reducible exact (fun h => h)
    | with_reducible exact (fun h => SMap.wf_set h _ _)
    | with_reducible exact (fun h => SMap.wf_clear h _)
    | with_reducible exact (fun h => SMap.wf_filter h _)
    | with_reducible exact (Memory.wf_same rfl rfl)
    | with_reducible exact (fun _ => SMap.wf_foldl_set _ _ _ rfl)
    | exact (fun _ => rfl)
    | intro _

end Sys2Proof.Machine
end

