-- ==== Sys2Proof/Laws/KeepsClock.lean ====
section
/-!
SUPPORT. The operations of Machine/Clock.lean keep the queue and the canonical form of every map (`Keeps`).
-/
namespace Sys2Proof.Machine

theorem State.updateClock_keeps {q : List Instr} {s : State} (h : Keeps q s) (a0) : Keeps q (State.updateClock s a0) := by
  unfold State.updateClock
  try dsimp only
  repeat' first
    | with_reducible assumption
    | with_reducible apply State.trace_keeps
    | with_reducible apply State.wr_keeps
    | with_reducible apply keeps_foldl
    | split

theorem State.updateClocks_keeps {q : List Instr} {s : State} (h : Keeps q s) : Keeps q (State.updateClocks s) := by
  unfold State.updateClocks
  try dsimp only
  repeat' first
    | with_reducible assumption
    | with_reducible apply State.updateClock_keeps
    | with_reducible apply State.wr_keeps
    | with_reducible apply keeps_foldl
    | split
    | intro _

theorem State.setVolt_keeps {q : List Instr} {s : State} (h : Keeps q s) (a0 a1) : Keeps q (State.setVolt s a0 a1) := by
  unfold State.setVolt
  try dsimp only
  repeat' first
    | with_reducible assumption
    | with_reducible apply State.updateClock_keeps
    | with_reducible apply keeps_foldl
    | split
    | (with_reducible refine Keeps.upd ?_ rfl ?_ ?_ ?_ ?_ ?_ ?_ ?_ ?_ ?_ ?_ ?_ ?_ ?_ ?_ ?_ ?_ ?_)
    | with_reducible exact (fun h => h)

theorem State.setRaise_keeps {q : List Instr} {s : State} (h : Keeps q s) (a0 a1) : Keeps q (State.setRaise s a0 a1) := by
  unfold State.setRaise
  try dsimp only
  repeat' first
    | with_reducible assumption
    | with_reducible apply keeps_foldl
    | split
    | (with_reducible refine Keeps.upd ?_ rfl ?_ ?_ ?_ ?_ ?_ ?_ ?_ ?_ ?_ ?_ ?_ ?_ ?_ ?_ ?_ ?_ ?_)
    | with_reducible exact (fun h => h)

theorem State.sendVout_keeps {q : List Instr} {s : State} (h : Keeps q s) (a0 a1) : Keeps q (State.sendVout s a0 a1) := by
  unfold State.sendVout
  try dsimp only
  repeat' first
    | with_reducible assumption
    | with_reducible apply State.emit_keeps
    | with_reducible apply keeps_foldl
    | split
    | intro _

theorem execVsetWrite_keeps {q : List Instr} {s : State} (h : Keeps q s) (a0 a1 a2) : KeepsNext q (execVsetWrite a0 a1 a2 s) := by
  unfold execVsetWrite
  try dsimp only
  repeat' first
    | with_reducible assumption
    | with_reducible apply keepsNext_next
    | with_reducible apply State.sendVout_keeps
    | with_reducible apply State.setRaise_keeps
    | with_reducible apply State.setVolt_keeps
    | with_reducible apply State.wr_keeps
    | with_reducible apply keeps_foldl
    | split

theorem execVoutSettled_keeps {q : List Instr} {s : State} (h : Keeps q s) (a0 a1) : KeepsNext q (execVoutSettled a0 a1 s) := by
  unfold execVoutSettled
  try dsimp only
  repeat' first
    | with_reducible assumption
    | with_reducible apply keepsNext_next
    | with_reducible apply State.setRaise_keeps
    | with_reducible apply State.setVolt_keeps
    | with_reducible apply keeps_foldl
    | split

theorem execClockLimitWrite_keeps {q : List Instr} {s : State} (h : Keeps q s) (a0 a1) : KeepsNext q (execClockLimitWrite a0 a1 s) := by
  unfold execClockLimitWrite
  try dsimp only
  repeat' first
    | with_reducible assumption
    | with_reducible apply keepsNext_next
    | with_reducible apply State.updateClocks_keeps
    | with_reducible apply State.wr_keeps
    | with_reducible apply keeps_foldl
    | split

theorem State.setCuts_keeps {q : List Instr} {s : State} (h : Keeps q s) (a0) : Keeps q (State.setCuts s a0) := by
  unfold State.setCuts
  try dsimp only
  repeat' first
    | with_reducible assumption
    | with_reducible apply State.updateClocks_keeps
    | with_reducible apply keeps_foldl
    | split
    | (with_reducible refine Keeps.upd ?_ rfl ?_ ?_ ?_ ?_ ?_ ?_ ?_ ?_ ?_ ?_ ?_ ?_ ?_ ?_ ?_ ?_ ?_)
    | with_reducible exact (fun h => h)

theorem State.limiter_keeps {q : List Instr} {s : State} (h : Keeps q s) (a0) : Keeps q (State.limiter s a0) := by
  unfold State.limiter
  try dsimp only
  repeat' first
    | with_reducible assumption
    | with_reducible apply State.event_keeps
    | with_reducible apply State.report_keeps
    | with_reducible apply State.setCuts_keeps
    | with_reducible apply keeps_foldl
    | split
    | (with_reducible refine Keeps.upd ?_ rfl ?_ ?_ ?_ ?_ ?_ ?_ ?_ ?_ ?_ ?_ ?_ ?_ ?_ ?_ ?_ ?_ ?_)
    | with_reducible exact (fun h => h)

theorem execPowerLimiter_keeps {q : List Instr} {s : State} (h : Keeps q s) (a0) : KeepsNext q (execPowerLimiter a0 s) := by
  unfold execPowerLimiter
  try dsimp only
  repeat' first
    | with_reducible assumption
    | with_reducible apply keepsNext_next
    | with_reducible apply State.limiter_keeps
    | with_reducible apply State.recordPower_keeps
    | with_reducible apply State.wr_keeps
    | with_reducible apply keeps_foldl
    | split

end Sys2Proof.Machine
end

