-- ==== Sys2Proof/Laws/KeepsPcie.lean ====
section
/-!
SUPPORT. The operations of Machine/Pcie.lean keep the queue and the canonical form of every map (`Keeps`).
-/
namespace Sys2Proof.Machine

theorem State.serveNoc_keeps {q : List Instr} {s : State} (h : Keeps q s) : Keeps q (State.serveNoc s) := by
  unfold State.serveNoc
  try dsimp only
  repeat' first
    | with_reducible assumption
    | with_reducible apply State.dropExt_keeps
    | with_reducible apply State.emit_keeps
    | with_reducible apply keeps_foldl
    | split
    | (with_reducible refine Keeps.upd ?_ rfl ?_ ?_ ?_ ?_ ?_ ?_ ?_ ?_ ?_ ?_ ?_ ?_ ?_ ?_ ?_ ?_ ?_)
    | with_reducible exact (fun h => h)
    | with_reducible exact (fun h => SMap.wf_set h _ _)
    | with_reducible exact (fun h => SMap.wf_clear h _)
    | with_reducible exact (fun h => SMap.wf_filter h _)
    | with_reducible exact (Memory.wf_same rfl rfl)
    | with_reducible exact (fun _ => SMap.wf_foldl_set _ _ _ rfl)
    | exact (fun _ => rfl)
    | intro _

theorem State.refetch_keeps {q : List Instr} {s : State} (h : Keeps q s) : Keeps q (State.refetch s) := by
  unfold State.refetch
  try dsimp only
  repeat' first
    | with_reducible assumption
    | with_reducible apply State.fetch_keeps
    | with_reducible apply State.serveNoc_keeps
    | with_reducible apply State.settle_keeps
    | with_reducible apply keeps_foldl
    | split
    | intro _

theorem State.resetFunction_keeps {q : List Instr} {s : State} (h : Keeps q s) (a0) : Keeps q (State.resetFunction s a0) := by
  unfold State.resetFunction
  try dsimp only
  repeat' first
    | with_reducible assumption
    | with_reducible apply State.event_keeps
    | with_reducible apply keeps_foldl
    | split
    | (with_reducible refine Keeps.upd ?_ rfl ?_ ?_ ?_ ?_ ?_ ?_ ?_ ?_ ?_ ?_ ?_ ?_ ?_ ?_ ?_ ?_ ?_)
    | with_reducible exact (fun h => h)
    | with_reducible exact (fun h => SMap.wf_set h _ _)
    | with_reducible exact (fun h => SMap.wf_clear h _)

theorem State.enumerate_keeps {q : List Instr} {s : State} (h : Keeps q s) (a0) : Keeps q (State.enumerate s a0) := by
  unfold State.enumerate
  try dsimp only
  repeat' first
    | with_reducible assumption
    | with_reducible apply keeps_foldl
    | split
    | (with_reducible refine Keeps.upd ?_ rfl ?_ ?_ ?_ ?_ ?_ ?_ ?_ ?_ ?_ ?_ ?_ ?_ ?_ ?_ ?_ ?_ ?_)
    | with_reducible exact (fun h => h)

theorem State.pcieDown_keeps {q : List Instr} {s : State} (h : Keeps q s) : Keeps q (State.pcieDown s) := by
  unfold State.pcieDown
  try dsimp only
  repeat' first
    | with_reducible assumption
    | with_reducible apply State.event_keeps
    | with_reducible apply State.refetch_keeps
    | with_reducible apply State.resetFunction_keeps
    | with_reducible apply State.wr_keeps
    | with_reducible apply keeps_foldl
    | split
    | (with_reducible refine Keeps.upd ?_ rfl ?_ ?_ ?_ ?_ ?_ ?_ ?_ ?_ ?_ ?_ ?_ ?_ ?_ ?_ ?_ ?_ ?_)
    | with_reducible exact (fun h => h)
    | with_reducible exact (fun h => SMap.wf_set h _ _)
    | with_reducible exact (fun h => SMap.wf_clear h _)
    | with_reducible exact (fun h => SMap.wf_filter h _)
    | with_reducible exact (Memory.wf_same rfl rfl)
    | with_reducible exact (fun _ => SMap.wf_foldl_set _ _ _ rfl)
    | exact (fun _ => rfl)
    | intro _

theorem execPerstDeassert_keeps {q : List Instr} {s : State} (h : Keeps q s) : KeepsNext q (execPerstDeassert s) := by
  unfold execPerstDeassert
  try dsimp only
  repeat' first
    | with_reducible assumption
    | with_reducible apply keepsNext_next
    | with_reducible apply keeps_foldl
    | split
    | (with_reducible refine Keeps.upd ?_ rfl ?_ ?_ ?_ ?_ ?_ ?_ ?_ ?_ ?_ ?_ ?_ ?_ ?_ ?_ ?_ ?_ ?_)
    | with_reducible exact (fun h => h)

theorem execPcieLinkUp_keeps {q : List Instr} {s : State} (h : Keeps q s) (a0 a1) : KeepsNext q (execPcieLinkUp a0 a1 s) := by
  unfold execPcieLinkUp
  try dsimp only
  repeat' first
    | with_reducible assumption
    | with_reducible apply keepsNext_next
    | with_reducible apply State.enumerate_keeps
    | with_reducible apply State.event_keeps
    | with_reducible apply State.wr_keeps
    | with_reducible apply keeps_foldl
    | split
    | intro _

theorem State.answer_keeps {q : List Instr} {s : State} (h : Keeps q s) (a0 a1) : Keeps q (State.answer s a0 a1) := by
  unfold State.answer
  try dsimp only
  repeat' first
    | with_reducible assumption
    | with_reducible apply State.refetch_keeps
    | with_reducible apply keeps_foldl
    | split
    | (with_reducible refine Keeps.upd ?_ rfl ?_ ?_ ?_ ?_ ?_ ?_ ?_ ?_ ?_ ?_ ?_ ?_ ?_ ?_ ?_ ?_ ?_)
    | with_reducible exact (fun h => h)
    | with_reducible exact (fun h => SMap.wf_set h _ _)
    | with_reducible exact (fun h => SMap.wf_clear h _)
    | with_reducible exact (fun h => SMap.wf_filter h _)
    | with_reducible exact (Memory.wf_same rfl rfl)

theorem State.hostAnswer_keeps {q : List Instr} {s : State} (h : Keeps q s) (a0 a1 a2 a3) : Keeps q (State.hostAnswer s a0 a1 a2 a3) := by
  unfold State.hostAnswer
  try dsimp only
  repeat' first
    | with_reducible assumption
    | with_reducible apply State.answer_keeps
    | with_reducible apply State.dropLate_keeps
    | with_reducible apply keeps_foldl
    | split
    | (with_reducible refine Keeps.upd ?_ rfl ?_ ?_ ?_ ?_ ?_ ?_ ?_ ?_ ?_ ?_ ?_ ?_ ?_ ?_ ?_ ?_ ?_)
    | with_reducible exact (fun h => h)

theorem execSpdmRequest_keeps {q : List Instr} {s : State} (h : Keeps q s) (a0) : KeepsNext q (execSpdmRequest a0 s) := by
  unfold execSpdmRequest
  try dsimp only
  repeat' first
    | with_reducible assumption
    | with_reducible apply keepsNext_next
    | with_reducible apply State.emit_keeps
    | with_reducible apply keeps_foldl
    | split

end Sys2Proof.Machine
end

