-- ==== Sys2Proof/Laws/KeepsCla.lean ====
section
/-!
SUPPORT. The operations of Machine/Cla.lean keep the queue and the canonical form of every map (`Keeps`).
-/
namespace Sys2Proof.Machine

theorem State.tapStore_keeps {q : List Instr} {s : State} (h : Keeps q s) (a0 a1 a2 a3 a4) : Keeps q (State.tapStore s a0 a1 a2 a3 a4) := by
  unfold State.tapStore
  try dsimp only
  repeat' first
    | with_reducible assumption
    | with_reducible apply State.jobStore_keeps
    | with_reducible apply keeps_foldl
    | split
    | intro _

theorem State.poisonRest_keeps {q : List Instr} {s : State} (h : Keeps q s) (a0 a1 a2) : Keeps q (State.poisonRest s a0 a1 a2) := by
  unfold State.poisonRest
  try dsimp only
  repeat' first
    | with_reducible assumption
    | with_reducible apply State.tapStore_keeps
    | with_reducible apply keeps_foldl
    | split
    | (with_reducible refine Keeps.upd ?_ rfl ?_ ?_ ?_ ?_ ?_ ?_ ?_ ?_ ?_ ?_ ?_ ?_ ?_ ?_ ?_ ?_ ?_)
    | with_reducible exact (fun h => h)

theorem State.failTap_keeps {q : List Instr} {s : State} (h : Keeps q s) (a0) : Keeps q (State.failTap s a0) := by
  unfold State.failTap
  try dsimp only
  repeat' first
    | with_reducible assumption
    | with_reducible apply State.endWith_keeps
    | with_reducible apply State.poisonRest_keeps
    | with_reducible apply State.settle_keeps
    | with_reducible apply keeps_foldl
    | split
    | intro _

theorem State.loseFrames_keeps {q : List Instr} {s : State} (h : Keeps q s) (a0) : Keeps q (State.loseFrames s a0) := by
  unfold State.loseFrames
  try dsimp only
  repeat' first
    | with_reducible assumption
    | with_reducible apply keeps_foldl
    | split
    | (with_reducible refine Keeps.upd ?_ rfl ?_ ?_ ?_ ?_ ?_ ?_ ?_ ?_ ?_ ?_ ?_ ?_ ?_ ?_ ?_ ?_ ?_)
    | with_reducible exact (fun h => h)

theorem State.setRegion_keeps {q : List Instr} {s : State} (h : Keeps q s) (a0 a1) : Keeps q (State.setRegion s a0 a1) := by
  unfold State.setRegion
  try dsimp only
  repeat' first
    | with_reducible assumption
    | with_reducible apply State.failTap_keeps
    | with_reducible apply State.loseFrames_keeps
    | with_reducible apply State.wr_keeps
    | with_reducible apply State.wrBit_keeps
    | with_reducible apply keeps_foldl
    | split

theorem State.setRegions_keeps {q : List Instr} {s : State} (h : Keeps q s) (a0 a1) : Keeps q (State.setRegions s a0 a1) := by
  unfold State.setRegions
  try dsimp only
  repeat' first
    | with_reducible assumption
    | with_reducible apply State.setRegion_keeps
    | with_reducible apply keeps_foldl
    | split
    | intro _

theorem State.releaseRegion_keeps {q : List Instr} {s : State} (h : Keeps q s) (a0) : Keeps q (State.releaseRegion s a0) := by
  unfold State.releaseRegion
  try dsimp only
  repeat' first
    | with_reducible assumption
    | with_reducible apply State.setRegion_keeps
    | with_reducible apply keeps_foldl
    | split
    | (with_reducible refine Keeps.upd ?_ rfl ?_ ?_ ?_ ?_ ?_ ?_ ?_ ?_ ?_ ?_ ?_ ?_ ?_ ?_ ?_ ?_ ?_)
    | with_reducible exact (fun h => h)

theorem State.claEventMsg_keeps {q : List Instr} {s : State} (h : Keeps q s) (a0 a1 a2 a3) : Keeps q (State.claEventMsg s a0 a1 a2 a3) := by
  unfold State.claEventMsg
  try dsimp only
  repeat' first
    | with_reducible assumption
    | with_reducible apply State.sendEvent_keeps

theorem State.stopDriving_keeps {q : List Instr} {s : State} (h : Keeps q s) : Keeps q (State.stopDriving s) := by
  unfold State.stopDriving
  try dsimp only
  repeat' first
    | with_reducible assumption
    | with_reducible apply State.wr_keeps
    | with_reducible apply keeps_foldl
    | split
    | (with_reducible refine Keeps.upd ?_ rfl ?_ ?_ ?_ ?_ ?_ ?_ ?_ ?_ ?_ ?_ ?_ ?_ ?_ ?_ ?_ ?_ ?_)
    | with_reducible exact (fun h => h)

theorem State.startDriving_keeps {q : List Instr} {s : State} (h : Keeps q s) : Keeps q (State.startDriving s) := by
  unfold State.startDriving
  try dsimp only
  repeat' first
    | with_reducible assumption
    | with_reducible apply State.wr_keeps
    | with_reducible apply keeps_foldl
    | split
    | (with_reducible refine Keeps.upd ?_ rfl ?_ ?_ ?_ ?_ ?_ ?_ ?_ ?_ ?_ ?_ ?_ ?_ ?_ ?_ ?_ ?_ ?_)
    | with_reducible exact (fun h => h)

theorem State.giveGo_keeps {q : List Instr} {s : State} (h : Keeps q s) : Keeps q (State.giveGo s) := by
  unfold State.giveGo
  try dsimp only
  repeat' first
    | with_reducible assumption
    | with_reducible apply State.claEventMsg_keeps
    | with_reducible apply State.event_keeps
    | with_reducible apply State.releaseRegion_keeps
    | with_reducible apply State.wr_keeps
    | with_reducible apply keeps_foldl
    | split
    | intro _

theorem State.tryGo_keeps {q : List Instr} {s : State} (h : Keeps q s) : Keeps q (State.tryGo s) := by
  unfold State.tryGo
  try dsimp only
  repeat' first
    | with_reducible assumption
    | with_reducible apply State.giveGo_keeps
    | with_reducible apply keeps_foldl
    | split

theorem State.blankCla_keeps {q : List Instr} {s : State} (h : Keeps q s) : Keeps q (State.blankCla s) := by
  unfold State.blankCla
  try dsimp only
  repeat' first
    | with_reducible assumption
    | with_reducible apply State.setRegions_keeps
    | with_reducible apply State.wr_keeps

theorem State.startLoad_keeps {q : List Instr} {s : State} (h : Keeps q s) : Keeps q (State.startLoad s) := by
  unfold State.startLoad
  try dsimp only
  repeat' first
    | with_reducible assumption
    | with_reducible apply State.blankCla_keeps
    | with_reducible apply State.emit_keeps
    | with_reducible apply State.startDriving_keeps
    | with_reducible apply keeps_foldl
    | split
    | (with_reducible refine Keeps.upd ?_ rfl ?_ ?_ ?_ ?_ ?_ ?_ ?_ ?_ ?_ ?_ ?_ ?_ ?_ ?_ ?_ ?_ ?_)
    | with_reducible exact (fun h => h)

theorem State.showStream_keeps {q : List Instr} {s : State} (h : Keeps q s) (a0) : Keeps q (State.showStream s a0) := by
  unfold State.showStream
  try dsimp only
  repeat' first
    | with_reducible assumption
    | with_reducible apply State.wr_keeps
    | with_reducible apply keeps_foldl
    | split
    | (with_reducible refine Keeps.upd ?_ rfl ?_ ?_ ?_ ?_ ?_ ?_ ?_ ?_ ?_ ?_ ?_ ?_ ?_ ?_ ?_ ?_ ?_)
    | with_reducible exact (fun h => h)

theorem State.endStream_keeps {q : List Instr} {s : State} (h : Keeps q s) (a0 a1) : Keeps q (State.endStream s a0 a1) := by
  unfold State.endStream
  try dsimp only
  repeat' first
    | with_reducible assumption
    | with_reducible apply State.wr_keeps
    | with_reducible apply keeps_foldl
    | split
    | (with_reducible refine Keeps.upd ?_ rfl ?_ ?_ ?_ ?_ ?_ ?_ ?_ ?_ ?_ ?_ ?_ ?_ ?_ ?_ ?_ ?_ ?_)
    | with_reducible exact (fun h => h)

theorem State.streamError_keeps {q : List Instr} {s : State} (h : Keeps q s) (a0 a1) : Keeps q (State.streamError s a0 a1) := by
  unfold State.streamError
  try dsimp only
  repeat' first
    | with_reducible assumption
    | with_reducible apply State.claEventMsg_keeps
    | with_reducible apply State.endStream_keeps
    | with_reducible apply State.event_keeps
    | with_reducible apply State.setRegions_keeps
    | with_reducible apply State.wr_keeps
    | with_reducible apply keeps_foldl
    | split
    | (with_reducible refine Keeps.upd ?_ rfl ?_ ?_ ?_ ?_ ?_ ?_ ?_ ?_ ?_ ?_ ?_ ?_ ?_ ?_ ?_ ?_ ?_)
    | with_reducible exact (fun h => h)

theorem State.abortStream_keeps {q : List Instr} {s : State} (h : Keeps q s) : Keeps q (State.abortStream s) := by
  unfold State.abortStream
  try dsimp only
  repeat' first
    | with_reducible assumption
    | with_reducible apply State.streamError_keeps
    | with_reducible apply keeps_foldl
    | split

theorem State.abortStreamIn_keeps {q : List Instr} {s : State} (h : Keeps q s) (a0) : Keeps q (State.abortStreamIn s a0) := by
  unfold State.abortStreamIn
  try dsimp only
  repeat' first
    | with_reducible assumption
    | with_reducible apply State.streamError_keeps
    | with_reducible apply keeps_foldl
    | split

theorem State.fetchedExt_keeps {q : List Instr} {s : State} (h : Keeps q s) (a0 a1) : Keeps q (State.fetchedExt s a0 a1) := by
  unfold State.fetchedExt
  try dsimp only
  repeat' first
    | with_reducible assumption
    | with_reducible apply State.touch_keeps
    | with_reducible apply keeps_foldl
    | split

theorem State.packet_keeps {q : List Instr} {s : State} (h : Keeps q s) (a0 a1 a2 a3 a4) (ha4 : ∀ t x1, Keeps q t → Keeps q (a4 t x1)) : Keeps q (State.packet s a0 a1 a2 a3 a4) := by
  unfold State.packet
  try dsimp only
  repeat' first
    | with_reducible assumption
    | with_reducible apply State.fetchedExt_keeps
    | with_reducible apply State.streamError_keeps
    | with_reducible apply ha4
    | with_reducible apply keeps_foldl
    | split

theorem State.writeFrames_keeps {q : List Instr} {s : State} (h : Keeps q s) (a0 a1) : Keeps q (State.writeFrames s a0 a1) := by
  induction a1 generalizing s a0 with
  | nil => exact State.showStream_keeps h _
  | cons _ _ ih =>
    unfold State.writeFrames
    try dsimp only
    repeat' first
      | with_reducible assumption
      | with_reducible apply ih
      | with_reducible apply State.showStream_keeps
      | with_reducible apply State.streamError_keeps
      | with_reducible apply keeps_foldl
      | split
      | (with_reducible refine Keeps.upd ?_ rfl ?_ ?_ ?_ ?_ ?_ ?_ ?_ ?_ ?_ ?_ ?_ ?_ ?_ ?_ ?_ ?_ ?_)
      | with_reducible exact (fun h => h)

theorem State.commitRegion_keeps {q : List Instr} {s : State} (h : Keeps q s) (a0 a1) : Keeps q (State.commitRegion s a0 a1) := by
  unfold State.commitRegion
  try dsimp only
  repeat' first
    | with_reducible assumption
    | with_reducible apply State.releaseRegion_keeps
    | with_reducible apply State.setRegion_keeps
    | with_reducible apply keeps_foldl
    | split
    | (with_reducible refine Keeps.upd ?_ rfl ?_ ?_ ?_ ?_ ?_ ?_ ?_ ?_ ?_ ?_ ?_ ?_ ?_ ?_ ?_ ?_ ?_)
    | with_reducible exact (fun h => h)

theorem State.commitStream_keeps {q : List Instr} {s : State} (h : Keeps q s) (a0) : Keeps q (State.commitStream s a0) := by
  unfold State.commitStream
  try dsimp only
  repeat' first
    | with_reducible assumption
    | with_reducible apply State.claEventMsg_keeps
    | with_reducible apply State.commitRegion_keeps
    | with_reducible apply State.event_keeps
    | with_reducible apply State.showStream_keeps
    | with_reducible apply State.stopDriving_keeps
    | with_reducible apply State.streamError_keeps
    | with_reducible apply State.tryGo_keeps
    | with_reducible apply State.wr_keeps
    | with_reducible apply keeps_foldl
    | split
    | intro _

theorem execClaBusPassEnd_keeps {q : List Instr} {s : State} (h : Keeps q s) (a0) : KeepsNext q (execClaBusPassEnd a0 s) := by
  unfold execClaBusPassEnd
  try dsimp only
  repeat' first
    | with_reducible assumption
    | with_reducible apply keepsNext_next
    | with_reducible apply State.emit_keeps
    | with_reducible apply keeps_foldl
    | split
    | (with_reducible refine Keeps.upd ?_ rfl ?_ ?_ ?_ ?_ ?_ ?_ ?_ ?_ ?_ ?_ ?_ ?_ ?_ ?_ ?_ ?_ ?_)
    | with_reducible exact (fun h => h)

theorem execClaExtGo_keeps {q : List Instr} {s : State} (h : Keeps q s) (a0 a1) : KeepsNext q (execClaExtGo a0 a1 s) := by
  unfold execClaExtGo
  try dsimp only
  repeat' first
    | with_reducible assumption
    | with_reducible apply keepsNext_next
    | with_reducible apply State.wr_keeps
    | with_reducible apply keeps_foldl
    | split

theorem State.holdRegion_keeps {q : List Instr} {s : State} (h : Keeps q s) (a0) : Keeps q (State.holdRegion s a0) := by
  unfold State.holdRegion
  try dsimp only
  repeat' first
    | with_reducible assumption
    | with_reducible apply State.setRegion_keeps
    | with_reducible apply State.wr_keeps
    | with_reducible apply keeps_foldl
    | split

theorem State.unholdRegion_keeps {q : List Instr} {s : State} (h : Keeps q s) (a0) : Keeps q (State.unholdRegion s a0) := by
  unfold State.unholdRegion
  try dsimp only
  repeat' first
    | with_reducible assumption
    | with_reducible apply State.releaseRegion_keeps
    | with_reducible apply State.wr_keeps
    | with_reducible apply keeps_foldl
    | split

theorem execClaRegionAssign_keeps {q : List Instr} {s : State} (h : Keeps q s) (a0 a1 a2) : KeepsNext q (execClaRegionAssign a0 a1 a2 s) := by
  unfold execClaRegionAssign
  try dsimp only
  repeat' first
    | with_reducible assumption
    | with_reducible apply keepsNext_next
    | with_reducible apply State.event_keeps
    | with_reducible apply State.wr_keeps
    | with_reducible apply keeps_foldl
    | split

theorem execClaDoneTimeout_keeps {q : List Instr} {s : State} (h : Keeps q s) : KeepsNext q (execClaDoneTimeout s) := by
  unfold execClaDoneTimeout
  try dsimp only
  repeat' first
    | with_reducible assumption
    | with_reducible apply keepsNext_next
    | with_reducible apply State.claEventMsg_keeps
    | with_reducible apply State.event_keeps
    | with_reducible apply keeps_foldl
    | split
    | (with_reducible refine Keeps.upd ?_ rfl ?_ ?_ ?_ ?_ ?_ ?_ ?_ ?_ ?_ ?_ ?_ ?_ ?_ ?_ ?_ ?_ ?_)
    | with_reducible exact (fun h => h)

theorem execReleaseDone_keeps {q : List Instr} {s : State} (h : Keeps q s) (a0) : KeepsNext q (execReleaseDone a0 s) := by
  unfold execReleaseDone
  try dsimp only
  repeat' first
    | with_reducible assumption
    | with_reducible apply keepsNext_next
    | with_reducible apply State.stopDriving_keeps
    | with_reducible apply keeps_foldl
    | split
    | (with_reducible refine Keeps.upd ?_ rfl ?_ ?_ ?_ ?_ ?_ ?_ ?_ ?_ ?_ ?_ ?_ ?_ ?_ ?_ ?_ ?_ ?_)
    | with_reducible exact (fun h => h)

theorem State.targetTimeout_keeps {q : List Instr} {s : State} (h : Keeps q s) (a0 a1) : Keeps q (State.targetTimeout s a0 a1) := by
  unfold State.targetTimeout
  try dsimp only
  repeat' first
    | with_reducible assumption
    | with_reducible apply State.emit_keeps
    | with_reducible apply State.event_keeps
    | with_reducible apply keeps_foldl
    | split

theorem execClaTargetAccess_keeps {q : List Instr} {s : State} (h : Keeps q s) (a0 a1 a2 a3) : KeepsNext q (execClaTargetAccess a0 a1 a2 a3 s) := by
  unfold execClaTargetAccess
  try dsimp only
  repeat' first
    | with_reducible assumption
    | with_reducible apply keepsNext_next
    | with_reducible apply State.emit_keeps
    | with_reducible apply State.targetTimeout_keeps
    | with_reducible apply keeps_foldl
    | split

theorem execClaTargetTimeout_keeps {q : List Instr} {s : State} (h : Keeps q s) (a0 a1 a2) : KeepsNext q (execClaTargetTimeout a0 a1 a2 s) := by
  unfold execClaTargetTimeout
  try dsimp only
  repeat' first
    | with_reducible assumption
    | with_reducible apply keepsNext_next
    | with_reducible apply State.targetTimeout_keeps
    | with_reducible apply keeps_foldl
    | split

theorem State.askNoc_keeps {q : List Instr} {s : State} (h : Keeps q s) (a0 a1 a2) : Keeps q (State.askNoc s a0 a1 a2) := by
  unfold State.askNoc
  try dsimp only
  repeat' first
    | with_reducible assumption
    | with_reducible apply State.readHost_keeps
    | with_reducible apply State.sendOp_keeps
    | with_reducible apply keeps_foldl
    | split
    | (with_reducible refine Keeps.upd ?_ rfl ?_ ?_ ?_ ?_ ?_ ?_ ?_ ?_ ?_ ?_ ?_ ?_ ?_ ?_ ?_ ?_ ?_)
    | with_reducible exact (fun h => h)

theorem State.nocGive_keeps {q : List Instr} {s : State} (h : Keeps q s) (a0 a1 a2 a3) : Keeps q (State.nocGive s a0 a1 a2 a3) := by
  unfold State.nocGive
  try dsimp only
  repeat' first
    | with_reducible assumption
    | with_reducible apply State.askNoc_keeps
    | with_reducible apply State.emit_keeps
    | with_reducible apply State.touchTagged_keeps
    | with_reducible apply keeps_foldl
    | split
    | (with_reducible refine Keeps.upd ?_ rfl ?_ ?_ ?_ ?_ ?_ ?_ ?_ ?_ ?_ ?_ ?_ ?_ ?_ ?_ ?_ ?_ ?_)
    | with_reducible exact (fun h => h)

theorem State.nocRead_keeps {q : List Instr} {s : State} (h : Keeps q s) (a0 a1) : Keeps q (State.nocRead s a0 a1) := by
  unfold State.nocRead
  try dsimp only
  repeat' first
    | with_reducible assumption
    | with_reducible apply State.emit_keeps
    | with_reducible apply State.nocGive_keeps
    | with_reducible apply keeps_foldl
    | split

theorem State.nocWrite_keeps {q : List Instr} {s : State} (h : Keeps q s) (a0 a1) : Keeps q (State.nocWrite s a0 a1) := by
  unfold State.nocWrite
  try dsimp only
  repeat' first
    | with_reducible assumption
    | with_reducible apply State.sendOp_keeps
    | with_reducible apply State.storeTagged_keeps
    | with_reducible apply keeps_foldl
    | split

theorem State.addFaults_keeps {q : List Instr} {s : State} (h : Keeps q s) (a0 a1 a2) : Keeps q (State.addFaults s a0 a1 a2) := by
  unfold State.addFaults
  try dsimp only
  repeat' first
    | with_reducible assumption
    | with_reducible apply State.addFault_keeps
    | with_reducible apply keeps_foldl
    | split
    | intro _

theorem State.tapGive_keeps {q : List Instr} {s : State} (h : Keeps q s) (a0 a1 a2 a3 a4 a5) : Keeps q (State.tapGive s a0 a1 a2 a3 a4 a5) := by
  unfold State.tapGive
  try dsimp only
  repeat' first
    | with_reducible assumption
    | with_reducible apply State.addFaults_keeps
    | with_reducible apply State.emit_keeps
    | with_reducible apply State.setList_keeps
    | with_reducible apply State.touchTagged_keeps
    | with_reducible apply keeps_foldl
    | split

theorem State.tapOut_keeps {q : List Instr} {s : State} (h : Keeps q s) (a0 a1 a2 a3 a4) : Keeps q (State.tapOut s a0 a1 a2 a3 a4) := by
  unfold State.tapOut
  try dsimp only
  repeat' first
    | with_reducible assumption
    | with_reducible apply State.tapGive_keeps

theorem State.tapIn_keeps {q : List Instr} {s : State} (h : Keeps q s) (a0 a1 a2 a3 a4) : Keeps q (State.tapIn s a0 a1 a2 a3 a4) := by
  unfold State.tapIn
  try dsimp only
  repeat' first
    | with_reducible assumption
    | with_reducible apply State.setList_keeps
    | with_reducible apply State.tapStore_keeps

theorem State.takeHeld_keeps {q : List Instr} {s : State} (h : Keeps q s) (a0) : Keeps q (State.takeHeld s a0) := by
  unfold State.takeHeld
  try dsimp only
  repeat' first
    | with_reducible assumption
    | with_reducible apply keeps_foldl
    | split
    | (with_reducible refine Keeps.upd ?_ rfl ?_ ?_ ?_ ?_ ?_ ?_ ?_ ?_ ?_ ?_ ?_ ?_ ?_ ?_ ?_ ?_ ?_)
    | with_reducible exact (fun h => h)

theorem execClaRegionFrame_keeps {q : List Instr} {s : State} (h : Keeps q s) (a0 a1 a2) : KeepsNext q (execClaRegionFrame a0 a1 a2 s) := by
  unfold execClaRegionFrame
  try dsimp only
  repeat' first
    | with_reducible assumption
    | with_reducible apply keepsNext_next
    | with_reducible apply State.emit_keeps
    | with_reducible apply State.takeHeld_keeps
    | with_reducible apply keeps_foldl
    | split

theorem State.claDown_keeps {q : List Instr} {s : State} (h : Keeps q s) : Keeps q (State.claDown s) := by
  unfold State.claDown
  try dsimp only
  repeat' first
    | with_reducible assumption
    | with_reducible apply State.abortStream_keeps
    | with_reducible apply State.setRegion_keeps
    | with_reducible apply State.stopDriving_keeps
    | with_reducible apply State.wr_keeps
    | with_reducible apply keeps_foldl
    | split
    | (with_reducible refine Keeps.upd ?_ rfl ?_ ?_ ?_ ?_ ?_ ?_ ?_ ?_ ?_ ?_ ?_ ?_ ?_ ?_ ?_ ?_ ?_)
    | with_reducible exact (fun h => h)
    | with_reducible exact (fun h => SMap.wf_set h _ _)
    | with_reducible exact (fun h => SMap.wf_clear h _)
    | with_reducible exact (fun h => SMap.wf_filter h _)
    | with_reducible exact (Memory.wf_same rfl rfl)
    | with_reducible exact (fun _ => SMap.wf_foldl_set _ _ _ rfl)
    | exact (fun _ => rfl)
    | intro _

end Sys2Proof.Machine
end

