-- ==== Sys2Proof/Laws/KeepsResetRequest.lean ====
section
/-!
SUPPORT. The operations of Machine/ResetRequest.lean keep the queue and the canonical form of every map (`Keeps`).
-/
namespace Sys2Proof.Machine

theorem State.setResets_keeps {q : List Instr} {s : State} (h : Keeps q s) (a0) : Keeps q (State.setResets s a0) := by
  unfold State.setResets
  try dsimp only
  repeat' first
    | with_reducible assumption
    | with_reducible apply keeps_foldl
    | split
    | (with_reducible refine Keeps.upd ?_ rfl ?_ ?_ ?_ ?_ ?_ ?_ ?_ ?_ ?_ ?_ ?_ ?_ ?_ ?_ ?_ ?_ ?_)
    | with_reducible exact (fun h => h)

theorem State.putReset_keeps {q : List Instr} {s : State} (h : Keeps q s) (a0) : Keeps q (State.putReset s a0) := by
  unfold State.putReset
  try dsimp only
  repeat' first
    | with_reducible assumption
    | with_reducible apply State.setResets_keeps

theorem State.showReset_keeps {q : List Instr} {s : State} (h : Keeps q s) : Keeps q (State.showReset s) := by
  unfold State.showReset
  try dsimp only
  repeat' first
    | with_reducible assumption
    | with_reducible apply State.wr_keeps
    | with_reducible apply keeps_foldl
    | split

theorem State.toPhase_keeps {q : List Instr} {s : State} (h : Keeps q s) (a0 a1) : Keeps q (State.toPhase s a0 a1) := by
  unfold State.toPhase
  try dsimp only
  repeat' first
    | with_reducible assumption
    | with_reducible apply State.putReset_keeps
    | with_reducible apply State.showReset_keeps

theorem State.traceReset_keeps {q : List Instr} {s : State} (h : Keeps q s) (a0 a1 a2) : Keeps q (State.traceReset s a0 a1 a2) := by
  unfold State.traceReset
  try dsimp only
  repeat' first
    | with_reducible assumption
    | with_reducible apply State.trace_keeps

theorem State.declareReset_keeps {q : List Instr} {s : State} (h : Keeps q s) (a0 a1 a2) : Keeps q (State.declareReset s a0 a1 a2) := by
  unfold State.declareReset
  try dsimp only
  repeat' first
    | with_reducible assumption
    | with_reducible apply State.declareAll_keeps
    | with_reducible apply State.declareFault_keeps
    | with_reducible apply keeps_foldl
    | split
    | intro _

theorem State.abortChurnOf_keeps {q : List Instr} {s : State} (h : Keeps q s) (a0) : Keeps q (State.abortChurnOf s a0) := by
  unfold State.abortChurnOf
  try dsimp only
  repeat' first
    | with_reducible assumption
    | with_reducible apply State.abortChurn_keeps
    | with_reducible apply keeps_foldl
    | split

theorem State.evictHosts_keeps {q : List Instr} {s : State} (h : Keeps q s) (a0) : Keeps q (State.evictHosts s a0) := by
  unfold State.evictHosts
  try dsimp only
  repeat' first
    | with_reducible assumption
    | with_reducible apply State.loseHosts_keeps

theorem State.startReset_keeps {q : List Instr} {s : State} (h : Keeps q s) (a0 a1 a2) : Keeps q (State.startReset s a0 a1 a2) := by
  unfold State.startReset
  try dsimp only
  repeat' first
    | with_reducible assumption
    | with_reducible apply State.abortChurnOf_keeps
    | with_reducible apply State.declareReset_keeps
    | with_reducible apply State.evictHosts_keeps
    | with_reducible apply State.setResets_keeps
    | with_reducible apply State.showReset_keeps
    | with_reducible apply State.traceReset_keeps
    | with_reducible apply State.wr_keeps
    | with_reducible apply keeps_foldl
    | split
    | (with_reducible refine Keeps.upd ?_ rfl ?_ ?_ ?_ ?_ ?_ ?_ ?_ ?_ ?_ ?_ ?_ ?_ ?_ ?_ ?_ ?_ ?_)
    | with_reducible exact (fun h => h)

theorem State.requestResetAt_keeps {q : List Instr} {s : State} (h : Keeps q s) (a0 a1 a2) : Keeps q (State.requestResetAt s a0 a1 a2) := by
  unfold State.requestResetAt
  try dsimp only
  repeat' first
    | with_reducible assumption
    | with_reducible apply State.count_keeps
    | with_reducible apply State.declareReset_keeps
    | with_reducible apply State.evictHosts_keeps
    | with_reducible apply State.putReset_keeps
    | with_reducible apply State.startReset_keeps
    | with_reducible apply State.traceReset_keeps
    | with_reducible apply State.wr_keeps
    | with_reducible apply keeps_foldl
    | split
    | (with_reducible refine Keeps.upd ?_ rfl ?_ ?_ ?_ ?_ ?_ ?_ ?_ ?_ ?_ ?_ ?_ ?_ ?_ ?_ ?_ ?_ ?_)
    | with_reducible exact (fun h => h)

theorem State.requestReset_keeps {q : List Instr} {s : State} (h : Keeps q s) (a0 a1) : Keeps q (State.requestReset s a0 a1) := by
  unfold State.requestReset
  try dsimp only
  repeat' first
    | with_reducible assumption
    | with_reducible apply State.requestResetAt_keeps

theorem State.writeRstCtl_keeps {q : List Instr} {s : State} (h : Keeps q s) (a0 a1) : Keeps q (State.writeRstCtl s a0 a1) := by
  unfold State.writeRstCtl
  try dsimp only
  repeat' first
    | with_reducible assumption
    | with_reducible apply State.requestReset_keeps
    | with_reducible apply keeps_foldl
    | split

end Sys2Proof.Machine
end

