-- ==== Sys2Proof/Laws/KeepsEcc.lean ====
section
/-!
SUPPORT. The operations of Machine/Ecc.lean keep the queue and the canonical form of every map (`Keeps`).
-/
namespace Sys2Proof.Machine

theorem State.showRemaps_keeps {q : List Instr} {s : State} (h : Keeps q s) (a0) : Keeps q (State.showRemaps s a0) := by
  unfold State.showRemaps
  try dsimp only
  repeat' first
    | with_reducible assumption
    | with_reducible apply State.wr_keeps

theorem State.retireRow_keeps {q : List Instr} {s : State} (h : Keeps q s) (a0 a1 a2 a3) : Keeps q (State.retireRow s a0 a1 a2 a3) := by
  unfold State.retireRow
  try dsimp only
  repeat' first
    | with_reducible assumption
    | with_reducible apply State.event_keeps
    | with_reducible apply State.finding_keeps
    | with_reducible apply State.showRemaps_keeps
    | with_reducible apply keeps_foldl
    | split
    | (with_reducible refine Keeps.upd ?_ rfl ?_ ?_ ?_ ?_ ?_ ?_ ?_ ?_ ?_ ?_ ?_ ?_ ?_ ?_ ?_ ?_ ?_)
    | with_reducible exact (fun h => h)
    | with_reducible exact (fun h => SMap.wf_set h _ _)
    | with_reducible exact (fun h => SMap.wf_clear h _)
    | with_reducible exact (fun h => SMap.wf_filter h _)
    | with_reducible exact (Memory.wf_same rfl rfl)

theorem State.listRows_keeps {q : List Instr} {s : State} (h : Keeps q s) : Keeps q (State.listRows s) := by
  unfold State.listRows
  try dsimp only
  repeat' first
    | with_reducible assumption
    | with_reducible apply keeps_foldl
    | split
    | (with_reducible refine Keeps.upd ?_ rfl ?_ ?_ ?_ ?_ ?_ ?_ ?_ ?_ ?_ ?_ ?_ ?_ ?_ ?_ ?_ ?_ ?_)
    | with_reducible exact (fun h => h)
    | with_reducible exact (fun h => SMap.wf_set h _ _)
    | with_reducible exact (fun h => SMap.wf_clear h _)
    | with_reducible exact (fun h => SMap.wf_filter h _)
    | with_reducible exact (Memory.wf_same rfl rfl)

theorem execRowRemapCopyDone_keeps {q : List Instr} {s : State} (h : Keeps q s) (a0 a1 a2 a3) : KeepsNext q (execRowRemapCopyDone a0 a1 a2 a3 s) := by
  unfold execRowRemapCopyDone
  try dsimp only
  repeat' first
    | with_reducible assumption
    | with_reducible apply keepsNext_next
    | with_reducible apply State.event_keeps
    | with_reducible apply State.listRows_keeps
    | with_reducible apply keeps_foldl
    | split
    | (with_reducible refine Keeps.upd ?_ rfl ?_ ?_ ?_ ?_ ?_ ?_ ?_ ?_ ?_ ?_ ?_ ?_ ?_ ?_ ?_ ?_ ?_)
    | with_reducible exact (fun h => h)
    | with_reducible exact (fun h => SMap.wf_set h _ _)
    | with_reducible exact (fun h => SMap.wf_clear h _)
    | with_reducible exact (fun h => SMap.wf_filter h _)
    | with_reducible exact (Memory.wf_same rfl rfl)

theorem State.correctedHbm_keeps {q : List Instr} {s : State} (h : Keeps q s) (a0 a1) : Keeps q (State.correctedHbm s a0 a1) := by
  unfold State.correctedHbm
  try dsimp only
  repeat' first
    | with_reducible assumption
    | with_reducible apply State.count_keeps
    | with_reducible apply State.countEs_keeps
    | with_reducible apply State.event_keeps
    | with_reducible apply State.recordCe_keeps
    | with_reducible apply State.retireRow_keeps
    | with_reducible apply keeps_foldl
    | split
    | (with_reducible refine Keeps.upd ?_ rfl ?_ ?_ ?_ ?_ ?_ ?_ ?_ ?_ ?_ ?_ ?_ ?_ ?_ ?_ ?_ ?_ ?_)
    | with_reducible exact (fun h => h)
    | with_reducible exact (fun h => SMap.wf_set h _ _)
    | with_reducible exact (fun h => SMap.wf_clear h _)
    | with_reducible exact (fun h => SMap.wf_filter h _)
    | with_reducible exact (Memory.wf_same rfl rfl)

theorem State.reportHbm_keeps {q : List Instr} {s : State} (h : Keeps q s) (a0 a1 a2) : Keeps q (State.reportHbm s a0 a1 a2) := by
  unfold State.reportHbm
  try dsimp only
  repeat' first
    | with_reducible assumption
    | with_reducible apply State.count_keeps
    | with_reducible apply State.event_keeps
    | with_reducible apply State.finding_keeps
    | with_reducible apply State.report_keeps
    | with_reducible apply State.requestResetAt_keeps
    | with_reducible apply State.wr_keeps
    | with_reducible apply State.wr64_keeps
    | with_reducible apply keeps_foldl
    | split

theorem State.reportScratch_keeps {q : List Instr} {s : State} (h : Keeps q s) (a0 a1) : Keeps q (State.reportScratch s a0 a1) := by
  unfold State.reportScratch
  try dsimp only
  repeat' first
    | with_reducible assumption
    | with_reducible apply State.finding_keeps
    | with_reducible apply State.report_keeps
    | with_reducible apply State.requestResetAt_keeps

theorem State.correct_keeps {q : List Instr} {s : State} (h : Keeps q s) (a0) : Keeps q (State.correct s a0) := by
  unfold State.correct
  try dsimp only
  repeat' first
    | with_reducible assumption
    | with_reducible apply State.correctedHbm_keeps
    | with_reducible apply State.countCl_keeps
    | with_reducible apply keeps_foldl
    | split

theorem State.enterRow_keeps {q : List Instr} {s : State} (h : Keeps q s) (a0) : Keeps q (State.enterRow s a0) := by
  unfold State.enterRow
  try dsimp only
  repeat' first
    | with_reducible assumption
    | with_reducible apply State.retireRow_keeps
    | with_reducible apply keeps_foldl
    | split

theorem State.reportError_keeps {q : List Instr} {s : State} (h : Keeps q s) (a0) : Keeps q (State.reportError s a0) := by
  unfold State.reportError
  try dsimp only
  repeat' first
    | with_reducible assumption
    | with_reducible apply State.reportHbm_keeps
    | with_reducible apply State.reportScratch_keeps
    | with_reducible apply keeps_foldl
    | split

theorem State.dropFound_keeps {q : List Instr} {s : State} (h : Keeps q s) (a0) : Keeps q (State.dropFound s a0) := by
  unfold State.dropFound
  try dsimp only
  repeat' first
    | with_reducible assumption
    | with_reducible apply keeps_foldl
    | split
    | (with_reducible refine Keeps.upd ?_ rfl ?_ ?_ ?_ ?_ ?_ ?_ ?_ ?_ ?_ ?_ ?_ ?_ ?_ ?_ ?_ ?_ ?_)
    | with_reducible exact (fun h => h)
    | with_reducible exact (fun h => SMap.wf_set h _ _)
    | with_reducible exact (fun h => SMap.wf_clear h _)
    | with_reducible exact (fun h => SMap.wf_filter h _)
    | with_reducible exact (Memory.wf_same rfl rfl)

theorem State.handleErrorsN_keeps {q : List Instr} {s : State} (h : Keeps q s) (a0) : Keeps q (State.handleErrorsN s a0) := by
  induction a0 generalizing s with
  | zero => exact h
  | succ _ ih =>
    unfold State.handleErrorsN
    try dsimp only
    repeat' first
      | with_reducible assumption
      | with_reducible apply ih
      | with_reducible apply State.correct_keeps
      | with_reducible apply State.dropFound_keeps
      | with_reducible apply State.enterRow_keeps
      | with_reducible apply State.reportError_keeps
      | with_reducible apply keeps_foldl
      | split
      | (with_reducible refine Keeps.upd ?_ rfl ?_ ?_ ?_ ?_ ?_ ?_ ?_ ?_ ?_ ?_ ?_ ?_ ?_ ?_ ?_ ?_ ?_)
      | with_reducible exact (fun h => h)
      | with_reducible exact (fun h => SMap.wf_set h _ _)
      | with_reducible exact (fun h => SMap.wf_clear h _)
      | with_reducible exact (fun h => SMap.wf_filter h _)
      | with_reducible exact (Memory.wf_same rfl rfl)

theorem State.handleErrors_keeps {q : List Instr} {s : State} (h : Keeps q s) : Keeps q (State.handleErrors s) := by
  unfold State.handleErrors
  try dsimp only
  repeat' first
    | with_reducible assumption
    | with_reducible apply State.handleErrorsN_keeps

theorem State.parse_keeps {q : List Instr} {s : State} (h : Keeps q s) (a0) : Keeps q (State.parse s a0) := by
  unfold State.parse
  try dsimp only
  repeat' first
    | with_reducible assumption
    | with_reducible apply State.jobStore_keeps
    | with_reducible apply State.setSess_keeps
    | with_reducible apply keeps_foldl
    | split

theorem State.parseAll_keeps {q : List Instr} {s : State} (h : Keeps q s) : Keeps q (State.parseAll s) := by
  unfold State.parseAll
  try dsimp only
  repeat' first
    | with_reducible assumption
    | with_reducible apply State.parse_keeps
    | with_reducible apply keeps_foldl
    | split
    | intro _

theorem State.wrapUp_keeps {q : List Instr} {s : State} (h : Keeps q s) : Keeps q (State.wrapUp s) := by
  unfold State.wrapUp
  try dsimp only
  repeat' first
    | with_reducible assumption
    | with_reducible apply State.drainEgress_keeps
    | with_reducible apply State.handleErrors_keeps
    | with_reducible apply State.parseAll_keeps
    | with_reducible apply State.settle_keeps

theorem execScrubRead_keeps {q : List Instr} {s : State} (h : Keeps q s) (a0 a1 a2) : KeepsNext q (execScrubRead a0 a1 a2 s) := by
  unfold execScrubRead
  try dsimp only
  repeat' first
    | with_reducible assumption
    | with_reducible apply keepsNext_next
    | with_reducible apply State.endPass_keeps
    | with_reducible apply State.handleErrors_keeps
    | with_reducible apply State.meet_keeps
    | with_reducible apply State.setChan_keeps
    | with_reducible apply State.strike_keeps
    | with_reducible apply State.wrapUp_keeps
    | with_reducible apply keeps_foldl
    | split

end Sys2Proof.Machine
end

