-- ==== Sys2Proof/Laws/KeepsValidate.lean ====
section
/-!
SUPPORT. The operations of Machine/Validate.lean keep the queue and the canonical form of every map (`Keeps`).
-/
namespace Sys2Proof.Machine

theorem State.askRemote_keeps {q : List Instr} {s : State} (h : Keeps q s) (a0 a1 a2 a3) : Keeps q (State.askRemote s a0 a1 a2 a3) := by
  unfold State.askRemote
  try dsimp only
  repeat' first
    | with_reducible assumption
    | with_reducible apply State.countReject_keeps
    | with_reducible apply State.sendOp_keeps
    | with_reducible apply State.touch_keeps
    | with_reducible apply keeps_foldl
    | split
    | (with_reducible refine Keeps.upd ?_ rfl ?_ ?_ ?_ ?_ ?_ ?_ ?_ ?_ ?_ ?_ ?_ ?_ ?_ ?_ ?_ ?_ ?_)
    | with_reducible exact (fun h => h)
    | with_reducible exact (fun h => SMap.wf_set h _ _)
    | with_reducible exact (fun h => SMap.wf_clear h _)
    | with_reducible exact (fun h => SMap.wf_filter h _)
    | with_reducible exact (Memory.wf_same rfl rfl)
    | with_reducible exact (fun _ => SMap.wf_foldl_set _ _ _ rfl)
    | exact (fun _ => rfl)
    | exact (fun h => h)
    | exact (fun h => Memory.wf_setByte h _ _)
    | exact (fun h => Memory.wf_undefine h _)
    | exact (fun h => Memory.wf_undefineBut h _ _)
    | exact (fun h => poison_setPoison h _ _)
    | intro _

theorem State.ask_keeps {q : List Instr} {s : State} (h : Keeps q s) (a0 a1 a2) : Keeps q (State.ask s a0 a1 a2) := by
  unfold State.ask
  try dsimp only
  repeat' first
    | with_reducible assumption
    | with_reducible apply State.askRemote_keeps
    | with_reducible apply State.readHost_keeps
    | with_reducible apply State.setList_keeps
    | with_reducible apply keeps_foldl
    | split
    | intro _

theorem State.issue_keeps {q : List Instr} {s : State} (h : Keeps q s) (a0 a1 a2 a3 a4 a5) : Keeps q (State.issue s a0 a1 a2 a3 a4 a5) := by
  unfold State.issue
  try dsimp only
  repeat' first
    | with_reducible assumption
    | with_reducible apply State.ask_keeps
    | with_reducible apply State.setList_keeps
    | with_reducible apply keeps_foldl
    | split
    | intro _

theorem State.finish_keeps {q : List Instr} {s : State} (h : Keeps q s) (a0 a1) : Keeps q (State.finish s a0 a1) := by
  unfold State.finish
  try dsimp only
  repeat' first
    | with_reducible assumption
    | with_reducible apply State.completeInstr_keeps
    | with_reducible apply keeps_foldl
    | split

theorem State.instr_keeps {q : List Instr} {s : State} (h : Keeps q s) (a0 a1 a2 a3) (ha3 : ∀ t x1 x2, Keeps q t → Keeps q (a3 t x1 x2)) : Keeps q (State.instr s a0 a1 a2 a3) := by
  unfold State.instr
  try dsimp only
  repeat' first
    | with_reducible assumption
    | with_reducible apply State.endWith_keeps
    | with_reducible apply State.startInstr_keeps
    | with_reducible apply State.wrapUp_keeps
    | with_reducible apply ha3
    | with_reducible apply keeps_foldl
    | split

end Sys2Proof.Machine
end

