-- ==== Sys2Proof/Laws/KeepsControl.lean ====
section
/-!
SUPPORT. The operations of Machine/Control.lean keep the queue and the canonical form of every map (`Keeps`).
-/
namespace Sys2Proof.Machine

theorem State.finishAs_keeps {q : List Instr} {s : State} (h : Keeps q s) (a0) : Keeps q (State.finishAs s a0) := by
  unfold State.finishAs
  try dsimp only
  repeat' first
    | with_reducible assumption
    | with_reducible apply State.finish_keeps
    | with_reducible apply State.setList_keeps

theorem State.storeInstr_keeps {q : List Instr} {s : State} (h : Keeps q s) (a0 a1 a2) : Keeps q (State.storeInstr s a0 a1 a2) := by
  unfold State.storeInstr
  try dsimp only
  repeat' first
    | with_reducible assumption
    | with_reducible apply State.advance_keeps
    | with_reducible apply State.jobStore_keeps
    | with_reducible apply State.setList_keeps

theorem State.sendInstr_keeps {q : List Instr} {s : State} (h : Keeps q s) (a0 a1 a2 a3) : Keeps q (State.sendInstr s a0 a1 a2 a3) := by
  unfold State.sendInstr
  try dsimp only
  repeat' first
    | with_reducible assumption
    | with_reducible apply State.advance_keeps
    | with_reducible apply State.sendOp_keeps
    | with_reducible apply State.setList_keeps

theorem State.failInstr_keeps {q : List Instr} {s : State} (h : Keeps q s) (a0) : Keeps q (State.failInstr s a0) := by
  unfold State.failInstr
  try dsimp only
  repeat' first
    | with_reducible assumption
    | with_reducible apply State.addFault_keeps
    | with_reducible apply State.advance_keeps
    | with_reducible apply State.setList_keeps

theorem execNop_keeps {q : List Instr} {s : State} (h : Keeps q s) (a0) : KeepsNext q (execNop a0 s) := by
  unfold execNop
  try dsimp only
  repeat' first
    | with_reducible assumption
    | with_reducible apply keepsNext_next
    | with_reducible apply State.finish_keeps
    | with_reducible apply State.instr_keeps
    | with_reducible apply State.wrapUp_keeps
    | with_reducible apply keeps_foldl
    | split
    | intro _

theorem execEndList_keeps {q : List Instr} {s : State} (h : Keeps q s) (a0) : KeepsNext q (execEndList a0 s) := by
  unfold execEndList
  try dsimp only
  repeat' first
    | with_reducible assumption
    | with_reducible apply keepsNext_next
    | with_reducible apply State.finish_keeps
    | with_reducible apply State.instr_keeps
    | with_reducible apply State.wrapUp_keeps
    | with_reducible apply keeps_foldl
    | split
    | intro _

theorem execSetaddr_keeps {q : List Instr} {s : State} (h : Keeps q s) (a0) : KeepsNext q (execSetaddr a0 s) := by
  unfold execSetaddr
  try dsimp only
  repeat' first
    | with_reducible assumption
    | with_reducible apply keepsNext_next
    | with_reducible apply State.finishAs_keeps
    | with_reducible apply State.instr_keeps
    | with_reducible apply State.wrapUp_keeps
    | with_reducible apply keeps_foldl
    | split
    | intro _

theorem execWrite_keeps {q : List Instr} {s : State} (h : Keeps q s) (a0) : KeepsNext q (execWrite a0 s) := by
  unfold execWrite
  try dsimp only
  repeat' first
    | with_reducible assumption
    | with_reducible apply keepsNext_next
    | with_reducible apply State.instr_keeps
    | with_reducible apply State.storeInstr_keeps
    | with_reducible apply State.wrapUp_keeps
    | with_reducible apply keeps_foldl
    | split
    | intro _

theorem State.enqueueRefused_keeps {q : List Instr} {s : State} (h : Keeps q s) (a0 a1) : Keeps q (State.enqueueRefused s a0 a1) := by
  unfold State.enqueueRefused
  try dsimp only
  repeat' first
    | with_reducible assumption
    | with_reducible apply State.refuseRecord_keeps

theorem State.enqueueHere_keeps {q : List Instr} {s : State} (h : Keeps q s) (a0 a1 a2) : Keeps q (State.enqueueHere s a0 a1 a2) := by
  unfold State.enqueueHere
  try dsimp only
  repeat' first
    | with_reducible assumption
    | with_reducible apply State.enqueueRefused_keeps
    | with_reducible apply State.post_keeps
    | with_reducible apply keeps_foldl
    | split

theorem State.ifAccepted_keeps {q : List Instr} {s : State} (h : Keeps q s) (a0 a1 a2) (ha2 : ∀ t, Keeps q t → Keeps q (a2 t)) : Keeps q (State.ifAccepted s a0 a1 a2) := by
  unfold State.ifAccepted
  try dsimp only
  repeat' first
    | with_reducible assumption
    | with_reducible apply State.countReject_keeps
    | with_reducible apply ha2
    | with_reducible apply keeps_foldl
    | split

theorem execEnqueue_keeps {q : List Instr} {s : State} (h : Keeps q s) (a0) : KeepsNext q (execEnqueue a0 s) := by
  unfold execEnqueue
  try dsimp only
  repeat' first
    | with_reducible assumption
    | with_reducible apply keepsNext_next
    | with_reducible apply State.enqueueHere_keeps
    | with_reducible apply State.failInstr_keeps
    | with_reducible apply State.finish_keeps
    | with_reducible apply State.ifAccepted_keeps
    | with_reducible apply State.instr_keeps
    | with_reducible apply State.sendInstr_keeps
    | with_reducible apply State.wrapUp_keeps
    | with_reducible apply keeps_foldl
    | split
    | intro _

theorem State.noteRaised_keeps {q : List Instr} {s : State} (h : Keeps q s) (a0 a1 a2) : Keeps q (State.noteRaised s a0 a1 a2) := by
  unfold State.noteRaised
  try dsimp only
  repeat' first
    | with_reducible assumption
    | with_reducible apply keeps_foldl
    | split
    | (with_reducible refine Keeps.upd ?_ rfl ?_ ?_ ?_ ?_ ?_ ?_ ?_ ?_ ?_ ?_ ?_ ?_ ?_ ?_ ?_ ?_ ?_)
    | with_reducible exact (fun h => h)

theorem State.signalBy_keeps {q : List Instr} {s : State} (h : Keeps q s) (a0 a1 a2 a3 a4) : Keeps q (State.signalBy s a0 a1 a2 a3 a4) := by
  unfold State.signalBy
  try dsimp only
  repeat' first
    | with_reducible assumption
    | with_reducible apply State.noteRaised_keeps
    | with_reducible apply State.signalAdd_keeps
    | with_reducible apply State.signalMax_keeps
    | with_reducible apply keeps_foldl
    | split

theorem execSignal_keeps {q : List Instr} {s : State} (h : Keeps q s) (a0) : KeepsNext q (execSignal a0 s) := by
  unfold execSignal
  try dsimp only
  repeat' first
    | with_reducible assumption
    | with_reducible apply keepsNext_next
    | with_reducible apply State.finish_keeps
    | with_reducible apply State.instr_keeps
    | with_reducible apply State.signalBy_keeps
    | with_reducible apply State.wrapUp_keeps
    | with_reducible apply keeps_foldl
    | split
    | intro _

theorem execWait_keeps {q : List Instr} {s : State} (h : Keeps q s) (a0) : KeepsNext q (execWait a0 s) := by
  unfold execWait
  try dsimp only
  repeat' first
    | with_reducible assumption
    | with_reducible apply keepsNext_next
    | with_reducible apply State.finish_keeps
    | with_reducible apply State.instr_keeps
    | with_reducible apply State.setList_keeps
    | with_reducible apply State.wrapUp_keeps
    | with_reducible apply keeps_foldl
    | split
    | intro _

theorem execRsignal_keeps {q : List Instr} {s : State} (h : Keeps q s) (a0) : KeepsNext q (execRsignal a0 s) := by
  unfold execRsignal
  try dsimp only
  repeat' first
    | with_reducible assumption
    | with_reducible apply keepsNext_next
    | with_reducible apply State.failInstr_keeps
    | with_reducible apply State.finish_keeps
    | with_reducible apply State.ifAccepted_keeps
    | with_reducible apply State.instr_keeps
    | with_reducible apply State.sendInstr_keeps
    | with_reducible apply State.signalBy_keeps
    | with_reducible apply State.wrapUp_keeps
    | with_reducible apply keeps_foldl
    | split
    | intro _

theorem State.qualify_keeps {q : List Instr} {s : State} (h : Keeps q s) (a0 a1 a2 a3) : Keeps q (State.qualify s a0 a1 a2 a3) := by
  unfold State.qualify
  try dsimp only
  repeat' first
    | with_reducible assumption
    | with_reducible apply State.setWheel_keeps
    | with_reducible apply keeps_foldl
    | split
    | (with_reducible refine Keeps.upd ?_ rfl ?_ ?_ ?_ ?_ ?_ ?_ ?_ ?_ ?_ ?_ ?_ ?_ ?_ ?_ ?_ ?_ ?_)
    | with_reducible exact (fun h => h)
    | with_reducible exact (fun h => SMap.wf_set h _ _)

theorem State.raiseStep_keeps {q : List Instr} {s : State} (h : Keeps q s) (a0 a1 a2) : Keeps q (State.raiseStep s a0 a1 a2) := by
  unfold State.raiseStep
  try dsimp only
  repeat' first
    | with_reducible assumption
    | with_reducible apply keeps_foldl
    | split
    | (with_reducible refine Keeps.upd ?_ rfl ?_ ?_ ?_ ?_ ?_ ?_ ?_ ?_ ?_ ?_ ?_ ?_ ?_ ?_ ?_ ?_ ?_)
    | with_reducible exact (fun h => h)
    | with_reducible exact (fun h => SMap.wf_set h _ _)

theorem execStep_keeps {q : List Instr} {s : State} (h : Keeps q s) (a0) : KeepsNext q (execStep a0 s) := by
  unfold execStep
  try dsimp only
  repeat' first
    | with_reducible assumption
    | with_reducible apply keepsNext_next
    | with_reducible apply State.finishAs_keeps
    | with_reducible apply State.instr_keeps
    | with_reducible apply State.qualify_keeps
    | with_reducible apply State.raiseStep_keeps
    | with_reducible apply State.wrapUp_keeps
    | with_reducible apply keeps_foldl
    | split
    | intro _

theorem execTmark_keeps {q : List Instr} {s : State} (h : Keeps q s) (a0) : KeepsNext q (execTmark a0 s) := by
  unfold execTmark
  try dsimp only
  repeat' first
    | with_reducible assumption
    | with_reducible apply keepsNext_next
    | with_reducible apply State.finish_keeps
    | with_reducible apply State.instr_keeps
    | with_reducible apply State.trace_keeps
    | with_reducible apply State.wrapUp_keeps
    | with_reducible apply keeps_foldl
    | split
    | intro _

theorem execWaitbeat_keeps {q : List Instr} {s : State} (h : Keeps q s) (a0) : KeepsNext q (execWaitbeat a0 s) := by
  unfold execWaitbeat
  try dsimp only
  repeat' first
    | with_reducible assumption
    | with_reducible apply keepsNext_next
    | with_reducible apply State.finish_keeps
    | with_reducible apply State.instr_keeps
    | with_reducible apply State.setList_keeps
    | with_reducible apply State.wrapUp_keeps
    | with_reducible apply keeps_foldl
    | split
    | intro _

theorem execWaitticks_keeps {q : List Instr} {s : State} (h : Keeps q s) (a0) : KeepsNext q (execWaitticks a0 s) := by
  unfold execWaitticks
  try dsimp only
  repeat' first
    | with_reducible assumption
    | with_reducible apply keepsNext_next
    | with_reducible apply State.finish_keeps
    | with_reducible apply State.instr_keeps
    | with_reducible apply State.setList_keeps
    | with_reducible apply State.wrapUp_keeps
    | with_reducible apply keeps_foldl
    | split
    | intro _

theorem execSetmark_keeps {q : List Instr} {s : State} (h : Keeps q s) (a0) : KeepsNext q (execSetmark a0 s) := by
  unfold execSetmark
  try dsimp only
  repeat' first
    | with_reducible assumption
    | with_reducible apply keepsNext_next
    | with_reducible apply State.finishAs_keeps
    | with_reducible apply State.instr_keeps
    | with_reducible apply State.wrapUp_keeps
    | with_reducible apply keeps_foldl
    | split
    | intro _

theorem execStamp_keeps {q : List Instr} {s : State} (h : Keeps q s) (a0) : KeepsNext q (execStamp a0 s) := by
  unfold execStamp
  try dsimp only
  repeat' first
    | with_reducible assumption
    | with_reducible apply keepsNext_next
    | with_reducible apply State.instr_keeps
    | with_reducible apply State.storeInstr_keeps
    | with_reducible apply State.wrapUp_keeps
    | with_reducible apply keeps_foldl
    | split
    | intro _

theorem State.release_keeps {q : List Instr} {s : State} (h : Keeps q s) (a0 a1) : Keeps q (State.release s a0 a1) := by
  unfold State.release
  try dsimp only
  repeat' first
    | with_reducible assumption
    | with_reducible apply State.finish_keeps
    | with_reducible apply State.settle_keeps
    | with_reducible apply keeps_foldl
    | split

theorem State.releaseWait_keeps {q : List Instr} {s : State} (h : Keeps q s) (a0) : Keeps q (State.releaseWait s a0) := by
  unfold State.releaseWait
  try dsimp only
  repeat' first
    | with_reducible assumption
    | with_reducible apply State.release_keeps

theorem execWaitbeatRelease_keeps {q : List Instr} {s : State} (h : Keeps q s) (a0) : KeepsNext q (execWaitbeatRelease a0 s) := by
  unfold execWaitbeatRelease
  try dsimp only
  repeat' first
    | with_reducible assumption
    | with_reducible apply keepsNext_next
    | with_reducible apply State.releaseWait_keeps
    | with_reducible apply State.wrapUp_keeps

theorem execWaitticksExpiry_keeps {q : List Instr} {s : State} (h : Keeps q s) (a0) : KeepsNext q (execWaitticksExpiry a0 s) := by
  unfold execWaitticksExpiry
  try dsimp only
  repeat' first
    | with_reducible assumption
    | with_reducible apply keepsNext_next
    | with_reducible apply State.release_keeps
    | with_reducible apply State.wrapUp_keeps

theorem execSetshape_keeps {q : List Instr} {s : State} (h : Keeps q s) (a0) : KeepsNext q (execSetshape a0 s) := by
  unfold execSetshape
  try dsimp only
  repeat' first
    | with_reducible assumption
    | with_reducible apply keepsNext_next
    | with_reducible apply State.finishAs_keeps
    | with_reducible apply State.instr_keeps
    | with_reducible apply State.wrapUp_keeps
    | with_reducible apply keeps_foldl
    | split
    | intro _

end Sys2Proof.Machine
end

