-- ==== Sys2Proof/Laws/KeepsMove.lean ====
section
/-!
SUPPORT. The operations of Machine/Move.lean keep the queue and the canonical form of every map (`Keeps`).
-/
namespace Sys2Proof.Machine

theorem execCopy_keeps {q : List Instr} {s : State} (h : Keeps q s) (a0) : KeepsNext q (execCopy a0 s) := by
  unfold execCopy
  try dsimp only
  repeat' first
    | with_reducible assumption
    | with_reducible apply keepsNext_next
    | with_reducible apply State.instr_keeps
    | with_reducible apply State.issue_keeps
    | with_reducible apply State.wrapUp_keeps
    | with_reducible apply keeps_foldl
    | split
    | intro _

theorem execConvert_keeps {q : List Instr} {s : State} (h : Keeps q s) (a0) : KeepsNext q (execConvert a0 s) := by
  unfold execConvert
  try dsimp only
  repeat' first
    | with_reducible assumption
    | with_reducible apply keepsNext_next
    | with_reducible apply State.instr_keeps
    | with_reducible apply State.issue_keeps
    | with_reducible apply State.wrapUp_keeps
    | with_reducible apply keeps_foldl
    | split
    | intro _

theorem execTap_keeps {q : List Instr} {s : State} (h : Keeps q s) (a0) : KeepsNext q (execTap a0 s) := by
  unfold execTap
  try dsimp only
  repeat' first
    | with_reducible assumption
    | with_reducible apply keepsNext_next
    | with_reducible apply State.ask_keeps
    | with_reducible apply State.failTap_keeps
    | with_reducible apply State.instr_keeps
    | with_reducible apply State.setList_keeps
    | with_reducible apply State.wrapUp_keeps
    | with_reducible apply keeps_foldl
    | split
    | intro _

end Sys2Proof.Machine
end

