-- ==== Sys2Proof/Laws/KeepsScreen.lean ====
section
/-!
SUPPORT. The operations of Machine/Screen.lean keep the queue and the canonical form of every map (`Keeps`).
-/
namespace Sys2Proof.Machine

theorem State.selectTile_keeps {q : List Instr} {s : State} (h : Keeps q s) (a0 a1 a2 a3 a4 a5 a6 a7) : Keeps q (State.selectTile s a0 a1 a2 a3 a4 a5 a6 a7) := by
  unfold State.selectTile
  try dsimp only
  repeat' first
    | with_reducible assumption
    | with_reducible apply State.count_keeps
    | with_reducible apply State.queueShadow_keeps
    | with_reducible apply State.reissueShadow_keeps
    | with_reducible apply State.setList_keeps
    | with_reducible apply State.setWheel_keeps
    | with_reducible apply keeps_foldl
    | split

theorem State.issueTile_keeps {q : List Instr} {s : State} (h : Keeps q s) (a0 a1 a2 a3) : Keeps q (State.issueTile s a0 a1 a2 a3) := by
  unfold State.issueTile
  try dsimp only
  repeat' first
    | with_reducible assumption
    | with_reducible apply State.selectTile_keeps
    | with_reducible apply keeps_foldl
    | split

theorem State.issueScreened_keeps {q : List Instr} {s : State} (h : Keeps q s) (a0 a1 a2 a3) : Keeps q (State.issueScreened s a0 a1 a2 a3) := by
  unfold State.issueScreened
  try dsimp only
  repeat' first
    | with_reducible assumption
    | with_reducible apply State.issueTile_keeps
    | with_reducible apply State.setList_keeps
    | with_reducible apply keeps_foldl
    | split
    | intro _

end Sys2Proof.Machine
end

