-- ==== Sys2Proof/Laws/KeepsMatrix.lean ====
section
/-!
SUPPORT. The operations of Machine/Matrix.lean keep the queue and the canonical form of every map (`Keeps`).
-/
namespace Sys2Proof.Machine

theorem execMma_keeps {q : List Instr} {s : State} (h : Keeps q s) (a0) : KeepsNext q (execMma a0 s) := by
  unfold execMma
  try dsimp only
  repeat' first
    | with_reducible assumption
    | with_reducible apply keepsNext_next
    | with_reducible apply State.instr_keeps
    | with_reducible apply State.issueScreened_keeps
    | with_reducible apply State.wrapUp_keeps
    | with_reducible apply keeps_foldl
    | split
    | intro _

end Sys2Proof.Machine
end

