-- ==== Sys2Proof/Laws/KeepsVectors.lean ====
section
/-!
SUPPORT. The operations of Machine/Vectors.lean keep the queue and the canonical form of every map (`Keeps`).
-/
namespace Sys2Proof.Machine

theorem execVew_keeps {q : List Instr} {s : State} (h : Keeps q s) (a0) : KeepsNext q (execVew a0 s) := by
  unfold execVew
  try dsimp only
  repeat' first
    | with_reducible assumption
    | with_reducible apply keepsNext_next
    | with_reducible apply State.instr_keeps
    | with_reducible apply State.issueScreened_keeps
    | with_reducible apply State.wrapUp_keeps
    | with_reducible apply keeps_foldl
    | split
    | intro _

theorem execVun_keeps {q : List Instr} {s : State} (h : Keeps q s) (a0) : KeepsNext q (execVun a0 s) := by
  unfold execVun
  try dsimp only
  repeat' first
    | with_reducible assumption
    | with_reducible apply keepsNext_next
    | with_reducible apply State.instr_keeps
    | with_reducible apply State.issueScreened_keeps
    | with_reducible apply State.wrapUp_keeps
    | with_reducible apply keeps_foldl
    | split
    | intro _

theorem execVred_keeps {q : List Instr} {s : State} (h : Keeps q s) (a0) : KeepsNext q (execVred a0 s) := by
  unfold execVred
  try dsimp only
  repeat' first
    | with_reducible assumption
    | with_reducible apply keepsNext_next
    | with_reducible apply State.instr_keeps
    | with_reducible apply State.issueScreened_keeps
    | with_reducible apply State.wrapUp_keeps
    | with_reducible apply keeps_foldl
    | split
    | intro _

end Sys2Proof.Machine
end

