-- ==== Sys2Proof/Laws/KeepsCollective.lean ====
section
/-!
SUPPORT. The operations of Machine/Collective.lean keep the queue and the canonical form of every map (`Keeps`).
-/
namespace Sys2Proof.Machine

theorem State.setAgree_keeps {q : List Instr} {s : State} (h : Keeps q s) (a0 a1) : Keeps q (State.setAgree s a0 a1) := by
  unfold State.setAgree
  try dsimp only
  repeat' first
    | with_reducible assumption
    | with_reducible apply State.setList_keeps
    | with_reducible apply State.setSeal_keeps
    | with_reducible apply keeps_foldl
    | split

theorem State.putAgree_keeps {q : List Instr} {s : State} (h : Keeps q s) (a0) : Keeps q (State.putAgree s a0) := by
  unfold State.putAgree
  try dsimp only
  repeat' first
    | with_reducible assumption
    | with_reducible apply keeps_foldl
    | split
    | (with_reducible refine Keeps.upd ?_ rfl ?_ ?_ ?_ ?_ ?_ ?_ ?_ ?_ ?_ ?_ ?_ ?_ ?_ ?_ ?_ ?_ ?_)
    | with_reducible exact (fun h => h)

theorem State.sendAgree_keeps {q : List Instr} {s t : State} {a0 a1 a2 a3 a4} (e : State.sendAgree s a0 a1 a2 a3 a4 = some t)
    (h : Keeps q s) : Keeps q t := by
  unfold State.sendAgree at e
  dsimp only at e
  split at e
  · cases e
    exact State.putAgree_keeps h _
  · exact State.sendCtrl_keeps e h

theorem State.sealSlot_keeps {q : List Instr} {s : State} (h : Keeps q s) (a0 a1 a2 a3) : Keeps q (State.sealSlot s a0 a1 a2 a3) := by
  unfold State.sealSlot
  try dsimp only
  repeat' first
    | with_reducible assumption
    | with_reducible apply State.event_keeps
    | with_reducible apply State.newest_keeps
    | with_reducible apply State.setSeal_keeps
    | with_reducible apply State.setSlot_keeps
    | with_reducible apply keeps_foldl
    | split
    | (with_reducible refine Keeps.upd ?_ rfl ?_ ?_ ?_ ?_ ?_ ?_ ?_ ?_ ?_ ?_ ?_ ?_ ?_ ?_ ?_ ?_ ?_)
    | with_reducible exact (fun h => h)

theorem State.takeResult_keeps {q : List Instr} {s : State} (h : Keeps q s) (a0 a1 a2 a3) : Keeps q (State.takeResult s a0 a1 a2 a3) := by
  unfold State.takeResult
  try dsimp only
  repeat' first
    | with_reducible assumption
    | with_reducible apply State.endWith_keeps
    | with_reducible apply State.sealSlot_keeps
    | with_reducible apply State.setList_keeps
    | with_reducible apply keeps_foldl
    | split
    | (with_reducible refine Keeps.upd ?_ rfl ?_ ?_ ?_ ?_ ?_ ?_ ?_ ?_ ?_ ?_ ?_ ?_ ?_ ?_ ?_ ?_ ?_)
    | with_reducible exact (fun h => h)

theorem State.deliver_keeps {q : List Instr} {s : State} (h : Keeps q s) (a0 a1 a2 a3) : Keeps q (State.deliver a0 s a1 a2 a3) := by
  induction a0 generalizing s a1 a2 a3 with
  | zero => exact h
  | succ _ ih =>
    unfold State.deliver
    try dsimp only
    repeat' first
      | with_reducible assumption
      | with_reducible apply ih
      | (with_reducible refine State.sendCtrl_keeps (e := by assumption) ?_)
      | with_reducible apply State.takeResult_keeps
      | with_reducible apply keeps_getD
      | with_reducible apply keeps_foldl_fst
      | with_reducible apply keeps_foldl_snd
      | with_reducible apply keeps_foldl
      | split
      | intro _

theorem State.failSeat_keeps {q : List Instr} {s : State} (h : Keeps q s) (a0) : Keeps q (State.failSeat s a0) := by
  unfold State.failSeat
  try dsimp only
  repeat' first
    | with_reducible assumption
    | with_reducible apply State.countFail_keeps
    | with_reducible apply State.endWith_keeps
    | with_reducible apply keeps_foldl
    | split

theorem State.stepSeat_keeps {q : List Instr} {s : State} (h : Keeps q s) (a0) : Keeps q (State.stepSeat s a0) := by
  unfold State.stepSeat
  try dsimp only
  repeat' first
    | with_reducible assumption
    | with_reducible apply State.deliver_keeps
    | with_reducible apply State.failSeat_keeps
    | (with_reducible refine State.sendAgree_keeps (e := by assumption) ?_)
    | with_reducible apply State.setAgree_keeps
    | with_reducible apply keeps_getD
    | with_reducible apply keeps_foldl_fst
    | with_reducible apply keeps_foldl_snd
    | with_reducible apply keeps_foldl
    | split

theorem State.sendColl_keeps {q : List Instr} {s : State} (h : Keeps q s) (a0 a1 a2 a3 a4 a5 a6 a7) : Keeps q (State.sendColl s a0 a1 a2 a3 a4 a5 a6 a7) := by
  unfold State.sendColl
  try dsimp only
  repeat' first
    | with_reducible assumption
    | with_reducible apply State.ifAccepted_keeps
    | with_reducible apply State.sendOp_keeps
    | with_reducible apply keeps_foldl
    | split
    | (with_reducible refine Keeps.upd ?_ rfl ?_ ?_ ?_ ?_ ?_ ?_ ?_ ?_ ?_ ?_ ?_ ?_ ?_ ?_ ?_ ?_ ?_)
    | with_reducible exact (fun h => h)
    | with_reducible exact (fun h => SMap.wf_set h _ _)
    | with_reducible exact (fun h => SMap.wf_clear h _)
    | with_reducible exact (fun h => SMap.wf_filter h _)
    | with_reducible exact (Memory.wf_same rfl rfl)
    | with_reducible exact (fun _ => SMap.wf_foldl_set _ _ _ rfl)
    | exact (fun _ => rfl)
    | intro _

theorem State.sendTile_keeps {q : List Instr} {s : State} (h : Keeps q s) (a0 a1 a2 a3) : Keeps q (State.sendTile s a0 a1 a2 a3) := by
  unfold State.sendTile
  try dsimp only
  repeat' first
    | with_reducible assumption
    | with_reducible apply State.addFaults_keeps
    | with_reducible apply State.sendColl_keeps
    | with_reducible apply State.touch_keeps
    | with_reducible apply keeps_foldl
    | split
    | intro _

theorem State.contribute_keeps {q : List Instr} {s : State} (h : Keeps q s) (a0 a1) : Keeps q (State.contribute s a0 a1) := by
  unfold State.contribute
  try dsimp only
  repeat' first
    | with_reducible assumption
    | with_reducible apply State.sendTile_keeps
    | with_reducible apply State.setList_keeps
    | with_reducible apply keeps_foldl
    | split
    | intro _

theorem State.agreeN_keeps {q : List Instr} {s : State} (h : Keeps q s) (a0) : Keeps q (State.agreeN s a0) := by
  induction a0 generalizing s with
  | zero => exact h
  | succ _ ih =>
    unfold State.agreeN
    try dsimp only
    repeat' first
      | with_reducible assumption
      | with_reducible apply ih
      | with_reducible apply State.stepSeat_keeps
      | with_reducible apply keeps_foldl
      | split
      | intro _

theorem State.progressAgrees_keeps {q : List Instr} {s : State} (h : Keeps q s) : Keeps q (State.progressAgrees s) := by
  unfold State.progressAgrees
  try dsimp only
  repeat' first
    | with_reducible assumption
    | with_reducible apply State.advance_keeps
    | with_reducible apply State.agreeN_keeps
    | with_reducible apply State.contribute_keeps
    | with_reducible apply keeps_foldl
    | split
    | intro _

theorem State.startColl_keeps {q : List Instr} {s : State} (h : Keeps q s) (a0 a1) : Keeps q (State.startColl s a0 a1) := by
  unfold State.startColl
  try dsimp only
  repeat' first
    | with_reducible assumption
    | with_reducible apply State.endWith_keeps
    | with_reducible apply State.progressAgrees_keeps
    | with_reducible apply State.setList_keeps
    | with_reducible apply State.touch_keeps
    | with_reducible apply keeps_foldl
    | split

theorem State.coll_keeps {q : List Instr} {s : State} (h : Keeps q s) (a0 a1) : Keeps q (State.coll s a0 a1) := by
  unfold State.coll
  try dsimp only
  repeat' first
    | with_reducible assumption
    | with_reducible apply State.instr_keeps
    | with_reducible apply State.startColl_keeps
    | with_reducible apply keeps_foldl
    | split
    | intro _

theorem execAllreduce_keeps {q : List Instr} {s : State} (h : Keeps q s) (a0) : KeepsNext q (execAllreduce a0 s) := by
  unfold execAllreduce
  try dsimp only
  repeat' first
    | with_reducible assumption
    | with_reducible apply keepsNext_next
    | with_reducible apply State.coll_keeps
    | with_reducible apply State.wrapUp_keeps

theorem execRedscat_keeps {q : List Instr} {s : State} (h : Keeps q s) (a0) : KeepsNext q (execRedscat a0 s) := by
  unfold execRedscat
  try dsimp only
  repeat' first
    | with_reducible assumption
    | with_reducible apply keepsNext_next
    | with_reducible apply State.coll_keeps
    | with_reducible apply State.wrapUp_keeps

theorem execAllgather_keeps {q : List Instr} {s : State} (h : Keeps q s) (a0) : KeepsNext q (execAllgather a0 s) := by
  unfold execAllgather
  try dsimp only
  repeat' first
    | with_reducible assumption
    | with_reducible apply keepsNext_next
    | with_reducible apply State.coll_keeps
    | with_reducible apply State.wrapUp_keeps

theorem execBcast_keeps {q : List Instr} {s : State} (h : Keeps q s) (a0) : KeepsNext q (execBcast a0 s) := by
  unfold execBcast
  try dsimp only
  repeat' first
    | with_reducible assumption
    | with_reducible apply keepsNext_next
    | with_reducible apply State.coll_keeps
    | with_reducible apply State.wrapUp_keeps

theorem State.collAtMark_keeps {q : List Instr} {s : State} (h : Keeps q s) (a0) : Keeps q (State.collAtMark s a0) := by
  unfold State.collAtMark
  try dsimp only
  repeat' first
    | with_reducible assumption
    | with_reducible apply State.advance_keeps
    | with_reducible apply State.contribute_keeps

theorem execCollectiveMark_keeps {q : List Instr} {s : State} (h : Keeps q s) (a0) : KeepsNext q (execCollectiveMark a0 s) := by
  unfold execCollectiveMark
  try dsimp only
  repeat' first
    | with_reducible assumption
    | with_reducible apply keepsNext_next
    | with_reducible apply State.collAtMark_keeps
    | with_reducible apply State.wrapUp_keeps

theorem execAgreeRx_keeps {q : List Instr} {s : State} (h : Keeps q s) (a0 a1 a2 a3) : KeepsNext q (execAgreeRx a0 a1 a2 a3 s) := by
  unfold execAgreeRx
  try dsimp only
  repeat' first
    | with_reducible assumption
    | with_reducible apply keepsNext_next
    | with_reducible apply State.progressAgrees_keeps
    | with_reducible apply State.putAgree_keeps
    | with_reducible apply State.refuseRx_keeps
    | with_reducible apply State.wrapUp_keeps
    | with_reducible apply keeps_foldl
    | split

theorem execAgreeResultRx_keeps {q : List Instr} {s : State} (h : Keeps q s) (a0 a1 a2) : KeepsNext q (execAgreeResultRx a0 a1 a2 s) := by
  unfold execAgreeResultRx
  try dsimp only
  repeat' first
    | with_reducible assumption
    | with_reducible apply keepsNext_next
    | with_reducible apply State.deliver_keeps
    | with_reducible apply State.progressAgrees_keeps
    | with_reducible apply State.refuseRx_keeps
    | with_reducible apply State.wrapUp_keeps
    | with_reducible apply keeps_foldl
    | split

theorem State.vote_keeps {q : List Instr} {s : State} (h : Keeps q s) (a0 a1 a2 a3) : Keeps q (State.vote s a0 a1 a2 a3) := by
  unfold State.vote
  try dsimp only
  repeat' first
    | with_reducible assumption
    | with_reducible apply State.progressAgrees_keeps
    | with_reducible apply State.setSeal_keeps
    | with_reducible apply keeps_foldl
    | split

theorem State.sealAtMark_keeps {q : List Instr} {s : State} (h : Keeps q s) (a0 a1 a2) : Keeps q (State.sealAtMark s a0 a1 a2) := by
  unfold State.sealAtMark
  try dsimp only
  repeat' first
    | with_reducible assumption
    | with_reducible apply State.vote_keeps
    | with_reducible apply keeps_foldl
    | split

theorem execSealMark_keeps {q : List Instr} {s : State} (h : Keeps q s) (a0 a1 a2) : KeepsNext q (execSealMark a0 a1 a2 s) := by
  unfold execSealMark
  try dsimp only
  repeat' first
    | with_reducible assumption
    | with_reducible apply keepsNext_next
    | with_reducible apply State.sealAtMark_keeps
    | with_reducible apply State.wrapUp_keeps

theorem execSealTimeout_keeps {q : List Instr} {s : State} (h : Keeps q s) (a0 a1 a2) : KeepsNext q (execSealTimeout a0 a1 a2 s) := by
  unfold execSealTimeout
  try dsimp only
  repeat' first
    | with_reducible assumption
    | with_reducible apply keepsNext_next
    | with_reducible apply State.event_keeps
    | with_reducible apply State.setSeal_keeps
    | with_reducible apply State.setSlot_keeps
    | with_reducible apply keeps_foldl
    | split

end Sys2Proof.Machine
end

