-- ==== Sys2Proof/Laws/KeepsCheckpoint.lean ====
section
/-!
SUPPORT. The operations of Machine/Checkpoint.lean keep the queue and the canonical form of every map (`Keeps`).
-/
namespace Sys2Proof.Machine

theorem State.supersede_keeps {q : List Instr} {s : State} (h : Keeps q s) (a0 a1 a2) : Keeps q (State.supersede s a0 a1 a2) := by
  unfold State.supersede
  try dsimp only
  repeat' first
    | with_reducible assumption
    | with_reducible apply State.completeInstr_keeps
    | with_reducible apply keeps_foldl
    | split
    | intro _

theorem execCkbegin_keeps {q : List Instr} {s : State} (h : Keeps q s) (a0) : KeepsNext q (execCkbegin a0 s) := by
  unfold execCkbegin
  try dsimp only
  repeat' first
    | with_reducible assumption
    | with_reducible apply keepsNext_next
    | with_reducible apply State.finish_keeps
    | with_reducible apply State.instr_keeps
    | with_reducible apply State.setSeal_keeps
    | with_reducible apply State.setSlot_keeps
    | with_reducible apply State.setSlotStep_keeps
    | with_reducible apply State.supersede_keeps
    | with_reducible apply State.wrapUp_keeps
    | with_reducible apply keeps_foldl
    | split
    | intro _

theorem execCkdone_keeps {q : List Instr} {s : State} (h : Keeps q s) (a0) : KeepsNext q (execCkdone a0 s) := by
  unfold execCkdone
  try dsimp only
  repeat' first
    | with_reducible assumption
    | with_reducible apply keepsNext_next
    | with_reducible apply State.instr_keeps
    | with_reducible apply State.setList_keeps
    | with_reducible apply State.setSeal_keeps
    | with_reducible apply State.wrapUp_keeps
    | with_reducible apply keeps_foldl
    | split
    | intro _

theorem execCkwrite_keeps {q : List Instr} {s : State} (h : Keeps q s) (a0) : KeepsNext q (execCkwrite a0 s) := by
  unfold execCkwrite
  try dsimp only
  repeat' first
    | with_reducible assumption
    | with_reducible apply keepsNext_next
    | with_reducible apply State.instr_keeps
    | with_reducible apply State.issue_keeps
    | with_reducible apply State.wrapUp_keeps
    | with_reducible apply keeps_foldl
    | split
    | intro _

theorem execCkread_keeps {q : List Instr} {s : State} (h : Keeps q s) (a0) : KeepsNext q (execCkread a0 s) := by
  unfold execCkread
  try dsimp only
  repeat' first
    | with_reducible assumption
    | with_reducible apply keepsNext_next
    | with_reducible apply State.instr_keeps
    | with_reducible apply State.issue_keeps
    | with_reducible apply State.wrapUp_keeps
    | with_reducible apply keeps_foldl
    | split
    | intro _

theorem State.freeJob_keeps {q : List Instr} {s : State} (h : Keeps q s) (a0 a1) : Keeps q (State.freeJob s a0 a1) := by
  unfold State.freeJob
  try dsimp only
  repeat' first
    | with_reducible assumption
    | with_reducible apply State.setJob_keeps
    | with_reducible apply State.setSlot_keeps
    | with_reducible apply State.setSlotStep_keeps
    | with_reducible apply State.wr_keeps
    | with_reducible apply State.wr64_keeps

theorem execJobRelease_keeps {q : List Instr} {s : State} (h : Keeps q s) (a0 a1 a2) : KeepsNext q (execJobRelease a0 a1 a2 s) := by
  unfold execJobRelease
  try dsimp only
  repeat' first
    | with_reducible assumption
    | with_reducible apply keepsNext_next
    | with_reducible apply State.closing_keeps
    | with_reducible apply State.freeJob_keeps
    | with_reducible apply keeps_foldl
    | split

end Sys2Proof.Machine
end

