-- ==== Sys2Proof/Laws/KeepsTiles.lean ====
section
/-!
SUPPORT. The operations of Machine/Tiles.lean keep the queue and the canonical form of every map (`Keeps`).
-/
namespace Sys2Proof.Machine

theorem State.touchTile_keeps {q : List Instr} {s : State} (h : Keeps q s) (a0 a1 a2 a3) : Keeps q (State.touchTile s a0 a1 a2 a3) := by
  unfold State.touchTile
  try dsimp only
  repeat' first
    | with_reducible assumption
    | with_reducible apply State.touch_keeps
    | with_reducible apply keeps_foldl
    | split
    | intro _

theorem State.earnSlot_keeps {q : List Instr} {s : State} (h : Keeps q s) (a0 a1 a2) : Keeps q (State.earnSlot s a0 a1 a2) := by
  unfold State.earnSlot
  try dsimp only
  repeat' first
    | with_reducible assumption
    | with_reducible apply State.countCl_keeps
    | with_reducible apply State.setUnit_keeps
    | with_reducible apply keeps_foldl
    | split

theorem State.noteWatch_keeps {q : List Instr} {s : State} (h : Keeps q s) (a0 a1) : Keeps q (State.noteWatch s a0 a1) := by
  unfold State.noteWatch
  try dsimp only
  repeat' first
    | with_reducible assumption
    | with_reducible apply State.setUnit_keeps
    | with_reducible apply keeps_foldl
    | split

theorem State.mismatch_keeps {q : List Instr} {s : State} (h : Keeps q s) (a0 a1) : Keeps q (State.mismatch s a0 a1) := by
  unfold State.mismatch
  try dsimp only
  repeat' first
    | with_reducible assumption
    | with_reducible apply State.countCl_keeps
    | with_reducible apply State.event_keeps
    | with_reducible apply State.noteWatch_keeps
    | with_reducible apply State.setList_keeps
    | with_reducible apply keeps_foldl
    | split
    | (with_reducible refine Keeps.upd ?_ rfl ?_ ?_ ?_ ?_ ?_ ?_ ?_ ?_ ?_ ?_ ?_ ?_ ?_ ?_ ?_ ?_ ?_)
    | with_reducible exact (fun h => h)

theorem State.compareTile_keeps {q : List Instr} {s : State} (h : Keeps q s) (a0 a1) : Keeps q (State.compareTile s a0 a1) := by
  unfold State.compareTile
  try dsimp only
  repeat' first
    | with_reducible assumption
    | with_reducible apply State.commitHeld_keeps
    | with_reducible apply State.mismatch_keeps
    | with_reducible apply State.noteWatch_keeps
    | with_reducible apply keeps_foldl
    | split

theorem State.uncompare_keeps {q : List Instr} {s : State} (h : Keeps q s) (a0 a1) : Keeps q (State.uncompare s a0 a1) := by
  unfold State.uncompare
  try dsimp only
  repeat' first
    | with_reducible assumption
    | with_reducible apply State.count_keeps
    | with_reducible apply keeps_foldl
    | split
    | (with_reducible refine Keeps.upd ?_ rfl ?_ ?_ ?_ ?_ ?_ ?_ ?_ ?_ ?_ ?_ ?_ ?_ ?_ ?_ ?_ ?_ ?_)
    | with_reducible exact (fun h => h)

theorem State.commitTile_keeps {q : List Instr} {s : State} (h : Keeps q s) (a0 a1 a2 a3) : Keeps q (State.commitTile s a0 a1 a2 a3) := by
  unfold State.commitTile
  try dsimp only
  repeat' first
    | with_reducible assumption
    | with_reducible apply State.jobStore_keeps
    | with_reducible apply State.retireTile_keeps
    | with_reducible apply keeps_foldl
    | split
    | intro _

theorem State.holdTile_keeps {q : List Instr} {s : State} (h : Keeps q s) (a0 a1 a2 a3) : Keeps q (State.holdTile s a0 a1 a2 a3) := by
  unfold State.holdTile
  try dsimp only
  repeat' first
    | with_reducible assumption
    | with_reducible apply State.commitHeld_keeps
    | with_reducible apply State.compareTile_keeps
    | with_reducible apply State.setHeld_keeps
    | with_reducible apply State.uncompare_keeps
    | with_reducible apply keeps_foldl
    | split

theorem State.tileEarns_keeps {q : List Instr} {s : State} (h : Keeps q s) (a0 a1 a2 a3) : Keeps q (State.tileEarns s a0 a1 a2 a3) := by
  unfold State.tileEarns
  try dsimp only
  repeat' first
    | with_reducible assumption
    | with_reducible apply State.earnSlot_keeps
    | with_reducible apply keeps_foldl
    | split

theorem execTileComplete_keeps {q : List Instr} {s : State} (h : Keeps q s) (a0 a1 a2 a3) : KeepsNext q (execTileComplete a0 a1 a2 a3 s) := by
  unfold execTileComplete
  try dsimp only
  repeat' first
    | with_reducible assumption
    | with_reducible apply keepsNext_next
    | with_reducible apply State.addFaults_keeps
    | with_reducible apply State.advance_keeps
    | with_reducible apply State.commitTile_keeps
    | with_reducible apply State.holdTile_keeps
    | with_reducible apply State.startShadows_keeps
    | with_reducible apply State.strike_keeps
    | with_reducible apply State.tileEarns_keeps
    | with_reducible apply State.touchTile_keeps
    | with_reducible apply State.wrapUp_keeps
    | with_reducible apply keeps_foldl
    | split

end Sys2Proof.Machine
end

