-- ==== Sys2Proof/Laws/KeepsWheel.lean ====
section
/-!
SUPPORT. The operations of Machine/Wheel.lean keep the queue and the canonical form of every map (`Keeps`).
-/
namespace Sys2Proof.Machine

theorem State.mapUnits_keeps {q : List Instr} {s : State} (h : Keeps q s) (a0 a1) : Keeps q (State.mapUnits s a0 a1) := by
  unfold State.mapUnits
  try dsimp only
  repeat' first
    | with_reducible assumption
    | with_reducible apply State.setUnit_keeps
    | with_reducible apply keeps_foldl
    | split
    | intro _

theorem State.beginWatches_keeps {q : List Instr} {s : State} (h : Keeps q s) (a0 a1 a2) : Keeps q (State.beginWatches s a0 a1 a2) := by
  unfold State.beginWatches
  try dsimp only
  repeat' first
    | with_reducible assumption
    | with_reducible apply State.setUnit_keeps
    | with_reducible apply keeps_foldl
    | split
    | intro _

theorem State.enterStep_keeps {q : List Instr} {s : State} (h : Keeps q s) (a0 a1 a2) : Keeps q (State.enterStep s a0 a1 a2) := by
  unfold State.enterStep
  try dsimp only
  repeat' first
    | with_reducible assumption
    | with_reducible apply State.beginWatches_keeps
    | with_reducible apply State.event_keeps
    | with_reducible apply State.mapUnits_keeps
    | with_reducible apply State.setWheel_keeps
    | with_reducible apply State.wr_keeps
    | with_reducible apply keeps_foldl
    | split

theorem State.restartWheel_keeps {q : List Instr} {s : State} (h : Keeps q s) (a0 a1) : Keeps q (State.restartWheel s a0 a1) := by
  unfold State.restartWheel
  try dsimp only
  repeat' first
    | with_reducible assumption
    | with_reducible apply State.enterStep_keeps
    | with_reducible apply State.mapUnits_keeps
    | with_reducible apply State.setWheel_keeps

theorem State.leaveStep_keeps {q : List Instr} {s : State} (h : Keeps q s) (a0) : Keeps q (State.leaveStep s a0) := by
  unfold State.leaveStep
  try dsimp only
  repeat' first
    | with_reducible assumption
    | with_reducible apply State.count_keeps
    | with_reducible apply State.event_keeps
    | with_reducible apply keeps_foldl
    | split

theorem State.advanceWheel_keeps {q : List Instr} {s : State} (h : Keeps q s) (a0) : Keeps q (State.advanceWheel s a0) := by
  unfold State.advanceWheel
  try dsimp only
  repeat' first
    | with_reducible assumption
    | with_reducible apply State.enterStep_keeps
    | with_reducible apply State.leaveStep_keeps
    | with_reducible apply State.restartWheel_keeps
    | with_reducible apply State.setWheel_keeps
    | with_reducible apply State.startShadows_keeps
    | with_reducible apply keeps_foldl
    | split

theorem execWheelAdvance_keeps {q : List Instr} {s : State} (h : Keeps q s) (a0) : KeepsNext q (execWheelAdvance a0 s) := by
  unfold execWheelAdvance
  try dsimp only
  repeat' first
    | with_reducible assumption
    | with_reducible apply keepsNext_next
    | with_reducible apply State.advanceWheel_keeps

theorem execShadowSlotWaitExpiry_keeps {q : List Instr} {s : State} (h : Keeps q s) (a0) : KeepsNext q (execShadowSlotWaitExpiry a0 s) := by
  unfold execShadowSlotWaitExpiry
  try dsimp only
  repeat' first
    | with_reducible assumption
    | with_reducible apply keepsNext_next
    | with_reducible apply State.startShadow_keeps
    | with_reducible apply keeps_foldl
    | split

theorem State.shadowPoisoned_keeps {q : List Instr} {s : State} (h : Keeps q s) (a0 a1 a2) : Keeps q (State.shadowPoisoned s a0 a1 a2) := by
  unfold State.shadowPoisoned
  try dsimp only
  repeat' first
    | with_reducible assumption
    | with_reducible apply State.addFaults_keeps
    | with_reducible apply State.commitHeld_keeps
    | with_reducible apply State.setHeld_keeps
    | with_reducible apply State.uncompare_keeps
    | with_reducible apply keeps_foldl
    | split

theorem State.rerun_keeps {q : List Instr} {s t : State} {o a0 a1 a2 a3 a4} (e : State.rerun s a0 a1 a2 a3 a4 = some (o, t))
    (h : Keeps q s) : Keeps q t := by
  unfold State.rerun at e
  obtain ⟨x, -, hx⟩ := Option.map_eq_some_iff.1 e
  cases hx
  exact State.touchTile_keeps (State.strike_keeps h _) _ _ _ _

theorem execShadowComplete_keeps {q : List Instr} {s : State} (h : Keeps q s) (a0 a1 a2 a3) : KeepsNext q (execShadowComplete a0 a1 a2 a3 s) := by
  unfold execShadowComplete
  try dsimp only
  repeat' first
    | with_reducible assumption
    | with_reducible apply keepsNext_next
    | with_reducible apply State.advance_keeps
    | with_reducible apply State.compareTile_keeps
    | (with_reducible refine State.rerun_keeps (e := by assumption) ?_)
    | with_reducible apply State.setHeld_keeps
    | with_reducible apply State.shadowPoisoned_keeps
    | with_reducible apply State.startShadows_keeps
    | with_reducible apply State.strike_keeps
    | with_reducible apply State.wrapUp_keeps
    | with_reducible apply keeps_foldl_fst
    | with_reducible apply keeps_foldl_snd
    | with_reducible apply keeps_foldl
    | split

theorem State.logVote_keeps {q : List Instr} {s : State} (h : Keeps q s) (a0 a1) : Keeps q (State.logVote s a0 a1) := by
  unfold State.logVote
  try dsimp only
  repeat' first
    | with_reducible assumption
    | with_reducible apply State.event_keeps
    | with_reducible apply State.wr_keeps
    | with_reducible apply keeps_foldl
    | split
    | (with_reducible refine Keeps.upd ?_ rfl ?_ ?_ ?_ ?_ ?_ ?_ ?_ ?_ ?_ ?_ ?_ ?_ ?_ ?_ ?_ ?_ ?_)
    | with_reducible exact (fun h => h)
    | with_reducible exact (fun h => SMap.wf_set h _ _)

theorem State.completeVote_keeps {q : List Instr} {s : State} (h : Keeps q s) (a0 a1 a2) : Keeps q (State.completeVote s a0 a1 a2) := by
  unfold State.completeVote
  try dsimp only
  repeat' first
    | with_reducible assumption
    | with_reducible apply State.count_keeps
    | with_reducible apply State.declareFault_keeps
    | with_reducible apply State.event_keeps
    | with_reducible apply State.finding_keeps
    | with_reducible apply State.logVote_keeps
    | with_reducible apply State.recordVote_keeps
    | with_reducible apply State.trace_keeps
    | with_reducible apply keeps_foldl
    | split
    | (with_reducible refine Keeps.upd ?_ rfl ?_ ?_ ?_ ?_ ?_ ?_ ?_ ?_ ?_ ?_ ?_ ?_ ?_ ?_ ?_ ?_ ?_)
    | with_reducible exact (fun h => h)

theorem State.lateArbiter_keeps {q : List Instr} {s : State} (h : Keeps q s) (a0 a1 a2 a3) : Keeps q (State.lateArbiter s a0 a1 a2 a3) := by
  unfold State.lateArbiter
  try dsimp only
  repeat' first
    | with_reducible assumption
    | with_reducible apply keeps_foldl
    | split
    | (with_reducible refine Keeps.upd ?_ rfl ?_ ?_ ?_ ?_ ?_ ?_ ?_ ?_ ?_ ?_ ?_ ?_ ?_ ?_ ?_ ?_ ?_)
    | with_reducible exact (fun h => h)
    | with_reducible exact (fun h => SMap.wf_set h _ _)

theorem execArbiterComplete_keeps {q : List Instr} {s : State} (h : Keeps q s) (a0 a1 a2 a3) : KeepsNext q (execArbiterComplete a0 a1 a2 a3 s) := by
  unfold execArbiterComplete
  try dsimp only
  repeat' first
    | with_reducible assumption
    | with_reducible apply keepsNext_next
    | with_reducible apply State.completeVote_keeps
    | with_reducible apply State.lateArbiter_keeps
    | (with_reducible refine State.rerun_keeps (e := by assumption) ?_)
    | with_reducible apply State.strike_keeps
    | with_reducible apply State.wrapUp_keeps
    | with_reducible apply keeps_foldl_fst
    | with_reducible apply keeps_foldl_snd
    | with_reducible apply keeps_foldl
    | split

theorem execArbTimeout_keeps {q : List Instr} {s : State} (h : Keeps q s) (a0 a1) : KeepsNext q (execArbTimeout a0 a1 s) := by
  unfold execArbTimeout
  try dsimp only
  repeat' first
    | with_reducible assumption
    | with_reducible apply keepsNext_next
    | with_reducible apply State.completeVote_keeps
    | with_reducible apply State.event_keeps
    | with_reducible apply State.wrapUp_keeps
    | with_reducible apply keeps_foldl
    | split
    | (with_reducible refine Keeps.upd ?_ rfl ?_ ?_ ?_ ?_ ?_ ?_ ?_ ?_ ?_ ?_ ?_ ?_ ?_ ?_ ?_ ?_ ?_)
    | with_reducible exact (fun h => h)

end Sys2Proof.Machine
end

