-- ==== Sys2Proof/Laws/KeepsFabric.lean ====
section
/-!
SUPPORT. The operations of Machine/Fabric.lean keep the queue and the canonical form of every map (`Keeps`).
-/
namespace Sys2Proof.Machine

theorem State.rejected_keeps {q : List Instr} {s : State} (h : Keeps q s) (a0 a1 a2) : Keeps q (State.rejected s a0 a1 a2) := by
  unfold State.rejected
  try dsimp only
  repeat' first
    | with_reducible assumption
    | with_reducible apply State.count_keeps
    | with_reducible apply State.enqueueRefused_keeps
    | with_reducible apply State.failRead_keeps
    | with_reducible apply keeps_foldl
    | split
    | intro _

theorem State.acked_keeps {q : List Instr} {s : State} (h : Keeps q s) (a0 a1 a2 a3) : Keeps q (State.acked s a0 a1 a2 a3) := by
  unfold State.acked
  try dsimp only
  repeat' first
    | with_reducible assumption
    | with_reducible apply State.countEs_keeps
    | with_reducible apply State.pump_keeps
    | with_reducible apply State.rejected_keeps
    | with_reducible apply State.setConn_keeps
    | with_reducible apply keeps_foldl
    | split
    | intro _

theorem execKftAckRx_keeps {q : List Instr} {s : State} (h : Keeps q s) (a0 a1) : KeepsNext q (execKftAckRx a0 a1 s) := by
  unfold execKftAckRx
  try dsimp only
  repeat' first
    | with_reducible assumption
    | with_reducible apply keepsNext_next
    | with_reducible apply State.acked_keeps
    | with_reducible apply State.advance_keeps
    | with_reducible apply State.refetch_keeps
    | with_reducible apply State.refuseRx_keeps
    | with_reducible apply State.wrapUp_keeps
    | with_reducible apply keeps_foldl
    | split

theorem State.again_keeps {q : List Instr} {s : State} (h : Keeps q s) (a0 a1) : Keeps q (State.again s a0 a1) := by
  unfold State.again
  try dsimp only
  repeat' first
    | with_reducible assumption
    | with_reducible apply State.failConn_keeps
    | with_reducible apply State.pump_keeps
    | with_reducible apply State.setConn_keeps
    | with_reducible apply keeps_foldl
    | split

theorem State.afterConn_keeps {q : List Instr} {s : State} (h : Keeps q s) : Keeps q (State.afterConn s) := by
  unfold State.afterConn
  try dsimp only
  repeat' first
    | with_reducible assumption
    | with_reducible apply State.advance_keeps
    | with_reducible apply State.refetch_keeps
    | with_reducible apply State.serveWaiting_keeps

theorem execKftNackRx_keeps {q : List Instr} {s : State} (h : Keeps q s) (a0 a1 a2) : KeepsNext q (execKftNackRx a0 a1 a2 s) := by
  unfold execKftNackRx
  try dsimp only
  repeat' first
    | with_reducible assumption
    | with_reducible apply keepsNext_next
    | with_reducible apply State.acked_keeps
    | with_reducible apply State.afterConn_keeps
    | with_reducible apply State.again_keeps
    | with_reducible apply State.refuseRx_keeps
    | with_reducible apply State.wrapUp_keeps
    | with_reducible apply keeps_foldl
    | split
    | intro _

theorem execKftRto_keeps {q : List Instr} {s : State} (h : Keeps q s) (a0 a1) : KeepsNext q (execKftRto a0 a1 s) := by
  unfold execKftRto
  try dsimp only
  repeat' first
    | with_reducible assumption
    | with_reducible apply keepsNext_next
    | with_reducible apply State.afterConn_keeps
    | with_reducible apply State.again_keeps
    | with_reducible apply State.wrapUp_keeps
    | with_reducible apply keeps_foldl
    | split

theorem State.serveRead_keeps {q : List Instr} {s : State} (h : Keeps q s) (a0 a1 a2 a3) : Keeps q (State.serveRead s a0 a1 a2 a3) := by
  unfold State.serveRead
  try dsimp only
  repeat' first
    | with_reducible assumption
    | with_reducible apply State.queueFrame_keeps
    | with_reducible apply State.touch_keeps
    | with_reducible apply keeps_foldl
    | split
    | intro _

theorem State.takeResponse_keeps {q : List Instr} {s : State} (h : Keeps q s) (a0 a1 a2 a3) : Keeps q (State.takeResponse s a0 a1 a2 a3) := by
  unfold State.takeResponse
  try dsimp only
  repeat' first
    | with_reducible assumption
    | with_reducible apply State.dropLate_keeps
    | with_reducible apply State.refetch_keeps
    | with_reducible apply keeps_foldl
    | split
    | (with_reducible refine Keeps.upd ?_ rfl ?_ ?_ ?_ ?_ ?_ ?_ ?_ ?_ ?_ ?_ ?_ ?_ ?_ ?_ ?_ ?_ ?_)
    | with_reducible exact (fun h => h)
    | with_reducible exact (fun h => SMap.wf_set h _ _)
    | with_reducible exact (fun h => SMap.wf_clear h _)
    | with_reducible exact (fun h => SMap.wf_filter h _)
    | with_reducible exact (Memory.wf_same rfl rfl)

theorem State.actFrame_keeps {q : List Instr} {s : State} (h : Keeps q s) (a0 a1 a2) : Keeps q (State.actFrame s a0 a1 a2).2 := by
  unfold State.actFrame
  try dsimp only
  repeat' first
    | with_reducible assumption
    | with_reducible apply State.noteRange_keeps
    | with_reducible apply State.post_keeps
    | with_reducible apply State.serveRead_keeps
    | with_reducible apply State.signalBy_keeps
    | with_reducible apply State.store_keeps
    | with_reducible apply State.takeResponse_keeps
    | with_reducible apply keeps_foldl
    | split
    | (with_reducible refine Keeps.upd ?_ rfl ?_ ?_ ?_ ?_ ?_ ?_ ?_ ?_ ?_ ?_ ?_ ?_ ?_ ?_ ?_ ?_ ?_)
    | with_reducible exact (fun h => h)

theorem State.actFrame_keeps_of {q : List Instr} {s t : State} {r} {a0 a1 a2} (e : State.actFrame s a0 a1 a2 = (r, t)) (h : Keeps q s) : Keeps q t := by
  have := State.actFrame_keeps h a0 a1 a2
  rwa [e] at this

theorem State.deliverFrame_keeps {q : List Instr} {s : State} (h : Keeps q s) (a0 a1 a2) : Keeps q (State.deliverFrame s a0 a1 a2) := by
  unfold State.deliverFrame
  try dsimp only
  repeat' first
    | with_reducible assumption
    | with_reducible apply State.actFrame_keeps
    | (with_reducible refine State.actFrame_keeps_of (e := by assumption) ?_)
    | with_reducible apply State.countReject_keeps
    | with_reducible apply State.sendAck_keeps
    | with_reducible apply State.setConn_keeps
    | with_reducible apply State.trace_keeps
    | with_reducible apply keeps_foldl_fst
    | with_reducible apply keeps_foldl_snd
    | with_reducible apply keeps_foldl
    | split

theorem State.deliverAhead_keeps {q : List Instr} {s : State} (h : Keeps q s) (a0 a1) : Keeps q (State.deliverAhead s a0 a1) := by
  induction a1 generalizing s a0 with
  | zero => exact h
  | succ _ ih =>
    unfold State.deliverAhead
    try dsimp only
    repeat' first
      | with_reducible assumption
      | with_reducible apply ih
      | with_reducible apply State.deliverFrame_keeps
      | with_reducible apply State.setConn_keeps
      | with_reducible apply keeps_foldl
      | split

theorem State.sendNack_keeps {q : List Instr} {s : State} (h : Keeps q s) (a0 a1) : Keeps q (State.sendNack s a0 a1) := by
  unfold State.sendNack
  try dsimp only
  repeat' first
    | with_reducible assumption
    | with_reducible apply State.sendReply_keeps

theorem State.rxData_keeps {q : List Instr} {s : State} (h : Keeps q s) (a0 a1) : Keeps q (State.rxData s a0 a1) := by
  unfold State.rxData
  try dsimp only
  repeat' first
    | with_reducible assumption
    | with_reducible apply State.acked_keeps
    | with_reducible apply State.afterConn_keeps
    | with_reducible apply State.deliverAhead_keeps
    | with_reducible apply State.deliverFrame_keeps
    | with_reducible apply State.refuseRx_keeps
    | with_reducible apply State.sendAck_keeps
    | with_reducible apply State.sendNack_keeps
    | with_reducible apply State.setConn_keeps
    | with_reducible apply keeps_foldl
    | split

theorem execKftWriteRx_keeps {q : List Instr} {s : State} (h : Keeps q s) (a0 a1 a2) : KeepsNext q (execKftWriteRx a0 a1 a2 s) := by
  unfold execKftWriteRx
  try dsimp only
  repeat' first
    | with_reducible assumption
    | with_reducible apply keepsNext_next
    | with_reducible apply State.rxData_keeps
    | with_reducible apply State.wrapUp_keeps

theorem execKftReadReqRx_keeps {q : List Instr} {s : State} (h : Keeps q s) (a0 a1 a2) : KeepsNext q (execKftReadReqRx a0 a1 a2 s) := by
  unfold execKftReadReqRx
  try dsimp only
  repeat' first
    | with_reducible assumption
    | with_reducible apply keepsNext_next
    | with_reducible apply State.rxData_keeps
    | with_reducible apply State.wrapUp_keeps

theorem execKftReadRespRx_keeps {q : List Instr} {s : State} (h : Keeps q s) (a0 a1 a2) : KeepsNext q (execKftReadRespRx a0 a1 a2 s) := by
  unfold execKftReadRespRx
  try dsimp only
  repeat' first
    | with_reducible assumption
    | with_reducible apply keepsNext_next
    | with_reducible apply State.rxData_keeps
    | with_reducible apply State.wrapUp_keeps

theorem execKftSignalRx_keeps {q : List Instr} {s : State} (h : Keeps q s) (a0 a1 a2) : KeepsNext q (execKftSignalRx a0 a1 a2 s) := by
  unfold execKftSignalRx
  try dsimp only
  repeat' first
    | with_reducible assumption
    | with_reducible apply keepsNext_next
    | with_reducible apply State.rxData_keeps
    | with_reducible apply State.wrapUp_keeps

theorem execKftSignalMaxRx_keeps {q : List Instr} {s : State} (h : Keeps q s) (a0 a1 a2) : KeepsNext q (execKftSignalMaxRx a0 a1 a2 s) := by
  unfold execKftSignalMaxRx
  try dsimp only
  repeat' first
    | with_reducible assumption
    | with_reducible apply keepsNext_next
    | with_reducible apply State.rxData_keeps
    | with_reducible apply State.wrapUp_keeps

theorem execKftEnqueueRx_keeps {q : List Instr} {s : State} (h : Keeps q s) (a0 a1 a2 a3) : KeepsNext q (execKftEnqueueRx a0 a1 a2 a3 s) := by
  unfold execKftEnqueueRx
  try dsimp only
  repeat' first
    | with_reducible assumption
    | with_reducible apply keepsNext_next
    | with_reducible apply State.rxData_keeps
    | with_reducible apply State.wrapUp_keeps

theorem execKftCollRx_keeps {q : List Instr} {s : State} (h : Keeps q s) (a0 a1 a2 a3 a4) : KeepsNext q (execKftCollRx a0 a1 a2 a3 a4 s) := by
  unfold execKftCollRx
  try dsimp only
  repeat' first
    | with_reducible assumption
    | with_reducible apply keepsNext_next
    | with_reducible apply State.rxData_keeps
    | with_reducible apply State.wrapUp_keeps

theorem State.acceptConn_keeps {q : List Instr} {s : State} (h : Keeps q s) (a0 a1) : Keeps q (State.acceptConn s a0 a1) := by
  unfold State.acceptConn
  try dsimp only
  repeat' first
    | with_reducible assumption
    | with_reducible apply State.countFail_keeps
    | with_reducible apply State.draw_keeps
    | (with_reducible refine State.draw_keeps_of (e := by assumption) ?_)
    | with_reducible apply State.pump_keeps
    | with_reducible apply State.putConn_keeps
    | with_reducible apply State.sendConn_keeps
    | with_reducible apply State.setConn_keeps
    | with_reducible apply keeps_foldl_fst
    | with_reducible apply keeps_foldl_snd
    | with_reducible apply keeps_foldl
    | split

theorem execConnReqRx_keeps {q : List Instr} {s : State} (h : Keeps q s) (a0 a1) : KeepsNext q (execConnReqRx a0 a1 s) := by
  unfold execConnReqRx
  try dsimp only
  repeat' first
    | with_reducible assumption
    | with_reducible apply keepsNext_next
    | with_reducible apply State.acceptConn_keeps
    | with_reducible apply State.afterConn_keeps
    | with_reducible apply State.failConn_keeps
    | with_reducible apply State.refuseRx_keeps
    | with_reducible apply State.wrapUp_keeps
    | with_reducible apply keeps_foldl
    | split

theorem execConnAckRx_keeps {q : List Instr} {s : State} (h : Keeps q s) (a0 a1) : KeepsNext q (execConnAckRx a0 a1 s) := by
  unfold execConnAckRx
  try dsimp only
  repeat' first
    | with_reducible assumption
    | with_reducible apply keepsNext_next
    | with_reducible apply State.pump_keeps
    | with_reducible apply State.refuseRx_keeps
    | with_reducible apply State.setConn_keeps
    | with_reducible apply State.wrapUp_keeps
    | with_reducible apply keeps_foldl
    | split

theorem execConnCloseRx_keeps {q : List Instr} {s : State} (h : Keeps q s) (a0 a1) : KeepsNext q (execConnCloseRx a0 a1 s) := by
  unfold execConnCloseRx
  try dsimp only
  repeat' first
    | with_reducible assumption
    | with_reducible apply keepsNext_next
    | with_reducible apply State.afterConn_keeps
    | with_reducible apply State.failConn_keeps
    | with_reducible apply State.putConn_keeps
    | with_reducible apply State.refuseRx_keeps
    | with_reducible apply State.wrapUp_keeps
    | with_reducible apply keeps_foldl
    | split

theorem execConnRejectRx_keeps {q : List Instr} {s : State} (h : Keeps q s) (a0 a1) : KeepsNext q (execConnRejectRx a0 a1 s) := by
  unfold execConnRejectRx
  try dsimp only
  repeat' first
    | with_reducible assumption
    | with_reducible apply keepsNext_next
    | with_reducible apply State.afterConn_keeps
    | with_reducible apply State.failConn_keeps
    | with_reducible apply State.refuseRx_keeps
    | with_reducible apply State.wrapUp_keeps
    | with_reducible apply keeps_foldl
    | split

theorem execConnIdleClose_keeps {q : List Instr} {s : State} (h : Keeps q s) (a0) : KeepsNext q (execConnIdleClose a0 s) := by
  unfold execConnIdleClose
  try dsimp only
  repeat' first
    | with_reducible assumption
    | with_reducible apply keepsNext_next
    | with_reducible apply State.afterConn_keeps
    | with_reducible apply State.putConn_keeps
    | with_reducible apply State.sendConn_keeps
    | with_reducible apply State.wrapUp_keeps
    | with_reducible apply keeps_foldl
    | split

theorem execFabricLinkUp_keeps {q : List Instr} {s : State} (h : Keeps q s) (a0) : KeepsNext q (execFabricLinkUp a0 s) := by
  unfold execFabricLinkUp
  try dsimp only
  repeat' first
    | with_reducible assumption
    | with_reducible apply keepsNext_next
    | with_reducible apply State.wrBit_keeps
    | with_reducible apply keeps_foldl
    | split

theorem execFabricLinkDown_keeps {q : List Instr} {s : State} (h : Keeps q s) (a0) : KeepsNext q (execFabricLinkDown a0 s) := by
  unfold execFabricLinkDown
  try dsimp only
  repeat' first
    | with_reducible assumption
    | with_reducible apply keepsNext_next
    | with_reducible apply State.afterConn_keeps
    | with_reducible apply State.subDown_keeps
    | with_reducible apply State.wrapUp_keeps

theorem execLaneFault_keeps {q : List Instr} {s : State} (h : Keeps q s) (a0 a1) : KeepsNext q (execLaneFault a0 a1 s) := by
  unfold execLaneFault
  try dsimp only
  repeat' first
    | with_reducible assumption
    | with_reducible apply keepsNext_next
    | with_reducible apply State.afterConn_keeps
    | with_reducible apply State.event_keeps
    | with_reducible apply State.finding_keeps
    | with_reducible apply State.wrapUp_keeps
    | with_reducible apply keeps_foldl
    | split

theorem execRouteDataWrite_keeps {q : List Instr} {s : State} (h : Keeps q s) (a0 a1) : KeepsNext q (execRouteDataWrite a0 a1 s) := by
  unfold execRouteDataWrite
  try dsimp only
  repeat' first
    | with_reducible assumption
    | with_reducible apply keepsNext_next
    | with_reducible apply keeps_foldl
    | split
    | (with_reducible refine Keeps.upd ?_ rfl ?_ ?_ ?_ ?_ ?_ ?_ ?_ ?_ ?_ ?_ ?_ ?_ ?_ ?_ ?_ ?_ ?_)
    | with_reducible exact (fun h => h)

theorem execBeatAnnSend_keeps {q : List Instr} {s : State} (h : Keeps q s) : KeepsNext q (execBeatAnnSend s) := by
  unfold execBeatAnnSend
  try dsimp only
  repeat' first
    | with_reducible assumption
    | with_reducible apply keepsNext_next
    | with_reducible apply State.sendHop_keeps
    | with_reducible apply keeps_foldl
    | split
    | intro _

theorem execBeatAnnRx_keeps {q : List Instr} {s : State} (h : Keeps q s) (a0 a1 a2) : KeepsNext q (execBeatAnnRx a0 a1 a2 s) := by
  unfold execBeatAnnRx
  try dsimp only
  repeat' first
    | with_reducible assumption
    | with_reducible apply keepsNext_next
    | with_reducible apply State.event_keeps
    | with_reducible apply State.hopRx_keeps
    | with_reducible apply State.wr_keeps
    | with_reducible apply keeps_foldl
    | split
    | intro _

end Sys2Proof.Machine
end

