-- ==== Sys2Proof/Laws/KeepsMedia.lean ====
section
/-!
SUPPORT. The operations of Machine/Media.lean keep the queue and the canonical form of every map (`Keeps`).
-/
namespace Sys2Proof.Machine

theorem State.openCount_keeps {q : List Instr} {s : State} (h : Keeps q s) : Keeps q (State.openCount s) := by
  unfold State.openCount
  try dsimp only
  repeat' first
    | with_reducible assumption
    | with_reducible apply State.wr_keeps

theorem execMediaSessionOpen_keeps {q : List Instr} {s : State} (h : Keeps q s) (a0 a1) : KeepsNext q (execMediaSessionOpen a0 a1 s) := by
  unfold execMediaSessionOpen
  try dsimp only
  repeat' first
    | with_reducible assumption
    | with_reducible apply keepsNext_next
    | with_reducible apply State.event_keeps
    | with_reducible apply State.openCount_keeps
    | with_reducible apply State.setSess_keeps
    | with_reducible apply State.touch_keeps
    | with_reducible apply State.wr_keeps
    | with_reducible apply State.wrapUp_keeps
    | with_reducible apply keeps_foldl
    | split

theorem State.closeSession_keeps {q : List Instr} {s : State} (h : Keeps q s) (a0) : Keeps q (State.closeSession s a0) := by
  unfold State.closeSession
  try dsimp only
  repeat' first
    | with_reducible assumption
    | with_reducible apply State.openCount_keeps
    | with_reducible apply State.setSess_keeps
    | with_reducible apply State.wr_keeps

theorem State.closeSessions_keeps {q : List Instr} {s : State} (h : Keeps q s) (a0) : Keeps q (State.closeSessions s a0) := by
  unfold State.closeSessions
  try dsimp only
  repeat' first
    | with_reducible assumption
    | with_reducible apply State.closeSession_keeps
    | with_reducible apply keeps_foldl
    | split
    | intro _

theorem execMediaSessionClose_keeps {q : List Instr} {s : State} (h : Keeps q s) (a0 a1) : KeepsNext q (execMediaSessionClose a0 a1 s) := by
  unfold execMediaSessionClose
  try dsimp only
  repeat' first
    | with_reducible assumption
    | with_reducible apply keepsNext_next
    | with_reducible apply State.closeSession_keeps
    | with_reducible apply State.wr_keeps
    | with_reducible apply keeps_foldl
    | split

theorem execMediaForceKey_keeps {q : List Instr} {s : State} (h : Keeps q s) (a0 a1) : KeepsNext q (execMediaForceKey a0 a1 s) := by
  unfold execMediaForceKey
  try dsimp only
  repeat' first
    | with_reducible assumption
    | with_reducible apply keepsNext_next
    | with_reducible apply State.setSess_keeps
    | with_reducible apply keeps_foldl
    | split

theorem execMediaPartConfig_keeps {q : List Instr} {s : State} (h : Keeps q s) (a0 a1 a2) : KeepsNext q (execMediaPartConfig a0 a1 a2 s) := by
  unfold execMediaPartConfig
  try dsimp only
  repeat' first
    | with_reducible assumption
    | with_reducible apply keepsNext_next
    | with_reducible apply State.event_keeps
    | with_reducible apply State.wr_keeps
    | with_reducible apply State.wrapUp_keeps
    | with_reducible apply keeps_foldl
    | split

theorem State.divideSessions_keeps {q : List Instr} {s : State} (h : Keeps q s) : Keeps q (State.divideSessions s) := by
  unfold State.divideSessions
  try dsimp only
  repeat' first
    | with_reducible assumption
    | with_reducible apply State.wr_keeps
    | with_reducible apply keeps_foldl
    | split
    | intro _

theorem State.writeRel_keeps {q : List Instr} {s : State} (h : Keeps q s) (a0 a1 a2 a3 a4 a5 a6) : Keeps q (State.writeRel s a0 a1 a2 a3 a4 a5 a6) := by
  unfold State.writeRel
  try dsimp only
  repeat' first
    | with_reducible assumption
    | with_reducible apply State.count_keeps
    | with_reducible apply State.event_keeps
    | with_reducible apply State.jobStore_keeps
    | with_reducible apply State.wr_keeps
    | with_reducible apply keeps_foldl
    | split

theorem State.releasePic_keeps {q : List Instr} {s : State} (h : Keeps q s) (a0 a1 a2 a3 a4 a5 a6) : Keeps q (State.releasePic s a0 a1 a2 a3 a4 a5 a6) := by
  unfold State.releasePic
  try dsimp only
  repeat' first
    | with_reducible assumption
    | with_reducible apply State.jobStore_keeps
    | with_reducible apply State.setList_keeps
    | with_reducible apply State.writeRel_keeps
    | with_reducible apply keeps_foldl
    | split
    | intro _

theorem State.joinSession_keeps {q : List Instr} {s : State} (h : Keeps q s) (a0 a1 a2) : Keeps q (State.joinSession s a0 a1 a2) := by
  unfold State.joinSession
  try dsimp only
  repeat' first
    | with_reducible assumption
    | with_reducible apply State.setList_keeps
    | with_reducible apply State.setSess_keeps
    | with_reducible apply State.wr_keeps
    | with_reducible apply keeps_foldl
    | split

theorem execMdec_keeps {q : List Instr} {s : State} (h : Keeps q s) (a0 a1) : KeepsNext q (execMdec a0 a1 s) := by
  unfold execMdec
  try dsimp only
  repeat' first
    | with_reducible assumption
    | with_reducible apply keepsNext_next
    | with_reducible apply State.instr_keeps
    | with_reducible apply State.joinSession_keeps
    | with_reducible apply State.wrapUp_keeps
    | with_reducible apply keeps_foldl
    | split
    | intro _

theorem execMenc_keeps {q : List Instr} {s : State} (h : Keeps q s) (a0) : KeepsNext q (execMenc a0 s) := by
  unfold execMenc
  try dsimp only
  repeat' first
    | with_reducible assumption
    | with_reducible apply keepsNext_next
    | with_reducible apply State.instr_keeps
    | with_reducible apply State.joinSession_keeps
    | with_reducible apply State.wrapUp_keeps
    | with_reducible apply keeps_foldl
    | split
    | intro _

theorem State.mediaDone_keeps {q : List Instr} {s : State} (h : Keeps q s) (a0) : Keeps q (State.mediaDone s a0) := by
  unfold State.mediaDone
  try dsimp only
  repeat' first
    | with_reducible assumption
    | with_reducible apply State.completeInstr_keeps
    | with_reducible apply State.leaveSession_keeps
    | with_reducible apply State.settle_keeps
    | with_reducible apply keeps_foldl
    | split

theorem State.mediaEnd_keeps {q : List Instr} {s : State} (h : Keeps q s) (a0 a1) : Keeps q (State.mediaEnd s a0 a1) := by
  unfold State.mediaEnd
  try dsimp only
  repeat' first
    | with_reducible assumption
    | with_reducible apply State.endWith_keeps
    | with_reducible apply State.settle_keeps

theorem State.touchRanges_keeps {q : List Instr} {s : State} (h : Keeps q s) (a0 a1 a2) : Keeps q (State.touchRanges s a0 a1 a2) := by
  unfold State.touchRanges
  try dsimp only
  repeat' first
    | with_reducible assumption
    | with_reducible apply State.touch_keeps
    | with_reducible apply keeps_foldl
    | split
    | intro _

theorem State.writePool_keeps {q : List Instr} {s : State} (h : Keeps q s) (a0 a1 a2) : Keeps q (State.writePool s a0 a1 a2) := by
  unfold State.writePool
  try dsimp only
  repeat' first
    | with_reducible assumption
    | with_reducible apply State.jobStore_keeps
    | with_reducible apply keeps_foldl
    | split
    | intro _

theorem State.flush_keeps {q : List Instr} {s : State} (h : Keeps q s) (a0 a1 a2) : Keeps q (State.flush s a0 a1 a2) := by
  unfold State.flush
  try dsimp only
  repeat' first
    | with_reducible assumption
    | with_reducible apply State.mediaDone_keeps
    | with_reducible apply State.mediaEnd_keeps
    | with_reducible apply State.releasePic_keeps
    | with_reducible apply State.setSess_keeps
    | with_reducible apply State.touchRanges_keeps
    | with_reducible apply State.writePool_keeps
    | with_reducible apply keeps_foldl
    | split
    | intro _

theorem execMflush_keeps {q : List Instr} {s : State} (h : Keeps q s) (a0 a1 a2) : KeepsNext q (execMflush a0 a1 a2 s) := by
  unfold execMflush
  try dsimp only
  repeat' first
    | with_reducible assumption
    | with_reducible apply keepsNext_next
    | with_reducible apply State.flush_keeps
    | with_reducible apply State.instr_keeps
    | with_reducible apply State.joinSession_keeps
    | with_reducible apply State.wrapUp_keeps
    | with_reducible apply keeps_foldl
    | split
    | intro _

theorem State.mediaHalt_keeps {q : List Instr} {s : State} (h : Keeps q s) (a0 a1 a2 a3) : Keeps q (State.mediaHalt s a0 a1 a2 a3) := by
  unfold State.mediaHalt
  try dsimp only
  repeat' first
    | with_reducible assumption
    | with_reducible apply State.haltSession_keeps
    | with_reducible apply State.mediaEnd_keeps

theorem execMediaDecodeComplete_keeps {q : List Instr} {s : State} (h : Keeps q s) (a0 a1) : KeepsNext q (execMediaDecodeComplete a0 a1 s) := by
  unfold execMediaDecodeComplete
  try dsimp only
  repeat' first
    | with_reducible assumption
    | with_reducible apply keepsNext_next
    | with_reducible apply State.mediaDone_keeps
    | with_reducible apply State.mediaEnd_keeps
    | with_reducible apply State.mediaHalt_keeps
    | with_reducible apply State.releasePic_keeps
    | with_reducible apply State.setSess_keeps
    | with_reducible apply State.touchRanges_keeps
    | with_reducible apply State.wr_keeps
    | with_reducible apply State.wrapUp_keeps
    | with_reducible apply State.writePool_keeps
    | with_reducible apply keeps_foldl
    | split

theorem execMediaEncodeComplete_keeps {q : List Instr} {s : State} (h : Keeps q s) (a0 a1) : KeepsNext q (execMediaEncodeComplete a0 a1 s) := by
  unfold execMediaEncodeComplete
  try dsimp only
  repeat' first
    | with_reducible assumption
    | with_reducible apply keepsNext_next
    | with_reducible apply State.jobStore_keeps
    | with_reducible apply State.mediaDone_keeps
    | with_reducible apply State.mediaEnd_keeps
    | with_reducible apply State.setSess_keeps
    | with_reducible apply State.touchRanges_keeps
    | with_reducible apply State.wrapUp_keeps
    | with_reducible apply State.writePool_keeps
    | with_reducible apply State.writeRel_keeps
    | with_reducible apply keeps_foldl
    | split

end Sys2Proof.Machine
end

