-- ==== Sys2Proof/Laws/KeepsWake.lean ====
section
/-!
SUPPORT. The operations of Machine/Wake.lean keep the queue and the canonical form of every map (`Keeps`).
-/
namespace Sys2Proof.Machine

theorem State.setPwr_keeps {q : List Instr} {s : State} (h : Keeps q s) (a0) : Keeps q (State.setPwr s a0) := by
  unfold State.setPwr
  try dsimp only
  repeat' first
    | with_reducible assumption
    | with_reducible apply keeps_foldl
    | split
    | (with_reducible refine Keeps.upd ?_ rfl ?_ ?_ ?_ ?_ ?_ ?_ ?_ ?_ ?_ ?_ ?_ ?_ ?_ ?_ ?_ ?_ ?_)
    | with_reducible exact (fun h => h)

theorem State.enable_keeps {q : List Instr} {s : State} (h : Keeps q s) (a0) : Keeps q (State.enable s a0) := by
  unfold State.enable
  try dsimp only
  repeat' first
    | with_reducible assumption
    | with_reducible apply State.setPwr_keeps

theorem State.cutEnable_keeps {q : List Instr} {s : State} (h : Keeps q s) (a0) : Keeps q (State.cutEnable s a0) := by
  unfold State.cutEnable
  try dsimp only
  repeat' first
    | with_reducible assumption
    | with_reducible apply State.setPwr_keeps
    | with_reducible apply keeps_foldl
    | split

theorem State.setWaits_keeps {q : List Instr} {s : State} (h : Keeps q s) (a0) : Keeps q (State.setWaits s a0) := by
  unfold State.setWaits
  try dsimp only
  repeat' first
    | with_reducible assumption
    | with_reducible apply State.setPwr_keeps

theorem State.replaceWait_keeps {q : List Instr} {s : State} (h : Keeps q s) (a0 a1) : Keeps q (State.replaceWait s a0 a1) := by
  unfold State.replaceWait
  try dsimp only
  repeat' first
    | with_reducible assumption
    | with_reducible apply State.setWaits_keeps

theorem State.dropWait_keeps {q : List Instr} {s : State} (h : Keeps q s) (a0) : Keeps q (State.dropWait s a0) := by
  unfold State.dropWait
  try dsimp only
  repeat' first
    | with_reducible assumption
    | with_reducible apply State.setWaits_keeps

theorem State.setAttempts_keeps {q : List Instr} {s : State} (h : Keeps q s) (a0 a1) : Keeps q (State.setAttempts s a0 a1) := by
  unfold State.setAttempts
  try dsimp only
  repeat' first
    | with_reducible assumption
    | with_reducible apply State.setPwr_keeps

theorem State.showDomains_keeps {q : List Instr} {s : State} (h : Keeps q s) : Keeps q (State.showDomains s) := by
  unfold State.showDomains
  try dsimp only
  repeat' first
    | with_reducible assumption
    | with_reducible apply State.updateCapacity_keeps
    | with_reducible apply State.updateClocks_keeps
    | with_reducible apply State.wr_keeps

theorem State.loseSlots_keeps {q : List Instr} {s : State} (h : Keeps q s) (a0) : Keeps q (State.loseSlots s a0) := by
  unfold State.loseSlots
  try dsimp only
  repeat' first
    | with_reducible assumption
    | with_reducible apply State.setSlot_keeps
    | with_reducible apply keeps_foldl
    | split
    | intro _

theorem State.offEffects_keeps {q : List Instr} {s : State} (h : Keeps q s) (a0) : Keeps q (State.offEffects s a0) := by
  unfold State.offEffects
  try dsimp only
  repeat' first
    | with_reducible assumption
    | with_reducible apply State.claDown_keeps
    | with_reducible apply State.closeSessions_keeps
    | with_reducible apply State.dropPorts_keeps
    | with_reducible apply State.loseHosts_keeps
    | with_reducible apply State.loseSlots_keeps
    | with_reducible apply State.pcieDown_keeps
    | with_reducible apply State.wr_keeps
    | with_reducible apply keeps_foldl
    | split
    | intro _

theorem State.domainDown_keeps {q : List Instr} {s : State} (h : Keeps q s) (a0) : Keeps q (State.domainDown s a0) := by
  unfold State.domainDown
  try dsimp only
  repeat' first
    | with_reducible assumption
    | with_reducible apply State.cutEnable_keeps
    | with_reducible apply State.offEffects_keeps
    | with_reducible apply State.wrBit_keeps
    | with_reducible apply keeps_foldl
    | split

theorem State.allDown_keeps {q : List Instr} {s : State} (h : Keeps q s) : Keeps q (State.allDown s) := by
  unfold State.allDown
  try dsimp only
  repeat' first
    | with_reducible assumption
    | with_reducible apply State.domainDown_keeps
    | with_reducible apply State.showDomains_keeps
    | with_reducible apply keeps_foldl
    | split
    | intro _

theorem State.followMap_keeps {q : List Instr} {s : State} (h : Keeps q s) (a0) : Keeps q (State.followMap s a0) := by
  unfold State.followMap
  try dsimp only
  repeat' first
    | with_reducible assumption
    | with_reducible apply keeps_foldl
    | split
    | (with_reducible refine Keeps.upd ?_ rfl ?_ ?_ ?_ ?_ ?_ ?_ ?_ ?_ ?_ ?_ ?_ ?_ ?_ ?_ ?_ ?_ ?_)
    | with_reducible exact (fun h => h)

theorem State.remapRows_keeps {q : List Instr} {s : State} (h : Keeps q s) (a0 a1) : Keeps q (State.remapRows s a0 a1) := by
  unfold State.remapRows
  try dsimp only
  repeat' first
    | with_reducible assumption
    | with_reducible apply State.listRows_keeps
    | with_reducible apply State.showRemaps_keeps
    | with_reducible apply keeps_foldl
    | split
    | (with_reducible refine Keeps.upd ?_ rfl ?_ ?_ ?_ ?_ ?_ ?_ ?_ ?_ ?_ ?_ ?_ ?_ ?_ ?_ ?_ ?_ ?_)
    | with_reducible exact (fun h => h)
    | with_reducible exact (fun h => SMap.wf_set h _ _)
    | with_reducible exact (fun h => SMap.wf_clear h _)
    | with_reducible exact (fun h => SMap.wf_filter h _)
    | with_reducible exact (Memory.wf_same rfl rfl)
    | with_reducible exact (fun _ => SMap.wf_foldl_set _ _ _ rfl)
    | exact (fun _ => rfl)
    | exact (fun h => h)
    | exact (fun h => Memory.wf_setByte h _ _)
    | exact (fun h => Memory.wf_undefine h _)
    | exact (fun h => Memory.wf_undefineBut h _ _)
    | exact (fun h => poison_setPoison h _ _)
    | intro _

theorem State.domainUp_keeps {q : List Instr} {s : State} (h : Keeps q s) (a0 a1) : Keeps q (State.domainUp s a0 a1) := by
  unfold State.domainUp
  try dsimp only
  repeat' first
    | with_reducible assumption
    | with_reducible apply State.divideSessions_keeps
    | with_reducible apply State.followMap_keeps
    | with_reducible apply State.remapRows_keeps
    | with_reducible apply State.resetRegs_keeps
    | with_reducible apply State.rewrite_keeps
    | with_reducible apply State.showDomains_keeps
    | with_reducible apply State.startLoad_keeps
    | with_reducible apply State.updateLanes_keeps
    | with_reducible apply State.wr_keeps
    | with_reducible apply State.wrBit_keeps
    | with_reducible apply keeps_foldl
    | split
    | intro _

theorem State.recordFail_keeps {q : List Instr} {s : State} (h : Keeps q s) (a0 a1 a2 a3) : Keeps q (State.recordFail s a0 a1 a2 a3) := by
  unfold State.recordFail
  try dsimp only
  repeat' first
    | with_reducible assumption
    | with_reducible apply State.emit_keeps
    | with_reducible apply State.event_keeps
    | with_reducible apply State.setOpen_keeps
    | with_reducible apply State.wr_keeps
    | with_reducible apply keeps_foldl
    | split

theorem State.safeState_keeps {q : List Instr} {s : State} (h : Keeps q s) (a0) : Keeps q (State.safeState s a0) := by
  unfold State.safeState
  try dsimp only
  repeat' first
    | with_reducible assumption
    | with_reducible apply State.allDown_keeps
    | with_reducible apply State.setOpen_keeps
    | with_reducible apply State.setPwr_keeps
    | with_reducible apply State.wr_keeps

theorem State.setBist_keeps {q : List Instr} {s : State} (h : Keeps q s) (a0) : Keeps q (State.setBist s a0) := by
  unfold State.setBist
  try dsimp only
  repeat' first
    | with_reducible assumption
    | with_reducible apply keeps_foldl
    | split
    | (with_reducible refine Keeps.upd ?_ rfl ?_ ?_ ?_ ?_ ?_ ?_ ?_ ?_ ?_ ?_ ?_ ?_ ?_ ?_ ?_ ?_ ?_)
    | with_reducible exact (fun h => h)

theorem State.startGroups_keeps {q : List Instr} {s : State} (h : Keeps q s) (a0) : Keeps q (State.startGroups s a0) := by
  induction a0 generalizing s with
  | zero => exact h
  | succ _ ih =>
    unfold State.startGroups
    try dsimp only
    repeat' first
      | with_reducible assumption
      | with_reducible apply ih
      | with_reducible apply State.wrBit_keeps
      | with_reducible apply keeps_foldl
      | split

theorem State.startBist_keeps {q : List Instr} {s : State} (h : Keeps q s) : Keeps q (State.startBist s) := by
  unfold State.startBist
  try dsimp only
  repeat' first
    | with_reducible assumption
    | with_reducible apply State.setBist_keeps
    | with_reducible apply State.setWaits_keeps
    | with_reducible apply State.startGroups_keeps
    | with_reducible apply State.wr_keeps

theorem State.finishWake_keeps {q : List Instr} {s : State} (h : Keeps q s) (a0) : Keeps q (State.finishWake s a0) := by
  unfold State.finishWake
  try dsimp only
  repeat' first
    | with_reducible assumption
    | with_reducible apply State.recordFail_keeps
    | with_reducible apply State.safeState_keeps
    | with_reducible apply State.setPwr_keeps
    | with_reducible apply State.showDomains_keeps
    | with_reducible apply State.wr_keeps
    | with_reducible apply keeps_foldl
    | split

theorem State.endDomains_keeps {q : List Instr} {s : State} (h : Keeps q s) (a0) : Keeps q (State.endDomains s a0) := by
  unfold State.endDomains
  try dsimp only
  repeat' first
    | with_reducible assumption
    | with_reducible apply State.finishWake_keeps
    | with_reducible apply State.setPwr_keeps
    | with_reducible apply State.startBist_keeps
    | with_reducible apply keeps_foldl
    | split

theorem State.beginDomain_keeps {q : List Instr} {s : State} (h : Keeps q s) (a0 a1) : Keeps q (State.beginDomain s a0 a1) := by
  unfold State.beginDomain
  try dsimp only
  repeat' first
    | with_reducible assumption
    | with_reducible apply State.enable_keeps
    | with_reducible apply State.setAttempts_keeps
    | with_reducible apply State.setPwr_keeps
    | with_reducible apply State.setWaits_keeps
    | with_reducible apply State.wr_keeps
    | with_reducible apply keeps_foldl
    | split

theorem State.nextDomain_keeps {q : List Instr} {s : State} (h : Keeps q s) : Keeps q (State.nextDomain s) := by
  unfold State.nextDomain
  try dsimp only
  repeat' first
    | with_reducible assumption
    | with_reducible apply State.beginDomain_keeps
    | with_reducible apply State.endDomains_keeps
    | with_reducible apply State.safeState_keeps
    | with_reducible apply keeps_foldl
    | split

theorem State.failDomain_keeps {q : List Instr} {s : State} (h : Keeps q s) (a0 a1) : Keeps q (State.failDomain s a0 a1) := by
  unfold State.failDomain
  try dsimp only
  repeat' first
    | with_reducible assumption
    | with_reducible apply State.cutEnable_keeps
    | with_reducible apply State.nextDomain_keeps
    | with_reducible apply State.recordFail_keeps
    | with_reducible apply State.safeState_keeps
    | with_reducible apply State.setPwr_keeps
    | with_reducible apply State.updateFault_keeps
    | with_reducible apply State.wrBit_keeps
    | with_reducible apply keeps_foldl
    | split

theorem State.failAttempt_keeps {q : List Instr} {s : State} (h : Keeps q s) (a0 a1 a2) : Keeps q (State.failAttempt s a0 a1 a2) := by
  unfold State.failAttempt
  try dsimp only
  repeat' first
    | with_reducible assumption
    | with_reducible apply State.cutEnable_keeps
    | with_reducible apply State.dropWait_keeps
    | with_reducible apply State.failDomain_keeps
    | with_reducible apply State.replaceWait_keeps
    | with_reducible apply State.setAttempts_keeps
    | with_reducible apply State.setPwr_keeps
    | with_reducible apply State.wrBit_keeps
    | with_reducible apply keeps_foldl
    | split

theorem State.beginWake_keeps {q : List Instr} {s : State} (h : Keeps q s) (a0) : Keeps q (State.beginWake s a0) := by
  unfold State.beginWake
  try dsimp only
  repeat' first
    | with_reducible assumption
    | with_reducible apply State.nextDomain_keeps
    | with_reducible apply State.setPwr_keeps
    | with_reducible apply State.updateFault_keeps
    | with_reducible apply State.wr_keeps
    | with_reducible apply keeps_foldl
    | split

theorem State.unpowered_keeps {q : List Instr} {s : State} (h : Keeps q s) : Keeps q (State.unpowered s) := by
  unfold State.unpowered
  try dsimp only
  repeat' first
    | with_reducible assumption
    | with_reducible apply keeps_foldl
    | split
    | (with_reducible refine Keeps.upd ?_ rfl ?_ ?_ ?_ ?_ ?_ ?_ ?_ ?_ ?_ ?_ ?_ ?_ ?_ ?_ ?_ ?_ ?_)
    | with_reducible exact (fun h => h)
    | with_reducible exact (fun h => SMap.wf_set h _ _)
    | with_reducible exact (fun h => SMap.wf_clear h _)
    | with_reducible exact (fun h => SMap.wf_filter h _)
    | with_reducible exact (Memory.wf_same rfl rfl)
    | with_reducible exact (fun _ => SMap.wf_foldl_set _ _ _ rfl)
    | exact (fun _ => rfl)

theorem State.latchStraps_keeps {q : List Instr} {s : State} (h : Keeps q s) (a0) : Keeps q (State.latchStraps s a0) := by
  unfold State.latchStraps
  try dsimp only
  repeat' first
    | with_reducible assumption
    | with_reducible apply State.setReg_keeps
    | with_reducible apply State.wr_keeps
    | with_reducible apply keeps_foldl
    | split
    | (with_reducible refine Keeps.upd ?_ rfl ?_ ?_ ?_ ?_ ?_ ?_ ?_ ?_ ?_ ?_ ?_ ?_ ?_ ?_ ?_ ?_ ?_)
    | with_reducible exact (fun h => h)

theorem State.showFuses_keeps {q : List Instr} {s : State} (h : Keeps q s) : Keeps q (State.showFuses s) := by
  unfold State.showFuses
  try dsimp only
  repeat' first
    | with_reducible assumption
    | with_reducible apply State.wr_keeps
    | with_reducible apply keeps_foldl
    | split
    | intro _

theorem State.loadMap_keeps {q : List Instr} {s : State} (h : Keeps q s) : Keeps q (State.loadMap s) := by
  unfold State.loadMap
  try dsimp only
  repeat' first
    | with_reducible assumption
    | with_reducible apply State.event_keeps
    | with_reducible apply State.wr_keeps
    | with_reducible apply keeps_foldl
    | split
    | (with_reducible refine Keeps.upd ?_ rfl ?_ ?_ ?_ ?_ ?_ ?_ ?_ ?_ ?_ ?_ ?_ ?_ ?_ ?_ ?_ ?_ ?_)
    | with_reducible exact (fun h => h)

theorem State.loadRecorder_keeps {q : List Instr} {s : State} (h : Keeps q s) : Keeps q (State.loadRecorder s) := by
  unfold State.loadRecorder
  try dsimp only
  repeat' first
    | with_reducible assumption
    | with_reducible apply State.counterUpdate_keeps
    | with_reducible apply State.event_keeps
    | with_reducible apply State.setOpen_keeps
    | with_reducible apply State.wr_keeps
    | with_reducible apply keeps_foldl
    | split
    | (with_reducible refine Keeps.upd ?_ rfl ?_ ?_ ?_ ?_ ?_ ?_ ?_ ?_ ?_ ?_ ?_ ?_ ?_ ?_ ?_ ?_ ?_)
    | with_reducible exact (fun h => h)

theorem State.powerUp_keeps {q : List Instr} {s : State} (h : Keeps q s) (a0) : Keeps q (State.powerUp s a0) := by
  unfold State.powerUp
  try dsimp only
  repeat' first
    | with_reducible assumption
    | with_reducible apply State.divideSessions_keeps
    | with_reducible apply State.draw_keeps
    | (with_reducible refine State.draw_keeps_of (e := by assumption) ?_)
    | with_reducible apply State.latchStraps_keeps
    | with_reducible apply State.loadMap_keeps
    | with_reducible apply State.loadRecorder_keeps
    | with_reducible apply State.setPin_keeps
    | with_reducible apply State.setPwr_keeps
    | with_reducible apply State.showDomains_keeps
    | with_reducible apply State.showFuses_keeps
    | with_reducible apply State.unpowered_keeps
    | with_reducible apply State.wr_keeps
    | with_reducible apply keeps_foldl_fst
    | with_reducible apply keeps_foldl_snd
    | with_reducible apply keeps_foldl
    | split
    | (with_reducible refine Keeps.upd ?_ rfl ?_ ?_ ?_ ?_ ?_ ?_ ?_ ?_ ?_ ?_ ?_ ?_ ?_ ?_ ?_ ?_ ?_)
    | with_reducible exact (fun h => h)

theorem execAonPowerUp_keeps {q : List Instr} {s : State} (h : Keeps q s) (a0) : KeepsNext q (execAonPowerUp a0 s) := by
  unfold execAonPowerUp
  try dsimp only
  repeat' first
    | with_reducible assumption
    | with_reducible apply keepsNext_next
    | with_reducible apply State.powerUp_keeps
    | with_reducible apply keeps_foldl
    | split

theorem execAonResetPin_keeps {q : List Instr} {s : State} (h : Keeps q s) (a0 a1) : KeepsNext q (execAonResetPin a0 a1 s) := by
  unfold execAonResetPin
  try dsimp only
  repeat' first
    | with_reducible assumption
    | with_reducible apply keepsNext_next
    | with_reducible apply State.draw_keeps
    | (with_reducible refine State.draw_keeps_of (e := by assumption) ?_)
    | with_reducible apply State.powerUp_keeps
    | with_reducible apply keeps_foldl_fst
    | with_reducible apply keeps_foldl_snd
    | with_reducible apply keeps_foldl
    | split

theorem execAonPowerLoss_keeps {q : List Instr} {s : State} (h : Keeps q s) : KeepsNext q (execAonPowerLoss s) := by
  unfold execAonPowerLoss
  try dsimp only
  repeat' first
    | with_reducible assumption
    | with_reducible apply keepsNext_next
    | with_reducible apply State.emit_keeps
    | with_reducible apply State.unpowered_keeps
    | with_reducible apply keeps_foldl
    | split

theorem execSysOscQualified_keeps {q : List Instr} {s : State} (h : Keeps q s) : KeepsNext q (execSysOscQualified s) := by
  unfold execSysOscQualified
  try dsimp only
  repeat' first
    | with_reducible assumption
    | with_reducible apply keepsNext_next
    | with_reducible apply State.setAttempts_keeps
    | with_reducible apply State.setWaits_keeps
    | with_reducible apply State.wr_keeps
    | with_reducible apply keeps_foldl
    | split

theorem State.startCores_keeps {q : List Instr} {s : State} (h : Keeps q s) : Keeps q (State.startCores s) := by
  unfold State.startCores
  try dsimp only
  repeat' first
    | with_reducible assumption
    | with_reducible apply State.setCore_keeps
    | with_reducible apply State.wrBit_keeps
    | with_reducible apply keeps_foldl
    | split
    | intro _

theorem State.hello_keeps {q : List Instr} {s : State} (h : Keeps q s) : Keeps q (State.hello s) := by
  unfold State.hello
  try dsimp only
  repeat' first
    | with_reducible assumption
    | with_reducible apply State.sendMgt_keeps
    | with_reducible apply State.startNet_keeps

theorem State.recheckPack_keeps {q : List Instr} {s : State} (h : Keeps q s) : Keeps q (State.recheckPack s) := by
  unfold State.recheckPack
  try dsimp only
  repeat' first
    | with_reducible assumption
    | with_reducible apply State.packRejected_keeps
    | with_reducible apply State.showPack_keeps
    | with_reducible apply keeps_foldl
    | split
    | (with_reducible refine Keeps.upd ?_ rfl ?_ ?_ ?_ ?_ ?_ ?_ ?_ ?_ ?_ ?_ ?_ ?_ ?_ ?_ ?_ ?_ ?_)
    | with_reducible exact (fun h => h)

theorem execBootImageLoaded_keeps {q : List Instr} {s : State} (h : Keeps q s) : KeepsNext q (execBootImageLoaded s) := by
  unfold execBootImageLoaded
  try dsimp only
  repeat' first
    | with_reducible assumption
    | with_reducible apply keepsNext_next
    | with_reducible apply State.hello_keeps
    | with_reducible apply State.nextDomain_keeps
    | with_reducible apply State.recheckPack_keeps
    | with_reducible apply State.sendWsf_keeps
    | with_reducible apply State.setWaits_keeps
    | with_reducible apply State.startCores_keeps
    | with_reducible apply State.wr_keeps
    | with_reducible apply State.wrapUp_keeps
    | with_reducible apply keeps_foldl
    | split

theorem execWakeGo_keeps {q : List Instr} {s : State} (h : Keeps q s) (a0) : KeepsNext q (execWakeGo a0 s) := by
  unfold execWakeGo
  try dsimp only
  repeat' first
    | with_reducible assumption
    | with_reducible apply keepsNext_next
    | with_reducible apply State.nextDomain_keeps
    | with_reducible apply State.wr_keeps
    | with_reducible apply State.wrapUp_keeps
    | with_reducible apply keeps_foldl
    | split

theorem State.domainDone_keeps {q : List Instr} {s : State} (h : Keeps q s) (a0 a1) : Keeps q (State.domainDone s a0 a1) := by
  unfold State.domainDone
  try dsimp only
  repeat' first
    | with_reducible assumption
    | with_reducible apply State.domainUp_keeps
    | with_reducible apply State.dropWait_keeps
    | with_reducible apply State.nextDomain_keeps

theorem execPllLock_keeps {q : List Instr} {s : State} (h : Keeps q s) (a0) : KeepsNext q (execPllLock a0 s) := by
  unfold execPllLock
  try dsimp only
  repeat' first
    | with_reducible assumption
    | with_reducible apply keepsNext_next
    | with_reducible apply State.domainDone_keeps
    | with_reducible apply State.nextDomain_keeps
    | with_reducible apply State.replaceWait_keeps
    | with_reducible apply State.setAttempts_keeps
    | with_reducible apply State.setWaits_keeps
    | with_reducible apply State.wr_keeps
    | with_reducible apply State.wrBit_keeps
    | with_reducible apply State.wrapUp_keeps
    | with_reducible apply keeps_foldl
    | split

theorem execPgoodRise_keeps {q : List Instr} {s : State} (h : Keeps q s) (a0) : KeepsNext q (execPgoodRise a0 s) := by
  unfold execPgoodRise
  try dsimp only
  repeat' first
    | with_reducible assumption
    | with_reducible apply keepsNext_next
    | with_reducible apply State.replaceWait_keeps
    | with_reducible apply State.setPwr_keeps
    | with_reducible apply keeps_foldl
    | split

theorem execHbmTrainingDone_keeps {q : List Instr} {s : State} (h : Keeps q s) (a0) : KeepsNext q (execHbmTrainingDone a0 s) := by
  unfold execHbmTrainingDone
  try dsimp only
  repeat' first
    | with_reducible assumption
    | with_reducible apply keepsNext_next
    | with_reducible apply State.domainDone_keeps
    | with_reducible apply State.wrapUp_keeps
    | with_reducible apply keeps_foldl
    | split

theorem execSerdesCalDone_keeps {q : List Instr} {s : State} (h : Keeps q s) (a0) : KeepsNext q (execSerdesCalDone a0 s) := by
  unfold execSerdesCalDone
  try dsimp only
  repeat' first
    | with_reducible assumption
    | with_reducible apply keepsNext_next
    | with_reducible apply State.domainDone_keeps
    | with_reducible apply State.wrapUp_keeps
    | with_reducible apply keeps_foldl
    | split

theorem State.failEarly_keeps {q : List Instr} {s : State} (h : Keeps q s) (a0 a1 a2) : Keeps q (State.failEarly s a0 a1 a2) := by
  unfold State.failEarly
  try dsimp only
  repeat' first
    | with_reducible assumption
    | with_reducible apply State.recordFail_keeps
    | with_reducible apply State.safeState_keeps
    | with_reducible apply State.setAttempts_keeps
    | with_reducible apply State.updateFault_keeps
    | with_reducible apply keeps_foldl
    | split

theorem execWakeStepTimeout_keeps {q : List Instr} {s : State} (h : Keeps q s) (a0) : KeepsNext q (execWakeStepTimeout a0 s) := by
  unfold execWakeStepTimeout
  try dsimp only
  repeat' first
    | with_reducible assumption
    | with_reducible apply keepsNext_next
    | with_reducible apply State.failAttempt_keeps
    | with_reducible apply State.failEarly_keeps
    | with_reducible apply State.wrapUp_keeps
    | with_reducible apply keeps_foldl
    | split

theorem execWakeRetryOffEnd_keeps {q : List Instr} {s : State} (h : Keeps q s) (a0) : KeepsNext q (execWakeRetryOffEnd a0 s) := by
  unfold execWakeRetryOffEnd
  try dsimp only
  repeat' first
    | with_reducible assumption
    | with_reducible apply keepsNext_next
    | with_reducible apply State.dropWait_keeps
    | with_reducible apply State.enable_keeps
    | with_reducible apply State.failDomain_keeps
    | with_reducible apply State.replaceWait_keeps
    | with_reducible apply State.setAttempts_keeps
    | with_reducible apply State.wrapUp_keeps
    | with_reducible apply keeps_foldl
    | split

end Sys2Proof.Machine
end

