-- ==== Sys2Proof/Laws/KeepsBist.lean ====
section
/-!
SUPPORT. The operations of Machine/Bist.lean keep the queue and the canonical form of every map (`Keeps`).
-/
namespace Sys2Proof.Machine

theorem State.logBist_keeps {q : List Instr} {s : State} (h : Keeps q s) (a0 a1 a2 a3 a4 a5) : Keeps q (State.logBist s a0 a1 a2 a3 a4 a5) := by
  unfold State.logBist
  try dsimp only
  repeat' first
    | with_reducible assumption
    | with_reducible apply State.count_keeps
    | with_reducible apply State.setBist_keeps

theorem State.repair_keeps {q : List Instr} {s : State} (h : Keeps q s) (a0 a1 a2 a3) : Keeps q (State.repair s a0 a1 a2 a3) := by
  unfold State.repair
  try dsimp only
  repeat' first
    | with_reducible assumption
    | with_reducible apply State.count_keeps
    | with_reducible apply State.logBist_keeps
    | with_reducible apply State.setBist_keeps

theorem State.unrepairable_keeps {q : List Instr} {s : State} (h : Keeps q s) (a0 a1 a2 a3) : Keeps q (State.unrepairable s a0 a1 a2 a3) := by
  unfold State.unrepairable
  try dsimp only
  repeat' first
    | with_reducible assumption
    | with_reducible apply State.event_keeps
    | with_reducible apply State.logBist_keeps
    | with_reducible apply State.setBist_keeps
    | with_reducible apply State.wrBit_keeps

theorem State.applyRow_keeps {q : List Instr} {s : State} (h : Keeps q s) (a0) : Keeps q (State.applyRow s a0) := by
  unfold State.applyRow
  try dsimp only
  repeat' first
    | with_reducible assumption
    | with_reducible apply State.showRemaps_keeps
    | with_reducible apply State.unrepairable_keeps
    | with_reducible apply keeps_foldl
    | split
    | (with_reducible refine Keeps.upd ?_ rfl ?_ ?_ ?_ ?_ ?_ ?_ ?_ ?_ ?_ ?_ ?_ ?_ ?_ ?_ ?_ ?_ ?_)
    | with_reducible exact (fun h => h)
    | with_reducible exact (fun h => SMap.wf_set h _ _)
    | with_reducible exact (fun h => SMap.wf_clear h _)
    | with_reducible exact (fun h => SMap.wf_filter h _)
    | with_reducible exact (Memory.wf_same rfl rfl)

theorem State.applyRows_keeps {q : List Instr} {s : State} (h : Keeps q s) : Keeps q (State.applyRows s) := by
  unfold State.applyRows
  try dsimp only
  repeat' first
    | with_reducible assumption
    | with_reducible apply State.applyRow_keeps
    | with_reducible apply keeps_foldl
    | split
    | intro _

theorem State.repairRow_keeps {q : List Instr} {s : State} (h : Keeps q s) (a0 a1) : Keeps q (State.repairRow s a0 a1) := by
  unfold State.repairRow
  try dsimp only
  repeat' first
    | with_reducible assumption
    | with_reducible apply State.repair_keeps
    | with_reducible apply State.showRemaps_keeps
    | with_reducible apply State.unrepairable_keeps
    | with_reducible apply keeps_foldl
    | split
    | (with_reducible refine Keeps.upd ?_ rfl ?_ ?_ ?_ ?_ ?_ ?_ ?_ ?_ ?_ ?_ ?_ ?_ ?_ ?_ ?_ ?_ ?_)
    | with_reducible exact (fun h => h)
    | with_reducible exact (fun h => SMap.wf_set h _ _)
    | with_reducible exact (fun h => SMap.wf_clear h _)
    | with_reducible exact (fun h => SMap.wf_filter h _)
    | with_reducible exact (Memory.wf_same rfl rfl)

theorem State.mendWords_keeps {q : List Instr} {s : State} (h : Keeps q s) (a0 a1 a2 a3 a4) : Keeps q (State.mendWords s a0 a1 a2 a3 a4).1 := by
  induction a4 generalizing s a0 a1 a2 a3 with
  | nil => exact h
  | cons _ _ ih =>
    unfold State.mendWords
    try dsimp only
    repeat' first
      | with_reducible assumption
      | with_reducible apply ih
      | with_reducible apply State.repair_keeps
      | with_reducible apply keeps_foldl
      | split

theorem State.mendWords_keeps_of {q : List Instr} {s t : State} {r} {a0 a1 a2 a3 a4} (e : State.mendWords s a0 a1 a2 a3 a4 = (t, r)) (h : Keeps q s) : Keeps q t := by
  have := State.mendWords_keeps h a0 a1 a2 a3 a4
  rwa [e] at this

theorem State.takeFinding_keeps {q : List Instr} {s : State} (h : Keeps q s) (a0 a1) : Keeps q (State.takeFinding s a0 a1) := by
  unfold State.takeFinding
  try dsimp only
  repeat' first
    | with_reducible assumption
    | with_reducible apply State.mendWords_keeps
    | (with_reducible refine State.mendWords_keeps_of (e := by assumption) ?_)
    | with_reducible apply State.repairRow_keeps
    | with_reducible apply State.unrepairable_keeps
    | with_reducible apply State.wrBit_keeps
    | with_reducible apply keeps_foldl_fst
    | with_reducible apply keeps_foldl_snd
    | with_reducible apply keeps_foldl
    | split
    | intro _

theorem execBistGroupEnd_keeps {q : List Instr} {s : State} (h : Keeps q s) (a0 a1 a2) : KeepsNext q (execBistGroupEnd a0 a1 a2 s) := by
  unfold execBistGroupEnd
  try dsimp only
  repeat' first
    | with_reducible assumption
    | with_reducible apply keepsNext_next
    | with_reducible apply State.applyRows_keeps
    | with_reducible apply State.startGroups_keeps
    | with_reducible apply State.startLoad_keeps
    | with_reducible apply State.takeFinding_keeps
    | with_reducible apply State.wr_keeps
    | with_reducible apply State.wrBit_keeps
    | with_reducible apply State.wrapUp_keeps
    | with_reducible apply keeps_foldl
    | split
    | intro _

theorem State.appendRepairs_keeps {q : List Instr} {s : State} (h : Keeps q s) : Keeps q (State.appendRepairs s) := by
  unfold State.appendRepairs
  try dsimp only
  repeat' first
    | with_reducible assumption
    | with_reducible apply State.wr_keeps
    | with_reducible apply keeps_foldl
    | split
    | (with_reducible refine Keeps.upd ?_ rfl ?_ ?_ ?_ ?_ ?_ ?_ ?_ ?_ ?_ ?_ ?_ ?_ ?_ ?_ ?_ ?_ ?_)
    | with_reducible exact (fun h => h)

theorem State.failBist_keeps {q : List Instr} {s : State} (h : Keeps q s) (a0 a1) : Keeps q (State.failBist s a0 a1) := by
  unfold State.failBist
  try dsimp only
  repeat' first
    | with_reducible assumption
    | with_reducible apply State.recordFail_keeps
    | with_reducible apply State.safeState_keeps
    | with_reducible apply State.setPwr_keeps
    | with_reducible apply State.updateFault_keeps
    | with_reducible apply State.wr_keeps

theorem State.applyFindings_keeps {q : List Instr} {s : State} (h : Keeps q s) : Keeps q (State.applyFindings s) := by
  unfold State.applyFindings
  try dsimp only
  repeat' first
    | with_reducible assumption
    | with_reducible apply State.applySet_keeps
    | with_reducible apply State.fixLayouts_keeps
    | with_reducible apply State.rewrite_keeps
    | with_reducible apply keeps_foldl
    | split
    | (with_reducible refine Keeps.upd ?_ rfl ?_ ?_ ?_ ?_ ?_ ?_ ?_ ?_ ?_ ?_ ?_ ?_ ?_ ?_ ?_ ?_ ?_)
    | with_reducible exact (fun h => h)

theorem execBistRepairPhaseEnd_keeps {q : List Instr} {s : State} (h : Keeps q s) (a0) : KeepsNext q (execBistRepairPhaseEnd a0 s) := by
  unfold execBistRepairPhaseEnd
  try dsimp only
  repeat' first
    | with_reducible assumption
    | with_reducible apply keepsNext_next
    | with_reducible apply State.appendRepairs_keeps
    | with_reducible apply State.applyFindings_keeps
    | with_reducible apply State.dropWait_keeps
    | with_reducible apply State.failBist_keeps
    | with_reducible apply State.finishWake_keeps
    | with_reducible apply State.showDomains_keeps
    | with_reducible apply State.wr_keeps
    | with_reducible apply State.wrapUp_keeps
    | with_reducible apply keeps_foldl
    | split

theorem State.abortBist_keeps {q : List Instr} {s : State} (h : Keeps q s) : Keeps q (State.abortBist s) := by
  unfold State.abortBist
  try dsimp only
  repeat' first
    | with_reducible assumption
    | with_reducible apply State.dropWait_keeps
    | with_reducible apply State.event_keeps
    | with_reducible apply State.setPwr_keeps
    | with_reducible apply State.wr_keeps
    | with_reducible apply keeps_foldl
    | split

end Sys2Proof.Machine
end

