-- ==== Sys2Proof/Laws/KeepsPanel.lean ====
section
/-!
SUPPORT. The operations of Machine/Panel.lean keep the queue and the canonical form of every map (`Keeps`).
-/
namespace Sys2Proof.Machine

theorem execEvrFlush_keeps {q : List Instr} {s : State} (h : Keeps q s) (a0) : KeepsNext q (execEvrFlush a0 s) := by
  unfold execEvrFlush
  try dsimp only
  repeat' first
    | with_reducible assumption
    | with_reducible apply keepsNext_next
    | with_reducible apply State.closing_keeps
    | with_reducible apply keeps_foldl
    | split

theorem execEvrRecordWritten_keeps {q : List Instr} {s : State} (h : Keeps q s) : KeepsNext q (execEvrRecordWritten s) := by
  unfold execEvrRecordWritten
  try dsimp only
  repeat' first
    | with_reducible assumption
    | with_reducible apply keepsNext_next
    | with_reducible apply State.recordWritten_keeps

theorem execPanelData_keeps {q : List Instr} {s : State} (h : Keeps q s) (a0 a1 a2) : KeepsNext q (execPanelData a0 a1 a2 s) := by
  unfold execPanelData
  try dsimp only
  repeat' first
    | with_reducible assumption
    | with_reducible apply keepsNext_next
    | with_reducible apply State.command_keeps
    | with_reducible apply keeps_foldl
    | split
    | (with_reducible refine Keeps.upd ?_ rfl ?_ ?_ ?_ ?_ ?_ ?_ ?_ ?_ ?_ ?_ ?_ ?_ ?_ ?_ ?_ ?_ ?_)
    | with_reducible exact (fun h => h)
    | with_reducible exact (fun h => SMap.wf_set h _ _)
    | with_reducible exact (fun h => SMap.wf_clear h _)
    | with_reducible exact (fun h => SMap.wf_filter h _)
    | with_reducible exact (Memory.wf_same rfl rfl)
    | with_reducible exact (fun _ => SMap.wf_foldl_set _ _ _ rfl)
    | exact (fun _ => rfl)
    | intro _

theorem execPanelCommit_keeps {q : List Instr} {s : State} (h : Keeps q s) (a0) : KeepsNext q (execPanelCommit a0 s) := by
  unfold execPanelCommit
  try dsimp only
  repeat' first
    | with_reducible assumption
    | with_reducible apply keepsNext_next
    | with_reducible apply State.command_keeps
    | with_reducible apply State.wr_keeps
    | with_reducible apply keeps_foldl
    | split
    | (with_reducible refine Keeps.upd ?_ rfl ?_ ?_ ?_ ?_ ?_ ?_ ?_ ?_ ?_ ?_ ?_ ?_ ?_ ?_ ?_ ?_ ?_)
    | with_reducible exact (fun h => h)
    | with_reducible exact (fun h => SMap.wf_set h _ _)
    | with_reducible exact (fun h => SMap.wf_clear h _)
    | with_reducible exact (fun h => SMap.wf_filter h _)
    | with_reducible exact (Memory.wf_same rfl rfl)
    | with_reducible exact (fun _ => SMap.wf_foldl_set _ _ _ rfl)
    | exact (fun _ => rfl)
    | intro _

theorem State.setEvr_keeps {q : List Instr} {s : State} (h : Keeps q s) (a0) : Keeps q (State.setEvr s a0) := by
  unfold State.setEvr
  try dsimp only
  repeat' first
    | with_reducible assumption
    | with_reducible apply keeps_foldl
    | split
    | (with_reducible refine Keeps.upd ?_ rfl ?_ ?_ ?_ ?_ ?_ ?_ ?_ ?_ ?_ ?_ ?_ ?_ ?_ ?_ ?_ ?_ ?_)
    | with_reducible exact (fun h => h)

theorem State.failUpdate_keeps {q : List Instr} {s : State} (h : Keeps q s) (a0) : Keeps q (State.failUpdate s a0) := by
  unfold State.failUpdate
  try dsimp only
  repeat' first
    | with_reducible assumption
    | with_reducible apply State.event_keeps
    | with_reducible apply State.setEvr_keeps
    | with_reducible apply State.wr_keeps
    | with_reducible apply keeps_foldl
    | split

theorem State.breakPanel_keeps {q : List Instr} {s : State} (h : Keeps q s) : Keeps q (State.breakPanel s) := by
  unfold State.breakPanel
  try dsimp only
  repeat' first
    | with_reducible assumption
    | with_reducible apply State.failUpdate_keeps

theorem State.writePanelCopy_keeps {q : List Instr} {s : State} (h : Keeps q s) (a0 a1 a2) : Keeps q (State.writePanelCopy s a0 a1 a2) := by
  unfold State.writePanelCopy
  try dsimp only
  repeat' first
    | with_reducible assumption
    | with_reducible apply State.wr_keeps
    | with_reducible apply keeps_foldl
    | split
    | (with_reducible refine Keeps.upd ?_ rfl ?_ ?_ ?_ ?_ ?_ ?_ ?_ ?_ ?_ ?_ ?_ ?_ ?_ ?_ ?_ ?_ ?_)
    | with_reducible exact (fun h => h)

theorem State.panelStep_keeps {q : List Instr} {s : State} (h : Keeps q s) (a0) : Keeps q (State.panelStep s a0) := by
  unfold State.panelStep
  try dsimp only
  repeat' first
    | with_reducible assumption
    | with_reducible apply State.emit_keeps
    | with_reducible apply State.event_keeps
    | with_reducible apply State.setEvr_keeps
    | with_reducible apply State.wr_keeps
    | with_reducible apply State.writePanelCopy_keeps
    | with_reducible apply keeps_foldl
    | split

theorem State.runPanel_keeps {q : List Instr} {s : State} (h : Keeps q s) (a0) : Keeps q (State.runPanel a0 s) := by
  induction a0 generalizing s with
  | zero => exact h
  | succ _ ih =>
    unfold State.runPanel
    try dsimp only
    repeat' first
      | with_reducible assumption
      | with_reducible apply ih
      | with_reducible apply State.emit_keeps
      | with_reducible apply State.failUpdate_keeps
      | with_reducible apply State.panelStep_keeps
      | with_reducible apply State.setEvr_keeps
      | with_reducible apply keeps_foldl
      | split

theorem State.startUpdate_keeps {q : List Instr} {s : State} (h : Keeps q s) : Keeps q (State.startUpdate s) := by
  unfold State.startUpdate
  try dsimp only
  repeat' first
    | with_reducible assumption
    | with_reducible apply State.panelStep_keeps
    | with_reducible apply State.runPanel_keeps
    | with_reducible apply State.setEvr_keeps
    | with_reducible apply State.wr_keeps
    | with_reducible apply State.writePanelCopy_keeps

theorem execPanelUpdateStart_keeps {q : List Instr} {s : State} (h : Keeps q s) : KeepsNext q (execPanelUpdateStart s) := by
  unfold execPanelUpdateStart
  try dsimp only
  repeat' first
    | with_reducible assumption
    | with_reducible apply keepsNext_next
    | with_reducible apply State.startUpdate_keeps
    | with_reducible apply keeps_foldl
    | split

theorem execPanelUpdateNow_keeps {q : List Instr} {s : State} (h : Keeps q s) (a0) : KeepsNext q (execPanelUpdateNow a0 s) := by
  unfold execPanelUpdateNow
  try dsimp only
  repeat' first
    | with_reducible assumption
    | with_reducible apply keepsNext_next
    | with_reducible apply State.startUpdate_keeps
    | with_reducible apply keeps_foldl
    | split

theorem execPanelClearFailed_keeps {q : List Instr} {s : State} (h : Keeps q s) (a0) : KeepsNext q (execPanelClearFailed a0 s) := by
  unfold execPanelClearFailed
  try dsimp only
  repeat' first
    | with_reducible assumption
    | with_reducible apply keepsNext_next
    | with_reducible apply State.setEvr_keeps
    | with_reducible apply State.wr_keeps
    | with_reducible apply keeps_foldl
    | split

theorem State.panelGo_keeps {q : List Instr} {s : State} (h : Keeps q s) : Keeps q (State.panelGo s) := by
  unfold State.panelGo
  try dsimp only
  repeat' first
    | with_reducible assumption
    | with_reducible apply State.runPanel_keeps
    | with_reducible apply State.setEvr_keeps

theorem State.panelMram_keeps {q : List Instr} {s : State} (h : Keeps q s) : Keeps q (State.panelMram s) := by
  unfold State.panelMram
  try dsimp only
  repeat' first
    | with_reducible assumption
    | with_reducible apply State.panelGo_keeps
    | with_reducible apply keeps_foldl
    | split

theorem execPanelBusyRelease_keeps {q : List Instr} {s : State} (h : Keeps q s) : KeepsNext q (execPanelBusyRelease s) := by
  unfold execPanelBusyRelease
  try dsimp only
  repeat' first
    | with_reducible assumption
    | with_reducible apply keepsNext_next
    | with_reducible apply State.panelGo_keeps
    | with_reducible apply keeps_foldl
    | split

theorem execPanelDelayExpiry_keeps {q : List Instr} {s : State} (h : Keeps q s) : KeepsNext q (execPanelDelayExpiry s) := by
  unfold execPanelDelayExpiry
  try dsimp only
  repeat' first
    | with_reducible assumption
    | with_reducible apply keepsNext_next
    | with_reducible apply State.panelGo_keeps
    | with_reducible apply keeps_foldl
    | split

theorem execPanelBusyTimeout_keeps {q : List Instr} {s : State} (h : Keeps q s) : KeepsNext q (execPanelBusyTimeout s) := by
  unfold execPanelBusyTimeout
  try dsimp only
  repeat' first
    | with_reducible assumption
    | with_reducible apply keepsNext_next
    | with_reducible apply State.failUpdate_keeps
    | with_reducible apply keeps_foldl
    | split

theorem State.abortPanel_keeps {q : List Instr} {s : State} (h : Keeps q s) : Keeps q (State.abortPanel s) := by
  unfold State.abortPanel
  try dsimp only
  repeat' first
    | with_reducible assumption
    | with_reducible apply State.event_keeps
    | with_reducible apply State.setEvr_keeps
    | with_reducible apply State.wr_keeps
    | with_reducible apply keeps_foldl
    | split

end Sys2Proof.Machine
end

