-- ==== Sys2Proof/Laws/KeepsPower.lean ====
section
/-!
SUPPORT. The operations of Machine/Power.lean keep the queue and the canonical form of every map (`Keeps`).
-/
namespace Sys2Proof.Machine

theorem State.writeDomCtl_keeps {q : List Instr} {s : State} (h : Keeps q s) (a0 a1) : Keeps q (State.writeDomCtl s a0 a1) := by
  unfold State.writeDomCtl
  try dsimp only
  repeat' first
    | with_reducible assumption
    | with_reducible apply State.beginWake_keeps
    | with_reducible apply State.domainDown_keeps
    | with_reducible apply State.event_keeps
    | with_reducible apply State.showDomains_keeps
    | with_reducible apply keeps_foldl
    | split
    | intro _

theorem execDomainOn_keeps {q : List Instr} {s : State} (h : Keeps q s) (a0 a1) : KeepsNext q (execDomainOn a0 a1 s) := by
  unfold execDomainOn
  try dsimp only
  repeat' first
    | with_reducible assumption
    | with_reducible apply keepsNext_next
    | with_reducible apply State.wrapUp_keeps
    | with_reducible apply State.writeDomCtl_keeps

theorem execDomainOff_keeps {q : List Instr} {s : State} (h : Keeps q s) (a0 a1) : KeepsNext q (execDomainOff a0 a1 s) := by
  unfold execDomainOff
  try dsimp only
  repeat' first
    | with_reducible assumption
    | with_reducible apply keepsNext_next
    | with_reducible apply State.wrapUp_keeps
    | with_reducible apply State.writeDomCtl_keeps

theorem execPowerFailWarning_keeps {q : List Instr} {s : State} (h : Keeps q s) : KeepsNext q (execPowerFailWarning s) := by
  unfold execPowerFailWarning
  try dsimp only
  repeat' first
    | with_reducible assumption
    | with_reducible apply keepsNext_next
    | with_reducible apply State.abortBist_keeps
    | with_reducible apply State.abortPanel_keeps
    | with_reducible apply State.abortStream_keeps
    | with_reducible apply State.endSession_keeps
    | with_reducible apply State.event_keeps
    | with_reducible apply State.setPwr_keeps
    | with_reducible apply State.wrapUp_keeps
    | with_reducible apply keeps_foldl
    | split

theorem State.takeReading_keeps {q : List Instr} {s : State} (h : Keeps q s) (a0) : Keeps q (State.takeReading s a0) := by
  unfold State.takeReading
  try dsimp only
  repeat' first
    | with_reducible assumption
    | with_reducible apply State.event_keeps
    | with_reducible apply State.recordCore_keeps
    | with_reducible apply State.report_keeps
    | with_reducible apply State.wr_keeps
    | with_reducible apply keeps_foldl
    | split

theorem execPmbusPoll_keeps {q : List Instr} {s : State} (h : Keeps q s) (a0) : KeepsNext q (execPmbusPoll a0 s) := by
  unfold execPmbusPoll
  try dsimp only
  repeat' first
    | with_reducible assumption
    | with_reducible apply keepsNext_next
    | with_reducible apply State.setPwr_keeps
    | with_reducible apply State.takeReading_keeps
    | with_reducible apply keeps_foldl
    | split
    | intro _

theorem execPartCfgWrite_keeps {q : List Instr} {s : State} (h : Keeps q s) (a0 a1) : KeepsNext q (execPartCfgWrite a0 a1 s) := by
  unfold execPartCfgWrite
  try dsimp only
  repeat' first
    | with_reducible assumption
    | with_reducible apply keepsNext_next
    | with_reducible apply State.wr_keeps
    | with_reducible apply keeps_foldl
    | split

end Sys2Proof.Machine
end

