-- ==== Sys2Proof/Laws/KeepsHang.lean ====
section
/-!
SUPPORT. The operations of Machine/Hang.lean keep the queue and the canonical form of every map (`Keeps`).
-/
namespace Sys2Proof.Machine

theorem State.showHalts_keeps {q : List Instr} {s : State} (h : Keeps q s) : Keeps q (State.showHalts s) := by
  unfold State.showHalts
  try dsimp only
  repeat' first
    | with_reducible assumption
    | with_reducible apply State.wr_keeps

theorem State.exemptHalts_keeps {q : List Instr} {s : State} (h : Keeps q s) : Keeps q (State.exemptHalts s) := by
  unfold State.exemptHalts
  try dsimp only
  repeat' first
    | with_reducible assumption
    | with_reducible apply State.setCore_keeps
    | with_reducible apply State.showHalts_keeps
    | with_reducible apply keeps_foldl
    | split
    | intro _

theorem State.restartCore_keeps {q : List Instr} {s : State} (h : Keeps q s) (a0) : Keeps q (State.restartCore s a0) := by
  unfold State.restartCore
  try dsimp only
  repeat' first
    | with_reducible assumption
    | with_reducible apply State.setCore_keeps
    | with_reducible apply State.showHalts_keeps
    | with_reducible apply State.wrBit_keeps

theorem execHeartbeatWrite_keeps {q : List Instr} {s : State} (h : Keeps q s) (a0 a1) : KeepsNext q (execHeartbeatWrite a0 a1 s) := by
  unfold execHeartbeatWrite
  try dsimp only
  repeat' first
    | with_reducible assumption
    | with_reducible apply keepsNext_next
    | with_reducible apply State.setCore_keeps
    | with_reducible apply State.wr_keeps
    | with_reducible apply State.wrBit_keeps
    | with_reducible apply keeps_foldl
    | split

theorem State.recoverAlone_keeps {q : List Instr} {s : State} (h : Keeps q s) : Keeps q (State.recoverAlone s) := by
  unfold State.recoverAlone
  try dsimp only
  repeat' first
    | with_reducible assumption
    | with_reducible apply State.event_keeps
    | with_reducible apply State.requestReset_keeps
    | with_reducible apply State.safeState_keeps
    | with_reducible apply State.updateFault_keeps
    | with_reducible apply State.wr_keeps
    | with_reducible apply keeps_foldl
    | split
    | (with_reducible refine Keeps.upd ?_ rfl ?_ ?_ ?_ ?_ ?_ ?_ ?_ ?_ ?_ ?_ ?_ ?_ ?_ ?_ ?_ ?_ ?_)
    | with_reducible exact (fun h => h)
    | with_reducible exact (fun h => SMap.wf_set h _ _)
    | with_reducible exact (fun h => SMap.wf_clear h _)
    | with_reducible exact (fun h => SMap.wf_filter h _)
    | with_reducible exact (Memory.wf_same rfl rfl)
    | with_reducible exact (fun _ => SMap.wf_foldl_set _ _ _ rfl)
    | exact (fun _ => rfl)
    | intro _

theorem State.revertMap_keeps {q : List Instr} {s : State} (h : Keeps q s) : Keeps q (State.revertMap s) := by
  unfold State.revertMap
  try dsimp only
  repeat' first
    | with_reducible assumption
    | with_reducible apply State.wr_keeps
    | with_reducible apply keeps_foldl
    | split
    | (with_reducible refine Keeps.upd ?_ rfl ?_ ?_ ?_ ?_ ?_ ?_ ?_ ?_ ?_ ?_ ?_ ?_ ?_ ?_ ?_ ?_ ?_)
    | with_reducible exact (fun h => h)

theorem State.completeEvents_keeps {q : List Instr} {s : State} (h : Keeps q s) (a0) : Keeps q (State.completeEvents s a0) := by
  unfold State.completeEvents
  try dsimp only
  repeat' first
    | with_reducible assumption
    | with_reducible apply State.flushRecords_keeps
    | with_reducible apply State.flushTrip_keeps
    | with_reducible apply State.listRows_keeps
    | with_reducible apply State.openImage_keeps
    | with_reducible apply State.panelMram_keeps
    | with_reducible apply State.reconcile_keeps
    | with_reducible apply State.startWrite_keeps

theorem State.beginTakeover_keeps {q : List Instr} {s : State} (h : Keeps q s) (a0) : Keeps q (State.beginTakeover s a0) := by
  unfold State.beginTakeover
  try dsimp only
  repeat' first
    | with_reducible assumption
    | with_reducible apply State.setCore_keeps
    | with_reducible apply State.wr_keeps
    | with_reducible apply keeps_foldl
    | split
    | (with_reducible refine Keeps.upd ?_ rfl ?_ ?_ ?_ ?_ ?_ ?_ ?_ ?_ ?_ ?_ ?_ ?_ ?_ ?_ ?_ ?_ ?_)
    | with_reducible exact (fun h => h)

theorem State.loadSnapshot_keeps {q : List Instr} {s : State} (h : Keeps q s) (a0) : Keeps q (State.loadSnapshot s a0) := by
  unfold State.loadSnapshot
  try dsimp only
  repeat' first
    | with_reducible assumption
    | with_reducible apply State.wr_keeps
    | with_reducible apply keeps_foldl
    | split
    | (with_reducible refine Keeps.upd ?_ rfl ?_ ?_ ?_ ?_ ?_ ?_ ?_ ?_ ?_ ?_ ?_ ?_ ?_ ?_ ?_ ?_ ?_)
    | with_reducible exact (fun h => h)

theorem execTakeoverComplete_keeps {q : List Instr} {s : State} (h : Keeps q s) : KeepsNext q (execTakeoverComplete s) := by
  unfold execTakeoverComplete
  try dsimp only
  repeat' first
    | with_reducible assumption
    | with_reducible apply keepsNext_next
    | with_reducible apply State.completeEvents_keeps
    | with_reducible apply State.event_keeps
    | with_reducible apply State.loadSnapshot_keeps
    | with_reducible apply State.restartCore_keeps
    | with_reducible apply State.wr_keeps
    | with_reducible apply State.wrapUp_keeps
    | with_reducible apply keeps_foldl
    | split
    | (with_reducible refine Keeps.upd ?_ rfl ?_ ?_ ?_ ?_ ?_ ?_ ?_ ?_ ?_ ?_ ?_ ?_ ?_ ?_ ?_ ?_ ?_)
    | with_reducible exact (fun h => h)

theorem execTakeoverOverdue_keeps {q : List Instr} {s : State} (h : Keeps q s) : KeepsNext q (execTakeoverOverdue s) := by
  unfold execTakeoverOverdue
  try dsimp only
  repeat' first
    | with_reducible assumption
    | with_reducible apply keepsNext_next
    | with_reducible apply State.recoverAlone_keeps
    | with_reducible apply State.wrapUp_keeps
    | with_reducible apply keeps_foldl
    | split

theorem State.setSnap_keeps {q : List Instr} {s : State} (h : Keeps q s) (a0 a1) : Keeps q (State.setSnap s a0 a1) := by
  unfold State.setSnap
  try dsimp only
  repeat' first
    | with_reducible assumption
    | with_reducible apply keeps_foldl
    | split
    | (with_reducible refine Keeps.upd ?_ rfl ?_ ?_ ?_ ?_ ?_ ?_ ?_ ?_ ?_ ?_ ?_ ?_ ?_ ?_ ?_ ?_ ?_)
    | with_reducible exact (fun h => h)

theorem execRmgSnapshot_keeps {q : List Instr} {s : State} (h : Keeps q s) : KeepsNext q (execRmgSnapshot s) := by
  unfold execRmgSnapshot
  try dsimp only
  repeat' first
    | with_reducible assumption
    | with_reducible apply keepsNext_next
    | with_reducible apply State.setSnap_keeps
    | with_reducible apply State.wr_keeps
    | with_reducible apply keeps_foldl
    | split
    | (with_reducible refine Keeps.upd ?_ rfl ?_ ?_ ?_ ?_ ?_ ?_ ?_ ?_ ?_ ?_ ?_ ?_ ?_ ?_ ?_ ?_ ?_)
    | with_reducible exact (fun h => h)

theorem execRmgAckWrite_keeps {q : List Instr} {s : State} (h : Keeps q s) (a0 a1) : KeepsNext q (execRmgAckWrite a0 a1 s) := by
  unfold execRmgAckWrite
  try dsimp only
  repeat' first
    | with_reducible assumption
    | with_reducible apply keepsNext_next
    | with_reducible apply State.wr_keeps
    | with_reducible apply keeps_foldl
    | split
    | (with_reducible refine Keeps.upd ?_ rfl ?_ ?_ ?_ ?_ ?_ ?_ ?_ ?_ ?_ ?_ ?_ ?_ ?_ ?_ ?_ ?_ ?_)
    | with_reducible exact (fun h => h)

theorem State.missCc2_keeps {q : List Instr} {s : State} (h : Keeps q s) : Keeps q (State.missCc2 s) := by
  unfold State.missCc2
  try dsimp only
  repeat' first
    | with_reducible assumption
    | with_reducible apply State.abortBist_keeps
    | with_reducible apply State.event_keeps
    | with_reducible apply State.failBist_keeps
    | with_reducible apply State.requestReset_keeps
    | with_reducible apply State.restartCore_keeps
    | with_reducible apply keeps_foldl
    | split
    | intro _

theorem State.missCc3_keeps {q : List Instr} {s : State} (h : Keeps q s) : Keeps q (State.missCc3 s) := by
  unfold State.missCc3
  try dsimp only
  repeat' first
    | with_reducible assumption
    | with_reducible apply State.event_keeps
    | with_reducible apply State.requestReset_keeps
    | with_reducible apply State.restartCore_keeps
    | with_reducible apply keeps_foldl
    | split

theorem State.missRmg_keeps {q : List Instr} {s : State} (h : Keeps q s) (a0) : Keeps q (State.missRmg s a0) := by
  unfold State.missRmg
  try dsimp only
  repeat' first
    | with_reducible assumption
    | with_reducible apply State.beginTakeover_keeps
    | with_reducible apply State.recoverAlone_keeps
    | with_reducible apply State.restartCore_keeps
    | with_reducible apply keeps_foldl
    | split

theorem execHeartbeatMiss_keeps {q : List Instr} {s : State} (h : Keeps q s) (a0) : KeepsNext q (execHeartbeatMiss a0 s) := by
  unfold execHeartbeatMiss
  try dsimp only
  repeat' first
    | with_reducible assumption
    | with_reducible apply keepsNext_next
    | with_reducible apply State.missCc2_keeps
    | with_reducible apply State.missCc3_keeps
    | with_reducible apply State.missRmg_keeps
    | with_reducible apply State.setCore_keeps
    | with_reducible apply State.wrBit_keeps
    | with_reducible apply State.wrapUp_keeps
    | with_reducible apply keeps_foldl
    | split

theorem execEngineStall_keeps {q : List Instr} {s : State} (h : Keeps q s) (a0 a1) : KeepsNext q (execEngineStall a0 a1 s) := by
  unfold execEngineStall
  try dsimp only
  repeat' first
    | with_reducible assumption
    | with_reducible apply keepsNext_next
    | with_reducible apply State.event_keeps
    | with_reducible apply State.requestReset_keeps
    | with_reducible apply State.wrapUp_keeps
    | with_reducible apply keeps_foldl
    | split
    | (with_reducible refine Keeps.upd ?_ rfl ?_ ?_ ?_ ?_ ?_ ?_ ?_ ?_ ?_ ?_ ?_ ?_ ?_ ?_ ?_ ?_ ?_)
    | with_reducible exact (fun h => h)

theorem execEngineResetOverdue_keeps {q : List Instr} {s : State} (h : Keeps q s) (a0 a1) : KeepsNext q (execEngineResetOverdue a0 a1 s) := by
  unfold execEngineResetOverdue
  try dsimp only
  repeat' first
    | with_reducible assumption
    | with_reducible apply keepsNext_next
    | with_reducible apply State.event_keeps
    | with_reducible apply State.requestReset_keeps
    | with_reducible apply State.wrapUp_keeps
    | with_reducible apply keeps_foldl
    | split

end Sys2Proof.Machine
end

