-- ==== Sys2Proof/Laws/KeepsReset.lean ====
section
/-!
SUPPORT. The operations of Machine/Reset.lean keep the queue and the canonical form of every map (`Keeps`).
-/
namespace Sys2Proof.Machine

theorem State.answerFence_keeps {q : List Instr} {s : State} (h : Keeps q s) (a0) : Keeps q (State.answerFence s a0) := by
  unfold State.answerFence
  try dsimp only
  repeat' first
    | with_reducible assumption
    | with_reducible apply State.endWith_keeps
    | with_reducible apply State.event_keeps
    | with_reducible apply State.settle_keeps
    | with_reducible apply State.wr_keeps
    | with_reducible apply keeps_foldl
    | split
    | (with_reducible refine Keeps.upd ?_ rfl ?_ ?_ ?_ ?_ ?_ ?_ ?_ ?_ ?_ ?_ ?_ ?_ ?_ ?_ ?_ ?_ ?_)
    | with_reducible exact (fun h => h)
    | with_reducible exact (fun h => SMap.wf_set h _ _)
    | with_reducible exact (fun h => SMap.wf_clear h _)
    | with_reducible exact (fun h => SMap.wf_filter h _)
    | with_reducible exact (Memory.wf_same rfl rfl)
    | with_reducible exact (fun _ => SMap.wf_foldl_set _ _ _ rfl)
    | exact (fun _ => rfl)
    | intro _

theorem State.takeOver_keeps {q : List Instr} {s : State} (h : Keeps q s) (a0 a1 a2 a3) : Keeps q (State.takeOver s a0 a1 a2 a3) := by
  unfold State.takeOver
  try dsimp only
  repeat' first
    | with_reducible assumption
    | with_reducible apply State.abortChurnOf_keeps
    | with_reducible apply State.answerFence_keeps
    | with_reducible apply State.setResets_keeps
    | with_reducible apply State.showReset_keeps

theorem State.boundary_keeps {q : List Instr} {s : State} (h : Keeps q s) (a0 a1) : Keeps q (State.boundary s a0 a1) := by
  unfold State.boundary
  try dsimp only
  repeat' first
    | with_reducible assumption
    | with_reducible apply State.takeOver_keeps
    | with_reducible apply State.toPhase_keeps
    | with_reducible apply keeps_foldl
    | split

theorem execFenceDrainEnd_keeps {q : List Instr} {s : State} (h : Keeps q s) (a0) : KeepsNext q (execFenceDrainEnd a0 s) := by
  unfold execFenceDrainEnd
  try dsimp only
  repeat' first
    | with_reducible assumption
    | with_reducible apply keepsNext_next
    | with_reducible apply State.answerFence_keeps
    | with_reducible apply State.boundary_keeps
    | with_reducible apply State.wrapUp_keeps
    | with_reducible apply keeps_foldl
    | split

theorem execFenceAnswerOverrun_keeps {q : List Instr} {s : State} (h : Keeps q s) (a0) : KeepsNext q (execFenceAnswerOverrun a0 s) := by
  unfold execFenceAnswerOverrun
  try dsimp only
  repeat' first
    | with_reducible assumption
    | with_reducible apply keepsNext_next
    | with_reducible apply State.event_keeps
    | with_reducible apply State.requestReset_keeps
    | with_reducible apply State.wrapUp_keeps
    | with_reducible apply keeps_foldl
    | split

theorem State.setCap_keeps {q : List Instr} {s : State} (h : Keeps q s) (a0 a1) : Keeps q (State.setCap s a0 a1) := by
  unfold State.setCap
  try dsimp only
  repeat' first
    | with_reducible assumption
    | with_reducible apply keeps_foldl
    | split
    | (with_reducible refine Keeps.upd ?_ rfl ?_ ?_ ?_ ?_ ?_ ?_ ?_ ?_ ?_ ?_ ?_ ?_ ?_ ?_ ?_ ?_ ?_)
    | with_reducible exact (fun h => h)

theorem State.writeCapture_keeps {q : List Instr} {s : State} (h : Keeps q s) (a0 a1) : Keeps q (State.writeCapture s a0 a1) := by
  unfold State.writeCapture
  try dsimp only
  repeat' first
    | with_reducible assumption
    | with_reducible apply State.event_keeps
    | with_reducible apply State.nextCapSeq_keeps
    | (with_reducible refine State.nextCapSeq_keeps_of (e := by assumption) ?_)
    | with_reducible apply State.setCap_keeps
    | with_reducible apply State.store_keeps
    | with_reducible apply State.wr_keeps
    | with_reducible apply keeps_foldl_fst
    | with_reducible apply keeps_foldl_snd
    | with_reducible apply keeps_foldl
    | split

theorem execCaptureComplete_keeps {q : List Instr} {s : State} (h : Keeps q s) (a0) : KeepsNext q (execCaptureComplete a0 s) := by
  unfold execCaptureComplete
  try dsimp only
  repeat' first
    | with_reducible assumption
    | with_reducible apply keepsNext_next
    | with_reducible apply State.boundary_keeps
    | with_reducible apply State.setResets_keeps
    | with_reducible apply State.showReset_keeps
    | with_reducible apply State.wrapUp_keeps
    | with_reducible apply State.writeCapture_keeps
    | with_reducible apply keeps_foldl
    | split
    | intro _

theorem execCaptureChunkSend_keeps {q : List Instr} {s : State} (h : Keeps q s) (a0) : KeepsNext q (execCaptureChunkSend a0 s) := by
  unfold execCaptureChunkSend
  try dsimp only
  repeat' first
    | with_reducible assumption
    | with_reducible apply keepsNext_next
    | with_reducible apply State.event_keeps
    | with_reducible apply State.sendEvent_keeps
    | with_reducible apply State.setCap_keeps
    | with_reducible apply State.touch_keeps
    | with_reducible apply State.wr_keeps
    | with_reducible apply State.wrapUp_keeps
    | with_reducible apply keeps_foldl
    | split

theorem State.freshQueues_keeps {q : List Instr} {s : State} (h : Keeps q s) (a0) : Keeps q (State.freshQueues s a0) := by
  unfold State.freshQueues
  try dsimp only
  repeat' first
    | with_reducible assumption
    | with_reducible apply State.setQueue_keeps
    | with_reducible apply keeps_foldl
    | split
    | intro _

theorem State.dropLists_keeps {q : List Instr} {s : State} (h : Keeps q s) (a0) : Keeps q (State.dropLists s a0) := by
  unfold State.dropLists
  try dsimp only
  repeat' first
    | with_reducible assumption
    | with_reducible apply State.forget_keeps
    | with_reducible apply keeps_foldl
    | split
    | (with_reducible refine Keeps.upd ?_ rfl ?_ ?_ ?_ ?_ ?_ ?_ ?_ ?_ ?_ ?_ ?_ ?_ ?_ ?_ ?_ ?_ ?_)
    | with_reducible exact (fun h => h)
    | with_reducible exact (fun h => SMap.wf_set h _ _)
    | with_reducible exact (fun h => SMap.wf_clear h _)
    | with_reducible exact (fun h => SMap.wf_filter h _)
    | with_reducible exact (Memory.wf_same rfl rfl)
    | with_reducible exact (fun _ => SMap.wf_foldl_set _ _ _ rfl)
    | exact (fun _ => rfl)
    | intro _

theorem State.isolateRegion_keeps {q : List Instr} {s : State} (h : Keeps q s) (a0 a1) : Keeps q (State.isolateRegion s a0 a1) := by
  unfold State.isolateRegion
  try dsimp only
  repeat' first
    | with_reducible assumption
    | with_reducible apply State.setRegion_keeps
    | with_reducible apply keeps_foldl
    | split
    | (with_reducible refine Keeps.upd ?_ rfl ?_ ?_ ?_ ?_ ?_ ?_ ?_ ?_ ?_ ?_ ?_ ?_ ?_ ?_ ?_ ?_ ?_)
    | with_reducible exact (fun h => h)

theorem State.holdRegions_keeps {q : List Instr} {s : State} (h : Keeps q s) (a0) : Keeps q (State.holdRegions s a0) := by
  unfold State.holdRegions
  try dsimp only
  repeat' first
    | with_reducible assumption
    | with_reducible apply State.isolateRegion_keeps
    | with_reducible apply keeps_foldl
    | split
    | intro _

theorem State.releaseRegions_keeps {q : List Instr} {s : State} (h : Keeps q s) (a0) : Keeps q (State.releaseRegions s a0) := by
  unfold State.releaseRegions
  try dsimp only
  repeat' first
    | with_reducible assumption
    | with_reducible apply State.releaseRegion_keeps
    | with_reducible apply keeps_foldl
    | split
    | (with_reducible refine Keeps.upd ?_ rfl ?_ ?_ ?_ ?_ ?_ ?_ ?_ ?_ ?_ ?_ ?_ ?_ ?_ ?_ ?_ ?_ ?_)
    | with_reducible exact (fun h => h)
    | with_reducible exact (fun h => SMap.wf_set h _ _)
    | with_reducible exact (fun h => SMap.wf_clear h _)
    | with_reducible exact (fun h => SMap.wf_filter h _)
    | with_reducible exact (Memory.wf_same rfl rfl)
    | with_reducible exact (fun _ => SMap.wf_foldl_set _ _ _ rfl)
    | exact (fun _ => rfl)
    | intro _

theorem State.dropLatches_keeps {q : List Instr} {s : State} (h : Keeps q s) (a0 a1) : Keeps q (State.dropLatches s a0 a1) := by
  refine h.upd rfl id id id id id id id id id id id id id ?_ id ?_ id
  · exact fun h => SMap.wf_filter h _
  · exact fun h => SMap.wfFrom_mapFilter h _ _ (fun k v hp => by simpa using hp)

theorem State.resetPart_keeps {q : List Instr} {s : State} (h : Keeps q s) (a0) : Keeps q (State.resetPart s a0) := by
  unfold State.resetPart
  try dsimp only
  repeat' first
    | with_reducible assumption
    | with_reducible apply State.abortStreamIn_keeps
    | with_reducible apply State.closeSessions_keeps
    | with_reducible apply State.count_keeps
    | with_reducible apply State.dropLatches_keeps
    | with_reducible apply State.dropLists_keeps
    | with_reducible apply State.freshQueues_keeps
    | with_reducible apply State.holdRegions_keeps
    | with_reducible apply State.resetRegs_keeps
    | with_reducible apply State.undefine_keeps
    | with_reducible apply keeps_foldl
    | split
    | (with_reducible refine Keeps.upd ?_ rfl ?_ ?_ ?_ ?_ ?_ ?_ ?_ ?_ ?_ ?_ ?_ ?_ ?_ ?_ ?_ ?_ ?_)
    | with_reducible exact (fun h => h)
    | with_reducible exact (fun h => SMap.wf_set h _ _)
    | with_reducible exact (fun h => SMap.wf_clear h _)

theorem State.resetLinks_keeps {q : List Instr} {s : State} (h : Keeps q s) : Keeps q (State.resetLinks s) := by
  unfold State.resetLinks
  try dsimp only
  repeat' first
    | with_reducible assumption
    | with_reducible apply State.pcieDown_keeps
    | with_reducible apply keeps_foldl
    | split
    | (with_reducible refine Keeps.upd ?_ rfl ?_ ?_ ?_ ?_ ?_ ?_ ?_ ?_ ?_ ?_ ?_ ?_ ?_ ?_ ?_ ?_ ?_)
    | with_reducible exact (fun h => h)

theorem State.clearDevice_keeps {q : List Instr} {s : State} (h : Keeps q s) (a0) : Keeps q (State.clearDevice s a0) := by
  unfold State.clearDevice
  try dsimp only
  repeat' first
    | with_reducible assumption
    | with_reducible apply State.closeSessions_keeps
    | with_reducible apply State.divideSessions_keeps
    | with_reducible apply State.domainDown_keeps
    | with_reducible apply State.dropLatches_keeps
    | with_reducible apply State.dropLists_keeps
    | with_reducible apply State.endChurn_keeps
    | with_reducible apply State.freshQueues_keeps
    | with_reducible apply State.resetLinks_keeps
    | with_reducible apply State.resetRegs_keeps
    | with_reducible apply State.setPwr_keeps
    | with_reducible apply State.showDomains_keeps
    | with_reducible apply State.showLayouts_keeps
    | with_reducible apply State.wrBit_keeps
    | with_reducible apply keeps_foldl
    | split
    | (with_reducible refine Keeps.upd ?_ rfl ?_ ?_ ?_ ?_ ?_ ?_ ?_ ?_ ?_ ?_ ?_ ?_ ?_ ?_ ?_ ?_ ?_)
    | with_reducible exact (fun h => h)
    | with_reducible exact (fun h => SMap.wf_set h _ _)
    | with_reducible exact (fun h => SMap.wf_clear h _)
    | with_reducible exact (fun h => SMap.wf_filter h _)
    | with_reducible exact (Memory.wf_same rfl rfl)
    | with_reducible exact (fun _ => SMap.wf_foldl_set _ _ _ rfl)
    | exact (fun _ => rfl)
    | intro _

theorem State.loseReserved_keeps {q : List Instr} {s : State} (h : Keeps q s) (a0 a1) : Keeps q (State.loseReserved s a0 a1) := by
  unfold State.loseReserved
  try dsimp only
  repeat' first
    | with_reducible assumption
    | with_reducible apply keeps_foldl
    | split
    | (with_reducible refine Keeps.upd ?_ rfl ?_ ?_ ?_ ?_ ?_ ?_ ?_ ?_ ?_ ?_ ?_ ?_ ?_ ?_ ?_ ?_ ?_)
    | with_reducible exact (fun h => h)
    | with_reducible exact (fun h => SMap.wf_set h _ _)
    | with_reducible exact (fun h => SMap.wf_clear h _)
    | with_reducible exact (fun h => SMap.wf_filter h _)
    | with_reducible exact (Memory.wf_same rfl rfl)
    | with_reducible exact (fun _ => SMap.wf_foldl_set _ _ _ rfl)
    | exact (fun _ => rfl)
    | exact (fun h => h)
    | exact (fun h => Memory.wf_setByte h _ _)
    | exact (fun h => Memory.wf_undefine h _)
    | exact (fun h => Memory.wf_undefineBut h _ _)

theorem State.cycleDevice_keeps {q : List Instr} {s : State} (h : Keeps q s) (a0 a1) : Keeps q (State.cycleDevice s a0 a1) := by
  unfold State.cycleDevice
  try dsimp only
  repeat' first
    | with_reducible assumption
    | with_reducible apply State.clearDevice_keeps
    | with_reducible apply State.fixLayouts_keeps
    | with_reducible apply State.freshQueues_keeps
    | with_reducible apply State.loseReserved_keeps
    | with_reducible apply State.loseSlots_keeps
    | with_reducible apply State.updateCapacity_keeps
    | with_reducible apply State.wr_keeps
    | with_reducible apply keeps_foldl
    | split
    | (with_reducible refine Keeps.upd ?_ rfl ?_ ?_ ?_ ?_ ?_ ?_ ?_ ?_ ?_ ?_ ?_ ?_ ?_ ?_ ?_ ?_ ?_)
    | with_reducible exact (fun h => h)
    | with_reducible exact (fun h => SMap.wf_set h _ _)
    | with_reducible exact (fun h => SMap.wf_clear h _)
    | with_reducible exact (fun h => SMap.wf_filter h _)
    | with_reducible exact (Memory.wf_same rfl rfl)
    | with_reducible exact (fun _ => SMap.wf_foldl_set _ _ _ rfl)
    | exact (fun _ => rfl)
    | exact (fun h => h)
    | exact (fun h => Memory.wf_setByte h _ _)
    | exact (fun h => Memory.wf_undefine h _)
    | exact (fun h => Memory.wf_undefineBut h _ _)
    | exact (fun h => poison_setPoison h _ _)
    | intro _

theorem State.resetDevice_keeps {q : List Instr} {s : State} (h : Keeps q s) : Keeps q (State.resetDevice s) := by
  unfold State.resetDevice
  try dsimp only
  repeat' first
    | with_reducible assumption
    | with_reducible apply State.cycleDevice_keeps
    | with_reducible apply State.wr_keeps

theorem State.restartCores_keeps {q : List Instr} {s : State} (h : Keeps q s) : Keeps q (State.restartCores s) := by
  unfold State.restartCores
  try dsimp only
  repeat' first
    | with_reducible assumption
    | with_reducible apply State.completeEvents_keeps
    | with_reducible apply State.restartCore_keeps
    | with_reducible apply State.revertMap_keeps
    | with_reducible apply State.wr_keeps
    | with_reducible apply keeps_foldl
    | split
    | (with_reducible refine Keeps.upd ?_ rfl ?_ ?_ ?_ ?_ ?_ ?_ ?_ ?_ ?_ ?_ ?_ ?_ ?_ ?_ ?_ ?_ ?_)
    | with_reducible exact (fun h => h)
    | with_reducible exact (fun h => SMap.wf_set h _ _)
    | with_reducible exact (fun h => SMap.wf_clear h _)
    | with_reducible exact (fun h => SMap.wf_filter h _)
    | with_reducible exact (Memory.wf_same rfl rfl)
    | with_reducible exact (fun _ => SMap.wf_foldl_set _ _ _ rfl)
    | exact (fun _ => rfl)
    | intro _

theorem State.holdCores_keeps {q : List Instr} {s : State} (h : Keeps q s) : Keeps q (State.holdCores s) := by
  unfold State.holdCores
  try dsimp only
  repeat' first
    | with_reducible assumption
    | with_reducible apply State.setCore_keeps
    | with_reducible apply keeps_foldl
    | split
    | intro _

theorem State.reinitDevice_keeps {q : List Instr} {s : State} (h : Keeps q s) (a0) : Keeps q (State.reinitDevice s a0) := by
  unfold State.reinitDevice
  try dsimp only
  repeat' first
    | with_reducible assumption
    | with_reducible apply State.beginWake_keeps
    | with_reducible apply State.holdCores_keeps
    | with_reducible apply State.setPwr_keeps
    | with_reducible apply State.setReg_keeps
    | with_reducible apply State.wr_keeps
    | with_reducible apply keeps_foldl
    | split
    | intro _

theorem State.resetEffect_keeps {q : List Instr} {s : State} (h : Keeps q s) (a0) : Keeps q (State.resetEffect s a0) := by
  unfold State.resetEffect
  try dsimp only
  repeat' first
    | with_reducible assumption
    | with_reducible apply State.isolateRegion_keeps
    | with_reducible apply State.reinitDevice_keeps
    | with_reducible apply State.resetDevice_keeps
    | with_reducible apply State.resetPart_keeps
    | with_reducible apply State.restartCores_keeps
    | with_reducible apply keeps_foldl
    | split

theorem State.endReset_keeps {q : List Instr} {s : State} (h : Keeps q s) (a0) : Keeps q (State.endReset s a0) := by
  unfold State.endReset
  try dsimp only
  repeat' first
    | with_reducible assumption
    | with_reducible apply State.releaseRegions_keeps
    | with_reducible apply State.setResets_keeps
    | with_reducible apply State.settle_keeps
    | with_reducible apply State.showReset_keeps
    | with_reducible apply State.traceReset_keeps
    | with_reducible apply State.updateCapacity_keeps
    | with_reducible apply State.wr_keeps
    | with_reducible apply keeps_foldl
    | split

theorem execResetPhaseDone_keeps {q : List Instr} {s : State} (h : Keeps q s) (a0) : KeepsNext q (execResetPhaseDone a0 s) := by
  unfold execResetPhaseDone
  try dsimp only
  repeat' first
    | with_reducible assumption
    | with_reducible apply keepsNext_next
    | with_reducible apply State.boundary_keeps
    | with_reducible apply State.endReset_keeps
    | with_reducible apply State.resetEffect_keeps
    | with_reducible apply State.takeOver_keeps
    | with_reducible apply State.wrapUp_keeps
    | with_reducible apply keeps_foldl
    | split

theorem State.losePart_keeps {q : List Instr} {s : State} (h : Keeps q s) (a0) : Keeps q (State.losePart s a0) := by
  unfold State.losePart
  try dsimp only
  repeat' first
    | with_reducible assumption
    | with_reducible apply State.abortChurnOf_keeps
    | with_reducible apply State.answerFence_keeps
    | with_reducible apply State.declareFault_keeps
    | with_reducible apply State.evictHosts_keeps
    | with_reducible apply keeps_foldl
    | split
    | intro _

theorem State.loseDomain_keeps {q : List Instr} {s : State} (h : Keeps q s) (a0) : Keeps q (State.loseDomain s a0) := by
  unfold State.loseDomain
  try dsimp only
  repeat' first
    | with_reducible assumption
    | with_reducible apply State.domainDown_keeps
    | with_reducible apply State.event_keeps
    | with_reducible apply State.losePart_keeps
    | with_reducible apply State.recoverAlone_keeps
    | with_reducible apply State.showDomains_keeps
    | with_reducible apply State.wrBit_keeps
    | with_reducible apply keeps_foldl
    | split
    | intro _

theorem execPgoodLoss_keeps {q : List Instr} {s : State} (h : Keeps q s) (a0) : KeepsNext q (execPgoodLoss a0 s) := by
  unfold execPgoodLoss
  try dsimp only
  repeat' first
    | with_reducible assumption
    | with_reducible apply keepsNext_next
    | with_reducible apply State.cutEnable_keeps
    | with_reducible apply State.failAttempt_keeps
    | with_reducible apply State.loseDomain_keeps
    | with_reducible apply State.setPwr_keeps
    | with_reducible apply State.wrapUp_keeps
    | with_reducible apply keeps_foldl
    | split

end Sys2Proof.Machine
end

