-- ==== Sys2Proof/Laws/KeepsThermal.lean ====
section
/-!
SUPPORT. The operations of Machine/Thermal.lean keep the queue and the canonical form of every map (`Keeps`).
-/
namespace Sys2Proof.Machine

theorem State.setThm_keeps {q : List Instr} {s : State} (h : Keeps q s) (a0) : Keeps q (State.setThm s a0) := by
  unfold State.setThm
  try dsimp only
  repeat' first
    | with_reducible assumption
    | with_reducible apply keeps_foldl
    | split
    | (with_reducible refine Keeps.upd ?_ rfl ?_ ?_ ?_ ?_ ?_ ?_ ?_ ?_ ?_ ?_ ?_ ?_ ?_ ?_ ?_ ?_ ?_)
    | with_reducible exact (fun h => h)

theorem State.takeSensor_keeps {q : List Instr} {s : State} (h : Keeps q s) (a0 a1) : Keeps q (State.takeSensor s a0 a1) := by
  unfold State.takeSensor
  try dsimp only
  repeat' first
    | with_reducible assumption
    | with_reducible apply State.event_keeps
    | with_reducible apply State.setThm_keeps
    | with_reducible apply State.wr_keeps
    | with_reducible apply keeps_foldl
    | split

theorem State.showMaxima_keeps {q : List Instr} {s : State} (h : Keeps q s) : Keeps q (State.showMaxima s) := by
  unfold State.showMaxima
  try dsimp only
  repeat' first
    | with_reducible assumption
    | with_reducible apply State.wr_keeps
    | with_reducible apply keeps_foldl
    | split
    | intro _

theorem State.takeLevel_keeps {q : List Instr} {s : State} (h : Keeps q s) (a0 a1) : Keeps q (State.takeLevel s a0 a1) := by
  unfold State.takeLevel
  try dsimp only
  repeat' first
    | with_reducible assumption
    | with_reducible apply State.event_keeps
    | with_reducible apply State.reportThermal_keeps
    | with_reducible apply State.wr_keeps
    | with_reducible apply keeps_foldl
    | split

theorem State.takeLevels_keeps {q : List Instr} {s : State} (h : Keeps q s) : Keeps q (State.takeLevels s) := by
  unfold State.takeLevels
  try dsimp only
  repeat' first
    | with_reducible assumption
    | with_reducible apply State.takeLevel_keeps
    | with_reducible apply keeps_foldl
    | split
    | intro _

theorem State.takeMode_keeps {q : List Instr} {s : State} (h : Keeps q s) (a0) : Keeps q (State.takeMode s a0) := by
  unfold State.takeMode
  try dsimp only
  repeat' first
    | with_reducible assumption
    | with_reducible apply State.event_keeps
    | with_reducible apply State.setThm_keeps
    | with_reducible apply State.wr_keeps
    | with_reducible apply keeps_foldl
    | split

theorem State.takeLimit_keeps {q : List Instr} {s : State} (h : Keeps q s) (a0) : Keeps q (State.takeLimit s a0) := by
  unfold State.takeLimit
  try dsimp only
  repeat' first
    | with_reducible assumption
    | with_reducible apply State.setThm_keeps
    | with_reducible apply State.wr_keeps

theorem State.takeLimits_keeps {q : List Instr} {s : State} (h : Keeps q s) : Keeps q (State.takeLimits s) := by
  unfold State.takeLimits
  try dsimp only
  repeat' first
    | with_reducible assumption
    | with_reducible apply State.takeLimit_keeps
    | with_reducible apply State.updateClocks_keeps
    | with_reducible apply State.wr_keeps
    | with_reducible apply keeps_foldl
    | split
    | intro _

theorem State.accumulate_keeps {q : List Instr} {s : State} (h : Keeps q s) (a0) : Keeps q (State.accumulate s a0) := by
  unfold State.accumulate
  try dsimp only
  repeat' first
    | with_reducible assumption
    | with_reducible apply State.recordTemp_keeps
    | with_reducible apply State.setOpen_keeps

theorem State.powerGone_keeps {q : List Instr} {s : State} (h : Keeps q s) : Keeps q (State.powerGone s) := by
  unfold State.powerGone
  try dsimp only
  repeat' first
    | with_reducible assumption
    | with_reducible apply State.abortBist_keeps
    | with_reducible apply State.clearDevice_keeps
    | with_reducible apply State.setPwr_keeps
    | with_reducible apply State.setResets_keeps
    | with_reducible apply State.showReset_keeps
    | with_reducible apply State.wr_keeps

theorem State.enterShutdown_keeps {q : List Instr} {s : State} (h : Keeps q s) : Keeps q (State.enterShutdown s) := by
  unfold State.enterShutdown
  try dsimp only
  repeat' first
    | with_reducible assumption
    | with_reducible apply State.count_keeps
    | with_reducible apply State.setPwr_keeps
    | with_reducible apply State.setThm_keeps
    | with_reducible apply State.updateFault_keeps
    | with_reducible apply State.wr_keeps

theorem State.closeShutdown_keeps {q : List Instr} {s : State} (h : Keeps q s) (a0) : Keeps q (State.closeShutdown s a0) := by
  unfold State.closeShutdown
  try dsimp only
  repeat' first
    | with_reducible assumption
    | with_reducible apply State.closing_keeps
    | with_reducible apply State.setOpen_keeps

theorem State.immediateCut_keeps {q : List Instr} {s : State} (h : Keeps q s) : Keeps q (State.immediateCut s) := by
  unfold State.immediateCut
  try dsimp only
  repeat' first
    | with_reducible assumption
    | with_reducible apply State.abortChurn_keeps
    | with_reducible apply State.closeShutdown_keeps
    | with_reducible apply State.declareAll_keeps
    | with_reducible apply State.enterShutdown_keeps
    | with_reducible apply State.event_keeps
    | with_reducible apply State.powerGone_keeps
    | with_reducible apply State.reportDevice_keeps
    | with_reducible apply keeps_foldl
    | split
    | (with_reducible refine Keeps.upd ?_ rfl ?_ ?_ ?_ ?_ ?_ ?_ ?_ ?_ ?_ ?_ ?_ ?_ ?_ ?_ ?_ ?_ ?_)
    | with_reducible exact (fun h => h)

theorem State.beginStop_keeps {q : List Instr} {s : State} (h : Keeps q s) : Keeps q (State.beginStop s) := by
  unfold State.beginStop
  try dsimp only
  repeat' first
    | with_reducible assumption
    | with_reducible apply State.abortBist_keeps
    | with_reducible apply State.abortChurn_keeps
    | with_reducible apply State.declareAll_keeps
    | with_reducible apply State.evictHosts_keeps
    | with_reducible apply State.reportDevice_keeps
    | with_reducible apply State.setThm_keeps
    | with_reducible apply State.wr_keeps

theorem State.endStop_keeps {q : List Instr} {s : State} (h : Keeps q s) : Keeps q (State.endStop s) := by
  unfold State.endStop
  try dsimp only
  repeat' first
    | with_reducible assumption
    | with_reducible apply State.answerFence_keeps
    | with_reducible apply State.closeShutdown_keeps
    | with_reducible apply State.enterShutdown_keeps
    | with_reducible apply State.powerGone_keeps
    | with_reducible apply State.stopChans_keeps

theorem State.actThermal_keeps {q : List Instr} {s : State} (h : Keeps q s) : Keeps q (State.actThermal s) := by
  unfold State.actThermal
  try dsimp only
  repeat' first
    | with_reducible assumption
    | with_reducible apply State.beginStop_keeps
    | with_reducible apply State.endStop_keeps
    | with_reducible apply State.immediateCut_keeps
    | with_reducible apply keeps_foldl
    | split

theorem execThermalSample_keeps {q : List Instr} {s : State} (h : Keeps q s) (a0 a1) : KeepsNext q (execThermalSample a0 a1 s) := by
  unfold execThermalSample
  try dsimp only
  repeat' first
    | with_reducible assumption
    | with_reducible apply keepsNext_next
    | with_reducible apply State.accumulate_keeps
    | with_reducible apply State.actThermal_keeps
    | with_reducible apply State.reportThermal_keeps
    | with_reducible apply State.setThm_keeps
    | with_reducible apply State.showMaxima_keeps
    | with_reducible apply State.takeLevels_keeps
    | with_reducible apply State.takeLimits_keeps
    | with_reducible apply State.takeMode_keeps
    | with_reducible apply State.takeSensor_keeps
    | with_reducible apply State.wrapUp_keeps
    | with_reducible apply keeps_foldl
    | split
    | intro _

theorem execThermalTrip_keeps {q : List Instr} {s : State} (h : Keeps q s) (a0) : KeepsNext q (execThermalTrip a0 s) := by
  unfold execThermalTrip
  try dsimp only
  repeat' first
    | with_reducible assumption
    | with_reducible apply keepsNext_next
    | with_reducible apply State.emit_keeps
    | with_reducible apply State.event_keeps
    | with_reducible apply State.flushTrip_keeps
    | with_reducible apply State.powerGone_keeps
    | with_reducible apply State.setThm_keeps
    | with_reducible apply State.wr_keeps
    | with_reducible apply State.wrapUp_keeps
    | with_reducible apply keeps_foldl
    | split
    | (with_reducible refine Keeps.upd ?_ rfl ?_ ?_ ?_ ?_ ?_ ?_ ?_ ?_ ?_ ?_ ?_ ?_ ?_ ?_ ?_ ?_ ?_)
    | with_reducible exact (fun h => h)

theorem State.resume_keeps {q : List Instr} {s : State} (h : Keeps q s) (a0) : Keeps q (State.resume s a0) := by
  unfold State.resume
  try dsimp only
  repeat' first
    | with_reducible assumption
    | with_reducible apply State.beginWake_keeps
    | with_reducible apply State.event_keeps
    | with_reducible apply State.reportDevice_keeps
    | with_reducible apply keeps_foldl
    | split

theorem execThermalResume_keeps {q : List Instr} {s : State} (h : Keeps q s) (a0) : KeepsNext q (execThermalResume a0 s) := by
  unfold execThermalResume
  try dsimp only
  repeat' first
    | with_reducible assumption
    | with_reducible apply keepsNext_next
    | with_reducible apply State.resume_keeps
    | with_reducible apply State.wrapUp_keeps

theorem State.writeThreshold_keeps {q : List Instr} {s : State} (h : Keeps q s) (a0 a1 a2) : Keeps q (State.writeThreshold s a0 a1 a2) := by
  unfold State.writeThreshold
  try dsimp only
  repeat' first
    | with_reducible assumption
    | with_reducible apply State.event_keeps
    | with_reducible apply State.setReg_keeps
    | with_reducible apply keeps_foldl
    | split

theorem execThresholdWrite_keeps {q : List Instr} {s : State} (h : Keeps q s) (a0 a1 a2) : KeepsNext q (execThresholdWrite a0 a1 a2 s) := by
  unfold execThresholdWrite
  try dsimp only
  repeat' first
    | with_reducible assumption
    | with_reducible apply keepsNext_next
    | with_reducible apply State.writeThreshold_keeps

end Sys2Proof.Machine
end

