-- ==== Sys2Proof/Laws/KeepsBeat.lean ====
section
/-!
SUPPORT. The operations of Machine/Beat.lean keep the queue and the canonical form of every map (`Keeps`).
-/
namespace Sys2Proof.Machine

theorem State.setBeat_keeps {q : List Instr} {s : State} (h : Keeps q s) (a0) : Keeps q (State.setBeat s a0) := by
  unfold State.setBeat
  try dsimp only
  repeat' first
    | with_reducible assumption
    | with_reducible apply keeps_foldl
    | split
    | (with_reducible refine Keeps.upd ?_ rfl ?_ ?_ ?_ ?_ ?_ ?_ ?_ ?_ ?_ ?_ ?_ ?_ ?_ ?_ ?_ ?_ ?_)
    | with_reducible exact (fun h => h)

theorem State.holdPin_keeps {q : List Instr} {s : State} (h : Keeps q s) : Keeps q (State.holdPin s) := by
  unfold State.holdPin
  try dsimp only
  repeat' first
    | with_reducible assumption
    | with_reducible apply State.setPin_keeps
    | with_reducible apply keeps_foldl
    | split

theorem State.risePin_keeps {q : List Instr} {s : State} (h : Keeps q s) : Keeps q (State.risePin s) := by
  unfold State.risePin
  try dsimp only
  repeat' first
    | with_reducible assumption
    | with_reducible apply State.holdPin_keeps
    | with_reducible apply State.setPin_keeps
    | with_reducible apply keeps_foldl
    | split

theorem State.fallPin_keeps {q : List Instr} {s : State} (h : Keeps q s) : Keeps q (State.fallPin s) := by
  unfold State.fallPin
  try dsimp only
  repeat' first
    | with_reducible assumption
    | with_reducible apply State.setPin_keeps
    | with_reducible apply keeps_foldl
    | split

theorem State.setBeatState_keeps {q : List Instr} {s : State} (h : Keeps q s) (a0) : Keeps q (State.setBeatState s a0) := by
  unfold State.setBeatState
  try dsimp only
  repeat' first
    | with_reducible assumption
    | with_reducible apply State.holdPin_keeps
    | with_reducible apply State.hostEvent_keeps
    | with_reducible apply State.wr_keeps

theorem State.fire_keeps {q : List Instr} {s : State} (h : Keeps q s) (a0) : Keeps q (State.fire s a0) := by
  unfold State.fire
  try dsimp only
  repeat' first
    | with_reducible assumption
    | with_reducible apply State.advanceWheel_keeps
    | with_reducible apply State.collAtMark_keeps
    | with_reducible apply State.counterSample_keeps
    | with_reducible apply State.releaseWait_keeps
    | with_reducible apply State.restartAtMark_keeps
    | with_reducible apply State.sealAtMark_keeps
    | with_reducible apply State.startWindow_keeps
    | with_reducible apply keeps_foldl
    | split

theorem State.fireMarks_keeps {q : List Instr} {s : State} (h : Keeps q s) : Keeps q (State.fireMarks s) := by
  unfold State.fireMarks
  try dsimp only
  repeat' first
    | with_reducible assumption
    | with_reducible apply State.fire_keeps
    | with_reducible apply keeps_foldl
    | split
    | intro _

theorem State.rewindWindows_keeps {q : List Instr} {s : State} (h : Keeps q s) : Keeps q (State.rewindWindows s) := by
  unfold State.rewindWindows
  try dsimp only
  repeat' first
    | with_reducible assumption
    | with_reducible apply State.setQueue_keeps
    | with_reducible apply keeps_foldl
    | split
    | intro _

theorem State.traceEpoch_keeps {q : List Instr} {s : State} (h : Keeps q s) (a0) : Keeps q (State.traceEpoch s a0) := by
  unfold State.traceEpoch
  try dsimp only
  repeat' first
    | with_reducible assumption
    | with_reducible apply State.traceBeat_keeps
    | with_reducible apply State.wr_keeps
    | with_reducible apply keeps_foldl
    | split
    | intro _

theorem State.setMark_keeps {q : List Instr} {s : State} (h : Keeps q s) (a0 a1) : Keeps q (State.setMark s a0 a1) := by
  unfold State.setMark
  try dsimp only
  repeat' first
    | with_reducible assumption
    | with_reducible apply State.fireMarks_keeps
    | with_reducible apply State.rewindWindows_keeps
    | with_reducible apply State.setBeat_keeps
    | with_reducible apply State.traceBeat_keeps
    | with_reducible apply State.traceEpoch_keeps
    | with_reducible apply keeps_foldl
    | split

theorem State.faultBeatLocked_keeps {q : List Instr} {s : State} (h : Keeps q s) (a0) : Keeps q (State.faultBeatLocked s a0) := by
  unfold State.faultBeatLocked
  try dsimp only
  repeat' first
    | with_reducible assumption
    | with_reducible apply State.declareAll_keeps

theorem State.setSlew_keeps {q : List Instr} {s : State} (h : Keeps q s) (a0) : Keeps q (State.setSlew s a0) := by
  unfold State.setSlew
  try dsimp only
  repeat' first
    | with_reducible assumption
    | with_reducible apply State.setBeat_keeps
    | with_reducible apply State.wr_keeps

theorem State.jump_keeps {q : List Instr} {s : State} (h : Keeps q s) (a0 a1) : Keeps q (State.jump s a0 a1) := by
  unfold State.jump
  try dsimp only
  repeat' first
    | with_reducible assumption
    | with_reducible apply State.event_keeps
    | with_reducible apply State.faultBeatLocked_keeps
    | with_reducible apply State.report_keeps
    | with_reducible apply State.setMark_keeps
    | with_reducible apply State.setSlew_keeps
    | with_reducible apply State.wr64_keeps

theorem State.startSlew_keeps {q : List Instr} {s : State} (h : Keeps q s) (a0) : Keeps q (State.startSlew s a0) := by
  unfold State.startSlew
  try dsimp only
  repeat' first
    | with_reducible assumption
    | with_reducible apply State.setSlew_keeps

theorem State.compare_keeps {q : List Instr} {s : State} (h : Keeps q s) (a0) : Keeps q (State.compare s a0) := by
  unfold State.compare
  try dsimp only
  repeat' first
    | with_reducible assumption
    | with_reducible apply State.jump_keeps
    | with_reducible apply State.setBeat_keeps
    | with_reducible apply State.setSlew_keeps
    | with_reducible apply keeps_foldl
    | split

theorem State.candidate_keeps {q : List Instr} {s : State} (h : Keeps q s) (a0) : Keeps q (State.candidate s a0).2 := by
  unfold State.candidate
  try dsimp only
  repeat' first
    | with_reducible assumption
    | with_reducible apply State.event_keeps
    | with_reducible apply State.wr_keeps
    | with_reducible apply keeps_foldl
    | split

theorem State.candidate_keeps_of {q : List Instr} {s t : State} {r} {a0} (e : State.candidate s a0 = (r, t)) (h : Keeps q s) : Keeps q t := by
  have := State.candidate_keeps h a0
  rwa [e] at this

theorem State.returnCandidate_keeps {q : List Instr} {s : State} (h : Keeps q s) (a0) : Keeps q (State.returnCandidate s a0) := by
  unfold State.returnCandidate
  try dsimp only
  repeat' first
    | with_reducible assumption
    | with_reducible apply State.candidate_keeps
    | (with_reducible refine State.candidate_keeps_of (e := by assumption) ?_)
    | with_reducible apply State.compare_keeps

theorem State.delayJump_keeps {q : List Instr} {s : State} (h : Keeps q s) (a0) : Keeps q (State.delayJump s a0) := by
  unfold State.delayJump
  try dsimp only
  repeat' first
    | with_reducible assumption
    | with_reducible apply State.candidate_keeps
    | (with_reducible refine State.candidate_keeps_of (e := by assumption) ?_)
    | with_reducible apply State.jump_keeps

theorem State.renumber_keeps {q : List Instr} {s : State} (h : Keeps q s) (a0) : Keeps q (State.renumber s a0) := by
  unfold State.renumber
  try dsimp only
  repeat' first
    | with_reducible assumption
    | with_reducible apply State.compare_keeps
    | with_reducible apply State.event_keeps
    | with_reducible apply State.setBeat_keeps
    | with_reducible apply State.wr_keeps
    | with_reducible apply keeps_foldl
    | split

theorem State.firstNumber_keeps {q : List Instr} {s : State} (h : Keeps q s) (a0) : Keeps q (State.firstNumber s a0).2 := by
  unfold State.firstNumber
  try dsimp only
  repeat' first
    | with_reducible assumption
    | with_reducible apply State.event_keeps
    | with_reducible apply State.wr_keeps
    | with_reducible apply keeps_foldl
    | split

theorem State.firstNumber_keeps_of {q : List Instr} {s t : State} {r} {a0} (e : State.firstNumber s a0 = (r, t)) (h : Keeps q s) : Keeps q t := by
  have := State.firstNumber_keeps h a0
  rwa [e] at this

theorem State.numberAtLock_keeps {q : List Instr} {s : State} (h : Keeps q s) (a0) : Keeps q (State.numberAtLock s a0) := by
  unfold State.numberAtLock
  try dsimp only
  repeat' first
    | with_reducible assumption
    | with_reducible apply State.firstNumber_keeps
    | (with_reducible refine State.firstNumber_keeps_of (e := by assumption) ?_)
    | with_reducible apply State.setMark_keeps

theorem State.numberLate_keeps {q : List Instr} {s : State} (h : Keeps q s) (a0) : Keeps q (State.numberLate s a0) := by
  unfold State.numberLate
  try dsimp only
  repeat' first
    | with_reducible assumption
    | with_reducible apply State.firstNumber_keeps
    | (with_reducible refine State.firstNumber_keeps_of (e := by assumption) ?_)
    | with_reducible apply State.setMark_keeps
    | with_reducible apply keeps_foldl_fst
    | with_reducible apply keeps_foldl_snd
    | with_reducible apply keeps_foldl
    | split

theorem State.steer_keeps {q : List Instr} {s : State} (h : Keeps q s) (a0 a1) : Keeps q (State.steer s a0 a1) := by
  unfold State.steer
  try dsimp only
  repeat' first
    | with_reducible assumption
    | with_reducible apply State.setBeat_keeps
    | with_reducible apply State.wr_keeps

theorem State.residual_keeps {q : List Instr} {s : State} (h : Keeps q s) (a0) : Keeps q (State.residual s a0) := by
  unfold State.residual
  try dsimp only
  repeat' first
    | with_reducible assumption
    | with_reducible apply State.setBeat_keeps
    | with_reducible apply State.wr_keeps
    | with_reducible apply keeps_foldl
    | split

theorem State.lock_keeps {q : List Instr} {s : State} (h : Keeps q s) (a0 a1 a2) : Keeps q (State.lock s a0 a1 a2) := by
  unfold State.lock
  try dsimp only
  repeat' first
    | with_reducible assumption
    | with_reducible apply State.event_keeps
    | with_reducible apply State.numberAtLock_keeps
    | with_reducible apply State.report_keeps
    | with_reducible apply State.returnCandidate_keeps
    | with_reducible apply State.setBeat_keeps
    | with_reducible apply State.setBeatState_keeps
    | with_reducible apply State.steer_keeps
    | with_reducible apply keeps_foldl
    | split

theorem State.holdPhase_keeps {q : List Instr} {s : State} (h : Keeps q s) : Keeps q (State.holdPhase s) := by
  unfold State.holdPhase
  try dsimp only
  repeat' first
    | with_reducible assumption
    | with_reducible apply State.setBeat_keeps

theorem State.qualified_keeps {q : List Instr} {s : State} (h : Keeps q s) (a0 a1) : Keeps q (State.qualified s a0 a1) := by
  unfold State.qualified
  try dsimp only
  repeat' first
    | with_reducible assumption
    | with_reducible apply State.delayJump_keeps
    | with_reducible apply State.holdPhase_keeps
    | with_reducible apply State.numberLate_keeps
    | with_reducible apply State.renumber_keeps
    | with_reducible apply State.residual_keeps
    | with_reducible apply State.setBeat_keeps
    | with_reducible apply State.startSlew_keeps
    | with_reducible apply State.steer_keeps
    | with_reducible apply keeps_foldl
    | split

theorem State.enterHoldover_keeps {q : List Instr} {s : State} (h : Keeps q s) : Keeps q (State.enterHoldover s) := by
  unfold State.enterHoldover
  try dsimp only
  repeat' first
    | with_reducible assumption
    | with_reducible apply State.setBeat_keeps
    | with_reducible apply State.setBeatState_keeps
    | with_reducible apply State.wr_keeps

theorem State.loseBeat_keeps {q : List Instr} {s : State} (h : Keeps q s) : Keeps q (State.loseBeat s) := by
  unfold State.loseBeat
  try dsimp only
  repeat' first
    | with_reducible assumption
    | with_reducible apply State.enterHoldover_keeps
    | with_reducible apply State.event_keeps
    | with_reducible apply State.report_keeps

theorem State.runEdge_keeps {q : List Instr} {s : State} (h : Keeps q s) (a0 a1) : Keeps q (State.runEdge s a0 a1) := by
  unfold State.runEdge
  try dsimp only
  repeat' first
    | with_reducible assumption
    | with_reducible apply State.lock_keeps
    | with_reducible apply State.setBeat_keeps
    | with_reducible apply keeps_foldl
    | split

theorem execBeatRefEdge_keeps {q : List Instr} {s : State} (h : Keeps q s) (a0 a1) : KeepsNext q (execBeatRefEdge a0 a1 s) := by
  unfold execBeatRefEdge
  try dsimp only
  repeat' first
    | with_reducible assumption
    | with_reducible apply keepsNext_next
    | with_reducible apply State.event_keeps
    | with_reducible apply State.loseBeat_keeps
    | with_reducible apply State.qualified_keeps
    | with_reducible apply State.runEdge_keeps
    | with_reducible apply State.wrapUp_keeps
    | with_reducible apply keeps_foldl
    | split

theorem execBeatDerivedEdge_keeps {q : List Instr} {s : State} (h : Keeps q s) (a0 a1) : KeepsNext q (execBeatDerivedEdge a0 a1 s) := by
  unfold execBeatDerivedEdge
  try dsimp only
  repeat' first
    | with_reducible assumption
    | with_reducible apply keepsNext_next
    | with_reducible apply State.lock_keeps
    | with_reducible apply State.qualified_keeps
    | with_reducible apply State.wrapUp_keeps
    | with_reducible apply keeps_foldl
    | split

theorem execBeatLoss_keeps {q : List Instr} {s : State} (h : Keeps q s) (a0) : KeepsNext q (execBeatLoss a0 s) := by
  unfold execBeatLoss
  try dsimp only
  repeat' first
    | with_reducible assumption
    | with_reducible apply keepsNext_next
    | with_reducible apply State.loseBeat_keeps
    | with_reducible apply keeps_foldl
    | split

theorem execBeatLost_keeps {q : List Instr} {s : State} (h : Keeps q s) : KeepsNext q (execBeatLost s) := by
  unfold execBeatLost
  try dsimp only
  repeat' first
    | with_reducible assumption
    | with_reducible apply keepsNext_next
    | with_reducible apply State.event_keeps
    | with_reducible apply State.faultBeatLocked_keeps
    | with_reducible apply State.report_keeps
    | with_reducible apply State.setBeatState_keeps
    | with_reducible apply State.wrapUp_keeps
    | with_reducible apply keeps_foldl
    | split

theorem State.nextBeat_keeps {q : List Instr} {s : State} (h : Keeps q s) : Keeps q (State.nextBeat s) := by
  unfold State.nextBeat
  try dsimp only
  repeat' first
    | with_reducible assumption
    | with_reducible apply State.setBeat_keeps
    | with_reducible apply State.traceEpoch_keeps
    | with_reducible apply State.wr_keeps

theorem State.holdTick_keeps {q : List Instr} {s : State} (h : Keeps q s) : Keeps q (State.holdTick s) := by
  unfold State.holdTick
  try dsimp only
  repeat' first
    | with_reducible assumption
    | with_reducible apply State.recordHold_keeps
    | with_reducible apply State.wr_keeps
    | with_reducible apply keeps_foldl
    | split

theorem State.throttleTick_keeps {q : List Instr} {s : State} (h : Keeps q s) : Keeps q (State.throttleTick s) := by
  unfold State.throttleTick
  try dsimp only
  repeat' first
    | with_reducible assumption
    | with_reducible apply State.countEs_keeps
    | with_reducible apply keeps_foldl
    | split
    | intro _

theorem State.traceTick_keeps {q : List Instr} {s : State} (h : Keeps q s) : Keeps q (State.traceTick s) := by
  unfold State.traceTick
  try dsimp only
  repeat' first
    | with_reducible assumption
    | with_reducible apply State.traceFlush_keeps
    | with_reducible apply keeps_foldl
    | split
    | intro _

theorem execBeatTick_keeps {q : List Instr} {s : State} (h : Keeps q s) (a0 a1) : KeepsNext q (execBeatTick a0 a1 s) := by
  unfold execBeatTick
  try dsimp only
  repeat' first
    | with_reducible assumption
    | with_reducible apply keepsNext_next
    | with_reducible apply State.holdTick_keeps
    | with_reducible apply State.netRxAll_keeps
    | with_reducible apply State.nextBeat_keeps
    | with_reducible apply State.risePin_keeps
    | with_reducible apply State.strike_keeps
    | with_reducible apply State.throttleTick_keeps
    | with_reducible apply State.traceTick_keeps
    | with_reducible apply State.wrapUp_keeps
    | with_reducible apply keeps_foldl
    | split

theorem State.advanceUnit_keeps {q : List Instr} {s : State} (h : Keeps q s) : Keeps q (State.advanceUnit s) := by
  unfold State.advanceUnit
  try dsimp only
  repeat' first
    | with_reducible assumption
    | with_reducible apply State.fallPin_keeps
    | with_reducible apply State.setBeat_keeps
    | with_reducible apply State.wr_keeps
    | with_reducible apply keeps_foldl
    | split

theorem State.restartPtp_keeps {q : List Instr} {s : State} (h : Keeps q s) : Keeps q (State.restartPtp s) := by
  unfold State.restartPtp
  try dsimp only
  repeat' first
    | with_reducible assumption
    | with_reducible apply State.setBeat_keeps
    | with_reducible apply State.wr_keeps

theorem State.writeBeatCtl_keeps {q : List Instr} {s : State} (h : Keeps q s) (a0 a1) : Keeps q (State.writeBeatCtl s a0 a1) := by
  unfold State.writeBeatCtl
  try dsimp only
  repeat' first
    | with_reducible assumption
    | with_reducible apply State.enterHoldover_keeps
    | with_reducible apply State.holdPin_keeps
    | with_reducible apply State.restartPtp_keeps
    | with_reducible apply State.setBeat_keeps
    | with_reducible apply State.wr_keeps
    | with_reducible apply keeps_foldl
    | split

theorem execRenum_keeps {q : List Instr} {s : State} (h : Keeps q s) (a0) : KeepsNext q (execRenum a0 s) := by
  unfold execRenum
  try dsimp only
  repeat' first
    | with_reducible assumption
    | with_reducible apply keepsNext_next
    | with_reducible apply State.writeBeatCtl_keeps

theorem execBeatSourceChange_keeps {q : List Instr} {s : State} (h : Keeps q s) (a0 a1) : KeepsNext q (execBeatSourceChange a0 a1 s) := by
  unfold execBeatSourceChange
  try dsimp only
  repeat' first
    | with_reducible assumption
    | with_reducible apply keepsNext_next
    | with_reducible apply State.writeBeatCtl_keeps

theorem State.writeBeatComp_keeps {q : List Instr} {s : State} (h : Keeps q s) (a0 a1) : Keeps q (State.writeBeatComp s a0 a1) := by
  unfold State.writeBeatComp
  try dsimp only
  repeat' first
    | with_reducible assumption
    | with_reducible apply State.wr_keeps
    | with_reducible apply keeps_foldl
    | split

theorem execBeatCompWrite_keeps {q : List Instr} {s : State} (h : Keeps q s) (a0 a1) : KeepsNext q (execBeatCompWrite a0 a1 s) := by
  unfold execBeatCompWrite
  try dsimp only
  repeat' first
    | with_reducible assumption
    | with_reducible apply keepsNext_next
    | with_reducible apply State.writeBeatComp_keeps

theorem execSlipCheck_keeps {q : List Instr} {s : State} (h : Keeps q s) (a0) : KeepsNext q (execSlipCheck a0 s) := by
  unfold execSlipCheck
  try dsimp only
  repeat' first
    | with_reducible assumption
    | with_reducible apply keepsNext_next
    | with_reducible apply State.event_keeps
    | with_reducible apply State.wr_keeps
    | with_reducible apply keeps_foldl
    | split

theorem State.servo_keeps {q : List Instr} {s : State} (h : Keeps q s) (a0) : Keeps q (State.servo s a0) := by
  unfold State.servo
  try dsimp only
  repeat' first
    | with_reducible assumption
    | with_reducible apply State.setBeat_keeps
    | with_reducible apply State.wr_keeps

theorem State.askDelay_keeps {q : List Instr} {s : State} (h : Keeps q s) (a0) : Keeps q (State.askDelay s a0) := by
  unfold State.askDelay
  try dsimp only
  repeat' first
    | with_reducible assumption
    | with_reducible apply State.emit_keeps
    | with_reducible apply State.setBeat_keeps
    | with_reducible apply keeps_foldl
    | split

theorem execPtpSyncRx_keeps {q : List Instr} {s : State} (h : Keeps q s) (a0 a1 a2 a3) : KeepsNext q (execPtpSyncRx a0 a1 a2 a3 s) := by
  unfold execPtpSyncRx
  try dsimp only
  repeat' first
    | with_reducible assumption
    | with_reducible apply keepsNext_next
    | with_reducible apply State.askDelay_keeps
    | with_reducible apply State.servo_keeps
    | with_reducible apply State.setBeat_keeps
    | with_reducible apply keeps_foldl
    | split

theorem execPtpFollowUpRx_keeps {q : List Instr} {s : State} (h : Keeps q s) (a0 a1) : KeepsNext q (execPtpFollowUpRx a0 a1 s) := by
  unfold execPtpFollowUpRx
  try dsimp only
  repeat' first
    | with_reducible assumption
    | with_reducible apply keepsNext_next
    | with_reducible apply State.askDelay_keeps
    | with_reducible apply State.servo_keeps
    | with_reducible apply keeps_foldl
    | split

theorem execPtpDelayRespRx_keeps {q : List Instr} {s : State} (h : Keeps q s) (a0 a1) : KeepsNext q (execPtpDelayRespRx a0 a1 s) := by
  unfold execPtpDelayRespRx
  try dsimp only
  repeat' first
    | with_reducible assumption
    | with_reducible apply keepsNext_next
    | with_reducible apply State.setBeat_keeps
    | with_reducible apply keeps_foldl
    | split

theorem execPtpAnnounceRx_keeps {q : List Instr} {s : State} (h : Keeps q s) (a0 a1) : KeepsNext q (execPtpAnnounceRx a0 a1 s) := by
  unfold execPtpAnnounceRx
  try dsimp only
  repeat' first
    | with_reducible assumption
    | with_reducible apply keepsNext_next
    | with_reducible apply State.restartPtp_keeps
    | with_reducible apply State.setBeat_keeps
    | with_reducible apply keeps_foldl
    | split

end Sys2Proof.Machine
end

