-- ==== Sys2Proof/Laws/KeepsClaCommands.lean ====
section
/-!
SUPPORT. The operations of Machine/ClaCommands.lean keep the queue and the canonical form of every map (`Keeps`).
-/
namespace Sys2Proof.Machine

theorem execClaSync_keeps {q : List Instr} {s : State} (h : Keeps q s) (a0) : KeepsNext q (execClaSync a0 s) := by
  unfold execClaSync
  try dsimp only
  repeat' first
    | with_reducible assumption
    | with_reducible apply keepsNext_next
    | with_reducible apply State.blankCla_keeps
    | with_reducible apply State.showStream_keeps
    | with_reducible apply State.startDriving_keeps
    | with_reducible apply State.wrapUp_keeps
    | with_reducible apply keeps_foldl
    | split

theorem execClaIdle_keeps {q : List Instr} {s : State} (h : Keeps q s) (a0 a1) : KeepsNext q (execClaIdle a0 a1 s) := by
  unfold execClaIdle
  try dsimp only
  repeat' first
    | with_reducible assumption
    | with_reducible apply keepsNext_next
    | with_reducible apply State.packet_keeps
    | with_reducible apply State.showStream_keeps
    | with_reducible apply State.wrapUp_keeps
    | with_reducible apply keeps_foldl
    | split
    | intro _

theorem execClaFramePtr_keeps {q : List Instr} {s : State} (h : Keeps q s) (a0 a1 a2) : KeepsNext q (execClaFramePtr a0 a1 a2 s) := by
  unfold execClaFramePtr
  try dsimp only
  repeat' first
    | with_reducible assumption
    | with_reducible apply keepsNext_next
    | with_reducible apply State.packet_keeps
    | with_reducible apply State.showStream_keeps
    | with_reducible apply State.streamError_keeps
    | with_reducible apply State.wrapUp_keeps
    | with_reducible apply keeps_foldl
    | split
    | intro _

theorem execClaFrameData_keeps {q : List Instr} {s : State} (h : Keeps q s) (a0 a1 a2) : KeepsNext q (execClaFrameData a0 a1 a2 s) := by
  unfold execClaFrameData
  try dsimp only
  repeat' first
    | with_reducible assumption
    | with_reducible apply keepsNext_next
    | with_reducible apply State.packet_keeps
    | with_reducible apply State.streamError_keeps
    | with_reducible apply State.wrapUp_keeps
    | with_reducible apply State.writeFrames_keeps
    | with_reducible apply keeps_foldl
    | split
    | intro _

theorem execClaScope_keeps {q : List Instr} {s : State} (h : Keeps q s) (a0 a1 a2) : KeepsNext q (execClaScope a0 a1 a2 s) := by
  unfold execClaScope
  try dsimp only
  repeat' first
    | with_reducible assumption
    | with_reducible apply keepsNext_next
    | with_reducible apply State.packet_keeps
    | with_reducible apply State.setRegions_keeps
    | with_reducible apply State.showStream_keeps
    | with_reducible apply State.streamError_keeps
    | with_reducible apply State.wr_keeps
    | with_reducible apply State.wrapUp_keeps
    | with_reducible apply keeps_foldl
    | split
    | intro _

theorem execClaDeviceId_keeps {q : List Instr} {s : State} (h : Keeps q s) (a0 a1 a2) : KeepsNext q (execClaDeviceId a0 a1 a2 s) := by
  unfold execClaDeviceId
  try dsimp only
  repeat' first
    | with_reducible assumption
    | with_reducible apply keepsNext_next
    | with_reducible apply State.packet_keeps
    | with_reducible apply State.showStream_keeps
    | with_reducible apply State.streamError_keeps
    | with_reducible apply State.wrapUp_keeps
    | with_reducible apply keeps_foldl
    | split
    | intro _

theorem execClaCheck_keeps {q : List Instr} {s : State} (h : Keeps q s) (a0 a1 a2) : KeepsNext q (execClaCheck a0 a1 a2 s) := by
  unfold execClaCheck
  try dsimp only
  repeat' first
    | with_reducible assumption
    | with_reducible apply keepsNext_next
    | with_reducible apply State.packet_keeps
    | with_reducible apply State.showStream_keeps
    | with_reducible apply State.streamError_keeps
    | with_reducible apply State.wrapUp_keeps
    | with_reducible apply keeps_foldl
    | split
    | intro _

theorem execClaActionNone_keeps {q : List Instr} {s : State} (h : Keeps q s) (a0 a1 a2) : KeepsNext q (execClaActionNone a0 a1 a2 s) := by
  unfold execClaActionNone
  try dsimp only
  repeat' first
    | with_reducible assumption
    | with_reducible apply keepsNext_next
    | with_reducible apply State.packet_keeps
    | with_reducible apply State.showStream_keeps
    | with_reducible apply State.streamError_keeps
    | with_reducible apply State.wrapUp_keeps
    | with_reducible apply keeps_foldl
    | split
    | intro _

theorem execClaClearCheck_keeps {q : List Instr} {s : State} (h : Keeps q s) (a0 a1) : KeepsNext q (execClaClearCheck a0 a1 s) := by
  unfold execClaClearCheck
  try dsimp only
  repeat' first
    | with_reducible assumption
    | with_reducible apply keepsNext_next
    | with_reducible apply State.packet_keeps
    | with_reducible apply State.showStream_keeps
    | with_reducible apply State.wrapUp_keeps
    | with_reducible apply keeps_foldl
    | split
    | intro _

theorem execClaArm_keeps {q : List Instr} {s : State} (h : Keeps q s) (a0 a1) : KeepsNext q (execClaArm a0 a1 s) := by
  unfold execClaArm
  try dsimp only
  repeat' first
    | with_reducible assumption
    | with_reducible apply keepsNext_next
    | with_reducible apply State.packet_keeps
    | with_reducible apply State.showStream_keeps
    | with_reducible apply State.wrapUp_keeps
    | with_reducible apply keeps_foldl
    | split
    | intro _

theorem execClaCommit_keeps {q : List Instr} {s : State} (h : Keeps q s) (a0 a1) : KeepsNext q (execClaCommit a0 a1 s) := by
  unfold execClaCommit
  try dsimp only
  repeat' first
    | with_reducible assumption
    | with_reducible apply keepsNext_next
    | with_reducible apply State.commitStream_keeps
    | with_reducible apply State.packet_keeps
    | with_reducible apply State.wrapUp_keeps
    | with_reducible apply keeps_foldl
    | split
    | intro _

theorem execClaEnd_keeps {q : List Instr} {s : State} (h : Keeps q s) (a0 a1) : KeepsNext q (execClaEnd a0 a1 s) := by
  unfold execClaEnd
  try dsimp only
  repeat' first
    | with_reducible assumption
    | with_reducible apply keepsNext_next
    | with_reducible apply State.endStream_keeps
    | with_reducible apply State.packet_keeps
    | with_reducible apply State.wrapUp_keeps
    | with_reducible apply keeps_foldl
    | split
    | intro _

theorem execClaStreamSourceEnd_keeps {q : List Instr} {s : State} (h : Keeps q s) (a0) : KeepsNext q (execClaStreamSourceEnd a0 s) := by
  unfold execClaStreamSourceEnd
  try dsimp only
  repeat' first
    | with_reducible assumption
    | with_reducible apply keepsNext_next
    | with_reducible apply State.claEventMsg_keeps
    | with_reducible apply State.event_keeps
    | with_reducible apply State.streamError_keeps
    | with_reducible apply State.wr_keeps
    | with_reducible apply State.wrapUp_keeps
    | with_reducible apply keeps_foldl
    | split

theorem execClaIcpRelease_keeps {q : List Instr} {s : State} (h : Keeps q s) (a0) : KeepsNext q (execClaIcpRelease a0 s) := by
  unfold execClaIcpRelease
  try dsimp only
  repeat' first
    | with_reducible assumption
    | with_reducible apply keepsNext_next
    | with_reducible apply State.claEventMsg_keeps
    | with_reducible apply State.emit_keeps
    | with_reducible apply State.event_keeps
    | with_reducible apply State.releaseRegion_keeps
    | with_reducible apply State.wrapUp_keeps
    | with_reducible apply keeps_foldl
    | split

theorem execClaRegionHold_keeps {q : List Instr} {s : State} (h : Keeps q s) (a0 a1) : KeepsNext q (execClaRegionHold a0 a1 s) := by
  unfold execClaRegionHold
  try dsimp only
  repeat' first
    | with_reducible assumption
    | with_reducible apply keepsNext_next
    | with_reducible apply State.holdRegion_keeps
    | with_reducible apply State.wrapUp_keeps
    | with_reducible apply keeps_foldl
    | split

theorem execClaRegionUnhold_keeps {q : List Instr} {s : State} (h : Keeps q s) (a0 a1) : KeepsNext q (execClaRegionUnhold a0 a1 s) := by
  unfold execClaRegionUnhold
  try dsimp only
  repeat' first
    | with_reducible assumption
    | with_reducible apply keepsNext_next
    | with_reducible apply State.unholdRegion_keeps
    | with_reducible apply State.wrapUp_keeps
    | with_reducible apply keeps_foldl
    | split

theorem execCfgDoneHigh_keeps {q : List Instr} {s : State} (h : Keeps q s) : KeepsNext q (execCfgDoneHigh s) := by
  unfold execCfgDoneHigh
  try dsimp only
  repeat' first
    | with_reducible assumption
    | with_reducible apply keepsNext_next
    | with_reducible apply State.tryGo_keeps
    | with_reducible apply State.wr_keeps
    | with_reducible apply State.wrapUp_keeps
    | with_reducible apply keeps_foldl
    | split
    | (with_reducible refine Keeps.upd ?_ rfl ?_ ?_ ?_ ?_ ?_ ?_ ?_ ?_ ?_ ?_ ?_ ?_ ?_ ?_ ?_ ?_ ?_)
    | with_reducible exact (fun h => h)

theorem execGoLocal_keeps {q : List Instr} {s : State} (h : Keeps q s) (a0) : KeepsNext q (execGoLocal a0 s) := by
  unfold execGoLocal
  try dsimp only
  repeat' first
    | with_reducible assumption
    | with_reducible apply keepsNext_next
    | with_reducible apply State.giveGo_keeps
    | with_reducible apply State.wrapUp_keeps
    | with_reducible apply keeps_foldl
    | split

theorem execClaFrameScan_keeps {q : List Instr} {s : State} (h : Keeps q s) (a0) : KeepsNext q (execClaFrameScan a0 s) := by
  unfold execClaFrameScan
  try dsimp only
  repeat' first
    | with_reducible assumption
    | with_reducible apply keepsNext_next
    | with_reducible apply State.claEventMsg_keeps
    | with_reducible apply State.count_keeps
    | with_reducible apply State.event_keeps
    | with_reducible apply State.setRegion_keeps
    | with_reducible apply State.wr_keeps
    | with_reducible apply State.wrapUp_keeps
    | with_reducible apply keeps_foldl
    | split
    | (with_reducible refine Keeps.upd ?_ rfl ?_ ?_ ?_ ?_ ?_ ?_ ?_ ?_ ?_ ?_ ?_ ?_ ?_ ?_ ?_ ?_ ?_)
    | with_reducible exact (fun h => h)
    | with_reducible exact (fun h => SMap.wf_set h _ _)
    | with_reducible exact (fun h => SMap.wf_clear h _)
    | with_reducible exact (fun h => SMap.wf_filter h _)
    | with_reducible exact (Memory.wf_same rfl rfl)
    | with_reducible exact (fun _ => SMap.wf_foldl_set _ _ _ rfl)
    | exact (fun _ => rfl)
    | intro _

theorem execClaNocInitiatorRequest_keeps {q : List Instr} {s : State} (h : Keeps q s) (a0 a1) : KeepsNext q (execClaNocInitiatorRequest a0 a1 s) := by
  unfold execClaNocInitiatorRequest
  try dsimp only
  repeat' first
    | with_reducible assumption
    | with_reducible apply keepsNext_next
    | with_reducible apply State.nocRead_keeps
    | with_reducible apply State.nocWrite_keeps
    | with_reducible apply State.wrapUp_keeps
    | with_reducible apply keeps_foldl
    | split

theorem execClaTapData_keeps {q : List Instr} {s : State} (h : Keeps q s) (a0 a1 a2) : KeepsNext q (execClaTapData a0 a1 a2 s) := by
  unfold execClaTapData
  try dsimp only
  repeat' first
    | with_reducible assumption
    | with_reducible apply keepsNext_next
    | with_reducible apply State.advance_keeps
    | with_reducible apply State.tapIn_keeps
    | with_reducible apply State.tapOut_keeps
    | with_reducible apply State.wrapUp_keeps
    | with_reducible apply keeps_foldl
    | split

end Sys2Proof.Machine
end

