-- ==== Sys2Proof/Laws/KeepsTrace.lean ====
section
/-!
SUPPORT. The operations of Machine/Trace.lean keep the queue and the canonical form of every map (`Keeps`).
-/
namespace Sys2Proof.Machine

theorem State.writeChanCtl_keeps {q : List Instr} {s : State} (h : Keeps q s) (a0 a1 a2) : Keeps q (State.writeChanCtl s a0 a1 a2) := by
  unfold State.writeChanCtl
  try dsimp only
  repeat' first
    | with_reducible assumption
    | with_reducible apply State.wr_keeps

theorem State.startChan_keeps {q : List Instr} {s : State} (h : Keeps q s) (a0 a1) : Keeps q (State.startChan s a0 a1) := by
  unfold State.startChan
  try dsimp only
  repeat' first
    | with_reducible assumption
    | with_reducible apply State.setTraceCh_keeps
    | with_reducible apply State.tracePush_keeps
    | with_reducible apply State.wr_keeps
    | with_reducible apply keeps_foldl
    | split

theorem State.enableChan_keeps {q : List Instr} {s : State} (h : Keeps q s) (a0 a1 a2 a3) : Keeps q (State.enableChan s a0 a1 a2 a3) := by
  unfold State.enableChan
  try dsimp only
  repeat' first
    | with_reducible assumption
    | with_reducible apply State.startChan_keeps
    | with_reducible apply State.traceFlush_keeps
    | with_reducible apply State.wr_keeps
    | with_reducible apply State.writeChanCtl_keeps
    | with_reducible apply keeps_foldl
    | split

theorem State.disableChan_keeps {q : List Instr} {s : State} (h : Keeps q s) (a0 a1 a2 a3) : Keeps q (State.disableChan s a0 a1 a2 a3) := by
  unfold State.disableChan
  try dsimp only
  repeat' first
    | with_reducible assumption
    | with_reducible apply State.closeChan_keeps
    | with_reducible apply State.writeChanCtl_keeps
    | with_reducible apply keeps_foldl
    | split

theorem execTraceChannelEnable_keeps {q : List Instr} {s : State} (h : Keeps q s) (a0 a1 a2 a3) : KeepsNext q (execTraceChannelEnable a0 a1 a2 a3 s) := by
  unfold execTraceChannelEnable
  try dsimp only
  repeat' first
    | with_reducible assumption
    | with_reducible apply keepsNext_next
    | with_reducible apply State.enableChan_keeps
    | with_reducible apply State.wrapUp_keeps

theorem execTraceChannelDisable_keeps {q : List Instr} {s : State} (h : Keeps q s) (a0 a1 a2 a3) : KeepsNext q (execTraceChannelDisable a0 a1 a2 a3 s) := by
  unfold execTraceChannelDisable
  try dsimp only
  repeat' first
    | with_reducible assumption
    | with_reducible apply keepsNext_next
    | with_reducible apply State.disableChan_keeps

theorem execTraceChannelStopped_keeps {q : List Instr} {s : State} (h : Keeps q s) (a0 a1) : KeepsNext q (execTraceChannelStopped a0 a1 s) := by
  unfold execTraceChannelStopped
  try dsimp only
  repeat' first
    | with_reducible assumption
    | with_reducible apply keepsNext_next
    | with_reducible apply State.stopChan_keeps
    | with_reducible apply State.wrapUp_keeps

theorem State.startDrain_keeps {q : List Instr} {s : State} (h : Keeps q s) (a0 a1) : Keeps q (State.startDrain s a0 a1) := by
  unfold State.startDrain
  try dsimp only
  repeat' first
    | with_reducible assumption
    | with_reducible apply State.wr_keeps
    | with_reducible apply keeps_foldl
    | split

theorem execTraceDrain_keeps {q : List Instr} {s : State} (h : Keeps q s) (a0 a1) : KeepsNext q (execTraceDrain a0 a1 s) := by
  unfold execTraceDrain
  try dsimp only
  repeat' first
    | with_reducible assumption
    | with_reducible apply keepsNext_next
    | with_reducible apply State.startDrain_keeps

theorem State.drainTo_keeps {q : List Instr} {s : State} (h : Keeps q s) (a0 a1 a2) : Keeps q (State.drainTo s a0 a1 a2).1 := by
  unfold State.drainTo
  try dsimp only
  repeat' first
    | with_reducible assumption
    | with_reducible apply State.storeTagged_keeps
    | with_reducible apply keeps_foldl
    | split
    | intro _

theorem State.drainTo_keeps_of {q : List Instr} {s t : State} {r} {a0 a1 a2} (e : State.drainTo s a0 a1 a2 = (t, r)) (h : Keeps q s) : Keeps q t := by
  have := State.drainTo_keeps h a0 a1 a2
  rwa [e] at this

theorem State.drainLine_keeps {q : List Instr} {s : State} (h : Keeps q s) (a0 a1) : Keeps q (State.drainLine s a0 a1).1 := by
  unfold State.drainLine
  try dsimp only
  repeat' first
    | with_reducible assumption
    | with_reducible apply State.drainTo_keeps
    | (with_reducible refine State.drainTo_keeps_of (e := by assumption) ?_)
    | with_reducible apply State.touchTagged_keeps
    | with_reducible apply keeps_foldl_fst
    | with_reducible apply keeps_foldl_snd
    | with_reducible apply keeps_foldl
    | split

theorem State.drainLine_keeps_of {q : List Instr} {s t : State} {r} {a0 a1} (e : State.drainLine s a0 a1 = (t, r)) (h : Keeps q s) : Keeps q t := by
  have := State.drainLine_keeps h a0 a1
  rwa [e] at this

theorem execTraceDrainDone_keeps {q : List Instr} {s : State} (h : Keeps q s) (a0) : KeepsNext q (execTraceDrainDone a0 s) := by
  unfold execTraceDrainDone
  try dsimp only
  repeat' first
    | with_reducible assumption
    | with_reducible apply keepsNext_next
    | with_reducible apply State.drainLine_keeps
    | (with_reducible refine State.drainLine_keeps_of (e := by assumption) ?_)
    | with_reducible apply State.wr_keeps
    | with_reducible apply State.wrapUp_keeps
    | with_reducible apply keeps_foldl_fst
    | with_reducible apply keeps_foldl_snd
    | with_reducible apply keeps_foldl
    | split
    | intro _

theorem State.writeCntCtl_keeps {q : List Instr} {s : State} (h : Keeps q s) (a0 a1) : Keeps q (State.writeCntCtl s a0 a1) := by
  unfold State.writeCntCtl
  try dsimp only
  repeat' first
    | with_reducible assumption
    | with_reducible apply State.advAt_keeps
    | with_reducible apply State.wrBit_keeps
    | with_reducible apply State.zeroCounters_keeps
    | with_reducible apply keeps_foldl
    | split
    | intro _

theorem execCounterClear_keeps {q : List Instr} {s : State} (h : Keeps q s) (a0 a1) : KeepsNext q (execCounterClear a0 a1 s) := by
  unfold execCounterClear
  try dsimp only
  repeat' first
    | with_reducible assumption
    | with_reducible apply keepsNext_next
    | with_reducible apply State.writeCntCtl_keeps

theorem execCounterSample_keeps {q : List Instr} {s : State} (h : Keeps q s) : KeepsNext q (execCounterSample s) := by
  unfold execCounterSample
  try dsimp only
  repeat' first
    | with_reducible assumption
    | with_reducible apply keepsNext_next
    | with_reducible apply State.counterSample_keeps

end Sys2Proof.Machine
end

