-- ==== Sys2Proof/Laws/KeepsDebug.lean ====
section
/-!
SUPPORT. The operations of Machine/Debug.lean keep the queue and the canonical form of every map (`Keeps`).
-/
namespace Sys2Proof.Machine

theorem State.setDbg_keeps {q : List Instr} {s : State} (h : Keeps q s) (a0) : Keeps q (State.setDbg s a0) := by
  unfold State.setDbg
  try dsimp only
  repeat' first
    | with_reducible assumption
    | with_reducible apply keeps_foldl
    | split
    | (with_reducible refine Keeps.upd ?_ rfl ?_ ?_ ?_ ?_ ?_ ?_ ?_ ?_ ?_ ?_ ?_ ?_ ?_ ?_ ?_ ?_ ?_)
    | with_reducible exact (fun h => h)

theorem State.reportDebug_keeps {q : List Instr} {s : State} (h : Keeps q s) (a0 a1 a2) : Keeps q (State.reportDebug s a0 a1 a2) := by
  unfold State.reportDebug
  try dsimp only
  repeat' first
    | with_reducible assumption
    | with_reducible apply State.sendEvent_keeps

theorem State.writeScope_keeps {q : List Instr} {s : State} (h : Keeps q s) (a0) : Keeps q (State.writeScope s a0) := by
  unfold State.writeScope
  try dsimp only
  repeat' first
    | with_reducible assumption
    | with_reducible apply State.draw_keeps
    | (with_reducible refine State.draw_keeps_of (e := by assumption) ?_)
    | with_reducible apply State.setDbg_keeps
    | with_reducible apply State.wr_keeps
    | with_reducible apply keeps_foldl_fst
    | with_reducible apply keeps_foldl_snd
    | with_reducible apply keeps_foldl
    | split

theorem execDebugChallenge_keeps {q : List Instr} {s : State} (h : Keeps q s) (a0) : KeepsNext q (execDebugChallenge a0 s) := by
  unfold execDebugChallenge
  try dsimp only
  repeat' first
    | with_reducible assumption
    | with_reducible apply keepsNext_next
    | with_reducible apply State.writeScope_keeps
    | with_reducible apply keeps_foldl
    | split

theorem State.putResponse_keeps {q : List Instr} {s : State} (h : Keeps q s) (a0 a1) : Keeps q (State.putResponse s a0 a1) := by
  unfold State.putResponse
  try dsimp only
  repeat' first
    | with_reducible assumption
    | with_reducible apply State.setDbg_keeps

theorem State.checkResponse_keeps {q : List Instr} {s : State} (h : Keeps q s) (a0) : Keeps q (State.checkResponse s a0) := by
  unfold State.checkResponse
  try dsimp only
  repeat' first
    | with_reducible assumption
    | with_reducible apply State.event_keeps
    | with_reducible apply State.reportDebug_keeps
    | with_reducible apply State.setDbg_keeps
    | with_reducible apply State.wr_keeps
    | with_reducible apply keeps_foldl
    | split

theorem State.lastResponse_keeps {q : List Instr} {s : State} (h : Keeps q s) (a0) : Keeps q (State.lastResponse s a0) := by
  unfold State.lastResponse
  try dsimp only
  repeat' first
    | with_reducible assumption
    | with_reducible apply State.checkResponse_keeps
    | with_reducible apply State.putResponse_keeps

theorem execDebugResponse_keeps {q : List Instr} {s : State} (h : Keeps q s) (a0) : KeepsNext q (execDebugResponse a0 s) := by
  unfold execDebugResponse
  try dsimp only
  repeat' first
    | with_reducible assumption
    | with_reducible apply keepsNext_next
    | with_reducible apply State.lastResponse_keeps
    | with_reducible apply keeps_foldl
    | split

theorem State.lockDebug_keeps {q : List Instr} {s : State} (h : Keeps q s) : Keeps q (State.lockDebug s) := by
  unfold State.lockDebug
  try dsimp only
  repeat' first
    | with_reducible assumption
    | with_reducible apply State.reportDebug_keeps
    | with_reducible apply State.wr_keeps
    | with_reducible apply keeps_foldl
    | split

theorem execDebugLock_keeps {q : List Instr} {s : State} (h : Keeps q s) (a0) : KeepsNext q (execDebugLock a0 s) := by
  unfold execDebugLock
  try dsimp only
  repeat' first
    | with_reducible assumption
    | with_reducible apply keepsNext_next
    | with_reducible apply State.lockDebug_keeps
    | with_reducible apply keeps_foldl
    | split

theorem State.haltCore_keeps {q : List Instr} {s : State} (h : Keeps q s) (a0) : Keeps q (State.haltCore s a0) := by
  unfold State.haltCore
  try dsimp only
  repeat' first
    | with_reducible assumption
    | with_reducible apply State.setCore_keeps
    | with_reducible apply State.showHalts_keeps
    | with_reducible apply State.wrBit_keeps

theorem State.askHalt_keeps {q : List Instr} {s : State} (h : Keeps q s) (a0) : Keeps q (State.askHalt s a0) := by
  unfold State.askHalt
  try dsimp only
  repeat' first
    | with_reducible assumption
    | with_reducible apply State.event_keeps
    | with_reducible apply State.haltCore_keeps
    | with_reducible apply State.wrBit_keeps
    | with_reducible apply keeps_foldl
    | split

theorem State.haltBits_keeps {q : List Instr} {s : State} (h : Keeps q s) (a0) : Keeps q (State.haltBits s a0) := by
  unfold State.haltBits
  try dsimp only
  repeat' first
    | with_reducible assumption
    | with_reducible apply State.askHalt_keeps
    | with_reducible apply keeps_foldl
    | split
    | intro _

theorem execDebugHalt_keeps {q : List Instr} {s : State} (h : Keeps q s) (a0) : KeepsNext q (execDebugHalt a0 s) := by
  unfold execDebugHalt
  try dsimp only
  repeat' first
    | with_reducible assumption
    | with_reducible apply keepsNext_next
    | with_reducible apply State.haltBits_keeps

theorem execDebugDeferredHalt_keeps {q : List Instr} {s : State} (h : Keeps q s) (a0) : KeepsNext q (execDebugDeferredHalt a0 s) := by
  unfold execDebugDeferredHalt
  try dsimp only
  repeat' first
    | with_reducible assumption
    | with_reducible apply keepsNext_next
    | with_reducible apply State.haltCore_keeps
    | with_reducible apply keeps_foldl
    | split

theorem State.queueBreak_keeps {q : List Instr} {s : State} (h : Keeps q s) : Keeps q (State.queueBreak s) := by
  unfold State.queueBreak
  try dsimp only
  repeat' first
    | with_reducible assumption
    | with_reducible apply State.event_keeps
    | with_reducible apply State.wr_keeps
    | with_reducible apply keeps_foldl
    | split
    | (with_reducible refine Keeps.upd ?_ rfl ?_ ?_ ?_ ?_ ?_ ?_ ?_ ?_ ?_ ?_ ?_ ?_ ?_ ?_ ?_ ?_ ?_)
    | with_reducible exact (fun h => h)

theorem execHaltLockBreak_keeps {q : List Instr} {s : State} (h : Keeps q s) (a0) : KeepsNext q (execHaltLockBreak a0 s) := by
  unfold execHaltLockBreak
  try dsimp only
  repeat' first
    | with_reducible assumption
    | with_reducible apply keepsNext_next
    | with_reducible apply State.breakPanel_keeps
    | with_reducible apply State.event_keeps
    | with_reducible apply State.haltCore_keeps
    | with_reducible apply State.queueBreak_keeps
    | with_reducible apply State.reconcile_keeps
    | with_reducible apply State.reportDebug_keeps
    | with_reducible apply State.setDbg_keeps
    | with_reducible apply State.wr_keeps
    | with_reducible apply State.wrapUp_keeps
    | with_reducible apply keeps_foldl
    | split

theorem State.resumeCore_keeps {q : List Instr} {s : State} (h : Keeps q s) (a0) : Keeps q (State.resumeCore s a0) := by
  unfold State.resumeCore
  try dsimp only
  repeat' first
    | with_reducible assumption
    | with_reducible apply State.completeEvents_keeps
    | with_reducible apply State.setCore_keeps
    | with_reducible apply State.setDbg_keeps
    | with_reducible apply State.showHalts_keeps
    | with_reducible apply State.wrBit_keeps
    | with_reducible apply keeps_foldl
    | split

theorem State.resumeBits_keeps {q : List Instr} {s : State} (h : Keeps q s) (a0) : Keeps q (State.resumeBits s a0) := by
  unfold State.resumeBits
  try dsimp only
  repeat' first
    | with_reducible assumption
    | with_reducible apply State.resumeCore_keeps
    | with_reducible apply keeps_foldl
    | split
    | intro _

theorem execDebugResume_keeps {q : List Instr} {s : State} (h : Keeps q s) (a0) : KeepsNext q (execDebugResume a0 s) := by
  unfold execDebugResume
  try dsimp only
  repeat' first
    | with_reducible assumption
    | with_reducible apply keepsNext_next
    | with_reducible apply State.resumeBits_keeps
    | with_reducible apply State.wrapUp_keeps

theorem State.writeDbgCtl_keeps {q : List Instr} {s : State} (h : Keeps q s) (a0 a1) : Keeps q (State.writeDbgCtl s a0 a1) := by
  unfold State.writeDbgCtl
  try dsimp only
  repeat' first
    | with_reducible assumption
    | with_reducible apply State.haltBits_keeps
    | with_reducible apply State.lockDebug_keeps
    | with_reducible apply State.resumeBits_keeps
    | with_reducible apply State.wr_keeps
    | with_reducible apply keeps_foldl
    | split

theorem State.setJtag_keeps {q : List Instr} {s : State} (h : Keeps q s) (a0) : Keeps q (State.setJtag s a0) := by
  unfold State.setJtag
  try dsimp only
  repeat' first
    | with_reducible assumption
    | with_reducible apply State.setDbg_keeps

theorem execJtagTestLogicReset_keeps {q : List Instr} {s : State} (h : Keeps q s) : KeepsNext q (execJtagTestLogicReset s) := by
  unfold execJtagTestLogicReset
  try dsimp only
  repeat' first
    | with_reducible assumption
    | with_reducible apply keepsNext_next
    | with_reducible apply State.lockDebug_keeps
    | with_reducible apply State.setJtag_keeps
    | with_reducible apply keeps_foldl
    | split

theorem execJtagIdcode_keeps {q : List Instr} {s : State} (h : Keeps q s) : KeepsNext q (execJtagIdcode s) := by
  unfold execJtagIdcode
  try dsimp only
  repeat' first
    | with_reducible assumption
    | with_reducible apply keepsNext_next
    | with_reducible apply State.emit_keeps
    | with_reducible apply State.setJtag_keeps
    | with_reducible apply keeps_foldl
    | split

theorem execJtagSamplePreload_keeps {q : List Instr} {s : State} (h : Keeps q s) (a0) : KeepsNext q (execJtagSamplePreload a0 s) := by
  unfold execJtagSamplePreload
  try dsimp only
  repeat' first
    | with_reducible assumption
    | with_reducible apply keepsNext_next
    | with_reducible apply State.setDbg_keeps
    | with_reducible apply keeps_foldl
    | split

theorem State.pinInstr_keeps {q : List Instr} {s : State} (h : Keeps q s) (a0) : Keeps q (State.pinInstr s a0) := by
  unfold State.pinInstr
  try dsimp only
  repeat' first
    | with_reducible assumption
    | with_reducible apply State.setJtag_keeps
    | with_reducible apply keeps_foldl
    | split

theorem execJtagExtest_keeps {q : List Instr} {s : State} (h : Keeps q s) : KeepsNext q (execJtagExtest s) := by
  unfold execJtagExtest
  try dsimp only
  repeat' first
    | with_reducible assumption
    | with_reducible apply keepsNext_next
    | with_reducible apply State.pinInstr_keeps

theorem execJtagExtestPulse_keeps {q : List Instr} {s : State} (h : Keeps q s) : KeepsNext q (execJtagExtestPulse s) := by
  unfold execJtagExtestPulse
  try dsimp only
  repeat' first
    | with_reducible assumption
    | with_reducible apply keepsNext_next
    | with_reducible apply State.pinInstr_keeps

theorem execJtagExtestTrain_keeps {q : List Instr} {s : State} (h : Keeps q s) : KeepsNext q (execJtagExtestTrain s) := by
  unfold execJtagExtestTrain
  try dsimp only
  repeat' first
    | with_reducible assumption
    | with_reducible apply keepsNext_next
    | with_reducible apply State.pinInstr_keeps

theorem execJtagClamp_keeps {q : List Instr} {s : State} (h : Keeps q s) : KeepsNext q (execJtagClamp s) := by
  unfold execJtagClamp
  try dsimp only
  repeat' first
    | with_reducible assumption
    | with_reducible apply keepsNext_next
    | with_reducible apply State.pinInstr_keeps

theorem execJtagHighz_keeps {q : List Instr} {s : State} (h : Keeps q s) : KeepsNext q (execJtagHighz s) := by
  unfold execJtagHighz
  try dsimp only
  repeat' first
    | with_reducible assumption
    | with_reducible apply keepsNext_next
    | with_reducible apply State.pinInstr_keeps

theorem execJtagBypass_keeps {q : List Instr} {s : State} (h : Keeps q s) (a0) : KeepsNext q (execJtagBypass a0 s) := by
  unfold execJtagBypass
  try dsimp only
  repeat' first
    | with_reducible assumption
    | with_reducible apply keepsNext_next
    | with_reducible apply State.setJtag_keeps
    | with_reducible apply keeps_foldl
    | split

end Sys2Proof.Machine
end

