-- ==== Sys2Proof/Laws/KeepsHostCommands.lean ====
section
/-!
SUPPORT. The operations of Machine/HostCommands.lean keep the queue and the canonical form of every map (`Keeps`).
-/
namespace Sys2Proof.Machine

theorem execPcieLinkReset_keeps {q : List Instr} {s : State} (h : Keeps q s) (a0) : KeepsNext q (execPcieLinkReset a0 s) := by
  unfold execPcieLinkReset
  try dsimp only
  repeat' first
    | with_reducible assumption
    | with_reducible apply keepsNext_next
    | with_reducible apply State.pcieDown_keeps
    | with_reducible apply State.wrapUp_keeps
    | with_reducible apply keeps_foldl
    | split
    | (with_reducible refine Keeps.upd ?_ rfl ?_ ?_ ?_ ?_ ?_ ?_ ?_ ?_ ?_ ?_ ?_ ?_ ?_ ?_ ?_ ?_ ?_)
    | with_reducible exact (fun h => h)

theorem execPcieCompletionRx_keeps {q : List Instr} {s : State} (h : Keeps q s) (a0 a1 a2 a3) : KeepsNext q (execPcieCompletionRx a0 a1 a2 a3 s) := by
  unfold execPcieCompletionRx
  try dsimp only
  repeat' first
    | with_reducible assumption
    | with_reducible apply keepsNext_next
    | with_reducible apply State.hostAnswer_keeps
    | with_reducible apply State.wrapUp_keeps

theorem execPcieCplTimeout_keeps {q : List Instr} {s : State} (h : Keeps q s) (a0 a1 a2) : KeepsNext q (execPcieCplTimeout a0 a1 a2 s) := by
  unfold execPcieCplTimeout
  try dsimp only
  repeat' first
    | with_reducible assumption
    | with_reducible apply keepsNext_next
    | with_reducible apply State.hostAnswer_keeps
    | with_reducible apply State.wrapUp_keeps

end Sys2Proof.Machine
end

