-- ==== Sys2Proof/Laws/KeepsJobCommands.lean ====
section
/-!
SUPPORT. The operations of Machine/JobCommands.lean keep the queue and the canonical form of every map (`Keeps`).
-/
namespace Sys2Proof.Machine

theorem execJobFaultRx_keeps {q : List Instr} {s : State} (h : Keeps q s) (a0 a1 a2) : KeepsNext q (execJobFaultRx a0 a1 a2 s) := by
  unfold execJobFaultRx
  try dsimp only
  repeat' first
    | with_reducible assumption
    | with_reducible apply keepsNext_next
    | with_reducible apply State.actFault_keeps
    | with_reducible apply State.event_keeps
    | with_reducible apply State.floodFault_keeps
    | with_reducible apply State.hopRx_keeps
    | with_reducible apply State.markSeen_keeps
    | with_reducible apply State.wrapUp_keeps
    | with_reducible apply keeps_foldl
    | split
    | intro _

theorem execJobDeclare_keeps {q : List Instr} {s : State} (h : Keeps q s) (a0 a1 a2) : KeepsNext q (execJobDeclare a0 a1 a2 s) := by
  unfold execJobDeclare
  try dsimp only
  repeat' first
    | with_reducible assumption
    | with_reducible apply keepsNext_next
    | with_reducible apply State.declareFault_keeps
    | with_reducible apply State.wrapUp_keeps
    | with_reducible apply keeps_foldl
    | split

end Sys2Proof.Machine
end

