-- ==== Sys2Proof/Laws/KeepsResetCommands.lean ====
section
/-!
SUPPORT. The operations of Machine/ResetCommands.lean keep the queue and the canonical form of every map (`Keeps`).
-/
namespace Sys2Proof.Machine

theorem execRstEngine_keeps {q : List Instr} {s : State} (h : Keeps q s) (a0 a1) : KeepsNext q (execRstEngine a0 a1 s) := by
  unfold execRstEngine
  try dsimp only
  repeat' first
    | with_reducible assumption
    | with_reducible apply keepsNext_next
    | with_reducible apply State.wrapUp_keeps
    | with_reducible apply State.writeRstCtl_keeps

theorem execRstPartition_keeps {q : List Instr} {s : State} (h : Keeps q s) (a0 a1) : KeepsNext q (execRstPartition a0 a1 s) := by
  unfold execRstPartition
  try dsimp only
  repeat' first
    | with_reducible assumption
    | with_reducible apply keepsNext_next
    | with_reducible apply State.wrapUp_keeps
    | with_reducible apply State.writeRstCtl_keeps

theorem execRstDevice_keeps {q : List Instr} {s : State} (h : Keeps q s) (a0 a1) : KeepsNext q (execRstDevice a0 a1 s) := by
  unfold execRstDevice
  try dsimp only
  repeat' first
    | with_reducible assumption
    | with_reducible apply keepsNext_next
    | with_reducible apply State.wrapUp_keeps
    | with_reducible apply State.writeRstCtl_keeps

theorem execRstClaRegion_keeps {q : List Instr} {s : State} (h : Keeps q s) (a0 a1) : KeepsNext q (execRstClaRegion a0 a1 s) := by
  unfold execRstClaRegion
  try dsimp only
  repeat' first
    | with_reducible assumption
    | with_reducible apply keepsNext_next
    | with_reducible apply State.wrapUp_keeps
    | with_reducible apply State.writeRstCtl_keeps

theorem execFunctionLevelReset_keeps {q : List Instr} {s : State} (h : Keeps q s) (a0) : KeepsNext q (execFunctionLevelReset a0 s) := by
  unfold execFunctionLevelReset
  try dsimp only
  repeat' first
    | with_reducible assumption
    | with_reducible apply keepsNext_next
    | with_reducible apply State.event_keeps
    | with_reducible apply State.requestReset_keeps
    | with_reducible apply State.resetFunction_keeps
    | with_reducible apply State.wrapUp_keeps
    | with_reducible apply keeps_foldl
    | split

end Sys2Proof.Machine
end

