-- ==== Sys2Proof/Laws/KeepsScheduler.lean ====
section
/-!
SUPPORT. The operations of Machine/Scheduler.lean keep the queue and the canonical form of every map (`Keeps`).
-/
namespace Sys2Proof.Machine

theorem execDoorbell_keeps {q : List Instr} {s : State} (h : Keeps q s) (a0 a1 a2) : KeepsNext q (execDoorbell a0 a1 a2 s) := by
  unfold execDoorbell
  try dsimp only
  repeat' first
    | with_reducible assumption
    | with_reducible apply keepsNext_next
    | with_reducible apply State.event_keeps
    | with_reducible apply State.refuseRecord_keeps
    | with_reducible apply State.wr_keeps
    | with_reducible apply State.wrapUp_keeps
    | with_reducible apply keeps_foldl
    | split

theorem execAdmissionCandidate_keeps {q : List Instr} {s : State} (h : Keeps q s) (a0) : KeepsNext q (execAdmissionCandidate a0 s) := by
  unfold execAdmissionCandidate
  try dsimp only
  repeat' first
    | with_reducible assumption
    | with_reducible apply keepsNext_next
    | with_reducible apply State.testCandidate_keeps
    | with_reducible apply State.wrapUp_keeps
    | with_reducible apply keeps_foldl
    | split

theorem execSchedulingRound_keeps {q : List Instr} {s : State} (h : Keeps q s) (a0) : KeepsNext q (execSchedulingRound a0 s) := by
  unfold execSchedulingRound
  try dsimp only
  repeat' first
    | with_reducible assumption
    | with_reducible apply keepsNext_next
    | with_reducible apply State.round_keeps
    | with_reducible apply State.wrapUp_keeps

theorem execQuotaWindowStart_keeps {q : List Instr} {s : State} (h : Keeps q s) (a0) : KeepsNext q (execQuotaWindowStart a0 s) := by
  unfold execQuotaWindowStart
  try dsimp only
  repeat' first
    | with_reducible assumption
    | with_reducible apply keepsNext_next
    | with_reducible apply State.startWindow_keeps
    | with_reducible apply State.wrapUp_keeps

theorem execSyncLoWrite_keeps {q : List Instr} {s : State} (h : Keeps q s) (a0 a1 a2 a3) : KeepsNext q (execSyncLoWrite a0 a1 a2 a3 s) := by
  unfold execSyncLoWrite
  try dsimp only
  repeat' first
    | with_reducible assumption
    | with_reducible apply keepsNext_next
    | with_reducible apply State.signalMax_keeps
    | with_reducible apply State.wrapUp_keeps
    | with_reducible apply keeps_foldl
    | split
    | (with_reducible refine Keeps.upd ?_ rfl ?_ ?_ ?_ ?_ ?_ ?_ ?_ ?_ ?_ ?_ ?_ ?_ ?_ ?_ ?_ ?_ ?_)
    | with_reducible exact (fun h => h)
    | with_reducible exact (fun h => SMap.wf_set h _ _)

theorem State.reportAer_keeps {q : List Instr} {s : State} (h : Keeps q s) (a0) : Keeps q (State.reportAer s a0) := by
  unfold State.reportAer
  try dsimp only
  repeat' first
    | with_reducible assumption
    | with_reducible apply State.emit_keeps
    | with_reducible apply keeps_foldl
    | split
    | (with_reducible refine Keeps.upd ?_ rfl ?_ ?_ ?_ ?_ ?_ ?_ ?_ ?_ ?_ ?_ ?_ ?_ ?_ ?_ ?_ ?_ ?_)
    | with_reducible exact (fun h => h)

theorem State.answerBar2_keeps {q : List Instr} {s : State} (h : Keeps q s) (a0 a1) : Keeps q (State.answerBar2 s a0 a1) := by
  unfold State.answerBar2
  try dsimp only
  repeat' first
    | with_reducible assumption
    | with_reducible apply State.emit_keeps
    | with_reducible apply State.reportAer_keeps
    | with_reducible apply keeps_foldl
    | split
    | intro _

theorem execBar2Read_keeps {q : List Instr} {s : State} (h : Keeps q s) (a0 a1 a2) : KeepsNext q (execBar2Read a0 a1 a2 s) := by
  unfold execBar2Read
  try dsimp only
  repeat' first
    | with_reducible assumption
    | with_reducible apply keepsNext_next
    | with_reducible apply State.answerBar2_keeps
    | with_reducible apply State.emit_keeps
    | with_reducible apply State.touchTagged_keeps
    | with_reducible apply State.wrapUp_keeps
    | with_reducible apply keeps_foldl
    | split

theorem execBar2Write_keeps {q : List Instr} {s : State} (h : Keeps q s) (a0 a1 a2) : KeepsNext q (execBar2Write a0 a1 a2 s) := by
  unfold execBar2Write
  try dsimp only
  repeat' first
    | with_reducible assumption
    | with_reducible apply keepsNext_next
    | with_reducible apply State.noteHole_keeps
    | with_reducible apply State.storeTagged_keeps
    | with_reducible apply State.wrapUp_keeps
    | with_reducible apply keeps_foldl
    | split
    | intro _

end Sys2Proof.Machine
end

