-- ==== Sys2Proof/Laws/KeepsRegAccess.lean ====
section
/-!
SUPPORT. The operations of Machine/RegAccess.lean keep the queue and the canonical form of every map (`Keeps`).
-/
namespace Sys2Proof.Machine

theorem State.setLatch_keeps {q : List Instr} {s : State} (h : Keeps q s) (a0 a1 a2) : Keeps q (State.setLatch s a0 a1 a2) := by
  unfold State.setLatch
  try dsimp only
  repeat' first
    | with_reducible assumption
    | with_reducible apply keeps_foldl
    | split
    | (with_reducible refine Keeps.upd ?_ rfl ?_ ?_ ?_ ?_ ?_ ?_ ?_ ?_ ?_ ?_ ?_ ?_ ?_ ?_ ?_ ?_ ?_)
    | with_reducible exact (fun h => h)
    | with_reducible exact (fun h => SMap.wf_set h _ _)

theorem State.drawWord_keeps {q : List Instr} {s : State} (h : Keeps q s) : Keeps q (State.drawWord s).2 := by
  unfold State.drawWord
  try dsimp only
  repeat' first
    | with_reducible assumption
    | with_reducible apply State.draw_keeps

theorem State.drawWord_keeps_of {q : List Instr} {s t : State} {r}  (e : State.drawWord s = (r, t)) (h : Keeps q s) : Keeps q t := by
  have := State.drawWord_keeps h 
  rwa [e] at this

theorem State.wordNow_keeps {q : List Instr} {s : State} (h : Keeps q s) (a0) : Keeps q (State.wordNow s a0).2 := by
  unfold State.wordNow
  try dsimp only
  repeat' first
    | with_reducible assumption
    | with_reducible apply State.drawWord_keeps
    | (with_reducible refine State.drawWord_keeps_of (e := by assumption) ?_)
    | with_reducible apply keeps_foldl_fst
    | with_reducible apply keeps_foldl_snd
    | with_reducible apply keeps_foldl
    | split

theorem State.wordNow_keeps_of {q : List Instr} {s t : State} {r} {a0} (e : State.wordNow s a0 = (r, t)) (h : Keeps q s) : Keeps q t := by
  have := State.wordNow_keeps h a0
  rwa [e] at this

theorem State.readLo_keeps {q : List Instr} {s : State} (h : Keeps q s) (a0 a1) : Keeps q (State.readLo s a0 a1).2 := by
  unfold State.readLo
  try dsimp only
  repeat' first
    | with_reducible assumption
    | with_reducible apply State.setLatch_keeps
    | with_reducible apply State.wordNow_keeps
    | (with_reducible refine State.wordNow_keeps_of (e := by assumption) ?_)
    | with_reducible apply keeps_foldl_fst
    | with_reducible apply keeps_foldl_snd
    | with_reducible apply keeps_foldl
    | split
    | intro _

theorem State.readLo_keeps_of {q : List Instr} {s t : State} {r} {a0 a1} (e : State.readLo s a0 a1 = (r, t)) (h : Keeps q s) : Keeps q t := by
  have := State.readLo_keeps h a0 a1
  rwa [e] at this

theorem State.beforeRead_keeps {q : List Instr} {s : State} (h : Keeps q s) (a0) : Keeps q (State.beforeRead s a0) := by
  unfold State.beforeRead
  try dsimp only
  repeat' first
    | with_reducible assumption
    | with_reducible apply State.advAt_keeps
    | with_reducible apply State.touch_keeps
    | with_reducible apply keeps_foldl
    | split

theorem State.readReg_keeps {q : List Instr} {s : State} (h : Keeps q s) (a0 a1) : Keeps q (State.readReg s a0 a1).2 := by
  unfold State.readReg
  try dsimp only
  repeat' first
    | with_reducible assumption
    | with_reducible apply State.beforeRead_keeps
    | with_reducible apply State.drawWord_keeps
    | (with_reducible refine State.drawWord_keeps_of (e := by assumption) ?_)
    | with_reducible apply State.emit_keeps
    | with_reducible apply State.event_keeps
    | with_reducible apply State.readLo_keeps
    | (with_reducible refine State.readLo_keeps_of (e := by assumption) ?_)
    | with_reducible apply State.wordNow_keeps
    | (with_reducible refine State.wordNow_keeps_of (e := by assumption) ?_)
    | with_reducible apply keeps_foldl_fst
    | with_reducible apply keeps_foldl_snd
    | with_reducible apply keeps_foldl
    | split

theorem State.readReg_keeps_of {q : List Instr} {s t : State} {r} {a0 a1} (e : State.readReg s a0 a1 = (r, t)) (h : Keeps q s) : Keeps q t := by
  have := State.readReg_keeps h a0 a1
  rwa [e] at this

theorem State.answerRead_keeps {q : List Instr} {s : State} (h : Keeps q s) (a0 a1) : Keeps q (State.answerRead s a0 a1) := by
  unfold State.answerRead
  try dsimp only
  repeat' first
    | with_reducible assumption
    | with_reducible apply State.emit_keeps
    | with_reducible apply State.readReg_keeps

theorem execLoLatchRead_keeps {q : List Instr} {s : State} (h : Keeps q s) (a0 a1) : KeepsNext q (execLoLatchRead a0 a1 s) := by
  unfold execLoLatchRead
  try dsimp only
  repeat' first
    | with_reducible assumption
    | with_reducible apply keepsNext_next
    | with_reducible apply State.answerRead_keeps
    | with_reducible apply State.wrapUp_keeps
    | with_reducible apply keeps_foldl
    | split

theorem State.afterWrite_keeps {q : List Instr} {s : State} (h : Keeps q s) (a0 a1) : Keeps q (State.afterWrite s a0 a1) := by
  unfold State.afterWrite
  try dsimp only
  repeat' first
    | with_reducible assumption
    | with_reducible apply State.afterConn_keeps
    | with_reducible apply State.dropPorts_keeps
    | with_reducible apply State.exemptHalts_keeps
    | with_reducible apply State.restartPtp_keeps
    | with_reducible apply State.setDbg_keeps
    | with_reducible apply State.setQueue_keeps
    | with_reducible apply State.setWheel_keeps
    | with_reducible apply State.startNet_keeps
    | with_reducible apply State.updateFault_keeps
    | with_reducible apply keeps_foldl
    | split

theorem State.plainWrite_keeps {q : List Instr} {s : State} (h : Keeps q s) (a0 a1 a2) : Keeps q (State.plainWrite s a0 a1 a2) := by
  unfold State.plainWrite
  try dsimp only
  repeat' first
    | with_reducible assumption
    | with_reducible apply State.afterWrite_keeps
    | with_reducible apply State.setReg_keeps
    | with_reducible apply keeps_foldl
    | split

theorem State.after_keeps {q : List Instr} {s : State} (h : Keeps q s) {o} (ho : KeepsNext q o) : Keeps q (State.after s o) := by
  unfold State.after
  split
  · exact ho _ rfl
  · exact h

theorem State.doIf_keeps {q : List Instr} {s : State} (h : Keeps q s) (a0 a1) (ha1 : ∀ t, Keeps q t → KeepsNext q (a1 t)) : Keeps q (State.doIf s a0 a1) := by
  unfold State.doIf
  try dsimp only
  repeat' first
    | with_reducible assumption
    | with_reducible apply State.after_keeps
    | with_reducible apply ha1
    | with_reducible apply keeps_foldl
    | split

theorem State.writeLow_keeps {q : List Instr} {s : State} (h : Keeps q s) (a0 a1 a2) : Keeps q (State.writeLow s a0 a1 a2) := by
  unfold State.writeLow
  try dsimp only
  repeat' first
    | with_reducible assumption
    | with_reducible apply keepsNext_next
    | with_reducible apply State.after_keeps
    | with_reducible apply State.doIf_keeps
    | with_reducible apply State.plainWrite_keeps
    | with_reducible apply State.resume_keeps
    | with_reducible apply State.writeBeatComp_keeps
    | with_reducible apply State.writeBeatCtl_keeps
    | with_reducible apply State.writeDomCtl_keeps
    | with_reducible apply State.writeRstCtl_keeps
    | with_reducible apply State.writeThreshold_keeps
    | with_reducible apply execClockLimitWrite_keeps
    | with_reducible apply execEvrFlush_keeps
    | with_reducible apply execPanelClearFailed_keeps
    | with_reducible apply execPanelUpdateNow_keeps
    | with_reducible apply execPartCfgWrite_keeps
    | with_reducible apply execVsetWrite_keeps
    | with_reducible apply execWakeGo_keeps
    | with_reducible apply keeps_foldl
    | with_reducible apply keeps_ite
    | split
    | intro _

theorem State.writeJob_keeps {q : List Instr} {s : State} (h : Keeps q s) (a0 a1 a2) : Keeps q (State.writeJob s a0 a1 a2) := by
  unfold State.writeJob
  try dsimp only
  repeat' first
    | with_reducible assumption
    | with_reducible apply keepsNext_next
    | with_reducible apply State.after_keeps
    | with_reducible apply State.doIf_keeps
    | with_reducible apply State.plainWrite_keeps
    | with_reducible apply execJobDeclare_keeps
    | with_reducible apply execJobRelease_keeps
    | with_reducible apply execJobRestartArm_keeps
    | with_reducible apply keeps_foldl
    | split
    | intro _

theorem State.writeTrc_keeps {q : List Instr} {s : State} (h : Keeps q s) (a0 a1 a2) : Keeps q (State.writeTrc s a0 a1 a2) := by
  unfold State.writeTrc
  try dsimp only
  repeat' first
    | with_reducible assumption
    | with_reducible apply State.disableChan_keeps
    | with_reducible apply State.enableChan_keeps
    | with_reducible apply State.plainWrite_keeps
    | with_reducible apply State.startDrain_keeps
    | with_reducible apply keeps_foldl
    | split

theorem State.writeDbg_keeps {q : List Instr} {s : State} (h : Keeps q s) (a0 a1 a2) : Keeps q (State.writeDbg s a0 a1 a2) := by
  unfold State.writeDbg
  try dsimp only
  repeat' first
    | with_reducible assumption
    | with_reducible apply State.lastResponse_keeps
    | with_reducible apply State.plainWrite_keeps
    | with_reducible apply State.putResponse_keeps
    | with_reducible apply State.wr_keeps
    | with_reducible apply State.writeDbgCtl_keeps
    | with_reducible apply State.writeScope_keeps
    | with_reducible apply keeps_foldl
    | split

theorem State.writeQue_keeps {q : List Instr} {s : State} (h : Keeps q s) (a0 a1 a2) : Keeps q (State.writeQue s a0 a1 a2) := by
  unfold State.writeQue
  try dsimp only
  repeat' first
    | with_reducible assumption
    | with_reducible apply keepsNext_next
    | with_reducible apply State.after_keeps
    | with_reducible apply State.doIf_keeps
    | with_reducible apply State.plainWrite_keeps
    | with_reducible apply State.writeQueCtl_keeps
    | with_reducible apply execAdmCfgWrite_keeps
    | with_reducible apply execAdmClearDeferred_keeps
    | with_reducible apply execAdmClearRefused_keeps
    | with_reducible apply execAdmQuotaWindowWrite_keeps
    | with_reducible apply execCplConsume_keeps
    | with_reducible apply execCplRingConfigWrite_keeps
    | with_reducible apply execDoorbell_keeps
    | with_reducible apply execRingConfigWrite_keeps
    | with_reducible apply keeps_foldl
    | split
    | intro _

theorem State.writeSync_keeps {q : List Instr} {s : State} (h : Keeps q s) (a0 a1 a2) : Keeps q (State.writeSync s a0 a1 a2) := by
  unfold State.writeSync
  try dsimp only
  repeat' first
    | with_reducible assumption
    | with_reducible apply keepsNext_next
    | with_reducible apply State.after_keeps
    | with_reducible apply execSyncHiWrite_keeps
    | with_reducible apply execSyncLoWrite_keeps
    | with_reducible apply keeps_foldl
    | split

theorem State.writeMed_keeps {q : List Instr} {s : State} (h : Keeps q s) (a0 a1 a2) : Keeps q (State.writeMed s a0 a1 a2) := by
  unfold State.writeMed
  try dsimp only
  repeat' first
    | with_reducible assumption
    | with_reducible apply keepsNext_next
    | with_reducible apply State.after_keeps
    | with_reducible apply State.doIf_keeps
    | with_reducible apply State.plainWrite_keeps
    | with_reducible apply execMediaForceKey_keeps
    | with_reducible apply execMediaPartConfig_keeps
    | with_reducible apply execMediaSessionClose_keeps
    | with_reducible apply execMediaSessionOpen_keeps
    | with_reducible apply keeps_foldl
    | split
    | intro _

theorem State.writeCla_keeps {q : List Instr} {s : State} (h : Keeps q s) (a0 a1 a2) : Keeps q (State.writeCla s a0 a1 a2) := by
  unfold State.writeCla
  try dsimp only
  repeat' first
    | with_reducible assumption
    | with_reducible apply keepsNext_next
    | with_reducible apply State.after_keeps
    | with_reducible apply State.doIf_keeps
    | with_reducible apply State.plainWrite_keeps
    | with_reducible apply execClaExtGo_keeps
    | with_reducible apply execClaRegionAssign_keeps
    | with_reducible apply execClaRegionHold_keeps
    | with_reducible apply execClaRegionUnhold_keeps
    | with_reducible apply execClaTargetAccess_keeps
    | with_reducible apply execGoLocal_keeps
    | with_reducible apply execReleaseDone_keeps
    | with_reducible apply keeps_foldl
    | split
    | intro _

theorem State.vendorAccess_keeps {q : List Instr} {s : State} (h : Keeps q s) (a0 a1) : Keeps q (State.vendorAccess s a0 a1) := by
  unfold State.vendorAccess
  try dsimp only
  repeat' first
    | with_reducible assumption
    | with_reducible apply State.setDbg_keeps

theorem State.writeReg_keeps {q : List Instr} {s : State} (h : Keeps q s) (a0 a1 a2) : Keeps q (State.writeReg s a0 a1 a2) := by
  unfold State.writeReg
  try dsimp only
  repeat' first
    | with_reducible assumption
    | with_reducible apply keepsNext_next
    | with_reducible apply State.advAt_keeps
    | with_reducible apply State.after_keeps
    | with_reducible apply State.plainWrite_keeps
    | with_reducible apply State.vendorAccess_keeps
    | with_reducible apply State.writeCla_keeps
    | with_reducible apply State.writeCntCtl_keeps
    | with_reducible apply State.writeDbg_keeps
    | with_reducible apply State.writeJob_keeps
    | with_reducible apply State.writeLow_keeps
    | with_reducible apply State.writeMed_keeps
    | with_reducible apply State.writeMsix_keeps
    | with_reducible apply State.writeQue_keeps
    | with_reducible apply State.writeSync_keeps
    | with_reducible apply State.writeTrc_keeps
    | with_reducible apply execRouteDataWrite_keeps
    | with_reducible apply keeps_foldl
    | with_reducible apply keeps_ite
    | split

theorem execRegisterWrite_keeps {q : List Instr} {s : State} (h : Keeps q s) (a0 a1 a2) : KeepsNext q (execRegisterWrite a0 a1 a2 s) := by
  unfold execRegisterWrite
  try dsimp only
  repeat' first
    | with_reducible assumption
    | with_reducible apply keepsNext_next
    | with_reducible apply State.wrapUp_keeps
    | with_reducible apply State.writeReg_keeps

theorem State.dbgResult_keeps {q : List Instr} {s : State} (h : Keeps q s) (a0 a1 a2) : Keeps q (State.dbgResult s a0 a1 a2) := by
  unfold State.dbgResult
  try dsimp only
  repeat' first
    | with_reducible assumption
    | with_reducible apply State.emit_keeps
    | with_reducible apply State.setDbg_keeps

theorem State.dbgRead_keeps {q : List Instr} {s : State} (h : Keeps q s) (a0 a1) : Keeps q (State.dbgRead s a0 a1) := by
  unfold State.dbgRead
  try dsimp only
  repeat' first
    | with_reducible assumption
    | with_reducible apply State.dbgResult_keeps
    | with_reducible apply State.readReg_keeps
    | (with_reducible refine State.readReg_keeps_of (e := by assumption) ?_)
    | with_reducible apply State.vendorAccess_keeps
    | with_reducible apply keeps_foldl_fst
    | with_reducible apply keeps_foldl_snd
    | with_reducible apply keeps_foldl
    | split

theorem execDebugRead_keeps {q : List Instr} {s : State} (h : Keeps q s) (a0) : KeepsNext q (execDebugRead a0 s) := by
  unfold execDebugRead
  try dsimp only
  repeat' first
    | with_reducible assumption
    | with_reducible apply keepsNext_next
    | with_reducible apply State.dbgRead_keeps
    | with_reducible apply State.dbgResult_keeps
    | with_reducible apply State.wrapUp_keeps
    | with_reducible apply keeps_foldl
    | split

theorem execDebugForcedRead_keeps {q : List Instr} {s : State} (h : Keeps q s) (a0) : KeepsNext q (execDebugForcedRead a0 s) := by
  unfold execDebugForcedRead
  try dsimp only
  repeat' first
    | with_reducible assumption
    | with_reducible apply keepsNext_next
    | with_reducible apply State.dbgRead_keeps
    | with_reducible apply State.dbgResult_keeps
    | with_reducible apply State.wrapUp_keeps
    | with_reducible apply keeps_foldl
    | split

theorem execDebugWrite_keeps {q : List Instr} {s : State} (h : Keeps q s) (a0 a1) : KeepsNext q (execDebugWrite a0 a1 s) := by
  unfold execDebugWrite
  try dsimp only
  repeat' first
    | with_reducible assumption
    | with_reducible apply keepsNext_next
    | with_reducible apply State.dbgResult_keeps
    | with_reducible apply State.wrapUp_keeps
    | with_reducible apply State.writeReg_keeps
    | with_reducible apply keeps_foldl
    | split

end Sys2Proof.Machine
end

