-- ==== Sys2Proof/Laws/KeepsMgmt.lean ====
section
/-!
SUPPORT. The operations of Machine/Mgmt.lean keep the queue and the canonical form of every map (`Keeps`).
-/
namespace Sys2Proof.Machine

theorem State.readRegs_keeps {q : List Instr} {s : State} (h : Keeps q s) (a0 a1 a2) : Keeps q (State.readRegs s a0 a1 a2).2 := by
  unfold State.readRegs
  try dsimp only
  repeat' first
    | with_reducible assumption
    | with_reducible apply State.readReg_keeps
    | (with_reducible refine State.readReg_keeps_of (e := by assumption) ?_)
    | with_reducible apply keeps_foldl_fst
    | with_reducible apply keeps_foldl_snd
    | with_reducible apply keeps_foldl
    | split
    | intro _

theorem State.readRegs_keeps_of {q : List Instr} {s t : State} {r} {a0 a1 a2} (e : State.readRegs s a0 a1 a2 = (r, t)) (h : Keeps q s) : Keeps q t := by
  have := State.readRegs_keeps h a0 a1 a2
  rwa [e] at this

theorem execMgtRead_keeps {q : List Instr} {s : State} (h : Keeps q s) (a0 a1 a2) : KeepsNext q (execMgtRead a0 a1 a2 s) := by
  unfold execMgtRead
  try dsimp only
  repeat' first
    | with_reducible assumption
    | with_reducible apply keepsNext_next
    | with_reducible apply State.answerMgt_keeps
    | with_reducible apply State.inbound_keeps
    | with_reducible apply State.readRegs_keeps
    | (with_reducible refine State.readRegs_keeps_of (e := by assumption) ?_)
    | with_reducible apply State.wrapUp_keeps
    | with_reducible apply keeps_foldl_fst
    | with_reducible apply keeps_foldl_snd
    | with_reducible apply keeps_foldl
    | split
    | intro _

theorem execMgtWrite_keeps {q : List Instr} {s : State} (h : Keeps q s) (a0 a1 a2 a3) : KeepsNext q (execMgtWrite a0 a1 a2 a3 s) := by
  unfold execMgtWrite
  try dsimp only
  repeat' first
    | with_reducible assumption
    | with_reducible apply keepsNext_next
    | with_reducible apply State.answerMgt_keeps
    | with_reducible apply State.inbound_keeps
    | with_reducible apply State.wrapUp_keeps
    | with_reducible apply State.writeReg_keeps
    | with_reducible apply keeps_foldl
    | split
    | intro _

theorem execMgtAckRx_keeps {q : List Instr} {s : State} (h : Keeps q s) (a0) : KeepsNext q (execMgtAckRx a0 s) := by
  unfold execMgtAckRx
  try dsimp only
  repeat' first
    | with_reducible assumption
    | with_reducible apply keepsNext_next
    | with_reducible apply State.inbound_keeps
    | with_reducible apply State.wr_keeps
    | with_reducible apply keeps_foldl
    | split
    | (with_reducible refine Keeps.upd ?_ rfl ?_ ?_ ?_ ?_ ?_ ?_ ?_ ?_ ?_ ?_ ?_ ?_ ?_ ?_ ?_ ?_ ?_)
    | with_reducible exact (fun h => h)
    | with_reducible exact (fun h => SMap.wf_set h _ _)
    | with_reducible exact (fun h => SMap.wf_clear h _)
    | with_reducible exact (fun h => SMap.wf_filter h _)
    | with_reducible exact (Memory.wf_same rfl rfl)
    | with_reducible exact (fun _ => SMap.wf_foldl_set _ _ _ rfl)
    | exact (fun _ => rfl)
    | intro _

theorem execReportRetry_keeps {q : List Instr} {s : State} (h : Keeps q s) : KeepsNext q (execReportRetry s) := by
  unfold execReportRetry
  try dsimp only
  repeat' first
    | with_reducible assumption
    | with_reducible apply keepsNext_next
    | with_reducible apply State.sendMsg_keeps
    | with_reducible apply keeps_foldl
    | split
    | (with_reducible refine Keeps.upd ?_ rfl ?_ ?_ ?_ ?_ ?_ ?_ ?_ ?_ ?_ ?_ ?_ ?_ ?_ ?_ ?_ ?_ ?_)
    | with_reducible exact (fun h => h)
    | with_reducible exact (fun h => SMap.wf_set h _ _)
    | with_reducible exact (fun h => SMap.wf_clear h _)
    | with_reducible exact (fun h => SMap.wf_filter h _)
    | with_reducible exact (Memory.wf_same rfl rfl)
    | with_reducible exact (fun _ => SMap.wf_foldl_set _ _ _ rfl)
    | exact (fun _ => rfl)
    | intro _

theorem State.mctpVersion_keeps {q : List Instr} {s : State} (h : Keeps q s) (a0) : Keeps q (State.mctpVersion s a0).2 := by
  unfold State.mctpVersion
  try dsimp only
  repeat' first
    | with_reducible assumption
    | with_reducible apply State.drawWord_keeps
    | (with_reducible refine State.drawWord_keeps_of (e := by assumption) ?_)
    | with_reducible apply keeps_foldl_fst
    | with_reducible apply keeps_foldl_snd
    | with_reducible apply keeps_foldl
    | split

theorem State.mctpVersion_keeps_of {q : List Instr} {s t : State} {r} {a0} (e : State.mctpVersion s a0 = (r, t)) (h : Keeps q s) : Keeps q t := by
  have := State.mctpVersion_keeps h a0
  rwa [e] at this

theorem execMctpControlMsg_keeps {q : List Instr} {s : State} (h : Keeps q s) (a0) : KeepsNext q (execMctpControlMsg a0 s) := by
  unfold execMctpControlMsg
  try dsimp only
  repeat' first
    | with_reducible assumption
    | with_reducible apply keepsNext_next
    | with_reducible apply State.emit_keeps
    | with_reducible apply State.mctpVersion_keeps
    | (with_reducible refine State.mctpVersion_keeps_of (e := by assumption) ?_)
    | with_reducible apply keeps_foldl_fst
    | with_reducible apply keeps_foldl_snd
    | with_reducible apply keeps_foldl
    | split
    | (with_reducible refine Keeps.upd ?_ rfl ?_ ?_ ?_ ?_ ?_ ?_ ?_ ?_ ?_ ?_ ?_ ?_ ?_ ?_ ?_ ?_ ?_)
    | with_reducible exact (fun h => h)

theorem execMctpVendorRead_keeps {q : List Instr} {s : State} (h : Keeps q s) (a0) : KeepsNext q (execMctpVendorRead a0 s) := by
  unfold execMctpVendorRead
  try dsimp only
  repeat' first
    | with_reducible assumption
    | with_reducible apply keepsNext_next
    | with_reducible apply State.answerRead_keeps
    | with_reducible apply State.wrapUp_keeps
    | with_reducible apply keeps_foldl
    | split

theorem execMctpVendorWrite_keeps {q : List Instr} {s : State} (h : Keeps q s) (a0 a1) : KeepsNext q (execMctpVendorWrite a0 a1 s) := by
  unfold execMctpVendorWrite
  try dsimp only
  repeat' first
    | with_reducible assumption
    | with_reducible apply keepsNext_next
    | with_reducible apply State.wrBit_keeps
    | with_reducible apply State.wrapUp_keeps
    | with_reducible apply State.writeReg_keeps
    | with_reducible apply keeps_foldl
    | split
    | (with_reducible refine Keeps.upd ?_ rfl ?_ ?_ ?_ ?_ ?_ ?_ ?_ ?_ ?_ ?_ ?_ ?_ ?_ ?_ ?_ ?_ ?_)
    | with_reducible exact (fun h => h)

theorem State.pldm_keeps {q : List Instr} {s : State} (h : Keeps q s) (a0 a1 a2) (ha2 : ∀ t, Keeps q t → Keeps q (a2 t)) : Keeps q (State.pldm s a0 a1 a2) := by
  unfold State.pldm
  try dsimp only
  repeat' first
    | with_reducible assumption
    | with_reducible apply State.emit_keeps
    | with_reducible apply ha2
    | with_reducible apply keeps_foldl
    | split

theorem State.pldmAnswer_keeps {q : List Instr} {s : State} (h : Keeps q s) (a0 a1 a2 a3) : Keeps q (State.pldmAnswer s a0 a1 a2 a3) := by
  unfold State.pldmAnswer
  try dsimp only
  repeat' first
    | with_reducible assumption
    | with_reducible apply State.emit_keeps

theorem execPldmGetTid_keeps {q : List Instr} {s : State} (h : Keeps q s) : KeepsNext q (execPldmGetTid s) := by
  unfold execPldmGetTid
  try dsimp only
  repeat' first
    | with_reducible assumption
    | with_reducible apply keepsNext_next
    | with_reducible apply State.pldm_keeps
    | with_reducible apply State.pldmAnswer_keeps
    | with_reducible apply keeps_foldl
    | split
    | intro _

theorem execPldmSetTid_keeps {q : List Instr} {s : State} (h : Keeps q s) (a0) : KeepsNext q (execPldmSetTid a0 s) := by
  unfold execPldmSetTid
  try dsimp only
  repeat' first
    | with_reducible assumption
    | with_reducible apply keepsNext_next
    | with_reducible apply State.pldm_keeps
    | with_reducible apply State.pldmAnswer_keeps
    | with_reducible apply keeps_foldl
    | split
    | (with_reducible refine Keeps.upd ?_ rfl ?_ ?_ ?_ ?_ ?_ ?_ ?_ ?_ ?_ ?_ ?_ ?_ ?_ ?_ ?_ ?_ ?_)
    | with_reducible exact (fun h => h)
    | with_reducible exact (fun h => SMap.wf_set h _ _)
    | with_reducible exact (fun h => SMap.wf_clear h _)
    | with_reducible exact (fun h => SMap.wf_filter h _)
    | with_reducible exact (Memory.wf_same rfl rfl)
    | with_reducible exact (fun _ => SMap.wf_foldl_set _ _ _ rfl)
    | exact (fun _ => rfl)
    | intro _

theorem State.drawData_keeps {q : List Instr} {s : State} (h : Keeps q s) : Keeps q (State.drawData s).2 := by
  unfold State.drawData
  try dsimp only
  repeat' first
    | with_reducible assumption
    | with_reducible apply State.drawWord_keeps

theorem State.drawData_keeps_of {q : List Instr} {s t : State} {r}  (e : State.drawData s = (r, t)) (h : Keeps q s) : Keeps q t := by
  have := State.drawData_keeps h 
  rwa [e] at this

theorem execPldmGetPldmVersion_keeps {q : List Instr} {s : State} (h : Keeps q s) (a0) : KeepsNext q (execPldmGetPldmVersion a0 s) := by
  unfold execPldmGetPldmVersion
  try dsimp only
  repeat' first
    | with_reducible assumption
    | with_reducible apply keepsNext_next
    | with_reducible apply State.drawData_keeps
    | (with_reducible refine State.drawData_keeps_of (e := by assumption) ?_)
    | with_reducible apply State.pldm_keeps
    | with_reducible apply State.pldmAnswer_keeps
    | with_reducible apply keeps_foldl_fst
    | with_reducible apply keeps_foldl_snd
    | with_reducible apply keeps_foldl
    | split
    | intro _

theorem execPldmGetPldmTypes_keeps {q : List Instr} {s : State} (h : Keeps q s) : KeepsNext q (execPldmGetPldmTypes s) := by
  unfold execPldmGetPldmTypes
  try dsimp only
  repeat' first
    | with_reducible assumption
    | with_reducible apply keepsNext_next
    | with_reducible apply State.pldm_keeps
    | with_reducible apply State.pldmAnswer_keeps
    | with_reducible apply keeps_foldl
    | split
    | intro _

theorem execPldmGetPldmCommands_keeps {q : List Instr} {s : State} (h : Keeps q s) (a0) : KeepsNext q (execPldmGetPldmCommands a0 s) := by
  unfold execPldmGetPldmCommands
  try dsimp only
  repeat' first
    | with_reducible assumption
    | with_reducible apply keepsNext_next
    | with_reducible apply State.pldm_keeps
    | with_reducible apply State.pldmAnswer_keeps
    | with_reducible apply keeps_foldl
    | split
    | intro _

theorem State.pdr_keeps {q : List Instr} {s : State} (h : Keeps q s) (a0) : Keeps q (State.pdr s a0).2 := by
  unfold State.pdr
  try dsimp only
  repeat' first
    | with_reducible assumption
    | with_reducible apply State.drawData_keeps

theorem State.pdr_keeps_of {q : List Instr} {s t : State} {r} {a0} (e : State.pdr s a0 = (r, t)) (h : Keeps q s) : Keeps q t := by
  have := State.pdr_keeps h a0
  rwa [e] at this

theorem execPldmMonitoringRequest_keeps {q : List Instr} {s : State} (h : Keeps q s) (a0) : KeepsNext q (execPldmMonitoringRequest a0 s) := by
  unfold execPldmMonitoringRequest
  try dsimp only
  repeat' first
    | with_reducible assumption
    | with_reducible apply keepsNext_next
    | with_reducible apply State.pdr_keeps
    | (with_reducible refine State.pdr_keeps_of (e := by assumption) ?_)
    | with_reducible apply State.pldm_keeps
    | with_reducible apply State.pldmAnswer_keeps
    | with_reducible apply keeps_foldl_fst
    | with_reducible apply keeps_foldl_snd
    | with_reducible apply keeps_foldl
    | split
    | intro _

theorem State.setFw_keeps {q : List Instr} {s : State} (h : Keeps q s) (a0 a1) : Keeps q (State.setFw s a0 a1) := by
  unfold State.setFw
  try dsimp only
  repeat' first
    | with_reducible assumption
    | with_reducible apply keeps_foldl
    | split
    | (with_reducible refine Keeps.upd ?_ rfl ?_ ?_ ?_ ?_ ?_ ?_ ?_ ?_ ?_ ?_ ?_ ?_ ?_ ?_ ?_ ?_ ?_)
    | with_reducible exact (fun h => h)

theorem State.markApply_keeps {q : List Instr} {s : State} (h : Keeps q s) (a0) : Keeps q (State.markApply s a0) := by
  unfold State.markApply
  try dsimp only
  repeat' first
    | with_reducible assumption
    | with_reducible apply State.setFw_keeps
    | with_reducible apply keeps_foldl
    | split
    | (with_reducible refine Keeps.upd ?_ rfl ?_ ?_ ?_ ?_ ?_ ?_ ?_ ?_ ?_ ?_ ?_ ?_ ?_ ?_ ?_ ?_ ?_)
    | with_reducible exact (fun h => h)

theorem State.fwStep_keeps {q : List Instr} {s : State} (h : Keeps q s) (a0) : Keeps q (State.fwStep s a0).1 := by
  unfold State.fwStep
  try dsimp only
  repeat' first
    | with_reducible assumption
    | with_reducible apply State.drawData_keeps
    | (with_reducible refine State.drawData_keeps_of (e := by assumption) ?_)
    | with_reducible apply State.markApply_keeps
    | with_reducible apply State.setFw_keeps
    | with_reducible apply keeps_foldl_fst
    | with_reducible apply keeps_foldl_snd
    | with_reducible apply keeps_foldl
    | split

theorem State.fwStep_keeps_of {q : List Instr} {s t : State} {r} {a0} (e : State.fwStep s a0 = (t, r)) (h : Keeps q s) : Keeps q t := by
  have := State.fwStep_keeps h a0
  rwa [e] at this

theorem execPldmFirmwareUpdate_keeps {q : List Instr} {s : State} (h : Keeps q s) (a0) : KeepsNext q (execPldmFirmwareUpdate a0 s) := by
  unfold execPldmFirmwareUpdate
  try dsimp only
  repeat' first
    | with_reducible assumption
    | with_reducible apply keepsNext_next
    | with_reducible apply State.fwStep_keeps
    | (with_reducible refine State.fwStep_keeps_of (e := by assumption) ?_)
    | with_reducible apply State.pldm_keeps
    | with_reducible apply State.pldmAnswer_keeps
    | with_reducible apply keeps_foldl_fst
    | with_reducible apply keeps_foldl_snd
    | with_reducible apply keeps_foldl
    | split
    | intro _

theorem execPldmUnsupported_keeps {q : List Instr} {s : State} (h : Keeps q s) (a0 a1) : KeepsNext q (execPldmUnsupported a0 a1 s) := by
  unfold execPldmUnsupported
  try dsimp only
  repeat' first
    | with_reducible assumption
    | with_reducible apply keepsNext_next
    | with_reducible apply State.pldmAnswer_keeps
    | with_reducible apply keeps_foldl
    | split

end Sys2Proof.Machine
end

