-- ==== Sys2Proof/Laws/KeepsQuarantineCommands.lean ====
section
/-!
SUPPORT. The operations of Machine/QuarantineCommands.lean keep the queue and the canonical form of every map (`Keeps`).
-/
namespace Sys2Proof.Machine

theorem execQuarantine_keeps {q : List Instr} {s : State} (h : Keeps q s) (a0 a1) : KeepsNext q (execQuarantine a0 a1 s) := by
  unfold execQuarantine
  try dsimp only
  repeat' first
    | with_reducible assumption
    | with_reducible apply keepsNext_next
    | with_reducible apply State.command_keeps
    | with_reducible apply State.restrictCmd_keeps
    | (with_reducible refine State.restrictCmd_keeps_of (e := by assumption) ?_)
    | with_reducible apply State.wrapUp_keeps
    | with_reducible apply keeps_foldl_fst
    | with_reducible apply keeps_foldl_snd
    | with_reducible apply keeps_foldl
    | split
    | intro _

theorem execSuspect_keeps {q : List Instr} {s : State} (h : Keeps q s) (a0 a1) : KeepsNext q (execSuspect a0 a1 s) := by
  unfold execSuspect
  try dsimp only
  repeat' first
    | with_reducible assumption
    | with_reducible apply keepsNext_next
    | with_reducible apply State.command_keeps
    | with_reducible apply State.restrictCmd_keeps
    | (with_reducible refine State.restrictCmd_keeps_of (e := by assumption) ?_)
    | with_reducible apply State.wrapUp_keeps
    | with_reducible apply keeps_foldl_fst
    | with_reducible apply keeps_foldl_snd
    | with_reducible apply keeps_foldl
    | split
    | intro _

theorem execReinstate_keeps {q : List Instr} {s : State} (h : Keeps q s) (a0 a1 a2) : KeepsNext q (execReinstate a0 a1 a2 s) := by
  unfold execReinstate
  try dsimp only
  repeat' first
    | with_reducible assumption
    | with_reducible apply keepsNext_next
    | with_reducible apply State.applySet_keeps
    | with_reducible apply State.command_keeps
    | with_reducible apply State.wrapUp_keeps
    | with_reducible apply keeps_foldl
    | split
    | intro _

theorem execMapImageClosed_keeps {q : List Instr} {s : State} (h : Keeps q s) : KeepsNext q (execMapImageClosed s) := by
  unfold execMapImageClosed
  try dsimp only
  repeat' first
    | with_reducible assumption
    | with_reducible apply keepsNext_next
    | with_reducible apply State.closeImage_keeps
    | with_reducible apply State.wrapUp_keeps
    | with_reducible apply keeps_foldl
    | split

theorem execReconciliation_keeps {q : List Instr} {s : State} (h : Keeps q s) : KeepsNext q (execReconciliation s) := by
  unfold execReconciliation
  try dsimp only
  repeat' first
    | with_reducible assumption
    | with_reducible apply keepsNext_next
    | with_reducible apply State.reconcile_keeps
    | with_reducible apply State.wrapUp_keeps
    | with_reducible apply keeps_foldl
    | split

theorem execChurnGrant_keeps {q : List Instr} {s : State} (h : Keeps q s) (a0 a1 a2) : KeepsNext q (execChurnGrant a0 a1 a2 s) := by
  unfold execChurnGrant
  try dsimp only
  repeat' first
    | with_reducible assumption
    | with_reducible apply keepsNext_next
    | with_reducible apply State.command_keeps
    | with_reducible apply State.loseHosts_keeps
    | with_reducible apply State.wr_keeps
    | with_reducible apply State.wrapUp_keeps
    | with_reducible apply keeps_foldl
    | split
    | (with_reducible refine Keeps.upd ?_ rfl ?_ ?_ ?_ ?_ ?_ ?_ ?_ ?_ ?_ ?_ ?_ ?_ ?_ ?_ ?_ ?_ ?_)
    | with_reducible exact (fun h => h)
    | with_reducible exact (fun h => SMap.wf_set h _ _)
    | with_reducible exact (fun h => SMap.wf_clear h _)
    | with_reducible exact (fun h => SMap.wf_filter h _)
    | with_reducible exact (Memory.wf_same rfl rfl)
    | with_reducible exact (fun _ => SMap.wf_foldl_set _ _ _ rfl)
    | exact (fun _ => rfl)
    | intro _

theorem execChurnKernelResult_keeps {q : List Instr} {s : State} (h : Keeps q s) (a0 a1 a2 a3) : KeepsNext q (execChurnKernelResult a0 a1 a2 a3 s) := by
  unfold execChurnKernelResult
  try dsimp only
  repeat' first
    | with_reducible assumption
    | with_reducible apply keepsNext_next
    | with_reducible apply State.kernelResult_keeps
    | with_reducible apply State.wr_keeps
    | with_reducible apply State.wrapUp_keeps
    | with_reducible apply keeps_foldl
    | split

end Sys2Proof.Machine
end

