-- ==== Sys2Proof/Laws/Lists.lean ====
section
/-!
SUPPORT. A list alone (Safety): what completing its instruction does, said once.
-/
namespace Sys2Proof.Machine

open Reg

theorem foldl_same {α β : Type} (f : β → α → β) (s : β) (l : List α) (h : ∀ x ∈ l, f s x = s) : l.foldl f s = s := by
  induction l with
  | nil => rfl
  | cons x l ih =>
    rw [List.foldl_cons, h x (List.mem_cons_self ..)]
    exact ih (fun y hy => h y (List.mem_cons_of_mem _ hy))

theorem State.mem_parts_lt (s : State) {p : Nat} (h : p ∈ s.parts) : p < 4 := by
  unfold State.parts at h
  have h1 := List.mem_range.1 h
  have h2 : partCount s.mode ≤ 4 := by
    unfold partCount
    split
    · decide
    · split <;> decide
  omega

theorem State.traceTakes_untraced (s : State) (h : s.untraced = true) {p c : Nat} (hp : p < 4) (hc : c < 8) (type : Nat)
    (tag : Option Word64) (ps : List Nat) : s.traceTakes p c type tag ps = false := by
  unfold State.untraced at h
  rw [Bool.and_eq_true] at h
  have h1 := List.all_eq_true.1 (List.all_eq_true.1 h.1 p (List.mem_range.2 hp)) c (List.mem_range.2 hc)
  simp only [Bool.not_eq_true'] at h1
  simp [State.traceTakes, h1]

theorem State.trace_untraced (s : State) (h : s.untraced = true) (type unit arg0 : Nat) (tag : Option Word64) (arg1 : Nat)
    (ps : List Nat) : s.trace type unit arg0 tag arg1 ps = s := by
  unfold State.trace
  refine foldl_same _ s _ (fun p hp => foldl_same _ s _ (fun c hc => ?_))
  rw [s.traceTakes_untraced h (s.mem_parts_lt hp) (List.mem_range.1 hc)]
  rfl

theorem State.frozen_untraced (s : State) (h : s.untraced = true) {d : Nat} (hd : d < 4) : s.frozen d = true := by
  unfold State.untraced at h
  rw [Bool.and_eq_true] at h
  exact List.all_eq_true.1 h.2 d (List.mem_range.2 hd)

theorem State.countEs_untraced (s : State) (h : s.untraced = true) {d : Nat} (hd : d < 4) (ev : Nat) (tag : Option Word64) (n : Nat) :
    s.countEs d ev tag n = s := by
  simp [State.countEs, s.frozen_untraced h hd]

theorem State.countCl_untraced (s : State) (h : s.untraced = true) {u : Nat} (hu : u / 168 < 4) (ev : Nat) (tag : Option Word64)
    (n : Nat) : s.countCl u ev tag n = s := by
  simp [State.countCl, s.frozen_untraced h hu]

/-- Where no list has ended, none waits to close a slot and none can take one, nothing settles. -/
theorem State.settleN_still (s : State) (n : Nat) (h1 : s.lists.find? (fun l => l.ending.isSome) = none)
    (h2 : s.lists.find? s.closable = none) (h3 : s.nextDispatch = none) : s.settleN n = s := by
  cases n with
  | zero => rfl
  | succ n => rw [State.settleN, h1]; simp only [h2, h3]

/-- A lone list that runs on, and closes no slot, settles at once. -/
theorem State.settle_alone (s : State) (l : RunList) (hl : s.lists = [l]) (hr : l.running = true) (he : l.ending = none)
    (hw : ∀ b m, l.work ≠ .closing b m) : s.settle = s := by
  have h1 : s.closable l = false := by
    cases h : l.work <;> simp [State.closable, h, hr, he]
    exact absurd h (hw _ _)
  refine s.settleN_still _ ?_ ?_ ?_
  · simp [hl, he]
  · simp [hl, h1]
  · simp [State.nextDispatch, hl, State.dispatchable, hr]

theorem State.settle_nil (s : State) (hl : s.lists = []) : s.settle = s :=
  s.settleN_still _ (by simp [hl]) (by simp [hl]) (by simp [hl, State.nextDispatch])

/-! ### Nothing but the lists goes on -/

theorem State.calm_parts {s : State} (h : s.calm = true) :
    s.mem.flaws = [] ∧ s.mem.found = [] ∧ (∀ n, n < 16 → (s.arb (portKey n)).waiting = []) ∧
    (∀ e ∈ s.media, ∀ x, s.sess e.1 = some x → x.unparsed = []) := by
  unfold State.calm at h
  simp only [Bool.and_eq_true, decide_eq_true_eq, List.all_eq_true] at h
  obtain ⟨⟨⟨h1, h2⟩, h3⟩, h4⟩ := h
  refine ⟨h1, h2, fun n hn => h3 n (List.mem_range.2 hn), fun e he x hx => ?_⟩
  have := h4 e he
  simpa [hx] using this

theorem State.calm_congr {s t : State} (hm : t.mem = s.mem) (ha : t.arbs = s.arbs) (hs : t.media = s.media) : t.calm = s.calm := by
  unfold State.calm State.arb State.sess
  rw [hm, ha, hs]

theorem State.parseAll_calm {s : State} (h : s.calm = true) : s.parseAll = s := by
  refine foldl_same _ s _ (fun e he => ?_)
  unfold State.parse
  split
  · next x hx => simp [(State.calm_parts h).2.2.2 e he x hx]
  · rfl

theorem State.handleErrors_calm {s : State} (h : s.calm = true) : s.handleErrors = s := by
  obtain ⟨h1, h2, _⟩ := State.calm_parts h
  simp [State.handleErrors, h1, h2, State.handleErrorsN]

theorem State.drainEgress_calm {s : State} (h : s.calm = true) : s.drainEgress = s := by
  refine foldl_same _ s _ (fun n hn => ?_)
  simp [State.drainPort, (State.calm_parts h).2.2.1 n (List.mem_range.1 hn)]

/-- A command that leaves nothing but its lists to go on ends as they settle. -/
theorem State.wrapUp_calm {s t : State} (h : s.settle = t) (hc : t.calm = true) : s.wrapUp = t := by
  unfold State.wrapUp
  rw [h, State.parseAll_calm hc, State.handleErrors_calm hc, State.drainEgress_calm hc]

/-! ### Reading does not look at the lists -/

theorem State.readBytes_lists (s : State) (ls : List RunList) (p : Nat) (whole : Bool) (a n : Nat) :
    ({ s with lists := ls } : State).readBytes p whole a n = s.readBytes p whole a n := by
  induction n generalizing a with
  | zero => rfl
  | succ n ih =>
    unfold State.readBytes
    rw [ih]
    rfl

theorem State.readTagged_lists (s : State) (ls : List RunList) (tag : Word64) (a n : Nat) :
    ({ s with lists := ls } : State).readTagged tag a n = s.readTagged tag a n := by
  unfold State.readTagged
  rw [State.readBytes_lists]
  rfl

theorem State.fetched_lists (s : State) (ls : List RunList) (l : RunList) :
    ({ s with lists := ls } : State).fetched l = s.fetched l := by
  unfold State.fetched
  rw [State.readTagged_lists]
  rfl

theorem State.dataError_nil {fs : List Nat} (h : dataError fs = none) : fs = [] := by
  cases fs with
  | nil => rfl
  | cons x l =>
    exfalso
    unfold dataError at h
    cases h1 : lowestOf (List.filter isUeDetail (x :: l)) <;> simp [h1, lowestOf] at h

theorem State.readBytes_at {s : State} {p : Nat} {whole : Bool} {n a : Nat} {bs : List Byte}
    (h : s.readBytes p whole a n = some (bs, [])) {b : Nat} (h1 : a ≤ b) (h2 : b < a + n) :
    ∃ x, s.readByte p whole b = some (x, none) := by
  induction n generalizing a bs with
  | zero => omega
  | succ n ih =>
    unfold State.readBytes at h
    split at h
    · next x f ys fs hx hy =>
      simp only [Option.some.injEq, Prod.mk.injEq, List.append_eq_nil_iff] at h
      obtain ⟨_, hf, hfs⟩ := h
      have hf' : f = none := by cases f <;> simp_all
      rw [hf'] at hx
      rw [hfs] at hy
      by_cases hb : b = a
      · exact ⟨x, by rw [hb]; exact hx⟩
      · exact ih hy (by omega) (by omega)
    · exact absurd h (by simp)

/-- A byte that reads as it is: its line has no error, and is in no hole. -/
theorem State.touchLine_read {s : State} (hm : s.mem.flaws = []) {p : Nat} {whole : Bool} {b : Nat} {x : Byte}
    (h : s.readByte p whole b = some (x, none)) (o : Option (Nat × Nat)) : s.touchLine p whole o b = s := by
  unfold State.readByte at h
  unfold State.touchLine
  cases hp : s.place p whole b <;> simp [hp, Place.key?, State.noteHole, State.meet, MemSt.flaw, hm, SMap.get, codeResult] at h ⊢

theorem State.touch_read {s : State} (hm : s.mem.flaws = []) {p : Nat} {whole : Bool} {a n : Nat} {bs : List Byte}
    (h : s.readBytes p whole a n = some (bs, [])) (o : Option (Nat × Nat)) : s.touch p whole o a n = s := by
  refine foldl_same _ s _ (fun lo hlo => ?_)
  unfold linesOf at hlo
  split at hlo
  · simp at hlo
  · next hn =>
    obtain ⟨i, hi, rfl⟩ := List.mem_map.1 hlo
    rw [List.mem_range] at hi
    have h2 : Nat.max a ((a / 64 + i) * 64) < a + n := Nat.max_lt.2 ⟨by omega, by omega⟩
    obtain ⟨x, hx⟩ := State.readBytes_at h (Nat.le_max_left _ _) h2
    exact State.touchLine_read hm hx o

theorem State.touchTagged_read {s : State} (hm : s.mem.flaws = []) {tag : Word64} {a n : Nat} {bs : List Byte}
    (h : s.readTagged tag a n = some (bs, [])) (o : Option (Nat × Nat)) : s.touchTagged tag o a n = s := by
  unfold State.readTagged at h
  unfold State.touchTagged
  split
  · rfl
  · next hb =>
    rw [if_neg hb] at h
    exact State.touch_read hm h o

/-- The fields of a list that fetching looks at but never changes. -/
theorem RunList.fetchedAs_keeps (l : RunList) (r : Option (List Byte × List Nat)) :
    (l.fetchedAs r).running = l.running ∧ (l.fetchedAs r).queue = l.queue ∧ (l.fetchedAs r).desc = l.desc ∧
    (l.fetchedAs r).faults = l.faults ∧ (l.fetchedAs r).asks = l.asks ∧ (l.fetchedAs r).hdr = l.hdr ∧
    (l.work = .ready → (l.fetchedAs r).work = .ready) := by
  unfold RunList.fetchedAs
  split
  · simp
  · split
    · simp
    · dsimp only
      split <;> simp

theorem State.fetched_keeps (s : State) (l : RunList) :
    (s.fetched l).running = l.running ∧ (s.fetched l).queue = l.queue ∧ (s.fetched l).desc = l.desc ∧
    (l.work = .ready → (s.fetched l).work = .ready) :=
  have h := l.fetchedAs_keeps (s.readTagged (s.listTag l) l.pc 16)
  ⟨h.1, h.2.1, h.2.2.1, h.2.2.2.2.2.2⟩

theorem RunList.fetchedAs_word {l : RunList} {r : Option (List Byte × List Nat)} (h : (l.fetchedAs r).word.isSome = true) :
    ∃ bs, r = some (bs, []) := by
  unfold RunList.fetchedAs at h
  split at h
  · simp at h
  · next bs fs =>
    split at h
    · simp at h
    · next hd => exact ⟨bs, by rw [State.dataError_nil hd]⟩

theorem State.fetched_read (s : State) (l : RunList) (hw : (s.fetched l).word.isSome = true) :
    ∃ bs, s.readTagged (s.listTag l) l.pc 16 = some (bs, []) := RunList.fetchedAs_word hw

theorem State.dropExt_nil (s : State) (a n : Nat) (h : s.mem.ext = []) : s.dropExt a n = s := by
  unfold State.dropExt
  rw [h, List.filter_nil, ← h]

theorem State.setList_alone (s : State) (l k : RunList) (hl : s.lists = [k]) (hq : k.queue = l.queue) (hd : k.desc = l.desc) :
    s.setList l = { s with lists := [l] } := by
  simp [State.setList, hl, hq, hd]

theorem State.findList_alone (s : State) (l : RunList) (hl : s.lists = [l]) : s.findList l.queue l.desc = some l := by
  simp [State.findList, hl]

/-- The fetch of a lone list whose next word can be read changes the list alone. -/
theorem State.fetch_alone (s : State) (k l : RunList) (hk : s.lists = [k]) (hkq : k.queue = l.queue) (hkd : k.desc = l.desc)
    (hm : s.mem.flaws = []) (hx : s.mem.ext = []) (hw : (s.fetched l).word.isSome = true) :
    s.fetch l = { s with lists := [s.fetched l] } := by
  obtain ⟨_, hq, hd, _⟩ := s.fetched_keeps l
  obtain ⟨bs, hb⟩ := s.fetched_read l hw
  have e1 : s.setList (s.fetched l) = { s with lists := [s.fetched l] } :=
    s.setList_alone _ k hk (by rw [hq]; exact hkq) (by rw [hd]; exact hkd)
  have e2 : ({ s with lists := [s.fetched l] } : State).touchTagged (s.listTag l) (some (l.queue, l.desc)) l.pc 16 =
      { s with lists := [s.fetched l] } :=
    State.touchTagged_read (s := { s with lists := [s.fetched l] }) hm (bs := bs) (by rw [State.readTagged_lists]; exact hb) _
  unfold State.fetch
  simp only [e1, e2, hw, Bool.true_or, if_true]
  exact State.dropExt_nil _ _ _ hx

/-- What another instruction follows says of the list that goes on. -/
theorem State.onward_list {s : State} {l : RunList} (hr : l.running = true) (hn : s.follows l = true) :
    (s.onward l).running = true ∧ (s.onward l).ending = none ∧ ∀ b m, (s.onward l).work ≠ .closing b m := by
  unfold State.follows at hn
  simp only [Bool.and_eq_true, decide_eq_true_eq, Option.isNone_iff_eq_none] at hn
  obtain ⟨hkr, _, _, hkw⟩ := s.fetched_keeps (l.next s.tick)
  refine ⟨by rw [State.onward, hkr]; exact hr, hn.2, fun b m h => ?_⟩
  rw [State.onward, hkw rfl] at h
  exact absurd h (by simp)

/-- R114: the current instruction of a lone list completes, and the next one is fetched. -/
theorem State.completeInstr_alone (s : State) (k l : RunList) (hu : s.untraced = true) (hc : s.calm = true) (hk : s.lists = [k])
    (hkq : k.queue = l.queue) (hkd : k.desc = l.desc) (hq : l.queue < 64) (hf : l.faults = [])
    (ha : l.asks = []) (hx : s.mem.ext = []) (hn : s.follows l = true) :
    s.completeInstr l false = { s with lists := [s.onward l] } := by
  have hn' := hn
  unfold State.follows at hn'
  simp only [Bool.and_eq_true, decide_eq_true_eq, Option.isNone_iff_eq_none] at hn'
  obtain ⟨⟨hi, hw⟩, hend⟩ := hn'
  have h1 : s.completeInstr l false = s.fetch (l.next s.tick) := by
    have : ¬(l.hdr.instrs ≤ l.idx + 1) := by omega
    simp [State.completeInstr, ha, hf, this, dataError, lowestOf, RunList.next,
      s.countEs_untraced hu (show l.queue / 16 < 4 by omega)]
  rw [h1]
  exact s.fetch_alone k _ hk hkq hkd (State.calm_parts hc).1 hx hw

/-- The same for the list's own finish, its private state being that of `l`. -/
theorem State.finishAs_alone (s : State) (k l : RunList) (hu : s.untraced = true) (hc : s.calm = true) (hk : s.lists = [k])
    (hkq : k.queue = l.queue) (hkd : k.desc = l.desc) (hq : l.queue < 64) (hf : l.faults = [])
    (ha : l.asks = []) (hx : s.mem.ext = []) (hn : s.follows l = true) :
    s.finishAs l = { s with lists := [s.onward l] } := by
  unfold State.finishAs
  rw [s.setList_alone l k hk hkq hkd]
  unfold State.finish
  rw [State.findList_alone _ l rfl]
  have hn2 : ({ s with lists := [l] } : State).follows l = true := by
    unfold State.follows State.onward
    rw [State.fetched_lists]
    exact hn
  have h := ({ s with lists := [l] } : State).completeInstr_alone l l hu
    ((State.calm_congr (s := s) (t := { s with lists := [l] }) rfl rfl rfl).trans hc) rfl rfl rfl hq hf ha hx hn2
  simp only [h]
  unfold State.onward
  rw [State.fetched_lists]
  rfl

theorem State.finish_alone (s : State) (l : RunList) (hu : s.untraced = true) (hc : s.calm = true) (hl : s.lists = [l])
    (hq : l.queue < 64) (hf : l.faults = []) (ha : l.asks = []) (hx : s.mem.ext = [])
    (hn : s.follows l = true) : s.finish l false = { s with lists := [s.onward l] } := by
  unfold State.finish
  rw [State.findList_alone _ l hl]
  exact s.completeInstr_alone l l hu hc hl rfl rfl hq hf ha hx hn

/-- The instruction of a lone list issues tiles, waits, or does anything else that leaves it in its slot. -/
theorem State.wrapUp_one {t : State} {k : RunList} (hc : t.calm = true) (hl : t.lists = [k]) (hr : k.running = true)
    (he : k.ending = none) (hw : ∀ b m, k.work ≠ .closing b m) : t.wrapUp = t :=
  State.wrapUp_calm (t.settle_alone k hl hr he hw) hc

/-- Where a list alone goes on to its next instruction, nothing else follows. -/
theorem State.wrapUp_onward {s : State} {l : RunList} (hc : s.calm = true) (hr : l.running = true) (hn : s.follows l = true) :
    ({ s with lists := [s.onward l] } : State).wrapUp = { s with lists := [s.onward l] } := by
  obtain ⟨h1, h2, h3⟩ := State.onward_list hr hn
  exact State.wrapUp_one ((State.calm_congr (s := s) (t := { s with lists := [s.onward l] }) rfl rfl rfl).trans hc) rfl h1 h2 h3

/-- What `lone` says of the list. -/
theorem State.lone_list {s : State} {r : ListRef} {op : Nat} {l : RunList} {w : Nat} (h : s.lone r op l w) :
    l.queue = r.queue.val ∧ l.desc = r.desc ∧ l.running = true ∧ l.ending = none ∧ l.work = .ready ∧
    (∃ x, l.word = some x ∧ w = x.toNat) ∧ bitsOf w 0 8 = op := by
  obtain ⟨_, _, hl, hy, _, _, _⟩ := h
  unfold State.ready State.findList at hy
  rw [hl] at hy
  simp only [List.find?_cons, List.find?_nil] at hy
  by_cases hc : (l.queue == r.queue.val && l.desc == r.desc) = true
  · simp only [hc] at hy
    split at hy
    · next x hx hwk hen =>
      split at hy
      · next hcond =>
        simp only [Option.some.injEq, Prod.mk.injEq] at hy
        simp only [Bool.and_eq_true, beq_iff_eq] at hc hcond
        refine ⟨hc.1, hc.2, hcond.1, hen, hwk, ⟨x, hx, hy.2.symm⟩, ?_⟩
        rw [← hy.2]; exact hcond.2
      · simp at hy
    · simp at hy
  · simp [hc] at hy

theorem State.lone_queue {s : State} {r : ListRef} {op : Nat} {l : RunList} {w : Nat} (h : s.lone r op l w) : l.queue < 64 := by
  rw [(State.lone_list h).1]; exact r.queue.isLt

theorem State.untraced_regs {s t : State} (h : t.regs = s.regs) : t.untraced = s.untraced := by
  have h1 : t.frozen = s.frozen := by
    funext d
    simp [State.frozen, State.bit, State.rd, State.reg, h]
  simp [State.untraced, h1, State.on, State.rd, State.reg, h]

theorem State.finish_lone (s : State) {l : RunList} {r : ListRef} {op w : Nat} (h : s.lone r op l w) (hf : s.follows l = true) :
    (s.finish l false).wrapUp = { s with lists := [s.onward l] } := by
  obtain ⟨h1, h2, h3, _, h5, h6, h7⟩ := id h
  rw [s.finish_alone l h1 h2 h3 (State.lone_queue h) h5 h6 h7 hf]
  exact State.wrapUp_onward h2 (State.lone_list h).2.2.1 hf

/-- From a lone list, after changes that leave registers, memory and lists alone. -/
theorem State.finish_after (s t : State) {l : RunList} {r : ListRef} {op w : Nat} (h : s.lone r op l w) (ht : t.lists = s.lists)
    (hr : t.regs = s.regs) (hm : t.mem = s.mem) (hc : t.calm = true) (hf : t.follows l = true) :
    (t.finish l false).wrapUp = { t with lists := [t.onward l] } := by
  obtain ⟨h1, _, h3, _, h5, h6, h7⟩ := id h
  rw [t.finish_alone l ((State.untraced_regs hr).trans h1) hc (ht.trans h3) (State.lone_queue h) h5 h6 (by rw [hm]; exact h7) hf]
  exact State.wrapUp_onward hc (State.lone_list h).2.2.1 hf

theorem State.finishAs_lone (s t : State) {l k : RunList} {r : ListRef} {op w : Nat} (h : s.lone r op l w) (ht : t.lists = s.lists)
    (hr : t.regs = s.regs) (hm : t.mem = s.mem) (hc : t.calm = true)
    (hk : k.queue = l.queue ∧ k.desc = l.desc ∧ k.running = l.running ∧ k.faults = l.faults ∧ k.asks = l.asks)
    (hf : t.follows k = true) : (t.finishAs k).wrapUp = { t with lists := [t.onward k] } := by
  obtain ⟨k1, k2, k3, k4, k5⟩ := hk
  obtain ⟨h1, _, h3, _, h5, h6, h7⟩ := id h
  rw [t.finishAs_alone l k ((State.untraced_regs hr).trans h1) hc (ht.trans h3) k1.symm k2.symm
    (by rw [k1]; exact State.lone_queue h) (k4.trans h5) (k5.trans h6) (by rw [hm]; exact h7) hf]
  exact State.wrapUp_onward hc (k3.trans (State.lone_list h).2.2.1) hf

/-- R112, R142: a list that is ready runs a legal instruction. -/
theorem State.instr_ready {s : State} {r : ListRef} {op : Nat} {l : RunList} {w : Nat} (h : s.ready r op = some (l, w))
    (illegal : RunList → Nat → List (Bool × Nat)) (run : State → RunList → Nat → State) (hc : lowest (illegal l w) = none) :
    s.instr r op illegal run = run (s.startInstr l w) l w := by
  unfold State.instr
  rw [h]
  simp only [hc]

theorem State.closeList_settle (s : State) (l : RunList) (e : Ending) (hl : s.lists = [l]) (he : l.ending = some e)
    (h : (s.closeList l e).lists = []) : s.settle = s.closeList l e := by
  unfold State.settle
  rw [State.settleN]
  simp only [hl, List.find?_cons, he, Option.isSome_some, Option.getD_some]
  exact State.settleN_still _ _ (by simp [h]) (by simp [h]) (by simp [h, State.nextDispatch])

/-- R112, R142: a lone list runs a legal instruction. -/
theorem State.instr_alone {s : State} {r : ListRef} {op : Nat} {l : RunList} {w : Nat} (h : s.lone r op l w)
    (illegal : RunList → Nat → List (Bool × Nat)) (run : State → RunList → Nat → State) (hc : lowest (illegal l w) = none) :
    s.instr r op illegal run = run s l w := by
  unfold State.instr
  rw [h.2.2.2.1]
  simp only [State.startInstr, s.trace_untraced h.1, hc]

theorem State.instr_illegal {s : State} {r : ListRef} {op : Nat} {l : RunList} {w d : Nat} (h : s.lone r op l w)
    (illegal : RunList → Nat → List (Bool × Nat)) (run : State → RunList → Nat → State) (hc : lowest (illegal l w) = some d) :
    s.instr r op illegal run = s.endWith l 0x22 d := by
  unfold State.instr
  rw [h.2.2.2.1]
  simp only [State.startInstr, s.trace_untraced h.1, hc]

end Sys2Proof.Machine
end

