-- ==== Sys2Proof/Laws/State.lean ====
section
/-!
SUPPORT. What each record update of the state leaves as it was, one lemma for each field.
-/
namespace Sys2Proof.Machine

@[simp] theorem State.setReg_pending (s : State) (a) (v) : (s.setReg a v).pending = s.pending := rfl
@[simp] theorem State.setReg_latches (s : State) (a) (v) : (s.setReg a v).latches = s.latches := rfl
@[simp] theorem State.setReg_staged (s : State) (a) (v) : (s.setReg a v).staged = s.staged := rfl
@[simp] theorem State.setReg_msix (s : State) (a) (v) : (s.setReg a v).msix = s.msix := rfl
@[simp] theorem State.setReg_mode (s : State) (a) (v) : (s.setReg a v).mode = s.mode := rfl
@[simp] theorem State.setReg_beat (s : State) (a) (v) : (s.setReg a v).beat = s.beat := rfl
@[simp] theorem State.setReg_queues (s : State) (a) (v) : (s.setReg a v).queues = s.queues := rfl
@[simp] theorem State.setReg_lists (s : State) (a) (v) : (s.setReg a v).lists = s.lists := rfl
@[simp] theorem State.setReg_sync (s : State) (a) (v) : (s.setReg a v).sync = s.sync := rfl
@[simp] theorem State.setReg_mem (s : State) (a) (v) : (s.setReg a v).mem = s.mem := rfl
@[simp] theorem State.setReg_arbs (s : State) (a) (v) : (s.setReg a v).arbs = s.arbs := rfl
@[simp] theorem State.setReg_link (s : State) (a) (v) : (s.setReg a v).link = s.link := rfl
@[simp] theorem State.setReg_screen (s : State) (a) (v) : (s.setReg a v).screen = s.screen := rfl
@[simp] theorem State.setReg_vscreen (s : State) (a) (v) : (s.setReg a v).vscreen = s.vscreen := rfl
@[simp] theorem State.setReg_shadows (s : State) (a) (v) : (s.setReg a v).shadows = s.shadows := rfl
@[simp] theorem State.setReg_votes (s : State) (a) (v) : (s.setReg a v).votes = s.votes := rfl
@[simp] theorem State.setReg_lateArbs (s : State) (a) (v) : (s.setReg a v).lateArbs = s.lateArbs := rfl
@[simp] theorem State.setReg_wheels (s : State) (a) (v) : (s.setReg a v).wheels = s.wheels := rfl
@[simp] theorem State.setReg_scrLog (s : State) (a) (v) : (s.setReg a v).scrLog = s.scrLog := rfl
@[simp] theorem State.setReg_qtn (s : State) (a) (v) : (s.setReg a v).qtn = s.qtn := rfl
@[simp] theorem State.setReg_jobs (s : State) (a) (v) : (s.setReg a v).jobs = s.jobs := rfl
@[simp] theorem State.setReg_steps (s : State) (a) (v) : (s.setReg a v).steps = s.steps := rfl
@[simp] theorem State.setReg_partSteps (s : State) (a) (v) : (s.setReg a v).partSteps = s.partSteps := rfl
@[simp] theorem State.setReg_wrote (s : State) (a) (v) : (s.setReg a v).wrote = s.wrote := rfl
@[simp] theorem State.setReg_raised (s : State) (a) (v) : (s.setReg a v).raised = s.raised := rfl
@[simp] theorem State.setReg_hang (s : State) (a) (v) : (s.setReg a v).hang = s.hang := rfl
@[simp] theorem State.setReg_pwr (s : State) (a) (v) : (s.setReg a v).pwr = s.pwr := rfl
@[simp] theorem State.setReg_bist (s : State) (a) (v) : (s.setReg a v).bist = s.bist := rfl
@[simp] theorem State.setReg_thm (s : State) (a) (v) : (s.setReg a v).thm = s.thm := rfl
@[simp] theorem State.setReg_evr (s : State) (a) (v) : (s.setReg a v).evr = s.evr := rfl
@[simp] theorem State.setReg_mram (s : State) (a) (v) : (s.setReg a v).mram = s.mram := rfl
@[simp] theorem State.setReg_cla (s : State) (a) (v) : (s.setReg a v).cla = s.cla := rfl
@[simp] theorem State.setReg_media (s : State) (a) (v) : (s.setReg a v).media = s.media := rfl
@[simp] theorem State.setReg_dbg (s : State) (a) (v) : (s.setReg a v).dbg = s.dbg := rfl
@[simp] theorem State.setReg_out (s : State) (a) (v) : (s.setReg a v).out = s.out := rfl
@[simp] theorem State.setReg_free (s : State) (a) (v) : (s.setReg a v).free = s.free := rfl

@[simp] theorem State.wr_pending (s : State) (f) (v) : (s.wr f v).pending = s.pending := rfl
@[simp] theorem State.wr_latches (s : State) (f) (v) : (s.wr f v).latches = s.latches := rfl
@[simp] theorem State.wr_staged (s : State) (f) (v) : (s.wr f v).staged = s.staged := rfl
@[simp] theorem State.wr_msix (s : State) (f) (v) : (s.wr f v).msix = s.msix := rfl
@[simp] theorem State.wr_mode (s : State) (f) (v) : (s.wr f v).mode = s.mode := rfl
@[simp] theorem State.wr_beat (s : State) (f) (v) : (s.wr f v).beat = s.beat := rfl
@[simp] theorem State.wr_queues (s : State) (f) (v) : (s.wr f v).queues = s.queues := rfl
@[simp] theorem State.wr_lists (s : State) (f) (v) : (s.wr f v).lists = s.lists := rfl
@[simp] theorem State.wr_sync (s : State) (f) (v) : (s.wr f v).sync = s.sync := rfl
@[simp] theorem State.wr_mem (s : State) (f) (v) : (s.wr f v).mem = s.mem := rfl
@[simp] theorem State.wr_arbs (s : State) (f) (v) : (s.wr f v).arbs = s.arbs := rfl
@[simp] theorem State.wr_link (s : State) (f) (v) : (s.wr f v).link = s.link := rfl
@[simp] theorem State.wr_screen (s : State) (f) (v) : (s.wr f v).screen = s.screen := rfl
@[simp] theorem State.wr_vscreen (s : State) (f) (v) : (s.wr f v).vscreen = s.vscreen := rfl
@[simp] theorem State.wr_shadows (s : State) (f) (v) : (s.wr f v).shadows = s.shadows := rfl
@[simp] theorem State.wr_votes (s : State) (f) (v) : (s.wr f v).votes = s.votes := rfl
@[simp] theorem State.wr_lateArbs (s : State) (f) (v) : (s.wr f v).lateArbs = s.lateArbs := rfl
@[simp] theorem State.wr_wheels (s : State) (f) (v) : (s.wr f v).wheels = s.wheels := rfl
@[simp] theorem State.wr_scrLog (s : State) (f) (v) : (s.wr f v).scrLog = s.scrLog := rfl
@[simp] theorem State.wr_qtn (s : State) (f) (v) : (s.wr f v).qtn = s.qtn := rfl
@[simp] theorem State.wr_jobs (s : State) (f) (v) : (s.wr f v).jobs = s.jobs := rfl
@[simp] theorem State.wr_steps (s : State) (f) (v) : (s.wr f v).steps = s.steps := rfl
@[simp] theorem State.wr_partSteps (s : State) (f) (v) : (s.wr f v).partSteps = s.partSteps := rfl
@[simp] theorem State.wr_wrote (s : State) (f) (v) : (s.wr f v).wrote = s.wrote := rfl
@[simp] theorem State.wr_raised (s : State) (f) (v) : (s.wr f v).raised = s.raised := rfl
@[simp] theorem State.wr_hang (s : State) (f) (v) : (s.wr f v).hang = s.hang := rfl
@[simp] theorem State.wr_pwr (s : State) (f) (v) : (s.wr f v).pwr = s.pwr := rfl
@[simp] theorem State.wr_bist (s : State) (f) (v) : (s.wr f v).bist = s.bist := rfl
@[simp] theorem State.wr_thm (s : State) (f) (v) : (s.wr f v).thm = s.thm := rfl
@[simp] theorem State.wr_evr (s : State) (f) (v) : (s.wr f v).evr = s.evr := rfl
@[simp] theorem State.wr_mram (s : State) (f) (v) : (s.wr f v).mram = s.mram := rfl
@[simp] theorem State.wr_cla (s : State) (f) (v) : (s.wr f v).cla = s.cla := rfl
@[simp] theorem State.wr_media (s : State) (f) (v) : (s.wr f v).media = s.media := rfl
@[simp] theorem State.wr_dbg (s : State) (f) (v) : (s.wr f v).dbg = s.dbg := rfl
@[simp] theorem State.wr_out (s : State) (f) (v) : (s.wr f v).out = s.out := rfl
@[simp] theorem State.wr_free (s : State) (f) (v) : (s.wr f v).free = s.free := rfl

@[simp] theorem State.event_pending (s : State) (f) : (s.event f).pending = s.pending := rfl
@[simp] theorem State.event_latches (s : State) (f) : (s.event f).latches = s.latches := rfl
@[simp] theorem State.event_staged (s : State) (f) : (s.event f).staged = s.staged := rfl
@[simp] theorem State.event_msix (s : State) (f) : (s.event f).msix = s.msix := rfl
@[simp] theorem State.event_mode (s : State) (f) : (s.event f).mode = s.mode := rfl
@[simp] theorem State.event_beat (s : State) (f) : (s.event f).beat = s.beat := rfl
@[simp] theorem State.event_queues (s : State) (f) : (s.event f).queues = s.queues := rfl
@[simp] theorem State.event_lists (s : State) (f) : (s.event f).lists = s.lists := rfl
@[simp] theorem State.event_sync (s : State) (f) : (s.event f).sync = s.sync := rfl
@[simp] theorem State.event_mem (s : State) (f) : (s.event f).mem = s.mem := rfl
@[simp] theorem State.event_arbs (s : State) (f) : (s.event f).arbs = s.arbs := rfl
@[simp] theorem State.event_link (s : State) (f) : (s.event f).link = s.link := rfl
@[simp] theorem State.event_screen (s : State) (f) : (s.event f).screen = s.screen := rfl
@[simp] theorem State.event_vscreen (s : State) (f) : (s.event f).vscreen = s.vscreen := rfl
@[simp] theorem State.event_shadows (s : State) (f) : (s.event f).shadows = s.shadows := rfl
@[simp] theorem State.event_votes (s : State) (f) : (s.event f).votes = s.votes := rfl
@[simp] theorem State.event_lateArbs (s : State) (f) : (s.event f).lateArbs = s.lateArbs := rfl
@[simp] theorem State.event_wheels (s : State) (f) : (s.event f).wheels = s.wheels := rfl
@[simp] theorem State.event_scrLog (s : State) (f) : (s.event f).scrLog = s.scrLog := rfl
@[simp] theorem State.event_qtn (s : State) (f) : (s.event f).qtn = s.qtn := rfl
@[simp] theorem State.event_jobs (s : State) (f) : (s.event f).jobs = s.jobs := rfl
@[simp] theorem State.event_steps (s : State) (f) : (s.event f).steps = s.steps := rfl
@[simp] theorem State.event_partSteps (s : State) (f) : (s.event f).partSteps = s.partSteps := rfl
@[simp] theorem State.event_wrote (s : State) (f) : (s.event f).wrote = s.wrote := rfl
@[simp] theorem State.event_raised (s : State) (f) : (s.event f).raised = s.raised := rfl
@[simp] theorem State.event_hang (s : State) (f) : (s.event f).hang = s.hang := rfl
@[simp] theorem State.event_pwr (s : State) (f) : (s.event f).pwr = s.pwr := rfl
@[simp] theorem State.event_bist (s : State) (f) : (s.event f).bist = s.bist := rfl
@[simp] theorem State.event_thm (s : State) (f) : (s.event f).thm = s.thm := rfl
@[simp] theorem State.event_evr (s : State) (f) : (s.event f).evr = s.evr := rfl
@[simp] theorem State.event_mram (s : State) (f) : (s.event f).mram = s.mram := rfl
@[simp] theorem State.event_cla (s : State) (f) : (s.event f).cla = s.cla := rfl
@[simp] theorem State.event_media (s : State) (f) : (s.event f).media = s.media := rfl
@[simp] theorem State.event_dbg (s : State) (f) : (s.event f).dbg = s.dbg := rfl
@[simp] theorem State.event_out (s : State) (f) : (s.event f).out = s.out := rfl
@[simp] theorem State.event_free (s : State) (f) : (s.event f).free = s.free := rfl

@[simp] theorem State.wrBit_pending (s : State) (f) (i) (b) : (s.wrBit f i b).pending = s.pending := rfl
@[simp] theorem State.wrBit_latches (s : State) (f) (i) (b) : (s.wrBit f i b).latches = s.latches := rfl
@[simp] theorem State.wrBit_staged (s : State) (f) (i) (b) : (s.wrBit f i b).staged = s.staged := rfl
@[simp] theorem State.wrBit_msix (s : State) (f) (i) (b) : (s.wrBit f i b).msix = s.msix := rfl
@[simp] theorem State.wrBit_mode (s : State) (f) (i) (b) : (s.wrBit f i b).mode = s.mode := rfl
@[simp] theorem State.wrBit_beat (s : State) (f) (i) (b) : (s.wrBit f i b).beat = s.beat := rfl
@[simp] theorem State.wrBit_queues (s : State) (f) (i) (b) : (s.wrBit f i b).queues = s.queues := rfl
@[simp] theorem State.wrBit_lists (s : State) (f) (i) (b) : (s.wrBit f i b).lists = s.lists := rfl
@[simp] theorem State.wrBit_sync (s : State) (f) (i) (b) : (s.wrBit f i b).sync = s.sync := rfl
@[simp] theorem State.wrBit_mem (s : State) (f) (i) (b) : (s.wrBit f i b).mem = s.mem := rfl
@[simp] theorem State.wrBit_arbs (s : State) (f) (i) (b) : (s.wrBit f i b).arbs = s.arbs := rfl
@[simp] theorem State.wrBit_link (s : State) (f) (i) (b) : (s.wrBit f i b).link = s.link := rfl
@[simp] theorem State.wrBit_screen (s : State) (f) (i) (b) : (s.wrBit f i b).screen = s.screen := rfl
@[simp] theorem State.wrBit_vscreen (s : State) (f) (i) (b) : (s.wrBit f i b).vscreen = s.vscreen := rfl
@[simp] theorem State.wrBit_shadows (s : State) (f) (i) (b) : (s.wrBit f i b).shadows = s.shadows := rfl
@[simp] theorem State.wrBit_votes (s : State) (f) (i) (b) : (s.wrBit f i b).votes = s.votes := rfl
@[simp] theorem State.wrBit_lateArbs (s : State) (f) (i) (b) : (s.wrBit f i b).lateArbs = s.lateArbs := rfl
@[simp] theorem State.wrBit_wheels (s : State) (f) (i) (b) : (s.wrBit f i b).wheels = s.wheels := rfl
@[simp] theorem State.wrBit_scrLog (s : State) (f) (i) (b) : (s.wrBit f i b).scrLog = s.scrLog := rfl
@[simp] theorem State.wrBit_qtn (s : State) (f) (i) (b) : (s.wrBit f i b).qtn = s.qtn := rfl
@[simp] theorem State.wrBit_jobs (s : State) (f) (i) (b) : (s.wrBit f i b).jobs = s.jobs := rfl
@[simp] theorem State.wrBit_steps (s : State) (f) (i) (b) : (s.wrBit f i b).steps = s.steps := rfl
@[simp] theorem State.wrBit_partSteps (s : State) (f) (i) (b) : (s.wrBit f i b).partSteps = s.partSteps := rfl
@[simp] theorem State.wrBit_wrote (s : State) (f) (i) (b) : (s.wrBit f i b).wrote = s.wrote := rfl
@[simp] theorem State.wrBit_raised (s : State) (f) (i) (b) : (s.wrBit f i b).raised = s.raised := rfl
@[simp] theorem State.wrBit_hang (s : State) (f) (i) (b) : (s.wrBit f i b).hang = s.hang := rfl
@[simp] theorem State.wrBit_pwr (s : State) (f) (i) (b) : (s.wrBit f i b).pwr = s.pwr := rfl
@[simp] theorem State.wrBit_bist (s : State) (f) (i) (b) : (s.wrBit f i b).bist = s.bist := rfl
@[simp] theorem State.wrBit_thm (s : State) (f) (i) (b) : (s.wrBit f i b).thm = s.thm := rfl
@[simp] theorem State.wrBit_evr (s : State) (f) (i) (b) : (s.wrBit f i b).evr = s.evr := rfl
@[simp] theorem State.wrBit_mram (s : State) (f) (i) (b) : (s.wrBit f i b).mram = s.mram := rfl
@[simp] theorem State.wrBit_cla (s : State) (f) (i) (b) : (s.wrBit f i b).cla = s.cla := rfl
@[simp] theorem State.wrBit_media (s : State) (f) (i) (b) : (s.wrBit f i b).media = s.media := rfl
@[simp] theorem State.wrBit_dbg (s : State) (f) (i) (b) : (s.wrBit f i b).dbg = s.dbg := rfl
@[simp] theorem State.wrBit_out (s : State) (f) (i) (b) : (s.wrBit f i b).out = s.out := rfl
@[simp] theorem State.wrBit_free (s : State) (f) (i) (b) : (s.wrBit f i b).free = s.free := rfl

@[simp] theorem State.count_pending (s : State) (f) (n) : (s.count f n).pending = s.pending := rfl
@[simp] theorem State.count_latches (s : State) (f) (n) : (s.count f n).latches = s.latches := rfl
@[simp] theorem State.count_staged (s : State) (f) (n) : (s.count f n).staged = s.staged := rfl
@[simp] theorem State.count_msix (s : State) (f) (n) : (s.count f n).msix = s.msix := rfl
@[simp] theorem State.count_mode (s : State) (f) (n) : (s.count f n).mode = s.mode := rfl
@[simp] theorem State.count_beat (s : State) (f) (n) : (s.count f n).beat = s.beat := rfl
@[simp] theorem State.count_queues (s : State) (f) (n) : (s.count f n).queues = s.queues := rfl
@[simp] theorem State.count_lists (s : State) (f) (n) : (s.count f n).lists = s.lists := rfl
@[simp] theorem State.count_sync (s : State) (f) (n) : (s.count f n).sync = s.sync := rfl
@[simp] theorem State.count_mem (s : State) (f) (n) : (s.count f n).mem = s.mem := rfl
@[simp] theorem State.count_arbs (s : State) (f) (n) : (s.count f n).arbs = s.arbs := rfl
@[simp] theorem State.count_link (s : State) (f) (n) : (s.count f n).link = s.link := rfl
@[simp] theorem State.count_screen (s : State) (f) (n) : (s.count f n).screen = s.screen := rfl
@[simp] theorem State.count_vscreen (s : State) (f) (n) : (s.count f n).vscreen = s.vscreen := rfl
@[simp] theorem State.count_shadows (s : State) (f) (n) : (s.count f n).shadows = s.shadows := rfl
@[simp] theorem State.count_votes (s : State) (f) (n) : (s.count f n).votes = s.votes := rfl
@[simp] theorem State.count_lateArbs (s : State) (f) (n) : (s.count f n).lateArbs = s.lateArbs := rfl
@[simp] theorem State.count_wheels (s : State) (f) (n) : (s.count f n).wheels = s.wheels := rfl
@[simp] theorem State.count_scrLog (s : State) (f) (n) : (s.count f n).scrLog = s.scrLog := rfl
@[simp] theorem State.count_qtn (s : State) (f) (n) : (s.count f n).qtn = s.qtn := rfl
@[simp] theorem State.count_jobs (s : State) (f) (n) : (s.count f n).jobs = s.jobs := rfl
@[simp] theorem State.count_steps (s : State) (f) (n) : (s.count f n).steps = s.steps := rfl
@[simp] theorem State.count_partSteps (s : State) (f) (n) : (s.count f n).partSteps = s.partSteps := rfl
@[simp] theorem State.count_wrote (s : State) (f) (n) : (s.count f n).wrote = s.wrote := rfl
@[simp] theorem State.count_raised (s : State) (f) (n) : (s.count f n).raised = s.raised := rfl
@[simp] theorem State.count_hang (s : State) (f) (n) : (s.count f n).hang = s.hang := rfl
@[simp] theorem State.count_pwr (s : State) (f) (n) : (s.count f n).pwr = s.pwr := rfl
@[simp] theorem State.count_bist (s : State) (f) (n) : (s.count f n).bist = s.bist := rfl
@[simp] theorem State.count_thm (s : State) (f) (n) : (s.count f n).thm = s.thm := rfl
@[simp] theorem State.count_evr (s : State) (f) (n) : (s.count f n).evr = s.evr := rfl
@[simp] theorem State.count_mram (s : State) (f) (n) : (s.count f n).mram = s.mram := rfl
@[simp] theorem State.count_cla (s : State) (f) (n) : (s.count f n).cla = s.cla := rfl
@[simp] theorem State.count_media (s : State) (f) (n) : (s.count f n).media = s.media := rfl
@[simp] theorem State.count_dbg (s : State) (f) (n) : (s.count f n).dbg = s.dbg := rfl
@[simp] theorem State.count_out (s : State) (f) (n) : (s.count f n).out = s.out := rfl
@[simp] theorem State.count_free (s : State) (f) (n) : (s.count f n).free = s.free := rfl

@[simp] theorem State.wr64_pending (s : State) (lo) (hi) (v) : (s.wr64 lo hi v).pending = s.pending := rfl
@[simp] theorem State.wr64_latches (s : State) (lo) (hi) (v) : (s.wr64 lo hi v).latches = s.latches := rfl
@[simp] theorem State.wr64_staged (s : State) (lo) (hi) (v) : (s.wr64 lo hi v).staged = s.staged := rfl
@[simp] theorem State.wr64_msix (s : State) (lo) (hi) (v) : (s.wr64 lo hi v).msix = s.msix := rfl
@[simp] theorem State.wr64_mode (s : State) (lo) (hi) (v) : (s.wr64 lo hi v).mode = s.mode := rfl
@[simp] theorem State.wr64_beat (s : State) (lo) (hi) (v) : (s.wr64 lo hi v).beat = s.beat := rfl
@[simp] theorem State.wr64_queues (s : State) (lo) (hi) (v) : (s.wr64 lo hi v).queues = s.queues := rfl
@[simp] theorem State.wr64_lists (s : State) (lo) (hi) (v) : (s.wr64 lo hi v).lists = s.lists := rfl
@[simp] theorem State.wr64_sync (s : State) (lo) (hi) (v) : (s.wr64 lo hi v).sync = s.sync := rfl
@[simp] theorem State.wr64_mem (s : State) (lo) (hi) (v) : (s.wr64 lo hi v).mem = s.mem := rfl
@[simp] theorem State.wr64_arbs (s : State) (lo) (hi) (v) : (s.wr64 lo hi v).arbs = s.arbs := rfl
@[simp] theorem State.wr64_link (s : State) (lo) (hi) (v) : (s.wr64 lo hi v).link = s.link := rfl
@[simp] theorem State.wr64_screen (s : State) (lo) (hi) (v) : (s.wr64 lo hi v).screen = s.screen := rfl
@[simp] theorem State.wr64_vscreen (s : State) (lo) (hi) (v) : (s.wr64 lo hi v).vscreen = s.vscreen := rfl
@[simp] theorem State.wr64_shadows (s : State) (lo) (hi) (v) : (s.wr64 lo hi v).shadows = s.shadows := rfl
@[simp] theorem State.wr64_votes (s : State) (lo) (hi) (v) : (s.wr64 lo hi v).votes = s.votes := rfl
@[simp] theorem State.wr64_lateArbs (s : State) (lo) (hi) (v) : (s.wr64 lo hi v).lateArbs = s.lateArbs := rfl
@[simp] theorem State.wr64_wheels (s : State) (lo) (hi) (v) : (s.wr64 lo hi v).wheels = s.wheels := rfl
@[simp] theorem State.wr64_scrLog (s : State) (lo) (hi) (v) : (s.wr64 lo hi v).scrLog = s.scrLog := rfl
@[simp] theorem State.wr64_qtn (s : State) (lo) (hi) (v) : (s.wr64 lo hi v).qtn = s.qtn := rfl
@[simp] theorem State.wr64_jobs (s : State) (lo) (hi) (v) : (s.wr64 lo hi v).jobs = s.jobs := rfl
@[simp] theorem State.wr64_steps (s : State) (lo) (hi) (v) : (s.wr64 lo hi v).steps = s.steps := rfl
@[simp] theorem State.wr64_partSteps (s : State) (lo) (hi) (v) : (s.wr64 lo hi v).partSteps = s.partSteps := rfl
@[simp] theorem State.wr64_wrote (s : State) (lo) (hi) (v) : (s.wr64 lo hi v).wrote = s.wrote := rfl
@[simp] theorem State.wr64_raised (s : State) (lo) (hi) (v) : (s.wr64 lo hi v).raised = s.raised := rfl
@[simp] theorem State.wr64_hang (s : State) (lo) (hi) (v) : (s.wr64 lo hi v).hang = s.hang := rfl
@[simp] theorem State.wr64_pwr (s : State) (lo) (hi) (v) : (s.wr64 lo hi v).pwr = s.pwr := rfl
@[simp] theorem State.wr64_bist (s : State) (lo) (hi) (v) : (s.wr64 lo hi v).bist = s.bist := rfl
@[simp] theorem State.wr64_thm (s : State) (lo) (hi) (v) : (s.wr64 lo hi v).thm = s.thm := rfl
@[simp] theorem State.wr64_evr (s : State) (lo) (hi) (v) : (s.wr64 lo hi v).evr = s.evr := rfl
@[simp] theorem State.wr64_mram (s : State) (lo) (hi) (v) : (s.wr64 lo hi v).mram = s.mram := rfl
@[simp] theorem State.wr64_cla (s : State) (lo) (hi) (v) : (s.wr64 lo hi v).cla = s.cla := rfl
@[simp] theorem State.wr64_media (s : State) (lo) (hi) (v) : (s.wr64 lo hi v).media = s.media := rfl
@[simp] theorem State.wr64_dbg (s : State) (lo) (hi) (v) : (s.wr64 lo hi v).dbg = s.dbg := rfl
@[simp] theorem State.wr64_out (s : State) (lo) (hi) (v) : (s.wr64 lo hi v).out = s.out := rfl
@[simp] theorem State.wr64_free (s : State) (lo) (hi) (v) : (s.wr64 lo hi v).free = s.free := rfl

@[simp] theorem State.resetRegs_pending (s : State) (p) : (s.resetRegs p).pending = s.pending := rfl
@[simp] theorem State.resetRegs_latches (s : State) (p) : (s.resetRegs p).latches = s.latches := rfl
@[simp] theorem State.resetRegs_staged (s : State) (p) : (s.resetRegs p).staged = s.staged := rfl
@[simp] theorem State.resetRegs_msix (s : State) (p) : (s.resetRegs p).msix = s.msix := rfl
@[simp] theorem State.resetRegs_mode (s : State) (p) : (s.resetRegs p).mode = s.mode := rfl
@[simp] theorem State.resetRegs_beat (s : State) (p) : (s.resetRegs p).beat = s.beat := rfl
@[simp] theorem State.resetRegs_queues (s : State) (p) : (s.resetRegs p).queues = s.queues := rfl
@[simp] theorem State.resetRegs_lists (s : State) (p) : (s.resetRegs p).lists = s.lists := rfl
@[simp] theorem State.resetRegs_sync (s : State) (p) : (s.resetRegs p).sync = s.sync := rfl
@[simp] theorem State.resetRegs_mem (s : State) (p) : (s.resetRegs p).mem = s.mem := rfl
@[simp] theorem State.resetRegs_arbs (s : State) (p) : (s.resetRegs p).arbs = s.arbs := rfl
@[simp] theorem State.resetRegs_link (s : State) (p) : (s.resetRegs p).link = s.link := rfl
@[simp] theorem State.resetRegs_screen (s : State) (p) : (s.resetRegs p).screen = s.screen := rfl
@[simp] theorem State.resetRegs_vscreen (s : State) (p) : (s.resetRegs p).vscreen = s.vscreen := rfl
@[simp] theorem State.resetRegs_shadows (s : State) (p) : (s.resetRegs p).shadows = s.shadows := rfl
@[simp] theorem State.resetRegs_votes (s : State) (p) : (s.resetRegs p).votes = s.votes := rfl
@[simp] theorem State.resetRegs_lateArbs (s : State) (p) : (s.resetRegs p).lateArbs = s.lateArbs := rfl
@[simp] theorem State.resetRegs_wheels (s : State) (p) : (s.resetRegs p).wheels = s.wheels := rfl
@[simp] theorem State.resetRegs_scrLog (s : State) (p) : (s.resetRegs p).scrLog = s.scrLog := rfl
@[simp] theorem State.resetRegs_qtn (s : State) (p) : (s.resetRegs p).qtn = s.qtn := rfl
@[simp] theorem State.resetRegs_jobs (s : State) (p) : (s.resetRegs p).jobs = s.jobs := rfl
@[simp] theorem State.resetRegs_steps (s : State) (p) : (s.resetRegs p).steps = s.steps := rfl
@[simp] theorem State.resetRegs_partSteps (s : State) (p) : (s.resetRegs p).partSteps = s.partSteps := rfl
@[simp] theorem State.resetRegs_wrote (s : State) (p) : (s.resetRegs p).wrote = s.wrote := rfl
@[simp] theorem State.resetRegs_raised (s : State) (p) : (s.resetRegs p).raised = s.raised := rfl
@[simp] theorem State.resetRegs_hang (s : State) (p) : (s.resetRegs p).hang = s.hang := rfl
@[simp] theorem State.resetRegs_pwr (s : State) (p) : (s.resetRegs p).pwr = s.pwr := rfl
@[simp] theorem State.resetRegs_bist (s : State) (p) : (s.resetRegs p).bist = s.bist := rfl
@[simp] theorem State.resetRegs_thm (s : State) (p) : (s.resetRegs p).thm = s.thm := rfl
@[simp] theorem State.resetRegs_evr (s : State) (p) : (s.resetRegs p).evr = s.evr := rfl
@[simp] theorem State.resetRegs_mram (s : State) (p) : (s.resetRegs p).mram = s.mram := rfl
@[simp] theorem State.resetRegs_cla (s : State) (p) : (s.resetRegs p).cla = s.cla := rfl
@[simp] theorem State.resetRegs_media (s : State) (p) : (s.resetRegs p).media = s.media := rfl
@[simp] theorem State.resetRegs_dbg (s : State) (p) : (s.resetRegs p).dbg = s.dbg := rfl
@[simp] theorem State.resetRegs_out (s : State) (p) : (s.resetRegs p).out = s.out := rfl
@[simp] theorem State.resetRegs_free (s : State) (p) : (s.resetRegs p).free = s.free := rfl

@[simp] theorem State.emit_pending (s : State) (o) : (s.emit o).pending = s.pending := rfl
@[simp] theorem State.emit_regs (s : State) (o) : (s.emit o).regs = s.regs := rfl
@[simp] theorem State.emit_latches (s : State) (o) : (s.emit o).latches = s.latches := rfl
@[simp] theorem State.emit_staged (s : State) (o) : (s.emit o).staged = s.staged := rfl
@[simp] theorem State.emit_msix (s : State) (o) : (s.emit o).msix = s.msix := rfl
@[simp] theorem State.emit_mode (s : State) (o) : (s.emit o).mode = s.mode := rfl
@[simp] theorem State.emit_beat (s : State) (o) : (s.emit o).beat = s.beat := rfl
@[simp] theorem State.emit_queues (s : State) (o) : (s.emit o).queues = s.queues := rfl
@[simp] theorem State.emit_lists (s : State) (o) : (s.emit o).lists = s.lists := rfl
@[simp] theorem State.emit_sync (s : State) (o) : (s.emit o).sync = s.sync := rfl
@[simp] theorem State.emit_mem (s : State) (o) : (s.emit o).mem = s.mem := rfl
@[simp] theorem State.emit_arbs (s : State) (o) : (s.emit o).arbs = s.arbs := rfl
@[simp] theorem State.emit_link (s : State) (o) : (s.emit o).link = s.link := rfl
@[simp] theorem State.emit_screen (s : State) (o) : (s.emit o).screen = s.screen := rfl
@[simp] theorem State.emit_vscreen (s : State) (o) : (s.emit o).vscreen = s.vscreen := rfl
@[simp] theorem State.emit_shadows (s : State) (o) : (s.emit o).shadows = s.shadows := rfl
@[simp] theorem State.emit_votes (s : State) (o) : (s.emit o).votes = s.votes := rfl
@[simp] theorem State.emit_lateArbs (s : State) (o) : (s.emit o).lateArbs = s.lateArbs := rfl
@[simp] theorem State.emit_wheels (s : State) (o) : (s.emit o).wheels = s.wheels := rfl
@[simp] theorem State.emit_scrLog (s : State) (o) : (s.emit o).scrLog = s.scrLog := rfl
@[simp] theorem State.emit_qtn (s : State) (o) : (s.emit o).qtn = s.qtn := rfl
@[simp] theorem State.emit_jobs (s : State) (o) : (s.emit o).jobs = s.jobs := rfl
@[simp] theorem State.emit_steps (s : State) (o) : (s.emit o).steps = s.steps := rfl
@[simp] theorem State.emit_partSteps (s : State) (o) : (s.emit o).partSteps = s.partSteps := rfl
@[simp] theorem State.emit_wrote (s : State) (o) : (s.emit o).wrote = s.wrote := rfl
@[simp] theorem State.emit_raised (s : State) (o) : (s.emit o).raised = s.raised := rfl
@[simp] theorem State.emit_hang (s : State) (o) : (s.emit o).hang = s.hang := rfl
@[simp] theorem State.emit_pwr (s : State) (o) : (s.emit o).pwr = s.pwr := rfl
@[simp] theorem State.emit_bist (s : State) (o) : (s.emit o).bist = s.bist := rfl
@[simp] theorem State.emit_thm (s : State) (o) : (s.emit o).thm = s.thm := rfl
@[simp] theorem State.emit_evr (s : State) (o) : (s.emit o).evr = s.evr := rfl
@[simp] theorem State.emit_mram (s : State) (o) : (s.emit o).mram = s.mram := rfl
@[simp] theorem State.emit_cla (s : State) (o) : (s.emit o).cla = s.cla := rfl
@[simp] theorem State.emit_media (s : State) (o) : (s.emit o).media = s.media := rfl
@[simp] theorem State.emit_dbg (s : State) (o) : (s.emit o).dbg = s.dbg := rfl
@[simp] theorem State.emit_free (s : State) (o) : (s.emit o).free = s.free := rfl

@[simp] theorem State.setQueue_pending (s : State) (q) (x) : (s.setQueue q x).pending = s.pending := rfl
@[simp] theorem State.setQueue_regs (s : State) (q) (x) : (s.setQueue q x).regs = s.regs := rfl
@[simp] theorem State.setQueue_latches (s : State) (q) (x) : (s.setQueue q x).latches = s.latches := rfl
@[simp] theorem State.setQueue_staged (s : State) (q) (x) : (s.setQueue q x).staged = s.staged := rfl
@[simp] theorem State.setQueue_msix (s : State) (q) (x) : (s.setQueue q x).msix = s.msix := rfl
@[simp] theorem State.setQueue_mode (s : State) (q) (x) : (s.setQueue q x).mode = s.mode := rfl
@[simp] theorem State.setQueue_beat (s : State) (q) (x) : (s.setQueue q x).beat = s.beat := rfl
@[simp] theorem State.setQueue_lists (s : State) (q) (x) : (s.setQueue q x).lists = s.lists := rfl
@[simp] theorem State.setQueue_sync (s : State) (q) (x) : (s.setQueue q x).sync = s.sync := rfl
@[simp] theorem State.setQueue_mem (s : State) (q) (x) : (s.setQueue q x).mem = s.mem := rfl
@[simp] theorem State.setQueue_arbs (s : State) (q) (x) : (s.setQueue q x).arbs = s.arbs := rfl
@[simp] theorem State.setQueue_link (s : State) (q) (x) : (s.setQueue q x).link = s.link := rfl
@[simp] theorem State.setQueue_screen (s : State) (q) (x) : (s.setQueue q x).screen = s.screen := rfl
@[simp] theorem State.setQueue_vscreen (s : State) (q) (x) : (s.setQueue q x).vscreen = s.vscreen := rfl
@[simp] theorem State.setQueue_shadows (s : State) (q) (x) : (s.setQueue q x).shadows = s.shadows := rfl
@[simp] theorem State.setQueue_votes (s : State) (q) (x) : (s.setQueue q x).votes = s.votes := rfl
@[simp] theorem State.setQueue_lateArbs (s : State) (q) (x) : (s.setQueue q x).lateArbs = s.lateArbs := rfl
@[simp] theorem State.setQueue_wheels (s : State) (q) (x) : (s.setQueue q x).wheels = s.wheels := rfl
@[simp] theorem State.setQueue_scrLog (s : State) (q) (x) : (s.setQueue q x).scrLog = s.scrLog := rfl
@[simp] theorem State.setQueue_qtn (s : State) (q) (x) : (s.setQueue q x).qtn = s.qtn := rfl
@[simp] theorem State.setQueue_jobs (s : State) (q) (x) : (s.setQueue q x).jobs = s.jobs := rfl
@[simp] theorem State.setQueue_steps (s : State) (q) (x) : (s.setQueue q x).steps = s.steps := rfl
@[simp] theorem State.setQueue_partSteps (s : State) (q) (x) : (s.setQueue q x).partSteps = s.partSteps := rfl
@[simp] theorem State.setQueue_wrote (s : State) (q) (x) : (s.setQueue q x).wrote = s.wrote := rfl
@[simp] theorem State.setQueue_raised (s : State) (q) (x) : (s.setQueue q x).raised = s.raised := rfl
@[simp] theorem State.setQueue_hang (s : State) (q) (x) : (s.setQueue q x).hang = s.hang := rfl
@[simp] theorem State.setQueue_pwr (s : State) (q) (x) : (s.setQueue q x).pwr = s.pwr := rfl
@[simp] theorem State.setQueue_bist (s : State) (q) (x) : (s.setQueue q x).bist = s.bist := rfl
@[simp] theorem State.setQueue_thm (s : State) (q) (x) : (s.setQueue q x).thm = s.thm := rfl
@[simp] theorem State.setQueue_evr (s : State) (q) (x) : (s.setQueue q x).evr = s.evr := rfl
@[simp] theorem State.setQueue_mram (s : State) (q) (x) : (s.setQueue q x).mram = s.mram := rfl
@[simp] theorem State.setQueue_cla (s : State) (q) (x) : (s.setQueue q x).cla = s.cla := rfl
@[simp] theorem State.setQueue_media (s : State) (q) (x) : (s.setQueue q x).media = s.media := rfl
@[simp] theorem State.setQueue_dbg (s : State) (q) (x) : (s.setQueue q x).dbg = s.dbg := rfl
@[simp] theorem State.setQueue_out (s : State) (q) (x) : (s.setQueue q x).out = s.out := rfl
@[simp] theorem State.setQueue_free (s : State) (q) (x) : (s.setQueue q x).free = s.free := rfl

@[simp] theorem State.setJob_pending (s : State) (p) (e) (x) : (s.setJob p e x).pending = s.pending := rfl
@[simp] theorem State.setJob_regs (s : State) (p) (e) (x) : (s.setJob p e x).regs = s.regs := rfl
@[simp] theorem State.setJob_latches (s : State) (p) (e) (x) : (s.setJob p e x).latches = s.latches := rfl
@[simp] theorem State.setJob_staged (s : State) (p) (e) (x) : (s.setJob p e x).staged = s.staged := rfl
@[simp] theorem State.setJob_msix (s : State) (p) (e) (x) : (s.setJob p e x).msix = s.msix := rfl
@[simp] theorem State.setJob_mode (s : State) (p) (e) (x) : (s.setJob p e x).mode = s.mode := rfl
@[simp] theorem State.setJob_beat (s : State) (p) (e) (x) : (s.setJob p e x).beat = s.beat := rfl
@[simp] theorem State.setJob_queues (s : State) (p) (e) (x) : (s.setJob p e x).queues = s.queues := rfl
@[simp] theorem State.setJob_lists (s : State) (p) (e) (x) : (s.setJob p e x).lists = s.lists := rfl
@[simp] theorem State.setJob_sync (s : State) (p) (e) (x) : (s.setJob p e x).sync = s.sync := rfl
@[simp] theorem State.setJob_mem (s : State) (p) (e) (x) : (s.setJob p e x).mem = s.mem := rfl
@[simp] theorem State.setJob_arbs (s : State) (p) (e) (x) : (s.setJob p e x).arbs = s.arbs := rfl
@[simp] theorem State.setJob_link (s : State) (p) (e) (x) : (s.setJob p e x).link = s.link := rfl
@[simp] theorem State.setJob_screen (s : State) (p) (e) (x) : (s.setJob p e x).screen = s.screen := rfl
@[simp] theorem State.setJob_vscreen (s : State) (p) (e) (x) : (s.setJob p e x).vscreen = s.vscreen := rfl
@[simp] theorem State.setJob_shadows (s : State) (p) (e) (x) : (s.setJob p e x).shadows = s.shadows := rfl
@[simp] theorem State.setJob_votes (s : State) (p) (e) (x) : (s.setJob p e x).votes = s.votes := rfl
@[simp] theorem State.setJob_lateArbs (s : State) (p) (e) (x) : (s.setJob p e x).lateArbs = s.lateArbs := rfl
@[simp] theorem State.setJob_wheels (s : State) (p) (e) (x) : (s.setJob p e x).wheels = s.wheels := rfl
@[simp] theorem State.setJob_scrLog (s : State) (p) (e) (x) : (s.setJob p e x).scrLog = s.scrLog := rfl
@[simp] theorem State.setJob_qtn (s : State) (p) (e) (x) : (s.setJob p e x).qtn = s.qtn := rfl
@[simp] theorem State.setJob_steps (s : State) (p) (e) (x) : (s.setJob p e x).steps = s.steps := rfl
@[simp] theorem State.setJob_partSteps (s : State) (p) (e) (x) : (s.setJob p e x).partSteps = s.partSteps := rfl
@[simp] theorem State.setJob_wrote (s : State) (p) (e) (x) : (s.setJob p e x).wrote = s.wrote := rfl
@[simp] theorem State.setJob_raised (s : State) (p) (e) (x) : (s.setJob p e x).raised = s.raised := rfl
@[simp] theorem State.setJob_hang (s : State) (p) (e) (x) : (s.setJob p e x).hang = s.hang := rfl
@[simp] theorem State.setJob_pwr (s : State) (p) (e) (x) : (s.setJob p e x).pwr = s.pwr := rfl
@[simp] theorem State.setJob_bist (s : State) (p) (e) (x) : (s.setJob p e x).bist = s.bist := rfl
@[simp] theorem State.setJob_thm (s : State) (p) (e) (x) : (s.setJob p e x).thm = s.thm := rfl
@[simp] theorem State.setJob_evr (s : State) (p) (e) (x) : (s.setJob p e x).evr = s.evr := rfl
@[simp] theorem State.setJob_mram (s : State) (p) (e) (x) : (s.setJob p e x).mram = s.mram := rfl
@[simp] theorem State.setJob_cla (s : State) (p) (e) (x) : (s.setJob p e x).cla = s.cla := rfl
@[simp] theorem State.setJob_media (s : State) (p) (e) (x) : (s.setJob p e x).media = s.media := rfl
@[simp] theorem State.setJob_dbg (s : State) (p) (e) (x) : (s.setJob p e x).dbg = s.dbg := rfl
@[simp] theorem State.setJob_out (s : State) (p) (e) (x) : (s.setJob p e x).out = s.out := rfl
@[simp] theorem State.setJob_free (s : State) (p) (e) (x) : (s.setJob p e x).free = s.free := rfl

@[simp] theorem State.setWheel_pending (s : State) (p) (x) : (s.setWheel p x).pending = s.pending := rfl
@[simp] theorem State.setWheel_regs (s : State) (p) (x) : (s.setWheel p x).regs = s.regs := rfl
@[simp] theorem State.setWheel_latches (s : State) (p) (x) : (s.setWheel p x).latches = s.latches := rfl
@[simp] theorem State.setWheel_staged (s : State) (p) (x) : (s.setWheel p x).staged = s.staged := rfl
@[simp] theorem State.setWheel_msix (s : State) (p) (x) : (s.setWheel p x).msix = s.msix := rfl
@[simp] theorem State.setWheel_mode (s : State) (p) (x) : (s.setWheel p x).mode = s.mode := rfl
@[simp] theorem State.setWheel_beat (s : State) (p) (x) : (s.setWheel p x).beat = s.beat := rfl
@[simp] theorem State.setWheel_queues (s : State) (p) (x) : (s.setWheel p x).queues = s.queues := rfl
@[simp] theorem State.setWheel_lists (s : State) (p) (x) : (s.setWheel p x).lists = s.lists := rfl
@[simp] theorem State.setWheel_sync (s : State) (p) (x) : (s.setWheel p x).sync = s.sync := rfl
@[simp] theorem State.setWheel_mem (s : State) (p) (x) : (s.setWheel p x).mem = s.mem := rfl
@[simp] theorem State.setWheel_arbs (s : State) (p) (x) : (s.setWheel p x).arbs = s.arbs := rfl
@[simp] theorem State.setWheel_link (s : State) (p) (x) : (s.setWheel p x).link = s.link := rfl
@[simp] theorem State.setWheel_screen (s : State) (p) (x) : (s.setWheel p x).screen = s.screen := rfl
@[simp] theorem State.setWheel_vscreen (s : State) (p) (x) : (s.setWheel p x).vscreen = s.vscreen := rfl
@[simp] theorem State.setWheel_shadows (s : State) (p) (x) : (s.setWheel p x).shadows = s.shadows := rfl
@[simp] theorem State.setWheel_votes (s : State) (p) (x) : (s.setWheel p x).votes = s.votes := rfl
@[simp] theorem State.setWheel_lateArbs (s : State) (p) (x) : (s.setWheel p x).lateArbs = s.lateArbs := rfl
@[simp] theorem State.setWheel_scrLog (s : State) (p) (x) : (s.setWheel p x).scrLog = s.scrLog := rfl
@[simp] theorem State.setWheel_qtn (s : State) (p) (x) : (s.setWheel p x).qtn = s.qtn := rfl
@[simp] theorem State.setWheel_jobs (s : State) (p) (x) : (s.setWheel p x).jobs = s.jobs := rfl
@[simp] theorem State.setWheel_steps (s : State) (p) (x) : (s.setWheel p x).steps = s.steps := rfl
@[simp] theorem State.setWheel_partSteps (s : State) (p) (x) : (s.setWheel p x).partSteps = s.partSteps := rfl
@[simp] theorem State.setWheel_wrote (s : State) (p) (x) : (s.setWheel p x).wrote = s.wrote := rfl
@[simp] theorem State.setWheel_raised (s : State) (p) (x) : (s.setWheel p x).raised = s.raised := rfl
@[simp] theorem State.setWheel_hang (s : State) (p) (x) : (s.setWheel p x).hang = s.hang := rfl
@[simp] theorem State.setWheel_pwr (s : State) (p) (x) : (s.setWheel p x).pwr = s.pwr := rfl
@[simp] theorem State.setWheel_bist (s : State) (p) (x) : (s.setWheel p x).bist = s.bist := rfl
@[simp] theorem State.setWheel_thm (s : State) (p) (x) : (s.setWheel p x).thm = s.thm := rfl
@[simp] theorem State.setWheel_evr (s : State) (p) (x) : (s.setWheel p x).evr = s.evr := rfl
@[simp] theorem State.setWheel_mram (s : State) (p) (x) : (s.setWheel p x).mram = s.mram := rfl
@[simp] theorem State.setWheel_cla (s : State) (p) (x) : (s.setWheel p x).cla = s.cla := rfl
@[simp] theorem State.setWheel_media (s : State) (p) (x) : (s.setWheel p x).media = s.media := rfl
@[simp] theorem State.setWheel_dbg (s : State) (p) (x) : (s.setWheel p x).dbg = s.dbg := rfl
@[simp] theorem State.setWheel_out (s : State) (p) (x) : (s.setWheel p x).out = s.out := rfl
@[simp] theorem State.setWheel_free (s : State) (p) (x) : (s.setWheel p x).free = s.free := rfl

@[simp] theorem State.setCore_pending (s : State) (n) (x) : (s.setCore n x).pending = s.pending := rfl
@[simp] theorem State.setCore_regs (s : State) (n) (x) : (s.setCore n x).regs = s.regs := rfl
@[simp] theorem State.setCore_latches (s : State) (n) (x) : (s.setCore n x).latches = s.latches := rfl
@[simp] theorem State.setCore_staged (s : State) (n) (x) : (s.setCore n x).staged = s.staged := rfl
@[simp] theorem State.setCore_msix (s : State) (n) (x) : (s.setCore n x).msix = s.msix := rfl
@[simp] theorem State.setCore_mode (s : State) (n) (x) : (s.setCore n x).mode = s.mode := rfl
@[simp] theorem State.setCore_beat (s : State) (n) (x) : (s.setCore n x).beat = s.beat := rfl
@[simp] theorem State.setCore_queues (s : State) (n) (x) : (s.setCore n x).queues = s.queues := rfl
@[simp] theorem State.setCore_lists (s : State) (n) (x) : (s.setCore n x).lists = s.lists := rfl
@[simp] theorem State.setCore_sync (s : State) (n) (x) : (s.setCore n x).sync = s.sync := rfl
@[simp] theorem State.setCore_mem (s : State) (n) (x) : (s.setCore n x).mem = s.mem := rfl
@[simp] theorem State.setCore_arbs (s : State) (n) (x) : (s.setCore n x).arbs = s.arbs := rfl
@[simp] theorem State.setCore_link (s : State) (n) (x) : (s.setCore n x).link = s.link := rfl
@[simp] theorem State.setCore_screen (s : State) (n) (x) : (s.setCore n x).screen = s.screen := rfl
@[simp] theorem State.setCore_vscreen (s : State) (n) (x) : (s.setCore n x).vscreen = s.vscreen := rfl
@[simp] theorem State.setCore_shadows (s : State) (n) (x) : (s.setCore n x).shadows = s.shadows := rfl
@[simp] theorem State.setCore_votes (s : State) (n) (x) : (s.setCore n x).votes = s.votes := rfl
@[simp] theorem State.setCore_lateArbs (s : State) (n) (x) : (s.setCore n x).lateArbs = s.lateArbs := rfl
@[simp] theorem State.setCore_wheels (s : State) (n) (x) : (s.setCore n x).wheels = s.wheels := rfl
@[simp] theorem State.setCore_scrLog (s : State) (n) (x) : (s.setCore n x).scrLog = s.scrLog := rfl
@[simp] theorem State.setCore_qtn (s : State) (n) (x) : (s.setCore n x).qtn = s.qtn := rfl
@[simp] theorem State.setCore_jobs (s : State) (n) (x) : (s.setCore n x).jobs = s.jobs := rfl
@[simp] theorem State.setCore_steps (s : State) (n) (x) : (s.setCore n x).steps = s.steps := rfl
@[simp] theorem State.setCore_partSteps (s : State) (n) (x) : (s.setCore n x).partSteps = s.partSteps := rfl
@[simp] theorem State.setCore_wrote (s : State) (n) (x) : (s.setCore n x).wrote = s.wrote := rfl
@[simp] theorem State.setCore_raised (s : State) (n) (x) : (s.setCore n x).raised = s.raised := rfl
@[simp] theorem State.setCore_pwr (s : State) (n) (x) : (s.setCore n x).pwr = s.pwr := rfl
@[simp] theorem State.setCore_bist (s : State) (n) (x) : (s.setCore n x).bist = s.bist := rfl
@[simp] theorem State.setCore_thm (s : State) (n) (x) : (s.setCore n x).thm = s.thm := rfl
@[simp] theorem State.setCore_evr (s : State) (n) (x) : (s.setCore n x).evr = s.evr := rfl
@[simp] theorem State.setCore_mram (s : State) (n) (x) : (s.setCore n x).mram = s.mram := rfl
@[simp] theorem State.setCore_cla (s : State) (n) (x) : (s.setCore n x).cla = s.cla := rfl
@[simp] theorem State.setCore_media (s : State) (n) (x) : (s.setCore n x).media = s.media := rfl
@[simp] theorem State.setCore_dbg (s : State) (n) (x) : (s.setCore n x).dbg = s.dbg := rfl
@[simp] theorem State.setCore_out (s : State) (n) (x) : (s.setCore n x).out = s.out := rfl
@[simp] theorem State.setCore_free (s : State) (n) (x) : (s.setCore n x).free = s.free := rfl

@[simp] theorem State.setSync_pending (s : State) (p) (n) (v) : (s.setSync p n v).pending = s.pending := rfl
@[simp] theorem State.setSync_regs (s : State) (p) (n) (v) : (s.setSync p n v).regs = s.regs := rfl
@[simp] theorem State.setSync_latches (s : State) (p) (n) (v) : (s.setSync p n v).latches = s.latches := rfl
@[simp] theorem State.setSync_staged (s : State) (p) (n) (v) : (s.setSync p n v).staged = s.staged := rfl
@[simp] theorem State.setSync_msix (s : State) (p) (n) (v) : (s.setSync p n v).msix = s.msix := rfl
@[simp] theorem State.setSync_mode (s : State) (p) (n) (v) : (s.setSync p n v).mode = s.mode := rfl
@[simp] theorem State.setSync_beat (s : State) (p) (n) (v) : (s.setSync p n v).beat = s.beat := rfl
@[simp] theorem State.setSync_queues (s : State) (p) (n) (v) : (s.setSync p n v).queues = s.queues := rfl
@[simp] theorem State.setSync_lists (s : State) (p) (n) (v) : (s.setSync p n v).lists = s.lists := rfl
@[simp] theorem State.setSync_mem (s : State) (p) (n) (v) : (s.setSync p n v).mem = s.mem := rfl
@[simp] theorem State.setSync_arbs (s : State) (p) (n) (v) : (s.setSync p n v).arbs = s.arbs := rfl
@[simp] theorem State.setSync_link (s : State) (p) (n) (v) : (s.setSync p n v).link = s.link := rfl
@[simp] theorem State.setSync_screen (s : State) (p) (n) (v) : (s.setSync p n v).screen = s.screen := rfl
@[simp] theorem State.setSync_vscreen (s : State) (p) (n) (v) : (s.setSync p n v).vscreen = s.vscreen := rfl
@[simp] theorem State.setSync_shadows (s : State) (p) (n) (v) : (s.setSync p n v).shadows = s.shadows := rfl
@[simp] theorem State.setSync_votes (s : State) (p) (n) (v) : (s.setSync p n v).votes = s.votes := rfl
@[simp] theorem State.setSync_lateArbs (s : State) (p) (n) (v) : (s.setSync p n v).lateArbs = s.lateArbs := rfl
@[simp] theorem State.setSync_wheels (s : State) (p) (n) (v) : (s.setSync p n v).wheels = s.wheels := rfl
@[simp] theorem State.setSync_scrLog (s : State) (p) (n) (v) : (s.setSync p n v).scrLog = s.scrLog := rfl
@[simp] theorem State.setSync_qtn (s : State) (p) (n) (v) : (s.setSync p n v).qtn = s.qtn := rfl
@[simp] theorem State.setSync_jobs (s : State) (p) (n) (v) : (s.setSync p n v).jobs = s.jobs := rfl
@[simp] theorem State.setSync_steps (s : State) (p) (n) (v) : (s.setSync p n v).steps = s.steps := rfl
@[simp] theorem State.setSync_partSteps (s : State) (p) (n) (v) : (s.setSync p n v).partSteps = s.partSteps := rfl
@[simp] theorem State.setSync_wrote (s : State) (p) (n) (v) : (s.setSync p n v).wrote = s.wrote := rfl
@[simp] theorem State.setSync_raised (s : State) (p) (n) (v) : (s.setSync p n v).raised = s.raised := rfl
@[simp] theorem State.setSync_hang (s : State) (p) (n) (v) : (s.setSync p n v).hang = s.hang := rfl
@[simp] theorem State.setSync_pwr (s : State) (p) (n) (v) : (s.setSync p n v).pwr = s.pwr := rfl
@[simp] theorem State.setSync_bist (s : State) (p) (n) (v) : (s.setSync p n v).bist = s.bist := rfl
@[simp] theorem State.setSync_thm (s : State) (p) (n) (v) : (s.setSync p n v).thm = s.thm := rfl
@[simp] theorem State.setSync_evr (s : State) (p) (n) (v) : (s.setSync p n v).evr = s.evr := rfl
@[simp] theorem State.setSync_mram (s : State) (p) (n) (v) : (s.setSync p n v).mram = s.mram := rfl
@[simp] theorem State.setSync_cla (s : State) (p) (n) (v) : (s.setSync p n v).cla = s.cla := rfl
@[simp] theorem State.setSync_media (s : State) (p) (n) (v) : (s.setSync p n v).media = s.media := rfl
@[simp] theorem State.setSync_dbg (s : State) (p) (n) (v) : (s.setSync p n v).dbg = s.dbg := rfl
@[simp] theorem State.setSync_out (s : State) (p) (n) (v) : (s.setSync p n v).out = s.out := rfl
@[simp] theorem State.setSync_free (s : State) (p) (n) (v) : (s.setSync p n v).free = s.free := rfl

@[simp] theorem State.setConn_pending (s : State) (n) (c) : (s.setConn n c).pending = s.pending := rfl
@[simp] theorem State.setConn_regs (s : State) (n) (c) : (s.setConn n c).regs = s.regs := rfl
@[simp] theorem State.setConn_latches (s : State) (n) (c) : (s.setConn n c).latches = s.latches := rfl
@[simp] theorem State.setConn_staged (s : State) (n) (c) : (s.setConn n c).staged = s.staged := rfl
@[simp] theorem State.setConn_msix (s : State) (n) (c) : (s.setConn n c).msix = s.msix := rfl
@[simp] theorem State.setConn_mode (s : State) (n) (c) : (s.setConn n c).mode = s.mode := rfl
@[simp] theorem State.setConn_beat (s : State) (n) (c) : (s.setConn n c).beat = s.beat := rfl
@[simp] theorem State.setConn_queues (s : State) (n) (c) : (s.setConn n c).queues = s.queues := rfl
@[simp] theorem State.setConn_lists (s : State) (n) (c) : (s.setConn n c).lists = s.lists := rfl
@[simp] theorem State.setConn_sync (s : State) (n) (c) : (s.setConn n c).sync = s.sync := rfl
@[simp] theorem State.setConn_mem (s : State) (n) (c) : (s.setConn n c).mem = s.mem := rfl
@[simp] theorem State.setConn_arbs (s : State) (n) (c) : (s.setConn n c).arbs = s.arbs := rfl
@[simp] theorem State.setConn_screen (s : State) (n) (c) : (s.setConn n c).screen = s.screen := rfl
@[simp] theorem State.setConn_vscreen (s : State) (n) (c) : (s.setConn n c).vscreen = s.vscreen := rfl
@[simp] theorem State.setConn_shadows (s : State) (n) (c) : (s.setConn n c).shadows = s.shadows := rfl
@[simp] theorem State.setConn_votes (s : State) (n) (c) : (s.setConn n c).votes = s.votes := rfl
@[simp] theorem State.setConn_lateArbs (s : State) (n) (c) : (s.setConn n c).lateArbs = s.lateArbs := rfl
@[simp] theorem State.setConn_wheels (s : State) (n) (c) : (s.setConn n c).wheels = s.wheels := rfl
@[simp] theorem State.setConn_scrLog (s : State) (n) (c) : (s.setConn n c).scrLog = s.scrLog := rfl
@[simp] theorem State.setConn_qtn (s : State) (n) (c) : (s.setConn n c).qtn = s.qtn := rfl
@[simp] theorem State.setConn_jobs (s : State) (n) (c) : (s.setConn n c).jobs = s.jobs := rfl
@[simp] theorem State.setConn_steps (s : State) (n) (c) : (s.setConn n c).steps = s.steps := rfl
@[simp] theorem State.setConn_partSteps (s : State) (n) (c) : (s.setConn n c).partSteps = s.partSteps := rfl
@[simp] theorem State.setConn_wrote (s : State) (n) (c) : (s.setConn n c).wrote = s.wrote := rfl
@[simp] theorem State.setConn_raised (s : State) (n) (c) : (s.setConn n c).raised = s.raised := rfl
@[simp] theorem State.setConn_hang (s : State) (n) (c) : (s.setConn n c).hang = s.hang := rfl
@[simp] theorem State.setConn_pwr (s : State) (n) (c) : (s.setConn n c).pwr = s.pwr := rfl
@[simp] theorem State.setConn_bist (s : State) (n) (c) : (s.setConn n c).bist = s.bist := rfl
@[simp] theorem State.setConn_thm (s : State) (n) (c) : (s.setConn n c).thm = s.thm := rfl
@[simp] theorem State.setConn_evr (s : State) (n) (c) : (s.setConn n c).evr = s.evr := rfl
@[simp] theorem State.setConn_mram (s : State) (n) (c) : (s.setConn n c).mram = s.mram := rfl
@[simp] theorem State.setConn_cla (s : State) (n) (c) : (s.setConn n c).cla = s.cla := rfl
@[simp] theorem State.setConn_media (s : State) (n) (c) : (s.setConn n c).media = s.media := rfl
@[simp] theorem State.setConn_dbg (s : State) (n) (c) : (s.setConn n c).dbg = s.dbg := rfl
@[simp] theorem State.setConn_out (s : State) (n) (c) : (s.setConn n c).out = s.out := rfl
@[simp] theorem State.setConn_free (s : State) (n) (c) : (s.setConn n c).free = s.free := rfl

@[simp] theorem State.setSess_pending (s : State) (n) (x) : (s.setSess n x).pending = s.pending := rfl
@[simp] theorem State.setSess_regs (s : State) (n) (x) : (s.setSess n x).regs = s.regs := rfl
@[simp] theorem State.setSess_latches (s : State) (n) (x) : (s.setSess n x).latches = s.latches := rfl
@[simp] theorem State.setSess_staged (s : State) (n) (x) : (s.setSess n x).staged = s.staged := rfl
@[simp] theorem State.setSess_msix (s : State) (n) (x) : (s.setSess n x).msix = s.msix := rfl
@[simp] theorem State.setSess_mode (s : State) (n) (x) : (s.setSess n x).mode = s.mode := rfl
@[simp] theorem State.setSess_beat (s : State) (n) (x) : (s.setSess n x).beat = s.beat := rfl
@[simp] theorem State.setSess_queues (s : State) (n) (x) : (s.setSess n x).queues = s.queues := rfl
@[simp] theorem State.setSess_lists (s : State) (n) (x) : (s.setSess n x).lists = s.lists := rfl
@[simp] theorem State.setSess_sync (s : State) (n) (x) : (s.setSess n x).sync = s.sync := rfl
@[simp] theorem State.setSess_mem (s : State) (n) (x) : (s.setSess n x).mem = s.mem := rfl
@[simp] theorem State.setSess_arbs (s : State) (n) (x) : (s.setSess n x).arbs = s.arbs := rfl
@[simp] theorem State.setSess_link (s : State) (n) (x) : (s.setSess n x).link = s.link := rfl
@[simp] theorem State.setSess_screen (s : State) (n) (x) : (s.setSess n x).screen = s.screen := rfl
@[simp] theorem State.setSess_vscreen (s : State) (n) (x) : (s.setSess n x).vscreen = s.vscreen := rfl
@[simp] theorem State.setSess_shadows (s : State) (n) (x) : (s.setSess n x).shadows = s.shadows := rfl
@[simp] theorem State.setSess_votes (s : State) (n) (x) : (s.setSess n x).votes = s.votes := rfl
@[simp] theorem State.setSess_lateArbs (s : State) (n) (x) : (s.setSess n x).lateArbs = s.lateArbs := rfl
@[simp] theorem State.setSess_wheels (s : State) (n) (x) : (s.setSess n x).wheels = s.wheels := rfl
@[simp] theorem State.setSess_scrLog (s : State) (n) (x) : (s.setSess n x).scrLog = s.scrLog := rfl
@[simp] theorem State.setSess_qtn (s : State) (n) (x) : (s.setSess n x).qtn = s.qtn := rfl
@[simp] theorem State.setSess_jobs (s : State) (n) (x) : (s.setSess n x).jobs = s.jobs := rfl
@[simp] theorem State.setSess_steps (s : State) (n) (x) : (s.setSess n x).steps = s.steps := rfl
@[simp] theorem State.setSess_partSteps (s : State) (n) (x) : (s.setSess n x).partSteps = s.partSteps := rfl
@[simp] theorem State.setSess_wrote (s : State) (n) (x) : (s.setSess n x).wrote = s.wrote := rfl
@[simp] theorem State.setSess_raised (s : State) (n) (x) : (s.setSess n x).raised = s.raised := rfl
@[simp] theorem State.setSess_hang (s : State) (n) (x) : (s.setSess n x).hang = s.hang := rfl
@[simp] theorem State.setSess_pwr (s : State) (n) (x) : (s.setSess n x).pwr = s.pwr := rfl
@[simp] theorem State.setSess_bist (s : State) (n) (x) : (s.setSess n x).bist = s.bist := rfl
@[simp] theorem State.setSess_thm (s : State) (n) (x) : (s.setSess n x).thm = s.thm := rfl
@[simp] theorem State.setSess_evr (s : State) (n) (x) : (s.setSess n x).evr = s.evr := rfl
@[simp] theorem State.setSess_mram (s : State) (n) (x) : (s.setSess n x).mram = s.mram := rfl
@[simp] theorem State.setSess_cla (s : State) (n) (x) : (s.setSess n x).cla = s.cla := rfl
@[simp] theorem State.setSess_dbg (s : State) (n) (x) : (s.setSess n x).dbg = s.dbg := rfl
@[simp] theorem State.setSess_out (s : State) (n) (x) : (s.setSess n x).out = s.out := rfl
@[simp] theorem State.setSess_free (s : State) (n) (x) : (s.setSess n x).free = s.free := rfl

@[simp] theorem State.setTraceCh_pending (s : State) (p) (c) (x) : (s.setTraceCh p c x).pending = s.pending := rfl
@[simp] theorem State.setTraceCh_regs (s : State) (p) (c) (x) : (s.setTraceCh p c x).regs = s.regs := rfl
@[simp] theorem State.setTraceCh_latches (s : State) (p) (c) (x) : (s.setTraceCh p c x).latches = s.latches := rfl
@[simp] theorem State.setTraceCh_staged (s : State) (p) (c) (x) : (s.setTraceCh p c x).staged = s.staged := rfl
@[simp] theorem State.setTraceCh_msix (s : State) (p) (c) (x) : (s.setTraceCh p c x).msix = s.msix := rfl
@[simp] theorem State.setTraceCh_mode (s : State) (p) (c) (x) : (s.setTraceCh p c x).mode = s.mode := rfl
@[simp] theorem State.setTraceCh_beat (s : State) (p) (c) (x) : (s.setTraceCh p c x).beat = s.beat := rfl
@[simp] theorem State.setTraceCh_queues (s : State) (p) (c) (x) : (s.setTraceCh p c x).queues = s.queues := rfl
@[simp] theorem State.setTraceCh_lists (s : State) (p) (c) (x) : (s.setTraceCh p c x).lists = s.lists := rfl
@[simp] theorem State.setTraceCh_sync (s : State) (p) (c) (x) : (s.setTraceCh p c x).sync = s.sync := rfl
@[simp] theorem State.setTraceCh_mem (s : State) (p) (c) (x) : (s.setTraceCh p c x).mem = s.mem := rfl
@[simp] theorem State.setTraceCh_arbs (s : State) (p) (c) (x) : (s.setTraceCh p c x).arbs = s.arbs := rfl
@[simp] theorem State.setTraceCh_link (s : State) (p) (c) (x) : (s.setTraceCh p c x).link = s.link := rfl
@[simp] theorem State.setTraceCh_screen (s : State) (p) (c) (x) : (s.setTraceCh p c x).screen = s.screen := rfl
@[simp] theorem State.setTraceCh_vscreen (s : State) (p) (c) (x) : (s.setTraceCh p c x).vscreen = s.vscreen := rfl
@[simp] theorem State.setTraceCh_shadows (s : State) (p) (c) (x) : (s.setTraceCh p c x).shadows = s.shadows := rfl
@[simp] theorem State.setTraceCh_votes (s : State) (p) (c) (x) : (s.setTraceCh p c x).votes = s.votes := rfl
@[simp] theorem State.setTraceCh_lateArbs (s : State) (p) (c) (x) : (s.setTraceCh p c x).lateArbs = s.lateArbs := rfl
@[simp] theorem State.setTraceCh_wheels (s : State) (p) (c) (x) : (s.setTraceCh p c x).wheels = s.wheels := rfl
@[simp] theorem State.setTraceCh_scrLog (s : State) (p) (c) (x) : (s.setTraceCh p c x).scrLog = s.scrLog := rfl
@[simp] theorem State.setTraceCh_qtn (s : State) (p) (c) (x) : (s.setTraceCh p c x).qtn = s.qtn := rfl
@[simp] theorem State.setTraceCh_jobs (s : State) (p) (c) (x) : (s.setTraceCh p c x).jobs = s.jobs := rfl
@[simp] theorem State.setTraceCh_steps (s : State) (p) (c) (x) : (s.setTraceCh p c x).steps = s.steps := rfl
@[simp] theorem State.setTraceCh_partSteps (s : State) (p) (c) (x) : (s.setTraceCh p c x).partSteps = s.partSteps := rfl
@[simp] theorem State.setTraceCh_wrote (s : State) (p) (c) (x) : (s.setTraceCh p c x).wrote = s.wrote := rfl
@[simp] theorem State.setTraceCh_raised (s : State) (p) (c) (x) : (s.setTraceCh p c x).raised = s.raised := rfl
@[simp] theorem State.setTraceCh_hang (s : State) (p) (c) (x) : (s.setTraceCh p c x).hang = s.hang := rfl
@[simp] theorem State.setTraceCh_pwr (s : State) (p) (c) (x) : (s.setTraceCh p c x).pwr = s.pwr := rfl
@[simp] theorem State.setTraceCh_bist (s : State) (p) (c) (x) : (s.setTraceCh p c x).bist = s.bist := rfl
@[simp] theorem State.setTraceCh_thm (s : State) (p) (c) (x) : (s.setTraceCh p c x).thm = s.thm := rfl
@[simp] theorem State.setTraceCh_evr (s : State) (p) (c) (x) : (s.setTraceCh p c x).evr = s.evr := rfl
@[simp] theorem State.setTraceCh_mram (s : State) (p) (c) (x) : (s.setTraceCh p c x).mram = s.mram := rfl
@[simp] theorem State.setTraceCh_cla (s : State) (p) (c) (x) : (s.setTraceCh p c x).cla = s.cla := rfl
@[simp] theorem State.setTraceCh_media (s : State) (p) (c) (x) : (s.setTraceCh p c x).media = s.media := rfl
@[simp] theorem State.setTraceCh_out (s : State) (p) (c) (x) : (s.setTraceCh p c x).out = s.out := rfl
@[simp] theorem State.setTraceCh_free (s : State) (p) (c) (x) : (s.setTraceCh p c x).free = s.free := rfl

@[simp] theorem State.undefine_pending (s : State) (rs) : (s.undefine rs).pending = s.pending := rfl
@[simp] theorem State.undefine_regs (s : State) (rs) : (s.undefine rs).regs = s.regs := rfl
@[simp] theorem State.undefine_latches (s : State) (rs) : (s.undefine rs).latches = s.latches := rfl
@[simp] theorem State.undefine_staged (s : State) (rs) : (s.undefine rs).staged = s.staged := rfl
@[simp] theorem State.undefine_msix (s : State) (rs) : (s.undefine rs).msix = s.msix := rfl
@[simp] theorem State.undefine_mode (s : State) (rs) : (s.undefine rs).mode = s.mode := rfl
@[simp] theorem State.undefine_beat (s : State) (rs) : (s.undefine rs).beat = s.beat := rfl
@[simp] theorem State.undefine_queues (s : State) (rs) : (s.undefine rs).queues = s.queues := rfl
@[simp] theorem State.undefine_lists (s : State) (rs) : (s.undefine rs).lists = s.lists := rfl
@[simp] theorem State.undefine_sync (s : State) (rs) : (s.undefine rs).sync = s.sync := rfl
@[simp] theorem State.undefine_arbs (s : State) (rs) : (s.undefine rs).arbs = s.arbs := rfl
@[simp] theorem State.undefine_link (s : State) (rs) : (s.undefine rs).link = s.link := rfl
@[simp] theorem State.undefine_screen (s : State) (rs) : (s.undefine rs).screen = s.screen := rfl
@[simp] theorem State.undefine_vscreen (s : State) (rs) : (s.undefine rs).vscreen = s.vscreen := rfl
@[simp] theorem State.undefine_shadows (s : State) (rs) : (s.undefine rs).shadows = s.shadows := rfl
@[simp] theorem State.undefine_votes (s : State) (rs) : (s.undefine rs).votes = s.votes := rfl
@[simp] theorem State.undefine_lateArbs (s : State) (rs) : (s.undefine rs).lateArbs = s.lateArbs := rfl
@[simp] theorem State.undefine_wheels (s : State) (rs) : (s.undefine rs).wheels = s.wheels := rfl
@[simp] theorem State.undefine_scrLog (s : State) (rs) : (s.undefine rs).scrLog = s.scrLog := rfl
@[simp] theorem State.undefine_qtn (s : State) (rs) : (s.undefine rs).qtn = s.qtn := rfl
@[simp] theorem State.undefine_jobs (s : State) (rs) : (s.undefine rs).jobs = s.jobs := rfl
@[simp] theorem State.undefine_steps (s : State) (rs) : (s.undefine rs).steps = s.steps := rfl
@[simp] theorem State.undefine_partSteps (s : State) (rs) : (s.undefine rs).partSteps = s.partSteps := rfl
@[simp] theorem State.undefine_wrote (s : State) (rs) : (s.undefine rs).wrote = s.wrote := rfl
@[simp] theorem State.undefine_raised (s : State) (rs) : (s.undefine rs).raised = s.raised := rfl
@[simp] theorem State.undefine_hang (s : State) (rs) : (s.undefine rs).hang = s.hang := rfl
@[simp] theorem State.undefine_pwr (s : State) (rs) : (s.undefine rs).pwr = s.pwr := rfl
@[simp] theorem State.undefine_bist (s : State) (rs) : (s.undefine rs).bist = s.bist := rfl
@[simp] theorem State.undefine_thm (s : State) (rs) : (s.undefine rs).thm = s.thm := rfl
@[simp] theorem State.undefine_evr (s : State) (rs) : (s.undefine rs).evr = s.evr := rfl
@[simp] theorem State.undefine_mram (s : State) (rs) : (s.undefine rs).mram = s.mram := rfl
@[simp] theorem State.undefine_cla (s : State) (rs) : (s.undefine rs).cla = s.cla := rfl
@[simp] theorem State.undefine_media (s : State) (rs) : (s.undefine rs).media = s.media := rfl
@[simp] theorem State.undefine_dbg (s : State) (rs) : (s.undefine rs).dbg = s.dbg := rfl
@[simp] theorem State.undefine_out (s : State) (rs) : (s.undefine rs).out = s.out := rfl
@[simp] theorem State.undefine_free (s : State) (rs) : (s.undefine rs).free = s.free := rfl

@[simp] theorem State.dropExt_pending (s : State) (a) (n) : (s.dropExt a n).pending = s.pending := rfl
@[simp] theorem State.dropExt_regs (s : State) (a) (n) : (s.dropExt a n).regs = s.regs := rfl
@[simp] theorem State.dropExt_latches (s : State) (a) (n) : (s.dropExt a n).latches = s.latches := rfl
@[simp] theorem State.dropExt_staged (s : State) (a) (n) : (s.dropExt a n).staged = s.staged := rfl
@[simp] theorem State.dropExt_msix (s : State) (a) (n) : (s.dropExt a n).msix = s.msix := rfl
@[simp] theorem State.dropExt_mode (s : State) (a) (n) : (s.dropExt a n).mode = s.mode := rfl
@[simp] theorem State.dropExt_beat (s : State) (a) (n) : (s.dropExt a n).beat = s.beat := rfl
@[simp] theorem State.dropExt_queues (s : State) (a) (n) : (s.dropExt a n).queues = s.queues := rfl
@[simp] theorem State.dropExt_lists (s : State) (a) (n) : (s.dropExt a n).lists = s.lists := rfl
@[simp] theorem State.dropExt_sync (s : State) (a) (n) : (s.dropExt a n).sync = s.sync := rfl
@[simp] theorem State.dropExt_arbs (s : State) (a) (n) : (s.dropExt a n).arbs = s.arbs := rfl
@[simp] theorem State.dropExt_link (s : State) (a) (n) : (s.dropExt a n).link = s.link := rfl
@[simp] theorem State.dropExt_screen (s : State) (a) (n) : (s.dropExt a n).screen = s.screen := rfl
@[simp] theorem State.dropExt_vscreen (s : State) (a) (n) : (s.dropExt a n).vscreen = s.vscreen := rfl
@[simp] theorem State.dropExt_shadows (s : State) (a) (n) : (s.dropExt a n).shadows = s.shadows := rfl
@[simp] theorem State.dropExt_votes (s : State) (a) (n) : (s.dropExt a n).votes = s.votes := rfl
@[simp] theorem State.dropExt_lateArbs (s : State) (a) (n) : (s.dropExt a n).lateArbs = s.lateArbs := rfl
@[simp] theorem State.dropExt_wheels (s : State) (a) (n) : (s.dropExt a n).wheels = s.wheels := rfl
@[simp] theorem State.dropExt_scrLog (s : State) (a) (n) : (s.dropExt a n).scrLog = s.scrLog := rfl
@[simp] theorem State.dropExt_qtn (s : State) (a) (n) : (s.dropExt a n).qtn = s.qtn := rfl
@[simp] theorem State.dropExt_jobs (s : State) (a) (n) : (s.dropExt a n).jobs = s.jobs := rfl
@[simp] theorem State.dropExt_steps (s : State) (a) (n) : (s.dropExt a n).steps = s.steps := rfl
@[simp] theorem State.dropExt_partSteps (s : State) (a) (n) : (s.dropExt a n).partSteps = s.partSteps := rfl
@[simp] theorem State.dropExt_wrote (s : State) (a) (n) : (s.dropExt a n).wrote = s.wrote := rfl
@[simp] theorem State.dropExt_raised (s : State) (a) (n) : (s.dropExt a n).raised = s.raised := rfl
@[simp] theorem State.dropExt_hang (s : State) (a) (n) : (s.dropExt a n).hang = s.hang := rfl
@[simp] theorem State.dropExt_pwr (s : State) (a) (n) : (s.dropExt a n).pwr = s.pwr := rfl
@[simp] theorem State.dropExt_bist (s : State) (a) (n) : (s.dropExt a n).bist = s.bist := rfl
@[simp] theorem State.dropExt_thm (s : State) (a) (n) : (s.dropExt a n).thm = s.thm := rfl
@[simp] theorem State.dropExt_evr (s : State) (a) (n) : (s.dropExt a n).evr = s.evr := rfl
@[simp] theorem State.dropExt_mram (s : State) (a) (n) : (s.dropExt a n).mram = s.mram := rfl
@[simp] theorem State.dropExt_cla (s : State) (a) (n) : (s.dropExt a n).cla = s.cla := rfl
@[simp] theorem State.dropExt_media (s : State) (a) (n) : (s.dropExt a n).media = s.media := rfl
@[simp] theorem State.dropExt_dbg (s : State) (a) (n) : (s.dropExt a n).dbg = s.dbg := rfl
@[simp] theorem State.dropExt_out (s : State) (a) (n) : (s.dropExt a n).out = s.out := rfl
@[simp] theorem State.dropExt_free (s : State) (a) (n) : (s.dropExt a n).free = s.free := rfl

@[simp] theorem State.setPwr_pending (s : State) (x) : (s.setPwr x).pending = s.pending := rfl
@[simp] theorem State.setPwr_regs (s : State) (x) : (s.setPwr x).regs = s.regs := rfl
@[simp] theorem State.setPwr_latches (s : State) (x) : (s.setPwr x).latches = s.latches := rfl
@[simp] theorem State.setPwr_staged (s : State) (x) : (s.setPwr x).staged = s.staged := rfl
@[simp] theorem State.setPwr_msix (s : State) (x) : (s.setPwr x).msix = s.msix := rfl
@[simp] theorem State.setPwr_mode (s : State) (x) : (s.setPwr x).mode = s.mode := rfl
@[simp] theorem State.setPwr_beat (s : State) (x) : (s.setPwr x).beat = s.beat := rfl
@[simp] theorem State.setPwr_queues (s : State) (x) : (s.setPwr x).queues = s.queues := rfl
@[simp] theorem State.setPwr_lists (s : State) (x) : (s.setPwr x).lists = s.lists := rfl
@[simp] theorem State.setPwr_sync (s : State) (x) : (s.setPwr x).sync = s.sync := rfl
@[simp] theorem State.setPwr_mem (s : State) (x) : (s.setPwr x).mem = s.mem := rfl
@[simp] theorem State.setPwr_arbs (s : State) (x) : (s.setPwr x).arbs = s.arbs := rfl
@[simp] theorem State.setPwr_link (s : State) (x) : (s.setPwr x).link = s.link := rfl
@[simp] theorem State.setPwr_screen (s : State) (x) : (s.setPwr x).screen = s.screen := rfl
@[simp] theorem State.setPwr_vscreen (s : State) (x) : (s.setPwr x).vscreen = s.vscreen := rfl
@[simp] theorem State.setPwr_shadows (s : State) (x) : (s.setPwr x).shadows = s.shadows := rfl
@[simp] theorem State.setPwr_votes (s : State) (x) : (s.setPwr x).votes = s.votes := rfl
@[simp] theorem State.setPwr_lateArbs (s : State) (x) : (s.setPwr x).lateArbs = s.lateArbs := rfl
@[simp] theorem State.setPwr_wheels (s : State) (x) : (s.setPwr x).wheels = s.wheels := rfl
@[simp] theorem State.setPwr_scrLog (s : State) (x) : (s.setPwr x).scrLog = s.scrLog := rfl
@[simp] theorem State.setPwr_qtn (s : State) (x) : (s.setPwr x).qtn = s.qtn := rfl
@[simp] theorem State.setPwr_jobs (s : State) (x) : (s.setPwr x).jobs = s.jobs := rfl
@[simp] theorem State.setPwr_steps (s : State) (x) : (s.setPwr x).steps = s.steps := rfl
@[simp] theorem State.setPwr_partSteps (s : State) (x) : (s.setPwr x).partSteps = s.partSteps := rfl
@[simp] theorem State.setPwr_wrote (s : State) (x) : (s.setPwr x).wrote = s.wrote := rfl
@[simp] theorem State.setPwr_raised (s : State) (x) : (s.setPwr x).raised = s.raised := rfl
@[simp] theorem State.setPwr_hang (s : State) (x) : (s.setPwr x).hang = s.hang := rfl
@[simp] theorem State.setPwr_bist (s : State) (x) : (s.setPwr x).bist = s.bist := rfl
@[simp] theorem State.setPwr_thm (s : State) (x) : (s.setPwr x).thm = s.thm := rfl
@[simp] theorem State.setPwr_evr (s : State) (x) : (s.setPwr x).evr = s.evr := rfl
@[simp] theorem State.setPwr_mram (s : State) (x) : (s.setPwr x).mram = s.mram := rfl
@[simp] theorem State.setPwr_cla (s : State) (x) : (s.setPwr x).cla = s.cla := rfl
@[simp] theorem State.setPwr_media (s : State) (x) : (s.setPwr x).media = s.media := rfl
@[simp] theorem State.setPwr_dbg (s : State) (x) : (s.setPwr x).dbg = s.dbg := rfl
@[simp] theorem State.setPwr_out (s : State) (x) : (s.setPwr x).out = s.out := rfl
@[simp] theorem State.setPwr_free (s : State) (x) : (s.setPwr x).free = s.free := rfl

@[simp] theorem State.setEvr_pending (s : State) (x) : (s.setEvr x).pending = s.pending := rfl
@[simp] theorem State.setEvr_regs (s : State) (x) : (s.setEvr x).regs = s.regs := rfl
@[simp] theorem State.setEvr_latches (s : State) (x) : (s.setEvr x).latches = s.latches := rfl
@[simp] theorem State.setEvr_staged (s : State) (x) : (s.setEvr x).staged = s.staged := rfl
@[simp] theorem State.setEvr_msix (s : State) (x) : (s.setEvr x).msix = s.msix := rfl
@[simp] theorem State.setEvr_mode (s : State) (x) : (s.setEvr x).mode = s.mode := rfl
@[simp] theorem State.setEvr_beat (s : State) (x) : (s.setEvr x).beat = s.beat := rfl
@[simp] theorem State.setEvr_queues (s : State) (x) : (s.setEvr x).queues = s.queues := rfl
@[simp] theorem State.setEvr_lists (s : State) (x) : (s.setEvr x).lists = s.lists := rfl
@[simp] theorem State.setEvr_sync (s : State) (x) : (s.setEvr x).sync = s.sync := rfl
@[simp] theorem State.setEvr_mem (s : State) (x) : (s.setEvr x).mem = s.mem := rfl
@[simp] theorem State.setEvr_arbs (s : State) (x) : (s.setEvr x).arbs = s.arbs := rfl
@[simp] theorem State.setEvr_link (s : State) (x) : (s.setEvr x).link = s.link := rfl
@[simp] theorem State.setEvr_screen (s : State) (x) : (s.setEvr x).screen = s.screen := rfl
@[simp] theorem State.setEvr_vscreen (s : State) (x) : (s.setEvr x).vscreen = s.vscreen := rfl
@[simp] theorem State.setEvr_shadows (s : State) (x) : (s.setEvr x).shadows = s.shadows := rfl
@[simp] theorem State.setEvr_votes (s : State) (x) : (s.setEvr x).votes = s.votes := rfl
@[simp] theorem State.setEvr_lateArbs (s : State) (x) : (s.setEvr x).lateArbs = s.lateArbs := rfl
@[simp] theorem State.setEvr_wheels (s : State) (x) : (s.setEvr x).wheels = s.wheels := rfl
@[simp] theorem State.setEvr_scrLog (s : State) (x) : (s.setEvr x).scrLog = s.scrLog := rfl
@[simp] theorem State.setEvr_qtn (s : State) (x) : (s.setEvr x).qtn = s.qtn := rfl
@[simp] theorem State.setEvr_jobs (s : State) (x) : (s.setEvr x).jobs = s.jobs := rfl
@[simp] theorem State.setEvr_steps (s : State) (x) : (s.setEvr x).steps = s.steps := rfl
@[simp] theorem State.setEvr_partSteps (s : State) (x) : (s.setEvr x).partSteps = s.partSteps := rfl
@[simp] theorem State.setEvr_wrote (s : State) (x) : (s.setEvr x).wrote = s.wrote := rfl
@[simp] theorem State.setEvr_raised (s : State) (x) : (s.setEvr x).raised = s.raised := rfl
@[simp] theorem State.setEvr_hang (s : State) (x) : (s.setEvr x).hang = s.hang := rfl
@[simp] theorem State.setEvr_pwr (s : State) (x) : (s.setEvr x).pwr = s.pwr := rfl
@[simp] theorem State.setEvr_bist (s : State) (x) : (s.setEvr x).bist = s.bist := rfl
@[simp] theorem State.setEvr_thm (s : State) (x) : (s.setEvr x).thm = s.thm := rfl
@[simp] theorem State.setEvr_mram (s : State) (x) : (s.setEvr x).mram = s.mram := rfl
@[simp] theorem State.setEvr_cla (s : State) (x) : (s.setEvr x).cla = s.cla := rfl
@[simp] theorem State.setEvr_media (s : State) (x) : (s.setEvr x).media = s.media := rfl
@[simp] theorem State.setEvr_dbg (s : State) (x) : (s.setEvr x).dbg = s.dbg := rfl
@[simp] theorem State.setEvr_out (s : State) (x) : (s.setEvr x).out = s.out := rfl
@[simp] theorem State.setEvr_free (s : State) (x) : (s.setEvr x).free = s.free := rfl

@[simp] theorem State.setBist_pending (s : State) (x) : (s.setBist x).pending = s.pending := rfl
@[simp] theorem State.setBist_regs (s : State) (x) : (s.setBist x).regs = s.regs := rfl
@[simp] theorem State.setBist_latches (s : State) (x) : (s.setBist x).latches = s.latches := rfl
@[simp] theorem State.setBist_staged (s : State) (x) : (s.setBist x).staged = s.staged := rfl
@[simp] theorem State.setBist_msix (s : State) (x) : (s.setBist x).msix = s.msix := rfl
@[simp] theorem State.setBist_mode (s : State) (x) : (s.setBist x).mode = s.mode := rfl
@[simp] theorem State.setBist_beat (s : State) (x) : (s.setBist x).beat = s.beat := rfl
@[simp] theorem State.setBist_queues (s : State) (x) : (s.setBist x).queues = s.queues := rfl
@[simp] theorem State.setBist_lists (s : State) (x) : (s.setBist x).lists = s.lists := rfl
@[simp] theorem State.setBist_sync (s : State) (x) : (s.setBist x).sync = s.sync := rfl
@[simp] theorem State.setBist_mem (s : State) (x) : (s.setBist x).mem = s.mem := rfl
@[simp] theorem State.setBist_arbs (s : State) (x) : (s.setBist x).arbs = s.arbs := rfl
@[simp] theorem State.setBist_link (s : State) (x) : (s.setBist x).link = s.link := rfl
@[simp] theorem State.setBist_screen (s : State) (x) : (s.setBist x).screen = s.screen := rfl
@[simp] theorem State.setBist_vscreen (s : State) (x) : (s.setBist x).vscreen = s.vscreen := rfl
@[simp] theorem State.setBist_shadows (s : State) (x) : (s.setBist x).shadows = s.shadows := rfl
@[simp] theorem State.setBist_votes (s : State) (x) : (s.setBist x).votes = s.votes := rfl
@[simp] theorem State.setBist_lateArbs (s : State) (x) : (s.setBist x).lateArbs = s.lateArbs := rfl
@[simp] theorem State.setBist_wheels (s : State) (x) : (s.setBist x).wheels = s.wheels := rfl
@[simp] theorem State.setBist_scrLog (s : State) (x) : (s.setBist x).scrLog = s.scrLog := rfl
@[simp] theorem State.setBist_qtn (s : State) (x) : (s.setBist x).qtn = s.qtn := rfl
@[simp] theorem State.setBist_jobs (s : State) (x) : (s.setBist x).jobs = s.jobs := rfl
@[simp] theorem State.setBist_steps (s : State) (x) : (s.setBist x).steps = s.steps := rfl
@[simp] theorem State.setBist_partSteps (s : State) (x) : (s.setBist x).partSteps = s.partSteps := rfl
@[simp] theorem State.setBist_wrote (s : State) (x) : (s.setBist x).wrote = s.wrote := rfl
@[simp] theorem State.setBist_raised (s : State) (x) : (s.setBist x).raised = s.raised := rfl
@[simp] theorem State.setBist_hang (s : State) (x) : (s.setBist x).hang = s.hang := rfl
@[simp] theorem State.setBist_pwr (s : State) (x) : (s.setBist x).pwr = s.pwr := rfl
@[simp] theorem State.setBist_thm (s : State) (x) : (s.setBist x).thm = s.thm := rfl
@[simp] theorem State.setBist_evr (s : State) (x) : (s.setBist x).evr = s.evr := rfl
@[simp] theorem State.setBist_mram (s : State) (x) : (s.setBist x).mram = s.mram := rfl
@[simp] theorem State.setBist_cla (s : State) (x) : (s.setBist x).cla = s.cla := rfl
@[simp] theorem State.setBist_media (s : State) (x) : (s.setBist x).media = s.media := rfl
@[simp] theorem State.setBist_dbg (s : State) (x) : (s.setBist x).dbg = s.dbg := rfl
@[simp] theorem State.setBist_out (s : State) (x) : (s.setBist x).out = s.out := rfl
@[simp] theorem State.setBist_free (s : State) (x) : (s.setBist x).free = s.free := rfl

@[simp] theorem State.setList_pending (s : State) (l) : (s.setList l).pending = s.pending := rfl
@[simp] theorem State.setList_regs (s : State) (l) : (s.setList l).regs = s.regs := rfl
@[simp] theorem State.setList_latches (s : State) (l) : (s.setList l).latches = s.latches := rfl
@[simp] theorem State.setList_staged (s : State) (l) : (s.setList l).staged = s.staged := rfl
@[simp] theorem State.setList_msix (s : State) (l) : (s.setList l).msix = s.msix := rfl
@[simp] theorem State.setList_mode (s : State) (l) : (s.setList l).mode = s.mode := rfl
@[simp] theorem State.setList_beat (s : State) (l) : (s.setList l).beat = s.beat := rfl
@[simp] theorem State.setList_queues (s : State) (l) : (s.setList l).queues = s.queues := rfl
@[simp] theorem State.setList_sync (s : State) (l) : (s.setList l).sync = s.sync := rfl
@[simp] theorem State.setList_mem (s : State) (l) : (s.setList l).mem = s.mem := rfl
@[simp] theorem State.setList_arbs (s : State) (l) : (s.setList l).arbs = s.arbs := rfl
@[simp] theorem State.setList_link (s : State) (l) : (s.setList l).link = s.link := rfl
@[simp] theorem State.setList_screen (s : State) (l) : (s.setList l).screen = s.screen := rfl
@[simp] theorem State.setList_vscreen (s : State) (l) : (s.setList l).vscreen = s.vscreen := rfl
@[simp] theorem State.setList_shadows (s : State) (l) : (s.setList l).shadows = s.shadows := rfl
@[simp] theorem State.setList_votes (s : State) (l) : (s.setList l).votes = s.votes := rfl
@[simp] theorem State.setList_lateArbs (s : State) (l) : (s.setList l).lateArbs = s.lateArbs := rfl
@[simp] theorem State.setList_wheels (s : State) (l) : (s.setList l).wheels = s.wheels := rfl
@[simp] theorem State.setList_scrLog (s : State) (l) : (s.setList l).scrLog = s.scrLog := rfl
@[simp] theorem State.setList_qtn (s : State) (l) : (s.setList l).qtn = s.qtn := rfl
@[simp] theorem State.setList_jobs (s : State) (l) : (s.setList l).jobs = s.jobs := rfl
@[simp] theorem State.setList_steps (s : State) (l) : (s.setList l).steps = s.steps := rfl
@[simp] theorem State.setList_partSteps (s : State) (l) : (s.setList l).partSteps = s.partSteps := rfl
@[simp] theorem State.setList_wrote (s : State) (l) : (s.setList l).wrote = s.wrote := rfl
@[simp] theorem State.setList_raised (s : State) (l) : (s.setList l).raised = s.raised := rfl
@[simp] theorem State.setList_hang (s : State) (l) : (s.setList l).hang = s.hang := rfl
@[simp] theorem State.setList_pwr (s : State) (l) : (s.setList l).pwr = s.pwr := rfl
@[simp] theorem State.setList_bist (s : State) (l) : (s.setList l).bist = s.bist := rfl
@[simp] theorem State.setList_thm (s : State) (l) : (s.setList l).thm = s.thm := rfl
@[simp] theorem State.setList_evr (s : State) (l) : (s.setList l).evr = s.evr := rfl
@[simp] theorem State.setList_mram (s : State) (l) : (s.setList l).mram = s.mram := rfl
@[simp] theorem State.setList_cla (s : State) (l) : (s.setList l).cla = s.cla := rfl
@[simp] theorem State.setList_media (s : State) (l) : (s.setList l).media = s.media := rfl
@[simp] theorem State.setList_dbg (s : State) (l) : (s.setList l).dbg = s.dbg := rfl
@[simp] theorem State.setList_out (s : State) (l) : (s.setList l).out = s.out := rfl
@[simp] theorem State.setList_free (s : State) (l) : (s.setList l).free = s.free := rfl

@[simp] theorem State.setArb_pending (s : State) (k) (a) : (s.setArb k a).pending = s.pending := rfl
@[simp] theorem State.setArb_regs (s : State) (k) (a) : (s.setArb k a).regs = s.regs := rfl
@[simp] theorem State.setArb_latches (s : State) (k) (a) : (s.setArb k a).latches = s.latches := rfl
@[simp] theorem State.setArb_staged (s : State) (k) (a) : (s.setArb k a).staged = s.staged := rfl
@[simp] theorem State.setArb_msix (s : State) (k) (a) : (s.setArb k a).msix = s.msix := rfl
@[simp] theorem State.setArb_mode (s : State) (k) (a) : (s.setArb k a).mode = s.mode := rfl
@[simp] theorem State.setArb_beat (s : State) (k) (a) : (s.setArb k a).beat = s.beat := rfl
@[simp] theorem State.setArb_queues (s : State) (k) (a) : (s.setArb k a).queues = s.queues := rfl
@[simp] theorem State.setArb_lists (s : State) (k) (a) : (s.setArb k a).lists = s.lists := rfl
@[simp] theorem State.setArb_sync (s : State) (k) (a) : (s.setArb k a).sync = s.sync := rfl
@[simp] theorem State.setArb_mem (s : State) (k) (a) : (s.setArb k a).mem = s.mem := rfl
@[simp] theorem State.setArb_link (s : State) (k) (a) : (s.setArb k a).link = s.link := rfl
@[simp] theorem State.setArb_screen (s : State) (k) (a) : (s.setArb k a).screen = s.screen := rfl
@[simp] theorem State.setArb_vscreen (s : State) (k) (a) : (s.setArb k a).vscreen = s.vscreen := rfl
@[simp] theorem State.setArb_shadows (s : State) (k) (a) : (s.setArb k a).shadows = s.shadows := rfl
@[simp] theorem State.setArb_votes (s : State) (k) (a) : (s.setArb k a).votes = s.votes := rfl
@[simp] theorem State.setArb_lateArbs (s : State) (k) (a) : (s.setArb k a).lateArbs = s.lateArbs := rfl
@[simp] theorem State.setArb_wheels (s : State) (k) (a) : (s.setArb k a).wheels = s.wheels := rfl
@[simp] theorem State.setArb_scrLog (s : State) (k) (a) : (s.setArb k a).scrLog = s.scrLog := rfl
@[simp] theorem State.setArb_qtn (s : State) (k) (a) : (s.setArb k a).qtn = s.qtn := rfl
@[simp] theorem State.setArb_jobs (s : State) (k) (a) : (s.setArb k a).jobs = s.jobs := rfl
@[simp] theorem State.setArb_steps (s : State) (k) (a) : (s.setArb k a).steps = s.steps := rfl
@[simp] theorem State.setArb_partSteps (s : State) (k) (a) : (s.setArb k a).partSteps = s.partSteps := rfl
@[simp] theorem State.setArb_wrote (s : State) (k) (a) : (s.setArb k a).wrote = s.wrote := rfl
@[simp] theorem State.setArb_raised (s : State) (k) (a) : (s.setArb k a).raised = s.raised := rfl
@[simp] theorem State.setArb_hang (s : State) (k) (a) : (s.setArb k a).hang = s.hang := rfl
@[simp] theorem State.setArb_pwr (s : State) (k) (a) : (s.setArb k a).pwr = s.pwr := rfl
@[simp] theorem State.setArb_bist (s : State) (k) (a) : (s.setArb k a).bist = s.bist := rfl
@[simp] theorem State.setArb_thm (s : State) (k) (a) : (s.setArb k a).thm = s.thm := rfl
@[simp] theorem State.setArb_evr (s : State) (k) (a) : (s.setArb k a).evr = s.evr := rfl
@[simp] theorem State.setArb_mram (s : State) (k) (a) : (s.setArb k a).mram = s.mram := rfl
@[simp] theorem State.setArb_cla (s : State) (k) (a) : (s.setArb k a).cla = s.cla := rfl
@[simp] theorem State.setArb_media (s : State) (k) (a) : (s.setArb k a).media = s.media := rfl
@[simp] theorem State.setArb_dbg (s : State) (k) (a) : (s.setArb k a).dbg = s.dbg := rfl
@[simp] theorem State.setArb_out (s : State) (k) (a) : (s.setArb k a).out = s.out := rfl
@[simp] theorem State.setArb_free (s : State) (k) (a) : (s.setArb k a).free = s.free := rfl

@[simp] theorem State.setChan_pending (s : State) (c) (x) : (s.setChan c x).pending = s.pending := rfl
@[simp] theorem State.setChan_regs (s : State) (c) (x) : (s.setChan c x).regs = s.regs := rfl
@[simp] theorem State.setChan_latches (s : State) (c) (x) : (s.setChan c x).latches = s.latches := rfl
@[simp] theorem State.setChan_staged (s : State) (c) (x) : (s.setChan c x).staged = s.staged := rfl
@[simp] theorem State.setChan_msix (s : State) (c) (x) : (s.setChan c x).msix = s.msix := rfl
@[simp] theorem State.setChan_mode (s : State) (c) (x) : (s.setChan c x).mode = s.mode := rfl
@[simp] theorem State.setChan_beat (s : State) (c) (x) : (s.setChan c x).beat = s.beat := rfl
@[simp] theorem State.setChan_queues (s : State) (c) (x) : (s.setChan c x).queues = s.queues := rfl
@[simp] theorem State.setChan_lists (s : State) (c) (x) : (s.setChan c x).lists = s.lists := rfl
@[simp] theorem State.setChan_sync (s : State) (c) (x) : (s.setChan c x).sync = s.sync := rfl
@[simp] theorem State.setChan_arbs (s : State) (c) (x) : (s.setChan c x).arbs = s.arbs := rfl
@[simp] theorem State.setChan_link (s : State) (c) (x) : (s.setChan c x).link = s.link := rfl
@[simp] theorem State.setChan_screen (s : State) (c) (x) : (s.setChan c x).screen = s.screen := rfl
@[simp] theorem State.setChan_vscreen (s : State) (c) (x) : (s.setChan c x).vscreen = s.vscreen := rfl
@[simp] theorem State.setChan_shadows (s : State) (c) (x) : (s.setChan c x).shadows = s.shadows := rfl
@[simp] theorem State.setChan_votes (s : State) (c) (x) : (s.setChan c x).votes = s.votes := rfl
@[simp] theorem State.setChan_lateArbs (s : State) (c) (x) : (s.setChan c x).lateArbs = s.lateArbs := rfl
@[simp] theorem State.setChan_wheels (s : State) (c) (x) : (s.setChan c x).wheels = s.wheels := rfl
@[simp] theorem State.setChan_scrLog (s : State) (c) (x) : (s.setChan c x).scrLog = s.scrLog := rfl
@[simp] theorem State.setChan_qtn (s : State) (c) (x) : (s.setChan c x).qtn = s.qtn := rfl
@[simp] theorem State.setChan_jobs (s : State) (c) (x) : (s.setChan c x).jobs = s.jobs := rfl
@[simp] theorem State.setChan_steps (s : State) (c) (x) : (s.setChan c x).steps = s.steps := rfl
@[simp] theorem State.setChan_partSteps (s : State) (c) (x) : (s.setChan c x).partSteps = s.partSteps := rfl
@[simp] theorem State.setChan_wrote (s : State) (c) (x) : (s.setChan c x).wrote = s.wrote := rfl
@[simp] theorem State.setChan_raised (s : State) (c) (x) : (s.setChan c x).raised = s.raised := rfl
@[simp] theorem State.setChan_hang (s : State) (c) (x) : (s.setChan c x).hang = s.hang := rfl
@[simp] theorem State.setChan_pwr (s : State) (c) (x) : (s.setChan c x).pwr = s.pwr := rfl
@[simp] theorem State.setChan_bist (s : State) (c) (x) : (s.setChan c x).bist = s.bist := rfl
@[simp] theorem State.setChan_thm (s : State) (c) (x) : (s.setChan c x).thm = s.thm := rfl
@[simp] theorem State.setChan_evr (s : State) (c) (x) : (s.setChan c x).evr = s.evr := rfl
@[simp] theorem State.setChan_mram (s : State) (c) (x) : (s.setChan c x).mram = s.mram := rfl
@[simp] theorem State.setChan_cla (s : State) (c) (x) : (s.setChan c x).cla = s.cla := rfl
@[simp] theorem State.setChan_media (s : State) (c) (x) : (s.setChan c x).media = s.media := rfl
@[simp] theorem State.setChan_dbg (s : State) (c) (x) : (s.setChan c x).dbg = s.dbg := rfl
@[simp] theorem State.setChan_out (s : State) (c) (x) : (s.setChan c x).out = s.out := rfl
@[simp] theorem State.setChan_free (s : State) (c) (x) : (s.setChan c x).free = s.free := rfl

@[simp] theorem State.setThm_pending (s : State) (x) : (s.setThm x).pending = s.pending := rfl
@[simp] theorem State.setThm_regs (s : State) (x) : (s.setThm x).regs = s.regs := rfl
@[simp] theorem State.setThm_latches (s : State) (x) : (s.setThm x).latches = s.latches := rfl
@[simp] theorem State.setThm_staged (s : State) (x) : (s.setThm x).staged = s.staged := rfl
@[simp] theorem State.setThm_msix (s : State) (x) : (s.setThm x).msix = s.msix := rfl
@[simp] theorem State.setThm_mode (s : State) (x) : (s.setThm x).mode = s.mode := rfl
@[simp] theorem State.setThm_beat (s : State) (x) : (s.setThm x).beat = s.beat := rfl
@[simp] theorem State.setThm_queues (s : State) (x) : (s.setThm x).queues = s.queues := rfl
@[simp] theorem State.setThm_lists (s : State) (x) : (s.setThm x).lists = s.lists := rfl
@[simp] theorem State.setThm_sync (s : State) (x) : (s.setThm x).sync = s.sync := rfl
@[simp] theorem State.setThm_mem (s : State) (x) : (s.setThm x).mem = s.mem := rfl
@[simp] theorem State.setThm_arbs (s : State) (x) : (s.setThm x).arbs = s.arbs := rfl
@[simp] theorem State.setThm_link (s : State) (x) : (s.setThm x).link = s.link := rfl
@[simp] theorem State.setThm_screen (s : State) (x) : (s.setThm x).screen = s.screen := rfl
@[simp] theorem State.setThm_vscreen (s : State) (x) : (s.setThm x).vscreen = s.vscreen := rfl
@[simp] theorem State.setThm_shadows (s : State) (x) : (s.setThm x).shadows = s.shadows := rfl
@[simp] theorem State.setThm_votes (s : State) (x) : (s.setThm x).votes = s.votes := rfl
@[simp] theorem State.setThm_lateArbs (s : State) (x) : (s.setThm x).lateArbs = s.lateArbs := rfl
@[simp] theorem State.setThm_wheels (s : State) (x) : (s.setThm x).wheels = s.wheels := rfl
@[simp] theorem State.setThm_scrLog (s : State) (x) : (s.setThm x).scrLog = s.scrLog := rfl
@[simp] theorem State.setThm_qtn (s : State) (x) : (s.setThm x).qtn = s.qtn := rfl
@[simp] theorem State.setThm_jobs (s : State) (x) : (s.setThm x).jobs = s.jobs := rfl
@[simp] theorem State.setThm_steps (s : State) (x) : (s.setThm x).steps = s.steps := rfl
@[simp] theorem State.setThm_partSteps (s : State) (x) : (s.setThm x).partSteps = s.partSteps := rfl
@[simp] theorem State.setThm_wrote (s : State) (x) : (s.setThm x).wrote = s.wrote := rfl
@[simp] theorem State.setThm_raised (s : State) (x) : (s.setThm x).raised = s.raised := rfl
@[simp] theorem State.setThm_hang (s : State) (x) : (s.setThm x).hang = s.hang := rfl
@[simp] theorem State.setThm_pwr (s : State) (x) : (s.setThm x).pwr = s.pwr := rfl
@[simp] theorem State.setThm_bist (s : State) (x) : (s.setThm x).bist = s.bist := rfl
@[simp] theorem State.setThm_evr (s : State) (x) : (s.setThm x).evr = s.evr := rfl
@[simp] theorem State.setThm_mram (s : State) (x) : (s.setThm x).mram = s.mram := rfl
@[simp] theorem State.setThm_cla (s : State) (x) : (s.setThm x).cla = s.cla := rfl
@[simp] theorem State.setThm_media (s : State) (x) : (s.setThm x).media = s.media := rfl
@[simp] theorem State.setThm_dbg (s : State) (x) : (s.setThm x).dbg = s.dbg := rfl
@[simp] theorem State.setThm_out (s : State) (x) : (s.setThm x).out = s.out := rfl
@[simp] theorem State.setThm_free (s : State) (x) : (s.setThm x).free = s.free := rfl

@[simp] theorem State.setDbg_pending (s : State) (x) : (s.setDbg x).pending = s.pending := rfl
@[simp] theorem State.setDbg_regs (s : State) (x) : (s.setDbg x).regs = s.regs := rfl
@[simp] theorem State.setDbg_latches (s : State) (x) : (s.setDbg x).latches = s.latches := rfl
@[simp] theorem State.setDbg_staged (s : State) (x) : (s.setDbg x).staged = s.staged := rfl
@[simp] theorem State.setDbg_msix (s : State) (x) : (s.setDbg x).msix = s.msix := rfl
@[simp] theorem State.setDbg_mode (s : State) (x) : (s.setDbg x).mode = s.mode := rfl
@[simp] theorem State.setDbg_beat (s : State) (x) : (s.setDbg x).beat = s.beat := rfl
@[simp] theorem State.setDbg_queues (s : State) (x) : (s.setDbg x).queues = s.queues := rfl
@[simp] theorem State.setDbg_lists (s : State) (x) : (s.setDbg x).lists = s.lists := rfl
@[simp] theorem State.setDbg_sync (s : State) (x) : (s.setDbg x).sync = s.sync := rfl
@[simp] theorem State.setDbg_mem (s : State) (x) : (s.setDbg x).mem = s.mem := rfl
@[simp] theorem State.setDbg_arbs (s : State) (x) : (s.setDbg x).arbs = s.arbs := rfl
@[simp] theorem State.setDbg_link (s : State) (x) : (s.setDbg x).link = s.link := rfl
@[simp] theorem State.setDbg_screen (s : State) (x) : (s.setDbg x).screen = s.screen := rfl
@[simp] theorem State.setDbg_vscreen (s : State) (x) : (s.setDbg x).vscreen = s.vscreen := rfl
@[simp] theorem State.setDbg_shadows (s : State) (x) : (s.setDbg x).shadows = s.shadows := rfl
@[simp] theorem State.setDbg_votes (s : State) (x) : (s.setDbg x).votes = s.votes := rfl
@[simp] theorem State.setDbg_lateArbs (s : State) (x) : (s.setDbg x).lateArbs = s.lateArbs := rfl
@[simp] theorem State.setDbg_wheels (s : State) (x) : (s.setDbg x).wheels = s.wheels := rfl
@[simp] theorem State.setDbg_scrLog (s : State) (x) : (s.setDbg x).scrLog = s.scrLog := rfl
@[simp] theorem State.setDbg_qtn (s : State) (x) : (s.setDbg x).qtn = s.qtn := rfl
@[simp] theorem State.setDbg_jobs (s : State) (x) : (s.setDbg x).jobs = s.jobs := rfl
@[simp] theorem State.setDbg_steps (s : State) (x) : (s.setDbg x).steps = s.steps := rfl
@[simp] theorem State.setDbg_partSteps (s : State) (x) : (s.setDbg x).partSteps = s.partSteps := rfl
@[simp] theorem State.setDbg_wrote (s : State) (x) : (s.setDbg x).wrote = s.wrote := rfl
@[simp] theorem State.setDbg_raised (s : State) (x) : (s.setDbg x).raised = s.raised := rfl
@[simp] theorem State.setDbg_hang (s : State) (x) : (s.setDbg x).hang = s.hang := rfl
@[simp] theorem State.setDbg_pwr (s : State) (x) : (s.setDbg x).pwr = s.pwr := rfl
@[simp] theorem State.setDbg_bist (s : State) (x) : (s.setDbg x).bist = s.bist := rfl
@[simp] theorem State.setDbg_thm (s : State) (x) : (s.setDbg x).thm = s.thm := rfl
@[simp] theorem State.setDbg_evr (s : State) (x) : (s.setDbg x).evr = s.evr := rfl
@[simp] theorem State.setDbg_mram (s : State) (x) : (s.setDbg x).mram = s.mram := rfl
@[simp] theorem State.setDbg_cla (s : State) (x) : (s.setDbg x).cla = s.cla := rfl
@[simp] theorem State.setDbg_media (s : State) (x) : (s.setDbg x).media = s.media := rfl
@[simp] theorem State.setDbg_out (s : State) (x) : (s.setDbg x).out = s.out := rfl
@[simp] theorem State.setDbg_free (s : State) (x) : (s.setDbg x).free = s.free := rfl

@[simp] theorem State.setCap_pending (s : State) (p) (c) : (s.setCap p c).pending = s.pending := rfl
@[simp] theorem State.setCap_regs (s : State) (p) (c) : (s.setCap p c).regs = s.regs := rfl
@[simp] theorem State.setCap_latches (s : State) (p) (c) : (s.setCap p c).latches = s.latches := rfl
@[simp] theorem State.setCap_staged (s : State) (p) (c) : (s.setCap p c).staged = s.staged := rfl
@[simp] theorem State.setCap_msix (s : State) (p) (c) : (s.setCap p c).msix = s.msix := rfl
@[simp] theorem State.setCap_mode (s : State) (p) (c) : (s.setCap p c).mode = s.mode := rfl
@[simp] theorem State.setCap_beat (s : State) (p) (c) : (s.setCap p c).beat = s.beat := rfl
@[simp] theorem State.setCap_queues (s : State) (p) (c) : (s.setCap p c).queues = s.queues := rfl
@[simp] theorem State.setCap_lists (s : State) (p) (c) : (s.setCap p c).lists = s.lists := rfl
@[simp] theorem State.setCap_sync (s : State) (p) (c) : (s.setCap p c).sync = s.sync := rfl
@[simp] theorem State.setCap_mem (s : State) (p) (c) : (s.setCap p c).mem = s.mem := rfl
@[simp] theorem State.setCap_arbs (s : State) (p) (c) : (s.setCap p c).arbs = s.arbs := rfl
@[simp] theorem State.setCap_link (s : State) (p) (c) : (s.setCap p c).link = s.link := rfl
@[simp] theorem State.setCap_screen (s : State) (p) (c) : (s.setCap p c).screen = s.screen := rfl
@[simp] theorem State.setCap_vscreen (s : State) (p) (c) : (s.setCap p c).vscreen = s.vscreen := rfl
@[simp] theorem State.setCap_shadows (s : State) (p) (c) : (s.setCap p c).shadows = s.shadows := rfl
@[simp] theorem State.setCap_votes (s : State) (p) (c) : (s.setCap p c).votes = s.votes := rfl
@[simp] theorem State.setCap_lateArbs (s : State) (p) (c) : (s.setCap p c).lateArbs = s.lateArbs := rfl
@[simp] theorem State.setCap_wheels (s : State) (p) (c) : (s.setCap p c).wheels = s.wheels := rfl
@[simp] theorem State.setCap_scrLog (s : State) (p) (c) : (s.setCap p c).scrLog = s.scrLog := rfl
@[simp] theorem State.setCap_qtn (s : State) (p) (c) : (s.setCap p c).qtn = s.qtn := rfl
@[simp] theorem State.setCap_jobs (s : State) (p) (c) : (s.setCap p c).jobs = s.jobs := rfl
@[simp] theorem State.setCap_steps (s : State) (p) (c) : (s.setCap p c).steps = s.steps := rfl
@[simp] theorem State.setCap_partSteps (s : State) (p) (c) : (s.setCap p c).partSteps = s.partSteps := rfl
@[simp] theorem State.setCap_wrote (s : State) (p) (c) : (s.setCap p c).wrote = s.wrote := rfl
@[simp] theorem State.setCap_raised (s : State) (p) (c) : (s.setCap p c).raised = s.raised := rfl
@[simp] theorem State.setCap_pwr (s : State) (p) (c) : (s.setCap p c).pwr = s.pwr := rfl
@[simp] theorem State.setCap_bist (s : State) (p) (c) : (s.setCap p c).bist = s.bist := rfl
@[simp] theorem State.setCap_thm (s : State) (p) (c) : (s.setCap p c).thm = s.thm := rfl
@[simp] theorem State.setCap_evr (s : State) (p) (c) : (s.setCap p c).evr = s.evr := rfl
@[simp] theorem State.setCap_mram (s : State) (p) (c) : (s.setCap p c).mram = s.mram := rfl
@[simp] theorem State.setCap_cla (s : State) (p) (c) : (s.setCap p c).cla = s.cla := rfl
@[simp] theorem State.setCap_media (s : State) (p) (c) : (s.setCap p c).media = s.media := rfl
@[simp] theorem State.setCap_dbg (s : State) (p) (c) : (s.setCap p c).dbg = s.dbg := rfl
@[simp] theorem State.setCap_out (s : State) (p) (c) : (s.setCap p c).out = s.out := rfl
@[simp] theorem State.setCap_free (s : State) (p) (c) : (s.setCap p c).free = s.free := rfl

end Sys2Proof.Machine
end

