-- ==== Sys2Proof/WellFormed.lean ====
section
/-!
DEFINITION. Well-formed commands: the shape the protocols of spec/ give each command's operands, where an operand's type
does not give it already. Nothing outside the device sends a command that is not well formed; `exec` answers such a
command too, with whatever its rules make of it.
-/
namespace Sys2Proof

/-- Every register address is a multiple of 4 (R6). -/
def wfAddr (a : Nat) : Bool := a % 4 == 0

/-- Table LNK-5: the widths of the header's fields. -/
def KftHdr.wf (h : KftHdr) : Bool :=
  decide (h.srcDev < 2 ^ 17) && decide (h.dstDev < 2 ^ 17) && decide (h.cls < 4) && decide (h.conn < 2 ^ 32) &&
  decide (h.psn < 2 ^ 32) && decide (h.ackPsn < 2 ^ 32)

/-- Tables LNK-5 and LNK-6: a 40-bit offset, and a payload of at most 4,096 bytes with its 16-byte header. -/
def wfData (addr len : Nat) : Bool := decide (addr < 2 ^ 40) && decide (len ≤ 4080)

/-- Table LNK-7: the widths of a JOB_FAULT's fields. -/
def JobFaultMsg.wf (m : JobFaultMsg) : Bool :=
  decide (m.cause < 2 ^ 8) && decide (m.job < 2 ^ 16) && decide (m.origin < 2 ^ 19) && decide (m.seq < 2 ^ 32) &&
  decide (m.hops < 2 ^ 8) && decide (m.beat < 2 ^ 64) && decide (m.phase < 2 ^ 16) && decide (m.step16 < 2 ^ 16) &&
  decide (m.unit < 2 ^ 32)

/-- Table LNK-7: the widths of a BEAT_ANN's fields. -/
def BeatAnnMsg.wf (m : BeatAnnMsg) : Bool :=
  decide (m.state < 4) && decide (m.sender < 2 ^ 17) && decide (m.beat < 2 ^ 64) && decide (m.phase < 2 ^ 16) &&
  decide (m.epoch < 2 ^ 48)

def ListRef.wf (l : ListRef) : Bool := decide (l.desc < 2 ^ 17)

/-- R157: an error lies in a line that is there: a pseudo-channel has 9,437,184 lines (R455), a scratchpad 8,192 (Table MEM-3). -/
def MemLine.wf : MemLine → Bool
  | .hbm _ _ n => decide (n < 9437184)
  | .scratch u n => decide (u < 672) && decide (n < 8192)

def EccEvent.wf (e : EccEvent) : Bool := e.line.wf

/-- Table LNK-8: the widths of a message's fields; the MAC has 16 bytes. -/
def MgtHdr.wf (m : MgtHdr) : Bool :=
  decide (m.seq < 2 ^ 32) && decide (m.ackSeq < 2 ^ 32) && decide (m.flags < 2 ^ 8) && decide (m.mac.length = 16)

def CmdVia.wf : CmdVia → Bool
  | .mgmt m => m.wf
  | .mctp => true

/-- R56: a packet has a flit at least; it waits at an input and under a tag. -/
def ArbReq.wf (r : ArbReq) : Bool := decide (1 ≤ r.flits)

/-- R395: a picture's samples fill its cropped size, in 4:2:0 or, from JPEG, in 4:4:4. -/
def PicFacts.wf (p : PicFacts) : Bool :=
  decide (p.luma.length = p.width * p.height) &&
  decide (p.chroma.length = if p.fullChroma then 2 * p.width * p.height else (p.width + 1) / 2 * 2 * ((p.height + 1) / 2))

/-- Whether a command has the shape its protocol gives it. -/
def Instr.wf : Instr → Bool
  -- register accesses
  | .registerWrite _ a _ | .loLatchRead _ a => wfAddr a
  | .mgtRead h off count => h.wf && wfAddr off && decide (1 ≤ count) && decide (count ≤ 64)
  | .mgtWrite h off _ _ => h.wf && wfAddr off
  | .mgtAckRx h => h.wf
  | .mctpVendorRead a => wfAddr a
  | .mctpVendorWrite t _ => match t with | .reg a => wfAddr a | .keySlot _ k => decide (1 ≤ k.length)
  | .debugRead a | .debugWrite a _ | .debugForcedRead a => wfAddr a
  | .claTargetAccess _ a _ _ | .claTargetTimeout _ a _ => wfAddr a
  -- lists
  | .nop l | .endList l | .setaddr l | .write l | .enqueue l | .signal l | .wait l | .rsignal l | .copy l
  | .convert l | .tap l | .mma l | .setshape l | .vew l | .vun l | .vred l | .allreduce l | .redscat l
  | .allgather l | .bcast l | .mdec l _ | .menc l | .ckbegin l | .ckwrite l | .ckdone l | .ckread l | .step l
  | .tmark l | .waitbeat l | .waitticks l | .setmark l | .stamp l | .waitbeatRelease l | .waitticksExpiry l
  | .collectiveMark l => l.wf
  | .mflush l ps _ => l.wf && ps.all PicFacts.wf
  | .tileComplete l _ _ ecc => l.wf && ecc.all EccEvent.wf
  | .shadowComplete l _ _ ecc | .arbiterComplete l _ _ ecc => l.wf && ecc.all EccEvent.wf
  | .arbTimeout l _ => l.wf
  | .beatTick ecc _ => ecc.all EccEvent.wf
  | .mediaDecodeComplete l r => l.wf && r.ready.all PicFacts.wf
  | .mediaEncodeComplete l _ => l.wf
  -- links
  | .kftWriteRx h a bs | .kftReadRespRx h a bs | .kftCollRx h _ _ a bs => h.wf && wfData a bs.length
  | .kftReadReqRx h a n => h.wf && decide (a < 2 ^ 40) && decide (1 ≤ n) && decide (n ≤ 4096)
  | .kftSignalRx h _ _ | .kftSignalMaxRx h _ _ | .kftEnqueueRx h _ _ _ | .kftAckRx h _ | .kftNackRx h _ _
  | .agreeRx h _ _ _ | .agreeResultRx h _ _ => h.wf
  | .connReqRx h n | .connAckRx h n | .connCloseRx h n => h.wf && decide (n < 2 ^ 32)
  | .connRejectRx h r => h.wf && decide (r < 256)
  | .jobFaultRx _ _ m => m.wf
  | .beatAnnRx _ _ m => m.wf
  | .bar2Read _ o n => decide (1 ≤ n) && decide (o + n ≤ 2 ^ 40)
  | .bar2Write _ o bs => decide (1 ≤ bs.length) && decide (o + bs.length ≤ 2 ^ 40)
  | .pcieCompletionRx _ a _ bs => decide (a + bs.length ≤ 2 ^ 60)
  | .pcieCplTimeout _ a n => decide (a + n ≤ 2 ^ 60)
  -- quarantine, self-test, power, thermal
  | .churnGrant via level dies => via.wf && decide (level < 2) && decide (dies < 16)
  | .packData via o bs => via.wf && decide (o < 2 ^ 32) && decide (1 ≤ bs.length) && decide (bs.length ≤ 1008)
  | .panelData via o bs => via.wf && decide (o < 2 ^ 16) && decide (1 ≤ bs.length) && decide (bs.length ≤ 1008)
  | .packBegin via i v n => via.wf && decide (i < 2 ^ 32) && decide (v < 2 ^ 32) && decide (n < 2 ^ 32)
  | .quarantine via _ | .suspect via _ | .churnAbort via | .packCommit via | .panelCommit via => via.wf
  | .reinstate via _ _ => via.wf
  | .pmbusPoll rs => decide (rs.length ≤ 16)
  | .thermalSample rs _ => decide (rs.length = 120)
  | .thermalTrip n => decide (n < 120)
  | .agePromotion _ rs _ => rs.all ArbReq.wf
  | .sealMark .. | .sealTimeout .. => true
  -- the Configurable Logic Array: words go with their packet's header (Table CLA-5)
  | .claFrameData _ _ ws => decide (1 ≤ ws.length)
  | .claCheck _ _ ws => decide (ws.length = 2)
  | .claNocInitiatorRequest a r =>
    [0, 2, 4].contains (a.toNat / 2 ^ 60) && (match r with | .read n => decide (1 ≤ n) | .write bs => decide (1 ≤ bs.length))
  | .pcieLinkUp w g => decide (w < 16) && decide (g < 8)
  -- every other command's operands have the shape their types give them
  | .beatRefEdge .. | .beatDerivedEdge .. | .beatLoss .. | .beatLost | .renum .. | .beatCompWrite ..
  | .beatSourceChange .. | .slipCheck .. | .ptpSyncRx .. | .ptpFollowUpRx .. | .ptpDelayRespRx .. | .ptpAnnounceRx ..
  | .doorbell .. | .admissionCandidate .. | .schedulingRound .. | .quotaWindowStart .. | .admCfgWrite ..
  | .admQuotaWindowWrite .. | .admClearRefused .. | .admClearDeferred .. | .queueEnable .. | .queueDisable ..
  | .ringConfigWrite .. | .cplRingConfigWrite .. | .cplConsume .. | .irqTimeout .. | .syncHiWrite .. | .syncLoWrite ..
  | .wheelAdvance .. | .shadowSlotWaitExpiry .. | .mapImageClosed | .reconciliation 
  | .churnKernelResult .. | .churnRunEnd
  | .jobFaultResend | .jobQuiet .. | .jobDeclare .. | .jobRelease .. | .jobRestartArm .. | .jobRestartMark ..
  | .kftRto .. | .connIdleClose .. | .fabricLinkUp .. | .fabricLinkDown .. | .laneFault .. | .routeDataWrite ..
  | .beatAnnSend | .perstDeassert | .pcieLinkReset .. | .functionLevelReset .. | .spdmRequest .. | .reportRetry
  | .mctpControlMsg .. | .pldmGetTid | .pldmSetTid .. | .pldmGetPldmVersion .. | .pldmGetPldmTypes
  | .pldmGetPldmCommands .. | .pldmMonitoringRequest .. | .pldmFirmwareUpdate .. | .pldmUnsupported ..
  | .heartbeatWrite .. | .heartbeatMiss .. | .takeoverComplete | .takeoverOverdue | .engineStall ..
  | .engineResetOverdue .. | .rmgSnapshot | .rmgAckWrite .. | .rstEngine .. | .rstPartition .. | .rstDevice ..
  | .rstClaRegion .. | .fenceDrainEnd .. | .fenceAnswerOverrun .. | .captureComplete .. | .resetPhaseDone ..
  | .captureChunkSend .. | .aonPowerUp .. | .aonResetPin .. | .sysOscQualified | .pllLock .. | .bootImageLoaded ..
  | .pgoodRise .. | .pgoodLoss .. | .hbmTrainingDone .. | .serdesCalDone .. | .wakeStepTimeout .. | .wakeRetryOffEnd ..
  | .wakeGo .. | .domainOn .. | .domainOff .. | .powerFailWarning | .vsetWrite .. | .voutSettled .. | .powerLimiter ..
  | .clockLimitWrite .. | .partCfgWrite .. | .scrubRead .. | .rowRemapCopyDone .. | .bistGroupEnd ..
  | .bistRepairPhaseEnd .. | .thermalResume .. | .thresholdWrite .. | .evrFlush .. | .evrRecordWritten
  | .panelUpdateStart | .panelBusyRelease | .panelDelayExpiry | .panelBusyTimeout | .panelUpdateNow ..
  | .panelClearFailed .. | .claSync .. | .claIdle .. | .claFramePtr .. | .claScope .. | .claDeviceId ..
  | .claActionNone .. | .claClearCheck .. | .claArm .. | .claCommit .. | .claEnd .. | .claStreamSourceEnd ..
  | .claBusPassEnd .. | .claExtGo .. | .claIcpRelease .. | .claRegionHold .. | .claRegionUnhold .. | .claRegionAssign ..
  | .cfgDoneHigh | .claDoneTimeout | .goLocal .. | .releaseDone .. | .claFrameScan .. | .mediaSessionOpen ..
  | .mediaSessionClose .. | .mediaForceKey .. | .mediaPartConfig .. | .traceChannelEnable .. | .traceChannelDisable ..
  | .traceChannelStopped .. | .traceDrain .. | .traceDrainDone .. | .counterClear .. | .counterSample
  | .debugChallenge .. | .debugResponse .. | .debugLock .. | .jtagTestLogicReset | .debugHalt .. | .debugDeferredHalt ..
  | .haltLockBreak .. | .debugResume .. | .jtagIdcode | .jtagSamplePreload .. | .jtagExtest | .jtagExtestPulse
  | .jtagExtestTrain | .jtagClamp | .jtagHighz | .jtagBypass .. | .aonPowerLoss | .claTapData ..
  | .claRegionFrame .. => true

end Sys2Proof
end

