-- ==== Sys2Proof/Tests/Slice0.lean ====
section
/-!
SUPPORT. Tests: the checks of well-formedness refuse what they should, and every statement's hypotheses are met by a concrete
state. The states are small: reset, with a few fields written.
-/
namespace Sys2Proof.Tests

open Sys2Proof Sys2Proof.Machine Sys2Proof.Machine.Reg

set_option maxRecDepth 20000

/-! ### States -/

/-- AON power up and the device in service, every domain on, every counter frozen, partition mode 0, and partition 0's memory on
pseudo-channel 0. -/
def box : State :=
  let s := { State.reset with
    pwr := { PwrSt.reset with aon := true, ready := true }
    mem := { MemSt.reset with chans := [(0, [0])], limit := [(0, 1000)] } }
  (((s.wr cntCtlFreeze 15).wr pwrDomStatusOn 0xFFF).wr sysStatusReady 1).wr pwrWakeStatusDone 1

/-- Box with a register field written. -/
def bx (f : Fld) (v : Nat) : State := box.wr f v

/-- Box with a core's state. -/
def cored (n : Nat) (x : CoreState) : State := box.setCore n { CoreSt.reset with state := x, restarted := none }

def hdr0 : Header :=
  { engine := 3, job := 0, irq := false, serial := false, instrs := 4, tiles := 0, dies := 1, lcFirst := 0, lcCount := 4,
    deadline := ⟨0, 0⟩, runBound := 0, clAddr := 0x1000, cookie := 0 }

/-- A list of queue 0 that is to begin the word `w`. -/
def lst (w : Nat) : RunList :=
  { queue := 0, desc := 0, hdr := hdr0, running := true, as' := List.replicate 16 0x2000, sh := List.replicate 8 none,
    ms := List.replicate 4 ⟨0, 0⟩, step := none, idx := 0, word := some (BitVec.ofNat 128 w), work := .ready, total := 0, done := [],
    held := [], faults := [], asks := [], concealed := 0, progress := 0, ending := none }

def r0 : ListRef := ⟨0, 0⟩

/-- Box with that list alone. -/
def run (w : Nat) : State := { box with lists := [lst w] }

theorem run_lone (s : State) (l : RunList) (op w : Nat)
    (h : s.untraced = true ∧ s.calm = true ∧ s.lists = [l] ∧ s.ready r0 op = some (l, w) ∧ l.faults = [] ∧ l.asks = [] ∧ s.mem.ext = []) :
    s.lone r0 op l w := h

/-! ### Witnesses: the beat -/

def btd (b : BeatSt) : State := { box with beat := b }

/-- An edge at either end of the window, and one before it. -/
theorem wit_qualified (e : Bool) : let s := { (bx beatStatusState 1).wr beatCtlNumSrc 2 with beat := { BeatSt.reset with pred := 320000 } };
    s.pwr.aon = true ∧ s.rd beatCtlSrc = 0 ∧ s.rd beatStatusState = 1 ∧ s.rd beatCompDelay = s.beat.delayInForce ∧ s.beat.renum = false ∧
    2 ≤ s.rd beatCtlNumSrc ∧ (let t := if e then 319200 else 320800; 200 * s.beat.pred ≤ 200 * t + s.period ∧
      200 * t ≤ 200 * s.beat.pred + s.period) := by revert e; decide

/-- The phase at the bounds of the window that the unit holds. -/
theorem wit_holdPhase (b : Bool) : let s := btd { BeatSt.reset with delayInForce := 32, phase := if b then 0 else 32799 };
    s.beat.slew = 0 ∧ s.beat.share = 0 ∧ 32 ≤ s.beat.delayInForce ∧ s.beat.delayInForce < 32768 ∧
    s.beat.phase < s.beat.delayInForce + 32768 := by revert b; decide

/-- The 16th edge of a run in ACQUIRE. -/
theorem wit_lastEdge : let s := btd { BeatSt.reset with lastEdge := some 0, run := 15 };
    s.pwr.aon = true ∧ s.rd beatCtlSrc = 0 ∧ s.rd beatStatusState ≠ 1 ∧ s.beat.lastEdge = some 0 ∧ 159960 ≤ 159960 - 0 ∧
    s.beat.run = 15 ∧ s.rd beatStatusState = 0 ∧ (bx beatCtlSrc 1).rd beatCtlSrc = 1 ∧ (bx beatCtlSrc 1).rd beatStatusState = 0 := by decide

theorem wit_beatEdges :
    (let s := btd { BeatSt.reset with lastEdge := some 0, run := 14 };
      s.pwr.aon = true ∧ s.rd beatCtlSrc = 0 ∧ s.rd beatStatusState ≠ 1 ∧ 159960 ≤ 160040 - 0 ∧ 1 ≤ s.beat.run ∧ s.beat.run < 15) ∧
    (let s := { bx beatStatusState 1 with beat := { BeatSt.reset with pred := 320000 } };
      s.pwr.aon = true ∧ s.rd beatCtlSrc = 0 ∧ s.rd beatStatusState = 1 ∧ 200 * 319199 + s.period < 200 * s.beat.pred) ∧
    (let s := { ((bx beatStatusState 1).wr beatCtlSrc 1).wr beatCtlNumSrc 2 with beat := { BeatSt.reset with lastEdge := some 0 } };
      s.pwr.aon = true ∧ s.rd beatCtlSrc = 1 ∧ s.rd beatStatusState = 1 ∧ 2 ≤ s.rd beatCtlNumSrc ∧
      s.rd beatCompDelay = s.beat.delayInForce ∧ s.beat.renum = false ∧ s.beat.lastEdge = some 0) := by decide

theorem wit_beatLoss :
    (let s := bx beatStatusState 1;
      s.pwr.aon = true ∧ s.rd beatCtlSrc = 0 ∧ s.rd beatStatusState = 1 ∧ 200 * s.beat.pred + s.period < 200 * 801) ∧
    (let s := (bx beatStatusState 2).wr beatStatusHoldCount 10000;
      s.rd beatStatusState = 2 ∧ s.rd beatStatusHoldCount = 10000) := by decide

theorem wit_beatTick : let s := bx beatCtlOutEn 0;
    s.pwr.aon = true ∧ (∀ d, d < 4 → 100 ≤ s.rd (clkPct d)) ∧ s.dbg.trace = [] ∧ s.rd beatCtlOutEn = 0 ∧
    s.rd beatStatusState ≠ 2 ∧ s.beat.slew = 0 ∧ s.beat.num + 1 < 2 ^ 48 := by decide

theorem wit_beatRegisters :
    (box.pwr.aon = true ∧ box.rd beatStatusState = 0 ∧ bitsOf (2 : Word32).toNat 4 2 = box.rd beatCtlNumSrc ∧
      bitsOf (2 : Word32).toNat 1 1 ≠ box.rd beatCtlSrc ∧ bitsOf (2 : Word32).toNat 9 1 = 0) ∧
    (((((bx beatStatusState 1).wr beatCtlSrc 1).wr beatCtlNumSrc 0).wr beatCtlOutEn 0).wr beatCtlOutFree 0).rd beatStatusState = 1 ∧
    ((((box.wr beatCtlSrc 1).wr beatCtlNumSrc 0).wr beatCtlOutEn 0).wr beatCtlOutFree 0).rd beatStatusState ≠ 1 ∧
    (let s := bx beatStatusState 1;
      s.pwr.aon = true ∧ s.rd beatStatusState = 1) := by decide

theorem wit_slipCheck : let s := (bx beatStatusState 1).wr beatStatusPtpLock 1;
    s.rd beatStatusState = 1 ∧ s.rd beatStatusPtpLock = 1 ∧ s.beat.num % 65536 = 0 ∧ s.beat.phase = 0 ∧
    fractionOk (s.ptpNumber 0).2 = true := by decide

def src0 : PtpSource := ⟨.management false, 0, 7⟩

def led (asked : Bool) : State :=
  btd { BeatSt.reset with ptpMaster := some (src0, ⟨7, 0, 0, 0, 0, 0, 0⟩), ptpAwait := some src0, ptpAsked := asked }

theorem wit_ptp (b : Bool) : (led b).fromMaster src0 = true ∧ (led b).beat.ptpAwait = some src0 ∧ (-4 ≤ (-4 : Int) ∧ (1 : Int) ≤ 1) ∧
    (led b).beat.ptpAsked = b ∧ box.ptpHears src0 = true ∧ box.master = none := by revert b; decide

/-! ### Witnesses: queues and admission -/

theorem wit_doorbell :
    (box.ownsQueue .mgmt 0 = true ∧ box.rd (queCtlDevEnq 0) = 0 ∧ box.ringCap 0 = 256 ∧ box.pendingCount 0 = 0 ∧
      countBetween 256 (box.rd (queHeadHead 0)) 255 = 255) ∧
    ((bx (queCtlDevEnq 0) 1).ownsQueue .mgmt 0 = true ∧ (bx (queCtlDevEnq 0) 1).rd (queCtlDevEnq 0) = 1) ∧
    (2 * box.ringCap 0 ≤ bitsOf (512 : Word32).toNat 0 17) ∧
    (256 < 2 * box.ringCap 0 ∧ box.ringCap 0 - 1 < countBetween 256 (box.rd (queHeadHead 0)) 256) ∧
    (countBetween 256 ((bx (queTailTail 0) 5).rd (queHeadHead 0)) 4 < (bx (queTailTail 0) 5).pendingCount 0) := by decide

def hdr1 : Header := { hdr0 with job := 1, instrs := 2, lcCount := 0, clAddr := 0x40 }

/-- Queue 0 in `s`, bound to job 1, holds one descriptor at offset 0, of a list whose header is at 0x40. -/
def asking (s : State) : State :=
  let s1 := (((s.wr (queCtlEn 0) 1).wr (queBindJob 0) 1).wr (queTailTail 0) 1).wr beatStatusState 1
  { s1 with mem := { s1.mem with
    bytes := [(0, 0x40), (0x40, 0x3A), (0x41, 0x5C), (0x42, 1), (0x43, 3), (0x44, 1), (0x48, 2), (0x50, 1)] } }

theorem wit_admissionCandidate :
    (let s := asking ((cored 2 .running).wr (queAdmCfgClass 0) 1);
      s.classOf 0 < 2 ∧ s.schedulerUp = true ∧ s.judge 0 = .pass hdr1 ∧ s.touchCandidate 0 = s ∧ s.freeRecords 0 ≠ 0) ∧
    (let s := (asking ((cored 2 .running).wr (queAdmCfgClass 0) 1)).setQueue 0 { QueueSt.reset with used := 512 };
      s.classOf 0 < 2 ∧ s.schedulerUp = true ∧ s.judge 0 = .pass hdr1 ∧ s.touchCandidate 0 = s ∧ s.freeRecords 0 = 0) := by decide

/-- Every queue but 0 is of TC1. -/
def soleTc2 (s : State) : State := (List.range 63).foldl (fun t i => t.wr (queAdmCfgClass (i + 1)) 1) s

theorem wit_round (b : Bool) :
    let s := soleTc2 (asking (cored 2 (if b then .running else .halted)));
    (s.queuesOf 0).filter (fun x => s.classOf x == 2) = [0] ∧ (s.queuesOf 0).filter (fun x => s.classOf x == 3) = [] ∧
    s.schedulerUp = b ∧ s.judge 0 = .pass hdr1 ∧ s.freeRecords 0 ≠ 0 := by revert b; decide

theorem wit_turn :
    let s := asking (cored 2 .running);
    s.touchCandidate 0 = s ∧ s.judge 0 = .pass hdr1 ∧ s.freeRecords 0 ≠ 0 ∧ s.turnOpen 0 = true ∧ hdr1.serial = false ∧
    ((s.takeUp 0 hdr1).findList 0 (s.queue 0).cand).isSome = true := by decide

/-- Lists of the candidate's engine in as many slots as it has. -/
def crowded (s : State) : State := { asking s with lists := (List.range 40).map (fun i => { lst 0 with queue := i + 1, work := .waitBeat ⟨1, 0⟩ }) }

/-- The candidate would pass, or its header names another job. -/
theorem wit_turnClosed (b : Bool) : let s := if b then crowded (cored 2 .running) else (crowded (cored 2 .running)).wr (queBindJob 0) 2;
    s.touchCandidate 0 = s ∧ (match s.judge 0 with | .pass _ => true | _ => false) = b ∧ s.freeRecords 0 ≠ 0 ∧ s.turnOpen 0 = false := by
  revert b; decide

theorem wit_quotaWindow :
    (box.ownsQueue .mgmt 0 = true ∧ (box.queue 0).winNext ≤ box.beat.num ∧ (box.queue 0).held = false) ∧
    (let s := box.setQueue 0 { QueueSt.reset with winNext := 1 };
      s.beat.num < (s.queue 0).winNext) := by decide

def req (tag : Word64) : ArbReq := ⟨0, tag, 4, 0, 0⟩

/-- A request at router 0 with reserved tag bits set, and one of the longest packet at an output that is free. -/
theorem wit_arbiter : isHbm (.router 0) = false ∧ (box.arb (arbKey (.router 0))).waiting = [] ∧
    box.badTag (req 1).tag = true ∧ box.badTag (req (tagOf 1 0 0 0 0 2 0)).tag = false ∧ 1 ≤ (req 0).flits ∧ (req 0).flits ≤ 4 ∧
    (box.arb (arbKey (.router 0))).free ≤ (box.arb (arbKey (.router 0))).cycle ∧ (box.arb (arbKey (.router 0))).tc0 = [] := by decide

theorem wit_admissionRegisters :
    (box.pendingCount 0 = 0 ∧ box.lists = []) ∧ (box.ownsQueue (.pf 0) 0 = true ∧ bitsOf (0 : Word32).toNat 0 2 = 0) ∧
    (let s := box.setQueue 0 { QueueSt.reset with credits := 1 };
      s.classOf 0 ≠ 0 ∧ (s.queue 0).credits ≠ 0) := by decide

theorem wit_queueEnable :
    (let s := (((box.wr (queBindJob 0) 1).wr (jobIdValid 0 0) 1).wr (jobIdJob 0 0) 1);
      s.ownsQueue .mgmt 0 = true ∧ s.rd (queCtlEn 0) = 0 ∧ bitsOf (1 : Word32).toNat 0 1 = 1 ∧ s.enableRefused 0 = false ∧
      (s.jobEntry (s.partOfQueue 0) (s.rd (queBindJob 0))).isSome = true) ∧
    (let s := box.wr (queBindJob 0) 1;
      s.ownsQueue .mgmt 0 = true ∧ s.rd (queCtlEn 0) = 0 ∧ s.enableRefused 0 = false ∧
      s.jobEntry (s.partOfQueue 0) (s.rd (queBindJob 0)) = none ∧ s.freeEntry (s.partOfQueue 0) = some 0) ∧
    (let s := bx (queCplSizeLog2 0) 8;
      s.ownsQueue .mgmt 0 = true ∧ s.rd (queCtlEn 0) = 0 ∧ s.enableRefused 0 = true) ∧
    (let s := bx (queCtlEn 0) 1;
      s.ownsQueue .mgmt 0 = true ∧ s.rd (queCtlEn 0) = 1 ∧ bitsOf (0 : Word32).toNat 0 1 = 0) := by decide

theorem wit_ringConfig : (bx (queCtlEn 0) 1).rd (queCtlEn 0) = 1 ∧
    (box.ownsQueue .mgmt 0 = true ∧ box.rd (queCtlEn 0) = 0 ∧ box.lists = []) := by decide

theorem wit_completions :
    (let s := box.setQueue 0 { QueueSt.reset with used := 1 };
      s.ownsQueue .mgmt 0 = true ∧ 1 < s.cplSize 0 ∧ (1 + s.cplSize 0 - s.rd (queCplConsIndex 0) % s.cplSize 0) % s.cplSize 0 = 1 ∧
      1 ≤ (s.queue 0).used) ∧
    (box.cplSize 0 ≤ bitsOf (512 : Word32).toNat 0 17 ∧
      (box.queue 0).used < (1 + box.cplSize 0 - box.rd (queCplConsIndex 0) % box.cplSize 0) % box.cplSize 0) ∧
    (let s := { ((((bx (queIrqCfgEn 0) 1).wr (queIrqTimeoutBeats 0) 5).wr (hifStatusUp 0) 1).setMsixWord 0 12 1).setQueue 0
        { QueueSt.reset with irqSince := some 0 } with
        beat := { BeatSt.reset with ticks := 5 }, link := { LinkSt.reset with busMaster := 1 } };
      (s.queue 0).irqSince = some 0 ∧ s.rd (queIrqCfgEn 0) = 1 ∧ s.rd (queIrqTimeoutBeats 0) ≠ 0 ∧
      0 + s.rd (queIrqTimeoutBeats 0) ≤ s.tick ∧ s.linkUp = true ∧ s.link.busMaster.testBit (s.partOfQueue 0) = true ∧
      s.msixMasked (s.partOfQueue 0) (s.rd (queIrqCfgVector 0)) = false) := by decide

theorem wit_syncWrites : box.ownsPart .mgmt 0 = true ∧ box.lists = [] ∧ box.calm = true := by decide

/-- One packet of a class and an age at an output. -/
def item (cls age : Nat) : ArbItem := ⟨0, tagOf 1 0 0 0 0 cls 0, 4, 5, age, none⟩

def output (cls age : Nat) : ArbSt := { ArbSt.reset with waiting := [item cls age] }

def rules : ArbRules := ⟨256, 64, 64⟩

/-- A TC0 packet within its shaping, one promoted at 4,096 cycles, a TC1 packet, and a TC3 packet alone. -/
theorem wit_grant : (item 0 0 ∈ heads (output 0 0).waiting ∧ (item 0 0).cls = 0 ∧ (output 0 0).shaped rules (item 0 0) = true) ∧
    ((∀ z ∈ heads (output 2 4096).waiting, z.cls = 0 → (output 2 4096).shaped rules z = false) ∧
      item 2 4096 ∈ heads (output 2 4096).waiting ∧ (item 2 4096).promoted = true ∧ (output 2 4096).promotedAt = none ∧
      (item 2 4095).promoted = false) ∧
    ((∀ z ∈ heads (output 1 5000).waiting, z.cls = 0 → (output 1 5000).shaped rules z = false) ∧
      (∀ z ∈ heads (output 1 5000).waiting, z.promoted = false) ∧ item 1 5000 ∈ heads (output 1 5000).waiting ∧ (item 1 5000).cls = 1) ∧
    ((output 3 0).pick rules = some (item 3 0) ∧ (item 3 0).cls = 3 ∧ (item 3 0).promoted = false) := by decide

/-! ### Witnesses: instructions of the sequencer -/

theorem wit_nop : (run 0).lone r0 0x00 (lst 0) 0 ∧ leftover 0 [] = false ∧ (run 0).follows (lst 0) = true :=
  ⟨run_lone _ _ _ _ (by decide), by decide⟩

theorem wit_setaddr : (run 0x02).lone r0 0x02 (lst 0x02) 0x02 ∧ leftover 0x02 [(8, 1), (16, 4), (64, 64)] = false ∧
    (run 0x02).follows { lst 0x02 with as' := (lst 0x02).as'.set 0 0 } = true :=
  ⟨run_lone _ _ _ _ (by decide), by decide⟩

theorem wit_setmarkReserved : (run 0x50092).lone r0 0x92 (lst 0x50092) 0x50092 ∧ 4 ≤ fSlot 0x50092 :=
  ⟨run_lone _ _ _ _ (by decide), by decide⟩

theorem wit_setmark : (run 0x92).lone r0 0x92 (lst 0x92) 0x92 ∧ leftover 0x92 [(16, 4), (20, 16), (64, 64)] = false ∧
    fSlot 0x92 < 4 ∧ (run 0x92).follows { lst 0x92 with ms := (lst 0x92).ms.set 0 ⟨fImm64 0x92, fImm 0x92 0 16⟩ } = true :=
  ⟨run_lone _ _ _ _ (by decide), by decide⟩

theorem wit_setshape : (run 0x31).lone r0 0x31 (lst 0x31) 0x31 ∧ bitsOf 0x31 11 5 = 0 ∧ bitsOf 0x31 124 4 = 0 ∧
    (run 0x31).follows { lst 0x31 with sh := (lst 0x31).sh.set 0 (some ⟨0, 0, 0, 0, 0, 0⟩) } = true :=
  ⟨run_lone _ _ _ _ (by decide), by decide⟩

theorem wit_step : let s := run 0x80;
    s.lone r0 0x80 (lst 0x80) 0x80 ∧ leftover 0x80 [(20, 44), (64, 64)] = false ∧ s.badStep 0 0 0 = false ∧
    ((s.raiseStep 0 0 0).qualify (s.partOf (lst 0x80)) 0 0 0).follows { lst 0x80 with step := some 0 } = true :=
  ⟨run_lone _ _ _ _ (by decide), by decide⟩

theorem wit_tmark : (run 0x81).ready r0 0x81 = some (lst 0x81, 0x81) ∧ leftover 0x81 [(64, 64)] = false := by decide

theorem wit_signal : let s := run 0x10;
    s.lone r0 0x10 (lst 0x10) 0x10 ∧ leftover 0x10 [(8, 1), (20, 12), (64, 64)] = false ∧
    ((s.noteRaised 0 0 0).setSync 0 0 0).follows (lst 0x10) = true :=
  ⟨run_lone _ _ _ _ (by decide), by decide⟩

theorem wit_rsignal : let s := run 0x12;
    s.lone r0 0x12 (lst 0x12) 0x12 ∧ leftover 0x12 [(8, 1), (20, 12), (49, 2), (51, 1), (64, 64)] = false ∧
    fImm 0x12 31 1 = 0 ∧ s.present (fImm 0x12 29 2) = true ∧ s.fenced (fImm 0x12 29 2) = false ∧ ((s.noteRaised 0 0 0).setSync 0 0 0).follows (lst 0x12) = true :=
  ⟨run_lone _ _ _ _ (by decide), by decide⟩

/-- RSIGNAL and ENQUEUE with REMOTE, to the device of identifier 1. -/
theorem wit_remote : (let w := 0x12 + 2 ^ 51 + 2 ^ 32; let s := { bx fabDevIdValid 1 with lists := [lst w] };
      s.lone r0 0x12 (lst w) w ∧ leftover w [(8, 1), (20, 12), (49, 2), (51, 1), (64, 64), (32, 17)] = false ∧ fImm w 31 1 = 1 ∧
      s.rd fabDevIdValid = 1 ∧ fImm w 12 17 = 1 ∧ s.ownId 1 = false) ∧
    (let w := 0x04 + 2 ^ 43 + 2 ^ 26; let s := { bx fabDevIdValid 1 with lists := [lst w] };
      s.lone r0 0x04 (lst w) w ∧ fImm w 23 1 = 1 ∧ leftover w [(16, 4), (20, 6), (43, 1), (64, 32), (26, 17)] = false ∧
      (lst w).slot (fSlot w) / 2 ^ 60 = 0 ∧ (lst w).slot (fSlot w) % 64 = 0 ∧ s.rd fabDevIdValid = 1 ∧ fImm w 6 17 = 1 ∧ s.ownId 1 = false) :=
  ⟨⟨run_lone _ _ _ _ (by decide), by decide⟩, run_lone _ _ _ _ (by decide), by decide⟩

/-- WAIT for 0, which any object has reached, and for 1. -/
theorem wit_wait (v : Fin 2) : let w := 0x11 + 2 ^ 64 * v.val;
    (run w).lone r0 0x11 (lst w) w ∧ leftover w [(20, 12), (64, 64)] = false ∧ fImm64 w = v.val ∧
    (run w).syncVal ((run w).partOf (lst w)) (fImm w 0 12) = 0 ∧ (run w).follows (lst w) = true :=
  ⟨run_lone _ _ _ _ (by revert v; decide), by revert v; decide⟩

/-- WAITBEAT of mark 0, which is reached, and of mark 1; WAITTICKS of 0 and of 1. -/
theorem wit_waitbeat (v : Fin 2) : let w := 0x90 + 2 ^ 64 * v.val;
    (run w).lone r0 0x90 (lst w) w ∧ leftover w [(20, 16), (64, 64)] = false ∧
    (run w).reached ⟨fImm64 w, fImm w 0 16⟩ = decide (v = 0) ∧ (run w).follows (lst w) = true :=
  ⟨run_lone _ _ _ _ (by revert v; decide), by revert v; decide⟩

theorem wit_waitticks (v : Fin 2) : let w := 0x91 + 2 ^ 64 * v.val;
    (run w).lone r0 0x91 (lst w) w ∧ leftover w [(64, 64)] = false ∧ fImm64 w = v.val ∧ (run w).follows (lst w) = true :=
  ⟨run_lone _ _ _ _ (by revert v; decide), by revert v; decide⟩

/-- A list that waits. -/
def held (k : Work) : State := { box with lists := [{ lst 0x90 with work := k }] }

theorem wit_release (v : Fin 2) :
    let m : Mark := ⟨v.val, 0⟩
    let s := held (.waitBeat m)
    let l := { lst 0x90 with work := .waitBeat m };
    s.untraced = true ∧ s.lists = [l] ∧ l.queue = r0.queue.val ∧ l.desc = r0.desc ∧ l.running = true ∧ l.ending = none ∧
    l.faults = [] ∧ l.asks = [] ∧ s.mem.ext = [] ∧ s.calm = true ∧ s.follows l = true ∧ s.reached m = decide (v = 0) := by revert v; decide

theorem wit_expiry (v : Fin 2) :
    let s := held (.waitTicks v.val)
    let l := { lst 0x90 with work := .waitTicks v.val };
    s.untraced = true ∧ s.lists = [l] ∧ l.queue = r0.queue.val ∧ l.desc = r0.desc ∧ l.running = true ∧ l.ending = none ∧
    l.faults = [] ∧ l.asks = [] ∧ s.mem.ext = [] ∧ s.calm = true ∧ s.follows l = true ∧ (v.val ≤ s.beat.ticks ↔ v = 0) := by revert v; decide

theorem wit_write : let s := run 0x03;
    s.lone r0 0x03 (lst 0x03) 0x03 ∧ leftover 0x03 [(16, 4), (64, 64)] = false ∧
    s.badRange (lst 0x03) allSpaces 8 ⟨(lst 0x03).slot 0, 8⟩ = false ∧ (lst 0x03).slot 0 / 2 ^ 60 < 2 ∧
    s.outstanding (lst 0x03) = false ∧
    (let t := s.jobStore (lst 0x03) (s.listTag (lst 0x03)) false 0x2000 (leBytes 8 0);
      t.untraced = true ∧ t.calm = true ∧ t.follows (lst 0x03) = true) :=
  ⟨run_lone _ _ _ _ (by decide), by decide⟩

theorem wit_stamp : let s := run 0x93;
    s.lone r0 0x93 (lst 0x93) 0x93 ∧ leftover 0x93 [(16, 4)] = false ∧
    s.badRange (lst 0x93) allSpaces 16 ⟨(lst 0x93).slot 0, 16⟩ = false ∧ s.outstanding (lst 0x93) = false ∧
    (let t := s.jobStore (lst 0x93) (s.listTag (lst 0x93)) false 0x2000 (leBytes 16 0);
      t.untraced = true ∧ t.calm = true ∧ t.follows (lst 0x93) = true) :=
  ⟨run_lone _ _ _ _ (by decide), by decide⟩

/-- ENQUEUE to queue 0, which the device feeds, or does not. -/
theorem wit_enqueue (b : Bool) :
    let s := { bx (queCtlDevEnq 0) b.toNat with lists := [lst 0x04] };
    s.lone r0 0x04 (lst 0x04) 0x04 ∧ fImm 0x04 0 6 = 0 ∧ fImm 0x04 23 1 = 0 ∧
    leftover 0x04 [(16, 4), (20, 6), (43, 1), (64, 32)] = false ∧
    s.badRange (lst 0x04) allSpaces 64 ⟨(lst 0x04).slot (fSlot 0x04), 64⟩ = false ∧
    s.partOfQueue 0 = s.partOf (lst 0x04) ∧ s.on (queCtlDevEnq 0) = b ∧ s.pendingCount 0 + 1 ≤ s.ringCap 0 - 1 :=
  ⟨run_lone _ _ _ _ (by revert b; decide), by revert b; decide⟩

theorem wit_enqueueFull :
    let s := { (bx (queCtlDevEnq 0) 1).wr (queTailTail 0) 255 with lists := [lst 0x04] };
    s.ringCap 0 - 1 < s.pendingCount 0 + 1 := by decide

theorem wit_ends : ((run 0x01).lone r0 0x01 (lst 0x01) 0x01 ∧ leftover 0x01 [] = false) ∧
    ((run 0x100).lone r0 0x00 (lst 0x100) 0x100 ∧ leftover 0x100 [] = true) ∧ (run 0).lists = [lst 0] ∧ (lst 0).queue < 64 :=
  ⟨⟨run_lone _ _ _ _ (by decide), by decide⟩, ⟨run_lone _ _ _ _ (by decide), by decide⟩, by decide, by decide⟩

def rec0 : Record := { desc := 0, status := 0, engine := 0, tail16 := 0, job := 0, detail := 0, instr := 0, cookie := 0, irq := false }

theorem wit_record : box.untraced = true ∧ box.rd (queIrqCfgEn 0) = 0 ∧ box.rd (queCplProdIndex 0) + 1 < box.cplSize 0 ∧
    box.cplBase 0 < 2 ^ 60 ∧ rec0.status / 16 ≠ 2 ∧ rec0.status / 16 ≠ 3 ∧
    (box.store (box.partOfQueue 0) false false (box.cplBase 0 + 32 * box.rd (queCplProdIndex 0)) (rec0.bytes 1 box.now)).regs =
      box.regs := by decide

/-! ### Witnesses: instructions that move and compute -/

/-- A word of fields, each a value and its low bit. -/
def wd (fs : List (Nat × Nat)) : Nat := fs.foldl (fun a f => a + f.1 * 2 ^ f.2) 0

/-- A list in step 0 that is to begin `w`, its address slots 1 MiB apart and its shape slot 0 a shape of 16 × 16 × 32. -/
def lsw (w : Nat) : RunList :=
  { lst w with as' := (List.range 16).map (fun i => 0x100000 * i), sh := (List.replicate 8 none).set 0 (some ⟨16, 16, 32, 64, 64, 64⟩),
               step := some 0 }

def runS (w : Nat) : State := { box with lists := [lsw w] }

def wCopy : Nat := wd [(0x20, 0), (1, 16), (2, 24), (7, 44), (65537, 84)]

theorem wit_copy : (runS wCopy).lone r0 0x20 (lsw wCopy) wCopy ∧ lowest ((runS wCopy).copyCauses (lsw wCopy) wCopy) = none ∧
    (copySrc (lsw wCopy) wCopy).base / 2 ^ 60 < 2 := ⟨run_lone _ _ _ _ (by decide), by decide⟩

def wCopyBad : Nat := wd [(0x20, 0), (1, 16), (1, 24), (7, 44), (64, 84)]

theorem wit_copyBad : (runS wCopyBad).lone r0 0x20 (lsw wCopyBad) wCopyBad ∧
    lowest ((runS wCopyBad).copyCauses (lsw wCopyBad) wCopyBad) = some 0x0207 := ⟨run_lone _ _ _ _ (by decide), by decide⟩

def wConvert : Nat := wd [(0x21, 0), (1, 16), (2, 24), (7, 44), (5, 52), (64, 84)]

theorem wit_convert : (runS wConvert).lone r0 0x21 (lsw wConvert) wConvert ∧
    lowest ((runS wConvert).convertCauses (lsw wConvert) wConvert) = none ∧
    ∀ x ∈ convertIns (lsw wConvert) wConvert, x.base / 2 ^ 60 < 2 := ⟨run_lone _ _ _ _ (by decide), by decide⟩

/-- TAP of 1 byte to region 7, out of memory and into it. -/
def wTap (b : Bool) : Nat := wd [(0x22, 0), (b.toNat, 8), (2, if b then 24 else 16), (7, 44), (7, 84), (1, 88)]

theorem wit_tap (b : Bool) : let w := wTap b; let s := (runS w).wr (claRegionState 7) 3;
    s.lone r0 0x22 (lsw w) w ∧ lowest (tapCauses s (lsw w) w) = none ∧ (tapRange (lsw w) w).base / 2 ^ 60 < 2 ∧
    s.rd (claRegionState (fTap w)) = 3 ∧ (s.wr (claRegionState 7) 2).rd (claRegionState (fTap w)) ≠ 3 := ⟨run_lone _ _ _ _ (by revert b; decide), by revert b; decide⟩

def wMma : Nat := wd [(0x30, 0), (1, 16), (2, 20), (3, 24), (5, 44), (5, 48), (7, 52)]

theorem wit_mma : let s := runS wMma;
    s.lone r0 0x30 (lsw wMma) wMma ∧ lowest (s.mmaCauses (lsw wMma) wMma) = none ∧
    (lsw wMma).sh.getD (bitsOf wMma 84 3) none = some ⟨16, 16, 32, 64, 64, 64⟩ ∧ (s.wheel (s.partOf (lsw wMma))).watched = [] :=
  ⟨run_lone _ _ _ _ (by decide), by decide⟩

def wVew : Nat := wd [(0x40, 0), (1, 16), (2, 20), (3, 24), (7, 44), (7, 48), (7, 52), (16, 84)]

theorem wit_vew : let s := runS wVew;
    s.lone r0 0x40 (lsw wVew) wVew ∧ lowest (s.vewCauses (lsw wVew) wVew) = none ∧ (s.wheel (s.partOf (lsw wVew))).vwatched = [] :=
  ⟨run_lone _ _ _ _ (by decide), by decide⟩

def wVun : Nat := wd [(0x41, 0), (1, 16), (3, 24), (7, 44), (7, 52), (16, 84)]

theorem wit_vun : let s := runS wVun;
    s.lone r0 0x41 (lsw wVun) wVun ∧ lowest (s.vunCauses (lsw wVun) wVun) = none ∧ (s.wheel (s.partOf (lsw wVun))).vwatched = [] :=
  ⟨run_lone _ _ _ _ (by decide), by decide⟩

def wVred : Nat := wd [(0x42, 0), (1, 16), (3, 24), (7, 44), (7, 52), (16, 84), (16, 104)]

theorem wit_vred : let s := runS wVred;
    s.lone r0 0x42 (lsw wVred) wVred ∧ lowest (s.vredCauses (lsw wVred) wVred) = none ∧
    (s.wheel (s.partOf (lsw wVred))).vwatched = [] := ⟨run_lone _ _ _ _ (by decide), by decide⟩

/-- Cluster 3 of die 0 watched, with its shadow on die 0. -/
theorem wit_issueTile :
    let s : State := { runS wMma with wheels := [(0, { WheelSt.reset with fraction := 1, vfraction := 1, watched := [(3, 0)], vwatched := [(3, 0)] })] };
    targetOf (lsw wMma).hdr 3 = some (0, 3) ∧ (s.backing 0 3).isSome = true ∧
    ((s.wheel (s.partOf (lsw wMma))).shadowDie false 0 3).isSome = true := by decide

/-- The COPY of 65,537 bytes with both tiles issued: tile 1 moves one byte. -/
def moving : RunList := { lsw wCopy with work := .tiles, total := 2 }

def sMove : State := { box with lists := [moving] }

theorem wit_tileComplete : sMove.untraced = true ∧ sMove.calm = true ∧ sMove.runningTile r0 1 = some (moving, wCopy) ∧
    screened (bitsOf wCopy 0 8) = false ∧ moving.held = [] ∧ sMove.shadows = [] ∧
    sMove.tileOut moving wCopy 1 = some ⟨[⟨0x210000, [0], false⟩], []⟩ ∧ moving.done.length + 1 < moving.total ∧
    (let u := sMove.jobStore moving (sMove.ownTag moving wCopy 1) false 0x210000 [0];
      u.lists = [moving] ∧ u.shadows = [] ∧ u.beat = sMove.beat ∧ u.calm = true) := by decide

theorem wit_noTile : sMove.runningTile r0 2 = none := by decide

theorem wit_readBytes : box.readBytes 0 false 0x100 2 = some ([0, 0], []) := by decide

/-! ### Witnesses: collectives, checkpoints, media -/

/-- A member list of the device's own partition 0 alone, at address slot 2. -/
def solo : State := box.store 0 false false 0x200000 (leBytes 4 1 ++ leBytes 4 0)

/-- The collective of opcode `0x50 + k`. -/
def wColl (k : Nat) : Nat := wd [(0x50 + k, 0), (1, 16), (2, 20), (3, 24), (7, 44), (7, 52), (16, 84)]

theorem wit_coll (k : Fin 4) : let w := wColl k.val; let s := { solo with lists := [lsw w] };
    s.lone r0 (0x50 + k.val) (lsw w) w ∧ lowest (s.collCauses (lsw w) w) = none ∧ s.jobs = [] ∧ s.link.agrees = [] ∧
    (s.listOf (lsw w) w).error = none ∧ groups (fCount w) 16384 = 1 ∧ (s.ownPart (lsw w) w 0).map (fun x => x.2) = some [] ∧ (s.listOf (lsw w) w).members = [(s.rd fabDevIdId, s.partOf (lsw w))] ∧
    bitsOf w 118 1 = 0 := ⟨run_lone _ _ _ _ (by revert k; decide), by revert k; decide⟩

def agree1 (pos : Nat) (sent : Bool) : Agree := { pos := pos, members := [(0, 0), (1, 0)], digest := 0, key := 0, diff := false, sent := sent }

/-- A BCAST with MARKED that waits for the mark, which is reached or not. -/
def bcasting (v : Nat) : RunList :=
  { lst 0x53 with work := .coll { agree := agree1 1 true, agreed := true, marked := some ⟨v, 0⟩, sent := false }, total := 1 }

theorem wit_collectiveMark (v : Fin 2) : let l := bcasting v.val; let s := { box with lists := [l] };
    s.lists = [l] ∧ l.queue = r0.queue.val ∧ l.desc = r0.desc ∧ l.running = true ∧ l.ending = none ∧ l.word = some 0x53 ∧
    l.done.length < l.total ∧ s.calm = true ∧ bitsOf 0x53 0 8 = 0x53 ∧ (agree1 1 true).pos ≠ 0 ∧ s.reached ⟨v.val, 0⟩ = decide (v = 0) := by revert v; decide

/-- The device has an identifier, 0, and sub-port 0 is up. -/
def linked : State := ((bx fabDevIdValid 1).wr (fabPortStatusUp 0) 1).wr fabDevIdId 0

def kh : KftHdr :=
  { sub := 0, icrcOk := true, srcDev := 1, srcPart := 0, cls := 0, dstDev := 0, dstPart := 0, conn := 0, psn := 0, ackPsn := 0, tag := 0,
    ce := false, ece := false, poison := false, retx := false, red := false }

theorem wit_agreeRx : linked.takesFrame kh = true ∧ linked.lists = [] ∧ linked.jobs = [] ∧ linked.calm = true ∧ linked.carries = true ∧
    linked.upSubs.contains kh.sub.val = true := by decide

theorem wit_agreeResult : let s := { linked with lists := [bcasting 1] };
    s.takesFrame kh = true ∧ (s.seatWaiting kh.dstPart (kh.tag.toNat / 4096)).isSome = true := by decide

/-- Job 0 in entry 0 of partition 0, its slots of 1 MiB from 0x180000 on, slot A in state `st`. -/
def saved (st : Nat) : State :=
  ((((bx (jobIdValid 0 0) 1).wr (jobCkBaseLoBase 0 0) 0x180).wr (jobCkSizeMib 0 0) 1).wr (jobSlotAState 0 0) st)

theorem wit_ckbegin (st : Fin 2) : let s := { saved st.val with lists := [lsw 0x70] };
    s.lone r0 0x70 (lsw 0x70) 0x70 ∧ leftover 0x70 [(8, 1)] = false ∧ s.badSlot (lsw 0x70) 0x70 = false ∧
    s.jobEntry (s.partOf (lsw 0x70)) (lsw 0x70).hdr.job = some 0 ∧
    (let t := ((s.setSlot 0 0 (fSlotB 0x70) 1).setSlotStep 0 0 (fSlotB 0x70) (s.jobStep (lsw 0x70).hdr.job)).setSeal 0 0 (fSlotB 0x70) none;
      t.untraced = true ∧ t.calm = true ∧ t.follows (lsw 0x70) = true) :=
  ⟨run_lone _ _ _ _ (by revert st; decide), by revert st; decide⟩

theorem wit_ckbeginBad : let s := { saved 2 with lists := [lsw 0x70] };
    s.lone r0 0x70 (lsw 0x70) 0x70 ∧ leftover 0x70 [(8, 1)] = false ∧ s.badSlot (lsw 0x70) 0x70 = true :=
  ⟨run_lone _ _ _ _ (by decide), by decide⟩

theorem wit_ckdone : let s := { saved 1 with lists := [lsw 0x72] };
    s.lone r0 0x72 (lsw 0x72) 0x72 ∧ leftover 0x72 [(8, 1), (116, 2)] = false ∧ s.badSlot (lsw 0x72) 0x72 = false ∧
    s.jobEntry (s.partOf (lsw 0x72)) (lsw 0x72).hdr.job = some 0 ∧
    (let t := (s.setSlot 0 0 (fSlotB 0x72) 2).setSeal 0 0 (fSlotB 0x72)
        (some { mark := ⟨0, 0⟩, late := false, tick := none, agree := none });
      t.untraced = true ∧ t.calm = true ∧ t.follows (lsw 0x72) = true) := ⟨run_lone _ _ _ _ (by decide), by decide⟩

def wCkw : Nat := wd [(0x71, 0), (1, 16), (0, 24), (7, 44), (64, 84)]

theorem wit_ckwrite : let s := { saved 1 with lists := [lsw wCkw] };
    s.lone r0 0x71 (lsw wCkw) wCkw ∧
    lowest (s.ckCauses (lsw wCkw) wCkw ((lsw wCkw).slot (fAsc wCkw)) (s.ckRanges (lsw wCkw) wCkw).1) = none ∧
    (s.ckRanges (lsw wCkw) wCkw).1.base / 2 ^ 60 < 2 := ⟨run_lone _ _ _ _ (by decide), by decide⟩

def wCkr : Nat := wd [(0x73, 0), (0, 16), (1, 24), (7, 44), (64, 84)]

theorem wit_ckread : let s := { saved 3 with lists := [lsw wCkr] };
    s.lone r0 0x73 (lsw wCkr) wCkr ∧
    lowest (s.ckCauses (lsw wCkr) wCkr ((lsw wCkr).slot (fAsa wCkr)) (s.ckRanges (lsw wCkr) wCkr).2) = none :=
  ⟨run_lone _ _ _ _ (by decide), by decide⟩

/-- Session 0 of partition 0 at 16 × 2, a decode session or an encode session. -/
def sess (dec : Bool) (busy : List (Nat × Nat)) (rap : Bool) : SessSt :=
  { desc := overlay 128 [(3, leBytes 1 (!dec).toNat), (8, leBytes 2 16), (10, leBytes 2 2), (28, leBytes 4 64)], part := 0, waitRap := rap,
    halted := false, ready := [], lastStats := false, lastTensor := false, lastFmt := 0, forceKey := false, sinceKey := 0, sweep := 0,
    encoded := 0, qp := 0, busy := busy, later := [], chip := [], spilled := 0, unparsed := [] }

def media (dec : Bool) (busy : List (Nat × Nat)) (rap : Bool) (l : RunList) : State :=
  { (bx (medPartCfgSessCount 0) 1).setSess 0 (some (sess dec busy rap)) with lists := [l] }

def wMed (op : Nat) : Nat := wd [(op, 0), (1, 16), (2, 24), (2, 84)]

/-- MDEC on a session that is free, and on one that another list's instruction holds. -/
theorem wit_mdec (b : Bool) : let w := wMed 0x60; let x := sess true (if b then [(5, 0)] else []) false; let s := { media true [] false (lsw w) with
      media := [(0, some x)] };
    s.sess (fSession w) = some x ∧ s.lone r0 0x60 (lsw w) w ∧ lowest (s.mediaCauses (lsw w) w true) = none ∧ (x.busy = [] ↔ b = false) :=
  ⟨by revert b; decide, run_lone _ _ _ _ (by revert b; decide), by revert b; decide, by revert b; decide⟩

theorem wit_menc : let w := wMed 0x61; let s := media false [] false (lsw w);
    s.sess (fSession w) = some (sess false [] false) ∧ s.lone r0 0x61 (lsw w) w ∧ lowest (s.mediaCauses (lsw w) w false) = none :=
  ⟨by decide, run_lone _ _ _ _ (by decide), by decide⟩

theorem wit_mflush : let s := media true [] false (lsw 0x62); let x := sess true [] false; let n := fSession 0x62;
    s.lone r0 0x62 (lsw 0x62) 0x62 ∧ leftover 0x62 [(8, 8)] = false ∧ s.badSession (lsw 0x62) 0x62 true = false ∧
    s.sess n = some x ∧ x.busy = [] ∧ x.ready = [] ∧ s.rangeFaults (lsw 0x62) (x.ownReads ⟨[], []⟩) = [] ∧
    (let y := { x with busy := [(0, 0)], waitRap := true }
      let t := ((((s.setSess n (some { x with busy := [(0, 0)] })).wr (medSessStatusBusy n) 1).setSess n (some y)).setSess n
        (some (y.leave (0, 0)))).wr (medSessStatusBusy n) 0
      t.untraced = true ∧ t.calm = true ∧ t.follows (lsw 0x62) = true) := ⟨run_lone _ _ _ _ (by decide), by decide⟩

/-- The list's media instruction, on session 0. -/
def onSess (op : Nat) : RunList := { lsw (wMed op) with work := .media 0, total := 1 }

/-- An access unit that the session waits past, one with an error that halts it, one without a picture, and one with a picture. -/
theorem wit_decoded (rap : Bool) : let s := media true [(0, 0)] rap (onSess 0x60); let x := sess true [(0, 0)] rap;
    s.onSession r0 0x60 = some (onSess 0x60, wMed 0x60, 0, x) ∧ s.mem.flaws = [] ∧
    s.rangeFaults (onSess 0x60) (((onSess 0x60).slot (fAsa (wMed 0x60)), fExt (wMed 0x60) 84 32) :: x.ownReads ⟨[], []⟩) = [] ∧
    x.waitRap = rap ∧ decodeDetail x ⟨true, false, false, true, [], ⟨[], []⟩⟩ = some 0x603 ∧
    decodeDetail x ⟨true, false, false, false, [], ⟨[], []⟩⟩ = none ∧ x.ready = [] := by revert rap; decide

theorem wit_encoded : let s := media false [(0, 0)] false (onSess 0x61); let x := sess false [(0, 0)] false;
    s.onSession r0 0x61 = some (onSess 0x61, wMed 0x61, 0, x) ∧ s.mem.flaws = [] ∧
    s.rangeFaults (onSess 0x61) (((onSess 0x61).slot (fAsa (wMed 0x61)), x.picBytes) :: x.ownReads ⟨[], []⟩) = [] ∧
    ([0, 0] : List Byte).length ≤ fExt (wMed 0x61) 84 32 ∧ fExt (wMed 0x61) 84 32 < ([0, 0, 0] : List Byte).length ∧
    fStats (wMed 0x61) = false := by decide

/-! ### Witnesses: screening, quarantine, churn -/

/-- Partition 0's wheel with a boundary due at beat number `b`, its settings those of the registers. -/
def wheeled (b count : Nat) (restart : Bool) : State :=
  { box with wheels := [(0, { WheelSt.reset with bounds := [b], stride := 2, count := count, restart := restart })] }

/-- A boundary not reached, and one reached that does not advance the wheel, that does, and that restarts it. -/
theorem wit_wheelAdvance (b : Fin 2) (n : Fin 2) (t : Bool) : let s := wheeled b.val n.val t; let x := s.wheel 0;
    x.bounds = [b.val] ∧ s.reached ⟨b.val, 0⟩ = decide (b = 0) ∧ x.restart = t ∧ x.count = n.val ∧ x.stride = 2 ∧ s.shadows = [] := by
  revert b n t; decide

/-- Of the periods that a fraction may have, the shortest and the longest. -/
theorem wit_periods : (0 : Nat) < 16 ∧ (0 : Nat) < 256 := by decide

def heldTile : HeldTile :=
  { tile := 0, vector := false, tag := 0, primary := 0, shadowDie := 0, shadowHost := some 1, output := none, sigP := some 5, sigS := none,
    arbHost := none, sameDie := false, first := false, lone := false, mismatch := none, wheel := 0, step := 0 }

/-- A shadow queued at tick 0 on die 0, whose hosts have balance `v`; the wait is one beat. -/
def queued (v : Int) (ticks : Nat) : State :=
  { bx scrSlotWaitBeats 1 with
    beat := { BeatSt.reset with ticks := ticks }
    shadows := [{ queue := 0, desc := 0, tile := 0, since := 0, first := false, host := 1, vector := false }]
    screen := (List.range 168).map (fun u => (u, { ScreenUnit.reset with balance := v })) }

theorem wit_slotWait : (queued 1 1).overdueShadow 0 = some ⟨0, 0, 0, 0, false, 1, false⟩ ∧
    (best (fun v => ((queued 1 1).unit false v).balance) ((queued 1 1).activeOf 0)).isSome = true ∧
    (queued 1 0).overdueShadow 0 = none := by decide

/-- The bounds of the balance. -/
theorem wit_balance : best (fun v => ((queued (-4) 1).unit false v).balance) ((queued (-4) 1).activeOf 0) = some (0, 0) ∧
    ((queued (-4) 1).unit false 0).balance ≤ -4 ∧ -4 < ((queued (-3) 1).unit false 0).balance ∧
    best (fun v => ((queued (-3) 1).unit false v).balance) ((queued (-3) 1).activeOf 0) = some (0, 0) := by decide

/-- Two elements of a VUN that has issued its tile, the shadow of which runs. -/
def wVun2 : Nat := wd [(0x41, 0), (1, 16), (3, 24), (10, 44), (10, 52), (2, 84)]

def shadowed : RunList := { lsw wVun2 with work := .tiles, total := 1, held := [heldTile] }

/-- The VUN in a state whose operand is 0, or lies in poisoned memory. -/
def sShadow (l : RunList) (bad : Bool) : State :=
  let g := 0x100
  { box with lists := [l], mem := { box.mem with poison := if bad then [(hbmKey 0 g 0 / 64, true)] else [] } }

/-- The signature of the shadow's output. -/
def sig2 : Word64 := ((sShadow shadowed false).tileOut shadowed wVun2 0).elim 0 TileOut.signature

theorem wit_shadowComplete (same : Bool) :
    let h := { heldTile with sigP := some (if same then sig2 else ~~~ sig2) }
    let l := { shadowed with held := [h] }
    let s := sShadow l false
    ∃ o s1, s.shadowOf r0 0 = some (l, h) ∧ s.rerun l (l.word.getD 0).toNat h.tile none [] = some (o, s1) ∧ o.faults = [] ∧
      (o.signature = h.sigP.getD 0 ↔ same = true) := by
  cases same
  · exact ⟨_, _, by decide, rfl, rfl, by decide⟩
  · exact ⟨_, _, by decide, rfl, rfl, by decide⟩

theorem wit_shadowPoisoned :
    let s := sShadow shadowed true; ∃ o s1, s.shadowOf r0 0 = some (shadowed, heldTile) ∧
      s.rerun shadowed (shadowed.word.getD 0).toNat heldTile.tile none [] = some (o, s1) ∧ o.faults ≠ [] :=
  ⟨_, _, by decide, rfl, by decide⟩

/-- A vote of which the arbiter runs, on the tile of that list. -/
def vote (a b : Word64) : VoteSt :=
  { queue := 0, desc := 0, job := 0, part := 0, list := shadowed, word := wVun2
    tile := { heldTile with arbHost := some 2, sigP := some a, sigS := some b, mismatch := some 0 } }

/-- The arbiter's signature is the shadow's, the primary's, or neither's. -/
theorem wit_vote (n : Fin 3) : let v := vote (if n = 1 then sig2 else 1) (if n = 0 then sig2 else 2); let s := { box with votes := [v] };
    ∃ o s1, s.findVote 0 0 0 = some v ∧ s1.findVote 0 0 0 = some v ∧ v.tile.arbHost.isSome = true ∧ v.tile.sameDie = false ∧
      v.tile.sigP ≠ v.tile.sigS ∧ s.rerun v.list v.word 0 none [] = some (o, s1) ∧ o.faults = [] ∧
      (some o.signature = v.tile.sigS ↔ n = 0) ∧ (some o.signature = v.tile.sigP ↔ n = 1) := by
  match n with
  | 0 => exact ⟨_, _, by decide, rfl, by decide, rfl, by decide, rfl, by decide, by decide, by decide⟩
  | 1 => exact ⟨_, _, by decide, rfl, by decide, rfl, by decide, rfl, by decide, by decide, by decide⟩
  | 2 => exact ⟨_, _, by decide, rfl, by decide, rfl, by decide, rfl, by decide, by decide, by decide⟩

theorem wit_arbTimeout (t : Fin 2) : let v := vote 1 2
    let s := { (bx scrArbTimeoutBeats 1) with votes := [v], beat := { BeatSt.reset with ticks := t.val } };
    s.findVote 0 0 0 = some v ∧ v.tile.arbHost.isSome = true ∧ v.tile.mismatch = some 0 ∧
    (0 + Nat.max 1 (s.rd scrArbTimeoutBeats) ≤ s.beat.ticks ↔ t = 1) := by revert t; decide

theorem wit_logVote : box.scrLog = [] := by decide

/-- The management core runs, so that commands over MCTP are obeyed. -/
def rmg : State := cored 3 .running

/-- The management core runs, and the active RMG core does not serve. -/
def rmgGone : State := { rmg with hang := { rmg.hang with takeover := some 0 } }

theorem wit_commandIn : (∀ code args, rmg.commandIn .mctp code args = some rmg) ∧ (∀ code args, rmgGone.commandIn .mctp code args = some rmgGone) ∧
    box.cc3Up = false := ⟨fun _ _ => rfl, fun _ _ => rfl, by decide⟩

/-- Units of the lowest and the highest number of each kind, and the ones next to them that do not exist. -/
theorem wit_units : rmg.rmgDown = false ∧ rmgGone.rmgDown = true ∧ unitKey 0x40000000 = some 0 ∧ unitKey 0x4000029F = some 671 ∧ unitKey 0x400002A0 = none ∧ unitKey 0xC000007F = some 1983 ∧
    unitKey 0xC0000080 = none := by decide

/-- REINSTATE of cluster 0, which is QUARANTINED and has a full pass, in the map's epoch or another. -/
def released : State :=
  { (bx qtnPackStatusValid 1).setCore 3 { CoreSt.reset with state := .running, restarted := none } with
    qtn := { QtnSt.reset with map := UnitMap.put [] 0 { state := 2, source := 2, pending := false, lc := 0xFF, since := 0 } }
    mram := { MramSt.shipped with churn := [(0, some { level := 1, version := 0, epoch := 0, seq := 0 })] } }

theorem wit_reinstate : released.cc3Up = true ∧ released.rmgDown = false ∧
    released.reinstateTest 0x40000000 (BitVec.ofNat 32 (released.rd qtnEpochEpoch)) = 0 ∧ unitKey 0x40000000 = some 0 ∧
    released.reinstateTest 0x40000000 (BitVec.ofNat 32 (released.rd qtnEpochEpoch + 1)) = 1 := by decide

def aSet : ChangeSet := { epoch := 2, relaxing := false, entries := [], keys := [], records := [], events := [], at' := 0 }

theorem wit_imageClosed :
    let s := { box with qtn := { QtnSt.reset with sets := [aSet] }, mram := MramSt.shipped.setOther { MapImage.blank with open' := true } };
    s.mram.other.open' = true ∧ s.rmgDown = false ∧ s.qtn.sets = [aSet] := by decide

theorem wit_reconciliation (b : Bool) : let s := { box with beat := { BeatSt.reset with ticks := 999 + b.toNat } };
    (s.qtn.reconciled + 1000 ≤ s.beat.ticks ↔ b = true) ∧ s.mramOk = true := by revert b; decide

theorem wit_agreement : box.disagree = [] := by decide

/-- An active pack, and a run on die 0. -/
def packed : State :=
  { (bx qtnPackStatusValid 1).setCore 3 { CoreSt.reset with state := .running, restarted := none } with
    qtn := { QtnSt.reset with pack := some ⟨1, 0, 0, 2, 1, []⟩ } }

def aRun (b : Bool) : ChurnSt :=
  { level := 1, dies := 1, parts := 1, passed := [], failed := [], packId := 1, packVersion := 0, kernels := 2, aborting := b }

def churning (b : Bool) : State := { packed with qtn := { packed.qtn with churn := some (aRun b) } }

theorem wit_churnGrant : packed.cc3Up = true ∧ packed.rmgDown = false ∧ packed.churnTest 1 0 = 4 ∧ packed.churnTest 1 16 = 4 ∧
    packed.churnTest 1 1 = 0 ∧ packed.churnTest 0 15 = 0 ∧ packed.lists = [] ∧ packed.votes = [] ∧ packed.qtn.churn = none := by decide

theorem wit_churnRun (b : Bool) : (churning b).cc3Up = true ∧ (churning b).rmgDown = false ∧
    (churning b).qtn.churn = some (aRun b) ∧ (churning b).churnTests (aRun b) 0 = true ∧ (aRun b).failed = [] := by revert b; decide

/-- A candidate of 256 bytes with the header that R236 asks for. -/
def pack : PackSlot :=
  { id := 1, version := 0, length := 256, written := 256,
    bytes := [(0, 0x43), (1, 0x48), (2, 0x50), (3, 0x4B), (4, 1), (6, BitVec.ofNat 8 (box.reg sysStep).toNat)] }

def offered (c : PackSlot) : State := { packed with qtn := { packed.qtn with candidate := some c } }

theorem wit_packData : (offered { pack with length := 2 }).qtn.candidate = some { pack with length := 2 } ∧ 1 + 1 ≤ { pack with length := 2 }.length ∧
    { pack with length := 2 }.length < 2 + ([0] : List Byte).length := by decide

theorem wit_packCommit : (offered pack).rmgDown = false ∧ (offered pack).qtn.candidate = some pack ∧ (offered pack).cc3Up = true := by decide

/-- One byte of the candidate has not been written; whether a whole one is accepted rests on keys that the spec leaves to the fuses. -/
theorem wit_packRejected : (offered { pack with written := 255 }).packTest { pack with written := 255 } = 8 := by
  unfold State.packTest
  rw [if_pos (by decide)]

/-! ### Witnesses: job faults and checkpoints -/

def fault (hops : Nat) : JobFaultMsg := ⟨1, 1, 5, 9, hops, 0, 0, 0, 0⟩

theorem wit_jobFaultRx : linked.comesIn (0 : SubPort).val true = true ∧ linked.carries = true ∧ linked.upSubs.contains (0 : SubPort).val = true ∧ linked.link.seen.contains ((fault 2).origin, (fault 2).seq) = false ∧
    1 < (fault 2).hops ∧ (fault 1).hops ≤ 1 ∧ (fault 0).hops ≤ 1 ∧
    ({ linked with link := { linked.link with seen := [(5, 9)] } } : State).link.seen.contains ((fault 2).origin, (fault 2).seq) = true := by decide

/-- A second copy due at tick 1. -/
theorem wit_resend (t : Fin 2) :
    let s := { linked with link := { linked.link with resend := [⟨fault 2, 1⟩] }, beat := { BeatSt.reset with ticks := t.val } };
    s.link.resend = [⟨fault 2, 1⟩] ∧ (1 ≤ s.beat.ticks ↔ t = 1) := by revert t; decide

/-- Entry 15 of partition 0 holds job 7, in state `st`. -/
def jobbed (st : Nat) : State := ((bx (jobIdValid 0 15) 1).wr (jobIdJob 0 15) 7).wr (jobStateState 0 15) st

theorem wit_faultEntry : (jobbed 1).rd (jobStateState 0 15) = 1 := by decide

theorem wit_jobControl : (jobbed 0).ownsPart .mgmt 0 = true ∧ (jobbed 0).rd (jobIdValid 0 15) = 1 ∧ (jobbed 0).rd (jobStateState 0 15) = 0 ∧
    (jobbed 1).rd (jobIdValid 0 15) = 1 ∧ (jobbed 1).jobGone 0 ((jobbed 1).rd (jobIdJob 0 15)) = true ∧
    ({ jobbed 1 with lists := [{ lst 0 with hdr := { hdr0 with job := 7 } }] } : State).jobGone 0 7 = false ∧
    (jobbed 0).jobBound 0 ((jobbed 0).rd (jobIdJob 0 15)) = false ∧
    (((jobbed 0).wr (queCtlEn 3) 1).wr (queBindJob 3) 7).jobBound 0 7 = true := by decide

/-- Entry 15 FAULTED, quiet and with one fault; slot A SEALED at step 0; beat LOCKED; T is `t`. -/
def ready (t : Nat) : State :=
  (((((jobbed 1).wr (jobStateQuiet 0 15) 1).wr (jobStateFaultCount 0 15) 1).wr (jobSlotAState 0 15) 3).wr beatStatusState 2).wr64
    (jobRestartBeatLoNum 0 15) (jobRestartBeatHiNum 0 15) t

/-- GO with COUNT 1: T two beats away and one beat away. -/
theorem wit_restart (t : Fin 2) : let v : Word32 := 0x80000100; let s := ready (t.val + 1);
    s.ownsPart .mgmt 0 = true ∧ v.getLsbD 31 = true ∧
    ((((s.wr (jobRestartCtlForce 0 15) 0).wr (jobRestartCtlCount 0 15) 1).wr (jobRestartCtlSlotB 0 15) 0).restartTest 0 15 false
      false 1 = if t = 1 then 0 else 7) := by revert t; decide

theorem wit_restartTests : (box.rd (jobIdValid 0 15) = 0) ∧ (jobbed 0).rd (jobStateState 0 15) = 0 ∧ (jobbed 2).rd (jobStateState 0 15) = 2 ∧
    (jobbed 1).rd (jobStateQuiet 0 15) = 0 ∧ (ready 2).rd (jobStateQuiet 0 15) = 1 ∧ (ready 2).rd (jobStateFaultCount 0 15) = 1 ∧
    (ready 2).slotState 0 15 false = 3 ∧ (ready 2).slotState 0 15 true = 0 ∧
    ((ready 2).wr (jobRestartStepLoStep 0 15) 1).rd64 (jobRestartStepLoStep 0 15) (jobRestartStepHiStep 0 15) = 1 ∧
    (ready 2).slotStep 0 15 false = 0 := by decide

theorem wit_restartMark (t : Fin 2) :
    let s := { jobbed 2 with jobs := [(15, { JobSt.reset with armed := some (false, 0, 1) })], beat := { BeatSt.reset with num := t.val } };
    (s.job 0 15).armed = some (false, 0, 1) ∧ s.rd (jobIdValid 0 15) = 1 ∧ s.rd (jobStateState 0 15) = 2 ∧
    (1 ≤ s.beat.num ↔ t = 1) := by revert t; decide

/-- A DONE slot B, with its mark at beat 1, or with a vote at tick 0 and a timeout of one tick. -/
def sealing (b t : Nat) (k : Option Nat) : State :=
  let s := ((bx (jobIdValid 0 0) 1).wr (jobSlotBState 0 0) 2).setSeal 0 0 true (some ⟨⟨1, 0⟩, false, k, none⟩);
  { s.wr (jobSealCfgTimeout 0 0) 1 with beat := { BeatSt.reset with num := b, ticks := t } }

theorem wit_sealMark (b : Fin 2) : let s := sealing b.val 0 none;
    (s.job 0 0).seal true = some ⟨⟨1, 0⟩, false, none, none⟩ ∧ s.slotState 0 0 true = 2 ∧ s.reached ⟨1, 0⟩ = decide (b = 1) := by
  revert b; decide

theorem wit_sealTimeout (t : Fin 2) : let s := sealing 1 t.val (some 0);
    (s.job 0 0).seal true = some ⟨⟨1, 0⟩, false, some 0, none⟩ ∧ s.slotState 0 0 true = 2 ∧
    (0 + Nat.max 1 (s.rd (jobSealCfgTimeout 0 0)) ≤ s.beat.ticks ↔ t = 1) := by revert t; decide

/-! ### Witnesses: the fabric -/

/-- Connection 0 to device 1, partition 0, as `newConn` makes it. -/
def conn0 : ConnSt := newConn 0 1 0 0 (some 3) none 0

def open0 (c : ConnSt) : State := linked.setConn 0 (some c)

/-- A frame of the next PSN, of one that came before, and of one beyond a gap. -/
theorem wit_frame : (open0 { conn0 with psnIn := 1 }).hears kh = true ∧ (open0 { conn0 with psnIn := 1 }).connOf kh = some { conn0 with psnIn := 1 } ∧
    ((open0 { conn0 with psnIn := 1 }).acked kh.conn { conn0 with psnIn := 1 } kh none).conn kh.conn = some { conn0 with psnIn := 1 } ∧
    ({ kh with psn := 1 }.psn = 1) ∧ psnBefore 0 1 = true ∧ psnBefore 0x80000002 1 = true ∧ psnBefore 2 1 = false ∧
    (2 + 2 ^ 32 - 1) % 2 ^ 32 < 256 ∧ psnBefore 256 1 = false ∧ (256 + 2 ^ 32 - 1) % 2 ^ 32 < 256 ∧
    conn0.ahead.any (fun x => x.1 == 2) = false := by decide

theorem wit_enqueueRx : let s := bx (queCtlDevEnq 0) 1;
    s.partOfQueue 0 = kh.dstPart.val ∧ s.takesPost 0 = true ∧ box.takesPost 0 = false ∧ s.lists = [] := by decide

theorem wit_acceptCode : tagReserved 1 ≠ 0 ∧ tagReserved 0 = 0 ∧ box.present 1 = false ∧ box.present 0 = true ∧
    ({ box with thm := { box.thm with stop := 2 } } : State).fenced 0 = true ∧
    ({ box with thm := { box.thm with stop := 2 } } : State).present 0 = true ∧ (jobbed 1).present 0 = true ∧ (jobbed 1).fenced 0 = false ∧
    (jobbed 1).jobState 0 7 = some 1 ∧ tagJob (BitVec.ofNat 64 (7 * 2 ^ 48)) = 7 ∧ tagReserved (BitVec.ofNat 64 (7 * 2 ^ 48)) = 0 := by decide

def frame0 (retries : Nat) : OutFrame := ⟨0, .signal 0 1, 0, false, some 0, retries, none⟩

/-- A frame sent at tick 0 that RTO of one tick finds unanswered, or not yet; at its last retry, or not. -/
theorem wit_rto (t : Fin 2) (n : Fin 2) :
    let c := { conn0 with unacked := [frame0 n.val] }
    let s := { ((open0 c).wr fabKftRtoBeats 1).wr fabKftRtoRetry 1 with beat := { BeatSt.reset with ticks := t.val } };
    s.conn 0 = some c ∧ c.unacked.any (fun f => f.psn == 0 && match f.sentAt with
      | some u => decide (u + s.rd fabKftRtoBeats ≤ s.beat.ticks)
      | none => false) = decide (t = 1) ∧
    c.unacked.any (fun f => f.psn == 0 && decide (Nat.max 1 (s.rd fabKftRtoRetry) ≤ f.retries)) = decide (n = 1) := by
  revert t n; decide

theorem wit_ack : (open0 conn0).hears kh = true ∧ (open0 conn0).connOf kh = some conn0 ∧ (open0 conn0).hears { kh with icrcOk := false } = false ∧
    (open0 conn0).hears { kh with dstDev := 1 } = false := by decide

theorem wit_conns (b : Bool) : let c := { conn0 with peer := if b then some 3 else none }; let s := open0 c;
    linked.hears kh = true ∧ linked.keyed kh = none ∧ linked.present kh.dstPart = true ∧ linked.connRoom kh.cls = true ∧
    s.hears kh = true ∧ s.keyed kh = some (0, c) ∧ c.peer = (if b then some 3 else none) ∧ s.connIdle 0 c = true ∧
    (open0 { conn0 with unacked := [frame0 0] }).connIdle 0 { conn0 with unacked := [frame0 0] } = false := by revert b; decide

/-- Device 1 is reached through port 0. -/
theorem wit_connPort : let s := { linked with link := { linked.link with routes := [(1, 1)] } };
    s.hears kh = true ∧ s.keyed kh = none ∧ s.present kh.dstPart = true ∧ s.connRoom kh.cls = true ∧
    (s.choosePort kh.dstPart kh.srcDev kh.srcPart kh.cls).isSome = true :=
  ⟨by decide, by decide, by decide, by decide, by unfold State.choosePort; rw [if_neg (by decide)]; rfl⟩

theorem wit_idleClose (t : Fin 2) : let s := { (open0 conn0).wr fabKftIdleBeats 1 with beat := { BeatSt.reset with ticks := t.val } };
    s.conn 0 = some conn0 ∧ s.connIdle 0 conn0 = true ∧ (conn0.lastUse + Nat.max 1 (s.rd fabKftIdleBeats) ≤ s.beat.ticks ↔ t = 1) := by
  revert t; decide

/-- The first and the last port. -/
theorem wit_linkUp (b : Bool) : let n := if b then 15 else 0;
    ((bx fabDevIdValid 1).wr (fabPortCfgEn n) 1).mayTrain n 0 = true ∧ box.domOn (portDom n) = true := by revert b; decide

theorem wit_linkDown : let s := (bx (fabPortCfgMode 15) 1).wr (fabPortStatusUp 15) 3;
    s.bit (fabPortStatusUp 15) 1 = true ∧
    ((s.wrBit (fabPortStatusUp 15) 1 false).event (fabPortEventLinkDown 15)).portUp 15 = true := by decide

theorem wit_routeData : box.writes .mgmt fabRouteData = true := by decide

theorem wit_beatAnn : let s := (linked.wr fabBeatAnnEn 1).wr (fabPortPeerValid 0 0) 1;
    s.carries = true ∧ s.rd fabBeatAnnEn = 1 ∧ s.beat.num % 65536 = 0 ∧ s.beat.phase = 0 ∧ s.upSubs.filter s.hopSends = [0] := by decide

theorem wit_beatAnnRx : let s := linked.wr beatStatusNumValid 1;
    s.comesIn (0 : SubPort).val true = true ∧ s.on beatStatusNumValid = true ∧ nearestBeat 0 32767 = nearestBeat s.beat.num s.beat.phase ∧
    nearestBeat 0 32768 ≠ nearestBeat s.beat.num s.beat.phase := by decide

/-! ### Witnesses: the host link, memory, management -/

/-- The link of all functions is up, with Bus Master Enable. -/
def hosted : State := { bx (hifStatusUp 0) 1 with link := { box.link with busMaster := 15, perstHigh := true } }

theorem wit_pcieLinkUp : let s := { box with link := { box.link with perstHigh := true } };
    s.link.perstHigh = true ∧ s.pwr.ready = true ∧ s.domOn 9 = true ∧ s.linkUp = false := by decide

theorem wit_pcieLinkReset : hosted.linkUp = true ∧ hosted.lists = [] ∧ hosted.cla.nocReads = [] := by decide

/-- Partition 0 is present, and PF0's FLR resets it; without its dies it is not. -/
theorem wit_flr : hosted.presented 0 = true ∧ (hosted.wr pwrDomStatusOn 0xFF0).presented 0 = true ∧
    (((hosted.wr pwrDomStatusOn 0xFF0).event (hifEventFlr 0)).resetFunction 0).present 0 = false ∧ ((hosted.event (hifEventFlr 0)).resetFunction 0).present 0 = true ∧
    hosted.presented 1 = false := by decide

/-- The list asks for 4 bytes of host memory at address 0. -/
def askingHost : State := { hosted with lists := [{ lst 0x20 with asks := [(2 * 2 ^ 60, 4)] }] }

theorem wit_completion : askingHost.hostOk 0 = true ∧ askingHost.awaited 0 (2 * 2 ^ 60 + 0) ([1, 2, 3, 4] : List Byte).length = true ∧
    askingHost.awaited 0 (2 * 2 ^ 60 + 1) ([1, 2, 3, 4] : List Byte).length = false := by decide

theorem wit_isLate : askingHost.isLate 0 none 0 4 = false ∧ hosted.presented 0 = true ∧ hosted.calm = true := by decide

/-- The last bytes of partition 0's memory, and one byte more, within BAR2. -/
theorem wit_bar2 : hosted.bar2Ok 0 = true ∧ hosted.limitOf 0 = 1000 ∧ 4095998 + 2 ≤ hosted.limitOf 0 * 4096 ∧ 4095999 + 2 ≤ hosted.bar2Size ∧
    hosted.readTagged (hosted.bar2Tag 0) 4095998 2 = some ([0, 0], []) ∧ hosted.limitOf 0 * 4096 < 4095999 + 2 := by decide

/-- The same with the last line poisoned. -/
theorem wit_bar2Poison : let s := { hosted with mem := { hosted.mem with poison := [(hbmKey 0 999 4095 / 64, true)] } };
    s.bar2Ok 0 = true ∧ ∃ bs fs, s.readTagged (s.bar2Tag 0) 4095998 2 = some (bs, fs) ∧ fs ≠ [] :=
  ⟨by decide, _, _, rfl, by decide⟩

theorem wit_bar2Off : ({ hosted with hang := { hosted.hang with waiting := true } } : State).bar2Ok 0 = false ∧ hosted.linkUp = true := by decide

/-- No core runs yet, and the boot ROM answers. -/
theorem wit_bootRom : (cored 3 .held).cc3Up = false ∧ (cored 3 .held).bootRom = true := by decide

theorem wit_place : ∃ k, (box.place 0 false 0x40).key? = some k ∧ (box.place 0 false 0x41).key? = some (k + 1) ∧
    (box.place 0 false (2 ^ 60)).key?.isSome = true ∧ (box.place 0 false (2 ^ 60)).key? ≠ some k := ⟨_, rfl, by decide⟩

/-- Management key 7 is fused and active, and the port has its address. -/
def keyed : State :=
  let s := (rmg.wr mgtKeyCfgFused 128).wr mgtKeyCfgActive 128
  { s with link := { s.link with lease := 5 } }

/-- A message of the key's next SEQ, to the port's address, under the MAC of the state. -/
def mh (type : Nat) (payload : List Byte) : MgtHdr :=
  { vlan := none, src := ⟨false, 0, 0⟩, dst := ⟨false, 5, keyed.rd mgtNetCfgPort⟩, seq := 0, serial := Config.serial, key := 7, flags := 0, ackSeq := 0,
    session := keyed.link.session,
    mac := keyed.mgtMac 7 (mgtHeader type 0 Config.serial.toNat payload.length 7 0 0 keyed.link.session.toNat ++ payload) }

theorem wit_mgt (type : Nat) (payload : List Byte) (h : payload.length ≤ 1024) : (keyed.mgtIn (mh type payload) type payload).isSome = true := by
  have a : keyed.bit mgtKeyCfgFused 7 = true := by decide
  have b : keyed.bit mgtKeyCfgActive 7 = true := by decide
  have c : keyed.link.lastSeq.get (fun _ => 0) 7 < 0 + 1 := by decide
  have d : keyed.cc3Up = true := by decide
  have e : keyed.ownMgtAddr false 5 = true := by decide
  simp_all [State.mgtIn, State.accepts, State.reaches, mh]

/-- The key's SEQ 0 has been used. -/
def usedSeq : State := { keyed with link := { keyed.link with lastSeq := [(7, 1)] } }

theorem wit_mgtReject (type : Nat) (payload : List Byte) (h : payload.length ≤ 1024) : usedSeq.cc3Up = true ∧
    usedSeq.reaches (mh type payload) payload = true ∧ usedSeq.accepts (mh type payload) type payload = false := by
  have c : ¬ usedSeq.link.lastSeq.get (fun _ => 0) 7 < 0 + 1 := by decide
  have e : usedSeq.ownMgtAddr false 5 = true := by decide
  have g : keyed.rd mgtNetCfgPort = usedSeq.rd mgtNetCfgPort := by decide
  refine ⟨by decide, ?_, ?_⟩
  · simp_all [State.reaches, mh]
  · simp_all [State.accepts, mh]

theorem wit_retry (t : Fin 2) : let x : HeldMsg := ⟨0, 6, false, [], 0⟩;
    let s := { rmg.wr mgtRptCfgRetry 1 with link := { box.link with msgs := [x] }, beat := { BeatSt.reset with ticks := t.val } };
    s.cc3Up = true ∧ s.link.msgs = [x] ∧ (x.sentAt + Nat.max 1 (s.rd mgtRptCfgRetry) ≤ s.beat.ticks ↔ t = 1) := by revert t; decide

theorem wit_sideband : hosted.linkUp = true ∧ rmg.cc3Up = true ∧ rmg.bit mgtKeyCfgFused 0 = false ∧ keyed.cc3Up = true ∧
    keyed.bit mgtKeyCfgFused 7 = true ∧ ([0] : List Byte) ≠ [] := by
  refine ⟨by decide, by decide, ?_, by decide, by decide, by decide⟩
  decide

theorem wit_pldm : rmg.sensor 1 = some (rmg.rd (thmDomMaxNow 0)) ∧ (rmg.sensor 22).isSome = true ∧ (pldmCommands 1).contains 0 = false ∧
    (pldmCommands 0).contains 6 = false := by decide

theorem wit_firmware (b : Bool) : let f : FwUpdate := ⟨1, [], b⟩; let s := { rmg with link := { rmg.link with fw := some f, fwStep := if b then 5 else 3 } };
    s.cc3Up = true ∧ s.link.fw = some f ∧ f.verified = b ∧ s.link.fwStep = (if b then 5 else 3) ∧ rmg.link.fwStep = 0 ∧
    ({ rmg with link := { rmg.link with fwStep := 1 } } : State).cc3Up = true := by revert b; decide

/-! ### Witnesses: hangs and resets -/

theorem wit_heartbeat (b : Bool) : let x : CoreState := if b then .running else .restarting;
    ((cored 0 x).core 0).state = x := by revert b; decide

/-- Cores `a` and `b` run; deadline one beat. -/
def beating (t a b : Nat) : State :=
  { ((bx hngHbDeadlineBeats 1).setCore a { CoreSt.reset with state := .running, restarted := none }).setCore b
      { CoreSt.reset with state := .running, restarted := none } with beat := { BeatSt.reset with ticks := t } }

/-- A heartbeat late by nothing and by one tick; a standby that runs, and none. -/
theorem wit_heartbeatMiss (t : Fin 2) (b : Bool) : let s := beating t.val 0 (if b then 1 else 2);
    (s.core 0).state ≠ .held ∧ (s.core 0).frozen = none ∧ (s.core 0).missed = false ∧
    ((s.core 0).since + Nat.max 1 (s.rd hngHbDeadlineBeats) ≤ s.tick ↔ t = 1) ∧
    (let s2 := ((s.setCore 0 { s.core 0 with missed := true }).wrBit hngStatusAlive 0 false).wrBit hngEventHbMiss 0 true;
      ((s2.core 1).state = .running ↔ b = true) ∧ (s2.core 1).missed = false ∧ s2.activeCore = 0) := by revert t b; decide

/-- Both cores of the RMG silent. -/
theorem wit_bothMiss : let s := (beating 1 0 1).setCore 1 { CoreSt.reset with state := .running, restarted := none, missed := true };
    (s.core 0).state ≠ .held ∧ (s.core 0).frozen = none ∧ (s.core 0).missed = false ∧
    (((s.setCore 0 { s.core 0 with missed := true }).wrBit hngStatusAlive 0 false).wrBit hngEventHbMiss 0 true |>.core 1).missed = true := by decide

theorem wit_standbyMiss : let s := beating 1 0 1;
    let s2 := ((s.setCore 1 { s.core 1 with missed := true }).wrBit hngStatusAlive 1 false).wrBit hngEventHbMiss 1 true;
    (s2.core 0).state = .running ∧ (s2.core 0).missed = false ∧ 1 ≠ s2.activeCore := by decide

theorem wit_cc2Miss (v : Fin 2) : let s := (beating 1 2 3).wr hngCfgCc2Policy v.val;
    let s2 := ((s.setCore 2 { s.core 2 with missed := true }).wrBit hngStatusAlive 2 false).wrBit hngEventHbMiss 2 true;
    s2.waitsFor .selfTest = false ∧ (s2.restartCore 2).inService = true ∧ s2.missedAgain 2 = false ∧ s2.missedAgain 3 = false ∧
    s2.rd hngCfgCc2Policy = v.val := by revert v; decide

/-- An instruction of engine 3 without progress since tick 0; deadline and REPEAT of one tick. -/
def stuck (t : Nat) (last : Option Nat) : State :=
  { ((bx hngEngDeadlineBeats 1).wr hngEngDeadlineRepeat 1).wr hngCfgEngEsc 1 with
    lists := [{ lst 0x20 with work := .tiles, total := 1 }]
    hang := { box.hang with stalls := match last with | some n => [(3, some n)] | none => [] }
    beat := { BeatSt.reset with ticks := t } }

theorem wit_stall (t : Fin 2) : let s := stuck t.val none;
    s.findReset (.engine 0 3) = none ∧ s.stalled 0 3 = decide (t = 1) ∧ s.hang.stalls.get (fun _ => none) (0 * 8 + 3) = none ∧
    (stuck 1 (some 0)).hang.stalls.get (fun _ => none) (0 * 8 + 3) = some 0 ∧ (stuck 1 (some 0)).rd hngCfgEngEsc = 1 ∧
    (stuck 1 (some 0)).tick ≤ 0 + (stuck 1 (some 0)).rd hngEngDeadlineRepeat := by revert t; decide

def seq (d : RDom) (phase : Nat) : ResetSeq :=
  { dom := d, phase := phase, cause := 1, drainEnd := 10, since := 0, started := 0, mark := ⟨0, 0⟩, escalated := false, captured := false, slots := [],
    ports := [], next := none }

def resetting (d : RDom) (phase t : Nat) : State :=
  { box with hang := { box.hang with resets := [seq d phase] }, beat := { BeatSt.reset with ticks := t } }

theorem wit_overdueReset (t : Fin 2) : let s := resetting (.engine 0 3) 3 (39 + t.val);
    s.findReset (.engine 0 3) = some (seq (.engine 0 3) 3) ∧ ((seq (.engine 0 3) 3).started + 40 ≤ s.tick ↔ t = 1) := by revert t; decide

/-- A closed snapshot of generation `g`. -/
def snap (g : Nat) : Snapshot := { Snapshot.reset with gen := g }

/-- Snapshots of generations `a` and `b`, at tick `t`. -/
def snapped (a b t : Nat) : State :=
  { cored 0 .running with hang := { (cored 0 .running).hang with snap0 := snap a, snap1 := snap b }, beat := { BeatSt.reset with ticks := t } }

/-- Closed buffers 49 and 50 ticks after the last, and an open one. -/
theorem wit_snapshot (t : Fin 2) (b : Bool) :
    (let s := snapped b.toNat (!b).toNat (49 + t.val);
      (s.core s.activeCore).state = .running ∧ s.hang.takeover = none ∧ (s.tick < s.hang.snapTick + 50 ↔ t = 0) ∧ s.snapTarget = b ∧
      (if b then s.hang.snap1 else s.hang.snap0).open' = false) ∧
    (let s := (snapped b.toNat (!b).toNat 0).setSnap b { Snapshot.reset with open' := true };
      (s.core s.activeCore).state = .running ∧ s.hang.takeover = none ∧ (if s.snapTarget then s.hang.snap1 else s.hang.snap0).open' = true) := by
  revert t b; decide

theorem wit_ackWrite : let s := snapped 1 0 0;
    s.activeCore = 0 ∧ (s.core 0).state = .running ∧ s.snapshots.find? (fun y => y.gen == 1) = some (snap 1) ∧
    s.snapshots.find? (fun y => y.gen == 2) = none := by decide

theorem wit_takeover (t : Fin 2) : let s := { snapped 1 0 (199 + t.val) with hang := { (snapped 1 0 0).hang with takeover := some 0 } };
    s.hang.takeover = some 0 ∧ s.bestSnapshot = some (snap 1) ∧ (0 + 200 ≤ s.tick ↔ t = 1) := by revert t; decide

/-- GO for engine 4 of partition 0, for engine 5, which does not exist, and for the device. -/
theorem wit_rst : (0x80000400 : Word32).getLsbD 31 = true ∧ rstDomain (0x80000400 : Word32).toNat = some (.engine 0 4) ∧
    rstDomain (0x80000500 : Word32).toNat = none ∧ rstDomain (0x80020000 : Word32).toNat = some .device ∧
    box.resetPath .mgmt .device = true ∧ box.resetAllowed .device = true ∧ box.resetPath (.pf 0) .device = false ∧
    (0x400 : Word32).getLsbD 31 = false ∧ box.presented 0 = true := by decide

theorem wit_absorbed : box.present 0 = true ∧
    (resetting .device 3 0).hang.resets.any (fun r => (resetting .device 3 0).inside (.part 0) r.dom) = true ∧
    (resetting (.part 0) 3 0).hang.resets.any (fun r => (resetting (.part 0) 3 0).inside (.engine 0 4) r.dom) = true := by decide

theorem wit_requestReset : box.present 0 = true ∧ box.hang.resets = [] ∧ box.untraced = true := by decide

/-! ### Witnesses: reset phases, AON power -/

/-- A fenced list in the domain's slot. -/
def draining (t : Nat) : State :=
  { resetting (.part 0) 3 0 with lists := [lst 0x20], beat := { BeatSt.reset with interp := 9 + t } }

theorem wit_drain (t : Fin 2) : let s := draining t.val;
    s.findReset (.part 0) = some (seq (.part 0) 3) ∧ (seq (.part 0) 3).next = none ∧ s.slotLists (.part 0) ≠ [] ∧
    ((seq (.part 0) 3).drainEnd ≤ s.units ↔ t = 1) ∧ (resetting (.part 0) 3 0).slotLists (.part 0) = [] ∧
    (resetting (.part 0) 3 0).fenceReads (.part 0) = [] := by revert t; decide

theorem wit_phases (n : Fin 8) : (resetting .device n.val 0).findReset .device = some (seq .device n.val) ∧ (seq .device n.val).phase = n.val ∧
    (resetting .device n.val 0).hang.waiting = false ∧ (seq .device n.val).captured = false ∧ (seq (.part 0) n.val).next = none := by
  revert n; decide

theorem wit_answer (t : Fin 2) : (resetting (.engine 0 4) 4 (2 + t.val)).findReset (.engine 0 4) = some (seq (.engine 0 4) 4) ∧
    (resetting (.part 3) 4 (2 + t.val)).findReset (.part 3) = some (seq (.part 3) 4) ∧
    ((seq (.part 3) 4).since + 2 < (resetting (.part 3) 4 (2 + t.val)).tick ↔ t = 1) := by revert t; decide

/-- A record of 961 bytes that is being copied. -/
def copying : State :=
  { rmg with hang := { rmg.hang with caps := [(0, { length := 961, seq := 1, sent := 0, copying := true })] } }

theorem wit_chunk : (copying.cap 0).copying = true ∧ (copying.core 3).state = .running ∧ copying.link.msgs.length < 64 ∧
    copying.present 0 = true ∧ copying.fenced 0 = false ∧ copying.capResetting 0 = false ∧ Nat.min 960 ((copying.cap 0).length - (copying.cap 0).sent) = 960 ∧
    (copying.chunk 0 (copying.capBase 0 (copying.on (hngCapStatusBuf 0)) + (copying.cap 0).sent) 960).2 = 0 ∧
    960 < (copying.cap 0).length - (copying.cap 0).sent := by decide

/-- The four values of the mode straps. -/
theorem wit_powerUp (m : Fin 4) : State.reset.pwr.aon = false ∧ (m.val % 4 = 3 ↔ m = 3) := by revert m; decide

theorem wit_resetPin : box.pwr.aon = true ∧ (1 : Nat) < 2 ∧ (10 : Nat) ≤ 10 ∧ (2 : Nat) ≤ 9 ∧ (9 : Nat) < 10 ∧ box.rd thmStatusTripped = 0 ∧
    (bx thmStatusTripped 1).rd thmStatusTripped = 1 := by decide

/-- A partition's reset at its end, with partition 0 still there and with its die gone. -/
theorem wit_lostPart : (((resetting (.part 0) 6 0).resetEffect (seq (.part 0) 6)).lostPart (.part 0) = false) ∧
    (((resetting (.part 3) 6 0).resetEffect (seq (.part 3) 6)).lostPart (.part 3) = true) := by decide

/-- A wake that waits. -/
def waking (w : List WakeWait) : State := { box with pwr := { box.pwr with waits := w, wake := some .deviceReset } }

theorem wit_aonWake : (waking []).pwr.stopWake = false ∧ (waking [.osc]).waitsFor .osc = true ∧ (waking []).waitsFor .osc = false ∧
    (waking [.aonPll]).waitsFor .aonPll = true ∧ (waking []).waitsFor .aonPll = false ∧ (waking [.boot]).waitsFor .boot = true ∧
    (waking []).waitsFor .boot = false ∧ (waking [.boot]).pwr.wake = some .deviceReset := by decide

/-- A cold boot, held after W3 and not. -/
theorem wit_coldBoot (b : Bool) : let s := { (waking [.boot]).wr sysStrapWakeHold b.toNat with pwr := { box.pwr with waits := [.boot], wake := some .cold } };
    s.waitsFor .boot = true ∧ s.pwr.wake = some .cold ∧ (let s1 := (s.startCores.setWaits []).hello;
      s1.rd qtnEventMapLost = 0 ∧ s1.recheckPack.rd sysStrapWakeHold = b.toNat) := by
  cases b
  · exact ⟨by decide, by decide, rfl, rfl⟩
  · exact ⟨by decide, by decide, rfl, rfl⟩

theorem wit_oscTimeout (n : Fin 2) : let s := (waking [.osc]).setAttempts 12 (2 + n.val);
    s.pwr.waits = [.osc] ∧ (s.attempts 12 < 3 ↔ n = 0) := by revert n; decide

/-! ### Witnesses: domains, run-time power, scrubbing, self-test -/

theorem wit_pgood (d : Domain) : (((waking [.pgood d]).setPwr { (waking [.pgood d]).pwr with pgood := 0 ||| 2 ^ d.val }).waitsFor (.pgood d) = true) ∧
    (waking [.pll d]).waitsFor (.pll d) = true ∧ (waking [.training d]).waitsFor (.training d) = true ∧
    (waking [.serdes d]).waitsFor (.serdes d) = true ∧ (waking [.pgood d]).pwr.waits = [.pgood d] := by revert d; decide

theorem wit_noWait (d : Domain) : (((waking []).setPwr { (waking []).pwr with pgood := 0 ||| 2 ^ d.val }).waitsFor (.pgood d) = false) := by
  revert d; decide

theorem wit_attempts (n : Fin 2) : let s := (waking [.pgood 0]).setAttempts 0 (2 + n.val);
    s.pwr.waits = [.pgood 0] ∧ (s.attempts (0 : Domain) < 3 ↔ n = 0) ∧ ((waking [.training 5]).attempts (5 : Domain) < 3) := by revert n; decide

theorem wit_retryOff : (waking [.retryOff 11]).waitsFor (.retryOff 11) = true ∧ (waking [.retryOff 11]).pwr.stopWake = false ∧
    (waking [.retryOff 11]).pwr.pgood.testBit (11 : Domain) = false := by decide

theorem wit_pgoodLoss : box.domOn 11 = true ∧ (bx pwrDomStatusOn 0x7FF).domOn 11 = false ∧ (bx pwrDomStatusOn 0x7FF).pwr.waits = [] ∧
    box.rd pwrWakeResultValid = 0 := by decide

/-- PD6 may not go off; PD10 may, without sessions. -/
theorem wit_switch : box.domOn 6 = true ∧ (2 ^ 6 : Nat).testBit (6 : Domain) = true ∧ box.mayGoOff 6 = false ∧
    box.switchRefused 0 (2 ^ 6) = true ∧ box.switchRefused (bitsOf (0x400000 : Word32).toNat 0 12) (bitsOf (0x400000 : Word32).toNat 16 12) = true ∧
    box.switchRefused 0 (2 ^ (10 : Domain).val) = false ∧ box.domOn 10 = true := by decide

/-- Voltages at the bounds of VSET, with and without a regulator in the map; what is in force is 700 mV. -/
theorem wit_vset (v : Fin 2) : let mv := if v = 0 then 650 else 850;
    let s := (((bx (pwrPmbMapValid 0) 1).wr (pwrPmbMapSetpoint 0) 1).setPwr { box.pwr with vNow := [(0, 700)] });
    mv = Nat.min 850 (Nat.max 650 (bitsOf (if v = 0 then (649 : Word32) else 851).toNat 0 10)) ∧ box.setpoints 0 = [] ∧ s.setpoints 0 ≠ [] ∧
    (mv ≤ s.pwr.vNow.get (fun x => Config.vRated x) 0 ↔ v = 0) := by revert v; decide

theorem wit_vout : let s := box.setPwr { box.pwr with vRaise := [(0, some 700)] };
    s.pwr.vRaise.get (fun _ => none) 0 = some 700 ∧ 700 ≤ 690 + 10 ∧ 710 ≤ 700 + 10 ∧ 700 + 10 < 711 := by decide

theorem wit_clock : box.domOn 0 = true := by decide

/-- PD10 off, to be switched on again. -/
theorem wit_domainOn : (bx pwrDomStatusOn 0xBFF).domOn 10 = false ∧ (bx pwrDomStatusOn 0xBFF).switchRefused (2 ^ (10 : Domain).val) 0 = false := by decide

theorem wit_limiter (b : Bool) : let s := (bx bistStatusState b.toNat).wr pwrLimitPeakWatts 1;
    s.pwr.aon = true ∧ ((((s.wr pwrEstNow 2).wr pwrEstMax (Nat.max 2 (s.rd pwrEstMax))).recordPower).rd bistStatusState = b.toNat) ∧
    s.rd pwrLimitPeakWatts < 2 ∧ s.powerLimit ≠ 525 := by revert b; decide

theorem wit_powerFail : box.pwr.aon = true ∧ box.pwr.failSeen = false ∧ (bx pwrWakeStatusHeld 1).rd pwrWakeStatusHeld = 1 ∧
    bitsOf (0x120 : Word32).toNat 4 2 ≠ 3 ∧ bitsOf (0x130 : Word32).toNat 4 2 = 3 := by decide

theorem wit_pmbusPoll (t : Fin 2) : let s := { bx pwrPmbCfgPoll 1 with beat := { BeatSt.reset with ticks := t.val } };
    s.pwr.aon = true ∧ (s.pwr.pmbTick + Nat.max 1 (s.rd pwrPmbCfgPoll) ≤ s.tick ↔ t = 1) := by revert t; decide

/-- Scrubbing of stack 0 enabled at one beat tick; its channel 0 is at line `n`. -/
def scrubbing (n : Nat) : State :=
  { ((bx (hbmScrubCfgEn 0) 1).wr (hbmScrubCfgInterval 0) 1) with
    mem := { box.mem with chan := [(0, { scrub := n, scrubbed := 0, wrapped := false })] }, beat := { BeatSt.reset with ticks := 1 } }

theorem wit_scrub : (bx (hbmScrubCfgEn 0) 0).rd (hbmScrubCfgEn 0) = 0 ∧ (scrubbing 0).rd (hbmScrubCfgEn 0) = 1 ∧ (scrubbing 0).scrubbed 0 = true ∧
    ((scrubbing 0).chanSt 0).scrubbed + Nat.max 1 ((scrubbing 0).rd (hbmScrubCfgInterval 0)) ≤ (scrubbing 0).tick ∧
    ((scrubbing 9437182).chanSt 0).scrub + 1 < 9437184 ∧ ((scrubbing 9437183).chanSt 0).scrub + 1 = 9437184 ∧
    (scrubbing 9437183).scrubbed 0 = true ∧ ((scrubbing 9437183).chanSt 0).scrubbed + Nat.max 1 ((scrubbing 9437183).rd (hbmScrubCfgInterval 0)) ≤ (scrubbing 9437183).tick ∧
    box.remapsOf (511 / 64) < 64 := by decide

/-- One wrong symbol and two, and a line that holds two. -/
theorem wit_codes : codeResult 1 = .corrected ∧ codeResult 2 = .uncorrectable ∧ (scrubbing 0).calm = true ∧
    codeResult (({ box.mem with flaws := [(5, 2)] } : MemSt).flaw 5) = .uncorrectable ∧ (scrubbing 0).remapsOf 0 < 64 := by decide

theorem wit_corrected (t : Fin 2) : let s := bx (hbmRetireCfgCeThresh 7) (2 * t.val);
    s.rd (hbmRetireCfgCeThresh (511 / 64)) = 2 * t.val ∧ s.untraced = true ∧
    (2 * t.val = 0 ∨ s.mem.rowCe.get (fun _ => 0) ((511 * 64 + bankOf 9437183) * 16384 + rowOf 9437183) + 1 < 2 * t.val) := by revert t; decide

theorem wit_rowCopy : let x : RowCopy := ⟨0, 1, 2⟩; let e : RowEntry := ⟨0, 1, 2, false, false⟩;
    let s := { box with mem := { box.mem with copies := [x], remaps := [e] } };
    let s1 := ({ s with mem := { s.mem with copies := s.mem.copies.erase x } }).event (hbmEventRetire 0);
    s1.mem.remaps.find? (fun r => r.chan == 0 * 64 + 0 && r.bank == 1 && r.row == 2) = some e ∧ s1.mramOk = true ∧
    s.mem.copies.contains x = true ∧ s.mem.unlisted = [] ∧ box.mem.copies.contains x = false ∧
    (({ s with hang := { s.hang with takeover := some 0 } } : State).event (hbmEventRetire 0)).mramOk = false := by decide

/-- Self-test with the groups of `m` running and those of `n` done. -/
def testing (m n : Nat) : State := (((waking [.selfTest]).wr bistStatusRun m).wr bistStatusDone n)

theorem wit_groupEnd : (testing 128 127).waitsFor .selfTest = true ∧ (testing 128 127).bit bistStatusRun (7 : Fin 8) = true ∧
    groupTests 7 5 0 = true ∧ ((testing 128 127).wr bistPwrMaxWatts 9).domOn (domOfStruct 7 5 0) = true ∧
    (testing 0 255).bit bistStatusRun (7 : Fin 8) = false := by decide

theorem wit_repairPhase : (testing 0 255).waitsFor .selfTest = true ∧ (testing 0 255).rd bistStatusRun = 0 ∧ (testing 0 255).nextGroup = none ∧
    (testing 0 255).rmgDown = false ∧ (testing 0 255).bist.units = [] ∧ (testing 0 255).bist.repairs = [] := by decide

/-- A budget that the cap holds back: three compute groups run, and a fourth would pass 1,200 W. -/
theorem wit_budget : (testing 112 15).nextGroup = some 7 ∧ (testing 112 15).bit bistStatusRun 0 = false ∧ (testing 112 15).bistHalted = false ∧
    1200 < (testing 112 15).bistWatts + bistBudget 7 := by decide

/-- Self-test that ends clean, and with a fault of the CLA's configuration memory; no compute die is on. -/
theorem wit_outcome (b : Bool) :
    let s : State := { (testing 0 255).wr pwrDomStatusOn 0xFF0 with bist := { BistSt.reset with fatal := if b then [(9, 11)] else [] } };
    let s3 := ((((((s.appendRepairs.applyFindings).wr bistTimeMs (Nat.min 65535 5)).wr bistStatusState 2).wr bistStatusResult 0).wr
      sysStatusBistDone 1).dropWait .selfTest).showDomains;
    s.waitsFor .selfTest = true ∧ s.rd bistStatusRun = 0 ∧ s.nextGroup = none ∧ s.rmgDown = false ∧
    s3.bistOutcome = (if b then some (9, 11) else none) ∧ s3.pwr.stopWake = false := by revert b; decide

/-- A failing word of a scratchpad, with no repair fused. -/
theorem wit_mend (h : Config.fuseRepairs = []) : (testing 0 0).mended 1 0 ⟨0, 0, 0, 0⟩ = false ∧ (testing 0 0).freeRow 1 0 0 = true ∧
    (testing 0 0).waitsFor .selfTest = true := by
  refine ⟨by decide, ?_, by decide⟩
  unfold State.freeRow State.usedSpares
  rw [h]
  decide

/-! ### Witnesses: thermal, recorder, panel -/

/-- The tick before a sample is due and the tick at which it is, in slow and in fast mode. -/
theorem wit_sampleDue (t : Fin 2) (b : Bool) : let period := if b then 10 else 100;
    let s := { bx thmStatusFast b.toNat with beat := { BeatSt.reset with ticks := period - 1 + t.val } };
    s.pwr.aon = true ∧ period = (if s.on thmStatusFast then 10 else 100) ∧ (s.thm.sampled + period ≤ s.tick ↔ t = 1) := by
  revert t b; decide

/-- Every sensor reads 50 °C; no die is on. -/
theorem wit_sample : let s := { bx pwrDomStatusOn 0xFF0 with beat := { BeatSt.reset with ticks := 100 } };
    let s1 := (List.range 120).foldl (fun t i => t.takeSensor i ((List.replicate 120 (some 800)).getD i none)) s;
    ((s1.showMaxima.takeMode (s1.rd thmStatusState == 1)).takeLimits).newFails s = [] := by decide

/-- Levels at the bounds of each clause, under the thresholds of reset. -/
theorem wit_levels (d : Fin 13) : box.threshold d 1 < box.threshold d 2 ∧ box.threshold d 2 < box.threshold d 3 ∧
    (0 : Int) < box.hysteresis d ∧ box.threshold d 2 ≤ box.threshold d 3 - box.hysteresis d - 1 ∧
    box.threshold d 1 ≤ box.threshold d 2 - 1 := by revert d; decide

/-- Every sensor of domain 4 has failed. -/
theorem wit_noSensor : ((List.range 16).foldl (fun t i => t.wr (thmSensorFail (96 + i)) 1) box).domMax 4 = none ∧
    (∀ x, x ∈ dieDomains 0 → (box.domMax x).isSome = true) ∧ box.excess 0 = 0 := by decide

theorem wit_trip : box.pwr.aon = true ∧ box.rd thmStatusTripped = 0 ∧ (bx thmStatusTripped 1).rd thmStatusTripped = 1 ∧ sensorDomain 119 = 12 := by
  decide

theorem wit_resume : box.resumeOk = false ∧ (bx thmStatusState 2).resumeOk = true ∧ (bx thmStatusState 2).pwr.wake = none := by decide

theorem wit_thresholds : thresholdsOk (40 + 40 * 256) (box.reg thmLimitThrottle).toNat (box.reg thmLimitShutdown).toNat = true ∧
    thresholdsOk (box.reg thmLimitWarn).toNat ((box.reg thmLimitWarn).toNat) (box.reg thmLimitShutdown).toNat = false := by decide

theorem wit_eventRecord (b : Bool) : let s := { box with
      pwr := { box.pwr with failSeen := b }, evr := { box.evr with writing := if b then none else some (1536, 1, [7]) } };
    s.pwr.aon = true ∧ s.pwr.failSeen = b ∧ s.evr.writing = (if b then none else some (1536, 1, [7])) ∧ s.evr.queue = [] ∧ s.rmgDown = false ∧
    (s.evr.writing = none ↔ b = true) := by revert b; decide

/-- Updates enabled and a script loaded. -/
def panelled : State := ((bx pnlCfgEn 1).wr pnlStatusNoScript 0)

theorem wit_panel (t : Fin 2) : let s := { panelled with evr := { panelled.evr with lastEnd := some 0 }, beat := { BeatSt.reset with ticks := 99 + t.val } };
    (bx pnlCfgEn 0).panelFree = false ∧ panelled.panelFree = true ∧ (panelled.wr pnlCfgFull 1).panelDue = true ∧ panelled.evr.lastEnd = none ∧
    s.evr.lastEnd = some 0 ∧ (s.tick < 0 + 100 * (s.wr pnlCfgMinGap 1).rd pnlCfgMinGap ↔ t = 0) ∧
    (s.wr pnlCfgMinGap 1).panelFree = true := by revert t; decide

theorem wit_panelWait : ({ box with evr := { box.evr with wait := some (.busy 5) } } : State).evr.wait = some (.busy 5) ∧
    ({ box with evr := { box.evr with wait := some (.delay 5), fails := 2 } } : State).evr.wait = some (.delay 5) := by decide

/-- A script of 44 bytes whose five entries are END at once. -/
def script : List Byte :=
  let b := overlay 32 [(0, leBytes 2 0x5350), (4, leBytes 2 160), (6, leBytes 2 64), (18, leBytes 2 44)] ++ [0, 0, 0, 0]
  let c := patch b 8 (((List.range 5).map (fun _ => leBytes 2 32)).flatten)
  c ++ leBytes 8 (crc64 c).toNat

theorem wit_script : scriptOk script = true ∧ scriptOk [] = false ∧ rmg.mramOk = true ∧ rmg.cc3Up = true ∧ rmg.rmgDown = false ∧
    rmg.pwr.failSeen = false := by decide

/-! ### Witnesses: the CLA -/

def claBox (f : ClaSt → ClaSt) : State := { bx claStatusLoaded 1 with cla := f box.cla }

theorem wit_sync : let s := ((claBox (fun c => { c with loading := true })).wr claExtStatusBusy 1).wr claExtCtlFull 0;
    s.cla.stream = none ∧ s.domOn 11 = true ∧ s.cla.loading = true ∧ s.rd claStatusLoaded = 1 ∧ s.rd claExtStatusBusy = 1 ∧
    s.rd claExtCtlFull = 0 := by decide

/-- A stream of the ICP in region 7, with all that a frame needs. -/
def stream7 : ClaStream := { fresh .icp 0 with scope := some (some 7), armed := true, idOk := true, column := 235, minor := 39 }

def streaming (x : ClaStream) : State := claBox (fun c => { c with stream := some x })

/-- Headers of WRITE packets. -/
def wrHdr (target n : Nat) : Word32 := BitVec.ofNat 32 (target * 2 ^ 24 + 2 ^ 22 + n)

theorem wit_packets : (streaming stream7).cla.stream = some stream7 ∧ stream7.isFrom .icp = true ∧ stream7.isFrom .full = false ∧
    headerErr (0 : Word32).toNat = none ∧ bitsOf (0 : Word32).toNat 24 8 = 0 ∧ headerErr (1 : Word32).toNat = some 1 ∧
    [0x21, 0x22, 0x23, 0x24, 0x26, 0x27].all (fun t => headerErr (wrHdr t 1).toNat == none && bitsOf (wrHdr t 1).toNat 24 8 == t) = true ∧
    headerErr (wrHdr 0x25 1).toNat = some 2 := by decide

/-- The last frame of a column, the number after it, and a column of the shell. -/
theorem wit_frames : stream7.badFrame 235 39 = false ∧ stream7.badFrame 235 40 = true ∧ stream7.badFrame 263 55 = false ∧ stream7.badFrame 264 0 = true ∧
    stream7.badFrame 234 0 = true ∧ bitsOf (BitVec.ofNat 32 (235 * 64 + 39)).toNat 6 9 = 235 ∧ bitsOf (BitVec.ofNat 32 (235 * 64 + 39)).toNat 15 17 = 0 ∧
    stream7.idOk = true ∧ stream7.armed = true ∧ (fresh .icp 0).idOk = false ∧ bitsOf (wrHdr 0x22 96).toNat 0 20 % 96 = 0 ∧
    (List.replicate 96 (0 : Word32)).length = 96 ∧ stream7.badFrame stream7.column stream7.minor = false := by decide

theorem wit_scope : let w : Word32 := 0x10007; bitsOf w.toNat 3 13 = 0 ∧ bitsOf w.toNat 17 15 = 0 ∧ w.getLsbD 16 = true ∧
    stream7.scopeOk (some (bitsOf w.toNat 0 3)) = true ∧ (fresh (.ext false 3) 0).scopeOk (some (bitsOf w.toNat 0 3)) = false := by decide

theorem wit_check : let h := wrHdr 0x27 2; let x := { stream7 with crc := 5#64 };
    headerErr h.toNat = none ∧ bitsOf h.toNat 24 8 = 0x27 ∧ bitsOf h.toNat 0 20 = 2 ∧
    (~~~ x.crc).toNat = (0xFFFFFFFA : Word32).toNat + 2 ^ 32 * (0xFFFFFFFF : Word32).toNat ∧
    (~~~ x.crc).toNat ≠ (0 : Word32).toNat + 2 ^ 32 * (0 : Word32).toNat := by decide

/-- The memory source, of whose stream memory holds zeros: words that it brings and one that it does not. -/
theorem wit_brings : let x := { stream7 with owner := .ext false 7 }; let s := (streaming x).wr claExtLenBytes 64;
    s.cla.stream = some x ∧ x.isFrom .ext = true ∧ s.brings x [0, 0] = true ∧ s.brings x [1] = false ∧ headerErr (0 : Word32).toNat = none ∧
    (fresh .full 0).scopeOk none = true := by decide

theorem wit_streamError : (streaming stream7).lists = [] ∧ stream7.scope = some (some 7) ∧ stream7.owner = .icp := by decide

theorem wit_busPass : let s := claBox (fun c => { c with sending := true, passes := 0 }); let t := s.wr claBusCfgRepeat 2;
    s.cla.sending = true ∧ s.cla.passes = 0 ∧ t.cla.sending = true ∧ t.cla.passes + 1 < Nat.max 1 (t.rd claBusCfgRepeat) := by decide

/-- An external stream of 4 bytes at the start of region 7's partition, and one byte off. -/
theorem wit_extGo (b : Bool) : let v : Word32 := 0x80000007; let s := (((claBox id).wr claExtLenBytes 4).wr64 claExtAddrLoAddr claExtAddrHiAddr
      (if b then 0 else 4096000));
    v.getLsbD 31 = true ∧ v.getLsbD 8 = false ∧ bitsOf v.toNat 0 3 = 7 ∧ s.cla.stream = none ∧ s.rd claExtStatusBusy = 0 ∧ s.domOn 11 = true ∧
    (let s1 := ((s.wr claExtCtlPart (bitsOf v.toNat 12 2)).wr claExtCtlFull 0).wr claExtCtlRegion 7;
      s1.badExt (s.rd (claRegionPart 7)) (s1.rd64 claExtAddrLoAddr claExtAddrHiAddr) (s1.rd claExtLenBytes) = !b) ∧
    s.extPath (.pf 1) false 7 = false ∧ (s.wr claExtStatusBusy 1).rd claExtStatusBusy = 1 := by revert b; decide

/-- Region 7 in each of its states. -/
theorem wit_regions (n : Fin 6) (g : Fin 2) : let s := ((claBox (fun c => { c with crcFailed := 128 })).wr (claRegionState 7) n.val).wr claStatusGo g.val;
    s.rd claStatusLoaded = 1 ∧ s.regionState 7 = n.val ∧ s.rd claStatusGo = g.val ∧ s.cla.crcFailed.testBit 7 = true ∧
    s.holdPath .mgmt 7 = true ∧ s.holdPath (.pf 1) 7 = false := by revert n g; decide

theorem wit_cfgDone (d l : Fin 2) : let s := (bx claStatusDriving d.val).wr claStatusLoaded l.val;
    s.pwr.aon = true ∧ s.rd claStatusDriving = d.val ∧ s.rd claStatusLoaded = l.val := by revert d l; decide

theorem wit_doneTimeout (t : Fin 2) : let s := { ((bx claDoneTimeoutBeats 1)) with
      cla := { box.cla with droveUntil := some 0, timedOut := false }, beat := { BeatSt.reset with ticks := t.val } };
    s.cla.droveUntil = some 0 ∧ s.cla.timedOut = false ∧ (0 + Nat.max 1 (s.rd claDoneTimeoutBeats) ≤ s.tick ↔ t = 1) := by revert t; decide

/-- The first frame of a region. -/
theorem wit_noFrame : frameRegion (claBox (fun c => { c with scan := 0 })).cla.scan = none ∧ (∀ r : Fin 8, (claBox id).regionRunning r = false) ∧
    (∀ r, r < 8 → (claBox id).regionRunning r = false) := by decide

theorem wit_scan : (claBox (fun c => { c with scan := 160 })).domOn 11 = true ∧ frameRegion (claBox (fun c => { c with scan := 160 })).cla.scan = some 0 ∧
    frameRegion 10879 = some 7 := by decide

theorem wit_target (b : Bool) : let s := bx claStatusLoaded b.toNat;
    s.targetPath .mgmt = true ∧ s.targetPath .mctp = false ∧ s.shellUp = b ∧ 2 ^ 19 - 1 < 2 ^ 19 := by revert b; decide

theorem wit_noc (b : Bool) : let s := { (claBox id).wr claNocCfgEn 1 with hang := { box.hang with waiting := b } };
    s.rd claNocCfgEn = 1 ∧ s.shellUp = true ∧ s.nocOk = !b ∧ box.rd claNocCfgEn = 0 := by revert b; decide

/-- Reads of local memory and of the host's. -/
theorem wit_nocRead : let s := { (hosted.wr claStatusLoaded 1).wr claNocCfgEn 1 with cla := (claBox id).cla };
    s.nocOk = true ∧ s.shellUp = true ∧ s.rd claNocCfgEn = 1 ∧ (0x10 : Word64).toNat / 2 ^ 60 = 0 ∧
    s.readTagged s.nocTag (0x10 : Word64).toNat 2 = some ([0, 0], []) ∧
    (0x2000000000000000 : Word64).toNat / 2 ^ 60 = 2 ∧ s.readTagged s.nocTag (0x2000000000000000 : Word64).toNat 2 = none := by decide

/-- A TAP with region 7, out of memory or into it. -/
theorem wit_tapData (dir : Bool) (n : Fin 2) : let w := wTap dir; let l := { lsw w with work := .tap 7 0, total := 1 };
    let s := { (claBox id).wr (claRegionState 7) (2 + n.val) with lists := [l] };
    s.tapList 7 = some l ∧ l.word = some (BitVec.ofNat 128 w) ∧ s.regionRunning 7 = decide (n = 1) ∧ bitsOf w 8 1 = dir.toNat ∧
    box.tapList 7 = none := by revert dir n; decide

/-- The tap of port 15 enabled or not, active or not, with ISO_DROP or not. -/
theorem wit_regionFrame (en act iso : Bool) :
    let s := (((claBox id).wrBit claTapCfgFabEn 15 en).wr (claRegionState 7) (if act then 3 else 2)).wrBit claTapCfgIsoDrop 15 iso;
    s.bit claTapCfgFabEn (15 : Port) = en ∧ s.tapActive 15 = (en && act) ∧ s.bit claTapCfgIsoDrop (15 : Port) = iso := by
  revert en act iso; decide

/-- A frame waits at the tap of port 15, or none. -/
theorem wit_heldFrame (b : Bool) :
    let s := { ((claBox id).wrBit claTapCfgFabEn 15 true).wr (claRegionState 7) 3 with
      cla := { (claBox id).cla with atTap := if b then [(60, .raw 0 0 none, [1])] else [] } };
    s.tapActive 15 = true ∧ s.heldAt 15 = (if b then some (60, .raw 0 0 none, [1]) else none) := by revert b; decide

/-! ### Witnesses: media sessions, trace, counters, debug, registers -/

/-- A descriptor of the smallest decode session of codec 4. -/
def desc4 : List Byte :=
  overlay 128 [(0, leBytes 2 0x4D53), (2, leBytes 1 1), (4, leBytes 1 4), (7, leBytes 1 8), (8, leBytes 2 16), (10, leBytes 2 16), (12, leBytes 1 1),
    (15, leBytes 1 4), (24, leBytes 4 24576), (28, leBytes 4 64), (72, leBytes 2 1), (74, leBytes 2 1)]

/-- Session 0 is partition 0's, and its descriptor is at address 0. -/
def opening (d : List Byte) : State := (bx (medPartCfgSessCount 0) 1).store 0 false false 0 d

theorem wit_open : (opening desc4).sessPath .mgmt = true ∧ (opening desc4).domOn 10 = true ∧
    (opening desc4).openTest .mgmt 0 = (0, some (0, desc4)) ∧ (opening []).openTest .mgmt 0 = (1, none) ∧
    (opening []).openTest .mgmt 255 = (4, none) ∧ (opening []).opener .mgmt 0 = some 0 ∧ (opening []).opener .mgmt 255 = none ∧ box.domOn 10 = true ∧ (opening []).sess 255 = none ∧ (opening []).sessPart 255 = none := by decide

theorem wit_close (b : Bool) : let x := sess true (if b then [(0, 0)] else []) false; let s := (bx (medPartCfgSessCount 0) 1).setSess 0 (some x);
    s.sess 0 = some x ∧ s.ownsSession .mgmt 0 = true ∧ s.ownsSession .mctp 0 = false ∧ (x.busy = [] ↔ b = false) := by revert b; decide

/-- All sessions and slots, and one of each more. -/
theorem wit_partConfig : box.partCfgRefused 0 0 256 32 = false ∧ box.partCfgRefused 0 1 256 32 = true ∧ box.partCfgRefused 0 0 256 33 = true ∧
    (0 : Part).val < partCount box.mode ∧ bitsOf (0x20010000 : Word32).toNat 8 9 = 256 ∧ bitsOf (0x20010000 : Word32).toNat 24 6 = 32 := by decide

/-- Channel 7 of partition 0 with an area of one unit. -/
theorem wit_channel (n : Fin 2) (en : Fin 2) : let s := ((bx (trcChCtlEn 0 7) en.val).wr (trcChSizeSize 0 7) n.val);
    s.ownsPart .mgmt 0 = true ∧ s.ownsPart .mctp 0 = false ∧ s.rd (trcChCtlEn 0 7) = en.val ∧ s.badArea 0 7 = decide (n = 0) := by revert n en; decide

theorem wit_channelStopped : let s := box.setTraceCh 0 7 { TraceSt.reset with stopping := true };
    (s.traceCh 0 7).stopping = true ∧ (s.traceCh 0 7).buffer = [] := by decide

/-- A drain of one line within the carve-out, and one whose source lies beyond it. -/
theorem wit_drains (b : Fin 2) : let s := ((bx (trcDrainLenLen 0) 1).wr (trcDrainStatusBusy 0) b.val);
    s.ownsPart .mgmt 0 = true ∧ s.rd (trcDrainStatusBusy 0) = b.val ∧ s.rd (trcDrainLenLen 0) = 1 ∧ s.drainOk 0 = true ∧
    (s.wr (trcDrainSrcOfs 0) (2 ^ 28 - 1)).drainOk 0 = false ∧ box.rd (trcDrainLenLen 0) = 0 ∧ (s.drainLine 0 0).2 = false ∧
    (s.wr (trcDrainLenLen 0) 2).rd (trcDrainLenLen 0) = 2 := by revert b; decide

theorem wit_drainRead : box.traceOf 0 * 4096 + box.rd (trcDrainSrcOfs 0) * 64 + 64 * 0 = 0 ∧
    (box.readTagged (tagOf 0 0 0xFFFFF 0xB 0 0 0) 0 64).isSome = true ∧ (∀ d, d < 4 → box.frozen d = true) := by decide

theorem wit_traceSample : let s := { (((bx cntSampleCfgEn 1).wr cntSampleCfgPeriod 1).wr (trcChCtlEn 0 0) 1) with beat := { BeatSt.reset with ticks := 1 } };
    let t := { (bx cntSampleCfgEn 1).wr cntSampleCfgPeriod 1 with beat := { BeatSt.reset with ticks := 1 } };
    box.rd cntSampleCfgEn = 0 ∧ s.sampleDue = true ∧ s.rd cntSampleCfgMode = 0 ∧
    t.rd (trcChCtlEn (t.rd cntSampleCfgPart) (t.rd cntSampleCfgChannel)) = 0 ∧ t.sampleDue = true ∧ t.rd cntSampleCfgMode = 0 ∧
    s.rd cntSampleCfgPart < partCount s.mode ∧ s.rd (trcChCtlEn (s.rd cntSampleCfgPart) (s.rd cntSampleCfgChannel)) = 1 ∧
    s.rd cntSampleCfgDies = 0 ∧ ((List.range 672).all (fun u => s.rd (cntClCtlSample u) == 0)) = true := by decide

/-- A sample of the engines and streams of die 3 alone. -/
theorem wit_traceSampleDie : (((bx cntSampleCfgEn 1).wr cntSampleCfgDies 8).rd cntSampleCfgDies = 2 ^ (3 : Die).val) := by decide

theorem wit_counters : (3 : Nat) < 4 ∧ (0x8 : Word32).toNat = 2 ^ 3 ∧ (63 : Nat) < 64 ∧ box.rd dbgStatusLevel = 0 := by decide

theorem wit_response (b : Bool) (n : Fin 2) : let s := { bx dbgStatusFails (6 + n.val) with dbg := { box.dbg with nonceOk := b } };
    s.pwr.aon = true ∧ s.rd dbgStatusLockout = 0 ∧ s.rd dbgCfgDisable = 0 ∧ s.dbg.nonceOk = b ∧ s.rd dbgStatusFails = 6 + n.val ∧
    (bx dbgStatusLockout 1).rd dbgStatusLockout = 1 ∧ (bx dbgCfgDisable 1).rd dbgCfgDisable = 1 := by revert b n; decide

/-- Debug at level 2; a core that runs, in a locked sequence or not. -/
def debugging (n : Nat) (locked : Bool) : State :=
  let s := (cored n .running).wr dbgStatusLevel 2;
  { s.wrBit dbgCoreDeferring n true with evr := { s.evr with pc := if locked then some 32 else none } }

theorem wit_debug (b : Bool) : (debugging 3 b).rd dbgStatusLevel = 2 ∧ ((debugging 3 b).core 3).state = .running ∧
    (debugging 3 b).lockKind 3 = (if b then 3 else 0) ∧ (debugging 3 b).bit dbgCoreDeferring 3 = true ∧ box.bit dbgCoreDeferring 3 = false ∧
    (debugging 3 b).rd hngCfgDbgExempt + ((debugging 3 b).wr hngCfgDbgExempt 1).rd hngCfgDbgExempt ≤ 2 ∧
    ((debugging 3 b).wr hngCfgDbgExempt 0).rd hngCfgDbgExempt = 0 ∧ ((debugging 3 b).wr hngCfgDbgExempt 1).rd hngCfgDbgExempt = 1 := by
  revert b; decide

theorem wit_jtag : box.pwr.aon = true ∧ box.rd dbgStatusLevel = 0 ∧ claWindow 0x10000 = false ∧ claWindow 0x77FFFC = false ∧
    ((debugging 3 false).debugGrants 0x10000 = true) ∧ (debugging 3 false).pwr.aon = true ∧ box.rd sysStatusReady = 1 ∧
    (bx sysStatusReady 0).rd sysStatusReady = 0 := by decide

/-- What a debug session of level 2 reads. -/
theorem wit_debugRead : let s := debugging 3 false;
    s.debugGrants 0x10000 = true ∧ vendorOnly 0x10000 = false ∧ vendorOnly 0x40 = true ∧ claWindow 0x40 = false ∧ msixWindow 0x40 = false ∧
    s.unlocked = true ∧ box.unlocked = false ∧ s.serves .debug = true ∧ rmg.serves .mgmt = true ∧ State.reset.serves .mgmt = false := by decide

theorem wit_debugCla : let s := (debugging 3 false).wr dbgCtlPeek 1;
    s.debugGrants 0x780000 = true ∧ claWindow 0x780000 = true ∧ s.peeks = true := by decide

theorem wit_registers : State.reset.pwr.aon = false ∧ vendorOnly 0x40 = true ∧ partCount box.mode ≤ (1 : Fn).val ∧
    box.mayReadAt .mgmt beatNumLo = true := by decide

theorem wit_latchRead : isLatched beatNumHi = true ∧ box.mayReadAt .mgmt beatNumHi = true ∧ latchedWith beatNumHi = [] ∧
    claWindow beatNumHi = false ∧ msixWindow beatNumHi = false ∧ vendorOnly beatNumHi = false ∧ (Path.mgmt ≠ Path.mctp) := by decide

theorem wit_idle : (box.pending = []) := by decide

/-- Four partitions, each with a pseudo-channel of its own. -/
theorem wit_places : let s := { box with mode := 2, mem := { box.mem with chans := [(0, [0]), (1, [128]), (2, [256]), (3, [384, 511])] } };
    (s.chanList 3).Nodup ∧ (∀ c, c ∈ s.chanList 3 → c ∉ s.chanList 0) ∧ (∀ c, c ∈ s.chanList 3 → c < 512) ∧
    (s.place 3 true 0).key?.isSome = true ∧ (s.place 0 true 0).key?.isSome = true ∧ s.place 3 true 0 ≠ s.place 0 true 0 ∧
    ((box.place 0 false (2 ^ 60)).key?.isSome = true) := by decide

theorem wit_canonical : State.reset.canonical = true := by decide

/-! ### Well-formedness: each check refuses a term that breaks it alone, and lets the mended term pass -/

def dev : Path := .pf 0
def bytesN (n : Nat) : List Byte := List.replicate n 0
def badMsg : JobFaultMsg :=
  { cause := 3, job := 0x2A17, origin := 2 ^ 19, seq := 0, hops := 0, beat := 0, phase := 0, step16 := 0, unit := 0 }
def badAnn : BeatAnnMsg := { state := 4, numValid := true, sender := 0, beat := 0, phase := 0, epoch := 0 }
def mh0 : MgtHdr :=
  { vlan := none, src := ⟨false, 0, 0⟩, dst := ⟨false, 0, 0⟩, seq := 0, serial := 0, key := 0, flags := 0, ackSeq := 0, session := 0,
    mac := bytesN 16 }
def badPic : PicFacts :=
  { width := 2, height := 2, fullChroma := false, order := 0, key := true, generatedRef := false, auBytes := 0, luma := [0, 0, 0], chroma := [0, 0],
    blocks := [] }
def badRef : ListRef := ⟨0, 2 ^ 17⟩

theorem test_wf_address : (Instr.registerWrite dev 0x102 0).wf = false ∧ (Instr.registerWrite dev 0x104 0).wf = true := by decide
theorem test_wf_mgt_count : (Instr.mgtRead mh0 0 0).wf = false ∧ (Instr.mgtRead mh0 0 65).wf = false ∧ (Instr.mgtRead mh0 0 64).wf = true := by
  decide
theorem test_wf_mgt_seq : (Instr.mgtWrite { mh0 with seq := 2 ^ 32 } 0 0 0).wf = false ∧ (Instr.mgtWrite mh0 0 0 0).wf = true := by decide
theorem test_wf_mgt_ack : (Instr.mgtAckRx { mh0 with ackSeq := 2 ^ 32 }).wf = false ∧ (Instr.mgtAckRx { mh0 with mac := bytesN 15 }).wf = false ∧
    (Instr.mgtAckRx { mh0 with flags := 256 }).wf = false ∧ (Instr.mgtAckRx mh0).wf = true := by decide
theorem test_wf_mctp_target :
    (Instr.mctpVendorWrite (.reg 2) 0).wf = false ∧ (Instr.mctpVendorWrite (.keySlot 1 []) 0).wf = false ∧
    (Instr.mctpVendorWrite (.keySlot 1 [0xA5]) 0).wf = true := by decide
theorem test_wf_vendor_read : (Instr.mctpVendorRead 1).wf = false ∧ (Instr.debugRead 3).wf = false := by decide
theorem test_wf_cla_target : (Instr.claTargetAccess dev 6 none 0).wf = false ∧ (Instr.claTargetTimeout dev 6 none).wf = false := by decide
theorem test_wf_list : (Instr.mma badRef).wf = false ∧ (Instr.mma r0).wf = true := by decide
theorem test_wf_picture :
    (Instr.mflush r0 [badPic] ⟨[], []⟩).wf = false ∧ (Instr.mflush r0 [{ badPic with luma := [0, 0, 0, 0] }] ⟨[], []⟩).wf = true ∧
    (Instr.mflush r0 [{ badPic with luma := [0, 0, 0, 0], fullChroma := true }] ⟨[], []⟩).wf = false := by decide
theorem test_wf_tile :
    (Instr.tileComplete r0 0 none [⟨.hbm 0 0 9437184, 1⟩]).wf = false ∧ (Instr.tileComplete r0 0 none [⟨.hbm 7 63 9437183, 1⟩]).wf = true ∧
    (Instr.beatTick [⟨.scratch 672 0, 2⟩] []).wf = false ∧ (Instr.beatTick [⟨.scratch 671 8192, 2⟩] []).wf = false ∧
    (Instr.beatTick [⟨.scratch 671 8191, 2⟩] []).wf = true := by decide
theorem test_wf_run : (Instr.shadowComplete badRef 0 none []).wf = false ∧ (Instr.arbTimeout badRef 0).wf = false := by decide
theorem test_wf_kft_offset : (Instr.kftWriteRx kh (2 ^ 40) []).wf = false ∧ (Instr.kftWriteRx kh (2 ^ 40 - 1) []).wf = true := by decide
theorem test_wf_kft_length : (Instr.kftWriteRx kh 0 (bytesN 4081)).wf = false := by decide
theorem test_wf_kft_header :
    (Instr.kftAckRx { kh with dstDev := 2 ^ 17 } none).wf = false ∧ (Instr.kftAckRx { kh with psn := 2 ^ 32 } none).wf = false ∧
    (Instr.kftAckRx { kh with cls := 4 } none).wf = false ∧ (Instr.kftAckRx kh none).wf = true := by decide
theorem test_wf_read_request :
    (Instr.kftReadReqRx kh 0 0).wf = false ∧ (Instr.kftReadReqRx kh 0 4097).wf = false ∧ (Instr.kftReadReqRx kh 0 4096).wf = true := by
  decide
theorem test_wf_connection :
    (Instr.connReqRx kh (2 ^ 32)).wf = false ∧ (Instr.connRejectRx kh 256).wf = false ∧ (Instr.connRejectRx kh 255).wf = true := by
  decide
theorem test_wf_job_fault :
    (Instr.jobFaultRx 0 true badMsg).wf = false ∧ (Instr.jobFaultRx 0 true { badMsg with origin := 5 }).wf = true := by decide
theorem test_wf_announcement :
    (Instr.beatAnnRx 0 true badAnn).wf = false ∧ (Instr.beatAnnRx 0 true { badAnn with state := 2 }).wf = true := by decide
theorem test_wf_window :
    (Instr.bar2Read 0 0 0).wf = false ∧ (Instr.bar2Read 0 (2 ^ 40 - 4) 8).wf = false ∧ (Instr.bar2Write 0 0 []).wf = false ∧
    (Instr.bar2Write 0 (2 ^ 40 - 1) [1]).wf = true := by decide
theorem test_wf_host_range :
    (Instr.pcieCompletionRx 0 (2 ^ 60) .sc [1]).wf = false ∧ (Instr.pcieCplTimeout 0 (2 ^ 60) 1).wf = false := by decide
theorem test_wf_link : (Instr.pcieLinkUp 16 1).wf = false ∧ (Instr.pcieLinkUp 4 8).wf = false ∧ (Instr.pcieLinkUp 4 5).wf = true := by
  decide
theorem test_wf_churn :
    (Instr.churnGrant .mctp 2 1).wf = false ∧ (Instr.churnGrant .mctp 1 16).wf = false ∧ (Instr.churnGrant .mctp 1 15).wf = true := by decide
theorem test_wf_images : (Instr.packData .mctp 0 []).wf = false ∧ (Instr.panelData .mctp 0 []).wf = false ∧ (Instr.packData .mctp 0 (bytesN 1009)).wf = false ∧
    (Instr.packCommit (.mgmt { mh0 with mac := [] })).wf = false ∧ (Instr.packData .mctp 0 [1]).wf = true := by decide
theorem test_wf_pmbus : (Instr.pmbusPoll (List.replicate 17 ⟨0, true, false, 0, 0⟩)).wf = false := by decide
theorem test_wf_thermal :
    (Instr.thermalSample (List.replicate 119 none) 0).wf = false ∧ (Instr.thermalSample (List.replicate 120 none) 0).wf = true ∧
    (Instr.thermalTrip 120).wf = false := by decide
theorem test_wf_promotion : (Instr.agePromotion (.router 0) [⟨0, 0, 0, 0, 0⟩] 0).wf = false ∧ (Instr.agePromotion (.router 0) [⟨0, 0, 1, 0, 0⟩] 0).wf = true := by decide
theorem test_wf_stream :
    (Instr.claFrameData .ext 0 []).wf = false ∧ (Instr.claCheck .ext 0 [1]).wf = false ∧ (Instr.claCheck .ext 0 [1, 2]).wf = true := by
  decide
theorem test_wf_initiator :
    (Instr.claNocInitiatorRequest 0x1000000000000000 (.read 4)).wf = false ∧ (Instr.claNocInitiatorRequest 0 (.read 0)).wf = false ∧
    (Instr.claNocInitiatorRequest 0 (.write [])).wf = false ∧ (Instr.claNocInitiatorRequest 0 (.read 4)).wf = true := by decide

/-! ### Values the spec works out -/

/-- 03: the worked tag of job 0x2A17, step 0xBC53, tile 0x012A5, and those of its shadow and of its arbiter's run. -/
theorem test_tag_worked :
    tagOf 0x2A17 0xBC53 0x012A5 8 1 2 0 = 0x2A17BC53012A5860#64 ∧ (tagOf 0x2A17 0xBC53 0x012A5 8 2 2 0).toNat % 256 = 0xA0 ∧
    (tagOf 0x2A17 0xBC53 0x012A5 8 3 0 0).toNat % 256 = 0xC0 := by decide

/-- Table SCR-2: the check value of CRC-64, that of the bytes 31 to 39. -/
theorem test_crc_check_value :
    crc64 [0x31, 0x32, 0x33, 0x34, 0x35, 0x36, 0x37, 0x38, 0x39] = 0x995DC9BBDF1939FA#64 := by decide +kernel

/-- 09: the offset of primary 3 among 64 followers. -/
theorem test_wheel_worked : wheelRho 3 64 = 42 := by decide

/-- 06: the worked tile 1,173 of a list over four dies of 160 logical clusters runs on die 3, logical cluster 53. -/
theorem test_tile_place_worked : (1173 % (4 * 160) / 160, 1173 % (4 * 160) % 160) = (3, 53) ∧
    targetOf { hdr0 with dies := 15, lcFirst := 0, lcCount := 160 } 1173 = some (3, 53) := by decide +kernel

/-- 07: line 394,330 of a pseudo-channel lies in bank 5, row 385. -/
theorem test_bank_worked : bankOf 394330 = 5 ∧ rowOf 394330 = 385 := by decide

/-- 07: LIMIT, the capture area and the carve-out of the worked partition. -/
theorem test_layout_worked : layoutOf (512 * 147456) (traceGranules 16) = (75202560, 75202560, 75235328) := by decide

/-- R80: the low 8 bits of a tag do not reach the stochastic rounding. -/
theorem test_sr_ignores_role : srBits 0x2A17BC53012A5860#64 9 = srBits 0x2A17BC53012A58A0#64 9 := by decide

/-- 04: the worked KB8 block, rounded to nearest even. -/
theorem test_block_worked :
    (kb8Block ((([.fin false 21 (-2), .fin true 3 (-1), .fin false 3 (-2), .fin false 13421773 (-27), .fin true 16106127 (-29),
      .fin false 10905190 (-23), .fin true 5 0] : List FVal) ++ List.replicate 9 FVal.zero).map (fun v => (v, Round.rne)))) =
    [0x81, 0x54, 0xE8, 0x0C, 0x02, 0x00, 0x15, 0xB0, 0, 0, 0, 0, 0, 0, 0, 0, 0, 0] := by decide +kernel

/-- R192: SHA-384 of the bytes 61 62 63, as its standard works it out. -/
theorem test_sha_worked : beNat (sha384 [0x61, 0x62, 0x63]) =
    0xCB00753F45A35E8BB5A03D699AC65007272C32AB0EDED1631A8B605A43FF5BED8086072BA1E7CC2358BAECA134C825A7 := by decide +kernel

/-- R237: the base point lies on the curve. -/
theorem test_curve_point : onCurve g384 = true := by decide +kernel

/-- 06: the worked SETSHAPE word, its fields read from the bits of Table INS-5. -/
theorem test_setshape_worked : (match Machine.exec (.setshape r0) (run 0x0019000C000C00180000C80006000031) with
    | .next t => t.lists.map (fun l => (l.sh[0]?, l.idx)) | _ => []) =
    [(some (some ⟨0x600, 0xC80, 0x1800, 0xC0, 0xC0, 0x190⟩), 1)] := by decide +kernel
end Sys2Proof.Tests
end

section
/-!
PROOF. Power at run time (13_power_domains_and_wake.md): what each of its commands does, one lemma per command and case, and
the bounds of the matrix clock; O42 is assembled from them.
-/
namespace Sys2Proof.Machine

open Reg

/-! ### The commands' meanings -/

theorem exec_domainOn (path : Path) (v : Word32) (s : State) :
    exec (.domainOn path v) s = .next (s.writeDomCtl path v.toNat).wrapUp := rfl

theorem exec_domainOff (path : Path) (v : Word32) (s : State) :
    exec (.domainOff path v) s = .next (s.writeDomCtl path v.toNat).wrapUp := rfl

theorem exec_powerLimiter (watts : Nat) (s : State) : exec (.powerLimiter watts) s = execPowerLimiter watts s := rfl

/-! ### Paths: R307 -/

@[simp] theorem State.mgmtOrDebug_pf (s : State) (f : Fn) : s.mgmtOrDebug (.pf f) = false := rfl

@[simp] theorem State.mgmtOrDebug_mgmt (s : State) : s.mgmtOrDebug .mgmt = true := rfl

/-! ### PWR_DOM_CTL: R298, R299 -/

@[simp] theorem domsOf_zero : domsOf 0 = [] := by simp [domsOf]

@[simp] theorem domsOf_two_pow (d : Domain) : domsOf (2 ^ d.val) = [d.val] := by revert d; decide

theorem mem_domsOf {m : Nat} {d : Domain} : d.val ∈ domsOf m ↔ m.testBit d.val = true := by
  simp [domsOf, d.isLt]

/-- The low half of PWR_DOM_CTL asks for domains on, the high half for domains off. -/
theorem domCtl_on_fields (d : Domain) :
    bitsOf (BitVec.ofNat 32 (2 ^ d.val)).toNat 0 12 = 2 ^ d.val ∧ bitsOf (BitVec.ofNat 32 (2 ^ d.val)).toNat 16 12 = 0 := by
  revert d; decide

theorem domCtl_off_fields (d : Domain) :
    bitsOf (BitVec.ofNat 32 (2 ^ (16 + d.val))).toNat 0 12 = 0 ∧
      bitsOf (BitVec.ofNat 32 (2 ^ (16 + d.val))).toNat 16 12 = 2 ^ d.val := by
  revert d; decide

/-- A domain that is on and may not go off, asked off, refuses the write. -/
theorem State.switchRefused_of_busy {s : State} {d : Domain} (on : Nat) {off : Nat} (hOn : s.domOn d = true)
    (hOff : off.testBit d = true) (hBusy : s.mayGoOff d = false) : s.switchRefused on off = true := by
  have : (domsOf off).any (fun e => s.domOn e && !s.mayGoOff e) = true :=
    List.any_eq_true.mpr ⟨d, mem_domsOf.mpr hOff, by simp [hOn, hBusy]⟩
  simp [State.switchRefused, this]

theorem State.writeDomCtl_pf (s : State) (f : Fn) (v : Nat) : s.writeDomCtl (.pf f) v = s := by
  simp [State.writeDomCtl]

theorem State.writeDomCtl_refused {s : State} {v : Nat} (h : s.switchRefused (bitsOf v 0 12) (bitsOf v 16 12) = true) :
    s.writeDomCtl .mgmt v = s.event pwrEventSwitchRefused := by
  simp [State.writeDomCtl, h]

theorem State.writeDomCtl_off {s : State} {d : Domain} (h : s.switchRefused 0 (2 ^ d.val) = false) (hOn : s.domOn d = true) :
    s.writeDomCtl .mgmt (BitVec.ofNat 32 (2 ^ (16 + d.val))).toNat = (s.domainDown d).showDomains := by
  obtain ⟨hLow, hHigh⟩ := domCtl_off_fields d
  simp only [State.writeDomCtl, hLow, hHigh, h]
  simp [hOn]

theorem State.writeDomCtl_on {s : State} {d : Domain} (h : s.switchRefused (2 ^ d.val) 0 = false) (hOff : s.domOn d = false) :
    s.writeDomCtl .mgmt (BitVec.ofNat 32 (2 ^ d.val)).toNat = (s.beginWake (.switchOn (2 ^ d.val))).showDomains := by
  obtain ⟨hLow, hHigh⟩ := domCtl_on_fields d
  simp only [State.writeDomCtl, hLow, hHigh, h]
  simp [hOff]

/-! ### Voltages: R302 -/

theorem execVsetWrite_pf (f : Fn) (d : Die) (v : Word32) (s : State) : execVsetWrite (.pf f) d v s = .next s := by
  simp [execVsetWrite]

/-- A voltage that no regulator raises is in force at once. -/
theorem execVsetWrite_lower {s : State} {d : Die} {v : Word32} {mv : Nat} (hmv : mv = Nat.min 850 (Nat.max 650 (bitsOf v.toNat 0 10)))
    (h : s.setpoints d = [] ∨ mv ≤ s.pwr.vNow.get (fun x => Config.vRated x) d) :
    execVsetWrite .mgmt d v s = .next ((((s.wr (pwrVsetMv d) mv).setRaise d none).setVolt d mv).sendVout d mv) := by
  subst hmv
  simp only [execVsetWrite, State.mgmtOrDebug_mgmt, Bool.not_true, Bool.false_eq_true, if_false, if_pos h]

/-- A raised voltage is sent to the regulator and waits. -/
theorem execVsetWrite_raise {s : State} {d : Die} {v : Word32} {mv : Nat} (hmv : mv = Nat.min 850 (Nat.max 650 (bitsOf v.toNat 0 10)))
    (hReg : s.setpoints d ≠ []) (h : s.pwr.vNow.get (fun x => Config.vRated x) d < mv) :
    execVsetWrite .mgmt d v s = .next (((s.wr (pwrVsetMv d) mv).sendVout d mv).setRaise d (some mv)) := by
  subst hmv
  have hNot := not_or.mpr ⟨hReg, Nat.not_le.mpr h⟩
  simp only [execVsetWrite, State.mgmtOrDebug_mgmt, Bool.not_true, Bool.false_eq_true, if_false, if_neg hNot]

theorem execVoutSettled_near {s : State} {d : Die} {v mv : Nat} (hRaise : s.pwr.vRaise.get (fun _ => none) d = some v)
    (hLo : v ≤ mv + 10) (hHi : mv ≤ v + 10) : execVoutSettled d mv s = .next ((s.setRaise d none).setVolt d v) := by
  simp [execVoutSettled, hRaise, hLo, hHi]

theorem execVoutSettled_far {s : State} {d : Die} {v mv : Nat} (hRaise : s.pwr.vRaise.get (fun _ => none) d = some v)
    (h : v + 10 < mv ∨ mv + 10 < v) : execVoutSettled d mv s = .next s := by
  have hFar : ¬(v ≤ mv + 10 ∧ mv ≤ v + 10) := by omega
  simp [execVoutSettled, hRaise, hFar]

/-! ### Clocks: R303 -/

theorem execClockLimitWrite_pf (f : Fn) (v : Word32) (s : State) : execClockLimitWrite (.pf f) v s = .next s := by
  simp [execClockLimitWrite]

theorem execClockLimitWrite_mgmt (v : Word32) (s : State) :
    execClockLimitWrite .mgmt v s = .next (s.wr clkMatrixLimitMhz v.toNat).updateClocks := by
  simp [execClockLimitWrite]

theorem foldl_min_le_init (l : List Nat) (n : Nat) : l.foldl Nat.min n ≤ n := by
  induction l generalizing n with
  | nil => exact Nat.le_refl n
  | cons x l ih => exact Nat.le_trans (ih _) (Nat.min_le_left n x)

theorem foldl_min_le_mem {l : List Nat} {x : Nat} (n : Nat) (h : x ∈ l) : l.foldl Nat.min n ≤ x := by
  induction l generalizing n with
  | nil => cases h
  | cons y l ih =>
    cases h with
    | head => exact Nat.le_trans (foldl_min_le_init l _) (Nat.min_le_right n x)
    | tail _ h => exact ih _ h

theorem State.matrixMhz_on {s : State} {d : Nat} (h : s.domOn d = true) :
    s.matrixMhz d = Nat.max floorMhz ((s.limits d).foldl Nat.min ratedMhz) := by
  simp [State.matrixMhz, h]

theorem State.floor_le_matrixMhz {s : State} {d : Nat} (h : s.domOn d = true) : 525 ≤ s.matrixMhz d := by
  rw [State.matrixMhz_on h]
  exact Nat.le_max_left _ _

theorem State.matrixMhz_le_rated {s : State} {d : Nat} (h : s.domOn d = true) : s.matrixMhz d ≤ 2100 := by
  rw [State.matrixMhz_on h]
  exact Nat.max_le.mpr ⟨by decide, foldl_min_le_init _ _⟩

/-- Each limit bounds the clock, down to the floor. -/
theorem State.matrixMhz_le_limit {s : State} {d l : Nat} (h : s.domOn d = true) (hl : l ∈ s.limits d) :
    s.matrixMhz d ≤ Nat.max 525 l := by
  rw [State.matrixMhz_on h]
  exact Nat.max_le.mpr ⟨Nat.le_max_left _ _, Nat.le_trans (foldl_min_le_mem _ hl) (Nat.le_max_right _ _)⟩

theorem State.floor_le_mgmtLimit (s : State) : 525 ≤ s.mgmtLimit :=
  Nat.le_min.mpr ⟨by decide, Nat.le_max_left _ _⟩

theorem State.matrixMhz_le_mgmtLimit {s : State} {d : Nat} (h : s.domOn d = true) : s.matrixMhz d ≤ s.mgmtLimit :=
  calc s.matrixMhz d ≤ Nat.max 525 s.mgmtLimit := State.matrixMhz_le_limit h (by simp [State.limits])
    _ = s.mgmtLimit := Nat.max_eq_right s.floor_le_mgmtLimit

/-! ### The limiter: R304 -/

theorem execPowerLimiter_on {s s1 : State} {watts : Nat} (hAon : s.pwr.aon = true)
    (hs1 : s1 = ((s.wr pwrEstNow watts).wr pwrEstMax (Nat.max watts (s.rd pwrEstMax))).recordPower) :
    execPowerLimiter watts s = .next (if s1.rd bistStatusState = 1 then s1.wr bistPwrMaxWatts (Nat.max watts (s1.rd bistPwrMaxWatts))
      else s1.limiter watts) := by
  subst hs1
  simp [execPowerLimiter, hAon]

/-- An estimate above the peak cuts a step, while the clock is above the floor. -/
theorem State.limiter_peak {s : State} {e : Nat} (hPeak : s.rd pwrLimitPeakWatts < e) (hFloor : s.powerLimit ≠ 525) :
    ∃ s1 : State, s.limiter e = s1.setCuts (s.pwr.cuts + 1) ∧ s1.regs = s.regs ∧ s1.mem = s.mem := by
  have hFloor' : s.powerLimit ≠ floorMhz := hFloor
  simp only [State.limiter, hPeak, hFloor', if_false, true_or, and_true, ne_eq, not_false_eq_true, if_true]
  exact ⟨_, rfl, rfl, rfl⟩

/-! ### The power-fail warning: R306 -/

theorem execPowerFailWarning_first {s : State} (hAon : s.pwr.aon = true) (hSeen : s.pwr.failSeen = false) :
    execPowerFailWarning s = .next ((s.event pwrEventPwrFail).setPwr { s.pwr with
      failSeen := true, stopWake := s.pwr.wake.isSome }).endSession.abortPanel.abortBist.abortStream.wrapUp := by
  have hGo : (!s.pwr.aon || s.pwr.failSeen) = false := by simp [hAon, hSeen]
  have hPwr : (s.event pwrEventPwrFail).pwr = s.pwr := rfl
  simp only [execPowerFailWarning, hGo, hPwr, Bool.false_eq_true, if_false]

/-! ### PMBus: R301 -/

/-- Before POLL beat ticks have passed no round begins. -/
theorem execPmbusPoll_early {s : State} (rs : List PmbReading) (h : s.tick < s.pwr.pmbTick + Nat.max 1 (s.rd pwrPmbCfgPoll)) :
    execPmbusPoll rs s = .next s := by
  simp only [execPmbusPoll, h, decide_true, Bool.or_true, if_true]

/-- Once POLL beat ticks have passed a round begins. -/
theorem State.pmbusPoll_goes {s : State} (hAon : s.pwr.aon = true) (h : s.pwr.pmbTick + Nat.max 1 (s.rd pwrPmbCfgPoll) ≤ s.tick) :
    (!s.pwr.aon || decide (s.tick < s.pwr.pmbTick + Nat.max 1 (s.rd pwrPmbCfgPoll))) = false := by
  simp [hAon, Nat.not_lt.mpr h]

/-- A fold whose step acts at one element alone, which the list holds once. -/
theorem foldl_of_acts_once {σ α : Type} {g : σ → α → σ} {f : σ → σ} {i : α} (hAt : ∀ t, g t i = f t)
    (hElse : ∀ e, e ≠ i → ∀ t, g t e = t) {l : List α} (hNodup : l.Nodup) (hi : i ∈ l) (t : σ) : l.foldl g t = f t := by
  induction l generalizing t with
  | nil => cases hi
  | cons e l ih =>
    obtain ⟨hHead, hTail⟩ := List.nodup_cons.mp hNodup
    rw [List.foldl_cons]
    by_cases he : e = i
    · subst he
      rw [hAt]
      exact foldl_same g (f t) l (fun x hx => hElse x (fun hxe => hHead (hxe ▸ hx)) (f t))
    · rw [hElse e he]
      exact ih hTail ((List.mem_cons.mp hi).resolve_left (Ne.symm he)) t

/-- A round without an answer takes the tick alone. -/
theorem execPmbusPoll_nil {s : State} (hAon : s.pwr.aon = true) (h : s.pwr.pmbTick + Nat.max 1 (s.rd pwrPmbCfgPoll) ≤ s.tick) :
    execPmbusPoll [] s = .next (s.setPwr { s.pwr with pmbTick := s.tick }) := by
  simp only [execPmbusPoll, State.pmbusPoll_goes hAon h, Bool.false_eq_true, if_false]
  exact congrArg _ (foldl_same _ _ _ (fun _ _ => rfl))

/-- The round reads one regulator's answer at its entry, once. -/
theorem execPmbusPoll_singleton {s : State} (r : PmbReading) (hAon : s.pwr.aon = true)
    (h : s.pwr.pmbTick + Nat.max 1 (s.rd pwrPmbCfgPoll) ≤ s.tick) :
    execPmbusPoll [r] s = .next ((s.setPwr { s.pwr with pmbTick := s.tick }).takeReading r) := by
  simp only [execPmbusPoll, State.pmbusPoll_goes hAon h, Bool.false_eq_true, if_false]
  refine congrArg _ (foldl_of_acts_once (f := fun t : State => t.takeReading r) (i := r.entry.val) (fun t => ?_) (fun e he t => ?_)
    List.nodup_range (List.mem_range.mpr r.entry.isLt) _)
  · simp
  · simp [Ne.symm he]

/-! ### WAKE_GO and the staged mode: R18, R23 -/

theorem execWakeGo_pf (f : Fn) (s : State) : execWakeGo (.pf f) s = .next s.wrapUp := by
  simp [execWakeGo]

theorem execWakeGo_held {s : State} (h : s.rd pwrWakeStatusHeld = 1) :
    execWakeGo .mgmt s = .next (s.wr pwrWakeStatusHeld 0).nextDomain.wrapUp := by
  simp [execWakeGo, State.on, h]

theorem execPartCfgWrite_mgmt {v : Word32} (s : State) (h : bitsOf v.toNat 4 2 ≠ 3) :
    execPartCfgWrite .mgmt v s = .next ((s.wr sysPartCfgNext (bitsOf v.toNat 4 2)).wr sysPartCfgNextValid (bitsOf v.toNat 8 1)) := by
  simp [execPartCfgWrite, h]

theorem execPartCfgWrite_ignored {v : Word32} (path : Path) (s : State) (h : bitsOf v.toNat 4 2 = 3) :
    execPartCfgWrite path v s = .next s := by
  simp [execPartCfgWrite, h]

end Sys2Proof.Machine

namespace Sys2Proof

open Machine Machine.Reg

/-- Settles O42: each clause is its command's lemma above; the clocks' bounds are those of the least of the limits, raised to
the floor. -/
theorem runTimePower : Obligations.RunTimePower := by
  refine ⟨fun s f v d => ⟨?_, ?_, execVsetWrite_pf f d v s, execClockLimitWrite_pf f v s, execWakeGo_pf f s⟩,
    fun s v => ⟨rfl, fun h => ?_⟩, fun s d on off hOn hOff hBusy => State.switchRefused_of_busy on hOn hOff hBusy,
    fun s d h hOn => ?_, fun s d h hOff => ?_,
    fun s d v mv hmv => ⟨execVsetWrite_lower hmv, execVsetWrite_raise hmv⟩,
    fun s d v mv hRaise => ⟨execVoutSettled_near hRaise, execVoutSettled_far hRaise⟩,
    fun s v => execClockLimitWrite_mgmt v s,
    fun s d hOn => ⟨State.floor_le_matrixMhz hOn, State.matrixMhz_le_rated hOn,
      State.matrixMhz_le_limit hOn (by simp [State.limits]), State.matrixMhz_le_limit hOn (by simp [State.limits]),
      State.matrixMhz_le_mgmtLimit hOn⟩,
    fun s watts s1 hAon hs1 => ⟨fun hBist => ?_, fun hBist => ?_⟩,
    fun s e hPeak hFloor => State.limiter_peak hPeak hFloor,
    fun s s2 hAon hSeen hs2 => hs2 ▸ execPowerFailWarning_first hAon hSeen,
    fun s rs hAon => ⟨execPmbusPoll_early rs,
      fun hDue => ⟨fun hrs => hrs ▸ execPmbusPoll_nil hAon hDue, fun r hrs => hrs ▸ execPmbusPoll_singleton r hAon hDue⟩⟩,
    fun s h => execWakeGo_held h, fun s v h => execPartCfgWrite_mgmt s h, fun s path v h => execPartCfgWrite_ignored path s h⟩
  · rw [exec_domainOn, State.writeDomCtl_pf]
  · rw [exec_domainOff, State.writeDomCtl_pf]
  · rw [exec_domainOff, State.writeDomCtl_refused h]
  · rw [exec_domainOff, State.writeDomCtl_off h hOn]
  · rw [exec_domainOn, State.writeDomCtl_on h hOff]
  · rw [exec_powerLimiter, execPowerLimiter_on hAon hs1, if_pos hBist]
  · rw [exec_powerLimiter, execPowerLimiter_on hAon hs1, if_neg hBist]

end Sys2Proof
end

section
/-!
PROOF. The control instructions (06_instruction_reference.md, Tables INS-3 and INS-5): what each does to a list alone, one lemma per
instruction; O9 is assembled from them.
-/
namespace Sys2Proof.Machine

/-! ### The commands' meanings -/

theorem exec_nop (r : ListRef) (s : State) : exec (.nop r) s = execNop r s := rfl

theorem exec_setaddr (r : ListRef) (s : State) : exec (.setaddr r) s = execSetaddr r s := rfl

theorem exec_setmark (r : ListRef) (s : State) : exec (.setmark r) s = execSetmark r s := rfl

theorem exec_setshape (r : ListRef) (s : State) : exec (.setshape r) s = execSetshape r s := rfl

theorem exec_step (r : ListRef) (s : State) : exec (.step r) s = execStep r s := rfl

theorem exec_tmark (r : ListRef) (s : State) : exec (.tmark r) s = execTmark r s := rfl

/-! ### Causes for which an instruction is illegal -/

@[simp] theorem lowest_nil : lowest [] = none := rfl

@[simp] theorem lowest_cons_eq_none {b : Bool} {d : Nat} {l : List (Bool × Nat)} :
    lowest ((b, d) :: l) = none ↔ b = false ∧ lowest l = none := by
  cases h : lowest l <;> simp [lowest, h]

theorem lowest_singleton_true (d : Nat) : lowest [(true, d)] = some d := rfl

/-! ### Instructions that change the list's private state alone: R114, R129 -/

/-- An instruction that gives a lone list another private state is complete with it: the next instruction is fetched. -/
theorem State.finishAs_private {s : State} {r : ListRef} {op w : Nat} {l k : RunList} (h : s.lone r op l w)
    (hk : k.queue = l.queue ∧ k.desc = l.desc ∧ k.running = l.running ∧ k.faults = l.faults ∧ k.asks = l.asks)
    (hf : s.follows k = true) : (s.finishAs k).wrapUp = { s with lists := [s.onward k] } := by
  obtain ⟨_, hCalm, _⟩ := id h
  exact State.finishAs_lone s s h rfl rfl rfl hCalm hk hf

theorem execNop_alone {s : State} {r : ListRef} {l : RunList} {w : Nat} (h : s.lone r 0x00 l w) (hw : leftover w [] = false)
    (hf : s.follows l = true) : execNop r s = .next { s with lists := [s.onward l] } := by
  unfold execNop
  rw [State.instr_alone h _ _ (by simp [hw]), State.finish_lone s h hf]

theorem execSetaddr_alone {s : State} {r : ListRef} {l k : RunList} {w v : Nat} (h : s.lone r 0x02 l w)
    (hw : leftover w [(8, 1), (16, 4), (64, 64)] = false)
    (hv : v = if bitsOf w 8 1 = 1 then (l.slot (fSlot w) + fImm64 w) % 2 ^ 64 else fImm64 w)
    (hk : k = { l with as' := l.as'.set (fSlot w) v }) (hf : s.follows k = true) :
    execSetaddr r s = .next { s with lists := [s.onward k] } := by
  have hEnd := State.finishAs_private h (hk ▸ ⟨rfl, rfl, rfl, rfl, rfl⟩) hf
  unfold execSetaddr
  rw [State.instr_alone h _ _ (by simp [hw]), ← hEnd, hk, hv]

theorem execSetmark_alone {s : State} {r : ListRef} {l k : RunList} {w : Nat} (h : s.lone r 0x92 l w)
    (hw : leftover w [(16, 4), (20, 16), (64, 64)] = false) (hSlot : fSlot w < 4)
    (hk : k = { l with ms := l.ms.set (fSlot w) ⟨fImm64 w, fImm w 0 16⟩ }) (hf : s.follows k = true) :
    execSetmark r s = .next { s with lists := [s.onward k] } := by
  have hEnd := State.finishAs_private h (hk ▸ ⟨rfl, rfl, rfl, rfl, rfl⟩) hf
  unfold execSetmark
  rw [State.instr_alone h _ _ (by simp [hw, hSlot]), ← hEnd, hk, markOf]

theorem execSetshape_alone {s : State} {r : ListRef} {l k : RunList} {w : Nat} {x : Shape} (h : s.lone r 0x31 l w)
    (hLow : bitsOf w 11 5 = 0) (hHigh : bitsOf w 124 4 = 0)
    (hx : x = ⟨bitsOf w 16 20, bitsOf w 36 20, bitsOf w 56 20, bitsOf w 76 16, bitsOf w 92 16, bitsOf w 108 16⟩)
    (hk : k = { l with sh := l.sh.set (bitsOf w 8 3) (some x) }) (hf : s.follows k = true) :
    execSetshape r s = .next { s with lists := [s.onward k] } := by
  have hEnd := State.finishAs_private h (hk ▸ ⟨rfl, rfl, rfl, rfl, rfl⟩) hf
  unfold execSetshape
  rw [State.instr_alone h _ _ (by simp [hLow, hHigh]), ← hEnd, hk, hx]

/-- R129, Table INS-8: a reserved mark slot. -/
theorem execSetmark_reserved {s : State} {r : ListRef} {l : RunList} {w : Nat} (h : s.lone r 0x92 l w) (hSlot : 4 ≤ fSlot w) :
    execSetmark r s = .next (s.setList { l with ending := some ⟨0x22, 0x0202⟩ }).wrapUp := by
  have hCause : lowest [(leftover w [(16, 4), (20, 16), (64, 64)] || decide (4 ≤ fSlot w), 0x0202)] = some 0x0202 := by
    rw [decide_eq_true hSlot, Bool.or_true, lowest_singleton_true]
  unfold execSetmark
  rw [State.instr_illegal h _ _ hCause, State.endWith]

/-! ### STEP: R120, R199 -/

/-- A job's highest step is all that `raiseStep` changes. -/
theorem State.raiseStep_frame (s : State) (job step bound : Nat) :
    s.raiseStep job step bound = { s with steps := (s.raiseStep job step bound).steps } := by
  unfold State.raiseStep
  split
  · split <;> rfl
  · rfl

/-- The partition's highest steps and its wheel are all that `qualify` changes. -/
theorem State.qualify_frame (s : State) (p job step bound : Nat) :
    s.qualify p job step bound = { s with partSteps := (s.qualify p job step bound).partSteps,
                                          wheels := (s.qualify p job step bound).wheels } := by
  dsimp only [State.qualify]
  split <;> rfl

/-- A STEP leaves the registers, the memory and all that goes on beside the lists as they were. -/
theorem State.step_frame {s t : State} {p job step bound : Nat} (ht : t = (s.raiseStep job step bound).qualify p job step bound) :
    t.lists = s.lists ∧ t.regs = s.regs ∧ t.mem = s.mem ∧ t.arbs = s.arbs ∧ t.media = s.media := by
  rw [ht, State.qualify_frame, State.raiseStep_frame]
  exact ⟨rfl, rfl, rfl, rfl, rfl⟩

theorem execStep_alone {s t : State} {r : ListRef} {l k : RunList} {w : Nat} (h : s.lone r 0x80 l w)
    (hw : leftover w [(20, 44), (64, 64)] = false) (hStep : s.badStep l.hdr.job (fImm w 0 44) (fImm64 w) = false)
    (hk : k = { l with step := some (fImm w 0 44) })
    (ht : t = (s.raiseStep l.hdr.job (fImm w 0 44) (fImm64 w)).qualify (s.partOf l) l.hdr.job (fImm w 0 44) (fImm64 w))
    (hf : t.follows k = true) : execStep r s = .next { t with lists := [t.onward k] } := by
  obtain ⟨hLists, hRegs, hMem, hArbs, hMedia⟩ := State.step_frame ht
  obtain ⟨_, hCalm, _⟩ := id h
  have hFinish : (t.finishAs k).wrapUp = { t with lists := [t.onward k] } :=
    State.finishAs_lone s t h hLists hRegs hMem ((State.calm_congr hMem hArbs hMedia).trans hCalm)
      (hk ▸ ⟨rfl, rfl, rfl, rfl, rfl⟩) hf
  unfold execStep
  rw [State.instr_alone h _ _ (by simp [hw, hStep]), ← ht, ← hk, hFinish]

/-! ### TMARK: R124 -/

theorem execTmark_ready {s t : State} {r : ListRef} {l : RunList} {w : Nat} (h : s.ready r 0x81 = some (l, w))
    (hw : leftover w [(64, 64)] = false)
    (ht : t = (s.startInstr l w).trace 0x07 (traceUnit 3 l.queue) l.idx (some ((s.startInstr l w).listTag l)) (fImm64 w)
      [(s.startInstr l w).partOf l]) :
    execTmark r s = .next (t.finish l false).wrapUp := by
  unfold execTmark
  rw [State.instr_ready h _ _ (by simp [hw]), ← ht]

end Sys2Proof.Machine

namespace Sys2Proof

open Machine

/-- Settles O9: each clause is its instruction's lemma above. -/
theorem controlInstructions : Obligations.ControlInstructions := by
  refine ⟨fun s r l w h hw hf => ?nop, fun s r l k w h hw hk hf => ?setaddr, fun s r l k w h hw hSlot hk hf => ?setmark,
    fun s r l w h hSlot => ?reserved, fun s r l k w h hLow hHigh hk hf => ?setshape,
    fun s t r l k w h hw hStep hk ht hf => ?step, fun s t r l w h hw ht => ?tmark⟩
  case nop => rw [exec_nop, execNop_alone h hw hf]
  case setaddr =>
    obtain ⟨v, hv, hk⟩ := hk
    rw [exec_setaddr, execSetaddr_alone h hw hv hk hf]
  case setmark => rw [exec_setmark, execSetmark_alone h hw hSlot hk hf]
  case reserved => rw [exec_setmark, execSetmark_reserved h hSlot]
  case setshape =>
    obtain ⟨x, hx, hk⟩ := hk
    rw [exec_setshape, execSetshape_alone h hLow hHigh hx hk hf]
  case step => rw [exec_step, execStep_alone h hw hStep hk ht hf]
  case tmark => rw [exec_tmark, execTmark_ready h hw ht]

end Sys2Proof
end

section
/-!
PROOF. The regions of the Configurable Logic Array (17_configurable_logic_array.md): its memory source, HOLD and release, ASSIGN,
CFG_DONE, GO and the frame scan, one lemma per command and case; O48 is assembled from them.
-/
namespace Sys2Proof.Machine

open Reg

/-! ### The commands' meanings -/

theorem exec_claExtGo (path : Path) (v : Word32) (s : State) : exec (.claExtGo path v) s = execClaExtGo path v s := rfl

theorem exec_claIcpRelease (r : Region) (s : State) : exec (.claIcpRelease r) s = execClaIcpRelease r s := rfl

theorem exec_claRegionHold (path : Path) (r : Region) (s : State) :
    exec (.claRegionHold path r) s = execClaRegionHold path r s := rfl

theorem exec_claRegionUnhold (path : Path) (r : Region) (s : State) :
    exec (.claRegionUnhold path r) s = execClaRegionUnhold path r s := rfl

theorem exec_claRegionAssign (path : Path) (r : Region) (p : Part) (s : State) :
    exec (.claRegionAssign path r p) s = execClaRegionAssign path r p s := rfl

theorem exec_cfgDoneHigh (s : State) : exec .cfgDoneHigh s = execCfgDoneHigh s := rfl

theorem exec_claDoneTimeout (s : State) : exec .claDoneTimeout s = execClaDoneTimeout s := rfl

theorem exec_goLocal (path : Path) (s : State) : exec (.goLocal path) s = execGoLocal path s := rfl

theorem exec_releaseDone (path : Path) (s : State) : exec (.releaseDone path) s = execReleaseDone path s := rfl

theorem exec_claFrameScan (o : EccOutcome) (s : State) : exec (.claFrameScan o) s = execClaFrameScan o s := rfl

/-! ### One-bit fields -/

theorem State.on_of_rd_one {s : State} {f : Fld} (h : s.rd f = 1) : s.on f = true := by simp [State.on, h]

theorem State.on_of_rd_zero {s : State} {f : Fld} (h : s.rd f = 0) : s.on f = false := by simp [State.on, h]

theorem State.rd_withCla (s : State) (c : ClaSt) (f : Fld) : { s with cla := c }.rd f = s.rd f := rfl

/-! ### The memory source: R378 -/

@[simp] theorem State.extPath_mgmt (s : State) (full : Bool) (r : Nat) : s.extPath .mgmt full r = true := rfl

theorem State.domOn_wr {s : State} {f : Fld} (v d : Nat) (h : pwrDomStatusOn.addr ≠ f.addr) : (s.wr f v).domOn d = s.domOn d := by
  simp only [State.domOn, State.bit, State.rd_wr_ne s f _ v h]

/-- The partitions that are there depend on the mode and the domains alone. -/
theorem State.present_wr {s : State} {f : Fld} (v p : Nat) (h : pwrDomStatusOn.addr ≠ f.addr) :
    (s.wr f v).present p = s.present p := by
  have hDom : (s.wr f v).domOn = s.domOn := funext fun d => State.domOn_wr v d h
  rw [State.present, State.present, hDom]
  rfl

theorem State.badExt_wr {s : State} {f : Fld} (v p a n : Nat) (h : pwrDomStatusOn.addr ≠ f.addr) :
    (s.wr f v).badExt p a n = s.badExt p a n := by
  rw [State.badExt, State.badExt, State.present_wr v p h]
  rfl

/-- What EXT_CTL declares is no part of the range: its address, its length and its test stay. -/
theorem State.badExt_declared {s s1 : State} {part full r : Nat} (p : Nat)
    (hs1 : s1 = ((s.wr claExtCtlPart part).wr claExtCtlFull full).wr claExtCtlRegion r) :
    s1.badExt p (s1.rd64 claExtAddrLoAddr claExtAddrHiAddr) (s1.rd claExtLenBytes) =
      s.badExt p (s.rd64 claExtAddrLoAddr claExtAddrHiAddr) (s.rd claExtLenBytes) := by
  have hKept : ∀ g : Fld, g.addr ≠ claExtCtl → s1.rd g = s.rd g := fun g hg => by
    rw [hs1, State.rd_wr_ne _ _ _ _ hg, State.rd_wr_ne _ _ _ _ hg, State.rd_wr_ne _ _ _ _ hg]
  rw [State.rd64, hKept _ (by decide), hKept _ (by decide), hKept _ (by decide), hs1, State.badExt_wr _ _ _ _ (by decide),
    State.badExt_wr _ _ _ _ (by decide), State.badExt_wr _ _ _ _ (by decide), State.rd64]

/-- A free engine with its domain on takes the declaration; the range decides whether the source starts. -/
theorem execClaExtGo_free {s s1 : State} {v : Word32} {r : Nat} (hr : r = bitsOf v.toNat 0 3) (hGo : v.getLsbD 31 = true)
    (hPart : v.getLsbD 8 = false) (hStream : s.cla.stream = none) (hBusy : s.rd claExtStatusBusy = 0) (hOn : s.domOn 11 = true)
    (hs1 : s1 = ((s.wr claExtCtlPart (bitsOf v.toNat 12 2)).wr claExtCtlFull 0).wr claExtCtlRegion r) :
    execClaExtGo .mgmt v s = .next
      (if s1.badExt (s.rd (claRegionPart r)) (s1.rd64 claExtAddrLoAddr claExtAddrHiAddr) (s1.rd claExtLenBytes)
        then s1.wr claExtStatusResult 0x0E else s1.wr claExtStatusBusy 1) := by
  rw [State.badExt_declared _ hs1, hs1, hr]
  simp only [execClaExtGo, hGo, hPart, hStream, State.on_of_rd_zero hBusy, hOn, State.extPath_mgmt, Option.isSome_none, Bool.not_true,
    Bool.or_self, Bool.false_or, Bool.false_eq_true, if_false, Bool.toNat_false]

theorem execClaExtGo_busy {s : State} {v : Word32} (hGo : v.getLsbD 31 = true) (hBusy : s.rd claExtStatusBusy = 1) :
    execClaExtGo .mgmt v s = .next (s.wr claExtStatusResult 0x0C) := by
  simp only [execClaExtGo, hGo, State.on_of_rd_one hBusy, State.extPath_mgmt, Bool.not_true, Bool.or_true, Bool.false_eq_true,
    if_false, if_true]

theorem execClaExtGo_refused {s : State} {v : Word32} {r : Nat} {path : Path} (hr : r = bitsOf v.toNat 0 3)
    (hGo : v.getLsbD 31 = true) (hPart : v.getLsbD 8 = false) (h : s.extPath path false r = false) :
    execClaExtGo path v s = .next (s.wr claExtStatusResult 0x0D) := by
  rw [hr] at h
  simp only [execClaExtGo, hGo, hPart, h, Bool.not_true, Bool.not_false, Bool.false_eq_true, if_false, if_true]

/-! ### Release by the ICP: R381 -/

section
variable {s : State} {r : Region} (hLoaded : s.rd claStatusLoaded = 1)
include hLoaded

theorem execClaIcpRelease_released (hReady : s.regionState r = 2) (hGo : s.rd claStatusGo = 1) :
    execClaIcpRelease r s = .next ((s.releaseRegion r).emit (.icpAck r 0)).wrapUp := by
  simp [execClaIcpRelease, State.on_of_rd_one hLoaded, State.on_of_rd_one hGo, hReady]

theorem execClaIcpRelease_waits (hReady : s.regionState r = 2) (hGo : s.rd claStatusGo = 0) :
    execClaIcpRelease r s = .next (s.emit (.icpAck r 3)).wrapUp := by
  simp [execClaIcpRelease, State.on_of_rd_one hLoaded, State.on_of_rd_zero hGo, hReady]

theorem execClaIcpRelease_badCrc (hBad : s.regionState r = 4) (hCrc : s.cla.crcFailed.testBit r = true) :
    execClaIcpRelease r s = .next (((s.event claEventBadCrc).claEventMsg 4 r 8 0).emit (.icpAck r 1)).wrapUp := by
  simp [execClaIcpRelease, State.on_of_rd_one hLoaded, hBad, hCrc]

theorem execClaIcpRelease_notReady (hReady : s.regionState r ≠ 2) (hBad : s.regionState r ≠ 4) :
    execClaIcpRelease r s = .next (s.emit (.icpAck r 2)).wrapUp := by
  simp [execClaIcpRelease, State.on_of_rd_one hLoaded, hReady, hBad]

end

/-! ### HOLD: R382 -/

theorem State.holdRegion_held {s : State} {r : Nat} (h : s.regionState r = 3 ∨ s.regionState r = 2) :
    s.holdRegion r = (s.wr (claRegionHold r) 1).setRegion r 5 := if_pos h

theorem State.holdRegion_bit {s : State} {r : Nat} (hRun : s.regionState r ≠ 3) (hReady : s.regionState r ≠ 2) :
    s.holdRegion r = s.wr (claRegionHold r) 1 := if_neg (not_or.mpr ⟨hRun, hReady⟩)

theorem State.unholdRegion_go {s : State} {r : Nat} (h : s.regionState r = 5 ∨ s.regionState r = 2) (hGo : s.rd claStatusGo = 1) :
    s.unholdRegion r = (s.wr (claRegionHold r) 0).releaseRegion r := by
  rw [State.unholdRegion, if_pos h, if_pos (State.on_of_rd_one hGo)]

theorem State.unholdRegion_waits {s : State} {r : Nat} (h : s.regionState r = 5 ∨ s.regionState r = 2) (hGo : s.rd claStatusGo = 0) :
    s.unholdRegion r = s.wr (claRegionHold r) 0 := by
  simp [State.unholdRegion, h, State.on_of_rd_zero hGo]

theorem State.unholdRegion_ignored {s : State} {r : Nat} (h : s.regionState r = 0 ∨ s.regionState r = 1 ∨ s.regionState r = 4) :
    s.unholdRegion r = s := by
  rw [State.unholdRegion, if_neg (by omega), if_neg (by omega)]

theorem execClaRegionHold_may {s : State} {path : Path} {r : Region} (h : s.holdPath path r = true) :
    execClaRegionHold path r s = .next (s.holdRegion r).wrapUp := by simp [execClaRegionHold, h]

theorem execClaRegionUnhold_may {s : State} {path : Path} {r : Region} (h : s.holdPath path r = true) :
    execClaRegionUnhold path r s = .next (s.unholdRegion r).wrapUp := by simp [execClaRegionUnhold, h]

theorem execClaRegionHold_mayNot {s : State} {path : Path} {r : Region} (h : s.holdPath path r = false) :
    execClaRegionHold path r s = .next s.wrapUp := by simp [execClaRegionHold, h]

theorem execClaRegionUnhold_mayNot {s : State} {path : Path} {r : Region} (h : s.holdPath path r = false) :
    execClaRegionUnhold path r s = .next s.wrapUp := by simp [execClaRegionUnhold, h]

/-! ### Assignment: R368 -/

theorem execClaRegionAssign_taken {s : State} {r : Region} (p : Part)
    (h : s.regionState r = 0 ∨ s.regionState r = 4 ∨ s.regionState r = 5) :
    execClaRegionAssign .mgmt r p s = .next (s.wr (claRegionPart r) p) := by
  simp [execClaRegionAssign, h]

theorem execClaRegionAssign_refused {s : State} {r : Region} (p : Part)
    (h : s.regionState r = 1 ∨ s.regionState r = 2 ∨ s.regionState r = 3) :
    execClaRegionAssign .mgmt r p s = .next (s.event claEventCfgRefused) := by
  have hNot : ¬(s.regionState r = 0 ∨ s.regionState r = 4 ∨ s.regionState r = 5) := by omega
  simp [execClaRegionAssign, hNot]

theorem execClaRegionAssign_pf (f : Fn) (r : Region) (p : Part) (s : State) : execClaRegionAssign (.pf f) r p s = .next s := by
  simp [execClaRegionAssign]

/-! ### CFG_DONE and GO: R383 to R385 -/

theorem execCfgDoneHigh_driving {s : State} (hDriving : s.rd claStatusDriving = 1) : execCfgDoneHigh s = .next s.wrapUp := by
  simp [execCfgDoneHigh, State.on_of_rd_one hDriving]

/-- The line rises; GO follows where the shell is loaded. -/
theorem execCfgDoneHigh_rises {s s1 : State} (hAon : s.pwr.aon = true) (hDriving : s.rd claStatusDriving = 0)
    (hs1 : s1 = { s.wr claStatusLine 1 with cla := { s.cla with droveUntil := none } }) :
    execCfgDoneHigh s = .next (if s.on claStatusLoaded then s1.giveGo else s1).wrapUp := by
  have hLine : s1.rd claStatusLine = 1 := by rw [hs1, State.rd_withCla, State.rd_wr_same _ _ _ (by decide)]; rfl
  have hLoaded : s1.rd claStatusLoaded = s.rd claStatusLoaded := by
    rw [hs1, State.rd_withCla, State.rd_wr_disjoint _ _ _ _ (by decide) (by decide)]
  have hDrives : s1.rd claStatusDriving = 0 := by
    rw [hs1, State.rd_withCla, State.rd_wr_disjoint _ _ _ _ (by decide) (by decide), hDriving]
  have hTry : s1.tryGo = if s.on claStatusLoaded then s1.giveGo else s1 := by
    simp [State.tryGo, State.on, hLine, hLoaded, hDrives]
  have hRises : (!s.pwr.aon || s.on claStatusDriving) = false := by simp [hAon, State.on_of_rd_zero hDriving]
  have hCla : (s.wr claStatusLine 1).cla = s.cla := State.wr_cla s _ _
  rw [← hTry, hs1]
  simp only [execCfgDoneHigh, hRises, hCla, Bool.false_eq_true, if_false]

section
variable {s : State} {t : Nat} (hUntil : s.cla.droveUntil = some t)
include hUntil

theorem execClaDoneTimeout_due (hFirst : s.cla.timedOut = false) (hDue : t + Nat.max 1 (s.rd claDoneTimeoutBeats) ≤ s.tick) :
    execClaDoneTimeout s =
      .next (({ s with cla := { s.cla with timedOut := true } }.event claEventDoneTimeout).claEventMsg 3 0xFF 0 0) := by
  simp only [execClaDoneTimeout, hUntil, hFirst, hDue, decide_true, Bool.not_false, Bool.and_self, if_true]

theorem execClaDoneTimeout_early (hEarly : s.tick < t + Nat.max 1 (s.rd claDoneTimeoutBeats)) : execClaDoneTimeout s = .next s := by
  simp only [execClaDoneTimeout, hUntil, Nat.not_le.mpr hEarly, decide_false, Bool.and_false, Bool.false_eq_true, if_false]

end

theorem execGoLocal_loaded {s : State} (h : s.rd claStatusLoaded = 1) : execGoLocal .mgmt s = .next s.giveGo.wrapUp := by
  simp [execGoLocal, State.on_of_rd_one h]

theorem execGoLocal_pf (f : Fn) (s : State) : execGoLocal (.pf f) s = .next s.wrapUp := by
  simp [execGoLocal]

theorem execReleaseDone_mgmt (s : State) :
    execReleaseDone .mgmt s = .next { s.stopDriving with cla := { s.stopDriving.cla with released := true } } := rfl

theorem execReleaseDone_pf (f : Fn) (s : State) : execReleaseDone (.pf f) s = .next s := rfl

/-! ### The frame scan: R387 -/

section
variable {s s0 : State} (hOn : s.domOn 11 = true) (hs0 : s0 = { s with cla := { s.cla with scan := (s.cla.scan + 1) % 10880 } })
include hOn hs0

theorem execClaFrameScan_clean : execClaFrameScan .clean s = .next s0.wrapUp := by
  simp [execClaFrameScan, hOn, hs0]

theorem execClaFrameScan_corrected : execClaFrameScan .corrected s = .next (s0.count claScrubCe 1).wrapUp := by
  simp [execClaFrameScan, hOn, hs0]

/-- An uncorrectable error in a region's frame makes that region BAD. -/
theorem execClaFrameScan_region {r : Nat} (hr : frameRegion s.cla.scan = some r) :
    execClaFrameScan .uncorrectable s =
      .next ((((s0.setRegion r 4).count claScrubUe 1).event claEventFrameUe).claEventMsg 5 r 0 0).wrapUp := by
  simp [execClaFrameScan, hOn, hs0, hr]

/-- One in the shell's frame takes the shell, and with no region running nothing else. -/
theorem execClaFrameScan_shell (hr : frameRegion s.cla.scan = none) (hIdle : ∀ r, r < 8 → s0.regionRunning r = false) :
    execClaFrameScan .uncorrectable s = .next
      (((((s0.wr claStatusGo 0).wr claStatusLoaded 0).count claScrubUe 1).event claEventFrameUe).claEventMsg 5 0xFF 0 0).wrapUp := by
  have hNone : (List.range 8).filter (fun r => s0.regionRunning r) = [] :=
    List.filter_eq_nil_iff.mpr fun r h => by simp [hIdle r (List.mem_range.mp h)]
  rw [hs0] at hNone
  simp [execClaFrameScan, hOn, hs0, hr, hNone]

end

end Sys2Proof.Machine

namespace Sys2Proof

open Machine Machine.Reg

/-- Settles O48: each clause is its command's lemma above. -/
theorem claRegions : Obligations.ClaRegions := by
  refine ⟨fun s v r hr hGo hPart => ⟨fun hStream hBusy hOn s1 hs1 => ⟨fun hGood => ?extGood, fun hBad => ?extBad⟩,
      fun hBusy => execClaExtGo_busy hGo hBusy, fun f h => execClaExtGo_refused hr hGo hPart h⟩,
    fun s r hLoaded => ⟨execClaIcpRelease_released hLoaded, execClaIcpRelease_waits hLoaded, execClaIcpRelease_badCrc hLoaded,
      fun h => execClaIcpRelease_notReady hLoaded (by omega) (by omega)⟩,
    fun s path r hMay => ⟨fun h => ?hold, fun hRun hReady => ?holdBit, fun h hGo => ?unholdGo, fun h hGo => ?unholdWaits,
      fun h => ?unholdIgnored⟩,
    fun s path r hMay => ⟨execClaRegionHold_mayNot hMay, execClaRegionUnhold_mayNot hMay⟩,
    fun s r p => ⟨execClaRegionAssign_taken p, execClaRegionAssign_refused p, fun f => execClaRegionAssign_pf f r p s⟩,
    fun s hAon => ⟨execCfgDoneHigh_driving, fun hDriving hLoaded => ?rises, fun hDriving hLoaded => ?risesGo⟩,
    fun s t hUntil hFirst => ⟨execClaDoneTimeout_due hUntil hFirst, execClaDoneTimeout_early hUntil⟩,
    fun s => ⟨execGoLocal_loaded, execReleaseDone_mgmt s, fun f => ⟨execGoLocal_pf f s, execReleaseDone_pf f s⟩⟩,
    fun s s0 hOn hs0 => ⟨execClaFrameScan_clean hOn hs0, execClaFrameScan_corrected hOn hs0,
      fun r => execClaFrameScan_region hOn hs0, execClaFrameScan_shell hOn hs0⟩⟩
  case extGood => rw [exec_claExtGo, execClaExtGo_free hr hGo hPart hStream hBusy hOn hs1, hGood, if_neg Bool.false_ne_true]
  case extBad => rw [exec_claExtGo, execClaExtGo_free hr hGo hPart hStream hBusy hOn hs1, if_pos hBad]
  case hold => rw [exec_claRegionHold, execClaRegionHold_may hMay, State.holdRegion_held h]
  case holdBit => rw [exec_claRegionHold, execClaRegionHold_may hMay, State.holdRegion_bit hRun hReady]
  case unholdGo => rw [exec_claRegionUnhold, execClaRegionUnhold_may hMay, State.unholdRegion_go h hGo]
  case unholdWaits => rw [exec_claRegionUnhold, execClaRegionUnhold_may hMay, State.unholdRegion_waits h hGo]
  case unholdIgnored => rw [exec_claRegionUnhold, execClaRegionUnhold_may hMay, State.unholdRegion_ignored h]
  case rises => rw [exec_cfgDoneHigh, execCfgDoneHigh_rises hAon hDriving rfl, State.on_of_rd_zero hLoaded, if_neg Bool.false_ne_true]
  case risesGo => rw [exec_cfgDoneHigh, execCfgDoneHigh_rises hAon hDriving rfl, if_pos (State.on_of_rd_one hLoaded)]

end Sys2Proof
end

section
/-!
PROOF. Access to control space (19_trace_counters_and_debug.md: R432; Table SCP-2, R7, R8, R454): what a write leaves in the fields of a
register, what a read latches and for whom, and that a read changes no other path's latches; O54 is assembled from them.
-/
namespace Sys2Proof.Machine

open Reg

theorem exec_registerWrite (path : Path) (a : Nat) (v : Word32) (s : State) :
    exec (.registerWrite path a v) s = .next (s.writeReg path a v).wrapUp := rfl

theorem exec_loLatchRead (path : Path) (a : Nat) (s : State) :
    exec (.loLatchRead path a) s = .next (if s.serves path then (s.answerRead path a).wrapUp else s) := rfl

/-! ### What a write leaves in a register's fields: Table SCP-2 -/

/-- Bits `lo` to `lo + w - 1` share none with a field. -/
def FldDesc.apart (f : FldDesc) (lo w : Nat) : Prop := lo + w ≤ f.lo ∨ f.lo + f.width ≤ lo

theorem writeFields_cons (old v : Nat) (o : Bool) (f : FldDesc) (l : List FldDesc) :
    writeFields old v o (f :: l) = writeFields (writeFields old v o [f]) v o l := rfl

theorem writeFields_rw {f : FldDesc} (h : f.acc = .rw) (old v : Nat) (o : Bool) :
    writeFields old v o [f] = setBits old f.lo f.width (bitsOf v f.lo f.width) := by
  simp [writeFields, h]

theorem writeFields_rw1c {f : FldDesc} (h : f.acc = .rw1c) (old v : Nat) (o : Bool) :
    writeFields old v o [f] =
      setBits old f.lo f.width (bitsOf old f.lo f.width &&& (bitsOf v f.lo f.width ^^^ (2 ^ f.width - 1))) := by
  simp [writeFields, h]

theorem writeFields_ro {l : List FldDesc} (h : ∀ f ∈ l, f.acc = .ro) (old v : Nat) (o : Bool) : writeFields old v o l = old :=
  foldl_same _ _ _ fun f hf => by simp [h f hf]

/-- A field's write replaces the field's own bits, or none. -/
theorem writeFields_singleton (old v : Nat) (o : Bool) (f : FldDesc) :
    ∃ x, writeFields old v o [f] = setBits old f.lo f.width x := by
  cases h : f.acc with
  | rw => exact ⟨_, writeFields_rw h old v o⟩
  | rw1c => exact ⟨_, writeFields_rw1c h old v o⟩
  | rwl =>
    cases o with
    | true => exact ⟨bitsOf v f.lo f.width, by simp [writeFields, h]⟩
    | false => exact ⟨bitsOf old f.lo f.width, by simp [writeFields, h, setBits_bitsOf]⟩
  | _ => exact ⟨bitsOf old f.lo f.width, by simp [writeFields, h, setBits_bitsOf]⟩

theorem writeFields_lt {l : List FldDesc} {n : Nat} (hl : ∀ f ∈ l, f.lo + f.width ≤ n) {old : Nat} (hOld : old < 2 ^ n) (v : Nat)
    (o : Bool) : writeFields old v o l < 2 ^ n := by
  induction l generalizing old with
  | nil => exact hOld
  | cons f l ih =>
    obtain ⟨x, hx⟩ := writeFields_singleton old v o f
    rw [writeFields_cons, hx]
    exact ih (fun g hg => hl g (List.mem_cons_of_mem _ hg)) (setBits_lt hOld (hl f List.mem_cons_self))

/-- Bits that belong to no field keep what they held. -/
theorem bitsOf_writeFields_apart {l : List FldDesc} {lo w : Nat} (hl : ∀ f ∈ l, f.apart lo w) (old v : Nat) (o : Bool) :
    bitsOf (writeFields old v o l) lo w = bitsOf old lo w := by
  induction l generalizing old with
  | nil => rfl
  | cons f l ih =>
    obtain ⟨x, hx⟩ := writeFields_singleton old v o f
    rw [writeFields_cons, ih (fun g hg => hl g (List.mem_cons_of_mem _ hg)), hx]
    exact bitsOf_setBits_disjoint _ _ _ _ _ _ (hl f List.mem_cons_self)

/-- What an RW or RW1C field reads after a write, by what it held. -/
def FldDesc.written (f : FldDesc) (old v : Nat) : Nat :=
  if f.acc = .rw1c then bitsOf old f.lo f.width &&& (bitsOf v f.lo f.width ^^^ (2 ^ f.width - 1)) else bitsOf v f.lo f.width

theorem bitsOf_writeFields_singleton {f : FldDesc} (h : f.acc = .rw ∨ f.acc = .rw1c) (old v : Nat) (o : Bool) :
    bitsOf (writeFields old v o [f]) f.lo f.width = f.written old v := by
  rcases h with h | h
  · rw [writeFields_rw h, bitsOf_setBits_same, Nat.mod_eq_of_lt (bitsOf_lt _ _ _)]
    simp [FldDesc.written, h]
  · rw [writeFields_rw1c h, bitsOf_setBits_same, Nat.mod_eq_of_lt (Nat.lt_of_le_of_lt Nat.and_le_left (bitsOf_lt _ _ _))]
    simp [FldDesc.written, h]

/-- A write changes each field of a register by the field's own code, where the fields share no bits. -/
theorem bitsOf_writeFields_mem {l : List FldDesc} (hl : l.Pairwise fun f g => f.apart g.lo g.width) {f : FldDesc}
    (hf : f ∈ l) (h : f.acc = .rw ∨ f.acc = .rw1c) (old v : Nat) (o : Bool) :
    bitsOf (writeFields old v o l) f.lo f.width = f.written old v := by
  induction l generalizing old with
  | nil => cases hf
  | cons e l ih =>
    obtain ⟨hHead, hTail⟩ := List.pairwise_cons.mp hl
    rw [writeFields_cons]
    rcases List.mem_cons.mp hf with rfl | hf
    · rw [bitsOf_writeFields_apart (fun g hg => (hHead g hg).symm), bitsOf_writeFields_singleton h]
    · have hKept : bitsOf (writeFields old v o [e]) f.lo f.width = bitsOf old f.lo f.width :=
        bitsOf_writeFields_apart (by simpa using hHead f hf) old v o
      rw [ih hTail hf, FldDesc.written, hKept, FldDesc.written]

theorem bitsOf_one (v lo : Nat) : bitsOf v lo 1 = (v.testBit lo).toNat := by
  rw [Nat.toNat_testBit, bitsOf, pow_one]

/-- A 1 written to an RW1C bit clears it, and a 0 leaves it. -/
theorem FldDesc.written_rw1c_bit {f : FldDesc} (h : f.acc = .rw1c) (hw : f.width = 1) (old v : Nat) :
    f.written old v = if v.testBit f.lo then 0 else bitsOf old f.lo 1 := by
  rw [FldDesc.written, if_pos h, hw, bitsOf_one, bitsOf_one]
  cases v.testBit f.lo <;> cases old.testBit f.lo <;> rfl

/-! ### Registers of HBM, which act in no way of their own -/

theorem isPartCtl_hbm {a : Nat} (hLo : 0x300000 ≤ a) : isPartCtl a = false := by
  simp [isPartCtl]
  omega

section
variable {s : State} {a : Nat} (hLo : 0x300000 ≤ a) (hHi : a < 0x380000)
include hLo hHi

theorem State.afterWrite_hbm (old : State) : s.afterWrite old a = s := by
  unfold State.afterWrite
  rw [if_neg (by unfold pwrCfg qtnCfg hngEvent; omega), if_neg (by omega), if_neg (by unfold beatPtp; omega),
    if_neg (by simp [isPartCtl_hbm hLo]), if_neg (by unfold hngCfg; omega), if_neg (by unfold mgtNetCfg; omega),
    if_neg (by unfold cntSampleCfg; omega), if_neg (by omega)]

theorem clampWrite_hbm (old v : Nat) : clampWrite a old v = v := by
  unfold clampWrite
  rw [if_neg (by unfold pwrLimitSust; omega), if_neg (by unfold pwrLimitPeak; omega), if_neg (by omega),
    if_neg (by simp [isPartCtl_hbm hLo])]

variable (hAon : s.pwr.aon = true) (hVendor : vendorOnly a = false)
include hAon hVendor

theorem State.writeReg_hbm (path : Path) (v : Word32) : s.writeReg path a v = s.plainWrite path a v.toNat := by
  have hAdv : s.advAt a = s := by
    unfold State.advAt
    rw [if_neg (by unfold cntCtl; omega), if_neg (by omega), if_neg (by omega)]
  have hSync : syncWindow a = false := by simp [syncWindow]; omega
  have hMsix : msixWindow a = false := by simp [msixWindow]; omega
  have hCnt : a ≠ cntCtl := by unfold cntCtl; omega
  have hRoute : a ≠ fabRouteData := by unfold fabRouteData; omega
  unfold State.writeReg
  rw [if_neg (by simp [hAon]), if_neg (by simp [hVendor]), if_neg (by omega), if_neg (by omega), if_neg (by omega), if_neg hCnt,
    if_neg (by omega), if_neg (by omega), if_neg (by simp [hSync]), if_neg hRoute, if_neg (by simp [hMsix]), if_neg (by omega),
    if_neg (by omega), hAdv]

/-- Management's write of a register that every stack has changes its fields and nothing else. -/
theorem State.writeReg_hbm_mgmt {d : RegDesc} {ix : List Nat} (hAt : regAt a = some (d, ix)) (hWr : d.wr ≠ .none)
    (hStack : a % 0x10000 < 0x200) (v : Word32) :
    s.writeReg .mgmt a v =
      s.setReg a (BitVec.ofNat 32 (writeFields (s.reg a).toNat v.toNat (s.openLock a ix) d.flds)) := by
  have hMay : s.mayWrite .mgmt d ix a = true := by simpa [State.mayWrite] using hWr
  have hAbsent : s.absentEntry a = false := by simp [State.absentEntry]; omega
  rw [State.writeReg_hbm hLo hHi hAon hVendor, State.plainWrite, hAt]
  simp [hMay, hAbsent, clampWrite_hbm hLo hHi, State.afterWrite_hbm hLo hHi]

end

theorem State.rd_setReg (s : State) {f : Fld} {x : Nat} (hx : x < 2 ^ 32) :
    (s.setReg f.addr (BitVec.ofNat 32 x)).rd f = bitsOf x f.lo f.width := by
  rw [State.rd, State.reg_setReg_same, BitVec.toNat_ofNat, Nat.mod_eq_of_lt hx]

/-- A write to a register changes the register's fields alone. -/
theorem State.onlyFields_setReg (s : State) {a v : Nat} {o : Bool} {l : List FldDesc} {fs : List Fld}
    (hFit : ∀ f ∈ l, f.lo + f.width ≤ 32) (hfs : ∀ f ∈ l, (⟨a, f.lo, f.width⟩ : Fld) ∈ fs) :
    s.onlyFields fs (s.setReg a (BitVec.ofNat 32 (writeFields (s.reg a).toNat v o l))) := by
  refine ⟨rfl, fun g hg => ?_⟩
  by_cases ha : g.addr = a
  · subst ha
    have hApart : ∀ f ∈ l, f.apart g.lo g.width := fun f hf => by
      have := List.all_eq_true.mp hg _ (hfs f hf)
      simp only [Fld.apart, Bool.or_eq_true, decide_eq_true_eq, ne_eq, not_true_eq_false, false_or] at this
      exact this.symm
    rw [State.rd_setReg s (writeFields_lt hFit (s.reg _).isLt _ _), bitsOf_writeFields_apart hApart]
    rfl
  · rw [State.rd, State.reg_setReg_ne _ _ ha, State.rd]

/-! ### The table's entries -/

/-- The fields of HBM_EVENT. -/
def hbmEventFlds : List FldDesc := [⟨4, 1, .rw1c, 0⟩, ⟨3, 1, .rw1c, 0⟩, ⟨2, 1, .rw1c, 0⟩, ⟨1, 1, .rw1c, 0⟩, ⟨0, 1, .rw1c, 0⟩]

theorem regAt_hbmEvent (h : Stack) :
    regAt (hbmEvent h) = some (⟨0x300004, [(0x8, 0x10000)], .stack, .pf0md, .dev, hbmEventFlds⟩, [h.val]) := by
  decide +revert

theorem regAt_hbmRetireCfg (h : Stack) :
    regAt (hbmRetireCfg h) = some (⟨0x300020, [(0x8, 0x10000)], .stack, .pf0md, .dev, [⟨0, 8, .rw, 8⟩]⟩, [h.val]) := by
  decide +revert

theorem regAt_hbmCeTotal (h : Stack) :
    regAt (hbmCeTotal h) = some (⟨0x300008, [(0x8, 0x10000)], .stack, .pf0md, .dev, [⟨0, 32, .ro, 0⟩]⟩, [h.val]) := by
  decide +revert

theorem vendorOnly_hbm (h : Stack) :
    vendorOnly (hbmEvent h) = false ∧ vendorOnly (hbmRetireCfg h) = false ∧ vendorOnly (hbmCeTotal h) = false := by
  decide +revert

/-- A write of CE_THRESH: an RW field takes its bits of the word. -/
theorem State.writeReg_hbmRetireCfg {s : State} (hAon : s.pwr.aon = true) (h : Stack) (v : Word32) :
    (s.writeReg .mgmt (hbmRetireCfg h) v).rd (hbmRetireCfgCeThresh h) = bitsOf v.toNat 0 8 ∧
      s.onlyFields [hbmRetireCfgCeThresh h] (s.writeReg .mgmt (hbmRetireCfg h) v) := by
  obtain ⟨_, hVendor, _⟩ := vendorOnly_hbm h
  have hFit : ∀ f ∈ [(⟨0, 8, .rw, 8⟩ : FldDesc)], f.lo + f.width ≤ 32 := by decide
  rw [State.writeReg_hbm_mgmt (by unfold hbmRetireCfg; omega) (by unfold hbmRetireCfg; omega) hAon hVendor (regAt_hbmRetireCfg h)
    (by decide) (by unfold hbmRetireCfg; omega)]
  refine ⟨?_, s.onlyFields_setReg hFit (by simp [hbmRetireCfgCeThresh])⟩
  exact (s.rd_setReg (f := hbmRetireCfgCeThresh h) (writeFields_lt hFit (s.reg _).isLt _ _)).trans
    (bitsOf_writeFields_singleton (.inl rfl) _ _ _)

/-- A write of HBM_EVENT: a 1 clears a bit and a 0 leaves it, and no other field changes. -/
theorem State.writeReg_hbmEvent {s : State} (hAon : s.pwr.aon = true) (h : Stack) (v : Word32) :
    (∀ f ∈ hbmEventFlds, (s.writeReg .mgmt (hbmEvent h) v).rd ⟨hbmEvent h, f.lo, 1⟩ =
      if v.getLsbD f.lo then 0 else s.rd ⟨hbmEvent h, f.lo, 1⟩) ∧
    s.onlyFields [hbmEventCe h, hbmEventUe h, hbmEventHole h, hbmEventRetire h, hbmEventRemapFull h]
      (s.writeReg .mgmt (hbmEvent h) v) := by
  obtain ⟨hVendor, _, _⟩ := vendorOnly_hbm h
  have hFit : ∀ f ∈ hbmEventFlds, f.lo + f.width ≤ 32 := by decide
  have hApart : hbmEventFlds.Pairwise fun f g => f.apart g.lo g.width := by
    unfold FldDesc.apart
    decide
  have hBit : ∀ f ∈ hbmEventFlds, f.acc = .rw1c ∧ f.width = 1 := by decide
  rw [State.writeReg_hbm_mgmt (by unfold hbmEvent; omega) (by unfold hbmEvent; omega) hAon hVendor (regAt_hbmEvent h) (by decide)
    (by unfold hbmEvent; omega)]
  refine ⟨fun f hf => ?_, s.onlyFields_setReg hFit (by simp [hbmEventFlds, hbmEventCe, hbmEventUe, hbmEventHole, hbmEventRetire,
    hbmEventRemapFull])⟩
  obtain ⟨hAcc, hWidth⟩ := hBit f hf
  have hMem := bitsOf_writeFields_mem hApart hf (.inr hAcc) (s.reg (hbmEvent h)).toNat v.toNat (s.openLock (hbmEvent h) [h.val])
  rw [FldDesc.written_rw1c_bit hAcc hWidth, hWidth] at hMem
  exact (s.rd_setReg (f := ⟨hbmEvent h, f.lo, 1⟩) (writeFields_lt hFit (s.reg _).isLt _ _)).trans hMem

/-- A write of HBM_CE_TOTAL, an RO register. -/
theorem State.writeReg_hbmCeTotal {s : State} (hAon : s.pwr.aon = true) (h : Stack) (v : Word32) :
    s.writeReg .mgmt (hbmCeTotal h) v = s.setReg (hbmCeTotal h) (s.reg (hbmCeTotal h)) := by
  obtain ⟨_, _, hVendor⟩ := vendorOnly_hbm h
  rw [State.writeReg_hbm_mgmt (by unfold hbmCeTotal; omega) (by unfold hbmCeTotal; omega) hAon hVendor (regAt_hbmCeTotal h)
    (by decide) (by unfold hbmCeTotal; omega), writeFields_ro (by simp), BitVec.ofNat_toNat, BitVec.setWidth_eq]

theorem State.rd_setReg_reg (s : State) (a : Nat) (g : Fld) : (s.setReg a (s.reg a)).rd g = s.rd g := by
  rw [State.rd, State.reg_setReg]
  split
  · next h => rw [← h, State.rd]
  · rw [State.rd]

/-! ### Vendor-only ranges: R8 -/

theorem State.writeReg_aonDown {s : State} (h : s.pwr.aon = false) (path : Path) (a : Nat) (v : Word32) :
    s.writeReg path a v = s := by
  unfold State.writeReg
  rw [if_pos (by simp [h])]

theorem State.writeReg_vendor {s : State} {a : Nat} (hVendor : vendorOnly a = true) (hAon : s.pwr.aon = true) (path : Path)
    (v : Word32) : s.writeReg path a v = if path = .debug ∧ s.unlocked = true then s.vendorAccess a (some v) else s := by
  unfold State.writeReg
  rw [if_neg (by simp [hAon]), if_pos hVendor]
  cases path <;> simp

/-! ### A function that is not presented: R17, R454 -/

theorem State.seesPart_absent {s : State} {f : Fn} (h : s.presented f = false) (p : Nat) : s.seesPart (.pf f) p = false := by
  simp [State.seesPart, h]

theorem State.mayReadAt_absent {s : State} {f : Fn} (h : s.presented f = false) (a : Nat) : s.mayReadAt (.pf f) a = false := by
  have hReg : ∀ d ix, s.mayRead (.pf f) d ix a = false := by simp [State.mayRead, h]
  have hWindow : s.windowReads (.pf f) a = false := by
    simp [State.windowReads, State.seesPart_absent h, h]
  unfold State.mayReadAt
  split <;> simp [hReg, hWindow]

theorem State.readReg_absent {s : State} {f : Fn} (h : s.presented f = false) {a : Nat} (hCla : claWindow a = false) :
    s.readReg (.pf f) a = (0, s) := by
  unfold State.readReg
  rw [if_neg (by simp [hCla])]
  split
  · simp [h]
  · split
    · rfl
    · rw [if_pos (by simp [State.mayReadAt_absent h])]

/-! ### Latches: R432 -/

theorem pathKey_injective : Function.Injective pathKey := by
  intro p q h
  cases p <;> cases q <;> simp [pathKey, Fin.ext_iff] at h ⊢ <;> omega

theorem State.latchOf_setLatch (s : State) (path : Path) (a : Nat) (v : Word32) (q : Path) :
    (s.setLatch path a v).latchOf q =
      if q = path then (a, v) :: (s.latchOf path).filter (fun e => e.1 != a) else s.latchOf q := by
  rw [State.latchOf, State.setLatch, SMap.get_set]
  simp only [pathKey_injective.eq_iff, State.latchOf]

theorem State.latched_setLatch_same (s : State) (path : Path) (a : Nat) (v : Word32) :
    (s.setLatch path a v).latched path a = v := by
  simp [State.latched, State.latchOf_setLatch]

theorem State.latched_setLatch_ne (s : State) (path : Path) {a b : Nat} (v : Word32) (h : b ≠ a) :
    (s.setLatch path a v).latched path b = s.latched path b := by
  have hFind : ((s.latchOf path).filter (fun e => e.1 != a)).find? (fun e => e.1 == b) = (s.latchOf path).find? (fun e => e.1 == b) := by
    rw [List.find?_filter]
    congr 1
    funext e
    by_cases he : e.1 = b <;> simp [he, h]
  rw [State.latched, State.latchOf_setLatch, if_pos rfl, List.find?_cons_of_neg (by simpa using h.symm), hFind, State.latched]

/-- Two states hold the same latches for a path. -/
theorem State.latched_congr {s t : State} {path : Path} (h : t.latchOf path = s.latchOf path) (a : Nat) :
    t.latched path a = s.latched path a := by
  rw [State.latched, h, State.latched]

theorem State.latchOf_congr {s t : State} (h : t.latches = s.latches) (path : Path) : t.latchOf path = s.latchOf path := by
  rw [State.latchOf, h, State.latchOf]

/-- What no step of a fold changes, the fold leaves as it was. -/
theorem foldl_keeps {σ α β : Type} {g : σ → β} {f : σ → α → σ} (h : ∀ t x, g (f t x) = g t) (l : List α) (s : σ) :
    g (l.foldl f s) = g s := by
  induction l generalizing s with
  | nil => rfl
  | cons x l ih => rw [List.foldl_cons, ih, h]

/-! What a read does before and besides latching changes no latch. -/

/-- The counter's wrap bit is a variable here, so that no proof below evaluates its comparison with 2 ^ 48. -/
theorem State.bump48_latches (s : State) (lo hi : Fld) (n : Nat) :
    ∃ t w, s.bump48 lo hi n = (t, w) ∧ t.latches = s.latches := ⟨_, _, rfl, rfl⟩

@[simp] theorem State.advCl_latches (s : State) (u j : Nat) : (s.advCl u j).latches = s.latches := by
  obtain ⟨t, w, hBump, hLatches⟩ := State.bump48_latches { s with free := s.free + 1 } (cntClLoCount u j) (cntClHiCount u j)
    (Config.cycles s.free)
  unfold State.advCl
  rw [hBump]
  split
  · rfl
  · cases w <;> exact hLatches

@[simp] theorem State.advEs_latches (s : State) (d j : Nat) : (s.advEs d j).latches = s.latches := by
  obtain ⟨t, w, hBump, hLatches⟩ := State.bump48_latches { s with free := s.free + 1 } (cntEsLoCount d j) (cntEsHiCount d j)
    (Config.cycles s.free)
  unfold State.advEs
  rw [hBump]
  split
  · rfl
  · cases w with
    | false => exact hLatches
    | true =>
      dsimp only
      rw [if_pos rfl]
      split <;> exact (State.wrBit_latches ..).trans hLatches

@[simp] theorem State.advClAll_latches (s : State) (u : Nat) : (s.advClAll u).latches = s.latches :=
  foldl_keeps (fun t j => t.advCl_latches u j) _ s

@[simp] theorem State.advEsAll_latches (s : State) (d : Nat) : (s.advEsAll d).latches = s.latches :=
  foldl_keeps (fun t j => t.advEs_latches d j) _ s

@[simp] theorem State.advDie_latches (s : State) (d : Nat) : (s.advDie d).latches = s.latches := by
  unfold State.advDie
  exact (foldl_keeps (g := State.latches) (fun t i => t.advClAll_latches (d * 168 + i)) _ _).trans (s.advEsAll_latches d)

@[simp] theorem State.advAt_latches (s : State) (a : Nat) : (s.advAt a).latches = s.latches := by
  unfold State.advAt
  by_cases hCtl : a = cntCtl
  · rw [if_pos hCtl]
    exact foldl_keeps (g := State.latches) (fun t d => t.advDie_latches d) _ s
  rw [if_neg hCtl]
  by_cases hSets : 0xA9000 ≤ a ∧ a < 0xAA000
  · rw [if_pos hSets, State.advEsAll_latches]
  rw [if_neg hSets]
  by_cases hClusters : 0x1000000 ≤ a ∧ a < 0x1A80000 ∧ 0x100 ≤ a % 0x4000 ∧ a % 0x4000 < 0x150
  · rw [if_pos hClusters, State.advClAll_latches]
  · rw [if_neg hClusters]

@[simp] theorem State.meet_latches (s : State) (line : Nat) (scrub : Bool) (owner : Option (Nat × Nat)) :
    (s.meet line scrub owner).latches = s.latches := by
  dsimp only [State.meet]
  split <;> rfl

@[simp] theorem State.noteHole_latches (s : State) (p : Nat) (whole : Bool) (a : Nat) :
    (s.noteHole p whole a).latches = s.latches := by
  unfold State.noteHole
  split <;> rfl

@[simp] theorem State.touchLine_latches (s : State) (p : Nat) (whole : Bool) (owner : Option (Nat × Nat)) (lo : Nat) :
    (s.touchLine p whole owner lo).latches = s.latches := by
  unfold State.touchLine
  split
  · exact s.meet_latches ..
  · exact s.noteHole_latches ..

@[simp] theorem State.touch_latches (s : State) (p : Nat) (whole : Bool) (owner : Option (Nat × Nat)) (a n : Nat) :
    (s.touch p whole owner a n).latches = s.latches :=
  foldl_keeps (fun t lo => t.touchLine_latches p whole owner (Nat.max a lo)) _ s

@[simp] theorem State.beforeRead_latches (s : State) (a : Nat) : (s.beforeRead a).latches = s.latches := by
  unfold State.beforeRead
  split
  · rfl
  · split
    · exact s.touch_latches ..
    · exact s.advAt_latches a

@[simp] theorem State.drawWord_latches (s : State) : s.drawWord.2.latches = s.latches := rfl

@[simp] theorem State.wordNow_latches (s : State) (a : Nat) : (s.wordNow a).2.latches = s.latches := by
  unfold State.wordNow
  split
  · rfl
  · exact s.drawWord_latches

/-- A read of a LO half latches for its own path alone. -/
theorem State.latchOf_readLo (s : State) {path other : Path} (h : other ≠ path) (a : Nat) :
    (s.readLo path a).2.latchOf other = s.latchOf other :=
  (foldl_keeps (g := fun t : State => t.latchOf other) (fun t x => by rw [State.latchOf_setLatch, if_neg h]) _ _).trans
    (State.latchOf_congr (s.wordNow_latches a) other)

theorem State.latchOf_readReg (s : State) {path other : Path} (h : other ≠ path) (a : Nat) :
    (s.readReg path a).2.latchOf other = s.latchOf other := by
  unfold State.readReg
  split
  · split
    · rfl
    · split <;> rfl
  split
  · split <;> rfl
  split
  · split <;> rfl
  split
  · rfl
  split
  · exact (State.latchOf_readLo _ h a).trans (State.latchOf_congr (s.beforeRead_latches a) other)
  split
  · rfl
  · exact State.latchOf_congr (by simp) other

/-- A read of what a latch holds answers what its own path has latched. -/
theorem State.readReg_latched {s : State} {path : Path} {b : Nat} (hLatched : isLatched b = true)
    (hMay : s.mayReadAt path b = true) (hLo : latchedWith b = []) (hCla : claWindow b = false) (hMsix : msixWindow b = false)
    (hVendor : vendorOnly b = false) : s.readReg path b = ((s.latched path b).toNat, s) := by
  unfold State.readReg
  rw [if_neg (by simp [hCla]), if_neg (by simp [hMsix]), if_neg (by simp [hVendor]), if_neg (by simp [hMay]), if_neg (by simp [hLo]),
    if_pos hLatched]

/-- The state once a path has read BEAT_NUM_LO: BEAT_NUM_HI and BEAT_PHASE are latched for it. -/
def State.beatLatched (s : State) (path : Path) : State :=
  (s.setLatch path beatNumHi (BitVec.ofNat 32 (s.beat.num / 2 ^ 32 % 2 ^ 32))).setLatch path beatPhase (BitVec.ofNat 32 s.beat.phase)

theorem State.view_beat (s : State) :
    s.view beatNumLo = some (s.beat.num % 2 ^ 32) ∧ s.view beatNumHi = some (s.beat.num / 2 ^ 32 % 2 ^ 32) ∧
      s.view beatPhase = some s.beat.phase := by
  refine ⟨?_, ?_, ?_⟩ <;> simp [State.view, beatNumLo, beatNumHi, beatPhase]

theorem State.readReg_beatNumLo {s : State} {path : Path} (hMay : s.mayReadAt path beatNumLo = true) :
    s.readReg path beatNumLo = (s.beat.num % 2 ^ 32, s.beatLatched path) := by
  obtain ⟨hViewLo, hViewHi, hViewPhase⟩ := s.view_beat
  have hWith : latchedWith beatNumLo = [beatNumHi, beatPhase] := rfl
  have hBefore : s.beforeRead beatNumLo = s := by
    simp [State.beforeRead, State.advAt, traceWindow, beatNumLo, cntCtl]
  unfold State.readReg
  rw [if_neg (by decide), if_neg (by decide), if_neg (by decide), if_neg (by simp [hMay]), if_pos (by simp [hWith]), hBefore]
  simp only [State.readLo, State.wordNow, hViewLo, hWith, List.foldl_cons, List.foldl_nil, hViewHi, hViewPhase, Option.getD_some,
    State.beatLatched]

end Sys2Proof.Machine

namespace Sys2Proof

open Machine Machine.Reg

/-- Settles O54: the codes of Table SCP-2 field by field, and R432 by following what a read changes; each clause is its lemma above. -/
theorem registerAccess : Obligations.RegisterAccess := by
  refine ⟨fun s path a v => ⟨exec_registerWrite path a v s, fun h => State.writeReg_aonDown h path a v, fun hVendor h => ?locked,
      fun hVendor hAon h => ?unlocked⟩,
    fun s h v hAon => ⟨_, rfl, State.writeReg_hbmRetireCfg hAon h v⟩, fun s h v hAon => ?event, fun s h v hAon => ?total,
    fun s path a => ⟨fun h => ?serves, fun h => ?silent⟩, fun s f a hAbsent hCla => ?absent, fun s path hServes hMay => ?beat,
    fun s path b => State.readReg_latched, fun s path other a b h => State.latched_congr (s.latchOf_readReg h a) b⟩
  case locked =>
    cases hAon : s.pwr.aon with
    | false => exact State.writeReg_aonDown hAon path a v
    | true =>
      rw [State.writeReg_vendor hVendor hAon, if_neg]
      rintro ⟨hPath, hUnlocked⟩
      exact h.elim (· hPath) (by simp [hUnlocked])
  case unlocked => rw [State.writeReg_vendor hVendor hAon, if_pos ⟨rfl, h⟩]
  case event =>
    obtain ⟨hBits, hOnly⟩ := State.writeReg_hbmEvent hAon h v
    have hCe := hBits ⟨0, 1, .rw1c, 0⟩ (by simp [hbmEventFlds])
    have hUe := hBits ⟨1, 1, .rw1c, 0⟩ (by simp [hbmEventFlds])
    exact ⟨_, rfl,
      fun hv => hCe.trans (if_pos hv), fun hv => hCe.trans (if_neg (Bool.eq_false_iff.mp hv)),
      fun hv => hUe.trans (if_pos hv), fun hv => hUe.trans (if_neg (Bool.eq_false_iff.mp hv)), hOnly⟩
  case total =>
    refine ⟨s.setReg (hbmCeTotal h) (s.reg (hbmCeTotal h)), ?_, s.rd_setReg_reg _, rfl⟩
    rw [exec_registerWrite, State.writeReg_hbmCeTotal hAon h v]
  case serves => rw [exec_loLatchRead, if_pos h]
  case silent => rw [exec_loLatchRead, if_neg (by simp [h])]
  case absent =>
    have hPresented : s.presented f = false := by simpa [State.presented] using hAbsent
    rw [State.readReg_absent hPresented hCla]
    exact ⟨rfl, rfl⟩
  case beat =>
    refine ⟨s.beatLatched path, ?_, ?_, State.latched_setLatch_same .., rfl⟩
    · rw [exec_loLatchRead, if_pos hServes, State.answerRead, State.readReg_beatNumLo hMay]
    · exact (State.latched_setLatch_ne _ path _ (by decide)).trans (State.latched_setLatch_same ..)

end Sys2Proof
end

section

-- The text is compiled as one: in order, so that the threads that wait for one another stay few.
set_option Elab.async false

section
/-!
PROOF. The step as a whole: a step runs the command at the front of the queue; every command keeps the waiting queue and the
canonical form of every sparse map, and answers a next state; what holds at reset. O59, O56, O55 and O58 are assembled from them.
-/
namespace Sys2Proof.Machine

/-! ### What every command keeps -/

/-- One arm per command, as in `exec`: each meaning keeps the queue and the canonical forms. -/
theorem exec_keeps {q : List Instr} {s : State} (h : Keeps q s) : ∀ c : Instr, KeepsNext q (exec c s)
  | .beatRefEdge _ _ => execBeatRefEdge_keeps h _ _
  | .beatDerivedEdge _ _ => execBeatDerivedEdge_keeps h _ _
  | .beatLoss _ => execBeatLoss_keeps h _
  | .beatLost => execBeatLost_keeps h
  | .renum _ => execRenum_keeps h _
  | .beatCompWrite _ _ => execBeatCompWrite_keeps h _ _
  | .beatSourceChange _ _ => execBeatSourceChange_keeps h _ _
  | .slipCheck _ => execSlipCheck_keeps h _
  | .ptpSyncRx _ _ _ _ => execPtpSyncRx_keeps h _ _ _ _
  | .ptpFollowUpRx _ _ => execPtpFollowUpRx_keeps h _ _
  | .ptpDelayRespRx _ _ => execPtpDelayRespRx_keeps h _ _
  | .ptpAnnounceRx _ _ => execPtpAnnounceRx_keeps h _ _
  | .loLatchRead _ _ => execLoLatchRead_keeps h _ _
  | .registerWrite _ _ _ => execRegisterWrite_keeps h _ _ _
  | .doorbell _ _ _ => execDoorbell_keeps h _ _ _
  | .admissionCandidate _ => execAdmissionCandidate_keeps h _
  | .schedulingRound _ => execSchedulingRound_keeps h _
  | .quotaWindowStart _ => execQuotaWindowStart_keeps h _
  | .agePromotion _ _ _ => execAgePromotion_keeps h _ _ _
  | .admCfgWrite _ _ _ => execAdmCfgWrite_keeps h _ _ _
  | .admQuotaWindowWrite _ _ _ _ => execAdmQuotaWindowWrite_keeps h _ _ _ _
  | .admClearRefused _ _ => execAdmClearRefused_keeps h _ _
  | .admClearDeferred _ _ => execAdmClearDeferred_keeps h _ _
  | .queueEnable _ _ _ => execQueueEnable_keeps h _ _ _
  | .queueDisable _ _ _ => execQueueDisable_keeps h _ _ _
  | .ringConfigWrite _ _ _ _ => execRingConfigWrite_keeps h _ _ _ _
  | .cplRingConfigWrite _ _ _ _ => execCplRingConfigWrite_keeps h _ _ _ _
  | .cplConsume _ _ _ => execCplConsume_keeps h _ _ _
  | .irqTimeout _ => execIrqTimeout_keeps h _
  | .syncHiWrite _ _ _ _ => execSyncHiWrite_keeps h _ _ _ _
  | .syncLoWrite _ _ _ _ => execSyncLoWrite_keeps h _ _ _ _
  | .nop _ => execNop_keeps h _
  | .endList _ => execEndList_keeps h _
  | .setaddr _ => execSetaddr_keeps h _
  | .write _ => execWrite_keeps h _
  | .enqueue _ => execEnqueue_keeps h _
  | .signal _ => execSignal_keeps h _
  | .wait _ => execWait_keeps h _
  | .rsignal _ => execRsignal_keeps h _
  | .copy _ => execCopy_keeps h _
  | .convert _ => execConvert_keeps h _
  | .tap _ => execTap_keeps h _
  | .mma _ => execMma_keeps h _
  | .setshape _ => execSetshape_keeps h _
  | .vew _ => execVew_keeps h _
  | .vun _ => execVun_keeps h _
  | .vred _ => execVred_keeps h _
  | .allreduce _ => execAllreduce_keeps h _
  | .redscat _ => execRedscat_keeps h _
  | .allgather _ => execAllgather_keeps h _
  | .bcast _ => execBcast_keeps h _
  | .mdec _ _ => execMdec_keeps h _ _
  | .menc _ => execMenc_keeps h _
  | .mflush _ _ _ => execMflush_keeps h _ _ _
  | .ckbegin _ => execCkbegin_keeps h _
  | .ckwrite _ => execCkwrite_keeps h _
  | .ckdone _ => execCkdone_keeps h _
  | .ckread _ => execCkread_keeps h _
  | .step _ => execStep_keeps h _
  | .tmark _ => execTmark_keeps h _
  | .waitbeat _ => execWaitbeat_keeps h _
  | .waitticks _ => execWaitticks_keeps h _
  | .setmark _ => execSetmark_keeps h _
  | .stamp _ => execStamp_keeps h _
  | .waitbeatRelease _ => execWaitbeatRelease_keeps h _
  | .waitticksExpiry _ => execWaitticksExpiry_keeps h _
  | .collectiveMark _ => execCollectiveMark_keeps h _
  | .tileComplete _ _ _ _ => execTileComplete_keeps h _ _ _ _
  | .wheelAdvance _ => execWheelAdvance_keeps h _
  | .shadowSlotWaitExpiry _ => execShadowSlotWaitExpiry_keeps h _
  | .shadowComplete _ _ _ _ => execShadowComplete_keeps h _ _ _ _
  | .arbiterComplete _ _ _ _ => execArbiterComplete_keeps h _ _ _ _
  | .arbTimeout _ _ => execArbTimeout_keeps h _ _
  | .mapImageClosed => execMapImageClosed_keeps h
  | .reconciliation => execReconciliation_keeps h
  | .quarantine _ _ => execQuarantine_keeps h _ _
  | .suspect _ _ => execSuspect_keeps h _ _
  | .reinstate _ _ _ => execReinstate_keeps h _ _ _
  | .churnGrant _ _ _ => execChurnGrant_keeps h _ _ _
  | .churnAbort _ => execChurnAbort_keeps h _
  | .churnKernelResult _ _ _ _ => execChurnKernelResult_keeps h _ _ _ _
  | .churnRunEnd => execChurnRunEnd_keeps h
  | .packBegin _ _ _ _ => execPackBegin_keeps h _ _ _ _
  | .packData _ _ _ => execPackData_keeps h _ _ _
  | .packCommit _ => execPackCommit_keeps h _
  | .jobFaultRx _ _ _ => execJobFaultRx_keeps h _ _ _
  | .jobFaultResend => execJobFaultResend_keeps h
  | .jobQuiet _ _ => execJobQuiet_keeps h _ _
  | .jobDeclare _ _ _ => execJobDeclare_keeps h _ _ _
  | .jobRelease _ _ _ => execJobRelease_keeps h _ _ _
  | .jobRestartArm _ _ _ _ => execJobRestartArm_keeps h _ _ _ _
  | .jobRestartMark _ _ => execJobRestartMark_keeps h _ _
  | .sealMark _ _ _ => execSealMark_keeps h _ _ _
  | .sealTimeout _ _ _ => execSealTimeout_keeps h _ _ _
  | .agreeRx _ _ _ _ => execAgreeRx_keeps h _ _ _ _
  | .agreeResultRx _ _ _ => execAgreeResultRx_keeps h _ _ _
  | .kftWriteRx _ _ _ => execKftWriteRx_keeps h _ _ _
  | .kftReadReqRx _ _ _ => execKftReadReqRx_keeps h _ _ _
  | .kftReadRespRx _ _ _ => execKftReadRespRx_keeps h _ _ _
  | .kftSignalRx _ _ _ => execKftSignalRx_keeps h _ _ _
  | .kftSignalMaxRx _ _ _ => execKftSignalMaxRx_keeps h _ _ _
  | .kftEnqueueRx _ _ _ _ => execKftEnqueueRx_keeps h _ _ _ _
  | .kftCollRx _ _ _ _ _ => execKftCollRx_keeps h _ _ _ _ _
  | .kftAckRx _ _ => execKftAckRx_keeps h _ _
  | .kftNackRx _ _ _ => execKftNackRx_keeps h _ _ _
  | .kftRto _ _ => execKftRto_keeps h _ _
  | .connReqRx _ _ => execConnReqRx_keeps h _ _
  | .connAckRx _ _ => execConnAckRx_keeps h _ _
  | .connCloseRx _ _ => execConnCloseRx_keeps h _ _
  | .connRejectRx _ _ => execConnRejectRx_keeps h _ _
  | .connIdleClose _ => execConnIdleClose_keeps h _
  | .fabricLinkUp _ => execFabricLinkUp_keeps h _
  | .fabricLinkDown _ => execFabricLinkDown_keeps h _
  | .laneFault _ _ => execLaneFault_keeps h _ _
  | .routeDataWrite _ _ => execRouteDataWrite_keeps h _ _
  | .beatAnnSend => execBeatAnnSend_keeps h
  | .beatAnnRx _ _ _ => execBeatAnnRx_keeps h _ _ _
  | .perstDeassert => execPerstDeassert_keeps h
  | .pcieLinkReset _ => execPcieLinkReset_keeps h _
  | .functionLevelReset _ => execFunctionLevelReset_keeps h _
  | .bar2Read _ _ _ => execBar2Read_keeps h _ _ _
  | .bar2Write _ _ _ => execBar2Write_keeps h _ _ _
  | .pcieCompletionRx _ _ _ _ => execPcieCompletionRx_keeps h _ _ _ _
  | .pcieCplTimeout _ _ _ => execPcieCplTimeout_keeps h _ _ _
  | .spdmRequest _ => execSpdmRequest_keeps h _
  | .mgtRead _ _ _ => execMgtRead_keeps h _ _ _
  | .mgtWrite _ _ _ _ => execMgtWrite_keeps h _ _ _ _
  | .mgtAckRx _ => execMgtAckRx_keeps h _
  | .reportRetry => execReportRetry_keeps h
  | .mctpControlMsg _ => execMctpControlMsg_keeps h _
  | .mctpVendorRead _ => execMctpVendorRead_keeps h _
  | .mctpVendorWrite _ _ => execMctpVendorWrite_keeps h _ _
  | .pldmGetTid => execPldmGetTid_keeps h
  | .pldmSetTid _ => execPldmSetTid_keeps h _
  | .pldmGetPldmVersion _ => execPldmGetPldmVersion_keeps h _
  | .pldmGetPldmTypes => execPldmGetPldmTypes_keeps h
  | .pldmGetPldmCommands _ => execPldmGetPldmCommands_keeps h _
  | .pldmMonitoringRequest _ => execPldmMonitoringRequest_keeps h _
  | .pldmFirmwareUpdate _ => execPldmFirmwareUpdate_keeps h _
  | .pldmUnsupported _ _ => execPldmUnsupported_keeps h _ _
  | .heartbeatWrite _ v => execHeartbeatWrite_keeps h _ v
  | .heartbeatMiss _ => execHeartbeatMiss_keeps h _
  | .takeoverComplete => execTakeoverComplete_keeps h
  | .takeoverOverdue => execTakeoverOverdue_keeps h
  | .engineStall _ _ => execEngineStall_keeps h _ _
  | .engineResetOverdue _ _ => execEngineResetOverdue_keeps h _ _
  | .rmgSnapshot => execRmgSnapshot_keeps h
  | .rmgAckWrite _ _ => execRmgAckWrite_keeps h _ _
  | .rstEngine _ _ => execRstEngine_keeps h _ _
  | .rstPartition _ _ => execRstPartition_keeps h _ _
  | .rstDevice _ _ => execRstDevice_keeps h _ _
  | .rstClaRegion _ _ => execRstClaRegion_keeps h _ _
  | .fenceDrainEnd _ => execFenceDrainEnd_keeps h _
  | .fenceAnswerOverrun _ => execFenceAnswerOverrun_keeps h _
  | .captureComplete _ => execCaptureComplete_keeps h _
  | .resetPhaseDone _ => execResetPhaseDone_keeps h _
  | .captureChunkSend _ => execCaptureChunkSend_keeps h _
  | .aonPowerUp _ => execAonPowerUp_keeps h _
  | .aonResetPin _ _ => execAonResetPin_keeps h _ _
  | .sysOscQualified => execSysOscQualified_keeps h
  | .pllLock _ => execPllLock_keeps h _
  | .bootImageLoaded => execBootImageLoaded_keeps h
  | .pgoodRise _ => execPgoodRise_keeps h _
  | .pgoodLoss _ => execPgoodLoss_keeps h _
  | .hbmTrainingDone _ => execHbmTrainingDone_keeps h _
  | .serdesCalDone _ => execSerdesCalDone_keeps h _
  | .wakeStepTimeout _ => execWakeStepTimeout_keeps h _
  | .wakeRetryOffEnd _ => execWakeRetryOffEnd_keeps h _
  | .wakeGo _ => execWakeGo_keeps h _
  | .domainOn _ _ => execDomainOn_keeps h _ _
  | .domainOff _ _ => execDomainOff_keeps h _ _
  | .powerFailWarning => execPowerFailWarning_keeps h
  | .pmbusPoll _ => execPmbusPoll_keeps h _
  | .vsetWrite _ _ _ => execVsetWrite_keeps h _ _ _
  | .voutSettled _ _ => execVoutSettled_keeps h _ _
  | .powerLimiter _ => execPowerLimiter_keeps h _
  | .clockLimitWrite _ _ => execClockLimitWrite_keeps h _ _
  | .partCfgWrite _ _ => execPartCfgWrite_keeps h _ _
  | .scrubRead _ _ _ => execScrubRead_keeps h _ _ _
  | .rowRemapCopyDone _ _ _ _ => execRowRemapCopyDone_keeps h _ _ _ _
  | .bistGroupEnd _ _ _ => execBistGroupEnd_keeps h _ _ _
  | .bistRepairPhaseEnd _ => execBistRepairPhaseEnd_keeps h _
  | .thermalSample _ _ => execThermalSample_keeps h _ _
  | .thermalTrip _ => execThermalTrip_keeps h _
  | .thermalResume _ => execThermalResume_keeps h _
  | .thresholdWrite _ _ _ => execThresholdWrite_keeps h _ _ _
  | .evrFlush _ => execEvrFlush_keeps h _
  | .evrRecordWritten => execEvrRecordWritten_keeps h
  | .panelUpdateStart => execPanelUpdateStart_keeps h
  | .panelBusyRelease => execPanelBusyRelease_keeps h
  | .panelDelayExpiry => execPanelDelayExpiry_keeps h
  | .panelBusyTimeout => execPanelBusyTimeout_keeps h
  | .panelUpdateNow _ => execPanelUpdateNow_keeps h _
  | .panelClearFailed _ => execPanelClearFailed_keeps h _
  | .panelData _ _ _ => execPanelData_keeps h _ _ _
  | .panelCommit _ => execPanelCommit_keeps h _
  | .claSync _ => execClaSync_keeps h _
  | .claIdle _ _ => execClaIdle_keeps h _ _
  | .claFramePtr _ _ _ => execClaFramePtr_keeps h _ _ _
  | .claFrameData _ _ _ => execClaFrameData_keeps h _ _ _
  | .claScope _ _ _ => execClaScope_keeps h _ _ _
  | .claDeviceId _ _ _ => execClaDeviceId_keeps h _ _ _
  | .claCheck _ _ _ => execClaCheck_keeps h _ _ _
  | .claActionNone _ _ _ => execClaActionNone_keeps h _ _ _
  | .claClearCheck _ _ => execClaClearCheck_keeps h _ _
  | .claArm _ _ => execClaArm_keeps h _ _
  | .claCommit _ _ => execClaCommit_keeps h _ _
  | .claEnd _ _ => execClaEnd_keeps h _ _
  | .claStreamSourceEnd _ => execClaStreamSourceEnd_keeps h _
  | .claBusPassEnd _ => execClaBusPassEnd_keeps h _
  | .claExtGo _ _ => execClaExtGo_keeps h _ _
  | .claIcpRelease _ => execClaIcpRelease_keeps h _
  | .claRegionHold _ _ => execClaRegionHold_keeps h _ _
  | .claRegionUnhold _ _ => execClaRegionUnhold_keeps h _ _
  | .claRegionAssign _ _ _ => execClaRegionAssign_keeps h _ _ _
  | .cfgDoneHigh => execCfgDoneHigh_keeps h
  | .claDoneTimeout => execClaDoneTimeout_keeps h
  | .goLocal _ => execGoLocal_keeps h _
  | .releaseDone _ => execReleaseDone_keeps h _
  | .claFrameScan _ => execClaFrameScan_keeps h _
  | .claTargetAccess _ _ _ _ => execClaTargetAccess_keeps h _ _ _ _
  | .claTargetTimeout _ _ _ => execClaTargetTimeout_keeps h _ _ _
  | .mediaSessionOpen _ _ => execMediaSessionOpen_keeps h _ _
  | .mediaSessionClose _ _ => execMediaSessionClose_keeps h _ _
  | .mediaForceKey _ _ => execMediaForceKey_keeps h _ _
  | .mediaPartConfig _ _ _ => execMediaPartConfig_keeps h _ _ _
  | .mediaDecodeComplete _ _ => execMediaDecodeComplete_keeps h _ _
  | .mediaEncodeComplete _ _ => execMediaEncodeComplete_keeps h _ _
  | .traceChannelEnable _ _ _ _ => execTraceChannelEnable_keeps h _ _ _ _
  | .traceChannelDisable _ _ _ _ => execTraceChannelDisable_keeps h _ _ _ _
  | .traceChannelStopped _ _ => execTraceChannelStopped_keeps h _ _
  | .traceDrain _ _ => execTraceDrain_keeps h _ _
  | .traceDrainDone _ => execTraceDrainDone_keeps h _
  | .counterClear _ _ => execCounterClear_keeps h _ _
  | .counterSample => execCounterSample_keeps h
  | .debugChallenge _ => execDebugChallenge_keeps h _
  | .debugResponse _ => execDebugResponse_keeps h _
  | .debugLock _ => execDebugLock_keeps h _
  | .jtagTestLogicReset => execJtagTestLogicReset_keeps h
  | .debugHalt _ => execDebugHalt_keeps h _
  | .debugDeferredHalt _ => execDebugDeferredHalt_keeps h _
  | .haltLockBreak _ => execHaltLockBreak_keeps h _
  | .debugResume _ => execDebugResume_keeps h _
  | .debugRead _ => execDebugRead_keeps h _
  | .debugWrite _ _ => execDebugWrite_keeps h _ _
  | .debugForcedRead _ => execDebugForcedRead_keeps h _
  | .jtagIdcode => execJtagIdcode_keeps h
  | .jtagSamplePreload _ => execJtagSamplePreload_keeps h _
  | .jtagExtest => execJtagExtest_keeps h
  | .jtagExtestPulse => execJtagExtestPulse_keeps h
  | .jtagExtestTrain => execJtagExtestTrain_keeps h
  | .jtagClamp => execJtagClamp_keeps h
  | .jtagHighz => execJtagHighz_keeps h
  | .jtagBypass _ => execJtagBypass_keeps h _
  | .beatTick _ _ => execBeatTick_keeps h _ _
  | .aonPowerLoss => execAonPowerLoss_keeps h
  | .pcieLinkUp _ _ => execPcieLinkUp_keeps h _ _
  | .claNocInitiatorRequest _ _ => execClaNocInitiatorRequest_keeps h _ _
  | .claTapData _ _ _ => execClaTapData_keeps h _ _ _
  | .claRegionFrame _ _ _ => execClaRegionFrame_keeps h _ _ _

/-! ### A step -/

theorem step_front (c : Instr) (rest : List Instr) (s : State) :
    step { s with pending := c :: rest } = exec c { s with pending := rest } := rfl

theorem step_idle {s : State} (h : s.pending = []) : step s = .next s.advanceUnit := by
  unfold step
  rw [h]

theorem step_keeps {s : State} (h : s.canonical = true) : KeepsNext s.pending.tail (step s) := by
  cases hFront : s.pending with
  | nil =>
    rw [step_idle hFront]
    exact keepsNext_next (State.advanceUnit_keeps ((keeps_iff [] s).mpr ⟨hFront, h⟩))
  | cons c rest =>
    have hStep : step s = exec c { s with pending := rest } := by rw [← step_front c rest s, ← hFront]
    rw [hStep]
    exact exec_keeps ((keeps_iff rest { s with pending := rest }).mpr ⟨rfl, h⟩) c

/-! ### What every command answers -/

/-- A command answers a next state: those named choose between next states, and every other meaning is written as one. -/
theorem exec_answers (c : Instr) (s : State) : ∃ t, exec c s = .next t := by
  cases c with
  | slipCheck | doorbell | admCfgWrite | cplConsume | irqTimeout | jobRestartArm | mctpControlMsg | heartbeatMiss | rmgSnapshot |
    pgoodRise | vsetWrite | partCfgWrite | bistGroupEnd | thermalSample | panelUpdateStart | claScope | claExtGo | claIcpRelease |
    claRegionAssign | claFrameScan | mediaPartConfig | haltLockBreak | beatTick =>
    dsimp only [exec, execSlipCheck, execDoorbell, execAdmCfgWrite, execCplConsume, execIrqTimeout, execJobRestartArm, execMctpControlMsg,
      execHeartbeatMiss, execRmgSnapshot, execPgoodRise, execVsetWrite, execPartCfgWrite, execBistGroupEnd, execThermalSample,
      execPanelUpdateStart, execClaScope, execClaExtGo, execClaIcpRelease, execClaRegionAssign, execClaFrameScan,
      execMediaPartConfig, execHaltLockBreak, execBeatTick]
    (repeat' split) <;> exact ⟨_, rfl⟩
  | _ => exact ⟨_, rfl⟩

/-! ### Reset -/

theorem State.rd_reset (f : Fld) : State.reset.rd f = bitsOf (regDefault f.addr).toNat f.lo f.width := rfl

end Sys2Proof.Machine

namespace Sys2Proof

open Machine Machine.Reg

/-- Settles O55: the two cases of a step. -/
theorem stepRunsFront : Obligations.StepRunsFront := ⟨fun s c rest => step_front c rest s, fun _ h => step_idle h⟩

/-- Settles O59: a step is a command on the state with the queue's rest, or a phase unit of time, and both keep the forms. -/
theorem stepsKeepCanonical : Obligations.StepsKeepCanonical :=
  fun _ t h hStep => ((keeps_iff _ t).mp (step_keeps h t hStep)).2

/-- Settles O56: the next state of each command, and the queue that every command keeps. -/
theorem everyCommandCompletes : Obligations.EveryCommandCompletes := by
  intro c s
  obtain ⟨t, ht⟩ := exec_answers c s
  exact ⟨t, ht, fun h => (exec_keeps ((keeps_iff s.pending s).mpr ⟨rfl, h⟩) c t ht).pending⟩

/-- Settles O58: each field reads the register table's reset value of its register, and no map lists a key. -/
theorem resetState : Obligations.ResetState := by
  refine ⟨⟨?_, ?_, ?_, ?_, ?_, ?_, ?_, ?_, ?_, ?_, ?_, ?_, ?_, ?_, ?_, ?_, ?queues, ?memory, rfl, rfl, rfl⟩, ?canonical⟩
  case queues => simp only [State.rd_reset]; decide
  case memory => simp only [State.rd_reset]; decide
  case canonical => decide
  all_goals rw [State.rd_reset]; decide

end Sys2Proof
end

section
/-!
PROOF. Where bytes lie and what memory holds (07_memory_and_addressing.md): the place of an address determines the address, and a
store reaches the bytes it names alone; O57 and O33 are assembled from them.
-/
namespace Sys2Proof.Machine

/-! ### Physical keys -/

/-- A key of HBM names its pseudo-channel, granule and byte. -/
theorem hbmKey_inj {c g b c' g' b' : Nat} (hg : g < 147456) (hg' : g' < 147456) (hb : b < 4096) (hb' : b' < 4096)
    (h : hbmKey c g b = hbmKey c' g' b') : c = c' ∧ g = g' ∧ b = b' := by
  unfold hbmKey at h
  omega

theorem scratchKey_inj {u x u' x' : Nat} (hx : x < 524288) (hx' : x' < 524288) (h : scratchKey u x = scratchKey u' x') :
    u = u' ∧ x = x' := by
  unfold scratchKey at h
  omega

/-- The keys of the 512 pseudo-channels lie below those of the scratchpads. -/
theorem hbmKey_lt {c g b : Nat} (hc : c < 512) (hg : g < 147456) (hb : b < 4096) (u x : Nat) : hbmKey c g b < scratchKey u x := by
  unfold hbmKey scratchKey
  omega

/-! ### What a place says of its address: R145–R151, R455 -/

theorem State.hbmPlace_ne_scratch (s : State) (p : Nat) (whole : Bool) (x k : Nat) : s.hbmPlace p whole x ≠ .scratch k := by
  intro h
  simp only [State.hbmPlace] at h
  repeat' split at h
  all_goals simp at h

theorem State.scratchPlace_ne_hbm (s : State) (p x k c : Nat) : s.scratchPlace p x ≠ .hbm k c := by
  intro h
  simp only [State.scratchPlace] at h
  repeat' split at h
  all_goals simp at h

/-- The bytes of HBM are those of space 0x0. -/
theorem State.hbmPlace_of_place {s : State} {p a k c : Nat} {whole : Bool} (h : s.place p whole a = .hbm k c) :
    a / 2 ^ 60 = 0 ∧ s.hbmPlace p whole (a % 2 ^ 60) = .hbm k c := by
  simp only [State.place] at h
  split at h
  case h_1 hSpace => exact ⟨hSpace, h⟩
  case h_2 => exact absurd h (s.scratchPlace_ne_hbm _ _ _ _)
  case h_4 => split at h <;> simp at h
  all_goals simp at h

/-- The bytes of scratchpads are those of space 0x1. -/
theorem State.scratchPlace_of_place {s : State} {p a k : Nat} {whole : Bool} (h : s.place p whole a = .scratch k) :
    a / 2 ^ 60 = 1 ∧ s.scratchPlace p (a % 2 ^ 60) = .scratch k := by
  simp only [State.place] at h
  split at h
  case h_1 => exact absurd h (s.hbmPlace_ne_scratch _ _ _ _)
  case h_2 hSpace => exact ⟨hSpace, h⟩
  case h_4 => split at h <;> simp at h
  all_goals simp at h

/-- An HBM byte of the whole of a partition's list: its granule is one of the list's, dealt out over the list in turn. -/
theorem State.place_hbm {s : State} {p a k c : Nat} (h : s.place p true a = .hbm k c) :
    a / 2 ^ 60 = 0 ∧ ∃ hi : a / 4096 % (s.chanList p).length < (s.chanList p).length,
      c = (s.chanList p)[a / 4096 % (s.chanList p).length] ∧ a / 4096 / (s.chanList p).length < 147456 ∧
      k = hbmKey c (a / 4096 / (s.chanList p).length) (a % 4096) := by
  obtain ⟨hSpace, h⟩ := State.hbmPlace_of_place h
  have hMod : a % 2 ^ 60 = a := Nat.mod_eq_of_lt (by omega)
  rw [hMod] at h
  simp only [State.hbmPlace, if_true, State.granules] at h
  split at h
  · cases h
  next hIn =>
    have hLen : 0 < (s.chanList p).length := Nat.pos_of_ne_zero (fun h0 => hIn (by simp [h0]))
    have hi := Nat.mod_lt (a / 4096) hLen
    split at h
    · cases h
    · cases h
      rw [List.getD_eq_getElem _ _ hi]
      exact ⟨hSpace, hi, rfl, Nat.div_lt_of_lt_mul (by omega), rfl⟩

theorem State.backing_spec {s : State} {d lc u : Nat} (h : s.backing d lc = some u) : u / 168 = d ∧ (s.qtn.path.entry u).lc = lc := by
  have hMem := List.mem_of_find?_eq_some h
  have hTest := List.find?_some h
  simp only [List.mem_map, List.mem_range] at hMem
  simp only [Bool.and_eq_true, beq_iff_eq] at hTest
  obtain ⟨i, hi, rfl⟩ := hMem
  exact ⟨by omega, hTest.2⟩

/-- A scratchpad byte: the cluster that backs the address's logical cluster, on a die of the partition. -/
theorem State.place_scratch {s : State} {p a k : Nat} {whole : Bool} (h : s.place p whole a = .scratch k) :
    ∃ u, k = scratchKey u (a % 524288) ∧ p = s.partOfDie (u / 168) ∧
      a = 2 ^ 60 + (u / 168) * 2 ^ 28 + (s.qtn.path.entry u).lc * 2 ^ 20 + a % 524288 := by
  obtain ⟨hSpace, h⟩ := State.scratchPlace_of_place h
  simp only [State.scratchPlace] at h
  split at h
  · cases h
  next hIn =>
    push Not at hIn
    obtain ⟨hHigh, hGap, -, hDie⟩ := hIn
    split at h
    next u hu =>
      cases h
      obtain ⟨hd, hlc⟩ := State.backing_spec hu
      refine ⟨u, ?_, by rw [hd, hDie], ?_⟩
      · congr 1; omega
      · rw [hd, hlc]; unfold bitsOf at *; omega
    · cases h

/-! ### R147, R455: no two addresses of a byte -/

theorem State.place_hbm_inj {s : State} {p a b k ca cb : Nat} (hNodup : (s.chanList p).Nodup) (ha : s.place p true a = .hbm k ca)
    (hb : s.place p true b = .hbm k cb) : a = b := by
  obtain ⟨-, hia, hca, hga, hka⟩ := State.place_hbm ha
  obtain ⟨-, hib, hcb, hgb, hkb⟩ := State.place_hbm hb
  obtain ⟨hc, hg, hx⟩ := hbmKey_inj hga hgb (Nat.mod_lt _ (by decide)) (Nat.mod_lt _ (by decide)) (hka.symm.trans hkb)
  have hi : a / 4096 % (s.chanList p).length = b / 4096 % (s.chanList p).length :=
    (hNodup.getElem_inj_iff).mp (hca.symm.trans (hc.trans hcb))
  have hGranule : a / 4096 = b / 4096 := by
    rw [← Nat.div_add_mod (a / 4096) (s.chanList p).length, ← Nat.div_add_mod (b / 4096) (s.chanList p).length, hg, hi]
  omega

theorem State.place_hbm_apart {s : State} {p q a b k ca cb : Nat} (hApart : ∀ c, c ∈ s.chanList p → c ∉ s.chanList q)
    (ha : s.place p true a = .hbm k ca) : s.place q true b ≠ .hbm k cb := by
  intro hb
  obtain ⟨-, hia, hca, hga, hka⟩ := State.place_hbm ha
  obtain ⟨-, hib, hcb, hgb, hkb⟩ := State.place_hbm hb
  obtain ⟨hc, -, -⟩ := hbmKey_inj hga hgb (Nat.mod_lt _ (by decide)) (Nat.mod_lt _ (by decide)) (hka.symm.trans hkb)
  exact hApart ca (hca ▸ List.getElem_mem hia) (hc ▸ hcb ▸ List.getElem_mem hib)

theorem State.place_scratch_inj {s : State} {p q a b k : Nat} {w x : Bool} (ha : s.place p w a = .scratch k)
    (hb : s.place q x b = .scratch k) : p = q ∧ a = b := by
  obtain ⟨u, hka, hp, haddr⟩ := State.place_scratch ha
  obtain ⟨v, hkb, hq, hbddr⟩ := State.place_scratch hb
  obtain ⟨rfl, hx⟩ := scratchKey_inj (Nat.mod_lt _ (by decide)) (Nat.mod_lt _ (by decide)) (hka.symm.trans hkb)
  exact ⟨hp.trans hq.symm, by omega⟩

theorem State.place_hbm_ne_scratch {s : State} {p q a b k c : Nat} {w : Bool} (hChans : ∀ c, c ∈ s.chanList p → c < 512)
    (ha : s.place p true a = .hbm k c) : s.place q w b ≠ .scratch k := by
  intro hb
  obtain ⟨-, hi, hc, hg, hka⟩ := State.place_hbm ha
  obtain ⟨u, hkb, -⟩ := State.place_scratch hb
  have hLt := hbmKey_lt (hChans c (hc ▸ List.getElem_mem hi)) hg (Nat.mod_lt a (by decide : 0 < 4096)) u (b % 524288)
  rw [← hka, ← hkb] at hLt
  exact Nat.lt_irrefl k hLt

/-! ### What a store leaves as it was: R146, R150, R158 -/

/-- Where a byte lies depends on the partition mode, the memory's layout and the map in the data path alone. -/
theorem State.place_congr {s t : State} (hMode : t.mode = s.mode) (hChans : t.mem.chans = s.mem.chans)
    (hLimit : t.mem.limit = s.mem.limit) (hQtn : t.qtn = s.qtn) (p : Nat) (whole : Bool) (a : Nat) :
    t.place p whole a = s.place p whole a := by
  simp only [State.place, State.hbmPlace, State.scratchPlace, State.granules, State.limitOf, State.chanList, State.isHole,
    State.backing, State.partOfDie, hMode, hChans, hLimit, hQtn]
  rfl

theorem MemSt.byte_setByte (m : MemSt) (k : Nat) (b : Byte) (j : Nat) :
    (m.setByte k b).byte j = if j = k then b else m.byte j := SMap.get_set m.bytes m.base k b j

theorem MemSt.isPoison_setPoison_same (m : MemSt) (k : Nat) (b : Bool) : (m.setPoison (k / 64) b).isPoison k = b :=
  SMap.get_set_same m.poison (fun _ => false) (k / 64) b

theorem State.writeByte_some {s : State} {p a k : Nat} {whole : Bool} (h : (s.place p whole a).key? = some k) (b : Byte) :
    s.writeByte p whole a b = { s with mem := s.mem.setByte k b } := by
  simp [State.writeByte, h]

theorem State.noteHole_mem (s : State) (p : Nat) (whole : Bool) (a : Nat) :
    (s.noteHole p whole a).mem = s.mem ∧ (s.noteHole p whole a).mode = s.mode ∧ (s.noteHole p whole a).qtn = s.qtn := by
  unfold State.noteHole
  split <;> exact ⟨rfl, rfl, rfl⟩

theorem State.writeByte_place (s : State) (p : Nat) (whole : Bool) (a : Nat) (b : Byte) (q : Nat) (w : Bool) (c : Nat) :
    (s.writeByte p whole a b).place q w c = s.place q w c := by
  unfold State.writeByte
  split
  · exact State.place_congr rfl rfl rfl rfl q w c
  · obtain ⟨hMem, hMode, hQtn⟩ := s.noteHole_mem p whole a
    exact State.place_congr hMode (by rw [hMem]) (by rw [hMem]) hQtn q w c

theorem State.writeByte_other {s : State} {p a j : Nat} {whole : Bool} (h : (s.place p whole a).key? ≠ some j) (b : Byte) :
    (s.writeByte p whole a b).mem.byte j = s.mem.byte j := by
  unfold State.writeByte
  split
  next k hk =>
    have hNe : j ≠ k := fun hj => h (hj ▸ hk)
    exact (MemSt.byte_setByte ..).trans (if_neg hNe)
  next => rw [(s.noteHole_mem p whole a).1]

/-- A local store leaves every byte at which none of its addresses lies. -/
theorem State.writeLocal_other {p j : Nat} {whole : Bool} (bs : List Byte) {s : State} {a : Nat}
    (h : ∀ i, i < bs.length → (s.place p whole (a + i)).key? ≠ some j) :
    (s.writeLocal p whole a bs).mem.byte j = s.mem.byte j := by
  induction bs generalizing s a with
  | nil => rfl
  | cons b bs ih =>
    have hHead := h 0 (Nat.succ_pos _)
    have hTail : ∀ i, i < bs.length → ((s.writeByte p whole a b).place p whole (a + 1 + i)).key? ≠ some j := by
      intro i hi
      rw [State.writeByte_place, Nat.add_assoc, Nat.add_comm 1 i]
      exact h (i + 1) (Nat.succ_lt_succ hi)
    calc (s.writeLocal p whole a (b :: bs)).mem.byte j
        = (s.writeByte p whole a b).mem.byte j := ih hTail
      _ = s.mem.byte j := State.writeByte_other hHead b

theorem State.markLine_poisoned {s : State} {p lo k : Nat} {whole : Bool} (h : (s.place p whole lo).key? = some k) (a n : Nat) :
    (s.markLine p whole true a n lo).mem.isPoison k = true := by
  simp only [State.markLine, h, if_true]
  split <;> exact MemSt.isPoison_setPoison_same ..

/-- R158: an unpoisoned store that covers a whole line cleans it. -/
theorem State.markLine_cleaned {s : State} {p a n lo k : Nat} {whole : Bool} (h : (s.place p whole lo).key? = some k) (hLo : a ≤ lo)
    (hHi : lo + 64 ≤ a + n) : (s.markLine p whole false a n lo).mem.isPoison k = false := by
  simp only [State.markLine, h, if_pos (And.intro hLo hHi)]
  exact MemSt.isPoison_setPoison_same ..

end Sys2Proof.Machine

namespace Sys2Proof

open Machine

/-- Settles O57: a place determines its address, and the places of two partitions, or of the two kinds, have different keys. -/
theorem placesApart : Obligations.PlacesApart :=
  ⟨fun _ _ _ _ _ _ _ hNodup ha hb => State.place_hbm_inj hNodup ha hb,
    fun _ _ _ _ _ _ _ _ hApart ha => State.place_hbm_apart hApart ha,
    fun _ _ _ _ _ _ _ _ ha hb => State.place_scratch_inj ha hb,
    fun _ _ _ _ _ _ _ _ hChans ha => State.place_hbm_ne_scratch hChans ha⟩

/-- Settles O33: a stored byte reads back, a store leaves the bytes it does not name, and the marks of a line follow its store. -/
theorem memoryHolds : Obligations.MemoryHolds := by
  refine ⟨fun s p whole a k b h => ?byte, fun s p whole a bs j _ h => State.writeLocal_other bs h,
    fun s p whole a n lo k h => ⟨State.markLine_poisoned h a n, State.markLine_cleaned h⟩⟩
  case byte =>
    rw [State.writeByte_some h]
    exact ⟨(MemSt.byte_setByte ..).trans (if_pos rfl), fun j hj => (MemSt.byte_setByte ..).trans (if_neg hj), fun _ => rfl⟩

end Sys2Proof
end

section
/-!
PROOF. Writes of sync objects (05_engines_queues_and_command_lists.md, R108 and R109); O8 is assembled from them.
-/
namespace Sys2Proof.Machine

theorem exec_syncHiWrite (path : Path) (p : Part) (n : Fin 4096) (v : Word32) (s : State) :
    exec (.syncHiWrite path p n v) s = execSyncHiWrite path p n v s := rfl

theorem exec_syncLoWrite (path : Path) (p : Part) (n : Fin 4096) (v : Word32) (s : State) :
    exec (.syncLoWrite path p n v) s = execSyncLoWrite path p n v s := rfl

/-! ### What a command ends with where no list is admitted -/

theorem State.wrapUp_nil {t : State} (hLists : t.lists = []) (hCalm : t.calm = true) : t.wrapUp = t :=
  State.wrapUp_calm (t.settle_nil hLists) hCalm

/-! ### The halves of a sync write -/

theorem State.stagedHi_staged {s t : State} {path : Path} {k hi : Nat}
    (h : t.staged = s.staged.set (fun _ => none) (pathKey path) (some (k, hi))) : t.stagedHi path k = hi := by
  simp [State.stagedHi, h]

theorem State.stagedHi_cleared {s t : State} {path : Path} (h : t.staged = s.staged.set (fun _ => none) (pathKey path) none) (k : Nat) :
    t.stagedHi path k = 0 := by
  simp [State.stagedHi, h]

theorem State.releasable_nil {s : State} (h : s.lists = []) (p n : Nat) : s.releasable p n = [] := by
  simp [State.releasable, h]

/-- Without lists a sync object that changes releases nothing. -/
theorem State.changeSync_nil {s : State} (h : s.lists = []) (p n v : Nat) : s.changeSync p n v = s.setSync p n v := by
  have hNone : (s.setSync p n v).releasable p n = [] := State.releasable_nil (by exact h) p n
  simp only [State.changeSync, hNone, List.foldl_nil]

theorem combine_raise (v w : Nat) : combine v [] [w] = Nat.max (satAdd (2 ^ 64 - 1) v 0) w := by
  simp [combine]

theorem execSyncHiWrite_may {s : State} {path : Path} {p : Part} (h : s.ownsPart path p = true) (n : Fin 4096) (v : Word32) :
    execSyncHiWrite path p n v s =
      .next { s with staged := s.staged.set (fun _ => none) (pathKey path) (some (p.val * 4096 + n.val, v.toNat)) } := by
  simp [execSyncHiWrite, h]

theorem execSyncLoWrite_nil {s : State} {path : Path} {p : Part} (h : s.ownsPart path p = true) (hLists : s.lists = [])
    (hCalm : s.calm = true) (n : Fin 4096) (v : Word32) :
    execSyncLoWrite path p n v s =
      .next ({ s with staged := s.staged.set (fun _ => none) (pathKey path) none }.setSync p n
        (Nat.max (satAdd (2 ^ 64 - 1) (s.syncVal p n) 0) (s.stagedHi path (p.val * 4096 + n.val) * 2 ^ 32 + v.toNat))) := by
  simp only [execSyncLoWrite, h, if_true]
  rw [State.signalMax, State.changeSync_nil (by exact hLists), combine_raise,
    State.wrapUp_nil (by exact hLists) (by exact (State.calm_congr rfl rfl rfl).trans hCalm)]
  rfl

end Sys2Proof.Machine

namespace Sys2Proof

open Machine

/-- Settles O8: the upper half is staged for its path, the lower one raises the object and clears the staging. -/
theorem syncWrites : Obligations.SyncWrites := by
  refine ⟨fun s path p n v h => ?upper, fun s path p n v h hLists hCalm => ?lower⟩
  case upper =>
    rw [exec_syncHiWrite, execSyncHiWrite_may h]
    exact ⟨_, rfl, State.stagedHi_staged rfl, rfl⟩
  case lower =>
    rw [exec_syncLoWrite, execSyncLoWrite_nil h hLists hCalm]
    refine ⟨_, rfl, ?_, fun q m hNe => ?_, State.stagedHi_cleared rfl _, rfl⟩
    · rw [State.syncVal_setSync _ _ _ _ _ _ n.isLt n.isLt, if_pos ⟨rfl, rfl⟩]
    · rw [State.syncVal_setSync _ _ _ _ _ _ n.isLt m.isLt, if_neg (fun ⟨hq, hm⟩ => hNe (Prod.ext (Fin.ext hq) (Fin.ext hm)))]
      rfl

end Sys2Proof
end

section
/-!
PROOF. Setting up queues and consuming completion records (05_engines_queues_and_command_lists.md): QUE_CTL, the ring registers, the
consumer index and the interrupt timeout, one lemma per case; O6 and O7 are assembled from them.
-/
namespace Sys2Proof.Machine

open Reg

theorem exec_queueEnable (path : Path) (q : Queue) (v : Word32) (s : State) :
    exec (.queueEnable path q v) s = execQueueEnable path q v s := rfl

theorem exec_queueDisable (path : Path) (q : Queue) (v : Word32) (s : State) :
    exec (.queueDisable path q v) s = execQueueDisable path q v s := rfl

theorem exec_ringConfigWrite (path : Path) (q : Queue) (r : RingReg) (v : Word32) (s : State) :
    exec (.ringConfigWrite path q r v) s = execRingConfigWrite path q r v s := rfl

theorem exec_cplRingConfigWrite (path : Path) (q : Queue) (r : RingReg) (v : Word32) (s : State) :
    exec (.cplRingConfigWrite path q r v) s = execCplRingConfigWrite path q r v s := rfl

theorem exec_cplConsume (path : Path) (q : Queue) (v : Word32) (s : State) :
    exec (.cplConsume path q v) s = execCplConsume path q v s := rfl

theorem exec_irqTimeout (q : Queue) (s : State) : exec (.irqTimeout q) s = execIrqTimeout q s := rfl

/-! ### Register addresses: a queue's QUE_CTL and the job table -/

theorem State.partOfQueue_lt (s : State) (q : Queue) : s.partOfQueue q < 4 := by
  have hq := q.isLt
  unfold State.partOfQueue State.partOfDie Machine.partOfDie
  split
  · omega
  · split <;> omega

theorem jobId_ne_queCtl {p e : Nat} (hp : p < 4) (he : e < 16) (q : Nat) : jobId p e ≠ queCtl q := by
  unfold jobId queCtl
  omega

theorem State.freeEntry_lt {s : State} {p e : Nat} (h : s.freeEntry p = some e) : e < 16 :=
  List.mem_range.mp (List.mem_of_find?_eq_some h)

/-- The job table of a partition reads as before where the state's registers changed outside it. -/
theorem State.jobTable_congr {s t : State} {p : Nat} (h : ∀ e, e < 16 → t.reg (jobId p e) = s.reg (jobId p e)) (job : Nat) :
    t.jobEntry p job = s.jobEntry p job ∧ t.freeEntry p = s.freeEntry p := by
  have hRd : ∀ e, e < 16 → t.on (jobIdValid p e) = s.on (jobIdValid p e) ∧ t.rd (jobIdJob p e) = s.rd (jobIdJob p e) := by
    intro e he
    simp only [State.on, State.rd, jobIdValid, jobIdJob, h e he, and_self]
  constructor
  · refine List.find?_congr fun e he => ?_
    obtain ⟨hValid, hJob⟩ := hRd e (List.mem_range.mp he)
    rw [hValid, hJob]
  · refine List.find?_congr fun e he => ?_
    rw [(hRd e (List.mem_range.mp he)).1]

/-! ### QUE_CTL: R95, R96, R246 -/

/-- The state after a write that sets EN, before the job has an entry. -/
def State.enabled (s : State) (q devEnq : Nat) : State := (s.wr (queCtlDevEnq q) devEnq).wr (queCtlEn q) 1

theorem State.enabled_jobTable (s : State) (q : Queue) (d job : Nat) :
    (s.enabled q d).jobEntry (s.partOfQueue q) job = s.jobEntry (s.partOfQueue q) job ∧
      (s.enabled q d).freeEntry (s.partOfQueue q) = s.freeEntry (s.partOfQueue q) := by
  refine State.jobTable_congr (fun e he => ?_) job
  have hNe := jobId_ne_queCtl (s.partOfQueue_lt q) he q
  exact (State.reg_wr_ne _ _ _ hNe).trans (State.reg_wr_ne _ _ _ hNe)

theorem State.enabled_reads (s : State) (q d : Nat) (hd : d < 2) :
    (s.enabled q d).rd (queCtlEn q) = 1 ∧ (s.enabled q d).rd (queCtlDevEnq q) = d := by
  constructor
  · exact State.rd_wr_same _ (queCtlEn q) 1 (by simp [queCtlEn])
  · unfold State.enabled
    rw [State.rd_wr_disjoint _ _ _ _ (by simp [queCtlEn]) (Or.inr (by simp [queCtlEn, queCtlDevEnq])),
      State.rd_wr_same _ _ _ (by simp [queCtlDevEnq])]
    exact Nat.mod_eq_of_lt hd

theorem State.enabled_only (s : State) (q d : Nat) (fs : List Fld) :
    s.onlyFields (queCtlEn q :: queCtlDevEnq q :: fs) (s.enabled q d) :=
  State.onlyFields_wr (State.onlyFields_wr (State.onlyFields_refl _ s) _ _ (by simp) (by simp [queCtlDevEnq])) _ _ (by simp)
    (by simp [queCtlEn])

theorem execQueueEnable_lawful {s : State} {path : Path} {q : Queue} {v : Word32} (hOwn : s.ownsQueue path q = true)
    (hEn : s.rd (queCtlEn q) = 0) (hv : bitsOf v.toNat 0 1 = 1) (hLawful : s.enableRefused q = false) :
    execQueueEnable path q v s =
      .next ((s.enabled q (bitsOf v.toNat 1 1)).allocateJob (s.partOfQueue q) (s.rd (queBindJob q))) := by
  simp [execQueueEnable, hOwn, State.writeQueCtl, State.on, hEn, hv, hLawful, State.enabled]

theorem execQueueEnable_refused {s : State} {path : Path} {q : Queue} {v : Word32} (hOwn : s.ownsQueue path q = true)
    (hEn : s.rd (queCtlEn q) = 0) (hv : bitsOf v.toNat 0 1 = 1) (hRefused : s.enableRefused q = true) :
    execQueueEnable path q v s = .next (s.event (queStatusCfgErr q)) := by
  simp [execQueueEnable, hOwn, State.writeQueCtl, State.on, hEn, hv, hRefused]

theorem execQueueDisable_enabled {s : State} {path : Path} {q : Queue} {v : Word32} (hOwn : s.ownsQueue path q = true)
    (hEn : s.rd (queCtlEn q) = 1) (hv : bitsOf v.toNat 0 1 = 0) :
    execQueueDisable path q v s = .next ((s.wr (queCtlEn q) 0).wr (queStatusCplStall q) 0) := by
  simp [execQueueDisable, hOwn, State.writeQueCtl, State.on, hEn, hv]

theorem State.allocateJob_has {s : State} {p job : Nat} (h : (s.jobEntry p job).isSome = true) : s.allocateJob p job = s := by
  obtain ⟨e, he⟩ := Option.isSome_iff_exists.mp h
  simp [State.allocateJob, he]

theorem State.allocateJob_free {s : State} {p job e : Nat} (h : s.jobEntry p job = none) (he : s.freeEntry p = some e) :
    s.allocateJob p job = (s.wr (jobIdJob p e) job).wr (jobIdValid p e) 1 := by
  simp [State.allocateJob, h, he]

/-! ### Ring registers: R96, R105 -/

theorem execRingConfigWrite_locked {s : State} {q : Queue} (h : s.rd (queCtlEn q) = 1) (path : Path) (r : RingReg) (v : Word32) :
    execRingConfigWrite path q r v s = .next s := by
  simp [execRingConfigWrite, State.on, h]

theorem execCplRingConfigWrite_locked {s : State} {q : Queue} (h : s.rd (queCtlEn q) = 1) (path : Path) (r : RingReg) (v : Word32) :
    execCplRingConfigWrite path q r v s = .next s := by
  simp [execCplRingConfigWrite, State.on, h]

theorem State.withLists_nil {s : State} (h : s.lists = []) : { s with lists := [] } = s := by
  rw [← h]

theorem State.abandonRing_nil {s : State} (h : s.lists = []) (q : Nat) :
    s.abandonRing q = (((s.setQueue q { s.queue q with cand := 0, ended := [], held := false, discardTo := none }).wr
      (queHeadHead q) 0).wr (queTailTail q) 0).wr (queStatusCplStall q) 0 := by
  simp only [State.abandonRing, h, List.filter_nil, List.length_nil, Nat.sub_zero, State.setQueue_lists]
  rw [State.withLists_nil (by exact h)]

theorem State.queue_wr (s : State) (f : Fld) (v q : Nat) : (s.wr f v).queue q = s.queue q := rfl

theorem execRingConfigWrite_nil {s s1 : State} {path : Path} {q : Queue} {r : RingReg} {v : Word32}
    (hOwn : s.ownsQueue path q = true) (hEn : s.rd (queCtlEn q) = 0) (hLists : s.lists = [])
    (hs1 : s1 = (match r with
      | .baseLo => s.wr (queRingBaseLoBase q) (v.toNat / 64)
      | .baseHi => s.wr (queRingBaseHiBase q) v.toNat
      | .size => s.wr (queRingSizeLog2 q) v.toNat)) :
    execRingConfigWrite path q r v s = .next (s1.abandonRing q) ∧ s1.lists = [] ∧ s1.queue q = s.queue q := by
  subst hs1
  have hOpen : (!s.ownsQueue path q || s.on (queCtlEn q)) = false := by simp [hOwn, State.on, hEn]
  have hIdle : s.runningOf q = 0 := by simp [State.runningOf, hLists]
  refine ⟨?_, ?_, ?_⟩
  · cases r <;> simp only [execRingConfigWrite, hOpen, hIdle, ne_eq, not_true_eq_false, Bool.false_eq_true, if_false]
  · cases r <;> exact (State.wr_lists ..).trans hLists
  · cases r <;> exact State.queue_wr ..

theorem execCplRingConfigWrite_open {s s1 : State} {path : Path} {q : Queue} {r : RingReg} {v : Word32}
    (hOwn : s.ownsQueue path q = true) (hEn : s.rd (queCtlEn q) = 0)
    (hs1 : s1 = (match r with
      | .baseLo => s.wr (queCplBaseLoBase q) (v.toNat / 64)
      | .baseHi => s.wr (queCplBaseHiBase q) v.toNat
      | .size => s.wr (queCplSizeLog2 q) v.toNat)) :
    execCplRingConfigWrite path q r v s = .next (s1.restartCpl q) ∧ s1.queue q = s.queue q := by
  subst hs1
  have hOpen : (!s.ownsQueue path q || s.on (queCtlEn q)) = false := by simp [hOwn, State.on, hEn]
  refine ⟨?_, ?_⟩
  · cases r <;> simp only [execCplRingConfigWrite, hOpen, Bool.false_eq_true, if_false]
  · cases r <;> exact State.queue_wr ..

/-! ### The consumer index: R106 -/

theorem execCplConsume_moves {s : State} {path : Path} {q : Queue} {v : Word32} (hOwn : s.ownsQueue path q = true) {c size d : Nat}
    (hc : c = bitsOf v.toNat 0 17) (hSize : size = s.cplSize q) (hd : d = (c + size - s.rd (queCplConsIndex q) % size) % size)
    (hIn : c < size) (hUsed : d ≤ (s.queue q).used) (hMoves : d ≠ 0) :
    execCplConsume path q v s =
      .next (((s.setQueue q { s.queue q with used := (s.queue q).used - d }).wr (queCplConsIndex q) c).wr (queStatusCplStall q) 0) := by
  subst hc hSize
  simp only [execCplConsume, hOwn, ← hd, if_pos (And.intro hIn hUsed), if_neg hMoves, Bool.not_true, Bool.false_eq_true, if_false]

theorem execCplConsume_bad {s : State} {path : Path} {q : Queue} {v : Word32} (hOwn : s.ownsQueue path q = true) {c size d : Nat}
    (hc : c = bitsOf v.toNat 0 17) (hSize : size = s.cplSize q) (hd : d = (c + size - s.rd (queCplConsIndex q) % size) % size)
    (hBad : size ≤ c ∨ (s.queue q).used < d) : execCplConsume path q v s = .next (s.event (queStatusConsBad q)) := by
  subst hc hSize
  have hNot : ¬(bitsOf v.toNat 0 17 < s.cplSize q ∧ d ≤ (s.queue q).used) := by omega
  simp only [execCplConsume, hOwn, ← hd, if_neg hNot, Bool.not_true, Bool.false_eq_true, if_false]

/-! ### The interrupt timeout: R107 -/

theorem execIrqTimeout_early {s : State} {q : Queue} {t : Nat} (hSince : (s.queue q).irqSince = some t)
    (h : s.tick < t + s.rd (queIrqTimeoutBeats q)) : execIrqTimeout q s = .next s := by
  simp [execIrqTimeout, hSince, Nat.not_le.mpr h]

theorem execIrqTimeout_due {s : State} {q : Queue} {t : Nat} (hSince : (s.queue q).irqSince = some t)
    (hEn : s.rd (queIrqCfgEn q) = 1) (hSet : s.rd (queIrqTimeoutBeats q) ≠ 0) (h : t + s.rd (queIrqTimeoutBeats q) ≤ s.tick) :
    execIrqTimeout q s = .next (s.queueIrq q) := by
  simp [execIrqTimeout, hSince, State.on, hEn, hSet, h]

/-- The link being up, and the function a bus master with the vector unmasked, the message goes out. -/
theorem State.queueIrq_sent {s : State} {q : Queue} (hLink : s.linkUp = true)
    (hMaster : s.link.busMaster.testBit (s.partOfQueue q) = true)
    (hMask : s.msixMasked (s.partOfQueue q) (s.rd (queIrqCfgVector q)) = false) :
    s.queueIrq q = (s.setQueue q { s.queue q with irqCount := 0, irqSince := none }).emit
      (.msix (s.partOfQueue q) (s.rd (queIrqCfgVector q))) := by
  have hUp : (s.setQueue q { s.queue q with irqCount := 0, irqSince := none }).linkUp = true := hLink
  have hOpen : (s.setQueue q { s.queue q with irqCount := 0, irqSince := none }).msixMasked (s.partOfQueue q)
      (s.rd (queIrqCfgVector q)) = false := hMask
  simp only [State.queueIrq, State.msix', hUp, hOpen, State.setQueue_link, hMaster, Bool.not_true, Bool.false_eq_true, if_false,
    if_true]

end Sys2Proof.Machine

namespace Sys2Proof

open Machine Machine.Reg

/-- Settles O6: the cases of a write to QUE_CTL and to the ring registers; the fields read by the laws of register fields. -/
theorem queueSetup : Obligations.QueueSetup := by
  refine ⟨fun s path q v hOwn => ⟨fun hEn hv hLawful => ⟨fun hHas => ?has, fun e hNone hFree => ?allocates⟩,
      fun hEn hv hRefused => execQueueEnable_refused hOwn hEn hv hRefused, fun hEn hv => execQueueDisable_enabled hOwn hEn hv⟩,
    fun s path q r v hEn => ⟨execRingConfigWrite_locked hEn path r v, execCplRingConfigWrite_locked hEn path r v⟩,
    fun s s1 path q r v hOwn hEn hLists hs1 => ?ring, fun s s1 path q r v hOwn hEn hs1 => ?completionRing⟩
  case has =>
    obtain ⟨hJob, -⟩ := s.enabled_jobTable q (bitsOf v.toNat 1 1) (s.rd (queBindJob q))
    obtain ⟨hReadEn, hReadDev⟩ := s.enabled_reads q _ (bitsOf_lt v.toNat 1 1)
    refine ⟨s.enabled q (bitsOf v.toNat 1 1), ?_, hReadEn, hReadDev, s.enabled_only q _ []⟩
    rw [exec_queueEnable, execQueueEnable_lawful hOwn hEn hv hLawful, State.allocateJob_has (by rw [hJob]; exact hHas)]
  case allocates =>
    obtain ⟨hJob, hEntry⟩ := s.enabled_jobTable q (bitsOf v.toNat 1 1) (s.rd (queBindJob q))
    obtain ⟨hReadEn, hReadDev⟩ := s.enabled_reads q _ (bitsOf_lt v.toNat 1 1)
    have hNe : queCtl q ≠ jobId (s.partOfQueue q) e := (jobId_ne_queCtl (s.partOfQueue_lt q) (State.freeEntry_lt hFree) q).symm
    refine ⟨_, by rw [exec_queueEnable, execQueueEnable_lawful hOwn hEn hv hLawful,
      State.allocateJob_free (hJob.trans hNone) (hEntry.trans hFree)], ?_, ?_, ?_, ?_, ?_⟩
    · rw [State.rd_wr_ne _ _ _ _ hNe, State.rd_wr_ne _ _ _ _ hNe, hReadEn]
    · rw [State.rd_wr_ne _ _ _ _ hNe, State.rd_wr_ne _ _ _ _ hNe, hReadDev]
    · rw [State.rd_wr_disjoint _ _ _ _ (by simp [jobIdValid]) (Or.inl (by simp [jobIdJob, jobIdValid])),
        State.rd_wr_same _ _ _ (by simp [jobIdJob])]
      exact Nat.mod_eq_of_lt (s.rd_lt (queBindJob q))
    · exact State.rd_wr_same _ (jobIdValid (s.partOfQueue q) e) 1 (by simp [jobIdValid])
    · exact State.onlyFields_wr (State.onlyFields_wr (s.enabled_only q _ _) _ _ (by simp) (by simp [jobIdJob])) _ _
        (by simp) (by simp [jobIdValid])
  case ring =>
    obtain ⟨hExec, hNil, hQueue⟩ := execRingConfigWrite_nil (v := v) hOwn hEn hLists hs1
    rw [exec_ringConfigWrite, hExec, State.abandonRing_nil hNil, hQueue]
  case completionRing =>
    obtain ⟨hExec, hQueue⟩ := execCplRingConfigWrite_open (v := v) hOwn hEn hs1
    rw [exec_cplRingConfigWrite, hExec, State.restartCpl, hQueue]

/-- Settles O7: the cases of the consumer index and of the interrupt timeout. -/
theorem completions : Obligations.Completions := by
  refine ⟨fun s path q v hOwn => ⟨fun hIn hUsed hMoves => execCplConsume_moves hOwn rfl rfl rfl hIn hUsed hMoves,
      fun hBad => execCplConsume_bad hOwn rfl rfl rfl hBad⟩,
    fun s q t hSince hEn hSet => ⟨fun hDue hLink hMaster hMask => ?due, fun hEarly => execIrqTimeout_early hSince hEarly⟩⟩
  case due => rw [exec_irqTimeout, execIrqTimeout_due hSince hEn hSet hDue, State.queueIrq_sent hLink hMaster hMask]

end Sys2Proof
end

section
/-!
PROOF. What of the state register writes, messages, trace records and counter events leave alone: everything but the registers, the
pending interrupt vectors, the links' own state, the trace buffers, the outputs and the free values drawn.
-/
namespace Sys2Proof.Machine

open Reg

/-- The state with what registers, messages and traces change blanked out. -/
def State.still (s : State) : State :=
  { s with regs := [], msix := [], link := LinkSt.reset, dbg := DbgSt.reset, out := [], free := 0 }

theorem State.lists_of_still {s t : State} (h : t.still = s.still) : t.lists = s.lists :=
  show t.still.lists = s.still.lists from congrArg State.lists h

theorem State.pwr_of_still {s t : State} (h : t.still = s.still) : t.pwr = s.pwr :=
  show t.still.pwr = s.still.pwr from congrArg State.pwr h

theorem State.mem_of_still {s t : State} (h : t.still = s.still) : t.mem = s.mem :=
  show t.still.mem = s.still.mem from congrArg State.mem h

theorem State.mram_of_still {s t : State} (h : t.still = s.still) : t.mram = s.mram :=
  show t.still.mram = s.still.mram from congrArg State.mram h

theorem State.evr_of_still {s t : State} (h : t.still = s.still) : t.evr = s.evr :=
  show t.still.evr = s.still.evr from congrArg State.evr h

theorem State.wr_still (s : State) (f : Fld) (v : Nat) : (s.wr f v).still = s.still := rfl

theorem State.wrBit_still (s : State) (f : Fld) (i : Nat) (b : Bool) : (s.wrBit f i b).still = s.still := rfl

theorem State.event_still (s : State) (f : Fld) : (s.event f).still = s.still := rfl

theorem State.count_still (s : State) (f : Fld) (n : Nat) : (s.count f n).still = s.still := rfl

theorem State.setReg_still (s : State) (a : Nat) (v : Word32) : (s.setReg a v).still = s.still := rfl

theorem State.emit_still (s : State) (o : Out) : (s.emit o).still = s.still := rfl

theorem State.setTraceCh_still (s : State) (p c : Nat) (x : TraceSt) : (s.setTraceCh p c x).still = s.still := rfl

/-! ### Reads of a field through writes of others -/

/-- A write of a field leaves every field that shares no bit with it. -/
theorem State.rd_wr_apart (s : State) {f g : Fld} (v : Nat) (h : f.apart g = true) (hw : f.lo + f.width ≤ 32) :
    (s.wr f v).rd g = s.rd g :=
  State.fieldsKept_wr (State.fieldsKept_refl [f] s) f v (List.mem_singleton.mpr rfl) hw g
    (List.all_eq_true.mpr (fun _ hx => List.mem_singleton.mp hx ▸ h))

theorem State.rd_event_apart (s : State) {f g : Fld} (h : f.apart g = true) (hw : f.lo + f.width ≤ 32) :
    (s.event f).rd g = s.rd g := s.rd_wr_apart 1 h hw

theorem State.rd_event_same (s : State) {f : Fld} (hw : f.lo + f.width ≤ 32) (h1 : 1 < 2 ^ f.width) : (s.event f).rd f = 1 :=
  (State.rd_wr_same s f 1 hw).trans (Nat.mod_eq_of_lt h1)

/-- A value that fits reads back. -/
theorem State.rd_wr_fits (s : State) {f : Fld} {v : Nat} (hw : f.lo + f.width ≤ 32) (hv : v < 2 ^ f.width) : (s.wr f v).rd f = v :=
  (State.rd_wr_same s f v hw).trans (Nat.mod_eq_of_lt hv)

/-- A bit of a field after a write of one of its bits. -/
theorem State.bit_wrBit (s : State) {f : Fld} (i : Nat) {j : Nat} (b : Bool) (hw : f.lo + f.width ≤ 32) (hj : j < f.width) :
    (s.wrBit f i b).bit f j = if j = i then b else s.bit f j := by
  have hBit : (s.wrBit f i b).bit f j = (setBits (s.rd f) i 1 b.toNat).testBit j := by
    rw [State.bit, State.wrBit, State.rd_wr_same _ _ _ hw, Nat.testBit_mod_two_pow, decide_eq_true hj, Bool.true_and]
  rw [hBit, testBit_setBits]
  by_cases h : j = i
  · rw [if_pos (by omega), if_pos h, h, Nat.sub_self, Nat.testBit_zero]
    cases b <;> rfl
  · rw [if_neg (by omega), if_neg h]
    rfl

/-- Bits of a field after writes of those in `l`. -/
theorem State.bit_foldl_wrBit (l : List Nat) (s : State) {f : Fld} (b : Nat → Bool) {j : Nat} (hw : f.lo + f.width ≤ 32)
    (hj : j < f.width) : (l.foldl (fun t i => t.wrBit f i (b i)) s).bit f j = if j ∈ l then b j else s.bit f j := by
  induction l generalizing s with
  | nil => simp
  | cons i l ih =>
    rw [List.foldl_cons, ih, State.bit_wrBit _ _ _ hw hj]
    by_cases h : j = i
    · simp [h]
    · simp [h]

/-- A write of 0 leaves a field that reads 0 reading 0, whatever bits they share. -/
theorem State.rd_wr_zero {s : State} (f : Fld) {g : Fld} (hw : f.lo + f.width ≤ 32) (h : s.rd g = 0) : (s.wr f 0).rd g = 0 := by
  by_cases ha : g.addr = f.addr
  · unfold State.rd State.wr
    rw [ha, State.reg_setReg_same, BitVec.toNat_ofNat, Nat.mod_eq_of_lt (setBits_lt (s.reg f.addr).isLt hw)]
    unfold State.rd at h
    rw [ha] at h
    refine Nat.eq_of_testBit_eq fun i => ?_
    have hOld : (bitsOf (s.reg f.addr).toNat g.lo g.width).testBit i = false := by rw [h, Nat.zero_testBit]
    rw [testBit_bitsOf] at hOld
    rw [testBit_bitsOf, testBit_setBits, Nat.zero_testBit, Nat.zero_testBit]
    split
    · exact Bool.and_false _
    · exact hOld
  · rw [State.rd_wr_ne s f g 0 ha, h]

/-! ### Trace records and counter events -/

theorem State.tracePushAt_still (s : State) (stamp : Nat × Nat) (p c type unit arg0 tag arg1 : Nat) :
    (s.tracePushAt stamp p c type unit arg0 tag arg1).still = s.still := by
  simp only [State.tracePushAt]
  rw [apply_ite State.still, apply_ite State.still, State.count_still, State.count_still, State.setTraceCh_still,
    State.setTraceCh_still, ite_self, ite_self]

theorem State.traceStamp_still (s : State) (p c : Nat) : (s.traceStamp p c).2.still = s.still := by
  unfold State.traceStamp
  split <;> rfl

theorem State.trace_still (s : State) (type unit arg0 : Nat) (tag : Option Word64) (arg1 : Nat) (ps : List Nat) :
    (s.trace type unit arg0 tag arg1 ps).still = s.still := by
  unfold State.trace
  refine foldl_keeps (g := State.still) (fun t p => foldl_keeps (g := State.still) (fun u c => ?_) _ t) _ s
  split
  · rw [State.tracePush, State.tracePushAt_still, State.traceStamp_still]
  · rfl

/-- The counter's wrap bit is a variable here, so that no proof below evaluates its comparison with 2 ^ 48. -/
theorem State.bump48_still (s : State) (lo hi : Fld) (n : Nat) :
    ∃ t w, s.bump48 lo hi n = (t, w) ∧ t.still = s.still := ⟨_, _, rfl, rfl⟩

theorem State.countEs_still (s : State) (d ev : Nat) (tag : Option Word64) (n : Nat) : (s.countEs d ev tag n).still = s.still := by
  unfold State.countEs
  split
  · rfl
  · refine foldl_keeps (g := State.still) (fun t j => ?_) _ s
    obtain ⟨u, w, hBump, hStill⟩ := t.bump48_still (cntEsLoCount d j) (cntEsHiCount d j) n
    rw [hBump]
    split
    · cases w with
      | false => exact hStill
      | true =>
        simp only [if_true]
        split <;> rw [State.wrBit_still, hStill]
    · rfl

/-! ### Messages -/

theorem State.makeRoom_still (s : State) : s.makeRoom.still = s.still := by
  unfold State.makeRoom
  split
  · rfl
  · exact State.count_still ..

theorem State.sendHeld_still (s : State) (kind : Nat) (payload : List Byte) : (s.sendHeld kind payload).still = s.still :=
  (State.wr_still ..).trans ((State.emit_still ..).trans s.makeRoom_still)

theorem State.report_still (s : State) (code : Nat) : (s.report code).still = s.still := State.sendHeld_still ..

theorem State.postedDrop_still (s : State) (f : Nat) : (s.postedDrop f).still = s.still := by
  rw [State.postedDrop, State.report_still, State.event_still, State.count_still]

theorem State.setPending_still (s : State) (f v : Nat) (b : Bool) : (s.setPending f v b).still = s.still := rfl

theorem State.msix'_still (s : State) (f vector : Nat) : (s.msix' f vector).still = s.still := by
  unfold State.msix'
  split
  · exact State.event_still ..
  · split
    · exact State.setPending_still ..
    · split
      · exact State.emit_still ..
      · exact State.postedDrop_still ..

theorem State.hostVector_still (s : State) (f : Nat) : (s.hostVector f).still = s.still := by
  unfold State.hostVector
  split
  · exact State.msix'_still ..
  · rfl

theorem State.hostEvent_still (s : State) (ps : List Nat) : (s.hostEvent ps).still = s.still := by
  rw [State.hostEvent, foldl_keeps (g := State.still) (fun t p => State.hostVector_still t p), State.hostVector_still]

theorem State.updateFault_still (s : State) : s.updateFault.still = s.still := by
  simp only [State.updateFault]
  split
  · rw [State.hostEvent_still, State.wr_still]
  · exact State.wr_still ..

/-! ### Clocks and capacity, which follow the domains -/

theorem State.updateClock_still (s : State) (d : Nat) : (s.updateClock d).still = s.still := by
  simp only [State.updateClock]
  split
  · rw [State.wr_still, State.wr_still]
  · rw [State.trace_still, State.wr_still, State.wr_still]

theorem State.updateClocks_still (s : State) : s.updateClocks.still = s.still := by
  simp only [State.updateClocks]
  rw [State.wr_still, State.wr_still, foldl_keeps (g := State.still) (fun t d => State.updateClock_still t d)]

theorem State.updateCapacity_still (s : State) : s.updateCapacity.still = s.still := by
  simp only [State.updateCapacity]
  rw [State.updateFault_still, State.wr_still, State.wr_still, State.setReg_still, State.setReg_still]

theorem State.showDomains_still (s : State) : s.showDomains.still = s.still := by
  rw [State.showDomains, State.updateCapacity_still, State.wr_still, State.updateClocks_still]

end Sys2Proof.Machine
end

section
/-!
PROOF. How lists and tiles end (05_engines_queues_and_command_lists.md, 06_instruction_reference.md): what of the state the recording
of an ending leaves as it was, the ending of a list alone, and the completion of a tile; O12 and O15 are assembled from them.
-/
namespace Sys2Proof.Machine

open Reg

theorem exec_endList (r : ListRef) (s : State) : exec (.endList r) s = execEndList r s := rfl

theorem exec_tileComplete (r : ListRef) (t : Nat) (wrong : Option (List Byte)) (ecc : List EccEvent) (s : State) :
    exec (.tileComplete r t wrong ecc) s = execTileComplete r t wrong ecc s := rfl

/-! ### Operations that leave the admitted lists as they were -/

@[simp] theorem State.trace_lists (s : State) (type unit arg0 : Nat) (tag : Option Word64) (arg1 : Nat) (ps : List Nat) :
    (s.trace type unit arg0 tag arg1 ps).lists = s.lists := State.lists_of_still (State.trace_still ..)

@[simp] theorem State.countEs_lists (s : State) (d ev : Nat) (tag : Option Word64) (n : Nat) :
    (s.countEs d ev tag n).lists = s.lists := State.lists_of_still (State.countEs_still ..)

@[simp] theorem State.postedDrop_lists (s : State) (f : Nat) : (s.postedDrop f).lists = s.lists :=
  State.lists_of_still (State.postedDrop_still ..)

@[simp] theorem State.msix'_lists (s : State) (f vector : Nat) : (s.msix' f vector).lists = s.lists :=
  State.lists_of_still (State.msix'_still ..)

@[simp] theorem State.recordIrq_lists (s : State) (q : Nat) (irq : Bool) : (s.recordIrq q irq).lists = s.lists := by
  simp only [State.recordIrq]
  split
  · rfl
  · split
    · rw [State.queueIrq, State.msix'_lists, State.setQueue_lists, State.setQueue_lists]
    · exact State.setQueue_lists ..

@[simp] theorem State.noteHole_lists (s : State) (p : Nat) (whole : Bool) (a : Nat) : (s.noteHole p whole a).lists = s.lists := by
  unfold State.noteHole
  split
  · exact State.event_lists ..
  · rfl

@[simp] theorem State.writeByte_lists (s : State) (p : Nat) (whole : Bool) (a : Nat) (b : Byte) :
    (s.writeByte p whole a b).lists = s.lists := by
  unfold State.writeByte
  split
  · rfl
  · exact State.noteHole_lists ..

@[simp] theorem State.writeLocal_lists (s : State) (p : Nat) (whole : Bool) (a : Nat) (bs : List Byte) :
    (s.writeLocal p whole a bs).lists = s.lists := by
  induction bs generalizing s a with
  | nil => rfl
  | cons b bs ih => rw [State.writeLocal, ih, State.writeByte_lists]

@[simp] theorem State.meet_lists (s : State) (line : Nat) (scrub : Bool) (owner : Option (Nat × Nat)) :
    (s.meet line scrub owner).lists = s.lists := by
  unfold State.meet
  split <;> rfl

@[simp] theorem State.markLine_lists (s : State) (p : Nat) (whole poisoned : Bool) (a n lo : Nat) :
    (s.markLine p whole poisoned a n lo).lists = s.lists := by
  simp only [State.markLine]
  split
  · split
    · rfl
    · split
      · exact State.meet_lists ..
      · exact State.meet_lists ..
  · rfl

@[simp] theorem State.writeHost_lists (s : State) (p a : Nat) (bs : List Byte) : (s.writeHost p a bs).lists = s.lists := by
  unfold State.writeHost
  split
  · exact (foldl_keeps (g := State.lists) (fun t x => State.emit_lists t _) _ _).trans rfl
  · exact State.postedDrop_lists ..

@[simp] theorem State.store_lists (s : State) (p : Nat) (whole poisoned : Bool) (a : Nat) (bs : List Byte) :
    (s.store p whole poisoned a bs).lists = s.lists := by
  unfold State.store
  split
  · exact State.writeHost_lists ..
  · exact (foldl_keeps (g := State.lists) (fun t lo => State.markLine_lists ..) _ _).trans (State.writeLocal_lists ..)

@[simp] theorem State.lastErr_lists (s : State) (q status detail desc : Nat) : (s.lastErr q status detail desc).lists = s.lists := by
  unfold State.lastErr
  split
  · rw [State.wr_lists, State.wr_lists]
  · rfl

@[simp] theorem State.writeRecord_lists (s : State) (q : Nat) (x : Record) (tag : Word64) : (s.writeRecord q x tag).lists = s.lists := by
  simp only [State.writeRecord]
  rw [State.recordIrq_lists, State.trace_lists, State.lastErr_lists, State.wr_lists, State.setQueue_lists, State.store_lists]

@[simp] theorem State.advanceHead_lists (s : State) (q n : Nat) : (s.advanceHead q n).lists = s.lists := by
  induction n generalizing s with
  | zero => rfl
  | succ n ih =>
    simp only [State.advanceHead]
    split
    · rw [ih, State.wr_lists, State.setQueue_lists]
    · rfl

@[simp] theorem State.endDesc_lists (s : State) (q desc : Nat) : (s.endDesc q desc).lists = s.lists := by
  rw [State.endDesc, State.advanceHead_lists, State.setQueue_lists]

@[simp] theorem State.countLate_lists (s : State) (q : Nat) (l : RunList) : (s.countLate q l).lists = s.lists := by
  unfold State.countLate
  split
  · rw [State.event_lists, State.count_lists]
  · rfl

@[simp] theorem State.haltSession_lists (s : State) (n : Nat) (x : SessSt) : (s.haltSession n x).lists = s.lists := by
  rw [State.haltSession, State.event_lists, State.wr_lists, State.setSess_lists]

@[simp] theorem State.leaveSession_lists (s : State) (l : RunList) (status : Nat) : (s.leaveSession l status).lists = s.lists := by
  simp only [State.leaveSession]
  split
  · split
    · split
      · split
        · rw [State.haltSession_lists, State.wr_lists, State.setSess_lists]
        · rw [State.setSess_lists, State.wr_lists, State.setSess_lists]
      · rw [State.wr_lists, State.setSess_lists]
    · rfl
  · rfl

@[simp] theorem State.forget_lists (s : State) (l : RunList) (status : Nat) : (s.forget l status).lists = s.lists :=
  State.leaveSession_lists s l status

theorem State.countRefusal_lists (s : State) (q code : Nat) : (s.countRefusal q code).lists = s.lists :=
  (State.wr_lists ..).trans (State.count_lists ..)

/-! ### The ending of a list -/

/-- A list that has ended leaves, and no other. -/
theorem State.closeList_lists (s : State) (l : RunList) (e : Ending) :
    (s.closeList l e).lists = s.lists.filter (fun k => !(k.queue == l.queue && k.desc == l.desc)) := by
  simp only [State.closeList]
  rw [apply_ite State.lists, State.countEs_lists, ite_self, State.countLate_lists, State.endDesc_lists, State.writeRecord_lists,
    State.setQueue_lists, State.forget_lists]
  split
  · rw [State.trace_lists, State.countRefusal_lists]
  · rfl

theorem State.closeList_alone {s : State} {l : RunList} (hl : s.lists = [l]) (e : Ending) : (s.closeList l e).lists = [] := by
  rw [State.closeList_lists, hl]
  simp

/-- A list that ended alone: it leaves, and what the command leaves to be done follows. -/
theorem State.wrapUp_closed {s : State} {l : RunList} {e : Ending} (hl : s.lists = [l]) (he : l.ending = some e) :
    s.wrapUp = (s.closeList l e).parseAll.handleErrors.drainEgress := by
  rw [State.wrapUp, State.closeList_settle s l e hl he (State.closeList_alone hl e)]

/-- The list when its last instruction is complete: STATUS 0x00, or 0x01 and the count of concealed pictures (Table ENG-5). -/
def RunList.atEnd (l : RunList) (now : Nat) : RunList :=
  { l with progress := now, total := 0, done := [], held := [], asks := [],
           ending := some ⟨if l.concealed = 0 then 0 else 1, Nat.min 0xFFFF l.concealed⟩ }

/-- R114: END, or the last instruction, ends a list whose instruction met no data error. -/
theorem State.finish_last {s : State} {l : RunList} (hUntraced : s.untraced = true) (hl : s.lists = [l]) (hq : l.queue < 64)
    (hFaults : l.faults = []) (hAsks : l.asks = []) :
    s.finish l true = { s with lists := [l.atEnd s.beat.ticks] } := by
  unfold State.finish
  rw [State.findList_alone _ l hl]
  simp only [State.completeInstr, hFaults, hAsks, s.countEs_untraced hUntraced (show l.queue / 16 < 4 by omega), dataError, lowestOf,
    List.filter_nil, List.foldl_nil, true_or, if_true]
  refine Eq.trans (s.setList_alone _ l hl rfl rfl) ?_
  rw [RunList.atEnd, hFaults, State.tick]

/-- R142: an illegal instruction ends its list with 0x22. -/
theorem execNop_reserved {s : State} {r : ListRef} {l : RunList} {w : Nat} (h : s.lone r 0x00 l w) (hw : leftover w [] = true) :
    execNop r s = .next ({ s with lists := [{ l with ending := some ⟨0x22, 0x0202⟩ }] }).wrapUp := by
  obtain ⟨-, -, hLists, -⟩ := id h
  unfold execNop
  rw [State.instr_illegal h _ _ (by rw [hw, lowest_singleton_true]), State.endWith,
    s.setList_alone { l with ending := some ⟨0x22, 0x0202⟩ } l hLists rfl rfl]

theorem execEndList_alone {s : State} {r : ListRef} {l : RunList} {w : Nat} (h : s.lone r 0x01 l w) (hw : leftover w [] = false) :
    execEndList r s = .next ({ s with lists := [l.atEnd s.beat.ticks] }).wrapUp := by
  obtain ⟨hUntraced, -, hLists, -, hFaults, hAsks, -⟩ := id h
  unfold execEndList
  rw [State.instr_alone h _ _ (by simp [hw]), State.finish_last hUntraced hLists (State.lone_queue h) hFaults hAsks]

/-! ### The record of an ending: R104 -/

/-- What the trace channels' enables and the counters' freezing read. -/
theorem State.untraced_wr_above {s : State} {f : Fld} (h : 0x100000 ≤ f.addr) (v : Nat) : (s.wr f v).untraced = s.untraced := by
  have hFrozen : ∀ d, (s.wr f v).frozen d = s.frozen d := by
    intro d
    have hNe : cntCtlFreeze.addr ≠ f.addr := by simp only [cntCtlFreeze, cntCtl]; omega
    simp only [State.frozen, State.bit, State.rd_wr_ne s f cntCtlFreeze v hNe]
  have hEn : ∀ p, p < 4 → ∀ c, c < 8 → (s.wr f v).on (trcChCtlEn p c) = s.on (trcChCtlEn p c) := by
    intro p hp c hc
    have hNe : (trcChCtlEn p c).addr ≠ f.addr := by simp only [trcChCtlEn, trcChCtl]; omega
    simp only [State.on, State.rd_wr_ne s f (trcChCtlEn p c) v hNe]
  unfold State.untraced
  congr 1
  · refine Bool.eq_iff_iff.mpr ?_
    simp only [List.all_eq_true, List.mem_range]
    exact forall₂_congr fun p hp => forall₂_congr fun c hc => by rw [hEn p hp c hc]
  · exact congrArg _ (funext hFrozen)

theorem State.recordIrq_off {s : State} {q : Nat} (h : s.rd (queIrqCfgEn q) = 0) (irq : Bool) : s.recordIrq q irq = s := by
  simp [State.recordIrq, State.on, h]

theorem State.lastErr_none {s : State} {q status : Nat} (h2 : status / 16 ≠ 2) (h3 : status / 16 ≠ 3) (detail desc : Nat) :
    s.lastErr q status detail desc = s := by
  simp [State.lastErr, h2, h3]

theorem State.rd_congr {s t : State} (h : t.regs = s.regs) (f : Fld) : t.rd f = s.rd f := by
  simp only [State.rd, State.reg, h]

/-- With traces and the interrupt off, a record that does not wrap the ring is its store, its slot and the index. -/
theorem State.writeRecord_plain {s u : State} {q : Nat} {x : Record} (hUntraced : s.untraced = true)
    (hIrq : s.rd (queIrqCfgEn q) = 0) (hRoom : s.rd (queCplProdIndex q) + 1 < s.cplSize q) (h2 : x.status / 16 ≠ 2)
    (h3 : x.status / 16 ≠ 3) (hu : u = s.store (s.partOfQueue q) false false (s.cplBase q + 32 * s.rd (queCplProdIndex q))
      (x.bytes (if (s.queue q).ownLow then 0 else 1) s.now)) (hRegs : u.regs = s.regs) (tag : Word64) :
    s.writeRecord q x tag = (u.setQueue q { s.queue q with used := (s.queue q).used + 1 }).wr (queCplProdIndex q)
      (s.rd (queCplProdIndex q) + 1) := by
  have hWrap : decide (s.cplSize q ≤ s.rd (queCplProdIndex q) + 1) = false := decide_eq_false (Nat.not_le.mpr hRoom)
  have hRead : ∀ y v, ((u.setQueue q y).wr (queCplProdIndex q) v).rd (queIrqCfgEn q) = 0 := fun y v =>
    (State.rd_wr_ne _ _ _ _ (by simp [queIrqCfgEn, queIrqCfg, queCplProdIndex, queCplProd])).trans
      ((State.rd_congr (t := u.setQueue q y) hRegs _).trans hIrq)
  have hQuiet : ∀ y v, ((u.setQueue q y).wr (queCplProdIndex q) v).untraced = true := fun y v =>
    (State.untraced_wr_above (by simp only [queCplProdIndex, queCplProd]; omega) v).trans
      ((State.untraced_regs (t := u.setQueue q y) hRegs).trans hUntraced)
  simp only [State.writeRecord, hWrap, Bool.false_eq_true, if_false, ← hu, State.lastErr_none h2 h3]
  rw [State.trace_untraced _ (hQuiet _ _), State.recordIrq_off (hRead _ _)]

/-! ### The completion of a tile: R112, R114 -/

theorem splitOver_nil (xs : List Piece) : splitOver xs [] = xs := by
  induction xs with
  | nil => rfl
  | cons x xs ih => simp [splitOver, ih]

theorem work_issued {k : Work} (h : (match k with | .tiles => true | .coll _ => true | _ => false) = true) :
    k = .tiles ∨ ∃ c, k = .coll c := by
  cases k with
  | tiles => exact Or.inl rfl
  | coll c => exact Or.inr ⟨c, rfl⟩
  | _ => cases h

/-- What a running tile says of its list. -/
theorem State.runningTile_list {s : State} {r : ListRef} {t w : Nat} {l : RunList} (h : s.runningTile r t = some (l, w)) :
    l.running = true ∧ l.ending = none ∧ (l.work = .tiles ∨ ∃ c, l.work = .coll c) := by
  simp only [State.runningTile] at h
  split at h
  · split at h
    next hEnding =>
      obtain ⟨hRuns, hEq⟩ := (Option.ite_none_right_eq_some ..).mp h
      simp only [Option.some.injEq, Prod.mk.injEq] at hEq
      obtain ⟨rfl, -⟩ := hEq
      simp only [Bool.and_eq_true] at hRuns
      obtain ⟨⟨⟨⟨⟨hRunning, hIssued⟩, -⟩, -⟩, -⟩, -⟩ := hRuns
      exact ⟨hRunning, hEnding, work_issued hIssued⟩
    · cases h
  · cases h

theorem execTileComplete_notRunning {s : State} {r : ListRef} {t : Nat} (h : s.runningTile r t = none) (wrong : Option (List Byte))
    (e : List EccEvent) : execTileComplete r t wrong e s = .next (s.strike e) := by
  simp only [execTileComplete, h]

theorem execTileComplete_unheld {s : State} {r : ListRef} {t w : Nat} {l : RunList} {o : TileOut} (hCalm : s.calm = true)
    (hTile : s.runningTile r t = some (l, w)) (hHeld : l.held = []) (hOut : s.tileOut l w t = some o) (hFaults : o.faults = []) :
    execTileComplete r t none [] s =
      .next ((((s.tileEarns l w t (s.ownTag l w t)).commitTile l w t o).startShadows).advance.wrapUp) := by
  obtain ⟨hFlaws, -⟩ := State.calm_parts hCalm
  have hStrike : s.strike [] = s := rfl
  have hRight : o.miscomputed none = o := by simp [TileOut.miscomputed, splitOver_nil]
  have hTouch : s.touchTile l w t [] = s := if_pos ⟨rfl, hFlaws⟩
  have hAdd : s.addFaults l.queue l.desc [] = s := rfl
  simp only [execTileComplete, hTile, hStrike, hOut, hRight, hFaults, hTouch, hAdd, hHeld, List.find?_nil, Option.map_none,
    Option.getD_none]

theorem State.tileEarns_unscreened (s : State) (l : RunList) {w : Nat} (h : screened (bitsOf w 0 8) = false) (t : Nat) (tag : Word64) :
    s.tileEarns l w t tag = s := by
  simp [State.tileEarns, h]

theorem State.commitTile_unscreened {s u : State} {l : RunList} {w t : Nat} {o : TileOut} (h : screened (bitsOf w 0 8) = false)
    (hu : u = o.pieces.foldl (fun v x => v.jobStore l (s.ownTag l w t) x.poison x.addr x.bytes) s) (hLists : u.lists = [l]) :
    s.commitTile l w t o = { u with lists := [{ l with done := t :: l.done, progress := u.tick }] } := by
  simp only [State.commitTile, h, ← hu, Bool.false_eq_true, if_false, Option.map_none, State.retireTile, State.findList_alone u l hLists]
  exact u.setList_alone _ l hLists rfl rfl

theorem State.startShadows_nil {s : State} (h : s.shadows = []) : s.startShadows = s := by
  simp [State.startShadows, h]

theorem State.advance_undone {s : State} {l : RunList} (hl : s.lists = [l]) (h : s.instrDone l = false) : s.advance = s.settle := by
  simp [State.advance, hl, h]

/-- An instruction with tiles left is not done. -/
theorem State.instrDone_tilesLeft {s : State} {l : RunList} (hWork : l.work = .tiles ∨ ∃ c, l.work = .coll c)
    (h : l.done.length < l.total) : s.instrDone l = false := by
  have hNe : (l.done.length == l.total) = false := by simp; omega
  obtain hTiles | ⟨c, hColl⟩ := hWork
  · simp [State.instrDone, hTiles, hNe]
  · simp [State.instrDone, hColl, hNe]

/-- A list alone whose instruction has tiles left stays as it is. -/
theorem State.wait_tilesLeft {s : State} {l : RunList} (hl : s.lists = [l]) (hCalm : s.calm = true) (hShadows : s.shadows = [])
    (hRunning : l.running = true) (hEnding : l.ending = none) (hWork : l.work = .tiles ∨ ∃ c, l.work = .coll c)
    (hLeft : l.done.length < l.total) : s.startShadows.advance.wrapUp = s := by
  have hNotClosing : ∀ b m, l.work ≠ .closing b m := by
    intro b m hClosing
    obtain hTiles | ⟨c, hColl⟩ := hWork
    · simp [hTiles] at hClosing
    · simp [hColl] at hClosing
  rw [State.startShadows_nil hShadows, State.advance_undone hl (State.instrDone_tilesLeft hWork hLeft),
    State.settle_alone s l hl hRunning hEnding hNotClosing, State.wrapUp_one hCalm hl hRunning hEnding hNotClosing]

end Sys2Proof.Machine

namespace Sys2Proof

open Machine

/-- Settles O12: the ending of a list alone, and what its record leaves. -/
theorem listEnds : Obligations.ListEnds := by
  refine ⟨fun s r l w h hw => ⟨_, rfl, ?ends⟩, fun s r l w h hw => ?illegal, fun s l e hl _ => State.closeList_alone hl e,
    fun s q x tag hUntraced hIrq hRoom _ h2 h3 hRegs => State.writeRecord_plain hUntraced hIrq hRoom h2 h3 rfl hRegs tag⟩
  case ends => rw [exec_endList, execEndList_alone h hw, State.wrapUp_closed rfl rfl]; rfl
  case illegal => rw [exec_nop, execNop_reserved h hw, State.wrapUp_closed rfl rfl]

/-- Settles O15: a finished tile is stored, and the list stays while tiles are left. -/
theorem tileCompletes : Obligations.TileCompletes := by
  refine ⟨fun s u r t w l o _ hCalm _ hTile hScreened hHeld _ hOut hFaults hLeft hu hLists hShadows hBeat hCalm' => ?stays,
    fun s r t w l o hCalm hTile hHeld hOut hFaults => execTileComplete_unheld hCalm hTile hHeld hOut hFaults,
    fun s r t e h => execTileComplete_notRunning h none e⟩
  case stays =>
    obtain ⟨hRunning, hEnding, hWork⟩ := State.runningTile_list hTile
    have hTick : u.tick = s.beat.ticks := by rw [State.tick, hBeat]
    rw [exec_tileComplete, execTileComplete_unheld hCalm hTile hHeld hOut hFaults, State.tileEarns_unscreened s l hScreened,
      State.commitTile_unscreened hScreened hu hLists, hTick,
      State.wait_tilesLeft (s := { u with lists := _ }) (l := { l with done := t :: l.done, progress := s.beat.ticks }) rfl
        ((State.calm_congr rfl rfl rfl).trans hCalm') hShadows hRunning hEnding hWork hLeft]

end Sys2Proof
end

section
/-!
PROOF. Screening and the map of units (09_shadow_screening.md, 10_quarantine_spares_and_fleet.md): the coverage wheel, the ends of
shadows, arbiters and votes, and the commands that restrict a unit; O20, O21 and O22 are assembled from them.
-/
namespace Sys2Proof.Machine

open Reg

/-! ### The coverage wheel: R199–R202 -/

theorem exec_wheelAdvance (p : Part) (s : State) : exec (.wheelAdvance p) s = .next (s.advanceWheel p) := rfl

theorem State.advanceWheel_unreached {s : State} {p : Part} {b : Nat} {bs : List Nat} (hb : (s.wheel p).bounds = b :: bs)
    (h : s.reached ⟨b, 0⟩ = false) : s.advanceWheel p = s := by
  simp [State.advanceWheel, hb, h]

theorem State.advanceWheel_reached {s s1 : State} {p : Part} {x : WheelSt} {b : Nat} {bs : List Nat} (hx : s.wheel p = x)
    (hb : x.bounds = b :: bs) (h : s.reached ⟨b, 0⟩ = true) (hs1 : s1 = s.setWheel p { x with bounds := bs }) :
    s.advanceWheel p = (if x.restart then (s1.leaveStep p).restartWheel p b
      else if x.count + 1 < x.stride then s1.setWheel p { x with bounds := bs, count := x.count + 1 }
      else (s1.leaveStep p).enterStep p ((s1.rd (scrPartWheelS p) + 1) % 2 ^ 32) b).startShadows := by
  simp only [State.advanceWheel, hx, hb, h, hs1, Bool.not_true, Bool.false_eq_true, if_false]

/-- The step of F in which a cluster of rank `k` is watched: the one that its permuted rank names. -/
theorem State.watchOf_isSome (s : State) (p f n d lc : Nat) :
    (s.watchOf p f n d lc).isSome = true ↔ (s.rankOf p d * 160 + lc + wheelRho (n / f) f) % f = n % f := by
  simp only [State.watchOf]
  split
  next h => simp [h]
  next h => simp [h]

theorem State.watchOf_block {f i : Nat} (hi : i < f) (s : State) (p q d lc : Nat) :
    (s.watchOf p f (q * f + i) d lc).isSome = true ↔ (s.rankOf p d * 160 + lc + wheelRho q f) % f = i := by
  have hDiv : (q * f + i) / f = q := by
    rw [Nat.mul_comm, Nat.mul_add_div (by omega), Nat.div_eq_of_lt hi, Nat.add_zero]
  rw [State.watchOf_isSome, hDiv, Nat.mul_add_mod', Nat.mod_eq_of_lt hi]

/-! ### Shadows, arbiters and votes: R205–R212 -/

theorem execShadowSlotWaitExpiry_none {s : State} {d : Die} (h : s.overdueShadow d = none) :
    exec (.shadowSlotWaitExpiry d) s = .next s := by
  rw [exec, execShadowSlotWaitExpiry, h]

theorem execShadowSlotWaitExpiry_some {s : State} {d : Die} {x : QueuedShadow} {lc u : Nat} (hx : s.overdueShadow d = some x)
    (hu : best (fun v => (s.unit x.vector v).balance) (s.activeOf d) = some (lc, u)) :
    exec (.shadowSlotWaitExpiry d) s = .next (if -4 < (s.unit x.vector u).balance then s.startShadow x u else s) := by
  rw [exec, execShadowSlotWaitExpiry, hx]
  simp only [hu]

/-- A shadow forms its signature from the tile's operands; what follows is the comparison, or the end without one. -/
theorem execShadowComplete_rerun {s s1 : State} {r : ListRef} {t : Nat} {l : RunList} {h k : HeldTile} {o : TileOut}
    {wrong : Option (List Byte)} {e : List EccEvent} (hHeld : s.shadowOf r t = some (l, h))
    (hRun : s.rerun l (l.word.getD 0).toNat h.tile wrong e = some (o, s1)) (hk : k = { h with sigS := some o.signature }) :
    exec (.shadowComplete r t wrong e) s = .next ((if o.faults = [] then (s1.setHeld l.queue l.desc k).compareTile l k
      else s1.shadowPoisoned l h o.faults).startShadows.advance.wrapUp) := by
  subst hk
  rw [exec, execShadowComplete, hHeld]
  simp only [hRun]

theorem State.compareTile_same {s : State} {l : RunList} {h : HeldTile} {a : Word64} (hP : h.sigP = some a) (hS : h.sigS = some a) :
    s.compareTile l h = (s.noteWatch h true).commitHeld l.queue l.desc h := by
  simp [State.compareTile, hP, hS]

theorem State.compareTile_other {s : State} {l : RunList} {h : HeldTile} {a b : Word64} (hP : h.sigP = some a) (hS : h.sigS = some b)
    (hNe : a ≠ b) : s.compareTile l h = s.mismatch l h := by
  simp [State.compareTile, hP, hS, hNe]

theorem State.arbiterOf_running {s : State} {q d t : Nat} {v : VoteSt} (h : s.findVote q d t = some v)
    (hHost : v.tile.arbHost.isSome = true) : s.arbiterOf q d t = some v := by
  simp [State.arbiterOf, h, hHost]

/-- An arbiter without a data error gives a signature, which decides the vote. -/
theorem execArbiterComplete_signature {s s1 : State} {r : ListRef} {t : Nat} {v : VoteSt} {o : TileOut} {wrong : Option (List Byte)}
    {e : List EccEvent} (hv : s.findVote r.queue r.desc t = some v) (hv1 : s1.findVote r.queue r.desc t = some v)
    (hHost : v.tile.arbHost.isSome = true) (hRun : s.rerun v.list v.word t wrong e = some (o, s1)) (hFaults : o.faults = []) :
    exec (.arbiterComplete r t wrong e) s = .next (s1.completeVote v (v.outcome o.signature) (some o.signature)).wrapUp := by
  rw [exec, execArbiterComplete, State.arbiterOf_running hv hHost]
  simp only [hRun, hFaults, hv1, ne_eq, not_true_eq_false, if_false]

theorem VoteSt.outcome_shadow {v : VoteSt} {sig : Word64} (h : v.tile.sigS = some sig) (hDie : v.tile.sameDie = false) :
    v.outcome sig = 0 := by
  simp [VoteSt.outcome, h, hDie]

theorem VoteSt.outcome_primary {v : VoteSt} {sig b : Word64} (hP : v.tile.sigP = some sig) (hS : v.tile.sigS = some b) (hNe : sig ≠ b) :
    v.outcome sig = 1 := by
  simp [VoteSt.outcome, hP, hS, hNe]

theorem VoteSt.outcome_neither {v : VoteSt} {sig a b : Word64} (hP : v.tile.sigP = some a) (hS : v.tile.sigS = some b) (ha : sig ≠ a)
    (hb : sig ≠ b) : v.outcome sig = 2 := by
  simp [VoteSt.outcome, hP, hS, ha, hb]

theorem execArbTimeout_due {s : State} {r : ListRef} {t m : Nat} {v : VoteSt} (hv : s.findVote r.queue r.desc t = some v)
    (hm : v.tile.mismatch = some m) (hHost : v.tile.arbHost.isSome = true)
    (hDue : m + Nat.max 1 (s.rd scrArbTimeoutBeats) ≤ s.beat.ticks) :
    exec (.arbTimeout r t) s = .next ((({ s with lateArbs := (v, s.rd scrLogProdSeq) :: s.lateArbs }).event
      scrEventArbTimeout).completeVote v 3 none).wrapUp := by
  have hDue' : decide (m + Nat.max 1 (s.rd scrArbTimeoutBeats) ≤ s.tick) = true := decide_eq_true hDue
  rw [exec, execArbTimeout, hv]
  simp only [hm, Option.getD_some, hDue', hHost, Bool.not_true, Bool.false_and, Bool.false_eq_true, if_false, if_true]

theorem execArbTimeout_early {s : State} {r : ListRef} {t m : Nat} {v : VoteSt} (hv : s.findVote r.queue r.desc t = some v)
    (hm : v.tile.mismatch = some m) (hHost : v.tile.arbHost.isSome = true)
    (hEarly : s.beat.ticks < m + Nat.max 1 (s.rd scrArbTimeoutBeats)) : exec (.arbTimeout r t) s = .next s.wrapUp := by
  have hDue' : decide (m + Nat.max 1 (s.rd scrArbTimeoutBeats) ≤ s.tick) = false := decide_eq_false (Nat.not_le.mpr hEarly)
  rw [exec, execArbTimeout, hv]
  simp only [hm, Option.getD_some, hDue', hHost, Bool.not_false, Bool.and_self, if_true]

/-- An entry joins an empty log in the slot of its SEQ. -/
theorem State.logVote_empty {s : State} (seq : Nat) (bs : List Byte) (h : s.scrLog = []) :
    s.logVote seq bs =
      { s with scrLog := SMap.set s.scrLog (fun _ => []) (seq % 64) bs }.wr scrLogProdSeq ((seq + 1) % 65536) := by
  simp [State.logVote, h]

/-! ### Commands that restrict a unit: R217, R218, R242 -/

theorem State.restrictCmd_unit {s : State} {w : Word32} {k : Nat} (h : unitKey w.toNat = some k) (code st : Nat) :
    s.restrictCmd code st w = (0, s.applySet (s.qtn.map.restrict st 2 s.nextEpoch k) false
      (s.mapChange s.qtn.map (s.qtn.map.restrict st 2 s.nextEpoch k) code) [] []) := by
  simp only [State.restrictCmd, h]

theorem State.restrictCmd_none {s : State} {w : Word32} (h : unitKey w.toNat = none) (code st : Nat) :
    s.restrictCmd code st w = (4, s) := by
  simp only [State.restrictCmd, h]

theorem exec_quarantine (via : CmdVia) (unit : Word32) (s : State) : exec (.quarantine via unit) s =
    .next (s.command via 0x0A01 (leBytes 4 unit.toNat) (fun t => t.restrictCmd 0x0A01 2 unit)).wrapUp := rfl

theorem exec_suspect (via : CmdVia) (unit : Word32) (s : State) : exec (.suspect via unit) s =
    .next (s.command via 0x0A02 (leBytes 4 unit.toNat) (fun t => t.restrictCmd 0x0A02 1 unit)).wrapUp := rfl

theorem exec_reinstate (via : CmdVia) (unit epoch : Word32) (s : State) : exec (.reinstate via unit epoch) s =
    .next (s.command via 0x0A03 (leBytes 4 unit.toNat ++ leBytes 4 epoch.toNat) (fun t =>
      match t.reinstateTest unit epoch, unitKey unit.toNat with
      | 0, some k => (0, t.applySet (t.qtn.map.reinstate k t.nextEpoch) true
          (t.mapChange t.qtn.map (t.qtn.map.reinstate k t.nextEpoch) 0x0A03) [] [])
      | r, _ => (r, t))).wrapUp := rfl

/-- QUARANTINE and SUSPECT, the command `code` to the state `st`, once an RMG core serves them. -/
theorem State.command_restrict {s t : State} {via : CmdVia} {code : Nat} {unit : Word32} (hr : t.rmgDown = false)
    (h : s.commandIn via code (leBytes 4 unit.toNat) = some t) (st : Nat) :
    (∀ k, unitKey unit.toNat = some k → s.command via code (leBytes 4 unit.toNat) (fun u => u.restrictCmd code st unit) =
      (t.applySet (t.qtn.map.restrict st 2 t.nextEpoch k) false
        (t.mapChange t.qtn.map (t.qtn.map.restrict st 2 t.nextEpoch k) code) [] []).commandDone via code 0) ∧
    (unitKey unit.toNat = none → s.command via code (leBytes 4 unit.toNat) (fun u => u.restrictCmd code st unit) =
      t.commandDone via code 4) := by
  rw [State.command_served h hr]
  exact ⟨fun k hk => by rw [State.restrictCmd_unit hk], fun hk => by rw [State.restrictCmd_none hk]⟩

/-! ### The state that a restriction leaves -/

theorem UnitMap.entry_put (m : UnitMap) (k : Nat) (e : MapEntry) (j : Nat) :
    (m.put k e).entry j = if j = k then e else m.entry j := SMap.get_set _ _ _ _ _

theorem UnitMap.spare_spec {m : UnitMap} {d u : Nat} (h : m.spare d = some u) : (m.entry u).state = 3 ∧ u < d * 168 + 168 := by
  unfold UnitMap.spare at h
  have hSpare := List.find?_some h
  have hMem := List.mem_of_find?_eq_some h
  simp only [List.mem_map, List.mem_range] at hMem
  simp only [Bool.and_eq_true, beq_iff_eq] at hSpare
  obtain ⟨i, hi, rfl⟩ := hMem
  exact ⟨hSpare.1, by omega⟩

/-- A substitution touches only a spare of its die. -/
theorem UnitMap.entry_assign {m : UnitMap} {d k : Nat} (lc epoch : Nat) (h : (m.entry k).state ≠ 3 ∨ d * 168 + 168 ≤ k) :
    (m.assign d lc epoch).entry k = m.entry k := by
  unfold UnitMap.assign
  split
  next u hu =>
    obtain ⟨hState, hDie⟩ := UnitMap.spare_spec hu
    have hNe : k ≠ u := by
      rintro rfl
      obtain h | h := h
      · exact h hState
      · omega
    rw [UnitMap.entry_put, if_neg hNe]
  next => rfl

/-- A restriction of one unit leaves it in the more restrictive state. -/
theorem UnitMap.restrict1_rank (m : UnitMap) {st : Nat} (source epoch k : Nat) (h : st = 1 ∨ st = 2) :
    rank ((m.restrict1 st source epoch k).entry k).state = Nat.max (rank (m.entry k).state) (rank st) := by
  have hNotSpare : st ≠ 3 := by omega
  simp only [UnitMap.restrict1]
  split
  next hLe => exact (Nat.max_eq_left hLe).symm
  next hLt =>
    rw [show Nat.max (rank (m.entry k).state) (rank st) = rank st from Nat.max_eq_right (by omega)]
    split
    · rw [UnitMap.entry_assign _ _ (Or.inl (by rw [UnitMap.entry_put, if_pos rfl]; exact hNotSpare)), UnitMap.entry_put, if_pos rfl]
    · rw [UnitMap.entry_put, if_pos rfl]

/-- A restriction of a cluster leaves every vector unit as it was. -/
theorem UnitMap.entry_restrict1_vector (m : UnitMap) (st source epoch : Nat) {c k : Nat} (hc : c < 672) (hk : 672 ≤ k) :
    (m.restrict1 st source epoch c).entry k = m.entry k := by
  have hNe : k ≠ c := by omega
  simp only [UnitMap.restrict1]
  split
  · rfl
  · split
    · rw [UnitMap.entry_assign _ _ (Or.inr (by omega)), UnitMap.entry_put, if_neg hNe]
    · rw [UnitMap.entry_put, if_neg hNe]

/-- R217: the unit that a restriction names ends in the more restrictive of its state and the one named. -/
theorem UnitMap.restrict_rank (m : UnitMap) {st : Nat} (source epoch k : Nat) (h : st = 1 ∨ st = 2) :
    rank ((m.restrict st source epoch k).entry k).state = Nat.max (rank (m.entry k).state) (rank st) := by
  simp only [UnitMap.restrict]
  split
  next hVector => rw [UnitMap.entry_restrict1_vector _ _ _ _ (by omega) hVector.1, UnitMap.restrict1_rank _ _ _ _ h]
  next => exact UnitMap.restrict1_rank m source epoch k h

end Sys2Proof.Machine

namespace Sys2Proof

open Machine Machine.Reg

/-- Settles O20: a boundary by its place in the stride. -/
theorem wheelAdvances : Obligations.WheelAdvances := by
  intro s s1 p x b bs hx hb hs1
  rw [exec_wheelAdvance]
  refine ⟨fun h => ?unreached, fun h hKept hCount hShadows => ?within, fun h hKept hCount => ?step, fun h hRestart => ?restart⟩
  case unreached => rw [State.advanceWheel_unreached (by rw [hx, hb]) h]
  case within =>
    rw [State.advanceWheel_reached hx hb h hs1, hKept, if_neg Bool.false_ne_true, if_pos hCount, State.startShadows_nil]
    rw [hs1, State.setWheel_shadows, State.setWheel_shadows, hShadows]
  case step =>
    rw [State.advanceWheel_reached hx hb h hs1, hKept, if_neg Bool.false_ne_true, if_neg (Nat.not_lt.mpr hCount)]
  case restart => rw [State.advanceWheel_reached hx hb h hs1, if_pos hRestart]

/-- Settles O21: in a block of F steps a cluster is watched in the step that its permuted rank names, and in no other. -/
theorem wheelCovers : Obligations.WheelCovers := by
  intro s p f q d lc hf
  have hLt : (s.rankOf p d * 160 + lc + wheelRho q f) % f < f := Nat.mod_lt _ hf
  exact ⟨_, hLt, (State.watchOf_block hLt ..).mpr rfl, fun j hj h => ((State.watchOf_block hj ..).mp h).symm⟩

/-- Settles O22: shadows, votes and restrictions, a case each. -/
theorem shadowVotes : Obligations.ShadowVotes := by
  refine ⟨⟨fun s d x lc u hx hu => ?slot, fun s d h => execShadowSlotWaitExpiry_none h,
      fun s s1 r t l h k a o wrong hHeld hP hRun hFaults hk => ?shadow,
      fun s s1 r t l h o wrong e hHeld hRun hFaults => by rw [execShadowComplete_rerun hHeld hRun rfl, if_neg hFaults]⟩,
    ⟨fun s s1 r t a b v o wrong e hv hv1 hHost hP hS hDie hab hRun hFaults => ?arbiter,
      fun s r t m v hv hm hHost => ⟨execArbTimeout_due hv hm hHost, execArbTimeout_early hv hm hHost⟩,
      fun s seq bs hSeq hLog _ => ?log⟩,
    ⟨fun s t via unit hr => ?commands, fun s t unit epoch via hr => ?busy, fun s unit epoch hDown => ?unheard,
      fun m st source epoch k h => m.restrict_rank source epoch k h⟩⟩
  case slot =>
    rw [execShadowSlotWaitExpiry_some hx hu]
    exact ⟨fun h => by rw [if_pos h], fun h => by rw [if_neg (by omega)]⟩
  case shadow =>
    have hkP : k.sigP = some a := by rw [hk]; exact hP
    have hkS : k.sigS = some o.signature := by rw [hk]
    rw [execShadowComplete_rerun hHeld hRun hk, if_pos hFaults]
    exact ⟨fun h => by rw [State.compareTile_same hkP (h ▸ hkS)], fun h => by rw [State.compareTile_other hkP hkS (Ne.symm h)]⟩
  case arbiter =>
    rw [execArbiterComplete_signature hv hv1 hHost hRun hFaults]
    exact ⟨fun h => by rw [VoteSt.outcome_shadow (h ▸ hS) hDie], fun h => by rw [VoteSt.outcome_primary (h ▸ hP) hS (h ▸ hab)],
      fun ha hb => by rw [VoteSt.outcome_neither hP hS ha hb]⟩
  case log =>
    rw [State.logVote_empty seq bs hLog]
    exact ⟨by rw [State.wr_scrLog]; exact SMap.get_set_same s.scrLog (fun _ => []) _ _,
      (State.rd_wr_same _ _ _ (by decide)).trans (Nat.mod_mod (seq + 1) (2 ^ 16))⟩
  case commands =>
    rw [exec_quarantine, exec_suspect]
    refine ⟨fun h => ?_, fun h => ?_⟩ <;>
    · obtain ⟨hUnit, hNone⟩ := State.command_restrict hr h _
      exact ⟨fun k hk => by rw [hUnit k hk], fun hk => by rw [hNone hk]⟩
  case busy =>
    rw [exec_quarantine, exec_suspect, exec_reinstate]
    exact ⟨fun h => by rw [State.command_busy h hr], fun h => by rw [State.command_busy h hr],
      fun h => by rw [State.command_busy h hr]⟩
  case unheard =>
    rw [exec_quarantine, exec_suspect, exec_reinstate]
    exact ⟨by rw [State.command_unheard _ _ _ _ hDown], by rw [State.command_unheard _ _ _ _ hDown],
      by rw [State.command_unheard _ _ _ _ hDown]⟩

end Sys2Proof
end

section
/-!
PROOF. Management messages and reset requests (08_links_host_fabric_management.md, 12_hangs_fencing_and_recovery.md): the tests of
R193 and what follows them, and RST_CTL with the beginning of a reset; O34 and O38 are assembled from them.
-/
namespace Sys2Proof.Machine

open Reg

/-! ### Management messages: R192–R194 -/

theorem exec_mgtRead (m : MgtHdr) (offset count : Nat) (s : State) : exec (.mgtRead m offset count) s =
    .next (s.inbound m 1 (leBytes 4 offset ++ leBytes 4 count) (fun t =>
      (t.readRegs .mgmt offset (if count ≤ 64 then count else 0)).2.answerMgt m 2
        ((t.readRegs .mgmt offset (if count ≤ 64 then count else 0)).1.flatMap (fun v => leBytes 4 v.toNat)))).wrapUp := rfl

theorem exec_mgtWrite (m : MgtHdr) (offset : Nat) (v mask : Word32) (s : State) : exec (.mgtWrite m offset v mask) s =
    .next (s.inbound m 3 (leBytes 4 offset ++ leBytes 4 v.toNat ++ leBytes 4 mask.toNat) (fun t =>
      (t.writeReg .mgmt offset (t.masked offset v mask)).answerMgt m 4 [])).wrapUp := rfl

theorem exec_mgtAckRx (m : MgtHdr) (s : State) : exec (.mgtAckRx m) s =
    .next (s.inbound m 0x1F [] (fun t =>
      ({ t with link := { t.link with msgs := t.link.msgs.filter (fun (x : HeldMsg) => x.seq != m.ackSeq) } }).wr mgtRptPendingCount
        (t.link.msgs.filter (fun (x : HeldMsg) => x.seq != m.ackSeq)).length)) := rfl

/-- A message that reaches the port and fails a test is counted and never answered. -/
theorem State.inbound_rejected {s : State} {m : MgtHdr} {type : Nat} {payload : List Byte} (hUp : s.cc3Up = true)
    (hReaches : s.reaches m payload = true) (hAccepts : s.accepts m type payload = false) (f : State → State) :
    s.inbound m type payload f = s.count mgtRxRejectCount 1 := by
  simp [State.inbound, hUp, hReaches, hAccepts]

theorem State.msgDue_iff (s : State) (x : HeldMsg) :
    s.msgDue x = true ↔ x.sentAt + Nat.max 1 (s.rd mgtRptCfgRetry) ≤ s.beat.ticks := decide_eq_true_iff

theorem execReportRetry_one {s : State} {x : HeldMsg} (hUp : s.cc3Up = true) (hx : s.link.msgs = [x]) : execReportRetry s =
    .next (if s.msgDue x then
      { s.sendMsg x with link := { (s.sendMsg x).link with msgs := [{ x with sentAt := s.beat.ticks }] } } else s) := by
  have hLink : (s.sendMsg x).link = s.link := State.emit_link ..
  unfold execReportRetry
  cases hDue : s.msgDue x with
  | true =>
    simp only [hUp, hx, hDue, Bool.not_true, Bool.false_eq_true, if_false, if_true, List.filter_cons, List.filter_nil, List.foldl_cons,
      List.foldl_nil, hLink, List.map_cons, List.map_nil, State.tick]
  | false =>
    simp only [hUp, hx, hDue, Bool.not_true, Bool.false_eq_true, if_false, List.filter_cons, List.filter_nil, List.foldl_nil,
      List.map_cons, List.map_nil]
    rw [← hx]

/-- A message that was acted on has taken its SEQ. -/
theorem State.mgtIn_lastSeq {s t : State} {m : MgtHdr} {type : Nat} {payload : List Byte} (h : s.mgtIn m type payload = some t) :
    t.link.lastSeq.get (fun _ => 0) m.key.val = m.seq + 1 := by
  unfold State.mgtIn at h
  obtain ⟨-, hEq⟩ := (Option.ite_none_right_eq_some ..).mp h
  rw [← Option.some.inj hEq]
  exact SMap.get_set_same s.link.lastSeq (fun _ => 0) m.key.val (m.seq + 1)

/-- R193: a SEQ not above the last of its key fails the tests. -/
theorem State.accepts_oldSeq {t : State} {n : MgtHdr} (h : n.seq < t.link.lastSeq.get (fun _ => 0) n.key.val) (type : Nat)
    (payload : List Byte) : t.accepts n type payload = false := by
  rw [State.accepts, decide_eq_false (by omega), Bool.and_false]

/-! ### RST_CTL: R274, R287 -/

theorem exec_rstEngine (path : Path) (v : Word32) (s : State) : exec (.rstEngine path v) s = .next (s.writeRstCtl path v.toNat).wrapUp :=
  rfl

theorem exec_rstPartition (path : Path) (v : Word32) (s : State) :
    exec (.rstPartition path v) s = .next (s.writeRstCtl path v.toNat).wrapUp := rfl

theorem exec_rstDevice (path : Path) (v : Word32) (s : State) : exec (.rstDevice path v) s = .next (s.writeRstCtl path v.toNat).wrapUp :=
  rfl

theorem exec_rstClaRegion (path : Path) (v : Word32) (s : State) :
    exec (.rstClaRegion path v) s = .next (s.writeRstCtl path v.toNat).wrapUp := rfl

theorem bitsOf_getLsbD {w : Nat} (v : BitVec w) (i : Nat) : bitsOf v.toNat i 1 = (v.getLsbD i).toNat := by
  rw [bitsOf, BitVec.getLsbD, Nat.testBit, Nat.shiftRight_eq_div_pow]
  have hBit : v.toNat / 2 ^ i % 2 < 2 := Nat.mod_lt _ (by decide)
  rw [Nat.and_comm, Nat.and_one_is_mod, Nat.pow_one]
  obtain h | h : v.toNat / 2 ^ i % 2 = 0 ∨ v.toNat / 2 ^ i % 2 = 1 := by omega
  · simp [h]
  · simp [h]

theorem State.writeRstCtl_noGo (s : State) (path : Path) {v : Nat} (h : bitsOf v 31 1 = 0) : s.writeRstCtl path v = s := by
  rw [State.writeRstCtl, if_pos h]

theorem State.writeRstCtl_denied {s : State} {path : Path} {v : Nat} {d : RDom} (hd : rstDomain v = some d)
    (h : s.resetPath path d = false) : s.writeRstCtl path v = s := by
  unfold State.writeRstCtl
  split
  · rfl
  · simp [hd, h]

theorem State.writeRstCtl_granted {s : State} {path : Path} {v : Nat} {d : RDom} (hGo : bitsOf v 31 1 = 1)
    (hd : rstDomain v = some d) (hPath : s.resetPath path d = true) (hAllowed : s.resetAllowed d = true) :
    s.writeRstCtl path v = s.requestReset d (pathCause path) := by
  simp [State.writeRstCtl, hGo, hd, hPath, hAllowed]

theorem State.resetPath_pf_part {s : State} {f : Fn} (h : s.presented f = true) (p : Part) :
    s.resetPath (.pf f) (.part p) = true ↔ f = 0 ∨ f.val = p.val := by
  simp [State.resetPath, h]

theorem State.resetPath_pf_cla {s : State} {f : Fn} (h : s.presented f = true) (r : Fin 8) :
    s.resetPath (.pf f) (.cla r) = true ↔ f = 0 := by
  simp [State.resetPath, h]

/-! ### Requests: R274 -/

/-- A request that a reset in progress contains is absorbed. -/
theorem State.requestReset_absorbed {s : State} {d : RDom} (h : s.hang.resets.any (fun r => s.inside d r.dom) = true) (cause : Nat) :
    s.requestReset d cause = s.count rstAbsorbedCount 1 := by
  have hAny : s.hang.resets.any (fun r => s.inside d r.dom ||
      (match r.next with | some n => s.inside d n.1 | none => false)) = true := by
    obtain ⟨r, hr, hIn⟩ := List.any_eq_true.mp h
    exact List.any_eq_true.mpr ⟨r, hr, by rw [hIn, Bool.true_or]⟩
  unfold State.requestReset State.requestResetAt
  exact if_pos hAny

theorem State.requestReset_engine {s : State} {p : Part} (h : s.present p = true) (hIdle : s.hang.resets = []) (e : Fin 5)
    (cause : Nat) : s.requestReset (.engine p e) cause = s.startReset (.engine p e) cause 0 := by
  simp only [State.requestReset, State.requestResetAt, hIdle, List.any_nil, h, Bool.not_true, Bool.false_eq_true, if_false,
    List.find?_nil]

/-- With no host gone, no shadow and no arbiter is issued again. -/
theorem State.evictHosts_nil (s : State) : s.evictHosts [] = s := by
  have hOrphans : s.orphans (fun u => ([] : List Nat).contains (s.partOfDie (u / 168))) = [] := by
    refine List.flatMap_eq_nil_iff.mpr fun l _ => List.map_eq_nil_iff.mpr (List.filter_eq_nil_iff.mpr fun h _ => ?_)
    cases h.shadowHost with
    | none => simp
    | some u => simp
  have hVotes : s.votes.filter (fun v =>
      (v.tile.arbHost.map (fun u => ([] : List Nat).contains (s.partOfDie (u / 168)))).getD false) = [] := by
    refine List.filter_eq_nil_iff.mpr fun v _ => ?_
    cases v.tile.arbHost with
    | none => simp
    | some u => simp
  simp only [State.evictHosts, State.loseHosts, hOrphans, List.foldl_nil, hVotes]

theorem State.abortChurnOf_nil (s : State) : s.abortChurnOf [] = s := by
  unfold State.abortChurnOf
  split
  · rfl
  · rfl

/-- The sequence of an engine reset that begins: DRAIN, with its budget. -/
def State.engineReset (s : State) (p : Part) (e : Fin 5) (cause : Nat) : ResetSeq :=
  { dom := .engine p e, phase := 3, cause := cause, drainEnd := s.units + s.rd hngFenceBudgetPhase, since := s.tick, started := s.tick,
    mark := s.now, escalated := cause == 9, captured := false, slots := [], ports := s.portCfgs, next := none }

theorem State.startReset_engine {s : State} (hUntraced : s.untraced = true) (hIdle : s.hang.resets = []) (p : Part) (e : Fin 5)
    (cause : Nat) : s.startReset (.engine p e) cause 0 = (s.setResets [s.engineReset p e cause]).showReset := by
  have hDeclare : (s.traceReset (.engine p e) cause false).declareReset (.engine p e) cause 0 = s := s.trace_untraced hUntraced ..
  have hParts : ∀ u : State, (u.abortChurnOf (u.partsOfDom (.engine p e))).evictHosts (u.partsOfDom (.engine p e)) = u := fun u =>
    (State.evictHosts_nil _).trans u.abortChurnOf_nil
  simp only [State.startReset]
  rw [if_neg (by simp), hParts, hDeclare, hIdle, List.nil_append]
  rfl

/-- RST_STATUS of a reset alone. -/
theorem State.showReset_one {s : State} {r : ResetSeq} (h : s.hang.resets = [r]) : s.showReset =
    (((s.wr rstStatusBusy 1).wr rstStatusPhase r.phase).wr rstStatusPart r.dom.partNo).wr rstStatusDomain r.dom.code := by
  simp only [State.showReset, State.largestReset, h, List.foldl_cons, List.foldl_nil]

theorem State.showReset_engineReset (s : State) (p : Part) (e : Fin 5) (cause : Nat) :
    (s.setResets [s.engineReset p e cause]).showReset = ((((s.setResets [s.engineReset p e cause]).wr rstStatusBusy 1).wr
      rstStatusPhase 3).wr rstStatusPart p.val).wr rstStatusDomain 0 := State.showReset_one (r := s.engineReset p e cause) rfl

/-- What a write of the four fields of RST_STATUS leaves there. -/
theorem State.rd_rstStatus (s : State) {a b c d : Nat} (ha : a < 2) (hb : b < 16) (hc : c < 4) (hd : d < 4) :
    let u := (((s.wr rstStatusBusy a).wr rstStatusPhase b).wr rstStatusPart c).wr rstStatusDomain d
    u.rd rstStatusBusy = a ∧ u.rd rstStatusPhase = b ∧ u.rd rstStatusDomain = d ∧ u.rd rstStatusPart = c := by
  refine ⟨?_, ?_, State.rd_wr_fits _ (by decide) hd, ?_⟩
  · rw [State.rd_wr_apart _ _ (by decide) (by decide), State.rd_wr_apart _ _ (by decide) (by decide),
      State.rd_wr_apart _ _ (by decide) (by decide), State.rd_wr_fits _ (by decide) ha]
  · rw [State.rd_wr_apart _ _ (by decide) (by decide), State.rd_wr_apart _ _ (by decide) (by decide),
      State.rd_wr_fits _ (by decide) hb]
  · rw [State.rd_wr_apart _ _ (by decide) (by decide), State.rd_wr_fits _ (by decide) hc]

theorem State.showReset_onlyFields (s : State) :
    s.onlyFields [rstStatusBusy, rstStatusPhase, rstStatusPart, rstStatusDomain] s.showReset := by
  have hFour : ∀ a b c d : Nat, s.onlyFields [rstStatusBusy, rstStatusPhase, rstStatusPart, rstStatusDomain]
      ((((s.wr rstStatusBusy a).wr rstStatusPhase b).wr rstStatusPart c).wr rstStatusDomain d) := fun a b c d =>
    State.onlyFields_wr (State.onlyFields_wr (State.onlyFields_wr (State.onlyFields_wr (State.onlyFields_refl _ _)
      rstStatusBusy a (by simp) (by decide)) rstStatusPhase b (by simp) (by decide)) rstStatusPart c (by simp) (by decide))
      rstStatusDomain d (by simp) (by decide)
  unfold State.showReset
  split
  · exact hFour ..
  · exact hFour ..

end Sys2Proof.Machine

namespace Sys2Proof

open Machine Machine.Reg

/-- Settles O34: the tests of R193, what follows them, and the retry of a held message. -/
theorem managementMessages : Obligations.ManagementMessages := by
  refine ⟨⟨fun s t m offset count h hCount => ?read, fun s t m offset v mask h => ?write, fun s t m h => ?ack,
    fun s m offset count v mask hUp => ⟨fun hReaches hBad => ?_, fun hReaches hBad => ?_, fun hReaches hBad => ?_⟩,
    fun s x hUp hx => ?retry⟩, fun s t m n type payload pl h hKey hSeq => ?once⟩
  case read => rw [exec_mgtRead, State.inbound_in h, if_pos hCount]
  case write => rw [exec_mgtWrite, State.inbound_in h]
  case ack => rw [exec_mgtAckRx, State.inbound_in h]
  · rw [exec_mgtRead, State.inbound_rejected hUp hReaches hBad]
  · rw [exec_mgtWrite, State.inbound_rejected hUp hReaches hBad]
  · rw [exec_mgtAckRx, State.inbound_rejected hUp hReaches hBad]
  case retry =>
    have hExec : exec .reportRetry s = execReportRetry s := rfl
    rw [hExec, execReportRetry_one hUp hx]
    exact ⟨fun h => by rw [if_pos ((s.msgDue_iff x).mpr h)], fun h => by rw [if_neg (mt (s.msgDue_iff x).mp (Nat.not_le.mpr h))]⟩
  case once =>
    refine State.accepts_oldSeq ?_ type payload
    rw [hKey, State.mgtIn_lastSeq h]
    omega

/-- Settles O38: RST_CTL by path and domain, an absorbed request, and an engine reset that begins. -/
theorem resetRequests : Obligations.ResetRequests := by
  refine ⟨fun s path v => ?control, fun s => ⟨rfl, fun f => Bool.and_false _, fun f p h => State.resetPath_pf_part h p,
    fun f r h => State.resetPath_pf_cla h r⟩, fun s p d cause _ _ h => State.requestReset_absorbed h cause,
    fun s p e cause hPresent hIdle hUntraced => ?begins⟩
  case control =>
    rw [exec_rstEngine, exec_rstPartition, exec_rstDevice, exec_rstClaRegion]
    refine ⟨fun h => ?_, fun d hGo hd hPath hAllowed => ?_, fun d hd hPath => ?_⟩
    · rw [s.writeRstCtl_noGo path (by rw [bitsOf_getLsbD, h]; rfl)]
      exact ⟨rfl, rfl, rfl, rfl⟩
    · rw [State.writeRstCtl_granted (by rw [bitsOf_getLsbD, hGo]; rfl) hd hPath hAllowed]
      exact ⟨rfl, rfl, rfl, rfl⟩
    · rw [State.writeRstCtl_denied hd hPath]
      exact ⟨rfl, rfl, rfl, rfl⟩
  case begins =>
    have hReset : s.requestReset (.engine p e) cause = (s.setResets [s.engineReset p e cause]).showReset := by
      rw [State.requestReset_engine hPresent hIdle, State.startReset_engine hUntraced hIdle]
    obtain ⟨hOnly, hKept⟩ := (s.setResets [s.engineReset p e cause]).showReset_onlyFields
    obtain ⟨hBusy, hPhase, hDomain, hPart⟩ :=
      (s.setResets [s.engineReset p e cause]).rd_rstStatus (a := 1) (b := 3) (c := p.val) (d := 0)
      (by decide) (by decide) p.isLt (by decide)
    have hResets : (s.setResets [s.engineReset p e cause]).showReset.hang.resets = [s.engineReset p e cause] :=
      congrArg (fun u : State => u.hang.resets) hOnly
    rw [← s.showReset_engineReset] at hBusy hPhase hDomain hPart
    refine ⟨_, s.engineReset p e cause, hReset, hResets, rfl, rfl, rfl, rfl, rfl, hBusy, hPhase, hDomain, hPart, hKept, ?_⟩
    rw [hResets]
    exact hOnly

end Sys2Proof
end

section
/-!
PROOF. The wake of the AON domain and of the switched domains (13_power_domains_and_wake.md, 20_package_signals_and_electrical.md): what
AON power-up leaves, the ends of W1 to W3, and a domain's waits; O40 and O41 are assembled from them.
-/
namespace Sys2Proof.Machine

open Reg

theorem exec_aonResetPin (us : Nat) (straps : BitVec 6) (s : State) : exec (.aonResetPin us straps) s = execAonResetPin us straps s := rfl

theorem exec_sysOscQualified (s : State) : exec .sysOscQualified s = execSysOscQualified s := rfl

theorem exec_pllLock (d : Option Domain) (s : State) : exec (.pllLock d) s = execPllLock d s := rfl

theorem exec_bootImageLoaded (s : State) : exec .bootImageLoaded s = execBootImageLoaded s := rfl

theorem exec_wakeStepTimeout (d : Option Domain) (s : State) : exec (.wakeStepTimeout d) s = execWakeStepTimeout d s := rfl

theorem exec_wakeRetryOffEnd (d : Option Domain) (s : State) : exec (.wakeRetryOffEnd d) s = execWakeRetryOffEnd d s := rfl

theorem exec_pgoodLoss (d : Domain) (s : State) : exec (.pgoodLoss d) s = execPgoodLoss d s := rfl

theorem State.waitsFor_of_waits {s : State} {w : WakeWait} (h : s.pwr.waits = [w]) (a : WakeWait) : s.waitsFor a = decide (a = w) := by
  rw [State.waitsFor, h, List.contains_cons, List.contains_nil, Bool.or_false]
  rfl

/-! ### AON power-up: R290, R291, R340 -/

/-- What AON power-up settles: commands that wait, the mode, lists, resets and the power state. -/
def State.life (s : State) : List Instr × Nat × List RunList × HangSt × PwrSt := (s.pending, s.mode, s.lists, s.hang, s.pwr)

theorem State.life_of_still {s t : State} (h : t.still = s.still) : t.life = s.life :=
  show t.still.life = s.still.life from congrArg State.life h

theorem State.setPin_life (s : State) (l : PinLevel) : (s.setPin l).life = s.life := by
  unfold State.setPin
  split <;> rfl

theorem State.wr_life (s : State) (f : Fld) (v : Nat) : (s.wr f v).life = s.life := State.life_of_still (State.wr_still s f v)

theorem State.event_life (s : State) (f : Fld) : (s.event f).life = s.life := State.wr_life s f 1

theorem State.setOpen_life (s : State) (r : OpenRec) : (s.setOpen r).life = s.life := rfl

theorem State.life_evr (s : State) (x : EvrSt) : ({ s with evr := x } : State).life = s.life := rfl

theorem State.life_qtn (s : State) (x : QtnSt) : ({ s with qtn := x } : State).life = s.life := rfl

theorem State.counterUpdate_life (s : State) (f : CounterCopy → CounterCopy) : (s.counterUpdate f).life = s.life := rfl

theorem State.latchStraps_life (s : State) (straps : Nat) :
    (s.latchStraps straps).life = (s.life.1, if straps % 4 = 3 then 0 else straps % 4, s.life.2.2) := by
  unfold State.latchStraps
  exact State.life_of_still ((State.wr_still ..).trans ((State.wr_still ..).trans ((State.wr_still ..).trans
    ((State.wr_still ..).trans (State.setReg_still ..)))))

theorem State.showFuses_still (s : State) : s.showFuses.still = s.still := by
  have hDie : ∀ (t : State) (d : Nat),
      ((t.wr (pwrVsetVRated d) (Config.vRated d)).wr (pwrVsetMv d) (Config.vRated d)).still = t.still := fun t d =>
    (State.wr_still _ _ _).trans (State.wr_still _ _ _)
  simp only [State.showFuses]
  rw [foldl_keeps hDie, State.wr_still, State.wr_still, State.wr_still]

theorem State.loadMap_life (s : State) : s.loadMap.life = s.life := by
  unfold State.loadMap
  split
  · rw [State.wr_life]
    exact State.life_qtn _ _
  · rw [State.wr_life, State.event_life]

theorem State.loadRecorder_life (s : State) : s.loadRecorder.life = s.life := by
  simp only [State.loadRecorder]
  rw [State.setOpen_life, State.wr_life]
  refine (State.life_evr _ _).trans ?_
  rw [State.wr_life, apply_ite State.life, State.wr_life, ite_self, State.wr_life, State.wr_life, State.wr_life, apply_ite State.life,
    State.event_life, ite_self, State.wr_life, State.wr_life, State.wr_life, State.wr_life, State.counterUpdate_life]
  exact State.life_evr _ _

theorem State.divideSessions_still (s : State) : s.divideSessions.still = s.still := by
  have hPart : ∀ (t : State) (p : Nat), (((t.wr (medPartCfgSessFirst p) (p * (256 / partCount s.mode))).wr (medPartCfgSessCount p)
      (256 / partCount s.mode)).wr (medPartCfgSlots p) (32 / partCount s.mode)).still = t.still := fun t p =>
    (State.wr_still _ _ _).trans ((State.wr_still _ _ _).trans (State.wr_still _ _ _))
  exact foldl_keeps hPart _ _

/-- The power state in W1. -/
def PwrSt.inW1 (x : PwrSt) : PwrSt := { x with aon := true, wake := some .cold, waits := [.osc], attempts := [(12, 1)] }

theorem State.life_inW1 {t : State} {q : List Instr} {m : Nat} {l : List RunList} {x : HangSt} {y : PwrSt} (h : t.life = (q, m, l, x, y)) :
    (t.setPwr { t.pwr with aon := true, wake := some .cold, waits := [.osc], attempts := [(12, 1)] }).life = (q, m, l, x, y.inW1) := by
  cases h
  rfl

theorem State.life_session (s : State) (w : Word64) : ({ s with link := { s.link with session := w } } : State).life = s.life := rfl

theorem State.draw_life (s : State) : s.draw.2.life = s.life := rfl

theorem State.powerUp_life (s : State) (straps : Nat) : (s.powerUp straps).life =
    (s.pending, if straps % 4 = 3 then 0 else straps % 4, [], HangSt.reset,
      { PwrSt.reset with pgood := without s.pwr.pgood s.pwr.en }.inW1) := by
  simp only [State.powerUp]
  rw [State.life_of_still (State.showDomains_still _), State.wr_life]
  refine State.life_inW1 ?_
  rw [apply_ite State.life, State.wr_life, ite_self, State.life_of_still (State.divideSessions_still _), State.life_session,
    State.draw_life, State.loadRecorder_life, State.loadMap_life, State.life_of_still (State.showFuses_still _),
    State.latchStraps_life, State.setPin_life]
  rfl

/-! ### W1 to W3: R292, R293 -/

theorem execAonResetPin_short {us : Nat} (h : us < 2) (straps : BitVec 6) (s : State) : execAonResetPin us straps s = .next s := by
  simp [execAonResetPin, h]

theorem execAonResetPin_long {s : State} {us : Nat} (hAon : s.pwr.aon = true) (h : 10 ≤ us) (straps : BitVec 6) :
    execAonResetPin us straps s = .next (s.powerUp straps.toNat) := by
  have hLong : decide (us < 2) = false := decide_eq_false (by omega)
  simp only [execAonResetPin, hAon, hLong, Bool.not_true, Bool.or_self, Bool.false_eq_true, if_false, if_pos h]

theorem execAonResetPin_between {s : State} {us : Nat} (hAon : s.pwr.aon = true) (h : 2 ≤ us) (h10 : us < 10) (straps : BitVec 6) :
    execAonResetPin us straps s = .next (if s.draw.1.getLsbD 0 then s.draw.2.powerUp straps.toNat else s.draw.2) := by
  have hLong : decide (us < 2) = false := decide_eq_false (by omega)
  simp only [execAonResetPin, hAon, hLong, Bool.not_true, Bool.or_self, Bool.false_eq_true, if_false, if_neg (Nat.not_le.mpr h10)]

theorem execAonPowerLoss_on {s : State} (hAon : s.pwr.aon = true) :
    exec .aonPowerLoss s = .next (if s.on thmStatusTripped then s.unpowered.emit (.thermTrip false) else s.unpowered) := by
  rw [exec, execAonPowerLoss, hAon]
  rfl

theorem execSysOscQualified_waits {s : State} (hStop : s.pwr.stopWake = false) (h : s.waitsFor .osc = true) :
    execSysOscQualified s =
      .next ((((s.wr clkStatusOscOk 1).setWaits [.aonPll]).setAttempts 13 1).wr pwrWakeStatusStep 2) := by
  simp only [execSysOscQualified, h, hStop, Bool.not_true, Bool.false_eq_true, if_false]

theorem execSysOscQualified_idle {s : State} (h : s.waitsFor .osc = false) : execSysOscQualified s = .next s := by
  simp only [execSysOscQualified, h, Bool.not_false, if_true]

theorem execPllLock_aonWaits {s : State} (hStop : s.pwr.stopWake = false) (h : s.waitsFor .aonPll = true) :
    execPllLock none s =
      .next ((((s.wr clkStatusAonPll 1).setWaits [.boot]).setAttempts 14 1).wr pwrWakeStatusStep 3).wrapUp := by
  simp only [execPllLock, h, hStop, Bool.not_true, Bool.false_eq_true, if_false]

theorem execPllLock_aonIdle {s : State} (h : s.waitsFor .aonPll = false) : execPllLock none s = .next s.wrapUp := by
  simp only [execPllLock, h, Bool.not_false, if_true]

theorem execBootImageLoaded_idle {s : State} (h : s.waitsFor .boot = false) : execBootImageLoaded s = .next s.wrapUp := by
  simp only [execBootImageLoaded, h, Bool.not_false, if_true]

theorem execBootImageLoaded_warm {s : State} (h : s.waitsFor .boot = true) (hWarm : s.pwr.wake ≠ some .cold) :
    execBootImageLoaded s = .next ((s.startCores.setWaits []).hello).nextDomain.wrapUp := by
  simp only [execBootImageLoaded, h, Bool.not_true, Bool.false_eq_true, if_false, if_pos hWarm]

theorem execBootImageLoaded_cold {s s1 : State} (h : s.waitsFor .boot = true) (hCold : s.pwr.wake = some .cold)
    (hs1 : s1 = (s.startCores.setWaits []).hello) (hMap : s1.rd qtnEventMapLost = 0) :
    execBootImageLoaded s = .next (if s1.recheckPack.on sysStrapWakeHold then s1.recheckPack.wr pwrWakeStatusHeld 1
      else s1.recheckPack.nextDomain).wrapUp := by
  have hKept : s1.on qtnEventMapLost = false := State.on_of_rd_zero hMap
  rw [hs1] at hKept
  simp only [execBootImageLoaded, h, hCold, hKept, hs1, Bool.not_true, Bool.false_eq_true, if_false, ne_eq, not_true_eq_false]

theorem execWakeStepTimeout_osc {s : State} (h : s.pwr.waits = [.osc]) :
    execWakeStepTimeout none s = .next (s.failEarly 1 12 4).wrapUp := by
  simp [execWakeStepTimeout, State.waitsFor_of_waits h]

/-! ### A domain's wake: R289, R292, R295, R297 -/

theorem execPgoodRise_spec (s : State) (d : Domain) : exec (.pgoodRise d) s = .next
    (if s.waitsFor (.pgood d) then (s.setPwr { s.pwr with pgood := s.pwr.pgood ||| 2 ^ d.val }).replaceWait (.pgood d) (.pll d)
      else s.setPwr { s.pwr with pgood := s.pwr.pgood ||| 2 ^ d.val }) := rfl

/-- A domain's PLL locks: what follows by the domain. -/
theorem execPllLock_domain {s : State} {d : Domain} (h : s.waitsFor (.pll d) = true) : execPllLock (some d) s = .next
    (if d.val = 4 ∨ d.val = 5 then ((s.wrBit clkStatusPll d true).replaceWait (.pll d) (.training d)).nextDomain
      else if d.val = 7 ∨ d.val = 8 then (s.wrBit clkStatusPll d true).replaceWait (.pll d) (.serdes d)
      else (s.wrBit clkStatusPll d true).domainDone (.pll d) d).wrapUp := by
  simp only [execPllLock, h, Bool.not_true, Bool.false_eq_true, if_false]

theorem execWakeStepTimeout_pgood {s : State} {d : Domain} (h : s.pwr.waits = [.pgood d]) :
    execWakeStepTimeout (some d) s = .next (s.failAttempt (.pgood d) d 1).wrapUp := by
  simp only [execWakeStepTimeout, State.waitsFor_of_waits h, decide_true, if_true]

theorem execWakeStepTimeout_training {s : State} {d : Domain} (h : s.pwr.waits = [.training d]) :
    execWakeStepTimeout (some d) s = .next (s.failAttempt (.training d) d 3).wrapUp := by
  simp [execWakeStepTimeout, State.waitsFor_of_waits h]

theorem State.failAttempt_last {s : State} {d : Nat} (h : 3 ≤ s.attempts d) (w : WakeWait) (reason : Nat) :
    s.failAttempt w d reason = (s.dropWait w).failDomain d reason := by
  rw [State.failAttempt, if_pos h]

/-- Training and calibration start again in place. -/
theorem State.failAttempt_inPlace {s : State} {d : Nat} (h : s.attempts d < 3) (w : WakeWait) :
    s.failAttempt w d 3 = s.setAttempts d (s.attempts d + 1) := by
  rw [State.failAttempt, if_neg (Nat.not_le.mpr h), if_pos (Or.inl rfl)]

theorem State.failAttempt_off {s : State} {d reason : Nat} (h : s.attempts d < 3) (h3 : reason ≠ 3) (h6 : reason ≠ 6) (w : WakeWait) :
    s.failAttempt w d reason =
      let s1 := ((s.cutEnable d).wrBit clkStatusPll d false).replaceWait w (.retryOff d)
      s1.setPwr { s1.pwr with selfRefresh := without s1.pwr.selfRefresh (2 ^ d) } := by
  rw [State.failAttempt, if_neg (Nat.not_le.mpr h), if_neg (not_or.mpr ⟨h3, h6⟩)]

theorem execWakeRetryOffEnd_again {s : State} {d : Domain} (h : s.waitsFor (.retryOff d) = true) (hStop : s.pwr.stopWake = false)
    (hGood : s.pwr.pgood.testBit d = false) : execWakeRetryOffEnd (some d) s =
      .next (((s.setAttempts d (s.attempts d + 1)).enable d).replaceWait (.retryOff d) (.pgood d)).wrapUp := by
  have hGood' : (s.setAttempts d (s.attempts d + 1)).pwr.pgood.testBit d = false := hGood
  simp only [execWakeRetryOffEnd, h, hStop, hGood', Bool.not_true, Bool.not_false, Bool.false_eq_true, if_false, if_true]

theorem execPgoodLoss_on {s : State} {d : Domain} (h : s.domOn d = true) : execPgoodLoss d s =
    .next ((s.setPwr { s.pwr with pgood := without s.pwr.pgood (2 ^ d.val) }).loseDomain d).wrapUp := by
  simp only [execPgoodLoss, h, if_true]

theorem execPgoodLoss_off {s : State} {d : Domain} (h : s.domOn d = false) (hWaits : s.pwr.waits = [])
    (hRefresh : s.pwr.selfRefresh.testBit d = false) :
    execPgoodLoss d s = .next (s.setPwr { s.pwr with pgood := without s.pwr.pgood (2 ^ d.val) }).wrapUp := by
  simp only [execPgoodLoss, h, State.waitsFor, hWaits, List.contains_nil, hRefresh, Bool.false_eq_true, if_false]

/-- PWR_WAKE_RESULT takes the first failure since AON power-up. -/
theorem State.recordFail_first {s : State} (step dom reason n : Nat) (h : s.rd pwrWakeResultValid = 0) :
    ∃ t : State, t.rd pwrEventWakeFail = 1 ∧ s.recordFail step dom reason n =
      ((((t.wr pwrWakeResultValid 1).wr pwrWakeResultStep step).wr pwrWakeResultDomain dom).wr pwrWakeResultReason reason).wr
        pwrWakeResultAttempts n := by
  have hValid : (s.event pwrEventWakeFail).on pwrWakeResultValid = false :=
    State.on_of_rd_zero ((s.rd_event_apart (by decide) (by decide)).trans h)
  have hUnset : ∀ r, ((s.event pwrEventWakeFail).setOpen r).on pwrWakeResultValid = false := fun _ => hValid
  have hEvent : ∀ r, ((s.event pwrEventWakeFail).setOpen r).rd pwrEventWakeFail = 1 := fun _ =>
    s.rd_event_same (f := pwrEventWakeFail) (by decide) (by decide)
  simp only [State.recordFail, hUnset, Bool.false_eq_true, if_false]
  exact ⟨_, hEvent _, rfl⟩

/-- What the five fields of PWR_WAKE_RESULT read once written. -/
theorem State.rd_pwrWakeResult (t : State) {step dom reason n : Nat} (hStep : step < 16) (hDom : dom < 16) (hReason : reason < 16)
    (hn : n < 4) : let u := ((((t.wr pwrWakeResultValid 1).wr pwrWakeResultStep step).wr pwrWakeResultDomain dom).wr
      pwrWakeResultReason reason).wr pwrWakeResultAttempts n
    u.rd pwrWakeResultValid = 1 ∧ u.rd pwrWakeResultStep = step ∧ u.rd pwrWakeResultDomain = dom ∧
      u.rd pwrWakeResultReason = reason ∧ u.rd pwrWakeResultAttempts = n ∧ u.rd pwrEventWakeFail = t.rd pwrEventWakeFail := by
  refine ⟨?_, ?_, ?_, ?_, State.rd_wr_fits _ (by decide) hn, ?_⟩
  · simp (disch := decide) only [State.rd_wr_apart, State.rd_wr_fits]
  · simp (disch := decide) only [State.rd_wr_apart]
    exact State.rd_wr_fits _ (by decide) hStep
  · simp (disch := decide) only [State.rd_wr_apart]
    exact State.rd_wr_fits _ (by decide) hDom
  · simp (disch := decide) only [State.rd_wr_apart]
    exact State.rd_wr_fits _ (by decide) hReason
  · simp (disch := decide) only [State.rd_wr_apart]

end Sys2Proof.Machine

namespace Sys2Proof

open Machine Machine.Reg

/-- Settles O40: AON power-up, the reset pin, power loss, and the ends of W1 to W3. -/
theorem aonWake : Obligations.AonWake := by
  refine ⟨fun s straps hAon => ?powerUp, fun s straps u hu => ?settled, fun s us straps hAon => ?pin, fun s hAon => ?loss,
    fun s hStop => ⟨execSysOscQualified_waits hStop, execSysOscQualified_idle, execPllLock_aonWaits hStop, execPllLock_aonIdle⟩,
    fun s => ⟨execBootImageLoaded_idle, fun h hReset => execBootImageLoaded_warm h (by simp [hReset]),
      fun s1 h hCold hs1 hMap => ?cold⟩, fun s hWaits => ?timeout⟩
  case powerUp =>
    rw [exec, execAonPowerUp, hAon, if_neg Bool.false_ne_true]
  case settled =>
    have hLife := s.powerUp_life straps
    rw [hu] at hLife
    simp only [State.life, Prod.mk.injEq] at hLife
    obtain ⟨hPending, hMode, hLists, hHang, hPwr⟩ := hLife
    rw [hPending, hMode, hLists, hHang, hPwr]
    exact ⟨rfl, rfl, rfl, rfl, rfl, rfl, rfl, fun h => if_neg h, fun h => if_pos h⟩
  case pin =>
    rw [exec_aonResetPin]
    refine ⟨fun h => execAonResetPin_short h straps s, fun h => execAonResetPin_long hAon h straps, fun h h10 => ?_⟩
    rw [execAonResetPin_between hAon h h10]
    split
    · exact Or.inl rfl
    · exact Or.inr rfl
  case loss =>
    rw [execAonPowerLoss_on hAon]
    exact ⟨fun h => by rw [if_neg (by simp [State.on, h])], fun h => by rw [if_pos (State.on_of_rd_one h)]⟩
  case cold =>
    rw [exec_bootImageLoaded, execBootImageLoaded_cold h hCold hs1 hMap]
    exact ⟨fun h => by rw [if_pos (State.on_of_rd_one h)], fun h => by rw [if_neg (by simp [State.on, h])]⟩
  case timeout =>
    rw [exec_wakeStepTimeout, execWakeStepTimeout_osc hWaits, State.failEarly]
    exact ⟨fun h => by rw [if_pos h], fun h => by rw [if_neg (Nat.not_lt.mpr h)]⟩

/-- Settles O41: a domain's waits in order, its failed attempts, and the record of a failure. -/
theorem domainWake : Obligations.DomainWake := by
  refine ⟨fun s s1 d hs1 => ?pgood, fun s d hWaits => ?pll, fun s d hWaits => ?training, fun s d hWaits => ?serdes,
    fun s d hWaits => ?noPgood, fun s d hWaits hFew => ?noTraining,
    fun s d hWaits hStop hGood => execWakeRetryOffEnd_again hWaits hStop hGood, fun s d s1 hs1 => ?lost,
    fun s step dom reason n hStep hDom hReason hn hFirst => ?record⟩
  case pgood =>
    subst hs1
    rw [execPgoodRise_spec]
    exact ⟨fun h => by rw [if_pos (show s.waitsFor (.pgood d) = true from h)],
      fun h => by rw [if_neg (Bool.eq_false_iff.mp (show s.waitsFor (.pgood d) = false from h))]⟩
  case pll =>
    rw [exec_pllLock, execPllLock_domain hWaits]
    refine ⟨fun h => ?_, fun h => ?_, fun h => ?_⟩
    · obtain rfl | rfl := h <;> rfl
    · obtain rfl | rfl := h <;> rfl
    · have hVal : d.val < 4 ∨ d.val = 6 ∨ 9 ≤ d.val := h.imp_right (Or.imp_left (congrArg Fin.val))
      have h45 : ¬(d.val = 4 ∨ d.val = 5) := by omega
      have h78 : ¬(d.val = 7 ∨ d.val = 8) := by omega
      rw [if_neg h45, if_neg h78]
  case training => rw [exec, execHbmTrainingDone, if_pos hWaits]
  case serdes => rw [exec, execSerdesCalDone, if_pos hWaits]
  case noPgood =>
    rw [exec_wakeStepTimeout, execWakeStepTimeout_pgood hWaits]
    exact ⟨fun h => by rw [State.failAttempt_off h (by decide) (by decide)], fun h => by rw [State.failAttempt_last h]⟩
  case noTraining => rw [exec_wakeStepTimeout, execWakeStepTimeout_training hWaits, State.failAttempt_inPlace hFew]
  case lost =>
    subst hs1
    exact ⟨fun h => execPgoodLoss_on h, fun h hWaits hRefresh => execPgoodLoss_off h hWaits hRefresh⟩
  case record =>
    obtain ⟨t, hEvent, hRecord⟩ := State.recordFail_first step dom reason n hFirst
    obtain ⟨hV, hS, hD, hR, hN, hE⟩ := t.rd_pwrWakeResult hStep hDom hReason hn
    exact ⟨_, hRecord, hV, hS, hD, hR, hN, hE.trans hEvent⟩

end Sys2Proof
end

section
/-!
PROOF. Self-test and thermal management (14_power_up_self_test_and_repair.md, 15_thermal_management.md): ends of groups and of the
repair phase, an interruption, and samples, levels, the trip, RESUME and thresholds; O44 and O45 are assembled from them.
-/
namespace Sys2Proof.Machine

open Reg

theorem exec_bistGroupEnd (g : Fin 8) (fs : List BistFinding) (watts : Nat) (s : State) :
    exec (.bistGroupEnd g fs watts) s = execBistGroupEnd g fs watts s := rfl

theorem exec_thermalSample (rs : List (Option Int)) (droop : Nat) (s : State) :
    exec (.thermalSample rs droop) s = execThermalSample rs droop s := rfl

theorem exec_thermalTrip (sensor : Nat) (s : State) : exec (.thermalTrip sensor) s = execThermalTrip sensor s := rfl

theorem exec_thermalResume (path : Path) (s : State) : exec (.thermalResume path) s = .next (s.resume path).wrapUp := rfl

theorem exec_thresholdWrite (path : Path) (reg : Fin 3) (v : Word32) (s : State) :
    exec (.thresholdWrite path reg v) s = .next (s.writeThreshold path reg v.toNat) := rfl

/-! ### Groups: R310, R316 -/

/-- A running group ends with findings that are its own, of structures in domains that are on. -/
theorem execBistGroupEnd_running {s s0 s1 s3 s4 : State} {g : Fin 8} {fs : List BistFinding} {watts : Nat}
    (hWaits : s.waitsFor .selfTest = true) (hRun : s.bit bistStatusRun g = true) (hs0 : s0 = if g.val = 3 then s.applyRows else s)
    (hs1 : s1 = s0.wr bistPwrMaxWatts (Nat.max watts (s.rd bistPwrMaxWatts)))
    (hOwn : ∀ f ∈ fs, groupTests g f.code f.inst = true ∧
      (domOfStruct g f.code f.inst = 12 ∨ s1.domOn (domOfStruct g f.code f.inst) = true))
    (hs3 : s3 = ((fs.foldl (fun t f => t.takeFinding g f) s1).wrBit bistStatusRun g false).wrBit bistStatusDone g true)
    (hs4 : s4 = if g.val = 2 ∧ s3.domOn 11 = true then s3.startLoad else s3) :
    execBistGroupEnd g fs watts s = .next (s4.startGroups 9).wrapUp := by
  have hAll : fs.filter (fun f => groupTests g f.code f.inst &&
      (domOfStruct g f.code f.inst == 12 || s1.domOn (domOfStruct g f.code f.inst))) = fs := by
    refine List.filter_eq_self.mpr fun f hf => ?_
    obtain ⟨hGroup, hDom⟩ := hOwn f hf
    simpa [hGroup] using hDom
  simp only [execBistGroupEnd, hWaits, hRun, Bool.not_true, Bool.or_self, Bool.false_eq_true, if_false, ← hs0, ← hs1, hAll,
    ← hs3, ← hs4]

theorem execBistGroupEnd_idle {s : State} {g : Fin 8} (h : s.waitsFor .selfTest = false ∨ s.bit bistStatusRun g = false)
    (fs : List BistFinding) (watts : Nat) : execBistGroupEnd g fs watts s = .next s.wrapUp := by
  have hIdle : (!s.waitsFor .selfTest || !s.bit bistStatusRun g) = true := by
    obtain h | h := h <;> simp [h]
  simp only [execBistGroupEnd, hIdle, if_true]

theorem State.repair_repairs (s : State) (g action : Nat) (r : RepairEntry) (w : FailWord) :
    (s.repair g action r w).bist.repairs = s.bist.repairs ++ [r] := by
  rw [State.repair, State.count_bist, State.logBist, State.count_bist]
  rfl

theorem failRows_one (w : FailWord) (bank bit : Nat) : failRows [w] bank bit ≤ 1 := by
  unfold failRows
  refine (List.dedup_sublist _).length_le.trans ?_
  rw [List.length_map]
  exact List.length_filter_le _ _

/-- R316: one failing word of a bank with a free row is mended by that row. -/
theorem State.mendWords_freeRow {s : State} {code inst : Nat} {w : FailWord} {r : RepairEntry}
    (hr : r = ⟨code, true, false, inst, w.bank, w.row⟩) (h20 : code ≠ 0x20) (hMended : s.mended code inst w = false)
    (hFree : s.freeRow code inst w.bank = true) (g : Nat) : s.mendWords g code inst [w] [w] = (s.repair g 0 r w, none) := by
  have hFew : ¬(3 ≤ failRows [w] w.bank w.bit ∧ s.freeCol code inst w.bank = true) := fun h =>
    absurd (h.1.trans (failRows_one w w.bank w.bit)) (by decide)
  simp only [State.mendWords, hMended, Bool.false_eq_true, if_false, if_neg hFew, hFree, if_true, if_neg h20, hr]

theorem State.startGroups_overBudget {s : State} {g : Nat} (hg : s.nextGroup = some g) (h : 1200 < s.bistWatts + bistBudget g) (n : Nat) :
    s.startGroups n = s := by
  cases n with
  | zero => rfl
  | succ n => simp only [State.startGroups, hg, h, or_true, if_true]

/-! ### The repair phase and an interruption: R318, R319, R322 -/

/-- The repair phase ends once no group runs and none is left. -/
theorem execBistRepairPhaseEnd_ready {s s3 : State} {ms r : Nat} (hWaits : s.waitsFor .selfTest = true) (hRun : s.rd bistStatusRun = 0)
    (hLast : s.nextGroup = none ∨ s.bistHalted = true) (hUp : s.rmgDown = false)
    (hr : r = if s.bist.units ≠ [] then 2 else if s.bist.repairs ≠ [] then 1 else 0)
    (hs3 : s3 = ((((((s.appendRepairs.applyFindings).wr bistTimeMs (Nat.min 65535 ms)).wr bistStatusState 2).wr bistStatusResult r).wr
      sysStatusBistDone 1).dropWait .selfTest).showDomains) :
    (∀ reason dom, s3.bistOutcome = some (reason, dom) → execBistRepairPhaseEnd ms s = .next (s3.failBist dom reason).wrapUp) ∧
    (s3.bistOutcome = none → s3.pwr.stopWake = false → execBistRepairPhaseEnd ms s = .next (s3.finishWake false).wrapUp) ∧
    (s3.bistOutcome = none → s3.pwr.stopWake = true → execBistRepairPhaseEnd ms s = .next s3.wrapUp) := by
  have hReady : (!s.waitsFor .selfTest || s.rd bistStatusRun != 0 || !(s.nextGroup.isNone || s.bistHalted) || s.rmgDown) = false := by
    obtain hLast | hLast := hLast <;> simp [hWaits, hRun, hUp, hLast]
  simp only [execBistRepairPhaseEnd, hReady, Bool.false_eq_true, if_false, ← hr, ← hs3]
  refine ⟨fun reason dom h => ?_, fun h hStop => ?_, fun h hStop => ?_⟩
  · simp only [h]
  · simp only [h, hStop, Bool.false_eq_true, if_false]
  · simp only [h, hStop, if_true]

theorem State.abortBist_waiting {s : State} (h : s.waitsFor .selfTest = true) : s.abortBist =
    (let s1 := (((s.wr bistStatusRun 0).wr bistStatusState 3).event bistEventAborted).dropWait .selfTest
     s1.setPwr { s1.pwr with bistHold := 0xC }) := by
  simp only [State.abortBist, h, Bool.not_true, Bool.false_eq_true, if_false]

theorem State.dropWait_gone (s : State) (a : WakeWait) : (s.dropWait a).waitsFor a = false := by
  simp [State.waitsFor, State.dropWait, State.setWaits, State.setPwr]

/-- The end of the wait for self-test leaves registers, MRAM, the map and memory. -/
theorem State.heldWait_kept {s t : State} (h : t.still = s.still) (a : WakeWait) :
    let u := (t.dropWait a).setPwr { (t.dropWait a).pwr with bistHold := 0xC }
    (∀ f, u.rd f = t.rd f) ∧ u.waitsFor a = false ∧ u.pwr.bistHold = 0xC ∧ u.mram = s.mram ∧ u.qtn = s.qtn ∧ u.mem = s.mem :=
  ⟨fun _ => rfl, t.dropWait_gone a, rfl, show t.still.mram = s.still.mram by rw [h], show t.still.qtn = s.still.qtn by rw [h],
    show t.still.mem = s.still.mem by rw [h]⟩

/-- What an interruption of self-test shows. -/
theorem State.rd_bistAborted (s : State) :
    let u := ((s.wr bistStatusRun 0).wr bistStatusState 3).event bistEventAborted
    u.rd bistStatusRun = 0 ∧ u.rd bistStatusState = 3 ∧ u.rd bistEventAborted = 1 := by
  refine ⟨?_, ?_, State.rd_event_same _ (by decide) (by decide)⟩
  · rw [State.rd_event_apart _ (by decide) (by decide), State.rd_wr_apart _ _ (by decide) (by decide),
      State.rd_wr_fits _ (by decide) (by decide)]
  · rw [State.rd_event_apart _ (by decide) (by decide), State.rd_wr_fits _ (by decide) (by decide)]

/-! ### Samples and levels: R325–R328, R332 -/

theorem execThermalSample_early {s : State} {period : Nat} (hPeriod : period = if s.on thmStatusFast then 10 else 100)
    (h : s.tick < s.thm.sampled + period) (rs : List (Option Int)) (droop : Nat) :
    execThermalSample rs droop s = .next s.wrapUp := by
  simp only [execThermalSample, ← hPeriod, decide_eq_true h, Bool.or_true, if_true]

theorem execThermalSample_due {s s1 s2 s3 : State} {period : Nat} (hAon : s.pwr.aon = true)
    (hPeriod : period = if s.on thmStatusFast then 10 else 100) (h : s.thm.sampled + period ≤ s.tick) {rs : List (Option Int)}
    (hs1 : s1 = (List.range 120).foldl (fun t i => t.takeSensor i (rs.getD i none)) s)
    (hs2 : s2 = (s1.showMaxima.takeMode (s1.rd thmStatusState == 1)).takeLimits)
    (hs3 : s3 = (s2.newFails s).foldl (fun t i => t.reportThermal 6 (sensorDomain i) (t.levelOf (sensorDomain i))
      ((t.domMax (sensorDomain i)).getD 0) i) s2.takeLevels) (droop : Nat) :
    execThermalSample rs droop s =
      .next ((s3.setThm { s3.thm with highest := Nat.max s3.thm.highest s3.topLevel }).accumulate droop).actThermal.wrapUp := by
  have hDue : decide (s.tick < s.thm.sampled + period) = false := decide_eq_false (Nat.not_lt.mpr h)
  simp only [execThermalSample, ← hPeriod, hAon, hDue, Bool.not_true, Bool.or_self, Bool.false_eq_true, if_false, ← hs1, ← hs2,
    ← hs3]

theorem State.hysteresis_pos (s : State) (d : Nat) : 0 < s.hysteresis d := by
  have hOne : 1 ≤ Nat.min 10 (Nat.max 1 (s.rd (if d < 5 then thmHystDie else thmHystHbm))) :=
    Nat.le_min.mpr ⟨by decide, Nat.le_max_left ..⟩
  unfold State.hysteresis
  omega

/-- The level of a maximum below, between and above the thresholds. -/
theorem State.nextLevel_bands {s : State} {d old : Nat} {m : Int} (h12 : s.threshold d 1 < s.threshold d 2)
    (h23 : s.threshold d 2 < s.threshold d 3) :
    (m < s.threshold d 1 - s.hysteresis d → s.nextLevel d old m = 0) ∧
    (s.threshold d 3 ≤ m → s.nextLevel d old m = 3) ∧
    (s.threshold d 2 ≤ m → m < s.threshold d 3 - s.hysteresis d → s.nextLevel d old m = 2) ∧
    (old ≤ 1 → s.threshold d 1 ≤ m → m < s.threshold d 2 → s.nextLevel d old m = 1) ∧
    (s.threshold d 3 - s.hysteresis d ≤ m → s.nextLevel d 3 m = 3) := by
  have hPos := s.hysteresis_pos d
  simp only [State.nextLevel, Bool.or_eq_true, Bool.and_eq_true, decide_eq_true_eq]
  refine ⟨fun h => ?_, fun h => ?_, fun h h3 => ?_, fun hOld h h2 => ?_, fun h => ?_⟩
  · rw [if_neg (by omega), if_neg (by omega), if_neg (by omega)]
  · rw [if_pos (Or.inl h)]
  · rw [if_neg (by omega), if_pos (Or.inl h)]
  · rw [if_neg (by omega), if_neg (by omega), if_pos (Or.inl h)]
  · rw [if_pos (Or.inr ⟨le_refl 3, h⟩)]

theorem State.newLevel_failed {s : State} {d : Nat} (h : s.domMax d = none) : s.newLevel d = 2 := by
  simp only [State.newLevel, h]

theorem State.pct64_range (s : State) (d : Nat) : 25 * 64 ≤ s.pct64 d ∧ s.pct64 d ≤ 6400 := by
  unfold State.pct64
  split
  · decide
  · exact ⟨Nat.le_max_left .., Nat.max_le.mpr ⟨by decide, Nat.sub_le ..⟩⟩

theorem State.pct64_cool {s : State} {d : Nat} (hMax : ∀ x, x ∈ dieDomains d → (s.domMax x).isSome = true) (h : s.excess d = 0) :
    s.pct64 d = 6400 := by
  have hNone : ((dieDomains d).any (fun x => (s.domMax x).isNone)) = false :=
    List.any_eq_false.mpr fun x hx => by rw [Option.isNone_iff_eq_none]; exact Option.isSome_iff_ne_none.mp (hMax x hx)
  rw [State.pct64, hNone, if_neg Bool.false_ne_true, h, Nat.mul_zero]
  rfl

/-! ### The trip, RESUME and thresholds: R327, R333–R336 -/

theorem execThermalTrip_first {s s2 : State} {sensor : Nat} (hAon : s.pwr.aon = true) (h : s.rd thmStatusTripped = 0)
    (hs2 : s2 = ((({ ((s.wr thmStatusTripped 1).wr thmStatusTripSensor sensor).event thmEventTrip with
      mram := { s.mram with marker := some (sensor, s.rd evrSeqSeq) } }.wr evrStatusTripMark 1).emit (.thermTrip true)).powerGone)) :
    execThermalTrip sensor s = .next ((s2.setThm { s2.thm with stop := 0, owed := some sensor }).flushTrip).wrapUp := by
  have hSeq : (((s.wr thmStatusTripped 1).wr thmStatusTripSensor sensor).event thmEventTrip).rd evrSeqSeq = s.rd evrSeqSeq := by
    rw [State.rd_event_apart _ (by decide) (by decide), State.rd_wr_apart _ _ (by decide) (by decide),
      State.rd_wr_apart _ _ (by decide) (by decide)]
  have hMram : (((s.wr thmStatusTripped 1).wr thmStatusTripSensor sensor).event thmEventTrip).mram = s.mram :=
    (State.event_mram ..).trans ((State.wr_mram ..).trans (State.wr_mram ..))
  simp only [execThermalTrip, hAon, State.on_of_rd_zero h, Bool.not_true, Bool.or_self, Bool.false_eq_true, if_false, hSeq, hMram,
    ← hs2]

theorem execThermalTrip_later {s : State} (h : s.rd thmStatusTripped = 1) (sensor : Nat) :
    execThermalTrip sensor s = .next s.wrapUp := by
  simp only [execThermalTrip, State.on_of_rd_one h, Bool.or_true, if_true]

theorem State.resume_refused {s : State} (hAon : s.pwr.aon = true) (h : s.resumeOk = false) :
    s.resume .mgmt = s.event thmEventResumeRefused := by
  simp [State.resume, State.mgmtOrDebug, hAon, h]

theorem State.resume_begins {s : State} (hAon : s.pwr.aon = true) (h : s.resumeOk = true) (hWake : s.pwr.wake = none) :
    s.resume .mgmt = (s.reportDevice 7 0xFF s.topLevel).beginWake .resume := by
  simp [State.resume, State.mgmtOrDebug, hAon, h, hWake]

theorem State.writeThreshold_mgmt {s : State} {reg : Fin 3} {v warn throttle shutdown : Word32}
    (h : (warn, throttle, shutdown) = (if reg = 0 then (v, s.reg thmLimitThrottle, s.reg thmLimitShutdown)
      else if reg = 1 then (s.reg thmLimitWarn, v, s.reg thmLimitShutdown) else (s.reg thmLimitWarn, s.reg thmLimitThrottle, v))) :
    s.writeThreshold .mgmt reg v.toNat = if thresholdsOk warn.toNat throttle.toNat shutdown.toNat = true then
      s.setReg (if reg = 0 then thmLimitWarn else if reg = 1 then thmLimitThrottle else thmLimitShutdown)
        (BitVec.ofNat 32 (v.toNat % 65536)) else s.event thmEventCfgRefused := by
  match reg with
  | 0 => cases h; rfl
  | 1 => cases h; rfl
  | 2 => cases h; rfl

end Sys2Proof.Machine

namespace Sys2Proof

open Machine Machine.Reg

/-- Settles O44: groups, the repair phase, and an interruption of self-test. -/
theorem selfTest : Obligations.SelfTest := by
  refine ⟨fun s s0 s1 s3 s4 g fs watts hWaits hRun hs0 hs1 hOwn hs3 hs4 => execBistGroupEnd_running hWaits hRun hs0 hs1 hOwn hs3 hs4,
    fun s g code inst w r hr h20 _ hMended hFree => ⟨_, State.mendWords_freeRow hr h20 hMended hFree g, State.repair_repairs ..⟩,
    fun s g fs watts h => execBistGroupEnd_idle h fs watts, fun s s3 ms r hWaits hRun hLast hUp hr hs3 =>
      execBistRepairPhaseEnd_ready hWaits hRun hLast hUp hr hs3,
    fun s hWaits => ?aborted, fun s g n hg _ _ h => State.startGroups_overBudget hg h n⟩
  case aborted =>
    obtain ⟨hRun, hState, hEvent⟩ := s.rd_bistAborted
    obtain ⟨hRd, hGone, hHold, hMram, hQtn, hMem⟩ := State.heldWait_kept (s := s)
      (t := ((s.wr bistStatusRun 0).wr bistStatusState 3).event bistEventAborted)
      ((State.event_still ..).trans ((State.wr_still ..).trans (State.wr_still ..))) .selfTest
    exact ⟨_, State.abortBist_waiting hWaits, hGone, (hRd _).trans hRun, (hRd _).trans hState, (hRd _).trans hEvent, hHold,
      hMram, hQtn, hMem⟩

/-- Settles O45: samples, levels, the trip, RESUME and thresholds, a case each. -/
theorem thermalManagement : Obligations.ThermalManagement := by
  refine ⟨fun s rs droop period hAon hPeriod => ⟨fun h => execThermalSample_early hPeriod h rs droop,
      fun h s1 s2 s3 hs1 hs2 hs3 => execThermalSample_due hAon hPeriod h hs1 hs2 hs3 droop⟩,
    fun s d old m h12 h23 => State.nextLevel_bands h12 h23, fun s d h => State.newLevel_failed h,
    fun s d => ⟨(s.pct64_range d).1, (s.pct64_range d).2, State.pct64_cool⟩,
    fun s s2 sensor hAon hFirst hs2 => execThermalTrip_first hAon hFirst hs2, fun s sensor h => execThermalTrip_later h sensor,
    fun s hAon => ⟨fun h => ?refused, fun h hWake => ?begins⟩, fun s f => rfl, fun s reg v warn throttle shutdown h => ?threshold,
    fun s f reg v => rfl⟩
  case refused => rw [exec_thermalResume, State.resume_refused hAon h]
  case begins => rw [exec_thermalResume, State.resume_begins hAon h hWake]
  case threshold =>
    rw [exec_thresholdWrite, State.writeThreshold_mgmt h]
    exact ⟨fun hOk => by rw [if_pos hOk], fun hBad => by rw [if_neg (by rw [hBad]; exact Bool.false_ne_true)]⟩

end Sys2Proof
end

section
/-!
PROOF. The event recorder and the status panel (16_event_recorder_and_status_panel.md): closing events, the write of a record, and panel
updates; O46 is assembled from them.
-/
namespace Sys2Proof.Machine

open Reg

theorem exec_evrFlush (path : Path) (s : State) : exec (.evrFlush path) s = execEvrFlush path s := rfl

theorem exec_evrRecordWritten (s : State) : exec .evrRecordWritten s = .next s.recordWritten := rfl

theorem exec_panelUpdateStart (s : State) : exec .panelUpdateStart s = execPanelUpdateStart s := rfl

theorem exec_panelUpdateNow (path : Path) (s : State) : exec (.panelUpdateNow path) s = execPanelUpdateNow path s := rfl

theorem exec_panelData (via : CmdVia) (offset : Nat) (bs : List Byte) (s : State) : exec (.panelData via offset bs) s =
    .next (s.command via 0x0A30 (leBytes 2 offset ++ bs) (fun t =>
      if bs = [] ∨ 1008 < bs.length then (8, t)
      else (0, { t with evr := { t.evr with candidate := patch t.evr.candidate (offset % 65536) bs } }))) := rfl

theorem exec_panelCommit (via : CmdVia) (s : State) : exec (.panelCommit via) s =
    .next (s.command via 0x0A31 [] (fun t =>
      if !scriptOk t.evr.candidate then (8, t)
      else if !t.mramOk then (3, t)
      else (0, { t with mram := { t.mram with script := t.evr.candidate.take (field t.evr.candidate 18 2) } }.wr
        pnlStatusNoScript 0))) := rfl

/-! ### Closing events: R342, R346 -/

theorem execEvrFlush_open {s : State} (hAon : s.pwr.aon = true) (h : s.pwr.failSeen = false) :
    execEvrFlush .mgmt s = .next (s.closing 4 0 0 0) := by
  simp [execEvrFlush, State.mgmtOrDebug, hAon, h]

theorem execEvrFlush_failed {s : State} (h : s.pwr.failSeen = true) (path : Path) : execEvrFlush path s = .next s := by
  simp [execEvrFlush, h]

theorem State.startWrite_nil {s : State} (h : s.evr.queue = []) : s.startWrite = s := by
  unfold State.startWrite
  split
  next => rfl
  next hQueue => rw [h] at hQueue; cases hQueue

theorem State.startWrite_busy {s : State} (h : s.evr.writing.isSome = true) : s.startWrite = s := by
  unfold State.startWrite
  split
  · rfl
  · rw [h, Bool.true_or, if_pos rfl]

/-- One event waits and no write is in progress: the open record closes, and its write begins. -/
theorem State.startWrite_one {s : State} {c : Closing} (hQueue : s.evr.queue = [c]) (hWriting : s.evr.writing = none)
    (hUp : s.rmgDown = false) : s.startWrite =
      (({ s with evr := { s.evr with
          writing := some (s.rd evrSeqSeq, c.kind, sealRecord (s.recordBody c.kind (s.rd evrSeqSeq) c.job c.part)),
          queue := [], open' := s.freshRec } } : State).wr evrSeqSeq (s.rd evrSeqSeq + 1)).wr evrStatusWriting 1 := by
  simp only [State.startWrite, hQueue, hWriting, hUp, Option.isSome_none, Bool.or_self, Bool.false_eq_true, if_false]

/-- A closing event before PWR_FAIL_N joins those that wait. -/
theorem State.closing_joins {s : State} (h : s.pwr.failSeen = false) (kind job part entry : Nat) :
    s.closing kind job part entry =
      ({ s with evr := { s.evr with queue := insertClosing ⟨kind, job, part, entry, s.tick⟩ s.evr.queue } } : State).startWrite := by
  rw [State.closing, h, Bool.false_and, if_neg Bool.false_ne_true]

/-- What the write of a record leaves as the recorder's state. -/
def State.writingRecord (s : State) (kind job part : Nat) : EvrSt :=
  { s.evr with writing := some (s.rd evrSeqSeq, kind, sealRecord (s.recordBody kind (s.rd evrSeqSeq) job part)), queue := [],
               open' := s.freshRec }

theorem State.closing_alone {s : State} (h : s.pwr.failSeen = false) (hWriting : s.evr.writing = none) (hQueue : s.evr.queue = [])
    (hUp : s.rmgDown = false) (kind job part entry : Nat) : s.closing kind job part entry =
      (({ s with evr := s.writingRecord kind job part } : State).wr evrSeqSeq (s.rd evrSeqSeq + 1)).wr evrStatusWriting 1 := by
  rw [State.closing_joins h, hQueue]
  exact State.startWrite_one (c := ⟨kind, job, part, entry, s.tick⟩) rfl hWriting hUp

theorem insertClosing_cons {c d : Closing} (h : c.tick = d.tick) (l : List Closing) :
    insertClosing c (d :: l) = if c.rank < d.rank then c :: d :: l else d :: insertClosing c l := by
  simp [insertClosing, h]

/-! ### The end of a record's write: R345 -/

theorem MramSt.counters_update (m : MramSt) (f : CounterCopy → CounterCopy) :
    (m.update f).counters = { f m.counters with gen := m.counters.gen + 1, crcOk := true } := by
  unfold MramSt.update
  by_cases h : (m.count1.crcOk && (!m.count0.crcOk || decide (m.count0.gen < m.count1.gen))) = true
  · simp [h, MramSt.counters]
  · simp [h, MramSt.counters]

/-- MRAM once the record `bs` of SEQ `seq` is written. -/
def MramSt.recorded (m : MramSt) (seq kind : Nat) (bs : List Byte) : MramSt :=
  let m1 := { m with ring := m.ring.set (fun _ => []) (seq % 1536) bs, bad := m.bad.filter (· ≠ seq % 1536) }
  let m2 := m1.update (fun c => { c with seq := seq + 1, sessionOpen := c.sessionOpen && kind != 1 })
  if (field bs 16 2).testBit 1 then { m2 with marker := none } else m2

theorem MramSt.recorded_ring (m : MramSt) (seq kind : Nat) (bs : List Byte) :
    (m.recorded seq kind bs).ring = m.ring.set (fun _ => []) (seq % 1536) bs := by
  have hUpdate : ∀ (n : MramSt) (f : CounterCopy → CounterCopy), (n.update f).ring = n.ring := by
    intro n f
    unfold MramSt.update
    split <;> rfl
  simp only [MramSt.recorded]
  split
  · exact hUpdate _ _
  · exact hUpdate _ _

theorem MramSt.recorded_counters (m : MramSt) (seq kind : Nat) (bs : List Byte) :
    (m.recorded seq kind bs).counters.gen = m.counters.gen + 1 ∧ (m.recorded seq kind bs).counters.seq = seq + 1 := by
  have hMarker : (m.recorded seq kind bs).counters =
      (({ m with ring := m.ring.set (fun _ => []) (seq % 1536) bs, bad := m.bad.filter (· ≠ seq % 1536) } : MramSt).update
        (fun c => { c with seq := seq + 1, sessionOpen := c.sessionOpen && kind != 1 })).counters := by
    simp only [MramSt.recorded]
    split <;> rfl
  rw [hMarker, MramSt.counters_update]
  exact ⟨rfl, rfl⟩

/-- The record stands in its slot; with no event waiting nothing more is written. -/
theorem State.recordWritten_one {s : State} {seq kind : Nat} {bs : List Byte} (h : s.evr.writing = some (seq, kind, bs))
    (hQueue : s.evr.queue = []) (hUp : s.rmgDown = false) :
    ∃ trip oldest, s.recordWritten =
      (((({ s with mram := s.mram.recorded seq kind bs, evr := { s.evr with writing := none } } : State).event
        evrEventWritten).wr evrStatusWriting 0).wr evrStatusTripMark trip).wr evrOldestSeq oldest := by
  simp only [State.recordWritten, hUp, Bool.false_eq_true, if_false, h]
  refine ⟨_, _, State.startWrite_nil ?_⟩
  rw [State.evr_of_still (State.wr_still ..), State.evr_of_still (State.wr_still ..), State.evr_of_still (State.wr_still ..),
    State.evr_of_still (State.event_still ..)]
  exact hQueue

/-- What the registers show after the write of a record. -/
theorem State.rd_recordWritten (t : State) (trip oldest : Nat) :
    let u := (((t.event evrEventWritten).wr evrStatusWriting 0).wr evrStatusTripMark trip).wr evrOldestSeq oldest
    u.rd evrEventWritten = 1 ∧ u.rd evrStatusWriting = 0 ∧ u.still = t.still := by
  refine ⟨?_, ?_, ?_⟩
  · rw [State.rd_wr_apart _ _ (by decide) (by decide), State.rd_wr_apart _ _ (by decide) (by decide),
      State.rd_wr_apart _ _ (by decide) (by decide), State.rd_event_same _ (by decide) (by decide)]
  · rw [State.rd_wr_apart _ _ (by decide) (by decide), State.rd_wr_apart _ _ (by decide) (by decide),
      State.rd_wr_fits _ (by decide) (by decide)]
  · rw [State.wr_still, State.wr_still, State.wr_still, State.event_still]

/-! ### The panel: R351–R356 -/

theorem execPanelUpdateStart_held {s : State} (h : s.panelFree = false) : execPanelUpdateStart s = .next s := by
  simp [execPanelUpdateStart, h]

theorem execPanelUpdateStart_first {s : State} (h : s.panelFree = true) (hDue : s.panelDue = true) (hEnd : s.evr.lastEnd = none) :
    execPanelUpdateStart s = .next s.startUpdate := by
  simp only [execPanelUpdateStart, h, hDue, hEnd, Bool.and_self, if_true]

theorem execPanelUpdateStart_gap {s : State} {t : Nat} (hEnd : s.evr.lastEnd = some t) (h : s.tick < t + 100 * s.rd pnlCfgMinGap) :
    execPanelUpdateStart s = .next s := by
  have hEarly : decide (t + 100 * s.rd pnlCfgMinGap ≤ s.tick) = false := decide_eq_false (Nat.not_le.mpr h)
  simp only [execPanelUpdateStart, hEnd, hEarly, Bool.and_false, Bool.false_eq_true, if_false]

theorem execPanelUpdateNow_mgmt (s : State) : execPanelUpdateNow .mgmt s = .next (if s.panelFree then s.startUpdate else s) := rfl

theorem execPanel_busy {s : State} {ms : Nat} (h : s.evr.wait = some (.busy ms)) : exec .panelBusyRelease s = .next s.panelGo ∧
    exec .panelDelayExpiry s = .next s ∧ exec .panelBusyTimeout s = .next (s.failUpdate pnlEventTimeout) := by
  refine ⟨?_, ?_, ?_⟩
  · rw [exec, execPanelBusyRelease, h]
  · rw [exec, execPanelDelayExpiry, h]
  · rw [exec, execPanelBusyTimeout, h]

theorem execPanel_delay {s : State} {ms : Nat} (h : s.evr.wait = some (.delay ms)) : exec .panelDelayExpiry s = .next s.panelGo ∧
    exec .panelBusyRelease s = .next s ∧ exec .panelBusyTimeout s = .next s := by
  refine ⟨?_, ?_, ?_⟩
  · rw [exec, execPanelDelayExpiry, h]
  · rw [exec, execPanelBusyRelease, h]
  · rw [exec, execPanelBusyTimeout, h]

/-- The recorder's state after a failed update. -/
def State.updateFailed (s : State) : State :=
  s.setEvr { s.evr with todo := [], pc := none, wait := none, lastEnd := some s.tick, fails := s.evr.fails + 1 }

/-- The failure shows, the whole panel is due again, and a third failure in a row stops updates. -/
theorem State.failUpdate_shows (s : State) :
    (s.failUpdate pnlEventTimeout).rd pnlStatusStep = 0 ∧ (s.failUpdate pnlEventTimeout).rd pnlEventTimeout = 1 ∧
    (s.failUpdate pnlEventTimeout).rd pnlCfgFull = 1 ∧ (2 ≤ s.evr.fails → (s.failUpdate pnlEventTimeout).rd pnlStatusFailed = 1) ∧
    (s.failUpdate pnlEventTimeout).still = s.updateFailed.still := by
  have hShown : ∀ t : State, let u := ((t.event pnlEventTimeout).wr pnlCfgFull 1).wr pnlStatusStep 0
      u.rd pnlStatusStep = 0 ∧ u.rd pnlEventTimeout = 1 ∧ u.rd pnlCfgFull = 1 ∧ u.still = t.still := by
    intro t
    refine ⟨State.rd_wr_fits _ (by decide) (by decide), ?_, ?_, ?_⟩
    · rw [State.rd_wr_apart _ _ (by decide) (by decide), State.rd_wr_apart _ _ (by decide) (by decide),
        State.rd_event_same _ (by decide) (by decide)]
    · rw [State.rd_wr_apart _ _ (by decide) (by decide), State.rd_wr_fits _ (by decide) (by decide)]
    · rw [State.wr_still, State.wr_still, State.event_still]
  obtain ⟨hStep, hTimeout, hFull, hStill⟩ := hShown s.updateFailed
  have hFail : s.failUpdate pnlEventTimeout = if 3 ≤ s.evr.fails + 1
      then (((s.updateFailed.event pnlEventTimeout).wr pnlCfgFull 1).wr pnlStatusStep 0).wr pnlStatusFailed 1
      else ((s.updateFailed.event pnlEventTimeout).wr pnlCfgFull 1).wr pnlStatusStep 0 := rfl
  rw [hFail]
  split
  · exact ⟨(State.rd_wr_apart _ _ (by decide) (by decide)).trans hStep, (State.rd_wr_apart _ _ (by decide) (by decide)).trans hTimeout,
      (State.rd_wr_apart _ _ (by decide) (by decide)).trans hFull, fun _ => State.rd_wr_fits _ (by decide) (by decide),
      (State.wr_still ..).trans hStill⟩
  · exact ⟨hStep, hTimeout, hFull, fun _ => by omega, hStill⟩

end Sys2Proof.Machine

namespace Sys2Proof

open Machine Machine.Reg

/-- Settles O46: closing events, the write of a record, and panel updates, a case each. -/
theorem recorderAndPanel : Obligations.RecorderAndPanel := by
  refine ⟨⟨fun s hAon => ⟨execEvrFlush_open hAon, fun h => execEvrFlush_failed h .mgmt⟩, fun s f => rfl,
      fun s c w hFail hWriting hTick => ?joins, fun s kind job part entry hFail hWriting hQueue hUp => ?closes,
      fun c d l hTick => ?order, fun s h => ?idle, fun s seq kind bs h hQueue hUp => ?written⟩,
    ⟨fun s h => ⟨execPanelUpdateStart_held h, by rw [exec_panelUpdateNow, execPanelUpdateNow_mgmt, h, if_neg Bool.false_ne_true]⟩,
      fun s h => ⟨by rw [exec_panelUpdateNow, execPanelUpdateNow_mgmt, if_pos h], execPanelUpdateStart_first h,
        fun t hEnd hGap => execPanelUpdateStart_gap hEnd hGap⟩,
      fun s ms h => execPanel_busy h, fun s ms h => execPanel_delay h, fun s => ?fails, fun s hAon => ?clear,
      fun s t via offset bs h hUp hSome hFit => ?data, fun s t via h hUp => ?commit⟩⟩
  case joins =>
    have hc : (⟨c.kind, c.job, c.part, c.entry, s.tick⟩ : Closing) = c := by rw [← hTick]
    rw [State.closing_joins hFail, hc]
    exact State.startWrite_busy (show s.evr.writing.isSome = true by rw [hWriting]; rfl)
  case closes =>
    have hStill := (State.wr_still (({ s with evr := s.writingRecord kind job part } : State).wr evrSeqSeq (s.rd evrSeqSeq + 1))
      evrStatusWriting 1).trans (State.wr_still ..)
    refine ⟨_, State.closing_alone hFail hWriting hQueue hUp kind job part entry, ?_, State.rd_wr_fits _ (by decide) (by decide), ?_, ?_,
      by rw [State.mram_of_still hStill], by rw [State.mem_of_still hStill], by rw [State.lists_of_still hStill]⟩ <;>
    · rw [State.evr_of_still hStill]
      rfl
  case order =>
    rw [insertClosing_cons hTick]
    exact ⟨fun h => if_pos h, fun h => if_neg (Nat.not_lt.mpr h)⟩
  case idle => rw [exec_evrRecordWritten, State.recordWritten, h, ite_self]
  case written =>
    obtain ⟨trip, oldest, hWritten⟩ := State.recordWritten_one h hQueue hUp
    obtain ⟨hEvent, hStatus, hStill⟩ := ({ s with mram := s.mram.recorded seq kind bs, evr := { s.evr with writing := none } } :
      State).rd_recordWritten trip oldest
    have hMram := State.mram_of_still hStill
    refine ⟨_, by rw [exec_evrRecordWritten, hWritten], by rw [State.evr_of_still hStill], ?_, fun i hi => ?_, hEvent, hStatus, ?_, ?_,
      by rw [State.mem_of_still hStill], by rw [State.lists_of_still hStill]⟩ <;> rw [hMram]
    · rw [MramSt.recorded_ring, SMap.get_set_same]
    · rw [MramSt.recorded_ring, SMap.get_set_ne _ _ _ hi]
    · exact (s.mram.recorded_counters seq kind bs).1
    · exact (s.mram.recorded_counters seq kind bs).2
  case fails =>
    obtain ⟨hStep, hTimeout, hFull, hFailed, hStill⟩ := s.failUpdate_shows
    exact ⟨_, rfl, hStep, hTimeout, hFull, by rw [State.evr_of_still hStill]; rfl,
      by rw [State.mram_of_still hStill]; rfl, hFailed⟩
  case clear => rw [exec, execPanelClearFailed, hAon]; rfl
  case data =>
    rw [exec_panelData, State.command_served h hUp, if_neg (not_or.mpr ⟨hSome, Nat.not_lt.mpr hFit⟩)]
  case commit =>
    rw [exec_panelCommit, State.command_served h hUp]
    refine ⟨fun hBad => ?_, fun hOk hMram => ?_⟩
    · simp only [hBad, Bool.not_false, if_true]
    · simp only [hOk, hMram, Bool.not_true, Bool.false_eq_true, if_false]

end Sys2Proof
end

section
/-!
PROOF. Trace channels, drains, counters and samples (19_trace_counters_and_debug.md); O51 is assembled from the lemmas on each command.
-/
namespace Sys2Proof.Machine

open Reg

theorem exec_traceChannelEnable (path : Path) (p : Part) (c : Chan) (v : Word32) (s : State) :
    exec (.traceChannelEnable path p c v) s = .next (s.enableChan path p c v.toNat).wrapUp := rfl

theorem exec_traceChannelDisable (path : Path) (p : Part) (c : Chan) (v : Word32) (s : State) :
    exec (.traceChannelDisable path p c v) s = .next (s.disableChan path p c v.toNat) := rfl

theorem exec_traceChannelStopped (p : Part) (c : Chan) (s : State) :
    exec (.traceChannelStopped p c) s = .next (s.stopChan p c).wrapUp := rfl

theorem exec_traceDrain (path : Path) (p : Part) (s : State) : exec (.traceDrain path p) s = .next (s.startDrain path p) := rfl

theorem exec_traceDrainDone (p : Part) (s : State) : exec (.traceDrainDone p) s = execTraceDrainDone p s := rfl

theorem exec_counterClear (path : Path) (v : Word32) (s : State) :
    exec (.counterClear path v) s = .next (s.writeCntCtl path v.toNat) := rfl

theorem exec_counterSample (s : State) : exec .counterSample s = .next s.counterSample := rfl

/-! ### Channels: R414, R418 -/

theorem State.enableChan_notOwned {s : State} {path : Path} {p : Nat} (h : s.ownsPart path p = false) (c v : Nat) :
    s.enableChan path p c v = s := by
  simp [State.enableChan, h]

theorem State.enableChan_enabled {s : State} {p c : Nat} (h : s.rd (trcChCtlEn p c) = 1) (path : Path) (v : Nat) :
    s.enableChan path p c v = s := by
  simp [State.enableChan, State.on_of_rd_one h]

theorem State.enableChan_idle {s : State} {path : Path} {p c : Nat} (hOwns : s.ownsPart path p = true) (h : s.rd (trcChCtlEn p c) = 0)
    (v : Nat) : s.enableChan path p c v = if s.badArea p c then s.wr (trcChStatusCfgErr p c) 1
      else ((s.traceFlush p c).writeChanCtl p c v).startChan p c := by
  simp only [State.enableChan, hOwns, State.on_of_rd_zero h, Bool.not_true, Bool.or_self, Bool.false_eq_true, if_false]

theorem State.disableChan_notOwned {s : State} {path : Path} {p : Nat} (h : s.ownsPart path p = false) (c v : Nat) :
    s.disableChan path p c v = s := by
  simp [State.disableChan, h]

theorem State.disableChan_idle {s : State} {path : Path} {p c : Nat} (hOwns : s.ownsPart path p = true) (h : s.rd (trcChCtlEn p c) = 0)
    (v : Nat) : s.disableChan path p c v = s.writeChanCtl p c v := by
  simp only [State.disableChan, hOwns, State.on_of_rd_zero h, Bool.not_true, Bool.false_eq_true, if_false]

theorem State.disableChan_enabled {s : State} {path : Path} {p c : Nat} (hOwns : s.ownsPart path p = true)
    (h : s.rd (trcChCtlEn p c) = 1) (v : Nat) : s.disableChan path p c v =
      (s.wr (trcChCtlEn p c) 0).setTraceCh p c { s.traceCh p c with stopping := true } := by
  simp only [State.disableChan, State.closeChan, hOwns, State.on_of_rd_one h, Bool.not_true, Bool.false_eq_true, if_false, if_true]

theorem State.traceCh_setTraceCh_same (s : State) (p c : Nat) (x : TraceSt) : (s.setTraceCh p c x).traceCh p c = x :=
  SMap.get_set_same s.dbg.trace (fun _ => TraceSt.reset) (p * 8 + c) x

theorem State.traceFlush_empty {s : State} {p c : Nat} (h : (s.traceCh p c).buffer = []) :
    s.traceFlush p c = s.setTraceCh p c (s.traceCh p c) := by
  have hSame : { s.traceCh p c with buffer := [] } = s.traceCh p c := by rw [← h]
  simp only [State.traceFlush, h, List.foldl_nil]
  rw [← h]

/-- A stopping channel without a buffered record stops. -/
theorem State.stopChan_empty {s : State} {p c : Nat} (hStopping : (s.traceCh p c).stopping = true) (h : (s.traceCh p c).buffer = []) :
    s.stopChan p c = ((s.setTraceCh p c (s.traceCh p c)).setTraceCh p c { s.traceCh p c with stopping := false }).wr
      (trcChStatusStopped p c) 1 := by
  simp only [State.stopChan, hStopping, if_true, State.traceFlush_empty h, State.traceCh_setTraceCh_same]

theorem State.traceCh_wr (s : State) (f : Fld) (v p c : Nat) : (s.wr f v).traceCh p c = s.traceCh p c := rfl

theorem State.wr_withDbg (s : State) (x : DbgSt) (f : Fld) (v : Nat) :
    ({ ({ s with dbg := x } : State).wr f v with dbg := s.dbg } : State) = s.wr f v := rfl

/-! ### Drains: R422 -/

theorem State.startDrain_notOwned {s : State} {path : Path} {p : Nat} (h : s.ownsPart path p = false) : s.startDrain path p = s := by
  simp [State.startDrain, h]

theorem State.startDrain_idle {s : State} {path : Path} {p : Nat} (hOwns : s.ownsPart path p = true)
    (h : s.rd (trcDrainStatusBusy p) = 0) : s.startDrain path p =
      if s.drainOk p then s.wr (trcDrainStatusBusy p) 1 else s.wr (trcDrainStatusResult p) 1 := by
  simp only [State.startDrain, hOwns, State.on_of_rd_zero h, Bool.not_true, Bool.or_self, Bool.false_eq_true, if_false]

theorem execTraceDrainDone_idle {s : State} {p : Part} (h : s.rd (trcDrainStatusBusy p) = 0) :
    execTraceDrainDone p s = .next s.wrapUp := by
  simp [execTraceDrainDone, State.on_of_rd_zero h]

/-- The lines of a drain, first to last, and whether one of them was bad. -/
def State.drainLines (s : State) (p n : Nat) : State × Bool :=
  (List.range n).foldl (fun (t : State × Bool) i => ((t.1.drainLine p i).1, t.2 || (t.1.drainLine p i).2)) (s, false)

theorem execTraceDrainDone_busy {s t : State} {p : Part} {bad : Bool} (h : s.rd (trcDrainStatusBusy p) = 1)
    (hLines : s.drainLines p (s.rd (trcDrainLenLen p)) = (t, bad)) : execTraceDrainDone p s =
      .next ((t.wr (trcDrainStatusBusy p) 0).wr (trcDrainStatusResult p) (if bad then 2 else 0)).wrapUp := by
  unfold State.drainLines at hLines
  simp only [execTraceDrainDone, State.on_of_rd_one h, Bool.not_true, Bool.false_eq_true, if_false, hLines]

theorem State.drainLine_read {s : State} {p i a : Nat} {bs : List Byte} {fs : List Nat}
    (ha : a = s.traceOf p * 4096 + s.rd (trcDrainSrcOfs p) * 64 + 64 * i)
    (h : s.readTagged (tagOf 0 0 0xFFFFF 0xB 0 0 p) a 64 = some (bs, fs)) :
    s.drainLine p i = ((s.touchTagged (tagOf 0 0 0xFFFFF 0xB 0 0 p) none a 64).storeTagged (tagOf 0 0 0xFFFFF 0xB 0 3 p) (fs != [])
      (s.drainDst p + 64 * i) bs, fs != []) := by
  simp only [State.drainLine, ← ha, h, State.drainTo]

/-! ### Counters: R423 -/

theorem State.advEs_frozen {s : State} {d : Nat} (h : s.frozen d = true) (j : Nat) : s.advEs d j = s := by
  simp only [State.advEs, h, Bool.true_or, if_true]

theorem State.advCl_frozen {s : State} {u : Nat} (h : s.frozen (u / 168) = true) (j : Nat) : s.advCl u j = s := by
  simp only [State.advCl, h, Bool.true_or, if_true]

theorem State.advDie_frozen {s : State} {d : Nat} (h : s.frozen d = true) : s.advDie d = s := by
  have hEs : s.advEsAll d = s := foldl_same _ s _ fun j _ => State.advEs_frozen h j
  rw [State.advDie, hEs]
  refine foldl_same _ s _ fun i hi => foldl_same _ s _ fun j _ => State.advCl_frozen ?_ j
  rw [show (d * 168 + i) / 168 = d by have := List.mem_range.mp hi; omega]
  exact h

theorem State.advAt_frozen {s : State} (h : ∀ d, d < 4 → s.frozen d = true) : s.advAt cntCtl = s := by
  rw [State.advAt, if_pos rfl]
  exact foldl_same _ s _ fun d hd => State.advDie_frozen (h d (List.mem_range.mp hd))

/-- The freezing that a write of CNT_CTL over management leaves. -/
def State.freezeBy (s : State) (v : Nat) : State := (List.range 4).foldl (fun t d => t.wrBit cntCtlFreeze d (v.testBit d)) s

theorem State.freezeBy_bit (s : State) (v : Nat) {x : Nat} (h : x < 4) : (s.freezeBy v).bit cntCtlFreeze x = v.testBit x := by
  rw [State.freezeBy, State.bit_foldl_wrBit _ _ _ (by decide) h, if_pos (List.mem_range.mpr h)]

theorem State.onlyFields_foldl_wrBit (l : List Nat) (b : Nat → Bool) {s t : State} {f : Fld} (hw : f.lo + f.width ≤ 32)
    (h : s.onlyFields [f] t) : s.onlyFields [f] (l.foldl (fun t i => t.wrBit f i (b i)) t) := by
  induction l generalizing t with
  | nil => exact h
  | cons i l ih => exact ih (State.onlyFields_wr h f _ (List.mem_singleton.mpr rfl) hw)

theorem State.freezeBy_onlyFields (s : State) (v : Nat) : s.onlyFields [cntCtlFreeze] (s.freezeBy v) :=
  State.onlyFields_foldl_wrBit _ _ (by decide) (State.onlyFields_refl _ _)

theorem State.writeCntCtl_mgmt (s : State) (v : Nat) : s.writeCntCtl .mgmt v =
    ((List.range 4).filter (fun d => v.testBit (4 + d))).foldl (fun t d => t.zeroCounters d) ((s.advAt cntCtl).freezeBy v) := rfl

/-- A value with one bit at `d` freezes that die and clears none. -/
theorem filter_clear_freeze {d : Nat} (h : d < 4) : (List.range 4).filter (fun x => (2 ^ d).testBit (4 + x)) = [] :=
  List.filter_eq_nil_iff.mpr fun x _ => by rw [Nat.testBit_two_pow_of_ne (by omega)]; exact Bool.false_ne_true

/-- One with a bit at 4 + `d` clears that die's counters. -/
theorem filter_clear_one {d : Nat} (h : d < 4) : (List.range 4).filter (fun x => (2 ^ (4 + d)).testBit (4 + x)) = [d] := by
  have hAll : ∀ e : Fin 4, (List.range 4).filter (fun x => (2 ^ (4 + e.val)).testBit (4 + x)) = [e.val] := by decide
  exact hAll ⟨d, h⟩

/-- A counter that reads 0 reads 0 after a counter is set to 0. -/
theorem State.rd_wr64_zero {s : State} {lo hi f : Fld} (hl : lo.lo + lo.width ≤ 32) (hh : hi.lo + hi.width ≤ 32) (h : s.rd f = 0) :
    (s.wr64 lo hi 0).rd f = 0 := State.rd_wr_zero hi hh (State.rd_wr_zero lo hl h)

theorem State.rd_foldl_wr64_zero {lo hi : Nat → Fld} {f : Fld} (hl : ∀ j, (lo j).lo + (lo j).width ≤ 32)
    (hh : ∀ j, (hi j).lo + (hi j).width ≤ 32) (l : List Nat) {s : State} (h : s.rd f = 0) :
    (l.foldl (fun t j => t.wr64 (lo j) (hi j) 0) s).rd f = 0 := by
  induction l generalizing s with
  | nil => exact h
  | cons j l ih => exact ih (State.rd_wr64_zero (hl j) (hh j) h)

/-- Setting the counters of `l` to 0 sets each of them to 0. -/
theorem State.rd64_foldl_wr64_zero {lo hi : Nat → Fld} (hl : ∀ j, (lo j).lo + (lo j).width ≤ 32)
    (hh : ∀ j, (hi j).lo + (hi j).width ≤ 32) {l : List Nat} {j : Nat} (hj : j ∈ l) (s : State) :
    let u := l.foldl (fun t j => t.wr64 (lo j) (hi j) 0) s
    u.rd (lo j) = 0 ∧ u.rd (hi j) = 0 := by
  induction l generalizing s with
  | nil => cases hj
  | cons i l ih =>
    obtain rfl | hMem := List.mem_cons.mp hj
    · exact ⟨State.rd_foldl_wr64_zero hl hh l (State.rd_wr_zero _ (hh j) ((State.rd_wr_same _ _ _ (hl j)).trans (Nat.zero_mod _))),
        State.rd_foldl_wr64_zero hl hh l ((State.rd_wr_same _ _ _ (hh j)).trans (Nat.zero_mod _))⟩
    · exact ih hMem _

theorem State.rd_zeroClusters {f : Fld} (l : List Nat) {s : State} (h : s.rd f = 0) :
    (l.foldl (fun t u => (List.range 8).foldl (fun w j => w.wr64 (cntClLoCount u j) (cntClHiCount u j) 0) t) s).rd f = 0 := by
  induction l generalizing s with
  | nil => exact h
  | cons u l ih =>
    rw [List.foldl_cons]
    refine ih ?_
    exact State.rd_foldl_wr64_zero (lo := cntClLoCount u) (hi := cntClHiCount u) (fun j => by simp [cntClLoCount])
      (fun j => by simp [cntClHiCount]) (List.range 8) h

theorem State.zeroCounters_es (s : State) (d : Nat) {j : Nat} (hj : j < 64) :
    (s.zeroCounters d).rd64 (cntEsLoCount d j) (cntEsHiCount d j) = 0 := by
  obtain ⟨hLo, hHi⟩ := State.rd64_foldl_wr64_zero (lo := cntEsLoCount d) (hi := cntEsHiCount d) (fun j => by simp [cntEsLoCount])
    (fun j => by simp [cntEsHiCount]) (List.mem_range.mpr hj) s
  rw [State.rd64, State.zeroCounters, State.rd_zeroClusters _ hLo, State.rd_zeroClusters _ hHi, Nat.mul_zero]

theorem State.cntDies_locked {s : State} (h : s.rd dbgStatusLevel = 0) : s.cntDies .debug = [] := by
  simp [State.cntDies, State.unlocked, h]

/-! ### Samples: R425 -/

theorem State.counterSample_off {s : State} (h : s.rd cntSampleCfgEn = 0) : s.counterSample = s := by
  simp [State.counterSample, State.sampleDue, State.on_of_rd_zero h]

theorem State.counterSample_lost {s s1 : State} (hDue : s.sampleDue = true) (hMode : s.rd cntSampleCfgMode = 0)
    (hs1 : s1 = { s with dbg := { s.dbg with sampled := s.tick } })
    (hOff : s.rd (trcChCtlEn (s.rd cntSampleCfgPart) (s.rd cntSampleCfgChannel)) = 0) :
    s.counterSample = s1.event cntEventSampleLost := by
  subst hs1
  have hMode' : ({ s with dbg := { s.dbg with sampled := s.tick } } : State).on cntSampleCfgMode = false := State.on_of_rd_zero hMode
  have hOff' : ({ s with dbg := { s.dbg with sampled := s.tick } } : State).on (trcChCtlEn (({ s with dbg := { s.dbg with
      sampled := s.tick } } : State).rd cntSampleCfgPart) (({ s with dbg := { s.dbg with sampled := s.tick } } : State).rd
      cntSampleCfgChannel)) = false := State.on_of_rd_zero hOff
  simp only [State.counterSample, hDue, hMode', hOff', Bool.not_true, Bool.false_eq_true, if_false, Bool.and_false, Bool.not_false, if_true]

/-- With the channel on and no cluster sampled, the named dies' records are written under one stamp. -/
theorem State.counterSample_dies {s s1 s2 : State} {stamp : Nat × Nat} (hDue : s.sampleDue = true) (hMode : s.rd cntSampleCfgMode = 0)
    (hs1 : s1 = { s with dbg := { s.dbg with sampled := s.tick } }) (hPart : s.rd cntSampleCfgPart < partCount s.mode)
    (hOn : s.rd (trcChCtlEn (s.rd cntSampleCfgPart) (s.rd cntSampleCfgChannel)) = 1)
    (hClusters : ∀ u, u < 672 → s.rd (cntClCtlSample u) = 0)
    (hStamp : s1.traceStamp (s.rd cntSampleCfgPart) (s.rd cntSampleCfgChannel) = (stamp, s2)) :
    s.counterSample = ((List.range 4).filter (fun d => s.bit cntSampleCfgDies d)).foldl (fun t d => t.sampleEs stamp d) s2 := by
  have hRd : ∀ f, s1.rd f = s.rd f := fun f => by rw [hs1]; rfl
  have hMode' : s1.on cntSampleCfgMode = false := State.on_of_rd_zero ((hRd _).trans hMode)
  have hGood : (decide (s1.rd cntSampleCfgPart < partCount s1.mode) &&
      s1.on (trcChCtlEn (s1.rd cntSampleCfgPart) (s1.rd cntSampleCfgChannel))) = true := by
    rw [hRd, hRd, State.on_of_rd_one ((hRd _).trans hOn), Bool.and_true, hs1]
    exact decide_eq_true hPart
  have hNone : (List.range 672).filter (fun u => s1.on (cntClCtlSample u)) = [] :=
    List.filter_eq_nil_iff.mpr fun u hu => by
      rw [State.on_of_rd_zero ((hRd _).trans (hClusters u (List.mem_range.mp hu)))]
      exact Bool.false_ne_true
  have hDies : ∀ d, s1.bit cntSampleCfgDies d = s.bit cntSampleCfgDies d := fun d => by rw [State.bit, hRd]; rfl
  simp only [State.counterSample, hDue, Bool.not_true, Bool.false_eq_true, if_false, ← hs1, hMode', hGood]
  rw [hRd, hRd, hStamp]
  simp only [hNone, List.foldl_nil, hDies]

theorem filter_bits_one {d : Nat} (h : d < 4) : (List.range 4).filter (fun x => (2 ^ d).testBit x) = [d] := by
  have hAll : ∀ e : Fin 4, (List.range 4).filter (fun x => (2 ^ e.val).testBit x) = [e.val] := by decide
  exact hAll ⟨d, h⟩

end Sys2Proof.Machine

namespace Sys2Proof

open Machine Machine.Reg

/-- Settles O51: channels, drains, counters and samples, a case each. -/
theorem traceAndCounters : Obligations.TraceAndCounters := by
  refine ⟨fun s path p c v hOwns hEn => ?idle, fun s path p c v hOwns hEn => ?enabled, fun s path p c v hOwns => ?notOwned,
    fun s p c hStopping hEmpty => ?stopped, fun s path p hOwns hBusy => ?drain, fun s p hBusy => ?done,
    fun s p hBusy => execTraceDrainDone_idle hBusy, fun s p i a bs fs ha h => State.drainLine_read ha h,
    fun s t d v hd ht => ?clear, fun s h => State.advAt_frozen h, fun s d j _ hj => s.zeroCounters_es d hj,
    fun s => ⟨rfl, rfl, State.cntDies_locked⟩, fun s h => ?noSample, fun s s1 hDue hMode hs1 => ?sample⟩
  case idle =>
    rw [exec_traceChannelEnable, exec_traceChannelDisable, State.enableChan_idle hOwns hEn, State.disableChan_idle hOwns hEn]
    exact ⟨fun h => by rw [if_pos h], fun h => by rw [if_neg (Bool.eq_false_iff.mp h)], rfl⟩
  case enabled =>
    rw [exec_traceChannelEnable, exec_traceChannelDisable, State.enableChan_enabled hEn, State.disableChan_enabled hOwns hEn]
    exact ⟨rfl, rfl⟩
  case notOwned =>
    rw [exec_traceChannelEnable, exec_traceChannelDisable, exec_traceDrain, State.enableChan_notOwned hOwns,
      State.disableChan_notOwned hOwns, State.startDrain_notOwned hOwns]
    exact ⟨rfl, rfl, rfl⟩
  case stopped =>
    refine ⟨_, by rw [exec_traceChannelStopped, State.stopChan_empty hStopping hEmpty], ?_, ?_, ?_,
      State.rd_wr_fits _ (by simp [trcChStatusStopped]) (by simp [trcChStatusStopped])⟩
    · rw [State.traceCh_wr, State.traceCh_setTraceCh_same]
    · rw [State.traceCh_wr, State.traceCh_setTraceCh_same, hEmpty]
    · exact Eq.mpr (congrArg _ (State.wr_withDbg s _ _ _)) (State.onlyFields_wr (State.onlyFields_refl _ s) _ 1
        (List.mem_singleton.mpr rfl) (by simp [trcChStatusStopped]))
  case drain =>
    rw [exec_traceDrain, State.startDrain_idle hOwns hBusy]
    exact ⟨fun h => by rw [if_pos h], fun h => by rw [if_neg (Bool.eq_false_iff.mp h)]⟩
  case done =>
    rw [exec_traceDrainDone]
    refine ⟨fun hLen => ?_, fun hLen t bad hOne => ?_, fun hLen t u bad bad2 hOne hTwo => ?_⟩
    · exact execTraceDrainDone_busy (t := s) (bad := false) hBusy (by rw [hLen]; rfl)
    · exact execTraceDrainDone_busy hBusy (by rw [hLen, State.drainLines]; simp [List.range_succ, hOne])
    · exact execTraceDrainDone_busy hBusy (by rw [hLen, State.drainLines]; simp [List.range_succ, hOne, hTwo])
  case clear =>
    rw [exec_counterClear, State.writeCntCtl_mgmt, ← ht]
    refine ⟨fun hv => ⟨_, by rw [hv, filter_clear_freeze hd, List.foldl_nil], (t.freezeBy_onlyFields _).1, fun x hx => ?_,
      (t.freezeBy_onlyFields _).2⟩, fun hv => ⟨_, by rw [hv, filter_clear_one hd, List.foldl_cons, List.foldl_nil],
      (t.freezeBy_onlyFields _).1, fun x hx => ?_, (t.freezeBy_onlyFields _).2⟩⟩
    · rw [State.freezeBy_bit _ _ hx, Nat.testBit_two_pow]
      exact decide_eq_decide.mpr eq_comm
    · rw [State.freezeBy_bit _ _ hx, Nat.testBit_two_pow_of_ne (by omega)]
  case noSample => rw [exec_counterSample, State.counterSample_off h]
  case sample =>
    rw [exec_counterSample]
    refine ⟨fun hOff => by rw [State.counterSample_lost hDue hMode hs1 hOff], fun stamp s2 hPart hOn hClusters hStamp => ?_⟩
    rw [State.counterSample_dies hDue hMode hs1 hPart hOn hClusters hStamp]
    simp only [State.bit]
    exact ⟨fun h => by rw [h]; simp, fun d h => by rw [h, filter_bits_one d.isLt, List.foldl_cons, List.foldl_nil]⟩

end Sys2Proof
end

section
/-!
PROOF. Debug access (19_trace_counters_and_debug.md): unlock and lock, halts and locked sequences, accesses by level, and the TAP; O52 and
O53 are assembled from them.
-/
namespace Sys2Proof.Machine

open Reg

theorem exec_debugResponse (w : Word32) (s : State) : exec (.debugResponse w) s = .next (if s.pwr.aon then s.lastResponse w else s) := rfl

theorem exec_debugHalt (v : Word32) (s : State) : exec (.debugHalt v) s = .next (s.haltBits v.toNat) := rfl

theorem exec_debugResume (v : Word32) (s : State) : exec (.debugResume v) s = .next (s.resumeBits v.toNat).wrapUp := rfl

theorem exec_debugDeferredHalt (n : Core4) (s : State) : exec (.debugDeferredHalt n) s =
    .next (if s.bit dbgCoreDeferring n && s.lockKind n == 0 then s.haltCore n else s) := rfl

theorem exec_haltLockBreak (n : Core4) (s : State) : exec (.haltLockBreak n) s = execHaltLockBreak n s := rfl

theorem exec_debugRead (a : Nat) (s : State) : exec (.debugRead a) s = execDebugRead a s := rfl

theorem exec_debugForcedRead (a : Nat) (s : State) : exec (.debugForcedRead a) s = execDebugForcedRead a s := rfl

theorem exec_debugWrite (a : Nat) (v : Word32) (s : State) : exec (.debugWrite a v) s = execDebugWrite a v s := rfl

theorem exec_jtagBypass (code : BitVec 8) (s : State) : exec (.jtagBypass code) s =
    .next (if s.pwr.aon && !jtagCodes.contains code.toNat then s.setJtag .bypass else s) := rfl

theorem exec_debugLock_mgmt (s : State) : exec (.debugLock .mgmt) s = .next s.lockDebug := rfl

theorem exec_debugLock_debug (s : State) : exec (.debugLock .debug) s = .next s.lockDebug := rfl

theorem exec_jtagPins (s : State) : exec .jtagExtest s = .next (s.pinInstr .extest) ∧
    exec .jtagExtestPulse s = .next (s.pinInstr .extestPulse) ∧ exec .jtagExtestTrain s = .next (s.pinInstr .extestTrain) ∧
    exec .jtagClamp s = .next (s.pinInstr .clamp) ∧ exec .jtagHighz s = .next (s.pinInstr .highz) := ⟨rfl, rfl, rfl, rfl, rfl⟩

/-! ### Unlock and lock: R427–R429 -/

/-- What DBG_SCOPE and the level read once a nonce is in the challenge registers. -/
theorem State.rd_challenge (t : State) (a b c d : Nat) {f : Fld} (h : ∀ i, i < 4 → f.addr ≠ dbgChal i) :
    ((((t.wr (dbgChalNonce 0) a).wr (dbgChalNonce 1) b).wr (dbgChalNonce 2) c).wr (dbgChalNonce 3) d).rd f = t.rd f := by
  rw [State.rd_wr_ne _ _ _ _ (h 3 (by decide)), State.rd_wr_ne _ _ _ _ (h 2 (by decide)), State.rd_wr_ne _ _ _ _ (h 1 (by decide)),
    State.rd_wr_ne _ _ _ _ (h 0 (by decide))]

theorem State.writeScope_spec (s : State) (v : Nat) : (s.writeScope v).rd dbgScopeLevel = v % 4 ∧
    ((s.writeScope v).dbg.nonceOk = true ↔ v % 4 = 1 ∨ v % 4 = 2) ∧ (s.writeScope v).rd dbgStatusLevel = s.rd dbgStatusLevel := by
  have hLevel : (s.wr dbgScopeLevel (v % 4)).rd dbgScopeLevel = v % 4 :=
    State.rd_wr_fits _ (by decide) (Nat.mod_lt v (by decide))
  have hStatus : (s.wr dbgScopeLevel (v % 4)).rd dbgStatusLevel = s.rd dbgStatusLevel := State.rd_wr_apart _ _ (by decide) (by decide)
  have hNonce : ((v % 4 == 1 || v % 4 == 2) = true) ↔ v % 4 = 1 ∨ v % 4 = 2 := by simp
  simp only [State.writeScope]
  split
  · refine ⟨?_, hNonce, ?_⟩
    · rw [State.rd_challenge _ _ _ _ _ (by decide)]
      exact hLevel
    · rw [State.rd_challenge _ _ _ _ _ (by decide)]
      exact hStatus
  · exact ⟨hLevel, hNonce, hStatus⟩

theorem State.lastResponse_refused {s : State} (h : s.rd dbgStatusLockout = 1 ∨ s.rd dbgCfgDisable = 1) (w : Word32) :
    s.lastResponse w = s.putResponse 3 w := by
  have hShut : ((s.putResponse 3 w).on dbgStatusLockout || (s.putResponse 3 w).on dbgCfgDisable) = true := by
    rw [Bool.or_eq_true]
    exact h.imp (State.on_of_rd_one (s := s.putResponse 3 w)) (State.on_of_rd_one (s := s.putResponse 3 w))
  simp only [State.lastResponse, State.checkResponse, hShut, if_true]

/-- A check of the response while debug is not shut: the right one under a valid nonce opens the level, any other is counted. -/
theorem State.lastResponse_checked {s q s1 : State} {w : Word32} {level : Nat} (hLock : s.rd dbgStatusLockout = 0)
    (hDis : s.rd dbgCfgDisable = 0) (hLevel : level = s.rd dbgScopeLevel) (hq : q = s.putResponse 3 w)
    (hs1 : s1 = (((q.setDbg { q.dbg with nonceOk := false }).wr dbgStatusFails (s.rd dbgStatusFails + 1)).event
      dbgEventUnlockFail).reportDebug 2 level 0xFF) : s.lastResponse w =
      if q.response = q.wantedResponse level ∧ s.dbg.nonceOk = true then
        ((((q.setDbg { q.dbg with nonceOk := false }).wr dbgStatusLevel level).wr dbgStatusFails 0).event
          dbgEventUnlocked).reportDebug 1 level 0xFF
      else if s.rd dbgStatusFails < 7 then s1
      else (s1.wr dbgStatusLockout 1).reportDebug 3 level 0xFF := by
  have hRd : ∀ f, q.rd f = s.rd f := fun f => by rw [hq]; rfl
  have hNonce : q.dbg.nonceOk = s.dbg.nonceOk := by rw [hq]; rfl
  have hOpen : (q.on dbgStatusLockout || q.on dbgCfgDisable) = false := by
    rw [State.on_of_rd_zero ((hRd _).trans hLock), State.on_of_rd_zero ((hRd _).trans hDis)]
    rfl
  simp only [State.lastResponse, State.checkResponse, ← hq, hOpen, Bool.false_eq_true, if_false, hRd, ← hLevel, hNonce, ← hs1,
    Bool.and_eq_true, beq_iff_eq]
  congr 1
  by_cases h : s.rd dbgStatusFails < 7
  · rw [if_neg (by omega), if_pos h]
  · rw [if_pos (by omega), if_neg h]

theorem State.lockDebug_zero {s : State} (h : s.rd dbgStatusLevel = 0) : s.lockDebug = s := if_pos h

theorem State.lockDebug_open {s : State} (h : s.rd dbgStatusLevel ≠ 0) :
    s.lockDebug = (s.wr dbgStatusLevel 0).reportDebug 4 0 0xFF := if_neg h

/-! ### Halts: R433, R434 -/

theorem State.unlocked_two {s : State} (h : s.rd dbgStatusLevel = 2) : s.unlocked = true := by rw [State.unlocked, h]; rfl

theorem State.unlocked_other {s : State} (h : s.rd dbgStatusLevel ≠ 2) : s.unlocked = false := beq_eq_false_iff_ne.mpr h

theorem State.haltBits_locked {s : State} (h : s.rd dbgStatusLevel ≠ 2) (v : Nat) : s.haltBits v = s := by
  simp [State.haltBits, State.unlocked_other h]

theorem State.resumeBits_locked {s : State} (h : s.rd dbgStatusLevel ≠ 2) (v : Nat) : s.resumeBits v = s := by
  simp [State.resumeBits, State.unlocked_other h]

theorem State.haltBits_one {s : State} (h : s.rd dbgStatusLevel = 2) (n : Core4) : s.haltBits (2 ^ (4 + n.val)) = s.askHalt n := by
  rw [State.haltBits, State.unlocked_two h, filter_clear_one n.isLt]
  rfl

theorem State.resumeBits_one {s : State} (h : s.rd dbgStatusLevel = 2) (n : Core4) : s.resumeBits (2 ^ n.val) = s.resumeCore n := by
  rw [State.resumeBits, State.unlocked_two h, filter_bits_one n.isLt]
  rfl

theorem State.askHalt_running {s : State} {n : Nat} (h : (s.core n).state = .running) : s.askHalt n =
    if s.lockKind n = 0 then s.haltCore n else (s.wrBit dbgCoreDeferring n true).event dbgEventHaltDeferred := by
  rw [State.askHalt, if_neg (not_not.mpr h)]

/-- The core as a debug halt leaves it: its count is frozen where DBG_EXEMPT says so. -/
def CoreSt.halt (c : CoreSt) (tick : Nat) (exempt : Bool) : CoreSt :=
  { c with state := .halted, frozen := if exempt then some (tick - c.since) else none }

theorem State.core_haltCore (s : State) (n m : Nat) :
    (s.haltCore n).core m = if m = n then (s.core n).halt s.tick (s.on hngCfgDbgExempt) else s.core m := by
  have hCore : ∀ (t : State) (f : Fld) (v : Nat), (t.wr f v).core m = t.core m := fun _ _ _ => rfl
  have hExempt : ({ s.core n with state := .halted, frozen := none } : CoreSt).exempt s.tick (s.on hngCfgDbgExempt) =
      (s.core n).halt s.tick (s.on hngCfgDbgExempt) := by
    cases hOn : s.on hngCfgDbgExempt <;> simp [CoreSt.exempt, CoreSt.halt]
  simp only [State.haltCore, State.showHalts, State.wrBit]
  rw [hCore, hCore, hCore, State.core_setCore, hExempt]

/-- A core other than CC0 and CC1 is locked by the panel only. -/
theorem State.lockKind_panel {s : State} {n : Nat} (hn : 2 ≤ n) (h : s.lockKind n ≠ 0) : s.lockKind n = 3 := by
  have hActive : s.activeCore < 2 := s.rd_lt hngStatusActiveRmg
  have hNe : n ≠ s.activeCore := by omega
  simp only [State.lockKind, hNe, false_and, if_false] at h ⊢
  split
  · rfl
  next hIdle => rw [if_neg hIdle] at h; exact absurd rfl h

theorem execHaltLockBreak_held {s s1 s2 s3 : State} {n : Core4} (hDeferring : s.bit dbgCoreDeferring n = true)
    (hKind : s.lockKind n ≠ 0)
    (hs1 : s1 = (((s.event dbgEventLockBroken).wr dbgBrokenCore n).wr dbgBrokenKind (s.lockKind n)).queueBreak)
    (hs2 : s2 = s1.setDbg { s1.dbg with broken := s1.dbg.broken.set (fun _ => 0) n (s.lockKind n) })
    (hs3 : s3 = if n.val < 2 then s2.reconcile [] [] [] else s2.breakPanel) :
    execHaltLockBreak n s = .next ((s3.haltCore n).reportDebug 5 (s.rd dbgStatusLevel) n).wrapUp := by
  have hBreak : (if n.val < 2 then s2.reconcile [] [] [] else if s.lockKind n = 3 then s2.breakPanel else s2) = s3 := by
    rw [hs3]
    split
    · rfl
    next hn => rw [if_pos (State.lockKind_panel (by omega) hKind)]
  have hKind' : (s.lockKind n == 0) = false := beq_eq_false_iff_ne.mpr hKind
  simp only [execHaltLockBreak, hDeferring, hKind', Bool.not_true, Bool.or_self, Bool.false_eq_true, if_false, ← hs1, ← hs2, hBreak]

theorem execHaltLockBreak_free {s : State} {n : Core4} (h : s.bit dbgCoreDeferring n = false ∨ s.lockKind n = 0) :
    execHaltLockBreak n s = .next s.wrapUp := by
  have hFree : (!s.bit dbgCoreDeferring n || s.lockKind n == 0) = true := by
    obtain h | h := h <;> simp [h]
  simp only [execHaltLockBreak, hFree, if_true]

/-! ### Accesses by level: R427, R431 -/

/-- At level 0 only SYS and DBG are read, and only the unlock registers written. -/
theorem State.denied_locked {s : State} {a : Nat} (h : s.rd dbgStatusLevel = 0) (hLow : 0x10000 ≤ a)
    (hOut : a < 0xC0000 ∨ 0xD0000 ≤ a) :
    s.debugGrants a = false ∧ s.unlocked = false ∧ s.debugWrites a = false := by
  have hUnlocked : s.unlocked = false := State.unlocked_other (by rw [h]; decide)
  refine ⟨?_, hUnlocked, ?_⟩
  · simp only [State.debugGrants, State.debugReads, h, Bool.or_eq_false_iff, Bool.and_eq_false_iff, decide_eq_false_iff_not]
    omega
  · have hScope : (a == dbgScope) = false := beq_eq_false_iff_ne.mpr (by unfold dbgScope; omega)
    have hCtl : (a == dbgCtl) = false := beq_eq_false_iff_ne.mpr (by unfold dbgCtl; omega)
    have hResp : (decide (dbgResp 0 ≤ a) && decide (a < dbgResp 4)) = false := by
      rw [Bool.and_eq_false_iff, decide_eq_false_iff_not, decide_eq_false_iff_not]
      unfold dbgResp
      omega
    rw [State.debugWrites, hUnlocked, hScope, hCtl, hResp]
    rfl

theorem State.dbgRead_plain {s : State} {a : Nat} (hCla : claWindow a = false) (hVendor : vendorOnly a = false) (peek : Bool) :
    s.dbgRead a peek = (s.readReg .debug a).2.dbgResult s.dbg 0 (s.readReg .debug a).1 := by
  simp only [State.dbgRead, hCla, hVendor, Bool.false_and, Bool.or_self, Bool.and_false, Bool.false_eq_true, if_false]

theorem State.dbgRead_forced {s : State} {a : Nat} (hVendor : vendorOnly a = false) :
    s.dbgRead a false = (s.readReg .debug a).2.dbgResult s.dbg 0 (s.readReg .debug a).1 := by
  simp only [State.dbgRead, hVendor, Bool.false_and, Bool.and_false, Bool.false_eq_true, if_false]

theorem State.dbgRead_peekCla {s : State} {a : Nat} (hCla : claWindow a = true) : s.dbgRead a true = s.dbgResult s.dbg 1 0 := by
  simp only [State.dbgRead, hCla, Bool.true_or, Bool.and_self, if_true]

theorem State.dbgRead_vendor {s : State} {a : Nat} (hLevel : s.rd dbgStatusLevel = 2) (hVendor : vendorOnly a = true)
    (hCla : claWindow a = false) (hMsix : msixWindow a = false) :
    s.dbgRead a false = (s.vendorAccess a none).dbgResult s.dbg 0 (Config.vendorWord s.dbg.vendor a).toNat := by
  have hRead : s.readReg .debug a = ((Config.vendorWord s.dbg.vendor a).toNat, s) := by
    unfold State.readReg
    rw [if_neg (Bool.eq_false_iff.mp hCla), if_neg (Bool.eq_false_iff.mp hMsix), if_pos hVendor]
    exact congrArg (·, s) (if_pos (State.unlocked_two hLevel))
  rw [State.dbgRead, Bool.false_and, if_neg Bool.false_ne_true, hRead, hVendor, State.unlocked_two hLevel]
  rfl

/-! ### The TAP: R430 -/

theorem State.pinInstr_ready {s : State} (hAon : s.pwr.aon = true) (h : s.rd sysStatusReady = 1) (j : JtagInstr) :
    s.pinInstr j = s.setJtag .bypass := by
  simp only [State.pinInstr, hAon, State.on_of_rd_one h, Bool.not_true, Bool.false_eq_true, if_false, if_true]

theorem State.pinInstr_low {s : State} (hAon : s.pwr.aon = true) (h : s.rd sysStatusReady = 0) (j : JtagInstr) :
    s.pinInstr j = s.setJtag j := by
  simp only [State.pinInstr, hAon, State.on_of_rd_zero h, Bool.not_true, Bool.false_eq_true, if_false]

end Sys2Proof.Machine

namespace Sys2Proof

open Machine Machine.Reg

/-- Settles O52: unlock, lock and halts, a case each. -/
theorem debugControl : Obligations.DebugControl := by
  refine ⟨fun s v hAon => ?challenge, fun s w hAon h => ?shut, fun s q w level hAon hLock hDis hLevel hq s1 hs1 => ?check,
    fun s f => ⟨rfl, fun h => ?_, fun h => ?_⟩, fun s v h => ?locked, fun s n v h => ?bits, fun s n h => ?ask, fun s n => ?halted,
    fun s n => ?deferred, fun s s1 s2 s3 n hDeferring hKind hs1 hs2 hs3 => execHaltLockBreak_held hDeferring hKind hs1 hs2 hs3⟩
  case challenge =>
    obtain ⟨hScope, hNonce, hStatus⟩ := s.writeScope_spec v.toNat
    exact ⟨_, congrArg Host.Outcome.next (if_pos hAon), hScope, hNonce, hStatus⟩
  case shut => rw [exec_debugResponse, if_pos hAon, State.lastResponse_refused h]
  case check => rw [exec_debugResponse, if_pos hAon, State.lastResponse_checked hLock hDis hLevel hq hs1]
  · rw [exec_debugLock_mgmt, State.lockDebug_zero h]
  · rw [exec_debugLock_mgmt, exec_debugLock_debug, State.lockDebug_open h]
    exact ⟨rfl, rfl⟩
  case locked =>
    rw [exec_debugHalt, exec_debugResume, State.haltBits_locked h, State.resumeBits_locked h]
    exact ⟨rfl, rfl⟩
  case bits =>
    have hn := n.isLt
    rw [exec_debugHalt, exec_debugResume]
    refine ⟨fun hv => ?_, fun hv => ?_⟩
    · rw [hv, BitVec.toNat_ofNat, Nat.mod_eq_of_lt (Nat.pow_lt_pow_right (by decide) (by omega)), State.haltBits_one h]
    · rw [hv, BitVec.toNat_ofNat, Nat.mod_eq_of_lt (Nat.pow_lt_pow_right (by decide) (by omega)), State.resumeBits_one h]
  case ask =>
    rw [State.askHalt_running h]
    exact ⟨fun hFree => if_pos hFree, fun hHeld => if_neg hHeld⟩
  case halted =>
    simp only [State.core_haltCore, if_true]
    refine ⟨rfl, fun h => ?_, fun h => ?_, fun m hm => if_neg (Fin.val_ne_of_ne hm)⟩
    · rw [State.on_of_rd_one h]
      rfl
    · rw [State.on_of_rd_zero h]
      rfl
  case deferred =>
    rw [exec_debugDeferredHalt, exec_haltLockBreak]
    refine ⟨fun hBit hFree => ?_, fun h => ?_, fun h => execHaltLockBreak_free h⟩
    · rw [hBit, hFree]
      rfl
    · rw [if_neg]
      obtain h | h := h <;> simp [h]

/-- Settles O53: accesses by level, and the TAP's instructions. -/
theorem jtagAccess : Obligations.JtagAccess := by
  refine ⟨fun s a v hAon hLevel hLow hOut => ?denied, fun s a hAon => ?reads, fun s a v hAon hLevel => ?writes,
    fun s old st v => ⟨_, rfl, rfl, rfl, rfl, rfl, rfl, rfl⟩, fun s hAon => ⟨?_, ?_, fun pins => ?_, fun code hCode => ?_,
    fun h => ?_, fun h => ?_⟩⟩
  case denied =>
    obtain ⟨hRead, hUnlocked, hWrite⟩ := State.denied_locked hLevel hLow hOut
    rw [exec_debugRead, exec_debugForcedRead, exec_debugWrite]
    simp only [execDebugRead, execDebugForcedRead, execDebugWrite, hAon, hRead, hUnlocked, hWrite, Bool.not_true, Bool.false_eq_true,
      if_false, and_self]
  case reads =>
    rw [exec_debugRead, exec_debugForcedRead]
    refine ⟨fun hGrant hCla hVendor => ?_, fun hGrant hCla hPeek => ?_, fun hLevel hVendor => ?_, fun hLevel hVendor hCla hMsix => ?_⟩
    · simp only [execDebugRead, hAon, hGrant, Bool.not_true, Bool.false_eq_true, if_false, if_true, State.dbgRead_plain hCla hVendor]
    · simp only [execDebugRead, hAon, hGrant, hPeek, Bool.not_true, Bool.false_eq_true, if_false, if_true, State.dbgRead_peekCla hCla]
    · simp only [execDebugForcedRead, hAon, State.unlocked_two hLevel, Bool.not_true, Bool.false_eq_true, if_false, if_true,
        State.dbgRead_forced hVendor]
    · simp only [execDebugForcedRead, hAon, State.unlocked_two hLevel, Bool.not_true, Bool.false_eq_true, if_false, if_true,
        State.dbgRead_vendor hLevel hVendor hCla hMsix]
  case writes =>
    have hGrant : s.debugWrites a = true := by rw [State.debugWrites, State.unlocked_two hLevel, Bool.true_or, Bool.true_or, Bool.true_or]
    rw [exec_debugWrite]
    simp only [execDebugWrite, hAon, hGrant, Bool.not_true, Bool.false_eq_true, if_false, if_true]
  · exact congrArg Host.Outcome.next (if_pos hAon)
  · exact congrArg Host.Outcome.next (if_pos hAon)
  · exact congrArg Host.Outcome.next (if_pos hAon)
  · rw [exec_jtagBypass, hCode, hAon]
    rfl
  · simpa only [State.pinInstr_ready hAon h] using exec_jtagPins s
  · simpa only [State.pinInstr_low hAon h] using exec_jtagPins s

end Sys2Proof
end

section
/-!
PROOF. The configuration stream (17_configurable_logic_array.md: The configuration stream): how a stream begins, what each packet does,
what an error leaves, and the end of a bus pass.
-/
namespace Sys2Proof.Machine

open Reg

theorem exec_claSync (src : ClaSrc) (s : State) : exec (.claSync src) s = execClaSync src s := rfl

theorem exec_claIdle (src : ClaSrc) (h : Word32) (s : State) : exec (.claIdle src h) s = execClaIdle src h s := rfl

theorem exec_claFramePtr (src : ClaSrc) (h w : Word32) (s : State) : exec (.claFramePtr src h w) s = execClaFramePtr src h w s := rfl

theorem exec_claFrameData (src : ClaSrc) (h : Word32) (ws : List Word32) (s : State) :
    exec (.claFrameData src h ws) s = execClaFrameData src h ws s := rfl

theorem exec_claScope (src : ClaSrc) (h w : Word32) (s : State) : exec (.claScope src h w) s = execClaScope src h w s := rfl

theorem exec_claDeviceId (src : ClaSrc) (h w : Word32) (s : State) : exec (.claDeviceId src h w) s = execClaDeviceId src h w s := rfl

theorem exec_claCheck (src : ClaSrc) (h : Word32) (ws : List Word32) (s : State) :
    exec (.claCheck src h ws) s = execClaCheck src h ws s := rfl

theorem exec_claActionNone (src : ClaSrc) (hdr : Option Word32) (w : Word32) (s : State) :
    exec (.claActionNone src hdr w) s = execClaActionNone src hdr w s := rfl

theorem exec_claClearCheck (src : ClaSrc) (hdr : Option Word32) (s : State) :
    exec (.claClearCheck src hdr) s = execClaClearCheck src hdr s := rfl

theorem exec_claArm (src : ClaSrc) (hdr : Option Word32) (s : State) : exec (.claArm src hdr) s = execClaArm src hdr s := rfl

theorem exec_claCommit (src : ClaSrc) (hdr : Option Word32) (s : State) : exec (.claCommit src hdr) s = execClaCommit src hdr s := rfl

theorem exec_claEnd (src : ClaSrc) (hdr : Option Word32) (s : State) : exec (.claEnd src hdr) s = execClaEnd src hdr s := rfl

theorem exec_claStreamSourceEnd (src : ClaSrc) (s : State) : exec (.claStreamSourceEnd src) s = execClaStreamSourceEnd src s := rfl

theorem exec_claBusPassEnd (high : Bool) (s : State) : exec (.claBusPassEnd high) s = execClaBusPassEnd high s := rfl

/-! ### The sync word: R369 -/

section
variable {s : State} (hFree : s.cla.stream = none) (hOn : s.domOn 11 = true)
include hFree hOn

theorem execClaSync_full (hLoading : s.cla.loading = true) : execClaSync .full s = .next (s.showStream (fresh .full 0)).wrapUp := by
  simp [execClaSync, hFree, hOn, hLoading]

theorem execClaSync_icp (hLoaded : s.rd claStatusLoaded = 1) : execClaSync .icp s = .next (s.showStream (fresh .icp 0)).wrapUp := by
  simp [execClaSync, hFree, hOn, State.on_of_rd_one hLoaded]

theorem execClaSync_extPartial (hBusy : s.rd claExtStatusBusy = 1) (hPart : s.rd claExtCtlFull = 0) :
    execClaSync .ext s = .next (s.showStream
      (fresh (.ext false (s.rd claExtCtlRegion)) (s.extSync false (s.rd claExtCtlRegion)))).wrapUp := by
  simp [execClaSync, hFree, hOn, State.on_of_rd_one hBusy, State.on_of_rd_zero hPart]

theorem execClaSync_extFull (hBusy : s.rd claExtStatusBusy = 1) (hFull : s.rd claExtCtlFull = 1) :
    execClaSync .ext s = .next (s.blankCla.startDriving.showStream
      (fresh (.ext true (s.rd claExtCtlRegion)) (s.extSync true (s.rd claExtCtlRegion)))).wrapUp := by
  simp [execClaSync, hFree, hOn, State.on_of_rd_one hBusy, State.on_of_rd_one hFull]

end

theorem execClaSync_taken {s : State} {x : ClaStream} (src : ClaSrc) (h : s.cla.stream = some x) :
    execClaSync src s = .next s.wrapUp := by
  simp [execClaSync, h]

/-! ### Packets: R370 -/

/-- The header of a packet, as it came or as the packet before it opened it. -/
def packetHeader (target : Nat) (hdr : Option Word32) : Nat := (hdr.getD (BitVec.ofNat 32 (target * 2 ^ 24 + 2 ^ 22 + 1))).toNat

/-- A further word of an action packet has a good header. -/
theorem packetHeader_action {hdr : Option Word32} (h : ∀ w, hdr = some w → headerErr w.toNat = none ∧ bitsOf w.toNat 24 8 = 0x23) :
    headerErr (packetHeader 0x23 hdr) = none ∧ bitsOf (packetHeader 0x23 hdr) 24 8 = 0x23 := by
  cases hdr with
  | none => decide
  | some w => exact h w rfl

section
variable {s t : State} {x : ClaStream} {src : ClaSrc} {hdr : Option Word32} {ws : List Word32} {target : Nat}
  {f : State → ClaStream → State} (hStream : s.cla.stream = some x) (hFrom : x.isFrom src = true)
  (hBrings : s.brings x (hdr.toList ++ ws) = true)
include hStream

/-- A packet of the stream's own source, with a good header, has the effect of its target. -/
theorem State.packet_taken (hFrom : x.isFrom src = true) (hBrings : s.brings x (hdr.toList ++ ws) = true)
    (hGood : headerErr (packetHeader target hdr) = none) (hTarget : bitsOf (packetHeader target hdr) 24 8 = target)
    (ht : t = s.fetchedExt x (hdr.toList ++ ws).length) :
    s.packet src target hdr ws f = f t (x.take (hdr.toList ++ ws)) := by
  rw [packetHeader] at hGood hTarget
  simp only [State.packet, hStream, hFrom, hBrings, Bool.not_true, Bool.or_self, Bool.false_eq_true, if_false, hGood, if_pos hTarget, ht]

theorem State.packet_badHeader {e : Nat} (hFrom : x.isFrom src = true) (hBrings : s.brings x (hdr.toList ++ ws) = true)
    (hBad : headerErr (packetHeader target hdr) = some e) (ht : t = s.fetchedExt x (hdr.toList ++ ws).length) :
    s.packet src target hdr ws f = t.streamError { x with words := x.words + 1 } e := by
  rw [packetHeader] at hBad
  simp only [State.packet, hStream, hFrom, hBrings, Bool.not_true, Bool.or_self, Bool.false_eq_true, if_false, hBad, ht]

theorem State.packet_otherSource (hFrom : x.isFrom src = false) : s.packet src target hdr ws f = s := by
  simp [State.packet, hStream, hFrom]

theorem State.packet_notHeld (hBrings : s.brings x (hdr.toList ++ ws) = false) : s.packet src target hdr ws f = s := by
  simp [State.packet, hStream, hBrings]

end

section
variable {s t : State} {x : ClaStream} {src : ClaSrc} {h : Word32} (hStream : s.cla.stream = some x) (hFrom : x.isFrom src = true)
  (hGood : headerErr h.toNat = none)
include hStream hFrom hGood

theorem execClaIdle_taken (hTarget : bitsOf h.toNat 24 8 = 0) (hBrings : s.brings x [h] = true) (ht : t = s.fetchedExt x 1) :
    execClaIdle src h s = .next (t.showStream (x.take [h])).wrapUp := by
  rw [execClaIdle, State.packet_taken (hdr := some h) hStream hFrom hBrings hGood hTarget ht]
  rfl

section
variable {w : Word32} (hBrings : s.brings x [h, w] = true) (ht : t = s.fetchedExt x 2)
include hBrings ht

theorem execClaFramePtr_points (hTarget : bitsOf h.toNat 24 8 = 0x21) (hUnused : bitsOf w.toNat 15 17 = 0)
    (hFrame : x.badFrame (bitsOf w.toNat 6 9) (bitsOf w.toNat 0 6) = false) :
    execClaFramePtr src h w s =
      .next (t.showStream { x.take [h, w] with column := bitsOf w.toNat 6 9, minor := bitsOf w.toNat 0 6 }).wrapUp := by
  have hTake : (x.take [h, w]).badFrame (bitsOf w.toNat 6 9) (bitsOf w.toNat 0 6) = false := hFrame
  rw [execClaFramePtr, State.packet_taken (hdr := some h) hStream hFrom hBrings hGood hTarget ht]
  simp only [Option.toList_some, List.singleton_append, hUnused, hTake, ne_eq, not_true_eq_false, Bool.false_eq_true, if_false]

theorem execClaFramePtr_beyond (hTarget : bitsOf h.toNat 24 8 = 0x21) (hUnused : bitsOf w.toNat 15 17 = 0)
    (hFrame : x.badFrame (bitsOf w.toNat 6 9) (bitsOf w.toNat 0 6) = true) :
    execClaFramePtr src h w s = .next (t.streamError (x.take [h, w]) 6).wrapUp := by
  have hTake : (x.take [h, w]).badFrame (bitsOf w.toNat 6 9) (bitsOf w.toNat 0 6) = true := hFrame
  rw [execClaFramePtr, State.packet_taken (hdr := some h) hStream hFrom hBrings hGood hTarget ht]
  simp only [Option.toList_some, List.singleton_append, hUnused, hTake, ne_eq, not_true_eq_false, if_false, if_true]

/-- DEVICE_ID is compared with the device's own. -/
theorem execClaDeviceId_eq (hTarget : bitsOf h.toNat 24 8 = 0x26) :
    execClaDeviceId src h w s = .next (if w = 0x0CA10D10#32 then t.showStream { x.take [h, w] with idOk := true }
      else t.streamError (x.take [h, w]) 3).wrapUp := by
  rw [execClaDeviceId, State.packet_taken (hdr := some h) hStream hFrom hBrings hGood hTarget ht]
  rfl

section
variable (hTarget : bitsOf h.toNat 24 8 = 0x24) (hLow : bitsOf w.toNat 3 13 = 0) (hHigh : bitsOf w.toNat 17 15 = 0)
include hTarget hLow hHigh

theorem execClaScope_region (hPart : w.getLsbD 16 = true) (hOk : x.scopeOk (some (bitsOf w.toNat 0 3)) = true) :
    execClaScope src h w s = .next ((t.setRegions [bitsOf w.toNat 0 3] 1).showStream
      { x.take [h, w] with scope := some (some (bitsOf w.toNat 0 3)), written := [] }).wrapUp := by
  have hTake : (x.take [h, w]).scopeOk (some (bitsOf w.toNat 0 3)) = true := hOk
  rw [execClaScope, State.packet_taken (hdr := some h) hStream hFrom hBrings hGood hTarget ht]
  simp [hLow, hHigh, hPart, hTake, ClaStream.regions]

theorem execClaScope_refused (hPart : w.getLsbD 16 = true) (hOk : x.scopeOk (some (bitsOf w.toNat 0 3)) = false) :
    execClaScope src h w s = .next (t.streamError (x.take [h, w]) 7).wrapUp := by
  have hTake : (x.take [h, w]).scopeOk (some (bitsOf w.toNat 0 3)) = false := hOk
  rw [execClaScope, State.packet_taken (hdr := some h) hStream hFrom hBrings hGood hTarget ht]
  simp [hLow, hHigh, hPart, hTake]

theorem execClaScope_array (hPart : w.getLsbD 16 = false) (hOk : x.scopeOk none = true) :
    execClaScope src h w s = .next ((((t.setRegions (List.range 8) 1).wr claStatusLoaded 0).wr claStatusGo 0).showStream
      { x.take [h, w] with scope := some none, written := [] }).wrapUp := by
  have hTake : (x.take [h, w]).scopeOk none = true := hOk
  rw [execClaScope, State.packet_taken (hdr := some h) hStream hFrom hBrings hGood hTarget ht]
  simp only [Option.toList_some, List.singleton_append, hLow, hHigh, hPart, hTake, ClaStream.regions, ne_eq, not_true_eq_false, or_self,
    Bool.not_true, Bool.false_eq_true, if_false, if_true]

end

end

section
variable {ws : List Word32} (hTarget : bitsOf h.toNat 24 8 = 0x22) (hBrings : s.brings x (h :: ws) = true)
  (ht : t = s.fetchedExt x (ws.length + 1))
include hTarget hBrings ht

/-- Frame data needs the device's ID and ARM, whole frames, and then writes them one after the other. -/
theorem execClaFrameData_eq :
    execClaFrameData src h ws s = .next (if !x.idOk || !x.armed then t.streamError (x.take (h :: ws)) 4
      else if bitsOf h.toNat 0 20 % 96 ≠ 0 then t.streamError (x.take (h :: ws)) 5
      else t.writeFrames (x.take (h :: ws)) (chunk 96 (ws.length / 96) ws)).wrapUp := by
  rw [execClaFrameData, State.packet_taken (hdr := some h) hStream hFrom hBrings hGood hTarget ht]
  rfl

theorem execClaFrameData_closed (h : x.idOk = false ∨ x.armed = false) :
    execClaFrameData src ‹_› ws s = .next (t.streamError (x.take (‹_› :: ws)) 4).wrapUp := by
  have hClosed : (!x.idOk || !x.armed) = true := by rcases h with h | h <;> simp [h]
  rw [execClaFrameData_eq hStream hFrom hGood hTarget hBrings ht, if_pos hClosed]

theorem execClaFrameData_partial (hId : x.idOk = true) (hArm : x.armed = true) (hPart : bitsOf h.toNat 0 20 % 96 ≠ 0) :
    execClaFrameData src h ws s = .next (t.streamError (x.take (h :: ws)) 5).wrapUp := by
  rw [execClaFrameData_eq hStream hFrom hGood hTarget hBrings ht, if_neg (by simp [hId, hArm]), if_pos hPart]

theorem execClaFrameData_frame (hId : x.idOk = true) (hArm : x.armed = true) (hWhole : bitsOf h.toNat 0 20 % 96 = 0)
    (hLen : ws.length = 96) : execClaFrameData src h ws s = .next (t.writeFrames (x.take (h :: ws)) [ws]).wrapUp := by
  have hChunk : chunk 96 (ws.length / 96) ws = [ws] := by
    rw [hLen]
    simp [chunk, List.take_of_length_le hLen.le]
  rw [execClaFrameData_eq hStream hFrom hGood hTarget hBrings ht, if_neg (by simp [hId, hArm]), if_neg (by simp [hWhole]), hChunk]

end

/-- CHECK is compared with the check of the words before it. -/
theorem execClaCheck_eq {lo hi : Word32} (hTarget : bitsOf h.toNat 24 8 = 0x27) (hLen : bitsOf h.toNat 0 20 = 2)
    (hBrings : s.brings x [h, lo, hi] = true) (ht : t = s.fetchedExt x 3) :
    execClaCheck src h [lo, hi] s = .next (if (~~~ x.crc).toNat = lo.toNat + 2 ^ 32 * hi.toNat
      then t.showStream { x.take [h, lo, hi] with checkOk := true } else t.streamError (x.take [h, lo, hi]) 8).wrapUp := by
  rw [execClaCheck, State.packet_taken (hdr := some h) hStream hFrom hBrings hGood hTarget ht]
  simp [hStream, hLen]

end

/-- An action packet has the effect of its action. -/
theorem State.packet_action {s t : State} {x : ClaStream} {src : ClaSrc} {hdr : Option Word32} (w : Word32)
    (f : State → ClaStream → State) (hStream : s.cla.stream = some x) (hFrom : x.isFrom src = true)
    (hHead : ∀ h, hdr = some h → headerErr h.toNat = none ∧ bitsOf h.toNat 24 8 = 0x23)
    (ht : t = s.fetchedExt x (hdr.toList.length + 1)) (hBrings : s.brings x (hdr.toList ++ [w]) = true) :
    s.packet src 0x23 hdr [w] f = f t (x.take (hdr.toList ++ [w])) :=
  State.packet_taken hStream hFrom hBrings (packetHeader_action hHead).1 (packetHeader_action hHead).2
    (by rw [ht, List.length_append, List.length_singleton])

/-! ### What a packet of no effect does -/

section
variable {s t : State} {x : ClaStream} {src : ClaSrc} (h : Word32) (hStream : s.cla.stream = some x)
include hStream

theorem execClaIdle_otherSource (hFrom : x.isFrom src = false) : execClaIdle src h s = .next s.wrapUp := by
  rw [execClaIdle, State.packet_otherSource hStream hFrom]

theorem execClaIdle_notHeld (hBrings : s.brings x [h] = false) : execClaIdle src h s = .next s.wrapUp := by
  rw [execClaIdle, State.packet_notHeld (hdr := some h) hStream hBrings]

theorem execClaIdle_badHeader {e : Nat} (hFrom : x.isFrom src = true) (hBad : headerErr h.toNat = some e)
    (hBrings : s.brings x [h] = true) (ht : t = s.fetchedExt x 1) :
    execClaIdle src h s = .next (t.streamError { x with words := x.words + 1 } e).wrapUp := by
  rw [execClaIdle, State.packet_badHeader (hdr := some h) hStream hFrom hBrings hBad ht]

omit h

theorem execClaStreamSourceEnd_otherSource (hFrom : x.isFrom src = false) : execClaStreamSourceEnd src s = .next s.wrapUp := by
  simp [execClaStreamSourceEnd, hStream, hFrom]

theorem execClaStreamSourceEnd_own (hFrom : x.isFrom src = true) :
    execClaStreamSourceEnd src s = .next (s.streamError x 9).wrapUp := by
  simp [execClaStreamSourceEnd, hStream, hFrom]

end

/-! ### Frames: R370 -/

@[simp] theorem State.showStream_cla (s : State) (x : ClaStream) : (s.showStream x).cla = { s.cla with stream := some x } := by
  rw [State.showStream, State.wr_cla, State.wr_cla, State.wr_cla, State.wr_cla]

theorem State.writeFrames_bad {s : State} {x : ClaStream} (ws : List Word32) (h : x.badFrame x.column x.minor = true) :
    s.writeFrames x [ws] = s.streamError x 6 := if_pos h

/-- The stream after a frame: the frame is one of its own, its check starts again, and the pointer is at the next frame. -/
def ClaStream.wrote (x : ClaStream) : ClaStream :=
  { x with written := frameNo x.column x.minor :: x.written, checkOk := false,
           column := if colFrames x.column ≤ x.minor + 1 then x.column + 1 else x.column,
           minor := if colFrames x.column ≤ x.minor + 1 then 0 else x.minor + 1 }

theorem State.writeFrames_one {s : State} {x : ClaStream} (ws : List Word32) (h : x.badFrame x.column x.minor = false) :
    s.writeFrames x [ws] = { s with cla := { s.cla with
      frames := s.cla.frames.set (fun _ => []) (frameNo x.column x.minor) ws } }.showStream x.wrote := by
  rw [State.writeFrames, if_neg (Bool.eq_false_iff.mp h)]
  simp only [State.writeFrames, ClaStream.wrote, decide_eq_true_eq]

/-! ### Stream errors: R373 -/

/-- A held message's send writes the registers of the held messages only. -/
theorem State.sendHeld_fieldsKept (s : State) (kind : Nat) (payload : List Byte) :
    s.fieldsKept [mgtRptDropCount, mgtRptPendingCount] (s.sendHeld kind payload) := by
  have hRoom : s.fieldsKept [mgtRptDropCount, mgtRptPendingCount] s.makeRoom := by
    unfold State.makeRoom
    split
    · exact State.fieldsKept_refl _ _
    · exact State.fieldsKept_count (State.fieldsKept_refl _ _) mgtRptDropCount 1 (by decide) (by decide)
  exact State.fieldsKept_wr (State.fieldsKept_regs hRoom rfl) mgtRptPendingCount _ (by decide) (by decide)

theorem State.rd_claEventMsg (s : State) (kind region err words : Nat) {f : Fld}
    (h : [mgtRptDropCount, mgtRptPendingCount].all (fun g => g.apart f) = true) :
    (s.claEventMsg kind region err words).rd f = s.rd f :=
  State.sendHeld_fieldsKept s _ _ f h

theorem State.claEventMsg_still (s : State) (kind region err words : Nat) : (s.claEventMsg kind region err words).still = s.still :=
  State.sendHeld_still ..

theorem State.cla_of_still {s t : State} (h : t.still = s.still) : t.cla = s.cla :=
  (congrArg State.cla h : t.still.cla = s.still.cla)


/-- A region that does not run takes its state with nothing to isolate. -/
theorem State.setRegion_still (s : State) {r st : Nat} (h : s.regionRunning r = false) :
    s.setRegion r st = (s.wr (claRegionState r) st).wrBit claStatusRunning r (decide (st = 3)) := by
  simp [State.setRegion, h]

theorem claRegionState_apart {r : Nat} (hr : r < 8) {f : Fld} (h : claRegion 8 ≤ f.addr ∨ f.addr < claRegion 0) :
    (claRegionState r).addr ≠ f.addr := by
  simp only [claRegionState, claRegion] at h ⊢
  omega

section
variable {s : State} {r err : Nat} (hIdle : s.regionRunning r = false)

/-- The state an error of region `r` leaves before the stream ends. -/
def State.badRegion (s : State) (r err : Nat) : State :=
  let s1 := s.setRegions [r] 4
  { s1 with cla := { s1.cla with crcFailed := setBits s1.cla.crcFailed r 1 (decide (err = 8)).toNat } }

/-- An error of a partial stream, after its region is BAD: the error is shown, the stream ends, and a message says so. -/
theorem State.streamError_region (s : State) {x : ClaStream} (hScope : x.scope = some (some r)) :
    s.streamError x err = (((((s.badRegion r err).wr claStatusErr err).wr claCfgStatErr err).event claEventStreamErr).endStream
      x err).claEventMsg 2 x.unit err x.words := by
  have hWhole : ¬ x.scope = some none := by simp [hScope]
  have hRegions : x.regions = [r] := by simp [ClaStream.regions, hScope]
  simp only [State.streamError, State.badRegion, hRegions, if_neg hWhole, List.foldl_cons, List.foldl_nil]

theorem State.endStream_icp (s : State) {x : ClaStream} (hOwner : x.owner = .icp) :
    s.endStream x err = { s with cla := { s.cla with stream := none } }.wr claCfgStatSynced 0 := by
  simp only [State.endStream, hOwner]

theorem State.rd_wr_withCla (s : State) (c : ClaSt) (f g : Fld) (v : Nat) : ({ s with cla := c }.wr f v).rd g = (s.wr f v).rd g := rfl

/-- What the registers show of a stream error and of the stream's end. -/
def State.showStreamErr (s : State) (err : Nat) : State :=
  (((s.wr claStatusErr err).wr claCfgStatErr err).event claEventStreamErr).wr claCfgStatSynced 0

/-- The fields that an ICP stream's error leaves, but for those of the held message. -/
theorem State.rd_streamError_icp (s : State) {x : ClaStream} (hScope : x.scope = some (some r)) (hOwner : x.owner = .icp) {f : Fld}
    (hf : [mgtRptDropCount, mgtRptPendingCount].all (fun g => g.apart f) = true) :
    (s.streamError x err).rd f = ((s.badRegion r err).showStreamErr err).rd f := by
  rw [State.streamError_region s hScope, State.endStream_icp _ hOwner, State.rd_claEventMsg _ _ _ _ _ hf, State.rd_wr_withCla]
  exact Eq.refl _

theorem State.cla_streamError_icp (s : State) {x : ClaStream} (hScope : x.scope = some (some r)) (hOwner : x.owner = .icp) :
    (s.streamError x err).cla.stream = none := by
  rw [State.streamError_region s hScope, State.endStream_icp _ hOwner, State.cla_of_still (State.claEventMsg_still ..), State.wr_cla]

theorem State.showStreamErr_err (s : State) (hErr : err < 256) : (s.showStreamErr err).rd claStatusErr = err := by
  rw [State.showStreamErr, State.rd_wr_apart _ _ (by decide) (by decide), State.rd_event_apart _ (by decide) (by decide),
    State.rd_wr_apart _ _ (by decide) (by decide), State.rd_wr_fits _ (by decide) hErr]

theorem State.showStreamErr_cfgErr (s : State) (hErr : err < 256) : (s.showStreamErr err).rd claCfgStatErr = err := by
  rw [State.showStreamErr, State.rd_wr_apart _ _ (by decide) (by decide), State.rd_event_apart _ (by decide) (by decide),
    State.rd_wr_fits _ (by decide) hErr]

theorem State.showStreamErr_event (s : State) : (s.showStreamErr err).rd claEventStreamErr = 1 := by
  rw [State.showStreamErr, State.rd_wr_apart _ _ (by decide) (by decide), State.rd_event_same _ (by decide) (by decide)]

theorem State.showStreamErr_synced (s : State) : (s.showStreamErr err).rd claCfgStatSynced = 0 :=
  State.rd_wr_fits _ (by decide) (by decide)

theorem State.showStreamErr_region (s : State) (hr : r < 8) : (s.showStreamErr err).rd (claRegionState r) = s.rd (claRegionState r) := by
  have hKept : ∀ (t : State) (f : Fld) (v : Nat), claRegion 8 ≤ f.addr ∨ f.addr < claRegion 0 →
      (t.wr f v).rd (claRegionState r) = t.rd (claRegionState r) := fun t f v h => State.rd_wr_ne _ _ _ _ (claRegionState_apart hr h)
  rw [State.showStreamErr, hKept _ _ _ (by decide), State.event, hKept _ _ _ (by decide), hKept _ _ _ (by decide),
    hKept _ _ _ (by decide)]

include hIdle in
theorem State.badRegion_state (hr : r < 8) : (s.badRegion r err).rd (claRegionState r) = 4 := by
  have hSet : s.setRegions [r] 4 = (s.wr (claRegionState r) 4).wrBit claStatusRunning r false := State.setRegion_still s hIdle
  have hWidth : (4 : Nat) < 2 ^ 3 := by decide
  rw [State.badRegion, State.rd_withCla, hSet, State.wrBit, State.rd_wr_ne _ _ _ _ (claRegionState_apart hr (by decide)),
    State.rd_wr_fits _ (f := claRegionState r) (Nat.le_of_ble_eq_true rfl) hWidth]

end

theorem claRegionState_apart_msgs {r : Nat} (hr : r < 8) :
    [mgtRptDropCount, mgtRptPendingCount].all (fun g => g.apart (claRegionState r)) = true := by
  interval_cases r <;> decide

/-! ### The end of a bus pass: R376 -/

section
variable {s : State} {n : Nat} (hSending : s.cla.sending = true) (hn : n = s.cla.passes + 1)
include hSending hn

theorem execClaBusPassEnd_high : execClaBusPassEnd true s =
    .next { s with cla := { s.cla with passes := n, sending := false } } := by
  simp [execClaBusPassEnd, hSending, hn]

theorem execClaBusPassEnd_again (hMore : n < Nat.max 1 (s.rd claBusCfgRepeat)) :
    execClaBusPassEnd false s = .next ({ s with cla := { s.cla with passes := n } }.emit .busPass) := by
  subst hn
  simp only [execClaBusPassEnd, hSending, Bool.not_true, Bool.false_eq_true, if_false, false_or, if_neg (Nat.not_le.mpr hMore)]

end

end Sys2Proof.Machine

namespace Sys2Proof

open Machine Machine.Reg

/-- Settles O47: each clause is its packet's lemma above. -/
theorem claStreams : Obligations.ClaStreams := by
  refine ⟨fun s r hFree hOn hr => ?sync, fun s x src hStream => execClaSync_taken src hStream,
    fun s t x src h hStream hFrom hGood hTarget hBrings ht => execClaIdle_taken hStream hFrom hGood hTarget hBrings ht,
    fun s t x src h w hStream hFrom hGood hBrings ht =>
      ⟨execClaFramePtr_points hStream hFrom hGood hBrings ht, execClaFramePtr_beyond hStream hFrom hGood hBrings ht, fun hTarget => ?id,
        fun hTarget hLow hHigh hPart => ⟨execClaScope_region hStream hFrom hGood hBrings ht hTarget hLow hHigh hPart,
          execClaScope_refused hStream hFrom hGood hBrings ht hTarget hLow hHigh hPart⟩,
        execClaScope_array hStream hFrom hGood hBrings ht⟩,
    fun s t x src hdr hStream hFrom hHead ht => ?actions,
    fun s t x src h ws hStream hFrom hGood hTarget hBrings ht =>
      ⟨execClaFrameData_closed hStream hFrom hGood hTarget hBrings ht, execClaFrameData_partial hStream hFrom hGood hTarget hBrings ht,
        execClaFrameData_frame hStream hFrom hGood hTarget hBrings ht⟩,
    fun s x ws _ => ⟨State.writeFrames_bad ws, fun hFrame => ?frame⟩,
    fun s t x src h lo hi hStream hFrom hGood hTarget hLen hBrings ht => ?check,
    fun s x src h hStream =>
      ⟨fun hFrom => ⟨execClaIdle_otherSource h hStream hFrom, execClaStreamSourceEnd_otherSource hStream hFrom⟩,
        fun e t hFrom => execClaIdle_badHeader h hStream hFrom, execClaIdle_notHeld h hStream, execClaStreamSourceEnd_own hStream⟩,
    fun s r x err => ?error, fun s n hSending hn => ⟨execClaBusPassEnd_high hSending hn, execClaBusPassEnd_again hSending hn⟩⟩
  case sync =>
    subst hr
    exact ⟨execClaSync_full hFree hOn, execClaSync_icp hFree hOn, execClaSync_extPartial hFree hOn, execClaSync_extFull hFree hOn⟩
  case id =>
    rw [exec_claDeviceId, execClaDeviceId_eq hStream hFrom hGood hBrings ht hTarget]
    exact ⟨fun hw => by rw [if_pos hw], fun hw => by rw [if_neg hw]⟩
  case actions =>
    have hAction := fun w f => State.packet_action w f hStream hFrom hHead ht
    refine ⟨fun hBrings => ?_, fun w hw hBrings => ?_, fun hBrings => ?_, fun hBrings => ?_, fun hBrings => ?_, fun hBrings => ?_⟩
    · rw [exec_claActionNone, execClaActionNone, hAction _ _ hBrings, if_pos (Eq.refl _)]
    · rw [exec_claActionNone, execClaActionNone, hAction _ _ hBrings, if_neg hw]
    · rw [exec_claClearCheck, execClaClearCheck, hAction _ _ hBrings]
    · rw [exec_claArm, execClaArm, hAction _ _ hBrings]
    · rw [exec_claCommit, execClaCommit, hAction _ _ hBrings]
    · rw [exec_claEnd, execClaEnd, hAction _ _ hBrings]
  case frame =>
    refine ⟨_, State.writeFrames_one ws hFrame, ?_, fun n hn => ?_, x.wrote, ?_, rfl, rfl, rfl, rfl⟩ <;> rw [State.showStream_cla]
    · exact s.cla.frames.get_set_same (fun _ => []) _ ws
    · exact s.cla.frames.get_set_ne (fun _ => []) ws hn
  case check =>
    rw [exec_claCheck, execClaCheck_eq hStream hFrom hGood hTarget hLen hBrings ht]
    exact ⟨fun hSame => by rw [if_pos hSame], fun hOther => by rw [if_neg hOther]⟩
  case error =>
    intro hIdle hScope hr hErr hOwner
    have hShown := fun f => State.rd_streamError_icp (err := err) s hScope hOwner (f := f)
    refine ⟨_, rfl, State.cla_streamError_icp s hScope hOwner, ?_, ?_, ?_, ?_, ?_⟩
    · rw [State.regionState, hShown _ (claRegionState_apart_msgs hr), State.showStreamErr_region _ hr, State.badRegion_state hIdle hr]
    · rw [hShown _ (by decide), State.showStreamErr_err _ hErr]
    · rw [hShown _ (by decide), State.showStreamErr_cfgErr _ hErr]
    · rw [hShown _ (by decide), State.showStreamErr_event]
    · rw [hShown _ (by decide), State.showStreamErr_synced]

end Sys2Proof
end

section
/-!
PROOF. The Beat Unit (02_the_beat.md): its edges, window losses, holdover, ticks and slip checks.
-/
namespace Sys2Proof.Machine

open Reg

theorem exec_beatRefEdge (t ptp : Nat) (s : State) : exec (.beatRefEdge t ptp) s = execBeatRefEdge t ptp s := rfl

theorem exec_beatDerivedEdge (t ptp : Nat) (s : State) : exec (.beatDerivedEdge t ptp) s = execBeatDerivedEdge t ptp s := rfl

theorem exec_beatLoss (t : Nat) (s : State) : exec (.beatLoss t) s = execBeatLoss t s := rfl

theorem exec_beatLost (s : State) : exec .beatLost s = execBeatLost s := rfl

theorem exec_beatTick (ecc : List EccEvent) (net : List NetFrame) (s : State) : exec (.beatTick ecc net) s = execBeatTick ecc net s := rfl

theorem exec_slipCheck (ptp : Nat) (s : State) : exec (.slipCheck ptp) s = execSlipCheck ptp s := rfl

/-! ### Reading registers past the beat -/

theorem State.rd_withBeat (s : State) (b : BeatSt) (f : Fld) : ({ s with beat := b } : State).rd f = s.rd f := rfl

theorem State.rd_setBeat (s : State) (b : BeatSt) (f : Fld) : (s.setBeat b).rd f = s.rd f := rfl

@[simp] theorem State.setBeat_beat (s : State) (b : BeatSt) : (s.setBeat b).beat = b := rfl

theorem State.setBeat_setBeat (s : State) (b c : BeatSt) : (s.setBeat b).setBeat c = s.setBeat c := rfl

theorem State.locked_iff {s : State} : s.locked = true ↔ s.rd beatStatusState = 1 := beq_iff_eq

theorem State.notLocked_iff {s : State} : s.locked = false ↔ s.rd beatStatusState ≠ 1 := beq_eq_false_iff_ne

/-! ### A qualified edge: R32, R39 -/

/-- The periods, with the edge that has come, and the mean of the last 256 as the prediction's step. -/
theorem State.steer_mean (s : State) (t : Nat) {ps : List Nat} (h : ps ≠ []) :
    s.steer t ps = (let m := (ps.take 256).sum / (ps.take 256).length
      { s with beat := { s.beat with periods := ps.take 256, lastEdge := some t, pred := t + m } }.wr beatPeriodPeriod m) := by
  have hSome : ps.take 256 ≠ [] := fun hNil => (List.take_eq_nil_iff.mp hNil).elim (by decide) h
  have hSteer : ∀ m, (s.setBeat { s.beat with periods := ps.take 256, lastEdge := some t }).period = m → s.steer t ps =
      { s with beat := { s.beat with periods := ps.take 256, lastEdge := some t, pred := t + m } }.wr beatPeriodPeriod m := fun m hm => by
    subst hm
    exact Eq.refl _
  exact hSteer _ (if_neg hSome)

theorem State.rd_steer (s : State) (t : Nat) (ps : List Nat) {f : Fld} (h : f.addr ≠ beatPeriod) : (s.steer t ps).rd f = s.rd f :=
  (State.rd_wr_ne _ _ _ _ h).trans (State.rd_setBeat ..)

theorem State.beat_steer (s : State) (t : Nat) (ps : List Nat) :
    (s.steer t ps).beat.delayInForce = s.beat.delayInForce ∧ (s.steer t ps).beat.renum = s.beat.renum := by
  rw [State.steer, State.wr_beat]
  exact ⟨Eq.refl _, Eq.refl _⟩

theorem State.rd_holdPhase (s : State) (f : Fld) : s.holdPhase.rd f = s.rd f := State.rd_setBeat ..

theorem State.beat_holdPhase (s : State) :
    s.holdPhase.beat.delayInForce = s.beat.delayInForce ∧ s.holdPhase.beat.renum = s.beat.renum := ⟨rfl, rfl⟩

theorem State.ptpNumbers_other {s : State} (h : 2 ≤ s.rd beatCtlNumSrc) : s.ptpNumbers = false := by
  simp [State.ptpNumbers, Nat.not_le.mpr h]

/-- A qualified edge with the delay as it was, no renumbering and no PTP steers the PLL and holds the phase. -/
theorem State.qualified_plain {s : State} {t : Nat} (ptp : Nat) (hDelay : s.rd beatCompDelay = s.beat.delayInForce)
    (hRenum : s.beat.renum = false) (hNum : 2 ≤ s.rd beatCtlNumSrc) :
    s.qualified t ptp = (s.steer t ((t - s.beat.lastEdge.getD t) :: s.beat.periods)).holdPhase := by
  obtain ⟨u, hu⟩ : ∃ u, u = (s.steer t ((t - s.beat.lastEdge.getD t) :: s.beat.periods)).holdPhase := ⟨_, rfl⟩
  have hRd : ∀ f : Fld, f.addr ≠ beatPeriod → u.rd f = s.rd f := fun f hf => by rw [hu, State.rd_holdPhase, State.rd_steer _ _ _ hf]
  have hPtp : u.ptpNumbers = false := State.ptpNumbers_other (by rw [hRd _ (by decide)]; exact hNum)
  have hSame : ((u.rd beatCompDelay : Int) - u.beat.delayInForce) = 0 := by
    rw [hRd _ (by decide), hDelay, hu, (State.beat_holdPhase _).1, (State.beat_steer ..).1, Int.sub_self]
  have hOld : u.beat.renum = false := by rw [hu, (State.beat_holdPhase _).2, (State.beat_steer ..).2, hRenum]
  have hResidual : u.residual ptp = u := by simp [State.residual, hPtp]
  simp only [State.qualified, ← hu, hResidual, hSame, if_true, hOld, hPtp, Bool.and_false, Bool.false_eq_true, if_false]

/-- The phase is held within ±32 units of DELAY. -/
theorem State.holdPhase_bound {s : State} (hSlew : s.beat.slew = 0) (hShare : s.beat.share = 0) (hLow : 32 ≤ s.beat.delayInForce)
    (hHigh : s.beat.delayInForce < 32768) (hPhase : s.beat.phase < s.beat.delayInForce + 32768) :
    ∃ p, s.holdPhase = { s with beat := { s.beat with phase := p } } ∧ s.beat.delayInForce ≤ p + 32 ∧ p ≤ s.beat.delayInForce + 32 ∧
      (s.beat.delayInForce ≤ s.beat.phase + 32 → s.beat.phase ≤ s.beat.delayInForce + 32 → p = s.beat.phase) := by
  have hAhead : s.beat.ahead = (s.beat.phase : Int) - s.beat.delayInForce := by
    rw [BeatSt.ahead, hSlew, hShare]
    omega
  refine ⟨_, rfl, ?_⟩
  rw [hAhead, lockBound]
  omega

section
variable {s : State} {t : Nat} (ptp : Nat) (hAon : s.pwr.aon = true)
include hAon

section
variable (hSrc : s.rd beatCtlSrc = 0)
include hSrc

theorem execBeatRefEdge_qualified (hLocked : s.rd beatStatusState = 1) (hLow : 200 * s.beat.pred ≤ 200 * t + s.period)
    (hHigh : 200 * t ≤ 200 * s.beat.pred + s.period) (hDelay : s.rd beatCompDelay = s.beat.delayInForce)
    (hRenum : s.beat.renum = false) (hNum : 2 ≤ s.rd beatCtlNumSrc) :
    execBeatRefEdge t ptp s = .next ((s.steer t ((t - s.beat.lastEdge.getD t) :: s.beat.periods)).holdPhase).wrapUp := by
  have hIn : s.inWindow t = true := by simp [State.inWindow, hLow, hHigh]
  simp [execBeatRefEdge, hAon, State.on_of_rd_zero hSrc, State.locked_iff.mpr hLocked, hIn, State.qualified_plain ptp hDelay hRenum hNum]

theorem execBeatRefEdge_early (hLocked : s.rd beatStatusState = 1) (hEarly : 200 * t + s.period < 200 * s.beat.pred) :
    execBeatRefEdge t ptp s = .next (s.event beatEventGlitch).wrapUp := by
  have hOut : s.inWindow t = false := by simp [State.inWindow, Nat.not_le.mpr hEarly]
  have hNotOver : s.windowOver t = false := decide_eq_false (by omega)
  simp [execBeatRefEdge, hAon, State.on_of_rd_zero hSrc, State.locked_iff.mpr hLocked, hOut, hNotOver]

theorem execBeatRefEdge_run (hState : s.rd beatStatusState ≠ 1) : execBeatRefEdge t ptp s = .next (s.runEdge t ptp).wrapUp := by
  simp [execBeatRefEdge, hAon, State.on_of_rd_zero hSrc, State.notLocked_iff.mpr hState]

end

end

/-! ### Acquisition: R33 -/

theorem inRun_iff {p : Nat} : inRun p = true ↔ 159960 ≤ p ∧ p ≤ 160040 := by
  rw [inRun, Bool.and_eq_true, decide_eq_true_iff, decide_eq_true_iff, nominal]
  omega

section
variable {s : State} {t l : Nat} (ptp : Nat) (hLast : s.beat.lastEdge = some l)
include hLast

theorem State.runEdge_lengthens (hLow : 159960 ≤ t - l) (hHigh : t - l ≤ 160040) (hRun : 1 ≤ s.beat.run) (hShort : s.beat.run < 15) :
    s.runEdge t ptp = { s with beat := { s.beat with run := s.beat.run + 1, runFirst := s.beat.runFirst, lastEdge := some t } } := by
  have hIn : inRun (t - l) = true ∧ s.beat.run ≠ 0 := ⟨inRun_iff.mpr ⟨hLow, hHigh⟩, by omega⟩
  simp only [State.runEdge, hLast, if_pos hIn, if_neg (show s.beat.run + 1 ≠ 1 by omega), if_pos (show s.beat.run + 1 < 16 by omega),
    State.setBeat]

theorem State.runEdge_restarts (hOut : t - l < 159960 ∨ 160040 < t - l) :
    s.runEdge t ptp = { s with beat := { s.beat with run := 1, runFirst := t, lastEdge := some t } } := by
  have hNot : ¬ (inRun (t - l) = true ∧ s.beat.run ≠ 0) := fun h => by
    have hIn := inRun_iff.mp h.1
    omega
  simp only [State.runEdge, hLast, if_neg hNot, if_true, if_pos (show (1 : Nat) < 16 by decide), State.setBeat]

/-- The 16th edge of a run locks the unit on the mean of its periods. -/
theorem State.runEdge_locks (hLow : 159960 ≤ t - l) (hHigh : t - l ≤ 160040) (hRun : s.beat.run = 15) :
    s.runEdge t ptp = ({ s with beat := { s.beat with run := 16, runFirst := s.beat.runFirst, lastEdge := some t } }).lock t ptp
      (List.replicate 15 ((t - s.beat.runFirst) / 15)) := by
  have hIn : inRun (t - l) = true ∧ s.beat.run ≠ 0 := ⟨inRun_iff.mpr ⟨hLow, hHigh⟩, by omega⟩
  simp only [State.runEdge, hLast, if_pos hIn]
  rw [hRun, if_neg (show ¬ (15 + 1 = 1) by decide), if_neg (show ¬ (15 + 1 < 16) by decide)]
  exact Eq.refl _

end

/-- A unit that acquires numbers the beat, enters LOCKED and says so. -/
theorem State.lock_acquires {s u : State} {t ptp : Nat} {ps : List Nat} (hu : u = s.steer t ps) (hState : s.rd beatStatusState = 0) :
    s.lock t ptp ps = (((({ u with beat := { u.beat with run := 0, renum := false, delayInForce := u.rd beatCompDelay } }).numberAtLock
      ptp).setBeatState 1).event beatEventAcquired) := by
  have hZero : s.beatState = 0 := hState
  simp only [State.lock, if_pos hZero, ← hu, State.setBeat_beat, State.setBeat_setBeat, State.rd_setBeat]
  exact Eq.refl _

section
variable {s : State} {t : Nat} (ptp : Nat) (hAon : s.pwr.aon = true) (hSrc : s.rd beatCtlSrc = 1)
include hAon hSrc

theorem execBeatDerivedEdge_qualified (hLocked : s.rd beatStatusState = 1) (hDelay : s.rd beatCompDelay = s.beat.delayInForce)
    (hRenum : s.beat.renum = false) (hNum : 2 ≤ s.rd beatCtlNumSrc) :
    execBeatDerivedEdge t ptp s = .next ((s.steer t ((t - s.beat.lastEdge.getD t) :: s.beat.periods)).holdPhase).wrapUp := by
  simp [execBeatDerivedEdge, hAon, State.on_of_rd_one hSrc, State.locked_iff.mpr hLocked, State.qualified_plain ptp hDelay hRenum hNum]

theorem execBeatDerivedEdge_first (hState : s.rd beatStatusState = 0) :
    execBeatDerivedEdge t ptp s = .next (s.lock t ptp [160000]).wrapUp := by
  have hNot : s.locked = false := State.notLocked_iff.mpr (by omega)
  simp [execBeatDerivedEdge, hAon, State.on_of_rd_one hSrc, hNot, nominal]

end

/-! ### Holdover: R42 -/

theorem State.parts_wr (s : State) (f : Fld) (v : Nat) : (s.wr f v).parts = s.parts := rfl

theorem State.parts_setBeat (s : State) (b : BeatSt) : (s.setBeat b).parts = s.parts := rfl

theorem execBeatLoss_closed {s : State} {t : Nat} (hAon : s.pwr.aon = true) (hSrc : s.rd beatCtlSrc = 0)
    (hLocked : s.rd beatStatusState = 1) (hOver : 200 * s.beat.pred + s.period < 200 * t) :
    execBeatLoss t s = .next (((((({ s with beat := { s.beat with run := 0, lastEdge := none, renum := false } }.wr
      beatStatusHoldCount 0).wr beatStatusState 2).hostEvent s.parts).holdPin).event beatEventLoss).report 4) := by
  have hWindow : s.windowOver t = true := decide_eq_true hOver
  rw [execBeatLoss, hAon, State.locked_iff.mpr hLocked, State.on_of_rd_zero hSrc, hWindow, State.loseBeat, State.enterHoldover,
    State.setBeatState, State.parts_wr, State.parts_setBeat, State.setBeat,
    Bool.not_false, Bool.and_self, Bool.and_self, Bool.and_self, if_pos (Eq.refl true)]

theorem execBeatLost_after {s : State} (hState : s.rd beatStatusState = 2) (hCount : s.rd beatStatusHoldCount = 10000) :
    execBeatLost s = .next ((((((s.wr beatStatusState 3).hostEvent s.parts).holdPin).event beatEventLost).report 4).faultBeatLocked
      4).wrapUp := by
  rw [execBeatLost, if_pos ⟨hState, hCount⟩, State.setBeatState]

/-! ### The tick: R26, R28, R41 -/

theorem State.traceEpoch_same {s : State} {old : Nat} (h : s.beat.num / 2 ^ 48 = old / 2 ^ 48) : s.traceEpoch old = s := if_pos h

/-- The beat after a tick, with no slew under way. -/
def BeatSt.next (b : BeatSt) : BeatSt := { b with num := b.num + 1, phase := 0, ticks := b.ticks + 1, interp := 0, share := 0 }

/-- A tick's own part: the number rises by 1, phase and interpolator return to 0. -/
theorem State.nextBeat_plain {s : State} (hSlew : s.beat.slew = 0) (hNum : s.beat.num + 1 < 2 ^ 48) :
    s.nextBeat = (s.setBeat s.beat.next).wr beatStatusSlewing 0 := by
  have hMod : (s.beat.num + 1) % 2 ^ 64 = s.beat.num + 1 := Nat.mod_eq_of_lt (hNum.trans (by decide))
  have hShare : slewShare 0 = 0 := rfl
  have hSame : { s.beat.next with slew := 0 } = s.beat.next := by rw [← hSlew]; rfl
  have hHigh : s.beat.next.num / 2 ^ 48 = s.beat.num / 2 ^ 48 :=
    (Nat.div_eq_of_lt hNum).trans (Nat.div_eq_of_lt (Nat.lt_of_succ_lt hNum)).symm
  have hEpoch : ((s.setBeat s.beat.next).wr beatStatusSlewing 0).traceEpoch s.beat.num = (s.setBeat s.beat.next).wr beatStatusSlewing 0 :=
    State.traceEpoch_same (by rw [State.wr_beat, State.setBeat_beat, hHigh])
  rw [← hEpoch]
  simp only [State.nextBeat, hSlew, hShare, Int.sub_zero, hMod]
  rw [← hSame]
  exact Eq.refl _

theorem State.holdTick_other {s : State} (h : s.rd beatStatusState ≠ 2) : s.holdTick = s := if_neg h

theorem State.throttleTick_none {s : State} (h : ∀ d, d < 4 → 100 ≤ s.rd (clkPct d)) : s.throttleTick = s := by
  have hNone : (List.range 4).filter (fun d => decide (s.rd (clkPct d) < 100)) = [] :=
    List.filter_eq_nil_iff.mpr fun d hd => by simpa using h d (List.mem_range.mp hd)
  rw [State.throttleTick, hNone, List.foldl_nil]

theorem State.traceTick_empty {s : State} (h : s.dbg.trace = []) : s.traceTick = s := by
  have hBuffer : ∀ p c, (s.traceCh p c).buffer = [] := fun p c => by rw [State.traceCh, h]; rfl
  exact foldl_same _ _ _ fun p _ => foldl_same _ _ _ fun c _ => if_pos (hBuffer p c)

theorem State.strike_none (s : State) : s.strike [] = s := rfl

theorem State.netRxAll_none (s : State) : s.netRxAll [] = s := ite_self _

theorem clkPct_addr {d : Nat} (h : d < 4) : (clkPct d).addr ≠ beatStatus := by
  interval_cases d <;> decide

theorem execBeatTick_plain {s : State} (hAon : s.pwr.aon = true) (hCool : ∀ d, d < 4 → 100 ≤ s.rd (clkPct d))
    (hTrace : s.dbg.trace = []) (hState : s.rd beatStatusState ≠ 2) (hSlew : s.beat.slew = 0) (hNum : s.beat.num + 1 < 2 ^ 48) :
    execBeatTick [] [] s =
      .next (((s.setBeat s.beat.next).wr beatStatusSlewing 0).risePin).wrapUp := by
  obtain ⟨u, hu⟩ : ∃ u, u = s.nextBeat := ⟨_, rfl⟩
  have hWr := hu.trans (State.nextBeat_plain hSlew hNum)
  have hRd : ∀ f : Fld, beatStatusSlewing.apart f = true → u.rd f = s.rd f := fun f hf => by
    rw [hWr, State.rd_wr_apart _ _ hf (by decide), State.rd_setBeat]
  have hTrace' : u.dbg.trace = [] := by rw [hWr, State.wr_dbg]; exact hTrace
  have hHold : u.holdTick = u := State.holdTick_other (by rw [hRd _ (by decide)]; exact hState)
  have hThrottle : u.throttleTick = u := State.throttleTick_none fun d hd => by
    rw [hWr, State.rd_wr_ne _ _ _ _ (clkPct_addr hd), State.rd_setBeat]
    exact hCool d hd
  simp only [execBeatTick, State.strike_none, State.netRxAll_none, hAon, if_true, ← hu, hHold, hThrottle, State.traceTick_empty hTrace']
  rw [hWr]

/-! ### The slip check: R37 -/

section
variable {s : State} {ptp : Nat} (hLocked : s.rd beatStatusState = 1) (hPtp : s.rd beatStatusPtpLock = 1)
  (hNum : s.beat.num % 65536 = 0) (hPhase : s.beat.phase = 0)
include hLocked hPtp hNum hPhase

theorem execSlipCheck_compares (hFraction : fractionOk (s.ptpNumber ptp).2 = true) :
    execSlipCheck ptp s = .next (let s1 := s.wr beatSlipDiffDiff (twos 32 ((s.ptpNumber ptp).1 - s.beat.num))
      if (s.ptpNumber ptp).1 = s.beat.num then s1 else s1.event beatEventSlip) := by
  simp only [execSlipCheck, State.locked_iff.mpr hLocked, State.on_of_rd_one hPtp, hNum, hPhase, hFraction, Bool.not_true,
    bne_self_eq_false, Bool.or_self, Bool.false_eq_true, if_false]

theorem execSlipCheck_ambiguous (hFraction : fractionOk (s.ptpNumber ptp).2 = false) :
    execSlipCheck ptp s = .next (s.event beatEventAmbig) := by
  simp only [execSlipCheck, State.locked_iff.mpr hLocked, State.on_of_rd_one hPtp, hNum, hPhase, hFraction, Bool.not_true, Bool.not_false,
    bne_self_eq_false, Bool.or_self, Bool.false_eq_true, if_false, if_true]

end

end Sys2Proof.Machine

namespace Sys2Proof

open Machine Machine.Reg

/-- Settles O1: each clause is its edge's, window's or tick's lemma above. -/
theorem beatReference : Obligations.BeatReference := by
  refine ⟨⟨fun s t ptp hAon hSrc hLocked => ⟨execBeatRefEdge_qualified ptp hAon hSrc hLocked, execBeatRefEdge_early ptp hAon hSrc hLocked⟩,
      fun s t ps => State.steer_mean s t, fun s => State.holdPhase_bound, fun s t ptp l hAon hSrc hState hLast => ?run,
      fun s t ptp l hAon hSrc hLocked hNum hDelay hRenum hLast => ?derived, fun s u t ptp hAon hSrc hState hu => ?first⟩,
    ⟨fun s t => execBeatLoss_closed, fun s => execBeatLost_after⟩, fun s => execBeatTick_plain,
    fun s ptp hLocked hPtp hNum hPhase =>
      ⟨execSlipCheck_compares hLocked hPtp hNum hPhase, execSlipCheck_ambiguous hLocked hPtp hNum hPhase⟩⟩
  case run =>
    rw [exec_beatRefEdge, execBeatRefEdge_run ptp hAon hSrc hState]
    refine ⟨fun hLow hHigh hRun hShort => ?_, fun hOut => ?_, fun u hLow hHigh hRun hAcquire hu => ?_⟩
    · rw [State.runEdge_lengthens ptp hLast hLow hHigh hRun hShort]
    · rw [State.runEdge_restarts ptp hLast hOut]
    · rw [State.runEdge_locks ptp hLast hLow hHigh hRun, State.lock_acquires hu hAcquire]
  case derived =>
    have hPlain := execBeatDerivedEdge_qualified (t := t) ptp hAon hSrc hLocked hDelay hRenum hNum
    rw [hLast, Option.getD_some] at hPlain
    exact hPlain
  case first => rw [exec_beatDerivedEdge, execBeatDerivedEdge_first ptp hAon hSrc hState, State.lock_acquires hu hState]

end Sys2Proof
end

section
/-!
PROOF. The Beat Unit's settings and its PTP servo (02_the_beat.md: Beat signals and sources, BEAT registers).
-/
namespace Sys2Proof.Machine

open Reg

theorem exec_beatCompWrite (path : Path) (v : Word32) (s : State) : exec (.beatCompWrite path v) s = execBeatCompWrite path v s := rfl

theorem exec_beatSourceChange (path : Path) (v : Word32) (s : State) :
    exec (.beatSourceChange path v) s = execBeatSourceChange path v s := rfl

theorem exec_renum (path : Path) (s : State) : exec (.renum path) s = execRenum path s := rfl

theorem exec_ptpSyncRx (src : PtpSource) (i : Int) (two : Bool) (d : Int) (s : State) :
    exec (.ptpSyncRx src i two d) s = execPtpSyncRx src i two d s := rfl

theorem exec_ptpFollowUpRx (src : PtpSource) (d : Int) (s : State) : exec (.ptpFollowUpRx src d) s = execPtpFollowUpRx src d s := rfl

theorem exec_ptpDelayRespRx (src : PtpSource) (d : Nat) (s : State) : exec (.ptpDelayRespRx src d) s = execPtpDelayRespRx src d s := rfl

theorem exec_ptpAnnounceRx (src : PtpSource) (a : PtpAnnounce) (s : State) :
    exec (.ptpAnnounceRx src a) s = execPtpAnnounceRx src a s := rfl

/-! ### BEAT_COMP and BEAT_CTL: R40, R43, R47 -/

theorem execBeatCompWrite_mgmt {s : State} (v : Word32) (hAon : s.pwr.aon = true) :
    execBeatCompWrite .mgmt v s = .next (s.wr beatCompDelay v.toNat) := by
  simp [execBeatCompWrite, State.writeBeatComp, hAon]

theorem execBeatCompWrite_pf (f : Fn) (v : Word32) (s : State) : execBeatCompWrite (.pf f) v s = .next s := by
  simp [execBeatCompWrite, State.writeBeatComp]

theorem State.writeBeatCtl_pf (f : Fn) (v : Nat) (s : State) : s.writeBeatCtl (.pf f) v = s := by
  simp [State.writeBeatCtl]

/-- The four fields that a write of BEAT_CTL sets. -/
def State.beatCtlFields (s : State) (v : Nat) : State :=
  (((s.wr beatCtlSrc (bitsOf v 1 1)).wr beatCtlNumSrc (bitsOf v 4 2)).wr beatCtlOutEn (bitsOf v 7 1)).wr beatCtlOutFree (bitsOf v 8 1)

/-- With the source of numbers as it was and no RENUM, a new source is a holdover in LOCKED and restarts the run elsewhere. -/
theorem State.writeBeatCtl_source {s s1 : State} {v : Nat} (hAon : s.pwr.aon = true) (hNum : bitsOf v 4 2 = s.rd beatCtlNumSrc)
    (hSrc : bitsOf v 1 1 ≠ s.rd beatCtlSrc) (hRenum : bitsOf v 9 1 = 0) (hs1 : s1 = s.beatCtlFields v) :
    s.writeBeatCtl .mgmt v = (if s1.beatState = 1 then s1.enterHoldover
      else s1.setBeat { s1.beat with run := 0, lastEdge := none }).holdPin := by
  have hNewNum : (bitsOf v 4 2 ≠ s.rd beatCtlNumSrc) = False := eq_false (not_not_intro hNum)
  have hNewSrc : (bitsOf v 1 1 ≠ s.rd beatCtlSrc) = True := eq_true hSrc
  have hNoRenum : ¬ (bitsOf v 9 1 = 1) := by omega
  rw [State.beatCtlFields] at hs1
  simp only [State.writeBeatCtl, State.mgmtOrDebug_mgmt, hAon, hNewNum, hNewSrc, hNoRenum, ← hs1, Bool.not_true, Bool.or_self,
    Bool.false_eq_true, false_and, if_false, if_true, decide_true]

/-- With both sources as they were, RENUM in LOCKED is remembered. -/
theorem State.writeBeatCtl_renum {s s1 : State} {v : Nat} (hAon : s.pwr.aon = true) (hNum : bitsOf v 4 2 = s.rd beatCtlNumSrc)
    (hSrc : bitsOf v 1 1 = s.rd beatCtlSrc) (hRenum : bitsOf v 9 1 = 1) (hs1 : s1 = s.beatCtlFields v) (hLocked : s1.locked = true) :
    s.writeBeatCtl .mgmt v = (s1.setBeat { s1.beat with renum := true }).holdPin := by
  have hNewNum : (bitsOf v 4 2 ≠ s.rd beatCtlNumSrc) = False := eq_false (not_not_intro hNum)
  have hNewSrc : (bitsOf v 1 1 ≠ s.rd beatCtlSrc) = False := eq_false (not_not_intro hSrc)
  rw [State.beatCtlFields] at hs1
  simp only [State.writeBeatCtl, State.mgmtOrDebug_mgmt, hAon, hNewNum, hNewSrc, hRenum, hLocked, ← hs1, Bool.not_true, Bool.not_false,
    Bool.or_self, Bool.false_eq_true, and_self, if_false, if_true, decide_false]

/-- A field written with what it holds leaves every register as it was. -/
theorem State.reg_wr_own (s : State) (f : Fld) {v : Nat} (h : v = s.rd f) (a : Nat) : (s.wr f v).reg a = s.reg a := by
  rw [State.wr, State.reg_setReg]
  split
  · next hAddr => rw [h, hAddr, State.rd, setBits_bitsOf, BitVec.ofNat_toNat, BitVec.setWidth_eq]
  · rfl

/-- BEAT_CTL written with what it holds, but for RENUM, leaves every register as it was. -/
theorem State.reg_beatCtlFields (s : State) {x a : Nat} :
    (s.beatCtlFields (setBits (s.reg beatCtl).toNat 9 1 x)).reg a = s.reg a := by
  have hBits : ∀ (t : State) (lo w : Nat), t.reg = s.reg → lo + w ≤ 9 →
      bitsOf (setBits (s.reg beatCtl).toNat 9 1 x) lo w = t.rd ⟨beatCtl, lo, w⟩ := fun t lo w ht h => by
    rw [bitsOf_setBits_disjoint _ _ _ _ _ _ (Or.inl h), State.rd, ht]
  have hStep : ∀ (t : State) (lo w : Nat), t.reg = s.reg → lo + w ≤ 9 →
      (t.wr ⟨beatCtl, lo, w⟩ (bitsOf (setBits (s.reg beatCtl).toNat 9 1 x) lo w)).reg = s.reg := fun t lo w ht h =>
    (funext (State.reg_wr_own t _ (hBits t lo w ht h))).trans ht
  have hAll : (s.beatCtlFields (setBits (s.reg beatCtl).toNat 9 1 x)).reg = s.reg :=
    hStep _ 8 1 (hStep _ 7 1 (hStep _ 4 2 (hStep s 1 1 rfl (by decide)) (by decide)) (by decide)) (by decide)
  exact congrFun hAll a

/-- What BEAT_OUT held low changes. -/
theorem State.holdPin_same (s : State) : s.holdPin.regs = s.regs ∧
    s.holdPin = { s with beat := { s.beat with pin := s.holdPin.beat.pin }, out := s.holdPin.out } := by
  unfold State.holdPin State.setPin
  split
  · split <;> exact ⟨rfl, rfl⟩
  · exact ⟨rfl, rfl⟩

theorem State.beatCtlFields_same (s : State) (v : Nat) : s.beatCtlFields v = { s with regs := (s.beatCtlFields v).regs } := rfl

/-- RENUM in LOCKED is remembered, and changes nothing else but what the pin shows. -/
theorem execRenum_locked {s : State} (hAon : s.pwr.aon = true) (hLocked : s.rd beatStatusState = 1) :
    ∃ u, execRenum .mgmt s = .next u ∧ u.beat = { s.beat with renum := true, pin := u.beat.pin } ∧ (∀ g : Fld, u.rd g = s.rd g) ∧
      u = { s with regs := u.regs, beat := u.beat, out := u.out } := by
  obtain ⟨v, hv⟩ : ∃ v, v = setBits (s.reg beatCtl).toNat 9 1 1 := ⟨_, rfl⟩
  obtain ⟨s1, hs1⟩ : ∃ s1, s1 = s.beatCtlFields v := ⟨_, rfl⟩
  have hReg : ∀ g : Fld, s1.rd g = s.rd g := fun g => by rw [State.rd, hs1, hv, State.reg_beatCtlFields, State.rd]
  have hKept : ∀ lo w, lo + w ≤ 9 → bitsOf v lo w = s.rd ⟨beatCtl, lo, w⟩ := fun lo w h => by
    rw [hv, bitsOf_setBits_disjoint _ _ _ _ _ _ (Or.inl h), State.rd]
  have hRenum : bitsOf v 9 1 = 1 := by rw [hv, bitsOf_setBits_same]; decide
  have hStill : s1.locked = true := by rw [State.locked_iff, hReg, hLocked]
  have hWrite := State.writeBeatCtl_renum hAon (hKept 4 2 (by decide)) (hKept 1 1 (by decide)) hRenum hs1 hStill
  have hSame : s1 = { s with regs := s1.regs } := by rw [hs1]; exact State.beatCtlFields_same s v
  obtain ⟨w, hw⟩ : ∃ w, w = s1.setBeat { s1.beat with renum := true } := ⟨_, rfl⟩
  obtain ⟨hRegs, hPin⟩ := State.holdPin_same w
  refine ⟨w.holdPin, by rw [execRenum, ← hv, hWrite, hw], ?_, fun g => ?_, ?_⟩
  · rw [hPin, hw, hSame]
    exact Eq.refl _
  · rw [State.rd, State.reg, hRegs, hw]
    exact hReg g
  · rw [hPin, hw, hSame]
    exact Eq.refl _

/-! ### PTP: R34, Table BEAT-2 -/

/-- An offset within ±1 µs lengthens the servo's run, and the 16th locks it; one outside ends the run and the lock. -/
theorem State.servo_eq {s : State} {d o : Int} (ho : o = Config.ptpFilter s.beat.ptpOffset (d - s.beat.ptpDelay)) :
    s.servo d = if -1000 ≤ o ∧ o ≤ 1000 then
        { s with beat := { s.beat with ptpRun := Nat.min 16 (s.beat.ptpRun + 1), ptpAwait := none, ptpOffset := o } }.wr
          beatStatusPtpLock (if 15 ≤ s.beat.ptpRun then 1 else 0)
      else { s with beat := { s.beat with ptpRun := 0, ptpAwait := none, ptpOffset := o } }.wr beatStatusPtpLock 0 := by
  have hLock : (decide (Nat.min 16 (s.beat.ptpRun + 1) = 16)).toNat = if 15 ≤ s.beat.ptpRun then 1 else 0 := by
    have hMin : Nat.min 16 (s.beat.ptpRun + 1) = min 16 (s.beat.ptpRun + 1) := rfl
    by_cases h : 15 ≤ s.beat.ptpRun
    · rw [if_pos h, decide_eq_true (by omega), Bool.toNat_true]
    · rw [if_neg h, decide_eq_false (by omega), Bool.toNat_false]
  by_cases h : -1000 ≤ o ∧ o ≤ 1000
  · simp only [State.servo, ← ho, if_pos h, hLock, State.setBeat]
  · simp only [State.servo, ← ho, if_neg h, State.setBeat]
    exact Eq.refl _

/-- With a request out, no other follows. -/
theorem State.askDelay_asked {s : State} (src : PtpSource) (h : s.beat.ptpAsked = true) : s.askDelay src = s := if_pos h

theorem State.ptpAsked_servo (s : State) (d : Int) : (s.servo d).beat.ptpAsked = s.beat.ptpAsked := by
  rw [State.servo, State.wr_beat]
  rfl

section
variable {s : State} {src : PtpSource} (hMaster : s.fromMaster src = true)
include hMaster

theorem State.ptpHears_of_fromMaster : s.ptpHears src = true := by
  rw [State.fromMaster, Bool.and_eq_true] at hMaster
  exact hMaster.1

theorem execPtpSyncRx_oneStep {i : Int} (d : Int) (hLow : -4 ≤ i) (hHigh : i ≤ 1) (hAsked : s.beat.ptpAsked = true) :
    execPtpSyncRx src i false d s = .next (s.servo d) := by
  have hAsk := State.askDelay_asked src ((State.ptpAsked_servo s d).trans hAsked)
  simp [execPtpSyncRx, hMaster, Int.not_lt.mpr hLow, Int.not_lt.mpr hHigh, hAsk]

theorem execPtpSyncRx_twoStep {i : Int} (d : Int) (hLow : -4 ≤ i) (hHigh : i ≤ 1) :
    execPtpSyncRx src i true d s = .next { s with beat := { s.beat with ptpAwait := some src } } := by
  simp [execPtpSyncRx, hMaster, Int.not_lt.mpr hLow, Int.not_lt.mpr hHigh, State.setBeat]

theorem execPtpFollowUpRx_awaited (d : Int) (hAwait : s.beat.ptpAwait = some src) (hAsked : s.beat.ptpAsked = true) :
    execPtpFollowUpRx src d s = .next (s.servo d) := by
  have hAsk := State.askDelay_asked src ((State.ptpAsked_servo s d).trans hAsked)
  simp [execPtpFollowUpRx, hMaster, hAwait, hAsk]

theorem execPtpDelayRespRx_asked (d : Nat) (hAsked : s.beat.ptpAsked = true) :
    execPtpDelayRespRx src d s = .next { s with beat := { s.beat with ptpDelay := d, ptpAsked := false } } := by
  simp [execPtpDelayRespRx, hMaster, hAsked, State.setBeat]

omit hMaster in
theorem execPtpDelayRespRx_unasked (d : Nat) (hAsked : s.beat.ptpAsked = false) : execPtpDelayRespRx src d s = .next s := by
  simp [execPtpDelayRespRx, hAsked]

theorem execPtpAnnounceRx_master (a : PtpAnnounce) : execPtpAnnounceRx src a s =
    .next { s with beat := { s.beat with ptpMaster := some (src, a), ptpHeard := s.beat.ticks } } := by
  simp only [execPtpAnnounceRx, State.ptpHears_of_fromMaster hMaster, hMaster, Bool.not_true, Bool.false_eq_true, if_false, if_true]
  exact Eq.refl _

end

/-- Without a master the sender of an Announce becomes it. -/
theorem execPtpAnnounceRx_first {s : State} {src : PtpSource} (a : PtpAnnounce) (hHears : s.ptpHears src = true)
    (hNone : s.master = none) : execPtpAnnounceRx src a s =
      .next ({ s with beat := { s.beat with ptpMaster := some (src, a), ptpHeard := s.beat.ticks, ptpRun := 0, ptpAwait := none,
                                            ptpAsked := false } }.wr beatStatusPtpLock 0) := by
  have hNot : s.fromMaster src = false := by rw [State.fromMaster, hNone, Bool.and_false]
  have hSet : ∀ (t : State) (b c : BeatSt) (f : Fld) (v : Nat), ((t.setBeat b).wr f v).setBeat c = ({ t with beat := c } : State).wr f v :=
    fun _ _ _ _ _ => rfl
  simp only [execPtpAnnounceRx, hHears, hNot, hNone, Bool.not_true, Bool.false_eq_true, if_false, Option.all_none, if_true,
    State.restartPtp, hSet]
  exact Eq.refl _

end Sys2Proof.Machine

namespace Sys2Proof

open Machine Machine.Reg

/-- Settles O2: each clause is its setting's or its message's lemma above. -/
theorem beatSettings : Obligations.BeatSettings := by
  refine ⟨⟨fun s v => execBeatCompWrite_mgmt v, fun s v f => ⟨execBeatCompWrite_pf f v s, ?noSource, ?noRenum⟩,
      fun s s1 v hAon hNum hSrc hRenum hs1 => ?source, fun s => execRenum_locked⟩,
    fun s src i d o hMaster hLow hHigh ho hAsked => ?sync,
    fun s src d hMaster => ⟨execPtpDelayRespRx_asked hMaster d, execPtpDelayRespRx_unasked d⟩,
    fun s src a => execPtpAnnounceRx_first a, fun s src a hMaster => execPtpAnnounceRx_master hMaster a⟩
  case noSource => rw [exec_beatSourceChange, execBeatSourceChange, State.writeBeatCtl_pf]
  case noRenum => rw [exec_renum, execRenum, State.writeBeatCtl_pf]
  case source =>
    rw [exec_beatSourceChange, execBeatSourceChange, State.writeBeatCtl_source hAon hNum hSrc hRenum hs1]
    exact ⟨fun hState => by rw [State.beatState, if_pos hState, State.enterHoldover, State.setBeat],
      fun hState => by rw [State.beatState, if_neg hState, State.setBeat]⟩
  case sync =>
    rw [← State.servo_eq ho]
    exact ⟨execPtpSyncRx_oneStep hMaster d hLow hHigh hAsked, fun hAwait => execPtpFollowUpRx_awaited hMaster d hAwait hAsked,
      execPtpSyncRx_twoStep hMaster d hLow hHigh⟩

end Sys2Proof
end

section
/-!
PROOF. Doorbells (05_engines_queues_and_command_lists.md: Descriptor rings and doorbells) and admission
(03_tags_classes_and_admission.md: Admission, Arbitration, Admission registers).
-/
namespace Sys2Proof.Machine

open Reg

theorem exec_doorbell (path : Path) (q : Queue) (v : Word32) (s : State) : exec (.doorbell path q v) s = execDoorbell path q v s := rfl

theorem exec_admissionCandidate (q : Queue) (s : State) : exec (.admissionCandidate q) s = execAdmissionCandidate q s := rfl

theorem exec_admQuotaWindowWrite (path : Path) (q : Queue) (window : Bool) (v : Word32) (s : State) :
    exec (.admQuotaWindowWrite path q window v) s = execAdmQuotaWindowWrite path q window v s := rfl

theorem exec_quotaWindowStart (q : Queue) (s : State) : exec (.quotaWindowStart q) s = execQuotaWindowStart q s := rfl

theorem exec_agePromotion (arb : Arbiter) (reqs : List ArbReq) (n : Nat) (s : State) :
    exec (.agePromotion arb reqs n) s = execAgePromotion arb reqs n s := rfl

theorem exec_admCfgWrite (path : Path) (q : Queue) (v : Word32) (s : State) :
    exec (.admCfgWrite path q v) s = execAdmCfgWrite path q v s := rfl

theorem exec_admClearRefused (path : Path) (q : Queue) (s : State) : exec (.admClearRefused path q) s = execAdmClearRefused path q s := rfl

theorem exec_admClearDeferred (path : Path) (q : Queue) (s : State) :
    exec (.admClearDeferred path q) s = execAdmClearDeferred path q s := rfl

/-! ### Doorbells: R97 to R99, R61 -/

section
variable {s : State} {path : Path} {q : Queue} {v : Word32} (hOwn : s.ownsQueue path q = true)
include hOwn

theorem execDoorbell_deviceFed (hFed : s.rd (queCtlDevEnq q) = 1) :
    execDoorbell path q v s = .next (s.event (queStatusDbIgnored q)).wrapUp := by
  simp [execDoorbell, hOwn, State.on_of_rd_one hFed]

section
variable (hHost : s.rd (queCtlDevEnq q) = 0)
include hHost

theorem execDoorbell_bad (hBad : 2 * s.ringCap q ≤ bitsOf v.toNat 0 17 ∨
    countBetween (s.ringCap q) (s.rd (queHeadHead q)) (bitsOf v.toNat 0 17) < s.pendingCount q) :
    execDoorbell path q v s = .next (s.event (queStatusDbBad q)).wrapUp := by
  simp [execDoorbell, hOwn, State.on_of_rd_zero hHost, hBad]

variable (hRange : bitsOf v.toNat 0 17 < 2 * s.ringCap q)
  (hForward : s.pendingCount q ≤ countBetween (s.ringCap q) (s.rd (queHeadHead q)) (bitsOf v.toNat 0 17))
include hRange hForward

/-- A tail in range that does not move back is taken if the ring holds the descriptors, and refused as a whole if not. -/
theorem execDoorbell_good : execDoorbell path q v s =
    .next (if s.ringCap q - 1 < countBetween (s.ringCap q) (s.rd (queHeadHead q)) (bitsOf v.toNat 0 17) then
        s.refuseRecord q { desc := bitsOf v.toNat 0 17 % 65536, status := 0x10, engine := 0, tail16 := bitsOf v.toNat 0 17 / 65536,
                           job := 0, detail := 0, instr := 0, cookie := 0, irq := false }
      else s.wr (queTailTail q) (bitsOf v.toNat 0 17)).wrapUp := by
  have hGood : ¬ (2 * s.ringCap q ≤ bitsOf v.toNat 0 17 ∨
      countBetween (s.ringCap q) (s.rd (queHeadHead q)) (bitsOf v.toNat 0 17) < s.pendingCount q) := by omega
  simp only [execDoorbell, hOwn, State.on_of_rd_zero hHost, hGood, Bool.not_true, Bool.false_eq_true, if_false]

end

end

/-! ### Candidates: R60, R63 -/

section
variable {s : State} {q : Queue} {h : Header} (hClass : s.classOf q < 2) (hUp : s.schedulerUp = true) (hPass : s.judge q = .pass h)
  (hTouch : s.touchCandidate q = s)
include hClass hUp hPass hTouch

/-- A candidate that passes is admitted where a record slot is free, and stalls its queue where none is. -/
theorem execAdmissionCandidate_passes :
    execAdmissionCandidate q s = .next (if s.freeRecords q = 0 then s.stall q else (s.takeUp q h).settle).wrapUp := by
  simp only [execAdmissionCandidate, State.testCandidate, hClass, hUp, hPass, hTouch, decide_true, Bool.and_self, if_true]

end

/-- What the host answered and has been consumed was the memory's view of it. -/
theorem State.dropCandidate_same (s : State) (q : Nat) : s.dropCandidate q = { s with mem := (s.dropCandidate q).mem } := by
  unfold State.dropCandidate
  dsimp only
  split <;> rfl

/-- The next descriptor becomes the candidate of a queue; its reservations, its credits and the lists stay. -/
theorem State.nextCandidate_leaves (s : State) (q : Nat) : (s.nextCandidate q).lists = s.lists ∧
    ((s.nextCandidate q).queue q).reserved = (s.queue q).reserved ∧
    (s.nextCandidate q).rd (queAdmCreditLeft q) = s.rd (queAdmCreditLeft q) := by
  have hQueue : (s.dropCandidate q).queue = s.queue := by rw [s.dropCandidate_same q]; rfl
  have hRd : (s.dropCandidate q).rd = s.rd := by rw [s.dropCandidate_same q]; rfl
  have hLists : (s.dropCandidate q).lists = s.lists := by rw [s.dropCandidate_same q]
  have hAddr : (queAdmCreditLeft q).addr ≠ (queStatusCplStall q).addr := by
    simp only [queAdmCreditLeft, queAdmCredit, queStatusCplStall, queStatus]
    omega
  refine ⟨?lists, ?reserved, ?credits⟩
  case lists => rw [State.nextCandidate, State.wr_lists, State.setQueue_lists, hLists]
  case reserved => rw [State.nextCandidate, State.queue_wr, State.queue_setQueue, if_pos (Eq.refl q), hQueue]
  case credits => rw [State.nextCandidate, State.rd_wr_ne _ _ _ _ hAddr]; exact congrFun hRd _

/-- The list that admission makes of a candidate. -/
def admittedList (s : State) (q : Nat) (h : Header) : RunList :=
  { queue := q, desc := (s.queue q).cand, hdr := h, running := false, as' := [], sh := [], ms := [], step := none, idx := 0, word := none,
    work := .ready, total := 0, done := [], held := [], faults := [], asks := [], concealed := 0, progress := s.tick, ending := none }

/-- What a list admitted under a quota takes of its queue: a record slot, and its tiles' credits. -/
def State.reserve (s : State) (q : Nat) (h : Header) : State :=
  (s.setQueue q { s.queue q with reserved := (s.queue q).reserved + 1 }).wr (queAdmCreditLeft q) (s.rd (queAdmCreditLeft q) - h.tiles)

theorem State.takeUp_quota {s : State} {q : Nat} (h : Header) (hClass : s.classOf q ≠ 0) (hQuota : (s.queue q).credits ≠ 0) :
    s.takeUp q h =
      ({ s.reserve q h with lists := (s.reserve q h).lists ++ [admittedList s q h] } : State).nextCandidate q := by
  simp only [State.takeUp, if_pos (And.intro hClass hQuota), State.reserve, admittedList]

theorem State.takeUp_appends {s : State} {q : Nat} (h : Header) (hClass : s.classOf q ≠ 0) (hQuota : (s.queue q).credits ≠ 0) :
    (s.takeUp q h).lists = s.lists ++ [admittedList s q h] ∧ ((s.takeUp q h).queue q).reserved = (s.queue q).reserved + 1 ∧
      (s.takeUp q h).rd (queAdmCreditLeft q) = s.rd (queAdmCreditLeft q) - h.tiles := by
  have hFits : s.rd (queAdmCreditLeft q) - h.tiles < 2 ^ 24 := Nat.lt_of_le_of_lt (Nat.sub_le ..) (s.rd_lt (queAdmCreditLeft q))
  have hWith : ∀ (t : State) (l : List RunList), ({ t with lists := l } : State).queue q = t.queue q ∧
      ({ t with lists := l } : State).rd (queAdmCreditLeft q) = t.rd (queAdmCreditLeft q) := fun _ _ => ⟨rfl, rfl⟩
  have hReserve : (s.reserve q h).lists = s.lists := by rw [State.reserve, State.wr_lists, State.setQueue_lists]
  rw [State.takeUp_quota h hClass hQuota]
  obtain ⟨hL, hR, hC⟩ := State.nextCandidate_leaves
    ({ s.reserve q h with lists := (s.reserve q h).lists ++ [admittedList s q h] } : State) q
  refine ⟨hL.trans (by rw [hReserve]), hR.trans ?_, hC.trans ?_⟩
  · rw [(hWith _ _).1, State.reserve, State.queue_wr, State.queue_setQueue, if_pos (Eq.refl q)]
  · rw [(hWith _ _).2, State.reserve, State.rd_wr_fits _ (by simp [queAdmCreditLeft]) hFits]

/-! ### Quotas and windows: R63, R69 -/

theorem execAdmQuotaWindowWrite_window {s : State} {path : Path} {q : Queue} (v : Word32) (hOwn : s.ownsQueue path q = true) :
    execAdmQuotaWindowWrite path q true v s = .next (s.wr (queAdmWindowBeats q) v.toNat) := by
  simp [execAdmQuotaWindowWrite, hOwn]

theorem execAdmQuotaWindowWrite_quota {s : State} {path : Path} {q : Queue} (v : Word32) (hOwn : s.ownsQueue path q = true) :
    execAdmQuotaWindowWrite path q false v s = .next (s.wr (queAdmQuotaCredits q) v.toNat) := by
  simp [execAdmQuotaWindowWrite, hOwn]

theorem execQuotaWindowStart_due {s : State} {q : Queue} (hDue : (s.queue q).winNext ≤ s.beat.num) (hHeld : (s.queue q).held = false) :
    execQuotaWindowStart q s =
      .next (let w := Nat.max 1 (s.rd (queAdmWindowBeats q))
        (s.setQueue q { s.queue q with credits := s.rd (queAdmQuotaCredits q), window := w,
                                       winNext := (s.beat.num / w + 1) * w }).wr
          (queAdmCreditLeft q) (s.rd (queAdmQuotaCredits q))).wrapUp := by
  simp only [execQuotaWindowStart, State.startWindow, State.windowDue, State.refill, hDue, hHeld, decide_true, Bool.not_true,
    Bool.false_and, Bool.false_eq_true, if_false]

theorem execQuotaWindowStart_early {s : State} {q : Queue} (hEarly : s.beat.num < (s.queue q).winNext) :
    execQuotaWindowStart q s = .next s.wrapUp := by
  simp [execQuotaWindowStart, State.startWindow, State.windowDue, Nat.not_le.mpr hEarly]

/-! ### Arbitration: R52, R55 to R57 -/

theorem ArbSt.run_idle (r : ArbRules) (cost : ArbItem → Nat) (stop n : Nat) {a : ArbSt} (h : a.waiting = []) :
    ArbSt.run r cost stop (n + 1) a = ({ a with cycle := Nat.max a.cycle stop }, []) := by
  have hPass : a.passTo stop = { a with cycle := Nat.max a.cycle stop } := by
    simp only [ArbSt.passTo, h, List.map_nil]
  simp only [ArbSt.run, h, or_true, if_true, hPass]

/-- The requests of a router or die link are packets; one of up to four flits is one packet. -/
theorem packetSizes_one {size flits : Nat} (h1 : 1 ≤ flits) (h : flits ≤ size) : packetSizes size flits flits = [flits] := by
  obtain ⟨n, rfl⟩ : ∃ n, flits = n + 1 := ⟨flits - 1, by omega⟩
  have hMin : Nat.min size (n + 1) = n + 1 := Nat.min_eq_right h
  have hRest : packetSizes size n 0 = [] := by cases n <;> rfl
  rw [packetSizes, if_neg (Nat.succ_ne_zero n), hMin, Nat.sub_eq_zero_of_le h, hRest]

theorem packetMax_four (cls : Nat) : 4 ≤ packetMax false cls := by
  unfold packetMax
  split
  · contradiction
  · split <;> decide

theorem roundRobin_one (n : Nat) (x : ArbItem) : roundRobin n [x] = some x := by
  by_cases h : n < x.input <;> simp [roundRobin, h]

/-- Alone, a packet is picked, whatever its class, where the TC0 window is empty. -/
theorem ArbSt.pick_alone (r : ArbRules) {a : ArbSt} {x : ArbItem} (hWaiting : a.waiting = [x]) (hTc0 : a.tc0 = []) :
    a.pick r = some x := by
  have hHeads : heads a.waiting = [x] := by rw [hWaiting]; rfl
  have hCls : x.cls < 4 := bitsOf_lt ..
  have hShaped : a.shaped r x = true := by simp [ArbSt.shaped, hTc0]
  have hRotate : ∀ n, a.rotate n [x] = some x := fun n => roundRobin_one _ x
  have hNone : ∀ n, a.rotate n [] = none := fun n => rfl
  have hEarliest : earliest [x] = [x] := by simp [earliest]
  have hBulk : x.cls = 2 ∨ x.cls = 3 → a.bulk [x] = some x := fun h => by
    rcases h with h | h <;> simp [ArbSt.bulk, h, hRotate, hNone]
  have hPromoted : x.cls = 0 ∨ x.cls = 1 → x.promoted = false := fun h => by
    rcases h with h | h <;> simp [ArbItem.promoted, h]
  obtain h | h | h : x.cls = 0 ∨ x.cls = 1 ∨ x.cls = 2 ∨ x.cls = 3 := by omega
  · simp [ArbSt.pick, hHeads, h, hShaped, hRotate]
  · simp [ArbSt.pick, hHeads, h, hPromoted (Or.inr h), hEarliest, hRotate]
  · have hNotUrgent : [x].filter (fun y => y.cls == 0 && a.shaped r y) = [] := by
      simp only [List.filter_cons, List.filter_nil, beq_false_of_ne (show x.cls ≠ 0 by omega), Bool.false_and, Bool.false_eq_true, if_false]
    have hNotNext : [x].any (fun y => y.cls == 1) = false := by
      simp only [List.any_cons, List.any_nil, beq_false_of_ne (show x.cls ≠ 1 by omega), Bool.or_self]
    have hAged : ∀ (p : Prop) [Decidable p],
        (if ¬[x].filter ArbItem.promoted = [] ∧ p then oldest ([x].filter ArbItem.promoted) else some x) = some x := fun p _ => by
      by_cases hAge : x.promoted = true
      · have hOldest : oldest [x] = some x := rfl
        simp only [List.filter_cons, List.filter_nil, if_pos hAge, hOldest, ite_self]
      · simp [hAge]
    simp only [ArbSt.pick, hHeads, hNotUrgent, hNotNext, ne_eq, not_true_eq_false, Bool.false_eq_true, if_false, hBulk h]
    exact hAged _

/-- A packet alone at a free output is granted at once, and holds the output for its cost. -/
theorem ArbSt.run_alone {r : ArbRules} {cost : ArbItem → Nat} {stop n : Nat} {a : ArbSt} {x : ArbItem} (hWaiting : a.waiting = [x])
    (hTc0 : a.tc0 = []) (hFree : a.free ≤ a.cycle) (hStop : a.cycle < stop) :
    ∃ b m, ArbSt.run r cost stop (n + 2) a = (b, [(x, m)]) ∧ b.waiting = [] ∧ b.cycle = stop ∧ b.free = a.cycle + cost x := by
  have hNow : Nat.max a.cycle a.free = a.cycle := Nat.max_eq_left hFree
  have hBusy : ¬ (stop ≤ a.cycle ∨ a.waiting = []) := by simp [hWaiting, Nat.not_le.mpr hStop]
  have hPass : a.passTo a.cycle = a := by simp [ArbSt.passTo]
  have hGranted : (a.grant x (cost x)).waiting = [] := by simp [ArbSt.grant, hWaiting]
  refine ⟨{ a.grant x (cost x) with cycle := Nat.max (a.grant x (cost x)).cycle stop }, (a.waiting.map (·.flits)).sum, ?_, hGranted,
    Nat.max_eq_right hStop.le, rfl⟩
  rw [ArbSt.run]
  simp only [hNow, if_neg hBusy, hPass, ArbSt.pick_alone r hWaiting hTc0, ArbSt.run_idle r cost stop n hGranted]

/-! ### The map of arbiters -/

theorem SMap.put_put {α : Type} (m : SMap α) (i : Nat) (x y : α) : (m.put i x).put i y = m.put i y := by
  induction m with
  | nil => simp [SMap.put]
  | cons e m ih =>
    obtain ⟨k, v⟩ := e
    rw [SMap.put]
    split
    · next hLess => simp [SMap.put, hLess]
    · next hNotLess =>
      split
      · next hSame => simp [SMap.put, hSame]
      · next hOther => simp [SMap.put, hNotLess, hOther, ih]

theorem State.setArb_setArb (s : State) (k : Nat) {a b : ArbSt} (ha : a ≠ ArbSt.reset) (hb : b ≠ ArbSt.reset) :
    (s.setArb k a).setArb k b = s.setArb k b := by
  have hSet : ∀ (m : SMap ArbSt) (x : ArbSt), x ≠ ArbSt.reset → m.set (fun _ => ArbSt.reset) k x = m.put k x := fun m x hx => if_neg hx
  simp only [State.setArb, hSet _ _ ha, hSet _ _ hb, SMap.put_put]

theorem State.arb_setArb (s : State) (k : Nat) (a : ArbSt) : (s.setArb k a).arb k = a := by
  rw [State.arb, State.setArb, SMap.get_set_same]

section
variable {s : State} {arb : Arbiter} {q : ArbReq} {n : Nat} {a : ArbSt} (hNoc : isHbm arb = false) (ha : s.arb (arbKey arb) = a)
  (hIdle : a.waiting = [])
include hNoc ha hIdle

theorem execAgePromotion_discards (hBad : s.badTag q.tag = true) :
    execAgePromotion arb [q] n s =
      .next ((s.emit (.discarded (arbKey arb) q.tag)).setArb (arbKey arb) { a with cycle := a.cycle + n }) := by
  have hArb : (s.emit (.discarded (arbKey arb) q.tag)).arb (arbKey arb) = a := ha
  have hMax : Nat.max a.cycle (a.cycle + n) = a.cycle + n := Nat.max_eq_right (Nat.le_add_right ..)
  simp only [execAgePromotion, List.foldl_cons, List.foldl_nil, State.joinArb, if_pos hBad, State.runArb, hArb, hNoc,
    ArbSt.run_idle _ _ _ _ hIdle, hMax]

/-- One request of up to four flits is granted where nothing waits. -/
theorem execAgePromotion_grants (hGood : s.badTag q.tag = false) (h1 : 1 ≤ q.flits) (h4 : q.flits ≤ 4) (hn : 1 ≤ n)
    (hFree : a.free ≤ a.cycle) (hTc0 : a.tc0 = []) :
    ∃ b : ArbSt, execAgePromotion arb [q] n s =
        .next ((s.setArb (arbKey arb) b).emit (.grant (arbKey arb) q.tag q.flits)) ∧
      b.waiting = [] ∧ b.cycle = a.cycle + n ∧ b.free = a.cycle + q.flits := by
  obtain ⟨x, hx⟩ : ∃ x : ArbItem,
      x = { input := q.input, tag := q.tag, flits := q.flits, deadline := q.deadline, age := q.waited, frame := none } := ⟨_, rfl⟩
  have hJoin : s.joinArb arb q = s.setArb (arbKey arb) { a with waiting := [x] } := by
    have hOne := packetSizes_one h1 (h4.trans (packetMax_four (tagTc q.tag)))
    simp only [State.joinArb, hGood, Bool.false_eq_true, if_false, hNoc, ha, hOne, hIdle, List.map_cons, List.map_nil, List.nil_append, hx]
  obtain ⟨b, m, hRun, hWaiting, hCycle, hEnd⟩ := ArbSt.run_alone (r := nocRules) (cost := nocCost false) (n := n + 1)
    (a := { a with waiting := [x] }) (x := x) rfl hTc0 hFree (show a.cycle < a.cycle + n by omega)
  have hFlits : nocCost false x = q.flits := by rw [hx]; rfl
  have hLast : b.free = a.cycle + q.flits := hFlits ▸ hEnd
  have hFuel : 2 * [x].length + n + 1 = n + 1 + 2 := by simp; omega
  have hBusy : ({ a with waiting := [x] } : ArbSt) ≠ ArbSt.reset := fun h => List.cons_ne_nil _ _ (congrArg ArbSt.waiting h)
  have hLater : b ≠ ArbSt.reset := fun h => by
    have hZero : b.free = 0 := congrArg ArbSt.free h
    omega
  refine ⟨b, ?_, hWaiting, hCycle, hLast⟩
  rw [execAgePromotion, List.foldl_cons, List.foldl_nil, hJoin, State.runArb, State.arb_setArb]
  simp only [hNoc, Bool.false_eq_true, if_false, hFuel, hRun, List.foldl_cons, List.foldl_nil, State.setArb_setArb s _ hBusy hLater]
  rw [hx]

end

/-! ### Admission registers: R53, R54, R68 -/

theorem execAdmCfgWrite_mgmt {s : State} {q : Queue} (v : Word32) (hEmpty : s.pendingCount q = 0) (hLists : s.lists = []) :
    execAdmCfgWrite .mgmt q v s = .next (((s.wr (queAdmCfgHard q) (bitsOf v.toNat 16 1)).wr (queAdmCfgWeight q) (bitsOf v.toNat 8 8)).wr
      (queAdmCfgClass q) (bitsOf v.toNat 0 2)) := by
  simp [execAdmCfgWrite, State.ownsQueue, hEmpty, hLists]

theorem execAdmCfgWrite_tc0 {s : State} {f : Fn} {q : Queue} {v : Word32} (hOwn : s.ownsQueue (.pf f) q = true)
    (hClass : bitsOf v.toNat 0 2 = 0) :
    execAdmCfgWrite (.pf f) q v s =
      .next ((s.wr (queAdmCfgHard q) (bitsOf v.toNat 16 1)).wr (queAdmCfgWeight q) (bitsOf v.toNat 8 8)) := by
  simp [execAdmCfgWrite, hOwn, hClass]

theorem execAdmClearRefused_owner {s : State} {path : Path} {q : Queue} (hOwn : s.ownsQueue path q = true) :
    execAdmClearRefused path q s = .next ((s.wr (queAdmRefusedCount q) 0).wr (queAdmRefusedLast q) 0) := by
  simp [execAdmClearRefused, hOwn]

theorem execAdmClearDeferred_owner {s : State} {path : Path} {q : Queue} (hOwn : s.ownsQueue path q = true) :
    execAdmClearDeferred path q s = .next (s.wr (queAdmDeferredCount q) 0) := by
  simp [execAdmClearDeferred, hOwn]

end Sys2Proof.Machine

namespace Sys2Proof

open Machine Machine.Reg

/-- Settles O3: a tail is moved, refused as a whole, or ignored, by the case that it is. -/
theorem doorbell : Obligations.Doorbell := by
  refine fun s path q v hOwn => ⟨fun hHost hRange hForward hRoom => ?_, execDoorbell_deviceFed hOwn, execDoorbell_bad hOwn,
    fun hHost hRange hForward hFull => ?_⟩ <;> rw [exec_doorbell, execDoorbell_good hOwn hHost hRange hForward]
  · rw [if_neg (Nat.not_lt.mpr hRoom)]
  · rw [if_pos hFull]

/-- Settles O4: each clause is its command's lemma above. -/
theorem admissionControl : Obligations.AdmissionControl := by
  refine ⟨fun s q h hClass hUp hPass hTouch => ?candidate, fun s q h hClass hQuota => ?takeUp,
    ⟨fun s path q v hOwn => ⟨execAdmQuotaWindowWrite_window v hOwn, execAdmQuotaWindowWrite_quota v hOwn⟩,
      fun s q => execQuotaWindowStart_due, fun s q => execQuotaWindowStart_early⟩,
    fun s arb q n a hNoc ha hIdle => ⟨execAgePromotion_discards hNoc ha hIdle, execAgePromotion_grants hNoc ha hIdle⟩,
    fun s q v => execAdmCfgWrite_mgmt v, fun s f q v => execAdmCfgWrite_tc0,
    fun s path q hOwn => ⟨execAdmClearRefused_owner hOwn, execAdmClearDeferred_owner hOwn⟩⟩
  case candidate =>
    rw [exec_admissionCandidate, execAdmissionCandidate_passes hClass hUp hPass hTouch]
    exact ⟨fun hSlot => by rw [if_neg hSlot], fun hFull => by rw [if_pos hFull, State.stall]⟩
  case takeUp =>
    obtain ⟨hLists, hReserved, hLeft⟩ := State.takeUp_appends h hClass hQuota
    exact ⟨_, admittedList s q h, rfl, hLists, rfl, rfl, rfl, rfl, hReserved, hLeft⟩

end Sys2Proof
end

section
/-!
PROOF. Sync, beat and store instructions of a list alone (06_instruction_reference.md: Control and synchronisation, Beat instructions).
-/
namespace Sys2Proof.Machine

open Reg

theorem exec_signal (r : ListRef) (s : State) : exec (.signal r) s = execSignal r s := rfl

theorem exec_rsignal (r : ListRef) (s : State) : exec (.rsignal r) s = execRsignal r s := rfl

theorem exec_wait (r : ListRef) (s : State) : exec (.wait r) s = execWait r s := rfl

theorem exec_waitbeat (r : ListRef) (s : State) : exec (.waitbeat r) s = execWaitbeat r s := rfl

theorem exec_waitticks (r : ListRef) (s : State) : exec (.waitticks r) s = execWaitticks r s := rfl

theorem exec_waitbeatRelease (r : ListRef) (s : State) : exec (.waitbeatRelease r) s = execWaitbeatRelease r s := rfl

theorem exec_waitticksExpiry (r : ListRef) (s : State) : exec (.waitticksExpiry r) s = execWaitticksExpiry r s := rfl

theorem exec_write (r : ListRef) (s : State) : exec (.write r) s = execWrite r s := rfl

theorem exec_stamp (r : ListRef) (s : State) : exec (.stamp r) s = execStamp r s := rfl

theorem exec_enqueue (r : ListRef) (s : State) : exec (.enqueue r) s = execEnqueue r s := rfl

/-! ### Signals: R108, R126, R127 -/

/-- The sync objects that jobs have raised are all that `noteRaised` changes. -/
theorem State.noteRaised_same (s : State) (p n job : Nat) : s.noteRaised p n job = { s with raised := (s.noteRaised p n job).raised } := by
  unfold State.noteRaised
  split <;> rfl

/-- A value that no list waits for releases none. -/
theorem State.changeSync_unawaited {s : State} (p n v : Nat) (h : ∀ l ∈ s.lists, l.work = .ready) :
    s.changeSync p n v = s.setSync p n v := by
  have hNone : (s.setSync p n v).releasable p n = [] :=
    List.filter_eq_nil_iff.mpr fun l hl => by simp [h l hl]
  simp only [State.changeSync, hNone, List.foldl_nil]

/-- What a signal makes of an object's value: an addition saturates, MAX raises. -/
def signalled (max : Bool) (old v : Nat) : Nat :=
  if max then Nat.max (satAdd (2 ^ 64 - 1) old 0) v else satAdd (2 ^ 64 - 1) old v

theorem State.signalBy_unawaited {s : State} (p n job v : Nat) (max : Bool) (h : ∀ l ∈ s.lists, l.work = .ready) :
    s.signalBy p n job max v = (s.noteRaised p n job).setSync p n (signalled max (s.syncVal p n) v) := by
  have hSame := s.noteRaised_same p n job
  have hVal : (s.noteRaised p n job).syncVal p n = s.syncVal p n := by rw [hSame]; rfl
  have hLists : ∀ l ∈ (s.noteRaised p n job).lists, l.work = .ready := by rw [hSame]; exact h
  cases max with
  | true =>
    simp only [State.signalBy, if_true, State.signalMax, State.changeSync_unawaited p n _ hLists, hVal, combine_raise, signalled]
  | false =>
    have hAdd : combine (s.syncVal p n) [v] [] = satAdd (2 ^ 64 - 1) (s.syncVal p n) v := by simp [combine]
    simp only [State.signalBy, Bool.false_eq_true, if_false, State.signalAdd, State.changeSync_unawaited p n _ hLists, hVal, hAdd,
      signalled]

section
variable {s : State} {r : ListRef} {op w : Nat} {l : RunList} (h : s.lone r op l w)
include h

/-- A list alone signals and goes on. -/
theorem State.signalBy_alone {t : State} {p n job v : Nat} {max : Bool}
    (ht : t = (s.noteRaised p n job).setSync p n (signalled max (s.syncVal p n) v)) (hf : t.follows l = true) :
    ((s.signalBy p n job max v).finish l false).wrapUp = { t with lists := [t.onward l] } := by
  obtain ⟨_, hCalm, hLists, _⟩ := id h
  have hWork : l.work = .ready := by
    obtain ⟨_, _, _, _, hReady, _⟩ := State.lone_list h
    exact hReady
  have hSame : t = { s with raised := t.raised, sync := t.sync } := by
    rw [ht, s.noteRaised_same p n job]
    rfl
  rw [State.signalBy_unawaited _ _ _ _ _ (by rw [hLists]; simpa using hWork), ← ht]
  refine State.finish_after s t h ?_ ?_ ?_ ((State.calm_congr ?_ ?_ ?_).trans hCalm) hf <;> rw [hSame]

end

/-- The MAX bit of a signal, as the statements write it. -/
theorem signalled_bit (b old v : Nat) : signalled (b == 1) old v =
    if b = 1 then Nat.max (satAdd (2 ^ 64 - 1) old 0) v else satAdd (2 ^ 64 - 1) old v := by
  by_cases hb : b = 1 <;> simp [signalled, hb]

theorem execSignal_alone {s t : State} {r : ListRef} {l : RunList} {w : Nat} (h : s.lone r 0x10 l w)
    (hw : leftover w [(8, 1), (20, 12), (64, 64)] = false)
    (ht : t = (s.noteRaised (s.partOf l) (fImm w 0 12) l.hdr.job).setSync (s.partOf l) (fImm w 0 12)
      (signalled (bitsOf w 8 1 == 1) (s.syncVal (s.partOf l) (fImm w 0 12)) (fImm64 w))) (hf : t.follows l = true) :
    execSignal r s = .next { t with lists := [t.onward l] } := by
  rw [execSignal, State.instr_alone h _ _ (by simp [hw]), State.signalBy_alone h ht hf]

theorem execRsignal_local {s t : State} {r : ListRef} {l : RunList} {w : Nat} (h : s.lone r 0x12 l w)
    (hw : leftover w [(8, 1), (20, 12), (49, 2), (51, 1), (64, 64)] = false) (hLocal : fImm w 31 1 = 0)
    (hThere : s.present (fImm w 29 2) = true) (hOpen : s.fenced (fImm w 29 2) = false)
    (ht : t = (s.noteRaised (fImm w 29 2) (fImm w 0 12) l.hdr.job).setSync (fImm w 29 2) (fImm w 0 12)
      (signalled (bitsOf w 8 1 == 1) (s.syncVal (fImm w 29 2) (fImm w 0 12)) (fImm64 w))) (hf : t.follows l = true) :
    execRsignal r s = .next { t with lists := [t.onward l] } := by
  have hGoes : (s.present (fImm w 29 2) && (fImm w 29 2 == s.partOf l || !s.fenced (fImm w 29 2))) = true := by simp [hThere, hOpen]
  rw [execRsignal, State.instr_alone h _ _ (by simp [hw, useIf, hLocal])]
  simp only [hLocal, if_true, if_pos hGoes, State.signalBy_alone h ht hf]

theorem execRsignal_remote {s : State} {r : ListRef} {l : RunList} {w : Nat} (h : s.lone r 0x12 l w)
    (hw : leftover w [(8, 1), (20, 12), (49, 2), (51, 1), (64, 64), (32, 17)] = false) (hRemote : fImm w 31 1 = 1)
    (hId : s.rd fabDevIdValid = 1) (hOther : s.ownId (fImm w 12 17) = false) :
    execRsignal r s = .next (s.sendInstr l (fImm w 12 17) (fImm w 29 2)
      (if bitsOf w 8 1 = 1 then .signalMax (fImm w 0 12) (fImm64 w) else .signal (fImm w 0 12) (fImm64 w))).wrapUp := by
  have hNot : ¬ (fImm w 31 1 = 0) := by omega
  rw [execRsignal, State.instr_alone h _ _ (by simp [hw, useIf, hRemote])]
  simp only [if_neg hNot, State.on_of_rd_one hId, hOther, Bool.not_true, Bool.false_eq_true, if_false, beq_iff_eq]

/-! ### Waits: R126, R128 -/

/-- A list alone whose instruction waits stays in its slot. -/
theorem State.wait_alone {s : State} {r : ListRef} {op w : Nat} {l : RunList} (h : s.lone r op l w) {k : Work}
    (hk : ∀ b m, k ≠ .closing b m) : (s.setList { l with work := k }).wrapUp = { s with lists := [{ l with work := k }] } := by
  obtain ⟨_, hCalm, hLists, _⟩ := id h
  obtain ⟨_, _, hRunning, hEnding, _⟩ := State.lone_list h
  rw [State.setList_alone s { l with work := k } l hLists (by exact rfl) (by exact rfl)]
  exact State.wrapUp_one (k := { l with work := k }) ((State.calm_congr (by exact rfl) (by exact rfl) (by exact rfl)).trans hCalm)
    (by exact rfl) hRunning hEnding hk

section
variable {s : State} {r : ListRef} {w : Nat} {l : RunList}

theorem execWait_passes (h : s.lone r 0x11 l w) (hw : leftover w [(20, 12), (64, 64)] = false)
    (hReached : fImm64 w ≤ s.syncVal (s.partOf l) (fImm w 0 12)) (hf : s.follows l = true) :
    execWait r s = .next { s with lists := [s.onward l] } := by
  rw [execWait, State.instr_alone h _ _ (by simp [hw]), if_pos hReached, State.finish_lone s h hf]

theorem execWait_waits (h : s.lone r 0x11 l w) (hw : leftover w [(20, 12), (64, 64)] = false)
    (hBelow : s.syncVal (s.partOf l) (fImm w 0 12) < fImm64 w) :
    execWait r s = .next { s with lists := [{ l with work := .waitSync (fImm w 0 12) (fImm64 w) }] } := by
  rw [execWait, State.instr_alone h _ _ (by simp [hw]), if_neg (Nat.not_le.mpr hBelow), State.wait_alone h (by simp)]

theorem execWaitbeat_passes (h : s.lone r 0x90 l w) (hw : leftover w [(20, 16), (64, 64)] = false)
    (hReached : s.reached ⟨fImm64 w, fImm w 0 16⟩ = true) (hf : s.follows l = true) :
    execWaitbeat r s = .next { s with lists := [s.onward l] } := by
  rw [execWaitbeat, State.instr_alone h _ _ (by simp [hw]), markOf, if_pos hReached, State.finish_lone s h hf]

theorem execWaitbeat_waits (h : s.lone r 0x90 l w) (hw : leftover w [(20, 16), (64, 64)] = false)
    (hBefore : s.reached ⟨fImm64 w, fImm w 0 16⟩ = false) :
    execWaitbeat r s = .next { s with lists := [{ l with work := .waitBeat ⟨fImm64 w, fImm w 0 16⟩ }] } := by
  rw [execWaitbeat, State.instr_alone h _ _ (by simp [hw]), markOf, if_neg (Bool.eq_false_iff.mp hBefore), State.wait_alone h (by simp)]

theorem execWaitticks_passes (h : s.lone r 0x91 l w) (hw : leftover w [(64, 64)] = false) (hNone : fImm64 w = 0)
    (hf : s.follows l = true) : execWaitticks r s = .next { s with lists := [s.onward l] } := by
  rw [execWaitticks, State.instr_alone h _ _ (by simp [hw]), if_pos hNone, State.finish_lone s h hf]

theorem execWaitticks_waits (h : s.lone r 0x91 l w) (hw : leftover w [(64, 64)] = false) (hSome : fImm64 w ≠ 0) :
    execWaitticks r s = .next { s with lists := [{ l with work := .waitTicks (s.beat.ticks + fImm64 w) }] } := by
  rw [execWaitticks, State.instr_alone h _ _ (by simp [hw]), if_neg hSome, State.wait_alone h (by simp), State.tick]

end

/-! ### The end of a wait: R128 -/

section
variable {s : State} {r : ListRef} {l : RunList} (hl : s.lists = [l]) (hq : l.queue = r.queue.val) (hd : l.desc = r.desc)
include hl hq hd

/-- A wait of a list alone that is over lets it go on. -/
theorem State.release_due {due : Work → Bool} (hUntraced : s.untraced = true) (hRunning : l.running = true) (hEnding : l.ending = none)
    (hFaults : l.faults = []) (hAsks : l.asks = []) (hExt : s.mem.ext = []) (hCalm : s.calm = true) (hf : s.follows l = true)
    (hDue : due l.work = true) : (s.release r due).wrapUp = { s with lists := [s.onward l] } := by
  have hFound : s.findList r.queue.val r.desc = some l := by rw [← hq, ← hd, State.findList_alone s l hl]
  have hQueue : l.queue < 64 := by rw [hq]; exact r.queue.isLt
  obtain ⟨hRun, hEnd, hOpen⟩ := State.onward_list hRunning hf
  have hSettle : ({ s with lists := [s.onward l] } : State).settle = { s with lists := [s.onward l] } :=
    State.settle_alone _ (s.onward l) (by exact rfl) hRun hEnd hOpen
  simp only [State.release, hFound, hRunning, hEnding, hDue, Option.isNone_none, Bool.and_self, if_true,
    State.finish_alone s l hUntraced hCalm hl hQueue hFaults hAsks hExt hf, hSettle]
  exact State.wrapUp_onward hCalm hRunning hf

theorem State.release_early {due : Work → Bool} (hEarly : due l.work = false) : s.release r due = s := by
  have hFound : s.findList r.queue.val r.desc = some l := by rw [← hq, ← hd, State.findList_alone s l hl]
  simp [State.release, hFound, hEarly]

end

/-! ### Stores: Tables INS-2 and INS-3 -/

/-- The same state with other lists, another link, and other answers of the host. -/
def State.beside (s : State) (ls : List RunList) (k : LinkSt) (x : List (Nat × Option Byte)) : State :=
  { s with lists := ls, link := k, mem := { s.mem with ext := x } }

section
variable (s : State) (ls : List RunList) (k : LinkSt) (x : List (Nat × Option Byte))

theorem State.noteHole_beside (p : Nat) (whole : Bool) (a : Nat) :
    (s.beside ls k x).noteHole p whole a = (s.noteHole p whole a).beside ls k x := by
  have hPlace : (s.beside ls k x).place p whole a = s.place p whole a := rfl
  rw [State.noteHole, State.noteHole, hPlace]
  split <;> rfl

theorem State.writeByte_beside (p : Nat) (whole : Bool) (a : Nat) (b : Byte) :
    (s.beside ls k x).writeByte p whole a b = (s.writeByte p whole a b).beside ls k x := by
  have hPlace : (s.beside ls k x).place p whole a = s.place p whole a := rfl
  rw [State.writeByte, State.writeByte, hPlace, State.noteHole_beside]
  split <;> rfl

theorem State.writeLocal_beside (p : Nat) (whole : Bool) (a : Nat) (bs : List Byte) :
    (s.beside ls k x).writeLocal p whole a bs = (s.writeLocal p whole a bs).beside ls k x := by
  induction bs generalizing s a with
  | nil => rfl
  | cons b bs ih => rw [State.writeLocal, State.writeLocal, State.writeByte_beside, ih]

theorem State.meet_beside (line : Nat) (scrub : Bool) (owner : Option (Nat × Nat)) :
    (s.beside ls k x).meet line scrub owner = (s.meet line scrub owner).beside ls k x := by
  have hFlaw : (s.beside ls k x).mem.flaw line = s.mem.flaw line := rfl
  rw [State.meet, State.meet, hFlaw]
  dsimp only
  split <;> rfl

theorem State.markLine_beside (p : Nat) (whole poisoned : Bool) (a n lo : Nat) :
    (s.beside ls k x).markLine p whole poisoned a n lo = (s.markLine p whole poisoned a n lo).beside ls k x := by
  have hPlace : (s.beside ls k x).place p whole lo = s.place p whole lo := rfl
  rw [State.markLine, State.markLine, hPlace]
  split
  · split
    · rfl
    · rw [State.meet_beside]
      cases poisoned <;> rfl
  · rfl

theorem State.store_beside (p : Nat) (whole poisoned : Bool) {a : Nat} (ha : a / 2 ^ 60 < 2) (bs : List Byte) :
    (s.beside ls k x).store p whole poisoned a bs = (s.store p whole poisoned a bs).beside ls k x := by
  have hLocal : a / 2 ^ 60 ≠ 2 := by omega
  rw [State.store, State.store, if_neg hLocal, if_neg hLocal, State.writeLocal_beside]
  exact List.foldl_hom (fun t : State => t.beside ls k x) fun t lo => State.markLine_beside t ls k x p whole poisoned a bs.length lo

theorem State.noteRange_beside (job p a n : Nat) : (s.beside ls k x).noteRange job p a n = (s.noteRange job p a n).beside ls k x := by
  have hWrote : (s.beside ls k x).wrote = s.wrote := rfl
  simp only [State.noteRange, hWrote]
  split <;> rfl

/-- A local store of a list looks at neither the lists nor the link, and changes neither. -/
theorem State.jobStore_beside (l : RunList) (tag : Word64) (poison : Bool) {a : Nat} (ha : a / 2 ^ 60 < 2) (bs : List Byte) :
    (s.beside ls k x).jobStore l tag poison a bs = (s.jobStore l tag poison a bs).beside ls k x := by
  have hNear : a / 2 ^ 60 ≠ 4 := by omega
  have hLocal : a / 2 ^ 60 ≠ 2 := by omega
  have hPart : (s.beside ls k x).partOf l = s.partOf l := rfl
  have hHoles : ∀ (t : State) (xs : List Nat) (p : Nat),
      xs.foldl (fun u lo => u.noteHole p false (Nat.max a lo)) (t.beside ls k x) =
        (xs.foldl (fun u lo => u.noteHole p false (Nat.max a lo)) t).beside ls k x := fun t xs p =>
    List.foldl_hom (fun u : State => u.beside ls k x) fun u lo => State.noteHole_beside u ls k x p false (Nat.max a lo)
  have hStored : ∀ t : State, (t.beside ls k x).noteWrote l a bs.length = (t.noteWrote l a bs.length).beside ls k x :=
    fun t => State.noteRange_beside t ls k x _ _ _ _
  rw [State.jobStore, State.jobStore, if_neg hNear, if_neg hNear]
  simp only [if_neg hLocal, hPart, State.store_beside s ls k x _ _ _ ha, hHoles, hStored]

end

theorem State.beside_own (s : State) : s.beside s.lists s.link s.mem.ext = s := rfl

/-- A local store of a list leaves the lists, the link and the host's answers as they were. -/
theorem State.jobStore_same (s : State) (l : RunList) (tag : Word64) (poison : Bool) {a : Nat} (ha : a / 2 ^ 60 < 2) (bs : List Byte) :
    s.jobStore l tag poison a bs = (s.jobStore l tag poison a bs).beside s.lists s.link s.mem.ext :=
  (congrArg (fun t : State => t.jobStore l tag poison a bs) s.beside_own.symm).trans
    (State.jobStore_beside s s.lists s.link s.mem.ext l tag poison ha bs)

/-- A list alone whose store is done, and that has nothing outstanding, goes on to its next instruction. -/
theorem State.advance_stored {t : State} {l : RunList} (hRemote : l.work = .remote) (hUntraced : t.untraced = true) (hCalm : t.calm = true)
    (hl : t.lists = [l]) (hQueue : l.queue < 64) (hRunning : l.running = true) (hEnding : l.ending = none) (hFaults : l.faults = [])
    (hAsks : l.asks = []) (hExt : t.mem.ext = []) (hDone : t.outstanding l = false) (hf : t.follows l = true) :
    t.advance.wrapUp = { t with lists := [t.onward l] } := by
  have hInstr : t.instrDone l = true := by simp [State.instrDone, hRunning, hEnding, hRemote, hDone]
  have hDrop : t.dropColl l = t := by simp [State.dropColl, hRemote]
  obtain ⟨hRun, hEnd, hOpen⟩ := State.onward_list hRunning hf
  have hSettle : ({ t with lists := [t.onward l] } : State).settle = { t with lists := [t.onward l] } :=
    State.settle_alone _ (t.onward l) (by exact rfl) hRun hEnd hOpen
  simp only [State.advance, hl, List.filter_cons, hInstr, if_true, List.filter_nil, List.foldl_cons, List.foldl_nil, hDrop,
    State.completeInstr_alone t l l hUntraced hCalm hl rfl rfl hQueue hFaults hAsks hExt hf, hSettle]
  exact State.wrapUp_onward hCalm hRunning hf

/-- A store of a list alone to local memory, with nothing outstanding: it is made, and the list goes on. -/
theorem State.storeInstr_alone {s t : State} {r : ListRef} {op w : Nat} {l : RunList} (h : s.lone r op l w) {a : Nat} {bs : List Byte}
    (ha : a / 2 ^ 60 < 2) (hDone : s.outstanding l = false) (ht : t = s.jobStore l (s.listTag l) false a bs)
    (hUntraced : t.untraced = true) (hCalm : t.calm = true) (hf : t.follows l = true) :
    (s.storeInstr l a bs).wrapUp = { t with lists := [t.onward l] } := by
  obtain ⟨_, _, hLists, _, hFaults, hAsks, hExt⟩ := id h
  obtain ⟨_, _, hRunning, hEnding, _⟩ := State.lone_list h
  have hQueue := State.lone_queue h
  obtain ⟨k, hk⟩ : ∃ k, k = { l with work := .remote } := ⟨_, rfl⟩
  have hSame : t = t.beside s.lists s.link s.mem.ext := by rw [ht]; exact State.jobStore_same s l _ _ ha bs
  have hLink : t.link = s.link := by rw [hSame]; rfl
  have hMem : t.mem.ext = [] := by rw [hSame]; exact hExt
  have hStore : (s.setList k).jobStore l (s.listTag l) false a bs = { t with lists := [k] } := by
    rw [State.setList_alone s k l hLists (by rw [hk]) (by rw [hk])]
    refine (State.jobStore_beside s [k] s.link s.mem.ext l (s.listTag l) false ha bs).trans ?_
    rw [← ht, ← hLink, hExt, ← hMem]
    rfl
  have hNext : ({ t with lists := [k] } : State).onward k = t.onward l := by
    rw [State.onward, State.fetched_lists, State.onward, hk]
    rfl
  have hFollows : ({ t with lists := [k] } : State).follows k = true := by
    rw [State.follows, hNext, hk]
    exact hf
  have hOut : ({ t with lists := [k] } : State).outstanding k = false := by
    rw [State.outstanding, hk]
    simp only [hLink]
    exact hDone
  have hUntraced' : ({ t with lists := [k] } : State).untraced = true := (State.untraced_regs (by exact rfl)).trans hUntraced
  have hCalm' : ({ t with lists := [k] } : State).calm = true := (State.calm_congr (by exact rfl) (by exact rfl) (by exact rfl)).trans hCalm
  have hAdvance := State.advance_stored (t := { t with lists := [k] }) (l := k) (by rw [hk]) hUntraced' hCalm' rfl
    (by rw [hk]; exact hQueue) (by rw [hk]; exact hRunning) (by rw [hk]; exact hEnding) (by rw [hk]; exact hFaults)
    (by rw [hk]; exact hAsks) hMem hOut hFollows
  rw [State.storeInstr, ← hk, hStore, hAdvance, hNext]

theorem execWrite_stores {s : State} {r : ListRef} {w : Nat} {l : RunList} (h : s.lone r 0x03 l w)
    (hw : leftover w [(16, 4), (64, 64)] = false) (hRange : s.badRange l allSpaces 8 ⟨l.slot (fSlot w), 8⟩ = false) :
    execWrite r s = .next (s.storeInstr l (l.slot (fSlot w)) (leBytes 8 (fImm64 w))).wrapUp := by
  rw [execWrite, State.instr_alone h _ _ (by simp [hw, hRange])]

theorem execStamp_stores {s : State} {r : ListRef} {w : Nat} {l : RunList} (h : s.lone r 0x93 l w)
    (hw : leftover w [(16, 4)] = false) (hRange : s.badRange l allSpaces 16 ⟨l.slot (fSlot w), 16⟩ = false) :
    execStamp r s = .next (s.storeInstr l (l.slot (fSlot w)) s.stampBytes).wrapUp := by
  rw [execStamp, State.instr_alone h _ _ (by simp [hw, hRange])]

/-! ### ENQUEUE: R99, R125 -/

section
variable {s : State} {r : ListRef} {w : Nat} {l : RunList} (h : s.lone r 0x04 l w)
include h

theorem execEnqueue_remote (hRemote : fImm w 23 1 = 1) (hw : leftover w [(16, 4), (20, 6), (43, 1), (64, 32), (26, 17)] = false)
    (hSpace : l.slot (fSlot w) / 2 ^ 60 = 0) (hAlign : l.slot (fSlot w) % 64 = 0) (hId : s.rd fabDevIdValid = 1)
    (hOther : s.ownId (fImm w 6 17) = false) :
    execEnqueue r s = .next (s.sendInstr l (fImm w 6 17) (s.partOfQueue (fImm w 0 6))
      (.enqueue (fImm w 0 6) (bitsOf w 64 32) (l.slot (fSlot w)))).wrapUp := by
  have hNot : ¬ (fImm w 23 1 = 0) := by omega
  have hLegal : lowest [(leftover w ([(16, 4), (20, 6), (43, 1), (64, 32)] ++ useIf (fImm w 23 1 == 1) (26, 17)), 0x0202),
      (if (fImm w 23 1 == 1) = true then l.slot (fSlot w) % 64 != 0 || !(l.slot (fSlot w) / 2 ^ 60 == 0 || l.slot (fSlot w) / 2 ^ 60 == 2)
        else s.badRange l allSpaces 64 ⟨l.slot (fSlot w), 64⟩, 0x0206),
      (!(fImm w 23 1 == 1) && s.partOfQueue (fImm w 0 6) != s.partOf l, 0x020D)] = none := by
    have hHbm : (l.slot (fSlot w) / 2 ^ 60 == 0) = true := beq_iff_eq.mpr hSpace
    simp only [hRemote, useIf, List.cons_append, List.nil_append, beq_self_eq_true, if_true, hw, hHbm, hAlign, bne_self_eq_false,
      Bool.true_or, Bool.not_true, Bool.or_self, Bool.false_and, lowest_cons_eq_none, lowest_nil, and_self]
  rw [execEnqueue, State.instr_alone h _ _ hLegal]
  simp only [if_neg hNot, State.on_of_rd_one hId, hOther, Bool.not_true, Bool.false_eq_true, if_false]

theorem execEnqueue_here (hLocal : fImm w 23 1 = 0) (hw : leftover w [(16, 4), (20, 6), (43, 1), (64, 32)] = false)
    (hRange : s.badRange l allSpaces 64 ⟨l.slot (fSlot w), 64⟩ = false) (hPart : s.partOfQueue (fImm w 0 6) = s.partOf l) :
    execEnqueue r s = .next ((s.enqueueHere l w (fImm w 0 6)).finish l false).wrapUp := by
  rw [execEnqueue, State.instr_alone h _ _ (by simp [hLocal, useIf, hw, hRange, hPart])]
  simp only [if_pos hLocal]

end

theorem State.takesPost_room {s : State} {q : Nat} (hFed : s.on (queCtlDevEnq q) = true) (hRoom : s.pendingCount q + 1 ≤ s.ringCap q - 1) :
    s.takesPost q = true := by
  rw [State.takesPost, hFed, decide_eq_true hRoom, Bool.and_self]

theorem State.takesPost_refused {s : State} {q : Nat} (h : s.on (queCtlDevEnq q) = false ∨ s.ringCap q - 1 < s.pendingCount q + 1) :
    s.takesPost q = false := by
  obtain hHost | hFull := h
  · rw [State.takesPost, hHost, Bool.false_and]
  · rw [State.takesPost, decide_eq_false (Nat.not_le.mpr hFull), Bool.and_false]

end Sys2Proof.Machine

namespace Sys2Proof

open Machine Machine.Reg

/-- Settles O10: each clause is its instruction's or its wait's lemma above. -/
theorem syncInstructions : Obligations.SyncInstructions := by
  refine ⟨⟨fun s t r l w h hw ht hf => execSignal_alone h hw (by rw [signalled_bit, ht]) hf,
      fun s t r l w h hw hLocal hThere hOpen ht hf => execRsignal_local h hw hLocal hThere hOpen (by rw [signalled_bit, ht]) hf,
      fun s r l w dev h hDev hw hRemote hId hOther => ?remote,
      fun s r l w h hw => ⟨execWait_passes h hw, execWait_waits h hw⟩⟩,
    fun s r l w h hw => ⟨execWaitbeat_passes h hw, execWaitbeat_waits h hw⟩,
    fun s r l w h hw => ⟨execWaitticks_passes h hw, execWaitticks_waits h hw⟩,
    fun s r l m hUntraced hl hq hd hRunning hEnding hFaults hAsks hExt hCalm hf => ⟨fun hWork hReached => ?markDue,
      fun hWork hBefore => ?mark⟩,
    fun s r l n hUntraced hl hq hd hRunning hEnding hFaults hAsks hExt hCalm hf => ⟨fun hWork hDue => ?ticksDue,
      fun hWork hEarly => ?ticks⟩⟩
  case remote =>
    subst hDev
    exact execRsignal_remote h hw hRemote hId hOther
  case markDue =>
    rw [exec_waitbeatRelease, execWaitbeatRelease, State.releaseWait,
      State.release_due hl hq hd hUntraced hRunning hEnding hFaults hAsks hExt hCalm hf (by rw [hWork]; exact hReached)]
  case mark =>
    rw [exec_waitbeatRelease, execWaitbeatRelease, State.releaseWait, State.release_early hl hq hd (by rw [hWork]; exact hBefore)]
  case ticksDue =>
    rw [exec_waitticksExpiry, execWaitticksExpiry,
      State.release_due hl hq hd hUntraced hRunning hEnding hFaults hAsks hExt hCalm hf (by rw [hWork]; exact decide_eq_true hDue)]
  case ticks =>
    rw [exec_waitticksExpiry, execWaitticksExpiry,
      State.release_early hl hq hd (by rw [hWork]; exact decide_eq_false (Nat.not_le.mpr hEarly))]

/-- Settles O11: each clause is its instruction's lemma above. -/
theorem storeInstructions : Obligations.StoreInstructions := by
  refine ⟨⟨fun s t r l w h hw hRange hSpace hDone ht hUntraced hCalm hf => ?write,
      fun s t r l w h hw hRange hSpace hDone ht hUntraced hCalm hf => ?stamp, fun s r l w h hw hRange => execWrite_stores h hw hRange⟩,
    fun s r l w dev h hDev hRemote hw hSpace hAlign hId hOther => ?remote,
    fun s r l w q h hq hLocal hw hRange hPart => ⟨fun hFed hRoom => ?posted, fun hRefused => ?refused⟩⟩
  case write => rw [exec_write, execWrite_stores h hw hRange, State.storeInstr_alone h hSpace hDone ht hUntraced hCalm hf]
  case stamp => rw [exec_stamp, execStamp_stores h hw hRange, State.stampBytes, State.storeInstr_alone h hSpace hDone ht hUntraced hCalm hf]
  case remote =>
    subst hDev
    exact execEnqueue_remote h hRemote hw hSpace hAlign hId hOther
  case posted =>
    subst hq
    rw [exec_enqueue, execEnqueue_here h hLocal hw hRange hPart, State.enqueueHere, if_pos (State.takesPost_room hFed hRoom), State.post]
  case refused =>
    subst hq
    rw [exec_enqueue, execEnqueue_here h hLocal hw hRange hPart, State.enqueueHere,
      if_neg (Bool.eq_false_iff.mp (State.takesPost_refused hRefused)), State.enqueueRefused]

end Sys2Proof
end

section
/-!
PROOF. Compute instructions (06_instruction_reference.md: Matrix instructions and tile shapes, Vector instructions): the tiles they issue.
-/
namespace Sys2Proof.Machine

open Reg

theorem exec_mma (r : ListRef) (s : State) : exec (.mma r) s = execMma r s := rfl

theorem exec_vew (r : ListRef) (s : State) : exec (.vew r) s = execVew r s := rfl

theorem exec_vun (r : ListRef) (s : State) : exec (.vun r) s = execVun r s := rfl

theorem exec_vred (r : ListRef) (s : State) : exec (.vred r) s = execVred r s := rfl

/-- A wheel without watched targets gives no shadow. -/
theorem WheelSt.shadowDie_unwatched {x : WheelSt} {vector : Bool} (h : (if vector then x.vwatched else x.watched) = []) (d lc : Nat) :
    x.shadowDie vector d lc = none := by
  rw [WheelSt.shadowDie, h, List.find?_nil, Option.map_none]

/-- A tile on a target whose cluster is not watched is not selected. -/
theorem State.issueTile_unwatched {s : State} {l : RunList} {vector : Bool}
    (h : ∀ d lc, (s.wheel (s.partOf l)).shadowDie vector d lc = none) (w t : Nat) : s.issueTile l w t vector = s := by
  unfold State.issueTile
  split
  · rw [h]
    split
    · next hNone => exact absurd hNone (by simp)
    · rfl
  · rfl

/-- A tile on a watched target is selected. -/
theorem State.issueTile_watched {s : State} {l : RunList} {t d lc u die : Nat} {vector : Bool} (w : Nat)
    (hTarget : targetOf l.hdr t = some (d, lc)) (hBacked : s.backing d lc = some u)
    (hDie : (s.wheel (s.partOf l)).shadowDie vector d lc = some die) :
    s.issueTile l w t vector = s.selectTile l t vector (s.tileTag l w t (fFmtC w)) d lc u die := by
  simp only [State.issueTile, hTarget, hBacked, hDie]

/-- A list alone issues its tiles and keeps its slot; with nothing watched none is selected. -/
theorem State.issueScreened_alone {s : State} {r : ListRef} {op w : Nat} {l : RunList} (h : s.lone r op l w) {vector : Bool}
    (hWheel : (if vector then (s.wheel (s.partOf l)).vwatched else (s.wheel (s.partOf l)).watched) = []) (n : Nat) :
    (s.issueScreened l w n vector).wrapUp = { s with lists := [{ l with work := .tiles, total := n, done := [], held := [] }] } := by
  obtain ⟨_, hCalm, hLists, _⟩ := id h
  obtain ⟨_, _, hRunning, hEnding, _⟩ := State.lone_list h
  obtain ⟨k, hk⟩ : ∃ k, k = { l with work := .tiles, total := n, done := [], held := [] } := ⟨_, rfl⟩
  have hSame : ∀ i ∈ List.range n, ({ s with lists := [k] } : State).issueTile l w i vector = { s with lists := [k] } := fun i _ =>
    State.issueTile_unwatched (s := { s with lists := [k] }) (fun d lc => WheelSt.shadowDie_unwatched hWheel d lc) w i
  rw [State.issueScreened, ← hk, State.setList_alone s k l hLists (by rw [hk]) (by rw [hk]), foldl_same _ _ _ hSame]
  exact State.wrapUp_one (k := k) ((State.calm_congr (by exact rfl) (by exact rfl) (by exact rfl)).trans hCalm) (by exact rfl)
    (by rw [hk]; exact hRunning) (by rw [hk]; exact hEnding) (by rw [hk]; simp)

end Sys2Proof.Machine

namespace Sys2Proof

open Machine Machine.Reg

/-- Settles O14: each instruction issues the tiles of its shape, and none is selected where nothing is watched. -/
theorem computeInstructions : Obligations.ComputeInstructions := by
  refine ⟨fun s r l w h hl hLegal hShape hWheel => ?mma, fun s r l w hl hLegal hWheel => ?vew, fun s r l w hl hLegal hWheel => ?vun,
    fun s r l w hl hLegal hWheel => ?vred, fun s l w t d lc u die v hTarget hBacked hDie => State.issueTile_watched w hTarget hBacked hDie⟩
  case mma =>
    have hShapeOf : shapeOf l w = some h := hShape
    rw [exec_mma, execMma, State.instr_alone hl _ _ hLegal]
    simp only [hShapeOf, State.issueScreened_alone hl (vector := false) hWheel]
    rfl
  case vew =>
    rw [exec_vew, execVew, State.instr_alone hl _ _ hLegal, State.issueScreened_alone hl (vector := true) hWheel]
    rfl
  case vun =>
    rw [exec_vun, execVun, State.instr_alone hl _ _ hLegal, State.issueScreened_alone hl (vector := true) hWheel]
    rfl
  case vred =>
    rw [exec_vred, execVred, State.instr_alone hl _ _ hLegal, State.issueScreened_alone hl (vector := true) hWheel]
    rfl

end Sys2Proof
end

section
/-!
PROOF. Collectives and their agreement (06_instruction_reference.md: Collective instructions; 08_links_host_fabric_management.md: Control
messages).
-/
namespace Sys2Proof.Machine

open Reg

theorem exec_allreduce (r : ListRef) (s : State) : exec (.allreduce r) s = execAllreduce r s := rfl

theorem exec_redscat (r : ListRef) (s : State) : exec (.redscat r) s = execRedscat r s := rfl

theorem exec_allgather (r : ListRef) (s : State) : exec (.allgather r) s = execAllgather r s := rfl

theorem exec_bcast (r : ListRef) (s : State) : exec (.bcast r) s = execBcast r s := rfl

theorem exec_collectiveMark (r : ListRef) (s : State) : exec (.collectiveMark r) s = execCollectiveMark r s := rfl

theorem exec_agreeRx (h : KftHdr) (pos : Nat) (diff : Bool) (g : Word64) (s : State) :
    exec (.agreeRx h pos diff g) s = execAgreeRx h pos diff g s := rfl

theorem exec_agreeResultRx (h : KftHdr) (result : Bool) (lowest : Nat) (s : State) :
    exec (.agreeResultRx h result lowest) s = execAgreeResultRx h result lowest s := rfl

/-! ### The exchange of a list alone: R190 -/

section
variable {u : State} {k : RunList} {c : Coll} (hl : u.lists = [k]) (hWork : k.work = .coll c)
include hl hWork

theorem State.seats_alone (hJobs : u.jobs = []) (hEnding : k.ending = none) : u.seats = [.coll k.queue k.desc] := by
  simp [State.seats, hl, hJobs, hWork, hEnding]

theorem State.agreeOf_alone : u.agreeOf (.coll k.queue k.desc) = some (u.partOf k, c.agree) := by
  simp only [State.agreeOf, State.findList_alone u k hl, hWork]

theorem State.setAgree_alone (a : Agree) :
    u.setAgree (.coll k.queue k.desc) a = { u with lists := [{ k with work := .coll { c with agree := a } }] } := by
  simp only [State.setAgree, State.findList_alone u k hl, hWork]
  exact State.setList_alone u _ k hl rfl rfl

/-- With no AGREE kept, an equal result leaves the list agreed and nothing else changed. -/
theorem State.takeResult_alone (p key : Nat) (hAgrees : u.link.agrees = []) :
    u.takeResult (.coll k.queue k.desc) p key false = { u with lists := [{ k with work := .coll { c with agreed := true } }] } := by
  have hLink : { u with link := { u.link with agrees := u.link.agrees.filter (fun m => !(m.part == p && m.key == key)) } } = u := by
    rw [hAgrees, List.filter_nil, ← hAgrees]
  simp only [State.takeResult, hLink, State.findList_alone u k hl, Bool.false_eq_true, if_false, hWork]
  exact State.setList_alone u _ k hl rfl rfl

/-- A seat that has sent takes no further step. -/
theorem State.stepSeat_sent (hSent : c.agree.sent = true) : u.stepSeat (.coll k.queue k.desc) = u := by
  simp only [State.stepSeat, State.agreeOf_alone hl hWork, hSent, Bool.true_or, if_true]

end

theorem childrenOf_one : childrenOf 0 1 = [] := by decide

section
variable {u : State} {k : RunList} {c : Coll} (hl : u.lists = [k]) (hWork : k.work = .coll c) (hPos : c.agree.pos = 0)
  (hOne : c.agree.members.length = 1)
include hl hWork hPos hOne

/-- The result of a collective of one member reaches that member alone. -/
theorem State.deliver_one (n lowest : Nat) (hAgrees : u.link.agrees = []) :
    u.deliver (n + 1) (.coll k.queue k.desc) false lowest =
      { u with lists := [{ k with work := .coll { c with agreed := true } }] } := by
  simp only [State.deliver, State.agreeOf_alone hl hWork, hPos, hOne, childrenOf_one, List.foldl_nil,
    State.takeResult_alone hl hWork _ _ hAgrees]

/-- A collective of one member agrees with itself. -/
theorem State.stepSeat_one (hSent : c.agree.sent = false) (hDiff : c.agree.diff = false) (hAgrees : u.link.agrees = []) :
    u.stepSeat (.coll k.queue k.desc) =
      { u with lists := [{ k with work := .coll { c with agree := { c.agree with sent := true }, agreed := true } }] } := by
  obtain ⟨⟨pos, members, digest, key, diff, sent⟩, agreed, marked, done⟩ := c
  dsimp only at hPos hOne hSent hDiff
  subst hPos hSent hDiff
  simp only [State.stepSeat, State.agreeOf_alone hl hWork, hOne, childrenOf_one, List.map_nil, List.any_nil,
    List.filterMap_nil, Bool.or_self, Bool.false_eq_true, if_false, if_true, State.setAgree_alone hl hWork, bne_self_eq_false]
  exact State.deliver_one
    (u := { u with lists := [{ k with work := .coll ⟨⟨0, members, digest, key, false, true⟩, agreed, marked, done⟩ }] })
    rfl rfl rfl hOne 19 _ hAgrees

end

/-- A round of the exchanges is a step of the only seat. -/
theorem State.agreeN_alone {u : State} {k : RunList} {c : Coll} (hl : u.lists = [k]) (hWork : k.work = .coll c) (hJobs : u.jobs = [])
    (hEnding : k.ending = none) (n : Nat) : u.agreeN (n + 1) = (u.stepSeat (.coll k.queue k.desc)).agreeN n := by
  rw [State.agreeN, State.seats_alone hl hWork hJobs hEnding, List.foldl_cons, List.foldl_nil]

/-- Once a list alone has sent, its exchange goes no further. -/
theorem State.agreeN_sent {u : State} {k : RunList} {c : Coll} (hl : u.lists = [k]) (hWork : k.work = .coll c) (hJobs : u.jobs = [])
    (hEnding : k.ending = none) (hSent : c.agree.sent = true) (n : Nat) : u.agreeN n = u := by
  induction n with
  | zero => rfl
  | succ n ih => rw [State.agreeN_alone hl hWork hJobs hEnding, State.stepSeat_sent hl hWork hSent, ih]

/-- A list alone whose instruction still has tiles to do stays as it is. -/
theorem State.advance_left {u : State} {k : RunList} {c : Coll} (hl : u.lists = [k]) (hWork : k.work = .coll c) (hCalm : u.calm = true)
    (hRunning : k.running = true) (hEnding : k.ending = none) (hLeft : k.done.length < k.total ∨ c.sent = false) :
    u.advance.wrapUp = u := by
  have hUndone : u.instrDone k = false := by
    obtain hTiles | hWaits := hLeft
    · exact State.instrDone_tilesLeft (Or.inr ⟨c, hWork⟩) hTiles
    · simp [State.instrDone, hWork, hWaits]
  have hOpen : ∀ b m, k.work ≠ .closing b m := by simp [hWork]
  rw [State.advance_undone hl hUndone, State.settle_alone u k hl hRunning hEnding hOpen]
  exact State.wrapUp_one hCalm hl hRunning hEnding hOpen

/-! ### Contributions: R138, R139 -/

/-- A member with nobody to send to sends nothing. -/
theorem State.sendTile_one {u : State} {k : RunList} {w t : Nat} {a : Agree} {vs : List VVal} (hFlaws : u.mem.flaws = [])
    (hOwn : u.ownPart k w t = some (vs, [])) (hOne : a.members = [(u.rd fabDevIdId, u.partOf k)]) : u.sendTile k w t a = u := by
  have hNobody : a.members.filter (fun m => m ≠ (u.rd fabDevIdId, u.partOf k)) = [] := by simp [hOne]
  have hRead : ∃ bs, u.readBytes (u.partOf k) false (k.slot (fAsa w) + rowBytes (fFmtA w) (tileSpan (fCount w) t collTile).1)
      (rowBytes (fFmtA w) ((tileSpan (fCount w) t collTile).2 - (tileSpan (fCount w) t collTile).1)) = some (bs, []) := by
    simp only [State.ownPart, Option.map_eq_some_iff, Prod.mk.injEq] at hOwn
    obtain ⟨⟨bs, fs⟩, hBytes, _, hNone⟩ := hOwn
    exact ⟨bs, by rw [hBytes]; exact congrArg (fun x => some (bs, x)) hNone⟩
  obtain ⟨bs, hBytes⟩ := hRead
  simp only [State.sendTile, hOwn, hNobody, List.foldl_nil, State.addFaults, ownReads, List.foldl_cons,
    State.touch_read hFlaws hBytes]

section
variable {u : State} {k : RunList} {c : Coll} {w : Word128} (hl : u.lists = [k]) (hWork : k.work = .coll c) (hWord : k.word = some w)
  (hEnding : k.ending = none) (hAgreed : c.agreed = true) (hSent : c.sent = false)
include hl hWork hWord hEnding hAgreed hSent

/-- A member that is not the root of a BCAST contributes by its readiness alone. -/
theorem State.contribute_leaf {m : Mark} (hMarked : c.marked = some m) (hReached : u.reached m = true) (hOp : bitsOf w.toNat 0 8 = 0x53)
    (hPos : c.agree.pos ≠ 0) :
    u.contribute k.queue k.desc = { u with lists := [{ k with work := .coll { c with sent := true } }] } := by
  simp only [State.contribute, State.findList_alone u k hl, hWork, hWord, hEnding, hAgreed, hSent, hMarked, hReached, Bool.not_true,
    Bool.or_self, Bool.false_eq_true, if_false, if_pos (And.intro hOp hPos)]
  exact State.setList_alone u _ k hl rfl rfl

theorem State.contribute_early {m : Mark} (hMarked : c.marked = some m) (hBefore : u.reached m = false) :
    u.contribute k.queue k.desc = u := by
  simp only [State.contribute, State.findList_alone u k hl, hWork, hWord, hEnding, hAgreed, hSent, hMarked, hBefore, Bool.not_false,
    Bool.or_true, if_true]

/-- The only member contributes, with nothing to send. -/
theorem State.contribute_one (hMarked : c.marked = none) (hPos : c.agree.pos = 0) (hFlaws : u.mem.flaws = [])
    (hOne : c.agree.members = [(u.rd fabDevIdId, u.partOf k)])
    (hOwn : ∀ t < k.total, ∃ vs, u.ownPart k w.toNat t = some (vs, [])) :
    u.contribute k.queue k.desc = { u with lists := [{ k with work := .coll { c with sent := true } }] } := by
  have hRoot : ¬ (bitsOf w.toNat 0 8 = 0x53 ∧ c.agree.pos ≠ 0) := by simp [hPos]
  simp only [State.contribute, State.findList_alone u k hl, hWork, hWord, hEnding, hAgreed, hSent, hMarked, Bool.not_true,
    Bool.or_self, Bool.false_eq_true, if_false, if_neg hRoot]
  rw [State.setList_alone u _ k hl (by exact rfl) (by exact rfl)]
  refine foldl_same _ _ _ fun t ht => ?_
  obtain ⟨vs, hPart⟩ := hOwn t (List.mem_range.mp ht)
  refine State.sendTile_one (vs := vs) hFlaws ?_ hOne
  rw [← hPart]
  simp only [State.ownPart]
  rw [State.readBytes_lists]
  rfl

end

/-! ### Member lists: R136 -/

/-- A member list that is read without an error is read whole, and reading it met nothing. -/
theorem State.readMembers_read {s : State} {p : Nat} {whole : Bool} {a : Nat} (hError : (s.readMembers p whole a).error = none)
    (hSome : (s.readMembers p whole a).members ≠ []) :
    ∃ bs, s.readBytes p whole a (4 + 4 * (s.readMembers p whole a).members.length) = some (bs, []) := by
  have hNot : ∀ e, (noMembers e).members = [] := fun _ => rfl
  have hRead : ∀ {x : MemberRead}, s.readMembers p whole a = x → x.error = none → x.members ≠ [] →
      ∃ bs, s.readBytes p whole a (4 + 4 * x.members.length) = some (bs, []) := by
    intro x hx hErr hMem
    unfold State.readMembers at hx
    split at hx
    · exact absurd (hx ▸ hNot _) hMem
    · split at hx
      · exact absurd (hx ▸ hNot _) hMem
      · dsimp only at hx
        split at hx
        · exact absurd (hx ▸ hNot _) hMem
        · split at hx
          · exact absurd (hx ▸ hNot _) hMem
          · next bs gs hBytes =>
            split at hx
            · exact absurd (hx ▸ hNot _) hMem
            · next hClean =>
              refine ⟨bs, ?_⟩
              rw [← hx]
              simp only [parseMembers, List.length_map, List.length_range]
              rw [hBytes, State.dataError_nil hClean]
  exact hRead rfl hError hSome

/-- Reading the member list of a legal collective that can be read meets nothing. -/
theorem State.touch_members {s : State} {l : RunList} {w : Nat} (hFlaws : s.mem.flaws = []) (hError : (s.listOf l w).error = none)
    (hSome : (s.listOf l w).members ≠ []) (o : Option (Nat × Nat)) :
    s.touch (s.partOf l) false o (l.slot (fAsb w)) (4 + 4 * (s.listOf l w).members.length) = s := by
  have hRead : s.listOf l w = s.readMembers (s.partOf l) false (l.slot (fAsb w)) := by
    have hPast : ∀ (p : Prop) [Decidable p] (x : MemberRead), (if p then noMembers none else x).members ≠ [] →
        (if p then noMembers none else x) = x := fun p _ x hMem => by
      by_cases hp : p
      · exact absurd (by rw [if_pos hp]; rfl) hMem
      · rw [if_neg hp]
    simp only [State.listOf] at hSome ⊢
    have hOuter := hPast _ _ hSome
    rw [hOuter] at hSome ⊢
    exact hPast _ _ hSome
  rw [hRead] at hError hSome ⊢
  obtain ⟨bs, hBytes⟩ := State.readMembers_read hError hSome
  exact State.touch_read hFlaws hBytes o

/-! ### The instruction: R138 -/

theorem groups_pos {n k : Nat} (hn : 0 < n) (hk : 0 < k) : 0 < groups n k := Nat.div_pos (by omega) hk

/-- COUNT 0 is a cause. -/
theorem State.collCauses_count {s : State} {l : RunList} {w : Nat} (h : lowest (s.collCauses l w) = none) : 0 < fCount w := by
  simp only [State.collCauses, List.cons_append, lowest_cons_eq_none] at h
  obtain ⟨_, _, _, hCount, _⟩ := h
  exact Nat.pos_of_ne_zero (by simpa using hCount)

/-- The list that runs a collective of one member, before and after it has agreed, and before and after it has contributed. -/
def collOne (k : RunList) (a : Agree) (agreed sent : Bool) : RunList :=
  { k with work := .coll { agree := { a with sent := agreed }, agreed := agreed, marked := none, sent := sent } }

theorem State.ownPart_lists (s : State) (ls : List RunList) (k : RunList) (c : Work) (w t : Nat) :
    ({ s with lists := ls } : State).ownPart { k with work := c } w t = s.ownPart k w t := by
  simp only [State.ownPart]
  rw [State.readBytes_lists]
  rfl

/-- The exchange of one member goes as far as it can: the member agrees, contributes, and waits for its tiles. -/
theorem State.progress_one {s : State} {k : RunList} {a : Agree} {word : Word128} (hEnding : k.ending = none) (hRunning : k.running = true)
    (hWord : k.word = some word) (hOwn : ∀ t < k.total, ∃ vs, s.ownPart k word.toNat t = some (vs, [])) (hCalm : s.calm = true)
    (hJobs : s.jobs = []) (hAgrees : s.link.agrees = []) (hDone : k.done = []) (hTotal : 0 < k.total) (hPos : a.pos = 0)
    (hMembers : a.members = [(s.rd fabDevIdId, s.partOf k)]) (hDiff : a.diff = false) :
    ({ s with lists := [collOne k a false false] } : State).progressAgrees.wrapUp = { s with lists := [collOne k a true true] } := by
  have hStep := State.stepSeat_one (u := { s with lists := [collOne k a false false] }) (k := collOne k a false false)
    (c := ⟨{ a with sent := false }, false, none, false⟩) rfl rfl hPos (by simp [hMembers]) rfl hDiff hAgrees
  have hAgree : ({ s with lists := [collOne k a false false] } : State).agreeN 4 = { s with lists := [collOne k a true false] } := by
    refine (State.agreeN_alone (u := { s with lists := [collOne k a false false] }) (k := collOne k a false false)
      (c := ⟨{ a with sent := false }, false, none, false⟩) rfl rfl hJobs hEnding 3).trans ((congrArg (fun u => u.agreeN 3) hStep).trans ?_)
    exact State.agreeN_sent (u := { s with lists := [collOne k a true false] }) (k := collOne k a true false)
      (c := ⟨{ a with sent := true }, true, none, false⟩) rfl rfl hJobs hEnding rfl 3
  have hGive : ({ s with lists := [collOne k a true false] } : State).contribute k.queue k.desc =
      { s with lists := [collOne k a true true] } :=
    State.contribute_one (u := { s with lists := [collOne k a true false] }) (k := collOne k a true false)
      (c := ⟨{ a with sent := true }, true, none, false⟩) rfl rfl hWord hEnding rfl rfl rfl hPos (State.calm_parts hCalm).1 hMembers
      fun t ht => by simpa only [collOne, State.ownPart_lists] using hOwn t ht
  have hStay := State.advance_left (u := { s with lists := [collOne k a true true] }) (k := collOne k a true true)
    (c := ⟨{ a with sent := true }, true, none, true⟩) rfl rfl ((State.calm_congr rfl rfl rfl).trans hCalm) hRunning hEnding
    (Or.inl (by rw [collOne, hDone]; exact hTotal))
  simp only [State.progressAgrees, hAgree, List.foldl_cons, List.foldl_nil]
  exact (congrArg (fun u => u.advance.wrapUp) hGive).trans hStay

/-- A collective of one member agrees, contributes, and waits for its tiles. -/
theorem State.coll_one {s : State} {r : ListRef} {l : RunList} {w op : Nat} {a : Agree} (h : s.lone r op l w)
    (hLegal : lowest (s.collCauses l w) = none) (hJobs : s.jobs = []) (hAgrees : s.link.agrees = []) (hError : (s.listOf l w).error = none)
    (hOwn : ∀ t < groups (fCount w) 16384, ∃ vs, s.ownPart l w t = some (vs, []))
    (hMembers : (s.listOf l w).members = [(s.rd fabDevIdId, s.partOf l)]) (hUnmarked : bitsOf w 118 1 = 0)
    (ha : a = { pos := 0, members := [(s.rd fabDevIdId, s.partOf l)],
                digest := crc64 (agreeBlock l w (crc64 (s.listOf l w).bytes)), key := (s.tileTag l w 0 (fFmtC w)).toNat / 4096,
                diff := false, sent := true }) :
    (s.coll r op).wrapUp = { s with lists := [{ l with
      work := .coll { agree := a, agreed := true, marked := none, sent := true }, total := groups (fCount w) 16384, done := [] }] } := by
  obtain ⟨_, hCalm, hLists, _⟩ := id h
  obtain ⟨_, _, hRunning, hEnding, _, ⟨word, hWord, hw⟩, _⟩ := State.lone_list h
  have hTouch := State.touch_members (State.calm_parts hCalm).1 hError (by rw [hMembers]; simp) (some (l.queue, l.desc))
  have hIdx : (s.listOf l w).members.idxOf (s.rd fabDevIdId, s.partOf l) = 0 := by rw [hMembers]; exact List.idxOf_cons_self
  have hNoMark : ¬ (fExt w 118 1 = 1) := by rw [fExt, hUnmarked]; decide
  obtain ⟨k, hk⟩ : ∃ k : RunList, k = { l with total := groups (fCount w) 16384, done := [] } := ⟨_, rfl⟩
  have hStart : s.startColl l w = ({ s with lists := [collOne k a false false] } : State).progressAgrees := by
    rw [State.startColl, hTouch]
    simp only [hError, hIdx, if_neg hNoMark]
    rw [State.setList_alone s _ l hLists (by exact rfl) (by exact rfl), hMembers, ha, hk]
    exact Eq.refl _
  rw [State.coll, State.instr_alone h _ _ hLegal, hStart, State.progress_one (s := s) (k := k) (by rw [hk]; exact hEnding)
    (by rw [hk]; exact hRunning) (by rw [hk]; exact hWord) (by rw [hk, ← hw]; exact hOwn) hCalm hJobs hAgrees (by rw [hk])
    (by rw [hk]; exact groups_pos (State.collCauses_count hLegal) (by decide)) (by rw [ha]) (by rw [ha, hk]; rfl) (by rw [ha]), hk, ha]
  exact Eq.refl _

/-! ### The mark, and the messages of other members: R139, R190 -/

section
variable {s : State} {r : ListRef} {k : RunList} {c : Coll} {w : Word128} {m : Mark} (hl : s.lists = [k]) (hCalm : s.calm = true)
  (hQueue : k.queue = r.queue.val) (hDesc : k.desc = r.desc) (hRunning : k.running = true) (hEnding : k.ending = none)
  (hWord : k.word = some w) (hWork : k.work = .coll c) (hAgreed : c.agreed = true) (hSent : c.sent = false) (hMarked : c.marked = some m)
include hl hCalm hQueue hDesc hRunning hEnding hWord hWork hAgreed hSent hMarked

/-- A MARKED member of a BCAST that is not its root is ready once its mark has come. -/
theorem State.collAtMark_reached (hLeft : k.done.length < k.total) (hOp : bitsOf w.toNat 0 8 = 0x53) (hPos : c.agree.pos ≠ 0)
    (hReached : s.reached m = true) :
    exec (.collectiveMark r) s = .next { s with lists := [{ k with work := .coll { c with sent := true } }] } := by
  have hStay := State.advance_left (u := { s with lists := [{ k with work := .coll { c with sent := true } }] })
    (k := { k with work := .coll { c with sent := true } }) (c := { c with sent := true }) rfl rfl
    ((State.calm_congr rfl rfl rfl).trans hCalm) hRunning hEnding (Or.inl hLeft)
  rw [exec_collectiveMark, execCollectiveMark, State.collAtMark, ← hQueue, ← hDesc,
    State.contribute_leaf hl hWork hWord hEnding hAgreed hSent hMarked hReached hOp hPos, hStay]

theorem State.collAtMark_early (hBefore : s.reached m = false) : exec (.collectiveMark r) s = .next s := by
  rw [exec_collectiveMark, execCollectiveMark, State.collAtMark, ← hQueue, ← hDesc,
    State.contribute_early hl hWork hWord hEnding hAgreed hSent hMarked hBefore,
    State.advance_left hl hWork hCalm hRunning hEnding (Or.inr hSent)]

end

/-- With no seat taken no exchange goes on. -/
theorem State.progressAgrees_idle {u : State} (hLists : u.lists = []) (hJobs : u.jobs = []) : u.progressAgrees = u := by
  have hSeats : u.seats = [] := by simp [State.seats, hLists, hJobs]
  have hAgree : ∀ n, u.agreeN n = u := by
    intro n
    induction n with
    | zero => rfl
    | succ n ih => rw [State.agreeN, hSeats, List.foldl_nil, ih]
  rw [State.progressAgrees, hAgree, hLists, List.foldl_nil]
  simp only [State.advance, hLists, List.filter_nil, List.foldl_nil, State.settle_nil u hLists]

/-- A frame that comes by a sub-port which is up, and whose ICRC fails, is taken by nobody and counted. -/
theorem State.takesFrame_icrc {s : State} {h : KftHdr} (hIcrc : h.icrcOk = false) : s.takesFrame h = false := by
  simp [State.takesFrame, State.comesIn, hIcrc]

theorem State.refuseRx_icrc {s : State} {n : Nat} (hCarries : s.carries = true) (hUp : s.upSubs.contains n = true) :
    s.refuseRx n false = s.count fabRxCrcCount 1 := by
  simp only [State.refuseRx, hCarries, hUp, Bool.not_true, Bool.or_self, Bool.false_eq_true, if_false, Bool.not_false, if_true]

/-- R190: the message is kept until its exchange takes it. -/
theorem exec_agreeRx_taken {s : State} {h : KftHdr} (pos : Nat) (diff : Bool) (g : Word64) (hTakes : s.takesFrame h = true)
    (hLists : s.lists = []) (hJobs : s.jobs = []) (hCalm : s.calm = true) :
    exec (.agreeRx h pos diff g) s =
      .next (s.putAgree { part := h.dstPart, key := h.tag.toNat / 4096, pos := pos, diff := diff, digest := g }) := by
  obtain ⟨t, ht⟩ : ∃ t, t = s.putAgree { part := h.dstPart, key := h.tag.toNat / 4096, pos := pos, diff := diff, digest := g } := ⟨_, rfl⟩
  have hNone : t.lists = [] := ht ▸ hLists
  rw [exec_agreeRx, execAgreeRx, if_pos hTakes, ← ht, State.progressAgrees_idle hNone (ht ▸ hJobs),
    State.wrapUp_nil hNone (ht ▸ (State.calm_congr rfl rfl rfl).trans hCalm)]

/-- R179: a frame whose ICRC fails is counted and dropped. -/
theorem exec_agreeRx_icrc {s : State} {h : KftHdr} (pos : Nat) (diff : Bool) (g : Word64) (hCarries : s.carries = true)
    (hUp : s.upSubs.contains h.sub.val = true) (hIcrc : h.icrcOk = false) :
    exec (.agreeRx h pos diff g) s = .next (s.count fabRxCrcCount 1).wrapUp := by
  rw [exec_agreeRx, execAgreeRx, if_neg (Bool.eq_false_iff.mp (State.takesFrame_icrc hIcrc)), hIcrc, State.refuseRx_icrc hCarries hUp]

/-- R190: a result goes to the exchange that waits for it. -/
theorem exec_agreeResultRx_taken {s : State} {h : KftHdr} {x : Seat} (result : Bool) (n : Nat) (hTakes : s.takesFrame h = true)
    (hSeat : s.seatWaiting h.dstPart (h.tag.toNat / 4096) = some x) :
    exec (.agreeResultRx h result n) s = .next ((s.deliver 20 x result n).progressAgrees.wrapUp) := by
  rw [exec_agreeResultRx, execAgreeResultRx, if_pos hTakes]
  simp only [hSeat]

end Sys2Proof.Machine
namespace Sys2Proof
open Machine Machine.Reg

/-- Settles O17: a collective of one member passes through the three stages of `collOne`, and the messages of other members are kept. -/
theorem collectives : Obligations.Collectives := by
  refine ⟨fun s r l w op a h hLegal hJobs hAgrees hError hOwn hMembers hUnmarked ha => ?_,
    fun s r l w c m hl hCalm hQueue hDesc hRunning hEnding hWord hWork hAgreed hSent hMarked hLeft hOp hPos =>
      ⟨State.collAtMark_reached hl hCalm hQueue hDesc hRunning hEnding hWord hWork hAgreed hSent hMarked hLeft hOp hPos,
        State.collAtMark_early hl hCalm hQueue hDesc hRunning hEnding hWord hWork hAgreed hSent hMarked⟩,
    fun s h pos diff g => ⟨exec_agreeRx_taken pos diff g, exec_agreeRx_icrc pos diff g⟩,
    fun s h result n x => exec_agreeResultRx_taken result n⟩
  have hRun := State.coll_one h hLegal hJobs hAgrees hError hOwn hMembers hUnmarked ha
  refine ⟨fun hop => ?_, fun hop => ?_, fun hop => ?_, fun hop => ?_⟩ <;> subst hop
  · rw [exec_allreduce, execAllreduce, hRun]
  · rw [exec_redscat, execRedscat, hRun]
  · rw [exec_allgather, execAllgather, hRun]
  · rw [exec_bcast, execBcast, hRun]

end Sys2Proof
end

section
/-!
PROOF. Checkpoint instructions (06_instruction_reference.md: Media and checkpoint instructions; 11_job_faults_checkpoint_restart.md:
Checkpoint slots).
-/
namespace Sys2Proof.Machine

open Reg

theorem exec_ckbegin (r : ListRef) (s : State) : exec (.ckbegin r) s = execCkbegin r s := rfl

theorem exec_ckdone (r : ListRef) (s : State) : exec (.ckdone r) s = execCkdone r s := rfl

theorem exec_ckwrite (r : ListRef) (s : State) : exec (.ckwrite r) s = execCkwrite r s := rfl

theorem exec_ckread (r : ListRef) (s : State) : exec (.ckread r) s = execCkread r s := rfl

/-! ### A slot changes state: R253 -/

theorem State.wr_withLists (s : State) (ls : List RunList) (f : Fld) (v : Nat) :
    ({ s with lists := ls } : State).wr f v = { s.wr f v with lists := ls } := rfl

theorem State.setSeal_withLists (s : State) (ls : List RunList) (p e : Nat) (b : Bool) (v : Option SealSt) :
    ({ s with lists := ls } : State).setSeal p e b v = { s.setSeal p e b v with lists := ls } := rfl

theorem State.updateLock_withLists (s : State) (ls : List RunList) (p e : Nat) :
    ({ s with lists := ls } : State).updateLock p e = { s.updateLock p e with lists := ls } :=
  State.wr_withLists s ls _ _

theorem State.setSlotReg_withLists (s : State) (ls : List RunList) (p e : Nat) (b : Bool) (st : Nat) :
    (if b then ({ s with lists := ls } : State).wr (jobSlotBState p e) st else ({ s with lists := ls } : State).wr (jobSlotAState p e) st) =
      { (if b then s.wr (jobSlotBState p e) st else s.wr (jobSlotAState p e) st) with lists := ls } := by
  cases b <;> exact State.wr_withLists ..

/-- The lists say nothing of a slot's state. -/
theorem State.setSlot_withLists (s : State) (ls : List RunList) (p e : Nat) (b : Bool) (st : Nat) :
    ({ s with lists := ls } : State).setSlot p e b st = { s.setSlot p e b st with lists := ls } := by
  have hNewest : ({ s with lists := ls } : State).rd (jobStateNewestB p e) = s.rd (jobStateNewestB p e) := rfl
  unfold State.setSlot
  simp only [hNewest]
  rw [State.setSlotReg_withLists]
  by_cases hGone : (decide (st ≠ 3) && s.rd (jobStateNewestB p e) == b.toNat) = true
  · rw [if_pos hGone, if_pos hGone, State.wr_withLists, State.updateLock_withLists]
  · rw [if_neg hGone, if_neg hGone, State.updateLock_withLists]

/-- Entries and slots are registers. -/
theorem State.jobEntry_regs {s t : State} (h : t.regs = s.regs) (p job : Nat) : t.jobEntry p job = s.jobEntry p job := by
  simp only [State.jobEntry, State.on, State.rd, State.reg, h]

theorem State.slotState_regs {s t : State} (h : t.regs = s.regs) (p e : Nat) (b : Bool) : t.slotState p e b = s.slotState p e b := by
  simp only [State.slotState, State.rd, State.reg, h]

theorem State.setSlot_mem (s : State) (p e : Nat) (b : Bool) (st : Nat) : (s.setSlot p e b st).mem = s.mem := by
  unfold State.setSlot State.updateLock
  dsimp only
  split <;> split <;> simp only [State.wr_mem]

theorem State.setSlot_lists (s : State) (p e : Nat) (b : Bool) (st : Nat) : (s.setSlot p e b st).lists = s.lists := by
  unfold State.setSlot State.updateLock
  dsimp only
  split <;> split <;> simp only [State.wr_lists]

theorem State.setSlotStep_mem (s : State) (p e : Nat) (b : Bool) (v : Nat) : (s.setSlotStep p e b v).mem = s.mem := by
  unfold State.setSlotStep
  split <;> rw [State.wr64_mem]

theorem State.setSlotStep_lists (s : State) (p e : Nat) (b : Bool) (v : Nat) : (s.setSlotStep p e b v).lists = s.lists := by
  unfold State.setSlotStep
  split <;> rw [State.wr64_lists]

theorem State.setSeal_mem (s : State) (p e : Nat) (b : Bool) (v : Option SealSt) : (s.setSeal p e b v).mem = s.mem := rfl

theorem State.setSeal_lists (s : State) (p e : Nat) (b : Bool) (v : Option SealSt) : (s.setSeal p e b v).lists = s.lists := rfl

theorem State.seal_setSeal (s : State) (p e : Nat) (b : Bool) (v : Option SealSt) : ((s.setSeal p e b v).job p e).seal b = v := by
  cases b <;> simp [State.setSeal, State.setJob, State.job, JobSt.seal]

/-! ### CKBEGIN and CKDONE: R252, R141 -/

/-- A list that is to begin an instruction waits on no slot. -/
theorem State.supersede_alone {s : State} {l : RunList} (hl : s.lists = [l]) (hReady : l.work = .ready) (p job : Nat) (b : Bool) :
    s.supersede p job b = s := by
  simp [State.supersede, hl, hReady]

theorem execCkbegin_opens {s t : State} {r : ListRef} {l : RunList} {w e : Nat} (h : s.lone r 0x70 l w)
    (hLegal : leftover w [(8, 1)] = false) (hSlot : s.badSlot l w = false) (hEntry : s.jobEntry (s.partOf l) l.hdr.job = some e)
    (ht : t = ((s.setSlot (s.partOf l) e (fSlotB w) 1).setSlotStep (s.partOf l) e (fSlotB w) (s.jobStep l.hdr.job)).setSeal (s.partOf l) e
      (fSlotB w) none) (hUntraced : t.untraced = true) (hCalm : t.calm = true) (hFollows : t.follows l = true) :
    exec (.ckbegin r) s = .next { t with lists := [t.onward l] } := by
  obtain ⟨_, _, hLists, _, hFaults, hAsks, hExt⟩ := id h
  obtain ⟨_, _, hRunning, _, hReady, _⟩ := State.lone_list h
  have hLists' : t.lists = [l] := by rw [ht, State.setSeal_lists, State.setSlotStep_lists, State.setSlot_lists, hLists]
  have hExt' : t.mem.ext = [] := by rw [ht, State.setSeal_mem, State.setSlotStep_mem, State.setSlot_mem, hExt]
  rw [exec_ckbegin, execCkbegin, State.instr_alone h _ _ (by rw [hLegal, hSlot]; rfl)]
  simp only [hEntry, State.supersede_alone hLists hReady]
  rw [← ht, t.finish_alone l hUntraced hCalm hLists' (State.lone_queue h) hFaults hAsks hExt' hFollows,
    State.wrapUp_onward hCalm hRunning hFollows]

/-- R253: CKDONE needs an OPEN slot. -/
theorem State.badSlot_ckdone {s : State} {l : RunList} {w e : Nat} (hOp : bitsOf w 0 8 = 0x72) (hSlot : s.badSlot l w = false)
    (hEntry : s.jobEntry (s.partOf l) l.hdr.job = some e) : s.slotState (s.partOf l) e (fSlotB w) = 1 := by
  simp only [State.badSlot, hEntry, hOp, State.slotLegal, Bool.or_eq_false_iff, Bool.not_eq_false', Bool.and_eq_true, beq_iff_eq] at hSlot
  exact hSlot.2.1

/-- R141, R253: the local completion of an OPEN slot makes it DONE, for the mark of its seal. -/
theorem State.reportDone_open {s : State} {l : RunList} {p e : Nat} {b : Bool} {m : Mark} {x : SealSt} (hPart : s.partOf l = p)
    (hEntry : s.jobEntry p l.hdr.job = some e) (hOpen : s.slotState p e b = 1) (hSeal : (s.job p e).seal b = some x) :
    s.reportDone l b m = (s.setSlot p e b 2).setSeal p e b (some { x with late := decide (m.units < s.now.units) }) := by
  simp only [State.reportDone, hPart, hEntry, hOpen, if_true, hSeal, Option.getD_some]

/-- A list alone that runs on and closes no slot settles no further. -/
theorem State.settleN_alone {s : State} {l : RunList} (hl : s.lists = [l]) (hRunning : l.running = true) (hEnding : l.ending = none)
    (hOpen : ∀ b m, l.work ≠ .closing b m) (n : Nat) : s.settleN n = s := by
  have hClosable : s.closable l = false := by
    cases hWork : l.work with
    | closing b m => exact absurd hWork (hOpen b m)
    | _ => simp [State.closable, hWork]
  refine s.settleN_still n ?_ ?_ ?_
  · simp [hl, hEnding]
  · simp [hl, hClosable]
  · simp [State.nextDispatch, hl, State.dispatchable, hRunning]

/-- A list alone whose state differs from that of `l` only in what its instruction leaves behind completes as `l` would. -/
theorem State.completeInstr_after {t : State} {k l : RunList} (hUntraced : t.untraced = true) (hCalm : t.calm = true)
    (hExt : t.mem.ext = [])
    (hNext : ∀ now, k.next now = l.next now) (hQueue : l.queue < 64) (hFaults : l.faults = []) (hAsks : k.asks = [])
    (hFollows : t.follows l = true) :
    ({ t with lists := [k] } : State).completeInstr k false = { t with lists := [t.onward l] } := by
  have hSame : ∀ {α : Type} (f : RunList → α), f (k.next 0) = f (l.next 0) := fun f => congrArg f (hNext 0)
  have hHdr : k.hdr = l.hdr := hSame RunList.hdr
  have hIdx : k.idx = l.idx := Nat.succ.inj (hSame RunList.idx)
  have hQueueSame : k.queue = l.queue := hSame RunList.queue
  have hFaultsSame : k.faults = l.faults := hSame RunList.faults
  have hOnward : ({ t with lists := [k] } : State).onward k = t.onward l :=
    (State.fetched_lists t [k] _).trans (congrArg t.fetched (hNext t.tick))
  have hGoes : ({ t with lists := [k] } : State).follows k = true := by
    rw [State.follows, hOnward, hHdr, hIdx]
    exact hFollows
  rw [State.completeInstr_alone (s := { t with lists := [k] }) k k hUntraced ((State.calm_congr rfl rfl rfl).trans hCalm) rfl rfl rfl
    (hQueueSame ▸ hQueue) (hFaultsSame.trans hFaults) hAsks hExt hGoes, hOnward]

/-- A CKDONE that no CKWRITE holds back completes as the lists settle. -/
theorem State.settle_closing {s t : State} {k : RunList} {b : Bool} {m : Mark} (hl : s.lists = [k]) (hWork : k.work = .closing b m)
    (hRunning : k.running = true) (hEnding : k.ending = none) (hClose : s.closeSlot k = t) (hStill : ∀ n, t.settleN n = t) :
    s.settle = t := by
  have hWriting : s.ckWriting (s.partOf k) k.hdr.job b = false := by simp [State.ckWriting, hl, hWork]
  have hClosable : s.closable k = true := by simp [State.closable, hWork, hRunning, hEnding, hWriting]
  rw [State.settle, State.settleN]
  simp only [hl, List.find?_cons, hEnding, Option.isSome_none, List.find?_nil, hClosable, hClose, hStill]

theorem execCkdone_closes {s t : State} {r : ListRef} {l : RunList} {w e : Nat} {m : Mark} (h : s.lone r 0x72 l w)
    (hLegal : leftover w [(8, 1), (116, 2)] = false) (hSlot : s.badSlot l w = false)
    (hEntry : s.jobEntry (s.partOf l) l.hdr.job = some e) (hMark : m = l.ms.getD (bitsOf w 116 2) ⟨0, 0⟩)
    (ht : t = ((s.setSeal (s.partOf l) e (fSlotB w) (some { mark := m, late := false, tick := none, agree := none })).setSlot
      (s.partOf l) e (fSlotB w) 2).setSeal (s.partOf l) e (fSlotB w)
        (some { mark := m, late := decide (m.units < s.now.units), tick := none, agree := none }))
    (hUntraced : t.untraced = true) (hCalm : t.calm = true) (hFollows : t.follows l = true) :
    exec (.ckdone r) s = .next { t with lists := [t.onward l] } := by
  obtain ⟨_, _, hLists, _, hFaults, hAsks, hExt⟩ := id h
  obtain ⟨_, _, hRunning, hEnding, _, _, hOp⟩ := State.lone_list h
  have hQueue := State.lone_queue h
  have hOpen := State.badSlot_ckdone hOp hSlot hEntry
  have hMem : t.mem = s.mem := by rw [ht, State.setSeal_mem, State.setSlot_mem, State.setSeal_mem]
  obtain ⟨k, hk⟩ : ∃ k : RunList, k = { l with work := .closing (fSlotB w) m } := ⟨_, rfl⟩
  obtain ⟨u, hu⟩ : ∃ u : State, u = s.setSeal (s.partOf l) e (fSlotB w) (some { mark := m, late := false, tick := none, agree := none }) :=
    ⟨_, rfl⟩
  have hRegs : ({ u with lists := [k] } : State).regs = s.regs := by rw [hu]; exact Eq.refl _
  have hSeal : (u.job (s.partOf l) e).seal (fSlotB w) = some { mark := m, late := false, tick := none, agree := none } := by
    rw [hu, State.seal_setSeal]
  have hPart : ({ u with lists := [k] } : State).partOf k = s.partOf l := by rw [hu, hk]; exact Eq.refl _
  have hReport : ({ u with lists := [k] } : State).reportDone k (fSlotB w) m = { t with lists := [k] } := by
    rw [State.reportDone_open (s := { u with lists := [k] }) hPart (by rw [State.jobEntry_regs hRegs, hk, hEntry])
      (by rw [State.slotState_regs hRegs, hOpen]) hSeal, State.setSlot_withLists, State.setSeal_withLists, ht, hu]
    exact Eq.refl _
  have hCalm' : ∀ ls, ({ t with lists := ls } : State).calm = true := fun ls => (State.calm_congr rfl rfl rfl).trans hCalm
  have hComplete : ({ t with lists := [k] } : State).completeInstr k false = { t with lists := [t.onward l] } :=
    State.completeInstr_after hUntraced hCalm (by rw [hMem, hExt]) (fun now => by rw [hk]; rfl) hQueue hFaults (by rw [hk]; exact hAsks)
      hFollows
  have hClose : ({ u with lists := [k] } : State).closeSlot k = { t with lists := [t.onward l] } := by
    have hWork : k.work = .closing (fSlotB w) m := by rw [hk]
    simp only [State.closeSlot, hWork, hReport, hComplete]
  obtain ⟨hRun, hOn, hDone⟩ := State.onward_list hRunning hFollows
  have hSettle : ({ u with lists := [k] } : State).settle = { t with lists := [t.onward l] } :=
    State.settle_closing (s := { u with lists := [k] }) (b := fSlotB w) (m := m) rfl (by rw [hk]) (by rw [hk]; exact hRunning)
      (by rw [hk]; exact hEnding) hClose fun n => State.settleN_alone rfl hRun hOn hDone n
  rw [exec_ckdone, execCkdone, State.instr_alone h _ _ (by rw [hLegal, hSlot]; rfl)]
  simp only [hEntry, fExt, ← hMark, ← hk]
  rw [State.setList_alone s k l hLists (by rw [hk]) (by rw [hk]), State.setSeal_withLists, ← hu, State.wrapUp_calm hSettle (hCalm' _)]

/-- A slot in another state than the instruction needs is a cause. -/
theorem execCkbegin_bad {s : State} {r : ListRef} {l : RunList} {w : Nat} (h : s.lone r 0x70 l w) (hLegal : leftover w [(8, 1)] = false)
    (hSlot : s.badSlot l w = true) :
    exec (.ckbegin r) s = .next ((s.setList { l with ending := some ⟨0x22, 0x020B⟩ }).wrapUp) := by
  rw [exec_ckbegin, execCkbegin, State.instr_illegal h _ _ (d := 0x020B) (by rw [hLegal, hSlot]; rfl), State.endWith]

/-! ### CKWRITE and CKREAD: R252 -/

theorem farRanges_local {x : Range} (h : x.base / 2 ^ 60 < 2) : farRanges [x] = [] := by
  have hNear : ¬ (decide (0 < x.len) && (x.base / 2 ^ 60 == 2 || x.base / 2 ^ 60 == 4)) = true := by
    simp only [Bool.and_eq_true, Bool.or_eq_true, beq_iff_eq]
    omega
  exact List.filter_cons_of_neg (p := fun r : Range => decide (0 < r.len) && (r.base / 2 ^ 60 == 2 || r.base / 2 ^ 60 == 4)) hNear

/-- Tiles with no far source are issued, and the list keeps its slot. -/
theorem State.issue_alone {s : State} {r : ListRef} {op w : Nat} {l : RunList} (h : s.lone r op l w) {all : List Range}
    (hNear : farRanges all = []) (n fmt : Nat) (srcs : Nat → List Range) :
    (s.issue l w n fmt all srcs).wrapUp = { s with lists := [{ l with work := .tiles, total := n, done := [] }] } := by
  obtain ⟨_, hCalm, hLists, _⟩ := id h
  obtain ⟨_, _, hRunning, hEnding, _⟩ := State.lone_list h
  simp only [State.issue, hNear, if_true]
  rw [State.setList_alone s _ l hLists (by exact rfl) (by exact rfl)]
  exact State.wrapUp_one (k := { l with work := .tiles, total := n, done := [] }) ((State.calm_congr rfl rfl rfl).trans hCalm) rfl hRunning
    hEnding (by simp)

theorem execCkwrite_issues {s : State} {r : ListRef} {l : RunList} {w : Nat} (h : s.lone r 0x71 l w)
    (hLegal : lowest (s.ckCauses l w (l.slot (fAsc w)) (s.ckRanges l w).1) = none) (hLocal : (s.ckRanges l w).1.base / 2 ^ 60 < 2) :
    exec (.ckwrite r) s = .next { s with lists := [{ l with work := .tiles, total := groups (fLen w) 65536, done := [] }] } := by
  rw [exec_ckwrite, execCkwrite, State.instr_alone h _ _ hLegal, State.issue_alone h (farRanges_local hLocal)]
  rfl

theorem execCkread_issues {s : State} {r : ListRef} {l : RunList} {w : Nat} (h : s.lone r 0x73 l w)
    (hLegal : lowest (s.ckCauses l w (l.slot (fAsa w)) (s.ckRanges l w).2) = none) :
    exec (.ckread r) s = .next { s with lists := [{ l with work := .tiles, total := groups (fLen w) 65536, done := [] }] } := by
  rw [exec_ckread, execCkread, State.instr_alone h _ _ hLegal, State.issue_alone h rfl]
  rfl

end Sys2Proof.Machine

namespace Sys2Proof

open Machine Machine.Reg

/-- Settles O18: each instruction of a list alone, one lemma for each. -/
theorem checkpointInstructions : Obligations.CheckpointInstructions :=
  ⟨fun _ _ _ _ _ _ => execCkbegin_opens, fun _ _ _ _ _ _ _ => execCkdone_closes, fun _ _ _ _ => execCkwrite_issues,
    fun _ _ _ _ => execCkread_issues, fun _ _ _ _ => execCkbegin_bad⟩

end Sys2Proof
end

section
/-!
PROOF. JOB_FAULT messages (08_links_host_fabric_management.md: Control messages; 11_job_faults_checkpoint_restart.md: Declaring and
receiving a fault).
-/
namespace Sys2Proof.Machine

open Reg

theorem exec_jobFaultRx (sub : SubPort) (icrcOk : Bool) (m : JobFaultMsg) (s : State) :
    exec (.jobFaultRx sub icrcOk m) s = execJobFaultRx sub icrcOk m s := rfl

theorem exec_jobFaultResend (s : State) : exec .jobFaultResend s = execJobFaultResend s := rfl

/-- R187: a hop-by-hop message that comes in is acted on. -/
theorem State.hopRx_comesIn {s : State} {n : Nat} {ok : Bool} (h : s.comesIn n ok = true) (f : State → State) :
    s.hopRx n ok f = f s := if_pos h

/-- R179: one whose ICRC fails is counted. -/
theorem State.hopRx_icrc {s : State} {n : Nat} (hCarries : s.carries = true) (hUp : s.upSubs.contains n = true) (f : State → State) :
    s.hopRx n false f = s.count fabRxCrcCount 1 := by
  rw [State.hopRx, if_neg (by simp [State.comesIn]), State.refuseRx_icrc hCarries hUp]

section
variable {s : State} {sub : SubPort} {m : JobFaultMsg} (hIn : s.comesIn sub.val true = true)
include hIn

theorem execJobFaultRx_seen (hSeen : s.link.seen.contains (m.origin, m.seq) = true) : exec (.jobFaultRx sub true m) s = .next s.wrapUp := by
  rw [exec_jobFaultRx, execJobFaultRx, State.hopRx_comesIn hIn, if_pos hSeen]

theorem execJobFaultRx_forwarded (hNew : s.link.seen.contains (m.origin, m.seq) = false) (hHops : 1 < m.hops) :
    exec (.jobFaultRx sub true m) s =
      .next (((((s.markSeen m.origin m.seq).event fabEventJfSeen).actFault m none).floodFault { m with hops := m.hops - 1 }
        (some sub.val))).wrapUp := by
  rw [exec_jobFaultRx, execJobFaultRx, State.hopRx_comesIn hIn, if_neg (Bool.eq_false_iff.mp hNew)]
  exact congrArg (fun t : State => Host.Outcome.next t.wrapUp) (if_pos hHops)

theorem execJobFaultRx_lastHop (hNew : s.link.seen.contains (m.origin, m.seq) = false) (hHops : m.hops ≤ 1) :
    exec (.jobFaultRx sub true m) s = .next ((((s.markSeen m.origin m.seq).event fabEventJfSeen).actFault m none)).wrapUp := by
  rw [exec_jobFaultRx, execJobFaultRx, State.hopRx_comesIn hIn, if_neg (Bool.eq_false_iff.mp hNew)]
  exact congrArg (fun t : State => Host.Outcome.next t.wrapUp) (if_neg (Nat.not_lt.mpr hHops))

end

theorem execJobFaultRx_icrc {s : State} {sub : SubPort} (m : JobFaultMsg) (hCarries : s.carries = true)
    (hUp : s.upSubs.contains sub.val = true) : exec (.jobFaultRx sub false m) s = .next (s.count fabRxCrcCount 1).wrapUp := by
  rw [exec_jobFaultRx, execJobFaultRx, State.hopRx_icrc hCarries hUp]

/-- R188: the second copy of the only fault declared goes out once its tick has come. -/
theorem execJobFaultResend_due {s : State} {m : JobFaultMsg} {t : Nat} (hOne : s.link.resend = [⟨m, t⟩]) (hDue : t ≤ s.beat.ticks) :
    exec .jobFaultResend s = .next (({ s with link := { s.link with resend := [] } }).floodFault m none) := by
  simp only [exec_jobFaultResend, execJobFaultResend, State.tick, hOne, List.filter_cons, hDue, decide_true, Bool.not_true, if_true,
    List.filter_nil, Bool.false_eq_true, if_false, List.foldl_cons, List.foldl_nil]

theorem execJobFaultResend_early {s : State} {m : JobFaultMsg} {t : Nat} (hOne : s.link.resend = [⟨m, t⟩]) (hEarly : s.beat.ticks < t) :
    exec .jobFaultResend s = .next s := by
  simp only [exec_jobFaultResend, execJobFaultResend, State.tick, hOne, List.filter_cons, Nat.not_le.mpr hEarly, decide_false,
    Bool.not_false, if_true, List.filter_nil, Bool.false_eq_true, if_false, List.foldl_nil]
  rw [← hOne]

/-- R248: a job that is faulted already only counts the fault. -/
theorem State.faultEntry_again {s : State} {p e : Nat} (m : JobFaultMsg) (hFaulted : s.rd (jobStateState p e) = 1) :
    s.faultEntry m none p e = s.count (jobStateFaultCount p e) 1 := by
  simp only [State.faultEntry, hFaulted, bne_self_eq_false, Bool.not_false, if_true]

end Sys2Proof.Machine

namespace Sys2Proof

open Machine Machine.Reg

/-- Settles O25: a fault that comes in is acted on unless its pair has been seen, and goes on while hops are left. -/
theorem jobFaultMessages : Obligations.JobFaultMessages :=
  ⟨fun _ _ _ hIn => ⟨fun hNew => ⟨execJobFaultRx_forwarded hIn hNew, execJobFaultRx_lastHop hIn hNew⟩, execJobFaultRx_seen hIn⟩,
    fun _ _ m => execJobFaultRx_icrc m,
    fun _ _ _ hOne => ⟨execJobFaultResend_due hOne, execJobFaultResend_early hOne⟩,
    fun _ m _ _ _ hFaulted hClean => hClean ▸ State.faultEntry_again m hFaulted⟩

end Sys2Proof
end

section
/-!
PROOF. Sub-ports, lanes, routes and beat announcements (08_links_host_fabric_management.md: Fabric ports, Device IDs and routing, Control
messages).
-/
namespace Sys2Proof.Machine

open Reg

theorem exec_fabricLinkUp (sub : SubPort) (s : State) : exec (.fabricLinkUp sub) s = execFabricLinkUp sub s := rfl

theorem exec_fabricLinkDown (sub : SubPort) (s : State) : exec (.fabricLinkDown sub) s = execFabricLinkDown sub s := rfl

theorem exec_laneFault (port : Port) (lane : Fin 8) (s : State) : exec (.laneFault port lane) s = execLaneFault port lane s := rfl

theorem exec_routeDataWrite (path : Path) (v : Word32) (s : State) : exec (.routeDataWrite path v) s = execRouteDataWrite path v s := rfl

theorem exec_beatAnnSend (s : State) : exec .beatAnnSend s = execBeatAnnSend s := rfl

theorem exec_beatAnnRx (sub : SubPort) (icrcOk : Bool) (m : BeatAnnMsg) (s : State) :
    exec (.beatAnnRx sub icrcOk m) s = execBeatAnnRx sub icrcOk m s := rfl

/-! ### Sub-ports and lanes: R173, R177, R218 -/

theorem execFabricLinkUp_trained {s : State} {sub : SubPort} (h : s.mayTrain (sub.val / 4) (sub.val % 4) = true) :
    exec (.fabricLinkUp sub) s = .next (s.wrBit (fabPortStatusUp (sub.val / 4)) (sub.val % 4) true) := by
  rw [exec_fabricLinkUp, execFabricLinkUp, if_pos h]

/-- A sub-port that goes down while its port stays up leaves the port's connections where they are. -/
theorem State.subDown_portUp {s t : State} {n : Nat} (hUp : s.bit (fabPortStatusUp (n / 4)) (n % 4) = true)
    (ht : t = (s.wrBit (fabPortStatusUp (n / 4)) (n % 4) false).event (fabPortEventLinkDown (n / 4))) (hPort : t.portUp (n / 4) = true) :
    s.subDown n = t := by
  simp only [State.subDown, hUp, Bool.not_true, Bool.false_eq_true, if_false, ← ht, hPort, if_true]

theorem execFabricLinkDown_portUp {s : State} {sub : SubPort} (hUp : s.bit (fabPortStatusUp (sub.val / 4)) (sub.val % 4) = true)
    (hPort : ((s.wrBit (fabPortStatusUp (sub.val / 4)) (sub.val % 4) false).event (fabPortEventLinkDown (sub.val / 4))).portUp
      (sub.val / 4) = true) :
    exec (.fabricLinkDown sub) s = .next (((s.wrBit (fabPortStatusUp (sub.val / 4)) (sub.val % 4) false).event
      (fabPortEventLinkDown (sub.val / 4))).afterConn.wrapUp) := by
  rw [exec_fabricLinkDown, execFabricLinkDown, State.subDown_portUp hUp rfl hPort]

theorem execLaneFault_on {s : State} {port : Port} (lane : Fin 8) (h : s.domOn (portDom port) = true) :
    exec (.laneFault port lane) s = .next (((s.event (fabPortEventLaneFault port)).finding 0x05 2
      [1856 + port.val * 8 + lane.val] (fun _ => []) []).afterConn.wrapUp) := by
  rw [exec_laneFault, execLaneFault, if_pos h]

/-! ### Routes and announcements: R177, R189 -/

/-- ROUTE_DATA holds the ports of the device that ROUTE_IDX names. -/
theorem execRouteDataWrite_sets {s : State} {path : Path} (v : Word32) (h : s.writes path fabRouteData = true) :
    exec (.routeDataWrite path v) s = .next { s with link := { s.link with
      routes := s.link.routes.set (fun _ => 0) (s.rd fabRouteIdxDev) (bitsOf v.toNat 0 16) } } := by
  rw [exec_routeDataWrite, execRouteDataWrite, if_pos h]

theorem execBeatAnnSend_due {s : State} (hEn : s.rd fabBeatAnnEn = 1) (hNum : s.beat.num % 65536 = 0) (hPhase : s.beat.phase = 0) :
    exec .beatAnnSend s =
      .next ((s.upSubs.filter s.hopSends).foldl (fun t x => t.sendHop x 0 annTag (annBytes s.announcement)) s) := by
  simp only [exec_beatAnnSend, execBeatAnnSend, State.on_of_rd_one hEn, hNum, hPhase, bne_self_eq_false, Bool.not_true, Bool.or_self,
    Bool.false_eq_true, if_false]

section
variable {s : State} {sub : SubPort} {m : BeatAnnMsg} (hIn : s.comesIn sub.val true = true) (hTheirs : m.numValid = true)
  (hOurs : s.on beatStatusNumValid = true)
include hIn hTheirs hOurs

theorem execBeatAnnRx_differs (h : nearestBeat m.beat m.phase ≠ nearestBeat s.beat.num s.beat.phase) :
    exec (.beatAnnRx sub true m) s = .next ((s.event fabEventBeatDisagree).wr fabBeatPeerSubport sub) := by
  rw [exec_beatAnnRx, execBeatAnnRx, State.hopRx_comesIn hIn, hTheirs, hOurs,
    if_pos (by rw [Bool.true_and, Bool.true_and]; exact bne_iff_ne.mpr h)]

omit hTheirs hOurs in
theorem execBeatAnnRx_agrees (h : nearestBeat m.beat m.phase = nearestBeat s.beat.num s.beat.phase) :
    exec (.beatAnnRx sub true m) s = .next s := by
  rw [exec_beatAnnRx, execBeatAnnRx, State.hopRx_comesIn hIn, h, bne_self_eq_false, Bool.and_false, if_neg Bool.false_ne_true]

end

end Sys2Proof.Machine

namespace Sys2Proof

open Machine Machine.Reg

/-- Settles O31: each command by its own lemma; the announcement goes to the only sub-port that takes it. -/
theorem fabricPorts : Obligations.FabricPorts := by
  refine ⟨fun s sub => execFabricLinkUp_trained, fun s sub => execFabricLinkDown_portUp, fun s port lane => execLaneFault_on lane,
    fun s v hWrites => ⟨_, execRouteDataWrite_sets v hWrites, rfl, fun d =>
      SMap.get_set s.link.routes (fun _ => 0) (s.rd fabRouteIdxDev) (bitsOf v.toNat 0 16) d⟩,
    fun s x _ hEn hNum hPhase hOne => ?_,
    fun s sub m hIn hTheirs hOurs => ⟨execBeatAnnRx_differs hIn hTheirs hOurs, execBeatAnnRx_agrees hIn⟩⟩
  rw [execBeatAnnSend_due hEn hNum hPhase, hOne, List.foldl_cons, List.foldl_nil, annTag, State.announcement]

end Sys2Proof
end

section
/-!
PROOF. SPDM and MCTP (08_links_host_fabric_management.md: Host interface, Management).
-/
namespace Sys2Proof.Machine

open Reg

theorem exec_spdmRequest (r : SpdmReq) (s : State) : exec (.spdmRequest r) s = execSpdmRequest r s := rfl

theorem exec_mctpControlMsg (c : MctpCtl) (s : State) : exec (.mctpControlMsg c) s = execMctpControlMsg c s := rfl

theorem exec_mctpVendorRead (addr : Nat) (s : State) : exec (.mctpVendorRead addr) s = execMctpVendorRead addr s := rfl

theorem exec_mctpVendorWrite (target : MctpTarget) (v : Word32) (s : State) :
    exec (.mctpVendorWrite target v) s = execMctpVendorWrite target v s := rfl

/-! ### SPDM: R167 -/

section
variable {s : State} (hUp : s.linkUp = true)
include hUp

theorem execSpdm_certificate :
    exec (.spdmRequest (.getCertificate 0)) s = .next (s.emit (.spdmReply [0x02, Config.certificate 0])) := by
  simp only [exec_spdmRequest, execSpdmRequest, hUp, Bool.not_true, Bool.false_eq_true, if_false, if_true]

theorem execSpdm_measurement {i : Nat} (h1 : 1 ≤ i) (h4 : i ≤ 4) :
    exec (.spdmRequest (.getMeasurement i)) s = .next (s.emit (.spdmReply [0x60, i, s.measurement i])) := by
  simp only [exec_spdmRequest, execSpdmRequest, hUp, Bool.not_true, Bool.false_eq_true, if_false, if_pos (And.intro h1 h4)]

theorem execSpdm_noMeasurement {i : Nat} (h : i = 0 ∨ 4 < i) :
    exec (.spdmRequest (.getMeasurement i)) s = .next (s.emit (.spdmReply [0x7F, 0x01])) := by
  have hNone : ¬ (1 ≤ i ∧ i ≤ 4) := by omega
  simp only [exec_spdmRequest, execSpdmRequest, hUp, Bool.not_true, Bool.false_eq_true, if_false, if_neg hNone]

theorem execSpdm_other (i : Nat) : exec (.spdmRequest (.other i)) s = .next (s.emit (.spdmReply [0x7F, 0x07])) := by
  simp only [exec_spdmRequest, execSpdmRequest, hUp, Bool.not_true, Bool.false_eq_true, if_false]

end

/-! ### MCTP control messages: R196, R295 -/

/-- Firmware or the boot ROM answers, and the endpoint ID and an unknown command alike. -/
theorem execMctp_getEid {s : State} (h : s.cc3Up = true ∨ s.bootRom = true) :
    exec (.mctpControlMsg .getEid) s = .next (s.emit (.mctpReply [2, 0, s.link.eid, 0, 0])) := by
  have hServed : (!s.cc3Up && !s.bootRom) = false := by obtain h | h := h <;> simp [h]
  simp only [exec_mctpControlMsg, execMctpControlMsg, hServed, Bool.false_eq_true, if_false]

theorem execMctp_other {s : State} (h : s.cc3Up = true ∨ s.bootRom = true) (code : Nat) :
    exec (.mctpControlMsg (.other code)) s = .next (s.emit (.mctpReply [code, 0x05])) := by
  have hServed : (!s.cc3Up && !s.bootRom) = false := by obtain h | h := h <;> simp [h]
  simp only [exec_mctpControlMsg, execMctpControlMsg, hServed, Bool.false_eq_true, if_false]

section
variable {s : State} (hUp : s.cc3Up = true)
include hUp

theorem execMctp_setEid {eid : Nat} (h1 : 1 ≤ eid) (h2 : eid ≤ 254) :
    exec (.mctpControlMsg (.setEid eid)) s =
      .next ({ s with link := { s.link with eid := eid } }.emit (.mctpReply [1, 0, 0, eid, 0])) := by
  have hValid : ¬ (eid = 0 ∨ 255 ≤ eid) := by omega
  simp only [exec_mctpControlMsg, execMctpControlMsg, hUp, Bool.not_true, Bool.false_and, Bool.false_eq_true, if_false, if_neg hValid]

theorem execMctp_messageTypes :
    exec (.mctpControlMsg .messageTypes) s = .next (s.emit (.mctpReply [5, 0, 2, 0x01, 0x7E])) := by
  simp only [exec_mctpControlMsg, execMctpControlMsg, hUp, Bool.not_true, Bool.false_and, Bool.false_eq_true, if_false, if_true,
    List.length_cons, List.length_nil, List.cons_append, List.nil_append]

theorem execMctp_versions :
    exec (.mctpControlMsg (.versions 0)) s = .next (s.emit (.mctpReply [4, 0, 1, 0xF1F3F000])) := by
  simp only [exec_mctpControlMsg, execMctpControlMsg, hUp, Bool.not_true, Bool.false_and, Bool.false_eq_true, if_false, true_or, if_true,
    State.mctpVersion]

/-! ### Vendor messages: R21, R196 -/

theorem execMctp_vendorRead (addr : Nat) : exec (.mctpVendorRead addr) s = .next (s.answerRead .mctp addr).wrapUp := by
  rw [exec_mctpVendorRead, execMctpVendorRead, if_pos hUp]

theorem execMctp_vendorWrite (a : Nat) (v : Word32) : exec (.mctpVendorWrite (.reg a) v) s = .next (s.writeReg .mctp a v).wrapUp := by
  simp only [exec_mctpVendorWrite, execMctpVendorWrite, hUp, Bool.not_true, Bool.false_eq_true, if_false]

/-- A key slot takes a key while it is unfused, and is fused by it. -/
theorem execMctp_keySlot {k : Fin 8} {key : List Byte} (v : Word32) (hKey : key ≠ []) (hOpen : s.bit mgtKeyCfgFused k.val = false) :
    exec (.mctpVendorWrite (.keySlot k key) v) s =
      .next (({ s with link := { s.link with keys := s.link.keys.set (fun _ => []) k.val key } }).wrBit mgtKeyCfgFused k.val
        true).wrapUp := by
  have hTakes : ¬ (s.bit mgtKeyCfgFused k.val || key == []) = true := by simp [hOpen, hKey]
  simp only [exec_mctpVendorWrite, execMctpVendorWrite, hUp, Bool.not_true, Bool.false_eq_true, if_false, if_neg hTakes]

theorem execMctp_keyFused {k : Fin 8} (key : List Byte) (v : Word32) (hFused : s.bit mgtKeyCfgFused k.val = true) :
    exec (.mctpVendorWrite (.keySlot k key) v) s = .next s.wrapUp := by
  simp only [exec_mctpVendorWrite, execMctpVendorWrite, hUp, Bool.not_true, Bool.false_eq_true, if_false, hFused, Bool.true_or, if_true]

end

theorem execMctp_vendorRead_bootRom {s : State} (h : s.cc3Up = false) (addr : Nat) : exec (.mctpVendorRead addr) s = .next s := by
  rw [exec_mctpVendorRead, execMctpVendorRead, if_neg (Bool.eq_false_iff.mp h)]

end Sys2Proof.Machine

namespace Sys2Proof

open Machine Machine.Reg

/-- Settles O35: each message by its own lemma; the boot ROM answers the control messages alone. -/
theorem sideband : Obligations.Sideband :=
  ⟨fun _ i hUp => ⟨execSpdm_certificate hUp, execSpdm_measurement hUp, execSpdm_noMeasurement hUp, execSpdm_other hUp i⟩,
    fun _ _ code addr a v hUp => ⟨execMctp_setEid hUp, execMctp_getEid (.inl hUp), execMctp_other (.inl hUp) code,
      execMctp_vendorRead hUp addr, execMctp_vendorWrite hUp a v, execMctp_messageTypes hUp, execMctp_versions hUp⟩,
    fun _ _ key v hUp hKey => ⟨execMctp_keySlot hUp v hKey, execMctp_keyFused hUp key v⟩,
    fun _ code hDown hRom => ⟨execMctp_getEid (.inr hRom), execMctp_other (.inr hRom) code, execMctp_vendorRead_bootRom hDown code⟩⟩

end Sys2Proof
end

section
/-!
PROOF. PLDM (08_links_host_fabric_management.md: Management).
-/
namespace Sys2Proof.Machine

open Reg

theorem exec_pldmGetTid (s : State) : exec .pldmGetTid s = execPldmGetTid s := rfl

theorem exec_pldmSetTid (tid : Nat) (s : State) : exec (.pldmSetTid tid) s = execPldmSetTid tid s := rfl

theorem exec_pldmGetPldmVersion (type : Nat) (s : State) : exec (.pldmGetPldmVersion type) s = execPldmGetPldmVersion type s := rfl

theorem exec_pldmGetPldmTypes (s : State) : exec .pldmGetPldmTypes s = execPldmGetPldmTypes s := rfl

theorem exec_pldmGetPldmCommands (type : Nat) (s : State) : exec (.pldmGetPldmCommands type) s = execPldmGetPldmCommands type s := rfl

theorem exec_pldmMonitoringRequest (r : PldmMon) (s : State) : exec (.pldmMonitoringRequest r) s = execPldmMonitoringRequest r s := rfl

theorem exec_pldmFirmwareUpdate (r : PldmFw) (s : State) : exec (.pldmFirmwareUpdate r) s = execPldmFirmwareUpdate r s := rfl

theorem exec_pldmUnsupported (type code : Nat) (s : State) : exec (.pldmUnsupported type code) s = execPldmUnsupported type code s := rfl

section
variable {s : State} (hUp : s.cc3Up = true)
include hUp

/-- Firmware that runs serves Types 0, 2 and 5. -/
theorem State.pldmServed_up (type : Nat) : s.pldmServed type = [0, 2, 5].contains type := if_pos hUp

theorem State.pldm_served {type : Nat} (h : [0, 2, 5].contains type = true) (code : Nat) (f : State → State) : s.pldm type code f = f s :=
  if_pos ((State.pldmServed_up hUp type).trans h)

/-! ### Types 0 and 2 -/

theorem execPldm_getTid : exec .pldmGetTid s = .next (s.emit (.pldmReply 0 2 0 [s.link.tid])) := by
  rw [exec_pldmGetTid, execPldmGetTid, State.pldm_served hUp rfl, State.pldmAnswer]

theorem execPldm_setTid {tid : Nat} (h1 : 1 ≤ tid) (h2 : tid < 255) :
    exec (.pldmSetTid tid) s = .next ({ s with link := { s.link with tid := tid } }.emit (.pldmReply 0 1 0 [])) := by
  have hValid : ¬ (tid = 0 ∨ 255 ≤ tid) := by omega
  rw [exec_pldmSetTid, execPldmSetTid, State.pldm_served hUp rfl, if_neg hValid, State.pldmAnswer]

/-- The version of a served type is the next value that the spec leaves open. -/
theorem execPldm_version {type : Nat} (h : type = 0 ∨ type = 2 ∨ type = 5) :
    exec (.pldmGetPldmVersion type) s = .next ({ s with free := s.free + 1 }.emit (.pldmReply 0 3 0 [s.drawWord.1])) := by
  have hServed : s.pldmServed type = true := by rw [State.pldmServed_up hUp]; obtain rfl | rfl | rfl := h <;> rfl
  rw [exec_pldmGetPldmVersion, execPldmGetPldmVersion, State.pldm_served hUp rfl, if_pos hServed]
  rfl

theorem execPldm_noVersion {type : Nat} (h0 : type ≠ 0) (h2 : type ≠ 2) (h5 : type ≠ 5) :
    exec (.pldmGetPldmVersion type) s = .next (s.emit (.pldmReply 0 3 0x83 [])) := by
  have hServed : s.pldmServed type = false := by rw [State.pldmServed_up hUp]; simp [h0, h2, h5]
  rw [exec_pldmGetPldmVersion, execPldmGetPldmVersion, State.pldm_served hUp rfl, if_neg (Bool.eq_false_iff.mp hServed), State.pldmAnswer]

theorem execPldm_types : exec .pldmGetPldmTypes s = .next (s.emit (.pldmReply 0 4 0 [0x25, 0, 0, 0, 0, 0, 0, 0])) := by
  have hTypes : [0, 2, 5].filter s.pldmServed = [0, 2, 5] := by
    rw [funext (State.pldmServed_up hUp)]
    decide
  rw [exec_pldmGetPldmTypes, execPldmGetPldmTypes, State.pldm_served hUp rfl, hTypes, State.pldmAnswer]
  rfl

theorem execPldm_commands : exec (.pldmGetPldmCommands 0) s = .next (s.emit (.pldmReply 0 5 0 [0x3E])) := by
  have hServed : s.pldmServed 0 = true := (State.pldmServed_up hUp 0).trans rfl
  rw [exec_pldmGetPldmCommands, execPldmGetPldmCommands, State.pldm_served hUp rfl, if_pos hServed, State.pldmAnswer]
  rfl

theorem execPldm_sensor {n v : Nat} (h : s.sensor n = some v) :
    exec (.pldmMonitoringRequest (.readSensor n)) s = .next (s.emit (.pldmReply 2 0x11 0 [v])) := by
  simp only [exec_pldmMonitoringRequest, execPldmMonitoringRequest, State.pldm_served hUp (type := 2) rfl, h, State.pldmAnswer]

theorem execPldm_state :
    exec (.pldmMonitoringRequest .readState) s = .next (s.emit (.pldmReply 2 0x21 0 [(s.reg sysStatus).toNat])) := by
  simp only [exec_pldmMonitoringRequest, execPldmMonitoringRequest, State.pldm_served hUp (type := 2) rfl, State.pldmAnswer]

theorem execPldm_repository :
    exec (.pldmMonitoringRequest .repository) s = .next (s.emit (.pldmReply 2 0x50 0 [pdrCount])) := by
  simp only [exec_pldmMonitoringRequest, execPldmMonitoringRequest, State.pldm_served hUp (type := 2) rfl, State.pldmAnswer]

theorem execPldm_pdr {h : Nat} (h1 : 1 ≤ h) (h2 : h ≤ pdrCount) :
    exec (.pldmMonitoringRequest (.getPdr h)) s = .next (s.drawData.2.emit (.pldmReply 2 0x51 0
      ([if h = pdrCount then 0 else h + 1, h, if h = pdrCount then 4 else 2, h] ++ s.drawData.1))) := by
  have hMax : Nat.max 1 h = h := Nat.max_eq_right h1
  simp only [exec_pldmMonitoringRequest, execPldmMonitoringRequest, State.pldm_served hUp (type := 2) rfl, State.pldmAnswer, if_pos h2,
    hMax, State.pdr]

theorem execPldm_unsupported {type code : Nat} (h : (pldmCommands type).contains code = false) :
    exec (.pldmUnsupported type code) s = .next (s.emit (.pldmReply type code 5 [])) := by
  simp only [exec_pldmUnsupported, execPldmUnsupported, h, hUp, Bool.false_and, Bool.not_true, Bool.or_self, Bool.false_eq_true, if_false,
    State.pldmAnswer]

/-! ### Type 5: firmware update -/

/-- A step of the update answers with the code of the step. -/
theorem execPldm_fw {r : PldmFw} {t : State} {completion : Nat} (h : s.fwStep r = (t, completion, [])) :
    exec (.pldmFirmwareUpdate r) s = .next (t.emit (.pldmReply 5 (pldmFwCode r) completion [])) := by
  rw [exec_pldmFirmwareUpdate, execPldmFirmwareUpdate, State.pldm_served hUp rfl, h, State.pldmAnswer]

end

theorem State.fwStep_request {s : State} (h : s.link.fwStep = 0) : s.fwStep .request = (s.setFw none 1, 0, []) := by
  simp only [State.fwStep, h, if_true]

theorem State.fwStep_passTable {s : State} {c : Nat} (hC : c = 1 ∨ c = 2) (h : s.link.fwStep = 1) :
    s.fwStep (.passTable c) = (s.setFw none 2, 0, []) := by
  simp only [State.fwStep, h, true_or, if_true, if_pos hC]

theorem State.fwStep_begin {s : State} {c : Nat} (hC : c = 1 ∨ c = 2) (h : s.link.fwStep = 2) :
    s.fwStep (.begin c) = (s.setFw (some ⟨c, [], false⟩) 3, 0, []) := by
  simp only [State.fwStep, h, if_true, if_pos hC]

/-- Outside an update nothing is applied. -/
theorem State.fwStep_applyOutside {s : State} (h : s.link.fwStep = 0) : s.fwStep .apply = (s, 0x80, []) := by
  cases hFw : s.link.fw <;> simp [State.fwStep, h, hFw]

section
variable {s : State} {f : FwUpdate} (hFw : s.link.fw = some f)
include hFw

theorem State.fwStep_data (h : s.link.fwStep = 3) (off : Nat) (bs : List Byte) :
    s.fwStep (.data off bs) = (s.setFw (some { f with bytes := laidInto f.bytes off bs }) 3, 0, []) := by
  simp only [State.fwStep, hFw, h, if_true]

theorem State.fwStep_verified (h : s.link.fwStep = 3) :
    s.fwStep (.verify true) = (s.setFw (some { f with verified := true }) 5, 0, []) := by
  simp only [State.fwStep, hFw, h, ne_eq, not_true_eq_false, if_false, if_true]

theorem State.fwStep_failed (h : s.link.fwStep = 3) : s.fwStep (.verify false) = (s.setFw none 2, 1, []) := by
  simp only [State.fwStep, hFw, h, ne_eq, not_true_eq_false, if_false, Bool.false_eq_true]

theorem State.fwStep_apply (h : s.link.fwStep = 5) (hVerified : f.verified = true) :
    s.fwStep .apply = (s.markApply f.component, 0, []) := by
  simp only [State.fwStep, hFw, h, hVerified, and_self, if_true]

/-- An image that is not verified is not applied. -/
theorem State.fwStep_applyUnverified (h : f.verified = false) (hUpdate : s.link.fwStep ≠ 0) : s.fwStep .apply = (s, 0x84, []) := by
  simp only [State.fwStep, hFw, h, Bool.false_eq_true, and_false, if_false, if_neg hUpdate]

end

end Sys2Proof.Machine

namespace Sys2Proof

open Machine Machine.Reg

/-- Settles O36: each command of Types 0 and 2 by its own lemma, and each step of an update by what `fwStep` does. -/
theorem pldm : Obligations.Pldm :=
  ⟨fun _ hUp => ⟨execPldm_getTid hUp, fun _ => execPldm_setTid hUp, fun _ h => ⟨_, execPldm_version hUp h⟩, fun _ => execPldm_noVersion hUp,
      execPldm_types hUp, execPldm_commands hUp, fun _ _ => execPldm_sensor hUp, execPldm_state hUp, execPldm_repository hUp,
      fun _ h1 h2 => ⟨_, _, execPldm_pdr hUp h1 h2, rfl⟩, fun _ _ => execPldm_unsupported hUp⟩,
    fun _ hUp hIdle => ⟨execPldm_fw hUp (State.fwStep_request hIdle), execPldm_fw hUp (State.fwStep_applyOutside hIdle)⟩,
    fun _ _ hUp hC => ⟨fun h => execPldm_fw hUp (State.fwStep_passTable hC h), fun h => execPldm_fw hUp (State.fwStep_begin hC h)⟩,
    fun _ _ hUp hFw => ⟨fun off bs h => execPldm_fw hUp (State.fwStep_data hFw h off bs),
      fun h => execPldm_fw hUp (State.fwStep_verified hFw h), fun h => execPldm_fw hUp (State.fwStep_failed hFw h),
      fun h hVerified => execPldm_fw hUp (State.fwStep_apply hFw h hVerified),
      fun h hUpdate => execPldm_fw hUp (State.fwStep_applyUnverified hFw h hUpdate)⟩⟩

end Sys2Proof
end

section
/-!
PROOF. The phases of a reset (12_hangs_fencing_and_recovery.md: Fencing, Capture records, Recovery sequence and times).
-/
namespace Sys2Proof.Machine

open Reg

theorem exec_fenceDrainEnd (d : RDom) (s : State) : exec (.fenceDrainEnd d) s = execFenceDrainEnd d s := rfl

theorem exec_fenceAnswerOverrun (d : RDom) (s : State) : exec (.fenceAnswerOverrun d) s = execFenceAnswerOverrun d s := rfl

theorem exec_captureComplete (d : RDom) (s : State) : exec (.captureComplete d) s = execCaptureComplete d s := rfl

theorem exec_resetPhaseDone (d : RDom) (s : State) : exec (.resetPhaseDone d) s = execResetPhaseDone d s := rfl

theorem exec_captureChunkSend (p : Part) (s : State) : exec (.captureChunkSend p) s = execCaptureChunkSend p s := rfl

/-- R287: with no larger reset waiting, a phase ends in the next one. -/
theorem State.boundary_next (s : State) {r : ResetSeq} (h : r.next = none) (n : Nat) : s.boundary r n = s.toPhase r n := by
  simp only [State.boundary, h]

section
variable {s : State} {d : RDom} {r : ResetSeq} (hFind : s.findReset d = some r)
include hFind

/-! ### DRAIN and ANSWER: R276, R278 -/

theorem execFenceDrainEnd_early (hLeft : s.slotLists d ≠ [] ∨ s.fenceReads d ≠ []) (hTime : s.units < r.drainEnd) :
    exec (.fenceDrainEnd d) s = .next s.wrapUp := by
  simp only [exec_fenceDrainEnd, execFenceDrainEnd, hFind, if_pos (Or.inr (And.intro hLeft hTime))]

theorem execFenceDrainEnd_over (hPhase : r.phase = 3) (hNext : r.next = none)
    (hOver : s.slotLists d = [] ∧ s.fenceReads d = [] ∨ r.drainEnd ≤ s.units) :
    exec (.fenceDrainEnd d) s = .next ((s.answerFence d).toPhase { r with slots := s.slotLists d } 4).wrapUp := by
  have hEnds : ¬ (r.phase ≠ 3 ∨ ((s.slotLists d ≠ [] ∨ s.fenceReads d ≠ []) ∧ s.units < r.drainEnd)) := by
    rintro (hOther | ⟨hLeft, hTime⟩)
    · exact hOther hPhase
    · obtain ⟨hLists, hReads⟩ | hLate := hOver
      · exact hLeft.elim (fun h => h hLists) (fun h => h hReads)
      · exact absurd hTime (Nat.not_lt.mpr hLate)
  simp only [exec_fenceDrainEnd, execFenceDrainEnd, hFind, if_neg hEnds]
  rw [State.boundary_next _ (by exact hNext)]

theorem execFenceDrainEnd_otherPhase (h : r.phase ≠ 3) : exec (.fenceDrainEnd d) s = .next s.wrapUp := by
  simp only [exec_fenceDrainEnd, execFenceDrainEnd, hFind, if_pos (Or.inl h)]

theorem execFenceAnswerOverrun_otherPhase (h : r.phase ≠ 4) : exec (.fenceAnswerOverrun d) s = .next s.wrapUp := by
  have hNot : ¬ (r.phase = 4 ∧ r.since + 2 < s.tick) := fun hBoth => h hBoth.1
  cases hLarger : nextDomainOf d <;> simp only [exec_fenceAnswerOverrun, execFenceAnswerOverrun, hFind, hLarger, if_neg hNot]

/-- R278: the next larger domain is reset. -/
theorem execFenceAnswerOverrun_escalates {larger : RDom} (hLarger : nextDomainOf d = some larger) (hPhase : r.phase = 4)
    (hTime : r.since + 2 < s.tick) :
    exec (.fenceAnswerOverrun d) s = .next ((s.event hngEventEscalated).requestReset larger 9).wrapUp := by
  simp only [exec_fenceAnswerOverrun, execFenceAnswerOverrun, hFind, hLarger, if_pos (And.intro hPhase hTime)]

/-! ### CAPTURE: R279 -/

theorem execCaptureComplete_otherPhase (h : r.phase ≠ 5) : exec (.captureComplete d) s = .next s.wrapUp := by
  simp only [exec_captureComplete, execCaptureComplete, hFind, if_pos h]

theorem execCaptureComplete_writes (hPhase : r.phase = 5) (hNext : r.next = none) (hWaiting : s.hang.waiting = false)
    (hCaptured : r.captured = false) :
    exec (.captureComplete d) s =
      .next (((s.capParts d).foldl (fun t p => t.writeCapture r p) s).toPhase { r with captured := true } 6).wrapUp := by
  simp only [exec_captureComplete, execCaptureComplete, hFind, hPhase, ne_eq, not_true_eq_false, hWaiting, hCaptured, Bool.false_eq_true,
    false_and, if_false]
  rw [State.boundary_next _ (by exact hNext)]

/-! ### RESET and REINIT: R284 -/

theorem execResetPhaseDone_otherPhase (h4 : r.phase ≠ 4) (h6 : r.phase ≠ 6) (h7 : r.phase ≠ 7) :
    exec (.resetPhaseDone d) s = .next s.wrapUp := by
  simp only [exec_resetPhaseDone, execResetPhaseDone, hFind, h4, h6, h7, if_false, false_and]

section
variable (hNext : r.next = none)
include hNext

theorem execResetPhaseDone_answer (hPhase : r.phase = 4) : exec (.resetPhaseDone d) s = .next (s.toPhase r 5).wrapUp := by
  simp only [exec_resetPhaseDone, execResetPhaseDone, hFind, hPhase, if_true, s.boundary_next hNext]

theorem execResetPhaseDone_reset (hPhase : r.phase = 6) (hKept : (s.resetEffect r).lostPart d = false) :
    exec (.resetPhaseDone d) s = .next ((s.resetEffect r).toPhase r 7).wrapUp := by
  simp only [exec_resetPhaseDone, execResetPhaseDone, hFind, hPhase, if_true, hKept, Bool.false_eq_true, false_and, if_false,
    State.boundary_next _ hNext, Nat.reduceEqDiff]

theorem execResetPhaseDone_lost (hPhase : r.phase = 6) (hLost : (s.resetEffect r).lostPart d = true) :
    exec (.resetPhaseDone d) s = .next ((s.resetEffect r).endReset r).wrapUp := by
  simp only [exec_resetPhaseDone, execResetPhaseDone, hFind, hPhase, if_true, hLost, hNext, and_self, Nat.reduceEqDiff, if_false]

theorem execResetPhaseDone_reinit (hPhase : r.phase = 7) (hDone : s.reinitDone r = true) :
    exec (.resetPhaseDone d) s = .next (s.endReset r).wrapUp := by
  simp only [exec_resetPhaseDone, execResetPhaseDone, hFind, hPhase, hDone, hNext, and_self, if_true, Nat.reduceEqDiff, if_false]

end

end

/-! ### The capture copy: R282 -/

/-- A chunk that is not the last one, and holds no poisoned line, is sent and counted. -/
theorem execCaptureChunkSend_more {s : State} {p : Part} {c : CapSt} {n a : Nat} {bs : List Byte} (hCap : s.cap p = c)
    (hCopying : c.copying = true) (hCore : (s.core 3).state = .running) (hRoom : s.link.msgs.length < 64) (hPresent : s.present p = true)
    (hFenced : s.fenced p = false) (hResetting : s.capResetting p = false) (hn : n = Nat.min 960 (c.length - c.sent))
    (ha : a = s.capBase p (s.on (hngCapStatusBuf p)) + c.sent) (hChunk : s.chunk p a n = (bs, 0)) (hMore : n < c.length - c.sent) :
    exec (.captureChunkSend p) s =
      .next (((((s.sendEvent (leBytes 1 0x0C ++ leBytes 1 0 ++ leBytes 2 0 ++ leBytes 4 c.seq ++ leBytes 4 c.sent ++
        leBytes 4 n ++ bs)).setCap p { c with sent := c.sent + n }).wr (hngCapStatusCopied p)
          ((c.sent + n) * 100 / Nat.max 1 c.length)).touch p true none a n).wrapUp) := by
  have hLast : decide (c.length ≤ c.sent + n) = false := decide_eq_false (by omega)
  have hSends : (!c.copying || decide ((s.core 3).state ≠ .running) || decide (64 ≤ s.link.msgs.length) || !s.present p || s.fenced p ||
      s.capResetting p) = false := by simp [hCopying, hCore, hPresent, hFenced, hResetting, hRoom]
  obtain ⟨length, seq, sent, copying⟩ := c
  dsimp only at hCopying
  subst hCopying
  rw [exec_captureChunkSend, execCaptureChunkSend, hCap]
  simp only [hSends, Bool.false_eq_true, if_false, ← hn, ← ha, hChunk, hLast, if_true, Bool.toNat_false, Bool.not_false]

end Sys2Proof.Machine

namespace Sys2Proof

open Machine Machine.Reg

/-- Settles O39: each phase ends as `boundary` says where no larger reset waits. -/
theorem resetPhases : Obligations.ResetPhases := by
  refine ⟨fun s d r hFind hPhase hNext => ⟨execFenceDrainEnd_early hFind, execFenceDrainEnd_over hFind hPhase hNext⟩,
    fun s d r hFind => ⟨execFenceDrainEnd_otherPhase hFind, execFenceAnswerOverrun_otherPhase hFind, execCaptureComplete_otherPhase hFind,
      execResetPhaseDone_otherPhase hFind⟩,
    fun s p e r hFind => execFenceAnswerOverrun_escalates hFind rfl,
    fun s p r hFind => execFenceAnswerOverrun_escalates hFind rfl,
    fun s d r hFind => execCaptureComplete_writes hFind,
    fun s d r hFind hNext => ⟨execResetPhaseDone_answer hFind hNext, execResetPhaseDone_reset hFind hNext,
      execResetPhaseDone_lost hFind hNext, fun hPhase hDom hr => execResetPhaseDone_reinit hFind hNext hPhase ?_⟩,
    fun s p r => ⟨fun e hDom => by rw [State.resetEffect, hDom], fun hDom => by rw [State.resetEffect, hDom]⟩,
    fun s p n a bs => execCaptureChunkSend_more rfl⟩
  rw [State.reinitDone, hr, bne_iff_ne.mpr hDom, Bool.true_or]

end Sys2Proof
end

section
/-!
PROOF. The fabric taps of the CLA (17_configurable_logic_array.md: Stream taps).
-/
namespace Sys2Proof.Machine

/-- At ingress the command does nothing, and nothing that waits elsewhere goes on with it. -/
theorem exec_claRegionFrame_ingress (port : Port) (act : RegionFrame) (s : State) :
    exec (.claRegionFrame port false act) s = .next s := rfl

/-- A session whose entropy engine has one byte left to write, in an otherwise fresh device. -/
def parsingState : State := { State.reset with media := [(0, some { newSession 0 [] with unparsed := [0] })] }

/-- The end of a command that lets the engines go on writes that byte. -/
theorem parsingState_wrapUp : (parsingState.wrapUp.sess 0).map (fun x => x.unparsed) = some [] := by decide

end Sys2Proof.Machine

namespace Sys2Proof

open Machine Machine.Reg

/-- Refutes O49: CLA_REGION_FRAME at ingress leaves the state alone, where the statement says that an entropy engine which waits for
space goes on (`wrapUp`); the two differ in a state where one does. -/
theorem not_claPorts : ¬ Obligations.ClaPorts := by
  rintro ⟨_, _, _, _, _, _, _, hIngress⟩
  have hSame : parsingState = parsingState.wrapUp := by
    have hExec := hIngress parsingState 0 false .drop (Or.inr rfl)
    rw [exec_claRegionFrame_ingress] at hExec
    exact Host.Outcome.next.inj hExec
  have hWaits : (parsingState.sess 0).map (fun x => x.unparsed) = some [0] := by decide
  rw [hSame, parsingState_wrapUp] at hWaits
  exact absurd hWaits (by decide)

end Sys2Proof
end

section
/-!
PROOF. The hang monitor (12_hangs_fencing_and_recovery.md: Heartbeats and the hang monitor, Escalation, RMG replication and takeover).
-/
namespace Sys2Proof.Machine

open Reg

theorem exec_heartbeatWrite (n : Core4) (v : Word32) (s : State) : exec (.heartbeatWrite n v) s = execHeartbeatWrite n v s := rfl

theorem exec_heartbeatMiss (n : Core4) (s : State) : exec (.heartbeatMiss n) s = execHeartbeatMiss n s := rfl

theorem exec_engineStall (p : Part) (e : Fin 5) (s : State) : exec (.engineStall p e) s = execEngineStall p e s := rfl

theorem exec_engineResetOverdue (p : Part) (e : Fin 5) (s : State) : exec (.engineResetOverdue p e) s = execEngineResetOverdue p e s := rfl

theorem exec_rmgSnapshot (s : State) : exec .rmgSnapshot s = execRmgSnapshot s := rfl

theorem exec_rmgAckWrite (n : Core4) (v : Word32) (s : State) : exec (.rmgAckWrite n v) s = execRmgAckWrite n v s := rfl

theorem exec_takeoverComplete (s : State) : exec .takeoverComplete s = execTakeoverComplete s := rfl

theorem exec_takeoverOverdue (s : State) : exec .takeoverOverdue s = execTakeoverOverdue s := rfl

/-! ### Heartbeats: R263, R264 -/

theorem State.rd_setCore (s : State) (n : Nat) (c : CoreSt) (f : Fld) : (s.setCore n c).rd f = s.rd f := rfl

theorem execHeartbeatWrite_counts {s : State} {n : Core4} {c : CoreSt} (v : Word32) (hCore : s.core n = c)
    (hState : c.state = .running ∨ c.state = .restarting) :
    exec (.heartbeatWrite n v) s =
      .next (((s.setCore n { c with state := .running, since := s.tick, missed := false }).wr (hngHbCount n)
        ((s.rd (hngHbCount n) + 1) % 2 ^ 32)).wrBit hngStatusAlive n true) := by
  have hBeats : ¬ (c.state ≠ .running ∧ c.state ≠ .restarting) := by tauto
  simp only [exec_heartbeatWrite, execHeartbeatWrite, hCore, if_neg hBeats, State.rd_setCore]

/-- The core whose heartbeat is missing: its ALIVE bit clears, and HB_MISS sets. -/
def State.markMissed (s : State) (n : Nat) : State :=
  ((s.setCore n { s.core n with missed := true }).wrBit hngStatusAlive n false).wrBit hngEventHbMiss n true

section
variable {s : State} {n : Core4} (hHeld : (s.core n).state ≠ .held) (hFrozen : (s.core n).frozen = none)
  (hMissed : (s.core n).missed = false)

theorem execHeartbeatMiss_early (hEarly : s.tick < (s.core n).since + Nat.max 1 (s.rd hngHbDeadlineBeats)) :
    exec (.heartbeatMiss n) s = .next s.wrapUp := by
  have hNot : (s.core n).state = .held ∨ (s.core n).frozen.isSome ∨ (s.core n).missed ∨ s.tick < (s.core n).since + s.hbDeadline :=
    Or.inr (Or.inr (Or.inr hEarly))
  simp only [exec_heartbeatMiss, execHeartbeatMiss, if_pos hNot]

section
variable (hDue : (s.core n).since + Nat.max 1 (s.rd hngHbDeadlineBeats) ≤ s.tick)
include hHeld hFrozen hMissed hDue

/-- A core that counts, and whose count reaches the deadline, is answered by what it is. -/
theorem State.missDue :
    ¬ ((s.core n).state = .held ∨ (s.core n).frozen.isSome ∨ (s.core n).missed ∨ s.tick < (s.core n).since + s.hbDeadline) := by
  rintro (h | h | h | h)
  · exact hHeld h
  · rw [hFrozen] at h; exact absurd h (by decide)
  · rw [hMissed] at h; exact absurd h (by decide)
  · exact absurd h (Nat.not_lt.mpr hDue)

theorem execHeartbeatMiss_rmg (hRmg : n.val < 2) : exec (.heartbeatMiss n) s = .next ((s.markMissed n).missRmg n).wrapUp := by
  have hSplit := State.missDue hHeld hFrozen hMissed hDue
  obtain ⟨i, hi⟩ := n
  have hCases : i = 0 ∨ i = 1 := by simp only at hRmg; omega
  rw [exec_heartbeatMiss, execHeartbeatMiss]
  obtain rfl | rfl := hCases <;> exact congrArg (fun t : State => Host.Outcome.next t.wrapUp) (if_neg hSplit)

theorem execHeartbeatMiss_cc2 (hCore : n.val = 2) : exec (.heartbeatMiss n) s = .next (s.markMissed 2).missCc2.wrapUp := by
  have hSplit := State.missDue hHeld hFrozen hMissed hDue
  obtain rfl : n = 2 := Fin.ext hCore
  rw [exec_heartbeatMiss, execHeartbeatMiss]
  exact congrArg (fun t : State => Host.Outcome.next t.wrapUp) (if_neg hSplit)

theorem execHeartbeatMiss_cc3 (hCore : n.val = 3) : exec (.heartbeatMiss n) s = .next (s.markMissed 3).missCc3.wrapUp := by
  have hSplit := State.missDue hHeld hFrozen hMissed hDue
  obtain rfl : n = 3 := Fin.ext hCore
  rw [exec_heartbeatMiss, execHeartbeatMiss]
  exact congrArg (fun t : State => Host.Outcome.next t.wrapUp) (if_neg hSplit)

end

end

/-! ### What a silent core is answered with: R266, Table HNG-1 -/

/-- Two silent RMG cores are an autonomous recovery. -/
theorem State.missRmg_both {s : State} {n : Nat} (hOther : (s.core (1 - n)).missed = true) : s.missRmg n = s.recoverAlone := by
  simp only [State.missRmg, hOther, if_true]

theorem State.missRmg_active {s : State} {n : Nat} (hOther : (s.core (1 - n)).missed = false) (hActive : n = s.activeCore) :
    s.missRmg n = s.beginTakeover n := by
  simp only [State.missRmg, hOther, Bool.false_eq_true, if_false, if_pos hActive]

theorem State.missRmg_standby {s : State} {n : Nat} (hOther : (s.core (1 - n)).missed = false) (hStandby : n ≠ s.activeCore) :
    s.missRmg n = s.restartCore n := by
  simp only [State.missRmg, hOther, Bool.false_eq_true, if_false, if_neg hStandby]

/-- The restart of a core says nothing of whether the device is in service. -/
theorem State.restartCore_inService (s : State) (n : Nat) : (s.restartCore n).inService = s.inService := by
  have hDone : (s.restartCore n).rd pwrWakeStatusDone = s.rd pwrWakeStatusDone := by
    rw [State.restartCore, State.showHalts, State.rd_wr_apart _ _ (by decide) (by decide), State.wrBit,
      State.rd_wr_apart _ _ (by decide) (by decide), State.wrBit, State.rd_wr_apart _ _ (by decide) (by decide), State.rd_setCore]
  simp only [State.inService, State.on, hDone]
  rfl

section
variable {s : State} (hTest : s.waitsFor .selfTest = false) (hService : (s.restartCore 2).inService = true)
  (hOnce : s.missedAgain 2 = false)
include hTest hService hOnce

theorem State.missCc2_device (hPolicy : s.rd hngCfgCc2Policy = 1) : s.missCc2 = (s.restartCore 2).requestReset .device 2 := by
  rw [State.restartCore_inService] at hService
  simp only [State.missCc2, hTest, hService, hOnce, hPolicy, Bool.not_true, Bool.false_eq_true, if_false, if_true]

theorem State.missCc2_parts (hPolicy : s.rd hngCfgCc2Policy = 0) :
    s.missCc2 = s.presentParts.foldl (fun t p => t.requestReset (.part (partFin p)) 2) (s.restartCore 2) := by
  rw [State.restartCore_inService] at hService
  simp only [State.missCc2, hTest, hService, hOnce, hPolicy, Bool.not_true, Bool.false_eq_true, if_false, Nat.zero_ne_one]

end

theorem State.missCc3_once {s : State} (h : s.missedAgain 3 = false) : s.missCc3 = s.restartCore 3 := by
  simp only [State.missCc3, h, Bool.false_eq_true, false_and, if_false]

/-! ### Stalled engines: R265, R267 -/

theorem execEngineStall_moves {s : State} {p : Part} {e : Fin 5} (h : s.stalled p e = false) :
    exec (.engineStall p e) s = .next s.wrapUp := by
  simp only [exec_engineStall, execEngineStall, h, Bool.not_false, Bool.true_or, if_true]

/-- The stall is noted, with its tick, against another within REPEAT. -/
def State.noteStall (s : State) (p : Part) (e : Fin 5) : State :=
  { s with hang := { s.hang with stalls := s.hang.stalls.set (fun _ => none) (p.val * 8 + e.val) (some s.tick) } }.event hngEventEngStall

section
variable {s : State} {p : Part} {e : Fin 5} (hNone : s.findReset (.engine p e) = none) (hStalled : s.stalled p e = true)
include hNone hStalled

theorem execEngineStall_first (hFirst : s.hang.stalls.get (fun _ => none) (p.val * 8 + e.val) = none) :
    exec (.engineStall p e) s = .next ((s.noteStall p e).requestReset (.engine p e) 1).wrapUp := by
  simp only [exec_engineStall, execEngineStall, hNone, hStalled, hFirst, Bool.not_true, Option.isSome_none, Bool.or_self,
    Bool.false_eq_true, if_false, State.noteStall]

theorem execEngineStall_again {t : Nat} (hLast : s.hang.stalls.get (fun _ => none) (p.val * 8 + e.val) = some t)
    (hEsc : s.rd hngCfgEngEsc = 1) (hRepeat : s.tick ≤ t + s.rd hngEngDeadlineRepeat) :
    exec (.engineStall p e) s = .next (((s.noteStall p e).event hngEventEscalated).requestReset (.part p) 9).wrapUp := by
  simp only [exec_engineStall, execEngineStall, hNone, hStalled, hLast, State.on_of_rd_one hEsc, hRepeat, decide_true, Bool.and_self,
    Bool.not_true, Option.isSome_none, Bool.or_self, Bool.false_eq_true, if_false, if_true, State.noteStall]

end

theorem execEngineResetOverdue_due {s : State} {p : Part} {e : Fin 5} {r : ResetSeq} (hFind : s.findReset (.engine p e) = some r)
    (h : r.started + 40 ≤ s.tick) :
    exec (.engineResetOverdue p e) s = .next ((s.event hngEventEscalated).requestReset (.part p) 9).wrapUp := by
  simp only [exec_engineResetOverdue, execEngineResetOverdue, hFind, if_pos h]

theorem execEngineResetOverdue_early {s : State} {p : Part} {e : Fin 5} {r : ResetSeq} (hFind : s.findReset (.engine p e) = some r)
    (h : s.tick < r.started + 40) : exec (.engineResetOverdue p e) s = .next s.wrapUp := by
  simp only [exec_engineResetOverdue, execEngineResetOverdue, hFind, if_neg (Nat.not_le.mpr h)]

/-! ### Snapshots: R269, R270 -/

section
variable {s : State} {b : Bool} {old : Snapshot} (hCore : (s.core s.activeCore).state = .running) (hTakeover : s.hang.takeover = none)
  (hTarget : b = s.snapTarget) (hOld : old = if b then s.hang.snap1 else s.hang.snap0)
include hCore hTakeover hTarget hOld

/-- With a core that runs and no takeover the command acts on the buffer that comes next. -/
theorem execRmgSnapshot_serves :
    exec .rmgSnapshot s = .next (
      if old.open' then
        (s.setSnap b { open' := false, gen := (s.rd hngRmgGenGen + 1) % 2 ^ 32, included := s.includedNow, map := s.qtn.map,
                       epoch := s.rd qtnEpochEpoch, sets := s.qtn.sets }).wr hngRmgGenGen ((s.rd hngRmgGenGen + 1) % 2 ^ 32)
      else if s.tick < s.hang.snapTick + 50 then s
      else { s.setSnap b { old with open' := true } with hang := { (s.setSnap b { old with open' := true }).hang with
        snapTick := s.tick } }) := by
  subst hTarget hOld
  have hServes : ¬ ((s.core s.activeCore).state ≠ .running ∨ s.hang.takeover.isSome) := by simp [hCore, hTakeover]
  rw [exec_rmgSnapshot, execRmgSnapshot]
  exact congrArg Host.Outcome.next (if_neg hServes)

end

/-! ### Acknowledgements and takeovers: R270, R271, R272 -/

section
variable {s : State} {n : Core4} {v : Word32} (hActive : n.val = s.activeCore) (hCore : (s.core n).state = .running)
include hActive hCore

theorem execRmgAckWrite_closed {x : Snapshot} {q : List RmgEvent} (hFind : s.snapshots.find? (fun y => y.gen == v.toNat) = some x)
    (hq : q = s.hang.evq.filter (fun e => decide (x.included < e.seq))) :
    exec (.rmgAckWrite n v) s =
      .next (({ s with hang := { s.hang with evq := q } }.wr hngRmgAckGen v.toNat).wr hngRmgEvqPending q.length) := by
  have hServes : ¬ (n.val ≠ s.activeCore ∨ (s.core n).state ≠ .running) :=
    fun h => h.elim (fun h => h hActive) (fun h => h hCore)
  simp only [exec_rmgAckWrite, execRmgAckWrite, if_neg hServes, hFind, ← hq]

theorem execRmgAckWrite_unknown (hFind : s.snapshots.find? (fun y => y.gen == v.toNat) = none) :
    exec (.rmgAckWrite n v) s = .next s := by
  have hServes : ¬ (n.val ≠ s.activeCore ∨ (s.core n).state ≠ .running) :=
    fun h => h.elim (fun h => h hActive) (fun h => h hCore)
  simp only [exec_rmgAckWrite, execRmgAckWrite, if_neg hServes, hFind]

end

section
variable {s : State} {t : Nat} (hTakeover : s.hang.takeover = some t)
include hTakeover

theorem execTakeoverComplete_loads {s1 s2 : State} {x : Snapshot} (hBest : s.bestSnapshot = some x) (h1 : s1 = s.loadSnapshot x)
    (h2 : s2 = ((({ s1 with hang := { s1.hang with takeover := none, snap0 := Snapshot.reset, snap1 := Snapshot.reset } }).wr
      hngStatusTakeover 0).event hngEventTakeoverDone).completeEvents x.included) :
    exec .takeoverComplete s = .next (s2.restartCore (1 - s2.activeCore)).wrapUp := by
  rw [exec_takeoverComplete]
  unfold execTakeoverComplete
  split
  · next _ y _ hY =>
    obtain rfl : x = y := Option.some.inj (hBest.symm.trans hY)
    rw [h2, h1]
  · next hNone => exact absurd hBest (hNone t x hTakeover)

theorem execTakeoverOverdue_due (h : t + 200 ≤ s.tick) : exec .takeoverOverdue s = .next s.recoverAlone.wrapUp := by
  simp only [exec_takeoverOverdue, execTakeoverOverdue, hTakeover, if_pos h]

theorem execTakeoverOverdue_early (h : s.tick < t + 200) : exec .takeoverOverdue s = .next s.wrapUp := by
  simp only [exec_takeoverOverdue, execTakeoverOverdue, hTakeover, if_neg (Nat.not_le.mpr h)]

end

end Sys2Proof.Machine

namespace Sys2Proof

open Machine Machine.Reg

/-- Settles O37: a silent core is answered by what it is, a stall by whether one came before, and snapshots and takeovers by their state. -/
theorem hangMonitor : Obligations.HangMonitor := by
  refine ⟨⟨fun s n v c => execHeartbeatWrite_counts v, fun s s2 n hHeld hFrozen hMissed => ⟨execHeartbeatMiss_early, fun hDue hs2 => ?miss⟩,
      fun s s1 p e hNone => ⟨execEngineStall_moves, fun hStalled hs1 => hs1 ▸ ⟨execEngineStall_first hNone hStalled,
        fun t => execEngineStall_again hNone hStalled⟩⟩,
      fun s p e r hFind => ⟨execEngineResetOverdue_due hFind, execEngineResetOverdue_early hFind⟩⟩,
    fun s b old g hCore hTakeover hTarget hOld hg => ?snapshot,
    fun s n v q hActive hCore => ⟨fun x => execRmgAckWrite_closed hActive hCore, execRmgAckWrite_unknown hActive hCore⟩,
    fun s s1 s2 t x hTakeover => execTakeoverComplete_loads hTakeover,
    fun s t hTakeover => ⟨execTakeoverOverdue_due hTakeover, execTakeoverOverdue_early hTakeover⟩⟩
  case miss =>
    have hMark : ∀ i, n.val = i → s2 = s.markMissed i := fun i hi => hi ▸ hs2
    refine ⟨fun hRmg hOther => ?_, fun hRmg hOther => ⟨fun hActive => ?_, fun hStandby => ?_⟩,
      fun hCore hTest hService hOnce => ⟨fun hPolicy => ?_, fun hPolicy => ?_⟩, fun hCore hOnce => ?_⟩
    · rw [execHeartbeatMiss_rmg hHeld hFrozen hMissed hDue hRmg, ← hMark n rfl, State.missRmg_both hOther]
    · rw [execHeartbeatMiss_rmg hHeld hFrozen hMissed hDue hRmg, ← hMark n rfl, State.missRmg_active hOther hActive]
    · rw [execHeartbeatMiss_rmg hHeld hFrozen hMissed hDue hRmg, ← hMark n rfl, State.missRmg_standby hOther hStandby]
    · rw [execHeartbeatMiss_cc2 hHeld hFrozen hMissed hDue hCore, ← hMark 2 hCore, State.missCc2_device hTest hService hOnce hPolicy]
    · rw [execHeartbeatMiss_cc2 hHeld hFrozen hMissed hDue hCore, ← hMark 2 hCore, State.missCc2_parts hTest hService hOnce hPolicy]
    · rw [execHeartbeatMiss_cc3 hHeld hFrozen hMissed hDue hCore, ← hMark 3 hCore, State.missCc3_once hOnce]
  case snapshot =>
    have hServes := execRmgSnapshot_serves hCore hTakeover hTarget hOld
    refine ⟨fun hClosed hEarly => ?_, fun hClosed hDue => ⟨_, ?_, rfl⟩, fun hOpen => ?_⟩
    · rw [hServes, if_neg (Bool.eq_false_iff.mp hClosed), if_pos hEarly]
    · rw [hServes, if_neg (Bool.eq_false_iff.mp hClosed), if_neg (Nat.not_lt.mpr hDue)]
    · rw [hServes, if_pos hOpen, hg]

end Sys2Proof
end

section
/-!
PROOF. Media instructions (06_instruction_reference.md: Media and checkpoint instructions; 18_media_engine.md: Running a session, Errors
and concealment, Encoding).
-/
namespace Sys2Proof.Machine

open Reg

theorem exec_mdec (r : ListRef) (es : List Byte) (s : State) : exec (.mdec r es) s = execMdec r es s := rfl

theorem exec_menc (r : ListRef) (s : State) : exec (.menc r) s = execMenc r s := rfl

theorem exec_mflush (r : ListRef) (pics : List PicFacts) (pool : PoolTraffic) (s : State) :
    exec (.mflush r pics pool) s = execMflush r pics pool s := rfl

theorem exec_mediaDecodeComplete (r : ListRef) (d : DecodeResult) (s : State) :
    exec (.mediaDecodeComplete r d) s = execMediaDecodeComplete r d s := rfl

theorem exec_mediaEncodeComplete (r : ListRef) (d : EncodeResult) (s : State) :
    exec (.mediaEncodeComplete r d) s = execMediaEncodeComplete r d s := rfl

/-! ### A list takes its place on a session: R398 -/

/-- The list that runs an instruction on session `n`. -/
def RunList.onMedia (l : RunList) (n : Nat) : RunList := { l with work := .media n, total := 1, done := [] }

/-- The session with the instruction of `l` in its turn, once `y` knows what its entropy engine parses. -/
def State.joined (s : State) (l : RunList) (n : Nat) (y : SessSt) (busy : List (Nat × Nat)) : State :=
  (({ s with lists := [l.onMedia n] }).setSess n (some { y with busy := busy ++ [(l.queue, l.desc)] })).wr (medSessStatusBusy n) 1

section
variable {s : State} {l : RunList} {n : Nat} {x : SessSt} (hLists : s.lists = [l]) (hSess : s.sess n = some x) (es : List Byte)
include hLists hSess

theorem State.joinSession_free (hFree : x.busy = []) : s.joinSession l n es = s.joined l n { x with unparsed := es } x.busy := by
  simp only [State.joinSession, hSess, if_pos hFree]
  rw [State.setList_alone s _ l hLists (by exact rfl) (by exact rfl)]
  exact Eq.refl _

theorem State.joinSession_behind (hBusy : x.busy ≠ []) :
    s.joinSession l n es = s.joined l n { x with later := x.later ++ [((l.queue, l.desc), es)] } x.busy := by
  simp only [State.joinSession, hSess, if_neg hBusy]
  rw [State.setList_alone s _ l hLists (by exact rfl) (by exact rfl)]
  exact Eq.refl _

end

/-! ### What an instruction reads: R114, R402 -/

section
variable {s t : State} (ht : t = { s with lists := t.lists, media := t.media, regs := t.regs }) (hUp : t.linkUp = s.linkUp)
  (hId : t.on fabDevIdValid = s.on fabDevIdValid)
include ht hUp hId

/-- Reading memory asks nothing of the lists and the sessions, and of the registers only whether host and fabric are reached. -/
theorem State.readByte_sessions (p : Nat) (whole : Bool) (a : Nat) : t.readByte p whole a = s.readByte p whole a := by
  have hPlace : t.place p whole a = s.place p whole a := by rw [ht]; rfl
  have hMem : t.mem = s.mem := by rw [ht]
  have hHost : t.hostOk p = s.hostOk p := by
    have hLink : t.link = s.link := by rw [ht]
    rw [State.hostOk, State.hostOk, hUp, hLink]
  unfold State.readByte
  rw [hPlace, hMem, hHost, hId]

theorem State.readBytes_sessions (p : Nat) (whole : Bool) (a n : Nat) : t.readBytes p whole a n = s.readBytes p whole a n := by
  induction n generalizing a with
  | zero => rfl
  | succ n ih =>
    unfold State.readBytes
    rw [State.readByte_sessions ht hUp hId, ih]

end

theorem State.joined_lists (s : State) (l : RunList) (n : Nat) (y : SessSt) (busy : List (Nat × Nat)) :
    (s.joined l n y busy).lists = [l.onMedia n] := by
  rw [State.joined, State.wr_lists, State.setSess_lists]

theorem State.joined_sess (s : State) (l : RunList) (n : Nat) (y : SessSt) (busy : List (Nat × Nat)) :
    (s.joined l n y busy).sess n = some { y with busy := busy ++ [(l.queue, l.desc)] } := by
  have hWr : ∀ (u : State) (f : Fld) (v : Nat), (u.wr f v).sess n = u.sess n := fun _ _ _ => rfl
  rw [State.joined, hWr, State.sess_setSess, if_pos rfl]

theorem State.joined_mem (s : State) (l : RunList) (n : Nat) (y : SessSt) (busy : List (Nat × Nat)) :
    (s.joined l n y busy).mem = s.mem := by
  rw [State.joined, State.wr_mem, State.setSess_mem]

/-- Nothing that a list reads changes as it takes its place on a session. -/
theorem State.rangeFaults_joined (s : State) (l : RunList) (n : Nat) (y : SessSt) (busy : List (Nat × Nat)) (rs : List (Nat × Nat)) :
    (s.joined l n y busy).rangeFaults (l.onMedia n) rs = s.rangeFaults l rs := by
  have hApart : ∀ g : Fld, g.addr < 0x600000 → (medSessStatusBusy n).apart g = true := by
    intro g hg
    have hAddr : (medSessStatusBusy n).addr ≠ g.addr := by simp only [medSessStatusBusy, medSessStatus]; omega
    rw [Fld.apart, decide_eq_true hAddr, Bool.true_or, Bool.true_or]
  have hOn : ∀ g : Fld, g.addr < 0x600000 → (s.joined l n y busy).on g = s.on g := fun g hg => by
    rw [State.on, State.joined, State.rd_wr_apart _ 1 (hApart g hg) (by exact of_decide_eq_true rfl)]
    rfl
  have hBytes : ∀ p a m, (s.joined l n y busy).readBytes p false a m = s.readBytes p false a m := fun p a m =>
    State.readBytes_sessions rfl (hOn _ (by decide)) (hOn _ (by decide)) p false a m
  simp only [State.rangeFaults, hBytes]
  rfl

/-- Ranges that read without an error, in a memory that holds none, are read without effect. -/
theorem State.touchRanges_read {s : State} (hFlaws : s.mem.flaws = []) (l : RunList) (rs : List (Nat × Nat)) : s.touchRanges l rs [] = s :=
  if_pos ⟨rfl, hFlaws⟩

/-! ### MFLUSH: R400 -/

/-- A list alone whose instruction is the first on its session. -/
theorem State.onSession_alone {u : State} {k : RunList} {r : ListRef} {op n : Nat} {w : Word128} {x : SessSt} (hl : u.lists = [k])
    (hQueue : k.queue = r.queue.val) (hDesc : k.desc = r.desc) (hWork : k.work = .media n) (hWord : k.word = some w)
    (hEnding : k.ending = none) (hSess : u.sess n = some x) (hOp : bitsOf w.toNat 0 8 = op)
    (hHead : x.busy.head? = some (k.queue, k.desc)) : u.onSession r op = some (k, w.toNat, n, x) := by
  simp only [State.onSession, ← hQueue, ← hDesc, State.findList_alone u k hl, hWork, hWord, hEnding, hSess, hOp, hHead, and_self, if_true]

/-- A list that is to begin an instruction runs none on a session. -/
theorem State.onSession_ready {u : State} {k : RunList} {r : ListRef} (hl : u.lists = [k]) (hQueue : k.queue = r.queue.val)
    (hDesc : k.desc = r.desc) (hReady : k.work = .ready) (op : Nat) : u.onSession r op = none := by
  simp only [State.onSession, ← hQueue, ← hDesc, State.findList_alone u k hl, hReady]

/-- With no picture held the flush leaves the session waiting for a random access point. -/
theorem State.flush_empty {u : State} {r : ListRef} {k : RunList} {w n : Nat} {x : SessSt} (hOn : u.onSession r 0x62 = some (k, w, n, x))
    (hFlaws : u.mem.flaws = []) (hFaults : u.rangeFaults k (x.ownReads ⟨[], []⟩) = []) (hReady : x.ready = []) :
    u.flush r [] ⟨[], []⟩ = (u.setSess n (some { x with ready := [], waitRap := true })).mediaDone k := by
  have hClean : dataError [] = none := rfl
  simp only [State.flush, hOn, hFaults, hClean, State.touchRanges_read hFlaws, hReady, List.append_nil, List.zipIdx_nil, List.foldl_nil,
    State.writePool, List.filter_nil]

/-- The instruction of a list alone leaves its session as it completes. -/
theorem State.mediaDone_alone {u : State} {k : RunList} {n : Nat} {y : SessSt} (hl : u.lists = [k]) (hWork : k.work = .media n)
    (hSess : u.sess n = some y) :
    u.mediaDone k = (((u.setSess n (some (y.leave (k.queue, k.desc)))).wr (medSessStatusBusy n)
      ((y.leave (k.queue, k.desc)).busy != []).toNat).completeInstr k false).settle := by
  have hEnds : ¬ (y.busy.head? = some (k.queue, k.desc) ∧ (0 = 0x20 ∨ 0 = 0x21 ∨ 0 = 0x30 ∨ 0 = 0x31)) := by omega
  simp only [State.mediaDone, State.findList_alone u k hl, State.leaveSession, hWork, hSess, if_neg hEnds]

theorem SessSt.leave_alone {y : SessSt} {me : Nat × Nat} (h : y.busy = [me]) : (y.leave me).busy = [] := by
  unfold SessSt.leave
  split <;> simp [h]

theorem execMflush_flushes {s t : State} {r : ListRef} {l : RunList} {w : Nat} {x y : SessSt} (h : s.lone r 0x62 l w)
    (hLegal : leftover w [(8, 8)] = false) (hBad : s.badSession l w true = false) (hSess : s.sess (fSession w) = some x)
    (hBusy : x.busy = []) (hReady : x.ready = []) (hFaults : s.rangeFaults l (x.ownReads ⟨[], []⟩) = [])
    (hy : y = { x with unparsed := [], busy := [(l.queue, l.desc)], ready := [], waitRap := true })
    (ht : t = ((((s.setSess (fSession w) (some { x with unparsed := [], busy := [(l.queue, l.desc)] })).wr (medSessStatusBusy (fSession w))
      1).setSess (fSession w) (some y)).setSess (fSession w) (some (y.leave (l.queue, l.desc)))).wr (medSessStatusBusy (fSession w)) 0)
    (hUntraced : t.untraced = true) (hCalm : t.calm = true) (hFollows : t.follows l = true) :
    exec (.mflush r [] ⟨[], []⟩) s = .next { t with lists := [t.onward l] } := by
  obtain ⟨_, hCalm0, hLists, _, hListFaults, hAsks, hExt⟩ := id h
  obtain ⟨hQueue, hDesc, hRunning, hEnding, hBegins, ⟨word, hWord, hw⟩, hOp⟩ := State.lone_list h
  have hLone := State.lone_queue h
  obtain ⟨n, hn⟩ : ∃ n, n = fSession w := ⟨_, rfl⟩
  rw [← hn] at hSess ht
  obtain ⟨k, hk⟩ : ∃ k : RunList, k = l.onMedia n := ⟨_, rfl⟩
  obtain ⟨v, hv⟩ : ∃ v : State, v = s.joined l n { x with unparsed := [] } x.busy := ⟨_, rfl⟩
  have hJoin : s.joinSession l n [] = v := by rw [hv, State.joinSession_free hLists hSess [] hBusy]
  have hFirst : v.sess n = some { x with unparsed := [], busy := [(l.queue, l.desc)] } := by rw [hv, State.joined_sess, hBusy]; rfl
  have hAlone : v.lists = [k] := by rw [hv, hk, State.joined_lists]
  have hTurn : v.onSession r 0x62 = some (k, w, n, { x with unparsed := [], busy := [(l.queue, l.desc)] }) := by
    rw [hw]
    exact State.onSession_alone hAlone (hk ▸ hQueue) (hk ▸ hDesc) (by rw [hk]; rfl) (by rw [hk]; exact hWord) (by rw [hk]; exact hEnding)
      hFirst (hw ▸ hOp) (by rw [hk]; rfl)
  have hFlush : v.flush r [] ⟨[], []⟩ = (v.setSess n (some y)).mediaDone k := by
    have hFlaws : v.mem.flaws = [] := by rw [hv, State.joined_mem]; exact (State.calm_parts hCalm0).1
    have hNone : v.rangeFaults k (x.ownReads ⟨[], []⟩) = [] := by rw [hv, hk, State.rangeFaults_joined, hFaults]
    rw [State.flush_empty hTurn hFlaws hNone hReady, hy]
  have hMem : t.mem = s.mem := by
    rw [ht, State.wr_mem, State.setSess_mem, State.setSess_mem, State.wr_mem, State.setSess_mem]
  have hLeave : (v.setSess n (some y)).mediaDone k = ({ t with lists := [t.onward l] } : State) := by
    have hMe : (k.queue, k.desc) = (l.queue, l.desc) := by rw [hk]; rfl
    have hLeft : ((v.setSess n (some y)).setSess n (some (y.leave (l.queue, l.desc)))).wr (medSessStatusBusy n) 0 =
        { t with lists := [k] } := by
      rw [hv, ht, hk, State.joined, hBusy]
      exact Eq.refl _
    have hEmpty : (y.leave (l.queue, l.desc)).busy = [] := SessSt.leave_alone (by rw [hy])
    obtain ⟨hRun, hOn, hOpen⟩ := State.onward_list hRunning hFollows
    rw [State.mediaDone_alone (y := y) (hAlone ▸ State.setSess_lists ..) (by rw [hk]; rfl) ((State.sess_setSess ..).trans (if_pos rfl)),
      hMe, hEmpty, bne_self_eq_false, Bool.toNat_false, hLeft,
      State.completeInstr_after hUntraced hCalm (by rw [hMem, hExt]) (fun now => by rw [hk]; rfl)
        hLone hListFaults (by rw [hk]; exact hAsks)
        hFollows,
      State.settle_alone _ (t.onward l) (by exact rfl) hRun hOn hOpen]
  rw [exec_mflush, execMflush, State.onSession_ready hLists hQueue hDesc hBegins, State.instr_alone h _ _ (by rw [hLegal, hBad]; rfl),
    ← hn, hJoin, hFlush, hLeave, State.wrapUp_onward hCalm hRunning hFollows]

/-! ### MDEC and MENC: R398 -/

theorem State.lone_lists {s : State} {r : ListRef} {op : Nat} {l : RunList} {w : Nat} (h : s.lone r op l w) : s.lists = [l] := by
  obtain ⟨_, _, hLists, _⟩ := h
  exact hLists

theorem execMdec_joins {s : State} {r : ListRef} {l : RunList} {w : Nat} (h : s.lone r 0x60 l w)
    (hLegal : lowest (s.mediaCauses l w true) = none) (es : List Byte) :
    exec (.mdec r es) s = .next (s.joinSession l (fSession w) es).wrapUp := by
  rw [exec_mdec, execMdec, State.instr_alone h _ _ hLegal]

theorem execMenc_joins {s : State} {r : ListRef} {l : RunList} {w : Nat} (h : s.lone r 0x61 l w)
    (hLegal : lowest (s.mediaCauses l w false) = none) :
    exec (.menc r) s = .next (s.joinSession l (fSession w) []).wrapUp := by
  rw [exec_menc, execMenc, State.instr_alone h _ _ hLegal]

/-! ### A decode ends: R399, R407–R409 -/

/-- What the session remembers of the instruction that ends. -/
def SessSt.noting (x : SessSt) (w : Nat) : SessSt := { x with lastStats := fStats w, lastTensor := fTensor w, lastFmt := fFmtC w }

/-- The session once an access unit counts. -/
def SessSt.resumed (x : SessSt) : SessSt := { x with waitRap := false, halted := false }

/-- The state in which an access unit that counts has been decoded. -/
def State.decoded (s : State) (l : RunList) (n : Nat) (x : SessSt) (d : DecodeResult) : State :=
  (s.writePool l x d.pool).wr (medSessStatusState n) 1

/-- How its instruction ends: halted, with no picture, or with the first that is ready. -/
def State.decodeEnds (u : State) (l : RunList) (w n : Nat) (z : SessSt) (d : DecodeResult) : State :=
  match decodeDetail z d with
  | some t => (u.haltSession n z).mediaEnd l ⟨0x22, t⟩
  | none =>
    match z.ready ++ d.ready with
    | [] => (u.setSess n (some z)).mediaDone l
    | q :: rest =>
      ((u.setSess n (some { z with ready := rest })).releasePic l n z (u.tileTag l w 0 (mediaFmt w)) 1 q (decodeAddr l w)).mediaDone l

section
variable {s : State} {r : ListRef} {l : RunList} {w n : Nat} {x : SessSt} {d : DecodeResult} (hOn : s.onSession r 0x60 = some (l, w, n, x))
  (hFlaws : s.mem.flaws = [])
include hOn hFlaws

/-- An access unit that comes before the random access point that the session waits for is consumed with no picture. -/
theorem execMediaDecode_skips (hWait : x.waitRap = true) (hNot : d.randomAccess = false)
    (hFaults : s.rangeFaults l ((l.slot (fAsa w), fExt w 84 32) :: x.ownReads ⟨[], []⟩) = []) :
    exec (.mediaDecodeComplete r d) s = .next ((s.setSess n (some (x.noting w))).mediaDone l).wrapUp := by
  have hClean : dataError [] = none := rfl
  have hReads : ∀ p, (x.noting w).ownReads p = x.ownReads p := fun _ => rfl
  have hSkips : (x.waitRap && !d.randomAccess) = true := by rw [hWait, hNot]; rfl
  rw [SessSt.noting] at hReads ⊢
  simp only [exec_mediaDecodeComplete, execMediaDecodeComplete, hOn, hSkips, if_true, hReads, hFaults, hClean,
    State.touchRanges_read hFlaws]

/-- Any other is decoded. -/
theorem execMediaDecode_decodes (hCounts : x.waitRap = false ∨ d.randomAccess = true)
    (hFaults : s.rangeFaults l ((l.slot (fAsa w), fExt w 84 32) :: x.ownReads d.pool) = []) :
    exec (.mediaDecodeComplete r d) s = .next ((s.decoded l n (x.noting w) d).decodeEnds l w n (x.noting w).resumed d).wrapUp := by
  have hClean : dataError [] = none := rfl
  have hReads : ∀ p, (x.noting w).ownReads p = x.ownReads p := fun _ => rfl
  have hTaken : (x.waitRap && !d.randomAccess) = false := by obtain h | h := hCounts <;> simp [h]
  rw [SessSt.noting] at hReads ⊢
  simp only [exec_mediaDecodeComplete, execMediaDecodeComplete, hOn, hTaken, Bool.false_eq_true, if_false, hReads, hFaults, hClean,
    State.touchRanges_read hFlaws]
  rfl

end

section
variable {u : State} {l : RunList} {w n : Nat} {z : SessSt} {d : DecodeResult}

/-- A decode error that the session stops at halts it. -/
theorem State.decodeEnds_halted {t : Nat} (h : decodeDetail z d = some t) :
    u.decodeEnds l w n z d = (u.haltSession n z).mediaEnd l ⟨0x22, t⟩ := by
  rw [State.decodeEnds, h]

theorem State.decodeEnds_empty (h : decodeDetail z d = none) (hReady : z.ready ++ d.ready = []) :
    u.decodeEnds l w n z d = (u.setSess n (some z)).mediaDone l := by
  rw [State.decodeEnds, h, hReady]

theorem State.decodeEnds_picture {q : PicFacts} {rest : List PicFacts} (h : decodeDetail z d = none)
    (hReady : z.ready ++ d.ready = q :: rest) :
    u.decodeEnds l w n z d = ((u.setSess n (some { z with ready := rest })).releasePic l n z (u.tileTag l w 0 (mediaFmt w)) 1 q
      (decodeAddr l w)).mediaDone l := by
  rw [State.decodeEnds, h, hReady]

end

/-! ### An encode ends: R411 -/

section
variable {s : State} {r : ListRef} {l : RunList} {w n : Nat} {x : SessSt} {d : EncodeResult} (hOn : s.onSession r 0x61 = some (l, w, n, x))
  (hFlaws : s.mem.flaws = []) (hFaults : s.rangeFaults l ((l.slot (fAsa w), x.picBytes) :: x.ownReads d.pool) = [])
include hOn hFlaws hFaults

/-- A bitstream longer than its buffer ends the list, and the next picture is a key picture. -/
theorem execMediaEncode_long (hLong : fExt w 84 32 < d.bitstream.length) :
    exec (.mediaEncodeComplete r d) s = .next ((s.setSess n (some { x with forceKey := true })).mediaEnd l ⟨0x22, 0x0604⟩).wrapUp := by
  have hClean : dataError [] = none := rfl
  simp only [exec_mediaEncodeComplete, execMediaEncodeComplete, hOn, hFaults, hClean, State.touchRanges_read hFlaws, if_pos hLong]

theorem execMediaEncode_released {u : State} (hFits : d.bitstream.length ≤ fExt w 84 32) (hStats : fStats w = false)
    (hu : u = ((s.setSess n (some (x.afterPic x.keyDue (x.pictureQp d.qp)))).writePool l x d.pool).jobStore l
      (s.tileTag l w 0 (mediaFmt w)) false (l.slot (fAsc w)) d.bitstream) :
    exec (.mediaEncodeComplete r d) s =
      .next ((u.writeRel l n x (s.tileTag l w 0 (mediaFmt w)) false 0
        (u.relRecord n 2 (4 * x.keyDue.toNat + 8 * false.toNat + 32 * (!x.keyDue && x.f 90 1 != 0 && x.sweep == 0).toNat)
          (l.slot (fAsc w)) 0 0 0 d.bitstream.length (x.f 8 2) (x.f 10 2) d.order)).mediaDone l).wrapUp := by
  have hClean : dataError [] = none := rfl
  simp only [exec_mediaEncodeComplete, execMediaEncodeComplete, hOn, hFaults, hClean, State.touchRanges_read hFlaws,
    if_neg (Nat.not_lt.mpr hFits), hStats, Bool.false_eq_true, if_false, ← hu]

end

end Sys2Proof.Machine

namespace Sys2Proof

open Machine Machine.Reg

/-- Settles O19: MDEC and MENC join their session, MFLUSH runs there at once, and a decode or an encode ends as its result says. -/
theorem mediaInstructions : Obligations.MediaInstructions := by
  refine ⟨fun s r l w x hSess => ⟨fun es h hLegal => ⟨fun hFree => ?_, fun hBusy => ?_⟩, fun h hLegal hFree => ?_⟩,
    fun s t r l w x y => execMflush_flushes,
    fun s r l w n x d hOn hFlaws => ⟨execMediaDecode_skips hOn hFlaws, fun hCounts hFaults => ⟨fun t hDetail => ?_,
      fun hDetail hReady => ?_, fun q rest hDetail hReady => ?_⟩⟩,
    fun s r l w n x d hOn hFlaws hFaults => ⟨execMediaEncode_long hOn hFlaws hFaults,
      fun u hFits hStats hu => ⟨_, execMediaEncode_released hOn hFlaws hFaults hFits hStats hu⟩⟩⟩
  · rw [execMdec_joins h hLegal, State.joinSession_free (State.lone_lists h) hSess es hFree]
    rfl
  · rw [execMdec_joins h hLegal, State.joinSession_behind (State.lone_lists h) hSess es hBusy]
    rfl
  · rw [execMenc_joins h hLegal, State.joinSession_free (State.lone_lists h) hSess [] hFree]
    rfl
  · rw [execMediaDecode_decodes hOn hFlaws hCounts hFaults]
    exact congrArg (fun v : State => Host.Outcome.next v.wrapUp) (State.decodeEnds_halted hDetail)
  · rw [execMediaDecode_decodes hOn hFlaws hCounts hFaults]
    exact congrArg (fun v : State => Host.Outcome.next v.wrapUp) (State.decodeEnds_empty hDetail hReady)
  · rw [execMediaDecode_decodes hOn hFlaws hCounts hFaults]
    exact congrArg (fun v : State => Host.Outcome.next v.wrapUp) (State.decodeEnds_picture hDetail hReady)

end Sys2Proof
end

end
